-- ==== Sys2Proof/Word.lean ====
section
/-!
DEFINITION. The word types of the machine and its sparse maps (data only; the operations on maps are in
Machine/Map.lean).
-/
namespace Sys2Proof

/-- A byte of memory, of a scratchpad or of an image. -/
abbrev Byte := BitVec 8
/-- The 64-bit word: a Plimet instruction word, a virtual address, a lane value (R27, R70). -/
abbrev Word := BitVec 64
/-- One lane of a vector register (R7, R52). -/
abbrev Lane32 := BitVec 32
/-- A virtual PC: bits 31:20 the function index, bits 19:0 the word index (R22). -/
abbrev VPC := BitVec 32
/-- A set of lanes of one warp; bits 63:32 are zero on an N-die (R351). -/
abbrev Mask := BitVec 64

/-- A sparse map: pairs of a key and a value with strictly rising keys. -/
abbrev SMap (α : Type) := List (Nat × α)

/-- Function index of a virtual PC (R22). -/
def VPC.fn (v : VPC) : Nat := (v.extractLsb' 20 12).toNat
/-- Word index of a virtual PC (R22). -/
def VPC.ix (v : VPC) : Nat := (v.extractLsb' 0 20).toNat
/-- The virtual PC of word `ix` of function `fn` (R22). -/
def VPC.of (fn ix : Nat) : VPC := BitVec.ofNat 32 (fn % 4096 * 1048576 + ix % 1048576)

end Sys2Proof
end

