-- ==== Sys2Proof/Machine/Map.lean ====
section
/-!
DEFINITION. Operations on sparse maps: lookup, insertion in key order, removal; and maps with a default value, which
list no key that holds the default.
-/
namespace Sys2Proof.SMap

/-- The value at key `k`. -/
def find? {α : Type} : SMap α → Nat → Option α
  | [], _ => none
  | (i, a) :: m, k => if i = k then some a else find? m k

/-- The map with key `k` holding `v`. -/
def ins {α : Type} : SMap α → Nat → α → SMap α
  | [], k, v => [(k, v)]
  | (i, a) :: m, k, v => if k < i then (k, v) :: (i, a) :: m else if i = k then (k, v) :: m else (i, a) :: ins m k v

/-- The map without key `k`. -/
def del {α : Type} : SMap α → Nat → SMap α
  | [], _ => []
  | (i, a) :: m, k => if i = k then m else (i, a) :: del m k

/-- The value at `k` of a map whose unlisted keys hold `d`. -/
def getD {α : Type} (m : SMap α) (d : α) (k : Nat) : α := (find? m k).getD d

/-- The map with `k` holding `v`, listing nothing that holds `d`. -/
def putD {α : Type} [DecidableEq α] (m : SMap α) (d : α) (k : Nat) (v : α) : SMap α :=
  if v = d then del m k else ins m k v

/-- The map with `k` changed by `f`, if it is listed. -/
def upd {α : Type} (m : SMap α) (k : Nat) (f : α → α) : SMap α :=
  match find? m k with
  | some a => ins m k (f a)
  | none => m

/-- The keys strictly rise from above `lo`. -/
def risingFrom {α : Type} (lo : Nat) : SMap α → Bool
  | [] => true
  | (i, _) :: m => decide (lo ≤ i) && risingFrom (i + 1) m

/-- The canonical form of a map with default `d`. -/
def wf {α : Type} [DecidableEq α] (d : α) (m : SMap α) : Bool :=
  risingFrom 0 m && m.all (fun p => decide (p.2 ≠ d))

/-- The first entry, in key order, that a test accepts. -/
def first {α : Type} (m : SMap α) (p : Nat × α → Bool) : Option (Nat × α) := List.find? p m

/-- Every listed value, in key order. -/
def values {α : Type} (m : SMap α) : List α := m.map (·.2)

/-- Writes a list of values at consecutive keys from `k`. -/
def putsD {α : Type} [DecidableEq α] (m : SMap α) (d : α) (k : Nat) : List α → SMap α
  | [] => m
  | v :: vs => putsD (putD m d k v) d (k + 1) vs

/-- Reads `n` values at consecutive keys from `k`. -/
def getsD {α : Type} (m : SMap α) (d : α) (k : Nat) : Nat → List α
  | 0 => []
  | n + 1 => getD m d k :: getsD m d (k + 1) n

end Sys2Proof.SMap

namespace Sys2Proof

/-- The little-endian number of a list of bytes (R4 notation: multi-byte values are little-endian). -/
def leNat : List Byte → Nat
  | [] => 0
  | b :: bs => b.toNat + 256 * leNat bs

/-- The `n` little-endian bytes of a number. -/
def leBytes : Nat → Nat → List Byte
  | 0, _ => []
  | n + 1, v => BitVec.ofNat 8 v :: leBytes n (v / 256)

/-- Bits `hi:lo` of a number. -/
def bitsOf (v lo w : Nat) : Nat := v / 2 ^ lo % 2 ^ w

/-- The lanes of a mask, ascending. -/
def Mask.lanes (m : Mask) : List Nat := (List.range 64).filter (fun l => m.getLsbD l)

/-- The mask of a list of lanes. -/
def Mask.of (ls : List Nat) : Mask := ls.foldl (fun m l => m ||| (1#64 <<< l)) 0

/-- Rounds `n` up to a multiple of `k`. -/
def roundUp (n k : Nat) : Nat := (n + k - 1) / k * k

/-- The `i`-th element, or `d`. -/
def nth {α : Type} (l : List α) (d : α) (i : Nat) : α := (l[i]?).getD d

/-- The list with its `i`-th element replaced. -/
def setNth {α : Type} (l : List α) (i : Nat) (a : α) : List α := l.set i a

/-- The bit length of `n`. -/
def bitLen (n : Nat) : Nat := if n = 0 then 0 else Nat.log2 n + 1

end Sys2Proof
end

