-- ==== Sys2Proof/Syntax.lean ====
section
/-!
DEFINITION. The syntax: operand forms of both levels, the names of the 9-bit opcodes, and ONE inductive `Instr`
with a constructor for every row of the table of operations and events.
-/
namespace Sys2Proof

/-- The types of R23. `b8 v p` is a binary8 type of variant V (0 signed with infinities, 1 signed finite,
2 unsigned with infinities, 3 unsigned finite) and precision P; `none` is the unused entry. -/
inductive Ty where
  | none | i1 | i8 | i16 | i32 | i64 | f16 | bf16 | f32 | f64
  | b8 (v : Fin 4) (p : Fin 8)
  | sc8 | tok | ptrG | ptrP | ptrS | ptrK
  deriving DecidableEq, Repr

/-- One operand of a Plimet word: the kinds of R28, long back-references already joined (R32). -/
inductive Operand where
  | back (d : Nat)               -- value n - d
  | imm (v : BitVec 12)          -- signed 12-bit integer
  | konst (i : BitVec 12)        -- constant-pool entry
  | none
  | special (c : BitVec 12)      -- special value of R30
  | index (i : BitVec 12)        -- function or block index
  deriving DecidableEq, Repr

/-- The fields of a Plimet instruction word after decoding (R27, R28), with its extra operands in the order of R32. -/
structure PForm where
  ty : BitVec 4
  md : BitVec 3
  a : Operand
  b : Operand
  c : Operand
  ext : List Operand
  deriving DecidableEq, Repr

/-- The fields of a bundle slot (R49), with the slot number it stands in. -/
structure NForm where
  slot : BitVec 2
  ntype : BitVec 4
  md : BitVec 3
  gs : BitVec 2
  dst : BitVec 11
  sa : BitVec 11
  sb : BitVec 11
  sc : BitVec 11
  aux : BitVec 12
  deriving DecidableEq, Repr

/-- An operation at either level: both levels share one opcode map (R59). -/
inductive Form where
  | p (w : PForm)
  | n (w : NForm)
  deriving DecidableEq, Repr

/-- A translation key (R138). `cap` is the register cap C; `mode` is 0 normal, 1 plain, 2 and 3 resume. -/
structure TKey where
  mhash : BitVec 64
  fidx : Nat
  dkind : Nat
  mode : Nat
  cap : Nat
  rpc : VPC
  deriving DecidableEq, Repr

/-- A direction round the convoy ring (R295). -/
inductive Dir where
  | cw | ccw
  deriving DecidableEq, Repr

/-- Why a gang is halted (R356). -/
inductive HaltWhy where
  | preempt | cancel | migrate | stop | fail
  deriving DecidableEq, Repr

/-- What the scrubber finds in a burst (R64, R65). -/
inductive BurstState where
  | clean | corrected | uncorrectable
  deriving DecidableEq, Repr

/-- The units that report ready (R394, R424): the CAUSE values 0 to 5 of event kinds 0x08 and 0x09. -/
inductive UnitKind where
  | die | cluster | channelGroup | hop | spine | pUnit
  deriving DecidableEq, Repr

/-- One die's sensors at a sample (R399): watts, hottest sensor in degrees Celsius, rail currents in amperes. -/
structure Reading where
  watts : Nat
  temp : Nat
  amps : List Nat
  deriving DecidableEq, Repr

/-- The header of a host request (R391): target die, context, tag. -/
structure Hdr where
  die : Nat
  ctx : Nat
  tag : BitVec 64
  deriving DecidableEq, Repr

/-- A path as a debug request names it: DIE, CORE, WARP, PIDX and MASK of the path record (R373, R419). -/
structure PathName where
  die : Nat
  cluster : Nat
  core : Nat
  warp : Nat
  pidx : Nat
  mask : Mask
  deriving DecidableEq, Repr

/-- The assigned operation names of the shared opcode map (R59). `frame` with MOD 0 is `frameEnter`, with MOD 1
`frameLeave` (R153). -/
inductive Op where
  | br | brc | switch | call | callx | ret | exit | trap
  | unreach | const | sreg | select | trapInfo | trapRet | add | sub
  | mul | mulhi | mad | div | rem | neg | abs | min
  | max | and | or | xor | andn | not | shl | shr
  | rotl | rotr | popc | clz | ctz | brev | bfx | bfi
  | ext | trunc | icmp | adr | bsel | fadd | fsub | fmul
  | fdiv | fsqrt | fma | fmin | fmax | fneg | fabs | fcopysign
  | fcmp | fclass | frint | fcvt | fcvti | icvtf | fscaleb | flogb
  | fexcRd | fexcClr | fmodeSet | fmodeRd | pk8 | upk8 | bscale | lanex
  | vote | lgred | lgscan | matchLanes | sfEval | sfLoad | ld | st
  | prefetch | amo | cas | red | fence | bxShape | bxCopy | bxConv
  | bxFill | bxGather | bxScatter | bxRed | waitTok | tokAll | tokStatus | waitChunks
  | testChunks | clrChunks | mxZero | mxLd | mxStep | mxLoop | mxStore | mxMode
  | mxRead | xcSwap | barJoin | barLeave | barArrive | barWait | barSync | yield
  | cpKey | cpBid | cpGate | cpWon | cpMax | cpDie | cpRound | cpLast
  | cvTurn | cvSplit | brk | dbgMark | rdclk | rdcnt | sys | spill
  | fill | vmov | smov | v2s | s2v | pset | pclr | pathSplit
  | pathJoin | waitCnt | tqPop | tqPush | jmp | ncall | nret | frameEnter
  | frameLeave | entry | bnop
  deriving DecidableEq, Repr

/-- The rows of the table of operations and events, one constructor each. Operations carry the form of the level they
stand at; events carry what names their agent and what the outside world supplies. -/
inductive Instr where
  /-- R183: Passes control unconditionally to the target block with its arguments. -/
  | br (f : PForm)
  /-- R184: Branches to the true or the false target block on an i1 condition. -/
  | brc (f : PForm)
  /-- R185: Branches to case zx(k) when it is below n, and to the default block otherwise. -/
  | switch (f : PForm)
  /-- R186: Calls a function by index with its arguments; the result is defined when the callee returns. -/
  | call (f : PForm)
  /-- R187: Calls through a run-time function index, checking every lane and calling distinct indices in ascending order. -/
  | callx (f : PForm)
  /-- R188: Returns the result to the caller with every lane of the call together. -/
  | ret (f : PForm)
  /-- R189: Removes the active lanes from the path and leaves their barrier sets; the thread finishes when its commands complete. -/
  | exit (f : Form)
  /-- R190: Raises a user trap that names every active lane, with the code and the virtual PC. -/
  | trap (f : Form)
  /-- R191: Raises an unreachable trap that names every active lane. -/
  | unreach (f : PForm)
  /-- R179: Defines a value of TYPE from an immediate, a constant-pool entry or a special value. -/
  | const (f : PForm)
  /-- R180: Reads a placement register such as tid, wgid, die or warp. -/
  | sreg (f : Form)
  /-- R178: Yields a when the condition is 1 and b when it is 0. -/
  | select (f : Form)
  /-- R354: Reads one field of the current trap record in a handler. -/
  | trapInfo (f : Form)
  /-- R355: Leaves a handler, each lane resuming, skipping with a value, or being killed. -/
  | trapRet (f : Form)
  /-- R169: Integer add, wrapping or saturating. -/
  | add (f : Form)
  /-- R169: Integer subtract, wrapping or saturating. -/
  | sub (f : Form)
  /-- R168: Low W bits of the product. -/
  | mul (f : Form)
  /-- R168: High W bits of the exact signed or unsigned product. -/
  | mulhi (f : Form)
  /-- R169: Computes a·b + c, wrapping or saturating. -/
  | mad (f : Form)
  /-- R170: Integer quotient, with the divide-by-zero flag and trap. -/
  | div (f : Form)
  /-- R170: Integer remainder, with the divide-by-zero flag and trap. -/
  | rem (f : Form)
  /-- R169: Integer negation, wrapping or saturating. -/
  | neg (f : Form)
  /-- R169: Integer absolute value, wrapping or saturating. -/
  | abs (f : Form)
  /-- R168: The lesser of two integers, read signed or unsigned. -/
  | min (f : Form)
  /-- R168: The greater of two integers, read signed or unsigned. -/
  | max (f : Form)
  /-- R168: Bitwise AND. -/
  | and (f : Form)
  /-- R168: Bitwise OR. -/
  | or (f : Form)
  /-- R168: Bitwise XOR. -/
  | xor (f : Form)
  /-- R168: Computes a AND NOT b. -/
  | andn (f : Form)
  /-- R168: Bitwise NOT. -/
  | not (f : Form)
  /-- R171: Shifts left by n mod W. -/
  | shl (f : Form)
  /-- R171: Shifts right, arithmetic or logical. -/
  | shr (f : Form)
  /-- R171: Rotates towards the high end. -/
  | rotl (f : Form)
  /-- R171: Rotates towards the low end. -/
  | rotr (f : Form)
  /-- R171: Counts the 1 bits. -/
  | popc (f : Form)
  /-- R171: Counts the leading zero bits. -/
  | clz (f : Form)
  /-- R171: Counts the trailing zero bits. -/
  | ctz (f : Form)
  /-- R171: Reverses the bit order. -/
  | brev (f : Form)
  /-- R172: Extracts a bit field, sign- or zero-extended. -/
  | bfx (f : Form)
  /-- R172: Inserts a bit field. -/
  | bfi (f : Form)
  /-- R173: Widens an integer, sign- or zero-extended. -/
  | ext (f : Form)
  /-- R173: Narrows an integer to its low bits. -/
  | trunc (f : Form)
  /-- R176: Compares integers or pointers under a predicate. -/
  | icmp (f : Form)
  /-- R175: Pointer arithmetic and conversion between pointers and integers, never faulting. -/
  | adr (f : Form)
  /-- R174: Selects result bytes from a or b under control fields. -/
  | bsel (f : Form)
  /-- R208: Floating add, rounded once. -/
  | fadd (f : Form)
  /-- R208: Floating subtract, rounded once. -/
  | fsub (f : Form)
  /-- R208: Floating multiply, rounded once. -/
  | fmul (f : Form)
  /-- R208: Floating divide, rounded once. -/
  | fdiv (f : Form)
  /-- R208: Floating square root, rounded once. -/
  | fsqrt (f : Form)
  /-- R208: Fused multiply-add with one rounding. -/
  | fma (f : Form)
  /-- R210: minimumNumber or minimum. -/
  | fmin (f : Form)
  /-- R210: maximumNumber or maximum. -/
  | fmax (f : Form)
  /-- R208: Inverts the sign bit. -/
  | fneg (f : Form)
  /-- R208: Clears the sign bit. -/
  | fabs (f : Form)
  /-- R208: Takes the sign bit from b. -/
  | fcopysign (f : Form)
  /-- R212: Floating comparison under a quiet or signalling predicate. -/
  | fcmp (f : Form)
  /-- R213: Classifies a floating, binary8 or sc8 value into one bit. -/
  | fclass (f : Form)
  /-- R215: Rounds to an integral value in the same format. -/
  | frint (f : Form)
  /-- R214: Converts between floating, binary8 and sc8 formats. -/
  | fcvt (f : Form)
  /-- R216: Converts a float to an integer. -/
  | fcvti (f : Form)
  /-- R216: Converts an integer to a float. -/
  | icvtf (f : Form)
  /-- R217: Computes a × 2^n, rounded. -/
  | fscaleb (f : Form)
  /-- R217: Yields the exponent floor(log2 |a|). -/
  | flogb (f : Form)
  /-- R221: Reads the thread's sticky flags. -/
  | fexcRd (f : Form)
  /-- R221: Clears the named flags. -/
  | fexcClr (f : Form)
  /-- R221: Writes the mode word and optionally the SR seed. -/
  | fmodeSet (f : Form)
  /-- R221: Reads the mode word or the seed. -/
  | fmodeRd (f : Form)
  /-- R218: Converts two f32 values to binary8 and packs them. -/
  | pk8 (f : Form)
  /-- R219: Unpacks one binary8 byte to f32. -/
  | upk8 (f : Form)
  /-- R220: Multiplies or divides by an sc8 block scale. -/
  | bscale (f : Form)
  /-- R225: Exchanges values between the lanes of one lane group. -/
  | lanex (f : Form)
  /-- R226: all, any, ballot or eq over the lane group. -/
  | vote (f : Form)
  /-- R229: Reduces the lane group by a fixed pairwise tree. -/
  | lgred (f : Form)
  /-- R229: Scans the lane group in ascending lane order. -/
  | lgscan (f : Form)
  /-- R227: Gives each lane the mask of lanes that hold equal bits. -/
  | matchLanes (f : Form)
  /-- R230: Evaluates a fixed special function or the activation table. -/
  | sfEval (f : Form)
  /-- R237: Loads a table image into the non-current bank, then flips the bank and raises the version. -/
  | sfLoad (f : Form)
  /-- R136: Loads from global, peer, scratch or stack memory. -/
  | ld (f : Form)
  /-- R136: Stores to global, peer, scratch or stack memory. -/
  | st (f : Form)
  /-- R137: Fills a line into the caches, or is dropped. -/
  | prefetch (f : Form)
  /-- R267: Atomic read-modify-write at the home. -/
  | amo (f : Form)
  /-- R267: Atomic compare-and-swap at the home. -/
  | cas (f : Form)
  /-- R270: Reduction at the home; lanes naming one word are folded first. -/
  | red (f : Form)
  /-- R288: Acquire, release, sc or full fence at a scope. -/
  | fence (f : Form)
  /-- R115: Loads a shape register from a 128-byte record. -/
  | bxShape (f : Form)
  /-- R110: Queues a shaped copy between a far side and a near region. -/
  | bxCopy (f : Form)
  /-- R111: Queues a convolution window gather. -/
  | bxConv (f : Form)
  /-- R112: Queues a fill of a region with a value. -/
  | bxFill (f : Form)
  /-- R113: Queues a gather with the outermost coordinate taken from an index list. -/
  | bxGather (f : Form)
  /-- R113: Queues a scatter with the outermost coordinate taken from an index list. -/
  | bxScatter (f : Form)
  /-- R114: Queues a copy that adds each element atomically at its destination. -/
  | bxRed (f : Form)
  /-- R116: Pops a token entry for each lane and returns the failed bit. -/
  | waitTok (f : Form)
  /-- R117: Combines input tokens into one token. -/
  | tokAll (f : Form)
  /-- R116: Pops a token entry for each lane and returns its status word. -/
  | tokStatus (f : Form)
  /-- R118: Waits until no chunk of the range is empty, then acquires it. -/
  | waitChunks (f : Form)
  /-- R118: Returns the chunk states without waiting. -/
  | testChunks (f : Form)
  /-- R118: Waits for the locks to clear, then empties the range. -/
  | clrChunks (f : Form)
  /-- R258: Queues the zeroing of an accumulator tile. -/
  | mxZero (f : Form)
  /-- R258: Queues the loading of an accumulator from scratch. -/
  | mxLd (f : Form)
  /-- R259: Queues one matrix step. -/
  | mxStep (f : Form)
  /-- R259: Queues n matrix steps with address increments. -/
  | mxLoop (f : Form)
  /-- R260: Queues the conversion and storing of an accumulator. -/
  | mxStore (f : Form)
  /-- R251: Queues a mode word change. -/
  | mxMode (f : Form)
  /-- R261: Reads an accumulator element or its flag word. -/
  | mxRead (f : Form)
  /-- R278: Submits a cross-cluster swap that waits for a partner by key. -/
  | xcSwap (f : Form)
  /-- R346: Joins a barrier membership set. -/
  | barJoin (f : Form)
  /-- R346: Leaves a barrier membership set. -/
  | barLeave (f : Form)
  /-- R346: Arrives at a barrier and returns the phase. -/
  | barArrive (f : Form)
  /-- R346: Waits until the phase changes or DEF is set. -/
  | barWait (f : Form)
  /-- R346: Arrives, then waits on the phase it returned. -/
  | barSync (f : Form)
  /-- R349: Makes the path the youngest for the next selection. -/
  | yield (f : Form)
  /-- R323: Maps a value to an order-preserving 64-bit key. -/
  | cpKey (f : Form)
  /-- R324: Queues a bid on a contest identifier for each lane. -/
  | cpBid (f : Form)
  /-- R325: Sets GATE of an identifier on this die. -/
  | cpGate (f : Form)
  /-- R326: Pops a bid result and returns the lane's won bit. -/
  | cpWon (f : Form)
  /-- R326: Pops a bid result and returns the winning key. -/
  | cpMax (f : Form)
  /-- R326: Pops a bid result and returns the winning die. -/
  | cpDie (f : Form)
  /-- R326: Pops a bid result and returns the round. -/
  | cpRound (f : Form)
  /-- R327: Reads LAST of an identifier without bidding. -/
  | cpLast (f : Form)
  /-- R302: Queues a turn of strands of a hop to a direction. -/
  | cvTurn (f : Form)
  /-- R305: Reads the strand split of a hop. -/
  | cvSplit (f : Form)
  /-- R381: Stops a debug gang with a code when a debugger is attached. -/
  | brk (f : Form)
  /-- R382: Writes a marker record into the manifest ring. -/
  | dbgMark (f : Form)
  /-- R388: Reads the die cycle count or package time. -/
  | rdclk (f : Form)
  /-- R389: Reads a running manifest counter total. -/
  | rdcnt (f : Form)
  /-- R401: Sends a system request to the kernel after an sc fence and waits for the reply. -/
  | sys (f : Form)
  /-- R154: Writes a register to a frame or outgoing spill slot. -/
  | spill (f : NForm)
  /-- R154: Reads a spill slot into a register. -/
  | fill (f : NForm)
  /-- R154: Copies a source to a vector register. -/
  | vmov (f : NForm)
  /-- R154: Copies a scalar, or loads a literal, into a scalar register. -/
  | smov (f : NForm)
  /-- R154: Moves the first lane, or a ballot, to a scalar register. -/
  | v2s (f : NForm)
  /-- R154: Spreads scalar bits into the lanes. -/
  | s2v (f : NForm)
  /-- R154: Sets a scalar predicate bit. -/
  | pset (f : NForm)
  /-- R154: Clears a scalar predicate bit. -/
  | pclr (f : NForm)
  /-- R155: Splits a path into taken and remaining paths. -/
  | pathSplit (f : NForm)
  /-- R155: Waits at the join bundle and merges the paths of the split record. -/
  | pathJoin (f : NForm)
  /-- R156: Holds until the selected counters are at or below n. -/
  | waitCnt (f : NForm)
  /-- R156: Pops a token entry for each lane. -/
  | tqPop (f : NForm)
  /-- R156: Takes an entry and fans it out or carries it into new reservations. -/
  | tqPush (f : NForm)
  /-- R157: Jumps directly, through an index, or into the base translation. -/
  | jmp (f : NForm)
  /-- R157: Native call that sets the link and enters bundle 0 of the callee. -/
  | ncall (f : NForm)
  /-- R157: Native return through the link, or exit at the root link. -/
  | nret (f : NForm)
  /-- R157: Opens a frame, checking the stack limit. -/
  | frameEnter (f : NForm)
  /-- R157: Restores the caller's frame registers from the header. -/
  | frameLeave (f : NForm)
  /-- R154: Loads a restored value from the record in a resume translation. -/
  | entry (f : NForm)
  /-- R60: Does nothing and takes one issue cycle. -/
  | bnop (f : NForm)
  /-- R340: Each cycle the core picks one ready path to issue a bundle. -/
  | issueSelect (core : Nat)
  /-- R62: A path meets an illegal bundle; the cluster halts users, refetches or retranslates, and resumes them. -/
  | illegalBundleRepair (cluster : Nat) (key : TKey)
  /-- R163: A path enters an absent key and the cluster fetches or translates it. -/
  | translationMiss (pid : Nat) (key : TKey)
  /-- R164: A store copy or translation finishes and the waiting paths continue. -/
  | translationReady (cluster : Nat) (key : TKey)
  /-- R88: The kernel resolves a queued fault and the access replays or the parked command continues. -/
  | faultResolved (die : Nat) (fid : Nat)
  /-- R88: The kernel cannot resolve a fault; the thread traps or the gang fails, or the command completes failed. -/
  | faultFailed (die : Nat) (fid : Nat)
  /-- R86: The kernel installs a peer leaf or migrates the gang after querying the owner. -/
  | federatedFaultService (die : Nat) (fid : Nat)
  /-- R78: A page walk finishes and its joined misses take the result. -/
  | walkComplete (die : Nat) (wid : Nat)
  /-- R131: A global load's data lands, or a global store, global red or remote scratch access performs, and the warp's LDC, STC
  or RSC counter falls. -/
  | accessPerformed (warp : Nat)
  /-- R90: The BX starts the next queued command once fewer than 16 run. -/
  | bxCommandStart (core : Nat)
  /-- R104: A started command whose walk faults parks without stopping the BX. -/
  | bxCommandPark (core : Nat) (cmd : Nat)
  /-- R99: A chunk becomes full once every byte of it has been written. -/
  | chunkFull (core : Nat) (cmd : Nat) (chunk : Nat)
  /-- R103: A command completes, fills its token entries and releases its tile lock. -/
  | bxCommandComplete (core : Nat) (cmd : Nat)
  /-- R105: The overflow engine moves a queue tail to the ring or refills the queue from it. -/
  | queueOverflow (core : Nat) (queue : Nat)
  /-- R255: A ready step starts once the budget pool holds its charge. -/
  | mxStepStart (cluster : Nat)
  /-- R255: The governor adds R units to each cluster pool every cycle. -/
  | budgetRefill (cluster : Nat)
  /-- R250: An MX command completes and fills its token entries. -/
  | mxCommandComplete (core : Nat) (cmd : Nat)
  /-- R242: Exchanges an N-die accumulator tile with its backing slot. -/
  | accExchange (core : Nat) (tile : Nat)
  /-- R279: Two swaps pair and each path receives the partner values. -/
  | swapPaired (die : Nat)
  /-- R346: A bank change completes the phase or sets DEF and waiting paths become ready. -/
  | barrierRelease (core : Nat) (word : Nat)
  /-- R342: Every 1024 cycles a warp swaps its longest-held table path with its oldest pending path. -/
  | pathExchange (warp : Nat)
  /-- R272: A relaxed red packet merges with the packet ahead of it in a router queue. -/
  | redMerge (die : Nat) (queue : Nat)
  /-- R275: An idle flow chooses its minimal or non-minimal route. -/
  | flowRouteChoice (die : Nat) (src : Nat) (dst : Nat)
  /-- R307: A plane frame starts: selection, hold, key and die-number phases run. -/
  | frameBoundary
  /-- R317: Results are delivered and token entries filled within 20 ns. -/
  | resultDelivery (die : Nat)
  /-- R309: The F-die drives FC, BROUND and BPTR; dies correct their copies. -/
  | beacon
  /-- R320: At a frame boundary a freed identifier withdraws pending bids and clears HOLDER and GATE. -/
  | identifierRevocation (die : Nat) (ident : Nat)
  /-- R321: A die leaving reset synchronises pointers and rounds, then reports its P unit ready. -/
  | pUnitReady (die : Nat)
  /-- R303: A hop selects an eligible turn queue entry and drains the strands. -/
  | turnSelect (hop : Nat)
  /-- R302: Strands finish retraining, the turn completes done or failed, and they join the direction. -/
  | turnComplete (hop : Nat) (failed : BitVec 16)
  /-- R297: A packet advances a hop into pool or escape slots under the bubble rule. -/
  | packetHop (hop : Nat) (dir : Dir) (source : Nat)
  /-- R412: At each packet boundary the sending end chooses among its six sources. -/
  | sourceRoundRobin (hop : Nat) (dir : Dir)
  /-- R411: The network interface accepts a write packet into one of 64 places. -/
  | packetAccept (die : Nat) (dir : Dir) (escape : Bool)
  /-- R411: Sends an acknowledgement once every write of the packet has performed. -/
  | writeAcknowledgement (die : Nat) (place : Nat)
  /-- R84: The owner checks a peer request and performs it or refuses it. -/
  | peerRequest (die : Nat) (dir : Dir) (escape : Bool)
  /-- R130: A reply, acknowledgement or refusal reaches the requester and the path resumes. -/
  | peerReply (die : Nat) (dir : Dir) (escape : Bool)
  /-- R365: A flit that fails CRC is retried, then the lane is spared or the strand retired. -/
  | flitRetry (link : Nat) (strand : Nat) (failures : Nat) (spare : Bool)
  /-- R370: A header that cannot be corrected is discarded and counted as unattributable. -/
  | corruptedHeader (hop : Nat) (dir : Dir) (escape : Bool)
  /-- R370: With no reply within 64 µs the sender's item fails with CAUSE 7. -/
  | trackerTimeout (die : Nat) (trk : Nat)
  /-- R298: The receiver returns free-slot counts to the sender. -/
  | creditReturn (hop : Nat) (dir : Dir)
  /-- R332: The distributor serves a dispatchable queue and places a gang atomically. -/
  | gangDispatch (die : Nat)
  /-- R336: Lower-priority gangs are halted and captured to place a waiting gang. -/
  | preemption (die : Nat)
  /-- R356: Halts every core of a gang at bundle boundaries. -/
  | halt (gang : Nat) (why : HaltWhy)
  /-- R357: After the halt, waits for commands and accesses, withdraws bids and writes the capture record. -/
  | capture (gang : Nat)
  /-- R361: Places a captured gang and rebuilds its state through resume translations. -/
  | restore (die : Nat) (gang : Nat)
  /-- R362: A federated fault of a migratable launch moves the gang to the owning die. -/
  | migration (die : Nat) (fid : Nat)
  /-- R189: A gang retires when every thread has finished. -/
  | gangRetire (gang : Nat)
  /-- R331: The last gang retires and SIGEV is signalled or failed. -/
  | launchRetire (launch : Nat)
  /-- R364: A gang fails on lost data, stops, completes its commands and is reported. -/
  | itemFailed (gang : Nat) (cause : Nat) (addr : BitVec 64)
  /-- R371: Writes the core dump of a failed gang. -/
  | dumpWrite (gang : Nat)
  /-- R366: After 2^k cycles without progress the core writes a hang record and posts an event. -/
  | stallTimeout (gang : Nat) (core : Nat)
  /-- R65: The scrubber reads each burst every 24 hours, writing back corrections and reporting uncorrectable ones. -/
  | patrolScrub (die : Nat) (pa : Nat) (found : BurstState)
  /-- R383: At the latch frame every die latches its counters and writes its records. -/
  | manifestLatch
  /-- R368: The F-die folds excess event records into counting records or stops dispatch. -/
  | eventFold (die : Nat)
  /-- R369: Fails resident gangs, completes the injected packet and clears CLRDY. -/
  | clusterReset (cluster : Nat)
  /-- R20: A die is held in reset while transit continues. -/
  | dieReset (die : Nat)
  /-- R397: The die checks and runs its firmware image, or enters recovery. -/
  | romBoot (die : Nat)
  /-- R394: A unit reports ready or not ready with an event. -/
  | unitReady (die : Nat) (kind : UnitKind) (index : Nat) (ready : Bool)
  /-- R399: Every 100 µs sensors are sampled and throttling applies against package, rail and temperature limits. -/
  | powerSample (readings : List Reading)
  /-- R399: At 115 °C the die resets and resident gangs fail. -/
  | thermalReset (die : Nat)
  /-- R375: A path about to issue at a breakpoint VPC stops. -/
  | breakpointHit (pid : Nat)
  /-- R379: An access hits a watchpoint at the home and broadcasts a stop. -/
  | watchHit (cluster : Nat)
  /-- R329: Checks a launch record and queues it. -/
  | launchSubmit (h : Hdr) (queue : Nat) (rec : BitVec 1024)
  /-- R337: Drops, aborts or discards the gangs of a launch. -/
  | launchCancel (h : Hdr) (launchId : BitVec 64)
  /-- R330: Sets the priority of an empty queue. -/
  | queuePriority (h : Hdr) (queue : Nat) (prio : Nat)
  /-- R331: Signals a completion event. -/
  | eventSet (h : Hdr) (index : Nat)
  /-- R331: Resets a completion event. -/
  | eventReset (h : Hdr) (index : Nat)
  /-- R366: Sets the stall timeout and deterministic mode. -/
  | deviceSettings (h : Hdr) (stallK : Nat) (det : Nat)
  /-- R422: Writes leaves or federated entries over a range. -/
  | memMap (h : Hdr) (base : BitVec 64) (length : BitVec 64) (leaf : BitVec 64)
  /-- R81: Invalidates a range, waits for in-flight counts, writes back CXL and replies. -/
  | memUnmap (h : Hdr) (base : BitVec 64) (length : BitVec 64) (waiting : Bool)
  /-- R79: Invalidates TLB and walk-cache entries for a range. -/
  | memInvalidate (h : Hdr) (base : BitVec 64) (length : BitVec 64)
  /-- R357: Gives a context its save region. -/
  | saveRegion (h : Hdr) (base : BitVec 64) (size : BitVec 64)
  /-- R68: Assigns or releases a 512 MiB CXL unit. -/
  | cxlUnitAssign (h : Hdr) (unit : Nat) (assign : Bool)
  /-- R400: Moves data between modules over UCIe. -/
  | moduleCopy (h : Hdr) (base : BitVec 64) (remote : Nat) (handle : BitVec 64) (length : BitVec 64) (toLocal : Bool)
  /-- R396: Sets a context's tenant number. -/
  | contextTenant (h : Hdr) (tenant : BitVec 8)
  /-- R69: Makes a free context live with an empty L4 table. -/
  | contextOpen (h : Hdr)
  /-- R69: Drains and frees a live context. -/
  | contextClose (h : Hdr)
  /-- R82: Exports a range and returns a handle. -/
  | handleExport (h : Hdr) (base : BitVec 64) (length : BitVec 64) (rights : BitVec 8)
  /-- R83: Imports a handle into the peer window after checks by the owner. -/
  | handleImport (h : Hdr) (handle : BitVec 64) (window : BitVec 64) (rights : BitVec 8) (route : BitVec 8)
  /-- R85: Revokes an export and raises its generation. -/
  | handleRevoke (h : Hdr) (handle : BitVec 64)
  /-- R40: Validates a module image and loads its data image. -/
  | moduleLoad (h : Hdr) (image : BitVec 64) (length : BitVec 64) (dataBase : BitVec 64)
  /-- R42: Unloads a handle once its launches have retired. -/
  | moduleUnload (h : Hdr) (handle : BitVec 64)
  /-- R320: Allocates or frees a contest identifier with an initial GATE. -/
  | identifierAllocate (h : Hdr) (ident : Nat) (gate : BitVec 16) (allocate : Bool)
  /-- R329: Grants or withdraws a context's turn right. -/
  | turnRightGrant (h : Hdr) (grant : Bool)
  /-- R393: Gives the event ring's base and size. -/
  | eventRing (h : Hdr) (base : BitVec 64) (size : BitVec 64)
  /-- R393: Advances the event ring's read index. -/
  | eventReadIndex (h : Hdr) (index : BitVec 64)
  /-- R165: Turns translation tracing on or off. -/
  | tracing (h : Hdr) (on : Bool)
  /-- R372: Attaches a debugger to a context. -/
  | debugAttach (h : Hdr)
  /-- R372: Detaches the debugger. -/
  | debugDetach (h : Hdr)
  /-- R375: Sets a breakpoint. -/
  | debugBreakpoint (h : Hdr) (index : Nat) (vpc : BitVec 32) (scope : Nat)
  /-- R416: Sets a watchpoint. -/
  | debugWatchpoint (h : Hdr) (index : Nat) (addr : BitVec 64) (kinds : BitVec 8) (scope : Nat)
  /-- R374: Stops paths in a scope, optionally freezing the engines. -/
  | debugStop (h : Hdr) (launchId : BitVec 64) (scope : Nat) (freeze : Bool)
  /-- R374: Resumes held paths and ends focus. -/
  | debugRelease (h : Hdr) (launchId : BitVec 64) (scope : Nat) (freeze : Bool)
  /-- R376: Releases one path for one portable instruction. -/
  | debugStep (h : Hdr) (path : PathName)
  /-- R376: Steps and returns when the produced tokens are filled. -/
  | stepSync (h : Hdr) (path : PathName)
  /-- R419: Splits one lane into a focus path and parks the rest. -/
  | debugFocus (h : Hdr) (path : PathName)
  /-- R393: Reads the virtual values of a held path. -/
  | readValues (h : Hdr) (path : PathName) (values : List Nat)
  /-- R383: Sets the manifest period for the federation. -/
  | manifestPeriod (h : Hdr) (k : Nat)
  /-- R384: Gives the manifest ring's base and size. -/
  | manifestRing (h : Hdr) (base : BitVec 64) (size : BitVec 64)
  /-- R384: Advances the manifest ring's read index. -/
  | manifestReadIndex (h : Hdr) (index : BitVec 64)
  /-- R393: Returns the die descriptor and the identity public key. -/
  | fwIdentity (h : Hdr)
  /-- R398: Returns the signed digests for a nonce. -/
  | fwAttest (h : Hdr) (nonce : List (BitVec 8))
  /-- R398: Writes a new firmware image to flash. -/
  | fwProvision (h : Hdr) (image : BitVec 64) (length : BitVec 64)
  /-- R398: Resets the die to boot the provisioned image. -/
  | fwActivate (h : Hdr)
  /-- R399: Returns the power, temperature and rail currents. -/
  | powerSensors (h : Hdr)
  /-- R399: Sets the package power limit and the budget refill. -/
  | packageLimit (h : Hdr) (watts : Nat)
  /-- R399: Sets a rail current limit. -/
  | railLimit (h : Hdr) (rail : Nat) (amps : Nat)
  /-- R306: Restores the reset split of a hop after draining. -/
  | retrainHop (h : Hdr) (hop : Nat)
  /-- R369: When a die's transit router is lost, its neighbours mark its hops down, later packets reroute, and packets in flight
  through it fail their items with CAUSE 8. -/
  | transitRouterLost (die : Nat)
  /-- R308: Package reset zeroes every ROUND, pointer and LAST key, sets every LAST die to 15, and resets the F-die with its frame
  count. -/
  | packageReset
  deriving DecidableEq, Repr

/-- The operation `op` at the portable level; native-only names have none. -/
def Instr.ofP (op : Op) (f : PForm) : Option Instr :=
  match op with
  | .br => some (.br f)
  | .brc => some (.brc f)
  | .switch => some (.switch f)
  | .call => some (.call f)
  | .callx => some (.callx f)
  | .ret => some (.ret f)
  | .exit => some (.exit (.p f))
  | .trap => some (.trap (.p f))
  | .unreach => some (.unreach f)
  | .const => some (.const f)
  | .sreg => some (.sreg (.p f))
  | .select => some (.select (.p f))
  | .trapInfo => some (.trapInfo (.p f))
  | .trapRet => some (.trapRet (.p f))
  | .add => some (.add (.p f))
  | .sub => some (.sub (.p f))
  | .mul => some (.mul (.p f))
  | .mulhi => some (.mulhi (.p f))
  | .mad => some (.mad (.p f))
  | .div => some (.div (.p f))
  | .rem => some (.rem (.p f))
  | .neg => some (.neg (.p f))
  | .abs => some (.abs (.p f))
  | .min => some (.min (.p f))
  | .max => some (.max (.p f))
  | .and => some (.and (.p f))
  | .or => some (.or (.p f))
  | .xor => some (.xor (.p f))
  | .andn => some (.andn (.p f))
  | .not => some (.not (.p f))
  | .shl => some (.shl (.p f))
  | .shr => some (.shr (.p f))
  | .rotl => some (.rotl (.p f))
  | .rotr => some (.rotr (.p f))
  | .popc => some (.popc (.p f))
  | .clz => some (.clz (.p f))
  | .ctz => some (.ctz (.p f))
  | .brev => some (.brev (.p f))
  | .bfx => some (.bfx (.p f))
  | .bfi => some (.bfi (.p f))
  | .ext => some (.ext (.p f))
  | .trunc => some (.trunc (.p f))
  | .icmp => some (.icmp (.p f))
  | .adr => some (.adr (.p f))
  | .bsel => some (.bsel (.p f))
  | .fadd => some (.fadd (.p f))
  | .fsub => some (.fsub (.p f))
  | .fmul => some (.fmul (.p f))
  | .fdiv => some (.fdiv (.p f))
  | .fsqrt => some (.fsqrt (.p f))
  | .fma => some (.fma (.p f))
  | .fmin => some (.fmin (.p f))
  | .fmax => some (.fmax (.p f))
  | .fneg => some (.fneg (.p f))
  | .fabs => some (.fabs (.p f))
  | .fcopysign => some (.fcopysign (.p f))
  | .fcmp => some (.fcmp (.p f))
  | .fclass => some (.fclass (.p f))
  | .frint => some (.frint (.p f))
  | .fcvt => some (.fcvt (.p f))
  | .fcvti => some (.fcvti (.p f))
  | .icvtf => some (.icvtf (.p f))
  | .fscaleb => some (.fscaleb (.p f))
  | .flogb => some (.flogb (.p f))
  | .fexcRd => some (.fexcRd (.p f))
  | .fexcClr => some (.fexcClr (.p f))
  | .fmodeSet => some (.fmodeSet (.p f))
  | .fmodeRd => some (.fmodeRd (.p f))
  | .pk8 => some (.pk8 (.p f))
  | .upk8 => some (.upk8 (.p f))
  | .bscale => some (.bscale (.p f))
  | .lanex => some (.lanex (.p f))
  | .vote => some (.vote (.p f))
  | .lgred => some (.lgred (.p f))
  | .lgscan => some (.lgscan (.p f))
  | .matchLanes => some (.matchLanes (.p f))
  | .sfEval => some (.sfEval (.p f))
  | .sfLoad => some (.sfLoad (.p f))
  | .ld => some (.ld (.p f))
  | .st => some (.st (.p f))
  | .prefetch => some (.prefetch (.p f))
  | .amo => some (.amo (.p f))
  | .cas => some (.cas (.p f))
  | .red => some (.red (.p f))
  | .fence => some (.fence (.p f))
  | .bxShape => some (.bxShape (.p f))
  | .bxCopy => some (.bxCopy (.p f))
  | .bxConv => some (.bxConv (.p f))
  | .bxFill => some (.bxFill (.p f))
  | .bxGather => some (.bxGather (.p f))
  | .bxScatter => some (.bxScatter (.p f))
  | .bxRed => some (.bxRed (.p f))
  | .waitTok => some (.waitTok (.p f))
  | .tokAll => some (.tokAll (.p f))
  | .tokStatus => some (.tokStatus (.p f))
  | .waitChunks => some (.waitChunks (.p f))
  | .testChunks => some (.testChunks (.p f))
  | .clrChunks => some (.clrChunks (.p f))
  | .mxZero => some (.mxZero (.p f))
  | .mxLd => some (.mxLd (.p f))
  | .mxStep => some (.mxStep (.p f))
  | .mxLoop => some (.mxLoop (.p f))
  | .mxStore => some (.mxStore (.p f))
  | .mxMode => some (.mxMode (.p f))
  | .mxRead => some (.mxRead (.p f))
  | .xcSwap => some (.xcSwap (.p f))
  | .barJoin => some (.barJoin (.p f))
  | .barLeave => some (.barLeave (.p f))
  | .barArrive => some (.barArrive (.p f))
  | .barWait => some (.barWait (.p f))
  | .barSync => some (.barSync (.p f))
  | .yield => some (.yield (.p f))
  | .cpKey => some (.cpKey (.p f))
  | .cpBid => some (.cpBid (.p f))
  | .cpGate => some (.cpGate (.p f))
  | .cpWon => some (.cpWon (.p f))
  | .cpMax => some (.cpMax (.p f))
  | .cpDie => some (.cpDie (.p f))
  | .cpRound => some (.cpRound (.p f))
  | .cpLast => some (.cpLast (.p f))
  | .cvTurn => some (.cvTurn (.p f))
  | .cvSplit => some (.cvSplit (.p f))
  | .brk => some (.brk (.p f))
  | .dbgMark => some (.dbgMark (.p f))
  | .rdclk => some (.rdclk (.p f))
  | .rdcnt => some (.rdcnt (.p f))
  | .sys => some (.sys (.p f))
  | .spill => none
  | .fill => none
  | .vmov => none
  | .smov => none
  | .v2s => none
  | .s2v => none
  | .pset => none
  | .pclr => none
  | .pathSplit => none
  | .pathJoin => none
  | .waitCnt => none
  | .tqPop => none
  | .tqPush => none
  | .jmp => none
  | .ncall => none
  | .nret => none
  | .frameEnter => none
  | .frameLeave => none
  | .entry => none
  | .bnop => none

/-- The operation `op` in a bundle slot; portable operations that the translator lowers have none (R59). -/
def Instr.ofN (op : Op) (f : NForm) : Option Instr :=
  match op with
  | .br => none
  | .brc => none
  | .switch => none
  | .call => none
  | .callx => none
  | .ret => none
  | .exit => some (.exit (.n f))
  | .trap => some (.trap (.n f))
  | .unreach => none
  | .const => none
  | .sreg => some (.sreg (.n f))
  | .select => some (.select (.n f))
  | .trapInfo => some (.trapInfo (.n f))
  | .trapRet => some (.trapRet (.n f))
  | .add => some (.add (.n f))
  | .sub => some (.sub (.n f))
  | .mul => some (.mul (.n f))
  | .mulhi => some (.mulhi (.n f))
  | .mad => some (.mad (.n f))
  | .div => some (.div (.n f))
  | .rem => some (.rem (.n f))
  | .neg => some (.neg (.n f))
  | .abs => some (.abs (.n f))
  | .min => some (.min (.n f))
  | .max => some (.max (.n f))
  | .and => some (.and (.n f))
  | .or => some (.or (.n f))
  | .xor => some (.xor (.n f))
  | .andn => some (.andn (.n f))
  | .not => some (.not (.n f))
  | .shl => some (.shl (.n f))
  | .shr => some (.shr (.n f))
  | .rotl => some (.rotl (.n f))
  | .rotr => some (.rotr (.n f))
  | .popc => some (.popc (.n f))
  | .clz => some (.clz (.n f))
  | .ctz => some (.ctz (.n f))
  | .brev => some (.brev (.n f))
  | .bfx => some (.bfx (.n f))
  | .bfi => some (.bfi (.n f))
  | .ext => some (.ext (.n f))
  | .trunc => some (.trunc (.n f))
  | .icmp => some (.icmp (.n f))
  | .adr => some (.adr (.n f))
  | .bsel => some (.bsel (.n f))
  | .fadd => some (.fadd (.n f))
  | .fsub => some (.fsub (.n f))
  | .fmul => some (.fmul (.n f))
  | .fdiv => some (.fdiv (.n f))
  | .fsqrt => some (.fsqrt (.n f))
  | .fma => some (.fma (.n f))
  | .fmin => some (.fmin (.n f))
  | .fmax => some (.fmax (.n f))
  | .fneg => some (.fneg (.n f))
  | .fabs => some (.fabs (.n f))
  | .fcopysign => some (.fcopysign (.n f))
  | .fcmp => some (.fcmp (.n f))
  | .fclass => some (.fclass (.n f))
  | .frint => some (.frint (.n f))
  | .fcvt => some (.fcvt (.n f))
  | .fcvti => some (.fcvti (.n f))
  | .icvtf => some (.icvtf (.n f))
  | .fscaleb => some (.fscaleb (.n f))
  | .flogb => some (.flogb (.n f))
  | .fexcRd => some (.fexcRd (.n f))
  | .fexcClr => some (.fexcClr (.n f))
  | .fmodeSet => some (.fmodeSet (.n f))
  | .fmodeRd => some (.fmodeRd (.n f))
  | .pk8 => some (.pk8 (.n f))
  | .upk8 => some (.upk8 (.n f))
  | .bscale => some (.bscale (.n f))
  | .lanex => some (.lanex (.n f))
  | .vote => some (.vote (.n f))
  | .lgred => some (.lgred (.n f))
  | .lgscan => some (.lgscan (.n f))
  | .matchLanes => some (.matchLanes (.n f))
  | .sfEval => some (.sfEval (.n f))
  | .sfLoad => some (.sfLoad (.n f))
  | .ld => some (.ld (.n f))
  | .st => some (.st (.n f))
  | .prefetch => some (.prefetch (.n f))
  | .amo => some (.amo (.n f))
  | .cas => some (.cas (.n f))
  | .red => some (.red (.n f))
  | .fence => some (.fence (.n f))
  | .bxShape => some (.bxShape (.n f))
  | .bxCopy => some (.bxCopy (.n f))
  | .bxConv => some (.bxConv (.n f))
  | .bxFill => some (.bxFill (.n f))
  | .bxGather => some (.bxGather (.n f))
  | .bxScatter => some (.bxScatter (.n f))
  | .bxRed => some (.bxRed (.n f))
  | .waitTok => some (.waitTok (.n f))
  | .tokAll => some (.tokAll (.n f))
  | .tokStatus => some (.tokStatus (.n f))
  | .waitChunks => some (.waitChunks (.n f))
  | .testChunks => some (.testChunks (.n f))
  | .clrChunks => some (.clrChunks (.n f))
  | .mxZero => some (.mxZero (.n f))
  | .mxLd => some (.mxLd (.n f))
  | .mxStep => some (.mxStep (.n f))
  | .mxLoop => some (.mxLoop (.n f))
  | .mxStore => some (.mxStore (.n f))
  | .mxMode => some (.mxMode (.n f))
  | .mxRead => some (.mxRead (.n f))
  | .xcSwap => some (.xcSwap (.n f))
  | .barJoin => some (.barJoin (.n f))
  | .barLeave => some (.barLeave (.n f))
  | .barArrive => some (.barArrive (.n f))
  | .barWait => some (.barWait (.n f))
  | .barSync => some (.barSync (.n f))
  | .yield => some (.yield (.n f))
  | .cpKey => some (.cpKey (.n f))
  | .cpBid => some (.cpBid (.n f))
  | .cpGate => some (.cpGate (.n f))
  | .cpWon => some (.cpWon (.n f))
  | .cpMax => some (.cpMax (.n f))
  | .cpDie => some (.cpDie (.n f))
  | .cpRound => some (.cpRound (.n f))
  | .cpLast => some (.cpLast (.n f))
  | .cvTurn => some (.cvTurn (.n f))
  | .cvSplit => some (.cvSplit (.n f))
  | .brk => some (.brk (.n f))
  | .dbgMark => some (.dbgMark (.n f))
  | .rdclk => some (.rdclk (.n f))
  | .rdcnt => some (.rdcnt (.n f))
  | .sys => some (.sys (.n f))
  | .spill => some (.spill f)
  | .fill => some (.fill f)
  | .vmov => some (.vmov f)
  | .smov => some (.smov f)
  | .v2s => some (.v2s f)
  | .s2v => some (.s2v f)
  | .pset => some (.pset f)
  | .pclr => some (.pclr f)
  | .pathSplit => some (.pathSplit f)
  | .pathJoin => some (.pathJoin f)
  | .waitCnt => some (.waitCnt f)
  | .tqPop => some (.tqPop f)
  | .tqPush => some (.tqPush f)
  | .jmp => some (.jmp f)
  | .ncall => some (.ncall f)
  | .nret => some (.nret f)
  | .frameEnter => some (.frameEnter f)
  | .frameLeave => some (.frameLeave f)
  | .entry => some (.entry f)
  | .bnop => some (.bnop f)

/-- The operation name and form of an instruction; events have none. -/
def Instr.opForm (i : Instr) : Option (Op × Form) :=
  match i with
  | .br f => some (.br, .p f)
  | .brc f => some (.brc, .p f)
  | .switch f => some (.switch, .p f)
  | .call f => some (.call, .p f)
  | .callx f => some (.callx, .p f)
  | .ret f => some (.ret, .p f)
  | .exit f => some (.exit, f)
  | .trap f => some (.trap, f)
  | .unreach f => some (.unreach, .p f)
  | .const f => some (.const, .p f)
  | .sreg f => some (.sreg, f)
  | .select f => some (.select, f)
  | .trapInfo f => some (.trapInfo, f)
  | .trapRet f => some (.trapRet, f)
  | .add f => some (.add, f)
  | .sub f => some (.sub, f)
  | .mul f => some (.mul, f)
  | .mulhi f => some (.mulhi, f)
  | .mad f => some (.mad, f)
  | .div f => some (.div, f)
  | .rem f => some (.rem, f)
  | .neg f => some (.neg, f)
  | .abs f => some (.abs, f)
  | .min f => some (.min, f)
  | .max f => some (.max, f)
  | .and f => some (.and, f)
  | .or f => some (.or, f)
  | .xor f => some (.xor, f)
  | .andn f => some (.andn, f)
  | .not f => some (.not, f)
  | .shl f => some (.shl, f)
  | .shr f => some (.shr, f)
  | .rotl f => some (.rotl, f)
  | .rotr f => some (.rotr, f)
  | .popc f => some (.popc, f)
  | .clz f => some (.clz, f)
  | .ctz f => some (.ctz, f)
  | .brev f => some (.brev, f)
  | .bfx f => some (.bfx, f)
  | .bfi f => some (.bfi, f)
  | .ext f => some (.ext, f)
  | .trunc f => some (.trunc, f)
  | .icmp f => some (.icmp, f)
  | .adr f => some (.adr, f)
  | .bsel f => some (.bsel, f)
  | .fadd f => some (.fadd, f)
  | .fsub f => some (.fsub, f)
  | .fmul f => some (.fmul, f)
  | .fdiv f => some (.fdiv, f)
  | .fsqrt f => some (.fsqrt, f)
  | .fma f => some (.fma, f)
  | .fmin f => some (.fmin, f)
  | .fmax f => some (.fmax, f)
  | .fneg f => some (.fneg, f)
  | .fabs f => some (.fabs, f)
  | .fcopysign f => some (.fcopysign, f)
  | .fcmp f => some (.fcmp, f)
  | .fclass f => some (.fclass, f)
  | .frint f => some (.frint, f)
  | .fcvt f => some (.fcvt, f)
  | .fcvti f => some (.fcvti, f)
  | .icvtf f => some (.icvtf, f)
  | .fscaleb f => some (.fscaleb, f)
  | .flogb f => some (.flogb, f)
  | .fexcRd f => some (.fexcRd, f)
  | .fexcClr f => some (.fexcClr, f)
  | .fmodeSet f => some (.fmodeSet, f)
  | .fmodeRd f => some (.fmodeRd, f)
  | .pk8 f => some (.pk8, f)
  | .upk8 f => some (.upk8, f)
  | .bscale f => some (.bscale, f)
  | .lanex f => some (.lanex, f)
  | .vote f => some (.vote, f)
  | .lgred f => some (.lgred, f)
  | .lgscan f => some (.lgscan, f)
  | .matchLanes f => some (.matchLanes, f)
  | .sfEval f => some (.sfEval, f)
  | .sfLoad f => some (.sfLoad, f)
  | .ld f => some (.ld, f)
  | .st f => some (.st, f)
  | .prefetch f => some (.prefetch, f)
  | .amo f => some (.amo, f)
  | .cas f => some (.cas, f)
  | .red f => some (.red, f)
  | .fence f => some (.fence, f)
  | .bxShape f => some (.bxShape, f)
  | .bxCopy f => some (.bxCopy, f)
  | .bxConv f => some (.bxConv, f)
  | .bxFill f => some (.bxFill, f)
  | .bxGather f => some (.bxGather, f)
  | .bxScatter f => some (.bxScatter, f)
  | .bxRed f => some (.bxRed, f)
  | .waitTok f => some (.waitTok, f)
  | .tokAll f => some (.tokAll, f)
  | .tokStatus f => some (.tokStatus, f)
  | .waitChunks f => some (.waitChunks, f)
  | .testChunks f => some (.testChunks, f)
  | .clrChunks f => some (.clrChunks, f)
  | .mxZero f => some (.mxZero, f)
  | .mxLd f => some (.mxLd, f)
  | .mxStep f => some (.mxStep, f)
  | .mxLoop f => some (.mxLoop, f)
  | .mxStore f => some (.mxStore, f)
  | .mxMode f => some (.mxMode, f)
  | .mxRead f => some (.mxRead, f)
  | .xcSwap f => some (.xcSwap, f)
  | .barJoin f => some (.barJoin, f)
  | .barLeave f => some (.barLeave, f)
  | .barArrive f => some (.barArrive, f)
  | .barWait f => some (.barWait, f)
  | .barSync f => some (.barSync, f)
  | .yield f => some (.yield, f)
  | .cpKey f => some (.cpKey, f)
  | .cpBid f => some (.cpBid, f)
  | .cpGate f => some (.cpGate, f)
  | .cpWon f => some (.cpWon, f)
  | .cpMax f => some (.cpMax, f)
  | .cpDie f => some (.cpDie, f)
  | .cpRound f => some (.cpRound, f)
  | .cpLast f => some (.cpLast, f)
  | .cvTurn f => some (.cvTurn, f)
  | .cvSplit f => some (.cvSplit, f)
  | .brk f => some (.brk, f)
  | .dbgMark f => some (.dbgMark, f)
  | .rdclk f => some (.rdclk, f)
  | .rdcnt f => some (.rdcnt, f)
  | .sys f => some (.sys, f)
  | .spill f => some (.spill, .n f)
  | .fill f => some (.fill, .n f)
  | .vmov f => some (.vmov, .n f)
  | .smov f => some (.smov, .n f)
  | .v2s f => some (.v2s, .n f)
  | .s2v f => some (.s2v, .n f)
  | .pset f => some (.pset, .n f)
  | .pclr f => some (.pclr, .n f)
  | .pathSplit f => some (.pathSplit, .n f)
  | .pathJoin f => some (.pathJoin, .n f)
  | .waitCnt f => some (.waitCnt, .n f)
  | .tqPop f => some (.tqPop, .n f)
  | .tqPush f => some (.tqPush, .n f)
  | .jmp f => some (.jmp, .n f)
  | .ncall f => some (.ncall, .n f)
  | .nret f => some (.nret, .n f)
  | .frameEnter f => some (.frameEnter, .n f)
  | .frameLeave f => some (.frameLeave, .n f)
  | .entry f => some (.entry, .n f)
  | .bnop f => some (.bnop, .n f)
  | .issueSelect _ => none
  | .illegalBundleRepair _ _ => none
  | .translationMiss _ _ => none
  | .translationReady _ _ => none
  | .faultResolved _ _ => none
  | .faultFailed _ _ => none
  | .federatedFaultService _ _ => none
  | .walkComplete _ _ => none
  | .bxCommandStart _ => none
  | .bxCommandPark _ _ => none
  | .chunkFull _ _ _ => none
  | .bxCommandComplete _ _ => none
  | .queueOverflow _ _ => none
  | .mxStepStart _ => none
  | .budgetRefill _ => none
  | .mxCommandComplete _ _ => none
  | .accExchange _ _ => none
  | .swapPaired _ => none
  | .barrierRelease _ _ => none
  | .pathExchange _ => none
  | .redMerge _ _ => none
  | .flowRouteChoice _ _ _ => none
  | .frameBoundary => none
  | .resultDelivery _ => none
  | .beacon => none
  | .identifierRevocation _ _ => none
  | .pUnitReady _ => none
  | .turnSelect _ => none
  | .turnComplete _ _ => none
  | .packetHop _ _ _ => none
  | .sourceRoundRobin _ _ => none
  | .packetAccept _ _ _ => none
  | .writeAcknowledgement _ _ => none
  | .peerRequest _ _ _ => none
  | .peerReply _ _ _ => none
  | .flitRetry _ _ _ _ => none
  | .corruptedHeader _ _ _ => none
  | .trackerTimeout _ _ => none
  | .creditReturn _ _ => none
  | .gangDispatch _ => none
  | .preemption _ => none
  | .halt _ _ => none
  | .capture _ => none
  | .restore _ _ => none
  | .migration _ _ => none
  | .gangRetire _ => none
  | .launchRetire _ => none
  | .itemFailed _ _ _ => none
  | .dumpWrite _ => none
  | .stallTimeout _ _ => none
  | .patrolScrub _ _ _ => none
  | .manifestLatch => none
  | .eventFold _ => none
  | .clusterReset _ => none
  | .dieReset _ => none
  | .romBoot _ => none
  | .unitReady _ _ _ _ => none
  | .powerSample _ => none
  | .thermalReset _ => none
  | .breakpointHit _ => none
  | .watchHit _ => none
  | .launchSubmit _ _ _ => none
  | .launchCancel _ _ => none
  | .queuePriority _ _ _ => none
  | .eventSet _ _ => none
  | .eventReset _ _ => none
  | .deviceSettings _ _ _ => none
  | .memMap _ _ _ _ => none
  | .memUnmap _ _ _ _ => none
  | .memInvalidate _ _ _ => none
  | .saveRegion _ _ _ => none
  | .cxlUnitAssign _ _ _ => none
  | .moduleCopy _ _ _ _ _ _ => none
  | .contextTenant _ _ => none
  | .contextOpen _ => none
  | .contextClose _ => none
  | .handleExport _ _ _ _ => none
  | .handleImport _ _ _ _ _ => none
  | .handleRevoke _ _ => none
  | .moduleLoad _ _ _ _ => none
  | .moduleUnload _ _ => none
  | .identifierAllocate _ _ _ _ => none
  | .turnRightGrant _ _ => none
  | .eventRing _ _ _ => none
  | .eventReadIndex _ _ => none
  | .tracing _ _ => none
  | .debugAttach _ => none
  | .debugDetach _ => none
  | .debugBreakpoint _ _ _ _ => none
  | .debugWatchpoint _ _ _ _ _ => none
  | .debugStop _ _ _ _ => none
  | .debugRelease _ _ _ _ => none
  | .debugStep _ _ => none
  | .stepSync _ _ => none
  | .debugFocus _ _ => none
  | .readValues _ _ _ => none
  | .manifestPeriod _ _ => none
  | .manifestRing _ _ _ => none
  | .manifestReadIndex _ _ => none
  | .fwIdentity _ => none
  | .fwAttest _ _ => none
  | .fwProvision _ _ _ => none
  | .fwActivate _ => none
  | .powerSensors _ => none
  | .packageLimit _ _ => none
  | .railLimit _ _ _ => none
  | .retrainHop _ _ => none
  | .accessPerformed _ => none
  | .transitRouterLost _ => none
  | .packageReset => none

end Sys2Proof
end

