-- ==== Sys2Proof/Machine/Flags.lean ====
section
/-!
DEFINITION. Types and their widths, floating formats, exact values, rounding and the exception flags (R23, R195 to
R217), and the integer results with saturation (R166 to R172).
-/
namespace Sys2Proof.Machine

/-! ### Types -/

/-- Width in bits (R23); a token value is carried as an entry number. -/
def tyWidth (t : Ty) : Nat :=
  match t with
  | .none => 0
  | .i1 => 1
  | .i8 | .sc8 | .b8 _ _ => 8
  | .i16 | .f16 | .bf16 => 16
  | .i32 | .f32 | .ptrS | .ptrK => 32
  | .i64 | .f64 | .ptrG | .ptrP | .tok => 64

/-- Bytes that a value of the type takes in memory. -/
def tyBytes (t : Ty) : Nat := (tyWidth t + 7) / 8

/-- The type of a code of R23; reserved codes have none. -/
def tyOfCode (c : Nat) : Option Ty :=
  match c with
  | 0x01 => some .i1 | 0x02 => some .i8 | 0x03 => some .i16 | 0x04 => some .i32 | 0x05 => some .i64
  | 0x10 => some .f16 | 0x11 => some .bf16 | 0x12 => some .f32 | 0x13 => some .f64
  | 0x40 => some .sc8 | 0x50 => some .tok
  | 0x60 => some .ptrG | 0x61 => some .ptrP | 0x62 => some .ptrS | 0x63 => some .ptrK
  | _ => if 0x20 ≤ c ∧ c < 0x40 ∧ c % 8 ≠ 0 then
      some (.b8 (Fin.ofNat 4 ((c - 0x20) / 8)) (Fin.ofNat 8 c)) else none

/-- The type of a native type code (R50); `aux` supplies a binary8 variant. -/
def tyOfNative (n : Nat) (variant : Nat) : Ty :=
  match n with
  | 1 => .i8 | 2 => .i16 | 3 => .i32 | 4 => .i64
  | 5 => .f16 | 6 => .bf16 | 7 => .f32 | 8 => .f64
  | 9 => .b8 (Fin.ofNat 4 (variant / 8)) (Fin.ofNat 8 variant)
  | 10 => .sc8 | 11 => .i1 | 12 => .ptrG | 13 => .ptrS
  | _ => .none

def isInt (t : Ty) : Bool := t == .i8 || t == .i16 || t == .i32 || t == .i64
def isFloat (t : Ty) : Bool := t == .f16 || t == .bf16 || t == .f32 || t == .f64
def isB8 (t : Ty) : Bool := match t with | .b8 _ _ => true | _ => false
def isPtr (t : Ty) : Bool := t == .ptrG || t == .ptrP || t == .ptrS || t == .ptrK

/-- The low bits of a word. -/
def lowBits (w : Nat) (v : Word) : Word := BitVec.ofNat 64 (v.toNat % 2 ^ w)
/-- zx(v): the unsigned number in the low `w` bits (R166). -/
def zx (w : Nat) (v : Word) : Nat := v.toNat % 2 ^ w
/-- sx(v): the two's-complement number in the low `w` bits (R166). -/
def sx (w : Nat) (v : Word) : Int :=
  if v.toNat % 2 ^ w < 2 ^ (w - 1) then (v.toNat % 2 ^ w : Nat) else (v.toNat % 2 ^ w : Nat) - (2 ^ w : Nat)
/-- s(v): sx or zx as the modifier says. -/
def sz (signed : Bool) (w : Nat) (v : Word) : Int := if signed then sx w v else (zx w v : Int)
/-- An integer wrapped to `w` bits. -/
def wrap (w : Nat) (i : Int) : Word := BitVec.ofNat 64 (i % (2 ^ w : Nat)).toNat
/-- An integer clamped to the signed or unsigned range of `w` bits. -/
def saturate (signed : Bool) (w : Nat) (i : Int) : Word :=
  if signed then wrap w (max (-(2 ^ (w - 1) : Nat) : Int) (min i ((2 ^ (w - 1) : Nat) - 1)))
  else wrap w (max 0 (min i ((2 ^ w : Nat) - 1)))

/-! ### Exception flags (R203) -/

abbrev Flags := BitVec 6
def fNone : Flags := 0
def fInvalid : Flags := 1
def fDivZero : Flags := 2
def fOverflow : Flags := 4
def fUnderflow : Flags := 8
def fInexact : Flags := 16
def fIntDiv : Flags := 32

/-! ### Formats (R195, R197 to R199) -/

/-- A floating format: width, precision with the hidden bit, bias, the magnitude code of the largest finite value, and
what it has. `kind` is 0 for IEEE, 1 for binary8, 2 for sc8. -/
structure Fmt where
  kind : Nat
  w : Nat
  p : Nat
  bias : Nat
  cmax : Nat
  inf : Bool
  signed : Bool
  nan : Nat
  deriving DecidableEq, Repr

def fmtF16 : Fmt := { kind := 0, w := 16, p := 11, bias := 15, cmax := 0x7BFF, inf := true, signed := true, nan := 0x7E00 }
def fmtBf16 : Fmt := { kind := 0, w := 16, p := 8, bias := 127, cmax := 0x7F7F, inf := true, signed := true, nan := 0x7FC0 }
def fmtF32 : Fmt :=
  { kind := 0, w := 32, p := 24, bias := 127, cmax := 0x7F7FFFFF, inf := true, signed := true, nan := 0x7FC00000 }
def fmtF64 : Fmt :=
  { kind := 0, w := 64, p := 53, bias := 1023, cmax := 0x7FEFFFFFFFFFFFFF, inf := true, signed := true,
    nan := 0x7FF8000000000000 }
def fmtSc8 : Fmt := { kind := 2, w := 8, p := 1, bias := 127, cmax := 0xFE, inf := false, signed := false, nan := 0xFF }
/-- The binary8 family (R197, R198). -/
def fmtB8 (v p : Nat) : Fmt :=
  if v < 2 then
    { kind := 1, w := 8, p := p, bias := 2 ^ (7 - p), cmax := if v = 0 then 0x7E else 0x7F, inf := v = 0, signed := true,
      nan := 0x80 }
  else
    { kind := 1, w := 8, p := p, bias := 2 ^ (8 - p), cmax := if v = 2 then 0xFD else 0xFE, inf := v = 2,
      signed := false, nan := 0xFF }

/-- The format of a type; other types read as f32. -/
def fmtOf (t : Ty) : Fmt :=
  match t with
  | .f16 => fmtF16 | .bf16 => fmtBf16 | .f64 => fmtF64 | .sc8 => fmtSc8
  | .b8 v p => fmtB8 v.val p.val
  | _ => fmtF32

/-- A decoded value: NaN, infinity, zero, or (-1)^neg · m · 2^e with m > 0. -/
inductive FVal where
  | nan (sig : Bool)
  | inf (neg : Bool)
  | zero (neg : Bool)
  | fin (neg : Bool) (m : Nat) (e : Int)
  deriving DecidableEq, Repr

/-- Exponent of the unit of the subnormals. -/
def Fmt.qsub (f : Fmt) : Int := 1 - (f.bias : Int) - ((f.p : Int) - 1)

/-- The value of a magnitude code (R195, R197, R198). -/
def Fmt.mag (f : Fmt) (neg : Bool) (c : Nat) : FVal :=
  let e := c / 2 ^ (f.p - 1)
  let m := c % 2 ^ (f.p - 1)
  if f.kind = 2 then .fin false 1 ((c : Int) - 127)
  else if c = 0 then .zero neg
  else if e = 0 then .fin neg m f.qsub
  else .fin neg (2 ^ (f.p - 1) + m) (f.qsub + (e : Int) - 1)

/-- The value of a code (R195 to R199). -/
def Fmt.decode (f : Fmt) (v : Nat) : FVal :=
  let x := v % 2 ^ f.w
  if f.kind = 0 then
    let c := x % 2 ^ (f.w - 1)
    let neg := x.testBit (f.w - 1)
    if c > f.cmax + 1 then .nan (!(c.testBit (f.p - 2)))
    else if c = f.cmax + 1 then .inf neg
    else f.mag neg c
  else if x = f.nan then .nan false
  else
    let c := if f.signed then x % 128 else x
    let neg := f.signed && x.testBit 7
    if f.inf && c == f.cmax + 1 then .inf neg else f.mag neg c

/-- The code of a magnitude code and a sign; the binary8 family has no negative zero (R197). -/
def Fmt.code (f : Fmt) (neg : Bool) (c : Nat) : Nat :=
  if neg && f.signed && !(f.kind == 1 && c == 0) then 2 ^ (f.w - 1) + c else c
def Fmt.infCode (f : Fmt) (neg : Bool) : Nat := f.code neg (f.cmax + 1)
def Fmt.maxCode (f : Fmt) (neg : Bool) : Nat := f.code neg f.cmax

/-! ### Rounding (R200, R201) -/

/-- The hash of stochastic rounding (R201). -/
def srHash (seed k : Word) : Word :=
  let z0 := seed + k * 0x9E3779B97F4A7C15#64
  let z1 := (z0 ^^^ (z0 >>> 30)) * 0xBF58476D1CE4E5B9#64
  let z2 := (z1 ^^^ (z1 >>> 27)) * 0x94D049BB133111EB#64
  z2 ^^^ (z2 >>> 31)

/-- How to round: a MOD value of R200 with the upper half of the hash for `.sr`. -/
structure Rnd where
  mode : Nat
  u : Nat
  deriving DecidableEq, Repr

def rne : Rnd := { mode := 0, u := 0 }

/-- Whether m·2^e, and a little more when `st`, goes up from the multiple n of 2^(e + sh) at or below it. -/
def roundsUp (r : Rnd) (neg : Bool) (odd : Bool) (rem sh : Nat) (st : Bool) : Bool :=
  if rem = 0 ∧ !st then false else
  match r.mode with
  | 1 => decide (2 * rem ≥ 2 ^ sh)
  | 2 => false
  | 3 => !neg
  | 4 => neg
  | 6 => decide (r.u * 2 ^ sh < rem * 2 ^ 32)
  | _ => decide (2 * rem > 2 ^ sh) || (decide (2 * rem = 2 ^ sh) && (st || odd))

/-- Rounds m·2^e (and a little more when `st`) to a multiple of 2^q: the multiple, and whether it is inexact. `base` is
what the magnitude code adds to the multiple, for the parity of ties. -/
def roundAt (r : Rnd) (neg : Bool) (m : Nat) (e : Int) (st : Bool) (q : Int) (base : Nat) : Nat × Bool :=
  if q ≤ e then (m * 2 ^ (e - q).toNat, st) else
  let sh := (q - e).toNat
  let n := m / 2 ^ sh
  let rem := m % 2 ^ sh
  (if roundsUp r neg ((n + base) % 2 == 1) rem sh st then n + 1 else n, rem != 0 || st)

/-- The rounded magnitude code with unbounded exponent range above, whether it is inexact, and whether it is tiny
(R202: judged on the value rounded at full precision with unbounded exponent range). -/
def Fmt.round (f : Fmt) (r : Rnd) (neg : Bool) (m : Nat) (e : Int) (st : Bool) : Nat × Bool × Bool :=
  let top := (bitLen m : Int) + e - 1
  let qf := top - ((f.p : Int) - 1)
  let full := roundAt r neg m e st qf (if f.p = 1 then (top + f.bias + 1).toNat else 0)
  if f.kind = 2 then
    if top < -127 then (0, true, true) else ((top + 127).toNat + full.1 - 1, full.2, false)
  else if qf ≥ f.qsub then ((qf - f.qsub).toNat * 2 ^ (f.p - 1) + full.1, full.2, false)
  else
    let sub := roundAt r neg m e st f.qsub 0
    (sub.1, sub.2, decide ((full.1 : Int) < 2 ^ (f.p - 1 + (f.qsub - qf).toNat)))

/-- Whether an overflowing result goes to infinity under a rounding attribute (R202). -/
def toInf (r : Rnd) (neg : Bool) : Bool :=
  match r.mode with
  | 2 => false | 3 => !neg | 4 => neg | _ => true

/-- The outcome of R202 for an exact nonzero value. -/
def Fmt.finish (f : Fmt) (r : Rnd) (sat : Bool) (neg : Bool) (m : Nat) (e : Int) (st : Bool) : Nat × Flags :=
  let (c, inexact, tiny) := f.round r neg m e st
  if neg && !f.signed then
    if c = 0 then (0, fUnderflow ||| fInexact) else (if sat then 0 else f.nan, fInvalid)
  else if c > f.cmax then
    (if sat then f.maxCode neg
     else if f.inf then (if toInf r neg then f.infCode neg else f.maxCode neg)
     else f.nan, fOverflow ||| fInexact)
  else (f.code neg c, if inexact then (if tiny then fUnderflow ||| fInexact else fInexact) else fNone)

/-- A zero result. -/
def Fmt.zero (f : Fmt) (neg : Bool) : Nat := f.code neg 0

/-- Flush of `.rne.ftz` (R209): a nonzero result below the smallest normal value is zero of its sign. -/
def Fmt.finishFtz (f : Fmt) (neg : Bool) (m : Nat) (e : Int) (st : Bool) : Nat × Flags :=
  let (_, _, tiny) := f.round rne neg m e st
  if tiny then (f.zero neg, fUnderflow ||| fInexact) else f.finish rne false neg m e st

/-- An infinity into a format (R202). -/
def Fmt.convInf (f : Fmt) (sat neg : Bool) : Nat × Flags :=
  if neg && !f.signed then (if sat then 0 else f.nan, fInvalid)
  else if f.inf then (f.infCode neg, fNone)
  else if sat then (f.maxCode neg, fInexact) else (f.nan, fInvalid)

/-! ### Exact arithmetic -/

/-- (-1)^neg · m as an integer. -/
def signedNat (neg : Bool) (m : Nat) : Int := if neg then -(m : Int) else m

/-- The exact sum of two dyadic numbers: an integer and an exponent. -/
def addExact (n1 : Bool) (m1 : Nat) (e1 : Int) (n2 : Bool) (m2 : Nat) (e2 : Int) : Int × Int :=
  let e := min e1 e2
  (signedNat n1 m1 * (2 ^ (e1 - e).toNat : Nat) + signedNat n2 m2 * (2 ^ (e2 - e).toNat : Nat), e)

/-- How a result is delivered: rounding attribute, saturation, flush. -/
structure Deliver where
  rnd : Rnd
  sat : Bool
  ftz : Bool
  deriving DecidableEq, Repr

def Fmt.deliver (f : Fmt) (d : Deliver) (neg : Bool) (m : Nat) (e : Int) (st : Bool) : Nat × Flags :=
  if d.ftz then f.finishFtz neg m e st else f.finish d.rnd d.sat neg m e st

/-- An operand under flush (R209). -/
def Fmt.flush (f : Fmt) (ftz : Bool) (v : FVal) : FVal :=
  match v with
  | .fin neg m e => if ftz && decide (m < 2 ^ (f.p - 1)) then .zero neg else .fin neg m e
  | v => v

def FVal.isNan : FVal → Bool | .nan _ => true | _ => false
def FVal.isSnan : FVal → Bool | .nan s => s | _ => false
def FVal.neg? : FVal → Bool | .nan _ => false | .inf n => n | .zero n => n | .fin n _ _ => n
def FVal.flip : FVal → FVal
  | .nan s => .nan s | .inf n => .inf (!n) | .zero n => .zero (!n) | .fin n m e => .fin (!n) m e

/-- Invalid when an operand is a signalling NaN. -/
def snanFlag (vs : List FVal) : Flags := if vs.any FVal.isSnan then fInvalid else fNone

/-- The sum of two non-NaN values, rounded. An exact zero sum has the sign that R208's last sentence gives, for two
zeros too: +0 and +0 make -0 under RDN (DEDUCED, log 92). -/
def Fmt.sum (f : Fmt) (d : Deliver) (a b : FVal) : Nat × Flags :=
  match a, b with
  | .inf x, .inf y => if x = y then (f.infCode x, fNone) else (f.nan, fInvalid)
  | .inf x, _ => (f.infCode x, fNone)
  | _, .inf y => (f.infCode y, fNone)
  | .zero x, .zero y => (f.zero ((x && y) || d.rnd.mode == 4), fNone)
  | .fin x m e, .zero _ => f.deliver d x m e false
  | .zero _, .fin y m e => f.deliver d y m e false
  | .fin x m1 e1, .fin y m2 e2 =>
    let r := addExact x m1 e1 y m2 e2
    if r.1 = 0 then (f.zero (d.rnd.mode == 4), fNone) else f.deliver d (decide (r.1 < 0)) r.1.natAbs r.2 false
  | _, _ => (f.nan, fNone)

def Fmt.add (f : Fmt) (d : Deliver) (a b : Nat) : Nat × Flags :=
  let x := f.flush d.ftz (f.decode a)
  let y := f.flush d.ftz (f.decode b)
  if x.isNan || y.isNan then (f.nan, snanFlag [x, y]) else f.sum d x y

def Fmt.sub (f : Fmt) (d : Deliver) (a b : Nat) : Nat × Flags :=
  let x := f.flush d.ftz (f.decode a)
  let y := f.flush d.ftz (f.decode b)
  if x.isNan || y.isNan then (f.nan, snanFlag [x, y]) else f.sum d x y.flip

/-- The exact product of two non-NaN values; `none` for 0 × ∞. -/
def mulExact (a b : FVal) : Option FVal :=
  match a, b with
  | .inf _, .zero _ => none
  | .zero _, .inf _ => none
  | .inf x, b => some (.inf (x != b.neg?))
  | a, .inf y => some (.inf (a.neg? != y))
  | .zero x, b => some (.zero (x != b.neg?))
  | a, .zero y => some (.zero (a.neg? != y))
  | .fin x m1 e1, .fin y m2 e2 => some (.fin (x != y) (m1 * m2) (e1 + e2))
  | _, _ => none

/-- A non-NaN value into a format. -/
def Fmt.put (f : Fmt) (d : Deliver) (v : FVal) : Nat × Flags :=
  match v with
  | .nan s => (f.nan, if s then fInvalid else fNone)
  | .inf n => f.convInf d.sat n
  | .zero n => (f.zero n, fNone)
  | .fin n m e => f.deliver d n m e false

def Fmt.mul (f : Fmt) (d : Deliver) (a b : Nat) : Nat × Flags :=
  let x := f.flush d.ftz (f.decode a)
  let y := f.flush d.ftz (f.decode b)
  if x.isNan || y.isNan then (f.nan, snanFlag [x, y]) else
  match mulExact x y with
  | none => (f.nan, fInvalid)
  | some v => f.put d v

/-- Fused multiply-add; 0 × ∞ raises invalid even with a quiet NaN addend (R208). -/
def Fmt.fmaOf (f : Fmt) (d : Deliver) (x y z : FVal) : Nat × Flags :=
  if x.isNan || y.isNan then (f.nan, snanFlag [x, y, z]) else
  match mulExact x y with
  | none => (f.nan, fInvalid)
  | some v => if z.isNan then (f.nan, snanFlag [z]) else f.sum d v z

def Fmt.fma (f : Fmt) (d : Deliver) (a b c : Nat) : Nat × Flags :=
  f.fmaOf d (f.flush d.ftz (f.decode a)) (f.flush d.ftz (f.decode b)) (f.flush d.ftz (f.decode c))

/-- The exact value of `x - n` for a value above `n`. -/
def FVal.lessNat (x : FVal) (n : Nat) : FVal :=
  match x with
  | .fin neg m e => let r := addExact neg m e true n 0; if r.1 = 0 then .zero false else .fin (decide (r.1 < 0)) r.1.natAbs r.2
  | x => x

def Fmt.div (f : Fmt) (d : Deliver) (a b : Nat) : Nat × Flags :=
  let x := f.flush d.ftz (f.decode a)
  let y := f.flush d.ftz (f.decode b)
  if x.isNan || y.isNan then (f.nan, snanFlag [x, y]) else
  match x, y with
  | .inf _, .inf _ => (f.nan, fInvalid)
  | .inf n, v => (f.infCode (n != v.neg?), fNone)
  | v, .inf n => (f.zero (v.neg? != n), fNone)
  | .zero _, .zero _ => (f.nan, fInvalid)
  | .zero n, v => (f.zero (n != v.neg?), fNone)
  | v, .zero n => (f.infCode (v.neg? != n), fDivZero)
  | .fin n m1 e1, .fin k m2 e2 =>
    let sh := f.p + 3 + bitLen m2
    f.deliver d (n != k) (m1 * 2 ^ sh / m2) (e1 - e2 - sh) (m1 * 2 ^ sh % m2 != 0)
  | _, _ => (f.nan, fNone)

/-- The integer square root of `n`, bit by bit from bit `b - 1` down, above the part `r` already found. -/
def isqrtFrom (n : Nat) : Nat → Nat → Nat
  | 0, r => r
  | b + 1, r => isqrtFrom n b (if (r + 2 ^ b) * (r + 2 ^ b) ≤ n then r + 2 ^ b else r)
def isqrt (n : Nat) : Nat := isqrtFrom n (bitLen n / 2 + 1) 0

def Fmt.sqrt (f : Fmt) (d : Deliver) (a : Nat) : Nat × Flags :=
  match f.flush d.ftz (f.decode a) with
  | .nan s => (f.nan, if s then fInvalid else fNone)
  | .zero n => (f.zero n, fNone)
  | .inf false => (f.infCode false, fNone)
  | .inf true => (f.nan, fInvalid)
  | .fin true _ _ => (f.nan, fInvalid)
  | .fin false m e =>
    let m1 := if e % 2 = 0 then m else 2 * m
    let e1 := if e % 2 = 0 then e else e - 1
    let k := f.p + 3
    let n := m1 * 2 ^ (2 * k)
    let r := isqrt n
    f.deliver d false r (e1 / 2 - k) (r * r != n)

/-- a < b, a = b or a > b of two non-NaN values; zeros are equal. -/
def fcompare (a b : FVal) : Ordering :=
  let key : FVal → Int × Int := fun v => match v with
    | .inf true => (-1, 0) | .inf false => (1, 0) | _ => (0, 0)
  match compare (key a).1 (key b).1 with
  | .eq =>
    let p : FVal → Bool × Nat × Int := fun v => match v with | .fin n m e => (n, m, e) | _ => (false, 0, 0)
    let (n1, m1, e1) := p a
    let (n2, m2, e2) := p b
    let r := addExact n1 m1 e1 (!n2) m2 e2
    compare r.1 0
  | o => o

/-- minimumNumber and maximumNumber, minimum and maximum (R210): `.num` with `nan` false. -/
def Fmt.minMax (f : Fmt) (wantMax nan : Bool) (a b : Nat) : Nat × Flags :=
  let x := f.decode a
  let y := f.decode b
  let fl := snanFlag [x, y]
  let less : Bool := match fcompare x y with
    | .lt => true
    | .gt => false
    | .eq => x.neg? && !y.neg?
  if x.isNan && y.isNan then (f.nan, fl)
  else if x.isNan then (if nan then (f.nan, fl) else (b % 2 ^ f.w, fl))
  else if y.isNan then (if nan then (f.nan, fl) else (a % 2 ^ f.w, fl))
  else ((if less != wantMax then a else b) % 2 ^ f.w, fl)

/-- Classes of R213. -/
def Fmt.classify (f : Fmt) (a : Nat) : Nat :=
  match f.decode a with
  | .nan true => 2 ^ 8
  | .nan false => 2 ^ 9
  | .inf true => 1
  | .inf false => 2 ^ 7
  | .zero true => 2 ^ 3
  | .zero false => 2 ^ 4
  | .fin n m _ =>
    if f.kind ≠ 2 ∧ m < 2 ^ (f.p - 1) then (if n then 2 ^ 2 else 2 ^ 5) else (if n then 2 else 2 ^ 6)

/-- Rounds a finite value to an integer: the integer and whether it is inexact. -/
def toIntegral (r : Rnd) (neg : Bool) (m : Nat) (e : Int) : Int × Bool :=
  let n := roundAt r neg m e false 0 0
  (signedNat neg n.1, n.2)

/-- `frint` (R215). -/
def Fmt.rint (f : Fmt) (r : Rnd) (exact : Bool) (a : Nat) : Nat × Flags :=
  match f.decode a with
  | .nan s => (f.nan, if s then fInvalid else fNone)
  | .fin n m e =>
    let (i, inexact) := toIntegral r n m e
    let fl := if exact && inexact then fInexact else fNone
    if i = 0 then (f.zero n, fl) else ((f.finish r false n i.natAbs 0 false).1, fl)
  | _ => (a % 2 ^ f.w, fNone)

/-- `fcvti` (R216): a float to an integer of `w` bits. -/
def Fmt.toInt (f : Fmt) (r : Rnd) (signed : Bool) (w : Nat) (a : Nat) : Word × Flags :=
  let lo : Int := if signed then -(2 ^ (w - 1) : Nat) else 0
  let hi : Int := if signed then (2 ^ (w - 1) : Nat) - 1 else (2 ^ w : Nat) - 1
  match f.decode a with
  | .nan _ => (0, fInvalid)
  | .inf n => (wrap w (if n then lo else hi), fInvalid)
  | .zero _ => (0, fNone)
  | .fin n m e =>
    let (i, inexact) := toIntegral r n m e
    if i < lo then (wrap w lo, fInvalid) else if hi < i then (wrap w hi, fInvalid)
    else (wrap w i, if inexact then fInexact else fNone)

/-- `icvtf` (R216): an integer into a format. -/
def Fmt.ofInt (f : Fmt) (r : Rnd) (i : Int) : Nat × Flags :=
  if i = 0 then (0, fNone) else f.finish r false (decide (i < 0)) i.natAbs 0 false

/-- `fcvt` (R214): a value of format `g` into format `f`. -/
def Fmt.convert (f g : Fmt) (r : Rnd) (sat : Bool) (a : Nat) : Nat × Flags :=
  match g.decode a with
  | .nan s => (f.nan, if s then fInvalid else fNone)
  | .zero n => if f.kind = 2 then (f.nan, fInvalid) else (f.zero n, fNone)
  | .inf n => if f.kind = 2 ∧ n then (f.nan, fInvalid) else f.convInf sat n
  | .fin n m e => if f.kind = 2 ∧ n then (f.nan, fInvalid) else f.finish r sat n m e false

/-- a × 2^n, rounded (R217). An `n` beyond ±5000 acts as ±5000: both lie beyond every format's range. -/
def Fmt.scale (f : Fmt) (r : Rnd) (a : Nat) (n : Int) : Nat × Flags :=
  match f.decode a with
  | .nan s => (f.nan, if s then fInvalid else fNone)
  | .fin x m e => f.finish r false x m (e + max (-5000) (min n 5000)) false
  | _ => (a % 2 ^ f.w, fNone)

/-- `flogb` (R217). -/
def Fmt.logb (f : Fmt) (a : Nat) : Word × Flags :=
  match f.decode a with
  | .nan _ => (0x7FFFFFFF, fInvalid)
  | .inf _ => (0x7FFFFFFF, fInvalid)
  | .zero _ => (0x80000000, fInvalid)
  | .fin _ m e => (wrap 32 ((bitLen m : Int) + e - 1), fNone)

/-- An integer that is the value of an operand of a floating type (R29); exact by validation. -/
def Fmt.ofImm (f : Fmt) (i : Int) : Nat := (f.ofInt rne i).1
/-- Whether an integer is exactly representable (R29). -/
def Fmt.exactInt (f : Fmt) (i : Int) : Bool :=
  if f.kind = 2 then decide (0 < i) && (f.ofInt rne i).2 == fNone
  else (f.ofInt rne i).2 == fNone

/-! ### Immediate and special values (R29, R30) -/

/-- An immediate of a type (R29). -/
def immVal (t : Ty) (i : Int) : Word :=
  if isFloat t || isB8 t || t == .sc8 then BitVec.ofNat 64 ((fmtOf t).ofImm i) else wrap (tyWidth t) i

/-- A special value of a type (R30). -/
def specialVal (t : Ty) (signed : Bool) (code : Nat) : Word :=
  let f := fmtOf t
  let fl := isFloat t || isB8 t || t == .sc8
  let w := tyWidth t
  match code with
  | 1 => if fl then BitVec.ofNat 64 (f.ofImm 1) else 1
  | 2 => wrap w (-1)
  | 3 => BitVec.ofNat 64 (f.infCode false)
  | 4 => BitVec.ofNat 64 (f.infCode true)
  | 5 => BitVec.ofNat 64 f.nan
  | 6 => if fl then BitVec.ofNat 64 f.cmax else if signed then wrap w ((2 ^ (w - 1) : Nat) - 1) else wrap w (-1)
  | 7 => if fl then BitVec.ofNat 64 (if f.signed then f.maxCode true else 0)
         else if signed then wrap w (2 ^ (w - 1) : Nat) else 0
  | _ => 0

end Sys2Proof.Machine
end

