-- ==== Sys2Proof/Config.lean ====
section
/-!
DEFINITION. What the package wiring fixes, and the values that the spec leaves open: opaque constants without a body, so
that nothing can be proved of one of them that does not hold of every value.
-/
namespace Sys2Proof.Config

/-- Die 0 to 8: 0 W-die, 1 N-die, 2 F-die (R5, R18). -/
def dieKind (die : Nat) : Nat := if die = 8 then 2 else if die = 3 ∨ die = 7 then 1 else 0
/-- Warp width L of a die (R7). -/
def lanes (die : Nat) : Nat := if dieKind die = 0 then 64 else if dieKind die = 1 then 32 else 0
/-- Vector registers of a core (R7, R8). -/
def vregs (die : Nat) : Nat := if dieKind die = 0 then 1536 else if dieKind die = 1 then 1024 else 0
/-- Scratchpad bytes of a core (R7). -/
def scratch (die : Nat) : Nat := if dieKind die = 0 then 262144 else 196608
/-- Physical accumulator tiles of a core (R7). -/
def accs (die : Nat) : Nat := if dieKind die = 0 then 8 else if dieKind die = 1 then 4 else 0
/-- Bytes of a warp's path area (R333). -/
def pathArea (die : Nat) : Nat := if dieKind die = 0 then 4096 else 2048
/-- First physical address of the translation store, 254 GiB (R12, R66). -/
def storeBase : Nat := 254 * 2 ^ 30
/-- What a byte of memory that nothing has written reads as: the spec gives no power-on contents. DESIGN CHOICE (log 3). -/
def emptyByte : BitVec 8 := 0
/-- Stall timeout exponent by default (R366). -/
def stallK : Nat := 26
/-- Manifest period exponent by default (R383). -/
def manifestK : Nat := 16

/-- A value the spec leaves open, one for each place: applied to the counter of Control.fresh (log 1). -/
opaque freeWord : Nat → Word
/-- The result of a fixed special function where R231 gives a bound and no value (log 2): function number, operand. -/
opaque sfValue : Nat → BitVec 32 → BitVec 32
/-- Free slots of a long link at a moment, in quarters of its slots: the spec gives neither number (R275; log 14). -/
opaque linkQuarters : Nat → Nat → Nat → Nat
/-- The keyed check code of a handle, known only to its die (R82): die, bits 63:16. -/
opaque handleCheck : Nat → BitVec 48 → BitVec 16
/-- Cycles after which the kernel gives up a queued fault whose page stays unmapped: the spec states none (R88; log 49). -/
opaque faultPatience : Nat → Nat
/-- Whether the SHA-512 digest of a firmware image's public key equals the hash fused in the die (R397). -/
opaque fwKeyOk : Nat → List Byte → Bool
/-- Whether a firmware image's RSASSA-PSS signature verifies (R397). -/
opaque fwSigOk : List Byte → Bool
/-- The version in a firmware image (R397). -/
opaque fwVersion : List Byte → Nat
/-- The image in the module's flash for a die at package reset (R397). -/
opaque fwFactory : Nat → List Byte
/-- The fused version counter of a die (R397). -/
opaque fwFused : Nat → Nat
/-- The 512-byte identity public key of a die (R393, R398). -/
opaque identityKey : Nat → List Byte
/-- The bids that the command processors (die 8) or the management kernel of a die make at a frame, given by the frame count and
the die: identifier less 224, key, number of the bidder. The spec says that they bid, not when (R16, R320; log 71). -/
opaque systemBids : BitVec 64 → Nat → List (Nat × Word × Nat)
/-- Size in 512 MiB units of the expander at a CXL root port (R13, R67; log 72). -/
opaque expanderUnits : Nat → Nat
/-- The line that leaves a full cluster cache, by the cycle and the address of the line that enters (R6; log 62). -/
opaque cacheVictim : Nat → Nat → Nat
/-- Corrected errors that ordinary accesses of a die meet in a cycle, given by the cycle and the die (R64; log 74). -/
opaque correctedErrors : Nat → Nat → Nat
/-- Bytes of a packet's header that are in error when it has crossed a hop, by the cycle and the hop (R296, R370; log 81). -/
opaque headerErrors : Nat → Nat → Nat
/-- Words of scratch, and pairs of accumulator words, in which an uncorrectable error arises in a cycle (R250, R365; log 80). -/
opaque lostScratch : Nat → List Nat
opaque lostAccumulators : Nat → List Nat
/-- The digest of a cluster's translator microcode (R398): die, cluster. -/
opaque microcodeDigest : Nat → Nat → List Byte
/-- The identity key's signature over an attestation (R398). -/
opaque attestSign : Nat → List Byte → List Byte

end Sys2Proof.Config
end

