-- ==== Sys2Proof/Decode.lean ====
section
/-!
DEFINITION. Decoding and encoding: Plimet words with their extension words (R27, R28, R31, R32), bundle slots and headers
(R45, R46, R49), the shared opcode map (R59), and the host's messages (R391 to R393). Decoding is total and rejects by
name; the encoders follow, written from the same tables.
-/
namespace Sys2Proof

/-- Why a word, a slot or a bundle is no instruction (R28, R31, R61). -/
inductive Reject where
  | noWord | unassigned | nativeOnly | reserved | fieldZero | fieldKind | fieldNone | longShort | extension | slotCode
  | header
  deriving DecidableEq, Repr

/-! ### The shared opcode map (R59) -/

/-- The code of an operation. -/
def opCode (op : Op) : Nat :=
  match op with
  | .br => 0x003
  | .brc => 0x004
  | .switch => 0x005
  | .call => 0x006
  | .callx => 0x007
  | .ret => 0x008
  | .exit => 0x009
  | .trap => 0x00A
  | .unreach => 0x00B
  | .const => 0x00C
  | .sreg => 0x00D
  | .select => 0x00E
  | .trapInfo => 0x00F
  | .trapRet => 0x010
  | .add => 0x020
  | .sub => 0x021
  | .mul => 0x022
  | .mulhi => 0x023
  | .mad => 0x024
  | .div => 0x025
  | .rem => 0x026
  | .neg => 0x027
  | .abs => 0x028
  | .min => 0x029
  | .max => 0x02A
  | .and => 0x02B
  | .or => 0x02C
  | .xor => 0x02D
  | .andn => 0x02E
  | .not => 0x02F
  | .shl => 0x030
  | .shr => 0x031
  | .rotl => 0x032
  | .rotr => 0x033
  | .popc => 0x034
  | .clz => 0x035
  | .ctz => 0x036
  | .brev => 0x037
  | .bfx => 0x038
  | .bfi => 0x039
  | .ext => 0x03A
  | .trunc => 0x03B
  | .icmp => 0x03C
  | .adr => 0x03D
  | .bsel => 0x03E
  | .fadd => 0x060
  | .fsub => 0x061
  | .fmul => 0x062
  | .fdiv => 0x063
  | .fsqrt => 0x064
  | .fma => 0x065
  | .fmin => 0x066
  | .fmax => 0x067
  | .fneg => 0x068
  | .fabs => 0x069
  | .fcopysign => 0x06A
  | .fcmp => 0x06B
  | .fclass => 0x06C
  | .frint => 0x06D
  | .fcvt => 0x06E
  | .fcvti => 0x06F
  | .icvtf => 0x070
  | .fscaleb => 0x071
  | .flogb => 0x072
  | .fexcRd => 0x073
  | .fexcClr => 0x074
  | .fmodeSet => 0x075
  | .fmodeRd => 0x076
  | .pk8 => 0x077
  | .upk8 => 0x078
  | .bscale => 0x079
  | .lanex => 0x0A0
  | .vote => 0x0A1
  | .lgred => 0x0A2
  | .lgscan => 0x0A3
  | .matchLanes => 0x0A4
  | .sfEval => 0x0A8
  | .sfLoad => 0x0A9
  | .ld => 0x0B0
  | .st => 0x0B1
  | .prefetch => 0x0B2
  | .amo => 0x0B3
  | .cas => 0x0B4
  | .red => 0x0B5
  | .fence => 0x0B6
  | .bxShape => 0x0C0
  | .bxCopy => 0x0C1
  | .bxConv => 0x0C2
  | .bxFill => 0x0C3
  | .bxGather => 0x0C4
  | .bxScatter => 0x0C5
  | .bxRed => 0x0C6
  | .waitTok => 0x0C8
  | .tokAll => 0x0C9
  | .tokStatus => 0x0CA
  | .waitChunks => 0x0CB
  | .testChunks => 0x0CC
  | .clrChunks => 0x0CD
  | .mxZero => 0x0D0
  | .mxLd => 0x0D1
  | .mxStep => 0x0D2
  | .mxLoop => 0x0D3
  | .mxStore => 0x0D4
  | .mxMode => 0x0D5
  | .mxRead => 0x0D6
  | .xcSwap => 0x0E0
  | .barJoin => 0x0E8
  | .barLeave => 0x0E9
  | .barArrive => 0x0EA
  | .barWait => 0x0EB
  | .barSync => 0x0EC
  | .yield => 0x0ED
  | .cpKey => 0x0F0
  | .cpBid => 0x0F1
  | .cpGate => 0x0F2
  | .cpWon => 0x0F3
  | .cpMax => 0x0F4
  | .cpDie => 0x0F5
  | .cpRound => 0x0F6
  | .cpLast => 0x0F7
  | .cvTurn => 0x100
  | .cvSplit => 0x101
  | .brk => 0x108
  | .dbgMark => 0x109
  | .rdclk => 0x10A
  | .rdcnt => 0x10B
  | .sys => 0x10C
  | .spill => 0x180
  | .fill => 0x181
  | .vmov => 0x182
  | .smov => 0x183
  | .v2s => 0x184
  | .s2v => 0x185
  | .pset => 0x186
  | .pclr => 0x187
  | .pathSplit => 0x188
  | .pathJoin => 0x189
  | .waitCnt => 0x18A
  | .tqPop => 0x18B
  | .tqPush => 0x18C
  | .jmp => 0x18D
  | .ncall => 0x18E
  | .nret => 0x18F
  | .frameEnter => 0x190
  | .frameLeave => 0x190
  | .entry => 0x191
  | .bnop => 0x192

/-- The operation of a code; `frame` is told apart by MOD (R153). -/
def opOfCode (code md : Nat) : Option Op :=
  match code with
  | 0x003 => some .br
  | 0x004 => some .brc
  | 0x005 => some .switch
  | 0x006 => some .call
  | 0x007 => some .callx
  | 0x008 => some .ret
  | 0x009 => some .exit
  | 0x00A => some .trap
  | 0x00B => some .unreach
  | 0x00C => some .const
  | 0x00D => some .sreg
  | 0x00E => some .select
  | 0x00F => some .trapInfo
  | 0x010 => some .trapRet
  | 0x020 => some .add
  | 0x021 => some .sub
  | 0x022 => some .mul
  | 0x023 => some .mulhi
  | 0x024 => some .mad
  | 0x025 => some .div
  | 0x026 => some .rem
  | 0x027 => some .neg
  | 0x028 => some .abs
  | 0x029 => some .min
  | 0x02A => some .max
  | 0x02B => some .and
  | 0x02C => some .or
  | 0x02D => some .xor
  | 0x02E => some .andn
  | 0x02F => some .not
  | 0x030 => some .shl
  | 0x031 => some .shr
  | 0x032 => some .rotl
  | 0x033 => some .rotr
  | 0x034 => some .popc
  | 0x035 => some .clz
  | 0x036 => some .ctz
  | 0x037 => some .brev
  | 0x038 => some .bfx
  | 0x039 => some .bfi
  | 0x03A => some .ext
  | 0x03B => some .trunc
  | 0x03C => some .icmp
  | 0x03D => some .adr
  | 0x03E => some .bsel
  | 0x060 => some .fadd
  | 0x061 => some .fsub
  | 0x062 => some .fmul
  | 0x063 => some .fdiv
  | 0x064 => some .fsqrt
  | 0x065 => some .fma
  | 0x066 => some .fmin
  | 0x067 => some .fmax
  | 0x068 => some .fneg
  | 0x069 => some .fabs
  | 0x06A => some .fcopysign
  | 0x06B => some .fcmp
  | 0x06C => some .fclass
  | 0x06D => some .frint
  | 0x06E => some .fcvt
  | 0x06F => some .fcvti
  | 0x070 => some .icvtf
  | 0x071 => some .fscaleb
  | 0x072 => some .flogb
  | 0x073 => some .fexcRd
  | 0x074 => some .fexcClr
  | 0x075 => some .fmodeSet
  | 0x076 => some .fmodeRd
  | 0x077 => some .pk8
  | 0x078 => some .upk8
  | 0x079 => some .bscale
  | 0x0A0 => some .lanex
  | 0x0A1 => some .vote
  | 0x0A2 => some .lgred
  | 0x0A3 => some .lgscan
  | 0x0A4 => some .matchLanes
  | 0x0A8 => some .sfEval
  | 0x0A9 => some .sfLoad
  | 0x0B0 => some .ld
  | 0x0B1 => some .st
  | 0x0B2 => some .prefetch
  | 0x0B3 => some .amo
  | 0x0B4 => some .cas
  | 0x0B5 => some .red
  | 0x0B6 => some .fence
  | 0x0C0 => some .bxShape
  | 0x0C1 => some .bxCopy
  | 0x0C2 => some .bxConv
  | 0x0C3 => some .bxFill
  | 0x0C4 => some .bxGather
  | 0x0C5 => some .bxScatter
  | 0x0C6 => some .bxRed
  | 0x0C8 => some .waitTok
  | 0x0C9 => some .tokAll
  | 0x0CA => some .tokStatus
  | 0x0CB => some .waitChunks
  | 0x0CC => some .testChunks
  | 0x0CD => some .clrChunks
  | 0x0D0 => some .mxZero
  | 0x0D1 => some .mxLd
  | 0x0D2 => some .mxStep
  | 0x0D3 => some .mxLoop
  | 0x0D4 => some .mxStore
  | 0x0D5 => some .mxMode
  | 0x0D6 => some .mxRead
  | 0x0E0 => some .xcSwap
  | 0x0E8 => some .barJoin
  | 0x0E9 => some .barLeave
  | 0x0EA => some .barArrive
  | 0x0EB => some .barWait
  | 0x0EC => some .barSync
  | 0x0ED => some .yield
  | 0x0F0 => some .cpKey
  | 0x0F1 => some .cpBid
  | 0x0F2 => some .cpGate
  | 0x0F3 => some .cpWon
  | 0x0F4 => some .cpMax
  | 0x0F5 => some .cpDie
  | 0x0F6 => some .cpRound
  | 0x0F7 => some .cpLast
  | 0x100 => some .cvTurn
  | 0x101 => some .cvSplit
  | 0x108 => some .brk
  | 0x109 => some .dbgMark
  | 0x10A => some .rdclk
  | 0x10B => some .rdcnt
  | 0x10C => some .sys
  | 0x180 => some .spill
  | 0x181 => some .fill
  | 0x182 => some .vmov
  | 0x183 => some .smov
  | 0x184 => some .v2s
  | 0x185 => some .s2v
  | 0x186 => some .pset
  | 0x187 => some .pclr
  | 0x188 => some .pathSplit
  | 0x189 => some .pathJoin
  | 0x18A => some .waitCnt
  | 0x18B => some .tqPop
  | 0x18C => some .tqPush
  | 0x18D => some .jmp
  | 0x18E => some .ncall
  | 0x18F => some .nret
  | 0x191 => some .entry
  | 0x192 => some .bnop
  | 0x190 => if md = 0 then some .frameEnter else if md = 1 then some .frameLeave else none
  | _ => none

/-- The slots in which an operation runs; none for one that the translator lowers (R59). -/
def opSlots (op : Op) : List Nat :=
  match op with
  | .br | .brc | .switch | .call | .callx | .ret | .unreach | .const => []
  | .exit | .trap | .trapRet | .ld | .st | .prefetch | .amo | .cas | .red | .fence | .waitTok | .tokStatus 
  | .waitChunks | .testChunks | .clrChunks | .barJoin | .barLeave | .barArrive | .barWait | .barSync | .yield 
  | .cpGate | .cpMax | .cpDie | .cpRound | .cpLast | .cvSplit | .brk | .dbgMark | .rdclk | .rdcnt | .sys 
  | .spill | .fill | .smov | .pset | .pclr | .pathSplit | .pathJoin | .waitCnt | .jmp | .ncall | .nret 
  | .frameEnter | .frameLeave | .entry => [0]
  | .sreg | .select | .add | .sub | .mul | .mulhi | .mad | .div | .rem | .neg | .abs | .min | .max | .and | .or 
  | .xor | .andn | .not | .shl | .shr | .rotl | .rotr | .popc | .clz | .ctz | .brev | .bfx | .bfi | .ext 
  | .trunc | .icmp | .adr | .bsel | .fadd | .fsub | .fmul | .fdiv | .fsqrt | .fma | .fmin | .fmax | .fneg 
  | .fabs | .fcopysign | .fcmp | .fclass | .frint | .fcvt | .fcvti | .icvtf | .fscaleb | .flogb | .bnop => [0, 1, 2]
  | .trapInfo | .fexcRd | .fexcClr | .fmodeRd | .pk8 | .upk8 | .bscale | .cpKey | .vmov => [1, 2]
  | .fmodeSet | .lanex | .vote | .lgred | .lgscan | .matchLanes | .cpWon | .v2s | .s2v => [1]
  | .sfEval | .sfLoad | .mxRead | .xcSwap => [2]
  | .bxShape | .bxCopy | .bxConv | .bxFill | .bxGather | .bxScatter | .bxRed | .tokAll | .mxZero | .mxLd 
  | .mxStep | .mxLoop | .mxStore | .mxMode | .cpBid | .cvTurn | .tqPop | .tqPush => [0, 2]

/-- Whether an operation is native-only (R59: codes 0x180 to 0x1DF). -/
def nativeOnly (op : Op) : Bool := decide (0x180 ≤ opCode op)

/-! ### Plimet words -/

/-- Bits `lo + n - 1` to `lo` of a word. -/
def field (w : Word) (lo n : Nat) : Nat := w.toNat / 2 ^ lo % 2 ^ n

/-- The fields in use of an extension word (R31): CNT of E0, E1, E2, the others holding None. -/
def extFields (last : Bool) (w : Word) : Option (List Nat) :=
  let cnt := field w 48 3
  let es := [field w 32 16, field w 16 16, field w 0 16]
  if field w 55 9 != 0x1FE || field w 51 4 != 0 || cnt == 0 || decide (3 < cnt) || (!last && cnt != 3) then none
  else if (es.drop cnt).all (· == 0xB000) then some (es.take cnt) else none

/-- All extension fields in sequence (R32). -/
def extAll : List Word → Option (List Nat)
  | [] => some []
  | w :: ws =>
    match extFields ws.isEmpty w, extAll ws with
    | some a, some b => some (a ++ b)
    | _, _ => none

/-- One operand field; a long back-reference takes its low half from the fields that follow (R28, R32). -/
def operandOf (x : Nat) (more : List Nat) : Except Reject (Operand × List Nat) :=
  let v := BitVec.ofNat 12 x
  if x < 0x8000 then (if x = 0 then .error .fieldZero else .ok (.back x, more))
  else match x / 4096 with
    | 8 => .ok (.imm v, more)
    | 9 => .ok (.konst v, more)
    | 10 => match more with
      | [] => .error .extension
      | lo :: more => if x % 4096 * 65536 + lo < 32768 then .error .longShort
                      else .ok (.back (x % 4096 * 65536 + lo), more)
    | 11 => if v = 0 then .ok (.none, more) else .error .fieldNone
    | 12 => .ok (.special v, more)
    | 13 => .ok (.index v, more)
    | _ => .error .fieldKind

/-- The extra operands; `fuel` is the number of fields left. -/
def extraOperands : Nat → List Nat → Except Reject (List Operand)
  | _, [] => .ok []
  | 0, _ => .error .extension
  | fuel + 1, x :: more =>
    match operandOf x more with
    | .error e => .error e
    | .ok (o, more) =>
      match extraOperands fuel more with
      | .error e => .error e
      | .ok os => .ok (o :: os)

/-- The fields of a word and its extension words. -/
def plimetForm (w : Word) (exts : List Word) : Except Reject PForm :=
  match extAll exts with
  | none => .error .extension
  | some fs =>
    match operandOf (field w 32 16) fs with
    | .error e => .error e
    | .ok (a, fs) =>
      match operandOf (field w 16 16) fs with
      | .error e => .error e
      | .ok (b, fs) =>
        match operandOf (field w 0 16) fs with
        | .error e => .error e
        | .ok (c, fs) =>
          match extraOperands fs.length fs with
          | .error e => .error e
          | .ok ext => .ok { ty := BitVec.ofNat 4 (field w 51 4), md := BitVec.ofNat 3 (field w 48 3), a := a, b := b,
                             c := c, ext := ext }

/-- The operation of a Plimet word (R61); `blk` and `param` are no instructions. -/
def plimetOp (w : Word) : Except Reject Op :=
  let code := field w 55 9
  if 0x1E0 ≤ code then .error .reserved
  else if 0x180 ≤ code then .error .nativeOnly
  else match opOfCode code 0 with
    | some op => .ok op
    | none => .error .unassigned

/-- DECODING of a Plimet instruction: a word and the extension words that follow it. -/
def decodePlimet (ws : List Word) : Except Reject Instr :=
  match ws with
  | [] => .error .noWord
  | w :: exts =>
    match plimetOp w with
    | .error e => .error e
    | .ok op =>
      match plimetForm w exts with
      | .error e => .error e
      | .ok f => match Instr.ofP op f with
        | some i => .ok i
        | none => .error .nativeOnly

/-! ### Slots and bundles -/

/-- The fields of a slot (R49). -/
def slotForm (slot : Nat) (b : BitVec 74) : NForm :=
  { slot := BitVec.ofNat 2 slot, ntype := b.extractLsb' 61 4, md := b.extractLsb' 58 3, gs := b.extractLsb' 56 2,
    dst := b.extractLsb' 45 11, sa := b.extractLsb' 34 11, sb := b.extractLsb' 23 11, sc := b.extractLsb' 12 11,
    aux := b.extractLsb' 0 12 }

/-- DECODING of a bundle slot: the operation must run in the slot (R59, R61). -/
def decodeSlot (slot : Nat) (b : BitVec 74) : Except Reject Instr :=
  match opOfCode (b.extractLsb' 65 9).toNat (b.extractLsb' 58 3).toNat with
  | none => .error .unassigned
  | some op =>
    if (opSlots op).contains slot then
      match Instr.ofN op (slotForm slot b) with
      | some i => .ok i
      | none => .error .slotCode
    else .error .slotCode

/-- A guard of a bundle header (R46). -/
structure Guard where
  reg : BitVec 7
  bit : BitVec 6
  pol : Bool
  deriving DecidableEq, Repr

/-- A bundle (R45, R46). -/
structure Bundle where
  kind : BitVec 2
  stop : BitVec 2
  g0 : Guard
  g1 : Guard
  s0 : Instr
  s1 : Instr
  s2 : Instr
  deriving DecidableEq, Repr

/-- DECODING of a bundle: 32 bytes, little-endian (R45, R46). -/
def decodeBundle (b : BitVec 256) : Except Reject Bundle :=
  if b.extractLsb' 254 2 != 0 || b.extractLsb' 30 2 == 3 || b.extractLsb' 28 2 == 3 then .error .header else
  match decodeSlot 0 (b.extractLsb' 32 74), decodeSlot 1 (b.extractLsb' 106 74), decodeSlot 2 (b.extractLsb' 180 74) with
  | .ok i0, .ok i1, .ok i2 =>
    .ok { kind := b.extractLsb' 30 2, stop := b.extractLsb' 28 2,
          g0 := { reg := b.extractLsb' 21 7, bit := b.extractLsb' 15 6, pol := b.getLsbD 14 },
          g1 := { reg := b.extractLsb' 7 7, bit := b.extractLsb' 1 6, pol := b.getLsbD 0 }, s0 := i0, s1 := i1, s2 := i2 }
  | .error e, _, _ => .error e
  | _, .error e, _ => .error e
  | _, _, .error e => .error e

/-! ### Bytes -/

/-- The 64-bit words of a list of bytes, eight at a time. -/
def wordsOf : Nat → List Byte → List Word
  | 0, _ => []
  | n + 1, bs => BitVec.ofNat 64 (leNat (bs.take 8)) :: wordsOf n (bs.drop 8)

/-- DECODING of the bytes of a Plimet instruction. -/
def decodeBytes (bs : List Byte) : Except Reject Instr := decodePlimet (wordsOf ((bs.length + 7) / 8) bs)

/-- The instruction read from an instruction whose bits are `w`, laid out as 64-bit words, the first the lowest. -/
def decodeTableWord (nbits w : Nat) : Option Instr :=
  match decodePlimet ((List.range ((nbits + 63) / 64)).map (fun i => BitVec.ofNat 64 (w / 2 ^ (64 * i)))) with
  | .ok i => some i
  | .error _ => none

/-! ### Encoding -/

/-- The field of an operand, and its low half when it is a long back-reference (R28, R32). -/
def encOperand (o : Operand) : Nat × List Nat :=
  match o with
  | .back d => if d < 32768 then (d, []) else (0xA000 + d / 65536, [d % 65536])
  | .imm v => (0x8000 + v.toNat, [])
  | .konst i => (0x9000 + i.toNat, [])
  | .none => (0xB000, [])
  | .special c => (0xC000 + c.toNat, [])
  | .index i => (0xD000 + i.toNat, [])

/-- A word from its fields (R27). -/
def packWord (code ty md a b c : Nat) : Word :=
  BitVec.ofNat 64 (code * 2 ^ 55 + ty * 2 ^ 51 + md * 2 ^ 48 + a * 2 ^ 32 + b * 2 ^ 16 + c)

/-- Extension words of a list of fields (R31). -/
def packExt : List Nat → List Word
  | [] => []
  | [x] => [packWord 0x1FE 0 1 x 0xB000 0xB000]
  | [x, y] => [packWord 0x1FE 0 2 x y 0xB000]
  | x :: y :: z :: r => packWord 0x1FE 0 3 x y z :: packExt r

/-- The fields of the extra operands, each long one followed by its low half. -/
def extraFields (os : List Operand) : List Nat := os.flatMap (fun o => (encOperand o).1 :: (encOperand o).2)

/-- ENCODING of a Plimet instruction. -/
def encodePlimet (op : Op) (f : PForm) : List Word :=
  let a := encOperand f.a
  let b := encOperand f.b
  let c := encOperand f.c
  packWord (opCode op) f.ty.toNat f.md.toNat a.1 b.1 c.1 :: packExt (a.2 ++ b.2 ++ c.2 ++ extraFields f.ext)

/-- ENCODING of a bundle slot (R49). -/
def encodeSlot (op : Op) (f : NForm) : BitVec 74 :=
  BitVec.ofNat 9 (opCode op) ++ f.ntype ++ f.md ++ f.gs ++ f.dst ++ f.sa ++ f.sb ++ f.sc ++ f.aux

/-- ENCODING of an instruction as words of the portable level; slots and events have none. -/
def encode (i : Instr) : List Word :=
  match i.opForm with
  | some (op, .p f) => encodePlimet op f
  | _ => []

/-- ENCODING of an instruction as a bundle slot. -/
def encodeNative (i : Instr) : Option (BitVec 74) :=
  match i.opForm with
  | some (op, .n f) => some (encodeSlot op f)
  | _ => none

/-- ENCODING of a bundle. -/
def encodeBundle (b : Bundle) : Option (BitVec 256) :=
  match encodeNative b.s0, encodeNative b.s1, encodeNative b.s2 with
  | some x0, some x1, some x2 =>
    some (0#2 ++ x2 ++ x1 ++ x0 ++ b.kind ++ b.stop ++ b.g0.reg ++ b.g0.bit ++ BitVec.ofBool b.g0.pol
      ++ b.g1.reg ++ b.g1.bit ++ BitVec.ofBool b.g1.pol)
  | _, _, _ => none

end Sys2Proof
end

