-- ==== Sys2Proof/Machine/State.lean ====
section
/-!
DEFINITION. The state of the package: every piece of architectural state the spec names, as plain data.

KEYS OF THE SPARSE MAPS. cluster = die·4 + c; core = cluster·96 + k; warp = core·16 + slot; path = warp·64 + i;
thread = warp·64 + lane; context = die·64 + n. Each map's doc comment gives its key.
-/
namespace Sys2Proof.Machine

/-! ### Memory side -/

/-- A cached translation (R77): the leaf that maps the page of `2^lg` bytes at `va` in context `ctx`. -/
structure TlbEntry where
  ctx : Nat
  va : Nat
  lg : Nat
  leaf : Word
  deriving DecidableEq, Repr

/-- A cached non-leaf entry (R77): the table that serves `va` below level `level`. -/
structure WalkEntry where
  ctx : Nat
  level : Nat
  va : Nat
  table : Nat
  deriving DecidableEq, Repr

/-- Who waits for a walk or a fault: a path, or a command of an engine. -/
inductive Waiter where
  | path (pid : Nat)
  | cmd (id : Nat)
  deriving DecidableEq, Repr

/-- A page walk in flight (R78). `stale` marks a walk whose range was invalidated while it ran (R79): it runs again. -/
structure Walk where
  die : Nat
  ctx : Nat
  va : Word
  core : Nat
  waiters : List Waiter
  stale : Bool
  deriving DecidableEq, Repr

/-- A miss that waits for a walker, in the queue of its cluster (R78). -/
structure WalkReq where
  ctx : Nat
  va : Word
  core : Nat
  who : Waiter
  deriving DecidableEq, Repr

/-- A range whose unmapping has begun and is not answered (R81): its CXL frames (address, size as a power of two), whose lines
are dropped at the end, and the imports whose last leaf it removed (R85). -/
structure Leaving where
  ctx : Nat
  lo : Nat
  hi : Nat
  cxl : List (Nat × Nat)
  imports : List Nat
  deriving DecidableEq, Repr

/-- A fault queued for the management kernel (R88, R89). `kind` is the CAUSE of R102, 1 to 6; `right` the missing access
class; `owner` the die that a federated entry names; `since` the cycle at which it was queued. -/
structure QFault where
  die : Nat
  ctx : Nat
  va : Word
  kind : Nat
  owner : Nat
  space : Nat
  waiters : List Waiter
  since : Nat
  deriving DecidableEq, Repr

/-- A line of a cluster cache (R129): 128 bytes as cached, and the ordering kind of its page (R283). -/
structure CacheLine where
  bytes : List Byte
  ord : Nat
  deriving DecidableEq, Repr

/-- A context's state (R69). -/
inductive CtxState where
  | free | live | draining
  deriving DecidableEq, Repr

/-- A save region (R357) and the runs taken from it (offset, length), lowest first. -/
structure SaveRegion where
  base : Word
  size : Nat
  used : List (Nat × Nat)
  deriving DecidableEq, Repr

/-- A context of one die (R69, R396, R357, R329, R372). `root` is the physical address of its L4 table. -/
structure Context where
  state : CtxState
  root : Nat
  tenant : Byte
  save : Option SaveRegion
  turnRight : Bool
  debugger : Bool
  deriving DecidableEq, Repr

/-- An export of a die (R82, R85). `imports` are the die and context of each recorded import. A dead index keeps its
generation; it is reusable once no import is recorded. -/
structure ExportRec where
  live : Bool
  ctx : Nat
  base : Word
  pages : Nat
  maxrt : BitVec 4
  gen : Nat
  imports : List (Nat × Nat)
  deriving DecidableEq, Repr

/-- An import as the importing kernel records it (R83, R299). `cut` are the parts of its window unmapped since (R85). -/
structure ImportRec where
  ctx : Nat
  odie : Nat
  exp : Nat
  gen : Nat
  window : Word
  pages : Nat
  rights : BitVec 4
  ord : Nat
  route : Nat
  cut : List (Nat × Nat)
  deriving DecidableEq, Repr

/-! ### Modules, translations -/

/-- A function of a resident module after loading (R36, R37): constants resolved against the data base. -/
structure Func where
  code : List Word
  consts : List Word
  types : List Byte
  result : Option Nat
  nparam : Nat
  fflags : BitVec 32
  deriving DecidableEq, Repr

/-- A module resident on a die (R39, R41). `copies` are the contexts that hold a copy of the data image. -/
structure Module where
  die : Nat
  image : List Byte
  mhash : Word
  base : Word
  dataLen : Nat
  funcs : List Func
  copies : List Nat
  deriving DecidableEq, Repr

/-- A module handle (R41, R42): context key and module. `leaving` is the header of an unload that waits (R42). -/
structure HandleRec where
  ctx : Nat
  module : Nat
  leaving : Option Hdr
  deriving DecidableEq, Repr

/-- A location entry of a waybill (R160). -/
structure LocEntry where
  vnum : Nat
  lcode : Nat
  loc : Nat
  deriving DecidableEq, Repr

/-- A point record of a waybill (R159): `kind` 0 is the boundary before the bundle, 1 to 3 the trap in slot kind - 1. -/
structure PointRec where
  bidx : Nat
  kind : Nat
  vpc : VPC
  locs : List LocEntry
  deriving DecidableEq, Repr

/-- A translation image (R158): its key, FRAMEW, bundles, literals, point records with their location entries, and CHECK. An image
that is not `bundled` is run word by word on the portable form; a bundled one bundle by bundle. `line` is the first of its lines in
the translation cache (R162). -/
structure TImage where
  key : TKey
  bundled : Bool
  bundles : List (BitVec 256)
  literals : List Word
  frameW : Nat
  points : List PointRec
  check : Word
  line : Nat
  deriving DecidableEq, Repr

/-- A miss that the cluster serves (R163): the key, the paths that joined it, and the cycles at which the translator or a
store copy took it and at which its image is ready. -/
structure MissRec where
  key : TKey
  waiters : List Nat
  accepted : Option Nat
  due : Nat
  deriving DecidableEq, Repr

/-! ### Paths and warps -/

/-- Where a path stands: at a word of a function, or at a bundle of a translation. -/
inductive Pc where
  | word (v : VPC)
  | bundle (key : TKey) (ix : Nat)
  deriving DecidableEq, Repr

/-- Where the paths of a split record meet (R155, R193): the first word of a block, the exit join of the function,
the word after a `callx` (R187), or a join bundle. -/
inductive JoinPt where
  | block (v : VPC)
  | exit
  | after (v : VPC)
  | bundle (key : TKey) (ix : Nat)
  deriving DecidableEq, Repr

/-- A split record (R155). -/
structure Split where
  warp : Nat
  parent : Option Nat
  depth : Nat
  join : JoinPt
  deriving DecidableEq, Repr

/-- A virtual call frame: its function, the virtual PC of the `call` that made it, whether the call defines a value,
and the trap block when the frame is a handler's. -/
structure Frame where
  fn : Nat
  callVpc : VPC
  wants : Option Nat
  trap : Option Nat
  deriving DecidableEq, Repr

/-- What a path waits for. It stands before its bundle, and the wait is made again when it is over (R57, R116, R356). -/
inductive WaitOn where
  | landed (acc : Nat)
  | entries (ids : List Nat)
  | dying (ids : List Nat)
  | heads (core : Nat) (pops : List (Nat × Nat × Nat))
  | bxTurn (core : Nat) (ids : List Nat)
  | chunks (core lo n : Nat)
  | unlocked (core lo n : Nat)
  | loadLock (core lo n : Nat)
  | counters (sel : BitVec 3) (n : Nat)
  | drained
  | barrier (words : List (Nat × Nat × BitVec 16))
  | walk (id : Nat)
  | walker (die : Nat)
  | faultRoom (die : Nat)
  | fault (id : Nat)
  | miss (key : TKey)
  | repair (ix due : Nat)
  | join
  | callTurn
  | callAfter (ids : List Nat)
  | partner
  | peer
  | saveRoom
  | sfBusy (core : Nat)
  | mxCmds (ids : List Nat)
  | plane (die : Nat)
  | halt
  deriving DecidableEq, Repr

/-- A path of a warp (R57, R149, R155, R342, R373). `slotIx` is its path-table index, `none` on the pending-path
stack; `seq` orders the stack and the table entries by age; `readyAt` is the cycle it last became ready or issued; `noFix` notes
that the kernel has not resolved the fault the path held at (R88), so that its access traps; `mxIds` are the tiles and the
earlier commands that an `mx.read` of the path waits for (R261); `resumed` is the virtual PC of the resume translation that it is
in (R140). -/
structure Path where
  mask : Mask
  pc : Pc
  resumed : Option VPC
  frames : List Frame
  split : Option Nat
  wait : Option WaitOn
  s124 : Word
  s125 : Word
  s126 : Word
  s127 : Word
  slotIx : Option Nat
  seq : Nat
  readyAt : Nat
  youngest : Bool
  halted : Bool
  held : Bool
  parked : Bool
  noFix : Bool
  mxIds : Option (List Nat × List Nat)
  focus : Bool
  atExit : Bool
  syncWait : Bool
  stepping : Bool
  skipBp : Option VPC
  dbgCause : BitVec 16
  dbgInfo : BitVec 16
  skid : Nat
  deriving DecidableEq, Repr

/-- The home of an access (R262): a byte of memory with the ordering kind of its leaf, or a byte of a scratchpad. -/
inductive Loc where
  | mem (addr : Nat) (ord : Nat)
  | scr (core pa : Nat)
  deriving DecidableEq, Repr

/-- What an access does at its home. -/
inductive AccOp where
  | load | store | amo (op : Nat) | cas | red (op : Nat)
  deriving DecidableEq, Repr

/-- One lane of an access: home, value, second value (`cas`), and the address for a replay. -/
structure LaneAcc where
  lane : Nat
  loc : Loc
  v : Word
  v2 : Word
  va : Word
  deriving DecidableEq, Repr

/-- Where a result goes. -/
inductive Dst where
  | none
  | val (depth vnum : Nat)
  | vreg (r : Nat) (wide : Bool)
  | sreg (r : Nat)
  | sbit (r b : Nat)
  deriving DecidableEq, Repr

/-- An access that has been sent and has not performed (R131). `cls` is 0 LDC, 1 STC, 2 RSC; `drop` marks an acquire of
scope `.die` or wider, which drops lines (R286); `sc` a `.sc` load (R287). `lanes` are those that have not performed, `got` the
results of those that have. A single lane's result goes to every lane of `spread` (R135). -/
structure Access where
  id : Nat
  pid : Nat
  cls : Nat
  op : AccOp
  ty : Ty
  lanes : List LaneAcc
  spread : Mask
  dst : Dst
  nc : Bool
  drop : Bool
  sc : Bool
  got : List (Nat × Word)
  depth : Nat
  vpc : VPC
  deriving DecidableEq, Repr

/-- A resident warp (R128, R131, R149, R333). `abandoned` are loads that a halt has taken from those in flight (R356); `divCalls`
the calls in force that were made from divergent regions, with their lanes and the depth of the caller, newest first (R149). -/
structure Warp where
  gang : Nat
  wg : Nat
  num : Nat
  cap : Nat
  window : Nat
  stackBase : Nat
  pathBase : Nat
  ldc : Nat
  stc : Nat
  rsc : Nat
  inflight : List Access
  abandoned : List Access
  divCalls : List (Mask × Nat)
  issued : Nat
  deriving DecidableEq, Repr

/-- A membership slot (R344): the word's `ptr.s` and the phase of the last arrival. -/
structure BarSlot where
  word : BitVec 32
  arr : Option (BitVec 16)
  deriving DecidableEq, Repr

/-- A thread's floating state, memberships and end (R203, R204, R344, R189). -/
structure Thread where
  flags : BitVec 6
  mode : BitVec 32
  seed : Word
  bars : List BarSlot
  exited : Bool
  deriving DecidableEq, Repr

/-- A trap record (R351), with each named lane's own address (R354). -/
structure TrapRec where
  kind : Nat
  space : Nat
  flags : BitVec 6
  code : Nat
  vpc : VPC
  lanes : Mask
  addr : Word
  addrs : List (Nat × Word)
  deriving DecidableEq, Repr

/-- How one lane left a handler (R355). -/
inductive LaneExit where
  | resume | skip (v : Word) | kill | gone
  deriving DecidableEq, Repr

/-- A trap block (R353, R355): the record, the lanes still in the handler, the lanes that left, what the path was. -/
structure TrapBlock where
  warp : Nat
  record : TrapRec
  pc : Pc
  frames : List Frame
  split : Option Nat
  s124 : Word
  s125 : Word
  s126 : Word
  s127 : Word
  mask : Mask
  left : List (Nat × LaneExit)
  ctx : Nat
  off : Nat
  len : Nat
  deriving DecidableEq, Repr

/-! ### Gangs, launches, workgroups -/

/-- A gang's state: resident, halted, waiting for its capture, captured, aborting, failing, retired. -/
inductive GangState where
  | resident | halted (why : HaltWhy) | captured | aborting | failing | retired
  deriving DecidableEq, Repr

/-- A gang (R17, R332). `seq` orders placements (R336); `target` is the die that a move takes it to, with the faulting
address (R362). -/
structure Gang where
  launch : Nat
  die : Nat
  ctx : Nat
  x : Nat
  y : Nat
  z : Nat
  cluster : Nat
  core0 : Nat
  key : TKey
  module : Nat
  state : GangState
  seq : Nat
  movedAt : Option Nat
  target : Option (Nat × Word)
  issued : Nat
  progressAt : Nat
  hung : Bool
  cause : Nat
  failAddr : Word
  deriving DecidableEq, Repr

/-- A workgroup resident on a core (R119, R92): allocation, backing area of an MX owner on an N-die (R242), and shape
registers. -/
structure Wg where
  core : Nat
  base : Nat
  size : Nat
  backing : Option Nat
  warps : List Nat
  shapes : List (Option (BitVec 1024))
  usesMx : Bool
  usesSf : Bool
  deriving DecidableEq, Repr

/-- A launch (R328, R330). `next` is the number of gangs dispatched or dropped; `live` the gangs not yet retired. -/
structure Launch where
  die : Nat
  ctx : Nat
  queue : Nat
  record : BitVec 1024
  module : Nat
  handle : Nat
  next : Nat
  live : Nat
  bad : Bool
  retired : Bool
  deriving DecidableEq, Repr

/-- A hardware queue (R330). -/
structure HwQueue where
  prio : Nat
  launches : List Nat
  deriving DecidableEq, Repr

/-- A completion event (R331). -/
inductive EvState where
  | reset | signalled | failed
  deriving DecidableEq, Repr

/-! ### Engines -/

/-- A token entry (R101, R102, R317). `wrote` are the 64 KiB frames of global memory that its command and the earlier commands of
its core wrote (R290). An entry of a portable token value names the value by `group`, the queue it is in by the producing and the
consuming engine, the thread and the frame depth of the value; `carried` marks one that a `tq.push` carries on (R421). -/
structure Entry where
  group : Nat
  prod : Nat
  cons : Nat
  thread : Nat
  depth : Nat
  carried : Bool
  filled : Bool
  status : BitVec 32
  key : Word
  die : Nat
  round : BitVec 16
  ident : Nat
  won : Bool
  wrote : List Nat
  deriving DecidableEq, Repr

/-- A queue with its overflow ring (R105). -/
structure OvQueue where
  hw : List Nat
  ring : List Nat
  deriving DecidableEq, Repr

/-- One input token of a command: the head of tq.x of the consuming engine, or a named entry. -/
inductive Pop where
  | queue (x : Nat)
  | entry (id : Nat)
  deriving DecidableEq, Repr

/-- Members of the copy family (R107). -/
inductive CopyKind where
  | copy | conv | fill | gather | scatter | red
  deriving DecidableEq, Repr

/-- A side of a block transfer: a virtual address of the context, in the peer window or the global half as its pointer type says
(R70), or a scratch address of the gang. -/
inductive Side where
  | none
  | virt (peer : Bool) (a : Word)
  | scr (a : BitVec 32)
  deriving DecidableEq, Repr

/-- What a command does. -/
inductive CmdBody where
  | copy (kind : CopyKind) (shape : BitVec 1024) (near far : Side) (farIsSource : Bool) (coords : List Int)
      (value : Word) (list : BitVec 32)
  | turn (hop : Nat) (end_ : Nat) (dir : Dir) (mask : BitVec 16)
  | mxZero (n : Nat)
  | mxLd (n : Nat) (f64 raw : Bool) (src : BitVec 32)
  | mxSteps (n : Nat) (raw bs : Bool) (a b sc : BitVec 32) (cnt : Nat) (da db dsc : BitVec 32)
  | mxStore (n : Nat) (f64 : Bool) (dst : BitVec 32)
  | mxMode (w seed : Word)
  | shape (k : Nat)
  | tokAll
  | tokPush
  deriving DecidableEq, Repr

/-- A page that a command holds in flight (R80): the number of its first 64 KiB, its size as a power of two, and the leaf it was
walked to. -/
structure BxPage where
  page : Nat
  lg : Nat
  leaf : Word
  deriving DecidableEq, Repr

/-- A command of an engine (R90, R103, R104, R247). `engine` has the codes of R100. `mode`, `seed` are the MX mode and seed in
force at its queue position (R251). `after` is the number that the accesses its thread sent before it lie below (R106); `since` is
the cycle from which a step waits for budget (R255); `dead` are pages whose fault the kernel failed; `doneChunks` and `badChunks`
count 512-byte units of the box; `faults` are pages whose walk faulted (address, kind, owner) and wait to be queued (R104). -/
structure Cmd where
  engine : Nat
  core : Nat
  pid : Nat
  lane : Nat
  gang : Nat
  wg : Nat
  body : CmdBody
  pops : List Pop
  fills : List Nat
  started : Bool
  parked : Option Nat
  dead : List Nat
  faults : List (Word × Nat × Nat)
  pages : List BxPage
  doneChunks : List Nat
  badChunks : List Nat
  cause : Nat
  steps : Nat
  stepFail : Bool
  mode : Word
  seed : Word
  turnDone : Option Bool
  after : Nat
  since : Option Nat
  wrote : List Nat
  deriving DecidableEq, Repr

/-- The state of a scratch chunk (R99). -/
inductive ChunkState where
  | empty | full | failed
  deriving DecidableEq, Repr

/-- A tile lock (R99, R125, R260): the chunks `lo` to `lo + n - 1` of a core, held by a command. -/
structure Lock where
  core : Nat
  lo : Nat
  n : Nat
  cmd : Nat
  deriving DecidableEq, Repr

/-- The MX state of a core beside its accumulator elements (R240, R242, R254). `swapped p` is true when physical tile p
of an N-die core holds acc p + 4; `busy` is the cycle at which the running step ends. -/
structure MxState where
  flagw : List (BitVec 32)
  mode : Word
  seed : Word
  prev : List Byte
  swapped : List Bool
  busy : Nat
  deriving DecidableEq, Repr

/-- The table state of a core's SF beside its bank bytes (R233). `loads` are the paths in an `sf.load`, in issue order. -/
structure SfState where
  valid0 : Bool
  valid1 : Bool
  cur : Bool
  ver : BitVec 16
  loads : List Nat
  deriving DecidableEq, Repr

/-- A swap in the X unit (R278): `vals` are lane values, `pid` the held path, `got` the partner's values once paired. -/
structure Swap where
  die : Nat
  ctx : Nat
  ident : Nat
  num : Nat
  cluster : Nat
  pid : Nat
  vals : List (Nat × Word)
  got : Option (List (Nat × Word))
  deriving DecidableEq, Repr

/-! ### Contention plane -/

/-- A die's table entry for an identifier (R308). LAST is key, die and round. -/
structure PlaneEnt where
  holder : Option Nat
  gate : BitVec 16
  round : BitVec 16
  lastKey : Word
  lastDie : Nat
  lastRound : BitVec 16
  deriving DecidableEq, Repr

/-- A pending bid (R308, R312). The bids of one `cp.bid` share `group` and arrive together; until then a `.rel` bid waits
for its thread's accesses numbered below `after`, and its input tokens are not popped. -/
structure Bid where
  id : Nat
  group : Nat
  die : Nat
  ident : Nat
  key : Word
  gidx : Nat
  warp : Nat
  lane : Nat
  gang : Nat
  core : Nat
  rel : Bool
  after : Nat
  pops : List Pop
  fills : List Nat
  arrived : Bool
  frozen : Bool
  deriving DecidableEq, Repr

/-- A bid of a command processor (die 8) or of a management kernel on a system identifier (R16, R315, R320): `who` is the number
that settles ties. -/
structure SysBid where
  id : Nat
  die : Nat
  ident : Nat
  key : Word
  who : Nat
  frozen : Bool
  deriving DecidableEq, Repr

/-- A round resolved and not yet delivered on a die (R316, R317): `winner` is the number of the bid that won, on its die. -/
structure Delivery where
  die : Nat
  ident : Nat
  key : Word
  wdie : Nat
  round : BitVec 16
  winner : Option Nat
  deriving DecidableEq, Repr

/-! ### Convoy ring -/

/-- A strand: its direction and whether it carries traffic (R295, R302). -/
inductive StrandState where
  | working | draining | retired
  deriving DecidableEq, Repr

/-- A hop (R295, R303, R306). `lastEnd` is the end that completed the most recent turn; `t0`, `t1` the cycle of each
end's last completed turn; `turning` the command, end and strands of the running turn, `turnAt` the cycle it was selected,
or the cycle at which a retraining began; `retrain` the requests that a retraining answers. -/
structure Hop where
  dirs : List Dir
  st : List StrandState
  q0 : List (Nat × Nat)
  q1 : List (Nat × Nat)
  lastEnd : Option Nat
  t0 : Option Nat
  t1 : Option Nat
  turning : Option (Nat × Nat × List Nat)
  turnAt : Nat
  down : Bool
  retrain : Option (List Hdr)
  rr : Nat
  rrc : Nat
  deriving DecidableEq, Repr

/-- What a ring packet carries (R296): KIND and the operands the owner needs. -/
inductive PktBody where
  | read (size : Nat)
  | write (cells : List (Nat × Byte))
  | amo (op : Nat) (t : Ty) (v : Word)
  | cas (t : Ty) (exp new : Word)
  | red (op : Nat) (t : Ty) (v : Word)
  | data (bytes : List Byte)
  | ack
  | refuse
  deriving DecidableEq, Repr

/-- A packet of the ring (R296, R297). `kind` is KIND bits 7:4; `esc` and `vc1` the CHAN bits; `flits` 1 to 5; `gtd` the
flit slots it holds of its channel's guaranteed part (R298); `route` is ROUTE; `errs` the bytes of its header that were in error on
the last hop (R370). -/
structure Pkt where
  kind : Nat
  dst : Nat
  src : Nat
  hops : Nat
  dir : Dir
  vc1 : Bool
  esc : Bool
  flits : Nat
  trk : Nat
  ctx : Nat
  tenant : Byte
  exp : Nat
  gen : Nat
  off : Nat
  ord : Nat
  route : Nat
  body : PktBody
  gtd : Nat
  errs : Nat
  deriving DecidableEq, Repr

/-- The buffers at the far end of a direction of a hop, and the sender's allowances (R297, R298). Allowances count free
flit slots of VC0's and VC1's guaranteed part, of the shared part, and free escape packets; `ret` are those not yet returned. -/
structure HopBuf where
  pool : List Pkt
  escape : List Pkt
  a0 : Nat
  a1 : Nat
  ash : Nat
  aesc : Nat
  r0 : Nat
  r1 : Nat
  rsh : Nat
  resc : Nat
  deriving DecidableEq, Repr

/-- A tracker of the sending die (R296, R370): who waits for the reply, what it completes, and the context and address of the
access, which an invalidation waits for (R79). -/
structure Tracker where
  die : Nat
  who : Waiter
  lane : Nat
  sent : Nat
  ctx : Nat
  va : Word
  reply : Option PktBody
  deriving DecidableEq, Repr

/-- A write packet in one of the 64 places of a network interface (R411). -/
structure NiPlace where
  pkt : Pkt
  ok : Bool
  deriving DecidableEq, Repr

/-- A packet of the die network (R271, R272, R275): the lanes of accesses that it carries (warp, access, lane), the address of
its word, what it does there and, for a `red`, its value; whether it may merge; `entering` until it has been tried against the
packet ahead of it; its flow, the routers still to cross, and its virtual channel. -/
structure NetPkt where
  accs : List (Nat × Nat × Nat)
  addr : Nat
  op : AccOp
  ty : Ty
  v : Word
  merge : Bool
  entering : Bool
  flow : Nat
  route : Option (List Nat)
  vc : Nat
  deriving DecidableEq, Repr

/-- The route of a flow (R275): packets in flight, whether the route is chosen, and the intermediate quadrant of a non-minimal
route. -/
structure Flow where
  busy : Nat
  fixed : Bool
  via : Option Nat
  deriving DecidableEq, Repr

/-! ### Debugging, telemetry, host -/

/-- A breakpoint that the debug launches of a context hold (R375). -/
structure Breakpoint where
  vpc : VPC
  scope : Nat
  deriving DecidableEq, Repr

/-- A step request in progress (R376): its path, whether it is `step.sync`, the first number that an entry reserved by the
stepped instruction can have, and, once the instruction has issued, the entries whose filling it waits for. -/
structure StepReq where
  h : Hdr
  pid : Nat
  sync : Bool
  from_ : Nat
  toks : Option (List Nat)
  deriving DecidableEq, Repr

/-- A watchpoint of a cluster (R378, R416). -/
structure Watchpoint where
  ctx : Nat
  addr : Word
  kinds : Byte
  scope : Nat
  deriving DecidableEq, Repr

/-- A hit of a watchpoint (R379, R417). `engine` is 0 for a thread, else the code of R100. -/
structure WatchRec where
  cluster : Nat
  widx : Nat
  kind : Byte
  die : Nat
  acore : Nat
  warp : Nat
  lane : Nat
  vpc : VPC
  addr : Word
  before : Word
  after : Word
  hits : Nat
  sent : Bool
  deriving DecidableEq, Repr

/-- A stop that has been made and not been reported: its context, paths and hits (R280, R373). -/
structure StopReq where
  ctx : Nat
  pids : List Nat
  hits : List WatchRec
  deriving DecidableEq, Repr

/-- A ring in the memory of a die that records are written to (R384, R393). -/
structure RecRing where
  ctx : Nat
  base : Word
  size : Nat
  wr : Nat
  rd : Nat
  deriving DecidableEq, Repr

/-- What leaves towards the host: a reply (R391: STATUS, refusal code, offset, data), an event record, or a stop report
of a context (R373, R417). -/
inductive HostMsg where
  | reply (h : Hdr) (status code offset : Nat) (data : List Byte)
  | event (die : Nat) (rec : BitVec 256)
  | stop (ctx : Nat) (paths : List (BitVec 256)) (hits : List (BitVec 384))
  deriving DecidableEq, Repr

/-- A counting record of the F-die (R368). -/
structure FoldRec where
  kind : Byte
  cause : BitVec 16
  dieByte : Byte
  first : BitVec 32
  last : BitVec 32
  count : Nat
  deriving DecidableEq, Repr

/-- A firmware image as a die holds it (R397, R398). -/
structure FwState where
  running : List Byte
  provisioned : Option (List Byte)
  fused : Nat
  recovery : Bool
  deriving DecidableEq, Repr

/-- A die (R5, R18 to R20, R255, R366, R399). Every field but those of the ring, which lies outside the reset domain. -/
structure Die where
  inReset : Bool
  bornAt : Nat
  dieReady : Bool
  clrdy : BitVec 4
  mchGroups : BitVec 8
  spineReady : Bool
  pReady : Bool
  det : Bool
  stallK : Nat
  traceOn : Bool
  tables : List Nat
  kernelTop : Nat
  store : List TImage
  evRing : Option RecRing
  mfRing : Option RecRing
  held : List (BitVec 256)
  folds : List FoldRec
  noDispatch : Bool
  rrPrio : List (Nat × Nat)
  /-- Heads that wait unplaced: priority, queue, launch (R332). -/
  heads : List (Nat × Nat × Nat)
  lastCluster : Option Nat
  sensors : Reading
  railLimit : List Nat
  throttle : BitVec 5
  fw : FwState
  mfDrop : Nat
  deriving DecidableEq, Repr

/-- A cluster (R162, R163, R255, R332, R340). -/
structure Cluster where
  cache : List TImage
  misses : List MissRec
  pool : Nat
  placedAt : Option Nat
  failedKeys : List TKey
  deriving DecidableEq, Repr

/-- The registers of a warp as they stood when a bundle issued (R57). -/
structure Latch where
  vregs : SMap Lane32
  sregs : SMap Word
  s124 : Word
  s125 : Word
  s126 : Word
  s127 : Word
  deriving DecidableEq, Repr

/-- The path chosen to issue (R340), and what is latched while the slots of its bundle act (R57, R58): the registers as
they stood, a hold, the trap to report with its virtual order, the transfer of control, the split to make (taken lanes,
their bundle, the join), and what ended the path. -/
structure Issue where
  pid : Nat
  latch : Option Latch
  hold : Option WaitOn
  trap : Option TrapRec
  target : Option Pc
  fork : Option (Mask × Pc × JoinPt)
  ended : Bool
  deriving DecidableEq, Repr

/-- A captured thread (R360). `toks` are the token entries that its remaining uses take, in queue order (R361). -/
structure CapThread where
  wg : Nat
  tid : Nat
  thread : Thread
  vals : List (Nat × Nat × Word)
  toks : List Nat
  stack : List Byte
  deriving DecidableEq, Repr

/-- A captured path: its position, lanes as thread indices within its workgroup, frames, the contents of its split records
from the innermost, and state; `num` is its warp's number. Threads with equal fields but `tids` and `num` form one path
(R361). -/
structure CapPath where
  wg : Nat
  tids : List Nat
  pc : VPC
  frames : List Frame
  chain : List (JoinPt × Nat)
  waiting : Bool
  atExit : Bool
  syncWait : Bool
  held : Bool
  dbgCause : BitVec 16
  dbgInfo : BitVec 16
  num : Nat
  deriving DecidableEq, Repr

/-- A captured trap block: its number, workgroup and warp number in it, and the contents of its split records. -/
structure CapBlock where
  id : Nat
  wg : Nat
  num : Nat
  block : TrapBlock
  chain : List (JoinPt × Nat)
  deriving DecidableEq, Repr

/-- A load in flight at the halt, replayed at restore (R356). `drop` marks an acquire of scope `.die` or wider (R286). -/
structure Replay where
  wg : Nat
  tid : Nat
  depth : Nat
  vnum : Nat
  va : Word
  ty : Ty
  drop : Bool
  deriving DecidableEq, Repr

/-- A captured workgroup (R359): scratch bytes by offset, chunk states, tags, shapes, MX and table state. -/
structure CapWg where
  wg : Nat
  size : Nat
  bytes : SMap Byte
  chunks : List ChunkState
  tags : List Byte
  shapes : List (Option (BitVec 1024))
  mx : Option MxState
  acc : SMap Lane32
  sf : Option SfState
  bank : SMap Byte
  deriving DecidableEq, Repr

/-- A captured gang (R357 to R360): what its record holds, as structured data, and the place of the record in the save region of
the context it was captured in. A withdrawn bid comes with the workgroup and thread index that sent it. `moved` is the faulting
address of a migration. -/
structure CapRec where
  srcDie : Nat
  ctx : Nat
  off : Nat
  len : Nat
  wgs : List CapWg
  threads : List CapThread
  paths : List CapPath
  blocks : List CapBlock
  replays : List Replay
  bids : List (Nat × Nat × Bid)
  moved : Option Word
  deriving DecidableEq, Repr

/-- What drives the model: the order of steps, and the clock. -/
structure Control where
  /-- Events due, in order: host requests and the package's own events. -/
  agenda : List Instr
  /-- The path that issues next (R340). -/
  issue : Option Issue
  /-- Cores not yet visited in this cycle. -/
  rot : List Nat
  /-- Paths that have been chosen in this cycle and were not ready (R339). -/
  tried : List Nat
  /-- Counter that gives each free value a place of its own. -/
  fresh : Nat
  /-- Next number for entries, commands, gangs, splits, walks, faults, accesses, trap blocks, launches, modules. -/
  nextId : Nat
  /-- Cycles of the arithmetic clock since package reset (R2). -/
  cycle : Nat
  /-- Cycle of the last frame boundary (R307). -/
  frameAt : Nat
  /-- Manifest period exponent (R383). -/
  mfK : Nat
  /-- Package power limit in watts (R399). -/
  pkgLimit : Nat
  /-- Package throttle of R399 in force. -/
  pkgThrottle : Bool
  deriving DecidableEq, Repr

/-- Memory, translation, the caches that a program can observe, and the die network. -/
structure MemSys where
  /-- LPDDR6 and CXL bytes; key die·2^44 + PA, and 2^50 + CXL PA. -/
  mem : SMap Byte
  /-- Owner die of each assigned 512 MiB CXL unit (R68). -/
  cxlOwner : SMap Nat
  /-- Attached expander size in 512 MiB units, by port (R67). -/
  cxlUnits : SMap Nat
  /-- L0 TLBs by core (R77). -/
  tlb0 : SMap (List TlbEntry)
  /-- L1 TLBs by cluster (R77). -/
  tlb1 : SMap (List TlbEntry)
  /-- Walk caches by die (R77). -/
  wcache : SMap (List WalkEntry)
  /-- Walks in flight (R78). -/
  walks : SMap Walk
  /-- Misses that wait for a walker, oldest first, by cluster (R78). -/
  walkq : SMap (List WalkReq)
  /-- The cluster of each die that was served a walker last (R78). -/
  walkRr : SMap Nat
  /-- Ranges being unmapped (R81). -/
  leaving : List Leaving
  /-- 32-byte bursts of LPDDR6 that the last scrub left uncorrectable, by their key (R64, R65). -/
  badBursts : List Nat
  /-- The fault queues of the dies (R89). -/
  faults : SMap QFault
  /-- Cluster cache lines; key cluster·2^52 + line number (R129). -/
  lines : SMap CacheLine
  /-- In-flight page counts; key (context·64 + size as a power of two)·2^48 + number of the first 64 KiB (R80). -/
  pageUse : SMap Nat
  /-- Router queues of the die networks; key die·144 + router·3 + virtual channel (R272, R274, R275). -/
  routers : SMap (List NetPkt)
  /-- Packets that have reached the router of their home, in order of arrival (R273). -/
  arrived : List NetPkt
  /-- Flows; key ((die·48 + source router)·48 + destination router)·2, plus 1 for the packets that must take the minimal route
  (R275, R276). -/
  flows : SMap Flow
  deriving DecidableEq, Repr

/-- Gangs, warps, paths and threads, with their values and registers. -/
structure Exec where
  gangs : SMap Gang
  /-- Key gang·128 + workgroup. -/
  wgs : SMap Wg
  warps : SMap Warp
  /-- Warps whose slot is free again, by their old number; their windows and areas stay reserved until the gang retires (R189). -/
  gone : List (Nat × Warp)
  paths : SMap Path
  splits : SMap Split
  threads : SMap Thread
  /-- Virtual values; key (thread·2^16 + depth)·2^20 + value number (R21, R25). -/
  vals : SMap Word
  /-- Vector registers; key (warp·1536 + register)·64 + lane (R7, R52). -/
  vregs : SMap Lane32
  /-- Scalar registers s0 to s123; key warp·128 + register (R7, R149). -/
  sregs : SMap Word
  /-- Trap blocks in use (R353). -/
  blocks : SMap TrapBlock
  deriving DecidableEq, Repr

/-- Scratchpads and engines. -/
structure Engines where
  /-- Scratchpad bytes; key core·2^18 + physical address (R7, R122). -/
  scr : SMap Byte
  /-- Chunk states; key core·512 + chunk (R99). -/
  chunks : SMap ChunkState
  /-- Format tags; key core·32 + slot (R126). -/
  tags : SMap Byte
  locks : List Lock
  /-- Words of 8 bytes of scratch that hold an uncorrectable error; number core·2^15 + physical address / 8 (R250, R365). -/
  lostScr : List Nat
  /-- 64 KiB frames of global memory that the completed commands of a core wrote, by core (R290). -/
  coreWrote : SMap (List Nat)
  /-- Token entries by number (R100). -/
  entries : SMap Entry
  /-- Pair queues; key core·36 + x·6 + y with the engine codes of R100. -/
  pairs : SMap OvQueue
  /-- BX queues by core (R90). -/
  bxq : SMap OvQueue
  /-- MX queues by core (R240). -/
  mxq : SMap OvQueue
  cmds : SMap Cmd
  /-- MX state by core (R240). -/
  mx : SMap MxState
  /-- Accumulator elements as 32-bit words; key (core·8 + tile)·4096 + element (R241). -/
  acc : SMap Lane32
  /-- Pairs of accumulator words that hold an uncorrectable error; half the key of acc (R250, R365). -/
  lostAcc : List Nat
  /-- SF state by core (R233). -/
  sf : SMap SfState
  /-- Table bank bytes; key core·8320 + bank·4160 + offset (R233). -/
  bank : SMap Byte
  /-- Swaps waiting in the X units (R278). -/
  swaps : List Swap
  deriving DecidableEq, Repr

/-- The contention plane. -/
structure PlaneState where
  /-- The selection and hold of the running frame are still to come (R307). -/
  selecting : Bool
  /-- The priority read on each line in the selection phase of the running frame (R311). -/
  prios : List Nat
  /-- The F-die's 64-bit frame count (R309, R310). -/
  fc : BitVec 64
  /-- Each die's 64-bit frame count (R310). -/
  dieFc : SMap Word
  /-- Plane tables; key die·256 + identifier (R308). -/
  table : SMap PlaneEnt
  /-- Line pointers; key die·8 + line (R308). -/
  ptrs : SMap Nat
  /-- Pending bids (R308). -/
  bids : List Bid
  /-- Pending bids on system identifiers (R16, R320). -/
  sysBids : List SysBid
  /-- Resolved rounds not yet delivered (R317). -/
  deliveries : List Delivery
  /-- Frees of identifiers waiting for the next frame boundary (R320). -/
  revoking : List (Hdr × Nat)
  deriving DecidableEq, Repr

/-- The convoy ring and the network interfaces. -/
structure RingState where
  /-- Hops 0 to 7 (R295). -/
  hops : SMap Hop
  /-- Buffers; key hop·2 + direction (0 clockwise) (R297). -/
  bufs : SMap HopBuf
  /-- Injection queues; key (die·2 + direction)·4 + cluster (R412). -/
  inject : SMap (List Pkt)
  /-- Trackers by number (R296, R370). -/
  trackers : SMap Tracker
  /-- Incoming write packets being performed, by die (R411). -/
  places : SMap (List NiPlace)
  deriving DecidableEq, Repr

/-- Dies, clusters, and what their management kernels keep for the host. -/
structure HostSide where
  /-- Messages sent to the host die, oldest first (R391). -/
  out : List HostMsg
  dies : SMap Die
  clusters : SMap Cluster
  /-- Key die·64 + context (R69). -/
  ctxs : SMap Context
  /-- Key die·16384 + index (R82). -/
  exports : SMap ExportRec
  imports : SMap ImportRec
  modules : SMap Module
  handles : SMap HandleRec
  launches : SMap Launch
  /-- Key die·64 + queue (R330). -/
  queues : SMap HwQueue
  /-- Key die·4096 + index (R331). -/
  events : SMap EvState
  /-- Captured gangs, by gang (R357). -/
  captures : SMap CapRec
  /-- Captured gangs waiting to be placed, by die, in order (R336, R363). -/
  waiting : SMap (List Nat)
  /-- Unmaps that wait for in-flight counts, unloads that wait for launches, retrainings that wait (R81, R42, R306). -/
  deferred : List Instr
  /-- Other modules reached over UCIe (R400): key remote·2^32 + handle number, the bytes exported there. -/
  remote : SMap (SMap Byte)
  deriving DecidableEq, Repr

/-- Debugging and the manifest. -/
structure DebugState where
  /-- Running core counters; key core·64 + i (R386). -/
  cnt : SMap Nat
  /-- Running cluster counters; key cluster·64 + i, i from 32 (R385). -/
  ccnt : SMap Nat
  /-- Running die counters; key die·16 + i (R385). -/
  dcnt : SMap Nat
  /-- Counter values at the last latch; keys as cnt, ccnt + 2^32, dcnt + 2^33 (R383). -/
  latched : SMap Nat
  /-- Breakpoints; key context·64 + index (R375). -/
  bps : SMap Breakpoint
  /-- Watchpoints; key cluster·8 + index (R378). -/
  watches : SMap Watchpoint
  /-- Hits of the present stops (R417). -/
  hits : List WatchRec
  /-- Cores whose engines a debugger has frozen (R374). -/
  frozen : List Nat
  /-- Step requests that have not been answered (R376). -/
  steps : List StepReq
  /-- Stops whose report waits for what their paths have begun (R280, R373). -/
  stops : List StopReq
  deriving DecidableEq, Repr

/-- THE STATE. -/
structure State where
  c : Control
  m : MemSys
  x : Exec
  e : Engines
  pl : PlaneState
  r : RingState
  h : HostSide
  d : DebugState
  deriving DecidableEq, Repr

/-- Why the machine stops with a fault. Each is safe: the model stops where no step is described. -/
inductive Fault where
  /-- Raised by an operation executed while no path has been selected to issue. Safe: ISSUE_SELECT precedes every issue. -/
  | noIssuingPath
  /-- Raised by an event that names an agent that does not exist or cannot act. Safe: such an event cannot happen. -/
  | noSuchAgent
  /-- Raised by Step when the word that a path stands at is no instruction. Safe: validation lets no such word be issued
  (R40), so no run of a validated module meets it. -/
  | notAnInstruction
  deriving DecidableEq, Repr

/-- Why the machine gives an instruction no meaning. -/
inductive Refusal where
  /-- Raised by Dispatch for an instruction without a meaning in this model. Safe: nothing is claimed of it. -/
  | notModelled (mnemonic : String)
  deriving DecidableEq, Repr

/-- The package right after package reset (R19, R20, R69, R307, R383): cycle 0, frame count 0, nothing listed. A map that lists
no entry for an agent holds that agent's record at rest (Ops.lean: dieZero, clusterZero, hopZero, ...); no unit has
reported ready yet (R394). -/
def State.reset : State :=
  { c := { agenda := [], issue := none, rot := [], tried := [], fresh := 0, nextId := 0, cycle := 0, frameAt := 0, mfK := 16,
           pkgLimit := 4500, pkgThrottle := false }
    m := { mem := [], cxlOwner := [], cxlUnits := [], tlb0 := [], tlb1 := [], wcache := [], walks := [], walkq := [],
           walkRr := [], leaving := [], badBursts := [], faults := [], lines := [], pageUse := [], routers := [], arrived := [],
           flows := [] }
    x := { gangs := [], wgs := [], warps := [], gone := [], paths := [], splits := [], threads := [], vals := [], vregs := [],
           sregs := [], blocks := [] }
    e := { scr := [], chunks := [], tags := [], locks := [], lostScr := [], coreWrote := [], entries := [], pairs := [], bxq := [], mxq := [],
           cmds := [], mx := [], acc := [], lostAcc := [], sf := [], bank := [], swaps := [] }
    pl := { selecting := false, prios := [], fc := 0, dieFc := [], table := [], ptrs := [], bids := [], sysBids := [],
            deliveries := [], revoking := [] }
    r := { hops := [], bufs := [], inject := [], trackers := [], places := [] }
    h := { out := [], dies := [], clusters := [], ctxs := [], exports := [], imports := [], modules := [],
           handles := [], launches := [], queues := [], events := [], captures := [], waiting := [], deferred := [],
           remote := [] }
    d := { cnt := [], ccnt := [], dcnt := [], latched := [], bps := [], watches := [], hits := [], frozen := [],
           steps := [], stops := [] } }

end Sys2Proof.Machine
end

