-- ==== Sys2Proof/Machine/Code.lean ====
section
/-!
DEFINITION. Reading a function's words: opcodes, value numbers, extension words, blocks and their post-dominators
(R21 to R26, R31 to R34, R193).
-/
namespace Sys2Proof.Machine

def funcZero : Func := { code := [], consts := [], types := [], result := none, nparam := 0, fflags := 0 }

/-! ### Functions and their words -/

def opcOf (w : Word) : Nat := (w.extractLsb' 55 9).toNat
def mdOf (w : Word) : Nat := (w.extractLsb' 48 3).toNat
def tyOf (w : Word) : Nat := (w.extractLsb' 51 4).toNat
def isExt (w : Word) : Bool := opcOf w == 0x1FE

def funcAt (m : Module) (fn : Nat) : Func := nth m.funcs funcZero fn

/-- Whether a word defines a value (R21; each opcode's description). -/
def definesValue (m : Module) (w : Word) : Bool :=
  let o := opcOf w
  if o = 0x006 then (funcAt m (w.extractLsb' 32 12).toNat).result.isSome
  else if o = 0x007 then mdOf w == 1
  else !([0x001, 0x003, 0x004, 0x005, 0x008, 0x009, 0x00A, 0x00B, 0x010, 0x074, 0x075, 0x0B1, 0x0B2, 0x0B5, 0x0B6,
    0x0CD, 0x0E8, 0x0E9, 0x0ED, 0x0F2, 0x108, 0x109, 0x1FE].contains o)

/-- The word indices that define values, in value-number order (R25). -/
def defWords (m : Module) (code : List Word) : List Nat :=
  ((List.range code.length).zip code).filterMap (fun p => if definesValue m p.2 then some p.1 else none)

/-- n: the number of values defined before word `ix` (R25). -/
def defsBefore (m : Module) (code : List Word) (ix : Nat) : Nat := ((code.take ix).filter (definesValue m)).length

/-- The extension words that follow word `ix` (R31). -/
def extWords (code : List Word) (ix : Nat) : List Word := (code.drop (ix + 1)).takeWhile isExt

/-- The index of the instruction word after `ix`. -/
def nextIx (code : List Word) (ix : Nat) : Nat := ix + 1 + (extWords code ix).length

/-- The word index of each block's `blk` word (R33). -/
def blockWords (code : List Word) : List Nat :=
  ((List.range code.length).zip code).filterMap (fun p => if opcOf p.2 = 0x001 then some p.1 else none)

/-- Arguments of the block at word `ix`. -/
def blockArgs (code : List Word) (ix : Nat) : Nat := ((nth code 0 ix).extractLsb' 32 12).toNat

/-- The first instruction of a block: after its `param` words (R34). -/
def blockEntry (code : List Word) (ix : Nat) : Nat := ix + 1 + blockArgs code ix

/-- An immediate field of a portable word, as a number. -/
def immOf (o : Operand) : Int := match o with | .imm v => v.toInt | _ => 0
def immNat (o : Operand) : Nat := (immOf o).toNat

/-! ### Blocks and post-dominators (R193) -/

/-- The instruction at a word, with its extension words. -/
def instrAt (code : List Word) (ix : Nat) : Except Reject Instr :=
  decodePlimet ((code.drop ix).take 1 ++ extWords code ix)

/-- The form of the portable word at an index. -/
def wordForm (code : List Word) (ix : Nat) : Option PForm :=
  match plimetForm (nth code 0 ix) (extWords code ix) with
  | .ok f => some f
  | .error _ => none

/-- The word index of the terminator of the block whose words run from `lo` to `hi - 1`. -/
def terminator (code : List Word) (lo hi : Nat) : Nat :=
  (((List.range (hi - lo)).map (fun i => lo + i)).filter (fun i => !isExt (nth code 0 i))).getLastD lo

def indexOf (o : Operand) : Nat := match o with | .index i => i.toNat | _ => 0

/-- The blocks that a terminator names; `none` stands for the function's exit. `unreach` leads nowhere, so it moves no join
(DEDUCED from the worked join of R193 in spec/23; log 48). -/
def successors (code : List Word) (ix : Nat) : List (Option Nat) :=
  match wordForm code ix with
  | none => [none]
  | some f =>
    match opcOf (nth code 0 ix) with
    | 0x003 => [some (indexOf f.a)]
    | 0x004 => [some (indexOf f.b), some (indexOf f.c)]
    | 0x005 => some (indexOf f.b) :: (f.ext.take (immNat f.c)).map (fun o => some (indexOf o))
    | 0x00B => []
    | _ => [none]

/-- The successors of every block, in block order. -/
def blockSuccs (code : List Word) : List (List (Option Nat)) :=
  let bs := blockWords code
  (List.range bs.length).map (fun b => successors code (terminator code (nth bs 0 b) (nth bs code.length (b + 1))))

/-- One round of the post-dominator equations over bit sets; bit n of a set of n blocks is the exit. -/
def pdomRound (n : Nat) (succs : List (List (Option Nat))) (d : List Nat) : List Nat :=
  (List.range n).map (fun b =>
    (((nth succs [] b).map (fun t => match t with | some j => nth d 0 j | none => 2 ^ n)).foldl
      (fun a x => a &&& x) (2 ^ (n + 1) - 1)) ||| 2 ^ b)

def pdomIter (n : Nat) (succs : List (List (Option Nat))) : Nat → List Nat → List Nat
  | 0, d => d
  | k + 1, d => pdomIter n succs k (pdomRound n succs d)

/-- The post-dominators of every block. -/
def pdomSets (succs : List (List (Option Nat))) : List Nat :=
  pdomIter succs.length succs (succs.length + 1) (List.replicate succs.length (2 ^ (succs.length + 1) - 1))

/-- Number of bits set in the low `w` bits. -/
def popBits (v w : Nat) : Nat := ((List.range w).filter (fun i => v.testBit i)).length

/-- The immediate post-dominator of block `b` of `n`, given every block's post-dominators: a block, or `none` for the
function's exit (R193). -/
def ipdomOf (n : Nat) (d : List Nat) (b : Nat) : Option Nat :=
  (List.range n).find? (fun p => p != b && (nth d 0 b).testBit p &&
    popBits (nth d 0 p) (n + 1) + 1 == popBits (nth d 0 b) (n + 1))

def ipdom (code : List Word) (b : Nat) : Option Nat :=
  let succs := blockSuccs code
  ipdomOf succs.length (pdomSets succs) b

/-- The block that holds word `ix`. -/
def blockOf (code : List Word) (ix : Nat) : Nat := ((blockWords code).filter (fun b => decide (b ≤ ix))).length - 1

/-- The first instruction of block `b` of a function. -/
def blockStart (code : List Word) (b : Nat) : Nat := blockEntry code (nth (blockWords code) 0 b)

/-! ### Parameters and results (R150) -/

/-- The parameters of a function with their first argument words: a 64-bit one on an even word (R150). -/
def argWords : List Ty → Nat → List (Ty × Nat)
  | [], _ => []
  | t :: ts, k => let j := if tyWidth t = 64 then (k + 1) / 2 * 2 else k
                  (t, j) :: argWords ts (j + (if tyWidth t = 64 then 2 else 1))

/-- The types of a function's parameters. -/
def funcParams (f : Func) : List Ty :=
  (List.range f.nparam).map (fun i => (tyOfCode (nth f.types 0 (tyOf (nth f.code 0 (1 + i)))).toNat).getD .none)

/-- The type of a function's result. -/
def funcResult (f : Func) : Ty :=
  match f.result with
  | some i => (tyOfCode (nth f.types 0 i).toNat).getD .none
  | none => .none

end Sys2Proof.Machine
end

