-- ==== Sys2Proof/Machine/Alloc.lean ====
section
/-!
DEFINITION. What the translator decides about a function's values and a program can observe: uniformity (R142), homes and
spill decisions (R143, R404, R406), saved registers and frame size (R403). Sets of values and of blocks are bit sets.
-/
namespace Sys2Proof.Machine

/-! ### The words and their uses -/

/-- One instruction word of a function: its index, its block, the count of values before it, what it defines and the values
it uses. -/
structure AWord where
  ix : Nat
  opc : Nat
  form : PForm
  blk : Nat
  n : Nat
  val : Option Nat
  uses : List Nat
  deriving DecidableEq, Repr

/-- The values that the operands of a word name, with `n` values defined before it (R25). -/
def formUses (n : Nat) (f : PForm) : List Nat :=
  (f.a :: f.b :: f.c :: f.ext).filterMap (fun o => match o with | .back d => some (n - d) | _ => none)

def noForm : PForm := { ty := 0, md := 0, a := .none, b := .none, c := .none, ext := [] }

/-- The instruction words from index `ix` on; `b` counts the `blk` words and `n` the values so far. -/
def aWords (m : Module) (code : List Word) : List Word → Nat → Nat → Nat → List AWord
  | [], _, _, _ => []
  | w :: ws, ix, b, n =>
    if isExt w then aWords m code ws (ix + 1) b n else
    let b' := if opcOf w = 0x001 then b + 1 else b
    let f := (wordForm code ix).getD noForm
    let d := definesValue m w
    { ix := ix, opc := opcOf w, form := f, blk := b' - 1, n := n, val := if d then some n else none, uses := formUses n f } ::
      aWords m code ws (ix + 1) b' (if d then n + 1 else n)

/-- What the stages of the translator know of a function: words, blocks and their successors, values with the words that
define them, and whether the function is a kernel or a trap handler. -/
structure Analysis where
  words : List AWord
  blocks : List Nat
  succs : List (List Nat)
  pdom : List Nat
  defs : List AWord
  types : List Ty
  kernel : Bool
  deriving DecidableEq, Repr

def aWordZero : AWord := { ix := 0, opc := 0, form := noForm, blk := 0, n := 0, val := none, uses := [] }

def analyse (m : Module) (f : Func) : Analysis :=
  let ws := aWords m f.code f.code 0 0 0
  let ss := blockSuccs f.code
  let defs := ws.filter (fun w => w.val.isSome)
  { words := ws, blocks := blockWords f.code, succs := ss.map (fun l => l.filterMap id), pdom := pdomSets ss, defs := defs,
    types := defs.map (fun w => (tyOfCode (nth f.types 0 (tyOf (nth f.code 0 w.ix))).toNat).getD .none),
    kernel := f.fflags.getLsbD 0 || f.fflags.getLsbD 1 }

/-! ### Liveness (stage 1) -/

/-- The union of some bit sets. -/
def unionBits (l : List Nat) : Nat := l.foldl (fun a x => a ||| x) 0
def bitSet (l : List Nat) : Nat := unionBits (l.map (fun i => 2 ^ i))

/-- The values defined in a block, and those that it uses and another block defines. -/
def blockDefs (w : Analysis) (b : Nat) : Nat := bitSet ((w.words.filter (fun x => x.blk == b)).filterMap (fun x => x.val))
def blockGen (w : Analysis) (b : Nat) : Nat :=
  bitSet ((w.words.filter (fun x => x.blk == b)).flatMap (fun x => x.uses.filter (fun v => (nth w.defs aWordZero v).blk != b)))

/-- The live values at the entry of every block. -/
def liveIn (w : Analysis) : List Nat :=
  let n := w.blocks.length
  let gen := (List.range n).map (blockGen w)
  let own := (List.range n).map (blockDefs w)
  (List.range (n + 1)).foldl (fun live _ => (List.range n).map (fun b =>
    let out := unionBits ((nth w.succs [] b).map (nth live 0))
    nth gen 0 b ||| (out - (out &&& nth own 0 b)))) (List.replicate n 0)

/-! ### Uniformity (stage 2, R142) -/

/-- Blocks that can be reached from some blocks without passing `stop`. -/
def reachBlocks (w : Analysis) (stop : Option Nat) (start : Nat) : Nat :=
  let cut : Nat → Nat := fun s => match stop with | some j => s - (s &&& 2 ^ j) | none => s
  (List.range w.blocks.length).foldl (fun s _ =>
    cut (s ||| unionBits ((List.range w.blocks.length).map (fun b => if s.testBit b then bitSet (nth w.succs [] b) else 0))))
    (cut start)

/-- Whether an operand of a word is a varying value. -/
def opndVaries (varying : Nat) (x : AWord) (o : Operand) : Bool :=
  match o with | .back d => varying.testBit (x.n - d) | _ => false

/-- Whether a word is a branch on a varying condition or index. -/
def branchVaries (varying : Nat) (x : AWord) : Bool := (x.opc == 0x004 || x.opc == 0x005) && opndVaries varying x x.form.a

/-- The blocks of the divergent regions, given the varying values: from each varying branch to its join. -/
def divergent (w : Analysis) (varying : Nat) : Nat :=
  unionBits (w.words.map (fun x =>
    if branchVaries varying x
    then reachBlocks w (ipdomOf w.blocks.length w.pdom x.blk) (bitSet (nth w.succs [] x.blk)) else 0))

/-- The blocks of the divergent regions that hold a call: the translator reads no scalar register below s96 there (R149). -/
def callRegions (w : Analysis) (varying : Nat) : Nat :=
  unionBits (w.words.map (fun x =>
    if branchVaries varying x then
      let r := reachBlocks w (ipdomOf w.blocks.length w.pdom x.blk) (bitSet (nth w.succs [] x.blk))
      if w.words.any (fun y => (y.opc == 0x006 || y.opc == 0x007) && r.testBit y.blk) then r else 0
    else 0))

/-- Operations whose result depends on the lane whatever their operands are: per-lane specials and trap fields, lane
operations (R223), atomics and exchanges, per-lane token and bid results, barrier results, per-thread floating state, and
the results of calls. -/
def laneResult (x : AWord) : Bool :=
  match x.opc with
  | 0x00D => immNat x.form.a == 0 || immNat x.form.a == 10
  | 0x00F => x.form.md == 4 || x.form.md == 5
  | o => [0x006, 0x007, 0x073, 0x076, 0x0A0, 0x0A1, 0x0A2, 0x0A3, 0x0A4, 0x0B3, 0x0B4, 0x0C8, 0x0CA, 0x0E0, 0x0EA, 0x0EB,
      0x0EC, 0x0F3].contains o

/-- A load through a `ptr.k` reads the thread's own stack: its result depends on the lane (R128, R142; log 97). -/
def stackLoad (w : Analysis) (x : AWord) : Bool :=
  x.opc == 0x0B0 && (match x.form.a with | .back d => nth w.types .none (x.n - d) == .ptrK | _ => false)

/-- The edges of a terminator: each target with its arguments (R183 to R185). -/
def edgesOf (code : List Word) (x : AWord) : List (Nat × List Operand) :=
  let cnt : Nat → Nat := fun b => blockArgs code (nth (blockWords code) 0 b)
  let f := x.form
  match x.opc with
  | 0x003 => [(indexOf f.a, f.ext)]
  | 0x004 => [(indexOf f.b, f.ext.take (cnt (indexOf f.b))), (indexOf f.c, f.ext.drop (cnt (indexOf f.b)))]
  | 0x005 => dealArgs cnt (indexOf f.b :: (f.ext.take (immNat f.c)).map indexOf) (f.ext.drop (immNat f.c))
  | _ => []
where
  /-- Deals an argument list out to targets in order. -/
  dealArgs (cnt : Nat → Nat) : List Nat → List Operand → List (Nat × List Operand)
    | [], _ => []
    | b :: bs, es => (b, es.take (cnt b)) :: dealArgs cnt bs (es.drop (cnt b))

/-- One round of R142: the values that vary, given those found so far. A block argument passed on an edge of a varying branch, or
within a divergent region, varies: the paths of the region may pass it different bits, and none writes a scalar register for it
(R142, R192; log 97). -/
def varyRound (w : Analysis) (edges : List (AWord × Nat × List Operand)) (varying : Nat) : Nat :=
  let div := divergent w varying
  unionBits (((List.range w.defs.length).zip w.defs).map (fun d =>
    let x := d.2
    let v := if x.opc = 0x002 ∧ x.blk = 0 then !w.kernel
      else if x.opc = 0x002 then
        div.testBit x.blk || edges.any (fun e => e.2.1 == x.blk && (branchVaries varying e.1 || div.testBit e.1.blk ||
          opndVaries varying e.1 (nth e.2.2 .none (x.ix - nth w.blocks 0 x.blk - 1))))
      else div.testBit x.blk || laneResult x || stackLoad w x || x.uses.any (fun u => varying.testBit u)
    if v then 2 ^ d.1 else 0))

/-- Rounds until nothing more varies: the classification with the fewest varying values. -/
def varyIter (w : Analysis) (edges : List (AWord × Nat × List Operand)) : Nat → Nat → Nat
  | 0, v => v
  | k + 1, v => let v' := varyRound w edges v; if v' = v then v else varyIter w edges k v'

/-- The varying values of a function (R142). -/
def varyingOf (w : Analysis) (code : List Word) : Nat :=
  varyIter w (w.words.flatMap (fun x => (edgesOf code x).map (fun e => (x, e)))) (w.defs.length + 1) 0

/-! ### Homes -/

/-- A home of a value: a vector register or pair, a scalar register, a bit of one, or spill slots (R160). -/
inductive VHome where
  | vec (r : Nat) | sca (r : Nat) | bit (r b : Nat) | slot (k : Nat)
  deriving DecidableEq, Repr

/-- What an allocation comes to: the home of each value that has one, the registers written, the slots of the saved ones, its own
slots, and its spill decisions. `copies` gives slots in which uniform values stand beside their scalar registers, for the divergent
regions that may read none (R149). Tokens have no home (R101). -/
structure Homes where
  homes : List (Nat × VHome)
  copies : List (Nat × Nat)
  vecs : Nat
  scas : Nat
  saves : Nat
  slots : Nat
  spills : Nat
  deriving DecidableEq, Repr

/-- Whether a value is 64 bits wide; a wide vector value takes an even pair (R143). -/
def wideVal (w : Analysis) (v : Nat) : Bool := tyWidth (nth w.types .none v) == 64
def isTok (w : Analysis) (v : Nat) : Bool := nth w.types .none v == .tok
def predVal (w : Analysis) (v : Nat) : Bool := nth w.types .none v == .i1

/-- The vector registers of a home. -/
def homeVecs (wide : Bool) (h : VHome) : Nat := match h with | .vec r => if wide then 3 * 2 ^ r else 2 ^ r | _ => 0
/-- The scalar register of a home. -/
def homeScas (h : VHome) : Nat := match h with | .sca r => 2 ^ r | .bit r _ => 2 ^ r | _ => 0

/-- The lowest free register of a pool, or the lowest free even pair. -/
def lowestFree (pool : List Nat) (taken : Nat) (pair : Bool) : Option Nat :=
  pool.find? (fun r => !taken.testBit r && (!pair || (r % 2 == 0 && !taken.testBit (r + 1) && pool.contains (r + 1))))

/-- The source codes of the registers that a function saves, in order: the callee-saved ones that it writes, vector registers first;
a kernel and a handler save nothing (R403). -/
def savedCodes (kernel : Bool) (cap vecs scas : Nat) : List Nat :=
  if kernel then [] else
  ((List.range cap).drop (cap / 2)).filter vecs.testBit ++ (((List.range 96).drop 32).filter scas.testBit).map (1536 + ·)

/-- Words of the save area: one for a vector register, two for a scalar one. -/
def saveWords (kernel : Bool) (cap : Nat) (vecs scas : Nat) : Nat :=
  ((savedCodes kernel cap vecs scas).map (fun c => if c < 1536 then 1 else 2)).sum

/-- The slots, from `k` on, in which uniform values with a scalar home stand for the divergent regions that hold a call (R149). -/
def copySlots (w : Analysis) (varying : Nat) (homes : List (Nat × VHome)) (k : Nat) : List (Nat × Nat) :=
  let r := callRegions w varying
  let read := bitSet ((w.words.filter (fun x => r.testBit x.blk)).flatMap (·.uses))
  (((List.range w.defs.length).filter (fun v => read.testBit v && homes.any (fun h => h.1 == v && homeScas h.2 != 0))).foldl
    (fun (a : List (Nat × Nat) × Nat) v => (a.1 ++ [(v, a.2)], a.2 + (if wideVal w v then 2 else 1))) ([], k)).1

/-- The slots that copies take. -/
def copyWords (w : Analysis) (cs : List (Nat × Nat)) : Nat := (cs.map (fun c => if wideVal w c.1 then 2 else 1)).sum

/-! ### Plain homes (R404) -/

/-- What the plain allocation holds so far; `word` is the current predicate word and its next bit. -/
structure PlainSt where
  homes : List (Nat × VHome)
  vecs : Nat
  scas : Nat
  word : Option (Nat × Nat)
  slots : Nat
  spills : Nat
  deriving DecidableEq, Repr

/-- The next value takes its home. -/
def plainStep (w : Analysis) (varying cap : Nat) (p : PlainSt) (v : Nat) : PlainSt :=
  let wide := wideVal w v
  let spill : PlainSt := { p with
    homes := (v, .slot p.slots) :: p.homes
    slots := p.slots + (if wide then 2 else 1)
    spills := p.spills + 1 }
  if isTok w v then p
  else if varying.testBit v then
    match lowestFree ((List.range cap).drop (cap / 2)) p.vecs wide with
    | some r => { p with homes := (v, .vec r) :: p.homes, vecs := homeVecs wide (.vec r) ||| p.vecs }
    | none => spill
  else
    let next := lowestFree ((List.range 96).drop 32) p.scas false
    match predVal w v, p.word, next with
    | true, some (r, b), n =>
      if b < 64 then { p with homes := (v, .bit r b) :: p.homes, word := some (r, b + 1) }
      else match n with
        | some q => { p with homes := (v, .bit q 0) :: p.homes, scas := 2 ^ q ||| p.scas, word := some (q, 1) }
        | none => spill
    | true, none, some q => { p with homes := (v, .bit q 0) :: p.homes, scas := 2 ^ q ||| p.scas, word := some (q, 1) }
    | false, _, some q => { p with homes := (v, .sca q) :: p.homes, scas := 2 ^ q ||| p.scas }
    | _, _, none => spill

/-- The homes of a plain translation: one for each value's whole life, in value-number order (R404, R406). -/
def plainHomes (w : Analysis) (varying cap : Nat) : Homes :=
  let p := (List.range w.defs.length).foldl (plainStep w varying cap)
    { homes := [], vecs := 0, scas := 0, word := none, slots := 0, spills := 0 }
  let sv := saveWords w.kernel cap p.vecs p.scas
  { homes := p.homes.reverse.map (fun h => match h.2 with | .slot k => (h.1, .slot (k + sv)) | _ => h),
    copies := copySlots w varying p.homes.reverse (sv + p.slots), vecs := p.vecs, scas := p.scas, saves := sv, slots := p.slots, spills := p.spills }

/-! ### Linear scan (R143) -/

/-- A value's interval: its first and last positions, its uses, and whether it crosses an `ncall`. -/
structure Interval where
  v : Nat
  lo : Nat
  hi : Nat
  uses : List Nat
  crosses : Bool
  deriving DecidableEq, Repr

/-- The position of the last instruction word of a block. -/
def blockLast (w : Analysis) (b : Nat) : Nat := ((w.words.filter (fun x => x.blk == b)).map (·.ix)).foldl max 0

/-- The interval of a value over a span of positions, if it reaches into it. It covers each block where the value is live on
entry, to the block's end where the value is live out of it (DEDUCED from the figures of R403's worked example; log 10). -/
def intervalOf (w : Analysis) (live : List Nat) (first last v : Nat) : Option Interval :=
  let d := nth w.defs aWordZero v
  let uses := (w.words.filter (fun x => x.uses.contains v)).map (·.ix)
  let lo := if d.opc = 0x002 then nth w.blocks 0 d.blk else d.ix
  let inBlocks := (List.range w.blocks.length).filter (fun b => (nth live 0 b).testBit v)
  let ends := ((List.range w.blocks.length).filter (fun b =>
    (b == d.blk || (nth live 0 b).testBit v) && (nth w.succs [] b).any (fun c => (nth live 0 c).testBit v))).map (blockLast w)
  let a := max first ((inBlocks.map (nth w.blocks 0)).foldl min lo)
  let z := min last ((uses ++ ends).foldl max lo)
  if z < a then none else
  some { v := v, lo := a, hi := z, uses := uses.filter (fun u => decide (u ≤ z)),
         crosses := w.words.any (fun x => (x.opc == 0x006 || x.opc == 0x007) && decide (a < x.ix) && decide (x.ix < z)) }

/-- Inserts an interval into a list ordered by start and value number. -/
def insertInterval (i : Interval) : List Interval → List Interval
  | [] => [i]
  | j :: js => if i.lo < j.lo ∨ (i.lo = j.lo ∧ i.v < j.v) then i :: j :: js else j :: insertInterval i js

/-- What the scan holds: the active intervals with their homes, every home given, the slots with the ends of their owners,
and the registers written. -/
structure ScanSt where
  active : List (Interval × VHome)
  homes : List (Nat × VHome)
  slotEnds : List Nat
  vecs : Nat
  scas : Nat
  spills : Nat
  deriving DecidableEq, Repr

/-- Bits in use of a predicate word. -/
def wordBits (r : Nat) (act : List (Interval × VHome)) : List Nat :=
  act.filterMap (fun a => match a.2 with | .bit q b => if q = r then some b else none | _ => none)

/-- The home that an interval takes beside the active ones, if a register or a bit is free. -/
def pickHome (w : Analysis) (varying cap : Nat) (i : Interval) (act : List (Interval × VHome)) : Option VHome :=
  let scaPool := if i.crosses then (List.range 96).drop 32 else (List.range 96).drop 8
  let scas := unionBits (act.map (fun a => homeScas a.2))
  if varying.testBit i.v then
    let low := List.range (cap / 2 - 4)
    let high := (List.range cap).drop (cap / 2)
    (lowestFree (if i.crosses then high else low ++ high)
      (unionBits (act.map (fun a => homeVecs (wideVal w a.1.v) a.2))) (wideVal w i.v)).map .vec
  else if predVal w i.v then
    let words := scaPool.filter (fun r => match wordBits r act with | [] => false | b => decide (b.length < 64))
    match words with
    | r :: _ => ((List.range 64).find? (fun b => !(wordBits r act).contains b)).map (.bit r)
    | [] => (lowestFree scaPool scas false).map (fun r => .bit r 0)
  else (lowestFree scaPool scas false).map .sca

/-- Where the next use of an interval lies, seen from a position. -/
def nextUse (p : Nat) (i : Interval) : Nat := (i.uses.find? (fun u => decide (p ≤ u))).getD i.hi

/-- The interval that gives way at a position: the next use furthest ahead, then the higher value number. -/
def victimOf (p : Nat) (i : Interval) (cands : List Interval) : Interval :=
  cands.foldl (fun a b => if nextUse p a < nextUse p b ∨ (nextUse p a = nextUse p b ∧ a.v < b.v) then b else a) i

/-- The lowest free spill slot from a position on, two for a wide value. -/
def lowestSlot (p : Nat) (ends : List Nat) (n : Nat) : Nat :=
  ((List.range (ends.length + 1)).find? (fun k => (List.range n).all (fun j => decide (nth ends 0 (k + j) ≤ p)))).getD 0

/-- An interval goes to a slot. -/
def toSlot (w : Analysis) (p : Nat) (i : Interval) (t : ScanSt) : ScanSt :=
  let n := if wideVal w i.v then 2 else 1
  let k := lowestSlot p t.slotEnds n
  { t with
    homes := (i.v, .slot k) :: t.homes.filter (fun h => h.1 != i.v)
    slotEnds := (List.range (max t.slotEnds.length (k + n))).map (fun j => if k ≤ j ∧ j < k + n then i.hi else nth t.slotEnds 0 j) }

/-- An interval takes a register or a bit. -/
def toHome (w : Analysis) (i : Interval) (h : VHome) (t : ScanSt) : ScanSt :=
  { t with
    active := (i, h) :: t.active
    homes := (i.v, h) :: t.homes
    vecs := homeVecs (wideVal w i.v) h ||| t.vecs
    scas := homeScas h ||| t.scas }

/-- The next interval in order of start. -/
def scanStep (w : Analysis) (varying cap : Nat) (t0 : ScanSt) (i : Interval) : ScanSt :=
  let t : ScanSt := { t0 with active := t0.active.filter (fun a => decide (i.lo < a.1.hi)) }
  match pickHome w varying cap i t.active with
  | some h => toHome w i h t
  | none =>
    let without : Nat → List (Interval × VHome) := fun v => t.active.filter (fun a => a.1.v != v)
    let c := victimOf i.lo i ((t.active.map (·.1)).filter (fun a => (pickHome w varying cap i (without a.v)).isSome))
    let t1 : ScanSt := toSlot w i.lo c { t with spills := t.spills + 1 }
    if c.v = i.v then t1
    else match pickHome w varying cap i (without c.v) with
      | some h => toHome w i h { t1 with active := without c.v }
      | none => t1

/-- The homes of a normal translation over a span of positions (R143, R406). -/
def scanHomes (w : Analysis) (varying cap lo hi : Nat) : Homes :=
  let live := liveIn w
  let ivs := ((List.range w.defs.length).filter (fun v => !isTok w v)).filterMap (intervalOf w live lo hi)
  let t := (ivs.foldl (fun l i => insertInterval i l) []).foldl (scanStep w varying cap)
    { active := [], homes := [], slotEnds := [], vecs := 0, scas := 0, spills := 0 }
  let sv := saveWords w.kernel cap t.vecs t.scas
  { homes := t.homes.reverse.map (fun h => match h.2 with | .slot k => (h.1, .slot (k + sv)) | _ => h),
    copies := copySlots w varying t.homes.reverse (sv + t.slotEnds.length), vecs := t.vecs, scas := t.scas, saves := sv, slots := t.slotEnds.length, spills := t.spills }

/-! ### Translations (R164, R403, R406) -/

/-- The homes of the base translation of a key. -/
def baseHomes (m : Module) (k : TKey) : Homes :=
  let f := nth m.funcs funcZero k.fidx
  let w := analyse m f
  let varying := varyingOf w f.code
  if k.mode % 2 = 1 then plainHomes w varying k.cap else scanHomes w varying k.cap 0 f.code.length

/-- Slot words W of the frame of a function under a key (R151, R403, R404). A resume translation has its base's. -/
def frameWords (m : Module) (k : TKey) : Nat :=
  let h := baseHomes m k
  h.saves + h.slots + copyWords (analyse m (nth m.funcs funcZero k.fidx)) h.copies

/-! ### The values at a point (R161) -/

/-- The blocks that dominate each block, as bit sets. -/
def dominators (w : Analysis) : List Nat :=
  let n := w.blocks.length
  let preds := (List.range n).map (fun b => (List.range n).filter (fun a => (nth w.succs [] a).contains b))
  (List.range (n + 1)).foldl (fun d _ => (List.range n).map (fun b =>
    if b = 0 then 1 else 2 ^ b ||| (nth preds [] b).foldl (fun x a => x &&& nth d 0 a) (2 ^ n - 1))) (List.replicate n (2 ^ n - 1))

/-- The values live just before word `ix`. -/
def liveBefore (w : Analysis) (live : List Nat) (ix : Nat) : Nat :=
  let b := (w.blocks.filter (fun x => decide (x ≤ ix))).length - 1
  let out := unionBits ((nth w.succs [] b).map (nth live 0))
  ((w.words.filter (fun x => x.blk == b && decide (ix ≤ x.ix))).reverse).foldl (fun s x =>
    (match x.val with | some v => s - (s &&& 2 ^ v) | none => s) ||| bitSet x.uses) out

/-- The values whose definition dominates word `ix`. -/
def definedBefore (w : Analysis) (doms : List Nat) (ix : Nat) : Nat :=
  let b := (w.blocks.filter (fun x => decide (x ≤ ix))).length - 1
  bitSet ((w.defs.filter (fun d => decide (d.ix < ix) && d.blk == b || d.blk != b && (nth doms 0 b).testBit d.blk)).filterMap (·.val))

/-- The values that the point record of a word lists, in value order: those live, or in a plain translation those whose definition
dominates the point. -/
def pointVals (m : Module) (k : TKey) (ix : Nat) : List Nat :=
  let f := nth m.funcs funcZero k.fidx
  let w := analyse m f
  let set := if k.mode % 2 = 1 then definedBefore w (dominators w) ix else liveBefore w (liveIn w) ix
  (List.range w.defs.length).filter set.testBit

/-- The values that the record of a call lists: those live behind it but for its own result, or in a plain translation those whose
definition dominates it (R159, R161). -/
def callVals (m : Module) (k : TKey) (ix : Nat) : List Nat :=
  let w := analyse m (nth m.funcs funcZero k.fidx)
  if k.mode % 2 = 1 then pointVals m k ix else
  let next := ((w.words.find? (fun a => decide (ix < a.ix))).map (·.ix)).getD ix
  let own := (w.words.find? (fun a => a.ix == ix)).bind (·.val)
  (pointVals m k next).filter (fun v => own != some v)

/-- N, B and S of R164 under a key, with R406. -/
def translateCounts (m : Module) (k : TKey) : Nat × Nat × Nat :=
  let f := nth m.funcs funcZero k.fidx
  if k.mode < 2 then
    ((f.code.filter (fun x => !isExt x)).length, (blockWords f.code).length, (baseHomes m k).spills)
  else
    let w := analyse m f
    let r := VPC.ix k.rpc
    let b := blockOf f.code r
    let seq := w.words.filter (fun x => x.blk == b && decide (r ≤ x.ix))
    let s := if k.mode = 3 then
        let h := baseHomes m k
        (seq.filter (fun x => match x.val with
          | some v => h.homes.any (fun e => e.1 == v && (match e.2 with | .slot _ => true | _ => false))
          | none => false)).length
      else (scanHomes w (varyingOf w f.code) k.cap r (blockLast w b)).spills
    (seq.length, 1, s)

end Sys2Proof.Machine
end

