-- ==== Sys2Proof/Machine/Ops.lean ====
section
/-!
DEFINITION. The named operations on the state that every family shares: records at rest, accessors, memory and
scratchpad bytes, event records, page walks and translation, token entries and pair queues, paths and joins, barrier
words, traps.
-/
namespace Sys2Proof.Machine

/-- The three outcomes of a step. -/
abbrev Out := Host.Outcome State Fault Refusal

/-! ### Numbers of agents -/

def clusterOf (core : Nat) : Nat := core / 96
def dieOfCluster (cl : Nat) : Nat := cl / 4
def dieOfCore (core : Nat) : Nat := core / 384
def coreOfWarp (w : Nat) : Nat := w / 16
def warpOfPath (p : Nat) : Nat := p / 64
def coreOfPath (p : Nat) : Nat := p / 1024
def dieOfPath (p : Nat) : Nat := dieOfCore (coreOfPath p)
/-- The global thread index of a lane of a warp on its die (R315). -/
def threadIndex (w lane : Nat) : Nat := coreOfWarp w % 384 * 1024 + w % 16 * 64 + lane

/-! ### Records at rest -/

def pathZero : Path :=
  { mask := 0, pc := .word 0, resumed := none, frames := [], split := none, wait := none, s124 := 0, s125 := 0, s126 := 0, s127 := 0,
    slotIx := none, seq := 0, readyAt := 0, youngest := false, halted := false, held := false, parked := false, noFix := false, mxIds := none,
    focus := false, atExit := false, syncWait := false, stepping := false, skipBp := none, dbgCause := 0, dbgInfo := 0,
    skid := 0 }
def warpZero : Warp :=
  { gang := 0, wg := 0, num := 0, cap := 0, window := 0, stackBase := 0, pathBase := 0, ldc := 0, stc := 0, rsc := 0,
    inflight := [], abandoned := [], divCalls := [], issued := 0 }
/-- A thread at its start: flags, mode word and seed zero, no memberships (R204, R335). -/
def threadZero : Thread := { flags := 0, mode := 0, seed := 0, bars := [], exited := false }
def keyZero : TKey := { mhash := 0, fidx := 0, dkind := 0, mode := 0, cap := 0, rpc := 0 }
def gangZero : Gang :=
  { launch := 0, die := 0, ctx := 0, x := 0, y := 0, z := 0, cluster := 0, core0 := 0, key := keyZero, module := 0,
    state := .retired, seq := 0, movedAt := none, target := none, issued := 0, progressAt := 0, hung := false, cause := 0,
    failAddr := 0 }
def wgZero : Wg := { core := 0, base := 0, size := 0, backing := none, warps := [], shapes := [], usesMx := false, usesSf := false }
def moduleZero : Module :=
  { die := 0, image := [], mhash := 0, base := 0, dataLen := 0, funcs := [], copies := [] }
def launchZero : Launch :=
  { die := 0, ctx := 0, queue := 0, record := 0, module := 0, handle := 0, next := 0, live := 0, bad := false,
    retired := true }
/-- A context that is free (R69). -/
def ctxZero : Context :=
  { state := .free, root := 0, tenant := 0, save := none, turnRight := false, debugger := false }
/-- A token entry that is reserved and not filled (R101). -/
def entryZero : Entry := { group := 0, prod := 0, cons := 0, thread := 0, depth := 0, carried := false, filled := false, status := 0, key := 0, die := 15, round := 0, ident := 0, won := false, wrote := [] }
/-- An identifier's entry at package reset (R308). -/
def planeZero : PlaneEnt := { holder := none, gate := 0, round := 0, lastKey := 0, lastDie := 15, lastRound := 0 }
def queueZero : OvQueue := { hw := [], ring := [] }
/-- A cluster after reset: nothing cached, the budget pool full (R255). -/
def clusterZero : Cluster := { cache := [], misses := [], pool := 4096, placedAt := none, failedKeys := [] }
/-- The MX state at workgroup start (R240, R254). -/
def mxZero : MxState :=
  { flagw := List.replicate 8 0, mode := 0x12861, seed := 0, prev := List.replicate 512 0,
    swapped := List.replicate 4 false, busy := 0 }
/-- A command before its fields are set. -/
def cmdZero : Cmd :=
  { engine := 0, core := 0, pid := 0, lane := 0, gang := 0, wg := 0, body := .tokAll, pops := [], fills := [],
    started := false, parked := none, dead := [], faults := [], pages := [], doneChunks := [], badChunks := [], cause := 0, steps := 0,
    stepFail := false, mode := 0, seed := 0, turnDone := none, after := 0, since := none, wrote := [] }
/-- The table state at workgroup start (R233). -/
def sfZero : SfState := { valid0 := false, valid1 := false, cur := false, ver := 0, loads := [] }
/-- A hop at reset: strands 0 to 7 clockwise, 8 to 15 counter-clockwise, no turn queued (R295); it carries traffic once it has
reported ready (R19, R394). -/
def hopZero : Hop :=
  { dirs := List.replicate 8 Dir.cw ++ List.replicate 8 Dir.ccw, st := List.replicate 16 StrandState.working,
    q0 := [], q1 := [], lastEnd := none, t0 := none, t1 := none, turning := none, turnAt := 0, down := true, retrain := none,
    rr := 0, rrc := 0 }
/-- The buffers of a direction after link training: every allowance equals the slots it covers (R297, R298). -/
def bufZero : HopBuf :=
  { pool := [], escape := [], a0 := 10, a1 := 10, ash := 460, aesc := 16, r0 := 0, r1 := 0, rsh := 0, resc := 0 }
/-- The firmware of a die at package reset (R397). -/
def fwZero (die : Nat) : FwState :=
  { running := Config.fwFactory die, provisioned := none, fused := Config.fwFused die, recovery := false }
/-- A die right after it leaves reset, before any unit of it has reported ready (R19, R69, R255, R331, R366, R399). -/
def dieZero (die : Nat) : Die :=
  { inReset := false, bornAt := 0, dieReady := false, clrdy := 0, mchGroups := 0, spineReady := false, pReady := false, det := false,
    stallK := Config.stallK, traceOn := false, tables := [], kernelTop := Config.storeBase, store := [],
    evRing := none, mfRing := none, held := [], folds := [], noDispatch := false, rrPrio := [], heads := [], lastCluster := none,
    sensors := { watts := 0, temp := 0, amps := [] }, railLimit := List.replicate 4 400, throttle := 0,
    fw := fwZero die, mfDrop := 0 }

/-! ### Accessors -/

def dieAt (s : State) (d : Nat) : Die := s.h.dies.getD (dieZero d) d
def clusterAt (s : State) (c : Nat) : Cluster := s.h.clusters.getD clusterZero c
def ctxAt (s : State) (k : Nat) : Context := s.h.ctxs.getD ctxZero k
def pathAt (s : State) (p : Nat) : Path := s.x.paths.getD pathZero p
def warpAt (s : State) (w : Nat) : Warp := s.x.warps.getD warpZero w
def gangAt (s : State) (g : Nat) : Gang := s.x.gangs.getD gangZero g
def wgAt (s : State) (k : Nat) : Wg := s.x.wgs.getD wgZero k
def threadAt (s : State) (t : Nat) : Thread := s.x.threads.getD threadZero t
def moduleAt (s : State) (m : Nat) : Module := s.h.modules.getD moduleZero m
def launchAt (s : State) (l : Nat) : Launch := s.h.launches.getD launchZero l
def entryAt (s : State) (i : Nat) : Entry := s.e.entries.getD entryZero i
def mxAt (s : State) (core : Nat) : MxState := s.e.mx.getD mxZero core
def sfAt (s : State) (core : Nat) : SfState := s.e.sf.getD sfZero core
def hopAt (s : State) (h : Nat) : Hop := s.r.hops.getD hopZero h
def bufAt (s : State) (k : Nat) : HopBuf := s.r.bufs.getD bufZero k
def planeAt (s : State) (die ident : Nat) : PlaneEnt := s.pl.table.getD planeZero (die * 256 + ident)

def setDie (s : State) (d : Nat) (v : Die) : State := { s with h := { s.h with dies := s.h.dies.ins d v } }
def setCluster (s : State) (c : Nat) (v : Cluster) : State :=
  { s with h := { s.h with clusters := s.h.clusters.ins c v } }
def setCtx (s : State) (k : Nat) (v : Context) : State := { s with h := { s.h with ctxs := s.h.ctxs.ins k v } }
def setPath (s : State) (p : Nat) (v : Path) : State := { s with x := { s.x with paths := s.x.paths.ins p v } }
def setWarp (s : State) (w : Nat) (v : Warp) : State := { s with x := { s.x with warps := s.x.warps.ins w v } }
def setGang (s : State) (g : Nat) (v : Gang) : State := { s with x := { s.x with gangs := s.x.gangs.ins g v } }
def setWg (s : State) (k : Nat) (v : Wg) : State := { s with x := { s.x with wgs := s.x.wgs.ins k v } }
def setThread (s : State) (t : Nat) (v : Thread) : State :=
  { s with x := { s.x with threads := s.x.threads.ins t v } }
def setLaunch (s : State) (l : Nat) (v : Launch) : State :=
  { s with h := { s.h with launches := s.h.launches.ins l v } }
def setEntry (s : State) (i : Nat) (v : Entry) : State := { s with e := { s.e with entries := s.e.entries.ins i v } }
def setMx (s : State) (core : Nat) (v : MxState) : State := { s with e := { s.e with mx := s.e.mx.ins core v } }
def setSf (s : State) (core : Nat) (v : SfState) : State := { s with e := { s.e with sf := s.e.sf.ins core v } }
def setHop (s : State) (h : Nat) (v : Hop) : State := { s with r := { s.r with hops := s.r.hops.ins h v } }
def setBuf (s : State) (k : Nat) (v : HopBuf) : State := { s with r := { s.r with bufs := s.r.bufs.ins k v } }
def setPlane (s : State) (die ident : Nat) (v : PlaneEnt) : State :=
  { s with pl := { s.pl with table := s.pl.table.ins (die * 256 + ident) v } }
def setCmd (s : State) (i : Nat) (v : Cmd) : State := { s with e := { s.e with cmds := s.e.cmds.ins i v } }
def updPath (s : State) (p : Nat) (f : Path → Path) : State :=
  { s with x := { s.x with paths := s.x.paths.upd p f } }
def updWarp (s : State) (w : Nat) (f : Warp → Warp) : State :=
  { s with x := { s.x with warps := s.x.warps.upd w f } }
def updGang (s : State) (g : Nat) (f : Gang → Gang) : State :=
  { s with x := { s.x with gangs := s.x.gangs.upd g f } }
def updCmd (s : State) (i : Nat) (f : Cmd → Cmd) : State := { s with e := { s.e with cmds := s.e.cmds.upd i f } }

/-- The state with event `i` due after those already due. -/
def enqueue (s : State) (i : Instr) : State := { s with c := { s.c with agenda := s.c.agenda ++ [i] } }

/-- The next free number, taken. -/
def takeId (s : State) : State := { s with c := { s.c with nextId := s.c.nextId + 1 } }

/-- The next free value's place, taken (log 1). -/
def takeFree (s : State) : State := { s with c := { s.c with fresh := s.c.fresh + 1 } }

/-- Adds `n` to a running core counter (R386). -/
def count (s : State) (core i n : Nat) : State :=
  { s with d := { s.d with cnt := s.d.cnt.putD 0 (core * 64 + i) (s.d.cnt.getD 0 (core * 64 + i) + n) } }
/-- Adds `n` to a running cluster counter (R385). -/
def countCluster (s : State) (cl i n : Nat) : State :=
  { s with d := { s.d with ccnt := s.d.ccnt.putD 0 (cl * 64 + i) (s.d.ccnt.getD 0 (cl * 64 + i) + n) } }
/-- Adds `n` to a running die counter (R385): 0 corrected and 1 uncorrected memory errors, 2 and 3 completed turns of
hops d - 1 and d, 4 and 5 their drain and retrain cycles, 6 link retries, 7 plane soft errors. -/
def countDie (s : State) (die i n : Nat) : State :=
  { s with d := { s.d with dcnt := s.d.dcnt.putD 0 (die * 16 + i) (s.d.dcnt.getD 0 (die * 16 + i) + n) } }

/-! ### Launch record fields (R328) -/

/-- Bytes `lo` to `lo + n - 1` of a launch record or shape record. -/
def recBytes (r : BitVec 1024) (lo n : Nat) : Nat := r.toNat / 2 ^ (8 * lo) % 2 ^ (8 * n)

def lrFunc (r : BitVec 1024) : Nat := recBytes r 0 2 % 4096
def lrHandle (r : BitVec 1024) : Nat := recBytes r 2 6
def lrId (r : BitVec 1024) : Word := BitVec.ofNat 64 (recBytes r 8 8)
def lrGridX (r : BitVec 1024) : Nat := recBytes r 18 2
def lrGridY (r : BitVec 1024) : Nat := recBytes r 20 2
def lrGridZ (r : BitVec 1024) : Nat := recBytes r 22 2
def lrWgs (r : BitVec 1024) : Nat := recBytes r 25 1
def lrThreads (r : BitVec 1024) : Nat := recBytes r 26 2
def lrStack (r : BitVec 1024) : Nat := recBytes r 28 4
def lrScratch (r : BitVec 1024) : Nat := recBytes r 32 4
def lrCapOcc (r : BitVec 1024) : Nat := recBytes r 36 2
def lrSpan0 (r : BitVec 1024) : Nat := recBytes r 38 2
def lrSpanCnt (r : BitVec 1024) : Nat := recBytes r 40 2
def lrHandler (r : BitVec 1024) : Nat := recBytes r 42 2
def lrFlags (r : BitVec 1024) : Nat := recBytes r 44 2
def lrMigratable (r : BitVec 1024) : Bool := (lrFlags r).testBit 0
def lrDetRed (r : BitVec 1024) : Bool := (lrFlags r).testBit 1
def lrDebug (r : BitVec 1024) : Bool := (lrFlags r).testBit 2
def lrTurn (r : BitVec 1024) : Bool := (lrFlags r).testBit 3
def lrSigEv (r : BitVec 1024) : Nat := recBytes r 46 2
def lrWaitEv (r : BitVec 1024) (i : Nat) : Nat := recBytes r (48 + 2 * i) 2
def lrDump (r : BitVec 1024) : Word := BitVec.ofNat 64 (recBytes r 56 8)
def lrParam (r : BitVec 1024) (i : Nat) : Word := BitVec.ofNat 64 (recBytes r (64 + 8 * i) 8)

/-! ### Bytes -/

/-- The key of byte `pa` of a die's LPDDR6 (R66). -/
def lpKey (die pa : Nat) : Nat := die * 2 ^ 44 + pa
/-- The key of byte `pa` of CXL memory (R67). -/
def cxlKey (pa : Nat) : Nat := 2 ^ 50 + pa

/-- A byte of memory. -/
def memByte (s : State) (a : Nat) : Byte := s.m.mem.getD Config.emptyByte a
/-- The canonical form of memory. -/
def Memory.wf (m : List Host.Cell) : Bool := SMap.wf Config.emptyByte m
def setMem (s : State) (m : List Host.Cell) : State := { s with m := { s.m with mem := m } }
/-- Writes one byte of memory, keeping the canonical form. -/
def writeByte (s : State) (a : Nat) (b : Byte) : State := setMem s (s.m.mem.putD Config.emptyByte a b)
/-- Writes consecutive bytes of memory. -/
def writeBytes (s : State) (a : Nat) (bs : List Byte) : State := setMem s (s.m.mem.putsD Config.emptyByte a bs)
def readBytes (s : State) (a n : Nat) : List Byte := s.m.mem.getsD Config.emptyByte a n
/-- An `n`-byte little-endian word of memory. -/
def readMem (s : State) (a n : Nat) : Nat := leNat (readBytes s a n)
def writeMem (s : State) (a n v : Nat) : State := writeBytes s a (leBytes n v)

/-- A byte of a core's scratchpad by its physical address (R122). -/
def scrByte (s : State) (core pa : Nat) : Byte := s.e.scr.getD 0 (core * 2 ^ 18 + pa)
def scrBytes (s : State) (core pa n : Nat) : List Byte := s.e.scr.getsD 0 (core * 2 ^ 18 + pa) n
def scrRead (s : State) (core pa n : Nat) : Nat := leNat (scrBytes s core pa n)
/-- Bytes of a scratchpad are written; a word written whole holds no error any more (R365). -/
def scrPut (s : State) (core pa : Nat) (bs : List Byte) : State :=
  let a := core * 2 ^ 18 + pa
  { s with e := { s.e with
      scr := s.e.scr.putsD 0 a bs
      lostScr := s.e.lostScr.filter (fun w => !(decide (a ≤ 8 * w) && decide (8 * w + 8 ≤ a + bs.length))) } }
def scrWrite (s : State) (core pa n v : Nat) : State := scrPut s core pa (leBytes n v)

/-- A chunk's state; a chunk that nothing has set is empty (R99, R414). -/
def chunkAt (s : State) (core c : Nat) : ChunkState := s.e.chunks.getD .empty (core * 512 + c)
def setChunk (s : State) (core c : Nat) (v : ChunkState) : State :=
  { s with e := { s.e with chunks := s.e.chunks.putD .empty (core * 512 + c) v } }
/-- Sets the chunks `lo` to `lo + n - 1`. -/
def setChunks (s : State) (core lo : Nat) (v : ChunkState) : Nat → State
  | 0 => s
  | n + 1 => setChunks (setChunk s core lo v) core (lo + 1) v n
/-- The format tag of an 8 KiB tile slot (R126); raw is 0. -/
def tagAt (s : State) (core slot : Nat) : Byte := s.e.tags.getD 0 (core * 32 + slot)
def setTag (s : State) (core slot : Nat) (t : Byte) : State :=
  { s with e := { s.e with tags := s.e.tags.putD 0 (core * 32 + slot) t } }
def setTags (s : State) (core slot : Nat) (t : Byte) : Nat → State
  | 0 => s
  | n + 1 => setTags (setTag s core slot t) core (slot + 1) t n
/-- A thread store, atomic or `red` at a scratch home: the bytes, and the slot's tag becomes raw (R126). -/
def scrStore (s : State) (core pa n v : Nat) : State := setTag (scrWrite s core pa n v) core (pa / 8192) 0

/-- Whether a lock of a command other than `me` covers byte `pa` of a core (R125). -/
def lockedBy (s : State) (core lo n : Nat) : Bool :=
  s.e.locks.any (fun k => k.core == core && decide (k.lo < lo + n) && decide (lo < k.lo + k.n))

/-! ### Event records (R364, R424) -/

/-- The fields of an event record before it is laid out. -/
structure EvFields where
  kind : Nat
  die : Nat
  cluster : Nat
  cause : Nat
  tenant : Nat
  gx : Nat
  gy : Nat
  gz : Nat
  addr : Word
  tag : Word
  deriving DecidableEq, Repr

def evZero : EvFields :=
  { kind := 0, die := 0, cluster := 15, cause := 0, tenant := 0, gx := 0, gy := 0, gz := 0, addr := 0, tag := 0 }

/-- The 32 bytes of an event record (R364): byte 0 in bits 7:0. -/
def evRecord (tick : Nat) (f : EvFields) : BitVec 256 :=
  BitVec.ofNat 256
    (f.kind % 256 + 2 ^ 8 * (f.die % 16 + 16 * (f.cluster % 16)) + 2 ^ 16 * (f.cause % 65536)
      + 2 ^ 32 * (tick % 2 ^ 32) + 2 ^ 64 * (f.tenant % 65536)
      + 2 ^ 80 * (f.gx % 65536) + 2 ^ 96 * (f.gy % 65536) + 2 ^ 112 * (f.gz % 65536)
      + 2 ^ 128 * f.addr.toNat + 2 ^ 192 * f.tag.toNat)

/-- The package tick FC[31:0] (R310). -/
def tick (s : State) : Nat := s.pl.fc.toNat % 2 ^ 32

/-- Records folded at the F-die (R368): the matching counting record counts it, or a new one starts, or dispatch stops. -/
def foldRecord (d : Die) (r : BitVec 256) : Die :=
  let kind : Byte := r.extractLsb' 0 8
  let dieB : Byte := r.extractLsb' 8 8
  let cause : BitVec 16 := r.extractLsb' 16 16
  let t : BitVec 32 := r.extractLsb' 32 32
  if d.folds.any (fun f => f.kind == kind && f.cause == cause && f.dieByte == dieB) then
    { d with folds := d.folds.map (fun f =>
        if f.kind == kind && f.cause == cause && f.dieByte == dieB then { f with last := t, count := f.count + 1 }
        else f) }
  else if d.folds.length < 64 then
    { d with folds := d.folds ++ [{ kind := kind, cause := cause, dieByte := dieB, first := t, last := t, count := 1 }] }
  else { d with held := d.held ++ [r], noDispatch := true }

/-- Posts a record of a die: the F-die holds it for the host's ring, or folds it beyond 256 (R364, R368). -/
def postRecord (s : State) (die : Nat) (r : BitVec 256) : State :=
  let d := dieAt s die
  setDie s die (if d.held.length < 256 then { d with held := d.held ++ [r] } else foldRecord d r)

def postEvent (s : State) (f : EvFields) : State := postRecord s f.die (evRecord (tick s) f)

/-- Sends a reply to the host (R391). -/
def reply (s : State) (h : Hdr) (status code offset : Nat) (data : List Byte) : State :=
  { s with h := { s.h with out := s.h.out ++ [.reply h status code offset data] } }
/-- A refusal with its first failure code and the offset of the failing field (R392, R395). -/
def refuse (s : State) (h : Hdr) (code : Nat) : State := reply s h 1 (code % 256) (code / 256) []
/-- A failure code with the byte offset of the field that fails, in one number. -/
def offCode (code off : Nat) : Nat := code + 256 * off
def doneBytes (s : State) (h : Hdr) (data : List Byte) : State := reply s h 0 0 0 data
def done (s : State) (h : Hdr) (data : List Word) : State := doneBytes s h (data.flatMap (fun w => leBytes 8 w.toNat))

def ctxKey (h : Hdr) : Nat := h.die * 64 + h.ctx

/-! ### Page tables (R70 to R76) -/

/-- Bits of a page-table entry (R72). -/
def pteV (e : Word) : Bool := e.getLsbD 0
def pteLeaf (e : Word) : Bool := e.getLsbD 1
def pteRd (e : Word) : Bool := e.getLsbD 2
def pteWr (e : Word) : Bool := e.getLsbD 3
def pteAt (e : Word) : Bool := e.getLsbD 4
def pteOrd (e : Word) : Nat := (e.extractLsb' 6 2).toNat
def pteKind (e : Word) : Nat := (e.extractLsb' 8 2).toNat
def pteFed (e : Word) : Bool := e.getLsbD 10
def pteAddr (e : Word) : Nat := (e.extractLsb' 12 44).toNat * 4096
def pteOdie (e : Word) : Nat := (e.extractLsb' 52 4).toNat
def pteExp (e : Word) : Nat := (e.extractLsb' 38 14).toNat
def ptePidx (e : Word) : Nat := (e.extractLsb' 16 22).toNat
def pteEgen (e : Word) : Nat := (e.extractLsb' 12 4).toNat

/-- Least virtual-address bit that indexes a level, and the number of index bits (R71). -/
def lvlShift : Nat → Nat
  | 4 => 47 | 3 => 38 | 2 => 29 | 1 => 21 | _ => 16
def lvlBits : Nat → Nat
  | 4 => 10 | 3 => 9 | 2 => 9 | 1 => 8 | _ => 5

/-- The result of a walk: a leaf with its page size as a power of two, or a fault kind (CAUSE of R102) with the die a
federated entry names. -/
inductive WalkRes where
  | leaf (e : Word) (lg : Nat)
  | fault (kind owner : Nat)
  deriving DecidableEq, Repr

/-- Whether a CXL frame lies in a unit assigned to the die (R68, R76). -/
def cxlOwned (s : State) (die pa : Nat) : Bool := s.m.cxlOwner.find? (pa / 2 ^ 29) == some die

/-- The leaf checks of R73 and R76. A peer leaf above L0 counts as a format fault: R83 and R86 have kernels write peer leaves of
64 KiB alone, and no table of the spec names a larger one (log 75). -/
def leafOk (s : State) (die : Nat) (va : Word) (lg : Nat) (e : Word) : Bool :=
  pteKind e != 3 && pteOrd e != 3 && !pteFed e &&
  (if pteKind e = 2 then va.getLsbD 56 && lg == 16
   else pteAddr e % 2 ^ lg == 0 &&
    (if pteKind e = 0 then decide (pteAddr e + 2 ^ lg ≤ Config.storeBase) else cxlOwned s die (pteAddr e)))

/-- A walk from `table` at `level` (R71, R73, R74); `fuel` is the number of levels left. -/
def walkFrom (s : State) (die : Nat) (va : Word) : Nat → Nat → WalkRes
  | 0, _ => .fault 5 0
  | fuel + 1, table =>
    if Config.storeBase ≤ table then .fault 5 0 else
    let e : Word := BitVec.ofNat 64
      (readMem s (lpKey die (table + 8 * bitsOf va.toNat (lvlShift fuel) (lvlBits fuel))) 8)
    if e.extractLsb' 56 8 != 0 || e.getLsbD 11 || e.getLsbD 5 then .fault 5 0
    else if !pteV e then (if pteFed e then .fault 3 (pteOdie e) else .fault 2 0)
    else if pteLeaf e then
      if fuel ≥ 3 then .fault 5 0
      else if leafOk s die va (lvlShift fuel) e then .leaf e (lvlShift fuel) else .fault 5 0
    else if fuel = 0 then .fault 5 0
    else if e.extractLsb' 2 9 != 0 then .fault 5 0
    else if pteAddr e % (8 * 2 ^ lvlBits (fuel - 1)) != 0 then .fault 5 0
    else walkFrom s die va fuel (pteAddr e)

/-- The walk of a virtual address in a context (R71). A context without tables maps nothing. -/
def walkVa (s : State) (ctx : Nat) (va : Word) : WalkRes :=
  if (ctxAt s ctx).state = .free then .fault 2 0 else walkFrom s (ctx / 64) va 5 (ctxAt s ctx).root

/-- A cached translation of `va` at a core: its L0 TLB, then its cluster's L1 TLB (R77). -/
def tlbFind (s : State) (core ctx : Nat) (va : Word) : Option TlbEntry :=
  ((s.m.tlb0.getD [] core ++ s.m.tlb1.getD [] (clusterOf core)).find?
    (fun t => t.ctx == ctx && t.va == va.toNat / 2 ^ t.lg * 2 ^ t.lg))

/-- The set of an entry among the 512 of an L1 TLB (R77; log 12). -/
def tlbSet (t : TlbEntry) : Nat := t.va / 2 ^ t.lg % 512

/-- An L1 TLB with an entry added, the oldest of its set's 8 ways dropped when there is a ninth (R77; log 12). -/
def addWay (t : TlbEntry) (es : List TlbEntry) : List TlbEntry :=
  let all := t :: es.erase t
  match (all.filter (fun e => tlbSet e == tlbSet t)).drop 8 with
  | [] => all
  | e :: _ => all.erase e

/-- Adds a leaf to the TLBs of a core and its cluster, dropping the oldest beyond their sizes (R77; log 12). -/
def tlbFill (s : State) (core : Nat) (t : TlbEntry) : State :=
  let t0 := s.m.tlb0.ins core ((t :: (s.m.tlb0.getD [] core).erase t).take 64)
  let t1 := s.m.tlb1.ins (clusterOf core) (addWay t (s.m.tlb1.getD [] (clusterOf core)))
  { s with m := { s.m with tlb0 := t0, tlb1 := t1 } }

/-- The home of byte `va` behind a leaf that is not a peer leaf (R72). -/
def leafKey (die : Nat) (va : Word) (lg : Nat) (e : Word) : Nat :=
  let pa := pteAddr e + va.toNat % 2 ^ lg
  if pteKind e = 1 then cxlKey pa else lpKey die pa

/-- Access classes of R75. -/
inductive Right where
  | rd | wr | at
  deriving DecidableEq, Repr

def hasRight (r : Right) (e : Word) : Bool :=
  match r with
  | .rd => pteRd e
  | .wr => pteWr e
  | .at => pteRd e && pteWr e && pteAt e

/-- A kernel or owner access by a context's tables, outside the TLBs: the home of `va`, or the fault kind. -/
def kernelXlate (s : State) (ctx : Nat) (va : Word) (r : Right) : Except Nat (Nat × Nat) :=
  if va.toNat ≥ 2 ^ 57 then .error 1 else
  match walkVa s ctx va with
  | .fault k _ => .error k
  | .leaf e lg =>
    if pteKind e = 2 then .error 6
    else if hasRight r e then .ok (leafKey (ctx / 64) va lg e, pteOrd e) else .error 4

/-- Writes bytes through a context's tables, byte by byte; stops at the first fault and says where. -/
def kernelWrite (s : State) (ctx : Nat) (va : Word) : List Byte → Except (State × Word) State
  | [] => .ok s
  | b :: bs =>
    match kernelXlate s ctx va .wr with
    | .error _ => .error (s, va)
    | .ok (a, _) => kernelWrite (writeByte s a b) ctx (va + 1) bs

/-- Reads bytes through a context's tables. -/
def kernelRead (s : State) (ctx : Nat) : Nat → Word → Option (List Byte)
  | 0, _ => some []
  | n + 1, va =>
    match kernelXlate s ctx va .rd with
    | .error _ => none
    | .ok (a, _) => (kernelRead s ctx n (va + 1)).map (memByte s a :: ·)

/-! ### Cluster cache (R129, R283) -/

def lineKey (cluster addr : Nat) : Nat := cluster * 2 ^ 52 + addr / 128

/-- The bytes a plain load by a core reads at a home: the cached line where one is held (R129, R283). -/
def cacheRead (s : State) (core addr n : Nat) (ord : Nat) : List Byte :=
  if ord = 0 then readBytes s addr n else
  match s.m.lines.find? (lineKey (clusterOf core) addr) with
  | some l => ((l.bytes.drop (addr % 128)).take n)
  | none => readBytes s addr n

/-- The bytes of a range that may cross lines, each as a plain load by a core reads it. -/
def cacheBytes (s : State) (core addr n : Nat) (ord : Nat) : List Byte :=
  (List.range n).flatMap (fun i => cacheRead s core (addr + i) 1 ord)

/-- The home of the word that a watchpoint names in global memory (R378, R416). -/
def watchHome (s : State) (w : Watchpoint) : Option Nat :=
  if w.addr.getLsbD 63 then none else
  match walkVa s w.ctx (lowAddr w.addr) with
  | .leaf e lg => if pteKind e = 2 then none else some (leafKey (w.ctx / 64) (lowAddr w.addr) lg e)
  | .fault _ _ => none
where
  /-- Bits 55:0 of the watched address. -/
  lowAddr (a : Word) : Word := BitVec.ofNat 64 (a.toNat % 2 ^ 56)

/-- A read watch on a global word keeps its line out of every cluster cache of the die (R378). -/
def watchedLine (s : State) (cluster addr : Nat) : Bool :=
  s.d.watches.any (fun w => w.1 / 8 / 4 == cluster / 4 && w.2.kinds.getLsbD 0 &&
    ((watchHome s w.2).map (· / 128)) == some (addr / 128))

def setLines (s : State) (l : SMap CacheLine) : State := { s with m := { s.m with lines := l } }

/-- The lines after one of a cluster has left, when its cache of 8 MiB is full (R6; log 62). -/
def makeRoom (s : State) (cluster addr : Nat) : SMap CacheLine :=
  let mine := s.m.lines.filter (fun l => l.1 / 2 ^ 52 == cluster)
  match mine.drop 65535 with
  | [] => s.m.lines
  | _ :: _ => match mine[Config.cacheVictim s.c.cycle addr % mine.length]? with
    | some v => s.m.lines.del v.1
    | none => s.m.lines

/-- Allocates the line that a load misses, unless the page is strong or the load carries `.nc` (R129, R283). -/
def cacheFill (s : State) (core addr : Nat) (ord : Nat) (nc : Bool) : State :=
  if ord = 0 || nc || watchedLine s (clusterOf core) addr then s else
  match s.m.lines.find? (lineKey (clusterOf core) addr) with
  | some _ => s
  | none => setLines s ((makeRoom s (clusterOf core) addr).ins (lineKey (clusterOf core) addr)
                { bytes := readBytes s (addr / 128 * 128) 128, ord := ord })

/-- A core's own cluster cache drops a line, so that the next read is served at the home (R287). -/
def dropOwnLine (s : State) (core addr : Nat) : State := setLines s (s.m.lines.del (lineKey (clusterOf core) addr))

/-- A store performs at the L2 slice and updates the line that the issuing cluster's cache holds (R129). -/
def cacheStore (s : State) (core addr : Nat) (bs : List Byte) : State :=
  let s1 := writeBytes s addr bs
  match s1.m.lines.find? (lineKey (clusterOf core) addr) with
  | some _ => setLines s1 (s1.m.lines.upd (lineKey (clusterOf core) addr)
                  (fun l => { l with bytes := readBytes s1 (addr / 128 * 128) 128 }))
  | none => s1

/-- Before the home performs an atomic, the cluster caches of the die drop the line (R262). -/
def dropLine (s : State) (die addr : Nat) : State :=
  setLines s ((List.range 4).foldl (fun m c => SMap.del m (lineKey (die * 4 + c) addr)) s.m.lines)

/-- An acquire drops the release-consistent lines of the cluster's cache (R286); `fence.full` also the unordered ones
(R288). -/
def dropLines (s : State) (cluster : Nat) (unordered : Bool) : State :=
  setLines s (s.m.lines.filter (fun p =>
      !(p.1 / 2 ^ 52 == cluster && (p.2.ord == 1 || (unordered && p.2.ord == 2)))))

/-! ### Token entries and queues (R100, R101, R105) -/

def pairKey (core x y : Nat) : Nat := core * 36 + x * 6 + y
def qIds (q : OvQueue) : List Nat := q.hw ++ q.ring
def pairAt (s : State) (core x y : Nat) : OvQueue := s.e.pairs.getD queueZero (pairKey core x y)
def setPair (s : State) (core x y : Nat) (q : OvQueue) : State :=
  { s with e := { s.e with pairs := s.e.pairs.ins (pairKey core x y) q } }

/-- Appends to a queue of `cap` places; what finds it full goes to the overflow ring (R105). -/
def qPush (cap : Nat) (q : OvQueue) (i : Nat) : OvQueue :=
  if q.ring = [] ∧ q.hw.length < cap then { q with hw := q.hw ++ [i] } else { q with ring := q.ring ++ [i] }
/-- Drops the first `n` elements in queue order. -/
def qDrop (n : Nat) (q : OvQueue) : OvQueue := { hw := q.hw.drop n, ring := q.ring.drop (n - q.hw.length) }
/-- Removes one element wherever it stands. -/
def qErase (i : Nat) (q : OvQueue) : OvQueue := { hw := q.hw.erase i, ring := q.ring.erase i }

/-- Spilled entries of a core, over all its queues (R105). -/
def spilled (s : State) (core : Nat) : Nat :=
  ((s.e.pairs.filter (fun p => p.1 / 36 == core)).map (fun p => p.2.ring.length)).sum
    + (s.e.bxq.getD queueZero core).ring.length + (s.e.mxq.getD queueZero core).ring.length

/-- Reserves one entry at the tail of tq.xy. -/
def reserve (s : State) (core x y : Nat) : State × Nat :=
  let i := s.c.nextId
  (setPair (setEntry (takeId s) i entryZero) core x y (qPush 32 (pairAt s core x y) i), i)

/-- Reserves `n` entries at the tail of tq.xy, the numbers appended to `acc`. -/
def reserveN (core x y : Nat) : Nat → State → List Nat → State × List Nat
  | 0, s, acc => (s, acc)
  | n + 1, s, acc => let r := reserve s core x y; reserveN core x y n r.1 (acc ++ [r.2])

def isFilled (s : State) (i : Nat) : Bool := (entryAt s i).filled

/-- Fills entries with a status word (R101, R102). -/
def fillEntries (s : State) (ids : List Nat) (status : BitVec 32) : State :=
  ids.foldl (fun s i => setEntry s i { entryAt s i with filled := true, status := status }) s

/-- The status word of R102. -/
def statusWord (failed : Bool) (cause info : Nat) : BitVec 32 :=
  BitVec.ofNat 32 ((if failed then 2 else 1) * 2 ^ 30 + cause % 64 * 2 ^ 24 + info % 2 ^ 24)
def statusFailed (w : BitVec 32) : Bool := w.extractLsb' 30 2 == 2#2

/-- The entries that a list of pops would take now, in order, from the queues of consumer `y`. -/
def popIds (s : State) (core y : Nat) : List Pop → List (Nat × Nat) → Option (List Nat)
  | [], _ => some []
  | .entry i :: ps, used => (popIds s core y ps used).map (i :: ·)
  | .queue x :: ps, used =>
    let n := (used.filter (fun u => u.1 == x)).length
    match (qIds (pairAt s core x y))[n]? with
    | some i => (popIds s core y ps ((x, i) :: used)).map (i :: ·)
    | none => none

/-- Whether every entry that the pops take is there and filled (R101). -/
def popsReady (s : State) (core y : Nat) (ps : List Pop) : Bool :=
  match popIds s core y ps [] with
  | some ids => ids.all (isFilled s)
  | none => false

/-- An entry of a token value leaves the queue that it stands in (R421). -/
def eraseEntry (s : State) (core i : Nat) : State :=
  let e := entryAt s i
  if e.cons = 0 then s else setPair s core e.prod e.cons (qErase i (pairAt s core e.prod e.cons))

/-- Takes the popped entries out of their queues. -/
def doPops (s : State) (core y : Nat) : List Pop → State
  | [] => s
  | .entry i :: ps => doPops (eraseEntry s core i) core y ps
  | .queue x :: ps => doPops (setPair s core x y (qDrop 1 (pairAt s core x y))) core y ps

/-! ### Virtual values and registers -/

def valKey (thread depth vnum : Nat) : Nat := (thread * 65536 + depth) * 1048576 + vnum
def threadKey (pid lane : Nat) : Nat := warpOfPath pid * 64 + lane
def getVal (s : State) (thread depth vnum : Nat) : Word := s.x.vals.getD 0 (valKey thread depth vnum)
def setVal (s : State) (thread depth vnum : Nat) (v : Word) : State :=
  { s with x := { s.x with vals := s.x.vals.putD 0 (valKey thread depth vnum) v } }
/-- The place that holds a lane's result while its path waits at the exit join (R193). -/
def retSlot : Nat := 1048575
def vregKey (w r lane : Nat) : Nat := (w * 1536 + r) * 64 + lane
def getVreg (s : State) (w r lane : Nat) : Lane32 := s.x.vregs.getD 0 (vregKey w r lane)
def setVreg (s : State) (w r lane : Nat) (v : Lane32) : State :=
  { s with x := { s.x with vregs := s.x.vregs.putD 0 (vregKey w r lane) v } }
def sregKey (w r : Nat) : Nat := w * 128 + r
/-- Scalar register `r` as path `pid` sees it: s124 to s127 are the path's own (R149). -/
def getSreg (s : State) (pid r : Nat) : Word :=
  let p := pathAt s pid
  if r = 124 then p.s124 else if r = 125 then p.s125 else if r = 126 then p.s126 else if r = 127 then p.s127
  else s.x.sregs.getD 0 (sregKey (warpOfPath pid) r)
def setSreg (s : State) (pid r : Nat) (v : Word) : State :=
  if r = 124 then updPath s pid (fun p => { p with s124 := v })
  else if r = 125 then updPath s pid (fun p => { p with s125 := v })
  else if r = 126 then updPath s pid (fun p => { p with s126 := v })
  else if r = 127 then updPath s pid (fun p => { p with s127 := v })
  else { s with x := { s.x with sregs := s.x.sregs.putD 0 (sregKey (warpOfPath pid) r) v } }

/-! ### Stacks (R128, R151) -/

/-- Physical address of byte `o` of lane `lane`'s stack (R128). -/
def stackPa (s : State) (w lane o : Nat) : Nat :=
  let l := Config.lanes (dieOfCore (coreOfWarp w))
  (warpAt s w).stackBase + o / 4 * (l * 4) + lane * 4 + o % 4
/-- Physical address of stack byte `o` for lane 0. -/
def physStack (s : State) (w o : Nat) : Nat := stackPa s w 0 o
/-- Stack bytes of each lane of a warp. -/
def stackOf (s : State) (k : Warp) : Nat := lrStack (launchAt s (gangAt s k.gang).launch).record
def stackSize (s : State) (w : Nat) : Nat := stackOf s (warpAt s w)
/-- Reads a 32-bit stack word at a multiple of 4. -/
def stackWord (s : State) (w lane o : Nat) : Nat := scrRead s (coreOfWarp w) (stackPa s w lane o) 4
def setStackWord (s : State) (w lane o v : Nat) : State := scrWrite s (coreOfWarp w) (stackPa s w lane o) 4 v

/-- Writes the frame header at stack offset `o` in every lane of `ls` (R151). -/
def putHeader (s : State) (w o : Nat) (link sp fb : Word) (ls : List Nat) : State :=
  ls.foldl (fun s l =>
    setStackWord (setStackWord (setStackWord (setStackWord s w l o (link.toNat % 2 ^ 32))
      w l (o + 4) (link.toNat / 2 ^ 32)) w l (o + 8) (sp.toNat % 2 ^ 32)) w l (o + 12) (fb.toNat % 2 ^ 32)) s

/-- The frame header at `o` as a lane holds it: link, caller's stack pointer, caller's frame bytes (R151). -/
def getHeader (s : State) (w lane o : Nat) : Word × Word × Word :=
  (BitVec.ofNat 64 (stackWord s w lane o + 2 ^ 32 * stackWord s w lane (o + 4)),
   BitVec.ofNat 64 (stackWord s w lane (o + 8)), BitVec.ofNat 64 (stackWord s w lane (o + 12)))

/-- The link of R152. -/
def linkOf (fn bx : Nat) : Word := BitVec.ofNat 64 (fn % 4096 * 2 ^ 32 + bx % 2 ^ 22)
def linkFn (l : Word) : Nat := (l.extractLsb' 32 12).toNat
def linkBx (l : Word) : Nat := (l.extractLsb' 0 22).toNat
/-- The root link is all ones (R152). -/
def rootLink : Word := BitVec.allOnes 64

/-! ### Paths, the path table and joins (R155, R342) -/

def pathsOf (s : State) (w : Nat) : List (Nat × Path) := s.x.paths.filter (fun p => p.1 / 64 == w)

/-- The lowest free path number of a warp. -/
def freePath (s : State) (w : Nat) : Nat :=
  w * 64 + (((List.range 64).find? (fun i => (s.x.paths.find? (w * 64 + i)).isNone)).getD 63)

/-- The lowest free entry of a warp's path table of 16, if any (R341). -/
def freeSlot (s : State) (w : Nat) : Option Nat :=
  (List.range 16).find? (fun i => !(pathsOf s w).any (fun p => p.2.slotIx == some i))

/-- Adds a path to a warp: a free table entry, or a place on the pending-path stack (R155). -/
def addPath (s : State) (w : Nat) (p : Path) : State :=
  setPath (takeId s) (freePath s w) { p with slotIx := freeSlot s w, seq := s.c.nextId }

/-- The pending paths of a warp that may enter the table, oldest first (R342, R377). -/
def pendingOldest (s : State) (w : Nat) : Option Nat :=
  ((pathsOf s w).filter (fun p => p.2.slotIx.isNone && !p.2.parked)).foldl
    (fun b p => match b with
      | none => some p.1
      | some q => if p.2.seq < (pathAt s q).seq then some p.1 else some q) none

/-- When a table entry is free, the oldest pending path takes it and may become ready then (R339, R342). -/
def fillTable (s : State) (w : Nat) : State :=
  match freeSlot s w, pendingOldest s w with
  | some i, some p => updPath s p (fun q => { q with slotIx := some i, seq := s.c.nextId, readyAt := s.c.cycle })
  | _, _ => s

/-- Removes a path; its table entry goes to the oldest pending path. -/
def removePath (s : State) (p : Nat) : State :=
  fillTable { s with x := { s.x with paths := s.x.paths.del p } } (warpOfPath p)

/-- Whether the chain of split records from `r` holds `t`. -/
def chainHas (s : State) (t : Nat) : Nat → Option Nat → Bool
  | 0, _ => false
  | _ + 1, none => false
  | f + 1, some r => r == t || chainHas s t f ((s.x.splits.find? r).bind (·.parent))

def splitFuel (s : State) : Nat := s.x.splits.length + 1

/-- The paths that split record `r` still has, nested records included (R155). -/
def splitPaths (s : State) (r : Nat) : List (Nat × Path) :=
  s.x.paths.filter (fun p => chainHas s r (splitFuel s) p.2.split)

/-- Whether a path of split record `r` stands in a trap block while the handler runs: its lanes are not lost and have not arrived
(R155, R353). -/
def splitHeld (s : State) (r : Nat) : Bool := s.x.blocks.any (fun b => chainHas s r (splitFuel s) b.2.split)

/-- Whether a path that now stands where it does meets the join of its split record. -/
def atJoin (s : State) (p : Path) : Bool :=
  match p.split.bind (s.x.splits.find? ·) with
  | none => false
  | some k => k.depth == p.frames.length &&
    (match k.join with
     | .block v => p.pc == .word v && !p.atExit
     | .after v => p.pc == .word v && !p.atExit
     | .exit => p.atExit
     | .bundle key ix => p.pc == .bundle key ix)

/-- When every path of record `r` waits at its join, they merge into one that takes the parent record and checks its
join again; a record without paths is gone, and its parent is checked (R155). -/
def joinCheck : Nat → State → Nat → State
  | 0, s, _ => s
  | f + 1, s, r =>
    match s.x.splits.find? r with
    | none => s
    | some k =>
      let ps := splitPaths s r
      let gone : State := { s with x := { s.x with splits := s.x.splits.del r } }
      if splitHeld s r then s else
      match ps with
      | [] => match k.parent with
        | none => gone
        | some q => joinCheck f gone q
      | (p0, q0) :: rest =>
        if ps.all (fun p => p.2.split == some r && p.2.wait == some .join) then
          let m := ps.foldl (fun m p => m ||| p.2.mask) 0
          let s1 := rest.foldl (fun s p => removePath s p.1) gone
          let q1 := { q0 with mask := m, split := k.parent, wait := none, readyAt := s.c.cycle }
          if atJoin s1 q1 then
            match k.parent with
            | some q => joinCheck f (setPath s1 p0 { q1 with wait := some .join }) q
            | none => setPath s1 p0 q1
          else setPath s1 p0 q1
        else s

/-- A path that has reached its join waits there (R155). -/
def arrive (s : State) (p : Nat) : State :=
  if atJoin s (pathAt s p) then
    match (pathAt s p).split with
    | some r => joinCheck (splitFuel s) (updPath s p (fun q => { q with wait := some .join })) r
    | none => s
  else s

/-- Lanes leave a path; a path without lanes ends, and its join no longer waits for it (R189). -/
def dropLanes (s : State) (p : Nat) (m : Mask) : State :=
  let q := pathAt s p
  let m' := q.mask &&& ~~~m
  if m' = 0 then
    match q.split with
    | some r => joinCheck (splitFuel s) (removePath s p) r
    | none => removePath s p
  else updPath s p (fun q => { q with mask := m' })

/-- Splits a path (R155): the lanes `t` go on at `pcT`, the others at `pcR`, both under a new record with join `j`. -/
def splitPath (s : State) (p : Nat) (t : Mask) (pcT pcR : Pc) (j : JoinPt) : State :=
  let q := pathAt s p
  let r := s.c.nextId
  let k : Split := { warp := warpOfPath p, parent := q.split, depth := q.frames.length, join := j }
  let s1 : State := { takeId s with x := { s.x with splits := s.x.splits.ins r k } }
  let s2 := setPath s1 p { q with mask := t, pc := pcT, split := some r }
  addPath s2 (warpOfPath p) { q with mask := q.mask &&& ~~~t, pc := pcR, split := some r, readyAt := s.c.cycle,
                                     focus := false }

/-! ### Calls from divergent regions (R149, R187) -/

/-- Whether every lane of `a` is one of `b`. -/
def within (a b : Mask) : Bool := a &&& ~~~b == 0

/-- Whether a call from a divergent region waits: some other path is inside such a call. Of the paths inside one such call, it waits
for those inside a further one (R149). -/
def callHeld (s : State) (pid : Nat) : Bool :=
  let q := pathAt s pid
  let calls := (warpAt s (warpOfPath pid)).divCalls
  let own := calls.find? (fun e => within q.mask e.1)
  q.split.isSome && calls.any (fun e => !within q.mask e.1 && own.all (fun o => within e.1 o.1))

/-- A path makes a call; from a divergent region, it is noted with its lanes (R149). -/
def startDivCall (s : State) (pid : Nat) : State :=
  let q := pathAt s pid
  if q.split.isSome then updWarp s (warpOfPath pid) (fun k => { k with divCalls := (q.mask, q.frames.length) :: k.divCalls }) else s

/-- A path has returned to depth `d`: its call is over. -/
def endDivCall (s : State) (pid d : Nat) : State :=
  let m := (pathAt s pid).mask
  updWarp s (warpOfPath pid) (fun k => match k.divCalls.find? (fun e => e.2 == d && within m e.1) with
    | some e => { k with divCalls := k.divCalls.erase e }
    | none => k)

/-- A thread that ends is in no call any more. -/
def leaveCalls (s : State) (thread : Nat) : State :=
  updWarp s (thread / 64) (fun k => { k with
    divCalls := (k.divCalls.map (fun e => (e.1 &&& ~~~(Mask.of [thread % 64]), e.2))).filter (fun e => e.1 != 0) })

/-- Whether two paths stand at one `callx` that split them (R187). -/
def sameCallx (p q : Path) : Bool := p.pc == q.pc && p.split == q.split && p.frames == q.frames

/-! ### Barrier words at the bank (R343, R346) -/

def barPh (w : Nat) : Nat := bitsOf w 32 16
def barMem (w : Nat) : Nat := bitsOf w 16 16
def barArr (w : Nat) : Nat := bitsOf w 0 16
def barDef (w : Nat) : Bool := w.testBit 63
/-- A barrier word from its fields; bits 62:48 are carried. -/
def barWord (old : Nat) (d : Bool) (ph mem arr : Nat) : Nat :=
  (if d then 2 ^ 63 else 0) + bitsOf old 48 15 * 2 ^ 48 + ph % 65536 * 2 ^ 32 + mem % 65536 * 2 ^ 16 + arr % 65536

/-- After a leave or an arrive, a phase in which every member has arrived completes (R346). -/
def barComplete (w : Nat) : Nat :=
  if barMem w > 0 ∧ barArr w ≥ barMem w then barWord w (barDef w) (barPh w + 1) (barMem w) 0 else w
def barJoinOp (w k : Nat) : Nat := barWord w (barDef w) (barPh w) (barMem w + k) (barArr w)
def barLeaveOp (w k ka : Nat) : Nat :=
  barComplete (if barMem w < k then barWord w true (barPh w) 0 0
    else barWord w (barDef w) (barPh w) (barMem w - k) (barArr w - min ka (barArr w)))
def barArriveOp (w k : Nat) : Nat := barComplete (barWord w (barDef w) (barPh w) (barMem w) (barArr w + k))
def barKillOp (w ka : Nat) : Nat :=
  let v := barLeaveOp w 1 ka
  barWord v true (barPh v) (barMem v) (barArr v)

/-- The home of a scratch address in a gang: core and physical address (R120, R121). -/
def scrHome (s : State) (gang : Nat) (a : BitVec 32) (n : Nat) : Option (Nat × Nat) :=
  let k := gang * 128 + (a.extractLsb' 24 8).toNat
  let off := (a.extractLsb' 0 18).toNat
  match s.x.wgs.find? k with
  | none => none
  | some w => if a.extractLsb' 18 6 != 0 || (a.extractLsb' 24 8).toNat ≥ 128 || decide (off + n > w.size) then none
              else some (w.core, w.base + off)

/-- A thread leaves every set it joined, by `bar.leave` or by the kill operation (R348). -/
def leaveBars (s : State) (gang thread : Nat) (kill : Bool) : State :=
  let t := threadAt s thread
  let s1 := t.bars.foldl (fun s b =>
    match scrHome s gang b.word 8 with
    | none => s
    | some (core, pa) =>
      let w := scrRead s core pa 8
      let ka := if b.arr == some (BitVec.ofNat 16 (barPh w)) then 1 else 0
      scrStore s core pa 8 (if kill then barKillOp w ka else barLeaveOp w 1 ka)) s
  leaveCalls (setThread s1 thread { t with bars := [], exited := true }) thread

/-! ### Waits (R57, R116, R339) -/

/-- Every command of the engines that holds a lock on the range has completed. -/
def unlockedNow (s : State) (core lo n : Nat) : Bool := !lockedBy s core lo n

/-- A barrier wait is over for one word: the phase has changed or DEF is set (R346). -/
def barOver (s : State) (w : Nat × Nat × BitVec 16) : Bool :=
  let v := scrRead s w.1 w.2.1 8
  barDef v || barPh v != w.2.2.toNat

/-- Pops of several queues by one warp: `(x, y, n)` takes the first `n` entries of tq.xy (R116). -/
def headsReady (s : State) (core : Nat) (pops : List (Nat × Nat × Nat)) : Bool :=
  pops.all (fun p => let ids := (qIds (pairAt s core p.1 p.2.1)).take p.2.2
                     ids.length == p.2.2 && ids.all (isFilled s))

/-- Counters of a warp selected by the mask of `wait.cnt` are at or below `n` (R131, R156). -/
def countersAt (w : Warp) (sel : BitVec 3) (n : Nat) : Bool :=
  (!sel.getLsbD 0 || decide (w.ldc ≤ n)) && (!sel.getLsbD 1 || decide (w.stc ≤ n)) &&
    (!sel.getLsbD 2 || decide (w.rsc ≤ n))

/-- A swap of the path has been paired: it completes before its path halts (R280). -/
def paired (s : State) (pid : Nat) : Bool := s.e.swaps.any (fun x => x.pid == pid && x.got.isSome)

/-- Whether a wait is over. Waits that an event of its own ends (walk, fault, miss, barrier, partner, peer, halt) are
not over before that event. -/
def waitOver (s : State) (pid : Nat) (w : WaitOn) : Bool :=
  match w with
  | .landed i => !(warpAt s (warpOfPath pid)).inflight.any (fun a => a.id == i)
  | .entries ids | .dying ids => ids.all (isFilled s)
  | .heads core pops => headsReady s core pops
  | .bxTurn core ids =>
    (qIds (s.e.bxq.getD queueZero core)).head? == ids.head? &&
      popsReady s core 2 (ids.flatMap (fun i => ((s.e.cmds.find? i).map (·.pops)).getD []))
  | .chunks core lo n => (List.range n).all (fun i => chunkAt s core (lo + i) != .empty)
  | .unlocked core lo n => unlockedNow s core lo n
  | .loadLock core lo n =>
    !lockedBy s core lo n || (List.range n).all (fun i => chunkAt s core (lo + i) != .empty)
  | .counters sel n => countersAt (warpAt s (warpOfPath pid)) sel n
  | .drained => (warpAt s (warpOfPath pid)).inflight.isEmpty
  | .callTurn => !callHeld s pid
  | .repair _ due => decide (due ≤ s.c.cycle)
  | .callAfter ids => ids.all (fun i => (s.x.paths.find? i).all (fun p => !sameCallx p (pathAt s pid)))
  | .mxCmds ids => ids.all (fun i => (s.e.cmds.find? i).isNone)
  | .sfBusy core => match (sfAt s core).loads with
    | [] => true
    | p :: _ => p == pid
  | .faultRoom die => decide ((s.m.faults.filter (fun q => q.2.die == die)).length < 4096)
  | .peer => s.r.trackers.all (fun t => t.2.who != .path pid || t.2.reply.isSome)
  | .saveRoom => true
  | .plane _ => true
  | .partner => paired s pid
  | .barrier _ | .walk _ | .walker _ | .fault _ | .miss _ | .join | .halt => false

/-- Every reply to a peer access that a path has sent has come: it completes before its path halts (R356). -/
def peerCame (s : State) (pid : Nat) : Bool :=
  s.r.trackers.any (fun t => t.2.who == .path pid) && s.r.trackers.all (fun t => t.2.who != .path pid || t.2.reply.isSome)

/-- A `bx.shape` of the path has popped its tokens: it reads its record before its path halts (R115). -/
def shapePopped (s : State) (pid : Nat) : Bool :=
  s.e.cmds.any (fun k => k.2.pid == pid && k.2.started && (match k.2.body with | .shape _ => true | _ => false))

/-- What the path has begun completes before the path halts (R115, R280, R356). -/
def midBundle (s : State) (pid : Nat) : Bool := paired s pid || peerCame s pid || shapePopped s pid

/-- A path is ready when its next bundle can issue (R339). -/
def isReady (s : State) (pid : Nat) (p : Path) : Bool :=
  p.slotIx.isSome && (midBundle s pid || (!p.halted && !p.held && !p.parked)) &&
    (match p.wait with | none => true | some w => waitOver s pid w)

/-- The stall code of a wait: the counters of R386 in the order of R387. -/
def stallCode (w : WaitOn) : Nat :=
  match w with
  | .entries _ | .dying _ | .heads _ _ | .bxTurn _ _ => 2
  | .chunks _ _ _ => 3
  | .barrier _ => 4
  | .landed _ | .counters _ _ | .walk _ | .walker _ | .faultRoom _ | .drained => 5
  | .unlocked _ _ _ | .loadLock _ _ _ => 6
  | .miss _ | .repair _ _ => 7
  | _ => 1

/-! ### Failing items (R364) -/

def gangPaths (s : State) (g : Nat) : List (Nat × Path) :=
  s.x.paths.filter (fun p => (warpAt s (p.1 / 64)).gang == g)

/-- The fields that name a gang in an event record. -/
def gangFields (s : State) (g kind cause : Nat) : EvFields :=
  let q := gangAt s g
  { evZero with kind := kind, die := q.die, cluster := q.cluster % 4, cause := cause, gx := q.x, gy := q.y, gz := q.z,
                tag := lrId (launchAt s q.launch).record, tenant := 256 + (ctxAt s q.ctx).tenant.toNat }

/-- A gang fails: it stops issuing, its commands complete, its dump is written, and it is reported as it retires (R364). -/
def failGang (s : State) (g cause : Nat) (addr : Word) : State :=
  let q := gangAt s g
  if q.state = .failing ∨ q.state = .retired then s else
  let s2 := setGang s g { q with state := .failing, cause := cause, failAddr := addr }
  let s3 := (gangPaths s2 g).foldl (fun s p => updPath s p.1 (fun q => { q with halted := true })) s2
  setLaunch s3 q.launch { launchAt s3 q.launch with bad := true }

/-! ### Save region (R357) -/

/-- The lowest free run of `n` bytes in a region of `size` bytes with runs `used` in rising order. -/
def findRun (size n : Nat) : Nat → List (Nat × Nat) → Option Nat
  | at_, [] => if at_ + n ≤ size then some at_ else none
  | at_, (o, l) :: us => if at_ + n ≤ o then some at_ else findRun size n (o + l) us

def insRun (o l : Nat) : List (Nat × Nat) → List (Nat × Nat)
  | [] => [(o, l)]
  | (a, b) :: us => if o < a then (o, l) :: (a, b) :: us else (a, b) :: insRun o l us

/-- Takes `n` bytes of a context's save region: its offset. -/
def takeSave (s : State) (ctx n : Nat) : Option (State × Nat) :=
  match (ctxAt s ctx).save with
  | none => none
  | some r =>
    match findRun r.size n 0 r.used with
    | none => none
    | some o => some (setCtx s ctx { ctxAt s ctx with save := some { r with used := insRun o n r.used } }, o)

def freeSave (s : State) (ctx o : Nat) : State :=
  match (ctxAt s ctx).save with
  | none => s
  | some r => setCtx s ctx { ctxAt s ctx with save := some { r with used := r.used.filter (fun u => u.1 != o) } }

def saveBase (s : State) (ctx : Nat) : Word := ((ctxAt s ctx).save.map (·.base)).getD 0

/-- Writes bytes into the save region at an offset; a byte whose page has gone is not written. -/
def saveWrite (s : State) (ctx o : Nat) (bs : List Byte) : State :=
  match kernelWrite s ctx (saveBase s ctx + BitVec.ofNat 64 o) bs with
  | .ok t => t
  | .error (t, _) => t

/-! ### Traps (R351, R353) -/

def trapZero : TrapRec :=
  { kind := 0, space := 0xFF, flags := 0, code := 0, vpc := 0, lanes := 0, addr := 0, addrs := [] }

/-- The 32 bytes of a trap record (R351). -/
def trapBytes (t : TrapRec) : List Byte :=
  leBytes 4 (t.kind % 256) ++ leBytes 1 t.space ++ leBytes 1 t.flags.toNat ++ leBytes 2 (t.code % 2048) ++ leBytes 4 0 ++
    leBytes 4 t.vpc.toNat ++ leBytes 8 t.lanes.toNat ++ leBytes 8 t.addr.toNat

/-- Where a path stands at the portable level. -/
def pcVpc (s : State) (p : Path) : VPC :=
  match p.pc with
  | .word v => v
  | .bundle k ix =>
    let cl := s.h.clusters.values
    match (cl.flatMap (·.cache)).find? (fun t => t.key == k) with
    | none => VPC.of k.fidx 0
    | some t => ((t.points.find? (fun r => r.bidx == ix && r.kind == 0)).map (·.vpc)).getD (VPC.of k.fidx 0)

/-- Threads are killed: their lanes leave the path, and their barrier sets with the defect bit (R348). -/
def killLanes (s : State) (p : Nat) (m : Mask) : State :=
  let g := (warpAt s (warpOfPath p)).gang
  let s1 := m.lanes.foldl (fun s l => leaveBars s g (threadKey p l) true) s
  dropLanes s1 p m

/-- The lanes of a handler's path that have left, noted in its trap block (R355). -/
def noteLeft (s : State) (b : Nat) (ls : List Nat) (e : LaneExit) : State :=
  let bs := s.x.blocks.upd b (fun k => { k with left := k.left ++ ls.map (fun l => (l, e)) })
  { s with x := { s.x with blocks := bs } }

/-- Bytes of a trap block for `n` values (R353). -/
def blockBytes (lanes n : Nat) : Nat := 64 + n * 8 * lanes

/-- The key under which a path of a gang enters a function (R140). -/
def calleeKey (s : State) (gang fn : Nat) : TKey :=
  let k := (gangAt s gang).key
  { k with fidx := fn, mode := k.mode % 2, rpc := 0 }

/-- The key of the resume translation of a virtual PC (R140). -/
def resumeKey (s : State) (gang : Nat) (v : VPC) : TKey :=
  let k := calleeKey s gang (VPC.fn v)
  { k with mode := k.mode + 2, rpc := v }

/-- The translation image of a key in a cluster's cache (R162). -/
def imageAt (s : State) (cluster : Nat) (key : TKey) : Option TImage :=
  (clusterAt s cluster).cache.find? (fun t => t.key == key)

/-- The bundle at an index of an image, if it is one. -/
def bundleAt (t : TImage) (ix : Nat) : Option Bundle :=
  match t.bundles[ix]? with
  | none => none
  | some b => match decodeBundle b with | .ok x => some x | .error _ => none

/-- The virtual PC of the boundary before a bundle (R159). -/
def boundaryVpc (t : TImage) (ix : Nat) : Option VPC := (t.points.find? (fun r => r.bidx == ix && r.kind == 0)).map (·.vpc)

/-- A bundle of moves alone: what a prologue holds after its `frame.enter` (log 93). -/
def movesOnly (b : Bundle) : Bool :=
  [b.s0, b.s1, b.s2].all fun i => match i.opForm with
    | some (op, _) => [Op.spill, .fill, .vmov, .smov, .v2s, .s2v, .pset, .pclr, .waitCnt, .bnop].contains op
    | none => false

/-- Bundles of the prologue of a plain translation (R47; log 93). -/
def prologueLen (t : TImage) : Nat :=
  match bundleAt t 0 with
  | some b => match b.s0 with
    | .frameEnter _ => 1 + ((List.range t.bundles.length).tail.takeWhile (fun i =>
        boundaryVpc t i == boundaryVpc t 0 && ((bundleAt t i).map movesOnly).getD false)).length
    | _ => 0
  | none => 0

/-- Whether a path stands at the first bundle of a portable instruction: never within a prologue, nor within the bundles of one
instruction (R47, R375, R376). -/
def atInstruction (s : State) (pid : Nat) (p : Path) : Bool :=
  match p.pc with
  | .word _ => true
  | .bundle k ix =>
    match imageAt s (clusterOf (coreOfPath pid)) k with
    | none => true
    | some t =>
      let n := prologueLen t
      decide (n ≤ ix) && (ix == n || boundaryVpc t ix == none || boundaryVpc t ix != boundaryVpc t (ix - 1))

/-- A path that starts at a virtual PC waits for its resume translation, with the address of its restore area in s123 (R148, R163,
R355, R361). -/
def addResumed (s : State) (w : Nat) (p : Path) (v : VPC) (area : Word) : State :=
  let pid := freePath s w
  let key := resumeKey s (warpAt s w).gang v
  let s1 := setSreg (addPath s w { p with pc := .word v, resumed := some v, wait := some (.miss key) }) pid 123 area
  enqueue s1 (.translationMiss pid key)

/-- Slot words of a handler's frame: a handler saves no register (R403, R404). -/
def handlerWords (s : State) (g hfn : Nat) : Nat := frameWords (moduleAt s (gangAt s g).module) (calleeKey s g hfn)

/-- Enters the launch's handler with the whole path (R353 step 3): frame at s127 + s124, s0 to s7 the PARAM words. -/
def enterHandler (s : State) (p : Nat) (hfn : Nat) (b : Nat) : State :=
  let q := pathAt s p
  let w := warpOfPath p
  let g := gangAt s (warpAt s w).gang
  let r := (launchAt s g.launch).record
  let m := moduleAt s g.module
  let f := funcAt m hfn
  let regs := (List.range 8).foldl (fun x i => SMap.putD x 0 (sregKey w i) (lrParam r i)) s.x.sregs
  let s1 : State := { s with x := { s.x with sregs := regs } }
  let depth := q.frames.length + 1
  let s2 := q.mask.lanes.foldl (fun s l => (List.range f.nparam).foldl (fun s i =>
    setVal s (threadKey p l) depth i (lrParam r i)) s) s1
  let sp := q.s127 + q.s124
  let size := 16 + 4 * handlerWords s (warpAt s w).gang hfn
  let s3 := if sp.toNat + size ≤ stackSize s w then putHeader s2 w sp.toNat q.s125 q.s127 q.s124 q.mask.lanes else s2
  setPath s3 p { q with
    pc := .word (VPC.of hfn (blockEntry f.code 0))
    resumed := none
    frames := { fn := hfn, callVpc := pcVpc s q, wants := none, trap := some b } :: q.frames
    split := none
    wait := none
    s127 := sp
    s124 := BitVec.ofNat 64 size
    s126 := BitVec.ofNat 64 (physStack s3 w (sp.toNat + 16))
    readyAt := s.c.cycle
    atExit := false }

/-- The innermost trap block of a path's frames. -/
def handlerOf (p : Path) : Option Nat := p.frames.findSome? (·.trap)

/-- THE RETURN FROM A TRAP (R355): once every lane has left, the killed threads leave their sets, lanes with one resume
point form one path each, and the block is freed. After `trap` resume and skip both go on at the next instruction
(R190); after `unreach` both kill (R191). -/
def finishHandler (s : State) (b : Nat) : State :=
  match s.x.blocks.find? b with
  | none => s
  | some k =>
    if !k.mask.lanes.all (fun l => k.left.any (fun e => e.1 == l)) then s else
    let g := gangAt s (warpAt s k.warp).gang
    let m := moduleAt s g.module
    let code := (funcAt m (VPC.fn k.record.vpc)).code
    let ix := VPC.ix k.record.vpc
    let n := defsBefore m code ix
    let defines := definesValue m (nth code 0 ix)
    let depth := k.frames.length
    let s0 : State := freeSave { s with x := { s.x with blocks := s.x.blocks.del b } } k.ctx k.off
    let s1 := k.left.foldl (fun s e => match e.2 with
      | .skip v =>
        if k.record.kind = 2 then leaveBars s (warpAt s k.warp).gang (k.warp * 64 + e.1) true
        else if defines then setVal s (k.warp * 64 + e.1) depth n v else s
      | .kill => leaveBars s (warpAt s k.warp).gang (k.warp * 64 + e.1) true
      | .gone => s
      | .resume => if k.record.kind = 2 then leaveBars s (warpAt s k.warp).gang (k.warp * 64 + e.1) true else s) s0
    let isSkip : LaneExit → Bool := fun e => match e with | .skip _ => true | .resume => k.record.kind == 1 | _ => false
    let back := Mask.of ((k.left.filter (fun e => e.2 == .resume && k.record.kind != 1 && k.record.kind != 2)).map (·.1))
    let skip := Mask.of ((k.left.filter (fun e => isSkip e.2 && k.record.kind != 2)).map (·.1))
    let base : Path := { pathZero with frames := k.frames, split := k.split, s124 := k.s124, s125 := k.s125,
                                       s126 := k.s126, s127 := k.s127, readyAt := s.c.cycle }
    let area := saveBase s k.ctx + BitVec.ofNat 64 k.off
    let s2 := if back = 0 then s1 else addResumed s1 k.warp { base with mask := back } k.record.vpc area
    let s3 := if skip = 0 then s2 else
      addResumed s2 k.warp { base with mask := skip } (VPC.of (VPC.fn k.record.vpc) (nextIx code ix)) area
    if back = 0 ∧ skip = 0 then
      match k.split with
      | some r => joinCheck (splitFuel s3) s3 r
      | none => s3
    else s3

/-- A trap within a handler (R353): the report gives its kind, and the named threads are killed; the last one to leave ends
the handler. -/
def secondTrap (s : State) (p b kind : Nat) (addr : Word) (named : Mask) : State :=
  let gi := (warpAt s (warpOfPath p)).gang
  let s1 := postEvent s { gangFields s gi 0x01 (0x100 + kind) with addr := addr }
  finishHandler (killLanes (noteLeft s1 b named.lanes .gone) p named) b

/-- The key of the translation that a path at a word is in (R138, R140). -/
def wordKey (s : State) (pid : Nat) (v : VPC) : TKey :=
  let g := (warpAt s (warpOfPath pid)).gang
  match (pathAt s pid).resumed with
  | some r => resumeKey s g r
  | none => calleeKey s g v.fn

/-- The entries of the point record of a trap: value numbers, and saved registers of the caller (R159, R353). -/
def trapVals (s : State) (pid : Nat) (v : VPC) : List Nat :=
  let key := wordKey s pid v
  match (imageAt s (clusterOf (coreOfPath pid)) key).bind (fun t => t.points.find? (fun r => r.kind != 0 && r.vpc == v)) with
  | some r => r.locs.map (·.vnum)
  | none => pointVals (moduleAt s (gangAt s (warpAt s (warpOfPath pid)).gang).module) { key with mode := key.mode % 2 } v.ix

/-- What a lane's part of a trap block holds for an entry: the value, or the register of the caller. -/
def trapVal (s : State) (pid lane v : Nat) : Word :=
  if v < 0xFFF000 then getVal s (threadKey pid lane) (pathAt s pid).frames.length v
  else if v < 0xFFF000 + 1536 then (getVreg s (warpOfPath pid) (v - 0xFFF000) lane).setWidth 64
  else getSreg s pid (v - 0xFFF000 - 1536)

/-- TAKING A TRAP (R353): without a handler the gang fails; within a handler the named threads are killed, with
the second trap's kind in the report; without room in the save region the gang fails with CAUSE 0x3E; otherwise a trap
block is taken and written, and the whole path enters the handler, whose frame may overrun the stack in its turn. -/
def takeTrap (s : State) (p : Nat) (t : TrapRec) : State :=
  let q := pathAt s p
  let w := warpOfPath p
  let gi := (warpAt s w).gang
  let g := gangAt s gi
  let r := (launchAt s g.launch).record
  match handlerOf q with
  | some b => secondTrap s p b t.kind t.addr (if t.lanes &&& q.mask = 0 then q.mask else t.lanes &&& q.mask)
  | none =>
    if lrHandler r = 0xFFFF then failGang s gi (0x100 + t.kind) t.addr else
    let vs := trapVals s p t.vpc
    let lanes := Config.lanes g.die
    let len := roundUp (blockBytes lanes vs.length) 64
    match takeSave s g.ctx len with
    | none => failGang s gi 0x3E t.addr
    | some (s1, o) =>
      let b := s1.c.nextId
      let vals := vs.flatMap (fun v => (List.range lanes).flatMap (fun l => leBytes 8 (trapVal s p l v).toNat))
      let bytes := trapBytes t ++ leBytes 8 q.s124.toNat ++ leBytes 8 q.s125.toNat ++ leBytes 8 q.s126.toNat
        ++ leBytes 8 q.s127.toNat ++ vals
      let s2 := saveWrite (takeId s1) g.ctx o bytes
      let k : TrapBlock :=
      { warp := w, record := t, pc := .word t.vpc, frames := q.frames, split := q.split,
        s124 := q.s124, s125 := q.s125, s126 := q.s126, s127 := q.s127, mask := q.mask, left := [], ctx := g.ctx,
        off := o, len := len }
      let s3 : State := { s2 with x := { s2.x with blocks := s2.x.blocks.ins b k } }
      let tooDeep := decide (stackSize s w < (q.s127 + q.s124).toNat + 16 + 4 * handlerWords s gi (lrHandler r))
      let s4 := enterHandler s3 p (lrHandler r) b
      if tooDeep then secondTrap s4 p b 0x13 0 q.mask else s4

end Sys2Proof.Machine
end

