-- ==== Sys2Proof/Machine/Operands.lean ====
section
/-!
DEFINITION. Operands at both levels: what an operation reads, where its result goes, which lanes it acts on, how it
holds, traps and finishes (R25 to R30, R49 to R58, R145, R205).
-/
namespace Sys2Proof.Machine

/-! ### The issuing path -/

/-- What an operation sees of the path that issues it. `n` counts the values defined before the word (R25). -/
structure Ctx where
  pid : Nat
  warp : Nat
  gang : Nat
  die : Nat
  ctx : Nat
  depth : Nat
  fn : Nat
  ix : Nat
  n : Nat
  module : Module
  func : Func
  deriving DecidableEq, Repr

/-- The function and the word that a path stands at; at a bundle, those its waybill names (R159). -/
def ctxOf (s : State) (pid : Nat) : Ctx :=
  let p := pathAt s pid
  let g := gangAt s (warpAt s (warpOfPath pid)).gang
  let m := moduleAt s g.module
  let v := pcVpc s p
  { pid := pid, warp := warpOfPath pid, gang := (warpAt s (warpOfPath pid)).gang, die := g.die, ctx := g.ctx,
    depth := p.frames.length, fn := v.fn, ix := v.ix, n := defsBefore m (funcAt m v.fn).code v.ix, module := m,
    func := funcAt m v.fn }

def pathMask (s : State) (pid : Nat) : Mask := (pathAt s pid).mask
def firstLane (s : State) (pid : Nat) : Nat := ((pathMask s pid).lanes.head?).getD 0

/-- Lanes that an operation acts on: the active lanes, or in slot 0 the first alone, which stands for the warp (R56). -/
def actLanes (s : State) (pid : Nat) (f : Form) : List Nat :=
  match f with
  | .p _ => (pathMask s pid).lanes
  | .n w => if w.slot = 0 then [firstLane s pid] else (pathMask s pid).lanes

/-! ### Types -/

/-- The type of an index into the function's type table. -/
def typeAt (c : Ctx) (i : Nat) : Ty := (tyOfCode (nth c.func.types 0 i).toNat).getD .none

/-- The type that TYPE or NTYPE names; `variant` is where a binary8 variant stands natively. -/
def formTy (c : Ctx) (f : Form) : Ty :=
  match f with
  | .p w => typeAt c w.ty.toNat
  | .n w => tyOfNative w.ntype.toNat (w.aux.extractLsb' 0 5).toNat

/-- The type of value `v` of the function: the TYPE of the word that defines it. -/
def valueTy (c : Ctx) (v : Nat) : Ty :=
  typeAt c (tyOf (nth c.func.code 0 (nth (defWords c.module c.func.code) 0 v)))

/-- Operand A, B or C of a portable word. -/
def opndOf (w : PForm) (k : Nat) : Operand :=
  match k with | 0 => w.a | 1 => w.b | 2 => w.c | k => nth w.ext .none (k - 3)
/-- Source SA, SB or SC of a slot. -/
def srcCodeOf (w : NForm) (k : Nat) : Nat :=
  match k with | 0 => w.sa.toNat | 1 => w.sb.toNat | _ => w.sc.toNat

/-- The type that an operand carries: a back-reference has its value's type, natively NTYPE stands for it. -/
def opndTy (c : Ctx) (f : Form) (k : Nat) (dflt : Ty) : Ty :=
  match f with
  | .n _ => dflt
  | .p w => match opndOf w k with
    | .back d => valueTy c (c.n - d)
    | _ => dflt

/-! ### Portable operands (R28 to R30) -/

/-- The value of a portable operand in a lane. -/
def operandVal (s : State) (c : Ctx) (lane : Nat) (o : Operand) (t : Ty) (signed : Bool) : Word :=
  match o with
  | .back d => getVal s (threadKey c.pid lane) c.depth (c.n - d)
  | .imm v => immVal t v.toInt
  | .konst i => lowBits (tyWidth t) (nth c.func.consts 0 i.toNat)
  | .special v => specialVal t signed v.toNat
  | .none => 0
  | .index i => BitVec.ofNat 64 i.toNat

/-! ### Native operands (R51 to R54) -/

def latchOf (s : State) : Option Latch := s.c.issue.bind (·.latch)
/-- A vector register as the bundle's slots read it: as it stood before any slot wrote (R57). -/
def readVreg (s : State) (w r lane : Nat) : Lane32 :=
  match latchOf s with
  | some l => l.vregs.getD 0 (vregKey w r lane)
  | none => getVreg s w r lane
def readSreg (s : State) (pid r : Nat) : Word :=
  match latchOf s with
  | some l =>
    if r = 124 then l.s124 else if r = 125 then l.s125 else if r = 126 then l.s126 else if r = 127 then l.s127
    else l.sregs.getD 0 (sregKey (warpOfPath pid) r)
  | none => getSreg s pid r

/-- The thread's index within its workgroup: warp number times warp width plus lane. -/
def tidOf (s : State) (w lane : Nat) : Nat := (warpAt s w).num * Config.lanes (dieOfCore (coreOfWarp w)) + lane

/-- Special operands of R53. -/
def specialOperand (s : State) (c : Ctx) (lane : Nat) (code : Nat) : Word :=
  match code with
  | 1921 => BitVec.allOnes 64
  | 1922 => BitVec.ofNat 64 lane
  | 1923 => BitVec.ofNat 64 (lane % 32)
  | 1924 => BitVec.ofNat 64 (lane / 32)
  | 1925 => BitVec.ofNat 64 (tidOf s c.warp lane)
  | 1926 => BitVec.ofNat 64 (warpAt s c.warp).wg
  | 1927 => BitVec.ofNat 64 (coreOfWarp c.warp % 96)
  | 1928 => BitVec.ofNat 64 (c.warp % 16)
  | _ => 0

/-- Leading bits of the constants 192 to 195 of R54, as multiples of 2^-120: π, ln 2, log2 e, 1/π. -/
def mathConst (j : Nat) : Nat :=
  match j with
  | 192 => 4175892906503776358826876457663557747
  | 193 => 921350637599661305226344307672478454
  | 194 => 1917670637729674084946755258930051709
  | _ => 423106412050604757995711826056878702

/-- A constant-table entry as a value of a type (R54). -/
def constEntry (t : Ty) (j : Nat) : Word :=
  if isFloat t then
    let f := fmtOf t
    BitVec.ofNat 64 (if j < 128 then f.ofImm j
      else if j < 192 then (f.finish rne false false 1 ((j : Int) - 160) false).1
      else (f.finish rne false false (mathConst j) (-120) true).1)
  else BitVec.ofNat 64 j

/-- The value of a source code in a lane, of a type (R51, R52). -/
def nativeVal (s : State) (c : Ctx) (lane code : Nat) (t : Ty) : Word :=
  if code < 1536 then
    if tyWidth t = 64 then
      BitVec.ofNat 64 ((readVreg s c.warp code lane).toNat + 2 ^ 32 * (readVreg s c.warp (code + 1) lane).toNat)
    else lowBits (tyWidth t) (BitVec.ofNat 64 (readVreg s c.warp code lane).toNat)
  else if code < 1664 then lowBits (tyWidth t) (readSreg s c.pid (code - 1536))
  else if code < 1920 then lowBits (tyWidth t) (constEntry t (code - 1664))
  else if code = 2047 then 0
  else lowBits (tyWidth t) (specialOperand s c lane code)

/-- Operand `k` (0 A or SA, 1 B or SB, 2 C or SC) in a lane, of a type, read signed or not. -/
def src (s : State) (c : Ctx) (f : Form) (k : Nat) (t : Ty) (signed : Bool) (lane : Nat) : Word :=
  match f with
  | .p w => operandVal s c lane (opndOf w k) t signed
  | .n w => nativeVal s c lane (srcCodeOf w k) t

/-- Whether operand `k` is there. -/
def hasOpnd (f : Form) (k : Nat) : Bool :=
  match f with
  | .p w => opndOf w k != .none
  | .n w => srcCodeOf w k != 2047

def modOf (f : Form) : Nat := match f with | .p w => w.md.toNat | .n w => w.md.toNat
def auxOf (f : Form) : Nat := match f with | .p _ => 0 | .n w => w.aux.toNat

/-! ### Destinations (R25, R52) -/

/-- Where the result goes. -/
def dstOf (c : Ctx) (f : Form) (t : Ty) : Dst :=
  match f with
  | .p _ => .val c.depth c.n
  | .n w =>
    if w.dst.toNat < 1536 then .vreg w.dst.toNat (tyWidth t == 64)
    else if w.dst.toNat < 1664 then .sreg (w.dst.toNat - 1536)
    else .none

/-- Writes one lane's result of a width. -/
def putDst (s : State) (pid lane : Nat) (d : Dst) (v : Word) : State :=
  match d with
  | .none => s
  | .val depth n => setVal s (threadKey pid lane) depth n v
  | .vreg r wide =>
    let s1 := setVreg s (warpOfPath pid) r lane (v.setWidth 32)
    if wide then setVreg s1 (warpOfPath pid) (r + 1) lane ((v >>> 32).setWidth 32) else s1
  | .sreg r => setSreg s pid r v
  | .sbit r b => setSreg s pid r ((getSreg s pid r &&& ~~~(1#64 <<< b)) ||| ((v &&& 1) <<< b))

/-- Writes the results of several lanes; a scalar register takes the first active lane's. -/
def putLanes (s : State) (pid : Nat) (d : Dst) (rs : List (Nat × Word)) : State :=
  match d with
  | .sreg _ | .sbit _ _ => (rs.take 1).foldl (fun s r => putDst s pid r.1 d r.2) s
  | _ => rs.foldl (fun s r => putDst s pid r.1 d r.2) s

/-! ### Holding, finishing, trapping -/

/-- Values in flight that an operand names: the path waits until the load has landed (R131, R161). -/
def landedHold (s : State) (c : Ctx) (f : Form) : Option WaitOn :=
  match f with
  | .n _ => none
  | .p w =>
    let names := ([w.a, w.b, w.c] ++ w.ext).filterMap (fun o => match o with | .back d => some (c.n - d) | _ => none)
    ((warpAt s c.warp).inflight.find? (fun a => match a.dst with
      | .val d v => d == c.depth && names.contains v && (a.spread &&& pathMask s c.pid) != 0
      | _ => false)).map (fun a => .landed a.id)

/-- The path stays before its instruction and waits (R57). In a bundle the hold is noted for the whole bundle. -/
def hold (s : State) (pid : Nat) (f : Form) (w : WaitOn) : State :=
  match f with
  | .p _ => { updPath s pid (fun p => { p with wait := some w }) with c := { s.c with issue := none } }
  | .n _ => { s with c := { s.c with issue := s.c.issue.map (fun i => { i with hold := some w }) } }

/-- The issue is over. -/
def endIssue (s : State) : State := { s with c := { s.c with issue := none } }

/-- The path goes on at the next instruction word. -/
def nextWord (s : State) (c : Ctx) : State :=
  updPath s c.pid (fun p => { p with pc := .word (VPC.of c.fn (nextIx c.func.code c.ix)), readyAt := s.c.cycle })

/-- An operation has completed: at the portable level the path goes on; a bundle ends after its last slot. -/
def finish (s : State) (c : Ctx) (f : Form) : State :=
  match f with
  | .p _ => endIssue (nextWord s c)
  | .n _ => s

/-- The virtual PC that a trap of a slot reports (R58, R159). -/
def trapVpc (s : State) (c : Ctx) (f : Form) : VPC :=
  match f with
  | .p _ => VPC.of c.fn c.ix
  | .n w =>
    match (pathAt s c.pid).pc with
    | .word v => v
    | .bundle key ix =>
      match imageAt s (clusterOf (coreOfWarp c.warp)) key with
      | none => VPC.of c.fn c.ix
      | some t => ((t.points.find? (fun r => r.bidx == ix && r.kind == w.slot.toNat + 1)).map (·.vpc)).getD
          (VPC.of c.fn c.ix)

/-- A trap arises (R58, R353): at the portable level it is taken; in a bundle the one first in virtual order is noted. That of a
`frame.enter`, which sends the path back to the caller's call, is the first (R157). -/
def raise (s : State) (c : Ctx) (f : Form) (t : TrapRec) : State :=
  let t1 := { t with vpc := trapVpc s c f }
  match f with
  | .p _ => takeTrap (endIssue s) c.pid t1
  | .n _ =>
    let pick : Option TrapRec → Option TrapRec := fun o => match o with
      | some u => if u.kind = 0x13 ∨ u.vpc.toNat ≤ t1.vpc.toNat then some u else some t1
      | none => some t1
    { s with c := { s.c with issue := s.c.issue.map (fun i => { i with trap := pick i.trap }) } }

/-- A trap that names lanes without an address. -/
def plainTrap (kind : Nat) (lanes : List Nat) : TrapRec := { trapZero with kind := kind, lanes := Mask.of lanes }

/-- A trap that names lanes with their addresses (R351). -/
def addrTrap (kind space : Nat) (as : List (Nat × Word)) : TrapRec :=
  let a := ((as.head?).map (·.2)).getD 0
  { trapZero with kind := kind, space := if a = 0 then 0xFF else space, lanes := Mask.of (as.map (·.1)), addrs := as,
                  addr := a }

/-- Every operation issues from the path selected; a path with an operand in flight waits (R339, R131). -/
def issuing (f : Form) (s : State) (k : Ctx → Out) : Out :=
  match s.c.issue with
  | none => .fault .noIssuingPath
  | some i =>
    let c := ctxOf s i.pid
    match landedHold s c f with
    | some w => .next (hold s i.pid f w)
    | none => k c

/-- An operation that computes one result in each lane it acts on. -/
def laneOp (f : Form) (s : State) (t : Ctx → Ty) (g : Ctx → Nat → Word) : Out :=
  issuing f s fun c =>
    .next (finish (putLanes s c.pid (dstOf c f (t c)) ((actLanes s c.pid f).map (fun l => (l, g c l)))) c f)

/-! ### Exceptions of arithmetic (R203 to R206) -/

/-- The thread that an operation in a lane takes its modes from. -/
def modeThread (s : State) (c : Ctx) (lane : Nat) : Thread := threadAt s (threadKey c.pid lane)
/-- Trap enables of a mode word (R204). -/
def trapEnables (m : BitVec 32) : Flags := m.extractLsb' 8 6
def dynRound (m : BitVec 32) : Nat := (m.extractLsb' 0 3).toNat

def orFlags (s : State) (thread : Nat) (fl : Flags) : State :=
  if fl = 0 then s else setThread s thread { threadAt s thread with flags := (threadAt s thread).flags ||| fl }

/-- Lanes whose flags an operation sets: those it acts on, or from slot 0 every active lane (R59). -/
def flagLanes (s : State) (c : Ctx) (f : Form) (rs : List (Nat × Word × Flags)) : List (Nat × Flags) :=
  match f with
  | .p _ => rs.map (fun r => (r.1, r.2.2))
  | .n w => if w.slot = 0 then
      (pathMask s c.pid).lanes.map (fun l => (l, ((rs.head?).map (·.2.2)).getD 0))
    else rs.map (fun r => (r.1, r.2.2))

/-- Results with flags: each lane's flags are set; an enabled exception traps, and then no lane writes (R205). -/
def withFlags (s : State) (c : Ctx) (f : Form) (t : Ty) (kind : Nat) (rs : List (Nat × Word × Flags)) : State :=
  let fls := flagLanes s c f rs
  let s1 := fls.foldl (fun s r => orFlags s (threadKey c.pid r.1) r.2) s
  let hit := fls.filter (fun r => r.2 &&& trapEnables (modeThread s c r.1).mode != 0)
  if hit.isEmpty then finish (putLanes s1 c.pid (dstOf c f t) (rs.map (fun r => (r.1, r.2.1)))) c f
  else raise s1 c f { plainTrap kind (hit.map (·.1)) with flags := hit.foldl (fun a r => a ||| r.2) 0 }

/-- An operation that computes a result and flags in each lane. -/
def flagOp (f : Form) (s : State) (t : Ctx → Ty) (kind : Nat) (g : Ctx → Nat → Word × Flags) : Out :=
  issuing f s fun c =>
    .next (withFlags s c f (t c) kind ((actLanes s c.pid f).map (fun l => (l, (g c l).1, (g c l).2))))

end Sys2Proof.Machine
end

