-- ==== Sys2Proof/Machine/Integer.lean ====
section
/-!
DEFINITION. Integer, address, comparison and selection instructions (R166 to R181).
-/
namespace Sys2Proof.Machine

/-! ### Results as functions of the operand patterns -/

/-- Fits an exact result to the width: MOD 0 wraps, 1 saturates signed, 2 saturates unsigned (R169). -/
def fit (md w : Nat) (t : Int) : Word :=
  if md = 0 then wrap w t else if md = 2 then saturate false w t else saturate true w t

/-- How R169 reads an operand: unsigned under MOD 2, else signed. -/
def rd169 (md w : Nat) (v : Word) : Int := sz (md != 2) w v

def addVal (md w : Nat) (a b : Word) : Word := fit md w (rd169 md w a + rd169 md w b)
def subVal (md w : Nat) (a b : Word) : Word := fit md w (rd169 md w a - rd169 md w b)
def madVal (md w : Nat) (a b c : Word) : Word := fit md w (rd169 md w a * rd169 md w b + rd169 md w c)
def negVal (md w : Nat) (a : Word) : Word := fit md w (-(sx w a))
def absVal (md w : Nat) (a : Word) : Word := fit md w ((sx w a).natAbs : Int)
def mulVal (w : Nat) (a b : Word) : Word := wrap w (zx w a * zx w b : Nat)
/-- High half of the exact product (R168). -/
def mulhiVal (md w : Nat) (a b : Word) : Word := wrap w (sz (md == 0) w a * sz (md == 0) w b / (2 ^ w : Nat))
def minVal (md w : Nat) (a b : Word) : Word := wrap w (min (sz (md == 0) w a) (sz (md == 0) w b))
def maxVal (md w : Nat) (a b : Word) : Word := wrap w (max (sz (md == 0) w a) (sz (md == 0) w b))

/-- Quotient and remainder with the divide-by-zero flag (R170). -/
def divide (md w : Nat) (a b : Word) : Int × Int × Flags :=
  let x := sz (md == 0) w a
  let y := sz (md == 0) w b
  if y = 0 then
    (if md = 1 then 0 else if 0 ≤ x then (2 ^ (w - 1) : Nat) - 1 else -(2 ^ (w - 1) : Nat), x, fIntDiv)
  else (x.tdiv y, x.tmod y, fNone)

def divVal (md w : Nat) (a b : Word) : Word × Flags := (wrap w (divide md w a b).1, (divide md w a b).2.2)
def remVal (md w : Nat) (a b : Word) : Word × Flags := (wrap w (divide md w a b).2.1, (divide md w a b).2.2)

def andVal (w : Nat) (a b : Word) : Word := lowBits w (a &&& b)
def orVal (w : Nat) (a b : Word) : Word := lowBits w (a ||| b)
def xorVal (w : Nat) (a b : Word) : Word := lowBits w (a ^^^ b)
def andnVal (w : Nat) (a b : Word) : Word := lowBits w (a &&& ~~~b)
def notVal (w : Nat) (a : Word) : Word := lowBits w (~~~a)

/-- The amount of a shift or rotation (R171). -/
def amount (w : Nat) (b : Word) : Nat := zx w b % w
def shlVal (w : Nat) (a b : Word) : Word := wrap w (zx w a * 2 ^ amount w b : Nat)
def shrVal (md w : Nat) (a b : Word) : Word := wrap w (sz (md == 0) w a / (2 ^ amount w b : Nat))
def rotlVal (w : Nat) (a b : Word) : Word :=
  wrap w (zx w a * 2 ^ amount w b + zx w a / 2 ^ (w - amount w b) : Nat)
def rotrVal (w : Nat) (a b : Word) : Word :=
  wrap w (zx w a / 2 ^ amount w b + zx w a * 2 ^ (w - amount w b) : Nat)

/-- Number of 1 bits among the low `w`. -/
def popCount (v : Nat) (w : Nat) : Nat := ((List.range w).filter (fun i => v.testBit i)).length
def popcVal (w : Nat) (a : Word) : Word := wrap w (popCount (zx w a) w : Nat)
def clzVal (w : Nat) (a : Word) : Word := wrap w (w - bitLen (zx w a) : Nat)
def ctzVal (w : Nat) (a : Word) : Word :=
  wrap w (((List.range w).find? (fun i => (zx w a).testBit i)).getD w : Nat)
/-- Bits reversed: bit i to bit w - 1 - i. -/
def brevVal (w : Nat) (a : Word) : Word :=
  wrap w ((List.range w).foldl (fun n i => if (zx w a).testBit i then n + 2 ^ (w - 1 - i) else n) 0 : Nat)

/-- Position and clipped length of a field (R172). -/
def fieldPos (w : Nat) (pos : Word) : Nat := zx w pos % w
def fieldLen (w : Nat) (pos : Word) (len : Nat) : Nat := min len (w - fieldPos w pos)
def bfxVal (md w : Nat) (a pos : Word) (len : Nat) : Word :=
  let n := fieldLen w pos len
  if n = 0 then 0 else wrap w (sz (md == 0) n (BitVec.ofNat 64 (zx w a / 2 ^ fieldPos w pos)))
def bfiVal (w : Nat) (base ins pos : Word) (len : Nat) : Word :=
  let p := fieldPos w pos
  let n := fieldLen w pos len
  BitVec.ofNat 64 (zx w base % 2 ^ p + zx n ins * 2 ^ p + zx w base / 2 ^ (p + n) * 2 ^ (p + n))

/-- Byte selection (R174). -/
def bselVal (w : Nat) (a b ctl : Word) : Word :=
  let n := w / 8
  BitVec.ofNat 64 (leNat ((List.range n).map (fun k =>
    let f := bitsOf ctl.toNat (4 * k) 4
    if f ≥ 8 then BitVec.ofNat 8 (bitsOf b.toNat (8 * k) 8) else BitVec.ofNat 8 (bitsOf a.toNat (8 * (f % 8 % n)) 8))))

/-- The predicates of R176. -/
def icmpVal (pred w : Nat) (a b : Word) : Bool :=
  match pred with
  | 0 => zx w a == zx w b
  | 1 => zx w a != zx w b
  | 2 => decide (sx w a < sx w b)
  | 3 => decide (sx w a ≤ sx w b)
  | 4 => decide (zx w a < zx w b)
  | 5 => decide (zx w a ≤ zx w b)
  | 6 => decide (sx w a > sx w b)
  | _ => decide (zx w a > zx w b)

def boolWord (b : Bool) : Word := if b then 1 else 0

/-! ### The instructions -/

/-- One operand of TYPE. -/
def intOp1 (f : Form) (s : State) (signed : Bool) (g : Nat → Word → Word) : Out :=
  laneOp f s (fun c => formTy c f) fun c l =>
    let t := formTy c f
    g (tyWidth t) (src s c f 0 t signed l)

/-- Two operands of TYPE. -/
def intOp2 (f : Form) (s : State) (signed : Bool) (g : Nat → Word → Word → Word) : Out :=
  laneOp f s (fun c => formTy c f) fun c l =>
    let t := formTy c f
    g (tyWidth t) (src s c f 0 t signed l) (src s c f 1 t signed l)

/-- R169. -/
def execAdd (f : Form) (s : State) : Out := intOp2 f s (modOf f == 1) (addVal (modOf f))
/-- R169. -/
def execSub (f : Form) (s : State) : Out := intOp2 f s (modOf f == 1) (subVal (modOf f))
/-- R168. -/
def execMul (f : Form) (s : State) : Out := intOp2 f s false mulVal
/-- R168. -/
def execMulhi (f : Form) (s : State) : Out := intOp2 f s (modOf f == 0) (mulhiVal (modOf f))
/-- R169. -/
def execMad (f : Form) (s : State) : Out :=
  laneOp f s (fun c => formTy c f) fun c l =>
    let t := formTy c f
    let sg := modOf f == 1
    madVal (modOf f) (tyWidth t) (src s c f 0 t sg l) (src s c f 1 t sg l) (src s c f 2 t sg l)
/-- R170. -/
def execDiv (f : Form) (s : State) : Out :=
  flagOp f s (fun c => formTy c f) 0x04 fun c l =>
    let t := formTy c f
    divVal (modOf f) (tyWidth t) (src s c f 0 t (modOf f == 0) l) (src s c f 1 t (modOf f == 0) l)
/-- R170. -/
def execRem (f : Form) (s : State) : Out :=
  flagOp f s (fun c => formTy c f) 0x04 fun c l =>
    let t := formTy c f
    remVal (modOf f) (tyWidth t) (src s c f 0 t (modOf f == 0) l) (src s c f 1 t (modOf f == 0) l)
/-- R169. -/
def execNeg (f : Form) (s : State) : Out := intOp1 f s (modOf f == 1) (negVal (modOf f))
/-- R169. -/
def execAbs (f : Form) (s : State) : Out := intOp1 f s (modOf f == 1) (absVal (modOf f))
/-- R168. -/
def execMin (f : Form) (s : State) : Out := intOp2 f s (modOf f == 0) (minVal (modOf f))
/-- R168. -/
def execMax (f : Form) (s : State) : Out := intOp2 f s (modOf f == 0) (maxVal (modOf f))
/-- R168. -/
def execAnd (f : Form) (s : State) : Out := intOp2 f s false andVal
/-- R168. -/
def execOr (f : Form) (s : State) : Out := intOp2 f s false orVal
/-- R168. -/
def execXor (f : Form) (s : State) : Out := intOp2 f s false xorVal
/-- R168. -/
def execAndn (f : Form) (s : State) : Out := intOp2 f s false andnVal
/-- R168. -/
def execNot (f : Form) (s : State) : Out := intOp1 f s false notVal
/-- R171. -/
def execShl (f : Form) (s : State) : Out := intOp2 f s false shlVal
/-- R171. -/
def execShr (f : Form) (s : State) : Out := intOp2 f s (modOf f == 0) (shrVal (modOf f))
/-- R171. -/
def execRotl (f : Form) (s : State) : Out := intOp2 f s false rotlVal
/-- R171. -/
def execRotr (f : Form) (s : State) : Out := intOp2 f s false rotrVal
/-- R171. -/
def execPopc (f : Form) (s : State) : Out := intOp1 f s false popcVal
/-- R171. -/
def execClz (f : Form) (s : State) : Out := intOp1 f s false clzVal
/-- R171. -/
def execCtz (f : Form) (s : State) : Out := intOp1 f s false ctzVal
/-- R171. -/
def execBrev (f : Form) (s : State) : Out := intOp1 f s false brevVal

/-- The field length of `bfx` (operand C, AUX[6:0]) and `bfi` (E0, AUX[6:0]). -/
def fieldLenOf (f : Form) (k : Nat) : Nat :=
  match f with
  | .p w => immNat (opndOf w k)
  | .n w => (w.aux.extractLsb' 0 7).toNat
/-- R172. -/
def execBfx (f : Form) (s : State) : Out :=
  intOp2 f s (modOf f == 0) (fun w a pos => bfxVal (modOf f) w a pos (fieldLenOf f 2))
/-- R172. -/
def execBfi (f : Form) (s : State) : Out :=
  laneOp f s (fun c => formTy c f) fun c l =>
    let t := formTy c f
    bfiVal (tyWidth t) (src s c f 0 t false l) (src s c f 1 t false l) (src s c f 2 t false l) (fieldLenOf f 3)

/-- The source type of a conversion: the type of operand A, natively a code in AUX[3:0]. -/
def sourceTy (c : Ctx) (f : Form) : Ty :=
  match f with
  | .p _ => opndTy c f 0 .i32
  | .n w => tyOfNative (w.aux.extractLsb' 0 4).toNat 0
/-- R173: widening. -/
def execExt (f : Form) (s : State) : Out :=
  laneOp f s (fun c => formTy c f) fun c l =>
    let t := sourceTy c f
    wrap (tyWidth (formTy c f)) (sz (modOf f == 0) (tyWidth t) (src s c f 0 t false l))
/-- R173: narrowing. -/
def execTrunc (f : Form) (s : State) : Out :=
  laneOp f s (fun c => formTy c f) fun c l => lowBits (tyWidth (formTy c f)) (src s c f 0 (sourceTy c f) false l)

/-- The destination of a comparison: a scalar bit when AUX[6] is 1 (R177). -/
def predDst (c : Ctx) (f : Form) : Dst :=
  match f with
  | .p _ => dstOf c f .i1
  | .n w => match dstOf c f .i1 with
    | .sreg r => if w.aux.getLsbD 6 then .sbit r (w.aux.extractLsb' 0 6).toNat else .sreg r
    | d => d
/-- The operand type of a comparison (R176): that of A, else that of B; natively NTYPE. -/
def compareTy (c : Ctx) (f : Form) : Ty :=
  match f with
  | .p w => match w.a with
    | .back d => valueTy c (c.n - d)
    | _ => opndTy c f 1 .i32
  | .n _ => formTy c f
/-- Whether a predicate reads its operands as signed (R30). -/
def predSigned (pred : Nat) : Bool := pred == 2 || pred == 3 || pred == 6
/-- R176. -/
def execIcmp (f : Form) (s : State) : Out :=
  issuing f s fun c =>
    let t := compareTy c f
    let sg := predSigned (modOf f)
    let rs := (actLanes s c.pid f).map (fun l =>
      (l, boolWord (icmpVal (modOf f) (tyWidth t) (src s c f 0 t sg l) (src s c f 1 t sg l))))
    .next (finish (putLanes s c.pid (predDst c f) rs) c f)

/-- Type of an `adr` index (R175). -/
def indexTy (c : Ctx) (f : Form) : Ty :=
  match f with
  | .p _ => opndTy c f 1 .i32
  | .n w => if w.aux.getLsbD 11 then .i64 else .i32
/-- Scale of an `adr` (R175). -/
def scaleOf (f : Form) : Nat :=
  match f with
  | .p w => if w.c = .none then 1 else immNat w.c
  | .n w => (w.aux.extractLsb' 0 11).toNat
/-- Result type of `adr`: NTYPE 12 and 13 are addresses. -/
def adrVal (s : State) (c : Ctx) (f : Form) (l : Nat) : Word :=
  let t := formTy c f
  let w := tyWidth t
  let p := src s c f 0 t false l
  let it := indexTy c f
  match modOf f with
  | 0 => wrap w ((zx w p : Int) + sx (tyWidth it) (src s c f 1 it true l) * scaleOf f)
  | 1 => wrap w ((zx w p : Int) + (zx (tyWidth it) (src s c f 1 it false l) * scaleOf f : Nat))
  | 4 => wrap w ((zx w p : Int) - zx w (src s c f 1 t false l))
  | _ => p
/-- R175: pointer arithmetic, never faulting. -/
def execAdr (f : Form) (s : State) : Out := laneOp f s (fun c => formTy c f) (fun c l => adrVal s c f l)

/-- R174. -/
def execBsel (f : Form) (s : State) : Out :=
  laneOp f s (fun c => formTy c f) fun c l =>
    let t := formTy c f
    bselVal (tyWidth t) (src s c f 0 t false l) (src s c f 1 t false l) (src s c f 2 .i32 false l)

/-- The condition of `select`: an i1, natively bit 0 of a lane or a bit of a scalar (R178). -/
def condOf (s : State) (c : Ctx) (f : Form) (l : Nat) : Bool :=
  match f with
  | .p _ => (src s c f 0 .i1 false l).getLsbD 0
  | .n w => if w.aux.getLsbD 6 then (readSreg s c.pid (w.sa.toNat - 1536)).getLsbD (w.aux.extractLsb' 0 6).toNat
            else (nativeVal s c l w.sa.toNat .i1).getLsbD 0
/-- R178. -/
def execSelect (f : Form) (s : State) : Out :=
  laneOp f s (fun c => formTy c f) fun c l =>
    let t := formTy c f
    if condOf s c f l then src s c f 1 t false l else src s c f 2 t false l

/-- R179. -/
def execConst (f : PForm) (s : State) : Out :=
  laneOp (.p f) s (fun c => formTy c (.p f)) (fun c l => src s c (.p f) 0 (formTy c (.p f)) false l)

/-- The placement registers of R180. -/
def sregVal (s : State) (c : Ctx) (lane code : Nat) : Word :=
  let w := warpAt s c.warp
  let g := gangAt s c.gang
  let r := (launchAt s g.launch).record
  BitVec.ofNat 64 (match code with
    | 0 => tidOf s c.warp lane
    | 1 => lrThreads r
    | 2 => w.wg
    | 3 => lrWgs r
    | 4 => g.x | 5 => g.y | 6 => g.z
    | 7 => lrGridX r | 8 => lrGridY r | 9 => lrGridZ r
    | 10 => tidOf s c.warp lane % 32
    | 11 => g.die
    | 12 => Config.dieKind g.die
    | 13 => g.ctx % 64
    | 14 => coreOfWarp c.warp % 96
    | _ => c.warp % 16)
/-- R180, R181. -/
def execSreg (f : Form) (s : State) : Out :=
  laneOp f s (fun _ => .i32) fun c l =>
    sregVal s c l (match f with | .p w => immNat w.a | .n w => (w.aux.extractLsb' 0 8).toNat)

end Sys2Proof.Machine
end

