-- ==== Sys2Proof/Machine/Float.lean ====
section
/-!
DEFINITION. Floating, conversion and packing instructions, and the thread's flags and modes (R200 to R221).
-/
namespace Sys2Proof.Machine

/-- The rounding of an operation in a lane: MOD 5 reads the thread's dynamic mode, MOD 6 hashes its seed with the
coordinate, MOD 7 is RNE with flush (R200, R201). -/
def rndOf (th : Thread) (md : Nat) (k : Word) : Rnd :=
  match md with
  | 5 => { mode := dynRound th.mode, u := 0 }
  | 6 => { mode := 6, u := (srHash th.seed k).toNat / 2 ^ 32 }
  | 7 => rne
  | m => { mode := m, u := 0 }

def delivery (th : Thread) (md : Nat) : Deliver := { rnd := rndOf th md 0, sat := false, ftz := md == 7 }

def wordOf (r : Nat × Flags) : Word × Flags := (BitVec.ofNat 64 r.1, r.2)

/-- An arithmetic instruction of R208 with its operands as codes. -/
def fpOp (f : Form) (s : State) (g : Fmt → Deliver → Nat → Nat → Nat → Nat × Flags) : Out :=
  flagOp f s (fun c => formTy c f) 0x03 fun c l =>
    let t := formTy c f
    wordOf (g (fmtOf t) (delivery (modeThread s c l) (modOf f)) (src s c f 0 t false l).toNat
      (src s c f 1 t false l).toNat (src s c f 2 t false l).toNat)

/-- R208. -/
def execFadd (f : Form) (s : State) : Out := fpOp f s (fun m d a b _ => m.add d a b)
/-- R208. -/
def execFsub (f : Form) (s : State) : Out := fpOp f s (fun m d a b _ => m.sub d a b)
/-- R208. -/
def execFmul (f : Form) (s : State) : Out := fpOp f s (fun m d a b _ => m.mul d a b)
/-- R208. -/
def execFdiv (f : Form) (s : State) : Out := fpOp f s (fun m d a b _ => m.div d a b)
/-- R208. -/
def execFsqrt (f : Form) (s : State) : Out := fpOp f s (fun m d a _ _ => m.sqrt d a)
/-- R208. -/
def execFma (f : Form) (s : State) : Out := fpOp f s (fun m d a b c => m.fma d a b c)
/-- R210. -/
def execFmin (f : Form) (s : State) : Out := fpOp f s (fun m _ a b _ => m.minMax false (modOf f == 1) a b)
/-- R210. -/
def execFmax (f : Form) (s : State) : Out := fpOp f s (fun m _ a b _ => m.minMax true (modOf f == 1) a b)

/-- R208: bit W - 1 inverted. -/
def execFneg (f : Form) (s : State) : Out := intOp1 f s false (fun w a => lowBits w (a ^^^ 1#64 <<< (w - 1)))
/-- R208: bit W - 1 cleared. -/
def execFabs (f : Form) (s : State) : Out := intOp1 f s false (fun w a => lowBits w (a &&& ~~~(1#64 <<< (w - 1))))
/-- R208: bit W - 1 taken from b. -/
def execFcopysign (f : Form) (s : State) : Out :=
  intOp2 f s false (fun w a b => lowBits w ((a &&& ~~~(1#64 <<< (w - 1))) ||| (b &&& 1#64 <<< (w - 1))))

/-- The predicates of R212: the truth value, and invalid for a signalling predicate on a NaN or a signalling NaN. -/
def fcmpVal (m : Fmt) (pred a b : Nat) : Bool × Flags :=
  let x := m.decode a
  let y := m.decode b
  let uno := x.isNan || y.isNan
  let o := fcompare x y
  let signals := pred == 2 || pred == 3 || pred == 4 || pred == 5
  (match pred with
    | 0 => !uno && o == .eq
    | 1 => uno || o != .eq
    | 2 => !uno && o == .lt
    | 3 => !uno && o != .gt
    | 4 => !uno && o == .gt
    | 5 => !uno && o != .lt
    | 6 => uno
    | _ => !uno,
   if (signals && uno) || x.isSnan || y.isSnan then fInvalid else fNone)

/-- R212. -/
def execFcmp (f : Form) (s : State) : Out :=
  issuing f s fun c =>
    let t := compareTy c f
    let rs := (actLanes s c.pid f).map (fun l =>
      let r := fcmpVal (fmtOf t) (modOf f) (src s c f 0 t false l).toNat (src s c f 1 t false l).toNat
      (l, boolWord r.1, r.2))
    let fls := flagLanes s c f rs
    let s1 := fls.foldl (fun s r => orFlags s (threadKey c.pid r.1) r.2) s
    let hit := fls.filter (fun r => r.2 &&& trapEnables (modeThread s c r.1).mode != 0)
    .next (if hit.isEmpty then finish (putLanes s1 c.pid (predDst c f) (rs.map (fun r => (r.1, r.2.1)))) c f
      else raise s1 c f { plainTrap 0x03 (hit.map (·.1)) with flags := hit.foldl (fun a r => a ||| r.2) 0 })

/-- Source type with a binary8 variant in AUX[8:4] (R213) or AUX[4:0] (R214); natively a code in the AUX bits named. -/
def narrowSourceTy (c : Ctx) (f : Form) (codeAt varAt : Nat) : Ty :=
  match f with
  | .p _ => opndTy c f 0 .f32
  | .n w => tyOfNative (bitsOf w.aux.toNat codeAt 4) (bitsOf w.aux.toNat varAt 5)

/-- R213. -/
def execFclass (f : Form) (s : State) : Out :=
  laneOp f s (fun _ => .i32) fun c l =>
    let t := narrowSourceTy c f 0 4
    BitVec.ofNat 64 ((fmtOf t).classify (src s c f 0 t false l).toNat)

/-- Whether `.sat` is given: immediate 1 in C, or an AUX bit. -/
def satOf (f : Form) (bit : Nat) : Bool :=
  match f with
  | .p w => immOf w.c == 1
  | .n w => w.aux.getLsbD bit

/-- R214. -/
def execFcvt (f : Form) (s : State) : Out :=
  flagOp f s (fun c => formTy c f) 0x03 fun c l =>
    let t := formTy c f
    let t0 := narrowSourceTy c f 5 0
    let k := if modOf f = 6 then src s c f 1 .i64 false l else 0
    wordOf ((fmtOf t).convert (fmtOf t0) (rndOf (modeThread s c l) (modOf f) k) (satOf f 9)
      (src s c f 0 t0 false l).toNat)

/-- R215. -/
def execFrint (f : Form) (s : State) : Out :=
  flagOp f s (fun c => formTy c f) 0x03 fun c l =>
    let t := formTy c f
    wordOf ((fmtOf t).rint (rndOf (modeThread s c l) (modOf f) 0) (satOf f 0) (src s c f 0 t false l).toNat)

/-- R216: float to integer; C or AUX[4] gives `.zx`. -/
def execFcvti (f : Form) (s : State) : Out :=
  flagOp f s (fun c => formTy c f) 0x03 fun c l =>
    let t0 := sourceTy c f
    (fmtOf t0).toInt (rndOf (modeThread s c l) (modOf f) 0) (!satOf f 4) (tyWidth (formTy c f))
      (src s c f 0 t0 false l).toNat

/-- R216: integer to float. -/
def execIcvtf (f : Form) (s : State) : Out :=
  flagOp f s (fun c => formTy c f) 0x03 fun c l =>
    let t0 := sourceTy c f
    wordOf ((fmtOf (formTy c f)).ofInt (rndOf (modeThread s c l) (modOf f) 0)
      (sz (!satOf f 4) (tyWidth t0) (src s c f 0 t0 false l)))

/-- R217. -/
def execFscaleb (f : Form) (s : State) : Out :=
  flagOp f s (fun c => formTy c f) 0x03 fun c l =>
    let t := formTy c f
    wordOf ((fmtOf t).scale (rndOf (modeThread s c l) (modOf f) 0) (src s c f 0 t false l).toNat
      (sx 32 (src s c f 1 .i32 false l)))

/-- R217. -/
def execFlogb (f : Form) (s : State) : Out :=
  flagOp f s (fun _ => .i32) 0x03 fun c l =>
    let t := sourceTy c f
    (fmtOf t).logb (src s c f 0 t false l).toNat

/-- The binary8 type of `pk8` and `upk8`: a type-table index, or the variant in AUX[4:0] (R218, R219). -/
def b8TyOf (c : Ctx) (f : Form) (k : Nat) : Ty :=
  match f with
  | .p w => typeAt c (immNat (opndOf w k) % 16)
  | .n w => tyOfNative 9 (w.aux.extractLsb' 0 5).toNat

/-- R218: two conversions packed into bits 15:0; under `.sr` byte 1 takes coordinate k + 1. -/
def execPk8 (f : Form) (s : State) : Out :=
  flagOp f s (fun _ => .i32) 0x03 fun c l =>
    let t := b8TyOf c f 3
    let sat := match f with | .p w => (immNat (opndOf w 3)).testBit 4 | .n w => w.aux.getLsbD 5
    let k := if modOf f = 6 then src s c f 2 .i64 false l else 0
    let th := modeThread s c l
    let x := (fmtOf t).convert fmtF32 (rndOf th (modOf f) k) sat (src s c f 0 .f32 false l).toNat
    let y := (fmtOf t).convert fmtF32 (rndOf th (modOf f) (k + 1)) sat (src s c f 1 .f32 false l).toNat
    (BitVec.ofNat 64 (x.1 + 256 * y.1), x.2 ||| y.2)

/-- R219: byte `byte` of p as f32; raises nothing. -/
def execUpk8 (f : Form) (s : State) : Out :=
  laneOp f s (fun _ => .f32) fun c l =>
    let t := b8TyOf c f 2
    let i := match f with | .p w => immNat w.b | .n w => (w.aux.extractLsb' 5 2).toNat
    BitVec.ofNat 64 (fmtF32.convert (fmtOf t) rne false (bitsOf (src s c f 0 .i32 false l).toNat (8 * i) 8)).1

/-- R220: scaling by an sc8 block scale; C or AUX[0] gives `.div`. -/
def execBscale (f : Form) (s : State) : Out :=
  flagOp f s (fun c => formTy c f) 0x03 fun c l =>
    let t := formTy c f
    let e := (src s c f 1 .sc8 false l).toNat % 256
    if e = 255 then (BitVec.ofNat 64 (fmtOf t).nan, fNone)
    else wordOf ((fmtOf t).scale (rndOf (modeThread s c l) (modOf f) 0) (src s c f 0 t false l).toNat
      (if satOf f 0 then 127 - (e : Int) else (e : Int) - 127))

/-! ### Flags and modes (R221) -/

/-- R221: bits 5:0 hold the flags. -/
def execFexcRd (f : Form) (s : State) : Out :=
  laneOp f s (fun _ => .i32) fun c l => (modeThread s c l).flags.setWidth 64

/-- R221: clears the named flags in each active lane. -/
def execFexcClr (f : Form) (s : State) : Out :=
  issuing f s fun c =>
    let mask : Flags := match f with | .p w => BitVec.ofNat 6 (immNat w.a) | .n w => w.aux.extractLsb' 0 6
    .next (finish ((pathMask s c.pid).lanes.foldl (fun s l =>
      let t := threadAt s (threadKey c.pid l)
      setThread s (threadKey c.pid l) { t with flags := t.flags &&& ~~~mask }) s) c f)

/-- Whether a mode word obeys R204. -/
def modeOk (m : BitVec 32) : Bool := decide (dynRound m ≤ 4) && m &&& 0xFFFFC0F8#32 == 0

/-- R221: writes the mode word, and the seed when it is given; an operand-range fault changes nothing. -/
def execFmodeSet (f : Form) (s : State) : Out :=
  issuing f s fun c =>
    let ls := (pathMask s c.pid).lanes
    let md : Nat → BitVec 32 := fun l => (src s c f 0 .i32 false l).setWidth 32
    let bad := ls.filter (fun l => !modeOk (md l))
    .next (if bad.isEmpty then
      finish (ls.foldl (fun t l =>
        let th := threadAt t (threadKey c.pid l)
        setThread t (threadKey c.pid l)
          { th with mode := md l, seed := if hasOpnd f 1 then src s c f 1 .i64 false l else th.seed }) s) c f
      else raise s c f (plainTrap 0x10 bad))

/-- R221: the mode word, or the seed. -/
def execFmodeRd (f : Form) (s : State) : Out :=
  laneOp f s (fun _ => if modOf f = 1 then .i64 else .i32) fun c l =>
    let t := modeThread s c l
    if modOf f = 1 then t.seed else t.mode.setWidth 64

end Sys2Proof.Machine
end

