-- ==== Sys2Proof/Machine/Home.lean ====
section
/-!
DEFINITION. What happens at the home of an access: reads, writes, atomics and reductions of a word (R262 to R267), the
watchpoints compared there (R378, R379, R417), page walks and fault queues (R77 to R89), and the sending of ring
packets (R296, R299, R412).
-/
namespace Sys2Proof.Machine

/-! ### Watchpoints at the home (R378, R417) -/

/-- The party of an access: a thread by path, lane and virtual PC, or an engine of a core. -/
inductive Party where
  | thread (pid lane : Nat) (vpc : VPC)
  | engine (core code : Nat)
  deriving DecidableEq, Repr

/-- The debug gangs of a context resident on a cluster (R372, R416). -/
def debugGangs (s : State) (ctx cluster : Nat) : List Nat :=
  (s.x.gangs.filter (fun g => g.2.ctx == ctx && g.2.cluster == cluster && g.2.state != .retired &&
    lrDebug (launchAt s g.2.launch).record)).map (·.1)

/-- Whether a watchpoint of a cluster names the 8-byte word that holds a location. -/
def watchNames (s : State) (cluster : Nat) (w : Watchpoint) (l : Loc) : Bool :=
  match l with
  | .mem a _ => (watchHome s w).map (· / 8) == some (a / 8)
  | .scr core pa => w.addr.getLsbD 63 && clusterOf core == cluster &&
      (debugGangs s w.ctx cluster).any (fun g =>
        match scrHome s g (w.addr.setWidth 32) 8 with
        | some (c, p) => c == core && p / 8 == pa / 8
        | none => false)

/-- The 8-byte word that holds a location, as it stands at the home. -/
def homeWord (s : State) (l : Loc) : Word :=
  match l with
  | .mem a _ => BitVec.ofNat 64 (readMem s (a / 8 * 8) 8)
  | .scr core pa => BitVec.ofNat 64 (scrRead s core (pa / 8 * 8) 8)

/-- The record of a first hit (R417). -/
def hitRecord (cluster widx kind : Nat) (addr : Word) (who : Party) (before after : Word) : WatchRec :=
  match who with
  | .thread pid lane vpc =>
    { cluster := cluster, widx := widx, kind := BitVec.ofNat 8 kind, die := dieOfPath pid, acore := coreOfPath pid % 384,
      warp := warpOfPath pid % 16, lane := lane, vpc := vpc, addr := addr, before := before, after := after, hits := 1,
      sent := false }
  | .engine core code =>
    { cluster := cluster, widx := widx, kind := BitVec.ofNat 8 kind, die := dieOfCore core, acore := core % 384,
      warp := code, lane := 0xFF, vpc := 0xFFFFFFFF#32, addr := addr, before := before, after := after, hits := 1,
      sent := false }

/-- One watchpoint hit: a later hit before the stop is released only counts (R417). -/
def hitOne (s0 : State) (cluster widx kind : Nat) (w : Watchpoint) (who : Party) (before after : Word) : State :=
  let s := countCluster s0 cluster 41 1
  if s.d.hits.any (fun h => h.cluster == cluster && h.widx == widx) then
    let hs := s.d.hits.map (fun h => if h.cluster = cluster ∧ h.widx = widx then { h with hits := h.hits + 1 } else h)
    { s with d := { s.d with hits := hs } }
  else
    let r := hitRecord cluster widx kind w.addr who before after
    enqueue { s with d := { s.d with hits := s.d.hits ++ [r] } } (.watchHit cluster)

/-- Every watchpoint that the access hits; `kind` is one bit of the kinds byte of R416. -/
def noteWatch (s : State) (who : Party) (kind : Nat) (l : Loc) (before : Word) : State :=
  s.d.watches.foldl (fun t w =>
    if w.2.kinds.toNat &&& kind != 0 && watchNames s (w.1 / 8) w.2 l
    then hitOne t (w.1 / 8) (w.1 % 8) kind w.2 who before (homeWord s l) else t) s

/-! ### Accesses at the home -/

/-- The bytes a load by a core returns. -/
def locRead (s : State) (core : Nat) (l : Loc) (n : Nat) : List Byte :=
  match l with
  | .mem a ord => cacheRead s core a n ord
  | .scr c pa => scrBytes s c pa n
/-- The bytes at the home itself, past every cache. -/
def homeRead (s : State) (l : Loc) (n : Nat) : Word :=
  match l with
  | .mem a _ => BitVec.ofNat 64 (readMem s a n)
  | .scr c pa => BitVec.ofNat 64 (scrRead s c pa n)
/-- A store of a thread of a core. -/
def locStore (s : State) (core : Nat) (l : Loc) (n : Nat) (v : Word) : State :=
  match l with
  | .mem a _ => cacheStore s core a (leBytes n v.toNat)
  | .scr c pa => scrStore s c pa n v.toNat
/-- A write at the home by an atomic: the cluster caches of the die have dropped the line (R262). -/
def homeWrite (s : State) (l : Loc) (n : Nat) (v : Word) : State :=
  match l with
  | .mem a _ => writeMem s a n v.toNat
  | .scr c pa => scrStore s c pa n v.toNat
/-- The cluster caches of the home's die drop the line (R262). -/
def homeDrop (s : State) (die : Nat) (l : Loc) : State :=
  match l with
  | .mem a _ => dropLine s die a
  | .scr _ _ => s

/-- The operations of R266 on the bits of a word. -/
def applyOp (t : Ty) (op : Nat) (m v : Word) : Word :=
  let w := tyWidth t
  let f := fmtOf t
  let d : Deliver := { rnd := rne, sat := false, ftz := false }
  let fl := isFloat t
  match op with
  | 0 => if fl then BitVec.ofNat 64 (f.add d m.toNat v.toNat).1 else addVal 0 w m v
  | 1 => if fl then BitVec.ofNat 64 (f.minMax false false m.toNat v.toNat).1 else minVal 0 w m v
  | 2 => minVal 1 w m v
  | 3 => if fl then BitVec.ofNat 64 (f.minMax true false m.toNat v.toNat).1 else maxVal 0 w m v
  | 4 => maxVal 1 w m v
  | 5 => andVal w m v
  | 6 => orVal w m v
  | 7 => xorVal w m v
  | _ => lowBits w v

/-- The watch kind of an operation (R416). -/
def watchKind (op : AccOp) : Nat := match op with | .load => 1 | .store => 2 | _ => 4

/-- One lane's access performs at its home: the state after, and the value a load or atomic returns (R263, R267). -/
def performLane (s : State) (core : Nat) (who : Party) (op : AccOp) (t : Ty) (nc : Bool) (l : Loc) (v v2 : Word) :
    State × Word :=
  let n := tyBytes t
  let before := homeWord s l
  match op with
  | .load =>
    let r := BitVec.ofNat 64 (leNat (locRead s core l n))
    let s1 := match l with | .mem a ord => cacheFill s core a ord nc | .scr _ _ => s
    (noteWatch s1 who 1 l before, r)
  | .store => (noteWatch (locStore s core l n v) who 2 l before, 0)
  | .amo k =>
    let s1 := homeDrop s (dieOfCore core) l
    let m := homeRead s1 l n
    (noteWatch (homeWrite s1 l n (applyOp t k m v)) who 4 l before, m)
  | .cas =>
    let s1 := homeDrop s (dieOfCore core) l
    let m := homeRead s1 l n
    (noteWatch (if m = lowBits (tyWidth t) v then homeWrite s1 l n v2 else s1) who 4 l before, m)
  | .red k =>
    let s1 := homeDrop s (dieOfCore core) l
    (noteWatch (homeWrite s1 l n (applyOp t k (homeRead s1 l n) v)) who 4 l before, 0)

/-! ### Walks (R77, R78) -/

/-- The table and level at which a cached non-leaf entry lets a walk begin, the lowest level first (R77). -/
def walkStart (s : State) (ctx : Nat) (va : Word) : Nat × Nat :=
  let es := (s.m.wcache.getD [] (ctx / 64)).filter (fun e =>
    e.ctx == ctx && e.va == va.toNat / 2 ^ lvlShift e.level * 2 ^ lvlShift e.level)
  es.foldl (fun b e => if e.level < b.1 then (e.level, e.table) else b) (5, (ctxAt s ctx).root)

/-- A walk that uses the walk cache. -/
def cachedWalk (s : State) (ctx : Nat) (va : Word) : WalkRes :=
  if (ctxAt s ctx).state = .free then .fault 2 0
  else let b := walkStart s ctx va; walkFrom s (ctx / 64) va b.1 b.2

/-- The non-leaf entries that a walk reads: the table below each level (R77). -/
def walkTables (s : State) (die ctx : Nat) (va : Word) : Nat → Nat → List WalkEntry
  | 0, _ => []
  | fuel + 1, table =>
    let e : Word := BitVec.ofNat 64
      (readMem s (lpKey die (table + 8 * bitsOf va.toNat (lvlShift fuel) (lvlBits fuel))) 8)
    if pteV e && !pteLeaf e then
      { ctx := ctx, level := fuel, va := va.toNat / 2 ^ lvlShift fuel * 2 ^ lvlShift fuel, table := pteAddr e }
        :: walkTables s die ctx va fuel (pteAddr e)
    else []

/-- Adds non-leaf entries to the die's walk cache of 2048 entries (R77; log 12). -/
def wcacheFill (s : State) (die : Nat) (es : List WalkEntry) : State :=
  let old := s.m.wcache.getD [] die
  let w := s.m.wcache.ins die ((es ++ old.filter (fun e => !es.contains e)).take 2048)
  { s with m := { s.m with wcache := w } }

def setWalks (s : State) (w : SMap Walk) : State := { s with m := { s.m with walks := w } }
def setFaults (s : State) (w : SMap QFault) : State := { s with m := { s.m with faults := w } }

/-- The 64 KiB page of an address. -/
def pageOf (va : Word) : Nat := va.toNat / 65536

/-- A miss starts a walk, or joins one in flight for the page (R78): the state and the walk's number. A walk in flight covers its
64 KiB page, because the size of the leaf is known only when it ends (log 76). -/
def startWalk (s : State) (ctx core : Nat) (va : Word) (who : Waiter) : State × Nat :=
  match s.m.walks.first (fun w => w.2.ctx == ctx && pageOf w.2.va == pageOf va) with
  | some (i, w) => (setWalks s (s.m.walks.ins i { w with waiters := w.waiters ++ [who] }), i)
  | none =>
    let i := s.c.nextId
    let w : Walk := { die := ctx / 64, ctx := ctx, va := va, core := core, waiters := [who], stale := false }
    (setWalks (takeId s) (s.m.walks.ins i w), i)

/-- A queued fault of a page and context (R89). -/
def faultFor (s : State) (ctx : Nat) (va : Word) : Option (Nat × QFault) :=
  s.m.faults.first (fun q => q.2.ctx == ctx && pageOf q.2.va == pageOf va)

/-- A fault joins the entry of its page and context, or is queued (R89): the state and the entry's number. -/
def queueFault (s : State) (ctx : Nat) (va : Word) (kind owner space : Nat) (who : List Waiter) : State × Nat :=
  match faultFor s ctx va with
  | some (i, q) => (setFaults s (s.m.faults.ins i { q with waiters := q.waiters ++ who }), i)
  | none =>
    let i := s.c.nextId
    let q : QFault :=
      { die := ctx / 64, ctx := ctx, va := va, kind := kind, owner := owner, space := space, waiters := who, since := s.c.cycle }
    (setFaults (takeId s) (s.m.faults.ins i q), i)

/-- Whether the die's fault queue of 4096 entries has room (R89). -/
def faultRoom (s : State) (die : Nat) : Bool := decide ((s.m.faults.filter (fun q => q.2.die == die)).length < 4096)
/-- Whether a fault finds its place: an entry for its page and context, or room for one (R89). -/
def faultFits (s : State) (ctx : Nat) (va : Word) : Bool := (faultFor s ctx va).isSome || faultRoom s (ctx / 64)
/-- Whether one of the die's 1024 walkers is free (R77). -/
def walkRoom (s : State) (die : Nat) : Bool := decide ((s.m.walks.filter (fun w => w.2.die == die)).length < 1024)
/-- Whether a miss finds a walk at once: one in flight for its page, or a free walker (R78). -/
def walkFits (s : State) (ctx : Nat) (va : Word) : Bool :=
  walkRoom s (ctx / 64) || s.m.walks.any (fun w => w.2.ctx == ctx && pageOf w.2.va == pageOf va)

/-- A miss waits for a walker behind those of its cluster (R78). -/
def queueWalk (s : State) (ctx core : Nat) (va : Word) (who : Waiter) : State :=
  let cl := clusterOf core
  let q := s.m.walkq.ins cl (s.m.walkq.getD [] cl ++ [{ ctx := ctx, va := va, core := core, who := who }])
  { s with m := { s.m with walkq := q } }

/-- A miss that waits still does: its path waits for a walker, or its command is there. -/
def stillWaits (s : State) (r : WalkReq) : Bool :=
  match r.who with
  | .path p => (match (pathAt s p).wait with | some (.walker _) => true | _ => false)
  | .cmd i => (s.e.cmds.find? i).isSome

/-- The clusters of a die in round-robin order, from the one after the last served (R78). -/
def walkOrder (s : State) (die : Nat) : List Nat :=
  let last := s.m.walkRr.getD 3 die
  (List.range 4).map (fun i => die * 4 + (last + 1 + i) % 4)

/-- A free walker takes the oldest waiting miss of the next cluster in turn (R78); misses of paths that wait no longer are passed
over. -/
def serveWalk (s : State) (die : Nat) : State :=
  let live := fun cl => (s.m.walkq.getD [] cl).filter (stillWaits s)
  match (walkOrder s die).find? (fun cl => !(live cl).isEmpty) with
  | none => s
  | some cl =>
    match live cl with
    | [] => s
    | r :: rest =>
      let s1 : State := { s with m := { s.m with walkq := s.m.walkq.ins cl rest, walkRr := s.m.walkRr.ins die (cl % 4) } }
      let w := startWalk s1 r.ctx r.core r.va r.who
      match r.who with
      | .path p => updPath w.1 p (fun q => { q with wait := some (.walk w.2) })
      | .cmd _ => w.1

/-! ### In-flight counts (R80) -/

/-- The key of a page of `2^lg` bytes that begins at 64 KiB number `page`. -/
def useKey (ctx lg page : Nat) : Nat := (ctx * 64 + lg) * 2 ^ 48 + page
def setUse (s : State) (k n : Nat) : State := { s with m := { s.m with pageUse := s.m.pageUse.putD 0 k n } }
def addUse (s : State) (ctx : Nat) (p : BxPage) : State :=
  setUse s (useKey ctx p.lg p.page) (s.m.pageUse.getD 0 (useKey ctx p.lg p.page) + 1)
def dropUse (s : State) (ctx : Nat) (p : BxPage) : State :=
  setUse s (useKey ctx p.lg p.page) (s.m.pageUse.getD 0 (useKey ctx p.lg p.page) - 1)

/-- Whether a held page holds the 64 KiB of a number. -/
def BxPage.covers (p : BxPage) (n : Nat) : Bool := decide (p.page ≤ n) && decide (n < p.page + 2 ^ (p.lg - 16))

/-- Whether a command waits for a walk of a page. -/
def walksFor (s : State) (i n : Nat) : Bool :=
  s.m.walks.any (fun w => w.2.waiters.contains (.cmd i) && pageOf w.2.va == n) ||
    s.m.walkq.any (fun q => q.2.any (fun r => r.who == .cmd i && pageOf r.va == n))

/-- Walks that commands of a die wait for: each takes an entry of the in-flight table when it ends. -/
def cmdWalks (s : State) (die : Nat) : Nat :=
  let mine : List Waiter → Nat := fun ws => (ws.filter (fun w => match w with | .cmd _ => true | .path _ => false)).length
  ((s.m.walks.filter (fun w => w.2.die == die)).map (fun w => mine w.2.waiters)).sum +
    ((s.m.walkq.filter (fun q => q.1 / 4 == die)).map (fun q => mine (q.2.map (·.who)))).sum

/-- Whether the die's in-flight table of 16384 entries takes `n` more. -/
def useRoom (s : State) (die n : Nat) : Bool :=
  decide ((s.m.pageUse.filter (fun p => p.1 / 2 ^ 48 / 64 / 64 == die)).length + cmdWalks s die + n ≤ 16384)

/-- A command's walk has found a leaf: the command holds the page. -/
def holdPage (s : State) (i ctx : Nat) (va : Word) (lg : Nat) (e : Word) : State :=
  match s.e.cmds.find? i with
  | none => s
  | some k =>
    let p : BxPage := { page := va.toNat / 2 ^ lg * 2 ^ lg / 65536, lg := lg, leaf := e }
    if k.pages.contains p then s else addUse (setCmd s i { k with pages := k.pages ++ [p] }) ctx p

/-- A command's walk has faulted after the command started: the fault waits to be queued (R104). -/
def noteFault (s : State) (i : Nat) (va : Word) (kind owner : Nat) : State :=
  match s.e.cmds.find? i with
  | none => s
  | some k => enqueue (setCmd s i { k with faults := k.faults ++ [(va, kind, owner)] }) (.bxCommandPark k.core i)

/-! ### Uncorrectable data (R64, R65, R67) -/

/-- Whether bytes of a scratchpad meet a word with an uncorrectable error. -/
def lostBytes (s : State) (core pa n : Nat) : Bool :=
  s.e.lostScr.any (fun w => decide (8 * w < core * 2 ^ 18 + pa + n) && decide (core * 2 ^ 18 + pa < 8 * w + 8))

/-- Whether bytes at a home lie in a burst that the last scrub left uncorrectable, or in a lost word of scratch. -/
def badData (s : State) (l : Loc) (n : Nat) : Bool :=
  match l with
  | .mem a _ => s.m.badBursts.any (fun b => decide (b < a + n) && decide (a < b + 32))
  | .scr core pa => lostBytes s core pa n

/-! ### Ring packets (R296, R299, R412) -/

/-- Hops from die `a` to die `b` clockwise. -/
def cwHops (a b : Nat) : Nat := (b + 8 - a) % 8
/-- The direction of a route: 0 shortest, four hops away clockwise; 1 clockwise; 2 counter-clockwise (R299). -/
def routeDir (a b route : Nat) : Dir :=
  if route = 1 then .cw else if route = 2 then .ccw else if cwHops a b ≤ 4 then .cw else .ccw
def dirFlip (d : Dir) : Dir := match d with | .cw => .ccw | .ccw => .cw
def dirNat (d : Dir) : Nat := match d with | .cw => 0 | .ccw => 1

/-- The hops that a packet from die `a` to die `b` crosses. -/
def dirHops (a b : Nat) (d : Dir) : List Nat :=
  match d with
  | .cw => (List.range (cwHops a b)).map (fun i => (a + i) % 8)
  | .ccw => (List.range (cwHops b a)).map (fun i => (a + 7 - i) % 8)
/-- A direction, or the other one whatever the route when it crosses a hop that is down (R369). -/
def aroundDown (s : State) (a b : Nat) (d : Dir) : Dir := if (dirHops a b d).any (fun h => (hopAt s h).down) then dirFlip d else d

/-- Whether a page still belongs to an import: it lies in the window and has not been unmapped since (R85). -/
def importHas (i : ImportRec) (va : Nat) : Bool :=
  decide (i.window.toNat ≤ va) && decide (va < i.window.toNat + i.pages * 65536) &&
    !i.cut.any (fun c => decide (c.1 ≤ va) && decide (va < c.2))

/-- The route of the import that the peer leaf of a page belongs to; federated leaves take the shortest (R86, R299). -/
def importRoute (s : State) (ctx : Nat) (va e : Word) : Nat :=
  ((s.h.imports.first (fun i => i.2.ctx == ctx && i.2.odie == pteOdie e && i.2.exp == pteExp e
    && i.2.gen == pteEgen e && importHas i.2 va.toNat)).map (·.2.route)).getD 0

def injectKey (die : Nat) (d : Dir) (cluster : Nat) : Nat := (die * 2 + dirNat d) * 4 + cluster % 4
/-- Appends a packet to an injection queue of its source die. -/
def inject (s : State) (die cluster : Nat) (p : Pkt) : State :=
  let k := injectKey die p.dir cluster
  let q := s.r.inject.ins k (s.r.inject.getD [] k ++ [p])
  { s with r := { s.r with inject := q } }

/-- A new tracker of a die (R296): the state and its number. -/
def newTracker (s : State) (ctx : Nat) (va : Word) (who : Waiter) (lane : Nat) : State × Nat :=
  let i := s.c.nextId
  let t := s.r.trackers.ins i { die := ctx / 64, who := who, lane := lane, sent := s.c.cycle, ctx := ctx, va := va, reply := none }
  ({ takeId s with r := { s.r with trackers := t } }, i)

/-- Sends a request to the owner that a peer leaf names, for the 64 KiB page at `va` (R84, R296). -/
def sendPeer (s : State) (ctx cluster : Nat) (va e : Word) (kind flits : Nat) (body : PktBody) (who : Waiter)
    (lane : Nat) : State :=
  let r := newTracker s ctx va who lane
  inject r.1 (ctx / 64) cluster
    { kind := kind, dst := pteOdie e, src := ctx / 64, hops := 0, dir := aroundDown s (ctx / 64) (pteOdie e) (routeDir (ctx / 64) (pteOdie e) (importRoute s ctx va e)),
      vc1 := false, esc := false, flits := flits, trk := r.2, ctx := ctx % 64, tenant := (ctxAt s ctx).tenant,
      exp := pteExp e, gen := pteEgen e, off := ptePidx e * 65536 + va.toNat % 65536, ord := pteOrd e,
      route := importRoute s ctx va e, body := body, gtd := 0, errs := 0 }

end Sys2Proof.Machine
end

