-- ==== Sys2Proof/Machine/Memory.lean ====
section
/-!
DEFINITION. Direct accesses of threads: loads, stores, prefetches, atomics, reductions and fences (R88, R125, R128 to
R137, R262 to R276, R281 to R288), and the events that perform them.
-/
namespace Sys2Proof.Machine

/-- What a memory instruction asks for. -/
structure MemOp where
  op : AccOp
  ty : Ty
  acq : Bool
  rel : Bool
  nc : Bool
  sc : Bool
  scope : Nat
  det : Bool
  deriving DecidableEq, Repr

/-- The right an operation needs (R75). -/
def rightOf (op : AccOp) : Right := match op with | .load => .rd | .store => .wr | _ => .at

/-- Address spaces of R351: 0 global, 1 peer, 2 scratch, 3 stack. Natively AUX[5:4] tells global or peer memory, scratch
and stack apart, and bit 56 of the address the halves (R135). -/
def spaceOf (c : Ctx) (f : Form) (a : Word) : Nat :=
  match f with
  | .p _ => match opndTy c f 0 .ptrG with
    | .ptrP => 1 | .ptrS => 2 | .ptrK => 3 | _ => 0
  | .n w => match (w.aux.extractLsb' 4 2).toNat with
    | 0 => if a.getLsbD 56 then 1 else 0
    | 1 => 2
    | _ => 3

/-- The lanes that perform an access, and those that take a single lane's result (R135). -/
def accessLanes (s : State) (c : Ctx) (f : Form) : List Nat × Mask :=
  match f with
  | .p _ => ((pathMask s c.pid).lanes, pathMask s c.pid)
  | .n w => if 1536 ≤ w.sa.toNat then ([firstLane s c.pid], pathMask s c.pid)
            else ((pathMask s c.pid).lanes, pathMask s c.pid)

/-- A lane's address. -/
def addrOf (s : State) (c : Ctx) (f : Form) (lane : Nat) : Word :=
  match f with
  | .p _ => src s c f 0 (opndTy c f 0 .ptrG) false lane
  | .n w => nativeVal s c lane w.sa.toNat (if w.aux.extractLsb' 4 2 = 0 then .ptrG else .ptrS)

/-- What the check of one lane finds (R136): a home, a stack offset, a peer leaf, a fault by its trap kind, or a miss. -/
inductive Chk where
  | loc (l : Loc)
  | stk (o : Nat)
  | peer (e : Word)
  | bad (kind owner : Nat)
  | miss
  deriving DecidableEq, Repr

/-- The check against a leaf (R72, R75). -/
def chkLeaf (die : Nat) (va : Word) (lg : Nat) (e : Word) (r : Right) : Chk :=
  if !hasRight r e then .bad 9 0
  else if pteKind e = 2 then .peer e
  else .loc (.mem (leafKey die va lg e) (pteOrd e))

/-- Translation of a global or peer address: through the TLBs, or, once the kernel has not resolved the fault, by the
tables themselves (R77, R88). A federated fault that the kernel has not resolved fails as a peer fault (R86). -/
def chkVirt (s : State) (core ctx : Nat) (noFix : Bool) (va : Word) (r : Right) : Chk :=
  match tlbFind s core ctx va with
  | some t => chkLeaf (ctx / 64) va t.lg t.leaf r
  | none =>
    if noFix then
      match walkVa s ctx va with
      | .leaf e lg => chkLeaf (ctx / 64) va lg e r
      | .fault k o => .bad (if k = 3 then 0x0B else 5 + k) o
    else .miss

/-- The checks of one lane, in their order: alignment, address, translation (R136). -/
def chkLane (s : State) (c : Ctx) (noFix : Bool) (sp : Nat) (a : Word) (n : Nat) (r : Right) : Chk :=
  if a.toNat % n ≠ 0 then .bad 5 0
  else if sp = 2 then
    match scrHome s c.gang (a.setWidth 32) n with
    | some (core, pa) => .loc (.scr core pa)
    | none => .bad 0x0C 0
  else if sp = 3 then (if a.toNat % 2 ^ 32 + n ≤ stackSize s c.warp then .stk (a.toNat % 2 ^ 32) else .bad 0x0C 0)
  else if a.extractLsb' 57 7 != 0 || a.getLsbD 56 != (sp == 1) then .bad 6 0
  else chkVirt s (coreOfWarp c.warp) c.ctx noFix a r

/-- One lane of an access with what its check found. -/
structure LaneChk where
  lane : Nat
  va : Word
  chk : Chk
  deriving DecidableEq, Repr

def badKind (l : LaneChk) : Option Nat := match l.chk with | .bad k _ => some k | _ => none

/-- The earliest kind that any lane raised (R136). -/
def firstKind (ls : List LaneChk) : Option Nat :=
  ls.foldl (fun b l => match b, badKind l with
    | none, k => k
    | some x, some k => some (min x k)
    | b, none => b) none

/-- A trap that names every lane that raised a kind, with its address (R136, R351). -/
def kindTrap (ls : List LaneChk) (kind sp : Nat) : TrapRec :=
  let hit := ls.filter (fun l => badKind l == some kind)
  addrTrap kind sp (hit.map (fun l => (l.lane, l.va)))

/-- Clears the note that the kernel has not resolved the path's fault. -/
def clearNoFix (s : State) (pid : Nat) : State := updPath s pid (fun p => { p with noFix := false })

/-- Stack bytes of a lane (R128). -/
def stackRead (s : State) (w lane o n : Nat) : Word :=
  if n = 8 then BitVec.ofNat 64 (stackWord s w lane o + 2 ^ 32 * stackWord s w lane (o + 4))
  else BitVec.ofNat 64 (scrRead s (coreOfWarp w) (stackPa s w lane o) n)
def stackWrite (s : State) (w lane o n : Nat) (v : Word) : State :=
  if n = 8 then setStackWord (setStackWord s w lane o (v.toNat % 2 ^ 32)) w lane (o + 4) (v.toNat / 2 ^ 32)
  else scrWrite s (coreOfWarp w) (stackPa s w lane o) n v.toNat

/-- One lane performs now: at a home, or in its own stack. -/
def doLane (s : State) (c : Ctx) (m : MemOp) (vpc : VPC) (l : LaneChk) (v v2 : Word) : State × Word :=
  match l.chk with
  | .loc x => performLane s (coreOfWarp c.warp) (.thread c.pid l.lane vpc) m.op m.ty m.nc x v v2
  | .stk o =>
    match m.op with
    | .load => (s, stackRead s c.warp l.lane o (tyBytes m.ty))
    | _ => (stackWrite s c.warp l.lane o (tyBytes m.ty) v, 0)
  | _ => (s, 0)

/-- Lanes perform in ascending order; the results. -/
def doLanes (c : Ctx) (m : MemOp) (vpc : VPC) : State → List (LaneChk × Word × Word) → State × List (Nat × Word)
  | s, [] => (s, [])
  | s, (l, v, v2) :: rest =>
    let r := doLane s c m vpc l v v2
    let t := doLanes c m vpc r.1 rest
    (t.1, (l.lane, r.2) :: t.2)

/-- Results to their lanes: a single performing lane's result goes to every lane that takes it (R135). -/
def spreadResults (spread : Mask) (rs : List (Nat × Word)) : List (Nat × Word) :=
  match rs with
  | [r] => spread.lanes.map (fun l => (l, r.2))
  | rs => rs

/-- Whether two lanes name one word: one home, and behind a peer leaf one address (R271). -/
def sameWord (x y : LaneChk) : Bool :=
  x.chk == y.chk && (match x.chk with | .peer _ => x.va == y.va | _ => true)

/-- Folds one lane into the words so far. -/
def foldInto (t : Ty) (k : Nat) (x : LaneChk × Word × Word) :
    List (LaneChk × Word × Word) → List (LaneChk × Word × Word)
  | [] => [x]
  | y :: r => if sameWord y.1 x.1 then (y.1, applyOp t k y.2.1 x.2.1, y.2.2) :: r else y :: foldInto t k x r
/-- Lanes of one `red` that name one word fold into one value, in ascending lane order (R271). -/
def foldRed (t : Ty) (k : Nat) (xs : List (LaneChk × Word × Word)) : List (LaneChk × Word × Word) :=
  xs.foldl (fun a x => foldInto t k x a) []

/-! ### The die network (R274 to R276) -/

/-- Channel of a physical address (R66). -/
def channelOf (pa : Nat) : Nat :=
  (bitsOf pa 9 6) ^^^ (bitsOf pa 15 6) ^^^ (bitsOf pa 21 6) ^^^ (bitsOf pa 27 6) ^^^ (bitsOf pa 33 5)
/-- The router of a die that serves L2 slice `c` (R274): routers 0 to 3 serve two slices, 4 to 11 one. -/
def sliceRouter (c : Nat) : Nat := c / 16 * 12 + (if c % 16 < 8 then c % 16 / 2 else c % 16 - 4)
/-- The router of a die that serves a core. -/
def coreRouter (core : Nat) : Nat := core / 96 % 4 * 12 + core % 96 / 8
/-- The router at the home of an access. -/
def homeRouter (l : Loc) : Nat :=
  match l with
  | .mem a _ => sliceRouter (channelOf (a % 2 ^ 44))
  | .scr core _ => coreRouter core
/-- A flow: source router, destination router, and whether its packets must take the minimal route (R275, R276). -/
def flowOf (die src dst : Nat) (min : Bool) : Nat := ((die * 48 + src) * 48 + dst) * 2 + (if min then 1 else 0)
def flowDie (k : Nat) : Nat := k / 2 / 48 / 48
def flowSrc (k : Nat) : Nat := k / 2 / 48 % 48
def flowDst (k : Nat) : Nat := k / 2 % 48
def flowKey (core : Nat) (l : Loc) (min : Bool) : Nat := flowOf (dieOfCore core) (coreRouter core) (homeRouter l) min
def flowZero : Flow := { busy := 0, fixed := false, via := none }
/-- The address of a home as a number of its own. -/
def locKey (l : Loc) : Nat := match l with | .mem a _ => a | .scr core pa => 2 ^ 60 + core * 2 ^ 18 + pa
def netKey (die router vc : Nat) : Nat := die * 144 + router * 3 + vc
def setRouter (s : State) (k : Nat) (q : List NetPkt) : State :=
  { s with m := { s.m with routers := if q.isEmpty then s.m.routers.del k else s.m.routers.ins k q } }
def setFlows (s : State) (q : SMap Flow) : State := { s with m := { s.m with flows := q } }

/-- A packet of a flow is no longer in flight. -/
def leaveFlow (s : State) (k : Nat) : State :=
  match s.m.flows.find? k with
  | none => s
  | some fl => setFlows s (if fl.busy ≤ 1 then s.m.flows.del k else s.m.flows.ins k { fl with busy := fl.busy - 1 })

/-- The router of quadrant `q` at which the long link to quadrant `p` attaches (R274). -/
def attachAt (q p : Nat) : Nat := q * 12 + 8 + (p + 4 - q) % 4

/-- Consecutive routers of a route, from the one at which the packet stands. -/
def trimRoute : Nat → List Nat → List Nat
  | _, [] => []
  | at_, r :: rs => if r = at_ then trimRoute at_ rs else r :: trimRoute r rs

/-- The routers that a packet crosses after its source router: every pair of a quadrant is linked directly, and each pair of
quadrants shares one long link (R274, R275). -/
def routeOf (src dst : Nat) (via : Option Nat) : List Nat :=
  let a := src / 12
  let b := dst / 12
  trimRoute src (if a = b then [dst] else match via with
    | none => [attachAt a b, attachAt b a, dst]
    | some q => [attachAt a q, attachAt q a, attachAt q b, attachAt b q, dst])

/-- Whether a `red` may merge in the network (R272). -/
def mayMerge (s : State) (c : Ctx) (m : MemOp) (l : Loc) : Bool :=
  !m.rel && !m.det && (match l with | .mem _ ord => ord != 0 | .scr _ _ => true) &&
    !lrDetRed (launchAt s (gangAt s c.gang).launch).record && !(dieAt s c.die).det

/-- Whether a packet must take the minimal route whatever its links hold (R276): a strong page, a launch with the
deterministic-reductions flag, or a die in deterministic mode. -/
def mustBeMinimal (s : State) (c : Ctx) (l : Loc) : Bool :=
  (match l with | .mem _ ord => ord == 0 | .scr _ _ => false) ||
    lrDetRed (launchAt s (gangAt s c.gang).launch).record || (dieAt s c.die).det

/-- A packet enters a router queue; one that stands behind another is tried against it (R272). -/
def pushRouter (s : State) (die router vc : Nat) (p : NetPkt) : State :=
  let k := netKey die router vc
  match s.m.routers.getD [] k with
  | [] => setRouter s k [{ p with entering := false, vc := vc }]
  | q :: qs => enqueue (setRouter s k (q :: qs ++ [{ p with entering := true, vc := vc }])) (.redMerge die (router * 3 + vc))

/-- A lane's packet enters the network at the router of its core. A flow chooses its route when it has no packet in flight
(R275); one that must be minimal has none to choose (R276). -/
def enterRouter (s : State) (c : Ctx) (m : MemOp) (acc : Nat) (x : LaneChk × Word × Word) : State :=
  match x.1.chk with
  | .loc l =>
    let core := coreOfWarp c.warp
    let min := mustBeMinimal s c l
    let fk := flowKey core l min
    let fl := s.m.flows.getD { flowZero with fixed := min } fk
    let s1 := setFlows s (s.m.flows.ins fk { fl with busy := fl.busy + 1 })
    let s2 := if fl.busy = 0 && !min then enqueue s1 (.flowRouteChoice c.die (coreRouter core) (homeRouter l)) else s1
    let merge := match m.op with | .red _ => mayMerge s c m l | _ => false
    pushRouter s2 c.die (coreRouter core) 0
      { accs := [(c.warp, acc, x.1.lane)], addr := locKey l, op := m.op, ty := m.ty, v := x.2.1, merge := merge,
        entering := false, flow := fk, route := none, vc := 0 }
  | _ => s

/-- The packet at the head of a router queue goes on: to the next router of its route, on the next virtual channel after a long
link, or to the home (R274, R275). A packet whose flow has not chosen its route stays. -/
def movePacket (s : State) (k : Nat) : State :=
  match s.m.routers.getD [] k with
  | [] => s
  | p :: rest =>
    let here := k / 3 % 48
    let fl := s.m.flows.getD flowZero p.flow
    match p.route, fl.fixed with
    | none, false => s
    | r, _ =>
      let route := r.getD (routeOf (flowSrc p.flow) (flowDst p.flow) fl.via)
      let s1 := setRouter s k rest
      match route with
      | [] =>
        let t := leaveFlow s1 p.flow
        { t with m := { t.m with arrived := t.m.arrived ++ [p] } }
      | next :: more =>
        pushRouter s1 (k / 144) next (if next / 12 = here / 12 then p.vc else p.vc + 1) { p with route := some more }

/-- Every router queue moves its first packet (R275). -/
def moveNetwork (s : State) : State := s.m.routers.foldl (fun t q => movePacket t q.1) s

/-! ### Issue -/

/-- Whether an operation of a class waits because a counter would rise above 63 (R131). -/
def counterFull (w : Warp) (cls : Nat) : Bool :=
  match cls with
  | 0 => decide (63 ≤ w.ldc) | 1 => decide (63 ≤ w.stc) | _ => decide (63 ≤ w.rsc)

/-- Adds `d` to the counter of a class. -/
def bump (w : Warp) (cls : Nat) : Warp :=
  match cls with
  | 0 => { w with ldc := w.ldc + 1 } | 1 => { w with stc := w.stc + 1 } | _ => { w with rsc := w.rsc + 1 }
def unbump (w : Warp) (cls : Nat) : Warp :=
  match cls with
  | 0 => { w with ldc := w.ldc - 1 } | 1 => { w with stc := w.stc - 1 } | _ => { w with rsc := w.rsc - 1 }

/-- Whether a later access of the thread waits for this one (R283, R286): a strong page, or an acquire. -/
def waitsForIt (m : MemOp) (xs : List (LaneChk × Word × Word)) : Bool :=
  m.acq || xs.any (fun x => match x.1.chk with | .loc (.mem _ 0) => true | _ => false)

/-- Sends a global or remote access: each lane performs when its packet has reached its home (R131, R147). -/
def sendAccess (s : State) (c : Ctx) (f : Form) (m : MemOp) (cls : Nat) (spread : Mask)
    (xs : List (LaneChk × Word × Word)) : State :=
  let id := s.c.nextId
  let lanes := xs.filterMap (fun x => match x.1.chk with
    | .loc l => some { lane := x.1.lane, loc := l, v := x.2.1, v2 := x.2.2, va := x.1.va }
    | _ => none)
  let dst := match m.op with
    | .store => Dst.none
    | .red _ => Dst.none
    | _ => dstOf c f m.ty
  let a : Access :=
    { id := id, pid := c.pid, cls := cls, op := m.op, ty := m.ty, lanes := lanes, spread := spread, dst := dst, nc := m.nc,
      drop := m.acq && decide (4 ≤ m.scope), sc := m.sc, got := [], depth := (pathAt s c.pid).frames.length, vpc := trapVpc s c f }
  let s1 := updWarp (takeId s) c.warp (fun w => bump { w with inflight := w.inflight ++ [a] } cls)
  let s2 := xs.foldl (fun s x => enterRouter s c m id x) s1
  let s3 := finish s2 c f
  if waitsForIt m xs then updPath s3 c.pid (fun p => { p with wait := some (.landed id) }) else s3

/-- Kind and operands of a peer request (R296, R410). -/
def peerBody (m : MemOp) (v v2 : Word) : Nat × PktBody :=
  let n := tyBytes m.ty
  match m.op with
  | .load => (0, .read n)
  | .store => (2, .write ((List.range n).zip (leBytes n v.toNat)))
  | .amo k => (4, .amo k m.ty v)
  | .cas => (4, .cas m.ty v v2)
  | .red k => (6, .red k m.ty v)

/-- Sends one packet for each lane that goes to a peer, and holds the path (R130). -/
def sendPeers (s : State) (c : Ctx) (f : Form) (m : MemOp) (xs : List (LaneChk × Word × Word)) : State :=
  let s1 := xs.foldl (fun s x => match x.1.chk with
    | .peer e =>
      let b := peerBody m x.2.1 x.2.2
      sendPeer s c.ctx (clusterOf (coreOfWarp c.warp)) x.1.va e b.1 1 b.2 (.path c.pid) x.1.lane
    | _ => s) s
  hold s1 c.pid f .peer

/-- The replies that have come to a path, by lane. -/
def peerReplies (s : State) (pid : Nat) : List (Nat × Option PktBody) :=
  (s.r.trackers.filter (fun t => t.2.who == .path pid)).map (fun t => (t.2.lane, t.2.reply))
def dropTrackers (s : State) (w : Waiter) : State :=
  { s with r := { s.r with trackers := s.r.trackers.filter (fun t => t.2.who != w) } }

/-- Whether a scratch access reaches a region that a command holds (R125). -/
def lockHold (op : AccOp) (core pa n : Nat) : WaitOn :=
  match op with
  | .load => .loadLock core (pa / 512) ((pa + n - 1) / 512 - pa / 512 + 1)
  | _ => .unlocked core (pa / 512) ((pa + n - 1) / 512 - pa / 512 + 1)

/-- An access in flight of the warp with a lane that the thread of an own-scratchpad lane must not overtake (R127). -/
def ownBefore (s : State) (c : Ctx) (xs : List (LaneChk × Word × Word)) : Option Access :=
  let here := coreOfWarp c.warp
  (warpAt s c.warp).inflight.find? (fun a => a.lanes.any (fun l =>
    (match l.loc with | .scr core _ => core == here | .mem _ _ => false) &&
      xs.any (fun x => x.1.lane == l.lane && (match x.1.chk with | .loc (.scr core _) => core == here | _ => false))))

def isRemote (here : Nat) (x : LaneChk × Word × Word) : Bool :=
  match x.1.chk with | .loc (.scr core _) => core != here | _ => false
def isGlobal (x : LaneChk × Word × Word) : Bool := match x.1.chk with | .loc (.mem _ _) => true | _ => false

/-- Whether an access travels the die network: some lane names memory or another core's scratchpad. -/
def travels (c : Ctx) (xs : List (LaneChk × Word × Word)) : Bool := xs.any isGlobal || xs.any (isRemote (coreOfWarp c.warp))

/-- The counter of an access that travels (R131): 0 LDC, 1 STC, 2 RSC. -/
def counterOf (m : MemOp) (xs : List (LaneChk × Word × Word)) : Nat :=
  if xs.any isGlobal then (match m.op with | .store => 1 | .red _ => 1 | _ => 0) else 2

/-- What an access that has passed its checks waits for at issue: a full counter, an earlier access of its thread to its own
scratchpad, or a locked region (R125, R127, R131). -/
def accessWait (s : State) (c : Ctx) (m : MemOp) (xs : List (LaneChk × Word × Word)) : Option WaitOn :=
  let cls := counterOf m xs
  if travels c xs then
    if counterFull (warpAt s c.warp) cls then some (.counters (if cls = 0 then 1 else if cls = 1 then 2 else 4) 62) else none
  else match ownBefore s c xs with
    | some a => some (.landed a.id)
    | none => xs.findSome? (fun x => match x.1.chk with
      | .loc (.scr core pa) =>
        if waitOver s c.pid (lockHold m.op core pa (tyBytes m.ty)) then none else some (lockHold m.op core pa (tyBytes m.ty))
      | _ => none)

/-- The access performs: in the scratchpad of the core or the stack at once, else it is sent. -/
def doAccess (s : State) (c : Ctx) (f : Form) (m : MemOp) (spread : Mask) (xs : List (LaneChk × Word × Word)) : State :=
  if travels c xs then sendAccess s c f m (counterOf m xs) spread xs
  else
    let r := doLanes c m (trapVpc s c f) s xs
    let t := match m.op with
      | .store => r.1
      | .red _ => r.1
      | _ => putLanes r.1 c.pid (dstOf c f m.ty) (spreadResults spread r.2)
    finish (if m.acq && decide (4 ≤ m.scope) then dropLines t (clusterOf (coreOfWarp c.warp)) false else t) c f

/-- The access after every check has passed. -/
def performAccess (s : State) (c : Ctx) (f : Form) (m : MemOp) (spread : Mask) (xs : List (LaneChk × Word × Word)) :
    State :=
  match accessWait s c m xs with
  | some w => hold s c.pid f w
  | none => doAccess s c f m spread xs

/-- Every reply has come: refusals trap, else the results are written (R84, R130), and the lanes that go to no peer perform as
any access does. -/
def finishPeers (s : State) (c : Ctx) (f : Form) (m : MemOp) (sp : Nat) (spread : Mask) (rs : List (Nat × Option PktBody))
    (xs : List (LaneChk × Word × Word)) : State :=
  let refused := rs.filter (fun r => match r.2 with | some .refuse => true | _ => false)
  let rest := xs.filter (fun x => match x.1.chk with | .peer _ => false | _ => true)
  let far := rs.filterMap (fun r => match r.2 with
    | some (.data bs) => some (r.1, BitVec.ofNat 64 (leNat bs))
    | _ => none)
  let done := dropTrackers s (.path c.pid)
  if !refused.isEmpty then
    raise done c f (addrTrap 0x0B sp ((xs.filter (fun x => refused.any (fun r => r.1 == x.1.lane))).map
      (fun x => (x.1.lane, x.1.va))))
  else match (if rest.isEmpty then none else accessWait s c m rest) with
    | some w => hold s c.pid f w
    | none =>
      let t := match m.op with
        | .store => done
        | .red _ => done
        | _ => putLanes done c.pid (dstOf c f m.ty) (spreadResults spread far)
      if rest.isEmpty then
        finish (if m.acq && decide (4 ≤ m.scope) then dropLines t (clusterOf (coreOfWarp c.warp)) false else t) c f
      else doAccess t c f m (Mask.of (rest.map (·.1.lane))) rest

/-- The first lane without a translation waits for its walk (R77, R78). -/
def missWalk (s : State) (c : Ctx) (f : Form) (ls : List LaneChk) : State :=
  match ls.find? (fun x => x.chk == .miss) with
  | none => s
  | some x =>
    if walkFits s c.ctx x.va then
      let r := startWalk s c.ctx (coreOfWarp c.warp) x.va (.path c.pid)
      hold r.1 c.pid f (.walk r.2)
    else hold (queueWalk s c.ctx (coreOfWarp c.warp) x.va (.path c.pid)) c.pid f (.walker c.die)

/-- What the checks of the lanes lead to before anything performs: a trap, a wait for a walk or for the kernel's decision
on a fault (R88, R89), or `none` when every lane has passed (R136). -/
def checkOutcome (s : State) (c : Ctx) (f : Form) (sp : Nat) (ls : List LaneChk) : Option State :=
  let noFix := (pathAt s c.pid).noFix
  match firstKind ls with
  | some k =>
    if k = 5 ∨ k = 0x0C then some (raise s c f (kindTrap ls k sp))
    else if noFix then some (raise (clearNoFix s c.pid) c f (kindTrap ls k sp))
    else if ls.any (fun x => x.chk == .miss) && k != 6 then some (missWalk s c f ls)
    else (ls.find? (fun x => badKind x == some k)).map (fun x =>
      if faultFits s c.ctx x.va then
        let q := queueFault s c.ctx x.va (k - 5) (match x.chk with | .bad _ o => o | _ => 0) sp [.path c.pid]
        hold q.1 c.pid f (.fault q.2)
      else hold s c.pid f (.faultRoom c.die))
  | none => if ls.any (fun x => x.chk == .miss) then some (missWalk s c f ls) else none

/-- A thread access (R136): the checks of every lane, then translation, then the access. Nothing performs before every
lane has passed. -/
def memAccess (f : Form) (s : State) (mo : Ctx → MemOp) (vk v2k : Option Nat) (signed : Bool) : Out :=
  issuing f s fun c =>
    let m := mo c
    let act := accessLanes s c f
    let noFix := (pathAt s c.pid).noFix
    let val := fun (k : Option Nat) l => match k with | some i => src s c f i m.ty signed l | none => 0
    let ls := act.1.map (fun l =>
      let a := addrOf s c f l
      ({ lane := l, va := a, chk := chkLane s c noFix (spaceOf c f a) a (tyBytes m.ty) (rightOf m.op) } : LaneChk))
    let xs := ls.map (fun x => (x, val vk x.lane, val v2k x.lane))
    let ys := match m.op with | .red k => foldRed m.ty k xs | _ => xs
    let sp := spaceOf c f (((ls.head?).map (·.va)).getD 0)
    .next (if m.rel && !(warpAt s c.warp).inflight.isEmpty then hold s c.pid f .drained else
    match checkOutcome s c f sp ls with
    | some t => t
    | none =>
      let s1 := clearNoFix s c.pid
      match peerReplies s c.pid with
      | [] => if ys.any (fun y => match y.1.chk with | .peer _ => true | _ => false) then sendPeers s1 c f m ys
              else performAccess s1 c f m act.2 ys
      | rs => finishPeers s1 c f m sp act.2 rs ys)

/-- The scope code of an immediate operand, or AUX[2:0] (R132). -/
def scopeOf (f : Form) (k : Nat) : Nat :=
  match f with
  | .p w => immNat (opndOf w k)
  | .n w => (w.aux.extractLsb' 0 3).toNat

/-- R133 to R136. -/
def execLd (f : Form) (s : State) : Out :=
  memAccess f s (fun c => { op := .load, ty := formTy c f, acq := modOf f == 1 || modOf f == 3, rel := modOf f == 3,
                            nc := modOf f == 2, sc := modOf f == 3, scope := scopeOf f 1, det := false }) none none false
/-- R133 to R136. -/
def execSt (f : Form) (s : State) : Out :=
  memAccess f s (fun c => { op := .store, ty := formTy c f, acq := modOf f == 3, rel := modOf f == 1 || modOf f == 3,
                            nc := modOf f == 2, sc := false, scope := scopeOf f 2, det := false }) (some 1) none false

/-- Op and scope of the control of `amo` and `red` (R265, R268, R270). -/
def controlOp (f : Form) : Nat :=
  match f with | .p w => immNat w.c % 16 | .n w => (w.aux.extractLsb' 8 4).toNat
def controlScope (f : Form) : Nat :=
  match f with | .p w => immNat w.c / 16 % 8 | .n w => (w.aux.extractLsb' 0 3).toNat
def controlDet (f : Form) : Bool :=
  match f with | .p w => decide (immNat w.c / 128 % 2 = 1) | .n w => w.aux.getLsbD 7
def acqOf (md : Nat) : Bool := md == 1 || md == 3 || md == 4
def relOf (md : Nat) : Bool := md == 2 || md == 3 || md == 4

/-- R265 to R267. -/
def execAmo (f : Form) (s : State) : Out :=
  memAccess f s (fun c => { op := .amo (controlOp f), ty := formTy c f, acq := acqOf (modOf f), rel := relOf (modOf f),
                            nc := false, sc := false, scope := controlScope f, det := false }) (some 1) none
    (controlOp f == 1 || controlOp f == 3)
/-- R265, R267. -/
def execCas (f : Form) (s : State) : Out :=
  memAccess f s (fun c => { op := .cas, ty := formTy c f, acq := acqOf (modOf f), rel := relOf (modOf f), nc := false,
                            sc := false, scope := scopeOf f 3, det := false }) (some 1) (some 2) false
/-- R270. -/
def execRed (f : Form) (s : State) : Out :=
  memAccess f s (fun c => { op := .red (controlOp f), ty := formTy c f, acq := false, rel := modOf f == 2, nc := false,
                            sc := false, scope := controlScope f, det := controlDet f }) (some 1) none
    (controlOp f == 1 || controlOp f == 3)

/-- R137: fills the line, or is dropped. A prefetch has no access size, and the spec says of none when its address is misaligned:
every address counts as aligned (log 77). MOD 1 fills L2 only, which holds no copy of its own in this model. -/
def execPrefetch (f : Form) (s : State) : Out :=
  issuing f s fun c =>
    let core := coreOfWarp c.warp
    .next (finish ((accessLanes s c f).1.foldl (fun t l =>
      let a := addrOf s c f l
      if a.extractLsb' 56 8 != 0 || modOf f != 0 || !walkRoom s c.die then t else
      match walkVa s c.ctx a with
      | .fault _ _ => t
      | .leaf e lg =>
        if pteKind e != 0 || !pteRd e then t else cacheFill t core (leafKey c.die a lg e) (pteOrd e) false) s) c f)

/-- R288: every earlier access of the thread has performed; an acquire of scope `.die` or wider drops lines, and
`.full` the unordered ones too. -/
def execFence (f : Form) (s : State) : Out :=
  issuing f s fun c =>
    .next (if !(warpAt s c.warp).inflight.isEmpty then hold s c.pid f .drained
      else if modOf f != 1 && decide (4 ≤ scopeOf f 0)
      then finish (dropLines s (clusterOf (coreOfWarp c.warp)) (modOf f == 4)) c f
      else finish s c f)

/-! ### Events -/

/-- The channel group of a home has reported ready; CXL memory is reached over the die's spine link (R19, R68). -/
def homeReady (s : State) (die : Nat) (l : Loc) : Bool :=
  match l with
  | .mem a _ => if 2 ^ 50 ≤ a then (dieAt s die).spineReady
                else (dieAt s (a / 2 ^ 44)).mchGroups.getLsbD (channelOf (a % 2 ^ 44) / 8)
  | .scr _ _ => true

/-- Whether a lane can perform at its home: a store or atomic waits at a locked bank, and so does a load of the own
scratchpad (R125). -/
def laneFree (s : State) (a : Access) (l : LaneAcc) : Bool :=
  homeReady s (dieOfPath a.pid) l.loc && (match a.op, l.loc with
    | .load, .scr core pa => core != coreOfPath a.pid || waitOver s a.pid (lockHold .load core pa (tyBytes a.ty))
    | op, .scr core pa => waitOver s a.pid (lockHold op core pa (tyBytes a.ty))
    | _, .mem _ _ => true)

/-- The access and the lane that a packet's entry names. -/
def accLane (s : State) (q : Nat × Nat × Nat) : Option (Access × LaneAcc) :=
  ((warpAt s q.1).inflight.find? (fun a => a.id == q.2.1)).bind (fun a =>
    (a.lanes.find? (fun l => l.lane == q.2.2)).map (fun l => (a, l)))

/-- Whether the lane of a packet can perform now; a packet whose access is gone is only dropped. -/
def pktFree (s : State) (p : NetPkt) : Bool :=
  match p.accs.head?.bind (accLane s) with
  | none => true
  | some (a, l) => laneFree s a l

/-- The packets that can perform now: no packet of their flow has arrived before them and waits (R275). -/
def performable (s : State) : List Nat → List NetPkt → List NetPkt
  | _, [] => []
  | seen, p :: ps => (if !seen.contains p.flow && pktFree s p then [p] else []) ++ performable s (p.flow :: seen) ps

def pktWarp (p : NetPkt) : Option Nat := (p.accs.head?).map (·.1)

/-- The packet that performs next for a warp. -/
def nextPacket (s : State) (w : Nat) : Option NetPkt := (performable s [] s.m.arrived).find? (fun p => pktWarp p == some w)

/-- One lane of an access has performed. With the last one its results are written, its counter falls, and it is no longer in
flight (R131, R147, R269). -/
def laneDone (s : State) (q : Nat × Nat × Nat) (v : Word) : State :=
  match (warpAt s q.1).inflight.find? (fun a => a.id == q.2.1) with
  | none => s
  | some a =>
    let b : Access := { a with lanes := a.lanes.filter (fun l => l.lane != q.2.2), got := a.got ++ [(q.2.2, v)] }
    if b.lanes.isEmpty then
      updWarp (putLanes s b.pid b.dst (spreadResults b.spread b.got)) q.1
        (fun w => unbump { w with inflight := w.inflight.eraseP (fun x => x.id == q.2.1) } a.cls)
    else updWarp s q.1 (fun w => { w with inflight := w.inflight.map (fun x => if x.id = q.2.1 then b else x) })

/-- Data that a load, atomic or reduction consumes is uncorrectable (R64, R130): a load traps at its own instruction, with the
state as it stood there, while its path still runs the lane in that activation; any other consumer fails the gang. -/
def lostData (s : State) (a : Access) (l : LaneAcc) : State :=
  let p := pathAt s a.pid
  let g := (warpAt s (warpOfPath a.pid)).gang
  let there := (s.x.paths.find? a.pid).isSome && p.mask.getLsbD l.lane && decide (a.depth ≤ p.frames.length) && !p.halted
  if a.op = .load ∧ there = true then
    let s1 := updPath s a.pid (fun q => { q with pc := .word a.vpc, frames := q.frames.drop (q.frames.length - a.depth), wait := none })
    takeTrap s1 a.pid { trapZero with kind := 0x18, code := 7, vpc := a.vpc, lanes := Mask.of [l.lane], addr := l.va,
                                      space := 0, addrs := [(l.lane, l.va)] }
  else failGang s g 7 l.va

/-- A packet performs at its home, and every access whose lane it carries has its result (R263, R267, R272). An acquire of scope
`.die` or wider drops lines first (R286), and a `.sc` load is served at the home (R287). -/
def performPkt (s : State) (p : NetPkt) : State :=
  let s1 : State := { s with m := { s.m with arrived := s.m.arrived.erase p } }
  match p.accs.head?.bind (accLane s) with
  | none => s1
  | some (a, l) =>
    let core := coreOfPath a.pid
    let reads := match a.op with | .store => false | _ => true
    if reads && badData s l.loc (tyBytes a.ty) then p.accs.foldl (fun t q => laneDone t q 0) (lostData s1 a l) else
    let s2 := if a.drop then dropLines s1 (clusterOf core) false else s1
    let s3 := match l.loc with | .mem x _ => if a.sc then dropOwnLine s2 core x else s2 | .scr _ _ => s2
    let v := match a.op with | .red _ => p.v | _ => l.v
    let r := performLane s3 core (.thread a.pid l.lane a.vpc) a.op a.ty a.nc l.loc v l.v2
    p.accs.foldl (fun t q => laneDone t q r.2) r.1

/-- The next packet of a warp's accesses that has arrived performs at its home (R131, R147, R269, R273). -/
def execAccessPerformed (warp : Nat) (s : State) : Out :=
  if !s.m.arrived.any (fun p => pktWarp p == some warp) then .fault .noSuchAgent else
  .next (match nextPacket s warp with | some p => performPkt s p | none => s)

/-- Ends the wait of a path. -/
def wake (s : State) (pid : Nat) : State := updPath s pid (fun p => { p with wait := none, readyAt := s.c.cycle })
def wakePaths (s : State) (ws : List Waiter) : State :=
  ws.foldl (fun s w => match w with | .path p => wake s p | .cmd _ => s) s

/-- What a found leaf gives those who wait: paths replay their access, and commands hold the page. -/
def giveLeaf (s : State) (ctx : Nat) (va : Word) (lg : Nat) (e : Word) (ws : List Waiter) : State :=
  ws.foldl (fun s w => match w with | .path p => wake s p | .cmd i => holdPage s i ctx va lg e) s

/-- What a fault of a walk gives those who wait: paths wait for the kernel, and commands park. -/
def giveFault (s : State) (ctx : Nat) (va : Word) (kind owner : Nat) (ws : List Waiter) : State :=
  let isPath : Waiter → Bool := fun w => match w with | .path _ => true | .cmd _ => false
  let ps := ws.filter isPath
  let q := queueFault s ctx va kind owner (if va.getLsbD 56 then 1 else 0) ps
  let s1 := if ps.isEmpty then s else q.1
  ws.foldl (fun s w => match w with
    | .path p => updPath s p (fun r => { r with wait := some (.fault q.2) })
    | .cmd i => noteFault s i va kind owner) s1

/-- A page walk ends (R77, R78, R89): a leaf fills the TLBs and the accesses that wait replay; a fault is queued for the
kernel; a walk whose range was invalidated meanwhile runs again. The free walker takes the next waiting miss. -/
def execWalkComplete (die wid : Nat) (s : State) : Out :=
  match s.m.walks.find? wid with
  | none => .fault .noSuchAgent
  | some w =>
    if w.die ≠ die then .fault .noSuchAgent
    else if w.stale then .next (setWalks s (s.m.walks.ins wid { w with stale := false }))
    else
      match cachedWalk s w.ctx w.va with
      | .leaf e lg =>
        let s1 := setWalks s (s.m.walks.del wid)
        let b := walkStart s w.ctx w.va
        let s2 := wcacheFill s1 die (walkTables s die w.ctx w.va b.1 b.2)
        let s3 := tlbFill s2 w.core { ctx := w.ctx, va := w.va.toNat / 2 ^ lg * 2 ^ lg, lg := lg, leaf := e }
        .next (serveWalk (giveLeaf s3 w.ctx w.va lg e w.waiters) die)
      | .fault k o =>
        if !faultFits s w.ctx w.va then .next s else
        .next (serveWalk (giveFault (setWalks s (s.m.walks.del wid)) w.ctx w.va k o w.waiters) die)

/-- Whether two neighbours of a router queue merge (R272). -/
def joins (a b : NetPkt) : Bool :=
  a.merge && b.merge && a.addr == b.addr && a.op == b.op && a.ty == b.ty

/-- The packet of two neighbours: it keeps the place of the one ahead (R272). -/
def merged (a b : NetPkt) : NetPkt :=
  { a with accs := a.accs ++ b.accs, v := applyOp a.ty (match a.op with | .red k => k | _ => 0) a.v b.v }

/-- The packets that have entered a queue are tried, in order, each against the one then directly ahead of it: the queue, and
the flows of those that merged away. -/
def mergeEntering : List NetPkt → List NetPkt → List Nat → List NetPkt × List Nat
  | done, [], gone => (done, gone)
  | done, p :: ps, gone =>
    match p.entering, done.getLast? with
    | true, some a => if joins a p then mergeEntering (done.dropLast ++ [merged a p]) ps (gone ++ [p.flow])
                      else mergeEntering (done ++ [{ p with entering := false }]) ps gone
    | _, _ => mergeEntering (done ++ [{ p with entering := false }]) ps gone

/-- R272: `queue` is router·3 + virtual channel. -/
def execRedMerge (die queue : Nat) (s : State) : Out :=
  if 144 ≤ queue then .fault .noSuchAgent else
  let k := die * 144 + queue
  let r := mergeEntering [] (s.m.routers.getD [] k) []
  .next (r.2.foldl leaveFlow (setRouter s k r.1))

/-- The route of a flow without packets in flight (R275, R276): minimal under deterministic mode or within a quadrant,
or while the direct long link has a quarter of its slots free; else through the quadrant whose two links have the most. -/
def routeVia (s : State) (die src dst : Nat) : Option Nat :=
  let a := src / 12
  let b := dst / 12
  let free := fun x y => Config.linkQuarters s.c.fresh (die * 4 + x) y
  if a = b ∨ (dieAt s die).det = true ∨ 1 ≤ free a b then none else
  ((List.range 4).filter (fun q => q != a && q != b)).foldl (fun best q => match best with
    | none => some q
    | some r => if free a r + free r b < free a q + free q b then some q else some r) none

/-- R275. -/
def execFlowRouteChoice (die src dst : Nat) (s : State) : Out :=
  if 48 ≤ src ∨ 48 ≤ dst then .fault .noSuchAgent else
  let k := flowOf die src dst false
  match s.m.flows.find? k with
  | none => .next s
  | some fl => if fl.fixed then .next s
    else .next (takeFree (setFlows s (s.m.flows.ins k { fl with fixed := true, via := routeVia s die src dst })))

end Sys2Proof.Machine
end

