-- ==== Sys2Proof/Machine/Barrier.lean ====
section
/-!
DEFINITION. Barriers, `yield`, the exchange of values between clusters, and the pending-path stack (R277 to R280, R342
to R349).
-/
namespace Sys2Proof.Machine

/-! ### Barriers (R343 to R348) -/

/-- A lane at a barrier word: the word, its home, and the thread's slot for it. -/
structure BarLane where
  lane : Nat
  word : BitVec 32
  home : Option (Nat × Nat)
  slot : Option BarSlot
  full : Bool
  deriving DecidableEq, Repr

def barLanes (s : State) (c : Ctx) (f : Form) : List BarLane :=
  (pathMask s c.pid).lanes.map (fun l =>
    let a : BitVec 32 := (src s c f 0 .ptrS false l).setWidth 32
    let t := threadAt s (threadKey c.pid l)
    { lane := l, word := a, home := scrHome s c.gang a 8, slot := t.bars.find? (fun b => b.word == a),
      full := decide (8 ≤ t.bars.length) })

def barHome (x : BarLane) : Nat × Nat := x.home.getD (0, 0)
/-- The word at its bank. -/
def barValue (s : State) (x : BarLane) : Nat := scrRead s (barHome x).1 (barHome x).2 8

/-- A recorded arrival in the word's current phase (R347). -/
def arrivedNow (s : State) (x : BarLane) : Bool :=
  match x.slot with
  | some b => b.arr == some (BitVec.ofNat 16 (barPh (barValue s x)))
  | none => false

/-- The lanes that name each distinct word, in order of first appearance (R346). -/
def byWord : List BarLane → List (BarLane × List BarLane)
  | [] => []
  | x :: xs =>
    let rest := byWord xs
    match rest.find? (fun g => g.1.home == x.home) with
    | some _ => rest.map (fun g => if g.1.home == x.home then (x, x :: g.2) else g)
    | none => (x, [x]) :: rest

def setBars (s : State) (thread : Nat) (f : List BarSlot → List BarSlot) : State :=
  let t := threadAt s thread
  setThread s thread { t with bars := f t.bars }

/-- One operation at each word's bank for all the lanes that name it. -/
def atBanks (s : State) (xs : List BarLane) (op : State → Nat → List BarLane → Nat) : State :=
  (byWord xs).foldl (fun s g =>
    scrStore s (barHome g.1).1 (barHome g.1).2 8 (op s (barValue s g.1) g.2)) s

/-- The checks of R136 and R347 in their order, the wait at a locked bank (R125), then `k`. -/
def atBarrier (f : Form) (s : State) (bad : State → BarLane → Bool) (k : Ctx → List BarLane → State) : Out :=
  issuing f s fun c =>
    let xs := barLanes s c f
    let at5 := xs.filter (fun x => x.word.toNat % 8 != 0)
    let at12 := xs.filter (fun x => x.home.isNone)
    let name := fun (ys : List BarLane) => ys.map (fun x => (x.lane, x.word.setWidth 64))
    .next (if !at5.isEmpty then raise s c f (addrTrap 5 2 (name at5))
      else if !at12.isEmpty then raise s c f (addrTrap 0x0C 2 (name at12))
      else match xs.find? (fun x => lockedBy s (barHome x).1 ((barHome x).2 / 512) 1) with
        | some x => hold s c.pid f (.unlocked (barHome x).1 ((barHome x).2 / 512) 1)
        | none =>
          let hit := xs.filter (bad s)
          if !hit.isEmpty then raise s c f (plainTrap 0x11 (hit.map (·.lane))) else k c xs)

/-- R346: members are added, and each thread takes a slot. -/
def execBarJoin (f : Form) (s : State) : Out :=
  atBarrier f s (fun _ x => x.slot.isSome || x.full) fun c xs =>
    let s1 := atBanks s xs (fun _ v g => barJoinOp v g.length)
    finish (xs.foldl (fun s x => setBars s (threadKey c.pid x.lane) (fun bs => bs ++ [{ word := x.word, arr := none }])) s1) c f

/-- R346: members leave, with those that had arrived in the current phase. -/
def execBarLeave (f : Form) (s : State) : Out :=
  atBarrier f s (fun _ x => x.slot.isNone) fun c xs =>
    let s1 := atBanks s xs (fun s v g => barLeaveOp v g.length (g.filter (arrivedNow s)).length)
    finish (xs.foldl (fun s x => setBars s (threadKey c.pid x.lane) (fun bs => bs.filter (fun b => b.word != x.word))) s1) c f

/-- The arrivals of the lanes, each with its phase recorded; the phases are those before the operation (R346). -/
def arriveAll (s : State) (c : Ctx) (xs : List BarLane) : State :=
  let ph := xs.map (fun x => (x, barPh (barValue s x)))
  let s1 := atBanks s xs (fun _ v g => barArriveOp v g.length)
  ph.foldl (fun s p => setBars s (threadKey c.pid p.1.lane) (fun bs => bs.map (fun b =>
    if b.word = p.1.word then { b with arr := some (BitVec.ofNat 16 p.2) } else b))) s1

/-- The thread's earlier accesses perform before its arrival: a release of the gang's scope (R290, R344). -/
def barRelease (f : Form) (s : State) (k : State → Out) : Out :=
  issuing f s fun c => if (warpAt s c.warp).inflight.isEmpty then k s else .next (hold s c.pid f .drained)

/-- R346: each lane returns the phase it arrived in. -/
def execBarArrive (f : Form) (s : State) : Out :=
  barRelease f s fun s =>
    atBarrier f s (fun s x => x.slot.isNone || arrivedNow s x) fun c xs =>
      let rs := xs.map (fun x => (x.lane, BitVec.ofNat 64 (barPh (barValue s x))))
      finish (putLanes (arriveAll s c xs) c.pid (dstOf c f .i32) rs) c f

/-- A wait at words with phases: the path goes on once every word's phase has changed or its DEF is set (R346). -/
def barAwait (s : State) (c : Ctx) (f : Form) (ws : List (Nat × Nat × Nat × BitVec 16)) : State :=
  let words := ws.map (fun w => (w.2.1, w.2.2.1, w.2.2.2))
  if words.all (barOver s) then
    let s1 := updPath s c.pid (fun p => { p with syncWait := false })
    finish (putLanes s1 c.pid (dstOf c f .i1) (ws.map (fun w =>
      (w.1, if barDef (scrRead s w.2.1 w.2.2.1 8) then 1 else 0)))) c f
  else hold s c.pid f (.barrier words)

/-- R346: any thread of the gang may wait. -/
def execBarWait (f : Form) (s : State) : Out :=
  atBarrier f s (fun _ _ => false) fun c xs =>
    barAwait s c f (xs.map (fun x => (x.lane, (barHome x).1, (barHome x).2, (src s c f 1 .i32 false x.lane).setWidth 16)))

/-- R346: an arrival, then the wait for the phase it returned. -/
def execBarSync (f : Form) (s : State) : Out :=
  issuing f s fun c =>
    let waitFor := fun (s : State) (xs : List BarLane) =>
      barAwait s c f (xs.map (fun x => (x.lane, (barHome x).1, (barHome x).2, (x.slot.bind (·.arr)).getD 0)))
    if (pathAt s c.pid).syncWait then .next (waitFor s (barLanes s c f))
    else barRelease f s fun s =>
      atBarrier f s (fun s x => x.slot.isNone || arrivedNow s x) fun c xs =>
        let s1 := updPath (arriveAll s c xs) c.pid (fun p => { p with syncWait := true })
        waitFor s1 (barLanes s1 c f)

/-- R349: the path counts as the youngest for the next selection. -/
def execYield (f : Form) (s : State) : Out :=
  issuing f s fun c => .next (finish (updPath s c.pid (fun p => { p with youngest := true })) c f)

/-- R346: a path that waits at the word becomes ready when all its words release it. -/
def execBarrierRelease (core word : Nat) (s : State) : Out :=
  .next ((s.x.paths.filter (fun p => match p.2.wait with
    | some (.barrier ws) => ws.any (fun w => w.1 == core && w.2.1 == word) && ws.all (barOver s)
    | _ => false)).foldl (fun s p => wake s p.1) s)

/-! ### xc.swap (R277 to R280) -/

def setSwaps (s : State) (xs : List Swap) : State := { s with e := { s.e with swaps := xs } }

/-- The result of a paired swap in the active lanes (R279). -/
def swapResult (s : State) (pid : Nat) (x : Swap) : List (Nat × Word) :=
  (pathMask s pid).lanes.map (fun l =>
    match (x.got.getD []).find? (fun p => p.1 == l) with
    | some p => (l, lowBits 32 p.2 + 0x100000000#64)
    | none => (l, lowBits 32 (((x.vals.find? (fun p => p.1 == l)).map (·.2)).getD 0)))

/-- R277 to R279: the swap waits in the X unit at its instruction; once paired, the exchanged values are written. -/
def execXcSwap (f : Form) (s : State) : Out :=
  issuing f s fun c =>
    let id := zx 32 (src s c f 1 .i32 false (firstLane s c.pid))
    let t := opndTy c f 0 .i32
    .next (match s.e.swaps.find? (fun x => x.pid == c.pid) with
      | some x =>
        if x.got.isSome then
          finish (putLanes (setSwaps s (s.e.swaps.filter (fun y => y.pid != c.pid))) c.pid (dstOf c f .i64)
            (swapResult s c.pid x)) c f
        else hold s c.pid f .partner
      | none =>
        if 255 < id then raise s c f (plainTrap 0x10 (pathMask s c.pid).lanes) else
        let x : Swap :=
          { die := c.die, ctx := c.ctx, ident := id, num := (warpAt s c.warp).num, cluster := clusterOf (coreOfWarp c.warp),
            pid := c.pid, vals := (pathMask s c.pid).lanes.map (fun l => (l, src s c f 0 t false l)), got := none }
        enqueue (hold (setSwaps s (s.e.swaps ++ [x])) c.pid f .partner) (.swapPaired c.die))

/-- Two swaps of one die whose keys agree, from different clusters (R278). -/
def swapsMeet (a b : Swap) : Bool :=
  a.die == b.die && a.ctx == b.ctx && a.ident == b.ident && a.num == b.num && a.cluster != b.cluster &&
    a.got.isNone && b.got.isNone

/-- The first swap of a die, in arrival order, that an older one of another cluster meets: the older one, and it. -/
def firstPair (die : Nat) (older : List Swap) : List Swap → Option (Swap × Swap)
  | [] => none
  | x :: xs =>
    match (if x.die = die then older.find? (fun y => swapsMeet y x) else none) with
    | some y => some (y, x)
    | none => firstPair die (older ++ [x]) xs

/-- R278, R279. -/
def execSwapPaired (die : Nat) (s : State) : Out :=
  match firstPair die [] s.e.swaps with
  | none => .next s
  | some (a, b) => .next (setSwaps s (s.e.swaps.map (fun x =>
      if x.pid = a.pid then { x with got := some b.vals } else if x.pid = b.pid then { x with got := some a.vals } else x)))

/-- A path that halts withdraws an unpaired swap (R280). -/
def withdrawSwap (s : State) (pid : Nat) : State :=
  setSwaps s (s.e.swaps.filter (fun x => x.pid != pid || x.got.isSome))

/-! ### The pending-path stack (R342) -/

/-- The table path that an exchange takes: of the waiting ones, else of all, the one that has held its entry longest. -/
def exchangeOut (s : State) (warp : Nat) : Option (Nat × Path) :=
  let ps := (pathsOf s warp).filter (fun p => p.2.slotIx.isSome && !p.2.focus)
  let idle := ps.filter (fun p => !isReady s p.1 p.2)
  (if idle.isEmpty then ps else idle).foldl (fun b p => match b with
    | none => some p
    | some q => if p.2.seq < q.2.seq then some p else some q) none

/-- R342: the table path that has held its entry longest changes places with the oldest pending path. -/
def execPathExchange (warp : Nat) (s : State) : Out :=
  match exchangeOut s warp, pendingOldest s warp with
  | some (o, q), some p =>
    let s1 := setPath (takeId s) o { q with slotIx := none, seq := s.c.nextId }
    .next (updPath (takeId s1) p (fun r => { r with slotIx := q.slotIx, seq := s1.c.nextId, readyAt := s.c.cycle }))
  | _, _ => .next s

end Sys2Proof.Machine
end

