-- ==== Sys2Proof/Machine/Digest.lean ====
section
/-!
DEFINITION. The two check codes that the spec names: CRC-64 of ECMA-182 (R158, R358) and SHA-512 (R41, R397, R398).
-/
namespace Sys2Proof.Machine

/-- One bit of CRC-64: the register shifts left, and the generator is subtracted when a 1 leaves it. -/
def crcBit (r : Word) : Word := if r.getLsbD 63 then (r <<< 1) ^^^ 0x42F0E1EBA9EA3693#64 else r <<< 1
def crcByte (r : Word) (b : Byte) : Word :=
  let x := r ^^^ (b.setWidth 64 <<< 56)
  crcBit (crcBit (crcBit (crcBit (crcBit (crcBit (crcBit (crcBit x)))))))
/-- CRC-64 of ECMA-182: register zero at the start, bits taken from the most significant, nothing added at the end. -/
def crc64 (bs : List Byte) : Word := bs.foldl crcByte 0

/-- The largest `r` with `r ^ k ≤ n`, found bit by bit from bit `b - 1` down, above the bits `r` found so far. -/
def rootBits (k n : Nat) : Nat → Nat → Nat
  | 0, r => r
  | b + 1, r => rootBits k n b (if (r + 2 ^ b) ^ k ≤ n then r + 2 ^ b else r)

/-- The first 64 bits of the fractional part of the `k`-th root of `p` (`p` below 8 to the power `k`). -/
def rootWord (k p : Nat) : Word := BitVec.ofNat 64 (rootBits k (p * 2 ^ (64 * k)) 69 0)

/-- The primes below `n`, for `n` up to 23 squared. -/
def primesBelow (n : Nat) : List Nat :=
  ((List.range n).drop 2).filter (fun p => [2, 3, 5, 7, 11, 13, 17, 19].all (fun q => q == p || p % q != 0))

/-- The round constants of SHA-512: cube roots of the first 80 primes. -/
def roundConstants : List Word := (primesBelow 410).map (rootWord 3)
/-- The initial hash value: square roots of the first eight primes. -/
def initialHash : List Word := (primesBelow 20).map (rootWord 2)

def bigSig0 (x : Word) : Word := x.rotateRight 28 ^^^ x.rotateRight 34 ^^^ x.rotateRight 39
def bigSig1 (x : Word) : Word := x.rotateRight 14 ^^^ x.rotateRight 18 ^^^ x.rotateRight 41
def smallSig0 (x : Word) : Word := x.rotateRight 1 ^^^ x.rotateRight 8 ^^^ (x >>> 7)
def smallSig1 (x : Word) : Word := x.rotateRight 19 ^^^ x.rotateRight 61 ^^^ (x >>> 6)

/-- The message schedule, the newest word first: each new word from those 2, 7, 15 and 16 places back. -/
def schedule : Nat → List Word → List Word
  | 0, ws => ws
  | n + 1, ws => schedule n ((smallSig1 (nth ws 0 1) + nth ws 0 6 + smallSig0 (nth ws 0 14) + nth ws 0 15) :: ws)

/-- One round on the eight working words. -/
def shaRound (h : List Word) (kw : Word) : List Word :=
  let a := nth h 0 0
  let e := nth h 0 4
  let ch := (e &&& nth h 0 5) ^^^ (~~~e &&& nth h 0 6)
  let maj := (a &&& nth h 0 1) ^^^ (a &&& nth h 0 2) ^^^ (nth h 0 1 &&& nth h 0 2)
  let t1 := nth h 0 7 + bigSig1 e + ch + kw
  [t1 + bigSig0 a + maj, a, nth h 0 1, nth h 0 2, nth h 0 3 + t1, e, nth h 0 5, nth h 0 6]

/-- A big-endian word of eight bytes. -/
def beWord (bs : List Byte) : Word := BitVec.ofNat 64 (leNat bs.reverse)

/-- One block of 128 bytes. -/
def shaBlock (h : List Word) (b : List Byte) : List Word :=
  let w0 := (List.range 16).map (fun i => beWord ((b.drop (8 * i)).take 8))
  let ws := (schedule 64 w0.reverse).reverse
  let r := ((roundConstants.zip ws).map (fun p => p.1 + p.2)).foldl shaRound h
  (h.zip r).map (fun p => p.1 + p.2)

def shaBlocks : Nat → List Word → List Byte → List Word
  | 0, h, _ => h
  | n + 1, h, bs => shaBlocks n (shaBlock h (bs.take 128)) (bs.drop 128)

/-- The 64 bytes of the SHA-512 digest, digest byte 0 first. -/
def sha512 (bs : List Byte) : List Byte :=
  let n := bs.length
  let k := (n + 17 + 127) / 128
  let pad := bs ++ [0x80] ++ List.replicate (128 * k - n - 17) 0 ++ (leBytes 16 (8 * n)).reverse
  (shaBlocks k initialHash pad).flatMap (fun w => (leBytes 8 w.toNat).reverse)

/-- The module hash of an image (R41). -/
def moduleHash (image : List Byte) : Word := BitVec.ofNat 64 (leNat ((sha512 image).take 8))

end Sys2Proof.Machine
end

