-- ==== Sys2Proof/Machine/Legal.lean ====
section
/-!
DEFINITION. The legality of bundle slots and bundles (R45 to R62): what NTYPE, MOD, destination, source and AUX values each
operation accepts natively.
-/
namespace Sys2Proof.Machine

/-! ### Native types (R50) -/

/-- Width in bits of a native type code. -/
def nWidth (nt : Nat) : Nat :=
  match nt with
  | 1 => 8 | 2 => 16 | 3 => 32 | 4 => 64 | 5 => 16 | 6 => 16 | 7 => 32 | 8 => 64 | 9 => 8 | 10 => 8 | 11 => 1
  | 12 => 64 | 13 => 32 | _ => 0
def nInt (nt : Nat) : Bool := decide (1 ≤ nt) && decide (nt ≤ 4)
def nFlt (nt : Nat) : Bool := decide (5 ≤ nt) && decide (nt ≤ 8)
/-- A type of a value that a slot can move: binary8 values move as `i8`. -/
def nVal (nt : Nat) : Bool := decide (1 ≤ nt) && decide (nt ≤ 13) && nt != 9

/-! ### Operand classes (R51 to R54, R56) -/

/-- The operand classes that a source may take. -/
structure Cls where
  vec : Bool
  sca : Bool
  con : Bool
  uni : Bool
  var : Bool
  non : Bool
  deriving DecidableEq, Repr

def clsNone : Cls := { vec := false, sca := false, con := false, uni := false, var := false, non := true }
def clsAll : Cls := { vec := true, sca := true, con := true, uni := true, var := true, non := false }
/-- Scalar registers, constants and warp-uniform specials. -/
def clsUni : Cls := { clsAll with vec := false, var := false }
def clsVS : Cls := { clsNone with vec := true, sca := true, non := false }
def clsV : Cls := { clsNone with vec := true, non := false }
def clsS : Cls := { clsNone with sca := true, non := false }
/-- Vector, scalar, constant: the sources of the lane operations (R224). -/
def clsVSC : Cls := { clsVS with con := true }
def orNone (c : Cls) : Cls := { c with non := true }
/-- The sources of an operation that runs in slot 0 and in vector slots (R56). -/
def clsGen (slot : Nat) : Cls := if slot = 0 then clsUni else clsAll

/-- Whether a vector code holds an operand of a width: within the window, an even pair for 64 bits (R52). -/
def vecOk (cap code : Nat) (wide : Bool) : Bool := decide (code < cap) && (!wide || (code % 2 == 0 && decide (code + 1 < cap)))

/-- Whether constant entry `j` applies to a type (R54). -/
def constOk (nt j : Nat) : Bool :=
  (decide (j < 128) && (nInt nt || nFlt nt || nt == 12 || nt == 13)) || (decide (j < 196) && nFlt nt)

/-- Whether a source code is of a class and holds an operand of a native type. -/
def srcOk (cap : Nat) (k : Cls) (nt code : Nat) : Bool :=
  if code < 1536 then k.vec && vecOk cap code (nWidth nt == 64)
  else if code < 1664 then k.sca
  else if code < 1920 then k.con && constOk nt (code - 1664)
  else if code = 2047 then k.non
  else if code < 1929 then (if [1920, 1921, 1926, 1927, 1928].contains code then k.uni else k.var)
  else false

/-- The destinations that a slot may take. -/
inductive DCls where
  | none | vec | sca | any | vecN | scaN | anyN | push | raw
  deriving DecidableEq, Repr

/-- Whether a destination is of a class and holds a result of a native type. A push specification has bit 10 zero (R108). -/
def dstOk (cap : Nat) (k : DCls) (nt code : Nat) : Bool :=
  let v := vecOk cap code (nWidth nt == 64)
  let s := decide (1536 ≤ code) && decide (code < 1664)
  let n := code == 2047
  match k with
  | .none => n
  | .vec => v
  | .sca => s
  | .any => v || s
  | .vecN => v || n
  | .scaN => s || n
  | .anyN => v || s || n
  | .push => decide (code < 1024)
  | .raw => true
def dGen (slot : Nat) : DCls := if slot = 0 then .scaN else .vecN

/-! ### One operation's fields -/

/-- What an operation accepts in a slot: whether NTYPE, MOD and AUX agree, the result, and the three sources with the
native types that they carry. -/
structure Shape where
  ok : Bool
  dst : DCls
  dt : Nat
  a : Cls
  at_ : Nat
  b : Cls
  bt : Nat
  c : Cls
  ct : Nat
  deriving DecidableEq, Repr

/-- An operation without operands or result. -/
def bare (ok : Bool) : Shape :=
  { ok := ok, dst := .none, dt := 0, a := clsNone, at_ := 0, b := clsNone, bt := 0, c := clsNone, ct := 0 }
def shape1 (ok : Bool) (dst : DCls) (dt : Nat) (a : Cls) (at_ : Nat) : Shape :=
  { bare ok with dst := dst, dt := dt, a := a, at_ := at_ }
def shape2 (ok : Bool) (dst : DCls) (dt : Nat) (a : Cls) (at_ : Nat) (b : Cls) (bt : Nat) : Shape :=
  { shape1 ok dst dt a at_ with b := b, bt := bt }
def shape3 (ok : Bool) (dst : DCls) (dt : Nat) (a : Cls) (at_ : Nat) (b : Cls) (bt : Nat) (c : Cls) (ct : Nat) : Shape :=
  { shape2 ok dst dt a at_ b bt with c := c, ct := ct }

/-- The common form of arithmetic: `n` sources of NTYPE (R166, R207). -/
def arith (slot nt n : Nat) (ok : Bool) : Shape :=
  let k := clsGen slot
  { bare ok with dst := dGen slot, dt := nt, a := k, at_ := nt, b := if 2 ≤ n then k else clsNone, bt := nt,
                 c := if 3 ≤ n then k else clsNone, ct := nt }

/-- A binary8 variant field with P other than 0. -/
def variantOk (v : Nat) : Bool := decide (v < 32) && v % 8 != 0
/-- AUX of `icmp` and `fcmp`: the bit form with a scalar destination (R177). -/
def cmpAux (dst aux : Nat) : Bool := aux == 0 || (decide (1536 ≤ dst) && decide (dst < 1664) && decide (64 ≤ aux) && decide (aux < 128))
/-- Pop codes of AUX[8:0] (R108). -/
def popsOk (aux : Nat) : Bool := ([aux / 64 % 8, aux / 8 % 8, aux % 8] : List Nat).all (fun x => decide (x < 6))
/-- A producer code in AUX[8:6], the other bits zero (R116, R156). -/
def producerOk (aux : Nat) : Bool := aux % 64 == 0 && decide (64 ≤ aux) && decide (aux < 384)

/-- MOD of a floating operation: 0 to 5, and `.rne.ftz` for 16-bit types in a vector slot (R208, R209). -/
def roundOk (slot nt md : Nat) : Bool := decide (md < 6) || (md == 7 && (nt == 5 || nt == 6) && slot != 0)

/-- MOD and control of `lgred` and `lgscan` (R228). -/
def groupOk (scan : Bool) (nt md ctl : Nat) : Bool :=
  decide (ctl < 16) && (scan || ctl % 2 == 0) &&
    (if nFlt nt then (md == 0 && decide (ctl / 2 < 5)) || ((md == 1 || md == 3) && ctl / 2 == 0)
     else nInt nt && ctl / 2 == 0)

/-- AUX of a memory access: space and scope (R135, R134). -/
def accessAux (md aux : Nat) : Bool :=
  let space := aux / 16 % 4
  let scope := aux % 8
  decide (aux < 64) && aux / 8 % 2 == 0 && space != 3 && decide (md < 4) &&
    (if md = 1 ∨ md = 3 then scope != 7 && space != 2 else scope == 0 && (md == 0 || space == 0))

/-- AUX of an atomic (R268, R266). -/
def atomicAux (op : Op) (nt aux : Nat) : Bool :=
  let k := aux / 256
  aux / 64 % 2 == 0 && decide (aux / 16 % 4 < 2) && aux / 8 % 2 == 0 && aux % 8 != 7 &&
    (op == .red || aux / 128 % 2 == 0) &&
    (match op with
     | .cas => k == 0 && (nt == 3 || nt == 4)
     | _ => (nt == 3 || nt == 4 || nt == 7 || nt == 8) && decide (k < 9) && (op == .amo || k != 8) &&
       (nInt nt || [0, 1, 3, 8].contains k))

/-- The type of an address in a space. -/
def addrTy (aux : Nat) : Nat := if aux / 16 % 4 = 0 then 12 else 13
/-- Where an access puts its result: a vector address takes a vector destination (R135). -/
def loadDst (sa : Nat) : DCls := if sa < 1536 then .vecN else .anyN

/-- An engine command: NTYPE 0, a push specification, pops in AUX[8:0] (R108). -/
def engine (f : NForm) (ok : Bool) (a : Cls) (at_ : Nat) (b : Cls) (bt : Nat) : Shape :=
  shape2 (ok && f.ntype == 0 && popsOk f.aux.toNat) .push 0 a at_ b bt

/-- What an operation accepts in its slot. -/
def shapeOf (op : Op) (f : NForm) : Shape :=
  let slot := f.slot.toNat
  let nt := f.ntype.toNat
  let md := f.md.toNat
  let aux := f.aux.toNat
  let z := aux == 0
  let i := nInt nt
  let fl := nFlt nt
  match op with
  | .exit => bare (nt == 0 && md == 0 && z)
  | .trap => bare (nt == 0 && ((md == 0 && decide (aux < 2048)) || (md == 1 && z)))
  | .sreg => shape1 (nt == 3 && md == 0 && decide (aux < 16) && (slot != 0 || (aux != 0 && aux != 10))) (dGen slot) 3 clsNone 0
  | .select =>
    let scalar := decide (1536 ≤ f.sa.toNat)
    shape3 (nVal nt && md == 0 && (if scalar then decide (64 ≤ aux) && decide (aux < 128) else z)) (dGen slot) nt
      (if slot = 0 then clsS else clsVS) 11 (clsGen slot) nt (clsGen slot) nt
  | .trapInfo => shape1 (z && decide (md < 7) && nt == (if md = 4 then 4 else if md = 5 then 11 else 3)) .vecN nt clsNone 0
  | .trapRet =>
    { bare (z && decide (md < 3) && (if nt = 0 then f.sa.toNat == 2047 else nVal nt && md == 1)) with
      a := if nt = 0 then clsNone else clsAll, at_ := nt }
  | .add | .sub => arith slot nt 2 (i && decide (md < 3) && z)
  | .mad => arith slot nt 3 (i && decide (md < 3) && z)
  | .mul => arith slot nt 2 (i && md == 0 && z)
  | .mulhi | .div | .rem | .min | .max => arith slot nt 2 (i && decide (md < 2) && z)
  | .neg | .abs => arith slot nt 1 (i && decide (md < 2) && z)
  | .and | .or | .xor | .andn => arith slot nt 2 ((i || nt == 11) && md == 0 && z)
  | .not => arith slot nt 1 ((i || nt == 11) && md == 0 && z)
  | .shl | .rotl | .rotr => arith slot nt 2 (i && md == 0 && z)
  | .shr => arith slot nt 2 (i && decide (md < 2) && z)
  | .popc | .clz | .ctz | .brev => arith slot nt 1 (i && md == 0 && z)
  | .bfx => arith slot nt 2 (i && decide (md < 2) && decide (aux ≤ nWidth nt))
  | .bfi => arith slot nt 3 (i && md == 0 && decide (aux ≤ nWidth nt))
  | .ext => shape1 (i && decide (md < 2) && (aux == 11 || nInt aux) && decide (nWidth aux < nWidth nt)) (dGen slot) nt (clsGen slot) aux
  | .trunc => shape1 ((i || nt == 11) && md == 0 && nInt aux && decide (nWidth nt < nWidth aux)) (dGen slot) nt (clsGen slot) aux
  | .icmp =>
    shape2 ((i || (nt == 11 && decide (md < 2)) || ((nt == 12 || nt == 13) && [0, 1, 4, 5, 7].contains md)) && cmpAux f.dst.toNat aux)
      (dGen slot) 11 (clsGen slot) nt (clsGen slot) nt
  | .fcmp => shape2 (fl && cmpAux f.dst.toNat aux) (dGen slot) 11 (clsGen slot) nt (clsGen slot) nt
  | .adr =>
    let p := nt == 12 || nt == 13
    let n := nt == 4 || nt == 3
    let pt := if nt = 4 ∨ nt = 12 then 12 else 13
    match md with
    | 0 | 1 => shape2 (p && aux % 2048 != 0) (dGen slot) nt (clsGen slot) nt (clsGen slot) (if 2048 ≤ aux then 4 else 3)
    | 2 => shape1 (n && z) (dGen slot) nt (clsGen slot) pt
    | 3 => shape1 (p && z) (dGen slot) nt (clsGen slot) (if nt = 12 then 4 else 3)
    | 4 => shape2 (n && z) (dGen slot) nt (clsGen slot) pt (clsGen slot) pt
    | _ => bare false
  | .bsel => shape3 ((nt == 3 || nt == 4) && md == 0 && z) (dGen slot) nt (clsGen slot) nt (clsGen slot) nt (clsGen slot) 3
  | .fadd | .fsub | .fmul | .fdiv => arith slot nt 2 (fl && roundOk slot nt md && z)
  | .fsqrt => arith slot nt 1 (fl && roundOk slot nt md && z)
  | .fma => arith slot nt 3 (fl && roundOk slot nt md && z)
  | .fmin | .fmax => arith slot nt 2 (fl && decide (md < 2) && z)
  | .fneg | .fabs => arith slot nt 1 (fl && md == 0 && z)
  | .fcopysign => arith slot nt 2 (fl && md == 0 && z)
  | .fclass =>
    let t := aux % 16
    shape1 (nt == 3 && md == 0 && decide (5 ≤ t) && decide (t ≤ 10) && (if t = 9 then variantOk (aux / 16) else decide (aux < 16)))
      (dGen slot) 3 (clsGen slot) t
  | .frint => arith slot nt 1 (fl && decide (md < 6) && decide (aux < 2))
  | .fcvt =>
    let t := aux / 32 % 16
    let narrow := [5, 6, 9].contains nt && decide (nWidth nt < nWidth t)
    let small := nt == 9 || nt == 10
    shape2 (decide (5 ≤ nt) && decide (nt ≤ 10) && decide (5 ≤ t) && decide (t ≤ 10) && nt != t &&
        !(small && (t == 9 || t == 10)) && (decide (md < 6) || (md == 6 && narrow)) && decide (aux < 1024) &&
        (if nt = 9 ∨ t = 9 then variantOk (aux % 32) else aux % 32 == 0))
      (dGen slot) nt (clsGen slot) t (if md = 6 then (if slot = 0 then clsS else clsVS) else clsNone) 4
  | .fcvti => shape1 (i && decide (md < 6) && nFlt (aux % 16) && decide (aux < 32)) (dGen slot) nt (clsGen slot) (aux % 16)
  | .icvtf => shape1 (fl && decide (md < 6) && nInt (aux % 16) && decide (aux < 32)) (dGen slot) nt (clsGen slot) (aux % 16)
  | .fscaleb => shape2 (fl && decide (md < 6) && z) (dGen slot) nt (clsGen slot) nt (clsGen slot) 3
  | .flogb => shape1 (nt == 3 && md == 0 && nFlt aux) (dGen slot) 3 (clsGen slot) aux
  | .fexcRd => shape1 (nt == 3 && md == 0 && z) .vecN 3 clsNone 0
  | .fexcClr => bare (nt == 0 && md == 0 && decide (aux < 64))
  | .fmodeSet => shape2 (nt == 0 && md == 0 && z) .none 0 clsAll 3 (orNone clsAll) 4
  | .fmodeRd => shape1 (z && ((md == 0 && nt == 3) || (md == 1 && nt == 4))) .vecN nt clsNone 0
  | .pk8 =>
    shape3 (nt == 9 && decide (md < 7) && decide (aux < 64) && variantOk (aux % 32)) .vecN 3 clsAll 7 clsAll 7
      (if md = 6 then clsVS else clsNone) 4
  | .upk8 => shape1 (nt == 9 && md == 0 && decide (aux < 128) && variantOk (aux % 32)) .vecN 7 clsAll 3
  | .bscale => shape2 (fl && decide (md < 6) && decide (aux < 2)) (dGen slot) nt (clsGen slot) nt (clsGen slot) 10
  | .lanex =>
    shape3 (decide (1 ≤ nt) && decide (nt ≤ 13) && decide (md < 4) && (if nt = 9 then variantOk aux else z)) .vecN nt
      clsVSC nt clsVSC 3 clsVSC nt
  | .vote =>
    shape1 ((if md = 3 then decide (1 ≤ nt) && decide (nt ≤ 13) else nt == 11 && decide (md < 3)) &&
      (if nt = 9 then variantOk aux else z)) .vecN (if md = 2 then 3 else 11) clsVSC nt
  | .lgred => shape1 (groupOk false nt md aux) .vecN nt clsVSC nt
  | .lgscan => shape1 (groupOk true nt md aux) .vecN nt clsVSC nt
  | .matchLanes =>
    shape1 (decide (1 ≤ nt) && decide (nt ≤ 13) && md == 0 && (if nt = 9 then variantOk aux else z)) .vecN 3 clsVSC nt
  | .sfEval => shape1 ((nt == 5 || nt == 6 || nt == 7) && decide (md < 7) && z) .vecN nt clsAll nt
  | .sfLoad => shape1 (nt == 3 && md == 0 && (z || aux == 16)) .vecN 3 clsVS (addrTy aux)
  | .ld => shape1 (nVal nt && nt != 11 && accessAux md aux) (loadDst f.sa.toNat) nt clsVS (addrTy aux)
  | .st => shape2 (nVal nt && nt != 11 && accessAux md aux) .none 0 clsVS (addrTy aux) clsAll nt
  | .prefetch => shape1 (nt == 0 && decide (md < 2) && z) .none 0 clsVS 12
  | .amo => shape2 (decide (md < 5) && atomicAux op nt aux) (loadDst f.sa.toNat) nt clsVS (addrTy aux) clsAll nt
  | .cas => shape3 (decide (md < 5) && atomicAux op nt aux) (loadDst f.sa.toNat) nt clsVS (addrTy aux) clsAll nt clsAll nt
  | .red => shape2 ((md == 0 || md == 2) && atomicAux op nt aux) .none 0 clsVS (addrTy aux) clsAll nt
  | .fence => bare (nt == 0 && decide (md < 5) && decide (aux < 7))
  | .bxShape => engine f (md == 0) clsAll 13 clsNone 0
  | .bxCopy | .bxConv | .bxRed => { engine f true clsAll 13 clsAll 13 with c := if md = 0 then clsNone else clsVS }
  | .bxFill => { engine f true clsAll 13 clsVS 4 with c := if md = 0 then clsNone else clsVS }
  | .bxGather | .bxScatter => { engine f true clsAll 13 clsAll 13 with c := clsVS }
  | .waitTok => shape1 (nt == 11 && md == 0 && producerOk aux) .vecN 11 clsNone 0
  | .tokStatus => shape1 (nt == 3 && md == 0 && producerOk aux) .vecN 3 clsNone 0
  | .tokAll => engine f (md == 0 && decide (aux < 512)) clsNone 0 clsNone 0
  | .waitChunks => shape2 (nt == 11 && md == 0 && z) .vecN 11 clsAll 13 clsAll 3
  | .testChunks => shape2 (nt == 4 && md == 0 && z) .anyN 4 clsAll 13 clsAll 3
  | .clrChunks => shape2 (nt == 0 && md == 0 && z) .none 0 clsAll 13 clsAll 3
  | .mxZero => engine f (md == 0) clsNone 0 clsNone 0
  | .mxLd => engine f (decide (md < 3)) clsAll 13 clsNone 0
  | .mxStep => { engine f (decide (md < 4)) clsAll 13 clsAll 13 with c := if 2 ≤ md then clsAll else clsNone, ct := 13 }
  | .mxLoop => { engine f (decide (md < 4)) clsAll 13 clsAll 13 with c := clsVS, ct := 3 }
  | .mxStore => engine f (decide (md < 2)) clsAll 13 clsNone 0
  | .mxMode => engine f (md == 0 && decide (aux < 512)) clsAll 4 clsNone 0
  | .mxRead =>
    let pair := md == 2 || (md == 0 && nt == 8)
    shape2 (aux % 512 == 0 && decide (md < 3) && (if md = 0 then nt == 7 || nt == 8 else nt == 3) && (!pair || aux / 512 % 2 == 0))
      .vecN nt (if md = 0 then clsAll else clsNone) 3 (if md = 0 then clsAll else clsNone) 3
  | .xcSwap => shape2 (nt == 4 && md == 0 && z) .vecN 4 clsV 3 { clsS with con := true } 3
  | .barJoin | .barLeave => shape1 (nt == 0 && md == 0 && z) .none 0 clsVS 13
  | .barArrive => shape1 (nt == 3 && md == 0 && z) .vecN 3 clsVS 13
  | .barWait => shape2 (nt == 11 && md == 0 && z) .vecN 11 clsVS 13 clsAll 3
  | .barSync => shape1 (nt == 11 && md == 0 && z) .vecN 11 clsVS 13
  | .yield => bare (nt == 0 && md == 0 && z)
  | .cpKey =>
    let k := md % 4
    shape1 (nt == 4 && decide (k < 3) && decide (aux < 16) && (if k = 2 then nFlt aux else nInt aux)) .vecN 4 clsAll aux
  | .cpBid => engine f (decide (md < 2) && decide (aux < 512)) clsAll 3 clsVS 4
  | .cpGate => shape2 (nt == 0 && md == 0 && z) .none 0 clsAll 3 clsAll 3
  | .cpWon => shape1 (nt == 11 && md == 0 && (aux == 256 || aux == 64)) .vecN 11 clsNone 0
  | .cpMax => shape1 (nt == 4 && md == 0 && (aux == 256 || aux == 64)) .scaN 4 clsNone 0
  | .cpDie | .cpRound => shape1 (nt == 3 && md == 0 && (aux == 256 || aux == 64)) .scaN 3 clsNone 0
  | .cpLast => shape1 (z && ((md == 0 && nt == 4) || ((md == 1 || md == 2) && nt == 3))) .scaN nt clsAll 3
  | .cvTurn => engine f (decide (md < 4) && decide (aux < 512)) clsAll 3 clsNone 0
  | .cvSplit => shape1 (nt == 3 && decide (md < 2) && z) .anyN 3 clsNone 0
  | .brk => bare (nt == 0 && md == 0 && decide (aux < 2048))
  | .dbgMark =>
    { bare (md == 0 && decide (aux < 2048) && (nt == 0 || nInt nt || nFlt nt)) with a := if nt = 0 then clsNone else clsAll, at_ := nt }
  | .rdclk => shape1 (nt == 4 && decide (md < 2) && z) .anyN 4 clsNone 0
  | .rdcnt => shape1 (nt == 4 && md == 0 && (decide (aux < 23) || (decide (32 ≤ aux) && decide (aux < 42)))) .anyN 4 clsNone 0
  | .sys => shape1 (nt == 4 && md == 0 && decide (aux < 2048)) .anyN 4 (orNone clsAll) 4
  | .spill => shape1 ((nt == 3 || nt == 4) && decide (md < 2)) .none 0 clsVS nt
  | .fill => shape1 ((nt == 3 || nt == 4) && md == 0) .any nt clsNone 0
  | .vmov => shape1 ((nt == 3 || nt == 4) && md == 0 && z) .vec nt clsAll nt
  | .smov => shape1 ((nt == 3 || nt == 4) && ((md == 0 && z) || md == 1)) .sca nt (if md = 0 then clsUni else clsNone) nt
  | .v2s => shape1 (z && ((md == 0 && (nt == 3 || nt == 4)) || (md == 1 && nt == 11))) .sca nt clsV nt
  | .s2v => shape1 (nt == 11 && md == 0 && z) .vec 3 clsS 4
  | .pset =>
    shape1 (nt == 11 && md == 0 && decide (aux < 64) && (decide (f.sa.toNat < 1664) || [1920, 1921, 2047].contains f.sa.toNat)) .sca 11
      { clsS with uni := true, non := true } 11
  | .pclr => shape1 (nt == 11 && md == 0 && decide (aux < 64)) .sca 11 clsNone 0
  | .pathSplit => bare (nt == 11 && md == 0 && decide (aux < 2048))
  | .pathJoin => bare (nt == 0 && md == 0 && z)
  | .waitCnt => bare (nt == 0 && md != 0 && decide (aux < 64))
  | .tqPop => shape1 (nt == 0 && md == 0 && producerOk aux) .vecN 3 clsNone 0
  | .tqPush => shape1 (nt == 0 && md == 0 && producerOk aux) .push 0 clsNone 0
  | .jmp => { bare (nt == 0 && decide (md < 3) && (if md = 1 then !z else z)) with a := if md = 1 then clsS else clsNone, at_ := 3 }
  | .ncall => { bare (nt == 0 && (md == 0 || (md == 1 && z))) with a := if md = 1 then clsS else clsNone, at_ := 3 }
  | .nret => bare (nt == 0 && md == 0 && z)
  | .frameEnter => bare (nt == 0)
  | .frameLeave => bare (nt == 0 && z)
  | .entry => shape1 ((nt == 3 || nt == 4) && md == 0) .any nt clsS 12
  | .bnop => bare (nt == 0 && md == 0 && z && f.gs == 0)
  | .br | .brc | .switch | .call | .callx | .ret | .unreach | .const => bare false

/-- Registers of the run that begins at SC (R108, R257). -/
def runLength (op : Op) (f : NForm) : Nat :=
  match op with
  | .bxCopy | .bxConv | .bxRed | .bxFill => f.md.toNat
  | .bxGather | .bxScatter => f.md.toNat + 1
  | .mxLoop => if 2 ≤ f.md.toNat then 5 else 3
  | _ => 0

/-- A register run stays within the window, or within s127. -/
def runOk (cap code n : Nat) : Bool :=
  if code < 1536 then decide (code + n ≤ cap) else if code < 1664 then decide (code + n ≤ 1664) else n == 0

/-- The fields of `path.split` and `jmp` that hold bundle indices, not operand codes (R153). -/
def indexFields (op : Op) : Bool := op == .pathSplit || op == .jmp

/-- Whether a slot obeys R50 to R56 and its operation's own rules, under a register cap. -/
def slotLegal (cap : Nat) (op : Op) (f : NForm) : Bool :=
  let t := shapeOf op f
  let ix := indexFields op
  t.ok && decide (f.ntype.toNat < 14) && (opSlots op).contains f.slot.toNat &&
    (ix || dstOk cap t.dst t.dt f.dst.toNat) &&
    (if op = .pathSplit then srcOk cap clsV 11 f.sa.toNat else srcOk cap t.a t.at_ f.sa.toNat) &&
    (op == .pathSplit || srcOk cap t.b t.bt f.sb.toNat) &&
    (ix || (if runLength op f = 0 then srcOk cap t.c t.ct f.sc.toNat
      else srcOk cap { t.c with non := false } 3 f.sc.toNat && runOk cap f.sc.toNat (runLength op f)))

/-! ### Bundles (R47, R56, R57) -/

/-- What a slot writes: vector registers as their numbers, scalar bits as 2048 + 64·register + bit. -/
def writesOf (op : Op) (f : NForm) : List Nat :=
  let d := f.dst.toNat
  let whole : Nat → List Nat := fun r => (List.range 64).map (fun b => 2048 + 64 * r + b)
  let t := shapeOf op f
  match op with
  | .pset | .pclr => [2048 + 64 * (d - 1536) + f.aux.toNat % 64]
  | .ncall => whole 125 ++ whole 127
  | .nret => whole 0 ++ whole 125
  | .frameEnter => whole 124 ++ whole 126
  | .frameLeave => whole 124 ++ whole 126 ++ whole 127
  | .pathSplit | .jmp => []
  | _ =>
    if t.dst = .push then []
    else if d < 1536 then (if nWidth t.dt = 64 then [d, d + 1] else [d])
    else if d < 1664 then
      (if (op = .icmp ∨ op = .fcmp) ∧ 64 ≤ f.aux.toNat then [2048 + 64 * (d - 1536) + f.aux.toNat % 64] else whole (d - 1536))
    else []

/-- The operation and the fields of a slot. -/
def slotParts (i : Instr) : Option (Op × NForm) :=
  match i.opForm with
  | some (op, .n f) => some (op, f)
  | _ => none

/-- Operations that may stand in slot 0 of a bundle with STOP = 2: unconditional transfers, `exit`, `trap.ret`, and the
`trap` that stands for `unreach` (R47, R189, R191, R355). -/
def endsPath (op : Op) : Bool := [.jmp, .ncall, .nret, .exit, .trapRet, .trap].contains op

/-- Whether two lists of places meet. -/
def meets (a b : List Nat) : Bool := a.any (fun x => b.contains x)

/-- Whether a bundle of an image obeys every rule of R45 to R58: `mode` is the key's MODE, `lits` the literal count. -/
def bundleOk (cap mode lits : Nat) (b : Bundle) : Bool :=
  match slotParts b.s0, slotParts b.s1, slotParts b.s2 with
  | some (o0, f0), some (o1, f1), some (o2, f2) =>
    slotLegal cap o0 f0 && slotLegal cap o1 f1 && slotLegal cap o2 f2 &&
    (if mode % 2 = 1 then b.kind != 0 else b.kind != 2) &&
    (b.stop != 2 || endsPath o0) && ((o0 != .exit && o0 != .trapRet) || b.stop == 2) &&
    (o0 != .smov || f0.md != 1 || decide (f0.aux.toNat < lits)) &&
    (o0 != .entry || decide (2 ≤ mode)) && (o0 != .jmp || f0.md != 2 || decide (2 ≤ mode)) &&
    !meets (writesOf o0 f0) (writesOf o1 f1) && !meets (writesOf o0 f0) (writesOf o2 f2) &&
    !meets (writesOf o1 f1) (writesOf o2 f2)
  | _, _, _ => false

end Sys2Proof.Machine
end

