-- ==== Sys2Proof/Machine/Uses.lean ====
section
/-!
DEFINITION. What the translator knows of the uses of a token value: by engine, over what can follow a place (R421).
-/
namespace Sys2Proof.Machine

/-- The engine that a word runs on, which pops the tokens it consumes (R100). -/
def engineOf (opc : Nat) : Nat :=
  if 0x0C0 ≤ opc ∧ opc ≤ 0x0C6 ∨ opc = 0x100 then 2 else if 0x0D0 ≤ opc ∧ opc ≤ 0x0D5 then 3 else if opc = 0x0F1 then 4 else 1

/-- Numbers by engine code, 0 to 5. -/
abbrev Uses := List Nat
def noUses : Uses := List.replicate 6 0
def useOf (u : Uses) (y : Nat) : Nat := nth u 0 y
def addUses (a b : Uses) : Uses := (List.range 6).map (fun y => useOf a y + useOf b y)
def oneUse (y n : Nat) : Uses := setNth noUses y n
def anyUse (u : Uses) : Bool := u.any (· != 0)

/-- A place where control enters a block, with the values that hold the token there: itself and block arguments to which it was
passed. -/
structure TokNode where
  blk : Nat
  names : List Nat
  deriving DecidableEq, Repr

/-- The names that hold the token after an edge: block arguments take what is passed, and lose what they held. -/
def passNames (m : Module) (code : List Word) (n : Nat) (names : List Nat) (e : Nat × List Operand) : TokNode :=
  let bw := nth (blockWords code) 0 e.1
  let v0 := defsBefore m code bw
  let own := (List.range e.2.length).map (v0 + ·)
  let got := ((List.range e.2.length).zip e.2).filterMap (fun a => match a.2 with
    | .back d => if names.contains (n - d) then some (v0 + a.1) else none
    | _ => none)
  { blk := e.1, names := names.filter (fun v => !own.contains v) ++ got }

/-- The uses that the rest of a block makes, by engine, and where control goes with the token (R421). A value that is defined
again is a new one. -/
def walkUses (m : Module) (code : List Word) : List AWord → List Nat → Uses → Uses × List TokNode
  | [], _, u => (u, [])
  | x :: xs, names, u =>
    if names.isEmpty then (u, [])
    else if x.opc = 0x003 ∨ x.opc = 0x004 ∨ x.opc = 0x005 then (u, (edgesOf code x).map (passNames m code x.n names))
    else
      let here := oneUse (engineOf x.opc) (x.uses.filter names.contains).length
      walkUses m code xs (match x.val with | some v => names.filter (· != v) | none => names) (addUses u here)

/-- The words of a block from its first instruction on. -/
def blockBody (ws : List AWord) (code : List Word) (b : Nat) : List AWord :=
  ws.filter (fun x => x.blk == b && decide (blockStart code b ≤ x.ix))

/-- The nodes that can be reached, with the uses and the successors of each; `fuel` bounds their number. -/
def exploreUses (m : Module) (code : List Word) (ws : List AWord) : Nat → List TokNode → List (TokNode × Uses × List TokNode) →
    List (TokNode × Uses × List TokNode)
  | 0, _, seen => seen
  | _ + 1, [], seen => seen
  | f + 1, t :: ts, seen =>
    if seen.any (fun x => x.1 == t) then exploreUses m code ws f ts seen
    else
      let r := walkUses m code (blockBody ws code t.blk) t.names noUses
      exploreUses m code ws f (r.2 ++ ts) ((t, r.1, r.2) :: seen)

/-- The blocks from which a terminator other than `unreach` can be reached: an execution that ends in `unreach` is none that R421
counts (DEDUCED from the entry of tq.bm in spec/22; log 6). -/
def liveBlocks (code : List Word) (ws : List AWord) : Nat :=
  let next := ws.map (fun a => (a.blk, (edgesOf code a).map (·.1)))
  let ends := bitSet ((ws.filter (fun a => a.opc == 0x008 || a.opc == 0x009 || a.opc == 0x010)).map (·.blk))
  (List.range ws.length).foldl (fun s _ =>
    s ||| bitSet ((next.filter (fun p => p.2.any s.testBit)).map (·.1))) ends

/-- The greatest or the least number of each engine's uses over what can follow some nodes, as known so far. -/
def overNodes (big : Bool) (alive : Nat) (known : List (TokNode × Uses)) (ts : List TokNode) : Uses :=
  let us := (ts.filter (fun t => alive.testBit t.blk)).map (fun t => ((known.find? (fun k => k.1 == t)).map (·.2)).getD noUses)
  match us with
  | [] => noUses
  | u :: rest => rest.foldl (fun a b => (List.range 6).map (fun y =>
      if big then max (useOf a y) (useOf b y) else min (useOf a y) (useOf b y))) u

def useRound (big : Bool) (alive : Nat) (ns : List (TokNode × Uses × List TokNode)) (known : List (TokNode × Uses)) :
    List (TokNode × Uses) :=
  ns.map (fun n => (n.1, addUses n.2.1 (overNodes big alive known n.2.2)))

def useRounds (big : Bool) (alive : Nat) (ns : List (TokNode × Uses × List TokNode)) : Nat → List (TokNode × Uses)
  | 0 => []
  | k + 1 => useRound big alive ns (useRounds big alive ns k)

/-- What the translator knows of a token at a place: whether its uses differ between executions or can repeat, so that it is
carried through T, and the number of entries for each engine otherwise (R421). -/
structure TokPlan where
  carried : Bool
  used : Bool
  counts : Uses
  deriving DecidableEq, Repr

/-- The plan for a token held by some values, seen from a list of words of a block onward. -/
def planUses (m : Module) (code : List Word) (ws rest : List AWord) (names : List Nat) : TokPlan :=
  let r := walkUses m code rest names noUses
  let ns := exploreUses m code ws (4096 * (ws.length + 1)) r.2 []
  let k := ns.length + 1
  let alive := liveBlocks code ws
  let top := useRounds true alive ns k
  let most := addUses r.1 (overNodes true alive top r.2)
  let least := addUses r.1 (overNodes false alive (useRounds false alive ns k) r.2)
  { carried := useRound true alive ns top != top || (List.range 6).any (fun y => decide (2 ≤ y) && useOf most y != useOf least y)
    used := anyUse r.1 || ns.any (fun n => anyUse n.2.1)
    counts := most }

/-- The words of the block that holds word `ix`, behind it. -/
def wordsAfter (ws : List AWord) (code : List Word) (ix : Nat) : List AWord :=
  ws.filter (fun x => x.blk == blockOf code ix && decide (ix < x.ix))

end Sys2Proof.Machine
end

