-- ==== Sys2Proof/Machine/Lower.lean ====
section
/-!
DEFINITION. Lowering: the native operations that the translator makes of one portable instruction, with the fills, moves and spills
that its operands and its result need (R51 to R56, R101, R108, R142, R143, R153, R192, R421, and each operation's native fields).
-/
namespace Sys2Proof.Machine

/-! ### Native operations before they have a bundle -/

/-- A native operation with its fields; `guard` is a guard (register, bit, polarity), `tgt` and `join` are labels where a field
names a bundle, and `load` the value of a load that a `wait.cnt` waits for. -/
structure NOp where
  op : Op
  nt : Nat
  md : Nat
  dst : Nat
  sa : Nat
  sb : Nat
  sc : Nat
  aux : Nat
  guard : Option (Nat × Nat × Bool)
  tgt : Option Nat
  join : Option Nat
  load : Option Nat
  deriving DecidableEq, Repr

/-- An operation without operands. -/
def nop (op : Op) : NOp :=
  { op := op, nt := 0, md := 0, dst := 2047, sa := 2047, sb := 2047, sc := 2047, aux := 0, guard := none, tgt := none, join := none,
    load := none }

/-- The slot fields of an operation in a slot. -/
def nopForm (o : NOp) (slot : Nat) : NForm :=
  { slot := BitVec.ofNat 2 slot, ntype := BitVec.ofNat 4 o.nt, md := BitVec.ofNat 3 o.md, gs := if o.guard.isSome then 1 else 0
    dst := BitVec.ofNat 11 o.dst, sa := BitVec.ofNat 11 o.sa, sb := BitVec.ofNat 11 o.sb, sc := BitVec.ofNat 11 o.sc
    aux := BitVec.ofNat 12 o.aux }

/-- The native code of a type (R50). -/
def natCode (t : Ty) : Nat :=
  match t with
  | .i8 => 1 | .i16 => 2 | .i32 => 3 | .i64 => 4 | .f16 => 5 | .bf16 => 6 | .f32 => 7 | .f64 => 8 | .b8 _ _ => 9 | .sc8 => 10
  | .i1 => 11 | .ptrG | .ptrP => 12 | .ptrS | .ptrK => 13 | _ => 0
/-- The code under which a value moves: a binary8 value as `i8` (R50). -/
def carryCode (t : Ty) : Nat := match t with | .b8 _ _ => 1 | _ => natCode t
/-- The code of a mover (R154). -/
def moveCode (t : Ty) : Nat := if tyWidth t = 64 then 4 else 3
/-- The variant of a binary8 type in five bits (R50). -/
def variantOf (t : Ty) : Nat := match t with | .b8 v p => v.val * 8 + p.val | _ => 0

/-! ### The function under translation -/

/-- What lowering knows of the function: its analysis, its varying values and divergent blocks, and the homes under the key. -/
structure Xl where
  m : Module
  k : TKey
  f : Func
  w : Analysis
  varying : Nat
  regions : Nat
  calls : Nat
  homes : List (Nat × VHome)
  copies : List (Nat × Nat)
  spare : Nat
  deriving DecidableEq, Repr

/-- Sixteen caller-saved vector registers that are no home of the function's values, for what the four fill registers do not hold;
without such a run, the fill registers again (R143, R148; log 86). -/
def spareRun (cap : Nat) (homes : List (Nat × VHome)) : Nat :=
  let taken := (homes.foldl (fun s h => match h.2 with | .vec r => s ||| (3 <<< r) | _ => s) 0)
  (((List.range ((cap / 2 - 4) / 2)).map (2 * ·)).find? (fun b => decide (b + 16 ≤ cap / 2 - 4) && taken >>> b % 2 ^ 16 == 0)).getD
    (cap / 2 - 4)

def xlOf (m : Module) (k : TKey) (h : Homes) : Xl :=
  let f := nth m.funcs funcZero k.fidx
  let w := analyse m f
  let v := varyingOf w f.code
  { m := m, k := k, f := f, w := w, varying := v, regions := divergent w v, calls := callRegions w v, homes := h.homes,
    copies := h.copies, spare := spareRun k.cap h.homes }

/-- Whether the key is a plain one. -/
def Xl.plain (x : Xl) : Bool := x.k.mode % 2 == 1
def Xl.home (x : Xl) (v : Nat) : Option VHome := (x.homes.find? (fun h => h.1 == v)).map (·.2)
def Xl.ty (x : Xl) (v : Nat) : Ty := nth x.w.types .none v
/-- The type that a TYPE index names. -/
def Xl.tyIx (x : Xl) (i : Nat) : Ty := (tyOfCode (nth x.f.types 0 i).toNat).getD .none
/-- The type of an operand of a word with `n` values before it; one that is no value takes the type given. -/
def Xl.opTy (x : Xl) (n : Nat) (o : Operand) (t : Ty) : Ty := match o with | .back d => x.ty (n - d) | _ => t

/-! ### Sources -/

/-- Where a source stands: an operand code, a bit of a scalar register, a spill slot, a literal. -/
inductive Src where
  | code (c : Nat)
  | bit (r b : Nat)
  | slot (k : Nat)
  | lit (w : Word)
  deriving DecidableEq, Repr

def homeSrc (h : VHome) : Src := match h with | .vec r => .code r | .sca r => .code (1536 + r) | .bit r b => .bit r b | .slot k => .slot k

/-- An immediate: zero, an entry of the constant table, all ones, or a literal (R53, R54). -/
def immSrc (t : Ty) (i : Int) : Src :=
  if i = 0 then .code 1920
  else if t = .i1 ∨ (isInt t ∧ i = -1) then .code 1921
  else if 0 ≤ i ∧ i < 128 ∧ constOk (natCode t) i.toNat then .code (1664 + i.toNat)
  else .lit (immVal t i)

/-- A word as a source: zero, all ones of its width, or a literal. -/
def wordSrc (t : Ty) (v : Word) : Src :=
  if v = 0 then .code 1920 else if v = wrap (tyWidth t) (-1) then .code 1921 else .lit v

/-- A source as a mover reads it. No mover has a floating NTYPE, so a floating entry of the constant table moves as a literal (R54,
R154). -/
def moveSrc (t : Ty) (s : Src) : Src :=
  match s with
  | .code c => if decide (1664 ≤ c) && decide (c < 1920) && isFloat t then .lit (immVal t (c - 1664 : Nat)) else s
  | _ => s

/-- Where a value is read at a word: its home, or its copy in a divergent region that holds a call (R149). -/
def Xl.valSrc (x : Xl) (blk v : Nat) : Src :=
  match if x.calls.testBit blk then x.copies.find? (fun c => c.1 == v) else none with
  | some c => .slot c.2
  | none => ((x.home v).map homeSrc).getD (.code 1920)

/-- An operand of a word as a source. -/
def Xl.src (x : Xl) (a : AWord) (o : Operand) (t : Ty) (signed : Bool) : Src :=
  match o with
  | .back d => x.valSrc a.blk (a.n - d)
  | .imm v => immSrc t v.toInt
  | .konst i => .lit (lowBits (tyWidth t) (nth x.f.consts 0 i.toNat))
  | .special v => wordSrc t (specialVal t signed v.toNat)
  | .index i => wordSrc .i32 (BitVec.ofNat 64 i.toNat)
  | .none => .code 2047

/-! ### Emission for one word -/

/-- What has been emitted: the literals of the translation, and for the present word its operations, with the numbers of fill
registers and of scalar temporaries taken; `div` in a divergent region, where the paths of a warp share the scalar temporaries
(R149). -/
structure Em where
  lits : List Word
  ops : List NOp
  vt : Nat
  st : Nat
  div : Bool
  deriving DecidableEq, Repr

def Em.add (e : Em) (o : NOp) : Em := { e with ops := e.ops ++ [o] }
/-- Temporaries are free again. -/
def Em.free (e : Em) : Em := { e with vt := 0, st := 0 }

/-- The index of a literal. -/
def Em.lit (e : Em) (w : Word) : Em × Nat :=
  match (List.range e.lits.length).find? (fun i => nth e.lits 0 i == w) with
  | some i => (e, i)
  | none => ({ e with lits := e.lits ++ [w] }, e.lits.length)

/-- The next `n` vector temporaries in a row, the first even when asked: fill registers while the four last, then spare registers
(R143; log 86). -/
def Em.vecs (e : Em) (x : Xl) (even : Bool) (n : Nat) : Em × Nat :=
  let i := if even then (e.vt + 1) / 2 * 2 else e.vt
  let j := if i < 4 ∧ 4 < i + n then 4 else i
  ({ e with vt := j + n }, if j + n ≤ 4 then x.k.cap / 2 - 4 + j else x.spare + (j - 4) % 16)
/-- The next vector temporary, a wide value in an even pair. -/
def Em.vec (e : Em) (x : Xl) (wide : Bool) : Em × Nat := e.vecs x wide (if wide then 2 else 1)
/-- The next scalar temporary, from s96; s123 is kept for the restore base (R148). -/
def Em.sca (e : Em) : Em × Nat := ({ e with st := e.st + 1 }, 96 + e.st % 27)

/-- `smov.lit` of a literal. -/
def Em.smovLit (e : Em) (t : Ty) (r : Nat) (w : Word) : Em :=
  let l := e.lit w
  l.1.add { nop .smov with nt := moveCode t, md := 1, dst := 1536 + r, aux := l.2 }

/-- A 32-bit literal made in vector register `r`, seven bits at a time from the constant table (log 86). -/
def Em.build (e : Em) (r v : Nat) : Em :=
  let k := (List.range 5).find? (fun j => decide (v < 128 ^ (j + 1)))
  let top := k.getD 4
  let con : Nat → Nat := fun c => if c = 0 then 1920 else 1664 + c
  (List.range top).foldl (fun e j =>
    let d := v / 128 ^ (top - 1 - j) % 128
    let s := e.add { nop .shl with nt := 3, dst := r, sa := r, sb := con 7 }
    if d = 0 then s else s.add { nop .or with nt := 3, dst := r, sa := r, sb := con d })
    (e.add { nop .vmov with nt := 3, dst := r, sa := con (v / 128 ^ top) })
/-- A literal in a vector register. -/
def Em.vecLit (e : Em) (x : Xl) (t : Ty) (w : Word) : Em × Nat :=
  let wide := tyWidth t == 64
  let r := e.vec x wide
  let lo := r.1.build r.2 (w.toNat % 2 ^ 32)
  (if wide then lo.build (r.2 + 1) (w.toNat / 2 ^ 32) else lo, r.2)

/-- The operand code of a source, with what must be done before: a literal and a bit come through a scalar temporary, and in a
divergent region through a fill register; a slot comes through a fill register, or for a uniform operation through a scalar
temporary. -/
def Em.code (e : Em) (x : Xl) (s : Src) (t : Ty) (uni : Bool) : Em × Nat :=
  match s with
  | .code c => (e, c)
  | .lit w => if e.div then e.vecLit x t w else let r := e.sca; (r.1.smovLit t r.2 w, 1536 + r.2)
  | .bit r b =>
    if e.div then
      let q := e.vec x false
      (q.1.add { nop .select with nt := 11, dst := q.2, sa := 1536 + r, sb := 1921, sc := 1920, aux := 64 + b }, q.2)
    else
    let q := e.sca; (q.1.add { nop .bfx with nt := 4, md := 1, dst := 1536 + q.2, sa := 1536 + r, sb := if b < 128 then 1664 + b else 1920, aux := 1 }, 1536 + q.2)
  | .slot k =>
    let u := uni && !e.div
    let r := if u then e.sca else e.vec x (tyWidth t == 64)
    let c := if u then 1536 + r.2 else r.2
    (r.1.add { nop .fill with nt := moveCode t, dst := c, aux := k }, c)

/-- A vector register that holds what an operand code names. -/
def Em.toVec (e : Em) (x : Xl) (t : Ty) (c : Nat) : Em × Nat :=
  if c < 1536 then (e, c) else
  let q := e.code x (moveSrc t (.code c)) t false
  if q.2 < 1536 then q else
  let r := q.1.vec x (tyWidth t == 64)
  (r.1.add { nop .vmov with nt := moveCode t, dst := r.2, sa := q.2 }, r.2)
/-- A scalar register that holds what an operand code names. -/
def Em.toSca (e : Em) (t : Ty) (c : Nat) : Em × Nat :=
  if 1536 ≤ c ∧ c < 1664 then (e, c) else
  let r := e.sca
  (match moveSrc t (.code c) with
    | .lit w => r.1.smovLit t r.2 w
    | _ => r.1.add { nop (if c < 1536 then .v2s else .smov) with nt := moveCode t, dst := 1536 + r.2, sa := c }, 1536 + r.2)

/-- An operand code that a class accepts. -/
def Em.fit (e : Em) (x : Xl) (k : Cls) (nt : Nat) (t : Ty) (c : Nat) : Em × Nat :=
  if srcOk x.k.cap k nt c then (e, c) else if k.vec then e.toVec x t c else if k.sca then e.toSca t c else (e, c)

/-- A move of a source into a home (R143, R153). -/
def Em.move (e : Em) (x : Xl) (t : Ty) (h : VHome) (s0 : Src) : Em :=
  let s := moveSrc t s0
  match h with
  | .vec r =>
    let c := e.code x s t false
    if c.2 = r then e else c.1.add { nop .vmov with nt := moveCode t, dst := r, sa := c.2 }
  | .sca r => match s with
    | .lit w => e.smovLit t r w
    | _ =>
      let c := e.code x s t true
      if c.2 = 1536 + r then e
      else c.1.add { nop (if c.2 < 1536 then .v2s else .smov) with nt := moveCode t, dst := 1536 + r, sa := c.2 }
  | .bit r b =>
    if s = .bit r b then e else
    match s with
    | .code 1920 => e.add { nop .pclr with nt := 11, dst := 1536 + r, aux := b }
    | .code 1921 => e.add { nop .pset with nt := 11, dst := 1536 + r, aux := b }
    | _ =>
      let c := e.code x s t true
      let q := c.1.toSca t c.2
      q.1.add { nop .pset with nt := 11, dst := 1536 + r, sa := q.2, aux := b }
  | .slot k =>
    if s = .slot k then e else
    let c := e.code x s t false
    let q := if c.2 < 1664 then c else c.1.toVec x t c.2
    q.1.add { nop .spill with nt := moveCode t, sa := q.2, aux := k }

/-! ### What each operation asks for -/

/-- An operation's fields but for its registers: sources in order with their types and whether they are read as signed, extra
operands, the type of the result, and for an engine command its push specification. -/
structure NSpec where
  op : Op
  nt : Nat
  md : Nat
  aux : Nat
  srcs : List (Operand × Ty × Bool)
  extras : List (Operand × Ty)
  push : Option Nat
  dt : Ty
  deriving DecidableEq, Repr

/-- The values whose definitions a token value may come from, through block arguments. -/
def tokOrigins (x : Xl) (edges : List (AWord × Nat × List Operand)) : Nat → List Nat → List Nat → List Nat
  | 0, _, seen => seen
  | _ + 1, [], seen => seen
  | f + 1, v :: vs, seen =>
    if seen.contains v then tokOrigins x edges f vs seen else
    let d := nth x.w.defs aWordZero v
    let more := if d.opc = 0x002 then
        edges.filterMap (fun e => if e.2.1 = d.blk then
          (match nth e.2.2 .none (d.ix - nth x.w.blocks 0 d.blk - 1) with | .back b => some (e.1.n - b) | _ => none) else none)
      else []
    tokOrigins x edges f (more ++ vs) (v :: seen)

/-- The plan for the token that a value's definition produces (R421). -/
def Xl.tokPlanOf (x : Xl) (v : Nat) : TokPlan :=
  planUses x.m x.f.code x.w.words (wordsAfter x.w.words x.f.code (nth x.w.defs aWordZero v).ix) [v]

/-- Whether the producer's own entries serve every use of a token. -/
def direct (p : TokPlan) : Bool := !p.carried && p.counts.all (fun n => decide (n ≤ 3))

/-- The values whose definitions a token value comes from. -/
def Xl.originsOf (x : Xl) (v : Nat) : List Nat :=
  let edges := x.w.words.flatMap (fun y => (edgesOf x.f.code y).map (fun e => (y, e)))
  (tokOrigins x edges (x.w.defs.length * (x.w.words.length + 1) + 1) [v] []).filter (fun u => (nth x.w.defs aWordZero u).opc != 0x002)

/-- Whether a token is used behind a word that holds it under a name. -/
def Xl.usedAfter (x : Xl) (a : AWord) (v : Nat) : Bool :=
  (planUses x.m x.f.code x.w.words (wordsAfter x.w.words x.f.code a.ix) [v]).used

/-- The engine code of the queue in which a carried token waits: its producer's, or T's own once an earlier use has carried it on;
such a token goes to T's queue as it is made (log 90). -/
def Xl.carryFrom (x : Xl) (d : Nat) : Nat :=
  let again := x.w.words.any (fun a => a.uses.any (fun v =>
    nth x.w.types .none v == .tok && (edgesOf x.f.code a).isEmpty && (x.originsOf v).contains d && x.usedAfter a v))
  if again then 1 else engineOf (nth x.w.defs aWordZero d).opc

/-- Whether a token comes to its uses carried, and the engine code of the queue that the use pops (R101, R421). -/
def Xl.tokQueue (x : Xl) (v : Nat) : Bool × Nat :=
  let ds := x.originsOf v
  let codes := ds.map (fun u => if direct (x.tokPlanOf u) then engineOf (nth x.w.defs aWordZero u).opc else 1)
  (ds.any (fun u => (x.tokPlanOf u).carried), if codes.all (· == codes.headD 1) then codes.headD 1 else 1)

/-- A push specification for numbers of entries by engine (R108). -/
def pushSpec (u : Uses) : Nat :=
  useOf u 1 % 4 * 256 + useOf u 2 % 4 * 64 + useOf u 3 % 4 * 16 + useOf u 4 % 4 * 4 + useOf u 5 % 4

/-- The push specification of a producer: its own entries, or one for T (R421). -/
def Xl.pushOf (x : Xl) (v : Nat) : Nat :=
  let p := x.tokPlanOf v
  pushSpec (if direct p then p.counts else oneUse 1 1)

/-- The pop codes of AUX[8:0] for some tokens (R108). -/
def Xl.pops (x : Xl) (n : Nat) (toks : List Operand) : Nat :=
  let q := toks.map (fun o => match o with | .back d => (x.tokQueue (n - d)).2 | _ => 0)
  nth q 0 0 * 64 + nth q 0 1 * 8 + nth q 0 2

/-- The field of a space: scratch 1, stack 2 (R135). -/
def spaceField (t : Ty) : Nat := match t with | .ptrS => 16 | .ptrK => 32 | _ => 0

/-- An immediate operand that may be left out. -/
def immOr0 (o : Operand) : Nat := match o with | .imm v => v.toInt.toNat | _ => 0
def immSet (o : Operand) (i : Int) : Bool := immOf o == i

/-- The token operands of a word (R24, R107, R257). -/
def tokensOf (op : Op) (f : PForm) : List Operand :=
  let k := immOr0 f.c / 16
  match op with
  | .waitTok | .tokStatus | .cpWon | .cpMax | .cpDie | .cpRound => [f.a]
  | .tokAll => [f.a, f.b, f.c].filter (· != .none)
  | .bxShape => f.ext
  | .bxCopy | .bxConv | .bxRed | .bxFill => (f.ext.drop f.md.toNat).take k
  | .bxGather | .bxScatter => (f.ext.drop (f.md.toNat + 1)).take k
  | .mxZero | .mxLd | .mxStore | .mxMode | .cpBid | .cvTurn => f.ext.take k
  | .mxStep => (f.ext.drop (if 2 ≤ f.md.toNat then 1 else 0)).take k
  | .mxLoop => (f.ext.drop (if 2 ≤ f.md.toNat then 5 else 3)).take k
  | _ => []

/-- What the translator asks of a portable word: its native operation and fields. -/
def Xl.spec (x : Xl) (op : Op) (a : AWord) : NSpec :=
  let f := a.form
  let t := x.tyIx f.ty.toNat
  let md := f.md.toNat
  let e0 := nth f.ext .none 0
  let ta := x.opTy a.n f.a t
  let base : NSpec := { op := op, nt := natCode t, md := md, aux := 0, srcs := [], extras := [], push := none, dt := t }
  let on : List (Operand × Ty) → NSpec := fun l => { base with srcs := l.map (fun p => (p.1, p.2, false)) }
  let bare : Nat → NSpec := fun nt => { base with nt := nt }
  let sx := md == 0
  let narrow := if isB8 t then variantOf t else variantOf ta
  let eng : Nat → List (Operand × Ty) → List (Operand × Ty) → NSpec := fun k l es =>
    { base with nt := 0, aux := k * 512 + x.pops a.n (tokensOf op f), srcs := l.map (fun p => (p.1, p.2, false)), extras := es
                push := some (match a.val with | some v => x.pushOf v | none => 0) }
  let mem : List (Operand × Ty) → Nat → NSpec := fun l aux => { on l with nt := carryCode t, aux := spaceField ta + aux }
  match op with
  | .exit | .yield => bare 0
  | .trap => { bare 0 with aux := immNat f.a }
  | .unreach => { bare 0 with op := .trap, md := 1 }
  | .sreg => { base with aux := immNat f.a }
  | .select => { on [(f.a, .i1), (f.b, t), (f.c, t)] with nt := carryCode t }
  | .trapInfo => bare (if md = 4 then 4 else if md = 5 then 11 else 3)
  | .trapRet => if f.a = .none then bare 0 else { on [(f.a, t)] with nt := carryCode t }
  | .bfx => { base with aux := immNat f.c, srcs := [(f.a, t, sx), (f.b, t, false)] }
  | .bfi => { on [(f.a, t), (f.b, t), (f.c, t)] with aux := immNat e0 }
  | .ext | .trunc => { base with aux := natCode ta, srcs := [(f.a, ta, op == .ext && sx)] }
  | .icmp | .fcmp =>
    let ct := match f.a with | .back d => x.ty (a.n - d) | _ => x.opTy a.n f.b .i32
    let sg := op == .icmp && (md == 2 || md == 3 || md == 6)
    { base with nt := natCode ct, srcs := [(f.a, ct, sg), (f.b, ct, sg)] }
  | .adr =>
    let it := x.opTy a.n f.b .i32
    if md < 2 then { base with aux := (if f.c = .none then 1 else immNat f.c) + (if it = .i64 then 2048 else 0), srcs := [(f.a, t, false), (f.b, it, sx)] }
    else on [(f.a, ta), (f.b, x.opTy a.n f.b ta)]
  | .bsel => on [(f.a, t), (f.b, t), (f.c, .i32)]
  | .fclass => { on [(f.a, ta)] with nt := 3, aux := natCode ta + 16 * variantOf ta }
  | .fcvt => { on ((f.a, ta) :: (if md = 6 then [(f.b, .i64)] else [])) with
      aux := 32 * natCode ta + narrow + (if immSet f.c 1 then 512 else 0) }
  | .frint => { on [(f.a, t)] with aux := if immSet f.c 1 then 1 else 0 }
  | .fcvti | .icvtf => { on [(f.a, ta)] with aux := natCode ta + (if immSet f.c 1 then 16 else 0) }
  | .fscaleb => on [(f.a, t), (f.b, .i32)]
  | .flogb => { on [(f.a, ta)] with nt := 3, aux := natCode ta }
  | .fexcRd => bare 3
  | .fexcClr => { bare 0 with aux := immNat f.a }
  | .fmodeSet => { on [(f.a, .i32), (f.b, .i64)] with nt := 0 }
  | .fmodeRd => bare (if md = 1 then 4 else 3)
  | .pk8 => { on ([(f.a, .f32), (f.b, .f32)] ++ (if md = 6 then [(f.c, .i64)] else [])) with
      nt := 9, aux := variantOf (x.tyIx (immNat e0 % 16)) + (if (immNat e0).testBit 4 then 32 else 0) }
  | .upk8 => { on [(f.a, .i32)] with nt := 9, aux := variantOf (x.tyIx (immNat f.c % 16)) + 32 * immNat f.b }
  | .bscale => { on [(f.a, t), (f.b, .sc8)] with aux := if immSet f.c 1 then 1 else 0 }
  | .lanex => { on [(f.a, t), (f.b, .i32), (f.c, t)] with aux := variantOf t }
  | .vote => { on [(f.a, ta)] with nt := if md = 3 then natCode ta else 11, aux := if md = 3 then variantOf ta else 0 }
  | .lgred | .lgscan => { base with aux := immOr0 f.b, srcs := [(f.a, t, true)] }
  | .matchLanes => { on [(f.a, ta)] with nt := natCode ta, aux := variantOf ta }
  | .sfEval => on [(f.a, t)]
  | .sfLoad => { on [(f.a, ta)] with nt := 3, aux := spaceField ta }
  | .ld => mem [(f.a, ta)] (immOr0 f.b)
  | .st => mem [(f.a, ta), (f.b, t)] (immOr0 f.c)
  | .prefetch => { on [(f.a, ta)] with nt := 0 }
  | .amo | .red => mem [(f.a, ta), (f.b, t)] (immNat f.c % 16 * 256 + immNat f.c / 16 % 8 + (if immNat f.c / 128 % 2 = 1 then 128 else 0))
  | .cas => mem [(f.a, ta), (f.b, t), (f.c, t)] (immOr0 e0)
  | .fence => { bare 0 with aux := immOr0 f.a }
  | .bxShape => eng (immOr0 f.b % 8) [(f.a, ta)] []
  | .bxCopy | .bxConv | .bxRed => eng (immOr0 f.c % 8) [(f.a, ta), (f.b, x.opTy a.n f.b t)] ((f.ext.take md).map (·, .i32))
  | .bxFill => eng (immOr0 f.c % 8) [(f.a, ta), (f.b, .i64)] ((f.ext.take md).map (·, .i32))
  | .bxGather | .bxScatter =>
    eng (immOr0 f.c % 8) [(f.a, ta), (f.b, x.opTy a.n f.b t)] ((e0, .ptrS) :: ((f.ext.drop 1).take md).map (·, .i32))
  | .waitTok => { bare 11 with aux := 64 * (x.pops a.n [f.a] / 64) }
  | .tokStatus => { bare 3 with aux := 64 * (x.pops a.n [f.a] / 64) }
  | .tokAll => eng 0 [] []
  | .waitChunks => { on [(f.a, .ptrS), (f.b, .i32)] with nt := 11 }
  | .testChunks => { on [(f.a, .ptrS), (f.b, .i32)] with nt := 4 }
  | .clrChunks => { on [(f.a, .ptrS), (f.b, .i32)] with nt := 0 }
  | .mxZero => eng (immOr0 f.c % 8) [] []
  | .mxLd | .mxStore => eng (immOr0 f.c % 8) [(f.a, .ptrS)] []
  | .mxStep => eng (immOr0 f.c % 8) ([(f.a, .ptrS), (f.b, .ptrS)] ++ (if 2 ≤ md then [(e0, .ptrS)] else [])) []
  | .mxLoop => eng (immOr0 f.c % 8) [(f.a, .ptrS), (f.b, .ptrS)] ((f.ext.take (if 2 ≤ md then 5 else 3)).map (·, .i32))
  | .mxMode => eng 0 [(f.a, .i64)] []
  | .mxRead => { on (if md = 0 then [(f.b, .i32), (f.c, .i32)] else []) with aux := immOr0 f.a % 8 * 512 }
  | .xcSwap => { on [(f.a, ta), (f.b, .i32)] with nt := 4 }
  | .barJoin | .barLeave => { on [(f.a, .ptrS)] with nt := 0 }
  | .barArrive => { on [(f.a, .ptrS)] with nt := 3 }
  | .barWait => { on [(f.a, .ptrS), (f.b, .i32)] with nt := 11 }
  | .barSync => { on [(f.a, .ptrS)] with nt := 11 }
  | .cpKey => { on [(f.a, ta)] with nt := 4, aux := natCode ta }
  | .cpBid => eng 0 [(f.a, .i32), (f.b, .i64)] []
  | .cpGate => { on [(f.a, .i32), (f.b, .i32)] with nt := 0 }
  | .cpWon => { bare 11 with aux := 64 * (x.pops a.n [f.a] / 64) }
  | .cpMax => { bare 4 with aux := 64 * (x.pops a.n [f.a] / 64) }
  | .cpDie | .cpRound => { bare 3 with aux := 64 * (x.pops a.n [f.a] / 64) }
  | .cpLast => { on [(f.a, .i32)] with nt := if md = 0 then 4 else 3 }
  | .cvTurn => eng 0 [(f.a, .i32)] []
  | .cvSplit => bare 3
  | .brk => { bare 0 with aux := immNat f.a }
  | .dbgMark => { on [(f.b, x.opTy a.n f.b t)] with nt := if f.b = .none then 0 else natCode (x.opTy a.n f.b t), aux := immNat f.a }
  | .rdclk => bare 4
  | .rdcnt => { bare 4 with aux := immNat f.a }
  | .sys => { on [(f.b, .i64)] with nt := 4, aux := immNat f.a }
  | .mul | .mulhi | .add | .sub | .mad | .div | .rem | .neg | .abs | .min | .max | .and | .or | .xor | .andn | .not | .shl | .shr
  | .rotl | .rotr | .popc | .clz | .ctz | .brev =>
    let sg := match op with
      | .mul | .and | .or | .xor | .andn | .not | .shl | .rotl | .rotr | .popc | .clz | .ctz | .brev => false
      | .add | .sub | .mad => md == 1
      | .neg | .abs => md == 1
      | _ => md == 0
    { base with srcs := [f.a, f.b, f.c].map (fun o => (o, t, sg)) }
  | .fadd | .fsub | .fmul | .fdiv | .fsqrt | .fma | .fmin | .fmax | .fneg | .fabs | .fcopysign => on ([f.a, f.b, f.c].map (·, t))
  | .br | .brc | .switch | .call | .callx | .ret | .const | .spill | .fill | .vmov | .smov | .v2s | .s2v | .pset | .pclr | .pathSplit
  | .pathJoin | .waitCnt | .tqPop | .tqPush | .jmp | .ncall | .nret | .frameEnter | .frameLeave | .entry | .bnop => base

/-! ### Lowering a word -/

/-- The slots that an operation may take: a result in a scalar register is made in slot 0 where the operation can run there; a
comparison prefers slot 2 among the vector slots, as in the translation of `scale` (log 61). -/
def slotsFor (op : Op) (uniform : Bool) : List Nat :=
  let s := opSlots op
  if !s.contains 0 || s.length < 3 then s
  else if uniform then [0] else if op = .icmp ∨ op = .fcmp then [2, 1] else [1, 2]

/-- Whether an operand is uniform. -/
def Xl.even (x : Xl) (a : AWord) (o : Operand) : Bool := match o with | .back d => !x.varying.testBit (a.n - d) | _ => true

/-- A 32-bit source put into a register of a run. -/
def Em.into (e : Em) (x : Xl) (t : Ty) (s : Src) (c : Nat) : Em :=
  match s with
  | .lit w => if c < 1536 then e.build c (w.toNat % 2 ^ 32) else e.smovLit t (c - 1536) w
  | .slot k => e.add { nop .fill with nt := moveCode t, dst := c, aux := k }
  | _ =>
    let q := e.code x s t (decide (1536 ≤ c))
    q.1.add { nop (if c < 1536 then .vmov else .smov) with nt := moveCode t, dst := c, sa := q.2 }

/-- Extra operands in consecutive registers (R108): as they stand when they are so, else in scalar temporaries when none varies, else
in vector temporaries. -/
def Em.run (e : Em) (x : Xl) (a : AWord) (es : List (Operand × Ty)) : Em × Nat :=
  let ss := es.map (fun p => (moveSrc p.2 (x.src a p.1 p.2 true), p.2))
  match (ss.head?).map (·.1) with
  | none => (e, 2047)
  | some s0 =>
    let at_ : Nat → Nat → Src → Bool := fun c j s => decide (c < 1664) && s == .code (c + j)
    let row := match s0 with
      | .code c => ((List.range ss.length).zip ss).all (fun p => at_ c p.1 p.2.1)
      | _ => false
    if row then (e, match s0 with | .code c => c | _ => 2047) else
    let r := if !e.div && es.all (fun p => x.even a p.1)
      then ({ e with st := e.st + es.length }, 1536 + 96 + e.st) else e.vecs x false es.length
    (((List.range ss.length).zip ss).foldl (fun z p => z.into x p.2.2 p.2.1 (r.2 + p.1)) r.1, r.2)

/-- The sources of an operation as codes that its classes accept. An access that each lane makes for itself takes its address in a
vector register: through a scalar one the first active lane alone makes it (R135, R268). -/
def Em.sources (e : Em) (x : Xl) (a : AWord) (s : NSpec) (uni : Bool) (draft : NOp) (slot : Nat) : Em × List Nat :=
  let raw := s.srcs.foldl (fun (z : Em × List Nat) p =>
    if s.op = .select ∧ z.2.isEmpty then match x.src a p.1 .i1 false with
      | .bit r _ => (z.1, [1536 + r])
      | q => let c := z.1.code x q .i1 uni; (c.1, [c.2])
    else let c := z.1.code x (x.src a p.1 p.2.1 p.2.2) p.2.1 uni; (c.1, z.2 ++ [c.2])) (e, [])
  let t := shapeOf s.op (nopForm { draft with sa := nth raw.2 2047 0 } slot)
  let cls := [(t.a, t.at_), (t.b, t.bt), (t.c, t.ct)]
  ((List.range raw.2.length).zip raw.2).foldl (fun (z : Em × List Nat) p =>
    let k := nth cls (clsNone, 0) p.1
    let ta := (nth s.srcs (.none, .none, false) 0).2.1
    let spread := p.1 == 0 && ([Op.amo, .cas, .red].contains s.op || (s.op == .st && decide (nth raw.2 2047 1 < 1536)) ||
      ([Op.ld, .st].contains s.op && ta == .ptrK))
    let c := if spread then z.1.toVec x ta p.2
      else z.1.fit x k.1 k.2 (nth s.srcs (.none, .none, false) p.1).2.1 p.2
    (c.1, z.2 ++ [c.2])) (raw.1, [])

/-- The bit that a scalar condition of `select` stands in. -/
def condBit (x : Xl) (a : AWord) (o : Operand) : Nat := match x.src a o .i1 false with | .bit _ b => b | _ => 0

/-- A portable word other than a terminator, a call or `const` becomes its native operation, between what its operands and its
result need. -/
def Em.word (e0 : Em) (x : Xl) (op : Op) (a : AWord) : Em :=
  let s := x.spec op a
  let e := { e0.free with ops := [], div := x.regions.testBit a.blk }
  let uniform := match a.val with | some v => !x.varying.testBit v | none => false
  let slot := (slotsFor s.op uniform).headD 0
  let uni := uniform && slot == 0
  let draft : NOp := { nop s.op with nt := s.nt, md := s.md, aux := s.aux }
  let r := e.run x a s.extras
  let q := r.1.sources x a s uni draft slot
  let scalarCond := s.op == .select && decide (1536 ≤ nth q.2 2047 0)
  let o : NOp := { draft with
    sa := nth q.2 2047 0, sb := nth q.2 2047 1, sc := if s.extras.isEmpty then nth q.2 2047 2 else r.2
    aux := if scalarCond then 64 + condBit x a a.form.a else s.aux }
  match s.push, a.val with
  | some p, _ => q.1.add { o with dst := p }
  | none, none => q.1.add o
  | none, some v =>
    let t := x.ty v
    let shape := shapeOf s.op (nopForm o slot)
    let scalarOnly := shape.dst == .sca || shape.dst == .scaN
    let scalarToo := scalarOnly || shape.dst == .any || shape.dst == .anyN
    match x.home v with
    | none => q.1.add o
    | some (.vec d) =>
      if scalarOnly then
        let g := q.1.sca
        (g.1.add { o with dst := 1536 + g.2 }).add { nop .vmov with nt := moveCode t, dst := d, sa := 1536 + g.2 }
      else q.1.add { o with dst := d }
    | some (.sca d) =>
      if scalarToo then q.1.add { o with dst := 1536 + d }
      else
        let g := { q.1 with vt := 0 }.vec x (tyWidth t == 64)
        (g.1.add { o with dst := g.2 }).add { nop .v2s with nt := moveCode t, dst := 1536 + d, sa := g.2 }
    | some (.bit d b) =>
      if scalarToo ∧ (s.op = .icmp ∨ s.op = .fcmp) then q.1.add { o with dst := 1536 + d, aux := 64 + b }
      else if scalarToo then
        let g := q.1.sca
        (g.1.add { o with dst := 1536 + g.2 }).add { nop .pset with nt := 11, dst := 1536 + d, sa := 1536 + g.2, aux := b }
      else
        let g := { q.1 with vt := 0 }.vec x false
        let h := (g.1.add { o with dst := g.2 }).toSca .i32 g.2
        h.1.add { nop .pset with nt := 11, dst := 1536 + d, sa := h.2, aux := b }
    | some (.slot k) =>
      if scalarToo ∧ (scalarOnly ∨ uni) then
        let g := q.1.sca
        (g.1.add { o with dst := 1536 + g.2 }).add { nop .spill with nt := moveCode t, sa := 1536 + g.2, aux := k }
      else
        let g := { q.1 with vt := 0 }.vec x (tyWidth t == 64)
        (g.1.add { o with dst := g.2 }).add { nop .spill with nt := moveCode t, sa := g.2, aux := k }

/-! ### Parallel moves (R34, R150, R192) -/

/-- A move of one value among several that take place together. -/
structure Mv where
  t : Ty
  h : VHome
  s : Src
  deriving DecidableEq, Repr

/-- The registers and slots of a home or a source; 4096 and up are slots. -/
def homeUnits (wide : Bool) (h : VHome) : List Nat :=
  match h with
  | .vec r => if wide then [r, r + 1] else [r]
  | .sca r => (List.range 64).map (fun b => 8192 + 64 * r + b)
  | .bit r b => [8192 + 64 * r + b]
  | .slot k => if wide then [4096 + k, 4096 + k + 1] else [4096 + k]
def srcUnits (wide : Bool) (s : Src) : List Nat :=
  match s with
  | .code c => if c < 1536 then (if wide then [c, c + 1] else [c]) else if c < 1664 then (List.range 64).map (fun b => 8192 + 64 * (c - 1536) + b) else []
  | .bit r b => [8192 + 64 * r + b]
  | .slot k => if wide then [4096 + k, 4096 + k + 1] else [4096 + k]
  | .lit _ => []

/-- Moves in an order in which none overwrites what another still reads; a cycle goes through a temporary. -/
def orderMoves (x : Xl) : Nat → Em → List Mv → Em
  | 0, e, _ => e
  | _ + 1, e, [] => e
  | fuel + 1, e, ms =>
    let free := fun (m : Mv) => !(ms.erase m).any (fun n => meets (homeUnits (tyWidth m.t == 64) m.h) (srcUnits (tyWidth n.t == 64) n.s))
    match ms.find? free with
    | some m => orderMoves x fuel ({ e with vt := 0, st := 0 }.move x m.t m.h m.s) (ms.erase m)
    | none => match ms with
      | m :: rest =>
        let tmp : VHome := match m.h with | .vec _ | .slot _ => .vec (x.k.cap / 2 - 2) | _ => .sca 122
        orderMoves x fuel (e.move x m.t tmp m.s) ({ m with s := homeSrc tmp } :: rest)
      | [] => e

/-- Moves that change something, in a good order. -/
def Em.moves (e : Em) (x : Xl) (ms : List Mv) : Em :=
  let real := ms.filter (fun m => homeSrc m.h != m.s)
  orderMoves x (2 * real.length + 1) e real

end Sys2Proof.Machine
end

