-- ==== Sys2Proof/Machine/Sched.lean ====
section
/-!
DEFINITION. The scheduler: what an operation reads and writes, its latency, and the order of a block's operations in bundles
(R57, R131, R144, R146, R223).
-/
namespace Sys2Proof.Machine

/-! ### What an operation reads and writes -/

/-- Places from a first one on, by their number: vector registers, then bits of scalar registers from 2048, then spill slots from
16384, then outgoing slots from 32768. -/
abbrev Span := Nat × Nat

def spansMeet (a b : List Span) : Bool :=
  a.any (fun p => b.any (fun q => decide (p.1 < q.1 + q.2) && decide (q.1 < p.1 + p.2)))

/-- The places of an operand code. -/
def codeSpan (wide : Bool) (c : Nat) : List Span :=
  if c < 1536 then [(c, if wide then 2 else 1)] else if c < 1664 then [(2048 + 64 * (c - 1536), 64)] else []
/-- The places of `n` registers from a code on. -/
def runSpan (c n : Nat) : List Span := (List.range n).flatMap (fun i => codeSpan false (c + i))
def bitSpan (r b : Nat) : List Span := [(2048 + 64 * r + b, 1)]
/-- The places of a value's home. -/
def homeSpan (wide : Bool) (h : VHome) : List Span :=
  match h with
  | .vec r => codeSpan wide r
  | .sca r => codeSpan wide (1536 + r)
  | .bit r b => bitSpan r b
  | .slot k => [(16384 + k, if wide then 2 else 1)]

def NOp.shape (o : NOp) : Shape := shapeOf o.op (nopForm o 1)

/-- The words that a mover moves. -/
def NOp.words (o : NOp) : Nat := if o.nt = 4 then 2 else 1

def NOp.reads (o : NOp) : List Span :=
  let t := o.shape
  let n := runLength o.op (nopForm o 0)
  let own := match o.op with
    | .pathSplit | .jmp | .ncall => codeSpan false o.sa
    | .select => (if 1536 ≤ o.sa ∧ o.sa < 1664 then bitSpan (o.sa - 1536) (o.aux % 64) else codeSpan false o.sa)
        ++ codeSpan (nWidth t.bt == 64) o.sb ++ codeSpan (nWidth t.ct == 64) o.sc
    | .fill => [(16384 + o.aux, o.words)]
    | _ => codeSpan (nWidth t.at_ == 64) o.sa ++ codeSpan (nWidth t.bt == 64) o.sb
        ++ (if n = 0 then codeSpan (nWidth t.ct == 64) o.sc else runSpan o.sc n)
  own ++ (match o.guard with | some g => bitSpan g.1 g.2.1 | none => [])

def NOp.writes (o : NOp) : List Span :=
  let t := o.shape
  match o.op with
  | .pathSplit | .jmp => []
  | .pset | .pclr => bitSpan (o.dst - 1536) o.aux
  | .spill => [(if o.md = 0 then 16384 + o.aux else 32768 + o.aux, o.words)]
  | .ncall | .nret | .frameEnter | .frameLeave =>
    (if o.op = .nret then codeSpan false 1536 else []) ++ (List.range 4).flatMap (fun i => codeSpan false (1536 + 124 + i))
  | .icmp | .fcmp => if 64 ≤ o.aux then bitSpan (o.dst - 1536) (o.aux % 64) else codeSpan false o.dst
  | _ => if t.dst == .push then [] else codeSpan (nWidth t.dt == 64) o.dst

/-! ### Latencies and classes (R131, R144, R146, R223) -/

/-- The latency by which the scheduler places the use of a result; `dkind` is 0 on a W-die. A stack access is local, and a scratch
access is expected to be remote. -/
def latency (dkind : Nat) (o : NOp) : Nat :=
  match o.op with
  | .fill | .spill => 6
  | .ld | .st | .amo | .cas | .red => if o.aux / 16 % 4 = 2 then 6 else 14
  | .sfEval | .sfLoad | .mxRead => 16
  | .lanex | .vote | .matchLanes => 6
  | .lgred | .lgscan => if o.nt = 8 ∧ (o.md = 0 ∨ o.md = 1 ∨ o.md = 3) then 40 else 10
  | .fadd | .fsub | .fmul | .fdiv | .fsqrt | .fma | .fmin | .fmax | .fneg | .fabs | .fcopysign | .fcmp | .fclass | .frint | .fcvt
  | .fcvti | .icvtf | .fscaleb | .flogb | .pk8 | .upk8 | .bscale =>
    if o.nt = 8 then (if dkind = 0 then 12 else 8) else 6
  | _ => 4

/-- Operations on f64, of which a W-die issues one every fourth cycle. -/
def wideFloat (o : NOp) : Bool :=
  o.nt == 8 && (match o.op with | .fadd | .fsub | .fmul | .fdiv | .fsqrt | .fma => true | _ => false)

/-- Instructions whose description names a trap or a fault that they can raise (R144). -/
def trapCapable (op : Op) : Bool :=
  match op with
  | .div | .rem | .fadd | .fsub | .fmul | .fdiv | .fsqrt | .fma | .fmin | .fmax | .fcmp | .frint | .fcvt | .fcvti | .icvtf | .fscaleb
  | .flogb | .fmodeSet | .pk8 | .bscale | .lgred | .lgscan | .sfEval | .sfLoad | .ld | .st | .amo | .cas | .red | .bxShape | .bxCopy
  | .bxConv | .bxFill | .bxGather | .bxScatter | .bxRed | .waitChunks | .testChunks | .clrChunks | .mxZero | .mxLd | .mxStep | .mxLoop
  | .mxStore | .mxMode | .mxRead | .xcSwap | .barJoin | .barLeave | .barArrive | .barWait | .barSync | .cpBid | .cpGate | .cpLast
  | .cvTurn | .trap | .unreach | .call | .callx | .sys => true
  | _ => false

/-- Stores, atomics, reductions, engine commands, waits and `sys`, with whatever else acts beyond the thread's own values: they
issue in virtual order and after everything before them (R144). -/
def ordered (op : Op) : Bool :=
  match op with
  | .st | .amo | .cas | .red | .fence | .prefetch | .bxShape | .bxCopy | .bxConv | .bxFill | .bxGather | .bxScatter | .bxRed | .waitTok
  | .tokStatus | .tokAll | .waitChunks | .testChunks | .clrChunks | .mxZero | .mxLd | .mxStep | .mxLoop | .mxStore | .mxMode | .mxRead
  | .xcSwap | .barJoin | .barLeave | .barArrive | .barWait | .barSync | .yield | .cpBid | .cpGate | .cpWon | .cpMax | .cpDie
  | .cpRound | .cpLast | .cvTurn | .cvSplit | .brk | .dbgMark | .rdclk | .rdcnt | .sys | .sfLoad | .trap | .fexcRd | .fexcClr
  | .fmodeSet | .fmodeRd | .tqPop | .tqPush => true
  | _ => false

/-! ### Nodes -/

/-- An operation with its word; `main` marks the word's own operation, beside the moves that serve it, and `acc` the counter that a
load raises: 1 LDC, 4 RSC, as a mask bit, and 0 none. -/
structure Node where
  ix : Nat
  o : NOp
  main : Bool
  acc : Nat
  deriving DecidableEq, Repr

def nodeZero : Node := { ix := 0, o := nop .bnop, main := false, acc := 0 }

/-- Whether a node is a trap-capable portable instruction. -/
def Node.traps (n : Node) : Bool := n.main && trapCapable n.o.op
def Node.inOrder (n : Node) : Bool := ordered n.o.op

/-- The counter that a load raises (R131): LDC for global addresses, RSC for scratch ones that may be remote. -/
def accOf (o : NOp) : Nat :=
  match o.op with
  | .ld | .amo | .cas => match o.aux / 16 % 4 with | 0 => 1 | 1 => 4 | _ => 0
  | _ => 0

/-- The nodes of a word's operations: the last one with the word's code is its own, and of a word that is moves alone the last. -/
def nodesOf (ix : Nat) (op : Op) (ops : List NOp) : List Node :=
  let own := (((List.range ops.length).filter (fun i => (nth ops (nop .bnop) i).op == op)).getLast?).getD (ops.length - 1)
  ((List.range ops.length).zip ops).map (fun p => { ix := ix, o := p.2, main := own == p.1, acc := accOf p.2 })

/-! ### Waits for loads (R131, R146) -/

/-- A `wait.cnt` on counters, for the load that stands at a place of the list. -/
def waitNode (ix mask load : Nat) : Node :=
  { ix := ix, o := { nop .waitCnt with md := mask, load := some load }, main := false, acc := 0 }

/-- Puts a `wait.cnt` before the first operation that reads or writes the destination of a load, and at `last` before what follows
the nodes. `pend` holds the loads in flight: their places in the result, what they write, and their counter. -/
def addWaits (last : Nat) : List Node → List Node → List (Nat × List Span × Nat) → List Node
  | [], out, pend =>
    match pend.getLast? with
    | none => out
    | some p => out ++ [waitNode last (if pend.all (fun q => q.2.2 == p.2.2) then p.2.2 else 5) p.1]
  | n :: ns, out, pend =>
    let touched := n.o.reads ++ n.o.writes
    let hit := pend.filter (fun p => spansMeet p.2.1 touched)
    let waits : List Node := [1, 4].filterMap (fun c => ((hit.filter (fun p => p.2.2 == c)).getLast?).map (fun p => waitNode n.ix c p.1))
    let rest := pend.filter (fun p => !hit.any (fun h => h.2.2 == p.2.2 && decide (p.1 ≤ h.1)))
    let out1 := out ++ waits ++ [n]
    let w := n.o.writes
    addWaits last ns out1 (if n.acc ≠ 0 ∧ w ≠ [] then rest ++ [(out1.length - 1, w, n.acc)] else rest)

/-! ### Dependences (R57, R144) -/

/-- The last use, up to a word, of the values other than the word's own whose homes meet some places (rule 1 of R144). -/
def lastUse (x : Xl) (ix : Nat) (w : List Span) : Nat :=
  let vs := x.homes.filter (fun h => decide ((nth x.w.defs aWordZero h.1).ix < ix) && spansMeet (homeSpan (wideVal x.w h.1) h.2) w)
  ((x.w.words.filter (fun y => decide (y.ix ≤ ix) && vs.any (fun h => y.uses.contains h.1))).map (·.ix)).foldl max 0

/-- The cycles by which a node must issue after an earlier one of the block, if it depends on it; `keep` is the word of the last use
that the node's result overwrites. -/
def gap (dkind keep : Nat) (a b : Node) : Option Nat :=
  let raw := spansMeet a.o.writes b.o.reads
  let waw := spansMeet a.o.writes b.o.writes
  let war := spansMeet a.o.reads b.o.writes
  let need : List Nat :=
    (if raw then [if a.acc = 0 then latency dkind a.o else 1] else []) ++ (if waw then [1] else []) ++ (if war then [0] else []) ++
    (if a.traps ∧ b.traps then [1] else []) ++ (if b.traps ∧ a.main ∧ a.ix < b.ix then [0] else []) ++
    (if b.inOrder then [1] else []) ++ (if a.inOrder ∧ (b.inOrder ∨ b.traps) then [1] else []) ++
    (if a.ix < keep ∨ (a.ix = keep ∧ a.ix < b.ix) then [if a.traps then 1 else 0] else [])
  if need.isEmpty then none else some (need.foldl max 0)

/-- The dependences of each node on the ones before it: pairs of an index and a number of cycles. A `wait.cnt` follows its load, and
what touches its destination, or that of an earlier load the wait covers too, follows the `wait.cnt`. -/
def depsOf (x : Xl) (ns : List Node) : List (List (Nat × Nat)) :=
  (List.range ns.length).map (fun j =>
    let b := nth ns nodeZero j
    let keep := if b.o.writes = [] then 0 else lastUse x b.ix b.o.writes
    (List.range j).filterMap (fun i =>
      let a := nth ns nodeZero i
      let waited := match a.o.load with
        | some l => (List.range (l + 1)).any (fun k =>
          (nth ns nodeZero k).acc &&& a.o.md != 0 && spansMeet (nth ns nodeZero k).o.writes (b.o.reads ++ b.o.writes))
        | none => false
      let g := (if b.o.load = some i then some (latency x.k.dkind a.o) else none).or
        ((if waited then some 1 else none).or (gap x.k.dkind keep a b))
      g.map (fun c => (i, c))))

/-- The latency of the longest path from each node to the end of the block (R146). -/
def priorities (x : Xl) (ns : List Node) (deps : List (List (Nat × Nat))) : List Nat :=
  let n := ns.length
  ((List.range n).reverse.foldl (fun (pr : List Nat) j =>
    let own := latency x.k.dkind (nth ns nodeZero j).o
    let later := (List.range n).filterMap (fun k => ((nth deps [] k).find? (fun d => d.1 == j)).map (fun d => d.2 + nth pr 0 (k - j - 1)))
    (later.foldl max own) :: pr) [])

/-! ### The list scheduler (R146) -/

/-- A bundle in the making: each operation by its slot and its node. -/
abbrev Draft := List (Nat × Nat)

/-- What the scheduler holds: the cycle, the bundles so far, each node's cycle of issue, and the cycle from which an f64 operation
may issue. -/
structure Sched where
  cycle : Nat
  bundles : List Draft
  at_ : List (Option Nat)
  wide : Nat
  deriving DecidableEq, Repr

/-- The slots that a node may take: a scalar result is made in slot 0. -/
def Node.slots (n : Node) : List Nat :=
  slotsFor n.o.op (decide (1536 ≤ n.o.dst) && decide (n.o.dst < 1664))

/-- The free slot that a node takes in a bundle, if it can join it: no two write one place (R57), at most two engine commands and
one of the slot's port. -/
def slotIn (ns : List Node) (d : Draft) (n : Node) : Option Nat :=
  if d.any (fun p => spansMeet (nth ns nodeZero p.2).o.writes n.o.writes) then none
  else n.slots.find? (fun s => !d.any (fun p => p.1 == s))

/-- One cycle: the ready nodes by priority take slots. -/
def fillBundle (ns : List Node) (deps : List (List (Nat × Nat))) (order : List Nat) (dkind : Nat) (t : Sched) : Draft × Sched :=
  order.foldl (fun (a : Draft × Sched) j =>
    let n := nth ns nodeZero j
    let ready := (nth a.2.at_ none j).isNone && (nth deps [] j).all (fun d =>
      match nth a.2.at_ none d.1 with | some c => decide (c + d.2 ≤ t.cycle) | none => false) &&
      !(dkind == 0 && wideFloat n.o && decide (t.cycle < a.2.wide))
    if !ready then a else
    match slotIn ns a.1 n with
    | none => a
    | some s => (a.1 ++ [(s, j)], { a.2 with
        at_ := setNth a.2.at_ j (some t.cycle), wide := if wideFloat n.o then t.cycle + 4 else a.2.wide })) ([], t)

/-- Cycles until every node has issued. -/
def runSched (ns : List Node) (deps : List (List (Nat × Nat))) (order : List Nat) (dkind : Nat) : Nat → Sched → List Draft
  | 0, t => t.bundles
  | f + 1, t =>
    if t.at_.all (·.isSome) then t.bundles else
    let r := fillBundle ns deps order dkind t
    runSched ns deps order dkind f { r.2 with cycle := t.cycle + 1, bundles := if r.1.isEmpty then t.bundles else t.bundles ++ [r.1] }

/-- Puts an index into a list ordered by falling priority, ties by virtual order. -/
def insertPrio (pr : List Nat) (j : Nat) : List Nat → List Nat
  | [] => [j]
  | k :: ks => if nth pr 0 k < nth pr 0 j then j :: k :: ks else k :: insertPrio pr j ks

/-- The bundles of a list of nodes: scheduled, or in a plain translation one for each in turn (R146, R161). -/
def listSchedule (x : Xl) (ns : List Node) : List Draft :=
  if x.plain then (List.range ns.length).map (fun j => [((nth ns nodeZero j).slots.headD 0, j)]) else
  let deps := depsOf x ns
  let pr := priorities x ns deps
  let order := (List.range ns.length).foldl (fun l j => insertPrio pr j l) []
  runSched ns deps order x.k.dkind (48 * (ns.length + 1))
    { cycle := 0, bundles := [], at_ := ns.map (fun _ => none), wide := 0 }

/-- Whether a node is a load through a `ptr.g`, which LDC always counts; an access through a `ptr.p` may be a peer access (R131). -/
def countsLdc (x : Xl) (n : Node) : Bool :=
  n.acc == 1 && (match x.w.words.find? (fun a => a.ix == n.ix) with | some a => x.opTy a.n a.form.a .none == .ptrG | none => false)

/-- The limit of a `wait.cnt`: the later global loads that issue between the load and the wait; 0 where later accesses may not count
(R131, R147). -/
def waitLimit (x : Xl) (ns : List Node) (ds : List Draft) (j : Nat) : Nat :=
  let n := nth ns nodeZero j
  match n.o.load with
  | none => 0
  | some l =>
    if n.o.md ≠ 1 then 0 else
    let pos : Nat → Nat := fun i => ((List.range ds.length).find? (fun b => (nth ds [] b).any (fun p => p.2 == i))).getD 0
    ((List.range ns.length).filter (fun i => countsLdc x (nth ns nodeZero i) && decide (pos l < pos i) && decide (pos i < pos j))).length

end Sys2Proof.Machine
end

