-- ==== Sys2Proof/Machine/Emit.lean ====
section
/-!
DEFINITION. The last stage of the translator: bundles, literals and waybill for a key (R47, R139, R140, R144, R148 to R153, R157 to
R161, R192, R193, R403, R404, R421), and the layout of an image as bytes with its check code (R158 to R160).
-/
namespace Sys2Proof.Machine

/-! ### Layout (R138, R158 to R160) -/

/-- The key as the 128-bit number of R138. -/
def keyBits (k : TKey) : BitVec 128 :=
  BitVec.ofNat 128 (k.mhash.toNat * 2 ^ 64 + k.fidx % 4096 * 2 ^ 52 + k.dkind % 4 * 2 ^ 50 + k.mode % 4 * 2 ^ 48
    + k.cap % 2048 * 2 ^ 37 + k.rpc.toNat)

/-- NLOC of an image. -/
def locCount (t : TImage) : Nat := (t.points.map (·.locs.length)).sum

/-- IMGLEN: a header of 64 bytes, the bundles, the literals, the point records and the location entries. -/
def imgLen (t : TImage) : Nat := 64 + 32 * t.bundles.length + 8 * t.literals.length + 16 * t.points.length + 8 * locCount t

/-- The lines of 256 bytes that an image occupies (R162). -/
def imgLines (t : TImage) : Nat := (imgLen t + 255) / 256

/-- A location entry as its word (R160). -/
def locWord (e : LocEntry) : Nat := e.vnum % 2 ^ 24 * 2 ^ 40 + e.lcode % 8 * 2 ^ 37 + e.loc % 2 ^ 36

/-- A point record as its 128 bits, with the index of its first location entry (R159). -/
def pointBits (r : PointRec) (lidx : Nat) : Nat :=
  r.bidx % 2 ^ 22 * 2 ^ 106 + r.kind % 4 * 2 ^ 104 + r.vpc.toNat * 2 ^ 64 + r.locs.length % 4096 * 2 ^ 52 + lidx % 2 ^ 32

/-- The point records in order, from a location index on. -/
def pointWords : List PointRec → Nat → List Nat
  | [], _ => []
  | r :: rs, l => pointBits r l :: pointWords rs (l + r.locs.length)

/-- Bytes 64 to the end of an image. -/
def imageBody (t : TImage) : List Byte :=
  t.bundles.flatMap (fun b => leBytes 32 b.toNat) ++ t.literals.flatMap (fun w => leBytes 8 w.toNat) ++
    (pointWords t.points 0).flatMap (leBytes 16) ++ (t.points.flatMap (·.locs)).flatMap (fun e => leBytes 8 (locWord e))

/-- The 64 bytes of an image's header. -/
def imageHeader (t : TImage) : List Byte :=
  let pt := 64 + 32 * t.bundles.length + 8 * t.literals.length
  leBytes 16 (keyBits t.key).toNat ++ leBytes 4 0 ++ leBytes 4 (imgLen t) ++ leBytes 4 t.bundles.length ++ leBytes 2 t.frameW ++
    leBytes 2 t.literals.length ++ leBytes 4 pt ++ leBytes 4 (pt + 16 * t.points.length) ++ leBytes 4 t.points.length ++
    leBytes 4 (locCount t) ++ leBytes 8 0 ++ leBytes 8 t.check.toNat

/-- Whether CHECK holds. -/
def imageGood (t : TImage) : Bool := t.check == crc64 (imageBody t)

/-! ### Where values stand (R160, R161) -/

/-- A place that holds a value; `load` is the word and the counter bit of a load still in flight to it. The registers of the caller
that a function saves stand beside its values, numbered 0xFFF000 and up; words of the restore area are slots from 65536 on. -/
structure Fact where
  h : VHome
  v : Nat
  load : Option (Nat × Nat)
  deriving DecidableEq, Repr

/-- Whether a value, or a saved register, is 64 bits wide. -/
def Xl.wide (x : Xl) (v : Nat) : Bool := if 0xFFF000 ≤ v then decide (0xFFF000 + 1536 ≤ v) else wideVal x.w v
def Xl.span (x : Xl) (f : Fact) : List Span := homeSpan (x.wide f.v) f.h

/-- A register or a bit as a place. -/
def codeHome (c : Nat) : Option VHome := if c < 1536 then some (.vec c) else if c < 1664 then some (.sca (c - 1536)) else none

/-- What a mover copies, and where to. -/
def moverOf (o : NOp) : Option (VHome × VHome) :=
  match o.op with
  | .vmov | .v2s => (codeHome o.sa).bind (fun a => (codeHome o.dst).map (fun d => (a, d)))
  | .smov => if o.md = 0 then (codeHome o.sa).bind (fun a => (codeHome o.dst).map (fun d => (a, d))) else none
  | .pset => (codeHome o.sa).map (fun a => (a, .bit (o.dst - 1536) o.aux))
  | .fill => (codeHome o.dst).map (fun d => (.slot o.aux, d))
  | .entry => (codeHome o.dst).map (fun d => (.slot (65536 + o.aux), d))
  | .spill => if o.md = 0 then (codeHome o.sa).map (fun a => (a, .slot o.aux)) else none
  | _ => none

/-- Where an operation puts its own result. -/
def resultHome (o : NOp) : Option VHome :=
  if o.shape.dst == .push then none
  else if (o.op = .icmp ∨ o.op = .fcmp) ∧ 64 ≤ o.aux then some (.bit (o.dst - 1536) (o.aux % 64))
  else match o.op with
    | .spill => some (.slot o.aux)
    | .pset | .pclr => some (.bit (o.dst - 1536) o.aux)
    | _ => codeHome o.dst

/-- The facts that hold behind an operation: copies, the value that it makes, and no more what it overwrites. A `frame.leave` gives
up every slot, and an `ncall` the registers that its callee need not save (R148). -/
def factsAfter (x : Xl) (old : List Fact) (o : NOp) (made : Option Nat) (ix acc : Nat) (now : List Fact) : List Fact :=
  let kept := now.filter (fun f => !spansMeet (x.span f) o.writes)
  let more := match moverOf o with
    | some (a, d) => (old.filter (fun f => f.h == a)).map (fun f => { f with h := d })
    | none => []
  let own := match made, resultHome o with
    | some v, some h => [{ h := h, v := v, load := if acc = 0 then none else some (ix, acc) }]
    | _, _ => []
  match o.op with
  | .frameLeave => now.filter (fun f => match f.h with | .slot _ => false | _ => true)
  | .ncall => now.filter (fun f => match f.h with
      | .vec r => decide (x.k.cap / 2 ≤ r)
      | .sca r | .bit r _ => decide (32 ≤ r) && decide (r < 96)
      | .slot _ => true)
  | .waitCnt => now.map (fun f => if f.load.any (fun l => o.md &&& l.2 != 0) then { f with load := none } else f)
  | _ => kept ++ more ++ own

/-- A location code and its LOC. -/
def locParts (h : VHome) : Nat × Nat :=
  match h with
  | .vec r => (0, r)
  | .sca r => (1, r)
  | .bit r b => (2, r * 64 + b)
  | .slot k => (3, k % 65536)

/-- The entry of a fact. -/
def entryOf (f : Fact) : LocEntry :=
  match f.load, f.h with
  | some l, .vec r => { vnum := f.v, lcode := 7, loc := l.1 * 4096 + r }
  | some l, .sca r => { vnum := f.v, lcode := 7, loc := l.1 * 4096 + 1536 + r }
  | _, h => { vnum := f.v, lcode := (locParts h).1, loc := (locParts h).2 }

/-- The location entry of a value: its home if that holds it, else another place, a value known at this place, or the dead code
(log 87). A token's content stands in no register. -/
def Xl.locate (x : Xl) (fs : List Fact) (known : List (Nat × Nat)) (v : Nat) : Option LocEntry :=
  if isTok x.w v then some { vnum := v, lcode := 6, loc := 0 } else
  match x.home v with
  | none => none
  | some h =>
    match (fs.find? (fun f => f.v == v && f.h == h)).or (fs.find? (fun f => f.v == v)) with
    | some f => some (entryOf f)
    | none => match known.find? (fun k => k.1 == v) with
      | some k => some { vnum := v, lcode := 4, loc := 2 ^ 35 + k.2 }
      | none => some { vnum := v, lcode := 6, loc := 0 }

/-! ### Bundles in the making -/

/-- A bundle before layout: the word that its boundary record names, its slots, whether it is a head, its stop, what holds before
it, the values known there, and the values that its records list if not those of the word. -/
structure Draft1 where
  ix : Nat
  ops : List (Nat × Node)
  head : Bool
  stop : Nat
  facts : List Fact
  known : List (Nat × Nat)
  vals : Option (List Nat)
  deriving DecidableEq, Repr

/-- An item of the code: a label or a bundle. -/
inductive Item where
  | lab (l : Nat)
  | bun (b : Draft1)
  deriving DecidableEq, Repr

/-- An edge of the flow graph whose moves stand in a block of their own, with what holds at its start. -/
structure Tramp where
  lab : Nat
  word : AWord
  target : Nat
  args : List Operand
  goal : Nat
  facts : List Fact
  known : List (Nat × Nat)
  deriving DecidableEq, Repr

/-- What has been emitted: literals, the items in reverse, the next label, what holds here, and the edges still to emit. `head`
marks the next bundle a head, and `base` the bundle of each block of the base translation, when a resume translation is made. -/
structure Gen where
  lits : List Word
  items : List Item
  fresh : Nat
  facts : List Fact
  known : List (Nat × Nat)
  vals : Option (List Nat)
  head : Bool
  tramps : List Tramp
  base : Option (Xl × List Nat)
  deriving DecidableEq, Repr

/-- The value that a word defines. -/
def Xl.made (x : Xl) (ix : Nat) : Option Nat := (x.w.words.find? (fun a => a.ix == ix)).bind (·.val)

/-- A bundle is emitted. -/
def Gen.put (g : Gen) (x : Xl) (ix : Nat) (ops : List (Nat × Node)) (stop : Nat) : Gen :=
  let b : Draft1 := { ix := ix, ops := ops, head := g.head, stop := stop, facts := g.facts, known := g.known, vals := g.vals }
  { g with
    items := .bun b :: g.items
    head := false
    facts := ops.foldl (fun fs p =>
      factsAfter x g.facts p.2.o (if p.2.main then x.made p.2.ix else none) p.2.ix p.2.acc fs) g.facts }

/-- An operation that stands alone, in the slot that its result asks for. -/
def Gen.op (g : Gen) (x : Xl) (ix : Nat) (o : NOp) (stop : Nat) : Gen :=
  let n : Node := { ix := ix, o := o, main := false, acc := 0 }
  g.put x ix [(n.slots.headD 0, n)] stop
/-- Operations in turn. -/
def Gen.ops (g : Gen) (x : Xl) (ix : Nat) (l : List NOp) : Gen := l.foldl (fun g o => g.op x ix o 0) g

def Gen.lab (g : Gen) (l : Nat) : Gen := { g with items := .lab l :: g.items }
/-- A new label. -/
def Gen.label (g : Gen) : Gen × Nat := ({ g with fresh := g.fresh + 1 }, g.fresh)

def Gen.em (g : Gen) (div : Bool) : Em := { lits := g.lits, ops := [], vt := 0, st := 0, div := div }
/-- What was prepared aside is emitted in turn for a word. -/
def Gen.take (g : Gen) (x : Xl) (ix : Nat) (e : Em) : Gen := { g with lits := e.lits }.ops x ix e.ops

/-- Moves that take place together. -/
def Gen.moves (g : Gen) (x : Xl) (ix : Nat) (div : Bool) (ms : List Mv) : Gen := g.take x ix ((g.em div).moves x ms)

/-! ### Tokens on edges and at uses (R421) -/

/-- The `tq.pop` operations of an edge: for each token, the entries for T that the executions behind it need less than others from
here, or the carried entry when none follows (R421). -/
def Xl.edgePops (x : Xl) (a : AWord) (e : Nat × List Operand) : List NOp :=
  let toks := (List.range x.w.defs.length).filter (fun v => isTok x.w v && (nth x.w.defs aWordZero v).opc != 0x002)
  toks.flatMap (fun v =>
    let d := nth x.w.defs aWordZero v
    let p := x.tokPlanOf v
    let first := walkUses x.m x.f.code (wordsAfter x.w.words x.f.code d.ix) [v] noUses
    let ns := exploreUses x.m x.f.code x.w.words (4096 * (x.w.words.length + 1)) first.2 []
    let alive := liveBlocks x.f.code x.w.words
    let top := useRounds true alive ns (ns.length + 1)
    let here := if d.blk = a.blk ∧ d.ix < a.ix then some [v] else (ns.find? (fun n => n.1.blk == a.blk)).map (·.1.names)
    match here with
    | none => []
    | some names =>
      let after := (edgesOf x.f.code a).map (passNames x.m x.f.code a.n names)
      let most := overNodes true alive top after
      let mine := overNodes true alive top [passNames x.m x.f.code a.n names e]
      let n := if !alive.testBit e.1 then 0
        else if p.carried then (if anyUse most && !anyUse mine then 1 else 0) else useOf most 1 - useOf mine 1
      List.replicate n { nop .tqPop with aux := 64 * (if direct p then engineOf d.opc else if p.carried then x.carryFrom v else 1) })

/-- The `tq.push` operations before a word: a carried token that it consumes is given its entries, with one to carry it on when it
is used later (R421). -/
def Xl.usePushes (x : Xl) (op : Op) (a : AWord) : List NOp :=
  let vs := (tokensOf op a.form).filterMap (fun o => match o with | .back d => some (a.n - d) | _ => none)
  (vs.eraseDups).filterMap (fun v =>
    if !(x.tokQueue v).1 then none else
    let n := oneUse (engineOf a.opc) ((vs.filter (· == v)).length)
    let from_ := ((x.originsOf v).filter (fun d => (x.tokPlanOf d).carried)).map x.carryFrom
    some { nop .tqPush with dst := pushSpec (if x.usedAfter a v then addUses n (oneUse 1 1) else n), aux := 64 * from_.headD 1 })

/-- The `tq.push` operations behind a producer: a carried token goes to the queue of T for itself, and more than three entries on
one engine are fanned out, three at a time with one to carry the rest on (R156, R421). -/
def pushChain : Nat → Uses → List NOp
  | 0, _ => []
  | f + 1, u =>
    let all := u.all (fun n => decide (n ≤ 3))
    let now : Uses := (List.range 6).map (fun y => min (useOf u y) (if y = 1 ∧ !all then 2 else 3))
    let rest : Uses := (List.range 6).map (fun y => useOf u y - useOf now y)
    { nop .tqPush with dst := pushSpec (if all then now else addUses now (oneUse 1 1)), aux := 64 } ::
      (if all then [] else pushChain f rest)
def Xl.madePushes (x : Xl) (v : Nat) : List NOp :=
  let p := x.tokPlanOf v
  let from_ := 64 * engineOf (nth x.w.defs aWordZero v).opc
  if direct p then [] else if p.carried then (if x.carryFrom v = 1 ∧ from_ ≠ 64 then [{ nop .tqPush with dst := pushSpec (oneUse 1 1), aux := from_ }] else [])
  else match pushChain 4096 p.counts with
    | o :: os => { o with aux := from_ } :: os
    | [] => []

/-! ### A run of words -/

/-- The portable operation of a word. -/
def opAt (x : Xl) (a : AWord) : Op :=
  match instrAt x.f.code a.ix with
  | .ok i => (i.opForm.map (·.1)).getD .bnop
  | .error _ => .bnop

/-- The copy of a uniform value for the divergent regions that hold a call (R149). -/
def Em.copyOf (e : Em) (x : Xl) (v : Nat) : Em :=
  match x.copies.find? (fun c => c.1 == v), x.home v with
  | some c, some h => { e with vt := 0, st := 0 }.move x (x.ty v) (.slot c.2) (homeSrc h)
  | _, _ => e

/-- The nodes of one word, which is no call and no terminator. -/
def wordNodes (x : Xl) (lits : List Word) (a : AWord) : List Node × List Word :=
  let op := opAt x a
  let e0 : Em := { lits := lits, ops := [], vt := 0, st := 0, div := x.regions.testBit a.blk }
  let e1 := if op = .const then
      (match a.val with
      | some v => match x.home v with
        | some h => e0.move x (x.ty v) h (x.src a a.form.a (x.ty v) false)
        | none => e0
      | none => e0)
    else e0.word x op a
  let own := nodesOf a.ix (x.spec op a).op e1.ops
  let e2 := match a.val with | some v => { e1 with ops := [] }.copyOf x v | none => { e1 with ops := [] }
  let side : List NOp → List Node := fun l => l.map (fun o => { ix := a.ix, o := o, main := false, acc := 0 })
  (side (x.usePushes op a) ++ own ++ side (e2.ops ++ (match a.val with | some v => if isTok x.w v then x.madePushes v else [] | none => [])),
   e2.lits)

/-- Whether a word of a plain translation may be run again from its start while some of its bundles have issued. -/
def again (n : Node) : Bool := !n.inOrder && n.acc == 0

/-- The word that a boundary record names after some nodes have issued: the first whose own operation, or in a plain translation
whose whole form, has not (R159, R161). -/
def openWord (x : Xl) (ns : List Node) (done : List Nat) (last : Nat) : Nat :=
  let open_ := (List.range ns.length).filter (fun j => let n := nth ns nodeZero j
    !done.contains j && (n.main || (x.plain && (ns.filter (fun q => q.ix == n.ix && q.main)).all again)))
  (open_.map (fun j => (nth ns nodeZero j).ix)).foldl min last

/-- Emits some words in a row, up to the word `last`. -/
def Gen.words (g : Gen) (x : Xl) (ws : List AWord) (last : Nat) : Gen :=
  let r := ws.foldl (fun (a : List Node × List Word) w => let n := wordNodes x a.2 w; (a.1 ++ n.1, n.2)) ([], g.lits)
  let ns0 := addWaits last r.1 [] []
  let ds := listSchedule x ns0
  let ns := (List.range ns0.length).map (fun j =>
    let n := nth ns0 nodeZero j
    if n.o.op = .waitCnt then { n with o := { n.o with aux := min 63 (waitLimit x ns0 ds j), load := none } } else n)
  ((List.range ds.length).foldl (fun (a : Gen × List Nat) d =>
    let b := nth ds [] d
    (a.1.put x (openWord x ns a.2 last) (b.map (fun p => (p.1, nth ns nodeZero p.2))) 0, a.2 ++ b.map (·.2)))
    ({ g with lits := r.2 }, [])).1

/-! ### Transfers and edges (R157, R192, R193) -/

/-- A transfer to a label, with its stop: an unconditional one ends the path's run. -/
def Gen.jump (g : Gen) (x : Xl) (ix l : Nat) : Gen := g.op x ix { nop .jmp with tgt := some l } 2

/-- The parameters of a block as values. -/
def paramVals (x : Xl) (b : Nat) : List Nat :=
  let bw := nth x.w.blocks 0 b
  (List.range (blockArgs x.f.code bw)).map (defsBefore x.m x.f.code bw + ·)

/-- The moves of an edge: block arguments, their copies, and in a resume translation whatever else the base translation keeps in
another place (R34, R406). -/
def edgeMoves (g : Gen) (x : Xl) (a : AWord) (b : Nat) (args : List Operand) : List Mv :=
  let y := match g.base with | some q => q.1 | none => x
  let ps := (paramVals x b).zip args
  let into : Nat → Src → List Mv := fun v s =>
    (match y.home v with | some h => [{ t := y.ty v, h := h, s := s }] | none => []) ++
    (match y.copies.find? (fun c => c.1 == v) with | some c => [{ t := y.ty v, h := .slot c.2, s := s }] | none => [])
  let rest := if g.base.isNone then [] else
    (List.range x.w.defs.length).filter (fun v => (nth (liveIn x.w) 0 b).testBit v && !(paramVals x b).contains v)
  ps.flatMap (fun p => if isTok x.w p.1 then [] else into p.1 (x.src a p.2 (x.ty p.1) false)) ++
    rest.flatMap (fun v => match x.home v with | some h => into v (homeSrc h) | none => [])

/-- Goes to a block, in a resume translation to its head in the base translation (R140). -/
def Gen.go (g : Gen) (x : Xl) (ix b : Nat) : Gen :=
  match g.base with
  | some q =>
    let t := nth q.2 0 b
    g.op x ix { nop .jmp with md := 2, dst := t / 2048, sc := t % 2048 } 2
  | none => g.jump x ix b

/-- Takes an edge from here: its pops and moves, and the transfer, which an edge to the block that follows does without in a normal
translation. -/
def Gen.edge (g : Gen) (x : Xl) (a : AWord) (b goal : Nat) (args : List Operand) (falls : Bool) : Gen :=
  let g1 := g.ops x a.ix (x.edgePops a (b, args))
  let g2 := g1.moves x a.ix (x.regions.testBit a.blk) (edgeMoves g x a b args)
  if goal ≠ b then g2.jump x a.ix goal
  else if falls ∧ !x.plain ∧ g.base.isNone ∧ b = a.blk + 1 then g2 else g2.go x a.ix b

/-- The label at which an edge can be taken by a transfer: the block itself, or a block of its own for the moves. -/
def Gen.edgeLabel (g : Gen) (x : Xl) (a : AWord) (b goal : Nat) (args : List Operand) (known : List (Nat × Nat)) : Gen × Nat :=
  if goal = b ∧ g.base.isNone ∧ (edgeMoves g x a b args).all (fun m => homeSrc m.h == m.s) ∧ (x.edgePops a (b, args)).isEmpty
  then (g, b)
  else
    let r := g.label
    ({ r.1 with tramps := r.1.tramps ++ [{ lab := r.2, word := a, target := b, args := args, goal := goal, facts := g.facts,
                                           known := g.known ++ known }] }, r.2)

/-- The label of the exit join (R193), behind those of the blocks. -/
def exitLabel (x : Xl) : Nat := x.w.blocks.length
/-- The join of a divergent branch. -/
def joinLabel (x : Xl) (blk : Nat) : Nat := (ipdomOf x.w.blocks.length x.w.pdom blk).getD (exitLabel x)

/-- A source as a vector register, emitted for a word. -/
def Gen.vecOf (g : Gen) (x : Xl) (a : AWord) (o : Operand) (t : Ty) : Gen × Nat :=
  let e := g.em (x.regions.testBit a.blk)
  let c := e.code x (x.src a o t false) t false
  let v := c.1.toVec x t c.2
  (g.take x a.ix v.1, v.2)

/-- Splits off the lanes of a predicate to a label. -/
def Gen.split (g : Gen) (x : Xl) (ix v l j : Nat) : Gen := g.op x ix { nop .pathSplit with nt := 11, sa := v, tgt := some l, join := some j } 0

/-- A test of the index register for some cases, or with `none` for the default, in a fill register (R185, R192). -/
def Gen.test (g : Gen) (x : Xl) (a : AWord) (t : Ty) (r n : Nat) (ks : List (Option Nat)) : Gen × Nat :=
  let p := x.k.cap / 2 - 1
  let q := x.k.cap / 2 - 2
  let con : Nat → Em → Em × Nat := fun i e => if i = 0 then (e, 1920) else if i < 128 then (e, 1664 + i) else
    e.code x (.lit (BitVec.ofNat 64 i)) t false
  let one : Em → Option Nat → Nat → Em := fun e k d =>
    let c := con (k.getD n) e
    c.1.add { nop .icmp with nt := natCode t, md := (if k.isSome then 0 else 5), dst := d, sa := (if k.isSome then r else c.2),
                             sb := (if k.isSome then c.2 else r) }
  let e0 := { g.em (x.regions.testBit a.blk) with vt := 2 }
  let e := match ks with
    | [] => e0
    | k :: rest => rest.foldl (fun e k => (one e k q).add { nop .or with nt := 11, dst := p, sa := p, sb := q }) (one e0 k p)
  (g.take x a.ix e, p)

/-- The edges of a varying `switch` by target, in order of first appearance: the cases that lead there with their arguments. -/
def groupEdges : List (Option Nat × Nat × List Operand) → List (Nat × List (Option Nat × List Operand)) → List (Nat × List (Option Nat × List Operand))
  | [], acc => acc
  | e :: es, acc =>
    if acc.any (fun p => p.1 == e.2.1) then
      groupEdges es (acc.map (fun p => if p.1 == e.2.1 then (p.1, p.2 ++ [(e.1, e.2.2)]) else p))
    else groupEdges es (acc ++ [(e.2.1, [(e.1, e.2.2)])])

/-- The paths of one target: when its cases pass different arguments they part once more, and join before the target. -/
def Gen.group (g : Gen) (x : Xl) (a : AWord) (t : Ty) (r n : Nat) (b : Nat) (es : List (Option Nat × List Operand)) : Gen :=
  match es with
  | [] => g
  | (_, args) :: rest =>
    if rest.all (fun e => e.2 == args) then g.edge x a b b args false else
    let j := g.label
    let g1 := rest.foldl (fun g e =>
      let p := g.test x a t r n [e.1]
      let l := p.1.edgeLabel x a b j.2 e.2 []
      l.1.split x a.ix p.2 l.2 j.2) j.1
    let g2 := (g1.edge x a b j.2 args false).lab j.2
    (g2.op x a.ix (nop .pathJoin) 0).go x a.ix b

/-- A varying `switch`: one split for each distinct target but the last (R192). -/
def Gen.chain (g : Gen) (x : Xl) (a : AWord) (t : Ty) (r n j : Nat) :
    List (Nat × List (Option Nat × List Operand)) → Gen
  | [] => g
  | [(b, es)] => g.group x a t r n b es
  | (b, es) :: rest =>
    let p := g.test x a t r n (es.map (·.1))
    let l := p.1.label
    let g1 := (l.1.split x a.ix p.2 l.2 j)
    let g2 := g1.chain x a t r n j rest
    let back := g1.facts
    ({ g2 with facts := back }.lab l.2).group x a t r n b es

/-- A uniform `switch`: `jmp.idx` into a table of heads, one for each case and one for the default (R185, R192). -/
def Gen.table (g : Gen) (x : Xl) (a : AWord) (t : Ty) (cases : List (Nat × List Operand)) : Gen :=
  let n := cases.length - 1
  let e := g.em (x.regions.testBit a.blk)
  let c := e.code x (x.src a a.form.a t false) t true
  let q := c.1.toSca t c.2
  let l := (g.take x a.ix q.1).label
  let g1 := (l.1.op x a.ix { nop .jmp with md := 1, sa := q.2, aux := n, tgt := some l.2 } 2).lab l.2
  cases.foldl (fun g e =>
    let mv := (g1.em (x.regions.testBit a.blk)).moves x (edgeMoves g x a e.1 e.2)
    let pops := x.edgePops a e
    let small := pops.isEmpty && decide (mv.ops.length ≤ 2) && g.base.isNone && mv.lits == g1.lits &&
      mv.ops.all (fun o => !(opSlots o.op).contains 0 || decide ((opSlots o.op).length = 3)) &&
      !(match mv.ops with | [p, q] => spansMeet p.writes (q.reads ++ q.writes) | _ => false)
    let at_ := { g with head := true, facts := g1.facts, known := g1.known }
    let node : NOp → Node := fun o => { ix := a.ix, o := o, main := false, acc := 0 }
    if small then
      at_.put x a.ix ((0, node { nop .jmp with tgt := some e.1 }) :: ((List.range mv.ops.length).zip mv.ops).map (fun p => (p.1 + 1, node p.2))) 2
    else
      let r := at_.edgeLabel x a e.1 e.1 e.2 []
      r.1.jump x a.ix r.2) g1

/-! ### Calls and returns (R148 to R153, R157, R186 to R188) -/

/-- The argument moves of a call: outgoing slots first, then v0 to v7 (R150). -/
def Gen.args (g : Gen) (x : Xl) (a : AWord) (tys : List Ty) (ops : List Operand) : Gen :=
  let ws := argWords tys 0
  let div := x.regions.testBit a.blk
  let each := (ws.zip ops).map (fun p => (p.1.1, p.1.2, x.src a p.2 p.1.1 false))
  let outs := (each.filter (fun p => decide (8 ≤ p.2.1))).foldl (fun (e : Em) p =>
    let c := { e with vt := 0, st := 0 }.code x p.2.2 p.1 false
    let v := if c.2 < 1664 then c else c.1.toVec x p.1 c.2
    v.1.add { nop .spill with nt := moveCode p.1, md := 1, sa := v.2, aux := p.2.1 - 8 }) (g.em div)
  (g.take x a.ix outs).moves x a.ix div
    ((each.filter (fun p => decide (p.2.1 < 8))).map (fun p => { t := p.1, h := .vec p.2.1, s := p.2.2 }))

/-- The call proper and its return point, where the result stands in v0 (R150, R152). -/
def Gen.call (g : Gen) (x : Xl) (a : AWord) (next : Nat) (o : NOp) : Gen :=
  let g1 := g.put x a.ix [(0, { ix := a.ix, o := o, main := false, acc := 0 })] 0
  let g2 : Gen := { g1 with head := true }
  match a.val with
  | none => g2
  | some v =>
    let g3 : Gen := { g2 with facts := { h := .vec 0, v := v, load := none } :: g2.facts }
    match x.home v with
    | some h => g3.moves x next (x.regions.testBit a.blk) [{ t := x.ty v, h := h, s := .code 0 }]
    | none => g3

/-- The functions that a `callx` can name: those that take and give what it does (R187). -/
def callxTargets (x : Xl) (a : AWord) : List Nat :=
  (List.range x.m.funcs.length).filter (fun i =>
    let f := nth x.m.funcs funcZero i
    !f.fflags.getLsbD 2 && f.nparam == immNat a.form.b &&
    ((funcParams f).zip a.form.ext).all (fun p => match p.2 with | .back d => x.ty (a.n - d) == p.1 | _ => p.1 == .i32) &&
    (match f.result with | none => a.form.md == 0 | some _ => a.form.md == 1 && funcResult f == x.tyIx a.form.ty.toNat))

/-- A `callx` on a varying index: lanes that name no such function raise the call fault before any call; the others part, one path
for each function in rising order, and join behind their calls (R187, R192; log 88). -/
def Gen.callVarying (g : Gen) (x : Xl) (a : AWord) (next : Nat) : Gen :=
  let fs := callxTargets x a
  let n := x.m.funcs.length
  let start := g.label
  let v := (start.1.lab start.2).vecOf x a a.form.a .i32
  let r := x.k.cap / 2 - 4
  let g0 := if v.2 = r then v.1 else v.1.ops x a.ix [{ nop .vmov with nt := 3, dst := r, sa := v.2 }]
  let good := g0.test x a .i32 r n (fs.map some)
  let bad := good.1.label
  let badJoin := bad.1.label
  let go := badJoin.1.label
  let q := x.k.cap / 2 - 2
  let g1 := go.1.ops x a.ix [
    { nop .not with nt := 11, dst := q, sa := good.2 },
    { nop .v2s with nt := 11, md := 1, dst := 1536 + 120, sa := q },
    { nop .icmp with nt := 4, md := 0, dst := 1536 + 121, sa := 1536 + 120, sb := 1920, aux := 64 },
    { nop .jmp with guard := some (121, 0, false), tgt := some go.2 },
    { nop .pathSplit with nt := 11, sa := q, tgt := some bad.2, join := some badJoin.2 }]
  let handle : Gen → Nat → Gen := fun g s => (g.ops x a.ix [{ nop .v2s with nt := 3, dst := 1536 + s, sa := r }]).args x a
    ((a.form.ext.take (immNat a.form.b)).map (fun o => x.opTy a.n o .i32)) (a.form.ext.take (immNat a.form.b))
  let g2 := (g1.jump x a.ix badJoin.2).lab bad.2
  let g3 := ((g2.ops x a.ix [{ nop .v2s with nt := 3, dst := 1536 + 122, sa := r }]).op x a.ix { nop .ncall with md := 1, sa := 1536 + 122 } 0)
  let g4 := ({ g3 with head := true, facts := g1.facts }.lab badJoin.2).op x a.ix (nop .pathJoin) 0
  let g5 := ({ g4.jump x a.ix start.2 with facts := g1.facts }).lab go.2
  let join := g5.label
  let labs := fs.foldl (fun (z : Gen × List Nat) _ => let l := z.1.label; (l.1, z.2 ++ [l.2])) (join.1, [])
  let g6 := (fs.zip labs.2).dropLast.foldl (fun g p =>
    let t := g.test x a .i32 r n [some p.1]
    t.1.split x a.ix t.2 p.2 join.2) labs.1
  let order := (fs.zip labs.2).getLast?.toList ++ (fs.zip labs.2).dropLast
  let g7 := order.foldl (fun g p =>
    let s := 96 + p.1 % 24
    let c := (handle ({ g with facts := g6.facts }.lab p.2) s).call x a next { nop .ncall with md := 1, sa := 1536 + s }
    c.jump x next join.2) g6
  (g7.lab join.2).op x next (nop .pathJoin) 0

/-- A call word (R186, R187, R192). -/
def Gen.callWord (g : Gen) (x : Xl) (a : AWord) (next : Nat) : Gen :=
  if a.opc = 0x006 then
    let fn := indexOf a.form.a
    (g.args x a (funcParams (nth x.m.funcs funcZero fn)) a.form.ext).call x a next { nop .ncall with aux := fn }
  else if opndVaries x.varying a a.form.a then g.callVarying x a next
  else
    let tys := (a.form.ext.take (immNat a.form.b)).map (fun o => x.opTy a.n o .i32)
    let e := g.em (x.regions.testBit a.blk)
    let c := e.code x (x.src a a.form.a .i32 false) .i32 true
    let q := c.1.toSca .i32 c.2
    ((g.take x a.ix q.1).args x a tys a.form.ext).call x a next { nop .ncall with md := 1, sa := q.2 }

/-- The registers that the function saves, with their slots (R403). -/
def saveList (x : Xl) (h : Homes) : List (Nat × Nat) :=
  ((savedCodes x.w.kernel x.k.cap h.vecs h.scas).foldl (fun (a : List (Nat × Nat) × Nat) c =>
    (a.1 ++ [(c, a.2)], a.2 + (if c < 1536 then 1 else 2))) ([], 0)).1

/-- The return sequence: the saved registers, the frame, the return (R157, R403). A kernel's `ret` is an `exit`. -/
def Gen.leave (g : Gen) (x : Xl) (ix : Nat) (saves : List (Nat × Nat)) : Gen :=
  if x.w.kernel then g.op x ix (nop .exit) 2 else
  let g1 := g.ops x ix (saves.map (fun p => { nop .fill with nt := (if p.1 < 1536 then 3 else 4), dst := p.1, aux := p.2 }))
  (g1.op x ix { nop .frameLeave with md := 1 } 0).op x ix (nop .nret) 2

/-- The moves of a `ret`: the result to v0 (R150). -/
def Gen.result (g : Gen) (x : Xl) (a : AWord) : Gen :=
  if a.form.a = .none ∨ x.w.kernel then g else
  let t := funcResult x.f
  g.moves x a.ix (x.regions.testBit a.blk) [{ t := t, h := .vec 0, s := x.src a a.form.a t false }]

/-- The `ret` words of divergent regions, which meet at the exit join (R193). -/
def joinRets (x : Xl) : List AWord := x.w.words.filter (fun a => a.opc == 0x008 && x.regions.testBit a.blk)

/-! ### Terminators -/

/-- A terminator (R183 to R185, R188, R189, R191, R192, R355). -/
def Gen.terminator (g : Gen) (x : Xl) (saves : List (Nat × Nat)) (a : AWord) : Gen :=
  let es := edgesOf x.f.code a
  let div := x.regions.testBit a.blk
  match a.opc, es with
  | 0x003, e :: _ => g.edge x a e.1 e.1 e.2 true
  | 0x004, t :: f :: _ =>
    let cond : Int → List (Nat × Nat) := fun b => match a.form.a with | .back d => [(a.n - d, b.toNat)] | _ => []
    let l := g.edgeLabel x a t.1 t.1 t.2 (cond 1)
    let s := x.src a a.form.a .i1 false
    let byLane := opndVaries x.varying a a.form.a || (match s with | .slot _ => div | _ => false)
    let g1 := if byLane then
        let v := l.1.vecOf x a a.form.a .i1
        v.1.split x a.ix v.2 l.2 (joinLabel x a.blk)
      else match s with
        | .bit r b => l.1.op x a.ix { nop .jmp with guard := some (r, b, false), tgt := some l.2 } 0
        | _ =>
          let c := (l.1.em div).code x s .i1 true
          let q := c.1.toSca .i1 c.2
          (l.1.take x a.ix q.1).op x a.ix { nop .jmp with guard := some (q.2 - 1536, 0, false), tgt := some l.2 } 0
    { g1 with known := g.known ++ cond 0 }.edge x a f.1 f.1 f.2 true
  | 0x005, d :: cs =>
    let t := x.opTy a.n a.form.a .i32
    if opndVaries x.varying a a.form.a then
      let v := g.vecOf x a a.form.a t
      let r := x.k.cap / 2 - 4
      let g1 := if v.2 = r ∨ tyWidth t = 64 then v.1 else v.1.ops x a.ix [{ nop .vmov with nt := 3, dst := r, sa := v.2 }]
      let cases := ((List.range cs.length).zip cs).map (fun c => (some c.1, c.2.1, c.2.2)) ++ [(none, d.1, d.2)]
      g1.chain x a t (if tyWidth t = 64 then v.2 else r) cs.length (joinLabel x a.blk) (groupEdges cases [])
    else g.table x a t (cs ++ [d])
  | 0x008, _ =>
    let g1 := g.result x a
    if div then g1.jump x a.ix (exitLabel x) else g1.leave x a.ix saves
  | 0x010, _ =>
    let e := ((g.em div).word x .trapRet a).ops
    let pre := g.ops x a.ix e.dropLast
    match e.getLast? with | some o => pre.op x a.ix o 2 | none => pre
  | 0x00B, _ => g.op x a.ix { nop .trap with md := 1 } 2
  | _, _ => g.op x a.ix (nop .exit) 2

/-! ### Blocks and functions -/

/-- Whether a word is a terminator. -/
def ends (a : AWord) : Bool := [0x003, 0x004, 0x005, 0x008, 0x009, 0x00B, 0x010].contains a.opc

/-- The words of a block in runs between calls: each run with the call that ends it. -/
def cutCalls : List AWord → List AWord → List (List AWord × AWord)
  | [], _ => []
  | a :: as, run => if a.opc = 0x006 ∨ a.opc = 0x007 ∨ ends a then (run, a) :: cutCalls as [] else cutCalls as (run ++ [a])

/-- The words of a block, from some word on, with its terminator. -/
def Gen.body (g : Gen) (x : Xl) (saves : List (Nat × Nat)) (ws : List AWord) : Gen :=
  (cutCalls ws []).foldl (fun g p =>
    let g1 := g.words x p.1 p.2.ix
    if ends p.2 then g1.terminator x saves p.2
    else g1.callWord x p.2 (((ws.find? (fun a => decide (p.2.ix < a.ix))).map (·.ix)).getD p.2.ix)) g

/-- What holds where a block begins: each value that stands there is in its home, and the saved registers are in their slots. -/
def blockFacts (x : Xl) (vals : List Nat) (saves : List (Nat × Nat)) : List Fact :=
  vals.filterMap (fun v => (x.home v).map (fun h => { h := h, v := v, load := none })) ++
    x.copies.filterMap (fun c => if vals.contains c.1 then some { h := .slot c.2, v := c.1, load := none } else none) ++
    saves.map (fun p => { h := .slot p.2, v := 0xFFF000 + p.1, load := none })

/-- The values listed at a word (R161). -/
def Xl.valsAt (x : Xl) (ix : Nat) : List Nat := pointVals x.m { x.k with mode := x.k.mode % 2 } ix

/-- The blocks at which divergent branches join. -/
def joinBlocks (x : Xl) : List Nat :=
  (x.w.words.filter (fun a => (a.opc == 0x004 || a.opc == 0x005) && opndVaries x.varying a a.form.a)).map (fun a => joinLabel x a.blk)

/-- A block. -/
def Gen.block (g : Gen) (x : Xl) (saves : List (Nat × Nat)) (b : Nat) : Gen :=
  let ws := x.w.words.filter (fun a => a.blk == b && decide (blockStart x.f.code b ≤ a.ix))
  let ix := blockStart x.f.code b
  let g1 := { g with facts := if b = 0 then g.facts else blockFacts x (x.valsAt ix) saves, known := [] }.lab b
  let g2 := if (joinBlocks x).contains b then g1.op x ix (nop .pathJoin) 0 else g1
  g2.body x saves ws

/-- The prologue: the frame, the saves, and the parameters from where they arrive to their homes (R150, R335, R403, R404). -/
def Gen.prologue (g : Gen) (x : Xl) (saves : List (Nat × Nat)) (words : Nat) : Gen :=
  let ix := blockStart x.f.code 0
  let ws := argWords (funcParams x.f) 0
  let from_ : Nat → Ty × Nat → VHome := fun i p => if x.w.kernel then .sca i else if p.2 < 8 then .vec p.2 else .slot (p.2 - 8)
  let ps := ((List.range ws.length).zip ws).map (fun p => (p.1, p.2.1, from_ p.1 p.2))
  let mv := ps.flatMap (fun p =>
    (match x.home p.1 with | some h => [({ t := p.2.1, h := h, s := homeSrc p.2.2 } : Mv)] | none => []) ++
    (match x.copies.find? (fun c => c.1 == p.1) with | some c => [{ t := p.2.1, h := .slot c.2, s := homeSrc p.2.2 }] | none => []))
  let sv := saves.map (fun p => ({ t := if p.1 < 1536 then .i32 else .i64, h := .slot p.2, s := .code p.1 } : Mv))
  let start := ps.map (fun p => ({ h := p.2.2, v := p.1, load := none } : Fact)) ++
    saves.filterMap (fun p => (codeHome p.1).map (fun h => { h := h, v := 0xFFF000 + p.1, load := none }))
  ({ g with facts := start, head := true }.op x ix { nop .frameEnter with aux := words } 0).moves x ix false (sv ++ mv)

/-- The exit join, before the return sequence that the divergent `ret` words share (R193; log 89). -/
def Gen.exitJoin (g : Gen) (x : Xl) (saves : List (Nat × Nat)) : Gen :=
  if !(joinBlocks x).contains (exitLabel x) && (joinRets x).isEmpty then g else
  let a := ((joinRets x).find? (fun r => match r.form.a with | .back _ => true | _ => false)).getD
    ((joinRets x).headD (x.w.words.getLastD aWordZero))
  let vs := match a.form.a with | .back d => [a.n - d] | _ => []
  let fs : List Fact := vs.map (fun v => { h := .vec 0, v := v, load := none }) ++
    saves.map (fun p => { h := .slot p.2, v := 0xFFF000 + p.1, load := none })
  let g1 := { g with facts := fs, known := [], vals := some vs }.lab (exitLabel x)
  let g2 := (g1.op x a.ix (nop .pathJoin) 0).leave x a.ix saves
  { g2 with vals := none }

/-- The edges that stand in blocks of their own; each may give rise to no further one. -/
def Gen.flush (g : Gen) (x : Xl) : Gen :=
  g.tramps.foldl (fun g t =>
    { g with facts := t.facts, known := t.known }.lab t.lab |>.edge x t.word t.target t.goal t.args false) { g with tramps := [] }

/-- Nothing emitted yet. -/
def genZero (x : Xl) : Gen :=
  { lits := [], items := [], fresh := x.w.blocks.length + 1, facts := [], known := [], vals := none, head := false, tramps := [],
    base := none }

/-- A base translation: the prologue, the blocks in order, the exit join, the edges. -/
def emitBase (x : Xl) (h : Homes) (words : Nat) : Gen :=
  let saves := saveList x h
  let g := (List.range x.w.blocks.length).foldl (fun g b => g.block x saves b) ((genZero x).prologue x saves words)
  (g.exitJoin x saves).flush x

/-! ### Layout -/

/-- The bundle index of each label. -/
def labelTable : List Item → Nat → List (Nat × Nat)
  | [], _ => []
  | .lab l :: is, i => (l, i) :: labelTable is i
  | .bun _ :: is, i => labelTable is (i + 1)

/-- An operation with bundle indices in the place of its labels (R153). -/
def fixLabels (tab : List (Nat × Nat)) (o : NOp) : NOp :=
  let look : Nat → Nat := fun l => ((tab.find? (fun p => p.1 == l)).map (·.2)).getD 0
  let o1 := match o.tgt with | some l => { o with dst := look l / 2048, sc := look l % 2048 } | none => o
  match o1.join with | some l => { o1 with sb := look l / 2048, aux := look l % 2048 } | none => o1

/-- The word of a bundle (R45, R46). -/
def bundleWord (x : Xl) (tab : List (Nat × Nat)) (i : Nat) (b : Draft1) : BitVec 256 :=
  let slot : Nat → Instr := fun k =>
    let o := match b.ops.find? (fun p => p.1 == k) with | some p => fixLabels tab p.2.o | none => nop .bnop
    (Instr.ofN o.op (nopForm o k)).getD (.bnop (nopForm (nop .bnop) k))
  let guard := b.ops.findSome? (fun p => p.2.o.guard)
  let none_ : Guard := { reg := 0, bit := 0, pol := false }
  let entered := x.w.words.any (fun a => (edgesOf x.f.code a).any (fun e => e.1 == 0))
  let head := b.head || (!x.plain && tab.any (fun p => p.2 == i && (p.1 != 0 || entered)))
  (encodeBundle {
    kind := if head then 1 else if x.plain then 2 else 0
    stop := BitVec.ofNat 2 b.stop
    g0 := match guard with | some q => { reg := BitVec.ofNat 7 q.1, bit := BitVec.ofNat 6 q.2.1, pol := q.2.2 } | none => none_
    g1 := none_, s0 := slot 0, s1 := slot 1, s2 := slot 2 }).getD 0

/-- The location entries of a record at a bundle: the values, then the saved registers that stand in their slots (R161, R403). -/
def recordLocs (x : Xl) (fs : List Fact) (known : List (Nat × Nat)) (vals : List Nat) : List LocEntry :=
  vals.filterMap (x.locate fs known) ++
    ((fs.filter (fun f => decide (0xFFF000 ≤ f.v) && (match f.h with | .slot _ => true | _ => false))).map entryOf)

/-- The point records of a bundle: its boundary, its trap-capable slots, and an `ncall` as the call point (R159). -/
def bundlePoints (x : Xl) (i : Nat) (b : Draft1) : List PointRec :=
  let vpc : Nat → VPC := VPC.of x.k.fidx
  let edge : PointRec := { bidx := i, kind := 0, vpc := vpc b.ix, locs := recordLocs x b.facts b.known (b.vals.getD (x.valsAt b.ix)) }
  let kept : Nat → List Fact := fun slot => (b.ops.filter (fun p => p.1 != slot)).foldl (fun fs p =>
    factsAfter x b.facts p.2.o (if p.2.main then x.made p.2.ix else none) p.2.ix p.2.acc fs) b.facts
  let traps := [0, 1, 2].filterMap (fun slot => (b.ops.find? (fun p => p.1 == slot)).bind (fun p =>
    if p.2.o.op = .ncall then
      some { bidx := i, kind := slot + 1, vpc := vpc p.2.ix,
             locs := recordLocs x b.facts b.known (callVals x.m { x.k with mode := x.k.mode % 2 } p.2.ix) }
    else if p.2.traps then
      some { bidx := i, kind := slot + 1, vpc := vpc p.2.ix, locs := recordLocs x (kept slot) b.known (x.valsAt p.2.ix) }
    else none))
  edge :: traps

def bundlesOf (g : Gen) : List Draft1 := g.items.reverse.filterMap (fun i => match i with | .bun b => some b | .lab _ => none)

/-! ### Translations (R138 to R140, R406) -/

/-- The entry sequence of a resume translation: each value from the restore area to its home, the words from RPC to the end of its
block, and the transfer into the base translation (R140, R406). -/
def emitResume (x : Xl) (h : Homes) (base : Xl) (heads : List Nat) : Gen :=
  let rpc := VPC.ix x.k.rpc
  let saves := saveList base h
  let vals := (x.valsAt rpc).filter (fun v => !isTok x.w v)
  let area := (vals.foldl (fun (a : List (Nat × Nat) × Nat) v => (a.1 ++ [(v, a.2)], a.2 + (if wideVal x.w v then 2 else 1))) ([], 0)).1
  let start := area.map (fun p => ({ h := .slot (65536 + p.2), v := p.1, load := none } : Fact)) ++
    saves.map (fun p => ({ h := .slot p.2, v := 0xFFF000 + p.1, load := none } : Fact))
  let load : Em → Nat × Nat → Em := fun e p =>
    let t := x.ty p.1
    let entry : Nat → NOp := fun d => { nop .entry with nt := moveCode t, dst := d, sa := 1536 + 123, aux := p.2 }
    let e1 := match x.home p.1 with
      | none => e
      | some (.vec r) => e.add (entry r)
      | some (.sca r) => e.add (entry (1536 + r))
      | some (.bit r b) => (e.add (entry (1536 + 96))).add { nop .pset with nt := 11, dst := 1536 + r, sa := 1536 + 96, aux := b }
      | some (.slot k) =>
        let q := { e with vt := 0 }.vec x (tyWidth t == 64)
        (q.1.add (entry q.2)).add { nop .spill with nt := moveCode t, sa := q.2, aux := k }
    e1.copyOf x p.1
  let g0 : Gen := { genZero x with facts := start, head := true, base := some (base, heads) }
  let e := area.foldl load (g0.em false)
  let b := blockOf x.f.code rpc
  let ws := x.w.words.filter (fun a => a.blk == b && decide (rpc ≤ a.ix))
  let g1 := { g0.take x rpc e with head := area.isEmpty }.body x saves ws
  (g1.exitJoin x saves).flush x

/-- The bundle of each block of a translation. -/
def blockHeads (x : Xl) (g : Gen) : List Nat :=
  let tab := labelTable g.items.reverse 0
  (List.range x.w.blocks.length).map (fun b => ((tab.find? (fun p => p.1 == b)).map (·.2)).getD 0)

/-- The homes of a resume translation into normal: those of its words alone; into plain, those of its base (R406). -/
def resumeHomes (x : Xl) (h : Homes) : Homes :=
  if x.plain then h else
  let r := VPC.ix x.k.rpc
  let q := scanHomes x.w x.varying x.k.cap r (blockLast x.w (blockOf x.f.code r))
  { q with homes := q.homes.map (fun p => match p.2 with | .slot k => (p.1, .slot (k - q.saves + h.saves)) | _ => p), copies := h.copies }

/-- A translation without its check. -/
def imageOfGen (x : Xl) (g : Gen) (words : Nat) : TImage :=
  let tab := labelTable g.items.reverse 0
  let bs := bundlesOf g
  let each := (List.range bs.length).zip bs
  { key := x.k, bundled := false, bundles := each.map (fun p => bundleWord x tab p.1 p.2), literals := g.lits, frameW := words,
    points := each.flatMap (fun p => bundlePoints x p.1 p.2), check := 0, line := 0 }

/-- TRANSLATION: a function of the key and the module, whose constants hold the data base (R139, R140). -/
def translateImage (m : Module) (k : TKey) : TImage :=
  let h := baseHomes m k
  let words := frameWords m k
  let base := xlOf m { k with mode := k.mode % 2, rpc := 0 } h
  let g := emitBase base h words
  let t :=
    if k.mode < 2 then imageOfGen base g words
    else
      let x0 := xlOf m k h
      let x := xlOf m k (resumeHomes x0 h)
      imageOfGen x (emitResume x h base (blockHeads base g)) words
  { t with check := crc64 (imageBody t) }

/-- Which of the call points of a word calls a function: a `callx` on a varying index has the one that faults first, and then one
for each function (R192; log 88). -/
def callPlace (m : Module) (k : TKey) (ix fn : Nat) : Nat :=
  let x := xlOf m k (baseHomes m k)
  match x.w.words.find? (fun a => a.ix == ix) with
  | none => 0
  | some a =>
    if a.opc = 0x006 || !opndVaries x.varying a a.form.a then 0 else
    let fs := callxTargets x a
    1 + ((fs.getLast?.toList ++ fs.dropLast).findIdx? (· == fn)).getD 0

/-- The return point of a call in the base translation of a function: the bundle behind its call point (R152). -/
def returnPoint (t : TImage) (v : VPC) (n : Nat) : Nat :=
  (((t.points.filter (fun r => r.kind != 0 && r.vpc == v)).drop n).head?.map (fun r => r.bidx + 1)).getD 0

/-- A function that cannot be translated within 1 MiB (R158). -/
def tooLong (m : Module) (k : TKey) : Bool := decide (1048576 < imgLen (translateImage m k))

end Sys2Proof.Machine
end

