-- ==== Sys2Proof/Machine/Tokens.lean ====
section
/-!
DEFINITION. Token values of the portable level (R24, R101, R421): the uses of a value that a program can still make, the entries
that its producer reserves, the entries that its uses take, and what becomes of the rest when it dies. Also how entries are
filled, and how T's own commands settle (R101, R117, R156).
-/
namespace Sys2Proof.Machine

/-! ### Filling entries -/

/-- The copy family's and the plane's entries are filled with a whole content (R101, R156). An entry keeps its place. -/
def fillWith (s : State) (ids : List Nat) (e : Entry) : State :=
  ids.foldl (fun s i => let old := entryAt s i
    setEntry s i { old with filled := true, status := e.status, key := e.key, die := e.die, round := e.round, ident := e.ident,
                            won := e.won, wrote := e.wrote }) s

/-- The result of a `tok.all`: done when every input is, else the first failed input's status (R117). -/
def allStatus (s : State) (ids : List Nat) : BitVec 32 :=
  ((ids.map (fun i => (entryAt s i).status)).find? statusFailed).getD (statusWord false 0 0)

/-- The entry that a waiting `tok.all` or `tq.push` fills: a status, or a copy of the entry taken (R117, R156). -/
def settled (s : State) (k : Cmd) (ids : List Nat) : Entry :=
  match k.body, ids with
  | .tokPush, i :: _ => entryAt s i
  | _, _ => { entryZero with status := allStatus s ids, wrote := ids.flatMap (fun i => (entryAt s i).wrote) }

def entryIds (ps : List Pop) : List Nat := ps.filterMap (fun p => match p with | .entry i => some i | .queue _ => none)

/-- A T pop after a command that wrote global memory drops the cached lines of the written pages (R290). -/
def dropWritten (s : State) (core : Nat) (ids : List Nat) : State :=
  let fs := ids.flatMap (fun i => (entryAt s i).wrote)
  if fs.isEmpty then s else
  setLines s (s.m.lines.filter (fun l =>
    !(l.1 / 2 ^ 52 == clusterOf core && fs.contains (l.1 % 2 ^ 52 * 128 / 65536))))

/-- The result of a contest acquires at package scope when T takes its entry (R286, R319). -/
def popAcquire (s : State) (core : Nat) (ids : List Nat) : State :=
  let s1 := dropWritten s core ids
  if ids.any (fun i => (entryAt s i).die != 15) then dropLines s1 (clusterOf core) false else s1

/-- Every `tok.all` and `tq.push` whose taken entries are all filled fills its own; what a `tok.all` takes acquires then (R290,
R319). `fuel` bounds the chain. -/
def settle : Nat → State → State
  | 0, s => s
  | fuel + 1, s =>
    match s.e.cmds.first (fun k => k.2.engine == 1 && (entryIds k.2.pops).all (isFilled s)) with
    | none => s
    | some (i, k) =>
      let s0 := match k.body with | .tokPush => s | _ => popAcquire s k.core (entryIds k.pops)
      let s1 := fillWith s0 k.fills (settled s0 k (entryIds k.pops))
      settle fuel { s1 with e := { s1.e with cmds := s1.e.cmds.del i } }

/-- T's commands settle as far as they can. -/
def settleAll (s : State) : State := settle (s.e.cmds.length + 1) s

/-- A command fills its token entries (R103), and what waits for them at T is settled. -/
def fillTokens (s : State) (ids : List Nat) (e : Entry) : State := settleAll (fillWith s ids e)

/-- An entry with a status word. -/
def statusEntry (w : BitVec 32) : Entry := { entryZero with status := w }

/-! ### The uses of a token value (R421) -/

/-- The plan for the token that the word of an operation defines. -/
def tokPlan (c : Ctx) : TokPlan :=
  let ws := aWords c.module c.func.code c.func.code 0 0 0
  planUses c.module c.func.code ws (wordsAfter ws c.func.code c.ix) [c.n]

/-- The values of a frame that hold a lane's token. -/
def namesOf (s : State) (c : Ctx) (lane g : Nat) : List Nat :=
  (List.range (defWords c.module c.func.code).length).filter (fun v =>
    valueTy c v == .tok && (getVal s (threadKey c.pid lane) c.depth v).toNat == g)

/-- Whether the token can still be used behind the word of an operation. -/
def usedLater (s : State) (c : Ctx) (lane g : Nat) : Bool :=
  let ws := aWords c.module c.func.code c.func.code 0 0 0
  (planUses c.module c.func.code ws (wordsAfter ws c.func.code c.ix) (namesOf s c lane g)).used

/-! ### Entries of a token value -/

/-- Reserves `n` entries of a token at the tail of tq.xy. -/
def reserveTok (core : Nat) (e : Entry) : Nat → State → List Nat → State × List Nat
  | 0, s, ids => (s, ids)
  | n + 1, s, ids =>
    let i := s.c.nextId
    reserveTok core e n (setPair (setEntry (takeId s) i e) core e.prod e.cons (qPush 32 (pairAt s core e.prod e.cons) i)) (ids ++ [i])

/-- Reserves entries of a token for each engine, as many as a list of numbers gives. -/
def reserveUses (core : Nat) (e : Entry) (u : Uses) (s : State) : State × List Nat :=
  [1, 2, 3, 4, 5].foldl (fun a y => reserveTok core { e with cons := y } (useOf u y) a.1 a.2) (s, [])

/-- A `tq.push` of the translator: it takes an entry of T, filled or not, and reserves for each engine what can still be reserved,
at most three entries each, with one to carry the token on when more is needed; so on until nothing is (R156, R421). -/
def fanOut (c : Ctx) (lane : Nat) : Nat → State → Nat → Uses → Bool → State
  | 0, s, _, _, _ => s
  | fuel + 1, s, i, u, more =>
    let core := coreOfWarp c.warp
    let e := entryAt s i
    let all := !more && u.all (fun n => decide (n ≤ 3))
    let now : Uses := (List.range 6).map (fun y => min (useOf u y) (if y = 1 && !all then 2 else 3))
    let rest : Uses := (List.range 6).map (fun y => useOf u y - useOf now y)
    let r := reserveUses core { e with prod := 1, carried := false, filled := false } now (eraseEntry s core i)
    let q := reserveTok core { e with prod := 1, cons := 1, carried := true, filled := false } (if all then 0 else 1) r.1 []
    let k : Cmd := { cmdZero with
      engine := 1, core := core, pid := c.pid, lane := lane, gang := c.gang, wg := (warpAt s c.warp).wg, body := .tokPush,
      pops := [.entry i], fills := r.2 ++ q.2, started := true, after := s.c.nextId }
    let t := setCmd (takeId q.1) q.1.c.nextId k
    match q.2 with
    | j :: _ => if anyUse rest then fanOut c lane fuel t j rest more else t
    | [] => t

/-- A producer of engine `x` makes a token value: its number, and the entries that the producer reserves (R101, R421). The value
is named by the first number, an entry outside the queues that holds its status. A token that is carried, or has more than three
uses on one engine, has one entry in the queue for T. -/
def reserveValue (s : State) (c : Ctx) (x lane : Nat) : State × List Nat :=
  let core := coreOfWarp c.warp
  let g := s.c.nextId
  let e : Entry := { entryZero with group := g, prod := x, thread := threadKey c.pid lane, depth := c.depth }
  let p := tokPlan c
  let s1 := setEntry (takeId s) g e
  if !p.carried && p.counts.all (fun n => decide (n ≤ 3)) then reserveUses core e p.counts s1 |> fun r => (r.1, g :: r.2)
  else
    let r := reserveTok core { e with cons := 1, carried := true } 1 s1 [g]
    if p.carried then r else (fanOut c lane 4096 r.1 (r.2.getD 1 g) p.counts false, r.2)

/-- The entries of a token value that stand in the queues of an engine, in queue order. -/
def standing (s : State) (core y g : Nat) : List Nat :=
  [1, 2, 3, 4, 5].flatMap (fun x => (qIds (pairAt s core x y)).filter (fun i => (entryAt s i).group == g))

/-- Whether a command or a bid has been given an entry to pop. -/
def claimed (s : State) (i : Nat) : Bool :=
  s.e.cmds.any (fun k => k.2.pops.contains (.entry i)) || s.pl.bids.any (fun b => b.pops.contains (.entry i))

/-- The entries of a token that its next uses on an engine take, in queue order (R421; log 6). -/
def freeEntries (s : State) (core y g : Nat) : List Nat :=
  (standing s core y g).filter (fun i => !(entryAt s i).carried && !claimed s i)

/-- A carried token reaches a point where entries are needed: a `tq.push` provides those of one instruction (R421). -/
def carryOne (c : Ctx) (lane y : Nat) (s : State) (g n : Nat) : State :=
  let core := coreOfWarp c.warp
  match (standing s core 1 g).find? (fun i => (entryAt s i).carried) with
  | none => s
  | some i => if n ≤ (freeEntries s core y g).length then s
              else fanOut c lane 4096 s i (oneUse y n) (usedLater s c lane g)

/-- The token values that operands name in a lane. -/
def tokVals (s : State) (c : Ctx) (toks : List Operand) (lane : Nat) : List Nat :=
  toks.map (fun o => (operandVal s c lane o .tok false).toNat)

/-- What the translator does before an instruction of engine `y` that consumes tokens: carried ones are given their entries. -/
def carryToks (s : State) (c : Ctx) (f : Form) (toks : List Operand) (y : Nat) : State :=
  match f with
  | .n _ => s
  | .p _ => settleAll ((pathMask s c.pid).lanes.foldl (fun s l =>
      let vs := tokVals s c toks l
      (vs.eraseDups).foldl (fun s g => carryOne c l y s g (vs.filter (· == g)).length) s) s)

/-- The entry that each token of a list takes on an engine: those of one value in queue order. A value without an entry there
stands for itself. -/
def takeEntries (s : State) (core y : Nat) : List Nat → List Nat → List Nat
  | [], _ => []
  | g :: gs, used =>
    let i := ((freeEntries s core y g).find? (fun i => !used.contains i)).getD g
    i :: takeEntries s core y gs (i :: used)

/-- The entries that an instruction of engine `y` takes in a lane. -/
def laneEntries (s : State) (c : Ctx) (toks : List Operand) (y lane : Nat) : List Nat :=
  takeEntries s (coreOfWarp c.warp) y (tokVals s c toks lane) []

/-! ### Tokens that die (R189, R421) -/

/-- The entries for T that a thread has not consumed. -/
def outstanding (s : State) (core thread : Nat) : List Nat :=
  [1, 2, 3, 4, 5].flatMap (fun x => (qIds (pairAt s core x 1)).filter (fun i =>
    (entryAt s i).cons != 0 && (entryAt s i).thread == thread && !claimed s i))

/-- The unconsumed entries for T of a path's threads: those of one frame, or of every frame (R189). -/
def leftEntries (s : State) (c : Ctx) (depth : Option Nat) : List Nat :=
  (pathMask s c.pid).lanes.flatMap (fun l => (outstanding s (coreOfWarp c.warp) (threadKey c.pid l)).filter (fun i =>
    depth.all (· == (entryAt s i).depth)))

/-- The entries for T of tokens that have no use left where a path has come to: the first instruction of a block (R421). -/
def deadEntries (s : State) (c : Ctx) (pid b : Nat) : List Nat :=
  let cp : Ctx := { c with pid := pid }
  let left := leftEntries s cp (some c.depth)
  if left.isEmpty then [] else
  let ws := aWords c.module c.func.code c.func.code 0 0 0
  if !(liveBlocks c.func.code ws).testBit b then [] else
  (left.filter (fun i =>
    let e := entryAt s i
    !(planUses c.module c.func.code ws (blockBody ws c.func.code b) (namesOf s cp (e.thread % 64) e.group)).used))

/-- The `tq.pop` of tokens that die: they leave their queues together (R116, R421). -/
def popDying (s : State) (core : Nat) (ids : List Nat) : State :=
  popAcquire (ids.foldl (fun s i => eraseEntry s core i) s) core ids

end Sys2Proof.Machine
end

