-- ==== Sys2Proof/Machine/Control.lean ====
section
/-!
DEFINITION. Control flow at the portable level: branches and divergence, calls and returns, exit, traps and the
handler's instructions (R149, R155, R182 to R194, R353 to R355).
-/
namespace Sys2Proof.Machine

/-! ### Joins (R193) -/

/-- The join of a divergent branch at word `ix` (R193). -/
def joinOf (c : Ctx) : JoinPt :=
  match ipdom c.func.code (blockOf c.func.code c.ix) with
  | some j => .block (VPC.of c.fn (blockStart c.func.code j))
  | none => .exit

/-! ### Edges (R34, R182) -/

/-- One lane's edge: lane, target block, arguments. -/
structure Edge where
  lane : Nat
  target : Nat
  args : List Operand
  deriving DecidableEq, Repr

/-- The type of argument `i` of the block at word `bw`. -/
def argTy (c : Ctx) (bw i : Nat) : Ty := typeAt c (tyOf (nth c.func.code 0 (bw + 1 + i)))

/-- Pairs of an argument's number and its value. -/
def edgeVals (s : State) (c : Ctx) (e : Edge) : List (Nat × Nat × Word) :=
  let bw := nth (blockWords c.func.code) 0 e.target
  let v0 := defsBefore c.module c.func.code bw + 0
  ((List.range e.args.length).zip e.args).map (fun a =>
    (e.lane, v0 + a.1, operandVal s c e.lane a.2 (argTy c bw a.1) false))

/-- Every argument takes its value at the same moment (R34). -/
def passArgs (s : State) (c : Ctx) (es : List Edge) : State :=
  (es.flatMap (edgeVals s c)).foldl (fun s a => setVal s (threadKey c.pid a.1) c.depth a.2.1 a.2.2) s

/-- The distinct targets of a list of edges, in order of first appearance. -/
def targetsOf : List Edge → List Nat → List Nat
  | [], seen => seen.reverse
  | e :: es, seen => targetsOf es (if seen.contains e.target then seen else e.target :: seen)

/-- Splits path `p` over the groups (mask, pc), the first staying with `p`; the paths that result (R155, R192). -/
def splitChain (j : JoinPt) : List (Mask × Pc) → State → Nat → List Nat → State × List Nat
  | [], s, p, ps => (s, ps ++ [p])
  | [(_, pc)], s, p, ps => (updPath s p (fun q => { q with pc := pc }), ps ++ [p])
  | (m, pc) :: rest, s, p, ps =>
    let new := freePath s (warpOfPath p)
    splitChain j rest (splitPath s p m pc (.word 0) j) new (ps ++ [p])

/-- A path has come to the first word of block `b`: tokens that die there are popped first, and the path waits for them; then it is
checked against its join (R155, R421). -/
def comeTo (s : State) (c : Ctx) (pid b : Nat) : State :=
  let s1 := updPath s pid (fun q => { q with resumed := none, readyAt := s.c.cycle })
  match deadEntries s1 c pid b with
  | [] => arrive s1 pid
  | ids => updPath s1 pid (fun q => { q with wait := some (.dying ids) })

/-- What a path does once the tokens that its frame, or with `none` its threads, leave unconsumed have been popped (R189, R421). -/
def afterPops (s : State) (c : Ctx) (f : Form) (depth : Option Nat) (t : State) : State :=
  match leftEntries s c depth with
  | [] => t
  | ids => hold s c.pid f (.dying ids)

/-- Takes the edges: arguments, then one path for each distinct target (R192, R193). -/
def takeEdges (s : State) (c : Ctx) (es : List Edge) : State :=
  let s1 := passArgs (endIssue s) c es
  let bs := targetsOf es []
  let groups := bs.map (fun b =>
    (Mask.of ((es.filter (fun e => e.target == b)).map (·.lane)), Pc.word (VPC.of c.fn (blockStart c.func.code b))))
  let r := splitChain (joinOf c) groups s1 c.pid []
  (r.2.zip bs).foldl (fun s p => comeTo s c p.1 p.2) r.1

/-- R183. -/
def execBr (f : PForm) (s : State) : Out :=
  issuing (.p f) s fun c =>
    .next (takeEdges s c ((pathMask s c.pid).lanes.map (fun l => ⟨l, indexOf f.a, f.ext⟩)))

/-- R184: the true target's arguments stand first. -/
def execBrc (f : PForm) (s : State) : Out :=
  issuing (.p f) s fun c =>
    let k := blockArgs c.func.code (nth (blockWords c.func.code) 0 (indexOf f.b))
    .next (takeEdges s c ((pathMask s c.pid).lanes.map (fun l =>
      if (src s c (.p f) 0 .i1 false l).getLsbD 0 then ⟨l, indexOf f.b, f.ext.take k⟩ else ⟨l, indexOf f.c, f.ext.drop k⟩)))

/-- The argument list of case `k` of a `switch`: the default's first, then each case's in case order (R185). -/
def caseArgs (code : List Word) (dflt : Nat) (cases : List Nat) (args : List Operand) (k : Nat) : List Operand :=
  let cnt := fun b => blockArgs code (nth (blockWords code) 0 b)
  ((args.drop (cnt dflt + ((cases.take k).map cnt).sum)).take (cnt (nth cases 0 k)))

/-- R185. -/
def execSwitch (f : PForm) (s : State) : Out :=
  issuing (.p f) s fun c =>
    let n := immNat f.c
    let cases := (f.ext.take n).map indexOf
    let args := f.ext.drop n
    let t := opndTy c (.p f) 0 .i32
    let dn := blockArgs c.func.code (nth (blockWords c.func.code) 0 (indexOf f.b))
    .next (takeEdges s c ((pathMask s c.pid).lanes.map (fun l =>
      let k := zx (tyWidth t) (src s c (.p f) 0 t false l)
      if k < n then ⟨l, nth cases 0 k, caseArgs c.func.code (indexOf f.b) cases args k⟩
      else ⟨l, indexOf f.b, args.take dn⟩)))

/-! ### Calls (R149 to R152, R157, R186, R187) -/

/-- Argument word `k` of a call: v0 to v7, then the callee's spill slots (R150). -/
def argWord (s : State) (w lane sp k : Nat) : Nat :=
  if k < 8 then (getVreg s w k lane).toNat else stackWord s w lane (sp + 16 + 4 * (k - 8))

/-- A value of a type that begins at argument word `k`. -/
def argValue (s : State) (w lane sp : Nat) (t : Ty) (k : Nat) : Word :=
  let lo := argWord s w lane sp k
  lowBits (tyWidth t) (BitVec.ofNat 64 (if tyWidth t = 64 then lo + 2 ^ 32 * argWord s w lane sp (k + 1) else lo))

def putArgWord (s : State) (w lane sp k v : Nat) : State :=
  if k < 8 then setVreg s w k lane (BitVec.ofNat 32 v) else setStackWord s w lane (sp + 16 + 4 * (k - 8)) (v % 2 ^ 32)

/-- A value of a type is put where it begins at argument word `k`. -/
def putArg (s : State) (w lane sp : Nat) (t : Ty) (k : Nat) (v : Word) : State :=
  let s1 := putArgWord s w lane sp k (v.toNat % 2 ^ 32)
  if tyWidth t = 64 then putArgWord s1 w lane sp (k + 1) (v.toNat / 2 ^ 32) else s1

/-- The call proper: link, frame, header, arguments in their words, and the callee's entry (R150, R157, R186). -/
def enterCallee (s : State) (c : Ctx) (fn w : Nat) (wants : Option Nat) (args : List Operand) : State :=
  let q := pathAt s c.pid
  let callee := funcAt c.module fn
  let key := calleeKey s c.gang c.fn
  let base := (imageAt s (clusterOf (coreOfWarp c.warp)) key).getD (translateImage c.module key)
  let link := linkOf c.fn (returnPoint base (VPC.of c.fn c.ix) (callPlace c.module key c.ix fn))
  let sp := q.s127 + q.s124
  let ws := argWords (funcParams callee) 0
  let vals := q.mask.lanes.flatMap (fun l => ((List.range args.length).zip args).map (fun a =>
    (l, a.1, operandVal s c l a.2 (nth ws (.none, 0) a.1).1 false)))
  let s1 := vals.foldl (fun s a => setVal (putArg s c.warp a.1 sp.toNat (nth ws (.none, 0) a.2.1).1 (nth ws (.none, 0) a.2.1).2 a.2.2)
    (threadKey c.pid a.1) (c.depth + 1) a.2.1 a.2.2) (endIssue s)
  let s2 := putHeader s1 c.warp sp.toNat link q.s127 q.s124 q.mask.lanes
  let s3 := startDivCall s2 c.pid
  setPath s3 c.pid { q with
    pc := .word (VPC.of fn (blockEntry callee.code 0))
    resumed := none
    frames := { fn := fn, callVpc := VPC.of c.fn c.ix, wants := wants, trap := none } :: q.frames
    s125 := link
    s127 := sp
    s124 := BitVec.ofNat 64 (16 + 4 * w)
    s126 := BitVec.ofNat 64 (physStack s3 c.warp (sp.toNat + 16))
    readyAt := s.c.cycle }

/-- A path enters a key: without a usable translation it holds and misses (R163). -/
def missKey (s : State) (pid : Nat) (f : Form) (key : TKey) : State :=
  enqueue (hold s pid f (.miss key)) (.translationMiss pid key)

/-- A call of one function by a whole path: the translation, the turn of R149, the stack limit (R157, R158). -/
def callFn (s : State) (c : Ctx) (f : Form) (fn : Nat) (wants : Option Nat) (args : List Operand) : State :=
  let key := calleeKey s c.gang fn
  let image := imageAt s (clusterOf (coreOfWarp c.warp)) key
  if image.isNone && tooLong c.module key then raise s c f (plainTrap 0x14 (pathMask s c.pid).lanes)
  else if callHeld s c.pid then hold s c.pid f .callTurn
  else match image with
    | none => missKey s c.pid f key
    | some t =>
      let q := pathAt s c.pid
      if (q.s127 + q.s124).toNat + 16 + 4 * t.frameW > stackSize s c.warp
      then raise s c f (plainTrap 0x13 q.mask.lanes)
      else enterCallee s c fn t.frameW wants args

/-- R186. -/
def execCall (f : PForm) (s : State) : Out :=
  issuing (.p f) s fun c =>
    let fn := indexOf f.a
    .next (callFn s c (.p f) fn (if (funcAt c.module fn).result.isSome then some c.n else none) f.ext)

/-- Whether a function index may be called with these arguments (R187). -/
def callxOk (c : Ctx) (f : PForm) (fn : Nat) : Bool :=
  let g := funcAt c.module fn
  let codeOf : Func → Nat → Nat := fun h i => (nth h.types 0 i).toNat
  decide (fn < c.module.funcs.length) && !(g.fflags.getLsbD 2) && g.nparam == immNat f.b &&
    ((List.range g.nparam).zip f.ext).all (fun a =>
      tyOfCode (codeOf g (tyOf (nth g.code 0 (1 + a.1)))) ==
        some (match a.2 with | .back d => valueTy c (c.n - d) | _ => .i32)) &&
    (match g.result with
     | none => f.md == 0
     | some r => f.md == 1 && codeOf g r == codeOf c.func f.ty.toNat)

/-- The paths that a `callx` split off with a lesser index and that have not made their call yet. -/
def callxAhead (s : State) (c : Ctx) (f : PForm) (fn : Nat) : List Nat :=
  ((pathsOf s c.warp).filter (fun p => p.1 != c.pid && p.2.split.isSome && sameCallx p.2 (pathAt s c.pid) &&
    p.2.mask.lanes.any (fun l => decide (zx 32 (operandVal s { c with pid := p.1 } l f.a .i32 false) < fn)))).map (·.1)

/-- Numbers in rising order, each once. -/
def sortDistinct (ns : List Nat) : List Nat := (ns.foldl (fun m n => SMap.ins m n ()) ([] : SMap Unit)).map (·.1)

/-- R187: every lane is checked; lanes with one index call together, distinct indices in ascending order. -/
def execCallx (f : PForm) (s : State) : Out :=
  issuing (.p f) s fun c =>
    let ls := (pathMask s c.pid).lanes
    let fnOf := fun l => zx 32 (src s c (.p f) 0 .i32 false l)
    let bad := ls.filter (fun l => !callxOk c f (fnOf l))
    .next (if !bad.isEmpty then raise s c (.p f) (plainTrap 0x12 bad) else
      match sortDistinct (ls.map fnOf) with
      | [] => s
      | [fn] =>
        match callxAhead s c f fn with
        | [] => callFn s c (.p f) fn (if f.md = 1 then some c.n else none) f.ext
        | ids => hold s c.pid (.p f) (.callAfter ids)
      | fns =>
        let groups := fns.map (fun fn => (Mask.of (ls.filter (fun l => fnOf l == fn)), (pathAt s c.pid).pc))
        let r := splitChain (.after (VPC.of c.fn (nextIx c.func.code c.ix))) groups (endIssue s) c.pid []
        (List.range r.2.length).foldl (fun s k => updPath s (nth r.2 0 k) (fun q => { q with
          wait := if k = 0 then none else some (.callAfter (r.2.take k)), readyAt := s.c.cycle })) r.1)

/-! ### Leaving (R188, R189) -/

/-- Threads finish: their lanes leave the path and their barrier sets (R189). Within a handler the trap block notes it. -/
def exitLanes (s : State) (p : Nat) : State :=
  let q := pathAt s p
  let g := (warpAt s (warpOfPath p)).gang
  let s1 := q.mask.lanes.foldl (fun s l => leaveBars s g (threadKey p l) false) s
  match handlerOf q with
  | none => dropLanes s1 p q.mask
  | some b => finishHandler (dropLanes (noteLeft s1 b q.mask.lanes .gone) p q.mask) b

/-- The slot's path ends when the other slots of its bundle have acted. -/
def endAfter (s : State) : State := { s with c := { s.c with issue := s.c.issue.map (fun i => { i with ended := true }) } }

/-- R189. In a bundle the path ends after the other slots. -/
def execExit (f : Form) (s : State) : Out :=
  issuing f s fun c =>
    .next (match f with
      | .p _ => afterPops s c f none (exitLanes (endIssue s) c.pid)
      | .n _ => endAfter s)

/-- The caller goes on after the call: frame, path registers, the result in its words, the return mask in s0 (R150, R157, R186). -/
def returnTo (s : State) (c : Ctx) (fr : Frame) (rest : List Frame) (rs : List (Nat × Word)) : State :=
  let q := pathAt s c.pid
  let l0 := firstLane s c.pid
  let h := getHeader s c.warp l0 q.s127.toNat
  let sp := h.2.1
  let caller := funcAt c.module (VPC.fn fr.callVpc)
  let s1 := match fr.wants with
    | some v => rs.foldl (fun s r => setVal (putArg s c.warp r.1 0 (funcResult c.func) 0 r.2) (threadKey c.pid r.1) rest.length v r.2) s
    | none => s
  let s2 := endDivCall (setSreg s1 c.pid 0 q.mask) c.pid rest.length
  let s3 := setPath s2 c.pid { q with
    pc := .word (VPC.of (VPC.fn fr.callVpc) (nextIx caller.code (VPC.ix fr.callVpc)))
    resumed := none
    frames := rest
    s127 := sp
    s124 := h.2.2
    s126 := BitVec.ofNat 64 (physStack s2 c.warp (sp.toNat + 16))
    s125 := (getHeader s c.warp l0 sp.toNat).1
    atExit := false
    readyAt := s.c.cycle }
  arrive (endIssue s3) c.pid

/-- The results a `ret` delivers: its operand, or what each lane left at the exit join (R193). -/
def retVals (s : State) (c : Ctx) (f : PForm) : List (Nat × Word) :=
  (pathMask s c.pid).lanes.map (fun l =>
    (l, if (pathAt s c.pid).atExit then getVal s (threadKey c.pid l) c.depth retSlot
        else src s c (.p f) 0 (typeAt c f.ty.toNat) false l))

/-- Whether the path was split in this invocation of the function: its lanes meet at the exit join first. -/
def splitHere (s : State) (c : Ctx) : Bool :=
  match (pathAt s c.pid).split.bind (s.x.splits.find? ·) with
  | some k => k.depth == c.depth
  | none => false

/-- R188: a kernel's `ret` acts as `exit`; every lane of one call returns together. -/
def execRet (f : PForm) (s : State) : Out :=
  issuing (.p f) s fun c =>
    let rs := retVals s c f
    .next (if splitHere s c then
      let s1 := rs.foldl (fun s r => setVal s (threadKey c.pid r.1) c.depth retSlot r.2) (endIssue s)
      arrive (updPath s1 c.pid (fun q => { q with atExit := true })) c.pid
    else match (pathAt s c.pid).frames with
      | [] => afterPops s c (.p f) none (exitLanes (endIssue s) c.pid)
      | fr :: rest => afterPops s c (.p f) (some c.depth) (returnTo s c fr rest rs))

/-! ### Traps -/

/-- R190: a user trap that names every active lane. MOD 1 natively is `unreach` (R191). -/
def execTrap (f : Form) (s : State) : Out :=
  issuing f s fun c =>
    let code := match f with | .p w => immNat w.a | .n w => w.aux.toNat
    let kind := match f with | .p _ => 1 | .n w => if w.md = 1 then 2 else 1
    .next (raise s c f { plainTrap kind (pathMask s c.pid).lanes with code := code })

/-- R191. -/
def execUnreach (f : PForm) (s : State) : Out :=
  issuing (.p f) s fun c => .next (raise s c (.p f) (plainTrap 2 (pathMask s c.pid).lanes))

/-- The trap record of the handler that a path runs. -/
def currentTrap (s : State) (pid : Nat) : TrapRec :=
  match (handlerOf (pathAt s pid)).bind (s.x.blocks.find? ·) with
  | some b => b.record
  | none => trapZero

/-- One field of a trap record in a lane (R354). -/
def trapField (t : TrapRec) (md lane : Nat) : Word :=
  match md with
  | 0 => BitVec.ofNat 64 t.kind
  | 1 => BitVec.ofNat 64 t.code
  | 2 => t.vpc.setWidth 64
  | 3 => t.flags.setWidth 64
  | 4 => ((t.addrs.find? (fun a => a.1 == lane)).map (·.2)).getD 0
  | 5 => boolWord (t.lanes.getLsbD lane)
  | _ => BitVec.ofNat 64 t.space
where
  /-- A truth value as a word. -/
  boolWord (b : Bool) : Word := if b then 1 else 0

/-- R354. -/
def execTrapInfo (f : Form) (s : State) : Out :=
  laneOp f s (fun _ => if modOf f = 4 then .i64 else .i32) (fun c l => trapField (currentTrap s c.pid) (modOf f) l)

/-- R355: each lane leaves the handler with the action of the `trap.ret` it reaches; the last one returns. -/
def leaveHandler (s : State) (c : Ctx) (f : Form) : State :=
  let q := pathAt s c.pid
  match handlerOf q with
  | none => s
  | some b =>
    let t := match f with | .p w => opndTy c f 0 (typeAt c w.ty.toNat) | .n _ => formTy c f
    let s1 := q.mask.lanes.foldl (fun s l =>
      noteLeft s b [l] (match modOf f with | 0 => .resume | 1 => .skip (src s c f 0 t false l) | _ => .kill)) s
    finishHandler (dropLanes s1 c.pid q.mask) b

/-- R355. In a bundle the path leaves after the other slots. -/
def execTrapRet (f : Form) (s : State) : Out :=
  issuing f s fun c =>
    .next (match f with
      | .p _ => afterPops s c f (some c.depth) (leaveHandler (endIssue s) c f)
      | .n _ => endAfter s)

end Sys2Proof.Machine
end

