-- ==== Sys2Proof/Machine/Special.lean ====
section
/-!
DEFINITION. The special-function unit: fixed functions and the activation table (R230 to R238).
-/
namespace Sys2Proof.Machine

/-! ### Reference values in fixed point

A value x is held as the integer ⌊x · 2^200⌋. Every finite f32 is exact there, and the errors of the series below are far
under the bounds of R231, which limit the free value of a result that the spec does not state. -/

def fxOne : Int := 2 ^ 200
/-- 2π and ln 2 in fixed point. -/
def fxTwoPi : Int := 10096689509235987743946820282484873672429286842977325943070736
def fxLn2 : Int := 1113844574712631719546256151097547306333272293549090750737802

/-- An f32 value in fixed point; zero for a NaN or an infinity. -/
def fxOf (v : FVal) : Int :=
  match v with
  | .fin n m e => signedNat n (if 0 ≤ e + 200 then m * 2 ^ (e + 200).toNat else m / 2 ^ (-(e + 200)).toNat)
  | _ => 0

def fxMul (a b : Int) : Int := a * b / fxOne

/-- Sum of `t + t·x/k + t·x²/(k(k+1)) + …`: the exponential series from term `t`. -/
def expSeries (x : Int) : Nat → Nat → Int → Int
  | 0, _, t => t
  | n + 1, k, t => t + expSeries x n (k + 1) (fxMul t x / (k : Int))

/-- The sine or cosine series: each term is the last times -x²/((k+1)(k+2)). -/
def trigSeries (x2 : Int) : Nat → Nat → Int → Int
  | 0, _, t => t
  | n + 1, k, t => t + trigSeries x2 n (k + 2) (-(fxMul t x2 / (((k + 1) * (k + 2) : Nat) : Int)))

/-- Bits of log2 of y in [1, 2): repeated squaring. -/
def logBits : Nat → Int → Int → Int
  | 0, _, _ => 0
  | n + 1, y, b =>
    let z := fxMul y y
    if 2 * fxOne ≤ z then b + logBits n (z / 2) (b / 2) else logBits n z (b / 2)

/-- 2^x of a fixed-point x. -/
def fxExp2 (x : Int) : Int :=
  let n := x / fxOne
  let r := expSeries (fxMul (x - n * fxOne) fxLn2) 60 1 fxOne
  if 0 ≤ n then r * (2 ^ n.toNat : Nat) else r / (2 ^ (-n).toNat : Nat)

/-- log2 of m·2^e. -/
def fxLog2 (m : Nat) (e : Int) : Int :=
  let b := bitLen m
  ((b : Int) + e - 1) * fxOne + logBits 100 ((m : Int) * fxOne / (2 ^ (b - 1) : Nat)) (fxOne / 2)

def fxSin (x : Int) : Int := let y := x % fxTwoPi; trigSeries (fxMul y y) 60 1 y
def fxCos (x : Int) : Int := let y := x % fxTwoPi; trigSeries (fxMul y y) 60 0 fxOne

/-- One unit in the last place of f32 at a fixed-point magnitude. -/
def fxUlp (x : Int) : Int := 2 ^ (max (bitLen x.natAbs - 24) 51)

/-- The free value where it keeps the bound around the reference, else the reference rounded (R231; log 2). -/
def bounded (fn : Nat) (a : BitVec 32) (ref bound : Int) : Nat :=
  let y := (Config.sfValue fn a).toNat
  let near := match fmtF32.decode y with
    | .fin n m e => decide ((fxOf (.fin n m e) - ref).natAbs ≤ bound.toNat)
    | .zero _ => decide (ref.natAbs ≤ bound.toNat)
    | _ => false
  if near then y
  else if ref = 0 then 0 else (fmtF32.finish rne false (decide (ref < 0)) ref.natAbs (-200) false).1

/-- Whether m is a power of two. -/
def isPow2 (m : Nat) : Bool := m == 2 ^ (bitLen m - 1)

/-- The f32 code of (-1)^n · 2^e, for e in the range of f32. -/
def pow2Code (n : Bool) (e : Int) : Nat := (fmtF32.finish rne false n 1 e false).1

/-- A fixed function on an f32 operand: special operands by R232, exact cases and bounds by R231. -/
def fixedFn (fn : Nat) (a : Nat) : Nat × Flags :=
  let f := fmtF32
  let code : BitVec 32 := BitVec.ofNat 32 a
  match f.decode a with
  | .nan s => (f.nan, if s then fInvalid else fNone)
  | .inf n =>
    (match fn with
      | 0 => if n then (0, fNone) else (f.infCode false, fNone)
      | 1 => if n then (f.nan, fInvalid) else (f.infCode false, fNone)
      | 2 => (f.zero n, fNone)
      | 3 => if n then (f.nan, fInvalid) else (0, fNone)
      | _ => (f.nan, fInvalid))
  | .zero n =>
    (match fn with
      | 0 => (f.ofImm 1, fNone)
      | 1 => (f.infCode true, fDivZero)
      | 2 => (f.infCode n, fDivZero)
      | 3 => (f.infCode n, fDivZero)
      | 4 => (f.zero n, fNone)
      | _ => (f.ofImm 1, fNone))
  | .fin n m e =>
    let x := fxOf (.fin n m e)
    let top := (bitLen m : Int) + e - 1
    match fn with
    | 0 =>
      if !n && decide (7 ≤ top) then (f.infCode false, fOverflow ||| fInexact)
      else if x % fxOne = 0 ∧ -149 * fxOne ≤ x then (pow2Code false (x / fxOne), fNone)
      else
        let ref := if x < -190 * fxOne then 0 else fxExp2 x
        (bounded fn code ref (if ref < 2 ^ 74 then 2 ^ 52 else 2 * fxUlp ref), fNone)
    | 1 =>
      if n then (f.nan, fInvalid)
      else if isPow2 m then (f.ofImm top, fNone)
      else
        let ref := fxLog2 m e
        (bounded fn code ref (if fxOne / 2 ≤ x ∧ x ≤ 2 * fxOne then fxOne / 2 ^ 22 else 2 * fxUlp ref), fNone)
    | 2 =>
      if top < -128 ∨ (top = -128 ∧ isPow2 m) then (f.infCode n, fOverflow ||| fInexact)
      else if isPow2 m && decide (top ≤ 127) && decide (-127 ≤ top) then (pow2Code n (-top), fNone)
      else
        let ref := fxOne * fxOne / x
        (bounded fn code ref (fxUlp ref), fNone)
    | 3 =>
      if n then (f.nan, fInvalid)
      else if isPow2 m && top % 2 == 0 then (pow2Code false (-(top / 2)), fNone)
      else
        let ref : Int := (isqrt ((fxOne * fxOne * fxOne / x).toNat) : Nat)
        (bounded fn code ref (2 * fxUlp ref), fNone)
    | 4 => (bounded fn code (fxSin x) (fxOne / 2 ^ 21), fNone)
    | _ => (bounded fn code (fxCos x) (fxOne / 2 ^ 21), fNone)

/-- A result of f32 rounded to TYPE (R230): overflow becomes infinity with overflow and inexact; nothing else is raised. -/
def roundTo (t : Ty) (y : Nat) (fl : Flags) : Word × Flags :=
  if t == .f32 then (BitVec.ofNat 64 y, fl)
  else
    let r := (fmtOf t).convert fmtF32 rne false y
    (BitVec.ofNat 64 r.1, fl ||| (if r.2 &&& fOverflow != 0 then fOverflow ||| fInexact else fNone))

/-! ### The activation table (R233 to R238) -/

def bankKey (core b off : Nat) : Nat := core * 8320 + b * 4160 + off
/-- An f32 of a table bank. -/
def bankWord (s : State) (core b off : Nat) : Nat := leNat (s.e.bank.getsD 0 (bankKey core b off) 4)
/-- Coefficient `j` of segment `i` (R234). -/
def coeff (s : State) (core b i j : Nat) : Nat := bankWord s core b (64 + 16 * i + 4 * j)
def bankNat (b : Bool) : Nat := if b then 1 else 0
def rneDeliver : Deliver := { rnd := rne, sat := false, ftz := false }

/-- u = round((x - LO) · SCALE): exact product, one rounding; it may be infinite (R235). -/
def tabU (x lo scale : Nat) : Nat :=
  let f := fmtF32
  match f.decode x with
  | .inf n => f.infCode n
  | .zero n =>
    match f.decode lo with
    | .zero k => prod (.zero (n && !k)) (f.decode scale)
    | v => prod v.flip (f.decode scale)
  | v => match v, f.decode lo with
    | .fin n m e, .fin k m2 e2 =>
      let d := addExact n m e (!k) m2 e2
      if d.1 = 0 then 0 else prod (.fin (decide (d.1 < 0)) d.1.natAbs d.2) (f.decode scale)
    | v, _ => prod v (f.decode scale)
where
  /-- A product rounded once. -/
  prod (a b : FVal) : Nat :=
    match mulExact a b with
    | some v => (fmtF32.put rneDeliver v).1
    | none => fmtF32.nan

/-- ⌊u⌋ of a code in [0, 256). -/
def tabFloor (u : Nat) : Nat :=
  match fmtF32.decode u with
  | .fin _ m e => (toIntegral { mode := 2, u := 0 } false m e).1.toNat
  | _ => 0

/-- `sf.eval.tab` on an f32 operand with the bank `b` of a core (R235). -/
def tabFn (s : State) (core b x : Nat) : Nat × Flags :=
  let f := fmtF32
  let v := f.decode x
  if v.isNan then (f.nan, snanFlag [v]) else
  let rules := leNat (s.e.bank.getsD 0 (bankKey core b 4) 2)
  let u := tabU x (bankWord s core b 8) (bankWord s core b 12)
  let uv := f.decode u
  let left := match uv with | .fin true _ _ => true | .inf true => true | _ => false
  let right := match uv with
    | .inf false => true
    | .fin false m e => decide (9 ≤ (bitLen m : Int) + e)
    | _ => false
  let finite := match uv with | .inf _ => false | _ => true
  let rule := if left then bitsOf rules 0 2 else bitsOf rules 2 2
  let seg : Nat → FVal → Nat × Flags := fun i t =>
    let step : Nat → Nat → Nat := fun q j => (f.fmaOf rneDeliver (f.decode q) t (f.decode (coeff s core b i j))).1
    (step (step (step (coeff s core b i 3) 2) 1) 0, fNone)
  if !left && !right then
    let i := tabFloor u
    seg i (f.decode (f.sub rneDeliver u (f.ofImm i)).1)
  else if rule = 2 then
    let y := bankWord s core b (if left then 16 else 20)
    (if (f.decode y).isNan then f.nan else y, fNone)
  else if rule == 1 && finite then
    (if left then seg 0 uv else seg 255 (uv.lessNat 255))
  else if left then seg 0 (.zero false)
  else seg 255 (f.decode (f.ofImm 1))

/-- R230, R235. -/
def execSfEval (f : Form) (s : State) : Out :=
  issuing f s fun c =>
    let t := formTy c f
    let core := coreOfWarp c.warp
    let sf := sfAt s core
    let valid := if sf.cur then sf.valid1 else sf.valid0
    let ls := (pathMask s c.pid).lanes
    .next (if modOf f = 6 ∧ !valid then raise s c f (plainTrap 0x15 ls)
      else withFlags s c f t 0x03 (ls.map (fun l =>
        let x0 := (src s c f 0 t false l).toNat
        let x := if t == .f32 then x0 else if ((fmtOf t).decode x0).isSnan then 0x7FA00000 else
          (fmtF32.convert (fmtOf t) rne false x0).1
        let r := if modOf f = 6 then tabFn s core (bankNat sf.cur) x else fixedFn (modOf f) x
        (l, roundTo t r.1 r.2))))

/-- The check of a record of `n` bytes, a multiple of `align`, over its first and last byte (R115, R237). -/
def recordChk (s : State) (c : Ctx) (sp : Nat) (a : Word) (n align : Nat) : Chk :=
  let noFix := (pathAt s c.pid).noFix
  if a.toNat % align ≠ 0 then .bad 5 0
  else if sp = 2 then (match scrHome s c.gang (a.setWidth 32) n with
    | some (core, pa) => .loc (.scr core pa)
    | none => .bad 0x0C 0)
  else if a.extractLsb' 57 7 != 0 || a.getLsbD 56 then .bad 6 0
  else match chkVirt s (coreOfWarp c.warp) c.ctx noFix a .rd with
    | .loc l => (match chkVirt s (coreOfWarp c.warp) c.ctx noFix (a + BitVec.ofNat 64 (n - 1)) .rd with
      | .loc _ => .loc l
      | x => x)
    | x => x

/-- The bytes of a checked record: the second page's part has a frame of its own. -/
def recordBytes (s : State) (c : Ctx) (a : Word) (n : Nat) (l : Loc) : List Byte :=
  let here := coreOfWarp c.warp
  match l with
  | .scr core pa => scrBytes s core pa n
  | .mem h ord =>
    let k := 65536 - a.toNat % 65536
    if n ≤ k then cacheBytes s here h n ord else
    match chkVirt s here c.ctx (pathAt s c.pid).noFix (a + BitVec.ofNat 64 k) .rd with
    | .loc (.mem h2 ord2) => cacheBytes s here h k ord ++ cacheBytes s here h2 (n - k) ord2
    | _ => cacheBytes s here h k ord

/-- The records that an instruction reads for some lanes as plain thread loads (R115, R237), or the state in which the path
waits or traps. The earlier stores of those threads perform first. -/
def readRecords (s : State) (c : Ctx) (f : Form) (sp : Nat) (lanes : List Nat) (n align : Nat) :
    Except State (List (Nat × List Byte)) :=
  let xs := lanes.map (fun l => let a := addrOf s c f l; ({ lane := l, va := a, chk := recordChk s c sp a n align } : LaneChk))
  match checkOutcome s c f sp xs with
  | some t => .error t
  | none =>
    let mine := (warpAt s c.warp).inflight.find? (fun a =>
      (match a.op with | .load => false | _ => true) && a.lanes.any (fun l => lanes.contains l.lane))
    let lockOf : LaneChk → Option WaitOn := fun x => match x.chk with
      | .loc (.scr core pa) =>
        let w := lockHold .load core pa n
        if core = coreOfWarp c.warp ∧ waitOver s c.pid w = false then some w else none
      | _ => none
    match (mine.map (fun a => .landed a.id)).or (xs.findSome? lockOf) with
    | some w => .error (hold s c.pid f w)
    | none => .ok (xs.map (fun x => (x.lane, match x.chk with | .loc l => recordBytes s c x.va n l | _ => [])))

/-- Whether a step left the path waiting, at either level. -/
def isHeld (s : State) (pid : Nat) : Bool := (pathAt s pid).wait.isSome || (s.c.issue.bind (·.hold)).isSome

/-- Whether a table header obeys R234. -/
def tableOk (h : List Byte) : Bool :=
  let w := fun i n => leNat ((h.drop i).take n)
  let scale := fmtF32.decode (w 12 4)
  let lo := fmtF32.decode (w 8 4)
  w 0 4 == 0x42544653 && decide (w 4 2 < 16) && w 4 2 % 4 != 3 && w 4 2 / 4 != 3 && w 6 2 == 0 &&
    (match lo with | .fin _ _ _ => true | .zero _ => true | _ => false) &&
    (match scale with | .fin false m _ => decide (2 ^ 23 ≤ m) | _ => false) && (h.drop 24).take 40 == List.replicate 40 0

def leaveLoads (s : State) (core pid : Nat) : State :=
  setSf s core { sfAt s core with loads := (sfAt s core).loads.filter (· != pid) }

/-- A path that halts in an `sf.load` abandons it: the bank that is not current becomes invalid (R238). -/
def withdrawLoad (s : State) (pid : Nat) : State :=
  let core := coreOfPath pid
  let sf := sfAt s core
  if !sf.loads.contains pid then s else
  setSf s core { sf with loads := sf.loads.filter (· != pid), valid0 := sf.valid0 && !sf.cur, valid1 := sf.valid1 && sf.cur }

/-- R236, R237: loads of one workgroup act in issue order; the bank that is not current takes the image, becomes current,
and the version rises by one. -/
def execSfLoad (f : Form) (s : State) : Out :=
  issuing f s fun c =>
    let core := coreOfWarp c.warp
    let sf := sfAt s core
    let q := if sf.loads.contains c.pid then sf.loads else sf.loads ++ [c.pid]
    let s0 := setSf s core { sf with loads := q }
    .next (if q.head? != some c.pid then hold s0 c.pid f (.sfBusy core) else
    match readRecords s0 c f (spaceOf c f (addrOf s c f (firstLane s c.pid))) [firstLane s c.pid] 4160 64 with
    | .error t => if isHeld t c.pid then t else leaveLoads t core c.pid
    | .ok rs =>
      let bs := ((rs.head?).map (·.2)).getD []
      if !tableOk (bs.take 64) then leaveLoads (raise s0 c f (plainTrap 0x15 (pathMask s c.pid).lanes)) core c.pid
      else
        let b := !sf.cur
        let ver := sf.ver + 1
        let bank := s0.e.bank.putsD 0 (bankKey core (bankNat b) 0) bs
        let s1 : State := { s0 with e := { s0.e with bank := bank } }
        let s2 := setSf s1 core { valid0 := sf.valid0 || !b, valid1 := sf.valid1 || b, cur := b, ver := ver,
                                  loads := q.filter (· != c.pid) }
        finish (putLanes (clearNoFix s2 c.pid) c.pid (dstOf c f .i32)
          ((pathMask s c.pid).lanes.map (fun l => (l, ver.setWidth 64)))) c f)

end Sys2Proof.Machine
end

