-- ==== Sys2Proof/Machine/Block.lean ====
section
/-!
DEFINITION. Engine commands and tokens: the issue of a command, the block-transfer engine with its shape records,
chunks and parking, waits on tokens and chunks, and the moves between pair queues (R90 to R118, R126, R156, R301, R410,
R421, R423).
-/
namespace Sys2Proof.Machine

/-! ### Issue of engine commands (R90, R91, R105, R423) -/

/-- Lanes with the addresses that a fault names; without an address it is zero. -/
abbrev LaneAddrs := List (Nat × Word)
def plainLanes (ls : List Nat) : LaneAddrs := ls.map (fun l => (l, 0))

/-- The first kind, in the order given, that any lane raises (R423): kind, address space, lanes. -/
def firstFault (fs : List (Nat × Nat × LaneAddrs)) : Option TrapRec :=
  (fs.find? (fun x => !x.2.2.isEmpty)).map (fun x => addrTrap x.1 x.2.1 x.2.2)

def launchRec (s : State) (gang : Nat) : BitVec 1024 := (launchAt s (gangAt s gang).launch).record
def wgKeyOf (s : State) (c : Ctx) : Nat := c.gang * 128 + (warpAt s c.warp).wg

/-- Active lanes outside the producer span (R91, R328). -/
def outsideSpan (s : State) (c : Ctx) : List Nat :=
  let r := launchRec s c.gang
  (pathMask s c.pid).lanes.filter (fun l =>
    let t := tidOf s c.warp l
    !(decide (lrSpan0 r ≤ t) && decide (t < lrSpan0 r + lrSpanCnt r)))

/-- Counts of a push specification by consumer: T, B, M, P, X (R108). -/
def pushCounts (spec : BitVec 11) : List (Nat × Nat) :=
  [(1, (spec.extractLsb' 8 2).toNat), (2, (spec.extractLsb' 6 2).toNat), (3, (spec.extractLsb' 4 2).toNat),
   (4, (spec.extractLsb' 2 2).toNat), (5, (spec.extractLsb' 0 2).toNat)]

/-- The entries that one lane's command of engine `x` reserves (R101): natively by its push specification, at the portable level
for the token value that it defines (R421), whose number comes first. -/
def reserveOut (s : State) (c : Ctx) (f : Form) (x lane : Nat) : State × List Nat :=
  match f with
  | .p _ => reserveValue s c x lane
  | .n w => (pushCounts w.dst).foldl (fun a p => reserveN (coreOfWarp c.warp) x p.1 p.2 a.1 a.2) (s, [])

/-- The producers that AUX[8:0] names, in order (R108). -/
def popCodes (f : Form) : List Nat :=
  match f with
  | .p _ => []
  | .n w => [(w.aux.extractLsb' 6 3).toNat, (w.aux.extractLsb' 3 3).toNat, (w.aux.extractLsb' 0 3).toNat].filter (· != 0)

/-- The input tokens of a lane for a command of engine `y`: the entries of the values that `toks` name, natively the pops that AUX
names. -/
def inputPops (s : State) (c : Ctx) (f : Form) (toks : List Operand) (y lane : Nat) : List Pop :=
  match f with
  | .p _ => (laneEntries s c toks y lane).map .entry
  | .n _ => (popCodes f).map .queue

/-- Appends a command to the queue of its engine: 64 places in the BX and in the MX (R90, R240). -/
def pushCmd (s : State) (core engine i : Nat) : State :=
  if engine = 3 then { s with e := { s.e with mxq := s.e.mxq.ins core (qPush 64 (s.e.mxq.getD queueZero core) i) } }
  else { s with e := { s.e with bxq := s.e.bxq.ins core (qPush 64 (s.e.bxq.getD queueZero core) i) } }

/-- The fields of a command that its issuing lane fixes. -/
def cmdOf (s : State) (c : Ctx) (engine lane : Nat) (body : CmdBody) (pops : List Pop) : Cmd :=
  { cmdZero with engine := engine, core := coreOfWarp c.warp, pid := c.pid, lane := lane, gang := c.gang,
                 wg := (warpAt s c.warp).wg, body := body, pops := pops, after := s.c.nextId }

/-- One lane issues its command (R91): entries are reserved, the command enters its queue, and a token value is defined. -/
def issueLane (s : State) (c : Ctx) (f : Form) (k : Cmd) : State :=
  let r := reserveOut s c f k.engine k.lane
  let i := r.1.c.nextId
  let s1 := pushCmd (setCmd (takeId r.1) i { k with fills := r.2 }) k.core k.engine i
  match f with
  | .p _ => putDst s1 c.pid k.lane (dstOf c f .tok) (BitVec.ofNat 64 (r.2.headD 0))
  | .n _ => s1

/-- Every active lane's command issues in ascending lane order. -/
def issueAll (s : State) (c : Ctx) (f : Form) (mk : Nat → Cmd) (before : State → Cmd → State) : State :=
  (pathMask s c.pid).lanes.foldl (fun t l => issueLane (before t (mk l)) c f (mk l)) s

/-- The commands of every active lane issue, or the quota of R105 faults and nothing is reserved: `s0` is the state before the
instruction. -/
def issueCmds (s0 s : State) (c : Ctx) (f : Form) (mk : Nat → Cmd) (before : State → Cmd → State) : State :=
  let t := issueAll s c f mk before
  if 4096 < spilled t (coreOfWarp c.warp) then raise s0 c f (plainTrap 0x0F (pathMask s c.pid).lanes)
  else finish t c f

/-! ### Shape records (R92 to R95) -/

def shNdim (r : BitVec 1024) : Nat := recBytes r 0 1
def shSize (r : BitVec 1024) : Nat := 2 ^ recBytes r 1 1
def shFtag (r : BitVec 1024) : Nat := recBytes r 2 1
def shPerm (r : BitVec 1024) : Nat := recBytes r 3 1 / 64
def shK (r : BitVec 1024) : Nat := recBytes r 3 1 % 32
def shPad (r : BitVec 1024) : Word := lowBits (8 * shSize r) (BitVec.ofNat 64 (recBytes r 8 8))
def shStride (r : BitVec 1024) (d : Nat) : Int := (BitVec.ofNat 48 (recBytes r (16 + 16 * d) 6)).toInt
def shBox (r : BitVec 1024) (d : Nat) : Nat := recBytes r (22 + 16 * d) 2
def shExtent (r : BitVec 1024) (d : Nat) : Nat := recBytes r (24 + 16 * d) 4
def shConv (r : BitVec 1024) (d : Nat) : Nat := recBytes r (28 + 16 * d) 4
def shFilt (r : BitVec 1024) (d : Nat) : Nat := shConv r d % 256
def shDil (r : BitVec 1024) (d : Nat) : Nat := shConv r d / 256 % 256
def shStep (r : BitVec 1024) (d : Nat) : Nat := shConv r d / 65536 % 256
def shDims (r : BitVec 1024) : List Nat := List.range (shNdim r)
def natProd (ns : List Nat) : Nat := ns.foldl (· * ·) 1

/-- Types that FTAG may name (R93). -/
def ftagOk (t : Nat) : Bool :=
  t == 0 || (match tyOfCode t with
    | some .i8 | some .i16 | some .i32 | some .i64 | some .f16 | some .bf16 | some .f32 | some .f64 | some .sc8 => true
    | some (.b8 _ _) => true
    | _ => false)

/-- The entry of a used dimension obeys R94. -/
def dimOk (r : BitVec 1024) (d : Nat) : Bool :=
  decide (1 ≤ shExtent r d) && decide (shExtent r d ≤ 0x7FFFFFFF) && decide (1 ≤ shBox r d) &&
    decide (shStride r d % (shSize r : Int) = 0) &&
    (if shFilt r d = 0 then decide (shConv r d = 0)
     else decide (shConv r d < 2 ^ 24) && decide (1 ≤ shDil r d) && decide (1 ≤ shStep r d))

/-- The rules of R95. -/
def shapeOk (r : BitVec 1024) : Bool :=
  decide (1 ≤ shNdim r) && decide (shNdim r ≤ 7) && decide (recBytes r 1 1 ≤ 3) && ftagOk (shFtag r) &&
    decide (shPerm r ≠ 3) && decide (recBytes r 3 1 / 32 % 2 = 0) && decide (recBytes r 4 4 = 0) &&
    !(decide (shPerm r = 1) && decide (shK r ≠ 0)) && (shDims r).all (dimOk r) &&
    (List.range 7).all (fun d => decide (d < shNdim r) || decide (recBytes r (16 + 16 * d) 16 = 0)) &&
    decide (natProd ((shDims r).map (shBox r)) ≤ 2 ^ 24)

/-! ### Boxes (R96, R97, R111, R113) -/

/-- The digits of `e` in the mixed radix of a list of sizes, the first fastest. -/
def digits : List Nat → Nat → List Nat
  | [], _ => []
  | b :: bs, e => e % b :: digits bs (e / b)

/-- The window dimensions of a `bx.conv`. -/
def convWin (r : BitVec 1024) : List Nat := (List.range (shNdim r - 2)).map (· + 1)
def convCols (r : BitVec 1024) : Nat := shBox r 0 * natProd ((convWin r).map (shFilt r))
def convRows (r : BitVec 1024) : Nat := natProd ((convWin r).map (shBox r)) * shBox r (shNdim r - 1)

/-- Elements of a command's box. -/
def boxCount (k : CopyKind) (r : BitVec 1024) : Nat :=
  match k with
  | .conv => convRows r * convCols r
  | _ => natProd ((shDims r).map (shBox r))

/-- The coordinates of element `e` (R96); a `bx.conv` slides its windows (R111), an index list gives the outermost
coordinate (R113). -/
def boxCoords (k : CopyKind) (r : BitVec 1024) (cs : List Int) (list : Nat → Int) (e : Nat) : List Int :=
  let cAt := fun d => nth cs 0 d
  match k with
  | .conv =>
    let b := shNdim r - 1
    let os := digits ((convWin r).map (shBox r) ++ [shBox r b]) (e / convCols r)
    let js := digits (shBox r 0 :: (convWin r).map (shFilt r)) (e % convCols r)
    (cAt 0 + nth js 0 0) :: ((convWin r).map (fun d =>
      cAt d + nth os 0 (d - 1) * shStep r d + nth js 0 d * shDil r d)) ++ [cAt b + nth os 0 (b - 1)]
  | _ =>
    let js := digits ((shDims r).map (shBox r)) e
    (shDims r).map (fun d =>
      if (k == .gather || k == .scatter) && d + 1 == shNdim r then list (nth js 0 d) else cAt d + nth js 0 d)

/-- Every coordinate lies within its extent (R96). -/
def boxInside (r : BitVec 1024) (xs : List Int) : Bool :=
  (shDims r).all (fun d => decide (0 ≤ nth xs 0 d) && decide (nth xs 0 d < shExtent r d))

/-- The far offset of a list of coordinates (R96). -/
def boxOffset (r : BitVec 1024) (xs : List Int) : Int :=
  (shDims r).foldl (fun a d => a + nth xs 0 d * shStride r d) 0

/-- The permutation of a near offset (R97). -/
def permute (r : BitVec 1024) (o : Nat) : Nat :=
  let row := o / 256
  let g := o % 256 / 8
  let g' := match shPerm r with
    | 1 => g ^^^ (row % 32)
    | 2 => (g + row * shK r) % 32
    | _ => g
  row * 256 + g' * 8 + o % 8

/-- Past-batch rows of a `bx.conv` (R111). -/
def pastRows (r : BitVec 1024) (cs : List Int) : Nat :=
  ((List.range (convRows r)).filter (fun row =>
    decide ((shExtent r (shNdim r - 1) : Int) ≤ nth (boxCoords .conv r cs (fun _ => 0) (row * convCols r)) 0 (shNdim r - 1)))).length

/-! ### A running copy command -/

/-- The fields of a copy command's body, for the operations below. -/
structure CopyOp where
  kind : CopyKind
  shape : BitVec 1024
  near : Side
  far : Side
  toNear : Bool
  coords : List Int
  value : Word
  list : BitVec 32
  deriving DecidableEq, Repr

def copyOf (k : Cmd) : Option CopyOp :=
  match k.body with
  | .copy kind sh near far toNear cs v l => some ⟨kind, sh, near, far, toNear, cs, v, l⟩
  | _ => none

def boxBytes (o : CopyOp) : Nat := boxCount o.kind o.shape * shSize o.shape
/-- The 512-byte units of a box; of a near region they are its chunks. -/
def unitCount (o : CopyOp) : Nat := (boxBytes o + 511) / 512
def unitElems (o : CopyOp) (u : Nat) : List Nat :=
  let n := 512 / shSize o.shape
  ((List.range n).map (fun i => u * n + i)).filter (fun e => decide (e < boxCount o.kind o.shape))

/-- Entry `j` of a command's index list (R113). -/
def listEntry (s : State) (k : Cmd) (o : CopyOp) (j : Nat) : Int :=
  match scrHome s k.gang (o.list + BitVec.ofNat 32 (4 * j)) 4 with
  | some (core, pa) => (BitVec.ofNat 32 (scrRead s core pa 4)).toInt
  | none => -1

/-- The near region's core and physical address. -/
def nearHome (s : State) (k : Cmd) (o : CopyOp) : Option (Nat × Nat) :=
  match o.near with
  | .scr a => scrHome s k.gang a (boxBytes o)
  | _ => none

/-- One element of a unit: near offset after permutation, far address, and what the far side's check finds; `skip` is an
element that is not inside or has no far side, `dead` one whose access has failed. -/
structure Elem where
  near : Nat
  va : Word
  skip : Bool
  dead : Bool
  chk : Chk
  deriving DecidableEq, Repr

/-- The right that a command's far side needs (R75, R114). -/
def farRight (o : CopyOp) : Right := if o.toNear then .rd else if o.kind = .red then .at else .wr

/-- The check of a far virtual address in the half that its pointer type names: a page that the command holds answers, any other
has to be walked (R70, R80, R104). -/
def farVirt (s : State) (k : Cmd) (peer : Bool) (a : Word) (r : Right) : Chk :=
  if a.extractLsb' 57 7 != 0 || a.getLsbD 56 != peer then .bad 6 0 else
  match k.pages.find? (fun p => p.covers (pageOf a)) with
  | some p => chkLeaf ((gangAt s k.gang).ctx / 64) a p.lg p.leaf r
  | none => .miss

/-- Element `e` of a command. -/
def elemAt (s : State) (k : Cmd) (o : CopyOp) (e : Nat) : Elem :=
  let xs := boxCoords o.kind o.shape o.coords (listEntry s k o) e
  let near := permute o.shape (e * shSize o.shape)
  let off := boxOffset o.shape xs
  match o.far with
  | .none => ⟨near, 0, true, false, .miss⟩
  | .virt peer b =>
    let a := b + BitVec.ofInt 64 off
    if !boxInside o.shape xs then ⟨near, 0, true, false, .miss⟩
    else ⟨near, a, false, k.dead.contains (pageOf a), farVirt s k peer a (farRight o)⟩
  | .scr b =>
    let a := (b.toNat : Int) + off
    if !boxInside o.shape xs then ⟨near, 0, true, false, .miss⟩
    else match (if 0 ≤ a ∧ a < 2 ^ 32 then scrHome s k.gang (BitVec.ofInt 32 a) (shSize o.shape) else none) with
      | some (core, pa) => ⟨near, BitVec.ofInt 64 a, false, false, .loc (.scr core pa)⟩
      | none => ⟨near, BitVec.ofInt 64 a, false, true, .bad 6 0⟩

def unitOf (s : State) (k : Cmd) (o : CopyOp) (u : Nat) : List Elem := (unitElems o u).map (elemAt s k o)

/-- The pages of the far side that a unit touches, by the number of their 64 KiB. -/
def unitPages (s : State) (k : Cmd) (o : CopyOp) (u : Nat) : List Nat :=
  match o.far with
  | .virt _ _ => sortDistinct (((unitOf s k o u).filter (fun x => !x.skip)).map (fun x => pageOf x.va))
  | _ => []

/-- The pages that a unit has yet to walk to. -/
def unitWalks (s : State) (k : Cmd) (o : CopyOp) (u : Nat) : List Nat :=
  sortDistinct (((unitOf s k o u).filter (fun x => !x.skip && !x.dead && x.chk == .miss)).map (fun x => pageOf x.va))

/-- The first element of a unit whose access faults and has not failed. -/
def unitFault (s : State) (k : Cmd) (o : CopyOp) (u : Nat) : Option Elem :=
  (unitOf s k o u).find? (fun x => !x.skip && !x.dead && (match x.chk with | .bad _ _ => true | _ => false))

/-- Units not yet done. -/
def unitsLeft (k : Cmd) (o : CopyOp) : List Nat := (List.range (unitCount o)).filter (fun u => !k.doneChunks.contains u)

/-! ### Walks of a command (R78, R80) -/

/-- Pages that no unit left to do touches are released. -/
def releasePages (s : State) (i : Nat) (k : Cmd) (o : CopyOp) : State :=
  let need := (unitsLeft k o).flatMap (unitPages s k o)
  let ctx := (gangAt s k.gang).ctx
  let s1 := (k.pages.filter (fun p => !need.any p.covers)).foldl (fun s p => dropUse s ctx p) s
  setCmd s1 i { k with pages := k.pages.filter (fun p => need.any p.covers) }

/-- A unit's missing pages are walked to: each walk that the command does not wait for yet starts, or waits for a walker, unless
the in-flight table has no entry for its page. -/
def startWalks (s : State) (i : Nat) (k : Cmd) (ps : List Nat) : State :=
  let ctx := (gangAt s k.gang).ctx
  ps.foldl (fun s p =>
    let va := BitVec.ofNat 64 (p * 65536)
    if walksFor s i p || !useRoom s (ctx / 64) 1 then s
    else if walkFits s ctx va then (startWalk s ctx k.core va (.cmd i)).1 else queueWalk s ctx k.core va (.cmd i)) s

/-! ### Accesses of an engine at a home -/

def engineRead (s : State) (core : Nat) (l : Loc) (n : Nat) : State × Word :=
  (noteWatch s (.engine core 2) 1 l (homeWord s l), homeRead s l n)
/-- A write of an engine: past the cluster caches, and without a change of the tag (R126, R129). -/
def engineWrite (s : State) (core : Nat) (l : Loc) (n : Nat) (v : Word) : State :=
  let before := homeWord s l
  let s1 := match l with
    | .mem a _ => writeMem s a n v.toNat
    | .scr c pa => scrWrite s c pa n v.toNat
  noteWatch s1 (.engine core 2) 2 l before

/-- The 64 KiB frame of a home in global memory. -/
def frameOf (l : Loc) : List Nat := match l with | .mem a _ => [a / 65536] | .scr _ _ => []

/-! ### Peer packets of a command (R296, R410) -/

/-- A request that a unit sends to an owner. -/
structure PeerReq where
  va : Word
  leaf : Word
  kind : Nat
  flits : Nat
  body : PktBody
  deriving DecidableEq, Repr

/-- The bytes that a unit's elements put into a 256-byte block, a later element last. -/
def blockCells (n : Nat) (vs : List (Elem × Word)) (blk : Nat) : SMap Byte :=
  (vs.filter (fun x => x.1.va.toNat / 256 == blk)).foldl (fun m x =>
    ((List.range n).zip (leBytes n x.2.toNat)).foldl (fun m b => SMap.ins m (x.1.va.toNat % 256 + b.1) b.2) m)
    ([] : SMap Byte)

/-- The write packets of a block: full units travel together, behind at most one unit written in part (R410). -/
def blockPackets (cells : SMap Byte) : List (List (Nat × Byte)) :=
  let unit := fun u => cells.filter (fun c => c.1 / 64 == u)
  let full := (List.range 4).filter (fun u => (unit u).length == 64)
  let part := (List.range 4).filter (fun u => (unit u).length != 64 && !(unit u).isEmpty)
  match part with
  | [] => if full.isEmpty then [] else [full.flatMap unit]
  | [p] => if full.all (fun u => decide (p < u)) then [(p :: full).flatMap unit]
           else [unit p, full.flatMap unit]
  | ps => ps.map unit ++ (if full.isEmpty then [] else [full.flatMap unit])

/-- The requests of a unit, in order; `vs` pairs each peer element with the value it writes. -/
def peerReqs (o : CopyOp) (vs : List (Elem × Word)) : List PeerReq :=
  let n := shSize o.shape
  let blocks := sortDistinct (vs.map (fun x => x.1.va.toNat / 256))
  let leafAt := fun b => ((vs.find? (fun x => x.1.va.toNat / 256 == b)).map (fun x =>
    match x.1.chk with | .peer e => e | _ => 0)).getD 0
  if o.toNear then blocks.map (fun b => ⟨BitVec.ofNat 64 (b * 256), leafAt b, 0, 1, .read 256⟩)
  else if o.kind = .red then
    vs.map (fun x => ⟨x.1.va, (match x.1.chk with | .peer e => e | _ => 0), 6, 1,
                      .red 0 ((tyOfCode (shFtag o.shape)).getD .i32) x.2⟩)
  else blocks.flatMap (fun b => (blockPackets (blockCells n vs b)).map (fun cs =>
    ⟨BitVec.ofNat 64 (b * 256), leafAt b, 2, 1 + (sortDistinct (cs.map (fun c => c.1 / 64))).length, .write cs⟩))

/-- The trackers of a unit: request number and reply. -/
def unitReplies (s : State) (i u : Nat) : List (Nat × Option PktBody) :=
  (s.r.trackers.filter (fun t => t.2.who == .cmd i && t.2.lane / 1024 == u)).map (fun t => (t.2.lane % 1024, t.2.reply))

/-- Request `j` of a unit was refused (R84). -/
def refusedAt (rs : List (Nat × Option PktBody)) (j : Nat) : Bool :=
  rs.any (fun r => r.1 == j && (match r.2 with | some .refuse => true | _ => false))

/-- The bytes that a block read returned. -/
def repliedBytes (qs : List PeerReq) (rs : List (Nat × Option PktBody)) (va : Word) (n : Nat) : Option Word :=
  ((List.range qs.length).zip qs).findSome? (fun q =>
    if q.2.va.toNat = va.toNat / 256 * 256 then
      rs.findSome? (fun r => if r.1 = q.1 then (match r.2 with
        | some (.data bs) => some (BitVec.ofNat 64 (leNat ((bs.drop (va.toNat % 256)).take n)))
        | _ => none) else none)
    else none)

/-! ### Moving a unit (R109 to R114) -/

/-- Adds two elements under FTAG (R114). -/
def redAdd (o : CopyOp) (m v : Word) : Word := applyOp ((tyOfCode (shFtag o.shape)).getD .i32) 0 m v

/-- What one element leaves: the state, whether it failed and with which cause (R102), and the global frames it wrote. -/
structure Moved where
  s : State
  failed : Bool
  cause : Nat
  wrote : List Nat
  deriving DecidableEq, Repr

/-- The value that an element sends to a far destination. -/
def outValue (s : State) (o : CopyOp) (nh : Option (Nat × Nat)) (x : Elem) : Word :=
  match o.kind, nh with
  | .fill, _ => lowBits (8 * shSize o.shape) o.value
  | _, some (core, pa) => BitVec.ofNat 64 (scrRead s core (pa + x.near) (shSize o.shape))
  | _, none => 0

/-- The less of two causes of R102, where 0 is none. -/
def mergeCause (a b : Nat) : Nat := if a = 0 then b else if b = 0 then a else min a b

/-- One element moves. A failed element, and one that reads uncorrectable data, writes nothing (R104). A `bx.red` reads, adds and
writes elements of ESIZE bytes under the type that FTAG names; where the two widths differ, which no rule forbids, the near side
moves ESIZE bytes and a far add acts on a word of FTAG's width (log 78). -/
def moveElem (k : Cmd) (o : CopyOp) (nh : Option (Nat × Nat)) (peer : Elem → Option (Option Word)) (a : Moved) (x : Elem) :
    Moved :=
  let n := shSize o.shape
  let toNear : State → Word → State := fun s v => match nh with
    | none => s
    | some (core, pa) =>
      let l := Loc.scr core (pa + x.near)
      if o.kind = .red then engineWrite s k.core l n (redAdd o (homeRead s l n) v) else engineWrite s k.core l n v
  if x.dead then { a with failed := true }
  else if o.toNear then
    if x.skip then { a with s := toNear a.s (if o.kind = .fill then lowBits (8 * n) o.value else shPad o.shape) }
    else match x.chk with
      | .loc l =>
        if badData a.s l n then { a with failed := true, cause := mergeCause a.cause 7 }
        else let r := engineRead a.s k.core l n; { a with s := toNear r.1 r.2 }
      | .peer _ => (match peer x with
        | some (some v) => { a with s := toNear a.s v }
        | _ => { a with failed := true })
      | _ => { a with failed := true }
  else if x.skip then a
  else match x.chk with
    | .loc l =>
      if o.kind = .red ∧ badData a.s l n = true then { a with failed := true, cause := mergeCause a.cause 7 } else
      let v := outValue a.s o nh x
      let t := if o.kind = .red
        then (performLane a.s k.core (.engine k.core 2) (.red 0) ((tyOfCode (shFtag o.shape)).getD .i32) false l v 0).1
        else engineWrite a.s k.core l n v
      { a with s := t, wrote := a.wrote ++ frameOf l }
    | .peer _ => (match peer x with | none => { a with failed := true } | some _ => a)
    | _ => { a with failed := true }

/-- Earlier scratch stores of the issuing thread have performed (R106). -/
def storesDone (s : State) (k : Cmd) : Bool :=
  !(warpAt s (warpOfPath k.pid)).inflight.any (fun a => decide (a.id < k.after) && a.op != .load &&
    a.lanes.any (fun l => match l.loc with | .scr _ _ => true | .mem _ _ => false))

/-- A unit whose far side is translated: its peer requests are sent, or, once every reply has come, its elements move
and its chunk takes its state (R99, R104). -/
def moveUnit (s : State) (i : Nat) (k : Cmd) (o : CopyOp) (u : Nat) : State :=
  let nh := nearHome s k o
  let es := unitOf s k o u
  let peers := es.filter (fun x => !x.skip && !x.dead && (match x.chk with | .peer _ => true | _ => false))
  let vs := peers.map (fun x => (x, if o.toNear then 0 else outValue s o nh x))
  let qs := peerReqs o vs
  let rs := unitReplies s i u
  if !qs.isEmpty && rs.isEmpty then
    ((List.range qs.length).zip qs).foldl (fun s q =>
      sendPeer s (gangAt s k.gang).ctx (clusterOf k.core) q.2.va q.2.leaf q.2.kind q.2.flits q.2.body (.cmd i)
        (u * 1024 + q.1)) s
  else if rs.any (fun r => r.2.isNone) then s
  else
    let ix := (List.range qs.length).zip qs
    let peer : Elem → Option (Option Word) := fun x =>
      let mine := ix.filter (fun q => if o.kind == .red && !o.toNear then decide (q.2.va = x.va)
                                     else decide (q.2.va.toNat / 256 = x.va.toNat / 256))
      if mine.any (fun q => refusedAt rs q.1) then none
      else if o.toNear then (repliedBytes qs rs x.va (shSize o.shape)).map some else some none
    let a := es.foldl (moveElem k o nh peer) { s := s, failed := false, cause := 0, wrote := [] }
    let refused := rs.any (fun r => match r.2 with | some .refuse => true | _ => false)
    let scrBad := es.any (fun x => !x.skip && (match x.chk with | .bad 6 _ => x.dead | _ => false))
    let cause := mergeCause (mergeCause (mergeCause k.cause a.cause) (if scrBad then 1 else 0)) (if refused then 6 else 0)
    let k1 : Cmd := { k with doneChunks := k.doneChunks ++ [u], cause := cause, wrote := sortDistinct (k.wrote ++ a.wrote),
                             badChunks := if a.failed then k.badChunks ++ [u] else k.badChunks }
    let t := { a.s with r := { a.s.r with trackers := a.s.r.trackers.filter (fun t =>
      !(t.2.who == .cmd i && t.2.lane / 1024 == u)) } }
    let t1 := if o.toNear then (match nh with
      | some (core, pa) => setChunk t core (pa / 512 + u) (if a.failed then .failed else .full)
      | none => t) else t
    releasePages t1 i k1 o

/-- The scratch bytes that a unit reads: its part of a near source, the whole index list, and the elements of a far source in
scratch. -/
def unitReads (s : State) (k : Cmd) (o : CopyOp) (u : Nat) : List (Nat × Nat × Nat) :=
  let near := if o.toNear || o.kind == .fill then [] else (nearHome s k o).toList.map (fun h => (h.1, h.2 + 512 * u, 512))
  let list := if o.kind == .gather || o.kind == .scatter then
    (scrHome s k.gang o.list (4 * shBox o.shape (shNdim o.shape - 1))).toList.map (fun h =>
      (h.1, h.2, 4 * shBox o.shape (shNdim o.shape - 1))) else []
  let far := if o.toNear then (unitOf s k o u).filterMap (fun x => match x.chk with
    | .loc (.scr core pa) => some (core, pa, shSize o.shape)
    | _ => none) else []
  near ++ list ++ far

/-- A unit waits while an earlier command of the core has locked what it reads: it sees the tile whole (R125, R248, R291). -/
def readsLocked (s : State) (i : Nat) (k : Cmd) (o : CopyOp) (u : Nat) : Bool :=
  (unitReads s k o u).any (fun r => s.e.locks.any (fun l => l.core == r.1 && decide (l.cmd < i) &&
    decide (l.lo * 512 < r.2.1 + r.2.2) && decide (r.2.1 < (l.lo + l.n) * 512)))

/-- Elements of a `bx.scatter` and of a `bx.red` land in ascending order, so their units run one after another (R113, R114). -/
def inOrder (o : CopyOp) : Bool := o.kind == .scatter || o.kind == .red

/-- A unit runs. A fault that waits to be queued, or that the kernel has not decided, parks the command; a page that it has not
walked to keeps the unit waiting (R78, R80, R104). -/
def runUnit (s : State) (i u : Nat) : State :=
  match s.e.cmds.find? i with
  | none => s
  | some k =>
    match copyOf k with
    | none => s
    | some o =>
      if k.doneChunks.contains u || unitCount o ≤ u || !storesDone s k || readsLocked s i k o u ||
        (inOrder o && (unitsLeft k o).head? != some u) then s
      else if !k.faults.isEmpty || (unitFault s k o u).isSome then
        (if k.parked.isSome then s else enqueue s (.bxCommandPark k.core i))
      else match unitWalks s k o u with
        | [] => moveUnit s i k o u
        | ps => startWalks s i k ps

/-- Whether a debugger has frozen the engines of a core (R374). -/
def frozenCore (s : State) (core : Nat) : Bool := s.d.frozen.contains core

/-- A started command of a core. -/
def runningCmd (s : State) (core i : Nat) : Option Cmd :=
  match s.e.cmds.find? i with
  | some k => if k.core = core ∧ k.started = true ∧ k.engine = 2 then some k else none
  | none => none

/-! ### Events of the BX -/

/-- A `cv.turn` enters its end's turn queue of a hop when it has a free place (R302, R303). -/
def joinTurnQueue (s : State) (hop end_ i : Nat) : State :=
  let h := hopAt s hop
  let q := if end_ = 0 then h.q0 else h.q1
  if 8 ≤ q.length then s
  else if end_ = 0 then setHop s hop { h with q0 := h.q0 ++ [(i, s.c.cycle)] }
  else setHop s hop { h with q1 := h.q1 ++ [(i, s.c.cycle)] }

def isShape (k : Cmd) : Bool := match k.body with | .shape _ => true | _ => false

/-- R90, R109: the command at the head starts once fewer than 16 run and its input entries are filled; it pops them. A
`bx.shape` at the head waits for its path (R115). -/
def execBxCommandStart (core : Nat) (s : State) : Out :=
  let q := s.e.bxq.getD queueZero core
  match (qIds q).head?, ((qIds q).head?).bind (s.e.cmds.find? ·) with
  | some i, some k =>
    let running := (s.e.cmds.filter (fun c => c.2.engine == 2 && c.2.core == core && c.2.started && !isShape c.2)).length
    if 16 ≤ running || isShape k || frozenCore s core || !popsReady s core 2 k.pops then .next s
    else
      let s1 := doPops s core 2 k.pops
      let s2 : State := { s1 with e := { s1.e with bxq := s1.e.bxq.ins core (qDrop 1 q) } }
      let s3 := setCmd s2 i { k with started := true, pops := [] }
      .next (match k.body with | .turn hop e _ _ => joinTurnQueue s3 hop e i | _ => s3)
  | _, _ => .next s

/-- R104: the first fault of a command that the kernel has not decided is queued, and the command parks: a walk that faulted, or an
element whose access faults. -/
def execBxCommandPark (core i : Nat) (s : State) : Out :=
  match runningCmd s core i with
  | none => .fault .noSuchAgent
  | some k =>
    match copyOf k with
    | none => .fault .noSuchAgent
    | some o =>
      let first : Option (Word × Nat × Nat) := k.faults.head?.or
        (((unitsLeft k o).findSome? (unitFault s k o)).bind (fun x => match x.chk with
          | .bad kind owner => some (x.va, kind - 5, owner)
          | _ => none))
      match first with
      | none => .next s
      | some (va, kind, owner) =>
        let ctx := (gangAt s k.gang).ctx
        if k.parked.isSome || !faultFits s ctx va then .next s else
        let q := queueFault s ctx va kind owner (if va.getLsbD 56 then 1 else 0) [.cmd i]
        .next (setCmd q.1 i { k with parked := some q.2, faults := k.faults.drop 1 })

/-- R99: a chunk of a near destination is written and becomes full, or failed under R104. -/
def execChunkFull (core i u : Nat) (s : State) : Out :=
  match runningCmd s core i with
  | none => .fault .noSuchAgent
  | some k => if frozenCore s core || (copyOf k).all (fun o => !o.toNear) then .next s else .next (runUnit s i u)

/-- The status word of a copy command that has moved everything (R102). -/
def copyStatus (k : Cmd) (o : CopyOp) : BitVec 32 :=
  if k.badChunks.isEmpty && k.cause == 0 then
    statusWord false 0 (match o.kind with | .conv => pastRows o.shape o.coords | _ => 0)
  else statusWord true k.cause (if o.toNear then (sortDistinct k.badChunks).headD 0xFFFFFF else 0xFFFFFF)

def dropLocks (s : State) (i : Nat) : State :=
  { s with e := { s.e with locks := s.e.locks.filter (fun l => l.cmd != i) } }

/-- The frames of global memory that a command of a core and the earlier commands of that core have written (R290; log 79). -/
def coreFrames (s : State) (core i : Nat) : List Nat :=
  sortDistinct (s.e.coreWrote.getD [] core ++
    (s.e.cmds.filter (fun k => k.2.core == core && decide (k.1 ≤ i))).flatMap (fun k => k.2.wrote))

def noteWrote (s : State) (core : Nat) (fs : List Nat) : State :=
  if fs.isEmpty then s else
  let w := s.e.coreWrote.ins core (sortDistinct (s.e.coreWrote.getD [] core ++ fs))
  { s with e := { s.e with coreWrote := w } }

/-- The end of a command: tags, entries, locks (R99, R103). -/
def completeCopy (s : State) (i : Nat) (k : Cmd) (o : CopyOp) : State :=
  let s1 := match o.toNear, nearHome s k o with
    | true, some (core, pa) =>
      setTags s core (pa / 8192) (BitVec.ofNat 8 (shFtag o.shape))
        ((pa + boxBytes o - 1) / 8192 - pa / 8192 + 1)
    | _, _ => s
  let s2 := dropLocks { s1 with e := { s1.e with cmds := s1.e.cmds.del i } } i
  fillTokens (noteWrote s2 k.core k.wrote) k.fills { statusEntry (copyStatus k o) with wrote := coreFrames s k.core i }

/-- R103: a command whose destination is far moves what is left; a command that has moved everything completes. -/
def execBxCommandComplete (core i : Nat) (s : State) : Out :=
  match runningCmd s core i with
  | none => .fault .noSuchAgent
  | some k =>
    match copyOf k with
    | none => .next s
    | some o =>
      if frozenCore s core then .next s else
      let s1 := if o.toNear then s else (unitsLeft k o).foldl (fun s u => runUnit s i u) s
      match s1.e.cmds.find? i with
      | none => .next s1
      | some k1 => if (unitsLeft k1 o).isEmpty then .next (completeCopy s1 i k1 o) else .next s1

/-- Refills a queue of `cap` places from its ring (R105). -/
def qRefill (cap : Nat) (q : OvQueue) : OvQueue :=
  let n := cap - q.hw.length
  { hw := q.hw ++ q.ring.take n, ring := q.ring.drop n }

/-- R105: the overflow engine refills a queue of a core in order: 0 to 35 the pair queues x·6 + y, 36 the BX's, 37 the
MX's. A queue's tail moves to the ring where it is full (qPush). -/
def execQueueOverflow (core queue : Nat) (s : State) : Out :=
  if queue < 36 then
    let k := core * 36 + queue
    .next { s with e := { s.e with pairs := s.e.pairs.ins k (qRefill 32 (s.e.pairs.getD queueZero k)) } }
  else if queue = 36 then
    .next { s with e := { s.e with bxq := s.e.bxq.ins core (qRefill 64 (s.e.bxq.getD queueZero core)) } }
  else if queue = 37 then
    .next { s with e := { s.e with mxq := s.e.mxq.ins core (qRefill 64 (s.e.mxq.getD queueZero core)) } }
  else .fault .noSuchAgent

/-! ### The copy family at issue (R92, R98, R107, R108) -/

/-- The portable word that a slot stands for, with the operand context at it (R159; log 20). -/
def wordBehind (s : State) (c : Ctx) (f : Form) : Option (Ctx × PForm) :=
  let v := trapVpc s c f
  let fn := funcAt c.module (VPC.fn v)
  let c2 : Ctx := { c with fn := VPC.fn v, ix := VPC.ix v, func := fn, n := defsBefore c.module fn.code (VPC.ix v) }
  (wordForm fn.code (VPC.ix v)).map (fun w => (c2, w))

/-- The pointer type of operand `k`: of the word itself, or of the word that a slot stands for (log 20). -/
def sideTy (s : State) (c : Ctx) (f : Form) (k : Nat) : Ty :=
  match f with
  | .p _ => opndTy c f k .i64
  | .n _ => match wordBehind s c f with
    | some (c2, w) => opndTy c2 (.p w) k .i64
    | none => .ptrG

/-- An operand as a side of a transfer. A slot for which no waybill gives the portable word takes the half of the address space
that the address lies in (log 20). -/
def sideOf (s : State) (c : Ctx) (f : Form) (t : Ty) (v : Word) : Side :=
  match t with
  | .ptrS => .scr (v.setWidth 32)
  | .ptrP => .virt true v
  | .ptrG => .virt (match f with | .n _ => (wordBehind s c f).isNone && v.getLsbD 56 | .p _ => false) v
  | _ => .none

/-- Extra operand `j` of a command in a lane: an extension field, natively the `j`-th register from SC (R107, R108). -/
def extraVal (s : State) (c : Ctx) (f : Form) (j : Nat) (t : Ty) (lane : Nat) : Word :=
  match f with
  | .p w => operandVal s c lane (nth w.ext .none j) t true
  | .n w => nativeVal s c lane (w.sc.toNat + j) t

/-- k of C or AUX (R107, R108). -/
def shapeIx (f : Form) : Nat :=
  match f with
  | .p w => immNat w.c % 16
  | .n w => (w.aux.extractLsb' 9 3).toNat

/-- The command that a lane asks for; an invalid shape register leaves a record of zeros. -/
def copyBody (s : State) (c : Ctx) (f : Form) (kind : CopyKind) (lane : Nat) : CopyOp :=
  let tA := sideTy s c f 0
  let tB := sideTy s c f 1
  let sh := (nth (wgAt s (wgKeyOf s c)).shapes none (shapeIx f)).getD 0
  let a := sideOf s c f tA (src s c f 0 tA false lane)
  let b := sideOf s c f tB (src s c f 1 tB false lane)
  let withList := kind == .gather || kind == .scatter
  let n := modOf f
  let cs := (List.range n).map (fun j => (extraVal s c f (j + (if withList then 1 else 0)) .i32 lane |>.setWidth 32 |>.toInt))
  let toNear := kind != .scatter && tA == .ptrS
  { kind := kind, shape := sh, coords := cs, toNear := toNear,
    near := if kind == .fill && !toNear then .none else if toNear then a else b,
    far := if kind == .fill && toNear then .none else if toNear then b else a,
    value := if kind == .fill then src s c f 1 .i64 false lane else 0,
    list := if withList then (extraVal s c f 0 .ptrS lane).setWidth 32 else 0 }

/-- The input tokens of a copy command follow its list pointer and coordinates (R107). -/
def copyTokens (f : Form) (kind : CopyKind) : List Operand :=
  match f with
  | .p w => (w.ext.drop ((if kind == .gather || kind == .scatter then 1 else 0) + w.md.toNat)).take (immNat w.c / 16)
  | .n _ => []

def sideWord (x : Side) : Word := match x with | .none => 0 | .virt _ a => a | .scr a => a.setWidth 64
def sideSpace (x : Side) : Nat := match x with | .virt peer _ => if peer then 1 else 0 | .scr _ => 2 | .none => 0xFF

/-- Conditions on the shape that a command needs (R92, R107, R111, R113, R114). -/
def shapeFits (o : CopyOp) (valid : Bool) (n : Nat) : Bool :=
  let d := shNdim o.shape
  valid && (match o.kind with
    | .conv => decide (3 ≤ d) && decide (n = d) && decide (shFilt o.shape 0 = 0) && decide (shFilt o.shape (d - 1) = 0) &&
        (convWin o.shape).all (fun w => decide (1 ≤ shFilt o.shape w))
    | .gather | .scatter => decide (n + 1 ≤ d)
    | .red => (match tyOfCode (shFtag o.shape) with
      | some .i32 | some .i64 | some .f16 | some .bf16 | some .f32 | some .f64 => true
      | _ => false)
    | _ => true)

/-- The near region of a command breaks R98. -/
def nearBad (s : State) (c : Ctx) (o : CopyOp) (valid : Bool) : Bool :=
  match o.near with
  | .scr a =>
    let len := if valid then boxBytes o else 0
    a.toNat % 512 != 0 || len % 512 != 0 || (scrHome s c.gang a len).isNone
  | _ => false

/-- The index list of a command breaks R113. -/
def listBad (s : State) (c : Ctx) (o : CopyOp) (valid : Bool) : Bool :=
  (o.kind == .gather || o.kind == .scatter) &&
    (o.list.toNat % 4 != 0 ||
      (scrHome s c.gang o.list (if valid then 4 * shBox o.shape (shNdim o.shape - 1) else 0)).isNone)

/-- At issue the chunks of a near destination become empty and its region is locked (R99). The lock names the command by
the number it is about to take. -/
def lockNear (c : Ctx) (f : Form) (s : State) (k : Cmd) : State :=
  match copyOf k with
  | none => s
  | some o =>
    match o.toNear, nearHome s k o with
    | true, some (core, pa) =>
      let n := boxBytes o / 512
      let id := (reserveOut s c f k.engine k.lane).1.c.nextId
      let s1 := setChunks s core (pa / 512) .empty n
      { s1 with e := { s1.e with locks := s1.e.locks ++ [{ core := core, lo := pa / 512, n := n, cmd := id }] } }
    | _, _ => s

/-- A command of the copy family issues (R90 to R92, R98, R105, R107, R423). -/
def copyIssue (kind : CopyKind) (f : Form) (s : State) : Out :=
  issuing f s fun c =>
    let valid := (nth (wgAt s (wgKeyOf s c)).shapes none (shapeIx f)).isSome
    let ls := (pathMask s c.pid).lanes
    let os := ls.map (fun l => (l, copyBody s c f kind l))
    let size := if valid then shSize (copyBody s c f kind (firstLane s c.pid)).shape else 1
    let farBad := os.filter (fun x => (sideWord x.2.far).toNat % size != 0)
    let scr := os.filterMap (fun x =>
      if nearBad s c x.2 valid then some (x.1, sideWord x.2.near)
      else if listBad s c x.2 valid then some (x.1, x.2.list.setWidth 64) else none)
    let misfit := (os.filter (fun x => !shapeFits x.2 valid (modOf f))).map (·.1)
    .next (match firstFault [
        (0x0D, 0xFF, plainLanes (outsideSpan s c)),
        (5, ((os.head?).map (fun x => sideSpace x.2.far)).getD 0xFF, farBad.map (fun x => (x.1, sideWord x.2.far))),
        (0x0C, 2, scr),
        (0x0E, 0xFF, plainLanes misfit)] with
      | some t => raise s c f t
      | none =>
        let t := carryToks s c f (copyTokens f kind) 2
        issueCmds s t c f (fun l =>
          let o := copyBody s c f kind l
          cmdOf t c 2 l (.copy o.kind o.shape o.near o.far o.toNear o.coords o.value o.list)
            (inputPops t c f (copyTokens f kind) 2 l)) (lockNear c f))

/-- R109, R110. -/
def execBxCopy (f : Form) (s : State) : Out := copyIssue .copy f s
/-- R111. -/
def execBxConv (f : Form) (s : State) : Out := copyIssue .conv f s
/-- R112. -/
def execBxFill (f : Form) (s : State) : Out := copyIssue .fill f s
/-- R113. -/
def execBxGather (f : Form) (s : State) : Out := copyIssue .gather f s
/-- R113. -/
def execBxScatter (f : Form) (s : State) : Out := copyIssue .scatter f s
/-- R114. -/
def execBxRed (f : Form) (s : State) : Out := copyIssue .red f s

/-! ### bx.shape (R115) -/

/-- The shape commands of a path. -/
def shapeCmds (s : State) (pid : Nat) : List Nat := (s.e.cmds.filter (fun k => k.2.pid == pid && isShape k.2)).map (·.1)

/-- A path's `bx.shape` commands are gone; those that still stood in the queue leave it, and nothing is popped for them (R115). -/
def withdrawShapes (s : State) (pid : Nat) : State :=
  let core := coreOfPath pid
  (shapeCmds s pid).foldl (fun s i =>
    { s with e := { s.e with bxq := s.e.bxq.ins core (qErase i (s.e.bxq.getD queueZero core)), cmds := s.e.cmds.del i } }) s

/-- k of B or AUX. -/
def shapeK (f : Form) : Nat := match f with | .p w => immNat w.b % 16 | .n w => (w.aux.extractLsb' 9 3).toNat
def shapeToks (f : Form) : List Operand := match f with | .p w => w.ext | .n _ => []

/-- Every lane's command enters the queue. -/
def queueShapes (s : State) (c : Ctx) (f : Form) : State :=
  let core := coreOfWarp c.warp
  let t := carryToks s c f (shapeToks f) 2
  (pathMask s c.pid).lanes.foldl (fun s l =>
    let i := s.c.nextId
    pushCmd (setCmd (takeId s) i (cmdOf s c 2 l (.shape (shapeK f)) (inputPops t c f (shapeToks f) 2 l))) core 2 i) t

/-- The turn has come: the commands pop their entries and leave the queue (R115). -/
def popShapes (s : State) (c : Ctx) (ids : List Nat) : State :=
  let core := coreOfWarp c.warp
  ids.foldl (fun s i => match s.e.cmds.find? i with
    | none => s
    | some k =>
      let t := doPops s core 2 k.pops
      setCmd { t with e := { t.e with bxq := t.e.bxq.ins core (qErase i (t.e.bxq.getD queueZero core)) } } i
        { k with started := true, pops := [] }) s

/-- The shape register is written, and each lane's token is done (R115). -/
def shapeWritten (s2 : State) (c : Ctx) (f : Form) (recs : List (Nat × List Byte)) : State :=
  let core := coreOfWarp c.warp
  let w := wgAt s2 (wgKeyOf s2 c)
  let r := leNat ((recs.getLast?.map (·.2)).getD [])
  let s3 := setWg s2 (wgKeyOf s2 c) { w with shapes := setNth w.shapes (shapeK f) (some (BitVec.ofNat 1024 r)) }
  (pathMask s2 c.pid).lanes.foldl (fun s l =>
    let q := reserveOut s c f 2 l
    let t := fillTokens q.1 q.2 { statusEntry (statusWord false 0 0) with wrote := coreFrames s core s.c.nextId }
    match f with
    | .p _ => putDst t c.pid l (dstOf c f .tok) (BitVec.ofNat 64 (q.2.headD 0))
    | .n _ => t) s3

/-- The record is there: the instruction is done, or the quota of R105 faults (R115). -/
def shapeDone (s : State) (c : Ctx) (f : Form) (recs : List (Nat × List Byte)) : State :=
  let s2 := withdrawShapes s c.pid
  let s4 := shapeWritten s2 c f recs
  if 4096 < spilled s4 (coreOfWarp c.warp) then raise s2 c f (plainTrap 0x0F (pathMask s c.pid).lanes)
  else finish (clearNoFix s4 c.pid) c f

/-- The record is read, and `k` goes on with it once it is whole and obeys R95 (R115). -/
def shapeRead (s : State) (c : Ctx) (f : Form) (sp : Nat) (k : List (Nat × List Byte) → State) : State :=
  match readRecords s c f sp (pathMask s c.pid).lanes 128 16 with
  | .error t => if isHeld t c.pid then t else withdrawShapes t c.pid
  | .ok recs =>
    let bad := (recs.filter (fun r => !shapeOk (BitVec.ofNat 1024 (leNat r.2)))).map (·.1)
    if !bad.isEmpty then raise (withdrawShapes s c.pid) c f (plainTrap 0x0E bad) else k recs

/-- R115: the path waits for its turn in the queue and its tokens and pops them; then the record is read. A command that would
exceed the quota of R105 reports it only when its record raises nothing (R423). -/
def execBxShape (f : Form) (s : State) : Out :=
  issuing f s fun c =>
    let core := coreOfWarp c.warp
    let ls := (pathMask s c.pid).lanes
    let as := ls.map (fun l => (l, addrOf s c f l))
    let sp := match sideTy s c f 0 with | .ptrS => 2 | _ => 0
    let scrBad := as.filter (fun x => sp == 2 && (scrHome s c.gang (x.2.setWidth 32) 128).isNone)
    let ids := shapeCmds s c.pid
    .next (match firstFault [(0x0D, 0xFF, plainLanes (outsideSpan s c)), (5, sp, as.filter (fun x => x.2.toNat % 16 != 0)),
        (0x0C, 2, scrBad)] with
      | some t => raise (withdrawShapes s c.pid) c f t
      | none =>
        if ids.isEmpty && hasPops f then
          let s1 := queueShapes s c f
          if 4096 < spilled s1 core then shapeRead s c f sp (fun _ => raise s c f (plainTrap 0x0F ls))
          else hold s1 c.pid f (.bxTurn core (shapeCmds s1 c.pid))
        else if !ids.isEmpty && !shapePopped s c.pid && !waitOver s c.pid (.bxTurn core ids) then
          hold s c.pid f (.bxTurn core ids)
        else
          let s1 := if shapePopped s c.pid then s else popShapes s c ids
          shapeRead s1 c f sp (shapeDone s1 c f))
where
  /-- m is not zero. -/
  hasPops (f : Form) : Bool := match f with | .p w => !w.ext.isEmpty | .n _ => !(popCodes f).isEmpty

/-! ### Token instructions (R116, R117, R156) -/

/-- The producer that AUX[8:6] names. -/
def auxProducer (f : Form) : Nat := match f with | .p _ => 0 | .n w => (w.aux.extractLsb' 6 3).toNat

/-- The entries that an instruction pops for its active lanes, in ascending lane order: the lanes' token values, or the
head of tq.xt. `none` while the queue is too short. -/
def popEntries (s : State) (c : Ctx) (f : Form) : Option (List (Nat × Nat)) :=
  let ls := (pathMask s c.pid).lanes
  match f with
  | .p w => some (ls.map (fun l => (l, (laneEntries s c [w.a] 1 l).headD 0)))
  | .n _ =>
    let q := qIds (pairAt s (coreOfWarp c.warp) (auxProducer f) 1)
    if q.length < ls.length then none else some (ls.zip (q.take ls.length))

/-- What an instruction that pops its lanes' entries waits for. -/
def popWait (c : Ctx) (f : Form) (s : State) : WaitOn :=
  match f with
  | .p _ => .entries (((popEntries s c f).getD []).map (·.2))
  | .n _ => .heads (coreOfWarp c.warp) [(auxProducer f, 1, (pathMask s c.pid).lanes.length)]

def popOperand (f : Form) : List Operand := match f with | .p w => [w.a] | .n _ => []

/-- The pops of one instruction take effect together (R116): it waits until every entry is filled, then takes them all. A
filled entry that a command with global writes left makes the thread's cluster drop the written lines; the result of a
contest acquires at package scope (R286, R290, R319). -/
def popping (f : Form) (s0 : State) (k : Ctx → List (Nat × Entry) → State → State) : Out :=
  issuing f s0 fun c =>
    let core := coreOfWarp c.warp
    let s := carryToks s0 c f (popOperand f) 1
    .next (match popEntries s c f with
      | none => hold s c.pid f (popWait c f s)
      | some xs =>
        if !(xs.map (·.2)).all (isFilled s) then hold s c.pid f (popWait c f s)
        else
          let s1 := match f with
            | .p _ => (xs.map (·.2)).foldl (fun s i => eraseEntry s core i) s
            | .n _ => setPair s core (auxProducer f) 1 (qDrop xs.length (pairAt s core (auxProducer f) 1))
          let es := xs.map (fun x => (x.1, entryAt s x.2))
          finish (k c es (popAcquire s1 core (xs.map (·.2)))) c f)

/-- R116. -/
def execWaitTok (f : Form) (s : State) : Out :=
  popping f s fun c es s1 =>
    putLanes s1 c.pid (dstOf c f .i1) (es.map (fun e => (e.1, boolWord (statusFailed e.2.status))))

/-- R116. -/
def execTokStatus (f : Form) (s : State) : Out :=
  popping f s fun c es s1 => putLanes s1 c.pid (dstOf c f .i32) (es.map (fun e => (e.1, e.2.status.setWidth 64)))

/-- R156: the entry is discarded, its status word written where DST is a register. -/
def execTqPop (f : NForm) (s : State) : Out :=
  popping (.n f) s fun c es s1 => putLanes s1 c.pid (dstOf c (.n f) .i32) (es.map (fun e => (e.1, e.2.status.setWidth 64)))

/-- Takes the entries at the heads of the queues that codes name, filled or not, as the queues stand (R117). A queue that
is shorter gives what it has. -/
def takeHeads (core : Nat) : List Nat → State → State × List Nat
  | [], s => (s, [])
  | x :: xs, s =>
    match qIds (pairAt s core x 1) with
    | [] => takeHeads core xs s
    | i :: _ =>
      let r := takeHeads core xs (setPair s core x 1 (qDrop 1 (pairAt s core x 1)))
      (r.1, i :: r.2)

/-- A command of T: it has taken its entries, and fills its own when they are filled. What T takes that a contest filled acquires
when it is filled (R319). -/
def issueT (s0 : State) (c : Ctx) (f : Form) (lane : Nat) (body : CmdBody) (ids : List Nat) : State :=
  let s := match f with
    | .p _ => ids.foldl (fun s i => eraseEntry s (coreOfWarp c.warp) i) s0
    | .n _ => s0
  let r := reserveOut s c f 1 lane
  let i := r.1.c.nextId
  let s1 := setCmd (takeId r.1) i { cmdOf s c 1 lane body (ids.map .entry) with fills := r.2, started := true }
  match f with
  | .p _ => putDst s1 c.pid lane (dstOf c f .tok) (BitVec.ofNat 64 (r.2.headD 0))
  | .n _ => s1

/-- Every lane takes its entries and reserves its own: in lane order, from the values that `toks` name, natively from the heads of
the queues that `codes` name (R117). -/
def takeAll (s : State) (c : Ctx) (f : Form) (body : CmdBody) (codes : List Nat) (toks : List Operand) : State :=
  (pathMask s c.pid).lanes.foldl (fun t l =>
    match f with
    | .p _ => issueT t c f l body (laneEntries t c toks 1 l)
    | .n _ => let r := takeHeads (coreOfWarp c.warp) codes t; issueT r.1 c f l body r.2) s

/-- A command of T issues, or the quota faults and nothing is reserved (R105, R117). -/
def issueTs (f : Form) (s : State) (body : CmdBody) (codes : List Nat) (toks : List Operand) (span : Bool) : Out :=
  issuing f s fun c =>
    let out := if span then outsideSpan s c else []
    .next (if !out.isEmpty then raise s c f (plainTrap 0x0D out) else
      let t := takeAll (carryToks s c f toks 1) c f body codes toks
      if 4096 < spilled t (coreOfWarp c.warp) then raise s c f (plainTrap 0x0F (pathMask s c.pid).lanes)
      else finish (settleAll t) c f)

/-- The inputs of a `tok.all`. -/
def tokInputs (f : Form) : List Operand := match f with | .p w => [w.a, w.b, w.c].filter (· != .none) | .n _ => []

/-- R117. -/
def execTokAll (f : Form) (s : State) : Out := issueTs f s .tokAll (popCodes f) (tokInputs f) true

/-- R156. -/
def execTqPush (f : NForm) (s : State) : Out := issueTs (.n f) s .tokPush [auxProducer (.n f)] [] false

/-! ### Chunk instructions (R118) -/

/-- A lane's chunk range: core and first chunk, with its length. -/
structure ChunkRange where
  lane : Nat
  addr : Word
  cnt : Nat
  home : Option (Nat × Nat)
  deriving DecidableEq, Repr

/-- The ranges of the active lanes. A count outside 1 to 32 makes no range: the chunk that holds A stands for it (log 96). -/
def chunkRanges (s : State) (c : Ctx) (f : Form) : List ChunkRange :=
  (pathMask s c.pid).lanes.map (fun l =>
    let a := src s c f 0 .ptrS false l
    let n := ((src s c f 1 .i32 true l).setWidth 32).toNat
    let base := (a.setWidth 32 : BitVec 32) / 512#32 * 512#32
    { lane := l, addr := a, cnt := n, home := (scrHome s c.gang base (512 * (if n = 0 ∨ 32 < n then 1 else n))).map
        (fun h => (h.1, h.2 / 512)) })

/-- The faults of the chunk instructions, then `k` on the ranges (R118, R423). -/
def onChunks (f : Form) (s : State) (k : Ctx → List (ChunkRange × Nat × Nat) → State) : Out :=
  issuing f s fun c =>
    let rs := chunkRanges s c f
    let count := (rs.filter (fun r => r.cnt == 0 || decide (32 < r.cnt))).map (·.lane)
    let scr := (rs.filter (fun r => r.home.isNone)).map (fun r => (r.lane, r.addr))
    .next (match firstFault [(0x0C, 2, scr), (0x10, 0xFF, plainLanes count)] with
      | some t => raise s c f t
      | none => k c (rs.filterMap (fun r => r.home.map (fun h => (r, h.1, h.2)))))

def chunkList (s : State) (core lo n : Nat) : List ChunkState := (List.range n).map (fun i => chunkAt s core (lo + i))

/-- R118: the failure predicate, once no chunk of any range is empty. -/
def execWaitChunks (f : Form) (s : State) : Out :=
  onChunks f s fun c rs =>
    match rs.find? (fun r => !waitOver s c.pid (.chunks r.2.1 r.2.2 r.1.cnt)) with
    | some r => hold s c.pid f (.chunks r.2.1 r.2.2 r.1.cnt)
    | none => finish (putLanes s c.pid (dstOf c f .i1)
        (rs.map (fun r => (r.1.lane, boolWord ((chunkList s r.2.1 r.2.2 r.1.cnt).contains .failed))))) c f

/-- The word of a `test.chunks` (R118). -/
def chunkWord (cs : List ChunkState) : Word :=
  let ix := (List.range cs.length).zip cs
  BitVec.ofNat 64 ((ix.map (fun p => (if p.2 = .empty then 0 else 2 ^ p.1) + (if p.2 = .failed then 2 ^ (32 + p.1) else 0))).sum)

/-- R118. -/
def execTestChunks (f : Form) (s : State) : Out :=
  onChunks f s fun c rs =>
    finish (putLanes s c.pid (dstOf c f .i64)
      (rs.map (fun r => (r.1.lane, chunkWord (chunkList s r.2.1 r.2.2 r.1.cnt))))) c f

/-- R118: waits until no command holds a lock on any range, then empties them. -/
def execClrChunks (f : Form) (s : State) : Out :=
  onChunks f s fun c rs =>
    match rs.find? (fun r => lockedBy s r.2.1 r.2.2 r.1.cnt) with
    | some r => hold s c.pid f (.unlocked r.2.1 r.2.2 r.1.cnt)
    | none => finish (rs.foldl (fun s r => setChunks s r.2.1 r.2.2 .empty r.1.cnt) s) c f

end Sys2Proof.Machine
end

