-- ==== Sys2Proof/Machine/Convoy.lean ====
section
/-!
DEFINITION. The convoy ring: turns of a hop's strands, packets from die to die, the owner's side of peer accesses, and
the loss of packets and links (R84, R130, R295 to R306, R365, R369, R370, R396, R410 to R412).
-/
namespace Sys2Proof.Machine

/-! ### cv.turn and cv.split (R301 to R305) -/

/-- The hop of `.next` or `.prev` on a die, and the die's end of it. -/
def hopOf (die link : Nat) : Nat × Nat := if link = 0 then (die, 0) else ((die + 7) % 8, 1)

/-- The strand mask of a lane. -/
def strandMask (s : State) (c : Ctx) (f : Form) (lane : Nat) : Nat := zx 32 (src s c f 0 .i32 false lane)

/-- R302: each active lane queues a turn. -/
def execCvTurn (f : Form) (s : State) : Out :=
  issuing f s fun c =>
    let ls := (pathMask s c.pid).lanes
    let bad := ls.filter (fun l => decide (65536 ≤ strandMask s c f l) || strandMask s c f l == 0)
    let toks := match f with | .p w => w.ext.take (immNat w.c / 16) | .n _ => []
    let h := hopOf c.die (modOf f % 2)
    let d : Dir := if modOf f / 2 % 2 = 0 then .cw else .ccw
    .next (match firstFault [(0x0D, 0xFF, plainLanes (outsideSpan s c)),
        (0x17, 0xFF, plainLanes (if lrTurn (launchRec s c.gang) then [] else ls)), (0x10, 0xFF, plainLanes bad)] with
      | some t => raise s c f t
      | none =>
        let t := carryToks s c f toks 2
        issueCmds s t c f (fun l =>
          cmdOf t c 2 l (.turn h.1 h.2 d (BitVec.ofNat 16 (strandMask s c f l))) (inputPops t c f toks 2 l)) (fun s _ => s))

def strandOf (h : Hop) (i : Nat) : StrandState := nth h.st .working i
def strandDir (h : Hop) (i : Nat) : Dir := nth h.dirs .cw i

/-- The word of `cv.split`. -/
def splitWord (h : Hop) : Word :=
  BitVec.ofNat 64 (((List.range 16).map (fun i =>
    (if strandDir h i = .cw ∧ strandOf h i ≠ .retired then 2 ^ i else 0) +
      (if strandOf h i = .working then 0 else 2 ^ (16 + i)))).sum)

/-- R305: the result is the same in every active lane. -/
def execCvSplit (f : Form) (s : State) : Out :=
  issuing f s fun c =>
    .next (finish (putLanes s c.pid (dstOf c f .i32)
      ((pathMask s c.pid).lanes.map (fun l => (l, splitWord (hopAt s (hopOf c.die (modOf f % 2)).1))))) c f)

/-- Working strands of a direction. -/
def workingIn (h : Hop) (d : Dir) : Nat :=
  ((List.range 16).filter (fun i => strandOf h i == .working && strandDir h i == d)).length

/-- The strands that a turn moves, in ascending order, each changing direction as it is taken (R302). -/
def turnMoves (mask : BitVec 16) (d : Dir) : List Nat → Hop → List Nat → Hop × List Nat
  | [], h, e => (h, e)
  | i :: is, h, e =>
    if mask.getLsbD i && strandOf h i == .working && strandDir h i != d && decide (3 ≤ workingIn h (strandDir h i)) then
      turnMoves mask d is { h with dirs := setNth h.dirs i d } (e ++ [i])
    else turnMoves mask d is h e

/-- Started turns of an end that have found no free queue entry yet (R302). -/
def turnsWaiting (s : State) (hop end_ : Nat) : List Nat :=
  let h := hopAt s hop
  (s.e.cmds.filter (fun k => k.2.started && (match k.2.body with
    | .turn hp e _ _ => hp == hop && e == end_ && !(h.q0 ++ h.q1).any (fun q => q.1 == k.1) &&
        (h.turning.map (·.1)) != some k.1
    | _ => false))).map (·.1)

/-- Waiting turns take free queue entries, in order. -/
def refillTurns (s : State) (hop : Nat) : State :=
  let s1 := (turnsWaiting s hop 0).foldl (fun s i => joinTurnQueue s hop 0 i) s
  (turnsWaiting s1 hop 1).foldl (fun s i => joinTurnQueue s hop 1 i) s1

/-- Whether an end may be selected: its queue is not empty and 10 µs have passed since its own last turn (R303). -/
def endEligible (s : State) (h : Hop) (end_ : Nat) : Bool :=
  let q := if end_ = 0 then h.q0 else h.q1
  let t := if end_ = 0 then h.t0 else h.t1
  !q.isEmpty && (match t with | none => true | some c => decide (c + 10000 ≤ s.c.cycle))

/-- The die of an end of a hop. -/
def endDie (hop end_ : Nat) : Nat := (hop + end_) % 8

/-- The end whose entry the hop selects (R303). -/
def selectEnd (s : State) (hop : Nat) : Option Nat :=
  let h := hopAt s hop
  match endEligible s h 0, endEligible s h 1 with
  | false, false => none
  | true, false => some 0
  | false, true => some 1
  | true, true =>
    match h.lastEnd with
    | some e => some (1 - e)
    | none =>
      let a : Nat := ((h.q0.head?).map (·.2)).getD 0
      let b : Nat := ((h.q1.head?).map (·.2)).getD 0
      if a < b then some 0 else if b < a then some 1
      else some (if endDie hop 0 < endDie hop 1 then 0 else 1)

/-- A turn's command completes (R302). -/
def finishTurn (s : State) (i : Nat) (failed : Bool) : State :=
  match s.e.cmds.find? i with
  | none => s
  | some k =>
    fillTokens { s with e := { s.e with cmds := s.e.cmds.del i } } k.fills
      { statusEntry (if failed then statusWord true 8 0xFFFFFF else statusWord false 0 0) with wrote := coreFrames s k.core i }

/-- What a command does, while it has not completed. -/
def bodyOf (s : State) (i : Nat) : Option CmdBody := (s.e.cmds.find? i).map (·.body)

/-- R303: the hop selects an entry; the strands it moves stop carrying. A turn that moves none completes at once. -/
def execTurnSelect (hop : Nat) (s : State) : Out :=
  if 8 ≤ hop then .fault .noSuchAgent else
  let s0 := refillTurns s hop
  let h := hopAt s0 hop
  if h.turning.isSome || h.retrain.isSome || h.down then .next s0 else
  match selectEnd s0 hop with
  | none => .next s0
  | some e =>
    match (if e = 0 then h.q0 else h.q1) with
    | [] => .next s0
    | (i, _) :: rest =>
      let h1 := if e = 0 then { h with q0 := rest } else { h with q1 := rest }
      match bodyOf s0 i with
      | some (.turn _ _ d mask) =>
        let r := turnMoves mask d (List.range 16) h1 []
        if r.2.isEmpty then .next (finishTurn (setHop s0 hop h1) i false)
        else .next (setHop s0 hop { r.1 with
          st := r.2.foldl (fun st x => setNth st x .draining) r.1.st
          turning := some (i, e, r.2)
          turnAt := s0.c.cycle })
      | _ => .next (setHop s0 hop h1)

/-- The event of a retired strand or a spared lane (R365, R424). -/
def linkEvent (s : State) (die link strand : Nat) : State :=
  postEvent s { evZero with kind := 0x14, die := die, addr := BitVec.ofNat 64 (link % 256 + strand % 256 * 256) }

/-- A retraining begins (R306): no strand carries, and each turns to its reset direction, retired ones included. -/
def retrainStart (s : State) (hop : Nat) : State :=
  setHop s hop { hopAt s hop with dirs := hopZero.dirs, st := List.replicate 16 StrandState.draining, turnAt := s.c.cycle }

/-- A retraining ends: the strands carry, those that failed are retired, and the requests are answered (R306). -/
def retrainEnd (s : State) (hop : Nat) (rs : List Hdr) (failed : BitVec 16) : State :=
  let h := hopAt s hop
  let lost := (List.range 16).filter (fun x => failed.getLsbD x)
  let st := (List.range 16).map (fun x => if failed.getLsbD x then StrandState.retired else .working)
  let s1 := setHop s hop { h with st := st, retrain := none }
  let s2 := lost.foldl (fun s x => linkEvent s (endDie hop 0) hop x) s1
  let cycles := (s.c.cycle - h.turnAt) * 16
  rs.foldl (fun t r => done t r []) (countDie (countDie s2 (endDie hop 0) 5 cycles) (endDie hop 1) 4 cycles)

/-- R302: the strands join their new direction, those that fail to retrain are retired; the turn counts (R303, R306). On a
hop that retrains, the retraining ends. -/
def execTurnComplete (hop : Nat) (failed : BitVec 16) (s : State) : Out :=
  let h := hopAt s hop
  match h.turning with
  | none => .next (match h.retrain with | some rs => retrainEnd s hop rs failed | none => s)
  | some (i, e, es) =>
    let lost := es.filter (fun x => failed.getLsbD x)
    let st := es.foldl (fun st x => setNth st x (if failed.getLsbD x then StrandState.retired else .working)) h.st
    let h1 : Hop := { h with st := st, turning := none, lastEnd := some e,
                             t0 := if e = 0 then some s.c.cycle else h.t0, t1 := if e = 0 then h.t1 else some s.c.cycle }
    let s1 := setHop s hop h1
    let s2 := lost.foldl (fun s x => linkEvent s (endDie hop e) hop x) s1
    let drained := (s.c.cycle - h.turnAt) * es.length
    let s3 := countDie (countDie s2 (endDie hop 0) 3 1) (endDie hop 1) 2 1
    let s4 := countDie (countDie s3 (endDie hop 0) 5 drained) (endDie hop 1) 4 drained
    let s5 := finishTurn s4 i (!lost.isEmpty)
    .next (if h1.retrain.isSome then retrainStart s5 hop else s5)

def bufKey (hop : Nat) (d : Dir) : Nat := hop * 2 + dirNat d
/-- The die that sends on a direction of a hop, and the one that receives. -/
def sendDie (hop : Nat) (d : Dir) : Nat := match d with | .cw => hop | .ccw => (hop + 1) % 8
def recvDie (hop : Nat) (d : Dir) : Nat := match d with | .cw => (hop + 1) % 8 | .ccw => hop
/-- The hop whose packets arrive at a die in a direction. -/
def arriveHop (die : Nat) (d : Dir) : Nat := match d with | .cw => (die + 7) % 8 | .ccw => die

/-! ### The header (R296, R410) -/

/-- Log2 of the bytes of a scalar or atomic access, in KIND bits 3:0; zero for a block. -/
def sizeLog (n : Nat) : Nat := if n = 8 then 3 else if n = 4 then 2 else if n = 2 then 1 else 0
/-- Bytes of the access that a packet asks for. -/
def bodySize (p : Pkt) : Nat :=
  match p.body with
  | .read n => n
  | .write cells => if p.flits = 1 then cells.length else 256
  | .amo _ t _ | .red _ t _ | .cas t _ _ => tyBytes t
  | .data bs => bs.length
  | .ack | .refuse => 0

/-- Bits of the mask of some small numbers. -/
def maskOf (ns : List Nat) : Nat := (sortDistinct ns).foldl (fun a n => a + 2 ^ n) 0

/-- OPND: the value of a scalar store; the units and the byte mask of a block write (R410); the value of an atomic or a reduction
with its operation in bits 71:64, and the two values of a `cas`, the expected one low (log 82). -/
def opndBits (p : Pkt) : Nat :=
  match p.body with
  | .write cells =>
    if p.flits = 1 then leNat (cells.map (·.2))
    else
      let us := sortDistinct (cells.map (fun c => c.1 / 64))
      let low := us.headD 0
      maskOf us + 2 ^ 64 * maskOf ((cells.filter (fun c => c.1 / 64 == low)).map (fun c => c.1 % 64))
  | .amo op _ v | .red op _ v => v.toNat + 2 ^ 64 * op
  | .cas _ e n => e.toNat + 2 ^ 64 * n.toNat
  | .data bs => if p.flits = 1 then leNat bs else 0
  | .read _ | .ack | .refuse => 0

/-- TGT of a request (R296). -/
def tgtOf (p : Pkt) : Word := BitVec.ofNat 64 (p.exp * 2 ^ 46 + p.gen * 2 ^ 42 + p.off % 2 ^ 38)

/-- CHAN: data flits, VC, escape. -/
def chanByte (p : Pkt) : Nat := p.flits - 1 + (if p.vc1 then 8 else 0) + (if p.esc then 16 else 0)

/-- Bytes 63:12 of a header flit, byte 12 first (R296); the check symbols stand below them. -/
def headerBytes (p : Pkt) : List Byte :=
  leBytes 2 (p.dst % 16 + 16 * (p.src % 16) + 256 * (p.hops % 256)) ++ leBytes 2 (p.route % 4) ++ leBytes 1 (chanByte p) ++
    leBytes 1 (16 * p.kind + (if bodySize p ≤ 8 then sizeLog (bodySize p) else 0)) ++ leBytes 1 (p.ctx % 64) ++
    leBytes 1 p.tenant.toNat ++ leBytes 4 (p.trk % 2 ^ 32) ++ List.replicate 16 0 ++ leBytes 8 (tgtOf p).toNat ++
    leBytes 16 (opndBits p)

/-- A header is corrupted when its KIND is reserved or its errors are not confined to one byte (R296). -/
def corrupted (p : Pkt) : Bool := decide (8 ≤ p.kind) || decide (2 ≤ p.errs)

/-! ### Packets from die to die (R297, R298, R412) -/

/-- The six sources of a direction of a hop (R412): 0 escape, 1 pool, 2 to 5 the injection queues of the clusters. -/
def sourceHead (s : State) (hop : Nat) (d : Dir) (source : Nat) : Option Pkt :=
  let die := sendDie hop d
  let b := bufAt s (bufKey (arriveHop die d) d)
  match source with
  | 0 => b.escape.find? (fun p => p.dst != die)
  | 1 => b.pool.find? (fun p => p.dst != die)
  | n => (s.r.inject.getD [] (injectKey die d (n - 2))).head?

/-- A packet's channel past a hop: crossing hop 7 moves it to VC1 (R297). -/
def channelAfter (hop : Nat) (p : Pkt) : Bool := p.vc1 || hop == 7

/-- Whether the far end's pool has room for the whole packet. -/
def poolRoom (b : HopBuf) (vc1 : Bool) (flits : Nat) : Bool := decide (flits ≤ (if vc1 then b.a1 else b.a0) + b.ash)
/-- Whether the bubble rule lets a packet take the escape channel. -/
def escapeRoom (b : HopBuf) (inEscape : Bool) : Bool := decide ((if inEscape then 1 else 2) ≤ b.aesc)

/-- Whether a source's head can take slots at the far end (R412). -/
def headFits (s : State) (hop : Nat) (d : Dir) (source : Nat) : Bool :=
  match sourceHead s hop d source with
  | none => false
  | some p =>
    let b := bufAt s (bufKey hop d)
    if corrupted p then false else
    if p.esc then escapeRoom b true else poolRoom b (channelAfter hop p) p.flits || escapeRoom b false

/-- The packet enters the far buffer, in the pool or in escape, where it keeps its VC bit, and the allowance falls (R297, R413). The
receiver has corrected what it can of the header (R296; log 81). -/
def enterFar (s : State) (hop : Nat) (d : Dir) (p0 : Pkt) : State :=
  let b := bufAt s (bufKey hop d)
  let p : Pkt := { p0 with errs := Config.headerErrors s.c.cycle hop }
  let vc1 := channelAfter hop p
  let free := if vc1 then b.a1 else b.a0
  if !p.esc && poolRoom b vc1 p.flits then
    let g := min free p.flits
    let q := { p with vc1 := vc1, hops := p.hops + 1, gtd := g }
    setBuf s (bufKey hop d) { b with
      pool := b.pool ++ [q]
      a0 := if vc1 then b.a0 else b.a0 - g
      a1 := if vc1 then b.a1 - g else b.a1
      ash := b.ash - (p.flits - g) }
  else
    setBuf s (bufKey hop d) { b with
      escape := b.escape ++ [{ p with hops := p.hops + 1, gtd := 0, esc := true }], aesc := b.aesc - 1 }

/-- A packet leaves the buffer it stands in; its slots return to the sender later (R298). -/
def leaveBuf (s : State) (key : Nat) (p : Pkt) : State :=
  let b := bufAt s key
  if p.esc then setBuf s key { b with escape := b.escape.erase p, resc := b.resc + 1 }
  else setBuf s key { b with
    pool := b.pool.erase p
    r0 := if p.vc1 then b.r0 else b.r0 + p.gtd
    r1 := if p.vc1 then b.r1 + p.gtd else b.r1
    rsh := b.rsh + (p.flits - p.gtd) }

/-- R297: the head packet of a source advances one hop, into pool or escape slots. -/
def execPacketHop (hop : Nat) (d : Dir) (source : Nat) (s : State) : Out :=
  if 8 ≤ hop ∨ 6 ≤ source then .fault .noSuchAgent else
  match sourceHead s hop d source with
  | none => .next s
  | some p =>
    if (hopAt s hop).down || workingIn (hopAt s hop) d == 0 || !headFits s hop d source then .next s
    else
      let die := sendDie hop d
      let s1 := if source < 2 then leaveBuf s (bufKey (arriveHop die d) d) p
        else
          let k := injectKey die d (source - 2)
          { s with r := { s.r with inject := s.r.inject.ins k ((s.r.inject.getD [] k).drop 1) } }
      .next (enterFar s1 hop d p)

/-- R412: the next source after the last one chosen whose head packet can take slots. -/
def execSourceRoundRobin (hop : Nat) (d : Dir) (s : State) : Out :=
  if 8 ≤ hop then .fault .noSuchAgent else
  let h := hopAt s hop
  let last := match d with | .cw => h.rr | .ccw => h.rrc
  match ((List.range 6).map (fun i => (last + 1 + i) % 6)).find? (headFits s hop d) with
  | none => .next s
  | some x =>
    let h1 := match d with | .cw => { h with rr := x } | .ccw => { h with rrc := x }
    .next (enqueue (setHop s hop h1) (.packetHop hop d x))

/-- R298: freed slots return to the sender. -/
def execCreditReturn (hop : Nat) (d : Dir) (s : State) : Out :=
  if 8 ≤ hop then .fault .noSuchAgent else
  let b := bufAt s (bufKey hop d)
  .next (setBuf s (bufKey hop d) { b with a0 := b.a0 + b.r0, a1 := b.a1 + b.r1, ash := b.ash + b.rsh, aesc := b.aesc + b.resc,
                                          r0 := 0, r1 := 0, rsh := 0, resc := 0 })

/-! ### The network interface (R84, R410, R411) -/

/-- The first packet for a die in a buffer that arrives there, of some kinds. -/
def arrived (s : State) (die : Nat) (d : Dir) (esc : Bool) (kinds : List Nat) : Option Pkt :=
  let b := bufAt s (bufKey (arriveHop die d) d)
  match (if esc then b.escape else b.pool).find? (fun p => p.dst == die) with
  | some p => if kinds.contains p.kind && !corrupted p then some p else none
  | none => none

/-- The right that a request needs (R75). -/
def requestRight (p : Pkt) : Right := match p.kind with | 0 => .rd | 2 => .wr | _ => .at
def maxrtHas (m : BitVec 4) (r : Right) : Bool :=
  match r with
  | .rd => m.getLsbD 0
  | .wr => m.getLsbD 1
  | .at => m.getLsbD 0 && m.getLsbD 1 && m.getLsbD 2

/-- The owner's checks (R84): the home of the first byte, or `none` where it refuses. -/
def ownerHome (s : State) (die : Nat) (p : Pkt) : Option Loc :=
  match s.h.exports.find? (die * 16384 + p.exp) with
  | none => none
  | some x =>
    if !x.live || x.gen != p.gen || decide (x.pages ≤ p.off / 65536) || !maxrtHas x.maxrt (requestRight p) then none
    else
      let va := x.base + BitVec.ofNat 64 p.off
      match walkVa s x.ctx va with
      | .fault _ _ => none
      | .leaf e lg => if pteKind e = 2 ∨ hasRight (requestRight p) e = false then none
                      else some (.mem (leafKey die va lg e) (pteOrd e))

/-- The refusal event of the owner (R84, R396, R424). -/
def refusalEvent (s : State) (die : Nat) (p : Pkt) : State :=
  postEvent s { evZero with kind := 0x16, die := die, addr := tgtOf p, tenant := 256 + p.tenant.toNat }

/-- Data flits of a reply: block reads carry theirs in flits of 64 bytes, a scalar in the header. -/
def replyFlits (b : PktBody) : Nat := match b with | .data bs => if bs.length ≤ 8 then 1 else 1 + (bs.length + 63) / 64 | _ => 1

/-- A reply travels back over the hops of its request (R299); its ROUTE names that direction (log 82). -/
def sendReply (s : State) (die : Nat) (p : Pkt) (kind : Nat) (body : PktBody) : State :=
  inject s die 0 { p with kind := kind, dst := p.src, src := die, hops := 0, dir := aroundDown s die p.src (dirFlip p.dir),
                          vc1 := false, esc := false, flits := replyFlits body, body := body, gtd := 0, errs := 0,
                          route := dirNat (dirFlip p.dir) + 1 }

/-- The party that sent a request, for watchpoints (R417). -/
def partyOf (s : State) (p : Pkt) : Party :=
  match s.r.trackers.find? p.trk with
  | none => .engine (p.src * 384) 0
  | some t => match t.who with
    | .path pid => .thread pid t.lane (pcVpc s (pathAt s pid))
    | .cmd i => .engine (((s.e.cmds.find? i).map (·.core)).getD (p.src * 384)) 2

/-- A byte address further on in a home. -/
def locPlus (l : Loc) (n : Nat) : Loc := match l with | .mem a o => .mem (a + n) o | .scr c a => .scr c (a + n)

/-- The owner performs a request at the home (R84, R262): the state and the reply. -/
def performRequest (s : State) (die : Nat) (p : Pkt) (l : Loc) : State × PktBody :=
  let who := partyOf s p
  let core := die * 384
  match p.body with
  | .read n => (noteWatch s who 1 l (homeWord s l), .data ((List.range n).map (fun i => match l with
      | .mem a _ => memByte s (a + i)
      | .scr c a => scrByte s c (a + i))))
  | .write cells =>
    (cells.foldl (fun s b => match locPlus l b.1 with
      | .mem a o => noteWatch (writeByte s a b.2) who 2 (.mem a o) (homeWord s (.mem a o))
      | .scr _ _ => s) s, .ack)
  | .amo op t v => let r := performLane s core who (.amo op) t false l v 0; (r.1, .data (leBytes (tyBytes t) r.2.toNat))
  | .cas t e n => let r := performLane s core who .cas t false l e n; (r.1, .data (leBytes (tyBytes t) r.2.toNat))
  | .red op t v => ((performLane s core who (.red op) t false l v 0).1, .ack)
  | _ => (s, .ack)

/-- KIND of the reply to a request. -/
def replyKind (kind : Nat) : Nat := match kind with | 0 => 1 | 4 => 5 | _ => 3

/-- R84: the owner checks a read, atomic or reduction at the head of a buffer and performs it, or refuses it. -/
def execPeerRequest (die : Nat) (d : Dir) (esc : Bool) (s : State) : Out :=
  match arrived s die d esc [0, 4, 6] with
  | none => .next s
  | some p =>
    let s1 := leaveBuf s (bufKey (arriveHop die d) d) p
    match ownerHome s1 die p with
    | none => .next (sendReply (refusalEvent s1 die p) die p 7 .refuse)
    | some l =>
      let r := performRequest s1 die p l
      .next (sendReply r.1 die p (replyKind p.kind) r.2)

/-- R411: the interface accepts a write packet when one of its 64 places is free; the owner's checks are made, and the
writes of an accepted packet perform at their homes. -/
def execPacketAccept (die : Nat) (d : Dir) (esc : Bool) (s : State) : Out :=
  let ps := s.r.places.getD [] die
  match arrived s die d esc [2] with
  | none => .next s
  | some p =>
    if 64 ≤ ps.length then .next s
    else
      let s1 := leaveBuf s (bufKey (arriveHop die d) d) p
      let home := ownerHome s1 die p
      let s2 := match home with
        | some l => (performRequest s1 die p l).1
        | none => refusalEvent s1 die p
      .next { s2 with r := { s2.r with places := s2.r.places.ins die (ps ++ [{ pkt := p, ok := home.isSome }]) } }

/-- R411: a place whose writes have performed frees, and the acknowledgement or the refusal is sent. -/
def execWriteAcknowledgement (die place : Nat) (s : State) : Out :=
  let ps := s.r.places.getD [] die
  match ps[place]? with
  | none => .fault .noSuchAgent
  | some x =>
    let s1 : State := { s with r := { s.r with places := s.r.places.ins die (ps.take place ++ ps.drop (place + 1)) } }
    .next (if x.ok then sendReply s1 die x.pkt 3 .ack else sendReply s1 die x.pkt 7 .refuse)

/-- R130: a reply reaches the requester; one whose item has failed is discarded (R370). The path goes on once every reply
it waits for is there. -/
def execPeerReply (die : Nat) (d : Dir) (esc : Bool) (s : State) : Out :=
  match arrived s die d esc [1, 3, 5, 7] with
  | none => .next s
  | some p =>
    let s1 := leaveBuf s (bufKey (arriveHop die d) d) p
    .next { s1 with r := { s1.r with trackers := s1.r.trackers.upd p.trk (fun t => { t with reply := some p.body }) } }

/-! ### Losses (R365, R369, R370) -/

/-- The gang of a waiter. -/
def waiterGang (s : State) (w : Waiter) : Option Nat :=
  match w with
  | .path p => some (warpAt s (warpOfPath p)).gang
  | .cmd i => (s.e.cmds.find? i).map (·.gang)

/-- The item behind a tracker fails with a cause (R364, R370): its gang fails; a command's unit completes failed. -/
def failTracker (s : State) (trk cause : Nat) : State :=
  match s.r.trackers.find? trk with
  | none => s
  | some t =>
    let s1 := match waiterGang s t.who with
      | some g => failGang s g cause 0
      | none => s
    let drop := s1.r.trackers.del trk
    let refuse := s1.r.trackers.upd trk (fun t => { t with reply := some .refuse })
    match t.who with
    | .path _ => { s1 with r := { s1.r with trackers := drop } }
    | .cmd i => updCmd { s1 with r := { s1.r with trackers := refuse } } i (fun k => { k with cause := mergeCause k.cause cause })

/-- R370: no reply within 64 µs. -/
def execTrackerTimeout (die trk : Nat) (s : State) : Out :=
  match s.r.trackers.find? trk with
  | none => .next s
  | some t => if t.die ≠ die then .fault .noSuchAgent
              else if t.reply.isSome || decide (s.c.cycle < t.sent + 64000) then .next s
              else .next (failTracker s trk 7)

/-- R370: a header beyond correction: the packet is discarded, and its link counts it. Of the packets of a buffer it is the first
that is corrupted; a header that turns out so as it is read is the first packet's. -/
def execCorruptedHeader (hop : Nat) (d : Dir) (esc : Bool) (s : State) : Out :=
  if 8 ≤ hop then .fault .noSuchAgent else
  let b := bufAt s (bufKey hop d)
  let ps := if esc then b.escape else b.pool
  match (ps.find? corrupted).or ps.head? with
  | none => .next s
  | some p =>
    .next (postEvent (leaveBuf s (bufKey hop d) p)
      { evZero with kind := 0x15, die := recvDie hop d, addr := BitVec.ofNat 64 hop })

/-- R365: a flit is retried up to 8 times; then the lane is spared, or the strand is retired. Links: hop n as n, the spine
link of die n as 8 + n, UCIe as 16. -/
def execFlitRetry (link strand failures : Nat) (spare : Bool) (s : State) : Out :=
  if 17 ≤ link ∨ 16 ≤ strand then .fault .noSuchAgent else
  let die := if link < 8 then link else if link < 16 then link - 8 else 8
  let s1 := countDie s die 6 1
  if failures ≤ 8 then .next s1
  else if link < 8 ∧ spare = false then
    let h := hopAt s1 link
    .next (linkEvent (setHop s1 link { h with st := setNth h.st strand .retired }) die link strand)
  else .next (linkEvent s1 die link strand)

/-- The packets in buffers whose way still leads through a die, or that stand in it. -/
def throughRouter (die : Nat) (key : Nat) (p : Pkt) : Bool :=
  let at_ := recvDie (key / 2) p.dir
  at_ == die || (dirHops at_ p.dst p.dir).any (fun h => h == die || h == (die + 7) % 8)

/-- A buffer without the packets whose way leads through a die; the slots that they held return to the sender (R298). -/
def dropThrough (die key : Nat) (b : HopBuf) : HopBuf :=
  let gone := b.pool.filter (throughRouter die key)
  let held : Bool → Nat := fun v => ((gone.filter (fun p => p.vc1 == v)).map (·.gtd)).sum
  { b with
    pool := b.pool.filter (fun p => !throughRouter die key p)
    escape := b.escape.filter (fun p => !throughRouter die key p)
    r0 := b.r0 + held false
    r1 := b.r1 + held true
    rsh := b.rsh + (gone.map (fun p => p.flits - p.gtd)).sum
    resc := b.resc + (b.escape.filter (throughRouter die key)).length }

/-- The allowances after link training: every one equals the free slots that it covers (R298). -/
def trainBuf (b : HopBuf) : HopBuf :=
  let used : Bool → Nat := fun v => ((b.pool.filter (fun p => p.vc1 == v)).map (·.gtd)).sum
  { b with
    a0 := 10 - used false, a1 := 10 - used true, ash := 460 - (b.pool.map (fun p => p.flits - p.gtd)).sum
    aesc := 16 - b.escape.length, r0 := 0, r1 := 0, rsh := 0, resc := 0 }

/-- R369: a die's transit router is lost. Its hops are marked down and reported; packets in flight through it fail their
items with CAUSE 8; packets not yet sent take the other direction. -/
def execTransitRouterLost (die : Nat) (s : State) : Out :=
  if 8 ≤ die then .fault .noSuchAgent else
  let hops := [die, (die + 7) % 8]
  let s1 := hops.foldl (fun s h => setHop s h { hopAt s h with down := true }) s
  let s2 := hops.foldl (fun s h => postEvent s { evZero with
    kind := 0x09, die := endDie h (if h = die then 1 else 0), cause := 3, addr := BitVec.ofNat 64 h }) s1
  let lost := s2.r.bufs.flatMap (fun b => (b.2.pool ++ b.2.escape).filter (throughRouter die b.1))
  let s3 : State := { s2 with r := { s2.r with bufs := s2.r.bufs.map (fun b => (b.1, dropThrough die b.1 b.2)) } }
  let s4 := lost.foldl (fun s p => failTracker s p.trk 8) s3
  let all := s4.r.inject.flatMap (fun q => q.2.map (fun p => (q.1, p)))
  let s5 : State := { s4 with r := { s4.r with inject := [] } }
  .next (all.foldl (fun s q => inject s (q.1 / 8) (q.1 % 4) { q.2 with dir := aroundDown s (q.1 / 8) q.2.dst q.2.dir }) s5)

end Sys2Proof.Machine
end

