-- ==== Sys2Proof/Machine/Plane.lean ====
section
/-!
DEFINITION. The contention plane: keys, bids, gates and results, frames, the beacon and revocation (R307 to R327).
-/
namespace Sys2Proof.Machine

/-! ### cp.key (R323) -/

/-- An f64 code as an ordered key. -/
def orderKey (b : Word) : Word := if b.getLsbD 63 then ~~~b else b ^^^ (1#64 <<< 63)

/-- The key of a value: class 0 signed, 1 unsigned, 2 floating. -/
def keyOf (t : Ty) (cls : Nat) (min : Bool) (x : Word) : Word :=
  let nan := cls == 2 && ((fmtOf t).decode x.toNat).isNan
  let k := match cls with
    | 0 => wrap 64 (sx (tyWidth t) x + 2 ^ 63)
    | 1 => BitVec.ofNat 64 (zx (tyWidth t) x)
    | _ => if nan then 0 else orderKey (BitVec.ofNat 64 (fmtF64.convert (fmtOf t) rne false x.toNat).1)
  if min && !nan then ~~~k else k

/-- The source type of `cp.key`: its operand's, natively the code in AUX[3:0]. -/
def keyTy (c : Ctx) (f : Form) : Ty :=
  match f with
  | .p _ => opndTy c f 0 .i32
  | .n w => tyOfNative (w.aux.extractLsb' 0 4).toNat 0

/-- R323. -/
def execCpKey (f : Form) (s : State) : Out :=
  laneOp f s (fun _ => .i64) (fun c l =>
    keyOf (keyTy c f) (modOf f % 4) (modOf f / 4 == 1) (src s c f 0 (keyTy c f) (modOf f % 4 == 0) l))

/-! ### Bids and gates (R324, R325) -/

/-- The identifier that an instruction names: the first active lane's. -/
def planeId (s : State) (c : Ctx) (f : Form) : Nat := zx 32 (src s c f 0 .i32 false (firstLane s c.pid))

/-- Whether the issuing context does not hold the identifier. -/
def notHolder (s : State) (c : Ctx) (id : Nat) : Bool := (planeAt s c.die id).holder != some c.ctx

/-- The global thread index of a lane of the issuing warp (R315). -/
def globalIndex (c : Ctx) (lane : Nat) : Nat := threadIndex c.warp lane

/-- One lane's bid: entries are reserved, and the bid is pending. -/
def issueBid (f : Form) (c : Ctx) (id group : Nat) (s : State) (lane : Nat) (key : Word) (pops : List Pop) : State :=
  let r := reserveOut s c f 4 lane
  let b : Bid :=
    { id := r.1.c.nextId, group := group, die := c.die, ident := id, key := key, gidx := globalIndex c lane, warp := c.warp,
      lane := lane, gang := c.gang, core := coreOfWarp c.warp, rel := modOf f == 1, after := group, pops := pops,
      fills := r.2, arrived := false, frozen := false }
  let s1 := takeId r.1
  let s2 : State := { s1 with pl := { s1.pl with bids := s1.pl.bids ++ [b] } }
  match f with
  | .p _ => putDst s2 c.pid lane (dstOf c f .tok) (BitVec.ofNat 64 (r.2.headD 0))
  | .n _ => s2

/-- R324: one bid for each active lane, all on the first active lane's identifier. -/
def execCpBid (f : Form) (s : State) : Out :=
  issuing f s fun c =>
    let ls := (pathMask s c.pid).lanes
    let id := planeId s c f
    let toks := match f with | .p w => w.ext.take (immNat w.c / 16) | .n _ => []
    .next (match firstFault [(0x0D, 0xFF, plainLanes (outsideSpan s c)), (0x10, 0xFF, plainLanes (if 255 < id then ls else [])),
        (0x16, 0xFF, plainLanes (if notHolder s c id then ls else []))] with
      | some t => raise s c f t
      | none =>
        let s1 := carryToks s c f toks 4
        let group := s1.c.nextId
        let t := ls.foldl (fun t l => issueBid f c id group t l (src s c f 1 .i64 false l) (inputPops s1 c f toks 4 l)) (takeId s1)
        if 4096 < spilled t (coreOfWarp c.warp) then raise s c f (plainTrap 0x0F ls) else finish t c f)

/-- R325: acts once, with the first active lane's values. -/
def execCpGate (f : Form) (s : State) : Out :=
  issuing f s fun c =>
    let id := planeId s c f
    let n := zx 32 (src s c f 1 .i32 false (firstLane s c.pid))
    let ls := (pathMask s c.pid).lanes
    .next (match firstFault [(0x10, 0xFF, plainLanes (if 255 < id ∨ 65535 < n then ls else [])),
        (0x16, 0xFF, plainLanes (if notHolder s c id then ls else []))] with
      | some t => raise s c f t
      | none => finish (setPlane s c.die id { planeAt s c.die id with gate := BitVec.ofNat 16 n }) c f)

/-! ### Reading results (R326, R327) -/

/-- A field of the first active lane's entry, the same in every lane. -/
def readResult (f : Form) (s : State) (t : Ty) (g : Entry → Word) : Out :=
  popping f s fun c es s1 =>
    let v := ((es.head?).map (fun e => g e.2)).getD 0
    putLanes s1 c.pid (dstOf c f t) (es.map (fun e => (e.1, v)))

/-- R326. -/
def execCpWon (f : Form) (s : State) : Out :=
  popping f s fun c es s1 => putLanes s1 c.pid (dstOf c f .i1) (es.map (fun e => (e.1, boolWord e.2.won)))
/-- R326. -/
def execCpMax (f : Form) (s : State) : Out := readResult f s .i64 (·.key)
/-- R326. -/
def execCpDie (f : Form) (s : State) : Out := readResult f s .i32 (fun e => BitVec.ofNat 64 e.die)
/-- R326. -/
def execCpRound (f : Form) (s : State) : Out := readResult f s .i32 (fun e => e.round.setWidth 64)

/-- R327: LAST of the die, without bidding. -/
def execCpLast (f : Form) (s : State) : Out :=
  issuing f s fun c =>
    let id := planeId s c f
    let ls := (pathMask s c.pid).lanes
    let e := planeAt s c.die id
    let v := match modOf f with | 0 => e.lastKey | 1 => BitVec.ofNat 64 e.lastDie | _ => e.lastRound.setWidth 64
    .next (match firstFault [(0x10, 0xFF, plainLanes (if 255 < id then ls else [])),
        (0x16, 0xFF, plainLanes (if notHolder s c id then ls else []))] with
      | some t => raise s c f t
      | none => finish (putLanes s c.pid (dstOf c f (if modOf f = 0 then .i64 else .i32)) (ls.map (fun l => (l, v)))) c f)

/-! ### Frames (R307 to R317) -/

def setBids (s : State) (bs : List Bid) : State := { s with pl := { s.pl with bids := bs } }
def ptrAt (s : State) (die line : Nat) : Nat := s.pl.ptrs.getD 0 (die * 8 + line)
def setPtr (s : State) (die line p : Nat) : State :=
  { s with pl := { s.pl with ptrs := s.pl.ptrs.putD 0 (die * 8 + line) (p % 32) } }

/-- Dies that drive and read the lines: ready ones outside reset (R321); the F-die always does. -/
def planeDies (s : State) : List Nat := (List.range 9).filter (fun d => d == 8 || ((dieAt s d).pReady && !(dieAt s d).inReset))

/-- A bid on a system identifier, with the place of a thread's bid: no core, no gang and no entry (R315). -/
def SysBid.asBid (b : SysBid) : Bid :=
  { id := b.id, group := b.id, die := b.die, ident := b.ident, key := b.key, gidx := b.who, warp := 0, lane := 0, gang := 0,
    core := 0, rel := false, after := 0, pops := [], fills := [], arrived := true, frozen := b.frozen }

/-- Every pending bid of the package, those on system identifiers among them. -/
def planeBids (s : State) : List Bid := s.pl.bids ++ s.pl.sysBids.map SysBid.asBid

/-- The system identifiers on which a die's command processors or kernel bid in the running frame arrive: those of a die that
takes part in the plane and has reported ready (R16, R320; log 71). -/
def sysArrive (s : State) : State :=
  (planeDies s).foldl (fun s d =>
    if !(dieAt s d).dieReady then s else
    (Config.systemBids s.pl.fc d).foldl (fun s b =>
      let t := takeId s
      let n : SysBid := { id := s.c.nextId, die := d, ident := 224 + b.1 % 32, key := b.2.1, who := b.2.2, frozen := false }
      { t with pl := { t.pl with sysBids := t.pl.sysBids ++ [n] } }) s) s

/-- The entries that a bid pops, behind those of earlier bids of its core that have not popped. -/
def bidPops (s : State) (b : Bid) : Option (List Nat) :=
  let earlier := (s.pl.bids.filter (fun x => x.core == b.core && decide (x.id < b.id))).flatMap (fun x =>
    x.pops.filterMap (fun p => match p with | .queue q => some (q, 0) | .entry _ => none))
  popIds s b.core 4 b.pops earlier

/-- The bid's release has performed and its input entries are filled (R319). -/
def bidReady (s : State) (b : Bid) : Bool :=
  (!b.rel || !(warpAt s b.warp).inflight.any (fun a => decide (a.id < b.after))) &&
    (match bidPops s b with | some ids => ids.all (isFilled s) | none => false)

/-- A bid arrives: its release is done and its entries are popped. -/
def arriveBid (s : State) (b : Bid) : State :=
  let s1 := erasePopsOf s b.core b.pops ((bidPops s b).getD [])
  setBids s1 (s1.pl.bids.map (fun x => if x.id = b.id then { x with arrived := true, rel := false, pops := [] } else x))
where
  /-- Takes popped entries out of the queues of consumer P. -/
  erasePopsOf (s : State) (core : Nat) (ps : List Pop) (ids : List Nat) : State :=
    (ps.zip ids).foldl (fun s p => match p.1 with
      | .queue x => setPair s core x 4 (qErase p.2 (pairAt s core x 4))
      | .entry i => eraseEntry s core i) s

/-- Bids arrive at the P units of ready dies, those of one `cp.bid` together (R312, R319, R321, R324). -/
def arriveBids (s : State) : State :=
  s.pl.bids.foldl (fun s b =>
    match s.pl.bids.find? (fun x => x.id == b.id) with
    | none => s
    | some x =>
      if x.arrived || !(planeDies s).contains x.die then s
      else
        let group := s.pl.bids.filter (fun y => y.group == x.group)
        if group.all (fun y => y.arrived || bidReady s y) then group.foldl arriveBid s else s) s

/-- The pending arrived bids of a die on a line; a bid that this boundary's revocation withdraws is none (R320). -/
def lineBids (s : State) (die line : Nat) : List Bid :=
  (planeBids s).filter (fun b => b.arrived && b.die == die && b.ident % 8 == line &&
    !s.pl.revoking.any (fun r => r.1.die == die && r.2 == b.ident))

/-- The selection priority that a die drives on a line (R311). -/
def selPriority (s : State) (die line : Nat) : Nat :=
  (lineBids s die line).foldl (fun m b => max m (31 - (b.ident / 8 + 32 - ptrAt s die line) % 32)) 0

/-- The identifier that a die reads from the selection result (R311). -/
def selected (s : State) (die line prio : Nat) : Nat := (ptrAt s die line + (31 - prio)) % 32 * 8 + line

/-- A die's best frozen bid (R315). -/
def bestBid (bs : List Bid) : Option Bid :=
  bs.foldl (fun b x => match b with
    | none => some x
    | some y => if y.key.toNat < x.key.toNat ∨ (y.key = x.key ∧ x.gidx < y.gidx) then some x else some y) none

/-- The winner among the dies' best bids: the greatest key, then the highest die (R314). -/
def winnerOf (bs : List Bid) : Option Bid :=
  bs.foldl (fun b x => match b with
    | none => some x
    | some y => if y.key.toNat < x.key.toNat ∨ (y.key = x.key ∧ y.die < x.die) then some x else some y) none

/-- The bids of a die that freeze on the selected identifier. -/
def freezing (s : State) (die ident : Nat) : List Bid := (planeBids s).filter (fun b => b.arrived && b.die == die && b.ident == ident)

/-- Whether a die holds the frame back (R313). -/
def holdsBack (s : State) (die ident : Nat) : Bool :=
  let g := (planeAt s die ident).gate
  g != 0 && decide ((freezing s die ident).length < g.toNat)

/-- The priority read on a line when its dies contend (R307, R311). -/
def linePriority (s : State) (line : Nat) : Nat := (planeDies s).foldl (fun m d => max m (selPriority s d line)) 0

/-- The bids with the given numbers are frozen. -/
def freezeBids (s : State) (ids : List Nat) : State :=
  { s with pl := { s.pl with
      bids := s.pl.bids.map (fun b => if ids.contains b.id then { b with frozen := true } else b)
      sysBids := s.pl.sysBids.map (fun b => if ids.contains b.id then { b with frozen := true } else b) } }

/-- One line's hold, key and die-number phases, after the selection that the frame began with; the result waits for its delivery
(R311 to R316). -/
def runLine (s : State) (line : Nat) : State :=
  let dies := planeDies s
  let prio := nth s.pl.prios 0 line
  let sel := dies.map (fun d => (d, selected s d line prio))
  let advance := fun (s : State) => sel.foldl (fun s x => setPtr s x.1 line (x.2 / 8 + 1)) s
  if sel.any (fun x => holdsBack s x.1 x.2) then advance s
  else
    let fs := sel.flatMap (fun x => freezing s x.1 x.2)
    match winnerOf (sel.filterMap (fun x => bestBid (freezing s x.1 x.2))) with
    | none => s
    | some w =>
      let s1 := freezeBids s (fs.map (·.id))
      let ds := sel.map (fun x => ({ die := x.1, ident := x.2, key := w.key, wdie := w.die, round := (planeAt s x.1 x.2).round,
                                     winner := if x.1 = w.die then some w.id else none } : Delivery))
      { s1 with pl := { s1.pl with deliveries := s1.pl.deliveries ++ ds } }

/-- R307: at a boundary the frame count rises, freed identifiers are revoked and the beacon is driven (R309, R320), and the dies
contend for each line with the bids that have arrived; at the end of plane cycle 4 the bidders freeze, later arrivals for the
selected identifier among them, and the hold and the later phases run (R312). -/
def execFrameBoundary (s : State) : Out :=
  if s.pl.selecting then
    let s1 := arriveBids s
    let s2 := (List.range 8).foldl runLine s1
    .next { s2 with pl := { s2.pl with selecting := false } }
  else
    let s1 : State := { s with c := { s.c with frameAt := s.c.cycle }, pl := { s.pl with selecting := true, fc := s.pl.fc + 1 } }
    let s2 := sysArrive (arriveBids s1)
    let s3 : State := { s2 with pl := { s2.pl with prios := (List.range 8).map (linePriority s2) } }
    let s4 := s3.pl.revoking.foldl (fun s r => enqueue s (.identifierRevocation r.1.die r.2)) s3
    .next (enqueue s4 .beacon)

/-- An entry that P fills (R317). Where the bid was withdrawn, INFO is 0 as R317 says, and not 0xFFFFFF as R102 says of every
failed entry without a failed chunk (log 73). -/
def planeEntry (failed : Bool) (key : Word) (die : Nat) (round : BitVec 16) (ident : Nat) (won : Bool) : Entry :=
  { entryZero with status := if failed then statusWord true 9 0 else statusWord false 0 0, key := key, die := die, round := round,
                   ident := ident, won := won }

/-- One delivery: LAST, ROUND and the pointer change, and the frozen bids fill their entries (R316, R317). -/
def deliver1 (s : State) (d : Delivery) : State :=
  let s1 := setPlane s d.die d.ident { planeAt s d.die d.ident with
    lastKey := d.key, lastDie := d.wdie, lastRound := d.round, round := d.round + 1 }
  let s2 := setPtr s1 d.die (d.ident % 8) (d.ident / 8 + 1)
  let mine := s2.pl.bids.filter (fun b => b.frozen && b.die == d.die && b.ident == d.ident)
  let s3 : State := { s2 with pl := { s2.pl with
      bids := s2.pl.bids.filter (fun b => !(b.frozen && b.die == d.die && b.ident == d.ident))
      sysBids := s2.pl.sysBids.filter (fun b => !(b.frozen && b.die == d.die && b.ident == d.ident)) } }
  mine.foldl (fun s b => fillTokens s b.fills (planeEntry false d.key d.wdie d.round d.ident (d.winner == some b.id))) s3

/-- R317. -/
def execResultDelivery (die : Nat) (s : State) : Out :=
  let ds := s.pl.deliveries.filter (fun d => d.die == die)
  let s1 : State := { s with pl := { s.pl with deliveries := s.pl.deliveries.filter (fun d => d.die != die) } }
  .next (ds.foldl deliver1 s1)

/-! ### Beacon, revocation, ready (R309, R310, R320, R321) -/

/-- A die's 64-bit frame count follows the beacon; bits 63:44 come from the F-die when the die has none yet (R310). -/
def followFc (s : State) (die : Nat) : State :=
  let low := s.pl.fc.toNat % 2 ^ 44
  let next := match s.pl.dieFc.find? die with
    | none => s.pl.fc
    | some f => BitVec.ofNat 64 ((f.toNat / 2 ^ 44 + (if low = 0 ∧ f.toNat % 2 ^ 44 = 2 ^ 44 - 1 then 1 else 0)) * 2 ^ 44 + low)
  { s with pl := { s.pl with dieFc := s.pl.dieFc.ins die next } }

/-- A die compares the beacon's round and pointer with its copies and takes the beacon's; a ready die reports a
difference (R309, R424). -/
def checkCopies (s : State) (die b : Nat) : State :=
  let round := (planeAt s 8 b).round
  let ptr := ptrAt s 8 (b % 8)
  let e := planeAt s die b
  if e.round = round ∧ ptrAt s die (b % 8) = ptr then s
  else
    let s1 := setPtr (setPlane s die b { e with round := round }) die (b % 8) ptr
    if (dieAt s die).pReady then countDie (postEvent s1 { evZero with kind := 0x13, die := die }) die 7 1 else s1

/-- R309. -/
def execBeacon (s : State) : Out :=
  let b := s.pl.fc.toNat % 256
  .next ((List.range 8).foldl (fun s d => if (dieAt s d).inReset then s else checkCopies (followFc s d) d b) s)

/-- The host's frees of an identifier are answered once the revocation has taken effect (R320). -/
def answerFrees (s : State) (die ident : Nat) : State :=
  let mine := s.pl.revoking.filter (fun r => r.1.die == die && r.2 == ident)
  let s1 : State := { s with pl := { s.pl with revoking := s.pl.revoking.filter (fun r => !(r.1.die == die && r.2 == ident)) } }
  mine.foldl (fun s r => done s r.1 []) s1

/-- R320: pending bids are withdrawn, HOLDER becomes invalid and GATE 0. -/
def execIdentifierRevocation (die ident : Nat) (s : State) : Out :=
  let out := s.pl.bids.filter (fun b => b.die == die && b.ident == ident && !b.frozen)
  let s1 := setBids s (s.pl.bids.filter (fun b => !(b.die == die && b.ident == ident && !b.frozen)))
  let s2 := setPlane s1 die ident { planeAt s1 die ident with holder := none, gate := 0 }
  let s3 := out.foldl (fun s b => fillTokens s b.fills (planeEntry true 0 15 0 ident false)) s2
  .next (answerFrees s3 die ident)

/-- R321: once it has read 256 frames since its reset, counted from the frame boundary after it, the unit holds every pointer and
ROUND of the package, and reports ready. -/
def execPUnitReady (die : Nat) (s : State) : Out :=
  let d := dieAt s die
  if 8 ≤ die ∨ d.inReset = true then .fault .noSuchAgent
  else if d.pReady || decide (s.c.cycle < d.bornAt + 256 * 300) then .next s
  else
    let s1 := (List.range 256).foldl (fun s i => setPlane s die i { planeAt s die i with round := (planeAt s 8 i).round }) s
    let s2 := (List.range 8).foldl (fun s l => setPtr s die l (ptrAt s 8 l)) s1
    .next (postEvent (setDie s2 die { d with pReady := true }) { evZero with kind := 0x08, die := die, cause := 5 })

end Sys2Proof.Machine
end

