-- ==== Sys2Proof/Machine/Lanes.lean ====
section
/-!
DEFINITION. Lane operations: exchange, votes, matches, reductions and scans within a lane group (R222 to R229).
-/
namespace Sys2Proof.Machine

/-- The participants of lane group `g`, ascending (R223). -/
def groupLanes (s : State) (pid g : Nat) : List Nat := (pathMask s pid).lanes.filter (fun l => l / 32 == g)

/-- The lane index that `lanex` reads for lane index `k` under count `n` (R225). -/
def lanexIndex (md k n : Nat) : Nat :=
  let m := 2 ^ min n 5 - 1
  match md with
  | 0 => n % 32
  | 1 => (k + 32 - n % 32) % 32
  | 2 => k ^^^ m
  | _ => k - (k &&& m)

/-- R225: each lane takes the value of a lane of its own group, or its fallback. -/
def execLanex (f : Form) (s : State) : Out :=
  laneOp f s (fun c => formTy c f) fun c l =>
    let t := formTy c f
    let j := l / 32 * 32 + lanexIndex (modOf f) (l % 32) (zx 32 (src s c f 1 .i32 false l))
    if (pathMask s c.pid).getLsbD j then src s c f 0 t false j else src s c f 2 t false l

/-- The operand type of `vote` and `match`. -/
def voteTy (c : Ctx) (f : Form) : Ty :=
  match f with
  | .p _ => if modOf f == 3 then opndTy c f 0 .i32 else .i1
  | .n _ => formTy c f

/-- R226. -/
def voteVal (md : Nat) (vs : List (Nat × Word)) : Word :=
  match md with
  | 0 => boolWord (vs.all (fun v => v.2.getLsbD 0))
  | 1 => boolWord (vs.any (fun v => v.2.getLsbD 0))
  | 2 => Mask.of ((vs.filter (fun v => v.2.getLsbD 0)).map (fun v => v.1 % 32))
  | _ => boolWord (vs.all (fun v => v.2 == ((vs.head?).map (·.2)).getD 0))

/-- R226. -/
def execVote (f : Form) (s : State) : Out :=
  laneOp f s (fun _ => if modOf f = 2 then .i32 else .i1) fun c l =>
    voteVal (modOf f) ((groupLanes s c.pid (l / 32)).map (fun j => (j, src s c f 0 (voteTy c f) false j)))

/-- R227. -/
def execMatchLanes (f : Form) (s : State) : Out :=
  laneOp f s (fun _ => .i32) fun c l =>
    let t := match f with | .p _ => opndTy c f 0 .i32 | .n _ => formTy c f
    Mask.of (((groupLanes s c.pid (l / 32)).filter (fun j => src s c f 0 t false j == src s c f 0 t false l)).map (· % 32))

/-! ### Reductions and scans (R228, R229) -/

/-- The control of `lgred` and `lgscan`: immediate B, or AUX[3:0]. -/
def controlOf (f : Form) : Nat :=
  match f with
  | .p w => immNat w.b
  | .n w => (w.aux.extractLsb' 0 4).toNat

/-- Combines two values of a type under operation `md` (R228), with the flags that it raises. -/
def combine (t : Ty) (md ctl : Nat) (a b : Word) : Word × Flags :=
  let m := fmtOf t
  let w := tyWidth t
  if isFloat t then
    wordOf (match md with
      | 0 => m.add { rnd := { mode := ctl / 2, u := 0 }, sat := false, ftz := false } a.toNat b.toNat
      | 1 => m.minMax false false a.toNat b.toNat
      | _ => m.minMax true false a.toNat b.toNat)
  else
    (match md with
      | 0 => addVal 0 w a b
      | 1 => minVal 0 w a b
      | 2 => minVal 1 w a b
      | 3 => maxVal 0 w a b
      | 4 => maxVal 1 w a b
      | 5 => andVal w a b
      | 6 => orVal w a b
      | _ => xorVal w a b, fNone)

/-- The identity of an exclusive scan (R228). -/
def scanIdentity (t : Ty) (md : Nat) : Word :=
  let m := fmtOf t
  let w := tyWidth t
  if isFloat t then
    (match md with | 0 => 0 | 1 => BitVec.ofNat 64 (m.infCode false) | _ => BitVec.ofNat 64 (m.infCode true))
  else match md with
    | 1 => wrap w ((2 ^ (w - 1) : Nat) - 1)
    | 2 => wrap w (-1)
    | 3 => wrap w (2 ^ (w - 1) : Nat)
    | 5 => wrap w (-1)
    | _ => 0

/-- Combines two places of the tree; an absent one drops out unchanged (R229). -/
def combineOpt (t : Ty) (md ctl : Nat) (a b : Option (Word × Flags)) : Option (Word × Flags) :=
  match a, b with
  | none, b => b
  | a, none => a
  | some x, some y => let r := combine t md ctl x.1 y.1; some (r.1, x.2 ||| y.2 ||| r.2)

/-- One level of the pairwise tree. -/
def treeLevel (t : Ty) (md ctl : Nat) : List (Option (Word × Flags)) → List (Option (Word × Flags))
  | a :: b :: r => combineOpt t md ctl a b :: treeLevel t md ctl r
  | r => r

/-- The tree over 32 lane indices: five levels (R229). -/
def treeReduce (t : Ty) (md ctl : Nat) (n : List (Option (Word × Flags))) : Word × Flags :=
  let l := treeLevel t md ctl
  ((l (l (l (l (l n))))).head?.bind id).getD (0, 0)

/-- A scan in ascending lane order: the results by lane, and the flags of every combination. -/
def scanFrom (t : Ty) (md ctl : Nat) : Option Word → Flags → List (Nat × Word) → List (Nat × Word) × Flags
  | _, fl, [] => ([], fl)
  | acc, fl, (l, v) :: r =>
    let n := match acc with | none => (v, fNone) | some a => combine t md ctl a v
    let d := if ctl % 2 = 1 then acc.getD (scanIdentity t md) else n.1
    let rest := scanFrom t md ctl (some n.1) (fl ||| n.2) r
    ((l, d) :: rest.1, rest.2)

/-- How a reduction reads its operand's special values (R30). -/
def groupSigned (md : Nat) : Bool := md == 1 || md == 3

/-- R229: the tree reduction of each lane group; its flags are raised in every participant. -/
def execLgred (f : Form) (s : State) : Out :=
  issuing f s fun c =>
    let t := formTy c f
    let res := fun g =>
      treeReduce t (modOf f) (controlOf f) ((List.range 32).map (fun k =>
        if (pathMask s c.pid).getLsbD (g * 32 + k)
        then some (src s c f 0 t (groupSigned (modOf f)) (g * 32 + k), fNone) else none))
    let r0 := res 0
    let r1 := res 1
    .next (withFlags s c f t 0x03 ((pathMask s c.pid).lanes.map (fun l => if l < 32 then (l, r0) else (l, r1))))

/-- R229: the scan of each lane group. -/
def execLgscan (f : Form) (s : State) : Out :=
  issuing f s fun c =>
    let t := formTy c f
    let res := fun g =>
      let r := scanFrom t (modOf f) (controlOf f) none 0
        ((groupLanes s c.pid g).map (fun l => (l, src s c f 0 t (groupSigned (modOf f)) l)))
      r.1.map (fun e => (e.1, e.2, r.2))
    .next (withFlags s c f t 0x03 (res 0 ++ res 1))

end Sys2Proof.Machine
end

