-- ==== Sys2Proof/Machine/Native.lean ====
section
/-!
DEFINITION. The native-only operations (R149 to R157), and the rebuilding of the virtual state at a point of a native
image from its waybill (R159 to R161).
-/
namespace Sys2Proof.Machine

/-! ### Data movers (R154) -/

/-- The bytes of the stacks of a warp in its core's scratchpad (R128). -/
def inStackArea (s : State) (w pa n : Nat) : Bool :=
  let base := (warpAt s w).stackBase
  decide (base ≤ pa) && decide (pa + n ≤ base + stackSize s w * Config.lanes (dieOfCore (coreOfWarp w)))

/-- Physical address of spill slot `k` of lane `lane`, in the frame (MOD 0) or in the outgoing one (MOD 1). -/
def spillPa (s : State) (c : Ctx) (f : NForm) (k lane : Nat) : Nat :=
  let base := if f.md = 0 then (readSreg s c.pid 126).toNat
    else physStack s c.warp ((readSreg s c.pid 127 + readSreg s c.pid 124).toNat + 16)
  base + k * (Config.lanes c.die * 4) + lane * 4

/-- Number of 32-bit words that NTYPE moves. -/
def moveWords (f : NForm) : Nat := if f.ntype = 4 then 2 else 1

/-- Lanes whose spill address lies beyond the stack area: they raise a scratch address fault. -/
def spillBad (s : State) (c : Ctx) (f : NForm) : List (Nat × Word) :=
  ((pathMask s c.pid).lanes.filter (fun l => !(List.range (moveWords f)).all (fun j =>
    inStackArea s c.warp (spillPa s c f (f.aux.toNat + j) l) 4))).map
    (fun l => (l, BitVec.ofNat 64 (spillPa s c f f.aux.toNat l)))

/-- The moved value in a spill slot of a lane. -/
def spillRead (s : State) (c : Ctx) (f : NForm) (lane : Nat) : Word :=
  BitVec.ofNat 64 (((List.range (moveWords f)).map (fun j =>
    scrRead s (coreOfWarp c.warp) (spillPa s c f (f.aux.toNat + j) lane) 4 * 2 ^ (32 * j))).sum)

/-- R154. -/
def execSpill (f : NForm) (s : State) : Out :=
  issuing (.n f) s fun c =>
    let bad := spillBad s c f
    .next (if !bad.isEmpty then raise s c (.n f) (addrTrap 0x0C 3 bad) else
      let ls := (pathMask s c.pid).lanes
      let put : State → Nat → Nat → State := fun t l j =>
        scrWrite t (coreOfWarp c.warp) (spillPa s c f (f.aux.toNat + j) l) 4
          ((nativeVal s c l f.sa.toNat (formTy c (.n f))).toNat / 2 ^ (32 * j))
      finish (ls.foldl (fun t l => (List.range (moveWords f)).foldl (fun t j => put t l j) t) s) c (.n f))

/-- R154. -/
def execFill (f : NForm) (s : State) : Out :=
  issuing (.n f) s fun c =>
    let bad := spillBad s c f
    .next (if !bad.isEmpty then raise s c (.n f) (addrTrap 0x0C 3 bad) else
      finish (putLanes s c.pid (dstOf c (.n f) (formTy c (.n f)))
        ((pathMask s c.pid).lanes.map (fun l => (l, spillRead s c f l)))) c (.n f))

/-- R154. -/
def execVmov (f : NForm) (s : State) : Out :=
  issuing (.n f) s fun c =>
    .next (finish (putLanes s c.pid (dstOf c (.n f) (formTy c (.n f)))
      ((pathMask s c.pid).lanes.map (fun l => (l, nativeVal s c l f.sa.toNat (formTy c (.n f)))))) c (.n f))

/-- The image that a path executes, with the index of its bundle. -/
def imageOf (s : State) (pid : Nat) : Option (TImage × Nat) :=
  match (pathAt s pid).pc with
  | .word _ => none
  | .bundle key ix => (imageAt s (clusterOf (coreOfPath pid)) key).map (fun t => (t, ix))

/-- The literal of a path's image. -/
def literalAt (s : State) (pid j : Nat) : Word := ((imageOf s pid).map (fun t => nth t.1.literals 0 j)).getD 0

/-- R154. -/
def execSmov (f : NForm) (s : State) : Out :=
  issuing (.n f) s fun c =>
    let t := formTy c (.n f)
    let v := if f.md = 0 then nativeVal s c (firstLane s c.pid) f.sa.toNat t else literalAt s c.pid f.aux.toNat
    .next (finish (putLanes s c.pid (dstOf c (.n f) t) [(firstLane s c.pid, v)]) c (.n f))

/-- R154. -/
def execV2s (f : NForm) (s : State) : Out :=
  issuing (.n f) s fun c =>
    let t := formTy c (.n f)
    let v : Word := if f.md = 0 then nativeVal s c (firstLane s c.pid) f.sa.toNat t
      else Mask.of ((pathMask s c.pid).lanes.filter (fun l => (nativeVal s c l f.sa.toNat .i1).getLsbD 0))
    .next (finish (putLanes s c.pid (dstOf c (.n f) t) [(firstLane s c.pid, v)]) c (.n f))

/-- R154. -/
def execS2v (f : NForm) (s : State) : Out :=
  issuing (.n f) s fun c =>
    let v := nativeVal s c (firstLane s c.pid) f.sa.toNat .i64
    .next (finish (putLanes s c.pid (dstOf c (.n f) .i32)
      ((pathMask s c.pid).lanes.map (fun l => (l, if v.getLsbD l then 1 else 0)))) c (.n f))

/-- A bit of a scalar register named by DST and AUX. -/
def bitDst (f : NForm) : Dst := .sbit (f.dst.toNat - 1536) (f.aux.toNat % 64)

/-- R154. -/
def execPset (f : NForm) (s : State) : Out :=
  issuing (.n f) s fun c =>
    let v : Word := if f.sa = 2047 then 1 else nativeVal s c (firstLane s c.pid) f.sa.toNat .i1
    .next (finish (putLanes s c.pid (bitDst f) [(firstLane s c.pid, v)]) c (.n f))

/-- R154. -/
def execPclr (f : NForm) (s : State) : Out :=
  issuing (.n f) s fun c => .next (finish (putLanes s c.pid (bitDst f) [(firstLane s c.pid, 0)]) c (.n f))

/-- R60. -/
def execBnop (f : NForm) (s : State) : Out :=
  issuing (.n f) s fun c => .next (finish s c (.n f))

/-- The check of one lane's word of a record in global memory. -/
def entryChk (s : State) (c : Ctx) (a : Word) (n : Nat) : Chk :=
  if a.toNat % n ≠ 0 then .bad 5 0
  else if a.extractLsb' 57 7 != 0 || a.getLsbD 56 then .bad 6 0
  else chkVirt s (coreOfWarp c.warp) c.ctx (pathAt s c.pid).noFix a .rd

/-- The words of one lane's restored value, as `fill` reads a spill slot (R154). -/
def entryWords (s : State) (c : Ctx) (f : NForm) (lane : Nat) : List LaneChk :=
  let base := nativeVal s c (firstLane s c.pid) f.sa.toNat .i64
  (List.range (moveWords f)).map (fun j =>
    let a := base + BitVec.ofNat 64 ((f.aux.toNat + j) * (Config.lanes c.die * 4) + lane * 4)
    { lane := lane, va := a, chk := entryChk s c a 4 })

/-- R154, R361: a restored value from the record; the path holds until its data; a fault fails the gang. -/
def execEntry (f : NForm) (s : State) : Out :=
  issuing (.n f) s fun c =>
    let xs := (pathMask s c.pid).lanes.flatMap (entryWords s c f)
    let word : LaneChk → Nat := fun x => match x.chk with
      | .loc (.mem h ord) => leNat (cacheRead s (coreOfWarp c.warp) h 4 ord)
      | _ => 0
    .next (match firstKind xs with
      | some k => failGang s c.gang (0x100 + k) ((((xs.filter (fun x => badKind x == some k)).head?).map (·.va)).getD 0)
      | none =>
        if xs.any (fun x => x.chk == .miss) then missWalk s c (.n f) xs else
        finish (putLanes s c.pid (dstOf c (.n f) (formTy c (.n f))) ((pathMask s c.pid).lanes.map (fun l =>
          let ws := (entryWords s c f l).map word
          (l, BitVec.ofNat 64 (nth ws 0 0 + 2 ^ 32 * nth ws 0 1))))) c (.n f))

/-! ### Splits, joins, counters (R155, R156) -/

/-- The bundle index T or J of two fields. -/
def bundleIx (hi : BitVec 11) (lo : Nat) : Nat := hi.toNat * 2048 + lo

/-- Where the path goes when its bundle ends. -/
def setTarget (s : State) (p : Pc) : State :=
  { s with c := { s.c with issue := s.c.issue.map (fun i => { i with target := some p }) } }

/-- A bundle of the translation that a path executes. -/
def bundlePc (s : State) (pid ix : Nat) : Pc :=
  match (pathAt s pid).pc with
  | .bundle key _ => .bundle key ix
  | .word v => .word v

/-- R155: the split happens when the other slots of the bundle have acted. -/
def execPathSplit (f : NForm) (s : State) : Out :=
  issuing (.n f) s fun c =>
    let m := pathMask s c.pid
    let taken := Mask.of (m.lanes.filter (fun l => (nativeVal s c l f.sa.toNat .i1).getLsbD 0))
    let tgt := bundlePc s c.pid (bundleIx f.dst f.sc.toNat)
    let join : JoinPt := match bundlePc s c.pid (bundleIx f.sb (f.aux.toNat % 2048)) with
      | .bundle key ix => .bundle key ix
      | .word v => .block v
    .next (finish (if taken = 0 then s else
      { s with c := { s.c with issue := s.c.issue.map (fun i => { i with fork := some (taken, tgt, join) }) } }) c (.n f))

/-- R155: at its join bundle the path waits; elsewhere it passes. -/
def execPathJoin (f : NForm) (s : State) : Out :=
  issuing (.n f) s fun c =>
    .next (if atJoin s (pathAt s c.pid) then hold s c.pid (.n f) .join else finish s c (.n f))

/-- R156. -/
def execWaitCnt (f : NForm) (s : State) : Out :=
  issuing (.n f) s fun c =>
    .next (if countersAt (warpAt s c.warp) f.md f.aux.toNat then finish s c (.n f)
      else hold s c.pid (.n f) (.counters f.md f.aux.toNat))

/-! ### Transfers (R157) -/

/-- The base translation of a resume translation (R138): MODE 2 resumes a normal one, 3 a plain one. -/
def baseKey (k : TKey) : TKey := { k with mode := k.mode - 2, rpc := 0 }

/-- A path goes to a bundle of a key; without a usable translation it holds and misses (R163). -/
def goKey (s : State) (c : Ctx) (f : Form) (key : TKey) (ix : Nat) (k : State → State) : State :=
  match imageAt s (clusterOf (coreOfWarp c.warp)) key with
  | none => missKey s c.pid f key
  | some _ => finish (setTarget (k s) (.bundle key ix)) c f

/-- R157. -/
def execJmp (f : NForm) (s : State) : Out :=
  issuing (.n f) s fun c =>
    let t := bundleIx f.dst f.sc.toNat
    .next (match (pathAt s c.pid).pc with
      | .word _ => finish s c (.n f)
      | .bundle key _ =>
        if f.md = 2 then goKey s c (.n f) (baseKey key) t id
        else
          let i := if f.md = 1 then min (nativeVal s c (firstLane s c.pid) f.sa.toNat .i32).toNat f.aux.toNat else 0
          finish (setTarget s (.bundle key (t + i))) c (.n f))

/-- Changes the path registers of a path. -/
def setPathRegs (s : State) (pid : Nat) (s124 s125 s126 s127 : Word) : State :=
  updPath s pid (fun p => { p with s124 := s124, s125 := s125, s126 := s126, s127 := s127 })

/-- A native call made: link, stack pointer, and the virtual frame of the callee. -/
def linkCall (s : State) (c : Ctx) (f : NForm) (fn bx : Nat) : State :=
  let q := pathAt s c.pid
  let v := trapVpc s c (.n f)
  let m := funcAt c.module v.fn
  let wants := if (funcAt c.module fn).result.isSome then some (defsBefore c.module m.code v.ix) else none
  let s1 := startDivCall s c.pid
  let fr : Frame := { fn := fn, callVpc := v, wants := wants, trap := none }
  updPath s1 c.pid (fun p => { p with
    frames := fr :: q.frames
    s125 := linkOf v.fn (bx + 1)
    s127 := readSreg s c.pid 127 + readSreg s c.pid 124 })

/-- R149, R157. -/
def execNcall (f : NForm) (s : State) : Out :=
  issuing (.n f) s fun c =>
    let fn := if f.md = 0 then f.aux.toNat else (nativeVal s c (firstLane s c.pid) f.sa.toNat .i32).toNat
    let ok := decide (fn < c.module.funcs.length) && !(funcAt c.module fn).fflags.getLsbD 2
    let bx := match (pathAt s c.pid).pc with | .bundle _ ix => ix | .word _ => 0
    .next (if !ok then raise s c (.n f) (plainTrap 0x12 (pathMask s c.pid).lanes)
      else if (imageAt s (clusterOf (coreOfWarp c.warp)) (calleeKey s c.gang fn)).isNone && tooLong c.module (calleeKey s c.gang fn)
        then raise s c (.n f) (plainTrap 0x14 (pathMask s c.pid).lanes)
      else if callHeld s c.pid then hold s c.pid (.n f) .callTurn
      else goKey s c (.n f) (calleeKey s c.gang fn) 0 (fun t => linkCall t c f fn bx))

/-- R157, R150: the link is taken, s125 comes back from the caller's header, and s0 receives the return mask. -/
def execNret (f : NForm) (s : State) : Out :=
  issuing (.n f) s fun c =>
    let t := readSreg s c.pid 125
    .next (if t = rootLink then endAfter s
      else goKey s c (.n f) (calleeKey s c.gang (linkFn t)) (linkBx t) (fun u =>
        let h := getHeader s c.warp (firstLane s c.pid) (readSreg s c.pid 127).toNat
        let u1 := endDivCall (setSreg u c.pid 0 (pathMask s c.pid)) c.pid (c.depth - 1)
        updPath u1 c.pid (fun p => { p with frames := p.frames.drop 1, s125 := h.1 })))

/-- A stack limit met by a `frame.enter`: the caller's registers stand as before its call, and the trap is at that call;
a kernel's own is reported at its first instruction (R157). -/
def stackLimit (s : State) (c : Ctx) : State :=
  let q := pathAt s c.pid
  let link := readSreg s c.pid 125
  let sp := readSreg s c.pid 127 - readSreg s c.pid 124
  let t := plainTrap 0x13 q.mask.lanes
  match q.frames with
  | [] =>
    let k := { t with vpc := VPC.of c.fn (blockEntry c.func.code 0) }
    { s with c := { s.c with issue := s.c.issue.map (fun i => { i with trap := some k }) } }
  | fr :: rest =>
    let h := getHeader s c.warp (firstLane s c.pid) sp.toNat
    let s1 := endDivCall (updPath s c.pid (fun p => { p with frames := rest, s127 := sp, s125 := h.1 })) c.pid rest.length
    let k := { t with vpc := fr.callVpc }
    let back := Pc.bundle (calleeKey s c.gang (linkFn link)) (linkBx link - 1)
    { s1 with c := { s1.c with issue := s1.c.issue.map (fun i => { i with trap := some k, target := some back }) } }

/-- R157. -/
def execFrameEnter (f : NForm) (s : State) : Out :=
  issuing (.n f) s fun c =>
    let size := 16 + 4 * f.aux.toNat
    let sp := readSreg s c.pid 127
    let fb := readSreg s c.pid 124
    .next (if sp.toNat + size > stackSize s c.warp then stackLimit s c else
      let s1 := putHeader s c.warp sp.toNat (readSreg s c.pid 125) (sp - fb) fb (pathMask s c.pid).lanes
      let base := BitVec.ofNat 64 (physStack s1 c.warp (sp.toNat + 16))
      finish (updPath s1 c.pid (fun p => { p with s124 := BitVec.ofNat 64 size, s126 := base })) c (.n f))

/-- R157. -/
def execFrameLeave (f : NForm) (s : State) : Out :=
  issuing (.n f) s fun c =>
    let h := getHeader s c.warp (firstLane s c.pid) (readSreg s c.pid 127).toNat
    let base := BitVec.ofNat 64 (physStack s c.warp (h.2.1.toNat + 16))
    .next (finish (updPath s c.pid (fun p => { p with s127 := h.2.1, s124 := h.2.2, s126 := base })) c (.n f))

/-! ### The virtual state at a point (R159 to R161) -/

/-- Where a value lies once callee-saved registers are followed: a register, a bit, a stack offset, a word of the restore area. -/
inductive AbsLoc where
  | vreg (r : Nat)
  | sreg (r : Nat)
  | sbit (r b : Nat)
  | stack (o : Nat)
  | area (k : Nat)
  deriving DecidableEq, Repr

/-- Registers of a frame that lie elsewhere now: source code and place (R160, R161). -/
abbrev RegMap := List (Nat × AbsLoc)

/-- The place of register code `code` (R51) as a frame sees it. -/
def regPlace (m : RegMap) (code : Nat) : AbsLoc :=
  match m.find? (fun e => e.1 == code) with
  | some e => e.2
  | none => if code < 1536 then .vreg code else .sreg (code - 1536)

/-- The place of a location entry in a frame whose stack pointer is `sp`, for codes 0 to 3 and 7. In the first record of a resume
translation, code 3 names a word of the restore area (R160). -/
def entryPlace (m : RegMap) (sp : Nat) (first : Bool) (e : LocEntry) : Option AbsLoc :=
  match e.lcode with
  | 0 => some (regPlace m (e.loc % 2048))
  | 1 => some (regPlace m (1536 + e.loc % 128))
  | 2 => match regPlace m (1536 + e.loc / 64 % 128) with
    | .sreg r => some (.sbit r (e.loc % 64))
    | .stack o => some (.stack (o + e.loc % 64 / 32 * 4))
    | p => some p
  | 3 => some (if first then .area (e.loc % 4096) else .stack (sp + 16 + 4 * (e.loc % 4096)))
  | 7 => some (regPlace m (e.loc % 2048))
  | _ => none

/-- A lane's word of the restore area, from s123 in global memory (R148, R154). -/
def areaWord (s : State) (pid lane k : Nat) : Nat :=
  let w := warpOfPath pid
  let a := getSreg s pid 123 + BitVec.ofNat 64 (k * (Config.lanes (dieOfPath pid) * 4) + lane * 4)
  match kernelXlate s (gangAt s (warpAt s w).gang).ctx a .rd with
  | .ok (h, _) => readMem s h 4
  | .error _ => 0

/-- The bits at a place in a lane, 64 of them. -/
def placeVal (s : State) (pid lane : Nat) (bit : Nat) (p : AbsLoc) : Word :=
  let w := warpOfPath pid
  match p with
  | .vreg r => BitVec.ofNat 64 ((getVreg s w r lane).toNat + 2 ^ 32 * (getVreg s w (r + 1) lane).toNat)
  | .sreg r => getSreg s pid r
  | .sbit r b => (getSreg s pid r >>> b) &&& 1
  | .stack o => BitVec.ofNat 64 ((stackWord s w lane o + 2 ^ 32 * stackWord s w lane (o + 4)) / 2 ^ (bit % 32))
  | .area k => BitVec.ofNat 64 (areaWord s pid lane k + 2 ^ 32 * areaWord s pid lane (k + 1))

/-- Evaluates one defining instruction of the pure families, for a rematerialised value (LCODE 5). -/
def evalPure (i : Instr) (s : State) : Out :=
  match i with
  | .const f => execConst f s
  | .add f => execAdd f s
  | .sub f => execSub f s
  | .mul f => execMul f s
  | .mulhi f => execMulhi f s
  | .mad f => execMad f s
  | .div f => execDiv f s
  | .rem f => execRem f s
  | .neg f => execNeg f s
  | .abs f => execAbs f s
  | .min f => execMin f s
  | .max f => execMax f s
  | .and f => execAnd f s
  | .or f => execOr f s
  | .xor f => execXor f s
  | .andn f => execAndn f s
  | .not f => execNot f s
  | .shl f => execShl f s
  | .shr f => execShr f s
  | .rotl f => execRotl f s
  | .rotr f => execRotr f s
  | .popc f => execPopc f s
  | .clz f => execClz f s
  | .ctz f => execCtz f s
  | .brev f => execBrev f s
  | .bfx f => execBfx f s
  | .bfi f => execBfi f s
  | .ext f => execExt f s
  | .trunc f => execTrunc f s
  | .icmp f => execIcmp f s
  | .adr f => execAdr f s
  | .bsel f => execBsel f s
  | .select f => execSelect f s
  | .sreg f => execSreg f s
  | .fneg f => execFneg f s
  | .fabs f => execFabs f s
  | .fcopysign f => execFcopysign f s
  | .fclass f => execFclass f s
  | .fadd f => execFadd f s
  | .fsub f => execFsub f s
  | .fmul f => execFmul f s
  | .fdiv f => execFdiv f s
  | .fsqrt f => execFsqrt f s
  | .fma f => execFma f s
  | .fmin f => execFmin f s
  | .fmax f => execFmax f s
  | .fcmp f => execFcmp f s
  | .fcvt f => execFcvt f s
  | .frint f => execFrint f s
  | .fcvti f => execFcvti f s
  | .icvtf f => execIcvtf f s
  | .fscaleb f => execFscaleb f s
  | .flogb f => execFlogb f s
  | .pk8 f => execPk8 f s
  | .upk8 f => execUpk8 f s
  | .bscale f => execBscale f s
  | _ => .next s

/-- A rematerialised value: its defining word is evaluated on the rebuilt values, and the path stays where it is. -/
def remat (s : State) (pid fn ix : Nat) (frames : List Frame) : State :=
  let q := pathAt s pid
  let code := (funcAt (ctxOf s pid).module fn).code
  match instrAt code ix with
  | .error _ => s
  | .ok i =>
    let at_ : Issue := { pid := pid, latch := none, hold := none, trap := none, target := none, fork := none, ended := false }
    let s1 := updPath s pid (fun p => { p with pc := .word (VPC.of fn ix), frames := frames })
    match evalPure i { s1 with c := { s1.c with issue := some at_ } } with
    | .next t => { setPath t pid q with c := s.c }
    | _ => s

/-- One listed value of a frame at depth `frames.length` is rebuilt in every lane of the path. -/
def rebuildOne (s : State) (pid fn : Nat) (frames : List Frame) (m : RegMap) (sp : Nat) (first : Bool) (e : LocEntry) : State :=
  let c := ctxOf s pid
  let f := funcAt c.module fn
  let t := (tyOfCode (nth f.types 0 (tyOf (nth f.code 0 (nth (defWords c.module f.code) 0 e.vnum)))).toNat).getD .none
  let put : State → Word → Nat → State := fun s v l => setVal s (threadKey pid l) frames.length e.vnum (lowBits (tyWidth t) v)
  match entryPlace m sp first e with
  | some p => (pathMask s pid).lanes.foldl (fun s l => put s (placeVal s pid l (if e.lcode = 2 then e.loc % 64 else 0) p) l) s
  | none =>
    if e.lcode = 4 then
      let v : Word := if e.loc / 2 ^ 35 % 2 = 0 then nth f.consts 0 (e.loc % 4096)
        else (BitVec.ofNat 32 e.loc).signExtend 64
      (pathMask s pid).lanes.foldl (fun s l => put s v l) s
    else if e.lcode = 5 then remat s pid fn (e.loc % 2 ^ 20) frames
    else s

/-- The values that a point record lists, in value order. -/
def rebuildFrame (s : State) (pid fn : Nat) (frames : List Frame) (m : RegMap) (sp : Nat) (first : Bool) (r : PointRec) : State :=
  (r.locs.filter (fun e => decide (e.vnum < 0xFFF000))).foldl (fun s e => rebuildOne s pid fn frames m sp first e) s

/-- The caller's registers: those that the record names lie where it says, the others where they lay. -/
def callerMap (m : RegMap) (sp : Nat) (r : PointRec) : RegMap :=
  (r.locs.filter (fun e => decide (0xFFF000 ≤ e.vnum))).filterMap (fun e =>
    (entryPlace m sp false e).map (fun p => (e.vnum - 0xFFF000, p))) ++ m

/-- The outer frames of a path, from the innermost outwards, each at the call point of its `call` (R159). -/
def rebuildOuter (s : State) (pid : Nat) : List Frame → Nat → RegMap → State
  | [], _, _ => s
  | fr :: rest, sp, m =>
    let fn := VPC.fn fr.callVpc
    let up := (getHeader s (warpOfPath pid) (firstLane s pid) sp).2.1.toNat
    match (imageAt s (clusterOf (coreOfPath pid)) (calleeKey s (ctxOf s pid).gang fn)).bind
        (fun t => t.points.find? (fun r => r.kind != 0 && r.vpc == fr.callVpc)) with
    | none => s
    | some r => rebuildOuter (rebuildFrame s pid fn rest m up false r) pid rest up (callerMap m up r)

/-- The state of a native path rebuilt at a point of its bundle: `kind` 0 the boundary, 1 to 3 a slot's trap (R161). The
path then stands at the virtual PC of the point. A path at a word stands there already. -/
def rebuild (s : State) (pid kind : Nat) : State :=
  match imageOf s pid with
  | none => s
  | some (t, ix) =>
    match t.points.find? (fun r => r.bidx == ix && r.kind == kind) with
    | none => s
    | some r =>
      let q := pathAt s pid
      let sp := q.s127.toNat
      let s1 := rebuildFrame s pid (VPC.fn r.vpc) q.frames [] sp (decide (2 ≤ t.key.mode) && ix == 0) r
      let s2 := rebuildOuter s1 pid q.frames sp (callerMap [] sp r)
      updPath s2 pid (fun p => { p with pc := .word r.vpc })

end Sys2Proof.Machine
end

