-- ==== Sys2Proof/Machine/Endpoint.lean ====
section
/-!
DEFINITION. The endpoints of the management kernels: how a request is received, refused and answered (R391 to R396),
the die descriptor (R18), the rings of records, and the names of launches and paths in requests.
-/
namespace Sys2Proof.Machine

/-- Whether die 8 serves the endpoint of a request, and whether a die in recovery answers it (R392, R397). -/
structure Serve where
  die8 : Bool
  recovery : Bool
  deriving DecidableEq, Repr

def shaderOnly : Serve := { die8 := false, recovery := false }
def everyDie : Serve := { die8 := true, recovery := false }
def fwServe : Serve := { die8 := true, recovery := true }

/-- The STATUS with which a request is turned away before its own checks: 4 malformed, 3 die in reset, 2 not ready
(R392, R394, R397). -/
def turnedAway (s : State) (h : Hdr) (v : Serve) : Option Nat :=
  let d := dieAt s h.die
  if 8 < h.die ∨ 64 ≤ h.ctx ∨ (h.die = 8 ∧ v.die8 = false) then some 4
  else if d.inReset then some 3
  else if !v.recovery && (d.fw.recovery || !d.dieReady) then some 2
  else none

/-- A REQUEST: turned away, refused with the first failure code, or carried out (R392). -/
def request (s : State) (h : Hdr) (v : Serve) (check : Option Nat) (effect : State) : Out :=
  .next (match turnedAway s h v with
    | some st => reply s h st 0 0 []
    | none => match check with
      | some code => refuse s h code
      | none => effect)

/-- The first code of a list of failed checks. -/
def firstFail : List (Bool × Nat) → Option Nat
  | [] => none
  | (bad, code) :: r => if bad then some code else firstFail r

/-- The die descriptor (R18); in recovery CLRDY and MCHRDY are zero (R397). -/
def descriptor (s : State) (die : Nat) : Word :=
  let d := dieAt s die
  let k := Config.dieKind die
  let cl := if k = 2 ∨ d.fw.recovery then 0 else d.clrdy.toNat
  let mch := if k = 2 ∨ d.fw.recovery then 0 else 8 * ((List.range 8).filter (fun i => d.mchGroups.getLsbD i)).length
  BitVec.ofNat 64 (die % 16 * 2 ^ 56 + k * 2 ^ 52 + (3 - k) * 2 ^ 48 + Config.lanes die * 2 ^ 40 + cl * 2 ^ 32
    + Config.vregs die * 2 ^ 21 + (if k = 2 then 0 else 96) * 2 ^ 12 + Config.accs die * 2 ^ 8 + mch)

/-- Writes bytes into a ring at byte offset `off`, around its end; a byte whose page has gone is not written. -/
def ringPut (s : State) (r : RecRing) (off : Nat) (bs : List Byte) : State :=
  let put : State → Nat → List Byte → State := fun s o b =>
    match kernelWrite s r.ctx (r.base + BitVec.ofNat 64 o) b with
    | .ok t => t
    | .error (t, _) => t
  let k := r.size - off % r.size
  put (put s (off % r.size) (bs.take k)) 0 (bs.drop k)

/-- A range mapped local with the rights that a kernel use needs, page by page. -/
def rangeLocal (s : State) (ctx : Nat) (rs : List Right) (base : Word) (len : Nat) : Bool :=
  let first := base.toNat / 65536
  decide (base.toNat + len ≤ 2 ^ 56) && (List.range ((base.toNat + len + 65535) / 65536 - first)).all (fun i =>
    match walkVa s ctx (BitVec.ofNat 64 ((first + i) * 65536)) with
    | .leaf e _ => pteKind e == 0 && rs.all (fun r => hasRight r e)
    | .fault _ _ => false)

/-- The checks of a ring request (R395 code 0x60). -/
def ringCheck (s : State) (ctx : Nat) (base size : Word) : Option Nat :=
  firstFail [(base.toNat % 64 != 0, 0x60), (decide (size.toNat < 4096) || size.toNat % 64 != 0, offCode 0x60 8),
    (!rangeLocal s ctx [.wr] base size.toNat, 0x60)]

/-- Launches of a LAUNCHID in a context that have not retired. -/
def launchesNamed (s : State) (h : Hdr) (id : Word) : List (Nat × Launch) :=
  s.h.launches.filter (fun l => l.2.die == h.die && l.2.ctx == ctxKey h && lrId l.2.record == id && !l.2.retired)

/-- Whether a gang is resident: placed, and neither captured nor retired. -/
def isResident (g : Gang) : Bool := match g.state with | .captured => false | .retired => false | _ => true

/-- Resident gangs of a launch. -/
def launchGangs (s : State) (l : Nat) : List Nat :=
  (s.x.gangs.filter (fun g => g.2.launch == l && isResident g.2)).map (·.1)

/-- The path that a path record names (R373). -/
def namedPath (s : State) (p : PathName) : Option Nat :=
  let w := ((p.die * 4 + p.cluster) * 96 + p.core) * 16 + p.warp
  ((pathsOf s w).find? (fun q => match q.2.slotIx with
    | some i => i == p.pidx
    | none => p.pidx == 0xFF && q.2.mask == p.mask)).map (·.1)

end Sys2Proof.Machine
end

