-- ==== Sys2Proof/Machine/Debug.lean ====
section
/-!
DEFINITION. Debugging and the manifest: `brk`, `dbg.mark`, `rdclk`, `rdcnt` and `sys`, stops, steps, lane focus,
breakpoints and watchpoints, and the latch and rings of the manifest (R372 to R389, R401, R416 to R419).
-/
namespace Sys2Proof.Machine

/-! ### Path records (R373) -/

/-- Whether a gang is one that a debugger acts on: its launch carries the debug flag and its context has a debugger
attached (R372). -/
def debugged (s : State) (gang : Nat) : Bool :=
  let g := gangAt s gang
  lrDebug (launchAt s g.launch).record && (ctxAt s g.ctx).debugger && isResident g

/-- Block of a function that holds the word at a virtual PC. -/
def blockNumber (s : State) (pid : Nat) (v : VPC) : Nat :=
  blockOf (funcAt (ctxOf s pid).module v.fn).code v.ix

/-- The JOIN field. -/
def joinField (s : State) (pid : Nat) : Nat :=
  match (pathAt s pid).split.bind (s.x.splits.find? ·) with
  | none => 0x2000
  | some k => match k.join with
    | .exit => 0x1000
    | .block v => blockNumber s pid v % 4096
    | .after v => blockNumber s pid v % 4096
    | .bundle key ix => blockNumber s pid (pcVpc s { pathAt s pid with pc := .bundle key ix }) % 4096

/-- The STALL field: 9 while a debugger holds the path, else the code of its wait (R387). -/
def stallField (p : Path) : Nat := if p.held then 9 else match p.wait with | none => 0 | some w => stallCode w

/-- Position on the pending-path stack, from the oldest. -/
def stackPos (s : State) (pid : Nat) : Nat :=
  let p := pathAt s pid
  if p.slotIx.isSome then 0xFFFF
  else ((pathsOf s (warpOfPath pid)).filter (fun q => q.2.slotIx.isNone && decide (q.2.seq < p.seq))).length

/-- The 32 bytes of a path record. -/
def pathRecord (s : State) (pid : Nat) : BitVec 256 :=
  let p := pathAt s pid
  let core := coreOfPath pid
  let state := if p.parked then 2 else if p.slotIx.isNone then 3 else if p.held then 1 else 0
  BitVec.ofNat 256 (core / 384 + 2 ^ 8 * (core % 96 + 128 * (core / 96 % 4)) + 2 ^ 24 * (pid / 64 % 16)
    + 2 ^ 32 * stackPos s pid + 2 ^ 48 * (p.slotIx.getD 0xFF) + 2 ^ 56 * state + 2 ^ 64 * stallField p
    + 2 ^ 96 * joinField s pid + 2 ^ 112 * p.dbgInfo.toNat + 2 ^ 128 * p.dbgCause.toNat + 2 ^ 144 * p.skid
    + 2 ^ 160 * (pcVpc s p).toNat + 2 ^ 192 * p.mask.toNat)

/-- A record as 64-bit words. -/
def recordWords (r : BitVec 256) : List Word := (List.range 4).map (fun i => r.extractLsb' (64 * i) 64)

/-- The 48 bytes of a hit record (R417). -/
def hitWords (h : WatchRec) : BitVec 384 :=
  BitVec.ofNat 384 (h.widx + 2 ^ 64 * (h.die % 16) + 2 ^ 72 * h.warp
    + 2 ^ 80 * (h.acore % 96 + 128 * (h.acore / 96 % 4)) + 2 ^ 96 * h.lane + 2 ^ 104 * h.kind.toNat + 2 ^ 128 * h.hits
    + 2 ^ 160 * h.vpc.toNat + 2 ^ 192 * h.addr.toNat + 2 ^ 256 * h.before.toNat + 2 ^ 320 * h.after.toNat)

/-! ### Stops (R374, R375, R379) -/

/-- The breakpoint that a path is about to meet, with its index (R375). -/
def atBreakpoint (s : State) (pid : Nat) : Option (Nat × Breakpoint) :=
  let p := pathAt s pid
  let gang := (warpAt s (warpOfPath pid)).gang
  let v := pcVpc s p
  if !debugged s gang || p.skipBp == some v || !atInstruction s pid p then none else
  let ctx := (gangAt s gang).ctx
  (s.d.bps.first (fun b => b.1 / 64 == ctx && b.2.vpc == v)).map (fun b => (b.1 % 64, b.2))

/-- The paths that a stop holds: path, gang or cluster scope, of debug gangs of one context (R374). -/
def scopePaths (s : State) (scope ctx cluster : Nat) (gangs pids : List Nat) : List Nat :=
  let all := s.x.paths.filter (fun p => debugged s (warpAt s (p.1 / 64)).gang)
  match scope with
  | 0 => (all.filter (fun p => pids.contains p.1)).map (·.1)
  | 1 => (all.filter (fun p => gangs.contains (warpAt s (p.1 / 64)).gang)).map (·.1)
  | _ => (all.filter (fun p => (gangAt s (warpAt s (p.1 / 64)).gang).ctx == ctx && clusterOf (p.1 / 1024) == cluster)).map (·.1)

/-- A path that is held or halted withdraws an unpaired swap, a waiting `bx.shape` and an `sf.load`, and stands before them; what it
has begun and cannot withdraw it completes first (R115, R238, R280, R356). -/
def standDown (s : State) (pid : Nat) : State :=
  if midBundle s pid then s else
  updPath (withdrawLoad (withdrawShapes (withdrawSwap s pid) pid) pid) pid (fun p => match p.wait with
    | some .partner => { p with wait := none }
    | some (.bxTurn _ _) => { p with wait := none }
    | some (.sfBusy _) => { p with wait := none }
    | _ => p)

/-- A path is held with a CAUSE bit; INFO is that of the lowest bit that carries one. A breakpoint at the boundary on which
it stands is noted with it (R380). -/
def holdPath (s : State) (pid bit : Nat) (info : BitVec 16) : State :=
  let p := pathAt s pid
  let bp := atBreakpoint s pid
  let cause : BitVec 16 := p.dbgCause ||| (1#16 <<< bit) ||| (if bp.isSome then 1 else 0)
  let i : BitVec 16 := match bp with
    | some b => BitVec.ofNat 16 b.1
    | none => if bit ≤ 2 ∧ (p.dbgCause &&& 7 = 0 ∨ bit < 1 ∨ (bit < 2 ∧ !p.dbgCause.getLsbD 0)) then info else p.dbgInfo
  updPath (standDown s pid) pid (fun q => { q with held := true, dbgCause := cause, dbgInfo := i })

/-- The stop report: one record for each path of each stopped warp, and the hits (R373, R417). -/
def stopReport (s : State) (ctx : Nat) (pids : List Nat) (hits : List WatchRec) : State :=
  let ws := sortDistinct (pids.map warpOfPath)
  let rs := ws.flatMap (fun w => (pathsOf s w).map (fun p => pathRecord s p.1))
  { s with h := { s.h with out := s.h.out ++ [.stop ctx rs (hits.map hitWords)] } }

/-- A stop is reported once its paths have completed what they had begun (R280, R356, R373). -/
def reportStop (s : State) (ctx : Nat) (pids : List Nat) (hits : List WatchRec) : State :=
  if pids.any (midBundle s) then { s with d := { s.d with stops := s.d.stops ++ [{ ctx := ctx, pids := pids, hits := hits }] } }
  else stopReport s ctx pids hits

/-- The stops that can be reported now. -/
def settleStops (s : State) : State :=
  s.d.stops.foldl (fun t r => reportStop t r.ctx r.pids r.hits) { s with d := { s.d with stops := [] } }

/-- A stop of some paths. -/
def stopPaths (s : State) (ctx : Nat) (pids : List Nat) (bit : Nat) (info : BitVec 16) (hits : List WatchRec) : State :=
  reportStop (pids.foldl (fun t p => holdPath t p bit info) s) ctx pids hits

/-- Whether the issue that is under way belongs to a path. -/
def dropIssue (s : State) (pid : Nat) : State :=
  match s.c.issue with
  | some i => if i.pid = pid then endIssue s else s
  | none => s

/-- R375: the path stands before the bundle, and the paths of the breakpoint's scope are held. -/
def execBreakpointHit (pid : Nat) (s : State) : Out :=
  match atBreakpoint s pid with
  | none => .fault .noSuchAgent
  | some (i, b) =>
    let gang := (warpAt s (warpOfPath pid)).gang
    let ctx := (gangAt s gang).ctx
    let pids := scopePaths s b.scope ctx (clusterOf (coreOfPath pid)) [gang] [pid]
    .next (stopPaths (dropIssue s pid) ctx pids 0 (BitVec.ofNat 16 i) [])

/-- The path of a warp that a lane lies in. -/
def pathOfLane (s : State) (w lane : Nat) : List Nat :=
  ((pathsOf s w).filter (fun p => p.2.mask.getLsbD lane)).map (·.1)

/-- The gangs on a core. -/
def gangsOnCore (s : State) (core : Nat) : List Nat :=
  sortDistinct ((s.x.warps.filter (fun w => coreOfWarp w.1 == core)).map (fun w => w.2.gang))

/-- The paths that a hit's watchpoint stops. -/
def hitPaths (s : State) (cluster : Nat) (h : WatchRec) : List Nat :=
  match s.d.watches.find? (cluster * 8 + h.widx) with
  | none => []
  | some w =>
    let core := h.die * 384 + h.acore
    let pids := if h.lane = 0xFF then [] else pathOfLane s (core * 16 + h.warp) h.lane
    let gangs := if h.lane = 0xFF then gangsOnCore s core else [(warpAt s (core * 16 + h.warp)).gang]
    scopePaths s w.scope w.ctx cluster gangs pids

/-- R379: the hits of a cluster that have not been reported stop the paths of their scopes; one report gives them all,
in watchpoint order. -/
def execWatchHit (cluster : Nat) (s : State) : Out :=
  let new := (List.range 8).flatMap (fun i => s.d.hits.filter (fun h => h.cluster == cluster && h.widx == i && !h.sent))
  let marked := s.d.hits.map (fun h => if h.cluster = cluster then { h with sent := true } else h)
  let s1 : State := { s with d := { s.d with hits := marked } }
  let s2 := new.foldl (fun t h => (hitPaths t cluster h).foldl (fun t p => holdPath t p 2 (BitVec.ofNat 16 h.widx)) t) s1
  let pids := sortDistinct (new.flatMap (hitPaths s cluster))
  let ctx := ((new.head?).bind (fun h => s.d.watches.find? (cluster * 8 + h.widx))).map (·.ctx)
  .next (if pids.isEmpty then s2 else reportStop s2 (ctx.getD 0) pids new)

/-! ### Steps (R376) -/

def setSteps (s : State) (l : List StepReq) : State := { s with d := { s.d with steps := l } }

/-- Step requests whose instruction waits, or has issued, are answered with the path's record. -/
def answerStep (s : State) (pid : Nat) : State :=
  let mine := s.d.steps.filter (fun r => r.pid == pid && !r.sync && r.toks.isNone)
  let rest := s.d.steps.filter (fun r => !(r.pid == pid && !r.sync && r.toks.isNone))
  mine.foldl (fun t r => done t r.h (recordWords (pathRecord t pid))) (setSteps s rest)

/-- `step.sync` learns which entries the stepped instruction reserved. -/
def noteTokens (s : State) (pid : Nat) : State :=
  setSteps s (s.d.steps.map (fun r =>
    if r.pid = pid ∧ r.sync ∧ r.toks.isNone then
      { r with toks := some ((s.e.entries.filter (fun e => decide (r.from_ ≤ e.1))).map (·.1)) }
    else r))

/-- The `step.sync` requests whose tokens are all filled are answered. -/
def syncReplies (s : State) : State :=
  let finished : StepReq → Bool := fun r => match r.toks with
    | none => false
    | some ids => ids.all (fun i => isFilled s i || (s.e.entries.find? i).isNone)
  let rest := setSteps s (s.d.steps.filter (fun r => !finished r))
  (s.d.steps.filter finished).foldl (fun t r => done t r.h (recordWords (pathRecord t r.pid))) rest

/-- After a path has issued or held: a breakpoint that it stood on counts again once it has gone on, and a step ends at
the next boundary, or is answered as soon as its wait has begun (R375, R376). -/
def afterIssue (before s : State) (pid : Nat) : State :=
  let q0 := pathAt before pid
  match s.x.paths.find? pid with
  | none => if q0.stepping then answerStep (noteTokens s pid) pid else s
  | some q =>
    let moved := q.pc != q0.pc || q.wait.isNone || q.frames != q0.frames
    let translating := match q.wait with | some (.miss _) | some (.repair _ _) => true | _ => false
    if !moved then (if q0.stepping && !translating then answerStep s pid else s)
    else if !atInstruction s pid q then s
    else
      let s1 := updPath s pid (fun p => { p with skipBp := none })
      if !q0.stepping then s1
      else
        let trapped := (handlerOf q).isSome && (handlerOf q0).isNone
        let s2 := updPath s1 pid (fun p => { p with
          held := true
          stepping := false
          dbgCause := p.dbgCause ||| 8 ||| (if trapped then 32 else 0) })
        answerStep (noteTokens s2 pid) pid

/-- Whether a path can be stepped, focused or read: it stands held in a gang that its context's debugger acts on. -/
def heldPath (s : State) (h : Hdr) (p : PathName) : Option Nat :=
  (namedPath s p).filter (fun pid => (pathAt s pid).held &&
    (gangAt s (warpAt s (warpOfPath pid)).gang).ctx == ctxKey h && p.die == h.die)

/-- Releases one path for one instruction. -/
def beginStep (s : State) (h : Hdr) (pid : Nat) (sync : Bool) : State :=
  let v := pcVpc s (pathAt s pid)
  let s1 := updPath s pid (fun p => { p with held := false, stepping := true, skipBp := some v, dbgCause := 0, dbgInfo := 0, readyAt := s.c.cycle })
  setSteps s1 (s1.d.steps ++ [{ h := h, pid := pid, sync := sync, from_ := s1.c.nextId, toks := none }])

/-- The check that a debugger is attached to the request's context (R395 code 0x55). -/
def notAttached (s : State) (h : Hdr) : Bool := !(ctxAt s (ctxKey h)).debugger

def stepCheck (s : State) (h : Hdr) (p : PathName) : Option Nat :=
  firstFail [(notAttached s h, 0x55), ((heldPath s h p).isNone, 0x57)]

/-- R376. -/
def execDebugStep (h : Hdr) (p : PathName) (s : State) : Out :=
  request s h shaderOnly (stepCheck s h p) (beginStep s h ((heldPath s h p).getD 0) false)
/-- R376. -/
def execStepSync (h : Hdr) (p : PathName) (s : State) : Out :=
  request s h shaderOnly (stepCheck s h p) (beginStep s h ((heldPath s h p).getD 0) true)

/-! ### Debug requests (R372, R374, R393, R416, R419) -/

def attachSet (s : State) (h : Hdr) (on : Bool) : State :=
  done (setCtx s (ctxKey h) { ctxAt s (ctxKey h) with debugger := on }) h []

/-- R372. -/
def execDebugAttach (h : Hdr) (s : State) : Out := request s h shaderOnly none (attachSet s h true)
/-- R372. -/
def execDebugDetach (h : Hdr) (s : State) : Out :=
  request s h shaderOnly (firstFail [(notAttached s h, 0x55)]) (attachSet s h false)

/-- R375: the breakpoint holds for every debug launch of the context. -/
def execDebugBreakpoint (h : Hdr) (index : Nat) (vpc : BitVec 32) (scope : Nat) (s : State) : Out :=
  let set : State := { s with d := { s.d with bps := s.d.bps.ins (ctxKey h * 64 + index) { vpc := vpc, scope := scope } } }
  request s h shaderOnly (firstFail [(notAttached s h, 0x55), (decide (63 < index), 0x56),
      (decide (2 < scope), offCode 0x56 5)]) (done set h [])

/-- Whether an address and kinds break R416. -/
def watchBad (addr : Word) (kinds : Byte) : Bool :=
  kinds.extractLsb' 3 5 != 0 || addr.extractLsb' 60 3 != 0 ||
    (addr.getLsbD 63 && addr.extractLsb' 32 24 != 0) ||
    !([0, 1, 2, 3, 15].contains (addr.extractLsb' 56 4).toNat)

/-- The clusters of a die that a watched address selects. -/
def watchClusters (die : Nat) (addr : Word) : List Nat :=
  let k := (addr.extractLsb' 56 4).toNat
  (if k = 15 then List.range 4 else [k]).map (fun c => die * 4 + c)

/-- A watchpoint is armed; under a read watch no cluster cache of the die holds the line (R378). -/
def armWatch (s : State) (h : Hdr) (index : Nat) (addr : Word) (kinds : Byte) (scope : Nat) : State :=
  let w : Watchpoint := { ctx := ctxKey h, addr := addr, kinds := kinds, scope := scope }
  let ws := (watchClusters h.die addr).foldl (fun m c => SMap.ins m (c * 8 + index) w) s.d.watches
  let s1 : State := { s with d := { s.d with watches := ws } }
  match watchHome s1 w with
  | some a => if kinds.getLsbD 0 then dropLine s1 h.die a else s1
  | none => s1

/-- R416. -/
def execDebugWatchpoint (h : Hdr) (index : Nat) (addr : BitVec 64) (kinds : BitVec 8) (scope : Nat) (s : State) : Out :=
  request s h shaderOnly
    (firstFail [(watchBad addr kinds, offCode 0x53 1), (addr.extractLsb' 0 3 != 0, offCode 0x54 1), (notAttached s h, 0x55),
      (decide (7 < index), 0x56), (decide (2 < scope), offCode 0x56 10)])
    (done (armWatch s h index addr kinds scope) h [])

/-- The debug launches of a LAUNCHID in the request's context, with their resident gangs. -/
def debugLaunch (s : State) (h : Hdr) (id : Word) : List Nat :=
  ((launchesNamed s h id).filter (fun l => lrDebug l.2.record)).flatMap (fun l => launchGangs s l.1)

/-- The paths that a stop or release of a launch names: of its gangs, or in cluster scope of every debug gang of the context
on their clusters. A request has no triggering path, and path scope names its gangs (log 40). -/
def launchPaths (s : State) (h : Hdr) (id : Word) (scope : Nat) : List Nat :=
  let gs := debugLaunch s h id
  if scope = 2 then sortDistinct ((sortDistinct (gs.map (fun g => (gangAt s g).cluster))).flatMap (fun c =>
    scopePaths s 2 (ctxKey h) c [] []))
  else scopePaths s 1 (ctxKey h) 0 gs []

def coresOf (pids : List Nat) : List Nat := sortDistinct (pids.map coreOfPath)

/-- R374: paths are held; with the freeze option their cores' engines start no command. -/
def stopEffect (s : State) (h : Hdr) (id : Word) (scope : Nat) (freeze : Bool) : State :=
  let pids := launchPaths s h id scope
  let s1 := stopPaths s (ctxKey h) pids 4 0 []
  let fr := if freeze then sortDistinct (s1.d.frozen ++ coresOf pids) else s1.d.frozen
  done { s1 with d := { s1.d with frozen := fr } } h []

def scopeCheck (s : State) (h : Hdr) (id : Word) (scope : Nat) : Option Nat :=
  firstFail [(notAttached s h || (debugLaunch s h id).isEmpty, 0x55), (decide (2 < scope), offCode 0x56 8)]

/-- R374. -/
def execDebugStop (h : Hdr) (launchId : BitVec 64) (scope : Nat) (freeze : Bool) (s : State) : Out :=
  request s h shaderOnly (scopeCheck s h launchId scope) (stopEffect s h launchId scope freeze)

/-- A warp's focus ends: its parked path is a pending path again (R377). -/
def endFocus (s : State) (w : Nat) : State :=
  if (pathsOf s w).any (fun p => p.2.focus || p.2.parked) then
    fillTable ((pathsOf s w).foldl (fun t p => updPath t p.1 (fun q => { q with focus := false, parked := false })) s) w
  else s

/-- The save-region room of a moved gang's record is freed on its source when the gang is first released (R408). -/
def freeMoved (s : State) (g : Nat) : State :=
  match s.h.captures.find? g with
  | some r => if r.ctx / 64 = (gangAt s g).die then s else
      let s1 := freeSave s r.ctx r.off
      { s1 with h := { s1.h with captures := s1.h.captures.del g } }
  | none => s

/-- R374, R419: every focus on the released cores ends, the paths resume, the engines are unfrozen, and the hits of the
stop are over. -/
def releaseEffect (s : State) (h : Hdr) (id : Word) (scope : Nat) : State :=
  let pids := launchPaths s h id scope
  let cores := coresOf pids
  let ws := (s.x.warps.filter (fun w => cores.contains (coreOfWarp w.1))).map (·.1)
  let s1 := ws.foldl endFocus s
  let s2 := pids.foldl (fun t p => updPath t p (fun q => { q with
    held := false, stepping := false, dbgCause := 0, dbgInfo := 0, skid := 0, skipBp := some (pcVpc t q), readyAt := s.c.cycle })) s1
  let cls := sortDistinct (cores.map clusterOf)
  let hits := s2.d.hits.filter (fun x => !cls.contains x.cluster)
  let s3 : State := { s2 with d := { s2.d with hits := hits, frozen := s2.d.frozen.filter (fun c => !cores.contains c) } }
  done ((debugLaunch s h id).foldl freeMoved s3) h []

/-- R374. -/
def execDebugRelease (h : Hdr) (launchId : BitVec 64) (scope : Nat) (freeze : Bool) (s : State) : Out :=
  let _ := freeze
  request s h shaderOnly (scopeCheck s h launchId scope) (releaseEffect s h launchId scope)

/-- R377, R419: the named lane keeps the path's table entry; the other lanes are parked, oldest on the pending-path stack. -/
def focusEffect (s : State) (h : Hdr) (pid : Nat) (m : Mask) : State :=
  let p := pathAt s pid
  let w := warpOfPath pid
  let rest := p.mask &&& ~~~m
  let s1 := setPath s pid { p with mask := m, focus := true }
  let s2 := if rest = 0 then s1 else
    setPath s1 (freePath s1 w) { p with mask := rest, slotIx := none, seq := 0, parked := true, dbgCause := p.dbgCause ||| 64 }
  done s2 h (recordWords (pathRecord s2 pid))

/-- Whether a mask names exactly one lane, and one of the path. -/
def oneLane (p : Path) (m : Mask) : Bool := m.lanes.length == 1 && (m &&& ~~~p.mask == 0)

/-- R419. -/
def execDebugFocus (h : Hdr) (p : PathName) (s : State) : Out :=
  let w := ((p.die * 4 + p.cluster) * 96 + p.core) * 16 + p.warp
  if p.mask = 0 then
    request s h shaderOnly (firstFail [(notAttached s h, 0x55), ((pathsOf s w).isEmpty, 0x57)]) (done (endFocus s w) h [])
  else match namedPath s { p with mask := (pathAt s ((namedPath s p).getD 0)).mask } with
    | none => request s h shaderOnly (firstFail [(notAttached s h, 0x55), (true, 0x57)]) s
    | some pid =>
      let q := pathAt s pid
      let focused := (pathsOf s w).any (fun x => x.2.focus)
      request s h shaderOnly
        (firstFail [(!q.held, 0x50), (!oneLane q p.mask, offCode 0x51 24), (focused, 0x52), (notAttached s h, 0x55),
          ((gangAt s (warpAt s (warpOfPath pid)).gang).ctx != ctxKey h, 0x57)])
        (focusEffect s h pid p.mask)

/-- R393: each named value in each lane of the path, 8 bytes a lane, as its waybill rebuilds it (R161). -/
def execReadValues (h : Hdr) (p : PathName) (values : List Nat) (s : State) : Out :=
  let pid := (heldPath s h p).getD 0
  let t := rebuild s pid 0
  let q := pathAt s pid
  request s h shaderOnly (stepCheck s h p)
    (done s h (values.flatMap (fun v => q.mask.lanes.map (fun l => getVal t (threadKey pid l) q.frames.length v))))

/-! ### The manifest (R383 to R387) -/

/-- The header of a manifest record (R385). -/
def mfHeader (kind len src tick drop : Nat) : List Byte :=
  leBytes 1 kind ++ leBytes 3 0 ++ leBytes 2 len ++ leBytes 2 src ++ leBytes 4 tick ++ leBytes 4 drop

/-- A record is written whole into the die's ring, with the count of those dropped before it; one that finds no room is
dropped (R384). -/
def writeManifest (s : State) (die kind len src : Nat) (body : List Byte) : State :=
  let d := dieAt s die
  match d.mfRing with
  | none => setDie s die { d with mfDrop := d.mfDrop + 1 }
  | some r =>
    if r.size < r.wr - r.rd + len then setDie s die { d with mfDrop := d.mfDrop + 1 } else
    let bs := mfHeader kind len src (tick s) d.mfDrop ++ body ++ List.replicate (len - 16 - body.length) 0
    let s1 := ringPut s r r.wr bs
    setDie s1 die { dieAt s1 die with mfDrop := 0, mfRing := some { r with wr := r.wr + len } }

/-- The SRC field. -/
def mfSrc (die cluster core : Nat) : Nat := core % 128 + 128 * (cluster % 4) + 512 * (die % 16)

/-- An interval count: what a running counter has gained since the last latch, saturated (R383). -/
def interval (now old : Nat) : Nat := min (now - old) (2 ^ 32 - 1)

/-- The counters of one agent as bytes. -/
def mfCounts (s : State) (run : SMap Nat) (off : Nat) (keys : List Nat) : List Byte :=
  keys.flatMap (fun k => leBytes 4 (interval (run.getD 0 k) (s.d.latched.getD 0 (k + off))))

/-- The records of one die in the order die, clusters, cores. -/
def latchDie (s : State) (die : Nat) : State :=
  let s1 := writeManifest s die 4 128 (mfSrc die 0 0x7F) (mfCounts s s.d.dcnt (2 ^ 33) ((List.range 8).map (fun i => die * 16 + i)))
  if die = 8 then s1 else
  let s2 := (List.range 4).foldl (fun t c => writeManifest t die 2 64 (mfSrc die c 0x7F)
    (mfCounts s s.d.ccnt (2 ^ 32) ((List.range 10).map (fun i => (die * 4 + c) * 64 + 32 + i)))) s1
  (List.range 384).foldl (fun t k => writeManifest t die 1 128 (mfSrc die (k / 96) (k % 96))
    (mfCounts s s.d.cnt 0 ((List.range 23).map (fun i => (die * 384 + k) * 64 + i)))) s2

/-- Whether the frame that has just begun is a latch frame (R383). -/
def latchFrame (s : State) : Bool :=
  decide (300 * s.pl.fc.toNat / 2 ^ s.c.mfK > 300 * (s.pl.fc.toNat - 1) / 2 ^ s.c.mfK) && s.pl.fc != 0

/-- R383: every die that has a ring writes its records; every die latches all of its counters. -/
def execManifestLatch (s : State) : Out :=
  let s1 := (List.range 9).foldl (fun t d =>
    if (dieAt t d).inReset || (dieAt t d).mfRing.isNone then t else latchDie t d) s
  let now := s.d.dcnt.foldl (fun m e => SMap.ins m (e.1 + 2 ^ 33) e.2)
    (s.d.ccnt.foldl (fun m e => SMap.ins m (e.1 + 2 ^ 32) e.2) s.d.cnt)
  .next { s1 with d := { s1.d with latched := now } }

/-- R383. -/
def execManifestPeriod (h : Hdr) (k : Nat) (s : State) : Out :=
  request s h everyDie (firstFail [(decide (k < 10) || decide (24 < k) || h.die != 8, 0x62)])
    (done { s with c := { s.c with mfK := k } } h [])

/-- R384. -/
def execManifestRing (h : Hdr) (base size : BitVec 64) (s : State) : Out :=
  let r : RecRing := { ctx := ctxKey h, base := base, size := size.toNat, wr := 0, rd := 0 }
  request s h everyDie (ringCheck s (ctxKey h) base size)
    (done (setDie s h.die { dieAt s h.die with mfRing := some r }) h [])

/-- R384. -/
def execManifestReadIndex (h : Hdr) (index : BitVec 64) (s : State) : Out :=
  let d := dieAt s h.die
  let set := setDie s h.die { d with mfRing := d.mfRing.map (fun r => { r with rd := index.toNat }) }
  let bad := match d.mfRing with | none => true | some r => decide (r.wr < index.toNat)
  request s h everyDie (firstFail [(bad, 0x61)]) (done set h [])

/-! ### Instructions (R381, R382, R388, R389, R401) -/

/-- The code of `brk`, `dbg.mark`, `sys`: A, or AUX[10:0]. -/
def codeOf (f : Form) : Nat := match f with | .p w => immNat w.a | .n w => w.aux.toNat % 2048

/-- R381: in a gang that a debugger acts on, a stop of gang scope at the boundary after `brk` (log 41). -/
def execBrk (f : Form) (s : State) : Out :=
  issuing f s fun c =>
    let s1 := finish s c f
    .next (if debugged s c.gang then
      stopPaths s1 c.ctx (scopePaths s1 1 c.ctx 0 [c.gang] []) 1 (BitVec.ofNat 16 (codeOf f))
        []
    else s1)

/-- Cycles of a die since it left reset (R388). -/
def dieCycle (s : State) (die : Nat) : Nat := s.c.cycle - (dieAt s die).bornAt

/-- R382: a marker record of 48 bytes: value, die cycle count, VPC, code (log 42). -/
def execDbgMark (f : Form) (s : State) : Out :=
  issuing f s fun c =>
    let k := match f with | .p _ => 1 | .n _ => 0
    let t := opndTy c f k (formTy c f)
    let v := if hasOpnd f k then src s c f k t false (firstLane s c.pid) else 0
    let core := coreOfWarp c.warp
    .next (finish (writeManifest s c.die 3 48 (mfSrc c.die (core / 96 % 4) (core % 96))
      (leBytes 8 v.toNat ++ leBytes 8 (dieCycle s c.die) ++ leBytes 4 (trapVpc s c f).toNat ++ leBytes 2 (codeOf f))) c f)

/-- Package time as `rdclk.pkg` gives it: FC[56:0] and the plane cycle (R388). -/
def packageTime (s : State) (die : Nat) : Word :=
  let fc := match s.pl.dieFc.find? die with | some v => v.toNat | none => s.pl.fc.toNat
  BitVec.ofNat 64 (fc % 2 ^ 57 * 128 + min 74 ((s.c.cycle - s.c.frameAt) / 4))

/-- R388. -/
def execRdclk (f : Form) (s : State) : Out :=
  issuing f s fun c =>
    let v := if modOf f = 0 then BitVec.ofNat 64 (dieCycle s c.die) else packageTime s c.die
    .next (finish (putLanes s c.pid (dstOf c f .i64) ((pathMask s c.pid).lanes.map (fun l => (l, v)))) c f)

/-- R389. -/
def execRdcnt (f : Form) (s : State) : Out :=
  issuing f s fun c =>
    let i := match f with | .p w => immNat w.a | .n w => w.aux.toNat % 64
    let core := coreOfWarp c.warp
    let v := if i < 32 then s.d.cnt.getD 0 (core * 64 + i) else s.d.ccnt.getD 0 (clusterOf core * 64 + i)
    .next (finish (putLanes s c.pid (dstOf c f .i64)
      ((pathMask s c.pid).lanes.map (fun l => (l, BitVec.ofNat 64 v)))) c f)

/-- Whether a record that a die posts now is folded into a counting record (R368). -/
def wouldFold (s : State) (die : Nat) (r : BitVec 256) : Bool :=
  let d := dieAt s die
  decide (256 ≤ d.held.length) && (foldRecord d r).held.length == d.held.length

/-- R401: after every earlier access has performed, as `fence.sc.sys` does. -/
def execSys (f : Form) (s : State) : Out :=
  issuing f s fun c =>
    let k := match f with | .p _ => 1 | .n _ => 0
    let arg := if hasOpnd f k then src s c f k .i64 false (firstLane s c.pid) else 0
    let put : State → Word → State := fun t v =>
      finish (putLanes (dropLines t (clusterOf (coreOfWarp c.warp)) false) c.pid (dstOf c f .i64)
        ((pathMask s c.pid).lanes.map (fun l => (l, v)))) c f
    .next (if 3 ≤ codeOf f then raise s c f (plainTrap 0x10 (pathMask s c.pid).lanes)
      else if !(warpAt s c.warp).inflight.isEmpty then hold s c.pid f .drained
      else match codeOf f with
        | 0 => put s (descriptor s c.die)
        | 1 => put s (BitVec.ofNat 64 (dieAt s c.die).sensors.watts)
        | _ =>
          let e := { gangFields s c.gang 0x40 0 with addr := arg, tenant := 0 }
          put (postEvent s e) (if wouldFold s c.die (evRecord (tick s) e) then 1 else 0))

end Sys2Proof.Machine
end

