-- ==== Sys2Proof/Machine/Translate.lean ====
section
/-!
DEFINITION. The translation caches and stores, misses and repairs (R62, R138 to R141, R162 to R165), and the selection of
the path that issues (R339, R340).
-/
namespace Sys2Proof.Machine

/-! ### Keys and images -/

/-- The key of the translation that a path executes (R138, R140). -/
def pathKey (s : State) (pid : Nat) : TKey :=
  match (pathAt s pid).pc with
  | .bundle key _ => key
  | .word v => wordKey s pid v

/-- The module that a key names on a die. -/
def keyModule (s : State) (die : Nat) (k : TKey) : Module :=
  match s.h.modules.first (fun m => m.2.die == die && m.2.mhash == k.mhash) with
  | some (_, m) => m
  | none => moduleZero

/-- Cycles of a translation: ⌈180 + 2.5·N + 10·B + 24·S⌉ (R164). -/
def translateTime (s : State) (die : Nat) (k : TKey) : Nat :=
  let c := translateCounts (keyModule s die k) k
  (360 + 5 * c.1 + 20 * c.2.1 + 48 * c.2.2 + 1) / 2

/-- Cycles of a store copy: ⌈400 + bytes / 64⌉ (R164). -/
def storeTime (t : TImage) : Nat := 400 + (imgLen t + 63) / 64

/-- The store's copy of a key, if its check code holds (R163). -/
def storeImage (s : State) (die : Nat) (k : TKey) : Option TImage :=
  (dieAt s die).store.find? (fun t => t.key == k && imageGood t)

/-! ### Trace records (R165) -/

/-- The 32 bytes of a trace record. -/
def traceRecord (s : State) (cluster : Nat) (k : TKey) (ev dur lines : Nat) : BitVec 256 :=
  let other := (clusterAt s cluster).cache.any (fun t =>
    t.key != k && { t.key with cap := 0 } == ({ k with cap := 0 } : TKey))
  BitVec.ofNat 256 (0x20 + 2 ^ 8 * ((if other then 2 else 0) + 4 * (cluster % 4) + 16 * ev) + 2 ^ 16 * (lines % 65536)
    + 2 ^ 32 * (dur % 2 ^ 32) + 2 ^ 64 * (dieCycle s (cluster / 4) % 2 ^ 64) + 2 ^ 128 * (keyBits k).toNat)

/-- Posts a trace record when tracing is on, or for a launch with the debug flag. -/
def postTrace (s : State) (cluster : Nat) (k : TKey) (ev dur lines : Nat) (debug : Bool) : State :=
  if (dieAt s (cluster / 4)).traceOn || debug then postRecord s (cluster / 4) (traceRecord s cluster k ev dur lines) else s

/-! ### Cache and store (R162, R163) -/

/-- Whether some path of a cluster has its PC in an image; paths held at a miss do not count (R162). -/
def pinned (s : State) (cluster : Nat) (k : TKey) : Bool :=
  s.x.paths.any (fun p => clusterOf (p.1 / 1024) == cluster && pathKey s p.1 == k &&
    (match p.2.wait with | some (.miss _) => false | _ => true))

/-- Writes an image to the die's store as its most recently used, dropping the least recently used beyond 2 GiB. `debug` marks
the work of a launch with the debug flag (R165). -/
def storePut (s : State) (cluster : Nat) (t : TImage) (debug : Bool) : State :=
  let die := cluster / 4
  let d := dieAt s die
  let l := t :: d.store.filter (fun u => u.key != t.key)
  let keep := fitting 8388608 l
  let s1 := setDie s die { d with store := keep }
  (l.drop keep.length).foldl (fun s u => postTrace (countCluster s cluster 36 1) cluster u.key 4 0 (imgLines u) debug) s1
where
  /-- The longest front part of a list that fits. -/
  fitting (room : Nat) : List TImage → List TImage
    | [] => []
    | t :: ts => if imgLines t ≤ room then t :: fitting (room - imgLines t) ts else []

/-- Whether `n` lines from line `a` are free of the images of a cache of 16,384 lines. -/
def runFree (ts : List TImage) (n a : Nat) : Bool :=
  decide (a + n ≤ 16384) && ts.all (fun t => decide (a + n ≤ t.line) || decide (t.line + imgLines t ≤ a))

/-- The lowest run of `n` contiguous free lines: it begins at line 0 or behind an image (R162). -/
def findLines (ts : List TImage) (n : Nat) : Option Nat :=
  let cands := (0 :: ts.map (fun t => t.line + imgLines t)).filter (runFree ts n)
  cands.foldl (fun o a => some (min a (o.getD a))) none

/-- Evicts unpinned entries, least recently used first, until there is a run for an image of `n` lines; each goes to the store if
the store lacks it. The list holds the entries from the least recently used (R163). -/
def evictFor (cluster n : Nat) (debug : Bool) : List TImage → State → State
  | [], s => s
  | t :: ts, s =>
    let cl := clusterAt s cluster
    if (findLines cl.cache n).isSome then s
    else if pinned s cluster t.key then evictFor cluster n debug ts s
    else
      let s1 := setCluster s cluster { cl with cache := cl.cache.filter (fun u => u.key != t.key) }
      let s2 := postTrace (countCluster s1 cluster 35 1) cluster t.key 3 0 (imgLines t) debug
      evictFor cluster n debug ts
        (if (dieAt s2 (cluster / 4)).store.any (fun u => u.key == t.key) then s2 else storePut s2 cluster t debug)

/-- Places an image in a cluster's cache as its most recently used, if it fits. What was evicted for it stays evicted. -/
def cachePut (s : State) (cluster : Nat) (t : TImage) (debug : Bool) : State × Bool :=
  let s1 := evictFor cluster (imgLines t) debug (clusterAt s cluster).cache.reverse s
  let cl := clusterAt s1 cluster
  match findLines cl.cache (imgLines t) with
  | some a => (setCluster s1 cluster { cl with cache := { t with line := a } :: cl.cache.filter (fun u => u.key != t.key) }, true)
  | none => (s1, false)

/-- A path enters a key, by a call, a return, `jmp.base`, at its start or when it resumes: the entry becomes the most recently used
(R162). -/
def touchImage (s : State) (cluster : Nat) (k : TKey) : State :=
  let cl := clusterAt s cluster
  match cl.cache.find? (fun t => t.key == k) with
  | none => s
  | some t => setCluster s cluster { cl with cache := t :: cl.cache.filter (fun u => u.key != k) }

/-! ### Misses (R163, R164) -/

/-- Whether a miss is served by a store copy rather than by the translator. -/
def fromStore (s : State) (cluster : Nat) (m : MissRec) : Bool := (storeImage s (cluster / 4) m.key).isSome

/-- Misses are taken in arrival order: one by the translator, up to four by store copies. -/
def acceptMisses (s : State) (cluster : Nat) : State :=
  let cl := clusterAt s cluster
  let take : List MissRec → MissRec → List MissRec := fun done m =>
    let running := (done ++ cl.misses).filter (fun x => x.accepted.isSome && fromStore s cluster x == fromStore s cluster m)
    let room := if fromStore s cluster m then 4 else 1
    done ++ [if m.accepted.isNone && decide ((running.eraseDups).length < room) then { m with
      accepted := some s.c.cycle
      due := s.c.cycle + (match storeImage s (cluster / 4) m.key with
        | some i => storeTime i
        | none => translateTime s (cluster / 4) m.key) } else m]
  setCluster s cluster { cl with misses := cl.misses.foldl take [] }

/-- R163: a path holds at a key that its cluster lacks; a miss for a key being served joins it. -/
def execTranslationMiss (pid : Nat) (key : TKey) (s : State) : Out :=
  match s.x.paths.find? pid with
  | none => .fault .noSuchAgent
  | some _ =>
    let cluster := clusterOf (coreOfPath pid)
    let cl := clusterAt s cluster
    let s0 := updPath s pid (fun p => { p with wait := some (.miss key) })
    if (imageAt s cluster key).isSome then .next (wake s pid)
    else
      let s1 := countCluster s0 cluster 32 1
      if cl.misses.any (fun m => m.key == key) then
        .next (setCluster s1 cluster { cl with misses := cl.misses.map (fun m =>
          if m.key = key then { m with waiters := m.waiters ++ [pid] } else m) })
      else
        .next (acceptMisses (setCluster s1 cluster
          { cl with misses := cl.misses ++ [{ key := key, waiters := [pid], accepted := none, due := 0 }] }) cluster)

/-- Whether a path's launch carries the debug flag. -/
def pathDebug (s : State) (pid : Nat) : Bool :=
  lrDebug (launchAt s (gangAt s (warpAt s (warpOfPath pid)).gang).launch).record

/-- The cycle at which a miss is ready, once it has been taken. -/
def missReady (s : State) (m : MissRec) : Bool :=
  m.accepted.isSome && decide (m.due ≤ s.c.cycle)

/-- A function too large to translate fails the gangs that wait to start or resume in it (R158). -/
def failMiss (s : State) (m : MissRec) : State :=
  (sortDistinct (m.waiters.map (fun p => (warpAt s (warpOfPath p)).gang))).foldl (fun t g => failGang t g 0x114 0) s

/-- R163, R164: the store's copy or a new translation enters the cache, the new one also the store, and the paths that wait go on.
An image that finds no room waits. -/
def execTranslationReady (cluster : Nat) (key : TKey) (s : State) : Out :=
  let cl := clusterAt s cluster
  match cl.misses.find? (fun m => m.key == key) with
  | none => .fault .noSuchAgent
  | some m =>
    let die := cluster / 4
    let rest : State → State := fun t =>
      let c := clusterAt t cluster
      acceptMisses (setCluster t cluster { c with misses := c.misses.filter (fun x => x.key != key) }) cluster
    let copy := storeImage s die key
    if copy.isNone && tooLong (keyModule s die key) key then .next (rest (failMiss s m)) else
    let image := copy.getD (translateImage (keyModule s die key) key)
    let debug := m.waiters.any (pathDebug s)
    match cachePut s cluster image debug with
    | (s1, false) => .next s1
    | (s1, true) =>
      let dur := s.c.cycle - m.accepted.getD s.c.cycle
      let s2 := storePut (countCluster s1 cluster (if copy.isSome then 33 else 34) 1) cluster image debug
      let s3 := postTrace s2 cluster key (if copy.isSome then 1 else 2) dur (imgLines image) debug
      let s4 := m.waiters.foldl (fun t p => if (pathAt t p).wait = some (.miss key) then
        touchImage (wake t p) (clusterOf (coreOfPath p)) key else t) s3
      .next (rest s4)

/-! ### Illegal bundles (R62) -/

/-- Whether the bundle at an index may issue. -/
def bundleLegal (t : TImage) (ix : Nat) : Bool :=
  match bundleAt t ix with
  | none => false
  | some b => bundleOk t.key.cap t.key.mode t.literals.length b

/-- Whether a transfer may reach the bundle: kind head or plain (R47). -/
def landable (t : TImage) (ix : Nat) : Bool :=
  match bundleAt t ix with
  | none => false
  | some b => b.kind == 1 || b.kind == 2

/-- Clears a cluster's CLRDY bit, with the not-ready event (R19, R394). -/
def clusterNotReady (s : State) (cluster : Nat) : State :=
  let die := cluster / 4
  let d := dieAt s die
  postEvent (setDie s die { d with clrdy := d.clrdy &&& ~~~(1#4 <<< (cluster % 4)) })
    { evZero with kind := 0x09, die := die, cluster := cluster % 4, cause := 1, addr := BitVec.ofNat 64 (cluster % 4) }

/-- The record of a translation soft error (R424): bytes 13:10 hold the bundle index. -/
def softRecord (s : State) (cluster : Nat) (k : TKey) (ix cause : Nat) : State :=
  postEvent s { evZero with kind := 0x12, die := cluster / 4, cluster := cluster % 4, cause := cause, gx := ix % 65536,
                            gy := ix / 65536, addr := (keyBits k).extractLsb' 64 64, tag := (keyBits k).extractLsb' 0 64 }

/-- R62: the users of the image stand at their boundaries, the image is fetched again or made again, and after the time of that each
path goes on at its virtual PC, rebuilt by the old waybill. A second illegal bundle of the same key fails the translator. The index
is that of the bundle that a path met. -/
def execIllegalBundleRepair (cluster : Nat) (key : TKey) (s : State) : Out :=
  match imageAt s cluster key with
  | none => .fault .noSuchAgent
  | some t =>
    let cl := clusterAt s cluster
    let users := (s.x.paths.filter (fun p => clusterOf (p.1 / 1024) == cluster && pathKey s p.1 == key)).map (·.1)
    let ix := (users.findSome? (fun p => match (pathAt s p).wait with | some (.repair ix _) => some ix | _ => none)).getD 0
    let debug := users.any (pathDebug s)
    if cl.failedKeys.contains key then
      let gangs := sortDistinct (users.map (fun p => (warpAt s (warpOfPath p)).gang))
      let s1 := gangs.foldl (fun s g => failGang s g 7 0) s
      .next (clusterNotReady (postTrace (softRecord s1 cluster key ix 3) cluster key 7 0 (imgLines t) debug) cluster)
    else
      let copy := (storeImage s (cluster / 4) key).filter (fun u =>
        bundleLegal u ix && (!bundleLegal t ix || u.bundles[ix]? != t.bundles[ix]?))
      let image := copy.getD (translateImage (keyModule s (cluster / 4) key) key)
      let due := s.c.cycle + (match copy with
        | some u => storeTime u
        | none => translateTime s (cluster / 4) key)
      let s1 := users.foldl (fun s p => updPath (rebuild s p 0) p (fun q => { q with wait := some (.repair ix due) })) s
      let c1 := clusterAt s1 cluster
      let s2 := (cachePut (setCluster s1 cluster { c1 with cache := c1.cache.filter (fun u => u.key != key),
                                                           failedKeys := key :: c1.failedKeys }) cluster image debug).1
      let s3 := if copy.isSome then s2 else storePut s2 cluster image debug
      let s4 := countCluster (softRecord s3 cluster key ix (if copy.isSome then 1 else 2)) cluster 37 1
      .next (postTrace s4 cluster key (if copy.isSome then 5 else 6) 0 (imgLines image) debug)

/-! ### Issue selection (R339, R340) -/

/-- Paths of a core. -/
def corePaths (s : State) (core : Nat) : List (Nat × Path) := s.x.paths.filter (fun p => p.1 / 1024 == core)

/-- A wait that is over ends: tokens that die leave their queues together, and the path may then stand at its join (R421). -/
def endWait (s : State) (pid : Nat) (w : WaitOn) : State :=
  match w with
  | .dying ids => arrive (wake (popDying s (coreOfPath pid) ids) pid) pid
  | _ => wake s pid

/-- Waits of a core's paths that are over end now: those paths became ready in this cycle. -/
def settleWaits (s : State) (core : Nat) : State :=
  (corePaths s core).foldl (fun t p => match p.2.wait with
    | some w => if waitOver t p.1 w then endWait t p.1 w else t
    | none => t) s

/-- Class of a path: the priority of its launch's queue. -/
def pathClass (s : State) (pid : Nat) : Nat :=
  let l := launchAt s (gangAt s (warpAt s (warpOfPath pid)).gang).launch
  (s.h.queues.getD { prio := 0, launches := [] } (l.die * 64 + l.queue)).prio

/-- Age of a path; after a yield it counts as the youngest (R47). -/
def pathAge (s : State) (p : Path) : Nat := if p.youngest then 0 else s.c.cycle - p.readyAt + 1

/-- Whether path `a` goes before path `b`: the older; ties by warp slot, then by table index. -/
def olderThan (s : State) (a b : Nat × Path) : Bool :=
  let x := pathAge s a.2
  let y := pathAge s b.2
  decide (y < x) || (x == y && (decide (a.1 / 64 < b.1 / 64) ||
    (a.1 / 64 == b.1 / 64 && decide (a.2.slotIx.getD 64 < b.2.slotIx.getD 64))))

def oldestOf (s : State) : List (Nat × Path) → Option (Nat × Path)
  | [] => none
  | p :: ps => some (ps.foldl (fun b q => if olderThan s q b then q else b) p)

/-- The choice of R340 among the ready paths of a core. -/
def choosePath (s : State) (core : Nat) : Option Nat :=
  let ready := (corePaths s core).filter (fun p => isReady s p.1 p.2 && !s.c.tried.contains p.1)
  let aged := ready.filter (fun p => decide (257 ≤ pathAge s p.2))
  let top := (ready.map (fun p => pathClass s p.1)).foldl max 0
  (if aged.isEmpty then oldestOf s (ready.filter (fun p => pathClass s p.1 == top)) else oldestOf s aged).map (·.1)

/-- Whether the power governor keeps a core from issuing in this cycle: at most one bundle every second cycle (R399). -/
def throttled (s : State) (core : Nat) : Bool :=
  let d := dieAt s (dieOfCore core)
  (s.c.pkgThrottle || d.throttle.getLsbD 4 || d.throttle.getLsbD (clusterOf core % 4)) && s.c.cycle % 2 == 1

/-- Stall code of a path that is not ready. -/
def stallOf (p : Path) : Nat := if p.held then 9 else match p.wait with | some w => stallCode w | none => 1

/-- A cycle without issue counts for the path that has been not ready longest (R387). -/
def countStall (s : State) (core : Nat) : State :=
  match corePaths s core with
  | [] => s
  | p :: ps =>
    let w := ps.foldl (fun b q => if q.2.readyAt < b.2.readyAt then q else b) p
    let code := if throttled s core then 8 else stallOf w.2
    let s1 := if code = 7 then countCluster s (clusterOf core) 38 1 else s
    count s1 core code 1

/-- R340: one ready path of the core is chosen to issue. -/
def execIssueSelect (core : Nat) (s : State) : Out :=
  if s.c.issue.isSome then .fault .noSuchAgent else
  let s1 := settleWaits s core
  match (if throttled s1 core then none else choosePath s1 core) with
  | none => .next (countStall s1 core)
  | some pid =>
    let i : Issue := { pid := pid, latch := none, hold := none, trap := none, target := none, fork := none, ended := false }
    .next { updPath s1 pid (fun p => { p with wait := none }) with c := { s1.c with issue := some i } }

end Sys2Proof.Machine
end

