-- ==== Sys2Proof/Machine/Launch.lean ====
section
/-!
DEFINITION. Launches, queues, completion events, placement, dispatch, pre-emption and retirement (R119, R141, R222, R240,
R328 to R338, R356, R364, R414).
-/
namespace Sys2Proof.Machine

/-! ### What a gang needs (R141, R240, R333) -/

/-- Functions that a function of a module can enter: by `call`, or, when it holds `callx`, every callable one (R240). -/
def callees (m : Module) (fn : Nat) : List Nat :=
  let code := (funcAt m fn).code
  let direct := (code.filter (fun w => opcOf w == 0x006)).map (fun w => (w.extractLsb' 32 12).toNat)
  if code.any (fun w => opcOf w == 0x007) then
    direct ++ (List.range m.funcs.length).filter (fun i => !(funcAt m i).fflags.getLsbD 2)
  else direct

/-- The reach of some functions: `n` rounds of adding callees. -/
def reachFrom (m : Module) : Nat → List Nat → List Nat
  | 0, fs => fs
  | n + 1, fs => reachFrom m n (sortDistinct (fs ++ fs.flatMap (callees m)))

/-- The reach of a launch: its kernel function and its handler with all that they can enter (R240). -/
def launchReach (m : Module) (r : BitVec 1024) : List Nat :=
  reachFrom m m.funcs.length (lrFunc r :: (if lrHandler r = 0xFFFF then [] else [lrHandler r]))

/-- Whether some function of a reach holds a word that a test accepts. -/
def reachHas (m : Module) (fs : List Nat) (p : Word → Bool) : Bool := fs.any (fun f => (funcAt m f).code.any p)

def isMxWord (w : Word) : Bool := decide (0x0D0 ≤ opcOf w) && decide (opcOf w ≤ 0x0D6)
def isTableWord (w : Word) : Bool := (opcOf w == 0x0A8 && mdOf w == 6) || opcOf w == 0x0A9

/-- The register cap C of a launch on a die (R141). -/
def capOf (die : Nat) (r : BitVec 1024) : Nat :=
  let l := Config.lanes die
  let w0 := (lrThreads r + l - 1) / l
  let o := lrCapOcc r
  let derived := fun w => Config.vregs die / w / 8 * 8
  if 32768 ≤ o then min (o % 2048 / 8 * 8) (derived (max w0 1)) else derived (max (max w0 (o % 32)) 1)

/-- What each workgroup of a gang needs (R333). -/
structure Need where
  n : Nat
  warps : Nat
  cap : Nat
  alloc : Nat
  stack : Nat
  path : Nat
  mx : Bool
  sf : Bool
  die : Nat
  deriving DecidableEq, Repr

def needOf (die : Nat) (m : Module) (r : BitVec 1024) : Need :=
  let l := Config.lanes die
  let fs := launchReach m r
  { n := lrWgs r, warps := (lrThreads r + l - 1) / l, cap := capOf die r, alloc := roundUp (lrScratch r) 8192,
    stack := lrStack r * l, path := Config.pathArea die, mx := reachHas m fs isMxWord, sf := reachHas m fs isTableWord,
    die := die }

/-- The lowest aligned place for `n` bytes below `limit` that meets no used area. -/
def freeArea (limit align n : Nat) (used : List (Nat × Nat)) : Option Nat :=
  let ok : Nat → Bool := fun c => decide (c + n ≤ limit) && used.all (fun u => decide (c + n ≤ u.1) || decide (u.1 + u.2 ≤ c))
  let cs := (0 :: used.map (fun u => roundUp (u.1 + u.2) align)).filter ok
  match cs with
  | [] => none
  | c :: rest => some (rest.foldl min c)

/-- Places for a list of areas (size, alignment), one after another. -/
def takeAreas (limit : Nat) : List (Nat × Nat) → List (Nat × Nat) → Option (List Nat)
  | [], _ => some []
  | (n, al) :: rest, used =>
    match freeArea limit al n used with
    | none => none
    | some b => (takeAreas limit rest ((b, n) :: used)).map (b :: ·)

/-- Where a workgroup goes on a core. -/
structure Place where
  core : Nat
  slots : List Nat
  wins : List Nat
  base : Nat
  backing : Option Nat
  stackAreas : List Nat
  paths : List Nat
  deriving DecidableEq, Repr

def coreWarps (s : State) (core : Nat) : List (Nat × Warp) := s.x.warps.filter (fun w => w.1 / 16 == core)
/-- The warps whose windows and areas a core holds: those in a slot, and those whose slot is free again (R189, R333). -/
def heldWarps (s : State) (core : Nat) : List (Nat × Warp) := coreWarps s core ++ s.x.gone.filter (fun w => w.1 / 16 == core)
def coreWgs (s : State) (core : Nat) : List (Nat × Wg) := s.x.wgs.filter (fun w => w.2.core == core)

/-- Scratchpad areas in use on a core: allocations, backing areas, stacks and path areas. -/
def usedAreas (s : State) (core : Nat) : List (Nat × Nat) :=
  let die := dieOfCore core
  (coreWgs s core).flatMap (fun w => (w.2.base, w.2.size) :: (match w.2.backing with | some b => [(b, 65536)] | none => [])) ++
  (heldWarps s core).flatMap (fun w =>
    [(w.2.stackBase, stackOf s w.2 * Config.lanes die), (w.2.pathBase, Config.pathArea die)])

/-- The place of a workgroup on a core, if the core holds everything of R333 at once. The larger alignments are placed
first (log 43). -/
def placeOn (s : State) (q : Need) (core : Nat) : Option Place :=
  let ws := coreWarps s core
  let slots := ((List.range 16).filter (fun i => !ws.any (fun w => w.1 == core * 16 + i))).take q.warps
  let back := q.mx && Config.dieKind q.die == 1
  if slots.length < q.warps then none
  else if (q.mx && (coreWgs s core).any (fun w => w.2.usesMx)) || (q.sf && (coreWgs s core).any (fun w => w.2.usesSf)) then none
  else
    match takeAreas (Config.vregs q.die) (List.replicate q.warps (q.cap, 8)) ((heldWarps s core).map (fun w => (w.2.window, w.2.cap))),
        takeAreas (Config.scratch q.die)
          ((if back then [(65536, 16384)] else []) ++ [(q.alloc, 8192)] ++ List.replicate q.warps (q.stack, 512)
            ++ List.replicate q.warps (q.path, 512)) (usedAreas s core) with
    | some wins, some all =>
      let rest := if back then all.drop 1 else all
      some { core := core, slots := slots, wins := wins, base := rest.headD 0, backing := if back then all.head? else none,
             stackAreas := (rest.drop 1).take q.warps, paths := rest.drop (1 + q.warps) }
    | _, _ => none

/-- The lowest run of cores of a cluster on which a gang fits, with the places of its workgroups (R333, R334). -/
def placeIn (s : State) (q : Need) (cluster : Nat) : Option (List Place) :=
  (List.range (97 - q.n)).findSome? (fun c =>
    let ps := (List.range q.n).map (fun k => placeOn s q (cluster * 96 + c + k))
    if ps.all (·.isSome) then some (ps.filterMap id) else none)

/-- Whether one gang fits an empty cluster of the die (R329 code 0x26, R363). -/
def fitsEmpty (s : State) (q : Need) : Bool :=
  decide (q.n ≤ 96) && (placeOn { s with x := { s.x with warps := [], gone := [], wgs := [] } } q (q.die * 384)).isSome

/-- The clusters of a die in the order in which the distributor tries them (R334). -/
def clusterOrder (s : State) (die : Nat) : List Nat :=
  let from_ := match (dieAt s die).lastCluster with | none => 0 | some c => c + 1
  (List.range 4).map (fun i => die * 4 + (from_ + i) % 4)

/-- Whether a cluster takes a gang now: ready, and 64 cycles after its last one (R19, R332). -/
def accepts (s : State) (cluster : Nat) : Bool :=
  (dieAt s (cluster / 4)).clrdy.getLsbD (cluster % 4) &&
    (match (clusterAt s cluster).placedAt with | none => true | some c => decide (c + 64 ≤ s.c.cycle))

/-- The cluster and places for a gang now. -/
def findPlace (s : State) (q : Need) : Option (Nat × List Place) :=
  ((clusterOrder s q.die).filter (accepts s)).findSome? (fun c => (placeIn s q c).map (fun p => (c, p)))

/-- Whether a gang would fit some ready cluster, whenever that next takes one. -/
def fitsSomewhere (s : State) (q : Need) : Bool :=
  (clusterOrder s q.die).any (fun c => (dieAt s q.die).clrdy.getLsbD (c % 4) && (placeIn s q c).isSome)

/-! ### Starting a workgroup (R149, R335, R414) -/

/-- Lanes of warp `w` of a workgroup that have a thread (R222). -/
def warpMask (lanes threads w : Nat) : Mask := Mask.of ((List.range lanes).filter (fun l => decide (w * lanes + l < threads)))

/-- Where a path enters a function under a key: bundle 0 of a native image, else its first instruction. -/
def entryPc (s : State) (cluster : Nat) (m : Module) (key : TKey) : Pc :=
  let bundled := match imageAt s cluster key with
    | some t => t.bundled
    | none => match storeImage s (cluster / 4) key with | some t => t.bundled | none => false
  if bundled then .bundle key 0 else .word (VPC.of key.fidx (blockEntry (funcAt m key.fidx).code 0))

/-- Drops what earlier threads left under the numbers of a warp's threads. -/
def clearWarp (s : State) (w : Nat) : State :=
  let keep : Nat → Bool := fun t => t / 64 != w
  { s with x := { s.x with threads := s.x.threads.filter (fun e => keep e.1), vals := s.x.vals.filter (fun e => keep (e.1 / 2 ^ 36)) } }

/-- The record of a new warp. -/
def newWarp (gang wg num : Nat) (q : Need) (win stack path : Nat) : Warp :=
  { warpZero with gang := gang, wg := wg, num := num, cap := q.cap, window := win, stackBase := stack, pathBase := path }

/-- A warp's resources without a path: slot, window, stack and path areas. -/
def addWarp (s : State) (gang wg : Nat) (q : Need) (p : Place) (i : Nat) : State :=
  let w := p.core * 16 + nth p.slots 0 i
  setWarp (clearWarp s w) w (newWarp gang wg i q (nth p.wins 0 i) (nth p.stackAreas 0 i) (nth p.paths 0 i))

/-- The allocation of a workgroup reads zero, its chunks are empty and its slots raw (R414). -/
def clearScratch (s : State) (core base size : Nat) : State :=
  let lo := core * 2 ^ 18 + base
  let s1 : State := { s with e := { s.e with scr := s.e.scr.filter (fun b => decide (b.1 < lo) || decide (lo + size ≤ b.1)) } }
  setTags (setChunks s1 core (base / 512) .empty (size / 512)) core (base / 8192) 0 (size / 8192)

/-- MX and table state at workgroup start, where the workgroup owns them (R233, R240). -/
def startEngines (s : State) (q : Need) (core : Nat) : State :=
  let s1 := if q.mx then
      { setMx s core mxZero with e := { (setMx s core mxZero).e with
          acc := s.e.acc.filter (fun a => a.1 / 4096 / 8 != core) } } else s
  if q.sf then
    let s2 := setSf s1 core sfZero
    { s2 with e := { s2.e with bank := s2.e.bank.filter (fun b => b.1 / 8320 != core) } }
  else s1

/-- One workgroup with its warps, before any path starts. -/
def addWg (s : State) (gang k : Nat) (q : Need) (p : Place) : State :=
  let s1 := clearScratch (startEngines s q p.core) p.core p.base q.alloc
  let g : Wg := { core := p.core, base := p.base, size := q.alloc, backing := p.backing, usesMx := q.mx, usesSf := q.sf,
                  warps := p.slots.map (fun i => p.core * 16 + i), shapes := List.replicate 8 none }
  (List.range q.warps).foldl (fun t i => addWarp t gang k q p i) (setWg s1 (gang * 128 + k) g)

/-- The first path of a warp (R335). -/
def startPath (s : State) (w : Nat) (mask : Mask) (pc : Pc) (r : BitVec 1024) (f : Func) : State :=
  let regs := (List.range 8).foldl (fun x i => SMap.putD x 0 (sregKey w i) (lrParam r i)) s.x.sregs
  let s1 : State := { s with x := { s.x with sregs := regs } }
  let s2 := mask.lanes.foldl (fun t l => (List.range f.nparam).foldl (fun t i =>
    setVal t (w * 64 + l) 0 i (lowBits (tyWidth ((tyOfCode (nth f.types 0 (tyOf (nth f.code 0 (1 + i)))).toNat).getD .none))
      (lrParam r i))) t) s1
  addPath s2 w { pathZero with mask := mask, pc := pc, s125 := rootLink, s126 := BitVec.ofNat 64 (physStack s2 w 16),
                               readyAt := s.c.cycle }

/-- A gang placed and started (R333 to R335): all of it at once. -/
def startGang (s : State) (l : Nat) (q : Need) (cluster : Nat) (ps : List Place) : State :=
  let la := launchAt s l
  let r := la.record
  let m := moduleAt s la.module
  let die := la.die
  let i := la.next
  let g := s.c.nextId
  let key : TKey := { mhash := m.mhash, fidx := lrFunc r, dkind := Config.dieKind die, mode := if lrDebug r then 1 else 0,
                      cap := q.cap, rpc := 0 }
  let gang : Gang := { gangZero with
    launch := l, die := die, ctx := la.ctx, x := i % lrGridX r, y := i / lrGridX r % lrGridY r,
    z := i / lrGridX r / lrGridY r, cluster := cluster, core0 := (ps.head?.map (·.core)).getD 0, key := key,
    module := la.module, state := .resident, seq := g, progressAt := s.c.cycle }
  let s1 := setLaunch (setGang (takeId s) g gang) l { la with next := i + 1, live := la.live + 1 }
  let s2 := setCluster s1 cluster { clusterAt s1 cluster with placedAt := some s.c.cycle }
  let s3 := setDie s2 die { dieAt s2 die with lastCluster := some (cluster % 4) }
  let kps := (List.range ps.length).zip ps
  let s4 := kps.foldl (fun t kp => addWg t g kp.1 q kp.2) s3
  kps.foldl (fun t kp => (List.range q.warps).foldl (fun t i =>
    startPath t (kp.2.core * 16 + nth kp.2.slots 0 i) (warpMask (Config.lanes die) (lrThreads r) i)
      (entryPc t cluster m key) r (funcAt m (lrFunc r))) t) s4

/-! ### Queues and events (R330, R331) -/

def evAt (s : State) (die i : Nat) : EvState := s.h.events.getD .reset (die * 4096 + i)
def setEv (s : State) (die i : Nat) (v : EvState) : State :=
  { s with h := { s.h with events := s.h.events.putD .reset (die * 4096 + i) v } }
def queueAt (s : State) (die q : Nat) : HwQueue := s.h.queues.getD { prio := 0, launches := [] } (die * 64 + q)
def setQueue (s : State) (die q : Nat) (v : HwQueue) : State :=
  { s with h := { s.h with queues := s.h.queues.ins (die * 64 + q) v } }

/-- The events that a launch waits for. -/
def waitEvs (r : BitVec 1024) : List Nat := ((List.range 4).map (lrWaitEv r)).filter (· != 0xFFFF)
def gangTotal (r : BitVec 1024) : Nat := lrGridX r * lrGridY r * lrGridZ r

/-- A launch ends: SIGEV is signalled, or failed when any gang failed or was aborted (R331). -/
def endLaunch (s : State) (l : Nat) : State :=
  let la := launchAt s l
  let ev := lrSigEv la.record
  let s1 := setLaunch s l { la with retired := true }
  let s2 := if ev = 0xFFFF then s1 else setEv s1 la.die ev (if la.bad then .failed else .signalled)
  postEvent s2 { evZero with kind := 0x04, die := la.die, cause := if la.bad then 1 else 0, tag := lrId la.record }

/-- The gangs of a launch that have not been dispatched are dropped, each reported cancelled, and the launch leaves its
queue (R331, R337). -/
def dropGangs (s : State) (l : Nat) : State :=
  let la := launchAt s l
  let r := la.record
  let s1 := ((List.range (gangTotal r)).drop la.next).foldl (fun t i => postEvent t
    { evZero with kind := 0x02, die := la.die, gx := i % lrGridX r, gy := i / lrGridX r % lrGridY r,
                  gz := i / lrGridX r / lrGridY r, tag := lrId r }) s
  let q := queueAt s1 la.die la.queue
  let s2 := setQueue s1 la.die la.queue { q with launches := q.launches.filter (· != l) }
  let dropped := decide (la.next < gangTotal r)
  setLaunch s2 l { la with next := gangTotal r, bad := la.bad || dropped }

/-- A launch whose every gang has been dispatched or dropped and has retired is over. -/
def launchOver (s : State) (l : Nat) : Bool :=
  let la := launchAt s l
  !la.retired && la.live == 0 && la.next == gangTotal la.record

/-- R331. -/
def execLaunchRetire (l : Nat) (s : State) : Out := if launchOver s l then .next (endLaunch s l) else .fault .noSuchAgent

/-! ### Dispatch (R332 to R336) -/

def gangNeed (s : State) (l : Nat) : Need := let la := launchAt s l; needOf la.die (moduleAt s la.module) la.record

/-- What a captured gang needs on a die (R361). -/
def capNeed (s : State) (die g : Nat) : Need :=
  let q := gangAt s g
  needOf die (moduleAt s q.module) (launchAt s q.launch).record

def launchPrio (s : State) (l : Nat) : Nat := let la := launchAt s l; (queueAt s la.die la.queue).prio

/-- The launch at the head of a queue. -/
def headLaunch (s : State) (die q : Nat) : Option Nat := (queueAt s die q).launches.head?

/-- Whether the head of a queue is dispatchable (R331). -/
def dispatchable (s : State) (die q : Nat) : Option Nat :=
  (headLaunch s die q).filter (fun l => (waitEvs (launchAt s l).record).all (fun e => evAt s die e == .signalled))

/-- A queue whose head waits on a failed event. -/
def failedHead (s : State) (die : Nat) : Option Nat :=
  (List.range 64).findSome? (fun q => (headLaunch s die q).filter (fun l =>
    (waitEvs (launchAt s l).record).any (fun e => evAt s die e == .failed)))

/-- What waits first at a priority: a captured gang, else a head that has waited, else the head gang of the next queue in turn
(R332, R336, R362). -/
inductive Head where
  | captured (g : Nat)
  | queued (q l : Nat)
  deriving DecidableEq, Repr

def headAt (s : State) (die prio : Nat) : Option Head :=
  match ((s.h.waiting.getD [] die).filter (fun g => launchPrio s (gangAt s g).launch == prio)).head?,
      (dieAt s die).heads.find? (fun x => x.1 == prio && dispatchable s die x.2.1 == some x.2.2) with
  | some g, _ => some (.captured g)
  | none, some x => some (.queued x.2.1 x.2.2)
  | none, none =>
    let from_ := match (dieAt s die).rrPrio.find? (fun x => x.1 == prio) with | none => 0 | some x => x.2 + 1
    ((List.range 64).map (fun i => (from_ + i) % 64)).findSome? (fun q =>
      if (queueAt s die q).prio = prio then (dispatchable s die q).map (fun l => .queued q l) else none)

def headNeed (s : State) (die : Nat) (h : Head) : Need :=
  match h with
  | .captured g => capNeed s die g
  | .queued _ l => gangNeed s l

/-- The first head, from the highest priority down. -/
def topHead (s : State) (die : Nat) : Option (Nat × Head) :=
  ([7, 6, 5, 4, 3, 2, 1, 0] : List Nat).findSome? (fun p => (headAt s die p).map (fun h => (p, h)))

/-- A queue has been served at its priority; a launch with every gang dispatched leaves it. -/
def served (s : State) (die prio q l : Nat) : State :=
  let d := dieAt s die
  let s1 := setDie s die { d with rrPrio := (prio, q) :: d.rrPrio.filter (fun x => x.1 != prio), heads := d.heads.filter (fun x => x.1 != prio) }
  if (launchAt s1 l).next = gangTotal (launchAt s1 l).record then
    setQueue s1 die q { queueAt s1 die q with launches := (queueAt s1 die q).launches.filter (· != l) }
  else s1

/-- A head that fits in no cluster now keeps its place at its priority (R332). -/
def keepHead (s : State) (die prio : Nat) (h : Head) : State :=
  let d := dieAt s die
  match h with
  | .queued q l => setDie s die { d with heads := (prio, q, l) :: d.heads.filter (fun x => x.1 != prio) }
  | .captured _ => s

/-- R331, R332, R334: the first head of the highest priority is placed, or, when it fits nowhere, the distributor pre-empts
for it and serves no queue of its priority or lower. -/
def execGangDispatch (die : Nat) (s : State) : Out :=
  if (dieAt s die).noDispatch then .next s else
  match failedHead s die with
  | some l =>
    let s1 := dropGangs s l
    .next (if launchOver s1 l then endLaunch s1 l else s1)
  | none =>
    match topHead s die with
    | none => .next s
    | some (prio, h) =>
      let q := headNeed s die h
      match findPlace s q, h with
      | some (c, ps), .queued n l => .next (served (startGang s l q c ps) die prio n l)
      | some _, .captured g => .next (enqueue s (.restore die g))
      | none, _ =>
        let t := keepHead s die prio h
        .next (if fitsSomewhere s q then t else enqueue t (.preemption die))

/-! ### Leaving the cores -/

def gangWarps (s : State) (g : Nat) : List Nat := (s.x.warps.filter (fun w => w.2.gang == g)).map (·.1)

/-- Warps, their paths, splits, threads, values and trap blocks are gone. -/
def clearWarps (x : Exec) (mine : Nat → Bool) : Exec :=
  { x with
    warps := x.warps.filter (fun w => !mine w.1)
    paths := x.paths.filter (fun p => !mine (p.1 / 64))
    splits := x.splits.filter (fun k => !mine k.2.warp)
    threads := x.threads.filter (fun t => !mine (t.1 / 64))
    vals := x.vals.filter (fun v => !mine (v.1 / 2 ^ 36 / 64))
    blocks := x.blocks.filter (fun b => !mine b.2.warp) }

/-- A gang's workgroups, warps, paths and everything that names them are gone from its cores. -/
def unplace (s : State) (g : Nat) : State :=
  let ws := gangWarps s g
  let mine : Nat → Bool := fun w => ws.contains w
  let isMine : Waiter → Bool := fun w => match w with | .path p => mine (p / 64) | .cmd _ => false
  let blocks := s.x.blocks.filter (fun b => mine b.2.warp)
  let s1 := blocks.foldl (fun t b => freeSave t b.2.ctx b.2.off) s
  let x1 : Exec := { clearWarps s1.x mine with
    wgs := s1.x.wgs.filter (fun w => w.1 / 128 != g)
    gone := s1.x.gone.filter (fun w => w.2.gang != g) }
  let m1 : MemSys := { s1.m with
    walks := s1.m.walks.map (fun w => (w.1, { w.2 with waiters := w.2.waiters.filter (fun v => !isMine v) }))
    faults := s1.m.faults.map (fun f => (f.1, { f.2 with waiters := f.2.waiters.filter (fun v => !isMine v) })) }
  let stays : Nat → Bool := fun i => let e := entryAt s i; e.cons == 0 || !mine (e.thread / 64)
  let pairs := s1.e.pairs.map (fun q => (q.1, ({ hw := q.2.hw.filter stays, ring := q.2.ring.filter stays } : OvQueue)))
  let cs1 := s1.h.clusters.map (fun c => (c.1, { c.2 with
    misses := c.2.misses.map (fun m => { m with waiters := m.waiters.filter (fun p => !mine (p / 64)) }) }))
  { s1 with
    x := x1
    m := m1
    h := { s1.h with clusters := cs1 }
    e := { s1.e with pairs := pairs, swaps := s1.e.swaps.filter (fun k => !mine (k.pid / 64)) }
    r := { s1.r with trackers := s1.r.trackers.filter (fun t => !isMine t.2.who) }
    d := { s1.d with steps := s1.d.steps.filter (fun r => !mine (r.pid / 64)) } }

/-- The gangs that R336 halts for a waiting gang of priority `prio`: lowest priority first, and among those the most
recently placed, until it would fit. Gangs already halted for pre-emption are counted as gone. -/
def victims (q : Need) : List (Nat × Gang) → State → List Nat
  | [], _ => []
  | (g, _) :: gs, s => if fitsSomewhere s q then [] else g :: victims q gs (unplace s g)

/-- Inserts a gang in the order of R336. -/
def victimBefore (s : State) (a b : Nat × Gang) : Bool :=
  let x := launchPrio s a.2.launch
  let y := launchPrio s b.2.launch
  decide (x < y) || (x == y && decide (b.2.seq < a.2.seq))

def insertVictim (s : State) (a : Nat × Gang) : List (Nat × Gang) → List (Nat × Gang)
  | [] => [a]
  | b :: bs => if victimBefore s a b then a :: b :: bs else b :: insertVictim s a bs

/-- R336. -/
def execPreemption (die : Nat) (s : State) : Out :=
  match topHead s die with
  | none => .fault .noSuchAgent
  | some (prio, h) =>
    let here := s.x.gangs.filter (fun g => g.2.die == die)
    let going := here.filter (fun g => g.2.state == .halted .preempt)
    let s0 := going.foldl (fun t g => unplace t g.1) s
    let low := (here.filter (fun g => g.2.state == .resident && decide (launchPrio s g.2.launch < prio))).foldl
      (fun l g => insertVictim s g l) []
    .next ((victims (headNeed s die h) low s0).foldl (fun t g => enqueue t (.halt g .preempt)) s)

/-! ### Halting and retiring (R337, R356, R364) -/

/-- A path halts at its boundary. -/
def haltPath (s : State) (pid : Nat) : State := updPath (standDown s pid) pid (fun p => { p with halted := true })

/-- A load of a release-consistent or unordered page, which a halt abandons (R356). -/
def abandonable (a : Access) : Bool :=
  (match a.op with | .load => true | _ => false) && a.lanes.all (fun l => match l.loc with | .mem _ ord => ord != 0 | .scr _ _ => false)

/-- The loads in flight of a warp that a halt abandons; the lanes that have their data keep it (R356). -/
def abandonLoads (s : State) (w : Nat) : State :=
  let gone := (warpAt s w).inflight.filter abandonable
  updWarp (gone.foldl (fun t a => putLanes t a.pid a.dst a.got) s) w (fun k =>
    { k with inflight := k.inflight.filter (fun a => !abandonable a), abandoned := k.abandoned ++ gone, ldc := k.ldc - gone.length })

def isHalted (g : GangState) : Bool := match g with | .halted _ => true | _ => false

/-- R356: every path of the gang halts at a bundle boundary. A debugger's stop is no halt of the gang. -/
def execHalt (gang : Nat) (why : HaltWhy) (s : State) : Out :=
  match s.x.gangs.find? gang with
  | none => .fault .noSuchAgent
  | some g =>
    if g.state == .resident || (why == .cancel && isHalted g.state) then
      let st : GangState := match why with | .cancel => .aborting | .fail => .failing | w => .halted w
      let s0 := (gangPaths s gang).foldl (fun t p => haltPath t p.1) s
      let s1 := match why with
        | .preempt => (gangWarps s gang).foldl abandonLoads s0
        | .migrate => (gangWarps s gang).foldl abandonLoads s0
        | _ => s0
      let s2 := setGang s1 gang { g with state := st }
      .next (if why = .cancel then setLaunch s2 g.launch { launchAt s2 g.launch with bad := true } else s2)
    else .next s

/-- Everything that a gang's threads have sent has completed: commands, accesses, bids, peer accesses (R189). -/
def gangQuiet (s : State) (g : Nat) : Bool :=
  let ws := gangWarps s g
  !s.e.cmds.any (fun k => k.2.gang == g) && !s.pl.bids.any (fun b => b.gang == g) &&
    ws.all (fun w => (warpAt s w).inflight.isEmpty) &&
    !s.r.trackers.any (fun t => match t.2.who with | .path p => ws.contains (p / 64) && t.2.reply.isNone | .cmd _ => false)

/-- Whether every thread of a resident gang's warp has finished and the warp's counters are zero (R189). -/
def warpOver (s : State) (w : Nat) (k : Warp) : Bool :=
  (gangAt s k.gang).state == .resident && !s.x.paths.any (fun p => p.1 / 64 == w) &&
    k.inflight.isEmpty && k.ldc == 0 && k.stc == 0 && k.rsc == 0 &&
    !s.e.cmds.any (fun c => c.2.pid / 64 == w) && !s.pl.bids.any (fun b => b.warp == w && b.gang == k.gang) &&
    !s.r.trackers.any (fun t => match t.2.who with | .path p => p / 64 == w && t.2.reply.isNone | .cmd _ => false)

/-- The slots of the warps that have finished are free again; what else they hold stays reserved for their gang (R189). -/
def freeWarpSlots (s : State) : State :=
  let ended := s.x.warps.filter (fun w => warpOver s w.1 w.2)
  let mine : Nat → Bool := fun w => ended.any (fun o => o.1 == w)
  let s1 := (s.x.blocks.filter (fun b => mine b.2.warp)).foldl (fun t b => freeSave t b.2.ctx b.2.off) s
  if ended.isEmpty then s else { s1 with x := { clearWarps s1.x mine with gone := s1.x.gone ++ ended } }

/-- Whether a gang can retire: every thread has finished; the paths of a failing or aborted gang issue no more. -/
def gangOver (s : State) (g : Nat) : Bool :=
  gangQuiet s g && (match (gangAt s g).state with
    | .failing => true
    | .aborting => true
    | .resident => (gangPaths s g).isEmpty
    | _ => false)

/-- A capture record that a debugger's hold has kept is freed with its gang (R408). -/
def dropCapture (s : State) (g : Nat) : State :=
  match s.h.captures.find? g with
  | none => s
  | some r =>
    let t := freeSave s r.ctx r.off
    { t with h := { t.h with captures := t.h.captures.del g } }

/-- R189, R331, R337, R364: the gang leaves its cores and is reported if it failed or was aborted. -/
def execGangRetire (gang : Nat) (s : State) : Out :=
  match s.x.gangs.find? gang with
  | none => .fault .noSuchAgent
  | some g =>
    if !gangOver s gang then .fault .noSuchAgent else
    let s1 := match g.state with
      | .failing => postEvent s { gangFields s gang 0x01 g.cause with addr := g.failAddr }
      | .aborting => postEvent s { gangFields s gang 0x03 0 with addr := BitVec.ofNat 64 g.issued, tenant := 0 }
      | _ => s
    let s2 := setGang (dropCapture (unplace s1 gang) gang) gang { g with state := .retired }
    let la := launchAt s2 g.launch
    let s3 := setLaunch s2 g.launch { la with live := la.live - 1 }
    .next (if launchOver s3 g.launch then enqueue s3 (.launchRetire g.launch) else s3)

/-- R364: the item that meets lost data is the gang. -/
def execItemFailed (gang cause : Nat) (addr : BitVec 64) (s : State) : Out :=
  match s.x.gangs.find? gang with
  | none => .fault .noSuchAgent
  | some _ => .next (failGang s gang cause addr)

end Sys2Proof.Machine
end

