-- ==== Sys2Proof/Machine/Kernel.lean ====
section
/-!
DEFINITION. The management kernel's page tables and the mem endpoint: map, unmap, invalidate, save regions, CXL units,
module copies, contexts (R68, R69, R74, R79 to R81, R357, R396, R400, R422).
-/
namespace Sys2Proof.Machine

/-! ### Kernel memory (R74, R422; log 44) -/

/-- A block of 8 KiB for a table: a freed one, else the next below the kernel's last. -/
def takeBlock (s : State) (die : Nat) : Option (State × Nat) :=
  let d := dieAt s die
  match d.tables with
  | b :: bs => some (setDie s die { d with tables := bs }, b)
  | [] => if d.kernelTop < 8192 then none else
      let b := (d.kernelTop - 8192) / 8192 * 8192
      some (setDie s die { d with kernelTop := b }, b)
def freeBlocks (s : State) (die : Nat) (bs : List Nat) : State :=
  let d := dieAt s die
  setDie s die { d with tables := bs ++ d.tables }

/-- A run of 64 KiB frames below the kernel's last block. -/
def takeFrames (s : State) (die n : Nat) : Option (State × Nat) :=
  let d := dieAt s die
  if d.kernelTop < n * 65536 then none else
  let b := (d.kernelTop - n * 65536) / 65536 * 65536
  some (setDie s die { d with kernelTop := b }, b)

/-- Fills a table of level `level` with one entry. -/
def fillTable8 (s : State) (die table level : Nat) (e : Nat → Word) : State :=
  (List.range (2 ^ lvlBits level)).foldl (fun t i => writeMem t (lpKey die (table + 8 * i)) 8 (e i).toNat) s

def entryAddr (table level : Nat) (va : Nat) : Nat := table + 8 * bitsOf va (lvlShift level) (lvlBits level)

/-- The same leaf or federated entry for the `i`-th smaller page of it: a frame moves on, the other fields stay. -/
def partEntry (e : Word) (level i : Nat) : Word :=
  if pteV e && pteKind e != 2 then e + BitVec.ofNat 64 (i * 2 ^ lvlShift (level - 1)) else e

/-- Places an entry at level `target` for `va`, making the tables on the way; a larger federated entry on the way is first
spread over the new table. -/
def putEntry (die va target : Nat) (e : Word) : Nat → Nat → State → Option State
  | 0, _, _ => none
  | f + 1, table, s =>
    let a := lpKey die (entryAddr table f va)
    if f = target then some (writeMem s a 8 e.toNat) else
    let cur : Word := BitVec.ofNat 64 (readMem s a 8)
    if pteV cur then putEntry die va target e f (pteAddr cur) s
    else match takeBlock s die with
      | none => none
      | some (s1, b) =>
        let s2 := fillTable8 s1 die b (f - 1) (fun _ => cur)
        putEntry die va target e f b (writeMem s2 a 8 (b + 1))

/-- The valid leaves and federated entries of a table that meet the range from `lo` below `hi`: address, size as a power
of two, entry. -/
def entriesIn (s : State) (die lo hi : Nat) : Nat → Nat → Nat → List (Nat × Nat × Word)
  | 0, _, _ => []
  | f + 1, table, base =>
    let sz := 2 ^ lvlShift f
    let first := (max lo base - base) / sz
    let last := min (2 ^ lvlBits f) ((max hi base - base + sz - 1) / sz)
    ((List.range last).drop first).flatMap (fun i =>
      let e : Word := BitVec.ofNat 64 (readMem s (lpKey die (table + 8 * i)) 8)
      if pteV e && !pteLeaf e then entriesIn s die lo hi f (pteAddr e) (base + i * sz)
      else if pteV e || pteFed e then [(base + i * sz, lvlShift f, e)] else [])

def ctxEntries (s : State) (ctx lo hi : Nat) : List (Nat × Nat × Word) :=
  entriesIn s (ctx / 64) lo hi 5 (ctxAt s ctx).root 0

/-- Writes every entry of the range invalid; an entry that passes the range's end is first split into the smaller size
(R81, R422). `none` when no block is left for a split. -/
def clearRange (die lo hi : Nat) : Nat → Nat → Nat → State → Option State
  | 0, _, _, s => some s
  | f + 1, table, base, s =>
    let sz := 2 ^ lvlShift f
    let first := (max lo base - base) / sz
    let last := min (2 ^ lvlBits f) ((max hi base - base + sz - 1) / sz)
    ((List.range last).drop first).foldl (fun o i => o.bind (fun s =>
      let a := lpKey die (table + 8 * i)
      let e : Word := BitVec.ofNat 64 (readMem s a 8)
      let at_ := base + i * sz
      if pteV e && !pteLeaf e then clearRange die lo hi f (pteAddr e) at_ s
      else if !(pteV e || pteFed e) then some s
      else if lo ≤ at_ ∧ at_ + sz ≤ hi then some (writeMem s a 8 0)
      else match takeBlock s die with
        | none => none
        | some (s1, b) =>
          let s2 := fillTable8 s1 die b (f - 1) (fun j => partEntry e f j)
          clearRange die lo hi f b at_ (writeMem s2 a 8 (b + 1)))) (some s)

/-- The tables below one table, itself included. -/
def tablesUnder (s : State) (die : Nat) : Nat → Nat → List Nat
  | 0, _ => []
  | f + 1, table =>
    table :: (List.range (2 ^ lvlBits f)).flatMap (fun i =>
      let e : Word := BitVec.ofNat 64 (readMem s (lpKey die (table + 8 * i)) 8)
      if pteV e && !pteLeaf e then tablesUnder s die f (pteAddr e) else [])

/-- The largest page that a range takes at an address: its level (R422). `free` is true for a federated entry, which has
no frame to align. -/
def pageLevel (va frame hi : Nat) (free : Bool) : Nat :=
  let fits : Nat → Bool := fun l => va % 2 ^ lvlShift l == 0 && (free || frame % 2 ^ lvlShift l == 0) && decide (va + 2 ^ lvlShift l ≤ hi)
  if fits 2 then 2 else if fits 1 then 1 else 0

/-- Maps a range in ascending address order with the largest pages that fit (R422); `none` when no block is left. -/
def mapPages (ctx hi : Nat) (e : Word) (free : Bool) : Nat → Nat → Nat → State → Option State
  | 0, _, _, s => some s
  | n + 1, va, frame, s =>
    if hi ≤ va then some s else
    let l := pageLevel va frame hi free
    let leaf : Word := if free then e else (e &&& 0xFFF#64) ||| BitVec.ofNat 64 frame
    match putEntry (ctx / 64) va l leaf 5 (ctxAt s ctx).root s with
    | none => none
    | some s1 => mapPages ctx hi e free n (va + 2 ^ lvlShift l) (frame + 2 ^ lvlShift l) s1

def mapRange (s : State) (ctx base len : Nat) (e : Word) : Option State :=
  mapPages ctx (base + len) e (!pteV e) (len / 65536) base (pteAddr e) s

/-! ### Invalidation (R79) -/

/-- TLB and walk-cache entries of a range are dropped, and walks of the range run again. -/
def invalidate (s : State) (ctx lo hi : Nat) : State :=
  let hit : Nat → Nat → Bool := fun va sz => decide (va < hi) && decide (lo < va + sz)
  let keepT : TlbEntry → Bool := fun t => !(t.ctx == ctx && hit t.va (2 ^ t.lg))
  let keepW : WalkEntry → Bool := fun w => !(w.ctx == ctx && hit w.va (2 ^ lvlShift w.level))
  let t0 := s.m.tlb0.map (fun e => (e.1, e.2.filter keepT))
  let t1 := s.m.tlb1.map (fun e => (e.1, e.2.filter keepT))
  let wc := s.m.wcache.map (fun e => (e.1, e.2.filter keepW))
  let ws := s.m.walks.map (fun e =>
    (e.1, if e.2.ctx = ctx ∧ hit (e.2.va.toNat / 65536 * 65536) 65536 then { e.2 with stale := true } else e.2))
  { s with m := { s.m with tlb0 := t0, tlb1 := t1, wcache := wc, walks := ws } }

/-- Thread accesses of a context to a range that have not performed: those sent to the die network, and peer requests without a
reply. -/
def accessesIn (s : State) (ctx lo hi : Nat) : Bool :=
  let hit : Word → Bool := fun va => decide (lo ≤ va.toNat) && decide (va.toNat < hi)
  s.x.warps.any (fun w => (gangAt s w.2.gang).ctx == ctx && w.2.inflight.any (fun a => a.lanes.any (fun l =>
    match l.loc with | .mem _ _ => hit l.va | .scr _ _ => false))) ||
  s.r.trackers.any (fun t => (match t.2.who with | .path _ => true | .cmd _ => false) && t.2.ctx == ctx && t.2.reply.isNone && hit t.2.va)

/-- In-flight counts on pages that meet a range (R80). -/
def countsIn (s : State) (ctx lo hi : Nat) : Bool :=
  s.m.pageUse.any (fun p => p.1 / 2 ^ 48 / 64 == ctx && decide (p.1 % 2 ^ 48 * 65536 < hi) &&
    decide (lo < p.1 % 2 ^ 48 * 65536 + 2 ^ (p.1 / 2 ^ 48 % 64)))

/-- The same request is looked at again later. -/
def defer (s : State) (i : Instr) : State := { s with h := { s.h with deferred := s.h.deferred ++ [i] } }

/-! ### Checks (R395) -/

/-- Code 0x30: alignment, length, and a range within one half. -/
def rangeBad (base len : Word) : Bool :=
  base.toNat % 65536 != 0 || len.toNat % 65536 != 0 || len == 0 ||
    !(decide (base.toNat + len.toNat ≤ 2 ^ 56) || (decide (2 ^ 56 ≤ base.toNat) && decide (base.toNat + len.toNat ≤ 2 ^ 57)))

/-- Code 0x30 with the field that fails: the base, or else the length. -/
def rangeCode (base : Word) : Nat := offCode 0x30 (if base.toNat % 65536 ≠ 0 ∨ 2 ^ 57 ≤ base.toNat then 0 else 8)

/-- Code 0x31: what R422 and R72 to R76 ask of a template; the frames of the whole range must be allowed. -/
def templateBad (s : State) (die : Nat) (e len : Word) : Bool :=
  if pteV e then
    !pteLeaf e || pteFed e || e.extractLsb' 56 8 != 0 || e.getLsbD 11 || e.getLsbD 5 || decide (2 ≤ pteKind e) ||
      pteOrd e == 3 || pteAddr e % 65536 != 0 ||
      (if pteKind e = 0 then decide (Config.storeBase < pteAddr e + len.toNat)
       else !(List.range ((len.toNat + 2 ^ 29 - 1) / 2 ^ 29 + 1)).all (fun i =>
         let pa := min (pteAddr e + i * 2 ^ 29) (pteAddr e + len.toNat - 1)
         cxlOwned s die pa))
  else !pteFed e || (e &&& ~~~0x00F0000000000400#64) != 0 || decide (8 ≤ pteOdie e)

/-- The template as it stands in a leaf: RD, WR, AT, ORD, MKIND, with V and LEAF (R72). -/
def notLive (s : State) (h : Hdr) : Bool := (ctxAt s (ctxKey h)).state != .live

/-- R422. -/
def execMemMap (h : Hdr) (base length leaf : BitVec 64) (s : State) : Out :=
  let ctx := ctxKey h
  let overlaps := (ctxEntries s ctx base.toNat (base.toNat + length.toNat)).any (fun e => pteV e.2.2)
  let after := mapRange s ctx base.toNat length.toNat leaf
  request s h shaderOnly
    (firstFail [(rangeBad base length, rangeCode base), (templateBad s h.die leaf length, offCode 0x31 16), (notLive s h, 0x38), (overlaps, 0x32),
      (after.isNone, 0x33)])
    (done (after.getD s) h [])

/-- Whether ranges cover everything from `lo` below `hi`. `fuel` is their number. -/
def covered (cut : List (Nat × Nat)) (hi : Nat) : Nat → Nat → Bool
  | 0, lo => decide (hi ≤ lo)
  | fuel + 1, lo => decide (hi ≤ lo) || covered cut hi fuel (cut.foldl (fun x c => if c.1 ≤ lo then max x c.2 else x) lo)

/-- Whether every leaf of an import has been unmapped (R85). -/
def importGone (i : ImportRec) : Bool :=
  covered i.cut (i.window.toNat + i.pages * 65536) i.cut.length i.window.toNat

/-- The part of a range that lies in an import's window is unmapped. -/
def cutImport (ctx lo hi : Nat) (i : ImportRec) : ImportRec :=
  let w := i.window.toNat
  let a := max lo w
  let b := min hi (w + i.pages * 65536)
  if i.ctx = ctx ∧ a < b then { i with cut := i.cut ++ [(a, b)] } else i

/-- Imports are reported unmapped to their owners (R85). -/
def reportImports (s : State) (ids : List Nat) : State :=
  ids.foldl (fun t n => match t.h.imports.find? n with
    | none => t
    | some i =>
      let k := i.odie * 16384 + i.exp
      { t with h := { t.h with
          imports := t.h.imports.del n
          exports := t.h.exports.upd k (fun x => { x with imports := x.imports.erase (i.ctx / 64, i.ctx % 64) }) } }) s

/-- Lines of CXL frames (address, size as a power of two) leave the cluster caches of a die (R68, R81). -/
def dropCxl (s : State) (die : Nat) (fs : List (Nat × Nat)) : State :=
  let hit : Nat → Bool := fun a => fs.any (fun f => decide (cxlKey f.1 ≤ a) && decide (a < cxlKey f.1 + 2 ^ f.2))
  setLines s (s.m.lines.filter (fun l => !(l.1 / 2 ^ 52 / 4 == die && hit (l.1 % 2 ^ 52 * 128))))

/-- Steps 1 and 2 of R81: the leaves are invalid and the range is invalidated; what remains to be done at its end is noted. `none`
when a leaf that must be split finds no block. -/
def unmapRange (s : State) (ctx lo hi : Nat) : Option State :=
  let cxl := (ctxEntries s ctx lo hi).filterMap (fun e =>
    if pteV e.2.2 && pteKind e.2.2 == 1 then some (pteAddr e.2.2, e.2.1) else none)
  (clearRange (ctx / 64) lo hi 5 (ctxAt s ctx).root 0 s).map (fun t =>
    let cut := t.h.imports.map (fun i => (i.1, cutImport ctx lo hi i.2))
    let gone := (cut.filter (fun i => importGone i.2 && !(t.h.imports.find? i.1).all importGone)).map (·.1)
    let t1 := invalidate { t with h := { t.h with imports := cut } } ctx lo hi
    { t1 with m := { t1.m with leaving := t1.m.leaving ++ [{ ctx := ctx, lo := lo, hi := hi, cxl := cxl, imports := gone }] } })

/-- Steps 4 and 5 of R81: the CXL lines are dropped, and the imports that have gone are reported. -/
def finishUnmap (s : State) (ctx lo hi : Nat) : State :=
  match s.m.leaving.find? (fun l => l.ctx == ctx && l.lo == lo && l.hi == hi) with
  | none => s
  | some l => reportImports (dropCxl { s with m := { s.m with leaving := s.m.leaving.erase l } } (ctx / 64) l.cxl) l.imports

/-- Whether an access or an in-flight count keeps a range (R79, R80). -/
def rangeBusy (s : State) (ctx lo hi : Nat) : Bool := accessesIn s ctx lo hi || countsIn s ctx lo hi

/-- R81: the reply waits until no access and no in-flight count is left on the range. -/
def execMemUnmap (h : Hdr) (base length : BitVec 64) (waiting : Bool) (s : State) : Out :=
  let ctx := ctxKey h
  let lo := base.toNat
  let hi := lo + length.toNat
  let finishUp : State → State := fun t =>
    if rangeBusy t ctx lo hi then defer t (.memUnmap h base length true) else done (finishUnmap t ctx lo hi) h []
  let after := unmapRange s ctx lo hi
  if waiting then .next (if (dieAt s h.die).inReset then reply s h 3 0 0 [] else finishUp s)
  else request s h shaderOnly
    (firstFail [(rangeBad base length, rangeCode base), (notLive s h, 0x38), ((ctxEntries s ctx lo hi).isEmpty, 0x32), (after.isNone, 0x33)])
    (finishUp (after.getD s))

/-- R79: a length of zero with a base of zero names the whole context. -/
def execMemInvalidate (h : Hdr) (base length : BitVec 64) (s : State) : Out :=
  let ctx := ctxKey h
  let all := base == 0 && length == 0
  let lo := base.toNat
  let hi := if all then 2 ^ 57 else lo + length.toNat
  request s h shaderOnly (firstFail [(!all && rangeBad base length, rangeCode base), (notLive s h, 0x38)])
    (let t := invalidate s ctx lo hi
     if accessesIn t ctx lo hi then defer t (.memInvalidate h base length) else done t h [])

/-- R357. -/
def execSaveRegion (h : Hdr) (base size : BitVec 64) (s : State) : Out :=
  let ctx := ctxKey h
  request s h shaderOnly (firstFail [(base.toNat % 65536 != 0, 0x34), (decide (size.toNat < 2 ^ 20), offCode 0x34 8),
      (!rangeLocal s ctx [.rd, .wr] base size.toNat, 0x34), (notLive s h, 0x38)])
    (done (setCtx s ctx { ctxAt s ctx with save := some { base := base, size := size.toNat, used := [] } }) h [])

/-- Whether a CXL unit lies on the expander of one of the 8 ports; a port owns 2 TiB (R13, R67; log 72). -/
def unitExists (s : State) (unit : Nat) : Bool :=
  let port := unit / 4096
  decide (port < 8) && decide (unit % 4096 < min 4096 ((s.m.cxlUnits.find? port).getD (Config.expanderUnits port)))

/-- R68. -/
def execCxlUnitAssign (h : Hdr) (unit : Nat) (assign : Bool) (s : State) : Out :=
  let own := s.m.cxlOwner.find? unit
  let bad := !unitExists s unit || (if assign then (match own with | none => false | some d => d != h.die) else own != some h.die)
  let set := if assign then s.m.cxlOwner.ins unit h.die else s.m.cxlOwner.del unit
  request s h shaderOnly (firstFail [(bad, 0x35), (notLive s h, 0x38)])
    (done { s with m := { s.m with cxlOwner := set } } h [])

/-- The bytes exported on another module under a handle. -/
def remoteKey (remote : Nat) (handle : Word) : Nat := remote * 2 ^ 64 + handle.toNat

/-- A range mapped, local or CXL, with a right (R400). -/
def rangeRight (s : State) (ctx : Nat) (r : Right) (base len : Nat) : Bool :=
  (List.range ((base + len + 65535) / 65536 - base / 65536)).all (fun i =>
    match kernelXlate s ctx (BitVec.ofNat 64 ((base / 65536 + i) * 65536)) r with | .ok _ => true | .error _ => false)

/-- R400: the reply comes when every byte has been written. -/
def execModuleCopy (h : Hdr) (base : BitVec 64) (remote : Nat) (handle length : BitVec 64) (toLocal : Bool) (s : State) : Out :=
  let ctx := ctxKey h
  let k := remoteKey remote handle
  let n := length.toNat
  let far := (s.h.remote.find? k).getD []
  let effect := if toLocal then
      (match kernelWrite s ctx base (SMap.getsD far 0 0 n) with | .ok t => t | .error (t, _) => t)
    else { s with h := { s.h with remote := s.h.remote.ins k (SMap.putsD far 0 0 ((kernelRead s ctx n base).getD [])) } }
  request s h shaderOnly (firstFail [(!rangeRight s ctx (if toLocal then .wr else .rd) base.toNat n, 0x36),
      ((s.h.remote.find? k).isNone, offCode 0x36 8), (n % 64 != 0, offCode 0x36 18), (notLive s h, 0x38)]) (done effect h [])

/-! ### Contexts (R69, R396) -/

def ctxImports (s : State) (ctx : Nat) : Bool := s.h.imports.any (fun i => i.2.ctx == ctx)
def ctxExports (s : State) (ctx : Nat) : Bool := s.h.exports.any (fun e => e.2.live && e.2.ctx == ctx)
def ctxGangs (s : State) (ctx : Nat) : Bool := s.x.gangs.any (fun g => g.2.ctx == ctx && isResident g.2)

/-- R396. -/
def execContextTenant (h : Hdr) (tenant : BitVec 8) (s : State) : Out :=
  let ctx := ctxKey h
  let change := (ctxAt s ctx).tenant != tenant && (ctxImports s ctx || ctxExports s ctx || ctxGangs s ctx)
  request s h shaderOnly (firstFail [(change, 0x37), (notLive s h, 0x38)])
    (done (setCtx s ctx { ctxAt s ctx with tenant := tenant }) h [])

/-- R69: the kernel makes an empty L4 table. Without memory for it the request is refused as a map is (log 44). -/
def execContextOpen (h : Hdr) (s : State) : Out :=
  let ctx := ctxKey h
  let got := takeBlock s h.die
  let effect := match got with
    | none => s
    | some (s1, b) => setCtx (fillTable8 s1 h.die b 4 (fun _ => 0)) ctx { ctxZero with state := .live, root := b }
  request s h shaderOnly (firstFail [(got.isNone, 0x33), ((ctxAt s ctx).state != .free, 0x39)]) (done effect h [])

/-- What keeps a context from closing (R69). -/
def ctxHolds (s : State) (ctx : Nat) : Bool :=
  s.h.handles.any (fun x => x.2.ctx == ctx) || ctxExports s ctx || ctxImports s ctx ||
    s.pl.table.any (fun p => p.1 / 256 == ctx / 64 && p.2.holder == some ctx) ||
    s.h.launches.any (fun l => l.2.ctx == ctx && !l.2.retired)

/-- R69: every range is unmapped, the tables are freed, and the context is free. -/
def execContextClose (h : Hdr) (s : State) : Out :=
  let ctx := ctxKey h
  let gone := (unmapRange s ctx 0 (2 ^ 57)).getD s
  let s1 := setCtx (finishUnmap gone ctx 0 (2 ^ 57)) ctx { ctxAt s ctx with state := .draining }
  let s2 := freeBlocks s1 h.die (tablesUnder s1 h.die 5 (ctxAt s ctx).root)
  let bps := s2.d.bps.filter (fun b => b.1 / 64 != ctx)
  let s3 : State := { s2 with d := { s2.d with bps := bps } }
  request s h shaderOnly (firstFail [((ctxAt s ctx).state != .live || ctxHolds s ctx, 0x39)])
    (done (setCtx s3 ctx ctxZero) h [])

end Sys2Proof.Machine
end

