-- ==== Sys2Proof/Machine/Capture.lean ====
section
/-!
DEFINITION. Captures and capture records, restores, moves between dies, faults served by the kernel, core dumps, hang records
and the event ring (R86 to R89, R356 to R371, R405 to R408, R424).
-/
namespace Sys2Proof.Machine

/-! ### What a capture takes (R357 to R360) -/

def lanesOfGang (s : State) (g : Nat) : Nat := Config.lanes (gangAt s g).die

/-- The contents of the split records of a path, from the innermost (R360). -/
def chainOf (s : State) : Nat → Option Nat → List (JoinPt × Nat)
  | 0, _ => []
  | _ + 1, none => []
  | f + 1, some r => match s.x.splits.find? r with
    | none => []
    | some k => (k.join, k.depth) :: chainOf s f k.parent

/-- Thread indices of some lanes of a warp. -/
def tidsOf (s : State) (w : Nat) (m : Mask) : List Nat :=
  let l := Config.lanes (dieOfCore (coreOfWarp w))
  m.lanes.map (fun i => (warpAt s w).num * l + i)

/-- The stack of a thread, byte by byte. -/
def stackBytes (s : State) (w lane : Nat) : List Byte :=
  (List.range (stackSize s w)).map (fun o => scrByte s (coreOfWarp w) (stackPa s w lane o))

/-- The frames of a path from the innermost: its depth, the virtual PC that stands for it, its trap block, and whether it stands
at a `call`. -/
def frameSpots (pc : VPC) (call : Bool) : List Frame → List (Nat × VPC × Option Nat × Bool)
  | [] => [(0, pc, none, call)]
  | f :: fs => (fs.length + 1, pc, f.trap, call) :: frameSpots f.callVpc f.trap.isNone fs

/-- The values of a frame that a record lists (R161). -/
def frameVals (s : State) (g : Nat) (v : VPC) (call : Bool) : List Nat :=
  let key := calleeKey s g v.fn
  let m := moduleAt s (gangAt s g).module
  if call then callVals m key v.ix else pointVals m key v.ix

/-- The token entries of a thread that stand in the queues of its core, queue by queue. -/
def standingOf (s : State) (core thread : Nat) : List Nat :=
  ((s.e.pairs.filter (fun q => q.1 / 36 == core)).flatMap (fun q => qIds q.2)).filter (fun i =>
    (entryAt s i).cons != 0 && (entryAt s i).thread == thread)

/-- The threads of a path, with the values that their frames list. -/
def pathThreads (s : State) (w : Nat) (p : Path) : List CapThread :=
  let l := Config.lanes (dieOfCore (coreOfWarp w))
  let spots := frameSpots (pcVpc s p) false p.frames
  let keeps := spots.map (fun x => (x.1, retSlot :: frameVals s (warpAt s w).gang x.2.1 x.2.2.2))
  p.mask.lanes.map (fun i =>
    let t := w * 64 + i
    let all := (s.x.vals.filter (fun v => v.1 / 2 ^ 36 == t)).map (fun v => (v.1 / 2 ^ 20 % 2 ^ 16, v.1 % 2 ^ 20, v.2))
    { wg := (warpAt s w).wg, tid := (warpAt s w).num * l + i, thread := threadAt s t,
      vals := all.filter (fun v => keeps.any (fun k => k.1 == v.1 && k.2.contains v.2.1)),
      toks := standingOf s (coreOfWarp w) t, stack := stackBytes s w i })

/-- The threads of a warp that have a path, in thread order. -/
def capThreads (s : State) (w : Nat) : List CapThread :=
  (((pathsOf s w).flatMap (fun p => pathThreads s w p.2)).foldl (fun (m : SMap CapThread) t => m.ins t.tid t) []).map (·.2)

/-- The paths of a warp. -/
def capPaths (s : State) (w : Nat) : List CapPath :=
  (pathsOf s w).map (fun p =>
    { wg := (warpAt s w).wg, tids := tidsOf s w p.2.mask, pc := pcVpc s p.2, frames := p.2.frames,
      chain := chainOf s (splitFuel s) p.2.split, waiting := p.2.wait == some .join, atExit := p.2.atExit,
      syncWait := p.2.syncWait, held := p.2.held, dbgCause := p.2.dbgCause, dbgInfo := p.2.dbgInfo, num := (warpAt s w).num })

def capBlocks (s : State) (ws : List Nat) : List CapBlock :=
  (s.x.blocks.filter (fun b => ws.contains b.2.warp)).map (fun b =>
    { id := b.1, wg := (warpAt s b.2.warp).wg, num := (warpAt s b.2.warp).num, block := b.2,
      chain := chainOf s (splitFuel s) b.2.split })

/-- The loads that a restore replays. -/
def capReplays (s : State) (w : Nat) : List Replay :=
  let l := Config.lanes (dieOfCore (coreOfWarp w))
  (warpAt s w).abandoned.flatMap (fun a => match a.dst with
    | .val d v => a.lanes.map (fun x =>
        { wg := (warpAt s w).wg, tid := (warpAt s w).num * l + x.lane, depth := d, vnum := v, va := x.va, ty := a.ty,
          drop := a.drop })
    | _ => [])

/-- A workgroup's scratch and engine state. -/
def capWg (s : State) (g : Nat) (k : Nat) (w : Wg) : CapWg :=
  let core := w.core
  let lo := core * 2 ^ 18 + w.base
  { wg := k - g * 128, size := w.size,
    bytes := (s.e.scr.filter (fun b => decide (lo ≤ b.1) && decide (b.1 < lo + w.size))).map (fun b => (b.1 - lo, b.2)),
    chunks := (List.range (w.size / 512)).map (fun i => chunkAt s core (w.base / 512 + i)),
    tags := (List.range (w.size / 8192)).map (fun i => tagAt s core (w.base / 8192 + i)),
    shapes := w.shapes,
    mx := if w.usesMx then some (mxAt s core) else none,
    acc := if w.usesMx then (s.e.acc.filter (fun a => a.1 / 32768 == core)).map (fun a => (a.1 % 32768, a.2)) else [],
    sf := if w.usesSf then some (sfAt s core) else none,
    bank := if w.usesSf then (s.e.bank.filter (fun b => b.1 / 8320 == core)).map (fun b => (b.1 % 8320, b.2)) else [] }

/-- The bids of a gang that have not been delivered, with the threads that sent them (R322). -/
def capBids (s : State) (g : Nat) : List (Nat × Nat × Bid) :=
  let l := lanesOfGang s g
  (s.pl.bids.filter (fun b => b.gang == g)).map (fun b =>
    ((warpAt s b.warp).wg, (warpAt s b.warp).num * l + b.lane, b))

/-- Everything a capture takes of a gang, before its record has a place. -/
def gather (s : State) (g : Nat) : CapRec :=
  let q := gangAt s g
  let ws := gangWarps s g
  { srcDie := q.die, ctx := q.ctx, off := 0, len := 0,
    wgs := (s.x.wgs.filter (fun w => w.1 / 128 == g)).map (fun w => capWg s g w.1 w.2),
    threads := ws.flatMap (capThreads s), paths := ws.flatMap (capPaths s), blocks := capBlocks s ws,
    replays := ws.flatMap (capReplays s), bids := capBids s g, moved := q.target.map (·.2) }

/-! ### The record as bytes (R358 to R360) -/

def zeros (n : Nat) : List Byte := List.replicate n 0

/-- The 2-bit code of a chunk's state (R99). -/
def chunkCode (c : ChunkState) : Nat := match c with | .empty => 0 | .full => 1 | .failed => 2

/-- Chunk states, four to a byte, chunk 0 lowest. -/
def chunkBytes (cs : List ChunkState) : List Byte :=
  (List.range ((cs.length + 3) / 4)).map (fun i => BitVec.ofNat 8
    (((List.range 4).map (fun j => chunkCode (nth cs .empty (4 * i + j)) * 4 ^ j)).sum))

def shapeBytes (ss : List (Option (BitVec 1024))) : List Byte :=
  (List.range 8).flatMap (fun i => leBytes 128 ((nth ss none i).getD 0).toNat) ++
    [BitVec.ofNat 8 (((List.range 8).map (fun i => if (nth ss none i).isSome then 2 ^ i else 0)).sum)]

def mxBytes (m : MxState) (acc : SMap Lane32) : List Byte :=
  (SMap.getsD acc 0 0 32768).flatMap (fun v => leBytes 4 v.toNat) ++ m.flagw.flatMap (fun v => leBytes 4 v.toNat) ++
    leBytes 8 m.mode.toNat ++ leBytes 8 m.seed.toNat ++ m.prev

def sfBytes (t : SfState) (bank : SMap Byte) : List Byte :=
  SMap.getsD bank 0 0 8320 ++ [BitVec.ofNat 8 ((if t.valid0 then 1 else 0) + (if t.valid1 then 2 else 0)),
    if t.cur then 1 else 0] ++ leBytes 2 t.ver.toNat

/-- A workgroup section (R359). -/
def wgSection (w : CapWg) : List Byte :=
  let scr := SMap.getsD w.bytes 0 0 w.size
  let cst := chunkBytes w.chunks
  let sh := shapeBytes w.shapes
  let sf := match w.sf with | some t => sfBytes t w.bank | none => []
  let mx := match w.mx with | some m => mxBytes m w.acc | none => []
  let o1 := 64 + scr.length
  let o2 := o1 + cst.length
  let o3 := o2 + w.tags.length
  let o4 := o3 + sh.length
  let o5 := o4 + sf.length
  leBytes 2 w.wg ++ zeros 22 ++ leBytes 4 64 ++ leBytes 4 o1 ++ leBytes 4 o2 ++ leBytes 4 o3 ++
    leBytes 4 (if w.sf.isSome then o4 else 0) ++ leBytes 4 (if w.mx.isSome then o5 else 0) ++ zeros 8 ++
    leBytes 4 w.size ++ leBytes 4 (o5 + mx.length) ++ scr ++ cst ++ w.tags ++ sh ++ sf ++ mx

/-- The type code of a value of a function (R23). -/
def valueCode (f : Func) (m : Module) (v : Nat) : Nat :=
  (nth f.types 0 (tyOf (nth f.code 0 (nth (defWords m f.code) 0 v)))).toNat

/-- One value entry: number, kind (0 value, 1 replay load, 2 token), type code and bits. -/
def valueEntry (s : State) (m : Module) (f : Func) (t : CapThread) (rs : List Replay) (depth v : Nat) : List Byte :=
  let bits := ((t.vals.find? (fun x => x.1 == depth && x.2.1 == v)).map (·.2.2)).getD 0
  let code := valueCode f m v
  let rep := rs.find? (fun r => r.wg == t.wg && r.tid == t.tid && r.depth == depth && r.vnum == v)
  let tok := tyOfCode code == some .tok
  let kind := if rep.isSome then 1 else if tok then 2 else 0
  let data := match rep with
    | some r => r.va.toNat
    | none => if tok then (entryAt s bits.toNat).status.toNat else bits.toNat
  leBytes 3 v ++ zeros 3 ++ leBytes 1 kind ++ leBytes 1 code ++ leBytes 8 data

/-- A frame with the values of its point record (R161). -/
def frameBytes (s : State) (g : Nat) (m : Module) (r : CapRec) (t : CapThread) (depth : Nat) (v : VPC) (trap : Option Nat) (call : Bool) :
    List Byte :=
  let f := funcAt m v.fn
  let vs := frameVals s g v call
  let tr := match trap.bind (fun b => r.blocks.find? (fun x => x.id == b)) with
    | some b => trapBytes b.block.record
    | none => []
  leBytes 8 (v.fn % 4096 + (if trap.isSome then 4096 else 0) + v.toNat * 2 ^ 16 + vs.length % 65536 * 2 ^ 48) ++ zeros 8 ++ tr ++
    vs.flatMap (valueEntry s m f t r.replays depth)

/-- A join entry (R360). -/
def joinEntry (m : Module) (j : JoinPt × Nat) (fn : Nat) : List Byte :=
  let blk := fun (v : VPC) => blockOf (funcAt m v.fn).code v.ix
  leBytes 8 (match j.1 with
    | .block v => v.fn + blk v % 4096 * 2 ^ 12 + j.2 % 256 * 2 ^ 24
    | .after v => v.fn + blk v % 4096 * 2 ^ 12 + j.2 % 256 * 2 ^ 24
    | .exit => fn + j.2 % 256 * 2 ^ 24 + 2 ^ 32
    | .bundle k _ => k.fidx % 4096 + j.2 % 256 * 2 ^ 24)

/-- A withdrawn bid: key, identifier, lane, release bit, token reservations (R322). -/
def bidBytes (b : Bid) : List Byte :=
  leBytes 8 b.key.toNat ++ leBytes 2 b.ident ++ leBytes 1 b.lane ++ leBytes 1 (if b.rel then 1 else 0) ++
    leBytes 4 b.fills.length ++ zeros 16

def barBytes (t : Thread) : List Byte :=
  (List.range 8).flatMap (fun i => match t.bars[i]? with
    | none => zeros 8
    | some b => leBytes 8 (b.word.toNat + (b.arr.getD 0).toNat * 2 ^ 32 + 2 ^ 48 + (if b.arr.isSome then 2 ^ 49 else 0)))

/-- A thread section (R360). -/
def threadSection (s : State) (g : Nat) (m : Module) (r : CapRec) (t : CapThread) : List Byte :=
  match r.paths.find? (fun p => p.wg == t.wg && p.tids.contains t.tid) with
  | none => []
  | some p =>
    let fs := (frameSpots p.pc false p.frames).reverse
    let bids := (r.bids.filter (fun b => b.1 == t.wg && b.2.1 == t.tid)).map (·.2.2)
    let state := if p.frames.any (fun f => f.trap.isSome) then 2 else if p.waiting then 1 else 0
    let tail := p.chain.flatMap (fun j => joinEntry m j p.pc.fn) ++
      fs.flatMap (fun f => frameBytes s g m r t f.1 f.2.1 f.2.2.1 f.2.2.2) ++ bids.flatMap bidBytes ++ t.stack
    leBytes 2 t.tid ++ leBytes 2 bids.length ++ leBytes 1 state ++ leBytes 1 t.thread.flags.toNat ++ leBytes 2 fs.length ++
      leBytes 2 p.chain.length ++ zeros 6 ++ leBytes 4 p.pc.toNat ++ leBytes 4 (128 + tail.length) ++
      leBytes 4 t.thread.mode.toNat ++ zeros 4 ++ leBytes 8 t.thread.seed.toNat ++ zeros 24 ++ barBytes t.thread ++ tail

/-- The sections of a record: header without CHECK, workgroups, threads. -/
def recSections (s : State) (g : Nat) (r : CapRec) (status : Nat) : List (List Byte) :=
  let q := gangAt s g
  let m := moduleAt s q.module
  let la := launchAt s q.launch
  let wgs := r.wgs.map wgSection
  let ths := r.threads.map (threadSection s g m r)
  let thOff := 64 + (wgs.map List.length).sum
  let len := thOff + (ths.map List.length).sum
  let head := leBytes 4 0x5041435A ++ zeros 2 ++ leBytes 2 0x0100 ++ zeros 8 ++ leBytes 2 status ++
    leBytes 1 (r.srcDie + 16 * Config.dieKind r.srcDie + (if lrDebug la.record then 64 else 0)) ++
    leBytes 1 r.wgs.length ++ leBytes 2 r.threads.length ++ leBytes 2 q.x ++ leBytes 2 q.y ++ leBytes 2 q.z ++
    leBytes 4 thOff ++ leBytes 4 64 ++ leBytes 4 len ++ leBytes 8 m.mhash.toNat ++ leBytes 8 (lrId la.record).toNat
  (head ++ leBytes 8 (crc64 (wgs.flatten ++ ths.flatten)).toNat) :: (wgs ++ ths)

def recBytesAll (s : State) (g : Nat) (r : CapRec) : List Byte := (recSections s g r 1).flatten

/-! ### Capture (R357) -/

/-- Steps 1 to 3 of R357 are over: no command, no frozen bid, and every store, remote scratch access, strong load and peer
access of the gang has performed. -/
def captureReady (s : State) (g : Nat) : Bool :=
  let ws := gangWarps s g
  !s.e.cmds.any (fun k => k.2.gang == g) && !s.pl.bids.any (fun b => b.gang == g && b.frozen) &&
    ws.all (fun w => (warpAt s w).inflight.isEmpty) &&
    !s.r.trackers.any (fun t => match t.2.who with | .path p => ws.contains (p / 64) | .cmd _ => false) &&
    !s.e.swaps.any (fun x => ws.contains (x.pid / 64) && x.got.isSome)

/-- Where a captured gang waits: its die, or the die that its move takes it to (R336, R362). -/
def captureDest (g : Gang) : Nat := match g.target with | some (d, _) => d | none => g.die

/-- A gang as its record shows it: tokens that die have been popped, and every path stands at a virtual PC (R357, R360). -/
def atCapture (s : State) (g : Nat) : State :=
  let sd := (gangPaths s g).foldl (fun t p => match p.2.wait with
    | some (.dying ids) => if (t.x.paths.find? p.1).isSome && waitOver t p.1 (.dying ids) then endWait t p.1 (.dying ids) else t
    | _ => t) s
  (gangPaths sd g).foldl (fun t p => rebuild t p.1 0) sd

/-- Step 4 of R357: the record is written, the cores are freed, and the gang waits to be placed. -/
def captureNow (s : State) (g : Nat) (q : Gang) : State :=
  let s0 := atCapture s g
  let r := gather s0 g
  let bytes := recBytesAll s0 g r
  match takeSave s0 q.ctx (roundUp bytes.length 64) with
  | none => s
  | some (s1, o) =>
    let s2 := saveWrite s1 q.ctx o bytes
    let s3 : State := { s2 with pl := { s2.pl with bids := s2.pl.bids.filter (fun b => b.gang != g) } }
    let s4 := setGang (unplace s3 g) g { q with state := .captured }
    let dest := captureDest q
    let line := s4.h.waiting.ins dest (s4.h.waiting.getD [] dest ++ [g])
    let caps := s4.h.captures.ins g { r with off := o, len := bytes.length }
    let s5 : State := { s4 with h := { s4.h with captures := caps, waiting := line } }
    match q.target with
    | some (_, a) => postEvent s5 { gangFields s5 g 0x31 0x108 with addr := a }
    | none => s5

/-- R357: the capture waits for the gang's commands and accesses, and for room in the save region. -/
def execCapture (gang : Nat) (s : State) : Out :=
  match s.x.gangs.find? gang with
  | none => .fault .noSuchAgent
  | some g =>
    match g.state with
    | .halted .preempt => .next (if captureReady s gang then captureNow s gang g else s)
    | .halted .migrate => .next (if captureReady s gang then captureNow s gang g else s)
    | _ => .fault .noSuchAgent

/-! ### Restore (R361) -/

/-- Split records made for a restore, each known by its warp and its contents from itself outwards. -/
abbrev ChainMap := List ((Nat × List (JoinPt × Nat)) × Nat)

/-- The split record of a chain in a warp, made with its parents where it is not there yet. -/
def ensureChain (w : Nat) : List (JoinPt × Nat) → State × ChainMap → (State × ChainMap) × Option Nat
  | [], x => (x, none)
  | j :: js, x =>
    match x.2.find? (fun e => e.1 == (w, j :: js)) with
    | some e => (x, some e.2)
    | none =>
      let p := ensureChain w js x
      let s := p.1.1
      let i := s.c.nextId
      let k : Split := { warp := w, parent := p.2, depth := j.2, join := j.1 }
      (({ takeId s with x := { s.x with splits := s.x.splits.ins i k } }, ((w, j :: js), i) :: p.1.2), some i)

/-- Bytes of the frame of a function under the gang's key (R151). -/
def frameSize (s : State) (g : Nat) (fn : Nat) : Nat :=
  16 + 4 * frameWords (moduleAt s (gangAt s g).module) (calleeKey s g fn)

/-- Stack offset and size of the innermost of some frames. -/
def frameAt (s : State) (g kernel : Nat) : List Frame → Nat × Nat
  | [] => (0, frameSize s g kernel)
  | f :: fs => let o := frameAt s g kernel fs; (o.1 + o.2, frameSize s g f.fn)

/-- The link that stands in s125 while the innermost of some frames runs: the return point in the translation of the caller under
the gang's key (R152, R361). -/
def frameLink (s : State) (g : Nat) (m : Module) : List Frame → Word
  | [] => rootLink
  | f :: fs => if f.trap.isSome then frameLink s g m fs
      else
        let key := calleeKey s g f.callVpc.fn
        linkOf f.callVpc.fn (returnPoint (translateImage m key) f.callVpc (callPlace m key f.callVpc.ix f.fn))

/-- The headers of every frame of a path, rewritten for the gang's key (R151, R361). -/
def putHeaders (g kernel w : Nat) (m : Module) (ls : List Nat) : List Frame → State → State
  | [], s => putHeader s w 0 rootLink 0 0 ls
  | f :: fs, s =>
    let o := frameAt s g kernel (f :: fs)
    let up := frameAt s g kernel fs
    putHeader (putHeaders g kernel w m ls fs s) w o.1 (frameLink s g m (f :: fs)) (BitVec.ofNat 64 up.1) (BitVec.ofNat 64 up.2) ls

/-- The path registers at the innermost of some frames: s124 to s127. -/
def frameRegs (s : State) (g kernel w : Nat) (m : Module) (fs : List Frame) : Word × Word × Word × Word :=
  let o := frameAt s g kernel fs
  (BitVec.ofNat 64 o.2, frameLink s g m fs, BitVec.ofNat 64 (physStack s w (o.1 + 16)), BitVec.ofNat 64 o.1)

/-- The lanes of new warp number `num` that hold some thread indices. -/
def lanesIn (lanes num : Nat) (tids : List Nat) : Mask :=
  Mask.of ((tids.filter (fun t => t / lanes == num)).map (fun t => t % lanes))

/-- New numbers of trap blocks: old block and new warp, and the new number. -/
abbrev BlockMap := List ((Nat × Nat) × Nat)

def renameTrap (bm : BlockMap) (w : Nat) (f : Frame) : Frame :=
  { f with trap := f.trap.map (fun b => ((bm.find? (fun e => e.1 == (b, w))).map (·.2)).getD b) }

/-- The lanes of a captured trap block that lie in a new warp, moved to their new places. -/
def moveLanes (old new num : Nat) (onum : Nat) (ls : List Nat) : List (Nat × Nat) :=
  (ls.map (fun l => (l, onum * old + l))).filterMap (fun p =>
    if p.2 / new = num then some (p.1, p.2 % new) else none)

/-- A trap frame becomes a trap block of the warp (R361): `none` when the save region has no room. -/
def placeBlock (g kernel w num : Nat) (m : Module) (old new : Nat) (b : CapBlock) (x : (State × ChainMap) × BlockMap) :
    Option ((State × ChainMap) × BlockMap) :=
  let ls := moveLanes old new num b.num b.block.mask.lanes
  if ls.isEmpty then some x else
  let ch := ensureChain w b.chain x.1
  let s := ch.1.1
  let ctx := (gangAt s g).ctx
  let newLane : Nat → Option Nat := fun l => (ls.find? (fun p => p.1 == l)).map (·.2)
  let t0 := b.block.record
  let t := { t0 with lanes := Mask.of (t0.lanes.lanes.filterMap newLane),
                     addrs := t0.addrs.filterMap (fun a => (newLane a.1).map (fun l => (l, a.2))) }
  match takeSave s ctx b.block.len with
  | none => none
  | some (s1, o) =>
    let regs := frameRegs s1 g kernel w m b.block.frames
    let i := s1.c.nextId
    let k : TrapBlock := { b.block with
      warp := w, record := t, pc := .word t.vpc, split := ch.2, s124 := regs.1, s125 := regs.2.1, s126 := regs.2.2.1, s127 := regs.2.2.2,
      mask := Mask.of (ls.map (·.2)), left := b.block.left.filterMap (fun e => (newLane e.1).map (fun l => (l, e.2))),
      ctx := ctx, off := o }
    let s2 := saveWrite (takeId s1) ctx o (trapBytes t)
    some (({ s2 with x := { s2.x with blocks := s2.x.blocks.ins i k } }, ch.1.2), ((b.id, w), i) :: x.2)

/-- One captured path, or the part of it that lies in a new warp. Parts with equal fields were joined before. -/
def placePath (g kernel w num : Nat) (m : Module) (new : Nat) (held : Bool) (area : Word) (p : CapPath) (bm : BlockMap)
    (x : State × ChainMap) : State × ChainMap :=
  let mask := lanesIn new num p.tids
  if mask = 0 then x else
  let ch := ensureChain w p.chain x
  let fs := p.frames.map (renameTrap bm w)
  let s := putHeaders g kernel w m mask.lanes fs ch.1.1
  let regs := frameRegs s g kernel w m fs
  let add := fun (q : Path) => if p.waiting then addPath s w { q with wait := some .join } else addResumed s w q p.pc area
  (add { pathZero with
    mask := mask, pc := .word p.pc, frames := fs, split := ch.2, s124 := regs.1, s125 := regs.2.1, s126 := regs.2.2.1, s127 := regs.2.2.2, atExit := p.atExit, syncWait := p.syncWait,
    held := p.held || held, dbgCause := if held then p.dbgCause ||| 16 else p.dbgCause, dbgInfo := p.dbgInfo,
    readyAt := s.c.cycle }, ch.1.2)

/-- Captured paths with equal fields are one (R361). -/
def joinPaths : List CapPath → List CapPath
  | [] => []
  | p :: ps =>
    let rest := joinPaths ps
    match rest.find? (fun q => { q with tids := [], num := 0 } == ({ p with tids := [], num := 0 } : CapPath)) with
    | some q => { q with tids := p.tids ++ q.tids } :: rest.erase q
    | none => p :: rest

/-- A captured thread's state, values, token entries and stack in its new place. -/
def placeThread (w lane : Nat) (t : CapThread) (s : State) : State :=
  let k := w * 64 + lane
  let core := coreOfWarp w
  let s1 := setThread s k t.thread
  let s2 := t.vals.foldl (fun u v => setVal u k v.1 v.2.1 v.2.2) s1
  let s3 := t.toks.foldl (fun u i =>
    let e := entryAt u i
    setPair (setEntry u i { e with thread := k }) core e.prod e.cons (qPush 32 (pairAt u core e.prod e.cons) i)) s2
  ((List.range t.stack.length).zip t.stack).foldl (fun u b => scrPut u core (stackPa u w lane b.1) [b.2]) s3

/-- A captured workgroup's scratch and engine state on its new core. -/
def placeWg (s : State) (g : Nat) (c : CapWg) : State :=
  let k := g * 128 + c.wg
  let w := wgAt s k
  let lo := w.core * 2 ^ 18 + w.base
  let scr := c.bytes.foldl (fun m b => SMap.putD m 0 (lo + b.1) b.2) s.e.scr
  let s1 : State := { s with e := { s.e with scr := scr } }
  let s2 := ((List.range c.chunks.length).zip c.chunks).foldl (fun t x => setChunk t w.core (w.base / 512 + x.1) x.2) s1
  let s3 := ((List.range c.tags.length).zip c.tags).foldl (fun t x => setTag t w.core (w.base / 8192 + x.1) x.2) s2
  let s4 := setWg s3 k { w with shapes := c.shapes }
  let s5 := match c.mx with
    | some m =>
      let t := setMx s4 w.core m
      { t with e := { t.e with acc := c.acc.foldl (fun a e => SMap.putD a 0 (w.core * 32768 + e.1) e.2) t.e.acc } }
    | none => s4
  match c.sf with
  | some f =>
    let t := setSf s5 w.core { f with loads := [] }
    { t with e := { t.e with bank := c.bank.foldl (fun a e => SMap.putD a 0 (w.core * 8320 + e.1) e.2) t.e.bank } }
  | none => s5

/-- A replay load performs through the context's tables, and as an acquire it drops lines first (R286); `none` on a fault (R361). -/
def doReplay (g : Nat) (new : Nat) (s : State) (r : Replay) : Option State :=
  let q := gangAt s g
  let n := tyBytes r.ty
  match kernelXlate s q.ctx r.va .rd with
  | .error _ => none
  | .ok (a, _) =>
    let w := nth (wgAt s (g * 128 + r.wg)).warps 0 (r.tid / new)
    let s1 := if r.drop then dropLines s (clusterOf (coreOfWarp w)) false else s
    some (setVal s1 (w * 64 + r.tid % new) r.depth r.vnum (BitVec.ofNat 64 (readMem s a n)))

/-- The withdrawn bids arrive on the restoring die, with the thread index they have there; a release has been done (R322). -/
def resubmit (g new : Nat) (bids : List (Nat × Nat × Bid)) (s : State) : State :=
  let q := gangAt s g
  let move : Nat × Nat × Bid → Bid := fun b =>
    let w := nth (wgAt s (g * 128 + b.1)).warps 0 (b.2.1 / new)
    { b.2.2 with die := q.die, warp := w, core := coreOfWarp w, lane := b.2.1 % new, gidx := threadIndex w (b.2.1 % new),
                 rel := false, arrived := false, frozen := false }
  { s with pl := { s.pl with bids := s.pl.bids ++ bids.map move } }

/-- The module of a hash on a die that a gang runs from after a move. -/
def moduleOn (s : State) (die : Nat) (hash : Word) : Option Nat :=
  (s.h.modules.first (fun m => m.2.die == die && m.2.mhash == hash)).map (·.1)

/-- The context that a moved gang runs in on a die: the lowest-numbered live one that holds the module at the same data
base and maps the faulting page as a local or CXL leaf (R405). -/
def partnerCtx (s : State) (die : Nat) (g : Gang) (va : Word) : Option Nat :=
  let m := moduleAt s g.module
  ((List.range 64).map (fun n => die * 64 + n)).find? (fun c =>
    (ctxAt s c).state == .live &&
      s.h.modules.any (fun x => x.2.die == die && x.2.mhash == m.mhash && x.2.base == m.base && x.2.copies.contains c) &&
      (match walkVa s c va with | .leaf e _ => pteKind e != 2 | .fault _ _ => false))

/-- Whether the record in the save region is as it was written (R361). -/
def recordIntact (s : State) (r : CapRec) : Bool :=
  match kernelRead s r.ctx r.len (saveBase s r.ctx + BitVec.ofNat 64 r.off) with
  | none => false
  | some bs => crc64 (bs.drop 64) == BitVec.ofNat 64 (leNat ((bs.drop 56).take 8))

/-- The calls of a path that were made from divergent regions: the frames and the split record that its lanes have in common with
the others of the call, and the depth of the caller (R149). -/
def divSites (s : State) (p : Path) : List ((List Frame × Nat) × Nat) :=
  let trapped := ((handlerOf p).bind (s.x.blocks.find? ·)).bind (·.split)
  let n := p.frames.length
  ((List.range n).reverse).filterMap (fun d =>
    let fs := p.frames.drop (n - d - 1)
    if fs.head?.any (fun f => f.trap.isSome) then none
    else ((recordAt d (splitFuel s) p.split).or (recordAt d (splitFuel s) trapped)).map (fun r => ((fs, r), d)))
where
  /-- The innermost record of a chain that was made at depth `d` or above. -/
  recordAt (d : Nat) : Nat → Option Nat → Option Nat
    | 0, _ => none
    | _ + 1, none => none
    | f + 1, some r => match s.x.splits.find? r with
      | none => none
      | some k => if k.depth ≤ d then some r else recordAt d f k.parent

/-- The calls in force of a restored warp that were made from divergent regions, the deepest first (R149). -/
def restoreCalls (s : State) (w : Nat) : State :=
  let all := (pathsOf s w).flatMap (fun p => (divSites s p.2).map (fun c => (c, p.2.mask)))
  let keys := (all.map (·.1)).eraseDups
  let calls := keys.map (fun k => ((all.filter (fun x => x.1 == k)).foldl (fun (m : Mask) x => m ||| x.2) 0, k.2))
  let top := (calls.map (·.2)).foldl max 0
  updWarp s w (fun q => { q with divCalls := ((List.range (top + 1)).reverse).flatMap (fun d => calls.filter (fun c => c.2 == d)) })

/-- The gang stands on its new cores: threads, trap blocks and paths of every warp. -/
def placeAll (g kernel : Nat) (m : Module) (old new : Nat) (held : Bool) (r : CapRec) (s : State) : Option State :=
  let ws := (s.x.wgs.filter (fun w => w.1 / 128 == g)).flatMap (fun w => w.2.warps)
  let s1 := r.threads.foldl (fun t x =>
    placeThread (nth (wgAt t (g * 128 + x.wg)).warps 0 (x.tid / new)) (x.tid % new) x t) s
  let bs := ws.foldl (fun o w => (r.blocks.filter (fun b => b.wg == (warpAt s1 w).wg)).foldl (fun o b =>
    o.bind (placeBlock g kernel w (warpAt s1 w).num m old new b)) o) (some ((s1, []), []))
  let area := saveBase s r.ctx + BitVec.ofNat 64 r.off
  bs.map (fun x => ws.foldl restoreCalls (ws.foldl (fun y w => ((joinPaths r.paths).filter (fun p => p.wg == (warpAt s1 w).wg)).foldl (fun y p =>
    placePath g kernel w (warpAt s1 w).num m new held area p x.2 y) y) x.1).1)

/-- R361, R407, R408: the cached lines of its new cluster that its threads may not read go (R282, R286); the gang is placed on a
die of either kind under the cap of that kind, its state is rebuilt, replay loads perform and withdrawn bids arrive again. A gang
that a debugger held stays held; one that moved under a debugger is held anew, and its record stays until it is released. -/
def restoreNow (s : State) (die g : Nat) (r : CapRec) (c : Nat) (ps : List Place) (q : Need) : State :=
  let old := gangAt s g
  let la := launchAt s old.launch
  let away := old.die != die
  let ctx := match old.target with
    | some (_, va) => if away then (partnerCtx s die old va).getD old.ctx else old.ctx
    | none => old.ctx
  let mo := if away then (moduleOn s die old.key.mhash).getD old.module else old.module
  let gang : Gang := { old with
    die := die, ctx := ctx, cluster := c, core0 := (ps.head?.map (·.core)).getD 0, module := mo, state := .resident,
    key := { old.key with dkind := Config.dieKind die, cap := q.cap }, seq := s.c.nextId, progressAt := s.c.cycle,
    movedAt := if away then some s.c.cycle else old.movedAt, target := none }
  let held := away && lrDebug la.record
  let line := s.h.waiting.ins die ((s.h.waiting.getD [] die).filter (· != g))
  let s1 := setGang { takeId s with h := { s.h with waiting := line } } g gang
  let s2 := setCluster s1 c { clusterAt s1 c with placedAt := some s.c.cycle }
  let s3 := setDie s2 die { dieAt s2 die with lastCluster := some (c % 4) }
  let s4 := ((List.range ps.length).zip ps).foldl (fun t kp => addWg t g kp.1 q kp.2) s3
  let s5 := r.wgs.foldl (fun t w => placeWg t g w) (dropLines s4 c true)
  match placeAll g (lrFunc la.record) (moduleAt s5 mo) (Config.lanes r.srcDie) (Config.lanes die) held r s5 with
  | none => failGang s5 g 0x3E 0
  | some s6 =>
    match r.replays.foldl (fun o x => o.bind (fun t => doReplay g (Config.lanes die) t x)) (some s6) with
    | none => failGang s6 g 0x107 0
    | some s7 =>
      let s8 := resubmit g (Config.lanes die) r.bids s7
      let s9 := if away then postEvent s8 { gangFields s8 g 0x32 0x108 with addr := r.moved.getD 0 } else s8
      if held then s9 else
      let t := freeSave s9 r.ctx r.off
      { t with h := { t.h with captures := t.h.captures.del g } }

/-- R361. -/
def execRestore (die gang : Nat) (s : State) : Out :=
  match s.h.captures.find? gang with
  | none => .fault .noSuchAgent
  | some r =>
    if (gangAt s gang).state != .captured then .fault .noSuchAgent else
    let q := capNeed s die gang
    match findPlace s q with
    | none => .next s
    | some (c, ps) =>
      .next (if recordIntact s r then restoreNow s die gang r c ps q else
        let line := s.h.waiting.ins die ((s.h.waiting.getD [] die).filter (· != gang))
        failGang { s with h := { s.h with waiting := line } } gang 7 0)

end Sys2Proof.Machine
end

