-- ==== Sys2Proof/Machine/Faults.lean ====
section
/-!
DEFINITION. What the kernel does with queued faults, moves between dies, core dumps, hang records, the scrubber and the
event ring (R65, R86 to R89, R362 to R371, R405, R407, R424).
-/
namespace Sys2Proof.Machine

/-! ### Queued faults (R88, R89, R104) -/

def faultAt (s : State) (die fid : Nat) : Option QFault := (s.m.faults.find? fid).filter (fun f => f.die == die)

def wakeCmds (s : State) (ws : List Waiter) : State :=
  ws.foldl (fun t w => match w with
    | .cmd i => updCmd t i (fun k => { k with parked := none })
    | .path _ => t) s

/-- The entry leaves the queue; the accesses and commands that wait for it run again. -/
def resolveFault (s : State) (fid : Nat) (f : QFault) : State :=
  wakeCmds (wakePaths (setFaults s (s.m.faults.del fid)) f.waiters) f.waiters

/-- A fault that is not resolved: the access traps when it replays (R88), the command's chunks of the page fail (R104). A
federated fault fails as a peer fault (R86). -/
def loseFault (s : State) (fid : Nat) (f : QFault) : State :=
  let cause := if f.kind = 3 then 6 else f.kind
  f.waiters.foldl (fun t w => match w with
    | .path p => updPath t p (fun q => { q with wait := none, noFix := true, readyAt := s.c.cycle })
    | .cmd i => updCmd t i (fun k => { k with parked := none, dead := pageOf f.va :: k.dead, cause := mergeCause k.cause cause }))
    (setFaults s (s.m.faults.del fid))

/-- R88: the page is mapped now. A fault of an address, of rights, of format or of a peer is never resolved (R87). -/
def execFaultResolved (die fid : Nat) (s : State) : Out :=
  match faultAt s die fid with
  | none => .fault .noSuchAgent
  | some f => match f.kind, walkVa s f.ctx f.va with
    | 2, .leaf _ _ => .next (resolveFault s fid f)
    | _, _ => .next s

/-- R88. -/
def execFaultFailed (die fid : Nat) (s : State) : Out :=
  match faultAt s die fid with
  | none => .fault .noSuchAgent
  | some f => .next (loseFault s fid f)

/-! ### Federated faults (R86, R362, R363) -/

/-- The gangs whose threads wait for a fault. -/
def faultGangs (s : State) (f : QFault) : List Nat :=
  sortDistinct (f.waiters.filterMap (fun w => match w with
    | .path p => some (warpAt s (warpOfPath p)).gang
    | .cmd _ => none))

def migratable (s : State) (g : Nat) : Bool := lrMigratable (launchAt s (gangAt s g).launch).record

/-- One gang of the launch fits an empty cluster of the owner's kind (R363). -/
def fitsOn (s : State) (owner g : Nat) : Bool := fitsEmpty s (capNeed s owner g)

/-- Whether a federated fault moves a gang to the owner (R362): it fits, has a partner context there, and has not moved
within 100 microseconds, which are 100,000 cycles. -/
def moves (s : State) (f : QFault) (g : Nat) : Bool :=
  let q := gangAt s g
  migratable s g && q.state == .resident && fitsOn s f.owner g && (partnerCtx s f.owner q f.va).isSome &&
    (match q.movedAt with | none => true | some c => decide (c + 100000 ≤ s.c.cycle))

/-- The event of a gang that stays because it never fits the owner (R363). -/
def runsRemotely (s : State) (f : QFault) : State :=
  ((faultGangs s f).filter (fun g => migratable s g && !fitsOn s f.owner g)).foldl
    (fun t g => postEvent t { gangFields t g 0x33 0x108 with addr := f.va, tenant := 0 }) s

/-- The owner's lowest live export whose context maps the page at the same virtual address, and that leaf (R86). -/
def ownerExport (s : State) (owner : Nat) (va : Word) : Option (Nat × ExportRec × Word) :=
  (s.h.exports.filter (fun e => e.1 / 16384 == owner && e.2.live)).findSome? (fun e =>
    let lo := e.2.base.toNat
    if lo ≤ va.toNat ∧ va.toNat < lo + e.2.pages * 65536 then
      (match walkVa s e.2.ctx va with
       | .leaf l _ => if pteKind l = 2 then none else some (e.1 % 16384, e.2, l)
       | .fault _ _ => none)
    else none)

/-- Whether two kernels can reach each other over their spine links (R19, R394). -/
def linked (s : State) (a b : Nat) : Bool := a == b || ((dieAt s a).spineReady && (dieAt s b).spineReady)

/-- A peer leaf (R72): V, LEAF, the rights, the ordering kind, kind 2, and the owner's export. -/
def peerLeaf (maxrt : BitVec 4) (ord odie exp pidx gen : Nat) : Word :=
  BitVec.ofNat 64 (3 + maxrt.toNat % 8 * 4 + ord % 4 * 64 + 2 * 256 + gen % 16 * 4096 + pidx % 2 ^ 22 * 2 ^ 16
    + exp % 2 ^ 14 * 2 ^ 38 + odie % 16 * 2 ^ 52)

/-- The state with a peer leaf for the page of a fault (R86); `none` when the owner has no such export. -/
def installPeer (s : State) (f : QFault) : Option State :=
  match ownerExport s f.owner f.va with
  | none => none
  | some (ix, e, leaf) =>
    let va := f.va.toNat / 65536 * 65536
    putEntry f.die va 0 (peerLeaf e.maxrt (pteOrd leaf) f.owner ix ((va - e.base.toNat) / 65536) e.gen) 5
      (ctxAt s f.ctx).root s

/-- R86: the kernel waits for the spine links to the owner (R19); gangs that move go first; otherwise a peer leaf serves every
waiter, and without one the access fails as a peer fault. -/
def execFederatedFaultService (die fid : Nat) (s : State) : Out :=
  match faultAt s die fid with
  | none => .fault .noSuchAgent
  | some f =>
    if f.kind ≠ 3 then .fault .noSuchAgent
    else if !linked s die f.owner then .next s
    else if (faultGangs s f).any (moves s f) then .next (enqueue s (.migration die fid))
    else
      let s1 := runsRemotely s f
      .next (match installPeer s1 f with
        | some t => resolveFault t fid f
        | none => loseFault s1 fid f)

/-- Whether a waiter is a path of a gang. -/
def ofGang (s : State) (g : Nat) (w : Waiter) : Bool :=
  match w with | .path p => (warpAt s (warpOfPath p)).gang == g | .cmd _ => false

/-- A gang leaves a fault's waiters for its halt; it takes the owner and the faulting address as its target (R362, R407). -/
def sendAway (f : QFault) (fid : Nat) (s : State) (g : Nat) : State :=
  let mine := f.waiters.filter (ofGang s g)
  let s1 := wakePaths (setFaults s (s.m.faults.upd fid (fun q => { q with waiters := q.waiters.filter (fun w => !mine.contains w) }))) mine
  enqueue (updGang s1 g (fun q => { q with target := some (f.owner, f.va) })) (.halt g .migrate)

/-- R362: each gang that moves is halted for its capture; what else waits for the fault is served after it. -/
def execMigration (die fid : Nat) (s : State) : Out :=
  match faultAt s die fid with
  | none => .fault .noSuchAgent
  | some f =>
    let s1 := ((faultGangs s f).filter (moves s f)).foldl (sendAway f fid) s
    .next (match s1.m.faults.find? fid with
      | none => s1
      | some q => if q.waiters.isEmpty then setFaults s1 (s1.m.faults.del fid)
        else enqueue s1 (.federatedFaultService die fid))

/-! ### Core dumps (R371) -/

/-- The dump buffer of a launch: its address, and its size in bytes. -/
def dumpBuffer (r : BitVec 1024) : Word × Nat :=
  (BitVec.ofNat 64 ((lrDump r).toNat / 65536 * 65536), (lrDump r).toNat % 65536 * 65536)

/-- Each section with its offset in the buffer. -/
def placed : Nat → List (List Byte) → List (Nat × List Byte)
  | _, [] => []
  | o, b :: bs => (o, b) :: placed (o + b.length) bs

/-- The preamble. -/
def dumpHead (need valid : Nat) (addr : Word) (status : Nat) : List Byte :=
  leBytes 8 need ++ leBytes 8 valid ++ leBytes 8 addr.toNat ++ leBytes 8 status

/-- Writes the sections that fit whole, in order, up to the first fault: the state, the valid bytes, and the fault. -/
def dumpSections (ctx : Nat) (base : Word) : List (Nat × List Byte) → Nat → State → State × Nat × Option Word
  | [], n, s => (s, n, none)
  | (o, b) :: bs, n, s =>
    match kernelWrite s ctx (base + BitVec.ofNat 64 o) b with
    | .ok t => dumpSections ctx base bs (n + b.length) t
    | .error (t, a) => (t, (a - base).toNat, some a)

/-- R371. -/
def execDumpWrite (gang : Nat) (s : State) : Out :=
  match s.x.gangs.find? gang with
  | none => .fault .noSuchAgent
  | some g =>
    let r := (launchAt s g.launch).record
    if g.state != .failing || lrDump r == 0 then .fault .noSuchAgent else
    let (base, size) := dumpBuffer r
    let lost := postEvent s { evZero with kind := 0x17, die := g.die, tag := lrId r, addr := base }
    let c := gather s gang
    let fits := decide (32 + (recSections s gang c 2).flatten.length ≤ size)
    let all := placed 32 (recSections s gang c (if fits then 3 else 6))
    let need := 32 + (all.map (fun x => x.2.length)).sum
    if size < 32 then .next lost else
    match kernelWrite s g.ctx base (dumpHead need 32 0 0) with
    | .error _ => .next lost
    | .ok s1 =>
      let (s2, n, bad) := dumpSections g.ctx base (all.filter (fun x => decide (x.1 + x.2.length ≤ size))) 32 s1
      let status := (if fits && bad.isNone then 1 else 0) + (if fits then 0 else 2) + (if bad.isSome then 4 else 0)
      .next (match kernelWrite s2 g.ctx base (dumpHead need n (bad.getD 0) status) with
        | .ok t => t
        | .error (t, _) => t)

/-! ### Hang records (R366, R367) -/

/-- The queue of commands at an engine of a core, head first: BX, MX, bids, swaps. -/
def engineQueue (s : State) (core engine : Nat) : List Nat :=
  let started := (s.e.cmds.filter (fun k => k.2.engine == engine && k.2.core == core && k.2.started)).map (·.1)
  if engine = 2 then started ++ qIds (s.e.bxq.getD queueZero core)
  else if engine = 3 then qIds (s.e.mxq.getD queueZero core) else []

/-- State code of a head command: 1 waiting on a pop, 2 running, 3 parked, 4 budget. -/
def headState (k : Cmd) : Nat :=
  if k.parked.isSome then 3 else if k.since.isSome then 4 else if k.started then 2 else 1

/-- One engine head: 12 bytes of slot image, which follow from the lowering (log 1), the issuing thread, the state and
the depth. -/
def headBytes (s : State) (place warp lane state depth : Nat) : List Byte :=
  leBytes 8 (Config.freeWord (s.c.fresh + place)).toNat ++ leBytes 4 (Config.freeWord (s.c.fresh + place + 1)).toNat ++
    leBytes 1 (warp % 16) ++ leBytes 1 lane ++ leBytes 1 state ++ zeros 1 ++ leBytes 4 depth ++ zeros 44

/-- The four engine heads of a core (B, M, P, X). -/
def headsBytes (s : State) (core : Nat) : List Byte :=
  let cmdHead : Nat → Nat → List Byte := fun e place =>
    match engineQueue s core e with
    | [] => zeros 64
    | i :: is => match s.e.cmds.find? i with
      | none => zeros 64
      | some k => headBytes s place (warpOfPath k.pid) k.lane (headState k) (is.length + 1)
  let bids := s.pl.bids.filter (fun b => b.core == core)
  let swaps := s.e.swaps.filter (fun x => coreOfPath x.pid == core)
  cmdHead 2 0 ++ cmdHead 3 2 ++
    (match bids with | [] => zeros 64 | b :: _ => headBytes s 4 b.warp b.lane (if b.arrived then 2 else 1) bids.length) ++
    (match swaps with
      | [] => zeros 64
      | x :: _ => headBytes s 6 (warpOfPath x.pid) (((x.vals.head?).map (·.1)).getD 0) (if x.got.isSome then 2 else 1) swaps.length)

/-- Pops that wait at a queue of a core: of commands, and of paths. -/
def waitingPops (s : State) (core x y : Nat) : Nat :=
  let ofCmd : Cmd → Nat := fun k =>
    if k.core = core ∧ k.engine = y ∧ k.started = false then (k.pops.filter (fun p => p == .queue x)).length else 0
  let ofPath : Path → Nat := fun p => match p.wait with
    | some (.heads c ps) => if c = core then (ps.map (fun q => if q.1 = x ∧ q.2.1 = y then q.2.2 else 0)).sum else 0
    | _ => 0
  (s.e.cmds.map (fun k => ofCmd k.2)).sum + ((s.x.paths.filter (fun p => p.1 / 1024 == core)).map (fun p => ofPath p.2)).sum

/-- Whether a waiting pop of a queue is an orphan: the queue holds no reserved entry, on chip or in its ring (R367). -/
def orphan (s : State) (core x y : Nat) : Bool :=
  decide (0 < waitingPops s core x y) && (qIds (pairAt s core x y)).isEmpty

/-- The pair queues tq.xy of a core, x and y from 1 to 5. -/
def pairsBytes (s : State) (core : Nat) : List Byte :=
  (List.range 25).flatMap (fun i =>
    let x := i / 5 + 1
    let y := i % 5 + 1
    let ids := qIds (pairAt s core x y)
    leBytes 2 ids.length ++ leBytes 2 (ids.filter (isFilled s)).length ++ leBytes 2 (waitingPops s core x y) ++
      leBytes 1 (if orphan s core x y then 1 else 0) ++ zeros 1)

/-- One path entry: VPC, mask, stall cause with the orphan mark in bit 7, word or bundle index of the join. -/
def pathBytes (s : State) (core : Nat) (p : Path) : List Byte :=
  let orph := match p.wait with | some (.heads c ps) => c == core && ps.any (fun q => orphan s core q.1 q.2.1) | _ => false
  let join := match p.split.bind (s.x.splits.find? ·) with
    | none => 0xFFFFFF
    | some k => (match k.join with | .block v => v.ix | .after v => v.ix | .exit => 0xFFFFFF | .bundle _ ix => ix)
  leBytes 4 (pcVpc s p).toNat ++ leBytes 8 p.mask.toNat ++ leBytes 1 (stallOf p + (if orph then 128 else 0)) ++ leBytes 3 join

/-- The hang record of a core for a gang. -/
def hangBytes (s : State) (gang core : Nat) : List Byte :=
  let g := gangAt s gang
  let head := leBytes 1 g.die ++ leBytes 1 (core / 96 % 4) ++ leBytes 1 (core % 96) ++ leBytes 1 (dieAt s g.die).stallK ++
    leBytes 4 (tick s) ++ leBytes 8 (lrId (launchAt s g.launch).record).toNat ++ leBytes 2 g.x ++ leBytes 2 g.y ++ leBytes 2 g.z
  let paths := (List.range 256).flatMap (fun i =>
    match (pathsOf s (core * 16 + i / 16)).find? (fun p => p.2.slotIx == some (i % 16)) with
    | some p => pathBytes s core p.2
    | none => zeros 16)
  head ++ zeros 42 ++ headsBytes s core ++ pairsBytes s core ++ paths

/-- R366: the record, where the save region has room, and the event; the timer restarts. -/
def execStallTimeout (gang core : Nat) (s : State) : Out :=
  match s.x.gangs.find? gang with
  | none => .fault .noSuchAgent
  | some g =>
    let bs := hangBytes s gang core
    let (s1, addr) := match takeSave s g.ctx (roundUp bs.length 64) with
      | none => (s, (0 : Word))
      | some (t, o) => ({ saveWrite t g.ctx o bs with c := { t.c with fresh := t.c.fresh + 8 } },
          saveBase s g.ctx + BitVec.ofNat 64 o)
    let s2 := updGang s1 gang (fun q => { q with progressAt := s.c.cycle, hung := true })
    .next (postEvent s2 { gangFields s2 gang 0x10 0 with addr := addr, tenant := 0 })

/-! ### The scrubber and the event ring (R64, R65, R368, R393) -/

/-- R64, R65: a corrected burst is counted and written back; one beyond correction is counted, reported and left as it stands, so
that what consumes its data fails. -/
def execPatrolScrub (die pa : Nat) (found : BurstState) (s : State) : Out :=
  let k := lpKey die (pa / 32 * 32)
  let rest := s.m.badBursts.filter (· != k)
  let mark : State → List Nat → State := fun t l => { t with m := { t.m with badBursts := l } }
  .next (match found with
    | .clean => mark s rest
    | .corrected => mark (countDie s die 0 1) rest
    | .uncorrectable => postEvent (mark (countDie s die 1 1) (rest ++ [k])) { evZero with kind := 0x11, die := die, addr := BitVec.ofNat 64 pa })

/-- The counting record of R368. -/
def foldBits (f : FoldRec) : BitVec 256 :=
  BitVec.ofNat 256 (f.kind.toNat % 128 + 128 + 2 ^ 8 * f.dieByte.toNat + 2 ^ 16 * f.cause.toNat + 2 ^ 32 * f.last.toNat
    + 2 ^ 128 * f.first.toNat + 2 ^ 192 * (f.count % 2 ^ 64))

/-- Slots of 32 bytes free in a ring. -/
def ringFree (r : RecRing) : Nat := (r.size - (r.wr - r.rd)) / 32

/-- Writes records into the event ring of a die, each also sent as an event message (R391, R393). -/
def putRecords (s : State) (die : Nat) (rs : List (BitVec 256)) : State :=
  rs.foldl (fun t b =>
    match (dieAt t die).evRing with
    | none => t
    | some r =>
      let t1 := ringPut t r r.wr (leBytes 32 b.toNat)
      let t2 := setDie t1 die { dieAt t1 die with evRing := some { r with wr := r.wr + 32 } }
      { t2 with h := { t2.h with out := t2.h.out ++ [.event die b] } }) s

/-- R368: records that the ring can take leave the F-die, the held ones first, then the counting records; dispatch resumes
below 128 held records. -/
def execEventFold (die : Nat) (s : State) : Out :=
  match (dieAt s die).evRing with
  | none => .next s
  | some r =>
    let d := dieAt s die
    let n := ringFree r
    let a := d.held.take n
    let b := if d.held.length ≤ n then d.folds.take (n - d.held.length) else []
    let s1 := putRecords s die (a ++ b.map foldBits)
    let d1 := dieAt s1 die
    let held := d.held.drop n
    .next (setDie s1 die { d1 with
      held := held
      folds := d.folds.drop b.length
      noDispatch := d.noDispatch && decide (128 ≤ held.length) })

end Sys2Proof.Machine
end

