-- ==== Sys2Proof/Machine/Requests.lean ====
section
/-!
DEFINITION. The requests of the launch, handle and event endpoints, but for module loads (R42, R82 to R85, R165, R299,
R320, R328 to R331, R337, R366, R391 to R396).
-/
namespace Sys2Proof.Machine

/-! ### Launch submission (R328, R329) -/

/-- The handle record that a launch record names, in the request's context and not being unloaded. -/
def namedHandle (s : State) (ctx : Nat) (r : BitVec 1024) : Option HandleRec :=
  (s.h.handles.find? (lrHandle r)).filter (fun x => x.ctx == ctx && x.leaving.isNone)

/-- Code 0x24: CAPOCC (R328). -/
def capOccBad (die : Nat) (r : BitVec 1024) : Bool :=
  let o := lrCapOcc r
  bitsOf o 11 4 != 0 ||
    (if 32768 ≤ o then decide (o % 2048 < 32) || decide (Config.vregs die < o % 2048)
     else bitsOf o 5 6 != 0 || decide (16 < o % 32))

def eventBad (e : Nat) : Bool := decide (4095 < e) && e != 0xFFFF

/-- The checks of R329 in the order of its table, each with the byte offset of its field in the record. -/
def launchCheck (s : State) (h : Hdr) (queue : Nat) (r : BitVec 1024) : Option Nat :=
  let ctx := ctxKey h
  let hd := namedHandle s ctx r
  let m := moduleAt s ((hd.map (·.module)).getD 0)
  let f := funcAt m (lrFunc r)
  let hf := funcAt m (lrHandler r)
  let dump := lrDump r
  firstFail ([
    (hd.isNone || decide (m.funcs.length ≤ lrFunc r) || !f.fflags.getLsbD 0, 0x20),
    (lrHandler r != 0xFFFF && (decide (m.funcs.length ≤ lrHandler r) || !hf.fflags.getLsbD 1), offCode 0x21 42),
    (lrGridX r == 0, offCode 0x22 18), (lrGridY r == 0, offCode 0x22 20), (lrGridZ r == 0, offCode 0x22 22),
    (lrWgs r == 0 || decide (96 < lrWgs r), offCode 0x22 25),
    (lrThreads r == 0 || decide (512 < lrThreads r), offCode 0x22 26),
    (decide (lrThreads r < lrSpan0 r + lrSpanCnt r), offCode 0x23 38),
    (capOccBad h.die r, offCode 0x24 36),
    (lrStack r % 16 != 0 || decide (lrStack r < 16) || decide (16384 < lrStack r), offCode 0x25 28),
    (lrScratch r % 16 != 0 || decide (262144 < lrScratch r), offCode 0x25 32),
    (!fitsEmpty s (needOf h.die m r), offCode 0x26 25),
    (decide (63 < queue), 0x27), (bitsOf (recBytes r 0 2) 12 4 != 0, 0x27), (recBytes r 16 2 != 0, offCode 0x27 16),
    (recBytes r 24 1 != 0, offCode 0x27 24), (decide (16 ≤ lrFlags r), offCode 0x27 44)]
    ++ (List.range 8).map (fun i => (decide (f.nparam ≤ i) && lrParam r i != 0, offCode 0x27 (64 + 8 * i)))
    ++ [(lrTurn r && !(ctxAt s ctx).turnRight, offCode 0x28 44), (eventBad (lrSigEv r), offCode 0x29 46)]
    ++ (List.range 4).map (fun i => (eventBad (lrWaitEv r i), offCode 0x29 (48 + 2 * i)))
    ++ [(decide (2 ^ 56 ≤ dump.toNat) || (dump.toNat % 65536 == 0 && dump != 0), offCode 0x2A 56)])

/-- A launch behind those already in its queue. -/
def submitLaunch (s : State) (h : Hdr) (queue : Nat) (r : BitVec 1024) : State :=
  let l := s.c.nextId
  let m := ((namedHandle s (ctxKey h) r).map (·.module)).getD 0
  let la : Launch := { die := h.die, ctx := ctxKey h, queue := queue, record := r, module := m, handle := lrHandle r,
                       next := 0, live := 0, bad := false, retired := false }
  let q := queueAt s h.die queue
  setQueue (setLaunch (takeId s) l la) h.die queue { q with launches := q.launches ++ [l] }

/-- R329. -/
def execLaunchSubmit (h : Hdr) (queue : Nat) (rec : BitVec 1024) (s : State) : Out :=
  request s h shaderOnly (launchCheck s h queue rec) (done (submitLaunch s h queue rec) h [])

/-! ### Cancel (R337) -/

/-- A captured gang is dropped with its record, and reported aborted. -/
def dropCaptured (s : State) (g : Nat) : State :=
  match s.h.captures.find? g with
  | none => s
  | some r =>
    let q := gangAt s g
    let s1 := freeSave s r.ctx r.off
    let s2 : State := { s1 with h := { s1.h with
        captures := s1.h.captures.del g
        waiting := s1.h.waiting.map (fun w => (w.1, w.2.filter (· != g))) } }
    let s3 := postEvent s2 { gangFields s2 g 0x03 0 with addr := BitVec.ofNat 64 q.issued, tenant := 0 }
    let la := launchAt s3 q.launch
    setLaunch (setGang s3 g { q with state := .retired }) q.launch { la with live := la.live - 1, bad := true }

/-- The cancel of one launch: gangs not dispatched are dropped, captured ones are dropped with their records, and
resident ones abort. -/
def cancelLaunch (s : State) (l : Nat) : State :=
  let s1 := dropGangs s l
  let mine := (s1.x.gangs.filter (fun g => g.2.launch == l)).map (fun g => (g.1, g.2.state))
  let s2 := (mine.filter (fun g => g.2 == .captured)).foldl (fun t g => dropCaptured t g.1) s1
  let s3 := (launchGangs s2 l).foldl (fun t g => enqueue t (.halt g .cancel)) s2
  if launchOver s3 l then enqueue s3 (.launchRetire l) else s3

/-- R337. A dispatch of the same cycle commits first (R338). -/
def execLaunchCancel (h : Hdr) (launchId : BitVec 64) (s : State) : Out :=
  if s.c.agenda.any (fun i => match i with | .gangDispatch d => d == h.die | _ => false) then .next (enqueue s (.launchCancel h launchId)) else
  let ls := launchesNamed s h launchId
  request s h shaderOnly (firstFail [(ls.isEmpty, 0x3B)]) (done (ls.foldl (fun t l => cancelLaunch t l.1) s) h [])

/-! ### Queues, events, settings (R276, R330, R331, R366) -/

/-- R330. -/
def execQueuePriority (h : Hdr) (queue prio : Nat) (s : State) : Out :=
  request s h shaderOnly
    (firstFail [(decide (63 < queue), 0x3A), (decide (7 < prio), offCode 0x3A 1),
      (!(queueAt s h.die queue).launches.isEmpty, 0x3A)])
    (done (setQueue s h.die queue { queueAt s h.die queue with prio := prio }) h [])

/-- R331. -/
def execEventSet (h : Hdr) (index : Nat) (s : State) : Out :=
  request s h shaderOnly (firstFail [(decide (4095 < index), 0x3B)]) (done (setEv s h.die index .signalled) h [])

/-- R331. -/
def execEventReset (h : Hdr) (index : Nat) (s : State) : Out :=
  request s h shaderOnly (firstFail [(decide (4095 < index), 0x3B)]) (done (setEv s h.die index .reset) h [])

/-- R276, R366. -/
def execDeviceSettings (h : Hdr) (stallK det : Nat) (s : State) : Out :=
  request s h shaderOnly
    (firstFail [(decide (stallK < 16) || decide (34 < stallK), 0x3B), (decide (1 < det), offCode 0x3B 1)])
    (done (setDie s h.die { dieAt s h.die with stallK := stallK, det := det == 1 }) h [])

/-! ### Handles (R82 to R85, R299) -/

/-- The fields of a handle (R82). -/
def hdDie (v : Word) : Nat := (v.extractLsb' 60 4).toNat
def hdExp (v : Word) : Nat := (v.extractLsb' 46 14).toNat
def hdGen (v : Word) : Nat := (v.extractLsb' 42 4).toNat
def hdPages (v : Word) : Nat := (v.extractLsb' 20 22).toNat + 1
def hdMaxrt (v : Word) : BitVec 4 := v.extractLsb' 16 4

/-- A handle with its check code. -/
def handleWord (die exp gen pages : Nat) (maxrt : BitVec 4) : Word :=
  let top := BitVec.ofNat 48 (die % 16 * 2 ^ 44 + exp % 2 ^ 14 * 2 ^ 30 + gen % 16 * 2 ^ 26 + (pages - 1) % 2 ^ 22 * 2 ^ 4 + maxrt.toNat)
  top ++ Config.handleCheck die top

def exportAt (s : State) (v : Word) : Option ExportRec := s.h.exports.find? (hdDie v * 16384 + hdExp v)

/-- The owner's checks of a handle (R83): check code, index, generation. The reserved bit 3 of MAXRT (R82) is covered by the check
code alone: no handle that the owner has made carries it, and R83 names no check of its own for it (log 83). -/
def handleGood (s : State) (v : Word) : Bool :=
  v.extractLsb' 0 16 == Config.handleCheck (hdDie v) (v.extractLsb' 16 48) &&
    (match exportAt s v with | some x => x.live && x.gen == hdGen v | none => false)

/-- The lowest export index that is free (R82, R85). -/
def freeExport (s : State) (die : Nat) : Option Nat :=
  ((List.range 16383).map (· + 1)).find? (fun i => match s.h.exports.find? (die * 16384 + i) with
    | none => true
    | some x => !x.live && x.imports.isEmpty)

/-- A range mapped local or CXL throughout. -/
def rangeOwn (s : State) (ctx : Nat) (base len : Nat) : Bool :=
  decide (base + len ≤ 2 ^ 57) && (List.range (len / 65536)).all (fun i => match walkVa s ctx (BitVec.ofNat 64 (base + i * 65536)) with
    | .leaf e _ => pteKind e != 2
    | .fault _ _ => false)

/-- R82. -/
def execHandleExport (h : Hdr) (base length : BitVec 64) (rights : BitVec 8) (s : State) : Out :=
  let ctx := ctxKey h
  let pages := length.toNat / 65536
  let ix := (freeExport s h.die).getD 0
  let gen := match s.h.exports.find? (h.die * 16384 + ix) with | none => 1 | some x => x.gen
  let maxrt : BitVec 4 := rights.setWidth 4
  let x : ExportRec := { live := true, ctx := ctx, base := base, pages := pages, maxrt := maxrt, gen := gen, imports := [] }
  request s h shaderOnly
    (firstFail [(notLive s h, 0x38), (base.toNat % 65536 != 0, 0x40),
      (length.toNat % 65536 != 0 || length == 0 || decide (2 ^ 38 < length.toNat), offCode 0x40 8),
      (decide (8 ≤ rights.toNat), offCode 0x40 16), (!rangeOwn s ctx base.toNat length.toNat, 0x40),
      ((freeExport s h.die).isNone, 0x41)])
    (done { s with h := { s.h with exports := s.h.exports.ins (h.die * 16384 + ix) x } } h
      [handleWord h.die ix gen pages maxrt])

/-- The leaf of page `i` of an import: a peer leaf, or on the owner the owner's own memory kind and frame (R83). -/
def importLeaf (s : State) (die : Nat) (v : Word) (x : ExportRec) (rights : BitVec 4) (ord i : Nat) : Option Word :=
  let own : Word := peerLeaf rights ord 0 0 0 0 &&& 0xFF#64
  if hdDie v != die then some (peerLeaf rights ord (hdDie v) (hdExp v) i (hdGen v)) else
  let va := x.base + BitVec.ofNat 64 (i * 65536)
  match walkVa s x.ctx va with
  | .leaf e lg => some (own ||| BitVec.ofNat 64 (pteKind e * 256 + (pteAddr e + va.toNat % 2 ^ lg)))
  | .fault _ _ => none

/-- Places the leaves of an import; a page that the owner does not map stays unmapped. -/
def importPages (die ctx : Nat) (v : Word) (x : ExportRec) (rights : BitVec 4) (ord window : Nat) : Nat → State → Option State
  | 0, s => some s
  | n + 1, s =>
    match importPages die ctx v x rights ord window n s with
    | none => none
    | some t => match importLeaf t die v x rights ord n with
      | none => some t
      | some e => putEntry die (window + n * 65536) 0 e 5 (ctxAt t ctx).root t

/-- R83, R299. An owner behind a spine link that is not ready is a function not ready (R394). -/
def execHandleImport (h : Hdr) (handle window : BitVec 64) (rights route : BitVec 8) (s : State) : Out :=
  let ctx := ctxKey h
  let rt : BitVec 4 := rights.setWidth 4
  let ord := (rights.extractLsb' 4 2).toNat
  let x := (exportAt s handle).getD { live := false, ctx := 0, base := 0, pages := 0, maxrt := 0, gen := 0, imports := [] }
  let hi := window.toNat + x.pages * 65536
  let after := importPages h.die ctx handle x rt ord window.toNat x.pages s
  let rec_ : ImportRec := { ctx := ctx, odie := hdDie handle, exp := hdExp handle, gen := hdGen handle, window := window,
                            pages := x.pages, rights := rt, ord := ord, route := route.toNat,
                            cut := (List.range x.pages).filterMap (fun i => if (importLeaf s h.die handle x rt ord i).isSome then none
                              else some (window.toNat + i * 65536, window.toNat + (i + 1) * 65536)) }
  let effect : State → State := fun t =>
    let k := hdDie handle * 16384 + hdExp handle
    { takeId t with h := { t.h with
        imports := t.h.imports.ins t.c.nextId rec_
        exports := t.h.exports.upd k (fun y => { y with imports := y.imports ++ [(h.die, h.ctx)] }) } }
  if (turnedAway s h shaderOnly).isNone && !linked s h.die (hdDie handle) then .next (reply s h 2 0 0 []) else
  request s h shaderOnly
    (firstFail [(notLive s h, 0x38), (!handleGood s handle, 0x42),
      (window.toNat % 65536 != 0 || decide (window.toNat < 2 ^ 56) || decide (2 ^ 57 < hi), offCode 0x43 8),
      (rt &&& ~~~(hdMaxrt handle) != 0 || ord == 3 || rights.extractLsb' 6 2 != 0, offCode 0x43 16),
      (decide (3 ≤ route.toNat), offCode 0x43 17),
      ((ctxEntries s ctx window.toNat hi).any (fun e => pteV e.2.2), offCode 0x43 8), (after.isNone, 0x33)])
    (done (effect (after.getD s)) h [])

/-- R85: the owner refuses new requests, and the generation moves on. -/
def execHandleRevoke (h : Hdr) (handle : BitVec 64) (s : State) : Out :=
  let mine := match exportAt s handle with | some x => x.ctx == ctxKey h && hdDie handle == h.die | none => false
  let k := h.die * 16384 + hdExp handle
  request s h shaderOnly (firstFail [(notLive s h, 0x38), (!(handleGood s handle && mine), 0x44)])
    (done { s with h := { s.h with exports := s.h.exports.upd k (fun x => { x with live := false, gen := x.gen % 15 + 1 }) } } h [])

/-! ### Unloading (R42) -/

/-- Launches submitted through a handle that have not retired. -/
def handleBusy (s : State) (handle : Nat) : Bool := s.h.launches.any (fun l => l.2.handle == handle && !l.2.retired)

/-- Other handles of a context to a module. -/
def otherHandles (s : State) (handle ctx m : Nat) : Bool :=
  s.h.handles.any (fun x => x.1 != handle && x.2.ctx == ctx && x.2.module == m)

/-- The range of a module's data image. -/
def dataRange (m : Module) : Nat × Nat := (m.base.toNat, m.base.toNat + roundUp m.dataLen 65536)

/-- Frames of the kernel's memory that leave a context become blocks for tables. -/
def freeFrames (s : State) (die : Nat) (es : List (Nat × Nat × Word)) : State :=
  freeBlocks s die (es.flatMap (fun e => (List.range (2 ^ e.2.1 / 8192)).map (fun i => pteAddr e.2.2 + i * 8192)))

/-- The handle is gone; with a context's last handle its copy of the data image is, and with the module's last handle
the module is. -/
def dropHandle (s : State) (handle : Nat) (r : HandleRec) : State :=
  let m := moduleAt s r.module
  let last := !otherHandles s handle r.ctx r.module
  let rg := dataRange m
  let es := if last then ctxEntries s r.ctx rg.1 rg.2 else []
  let s1 := if last then freeFrames (finishUnmap ((unmapRange s r.ctx rg.1 rg.2).getD s) r.ctx rg.1 rg.2) m.die es else s
  let hs := s1.h.handles.del handle
  let used := hs.any (fun x => x.2.module == r.module) || s1.x.gangs.any (fun g => g.2.module == r.module && g.2.state != .retired)
  let ms := if used then s1.h.modules.upd r.module (fun k => if last then { k with copies := k.copies.filter (· != r.ctx) } else k)
    else s1.h.modules.del r.module
  { s1 with h := { s1.h with handles := hs, modules := ms } }

/-- R42: the unload completes when the launches of its handle have retired and no access is left on the data image. -/
def execModuleUnload (h : Hdr) (handle : BitVec 64) (s : State) : Out :=
  let k := handle.toNat
  let again := Instr.moduleUnload h handle
  let finishUp : State → State := fun t =>
    match t.h.handles.find? k with
    | none => refuse t h 0x45
    | some r =>
      let rg := dataRange (moduleAt t r.module)
      if handleBusy t k || (!otherHandles t k r.ctx r.module && rangeBusy t r.ctx rg.1 rg.2)
      then defer t again else done (dropHandle t k r) h []
  match s.h.handles.find? k with
  | some r =>
    if r.leaving = some h then .next (finishUp s) else
    request s h shaderOnly (firstFail [(notLive s h, 0x38), (r.ctx != ctxKey h || r.leaving.isSome, 0x45)])
      (finishUp { s with h := { s.h with handles := s.h.handles.ins k { r with leaving := some h } } })
  | none => request s h shaderOnly (firstFail [(notLive s h, 0x38), (true, 0x45)]) s

/-! ### Identifiers and turn rights (R320, R329) -/

/-- R320: an allocation takes effect at once, and once an earlier free of the identifier has; a free is answered after the
next frame boundary. The kernel of a die whose P unit is not yet ready writes HOLDER and GATE all the same (R321). -/
def execIdentifierAllocate (h : Hdr) (ident : Nat) (gate : BitVec 16) (allocate : Bool) (s : State) : Out :=
  let e := planeAt s h.die ident
  let ctx := ctxKey h
  let bad := decide (223 < ident) ||
    (if allocate then (match e.holder with | none => false | some c => c != ctx) else e.holder != some ctx)
  if (turnedAway s h shaderOnly).isNone && s.pl.revoking.any (fun r => r.1.die == h.die && r.2 == ident) then
    .next (defer s (.identifierAllocate h ident gate allocate))
  else
    request s h shaderOnly (firstFail [(notLive s h, 0x38), (bad, 0x46)])
      (if allocate then done (setPlane s h.die ident { e with holder := some ctx, gate := gate }) h []
       else { s with pl := { s.pl with revoking := s.pl.revoking ++ [(h, ident)] } })

/-- R329. -/
def execTurnRightGrant (h : Hdr) (grant : Bool) (s : State) : Out :=
  request s h shaderOnly (firstFail [(notLive s h, 0x38)])
    (done (setCtx s (ctxKey h) { ctxAt s (ctxKey h) with turnRight := grant }) h [])

/-! ### The event endpoint (R165, R368, R393) -/

/-- The ring that the device's records go to. -/
def execEventRing (h : Hdr) (base size : BitVec 64) (s : State) : Out :=
  let r : RecRing := { ctx := ctxKey h, base := base, size := size.toNat, wr := 0, rd := 0 }
  request s h everyDie (ringCheck s (ctxKey h) base size)
    (done (setDie s h.die { dieAt s h.die with evRing := some r }) h [])

/-- The host has read the records below an index. -/
def execEventReadIndex (h : Hdr) (index : BitVec 64) (s : State) : Out :=
  let d := dieAt s h.die
  let bad := match d.evRing with | none => true | some r => decide (r.wr < index.toNat)
  request s h everyDie (firstFail [(bad, 0x61)])
    (done (setDie s h.die { d with evRing := d.evRing.map (fun r => { r with rd := index.toNat }) }) h [])

/-- R165. -/
def execTracing (h : Hdr) (on : Bool) (s : State) : Out :=
  request s h everyDie none (done (setDie s h.die { dieAt s h.die with traceOn := on }) h [])

end Sys2Proof.Machine
end

