-- ==== Sys2Proof/Machine/Bringup.lean ====
section
/-!
DEFINITION. Resets, bring-up and ready units, firmware, identity and attestation, power (R18 to R20, R306, R321, R369,
R392 to R399).
-/
namespace Sys2Proof.Machine

/-! ### Resets (R20, R369) -/

/-- Whether a command is a turn that stands in the queue of a hop: no die reset drops it (R306). -/
def queuedTurn (s : State) (i : Nat) : Bool :=
  (List.range 8).any (fun n => let h := hopAt s n
                               (h.q0 ++ h.q1).any (fun q => q.1 == i) || (h.turning.map (·.1)) == some i)

/-- Commands that a test accepts are gone, with what they hold: locks, queue places, in-flight counts, trackers. -/
def dropCmds (s : State) (p : Cmd → Bool) : State :=
  let gone := (s.e.cmds.filter (fun k => p k.2 && !queuedTurn s k.1))
  let is := gone.map (·.1)
  let s1 := gone.foldl (fun t k => k.2.pages.foldl (fun t x => dropUse t (gangAt t k.2.gang).ctx x) t) s
  let cut : OvQueue → OvQueue := fun q => { hw := q.hw.filter (fun i => !is.contains i), ring := q.ring.filter (fun i => !is.contains i) }
  { s1 with
    e := { s1.e with
      cmds := s1.e.cmds.filter (fun k => !is.contains k.1)
      locks := s1.e.locks.filter (fun l => !is.contains l.cmd)
      bxq := s1.e.bxq.map (fun q => (q.1, cut q.2))
      mxq := s1.e.mxq.map (fun q => (q.1, cut q.2)) }
    r := { s1.r with trackers := s1.r.trackers.filter (fun t => match t.2.who with | .cmd i => !is.contains i | .path _ => true) } }

/-- A gang fails by item without a dump, and is gone from its cores (R369). The spec names no CAUSE for it: 0. It retires at once,
or, with a turn in a queue, when that has completed (R303). -/
def killGang (s : State) (g : Nat) : State :=
  let q := gangAt s g
  if q.state = .resident ∧ (gangWarps s g).isEmpty then s else
  let s1 := postEvent s (gangFields s g 0x01 0)
  let s2 := dropCmds s1 (fun k => k.gang == g)
  let s3 : State := { s2 with pl := { s2.pl with bids := s2.pl.bids.filter (fun b => b.gang != g) } }
  let turning := s3.e.cmds.any (fun k => k.2.gang == g)
  let s4 := setGang (dropCapture (unplace s3 g) g) g { q with state := if turning then .resident else .retired }
  let s5 : State := { s4 with h := { s4.h with waiting := s4.h.waiting.map (fun w => (w.1, w.2.filter (· != g))) } }
  let la := launchAt s5 q.launch
  let s6 := setLaunch s5 q.launch { la with live := if turning then la.live else la.live - 1, bad := true }
  if launchOver s6 q.launch then enqueue s6 (.launchRetire q.launch) else s6

/-- Engine, cache and translation state of the clusters that a test accepts is as after reset (R255, R369). -/
def clearClusters (s : State) (p : Nat → Bool) : State :=
  let core : Nat → Bool := fun c => !p (c / 96)
  let s1 := dropCmds s (fun k => p (clusterOf k.core))
  { s1 with
    m := { s1.m with
      tlb0 := s1.m.tlb0.filter (fun t => core t.1)
      tlb1 := s1.m.tlb1.filter (fun t => !p t.1)
      lines := s1.m.lines.filter (fun l => !p (l.1 / 2 ^ 52)) }
    x := { s1.x with
      vregs := s1.x.vregs.filter (fun v => core (v.1 / 64 / 1536 / 16))
      sregs := s1.x.sregs.filter (fun v => core (v.1 / 128 / 16)) }
    e := { s1.e with
      scr := s1.e.scr.filter (fun b => core (b.1 / 2 ^ 18))
      chunks := s1.e.chunks.filter (fun b => core (b.1 / 512))
      tags := s1.e.tags.filter (fun b => core (b.1 / 32))
      pairs := s1.e.pairs.filter (fun b => core (b.1 / 36))
      bxq := s1.e.bxq.filter (fun b => core b.1)
      mxq := s1.e.mxq.filter (fun b => core b.1)
      mx := s1.e.mx.filter (fun b => core b.1)
      acc := s1.e.acc.filter (fun b => core (b.1 / 32768))
      lostScr := s1.e.lostScr.filter (fun w => core (w / 2 ^ 15))
      lostAcc := s1.e.lostAcc.filter (fun w => core (w / 16384))
      coreWrote := s1.e.coreWrote.filter (fun b => core b.1)
      sf := s1.e.sf.filter (fun b => core b.1)
      bank := s1.e.bank.filter (fun b => core (b.1 / 8320)) }
    h := { s1.h with clusters := s1.h.clusters.filter (fun c => !p c.1) }
    d := { s1.d with frozen := s1.d.frozen.filter core, watches := s1.d.watches.filter (fun w => !p (w.1 / 8)),
                     hits := s1.d.hits.filter (fun w => !p w.cluster) } }

/-- R369: every gang of the cluster fails, and CLRDY clears. Packets enter their injection queues whole, so that none is
partly injected. -/
def execClusterReset (cluster : Nat) (s : State) : Out :=
  if 32 ≤ cluster then .fault .noSuchAgent else
  let gs := (s.x.gangs.filter (fun g => g.2.cluster == cluster && isResident g.2)).map (·.1)
  let s1 := gs.foldl killGang s
  .next (clusterNotReady (clearClusters s1 (· == cluster)) cluster)

/-- The header of a request that waits at a kernel. -/
def waitingHdr (i : Instr) : Option Hdr :=
  match i with
  | .memUnmap h _ _ _ => some h
  | .memInvalidate h _ _ => some h
  | .moduleUnload h _ => some h
  | .identifierAllocate h _ _ _ => some h
  | _ => none

/-- Requests in progress on a die are answered with STATUS 3 (R392). -/
def answerReset (s : State) (die : Nat) : State :=
  let hs := s.h.deferred.filterMap waitingHdr ++ s.pl.revoking.map (·.1) ++ s.d.steps.map (·.h)
    ++ ((List.range 8).filterMap (fun n => (hopAt s n).retrain)).flatten
  let mine := hs.filter (fun h => h.die == die)
  let s1 := (List.range 8).foldl (fun t n => match (hopAt t n).retrain with
    | some rs => setHop t n { hopAt t n with retrain := some (rs.filter (fun h => h.die != die)) }
    | none => t) s
  let here : Instr → Bool := fun i => match waitingHdr i with | some h => h.die == die | none => false
  let s2 : State := { s1 with
    h := { s1.h with deferred := s1.h.deferred.filter (fun i => !here i) }
    pl := { s1.pl with revoking := s1.pl.revoking.filter (fun r => r.1.die != die) }
    d := { s1.d with steps := s1.d.steps.filter (fun r => r.h.die != die) } }
  mine.foldl (fun t h => reply t h 3 0 0 []) s2

/-- What the die's kernel and units held is gone. The ring, the F-die's records, the bytes of LPDDR6 and the firmware in
flash stay; imports stay recorded until the die leaves reset (R85). -/
def clearDie (s : State) (die : Nat) : State :=
  let d := dieAt s die
  let d1 : Die := { dieZero die with inReset := true, bornAt := s.c.cycle, held := d.held, folds := d.folds,
                                     noDispatch := d.noDispatch, sensors := d.sensors, fw := d.fw }
  let s1 := setDie (clearClusters s (fun c => c / 4 == die)) die d1
  { s1 with
    m := { s1.m with
      wcache := s1.m.wcache.del die
      walks := s1.m.walks.filter (fun w => w.2.die != die)
      faults := s1.m.faults.filter (fun f => f.2.die != die)
      pageUse := s1.m.pageUse.filter (fun p => p.1 / 2 ^ 48 / 64 / 64 != die)
      walkq := s1.m.walkq.filter (fun q => q.1 / 4 != die)
      walkRr := s1.m.walkRr.del die
      leaving := s1.m.leaving.filter (fun l => l.ctx / 64 != die)
      routers := s1.m.routers.filter (fun q => q.1 / 144 != die)
      arrived := s1.m.arrived.filter (fun p => flowDie p.flow != die)
      flows := s1.m.flows.filter (fun f => flowDie f.1 != die) }
    pl := { s1.pl with
      dieFc := s1.pl.dieFc.del die
      table := s1.pl.table.filter (fun t => t.1 / 256 != die)
      ptrs := s1.pl.ptrs.filter (fun t => t.1 / 8 != die)
      bids := s1.pl.bids.filter (fun b => b.die != die)
      sysBids := s1.pl.sysBids.filter (fun b => b.die != die)
      deliveries := s1.pl.deliveries.filter (fun b => b.die != die) }
    r := { s1.r with trackers := s1.r.trackers.filter (fun t => t.2.die != die) }
    h := { s1.h with
      ctxs := s1.h.ctxs.filter (fun c => c.1 / 64 != die)
      exports := s1.h.exports.filter (fun e => e.1 / 16384 != die)
      modules := s1.h.modules.filter (fun m => m.2.die != die)
      handles := s1.h.handles.filter (fun x => x.2.ctx / 64 != die)
      launches := s1.h.launches.map (fun l => (l.1, if l.2.die = die then { l.2 with retired := true } else l.2))
      queues := s1.h.queues.filter (fun q => q.1 / 64 != die)
      events := s1.h.events.filter (fun e => e.1 / 4096 != die)
      waiting := s1.h.waiting.del die }
    d := { s1.d with
      cnt := s1.d.cnt.filter (fun c => c.1 / 64 / 384 != die)
      ccnt := s1.d.ccnt.filter (fun c => c.1 / 64 / 4 != die)
      dcnt := s1.d.dcnt.filter (fun c => c.1 / 16 != die)
      latched := s1.d.latched.filter (fun c =>
        !(decide (c.1 < 2 ^ 32) && c.1 / 64 / 384 == die || decide (2 ^ 32 ≤ c.1 ∧ c.1 < 2 ^ 33) && (c.1 - 2 ^ 32) / 64 / 4 == die
          || decide (2 ^ 33 ≤ c.1) && (c.1 - 2 ^ 33) / 16 == die))
      bps := s1.d.bps.filter (fun b => b.1 / 64 / 64 != die) } }

/-- The gangs that a reset of a die loses: resident there, or captured with their record or their place in line there. -/
def gangsOn (s : State) (die : Nat) : List Nat :=
  (s.x.gangs.filter (fun g => (isResident g.2 && g.2.die == die) || (g.2.state == .captured &&
    ((s.h.waiting.getD [] die).contains g.1 ||
      (match s.h.captures.find? g.1 with | some r => r.ctx / 64 == die | none => true))))).map (·.1)

def resetDie (s : State) (die : Nat) : State :=
  let s1 := (gangsOn s die).foldl killGang s
  let s2 := clearDie (answerReset s1 die) die
  postEvent s2 { evZero with kind := 0x09, die := die, cause := 0, addr := BitVec.ofNat 64 die }

/-- R20, R369. The F-die is reset only with the package (R309). -/
def execDieReset (die : Nat) (s : State) : Out := if 8 ≤ die then .fault .noSuchAgent else .next (resetDie s die)

/-- The package after package reset: the expanders stay on their ports, the images stay in flash, and every die boots from its ROM
(R67, R397). -/
def execPackageReset (s : State) : Out :=
  let dies := s.h.dies.map (fun d => (d.1, { dieZero d.1 with fw := d.2.fw }))
  .next { State.reset with
    c := { State.reset.c with agenda := (List.range 9).map .romBoot }
    m := { State.reset.m with cxlUnits := s.m.cxlUnits }
    h := { State.reset.h with dies := dies } }

/-! ### Bring-up (R19, R394, R397) -/

/-- Imports of a die that leaves reset count as unmapped (R85). -/
def forgetImports (s : State) (die : Nat) : State :=
  { s with h := { s.h with
      imports := s.h.imports.filter (fun i => i.2.ctx / 64 != die)
      exports := s.h.exports.map (fun e => (e.1, { e.2 with imports := e.2.imports.filter (fun x => x.1 != die) })) } }

/-- Whether the ROM runs an image (R397): key, signature, version. -/
def firmwareGood (s : State) (die : Nat) (image : List Byte) : Bool :=
  Config.fwKeyOk die image && Config.fwSigOk image && decide ((dieAt s die).fw.fused ≤ Config.fwVersion image)

/-- R397: the die leaves reset; the image in flash runs if it passes every check, else the die is in recovery. -/
def execRomBoot (die : Nat) (s : State) : Out :=
  if 9 ≤ die ∨ (dieAt s die).dieReady = true then .fault .noSuchAgent else
  let d := dieAt s die
  let image := d.fw.provisioned.getD d.fw.running
  let fw : FwState := if firmwareGood s die image then { d.fw with running := image, provisioned := none, recovery := false }
    else { d.fw with recovery := true }
  .next (setDie (forgetImports s die) die { d with inReset := false, bornAt := s.c.cycle, fw := fw })

def bothDirs : List Dir := [.cw, .ccw]

def unitCode (k : UnitKind) : Nat :=
  match k with | .die => 0 | .cluster => 1 | .channelGroup => 2 | .hop => 3 | .spine => 4 | .pUnit => 5

/-- The event of a unit (R394, R424). -/
def unitEvent (s : State) (die : Nat) (k : UnitKind) (index : Nat) (ready : Bool) : State :=
  postEvent s { evZero with kind := if ready then 0x08 else 0x09, die := die,
                            cluster := match k with | .cluster => index % 4 | _ => 15,
                            cause := unitCode k, addr := BitVec.ofNat 64 index }

/-- Whether a unit can report: an index that exists, on a die outside reset whose firmware runs; hops and spine links lie
outside the reset domain. -/
def unitThere (s : State) (die : Nat) (k : UnitKind) (index : Nat) : Bool :=
  let d := dieAt s die
  match k with
  | .die => decide (die < 9) && index == die && !d.inReset && !d.fw.recovery
  | .cluster => decide (die < 8) && decide (index < 4) && !d.inReset && !d.fw.recovery
  | .channelGroup => decide (die < 8) && decide (index < 8) && !d.inReset
  | .hop => decide (index < 8) && decide (die < 8)
  | .spine => decide (index < 8) && index == die
  | .pUnit => decide (die < 8) && index == die && !d.inReset

/-- R19, R298, R394: a unit reports ready, or not ready; a hop has then been trained. MCHRDY never falls, and a P unit is ready
only as R321 says. -/
def execUnitReady (die : Nat) (kind : UnitKind) (index : Nat) (ready : Bool) (s : State) : Out :=
  if !unitThere s die kind index then .fault .noSuchAgent else
  let d := dieAt s die
  match kind with
  | .die => .next (unitEvent (setDie s die { d with dieReady := ready }) die kind index ready)
  | .cluster =>
    if ready then
      let b : BitVec 4 := 1#4 <<< index
      .next (unitEvent (setDie s die { d with clrdy := d.clrdy ||| b }) die kind index true)
    else .next (clusterNotReady s (die * 4 + index))
  | .channelGroup =>
    let b : BitVec 8 := 1#8 <<< index
    .next (unitEvent (if ready then setDie s die { d with mchGroups := d.mchGroups ||| b } else s) die kind index ready)
  | .hop =>
    let s1 := if ready then bothDirs.foldl (fun t d => setBuf t (bufKey index d) (trainBuf (bufAt t (bufKey index d)))) s else s
    .next (unitEvent (setHop s1 index { hopAt s1 index with down := !ready }) die kind index ready)
  | .spine => .next (unitEvent (setDie s die { d with spineReady := ready }) die kind index ready)
  | .pUnit => if ready then execPUnitReady die s else .next (unitEvent (setDie s die { d with pReady := false }) die kind index false)

/-! ### Firmware, identity, attestation (R397, R398) -/

/-- R393, R18, R398. -/
def execFwIdentity (h : Hdr) (s : State) : Out :=
  request s h fwServe none (doneBytes s h (leBytes 8 (descriptor s h.die).toNat ++ Config.identityKey h.die))

/-- What an attestation signs (R398): nonce, digests of the running image and of each cluster's microcode, version
counter. -/
def attestBody (s : State) (die : Nat) (nonce : List Byte) : List Byte :=
  let d := dieAt s die
  nonce ++ sha512 d.fw.running ++ (List.range (if die = 8 then 0 else 4)).flatMap (fun c => Config.microcodeDigest die c)
    ++ leBytes 8 d.fw.fused

/-- R398. -/
def execFwAttest (h : Hdr) (nonce : List (BitVec 8)) (s : State) : Out :=
  let body := attestBody s h.die nonce
  request s h fwServe (firstFail [((dieAt s h.die).fw.recovery, 0x73)]) (doneBytes s h (body ++ Config.attestSign h.die body))

/-- The bytes of an image: at a virtual address of a live context, else at a physical address of the die, or for the F-die
of CXL memory (log 46). -/
def fwImage (s : State) (h : Hdr) (addr : Word) (n : Nat) : Option (List Byte) :=
  if (ctxAt s (ctxKey h)).state = .live then kernelRead s (ctxKey h) n addr
  else some (readBytes s ((if h.die = 8 then cxlKey else lpKey h.die) (addr.toNat % 2 ^ 44)) n)

/-- R397, R398: the image is written to flash. -/
def execFwProvision (h : Hdr) (image length : BitVec 64) (s : State) : Out :=
  let d := dieAt s h.die
  let got := fwImage s h image length.toNat
  let bs := got.getD []
  request s h fwServe
    (firstFail [(got.isNone || !Config.fwKeyOk h.die bs || !Config.fwSigOk bs, 0x70), (decide (Config.fwVersion bs < d.fw.fused), 0x71)])
    (done (setDie s h.die { d with fw := { d.fw with provisioned := some bs } }) h [])

/-- R397, R398: the die resets and boots. The F-die is reset only with the package (R309). -/
def execFwActivate (h : Hdr) (s : State) : Out :=
  let s1 := done s h []
  request s h fwServe (firstFail [((dieAt s h.die).fw.provisioned.isNone, 0x72)])
    (if h.die = 8 then enqueue s1 .packageReset else enqueue (enqueue s1 (.dieReset h.die)) (.romBoot h.die))

/-! ### Power (R306, R399) -/

/-- Rails of a die. -/
def rails (die : Nat) : Nat := if die = 8 then 1 else 4

/-- R399. -/
def execPowerSensors (h : Hdr) (s : State) : Out :=
  let r := (dieAt s h.die).sensors
  request s h everyDie none (doneBytes s h (leBytes 2 r.watts ++ leBytes 1 r.temp ++ leBytes 1 0 ++
    (List.range 4).flatMap (fun i => leBytes 2 (if i < rails h.die then nth r.amps 0 i else 0))))

/-- R399. -/
def execPackageLimit (h : Hdr) (watts : Nat) (s : State) : Out :=
  request s h everyDie (firstFail [(h.die != 8 || decide (watts < 1000) || decide (4500 < watts), 0x78)])
    (done { s with c := { s.c with pkgLimit := watts } } h [])

/-- R399. -/
def execRailLimit (h : Hdr) (rail amps : Nat) (s : State) : Out :=
  let d := dieAt s h.die
  request s h everyDie
    (firstFail [(decide (rails h.die ≤ rail), 0x79), (decide (amps < 20) || decide (400 < amps), offCode 0x79 1)])
    (done (setDie s h.die { d with railLimit := setNth d.railLimit rail amps }) h [])

/-- R306: retraining waits for a running turn, and takes the cycles that the clock gives it; the reply comes when the hop
carries traffic again. A request for a hop that retrains joins the retraining. -/
def execRetrainHop (h : Hdr) (hop : Nat) (s : State) : Out :=
  let bad := decide (7 < hop) || (dieAt s (endDie hop 0)).inReset || (dieAt s (endDie hop 1)).inReset
  let k := hopAt s hop
  let s1 := setHop s hop { k with retrain := some (k.retrain.getD [] ++ [h]) }
  request s h everyDie (firstFail [(bad, 0x7A)]) (if k.turning.isSome || k.retrain.isSome then s1 else retrainStart s1 hop)

/-- The throttle bits of a die after a sample (R399): rails above their limit, the die from 105 °C until below 100 °C. -/
def throttleOf (d : Die) (r : Reading) : BitVec 5 :=
  let rail : Nat → Bool := fun i =>
    let a := nth r.amps 0 i
    let l := nth d.railLimit 400 i
    decide (l < a) || (d.throttle.getLsbD i && decide (l ≤ a))
  let hot := decide (105 ≤ r.temp) || (d.throttle.getLsbD 4 && decide (100 ≤ r.temp))
  BitVec.ofNat 5 (((List.range 4).map (fun i => if rail i then 2 ^ i else 0)).sum + (if hot then 16 else 0))

/-- One die's sample; at 115 °C a shader die resets. -/
def sampleDie (s : State) (x : Nat × Reading) : State :=
  let d := dieAt s x.1
  let s1 := setDie s x.1 { d with sensors := x.2, throttle := throttleOf d x.2 }
  if 115 ≤ x.2.temp ∧ x.1 < 8 then enqueue s1 (.thermalReset x.1) else s1

/-- R399: the samples of the nine dies, and the package limit against their sum. -/
def execPowerSample (readings : List Reading) (s : State) : Out :=
  let s1 := ((List.range 9).zip readings).foldl sampleDie s
  let sum := ((readings.take 9).map (·.watts)).sum
  let on := decide (s.c.pkgLimit < sum) || (s.c.pkgThrottle && sum == s.c.pkgLimit)
  .next { s1 with c := { s1.c with pkgThrottle := on } }

/-- R399: the die resets, and every resident gang fails by item. -/
def execThermalReset (die : Nat) (s : State) : Out :=
  if 8 ≤ die then .fault .noSuchAgent else .next (enqueue (resetDie s die) (.romBoot die))

end Sys2Proof.Machine
end

