-- ==== Sys2Proof/Machine/Validate.lean ====
section
/-!
DEFINITION. Validation of a module (R40): the header, the function table, the constant pools, the line table and the
string offsets, the code word by word with each opcode's own operand rules, and the handler rules of R352. A check gives
the first failure as a code and a byte offset.
-/
namespace Sys2Proof.Machine

/-- A failure: code and byte offset. -/
abbrev Fail := Option (Nat × Nat)

/-- The first failure of a list of checks. -/
def firstOf : List Fail → Fail
  | [] => none
  | some f :: _ => some f
  | none :: r => firstOf r

def failIf (bad : Bool) (code off : Nat) : Fail := if bad then some (code, off) else none

/-! ### The image (R35 to R38) -/

/-- An `n`-byte field of the image; what lies beyond the image reads as zero. -/
def imgAt (img : List Byte) (off n : Nat) : Nat := leNat ((img.drop off).take n)

/-- A section: the offset of the field that names it, its start and length. -/
structure Section where
  at_ : Nat
  off : Nat
  len : Nat
  deriving DecidableEq, Repr

/-- The sections that the header names, in the order of their fields (R35). -/
def headerSections (img : List Byte) : List Section :=
  [{ at_ := 12, off := imgAt img 12 4, len := 48 * imgAt img 16 2 }, { at_ := 20, off := imgAt img 20 4, len := 8 * imgAt img 24 4 },
   { at_ := 28, off := imgAt img 28 4, len := imgAt img 32 4 }, { at_ := 36, off := imgAt img 36 4, len := 8 * imgAt img 40 4 },
   { at_ := 44, off := imgAt img 44 4, len := imgAt img 48 4 }, { at_ := 52, off := imgAt img 52 4, len := 128 * imgAt img 18 2 }]

def meet (a b : Section) : Bool := decide (a.off < b.off + b.len) && decide (b.off < a.off + a.len)

/-- A section misaligned, outside the image, or over the header or another section. -/
def sectionFail (len : Nat) (others : List Section) (s : Section) : Fail :=
  failIf (s.off % 8 != 0 || decide (len < s.off + s.len) || (s.len != 0 &&
    (decide (s.off < 64) || others.any (fun o => o.len != 0 && meet o s)))) 0x02 s.at_

/-- Step 1 of R40. -/
def checkHeader (img : List Byte) : Fail :=
  let ss := headerSections img
  let fn := imgAt img 16 2
  firstOf ([failIf (imgAt img 0 4 != 0x544D4C50) 0x01 0, failIf (imgAt img 4 2 != 0x0100) 0x01 4,
      failIf (imgAt img 6 2 != 0) 0x03 6, failIf (imgAt img 56 8 != 0) 0x03 56,
      failIf (imgAt img 8 4 != img.length || decide (img.length < 64)) 0x02 8, failIf (fn == 0 || decide (4096 < fn)) 0x02 16,
      failIf (decide (256 < imgAt img 18 2)) 0x02 18]
    ++ (List.range ss.length).map (fun i => sectionFail img.length (ss.take i) (nth ss { at_ := 0, off := 0, len := 0 } i)))

/-- A function-table entry (R36). -/
structure FEntry where
  at_ : Nat
  codeIdx : Nat
  nwords : Nat
  constOff : Nat
  nconst : Nat
  nparam : Nat
  result : Nat
  types : List Byte
  name : Nat
  fflags : Nat
  deriving DecidableEq, Repr

def fentry (img : List Byte) (fn : Nat) : FEntry :=
  let e := imgAt img 12 4 + 48 * fn
  { at_ := e, codeIdx := imgAt img e 4, nwords := imgAt img (e + 4) 4, constOff := imgAt img (e + 8) 4,
    nconst := imgAt img (e + 12) 2, nparam := imgAt img (e + 14) 1, result := imgAt img (e + 15) 1,
    types := (img.drop (e + 16)).take 16, name := imgAt img (e + 32) 4, fflags := imgAt img (e + 36) 4 }

def fentries (img : List Byte) : List FEntry := (List.range (imgAt img 16 2)).map (fentry img)

def entryTy (f : FEntry) (i : Nat) : Ty := (tyOfCode (nth f.types 0 i).toNat).getD .none
def hasResult (f : FEntry) : Bool := f.result.testBit 7
def resultTy (f : FEntry) : Ty := entryTy f (f.result % 16)

/-- One entry of the function table (step 2 of R40), after those before it. -/
def checkEntry (img : List Byte) (before : List FEntry) (f : FEntry) : Fail :=
  let pools := before.map (fun g => ({ at_ := 0, off := g.constOff, len := 16 * g.nconst } : Section))
  let cw := imgAt img 24 4
  firstOf ([failIf (decide (cw < f.codeIdx) || before.any (fun g => f.nwords != 0 && g.nwords != 0 &&
        decide (f.codeIdx < g.codeIdx + g.nwords) && decide (g.codeIdx < f.codeIdx + f.nwords))) 0x02 f.at_,
      failIf (decide (cw < f.codeIdx + f.nwords)) 0x02 (f.at_ + 4), failIf (decide (2 ^ 20 < f.nwords)) 0x0A (f.at_ + 4),
      sectionFail img.length (headerSections img ++ pools) { at_ := f.at_ + 8, off := f.constOff, len := 16 * f.nconst },
      failIf (decide (4096 < f.nconst)) 0x0A (f.at_ + 12), failIf (decide (16 < f.nparam)) 0x0A (f.at_ + 14),
      failIf (f.result / 16 % 8 != 0) 0x03 (f.at_ + 15),
      failIf (hasResult f && (resultTy f == .none || resultTy f == .tok)) 0x06 (f.at_ + 15),
      failIf (hasResult f && f.fflags.testBit 0) 0x0A (f.at_ + 15),
      failIf (decide (8 ≤ f.fflags)) 0x03 (f.at_ + 36), failIf (imgAt img (f.at_ + 40) 8 != 0) 0x03 (f.at_ + 40)]
    ++ (List.range 16).map (fun i =>
      failIf (nth f.types 0 i != 0 && (tyOfCode (nth f.types 0 i).toNat).isNone) 0x06 (f.at_ + 16 + i)))

def checkTable (img : List Byte) : Fail :=
  let fs := fentries img
  firstOf ((List.range fs.length).map (fun i => checkEntry img (fs.take i) (fentry img i)))

/-- A constant's kind (R37). -/
def constKind (img : List Byte) (f : FEntry) (i : Nat) : Nat := imgAt img (f.constOff + 16 * i + 8) 1

/-- Step 3 of R40. -/
def checkConsts (img : List Byte) : Fail :=
  firstOf ((fentries img).flatMap (fun f => (List.range f.nconst).flatMap (fun i =>
    let e := f.constOff + 16 * i
    [failIf (decide (1 < constKind img f i)) 0x03 (e + 8), failIf (imgAt img (e + 9) 7 != 0) 0x03 (e + 9)])))

/-- Step 4 of R40: the line table, then the string offsets. -/
def checkLines (img : List Byte) : Fail :=
  let off := imgAt img 36 4
  let n := imgAt img 40 4
  let so := imgAt img 44 4
  let sl := imgAt img 48 4
  let name : Nat → Nat → Nat → Fail := fun code at_ o =>
    failIf (decide (sl ≤ o) || !(((img.drop (so + o)).take (sl - o)).any (· == 0))) code at_
  let word : Nat → Nat := fun i => imgAt img (off + 8 * i + 4) 4
  firstOf ((List.range n).map (fun i =>
      failIf (decide (imgAt img 24 4 ≤ word i) || (i != 0 && decide (word i < word (i - 1)))) 0x0C (off + 8 * i))
    ++ (fentries img).map (fun f => name 0x0A (f.at_ + 32) f.name)
    ++ (List.range n).map (fun i => name 0x0C (off + 8 * i) (imgAt img (off + 8 * i) 2)))

/-! ### The module as validation sees it -/

/-- The functions of the image, the constants not yet resolved. -/
def imageFuncs (img : List Byte) : List Func :=
  (fentries img).map (fun f =>
    { code := wordsOf f.nwords (img.drop (imgAt img 20 4 + 8 * f.codeIdx))
      consts := (List.range f.nconst).map (fun i => BitVec.ofNat 64 (imgAt img (f.constOff + 16 * i) 8))
      types := f.types
      result := if hasResult f then some (f.result % 16) else none
      nparam := f.nparam
      fflags := BitVec.ofNat 32 f.fflags })

/-- What the checks of one function use: the values in order with their types and blocks, the dominators of each block
as a bit set, and the values whose tokens come from `cp.bid` (R26, R326). -/
structure VCtx where
  img : List Byte
  entries : List FEntry
  mod : Module
  fn : Nat
  code : List Word
  blocks : List Nat
  vals : List (Ty × Nat)
  doms : List Nat
  bids : List Bool
  deriving DecidableEq, Repr

def VCtx.entry (v : VCtx) : FEntry := nth v.entries (fentry v.img 0) v.fn

/-- One round of the dominator equations over bit sets: a block and what dominates all its predecessors. -/
def domRound (succs : List (List (Option Nat))) (d : List Nat) : List Nat :=
  let n := succs.length
  let all := 2 ^ n - 1
  (List.range n).map (fun b => if b = 0 then 1 else
    (((List.range n).zip succs).foldl (fun a p => if p.2.contains (some b) then a &&& nth d 0 p.1 else a) all) ||| 2 ^ b)

def domIter (succs : List (List (Option Nat))) : Nat → List Nat → List Nat
  | 0, d => d
  | k + 1, d => let e := domRound succs d
                if e = d then d else domIter succs k e

/-- The arguments of block `b`: their types. -/
def argTys (f : FEntry) (code : List Word) (blocks : List Nat) (b : Nat) : List Ty :=
  match blocks[b]? with
  | none => []
  | some w => (List.range (blockArgs code w)).map (fun i => entryTy f (tyOf (nth code 0 (w + 1 + i))))

/-- The argument lists that the terminator at a word gives to its targets: block and operands (R182 to R185). -/
def edgeArgs (f : FEntry) (code : List Word) (blocks : List Nat) (ix : Nat) : List (Nat × List Operand) :=
  let count : Nat → Nat := fun b => (argTys f code blocks b).length
  let deal : List Nat → List Operand → List (Nat × List Operand) := fun ts os =>
    (ts.foldl (fun (acc : List (Nat × List Operand) × List Operand) t =>
      (acc.1 ++ [(t, acc.2.take (count t))], acc.2.drop (count t))) ([], os)).1
  match wordForm code ix with
  | none => []
  | some w => match opcOf (nth code 0 ix) with
    | 0x003 => deal [indexOf w.a] w.ext
    | 0x004 => deal [indexOf w.b, indexOf w.c] w.ext
    | 0x005 => let n := immNat w.c
               deal (indexOf w.b :: (w.ext.take n).map indexOf) (w.ext.drop n)
    | _ => []

/-- One round of R326: a block argument stays such a token while every incoming value is one. `ins` are the values that
come in, by value number, as edges. -/
def bidRound (edges : List (Nat × Option Nat)) (d : List Bool) : List Bool :=
  (List.range d.length).map (fun v => nth d false v &&
    (edges.filter (fun e => e.1 == v)).all (fun e => match e.2 with | some u => nth d false u | none => false))

def bidIter (edges : List (Nat × Option Nat)) : Nat → List Bool → List Bool
  | 0, d => d
  | k + 1, d => let e := bidRound edges d
                if e = d then d else bidIter edges k e

def bidValues (f : FEntry) (mod : Module) (code : List Word) (blocks : List Nat) : List Bool :=
  let ws := defWords mod code
  let start := ws.map (fun w => let o := opcOf (nth code 0 w)
                                o == 0x0F1 || (o == 0x002 && decide (blockOf code w ≠ 0)))
  let edges := ((List.range code.length).filter (fun ix => [0x003, 0x004, 0x005].contains (opcOf (nth code 0 ix)))).flatMap
    (fun ix => (edgeArgs f code blocks ix).flatMap (fun t =>
      let first := defsBefore mod code (nth blocks 0 t.1)
      ((List.range t.2.length).zip t.2).map (fun o =>
        (first + o.1, match o.2 with | .back d => some (defsBefore mod code ix - d) | _ => none))))
  bidIter edges (ws.length + 1) start

def vctx (img : List Byte) (mod : Module) (fn : Nat) : VCtx :=
  let es := fentries img
  let f := nth es (fentry img 0) fn
  let code := (funcAt mod fn).code
  let blocks := blockWords code
  let succs := blockSuccs code
  { img := img, entries := es, mod := mod, fn := fn, code := code, blocks := blocks,
    vals := (defWords mod code).map (fun w => (entryTy f (tyOf (nth code 0 w)), blockOf code w)),
    doms := domIter succs (succs.length + 1) (List.replicate succs.length (2 ^ succs.length - 1)),
    bids := bidValues f mod code blocks }

/-! ### What an operand field may hold -/

/-- The requirement of a position (R24, R28 to R30): None, with the code of anything else; an operand that None leaves
out; a value of an accepted type, with the type that an immediate
takes and the code of a type that does not match; a back-reference only; an immediate with its code; an immediate,
constant or special value alone (R179); a token of a `cp.bid`; a block; a function. -/
inductive Ask where
  | absent (code : Nat)
  | missing (code : Nat)
  | value (ok : Ty → Bool) (fixed : Option Ty) (code : Nat)
  | back (ok : Ty → Bool)
  | imm (ok : Int → Bool) (code : Nat)
  | literal (t : Ty)
  | bidToken
  | block
  | func
  | opt (n : Ask)

def Ask.nothing : Ask := .absent 0x05
def Ask.isBlock : Ask → Bool | .block => true | _ => false
/-- A value of one type (R29: the type is fixed). -/
def Ask.of (t : Ty) : Ask := .value (· == t) (some t) 0x06
/-- A value of one of several types, none of them fixed. -/
def Ask.among (ok : Ty → Bool) : Ask := .value ok none 0x06
/-- An argument of a type (R182, R186). -/
def Ask.arg (t : Ty) : Ask := .value (· == t) (some t) 0x09
/-- An immediate from `lo` to `hi`; any other operand has code 0x06. -/
def Ask.range (lo hi : Int) : Ask := .imm (fun i => decide (lo ≤ i) && decide (i ≤ hi)) 0x06
/-- A count immediate of an engine command: its bits lie within `mask` (R107, R256). -/
def Ask.count (mask : Nat) : Ask := .imm (fun i => decide (0 ≤ i) && (i.toNat &&& mask) == i.toNat) 0x05
def Ask.tok : Ask := .back (· == .tok)

/-- R29: whether an immediate is accepted for a type. Under an integer type any is, and is read modulo the type's width: R29
states no limit for a narrow type (DESIGN CHOICE, log 84). -/
def immOk (t : Ty) (i : Int) : Bool :=
  if isInt t then true
  else if isFloat t || isB8 t then (fmtOf t).exactInt i
  else if t = .i1 then i == 0 || i == 1
  else isPtr t && i == 0

/-- R30: whether a special code applies to a type. -/
def specialOk (t : Ty) (code : Nat) : Bool :=
  let fl := isFloat t || isB8 t
  match code with
  | 0 => t != .none && t != .tok && t != .sc8
  | 1 => isInt t || t == .i1 || fl
  | 2 => isInt t
  | 3 => isFloat t || (isB8 t && (fmtOf t).inf)
  | 4 => isFloat t || (isB8 t && (fmtOf t).inf && (fmtOf t).signed)
  | 5 => fl || t == .sc8
  | 6 | 7 => isInt t || fl || t == .sc8
  | _ => false

/-- R37: whether constant `i` may stand as a value of a type. -/
def poolOk (v : VCtx) (t : Ty) (i : Nat) : Bool :=
  let f := v.entry
  decide (i < f.nconst) && t != .tok && t != .none &&
    (constKind v.img f i == 0 || t == .ptrG || t == .i64) && decide (imgAt v.img (f.constOff + 16 * i) 8 < 2 ^ (8 * tyBytes t))

/-- The least of several codes that apply. -/
def leastCode (cs : List (Bool × Nat)) : Option Nat :=
  (cs.filter (·.1)).foldl (fun m c => match m with | none => some c.2 | some k => some (min k c.2)) none

/-- A back-reference at a word with `n` values before it: in range, of an accepted type, dominating (R26). -/
def backCode (v : VCtx) (blk n d : Nat) (ok : Ty → Bool) (code : Nat) : Option Nat :=
  if n < d then some 0x07 else
  let x := nth v.vals (.none, 0) (n - d)
  leastCode [(!ok x.1, code), (!(nth v.doms 0 blk).testBit x.2, 0x07)]

/-- A field against its requirement: the lowest code that applies (R40). -/
def fieldCode (v : VCtx) (blk n : Nat) (o : Operand) : Ask → Option Nat
  | .absent code => if o = .none then none else some code
  | .missing code => some code
  | .opt k => if o = .none then none else fieldCode v blk n o k
  | .value ok fixed code =>
    let t := fixed.getD (if ok .i32 then .i32 else .none)
    match o with
    | .none => some 0x05
    | .index _ => some 0x06
    | .back d => backCode v blk n d ok code
    | .imm i => if immOk t i.toInt then none else some 0x06
    | .konst i => if poolOk v t i.toNat then none else some 0x06
    | .special c => if specialOk t c.toNat then none else some 0x06
  | .back ok => match o with
    | .none => some 0x05
    | .back d => backCode v blk n d ok 0x06
    | _ => some 0x06
  | .imm ok code => match o with
    | .none => some 0x05
    | .imm i => if ok i.toInt then none else some code
    | _ => some code
  | .literal t => match o with
    | .none => some 0x05
    | .back _ | .index _ => some 0x06
    | .imm i => if immOk t i.toInt then none else some 0x06
    | .konst i => if poolOk v t i.toNat then none else some 0x06
    | .special c => if specialOk t c.toNat then none else some 0x06
  | .bidToken => match o with
    | .none => some 0x05
    | .back d => match backCode v blk n d (· == .tok) 0x06 with
      | some c => some c
      | none => if nth v.bids false (n - d) then none else some 0x06
    | _ => some 0x06
  | .block => match o with
    | .index i => if i.toNat = 0 ∨ v.blocks.length ≤ i.toNat then some 0x08 else none
    | .none => some 0x05
    | _ => some 0x06
  | .func => match o with
    | .index i => if v.entries.length ≤ i.toNat ∨ (nth v.entries (fentry v.img 0) i.toNat).fflags.testBit 2 then some 0x0A else none
    | .none => some 0x05
    | _ => some 0x06

/-! ### The operand rules of each opcode -/

/-- What an instruction's fields must hold: the code of a TYPE that is not accepted, whether MOD is accepted, A, B, C, the
extra operands, and the code of a wrong number of them. -/
structure Rule where
  ty : Option Nat
  md : Bool
  a : Ask
  b : Ask
  c : Ask
  ext : List Ask
  lenCode : Nat

/-- What the rule of an opcode depends on: the word's TYPE and its index, MOD, the operands, and the type of each
operand that is a back-reference. -/
structure RCtx where
  t : Ty
  tix : Nat
  md : Nat
  f : PForm
  ta : Option Ty
  tb : Option Ty

def anyTy (t : Ty) : Bool := t != .none && t != .tok
def memTy (t : Ty) : Bool := anyTy t && t != .i1
def narrow (t : Ty) : Bool := isB8 t || t == .sc8
def gps (t : Ty) : Bool := t == .ptrG || t == .ptrP || t == .ptrS
def shared (t : Ty) : Bool := t == .ptrG || t == .ptrS
def atomTy (t : Ty) : Bool := t == .i32 || t == .i64 || t == .f32 || t == .f64

/-- TYPE among accepted types. -/
def tyIn (ok : Bool) : Option Nat := if ok then none else some 0x06
/-- A TYPE that must be zero. -/
def tyZero (r : RCtx) : Option Nat := if r.tix = 0 then none else some 0x03

def rule3 (ty : Option Nat) (md : Bool) (a b c : Ask) : Rule :=
  { ty := ty, md := md, a := a, b := b, c := c, ext := [], lenCode := 0x08 }
def rule2 (ty : Option Nat) (md : Bool) (a b : Ask) : Rule := rule3 ty md a b .nothing
def rule1 (ty : Option Nat) (md : Bool) (a : Ask) : Rule := rule3 ty md a .nothing .nothing
def rule0 (ty : Option Nat) (md : Bool) : Rule := rule3 ty md .nothing .nothing .nothing

/-- An engine command: TYPE is `tok`, C counts the tokens, which follow the extra operands (R107, R256). -/
def engineRule (r : RCtx) (md : Bool) (mask : Nat) (a b : Ask) (ext : List Ask) : Rule :=
  { ty := tyIn (r.t == .tok), md := md, a := a, b := b, c := .count mask,
    ext := ext ++ List.replicate (immNat r.f.c / 16 % 4) .tok, lenCode := 0x08 }

/-- A member of the copy family (R107). -/
def copyRule (r : RCtx) (a b : Ask) (list : Bool) : Rule :=
  engineRule r true 0x37 a b ((if list then [Ask.back (· == .ptrS)] else []) ++ List.replicate r.md (.of .i32))

/-- The operand type of a comparison (R176, R212). -/
def cmpTy (r : RCtx) : Ty := match r.ta with | some t => t | none => r.tb.getD .none

/-- The operands of a comparison: two immediates are rejected at B. -/
def cmpRule (r : RCtx) (ok : Bool) : Rule :=
  let t := cmpTy r
  let none2 := r.ta.isNone && r.tb.isNone
  rule2 (tyIn (r.t == .i1)) true (if none2 then .among anyTy else .value (fun u => u == t && ok) (some t) 0x06)
    (if none2 then .back (fun _ => false) else .value (fun u => u == t && ok) (some t) 0x06)

def icmpOk (t : Ty) (md : Nat) : Bool :=
  isInt t || (t == .i1 && decide (md ≤ 1)) || (isPtr t && [0, 1, 4, 5, 7].contains md)

/-- R200: rounding values of arithmetic on a type. -/
def arithMod (r : RCtx) : Bool := decide (r.md ≤ 5) || (r.md == 7 && (r.t == .f16 || r.t == .bf16))

def signBit : Ask := .range 0 1
def scopeNeed : Ask := .range 0 6

/-- The scope operand of `ld` and `st` (R134). -/
def ldScope (r : RCtx) (o : Operand) : Ask :=
  if r.md = 1 ∨ r.md = 3 then (if o = .none then .missing 0x06 else scopeNeed) else .absent 0x06

def ldSpace (md : Nat) (t : Ty) : Bool :=
  match md with | 0 => isPtr t | 2 => t == .ptrG | _ => gps t

/-- The control of `lgred` and `lgscan` (R228). -/
def laneControl (r : RCtx) (scan : Bool) (i : Int) : Bool :=
  decide (0 ≤ i) && decide (i ≤ 15) && (scan || i % 2 == 0) &&
    (i / 2 == 0 || (isFloat r.t && r.md == 0 && decide (i / 2 ≤ 4)))

def laneRule (r : RCtx) (scan : Bool) : Rule :=
  rule2 (tyIn (isInt r.t || isFloat r.t)) (isInt r.t || r.md == 0 || r.md == 1 || r.md == 3) (.of r.t)
    (.opt (.imm (laneControl r scan) 0x06))

/-- The control of `amo` and `red` (R265, R266, R270). -/
def atomControl (r : RCtx) (red : Bool) (i : Int) : Bool :=
  let n := i.toNat
  decide (0 ≤ i) && decide (n < (if red then 256 else 128)) && n / 16 % 8 != 7 &&
    decide (n % 16 ≤ (if red then 7 else 8)) && (!isFloat r.t || [0, 1, 3, 8].contains (n % 16))

def typeNamed (v : VCtx) (i : Int) : Ty := entryTy v.entry (i.toNat % 16)

/-- R218: the control of `pk8`. -/
def pkControl (v : VCtx) (i : Int) : Bool := decide (0 ≤ i) && decide (i < 32) && isB8 (typeNamed v i)

/-- R214. -/
def fcvtSrc (r : RCtx) (u : Ty) : Bool :=
  (isFloat u || narrow u) && u != r.t && !(narrow u && narrow r.t) &&
    (r.md != 6 || ((r.t == .f16 || r.t == .bf16 || isB8 r.t) && decide (tyWidth r.t < tyWidth u)))

def resultOf (v : VCtx) (fn : Nat) : Option Ty :=
  let f := nth v.entries (fentry v.img 0) fn
  if hasResult f then some (resultTy f) else none

/-- Parameter types of a function (R33, R34). -/
def paramTys (v : VCtx) (fn : Nat) : List Ty :=
  let code := (funcAt v.mod fn).code
  argTys (nth v.entries (fentry v.img 0) fn) code (blockWords code) 0

def blockNeeds (v : VCtx) (o : Operand) : List Ask := (argTys v.entry v.code v.blocks (indexOf o)).map .arg

/-- TYPE of a call or return of a function with a result type (R186, R188). -/
def callTy (r : RCtx) (res : Option Ty) : Option Nat :=
  match res with
  | some t => if r.t = .none then some 0x06 else if r.t = t then none else some 0x09
  | none => if r.tix = 0 then none else some 0x09

/-- The rule of a control instruction (R179, R180, R183 to R191, R354, R355). -/
def controlRule (v : VCtx) (r : RCtx) (op : Op) : Rule :=
  match op with
  | .br => { rule1 (tyZero r) (r.md == 0) .block with ext := blockNeeds v r.f.a, lenCode := 0x09 }
  | .brc => { rule3 (tyZero r) (r.md == 0) (.of .i1) .block .block with
                ext := blockNeeds v r.f.b ++ blockNeeds v r.f.c, lenCode := 0x09 }
  | .switch =>
    let n := immNat r.f.c
    { rule3 (tyZero r) (r.md == 0) (.among isInt) .block (.range 1 2047) with
        ext := List.replicate n .block ++ blockNeeds v r.f.b ++ (r.f.ext.take n).flatMap (blockNeeds v), lenCode := 0x09 }
  | .call =>
    let fn := indexOf r.f.a
    { rule1 (if fn < v.entries.length then callTy r (resultOf v fn) else none) (r.md == 0) .func with
        ext := (paramTys v fn).map .arg, lenCode := 0x09 }
  | .callx => { rule2 (if r.md = 1 then tyIn (anyTy r.t) else tyZero r) (decide (r.md ≤ 1)) (.of .i32) (.range 0 255) with
                  ext := List.replicate (immNat r.f.b) (.among anyTy) }
  | .ret =>
    match resultOf v v.fn with
    | some t => rule1 (callTy r (some t)) (r.md == 0) (if r.f.a = .none then .missing 0x09 else .arg t)
    | none => rule1 (callTy r none) (r.md == 0) (.absent 0x09)
  | .trap | .brk => rule1 (tyZero r) (r.md == 0) (.range 0 2047)
  | .const => rule1 (tyIn (anyTy r.t)) (r.md == 0) (.literal r.t)
  | .sreg => rule1 (tyIn (r.t == .i32)) (r.md == 0) (.range 0 15)
  | .select => rule3 (tyIn (anyTy r.t)) (r.md == 0) (.of .i1) (.of r.t) (.of r.t)
  | .trapInfo => rule0 (tyIn (r.md == 7 || r.t == nth [.i32, .i32, .i32, .i32, .i64, .i1, .i32] Ty.none r.md)) (r.md != 7)
  | .trapRet =>
    if r.md = 1 ∧ r.f.a ≠ .none then rule1 (tyIn (anyTy r.t)) true (.of r.t)
    else rule0 (tyZero r) (decide (r.md ≤ 2))
  | _ => rule0 (tyZero r) (r.md == 0)

/-- The rule of an integer or address instruction (R166 to R178). -/
def intRule (r : RCtx) (op : Op) : Rule :=
  let t := r.t
  let ty := tyIn (isInt t)
  match op with
  | .add | .sub => rule2 ty (decide (r.md ≤ 2)) (.of t) (.of t)
  | .mad => rule3 ty (decide (r.md ≤ 2)) (.of t) (.of t) (.of t)
  | .mulhi | .div | .rem | .min | .max | .shr => rule2 ty (decide (r.md ≤ 1)) (.of t) (.of t)
  | .neg | .abs => rule1 ty (decide (r.md ≤ 1)) (.of t)
  | .and | .or | .xor | .andn => rule2 (tyIn (isInt t || t == .i1)) (r.md == 0) (.of t) (.of t)
  | .not => rule1 (tyIn (isInt t || t == .i1)) (r.md == 0) (.of t)
  | .popc | .clz | .ctz | .brev => rule1 ty (r.md == 0) (.of t)
  | .bfx => rule3 ty (decide (r.md ≤ 1)) (.of t) (.of t) (.range 0 (tyWidth t))
  | .bfi => { rule3 ty (r.md == 0) (.of t) (.of t) (.of t) with ext := [.range 0 (tyWidth t)] }
  | .ext => rule1 ty (decide (r.md ≤ 1)) (.back (fun u => (isInt u || u == .i1) && decide (tyWidth u < tyWidth t)))
  | .trunc => rule1 (tyIn (isInt t || t == .i1)) (r.md == 0) (.back (fun u => isInt u && decide (tyWidth t < tyWidth u)))
  | .icmp => cmpRule r (icmpOk (cmpTy r) r.md)
  | .adr =>
    let wide : Ty → Bool := fun u => isPtr u && tyWidth u == tyWidth t
    let bits := t == .i64 || t == .i32
    match r.md with
    | 0 | 1 => rule3 (tyIn (isPtr t)) true (.of t) (.among (fun u => u == .i32 || u == .i64)) (.opt (.range 1 2047))
    | 2 => rule1 (tyIn bits) true (.among wide)
    | 3 => rule1 (tyIn (isPtr t)) true (.of (if tyWidth t = 64 then .i64 else .i32))
    | 4 => rule2 (tyIn bits) true (.among wide) (.among (fun u => wide u && (r.ta.isNone || r.ta == some u)))
    | _ => rule0 none false
  | .bsel => rule3 (tyIn (t == .i32 || t == .i64)) (r.md == 0) (.of t) (.of t) (.of .i32)
  | _ => rule2 ty (r.md == 0) (.of t) (.of t)

/-- The rule of a floating, lane or special-function instruction (R207 to R236). -/
def floatRule (v : VCtx) (r : RCtx) (op : Op) : Rule :=
  let t := r.t
  let ty := tyIn (isFloat t)
  let five := decide (r.md ≤ 5)
  match op with
  | .fadd | .fsub | .fmul | .fdiv => rule2 ty (arithMod r) (.of t) (.of t)
  | .fsqrt => rule1 ty (arithMod r) (.of t)
  | .fma => rule3 ty (arithMod r) (.of t) (.of t) (.of t)
  | .fmin | .fmax => rule2 ty (decide (r.md ≤ 1)) (.of t) (.of t)
  | .fneg | .fabs => rule1 ty (r.md == 0) (.of t)
  | .fcopysign => rule2 ty (r.md == 0) (.of t) (.of t)
  | .fcmp => cmpRule r (isFloat (cmpTy r))
  | .fclass => rule1 (tyIn (t == .i32)) (r.md == 0) (.among (fun u => isFloat u || narrow u))
  | .frint => rule3 ty five (.of t) .nothing (.opt signBit)
  | .fcvt => rule3 (tyIn (isFloat t || narrow t)) (r.md != 7) (.back (fcvtSrc r)) (if r.md = 6 then .of .i64 else .nothing)
      (.opt signBit)
  | .fcvti => rule3 (tyIn (isInt t)) five (.back isFloat) .nothing signBit
  | .icvtf => rule3 ty five (.back isInt) .nothing signBit
  | .fscaleb => rule2 ty five (.of t) (.of .i32)
  | .flogb => rule1 (tyIn (t == .i32)) (r.md == 0) (.among isFloat)
  | .fexcRd => rule0 (tyIn (t == .i32)) (r.md == 0)
  | .fexcClr => rule1 (tyZero r) (r.md == 0) (.range 0 63)
  | .fmodeSet =>
    let word : Ask := match r.f.a with
      | .imm _ => .imm (fun i => decide (0 ≤ i) && (i.toNat &&& 0xF8) == 0 && decide (i % 8 ≤ 4)) 0x06
      | _ => .of .i32
    rule2 (tyZero r) (r.md == 0) word (.opt (.of .i64))
  | .fmodeRd =>
    rule0 (tyIn ((t == .i32 && r.md != 1) || (t == .i64 && r.md != 0))) (decide (r.md ≤ 1))
  | .pk8 => { rule3 (tyIn (t == .i32)) (r.md != 7) (.of .f32) (.of .f32) (if r.md = 6 then .of .i64 else .nothing) with
                ext := [.imm (pkControl v) 0x06] }
  | .upk8 => rule3 (tyIn (t == .f32)) (r.md == 0) (.of .i32) (.range 0 3)
      (.imm (fun i => decide (0 ≤ i) && decide (i < 16) && isB8 (typeNamed v i)) 0x06)
  | .bscale => rule3 ty five (.of t) (.of .sc8) signBit
  | .lanex => rule3 (tyIn (anyTy t)) (decide (r.md ≤ 3)) (.of t) (.of .i32) (.of t)
  | .vote => rule1 (tyIn (t == (if r.md = 2 then .i32 else .i1))) (decide (r.md ≤ 3))
      (if r.md = 3 then .among anyTy else .of .i1)
  | .lgred => laneRule r false
  | .lgscan => laneRule r true
  | .matchLanes => rule1 (tyIn (t == .i32)) (r.md == 0) (.among anyTy)
  | .sfEval => rule1 (tyIn (t == .f32 || t == .f16 || t == .bf16)) (r.md != 7) (.of t)
  | _ => rule1 (tyIn (t == .i32)) (r.md == 0) (.among shared)

/-- The rule of a memory or token instruction (R115 to R118, R133, R134, R265, R270, R288). -/
def memRule (r : RCtx) (op : Op) : Rule :=
  let t := r.t
  let atomMd := decide (r.md ≤ 4)
  match op with
  | .ld => rule2 (tyIn (memTy t)) (decide (r.md ≤ 3)) (.back (ldSpace r.md)) (ldScope r r.f.b)
  | .st => rule3 (tyIn (memTy t)) (decide (r.md ≤ 3)) (.back (ldSpace r.md)) (.of t) (ldScope r r.f.c)
  | .prefetch => rule1 (tyZero r) (decide (r.md ≤ 1)) (.back (· == .ptrG))
  | .amo => rule3 (tyIn (atomTy t)) atomMd (.back gps) (.of t) (.imm (atomControl r false) 0x06)
  | .cas => { rule3 (tyIn (t == .i32 || t == .i64)) atomMd (.back gps) (.of t) (.of t) with ext := [scopeNeed] }
  | .red => rule3 (tyIn (atomTy t)) (r.md == 0 || r.md == 2) (.back gps) (.of t) (.imm (atomControl r true) 0x06)
  | .fence => rule1 (tyZero r) atomMd scopeNeed
  | .bxShape => { rule2 (tyIn (t == .tok)) (r.md == 0) (.back shared) (.count 0x37) with
                    ext := List.replicate (immNat r.f.b / 16 % 4) .tok }
  | .waitTok => rule1 (tyIn (t == .i1)) (r.md == 0) .tok
  | .tokStatus => rule1 (tyIn (t == .i32)) (r.md == 0) .tok
  | .tokAll => rule3 (tyIn (t == .tok)) (r.md == 0) .tok .tok (.opt .tok)
  | .waitChunks | .testChunks | .clrChunks =>
    let ty := match op with | .waitChunks => tyIn (t == .i1) | .testChunks => tyIn (t == .i64) | _ => tyZero r
    rule2 ty (r.md == 0) (.of .ptrS) (match r.f.b with | .imm _ => .range 1 32 | _ => .of .i32)
  | _ => rule0 (tyZero r) (r.md == 0)

/-- The rule of an engine command, a barrier, a plane, ring or debug instruction (R107, R257, R261, R277, R301, R305,
R323 to R327, R345, R381, R382, R388, R389, R401). -/
def engineOpRule (r : RCtx) (op : Op) : Rule :=
  let t := r.t
  let m0 := r.md == 0
  let s : Ask := .back (· == .ptrS)
  let g : Ask := .back gps
  let bs := r.md / 2 % 2 == 1
  let i32n (k : Nat) : List Ask := List.replicate k (.of .i32)
  match op with
  | .bxCopy | .bxRed => copyRule r g (.back (fun u => gps u && (u == .ptrS || r.ta == some .ptrS))) false
  | .bxConv => copyRule r s g false
  | .bxFill => copyRule r g (.of .i64) false
  | .bxGather => copyRule r s g true
  | .bxScatter => copyRule r g s true
  | .mxZero => engineRule r m0 0x37 .nothing .nothing []
  | .mxLd => engineRule r (decide (r.md ≤ 2)) 0x37 s .nothing []
  | .mxStep => engineRule r (decide (r.md ≤ 3)) 0x37 s s (if bs then [s] else [])
  | .mxLoop => engineRule r (decide (r.md ≤ 3)) 0x37 s s (i32n 3 ++ (if bs then s :: i32n 1 else []))
  | .mxStore => engineRule r (decide (r.md ≤ 1)) 0x37 s .nothing []
  | .mxMode => engineRule r m0 0x30 (.of .i64) .nothing []
  | .mxRead =>
    let odd := (r.md == 0 && t == .f64) || r.md == 2
    let n : Ask := .imm (fun i => decide (0 ≤ i) && decide (i ≤ 7) && (!odd || i % 2 == 0)) 0x06
    if r.md = 0 then rule3 (tyIn (t == .f32 || t == .f64)) true n (.of .i32) (.of .i32)
    else rule1 (tyIn (t == .i32)) (decide (r.md ≤ 2)) n
  | .xcSwap => rule2 (tyIn (t == .i64)) m0 (.among (fun u => u == .i32 || u == .f32 || u == .ptrS || u == .ptrK))
      (match r.f.b with | .imm _ => .range 0 255 | _ => .of .i32)
  | .barJoin | .barLeave => rule1 (tyIn (r.tix == 0)) m0 (.of .ptrS)
  | .barArrive => rule1 (tyIn (t == .i32)) m0 (.of .ptrS)
  | .barWait => rule2 (tyIn (t == .i1)) m0 (.of .ptrS) (.of .i32)
  | .barSync => rule1 (tyIn (t == .i1)) m0 (.of .ptrS)
  | .yield => rule0 (tyIn (r.tix == 0)) m0
  | .cpKey => rule1 (tyIn (t == .i64)) (r.md % 4 != 3) (.among (if r.md % 4 = 2 then isFloat else isInt))
  | .cpBid => engineRule r (decide (r.md ≤ 1)) 0x30 (.of .i32) (.of .i64) []
  | .cpGate => rule2 (tyZero r) m0 (.of .i32) (.of .i32)
  | .cpWon => rule1 (tyIn (t == .i1)) m0 .bidToken
  | .cpMax => rule1 (tyIn (t == .i64)) m0 .bidToken
  | .cpDie | .cpRound => rule1 (tyIn (t == .i32)) m0 .bidToken
  | .cpLast => rule1 (tyIn (t == (if r.md = 0 then .i64 else .i32))) (decide (r.md ≤ 2)) (.of .i32)
  | .cvTurn => engineRule r (decide (r.md ≤ 3)) 0x30 (.of .i32) .nothing []
  | .cvSplit => rule0 (tyIn (t == .i32)) (decide (r.md ≤ 1))
  | .dbgMark => if r.f.b = .none then rule1 (tyZero r) m0 (.range 0 2047)
                else rule2 (tyIn (isInt t || isFloat t)) m0 (.range 0 2047) (.of t)
  | .rdclk => rule0 (tyIn (t == .i64)) (decide (r.md ≤ 1))
  | .rdcnt => rule1 (tyIn (t == .i64)) m0
      (.imm (fun i => decide (0 ≤ i) && (decide (i ≤ 22) || (decide (32 ≤ i) && decide (i ≤ 41)))) 0x06)
  | _ => rule2 (tyIn (t == .i64)) m0 (.range 0 2047) (.opt (.of .i64))

def ruleOf (v : VCtx) (r : RCtx) (op : Op) : Rule :=
  let c := opCode op
  if op = .icmp ∨ op = .adr ∨ op = .bsel ∨ (0x020 ≤ c ∧ c < 0x060) then intRule r op
  else if c < 0x020 ∨ op = .brk then controlRule v r op
  else if c < 0x0B0 then floatRule v r op
  else if c ≤ 0x0C0 ∨ (0x0C8 ≤ c ∧ c < 0x0D0) then memRule r op
  else engineOpRule r op

/-! ### Words -/

/-- The code of a field that is no operand (R28, R32). A long form whose distance is below 32768 gets 0x05: R40 names no code for it
(DESIGN CHOICE, log 85). -/
def rejectCode (e : Reject) : Nat :=
  match e with | .fieldNone => 0x03 | .extension => 0x08 | _ => 0x05

/-- A field read with the extension fields that are left: what it holds, and what is left. -/
def readField (x : Nat) (more : List Nat) : Except Nat Operand × List Nat :=
  match operandOf x more with
  | .ok (o, r) => (.ok o, r)
  | .error e => (.error (rejectCode e), more)

/-- The extra operands, with the number of fields read before each. -/
def readExtra : Nat → List Nat → Nat → List (Except Nat Operand × Nat)
  | 0, _, _ => []
  | _, [], _ => []
  | k + 1, x :: more, at_ =>
    let r := readField x more
    (r.1, at_) :: readExtra k r.2 (at_ + 1 + (more.length - r.2.length))

/-- What R31 asks of one extension word. -/
def extFail (last : Bool) (w : Word) : Option Nat :=
  let cnt := field w 48 3
  leastCode [(field w 51 4 != 0, 0x03), (cnt == 0 || decide (3 < cnt) || (!last && cnt != 3) ||
    !(([field w 32 16, field w 16 16, field w 0 16].drop cnt).all (· == 0xB000)), 0x08)]

/-- The fields in use of an extension word, well formed or not. -/
def extUsed (w : Word) : List Nat := [field w 32 16, field w 16 16, field w 0 16].take (field w 48 3)

def fieldFail (v : VCtx) (blk n : Nat) (o : Except Nat Operand) (k : Ask) : Option Nat :=
  match o with
  | .error c => some c
  | .ok o => fieldCode v blk n o k

/-- An instruction word with its extension words: its TYPE, MOD, A, B and C, then the extension fields (step 5 of R40).
Offsets are word indices of the function.
DESIGN CHOICE (log 91): the targets of a `switch` come before the number of its arguments, which is reported at the
instruction word before the types of the arguments. -/
def checkInstr (v : VCtx) (op : Op) (ix : Nat) : Fail :=
  let w := nth v.code 0 ix
  let exts := extWords v.code ix
  let fs := exts.flatMap extUsed
  let a := readField (field w 32 16) fs
  let b := readField (field w 16 16) a.2
  let c := readField (field w 0 16) b.2
  let ext := readExtra c.2.length c.2 (fs.length - c.2.length)
  let plain : Except Nat Operand → Operand := fun o => match o with | .ok o => o | .error _ => .none
  let n := defsBefore v.mod v.code ix
  let blk := blockOf v.code ix
  let tyRef : Operand → Option Ty := fun o => match o with
    | .back d => if n < d then some .none else some (nth v.vals (.none, 0) (n - d)).1
    | _ => none
  let f : PForm := { ty := BitVec.ofNat 4 (tyOf w), md := BitVec.ofNat 3 (mdOf w), a := plain a.1, b := plain b.1, c := plain c.1,
                     ext := ext.map (fun e => plain e.1) }
  let r : RCtx := { t := entryTy v.entry (tyOf w), tix := tyOf w, md := mdOf w, f := f, ta := tyRef f.a, tb := tyRef f.b }
  let u := ruleOf v r op
  let at_ : Option Nat → Nat → Fail := fun code i => code.map (fun k => (k, i))
  firstOf ([at_ u.ty ix, failIf (!u.md) 0x03 ix, at_ (fieldFail v blk n a.1 u.a) ix, at_ (fieldFail v blk n b.1 u.b) ix,
      at_ (fieldFail v blk n c.1 u.c) ix]
    ++ (List.range exts.length).map (fun i => at_ (extFail (i + 1 == exts.length) (nth exts 0 i)) (ix + 1 + i))
    ++ ((ext.zip u.ext).takeWhile (fun e => e.2.isBlock)).map (fun e => at_ (fieldFail v blk n e.1.1 e.2) (ix + 1 + e.1.2 / 3))
    ++ [failIf (ext.length != u.ext.length) u.lenCode ix]
    ++ (ext.zip u.ext).map (fun e => at_ (fieldFail v blk n e.1.1 e.2) (ix + 1 + e.1.2 / 3)))

/-- Where the checks stand in a function: before its first word, within the parameters of a block, in its body, after a
terminator. -/
inductive WordPlace where
  | start | params (k : Nat) | body | ended
  deriving DecidableEq, Repr

/-- A `blk` word (R33). -/
def checkBlk (v : VCtx) (w : Word) (ix : Nat) : Fail :=
  let a := (readField (field w 32 16) []).1
  let k := field w 32 12
  let none_ : Nat → Option Nat := fun x => fieldFail v 0 0 (readField x []).1 .nothing
  firstOf [failIf (v.blocks[4096]? == some ix) 0x08 ix, failIf (tyOf w != 0) 0x03 ix, failIf (mdOf w != 0) 0x03 ix,
    (match a with
      | .error c => some (c, ix)
      | .ok (.imm i) => if 0 ≤ i.toInt ∧ i.toInt ≤ 255 then failIf (ix == 0 && k != v.entry.nparam) 0x0A ix else some (0x06, ix)
      | .ok .none => some (0x05, ix)
      | .ok _ => some (0x06, ix)),
    (none_ (field w 16 16)).map (fun c => (c, ix)), (none_ (field w 0 16)).map (fun c => (c, ix))]

/-- A `param` word (R24, R34). -/
def checkParam (v : VCtx) (w : Word) (ix : Nat) : Fail :=
  let t := entryTy v.entry (tyOf w)
  let none_ : Nat → Option Nat := fun x => fieldFail v 0 0 (readField x []).1 .nothing
  firstOf [failIf (t == .none || (t == .tok && blockOf v.code ix == 0)) 0x06 ix, failIf (mdOf w != 0) 0x03 ix,
    (none_ (field w 32 16)).map (fun c => (c, ix)), (none_ (field w 16 16)).map (fun c => (c, ix)),
    (none_ (field w 0 16)).map (fun c => (c, ix))]

def isTerminator (op : Op) : Bool :=
  [Op.br, .brc, .switch, .ret, .exit, .unreach, .trapRet].contains op

/-- The words of a function in layout order, from word `ix` at a place (R33, step 5 of R40). A last block without terminator is
reported at the function's last word (DESIGN CHOICE, log 85). -/
def checkWords (v : VCtx) : Nat → Nat → WordPlace → Fail
  | 0, _, _ => none
  | fuel + 1, ix, p =>
    if v.code.length ≤ ix then failIf (p != .ended) 0x08 (v.code.length - 1) else
    let w := nth v.code 0 ix
    let o := opcOf w
    if isExt w then some (0x08, ix)
    else if o = 0x001 then
      (if p = .start ∨ p = .ended then
        match checkBlk v w ix with
        | some f => some f
        | none => checkWords v fuel (ix + 1) (if blockArgs v.code ix = 0 then .body else .params (blockArgs v.code ix))
      else some (0x08, ix))
    else if o = 0x002 then
      match p with
      | .params k =>
        (match checkParam v w ix with
        | some f => some f
        | none => checkWords v fuel (ix + 1) (if k ≤ 1 then .body else .params (k - 1)))
      | _ => some (0x08, ix)
    else match plimetOp w with
      | .error _ => some (0x04, ix)
      | .ok op =>
        if p ≠ .body then some (0x08, ix) else
        match checkInstr v op ix with
        | some f => some f
        | none => checkWords v fuel (nextIx v.code ix) (if isTerminator op then .ended else .body)

/-- Step 5 of R40. -/
def checkCode (img : List Byte) (mod : Module) : Fail :=
  firstOf ((List.range mod.funcs.length).map (fun fn =>
    let v := vctx img mod fn
    (checkWords v (v.code.length + 1) 0 .start).map (fun f => (f.1, imgAt img 20 4 + 8 * (v.entry.codeIdx + f.2)))))

/-! ### Handlers (R352) -/

/-- Instructions that a handler and the functions it calls may not contain. -/
def barred (w : Word) : Bool :=
  let o := opcOf w
  [0x007, 0x0C8, 0x0CA, 0x0CB, 0x0E0].contains o || (decide (0x0C0 ≤ o) && decide (o ≤ 0x0C6)) || o == 0x0C9 ||
    (decide (0x0D0 ≤ o) && decide (o ≤ 0x0D5)) || (decide (0x0E8 ≤ o) && decide (o ≤ 0x0EC)) ||
    (decide (0x0F0 ≤ o) && decide (o ≤ 0x0F7)) || o == 0x100

/-- The functions that a list of functions calls, added to it. -/
def callClosure (mod : Module) : Nat → List Nat → List Nat
  | 0, fs => fs
  | k + 1, fs =>
    let more := fs.flatMap (fun fn => ((funcAt mod fn).code.filter (fun w => opcOf w == 0x006)).map (fun w => field w 32 12))
    let all := (fs ++ more).eraseDups
    if all.length = fs.length then fs else callClosure mod k all

/-- Step 6 of R40: each handler, and `trap.info` and `trap.ret` outside handlers. -/
def checkHandlers (img : List Byte) (mod : Module) : Fail :=
  firstOf ((List.range mod.funcs.length).map (fun fn =>
    let f := fentry img fn
    let code := (funcAt mod fn).code
    if f.fflags.testBit 1 then
      let tys := argTys f code (blockWords code) 0
      let reach := callClosure mod mod.funcs.length [fn]
      failIf (f.fflags.testBit 0 || !f.fflags.testBit 2 || hasResult f || decide (8 < tys.length) ||
        !tys.all (fun t => t == .i32 || t == .i64 || t == .ptrG || t == .ptrP) || code.any (fun w => opcOf w == 0x008) ||
        reach.any (fun g => (funcAt mod g).code.any barred)) 0x0A f.at_
    else ((List.range code.length).find? (fun i => [0x00F, 0x010].contains (opcOf (nth code 0 i)))).map
      (fun i => (0x06, imgAt img 20 4 + 8 * (f.codeIdx + i)))))

/-- The first failure of two checks, the second made after the first has passed. -/
def andThen (a : Fail) (b : Unit → Fail) : Fail := match a with | some f => some f | none => b ()

/-- Steps 1 to 6 of R40 on an image; its functions are read once its table is sound. -/
def checkImage (img : List Byte) (mod : Unit → Module) : Fail :=
  andThen (checkHeader img) fun _ => andThen (checkTable img) fun _ => andThen (checkConsts img) fun _ =>
    andThen (checkLines img) fun _ => andThen (checkCode img (mod ())) fun _ => checkHandlers img (mod ())

end Sys2Proof.Machine
end

