-- ==== Sys2Proof/Machine/Load.lean ====
section
/-!
DEFINITION. Loading a module: the data base, the module hash, the data image and the handle (R39 to R41, R393).
-/
namespace Sys2Proof.Machine

/-- The functions of an image with the kind 1 constants resolved against a data base (R37, R39). -/
def resolvedFuncs (img : List Byte) (base : Word) : List Func :=
  ((fentries img).zip (imageFuncs img)).map (fun p =>
    { p.2 with consts := ((List.range p.2.consts.length).zip p.2.consts).map (fun c =>
        if constKind img p.1 c.1 = 1 then c.2 + base else c.2) })

/-- The module of an image, as it stands on a die before a context holds it. -/
def imageModule (die : Nat) (img : List Byte) (base : Word) : Module :=
  { die := die, image := img, mhash := moduleHash img, base := base, dataLen := imgAt img 32 4, funcs := resolvedFuncs img base,
    copies := [] }

/-- Whether a module needs an allocation for its data (R39). -/
def needsData (img : List Byte) : Bool :=
  imgAt img 32 4 != 0 || (fentries img).any (fun f => (List.range f.nconst).any (fun i => constKind img f i == 1))

/-- The resident module of a die with a hash (R41). -/
def residentOf (s : State) (die : Nat) (hash : Word) : Option (Nat × Module) :=
  s.h.modules.first (fun m => m.2.die == die && m.2.mhash == hash)

/-- The data base breaks R39, or differs from that of an identical resident module (R41). -/
def baseBad (s : State) (ctx : Nat) (img : List Byte) (base : Word) (old : Option (Nat × Module)) : Bool :=
  let len := roundUp (imgAt img 32 4) 65536
  let same := old.filter (fun m => m.2.image == img)
  let held := match same with | some m => m.2.copies.contains ctx | none => false
  (match same with | some m => m.2.base != base | none => false) ||
    (needsData img && base == 0) || base.toNat % 65536 != 0 || decide (2 ^ 56 < base.toNat + max len 1) ||
    (!held && (ctxEntries s ctx base.toNat (base.toNat + len)).any (fun e => pteV e.2.2))

/-- The data image in a new allocation of a context: local pages, release-consistent, with RD, WR and AT (R39). -/
def placeData (s : State) (die ctx : Nat) (img : List Byte) (base : Word) : Option State :=
  let len := imgAt img 32 4
  let n := roundUp len 65536 / 65536
  if n = 0 then some s else
  match takeFrames s die n with
  | none => none
  | some (s1, frame) =>
    let s2 := writeBytes s1 (lpKey die frame) ((img.drop (imgAt img 28 4)).take len)
    mapRange s2 ctx base.toNat (n * 65536) (BitVec.ofNat 64 (0x5F + frame))

/-- The checks of R40 in their order, on the bytes read. A collision of hashes (0x0B) concerns no byte, and offset 0 is reported
(DESIGN CHOICE, log 85). -/
def loadCheck (s : State) (h : Hdr) (img : List Byte) (base : Word) : Fail :=
  andThen (checkImage img (fun _ => imageModule h.die img base)) fun _ =>
    let old := residentOf s h.die (moduleHash img)
    firstOf [failIf (baseBad s (ctxKey h) img base old) 0x0D 28,
      failIf (match old with | some m => m.2.image != img | none => false) 0x0B 0]

/-- A module that has passed: a handle to it, or to the identical module that is resident (R41); `none` when the kernel
has no memory for the data image. -/
def loadModule (s : State) (h : Hdr) (img : List Byte) (base : Word) : Option State :=
  let ctx := ctxKey h
  let old := residentOf s h.die (moduleHash img)
  let mid := (old.map (·.1)).getD s.c.nextId
  let m := (old.map (·.2)).getD (imageModule h.die img base)
  let placed := if m.copies.contains ctx then some s else placeData s h.die ctx img base
  placed.map fun t =>
    let m1 : Module := { m with copies := if m.copies.contains ctx then m.copies else m.copies ++ [ctx] }
    let handle := t.c.nextId + 1
    let t1 : State := { takeId (takeId t) with h := { t.h with
        modules := t.h.modules.ins mid m1
        handles := t.h.handles.ins handle { ctx := ctx, module := mid, leaving := none } } }
    done t1 h [BitVec.ofNat 64 handle]

/-- R39 to R41, R393. The image is read through the tables of the loading context. One that cannot be read there is refused with
0x02 at offset 8, and one whose data image finds no kernel memory with 0x33: R40 names no code for either (DESIGN CHOICE, log 85).
-/
def execModuleLoad (h : Hdr) (image length dataBase : BitVec 64) (s : State) : Out :=
  let read := kernelRead s (ctxKey h) length.toNat image
  let img := read.getD []
  let after := loadModule s h img dataBase
  let check : Option Nat :=
    if notLive s h then some 0x38
    else if read.isNone then some (offCode 0x02 8)
    else match loadCheck s h img dataBase with
      | some f => some (offCode f.1 f.2)
      | none => if after.isNone then some 0x33 else none
  request s h shaderOnly check (after.getD s)

end Sys2Proof.Machine
end

