-- ==== Sys2Proof/Machine/Matrix.lean ====
section
/-!
DEFINITION. The matrix engine: its commands at issue, the steps and their summation order, the budget pools, the other
commands and `mx.read` (R240 to R261, R399).
-/
namespace Sys2Proof.Machine

/-! ### The mode word (R251) -/

/-- The type of an operand format code. -/
def mxFmt (code : Nat) : Option Ty :=
  match code with
  | 0x20 => some .f16 | 0x21 => some .bf16 | 0x22 => some .f32 | 0x23 => some .f64
  | c => if c < 0x20 ∧ c % 8 ≠ 0 then some (.b8 (Fin.ofNat 4 (c / 8)) (Fin.ofNat 8 c)) else none

def afmt (m : Word) : Nat := (m.extractLsb' 0 6).toNat
def bfmt (m : Word) : Nat := (m.extractLsb' 6 6).toNat
def sfmt (m : Word) : Nat := (m.extractLsb' 12 8).toNat
def srnd (m : Word) : Nat := (m.extractLsb' 20 3).toNat
def srBase (m : Word) : Nat := (m.extractLsb' 32 32).toNat
def sfmtTy (m : Word) : Ty := (tyOfCode (sfmt m)).getD .f32

/-- The operand class: a binary8 type stands for them all. -/
def mxClass (m : Word) : Ty :=
  match mxFmt (afmt m) with
  | some (.b8 _ _) => .b8 0 1
  | some t => t
  | none => .bf16

/-- A mode word obeys R251. -/
def mxModeOk (m : Word) : Bool :=
  m.extractLsb' 24 8 == 0 && srnd m != 7 &&
    (match tyOfCode (sfmt m) with | some t => isFloat t || isB8 t | none => false) &&
    (match mxFmt (afmt m), mxFmt (bfmt m) with
     | some a, some b => (isB8 a && isB8 b) || a == b
     | _, _ => false)

/-- K, element bytes and the step time on a die (R243). -/
def stepK (t : Ty) : Nat := match t with | .f16 | .bf16 => 64 | .f32 => 32 | .f64 => 16 | _ => 128
def stepTime (t : Ty) (die : Nat) : Nat :=
  if Config.dieKind die = 1 then 256 else match t with | .f32 => 128 | .f64 => 512 | _ => 64

/-! ### Commands of a core -/

/-- The tiles that a command names; under the f64 class a pair (R241, R257). -/
def mxTiles (k : Cmd) : List Nat :=
  let pair := fun n (b : Bool) => if b then [n, n + 1] else [n]
  match k.body with
  | .mxZero n => [n]
  | .mxLd n f64 _ _ => pair n f64
  | .mxSteps n _ _ _ _ _ _ _ _ _ => pair n (mxClass k.mode == .f64)
  | .mxStore n f64 _ => pair n f64
  | _ => []
def isSteps (k : Cmd) : Bool := match k.body with | .mxSteps _ _ _ _ _ _ _ _ _ _ => true | _ => false
def isMxLd (k : Cmd) : Bool := match k.body with | .mxLd _ _ _ _ => true | _ => false
def isMxStore (k : Cmd) : Bool := match k.body with | .mxStore _ _ _ => true | _ => false

/-- The MX commands of a core that have not completed, in queue order. -/
def mxCmdsOf (s : State) (core : Nat) : List (Nat × Cmd) :=
  s.e.cmds.filter (fun k => k.2.engine == 3 && k.2.core == core)
def mxBefore (s : State) (core i : Nat) : List (Nat × Cmd) := (mxCmdsOf s core).filter (fun k => decide (k.1 < i))

/-- The mode and seed in force at the queue tail (R251). -/
def tailMode (s : State) (core : Nat) : Word × Word :=
  ((mxCmdsOf s core).reverse.findSome? (fun k => match k.2.body with
    | .mxMode w seed => some (w, seed)
    | _ => none)).getD ((mxAt s core).mode, (mxAt s core).seed)

/-- The entries that a command pops, taken in queue order: behind those of earlier commands that have not popped. -/
def mxPops (s : State) (core i : Nat) (k : Cmd) : Option (List Nat) :=
  let earlier := (mxBefore s core i).flatMap (fun c => c.2.pops.filterMap (fun p => match p with
    | .queue x => some (x, 0)
    | .entry _ => none))
  popIds s core 3 k.pops earlier
def mxPopsReady (s : State) (core i : Nat) (k : Cmd) : Bool :=
  match mxPops s core i k with | some ids => ids.all (isFilled s) | none => false

/-- Removes popped entries from the queues that they stand in. -/
def erasePops (s : State) (core y : Nat) (ps : List Pop) (ids : List Nat) : State :=
  (ps.zip ids).foldl (fun s p => match p.1 with
    | .queue x => setPair s core x y (qErase p.2 (pairAt s core x y))
    | .entry i => eraseEntry s core i) s

/-- A command leaves the queue and takes its input entries. -/
def mxStart (s : State) (core i : Nat) (k : Cmd) : State :=
  let s1 := erasePops s core 3 k.pops ((mxPops s core i k).getD [])
  let s2 : State := { s1 with e := { s1.e with mxq := s1.e.mxq.ins core (qErase i (s1.e.mxq.getD queueZero core)) } }
  setCmd s2 i { k with started := true, pops := [] }

/-- Whether a tile stands in the core's accumulators and not in its backing area (R242). -/
def tilePresent (s : State) (core t : Nat) : Bool :=
  Config.dieKind (dieOfCore core) != 1 || (nth (mxAt s core).swapped false (t % 4)) == decide (4 ≤ t)

/-- Scratch regions that step `x` of a command, or the command, reads: address and bytes. -/
def stepAddrs (a b sc da db dsc : BitVec 32) (x : Nat) : BitVec 32 × BitVec 32 × BitVec 32 :=
  let n := BitVec.ofNat 32 x
  (a + n * da, b + n * db, sc + n * dsc)

def mxReads (k : Cmd) : List (BitVec 32 × Nat) :=
  match k.body with
  | .mxLd _ f64 _ a => [(a, if f64 then 32768 else 16384)]
  | .mxSteps _ _ bs a b sc _ da db dsc =>
    let r := stepAddrs a b sc da db dsc k.steps
    [(r.1, 8192), (r.2.1, 8192)] ++ (if bs then [(r.2.2, 512)] else [])
  | _ => []

/-- A region is read once no lock covers it, but for a lock of a later `mx.store` of the same core (R125, R248). -/
def mxMayRead (s : State) (i : Nat) (k : Cmd) : Bool :=
  (mxReads k).all (fun r => match scrHome s k.gang r.1 r.2 with
    | none => true
    | some (core, pa) => s.e.locks.all (fun l =>
        !(l.core == core && decide (l.lo < (pa + r.2) / 512) && decide (pa / 512 < l.lo + l.n)) ||
        (match s.e.cmds.find? l.cmd with
         | some o => o.engine == 3 && o.core == k.core && decide (i < l.cmd)
         | none => false)))

/-- An `mx.read` that waits for earlier commands of a tile reads before a later one starts (R261). -/
def readAhead (s : State) (core i : Nat) (k : Cmd) : Bool :=
  s.x.paths.any (fun p => coreOfPath p.1 == core && !p.2.halted && (match p.2.mxIds with
    | none => false
    | some (ts, ids) => ts.any (fun t => (mxTiles k).contains t) && !ids.contains i))

/-- A command may start (R247, R248): its tiles are free of earlier commands, it is first of its stream, its tokens are
there, its reads are allowed; an `mx.store` waits for every earlier operand read. -/
def mxMayStart (s : State) (i : Nat) (k : Cmd) : Bool :=
  let earlier := mxBefore s k.core i
  !frozenCore s k.core &&
    earlier.all (fun e => isSteps e.2 != isSteps k && !(mxTiles e.2).any (fun t => (mxTiles k).contains t)) &&
    (!isMxStore k || earlier.all (fun e => !isSteps e.2 && !isMxLd e.2)) &&
    mxPopsReady s k.core i k && storesDone s k && mxMayRead s i k && !readAhead s k.core i k &&
    (mxTiles k).all (tilePresent s k.core)

/-! ### Accumulators (R241) -/

def accKey (core tile e : Nat) : Nat := (core * 8 + tile) * 4096 + e
def accWord (s : State) (core tile e : Nat) : Nat := (s.e.acc.getD 0 (accKey core tile e)).toNat
def setAccWord (s : State) (core tile e v : Nat) : State :=
  { s with e := { s.e with acc := s.e.acc.putD 0 (accKey core tile e) (BitVec.ofNat 32 v) } }
/-- Element `e` = 64·i + j of a tile, or of a pair. -/
def accElem (s : State) (core n : Nat) (f64 : Bool) (e : Nat) : Nat :=
  if f64 then accWord s core (n + e / 2048) (2 * e % 4096) + 2 ^ 32 * accWord s core (n + e / 2048) (2 * e % 4096 + 1)
  else accWord s core n e
def setAccElem (s : State) (core n : Nat) (f64 : Bool) (e v : Nat) : State :=
  if f64 then setAccWord (setAccWord s core (n + e / 2048) (2 * e % 4096) (v % 2 ^ 32)) core (n + e / 2048)
      (2 * e % 4096 + 1) (v / 2 ^ 32)
  else setAccWord s core n e v

/-- Whether an element of a tile or pair holds an uncorrectable error, and whether any element of some tiles does (R250). -/
def lostElem (s : State) (core n : Nat) (f64 : Bool) (e : Nat) : Bool :=
  let key := if f64 then accKey core (n + e / 2048) (2 * e % 4096) else accKey core n e
  s.e.lostAcc.contains (key / 2)
def lostTiles (s : State) (core : Nat) (ts : List Nat) : Bool := s.e.lostAcc.any (fun p => ts.any (fun t => p / 2048 == core * 8 + t))
/-- Tiles are written whole, and hold no error any more. -/
def renewTiles (s : State) (core : Nat) (ts : List Nat) : State :=
  { s with e := { s.e with lostAcc := s.e.lostAcc.filter (fun p => !ts.any (fun t => p / 2048 == core * 8 + t)) } }
/-- Every element of some tiles takes a value that the spec leaves undefined (R250; log 1). -/
def undefTiles (s : State) (core : Nat) (ts : List Nat) : State :=
  let s1 := ts.foldl (fun s t => (List.range 4096).foldl (fun s e =>
    setAccWord (takeFree s) core t e ((Config.freeWord s.c.fresh).toNat % 2 ^ 32)) s) s
  renewTiles s1 core ts

/-- ORs flags into the flag words of tiles. -/
def orTileFlags (s : State) (core : Nat) (ts : List Nat) (fl : Flags) : State :=
  let m := mxAt s core
  setMx s core { m with flagw := ts.foldl (fun ws t => setNth ws t (nth ws 0 t ||| fl.setWidth 32)) m.flagw }
/-- Clears the flag words of tiles. -/
def clearTileFlags (s : State) (core : Nat) (ts : List Nat) : State :=
  let m := mxAt s core
  setMx s core { m with flagw := ts.foldl (fun ws t => setNth ws t 0) m.flagw }
/-- Sets the step count of a flag word. -/
def setStepCount (s : State) (core t n : Nat) : State :=
  let m := mxAt s core
  setMx s core { m with flagw := setNth m.flagw t (BitVec.ofNat 32 (n % 65536 * 65536 + (nth m.flagw 0 t).toNat % 65536)) }

/-! ### One step (R243 to R246) -/

/-- One product with its scales (R245, R246): the value, and whether it is a zero times an infinity. -/
def mxProduct (a b sa sb : FVal) : FVal × Bool :=
  if a.isNan || b.isNan then (.nan false, false) else
  match mulExact a b with
  | none => (.nan false, true)
  | some p =>
    match sa, sb with
    | .fin _ m e, .fin _ m2 e2 => (match p with
      | .fin neg k e0 => (.fin neg (k * m * m2) (e0 + e + e2), false)
      | p => (p, false))
    | _, _ => (.nan false, false)

def isInfOf (neg : Bool) (v : FVal) : Bool := match v with | .inf n => n == neg | _ => false

/-- The exact sum of finite products. -/
def exactSum (ps : List FVal) : Int × Int :=
  ps.foldl (fun a p => match p with
    | .fin neg m e => addExact (decide (a.1 < 0)) a.1.natAbs a.2 neg m e
    | _ => a) (0, 0)

/-- The sum of one group, rounded once to f32 (R245, R246). -/
def groupSum (ps : List (FVal × Bool)) : Nat × Flags :=
  let vs := ps.map (·.1)
  let both := vs.any (isInfOf false) && vs.any (isInfOf true)
  let inv : Flags := if ps.any (·.2) || both then fInvalid else fNone
  if both || vs.any FVal.isNan then (fmtF32.nan, inv)
  else if vs.any (isInfOf false) then (fmtF32.infCode false, inv)
  else if vs.any (isInfOf true) then (fmtF32.infCode true, inv)
  else
    let t := exactSum vs
    if t.1 = 0 then (fmtF32.zero (vs.all (fun v => v == .zero true)), inv)
    else
      let r := fmtF32.deliver rneDeliver (decide (t.1 < 0)) t.1.natAbs t.2 false
      (r.1, r.2 ||| inv)

/-- The groups of 32 products, in ascending k. -/
def groupSteps (fa fb : Fmt) (sa sb : Nat → FVal) (as bs : List Nat) : Nat → Nat → Nat × Flags → Nat × Flags
  | 0, _, c => c
  | n + 1, g, c =>
    let ps := (List.range 32).map (fun i => mxProduct (fa.decode (nth as 0 (32 * g + i))) (fb.decode (nth bs 0 (32 * g + i)))
      (sa g) (sb g))
    let gs := groupSum ps
    let r := fmtF32.add rneDeliver c.1 gs.1
    groupSteps fa fb sa sb as bs n (g + 1) (r.1, c.2 ||| gs.2 ||| r.2)

/-- The update of one element (R245): its value and the exceptions. -/
def stepElem (t ta tb : Ty) (sa sb : Nat → FVal) (as bs : List Nat) (c : Nat) : Nat × Flags :=
  if t == .f32 || t == .f64 then
    (as.zip bs).foldl (fun a p => let r := (fmtOf t).fma rneDeliver p.1 p.2 a.1; (r.1, a.2 ||| r.2)) (c, fNone)
  else groupSteps (fmtOf ta) (fmtOf tb) sa sb as bs (stepK t / 32) 0 (c, fNone)

/-- The elements of a row of 128 bytes. -/
def rowElems (bytes : List Byte) (r size : Nat) : List Nat :=
  (List.range (128 / size)).map (fun k => leNat ((bytes.drop (128 * r + k * size)).take size))

/-- The scale of row or column `r`, group `g`, from a scale chunk (R244). -/
def scaleAt (chunk : List Byte) (base r g : Nat) : FVal := fmtSc8.decode (nth chunk 0 (base + 4 * r + g)).toNat
def unitScale (_ : Nat) : FVal := .fin false 1 0

/-- Every element of the accumulator after a step, with the exceptions of all of them. -/
def stepAll (s : State) (k : Cmd) (n : Nat) (bs : Bool) (a b sc : List Byte) : State :=
  let t := mxClass k.mode
  let f64 := t == .f64
  let size := 128 / stepK t
  let ta := (mxFmt (afmt k.mode)).getD .bf16
  let tb := (mxFmt (bfmt k.mode)).getD .bf16
  let r := (List.range 4096).foldl (fun (acc : State × Flags) e =>
    let i := e / 64
    let j := e % 64
    let v := stepElem t ta tb (if bs then scaleAt sc 0 i else unitScale) (if bs then scaleAt sc 256 j else unitScale)
      (rowElems a i size) (rowElems b j size) (accElem s k.core n f64 e)
    (setAccElem acc.1 k.core n f64 e v.1, acc.2 ||| v.2)) (s, fNone)
  orTileFlags r.1 k.core (mxTiles k) r.2

/-- The tag that an operand format expects (R253). -/
def fmtTag (code : Nat) : Byte := BitVec.ofNat 8 (if code < 0x20 then 0x20 + code else 0x10 + (code - 0x20))
def slotTag (s : State) (gang : Nat) (a : BitVec 32) : Byte :=
  match scrHome s gang a 1 with
  | some (core, pa) => tagAt s core (pa / 8192)
  | none => 0
def scrRegion (s : State) (gang : Nat) (a : BitVec 32) (n : Nat) : List Byte :=
  match scrHome s gang a n with
  | some (core, pa) => scrBytes s core pa n
  | none => List.replicate n 0

/-- Whether a scratch region holds an uncorrectable error. -/
def lostRegion (s : State) (gang : Nat) (a : BitVec 32) (n : Nat) : Bool :=
  match scrHome s gang a n with
  | some (core, pa) => lostBytes s core pa n
  | none => false

/-- Number of bits that differ between two lists of bytes. -/
def diffBits : List Byte → List Byte → Nat
  | a :: as, b :: bs => ((List.range 8).filter (fun i => (a ^^^ b).getLsbD i)).length + diffBits as bs
  | _, _ => 0

/-- Rows 0 and 63 of the A tile and of the B tile (R254). -/
def toggleRows (a b : List Byte) : List Byte :=
  a.take 128 ++ (a.drop 8064).take 128 ++ b.take 128 ++ (b.drop 8064).take 128

/-- The charge of a step (R254). -/
def stepCharge (s : State) (k : Cmd) (rows : List Byte) : Nat :=
  let t := min 32 (60 * diffBits rows (mxAt s k.core).prev / 4096)
  (16 + t) * stepTime (mxClass k.mode) (dieOfCore k.core) / 64

/-- A step that is next in its core's queue and may start, with its charge and the cycle it waits from. -/
structure ReadyStep where
  id : Nat
  cmd : Cmd
  charge : Nat
  since : Nat
  deriving DecidableEq, Repr

/-- The step of a core that may start now (R247, R248). -/
def readyStep (s : State) (core : Nat) : Option ReadyStep :=
  match (mxCmdsOf s core).find? (fun k => isSteps k.2) with
  | none => none
  | some (i, k) =>
    match k.body with
    | .mxSteps _ _ _ a b sc cnt da db dsc =>
      if k.stepFail || decide (cnt ≤ k.steps) || decide (s.c.cycle < (mxAt s core).busy) || !mxMayStart s i k then none
      else
        let r := stepAddrs a b sc da db dsc k.steps
        some { id := i, cmd := k, since := k.since.getD s.c.cycle,
               charge := stepCharge s k (toggleRows (scrRegion s k.gang r.1 8192) (scrRegion s k.gang r.2.1 8192)) }
    | _ => none

/-- Whether ready step `x` is served before `y` at a cycle (R255). -/
def servedBefore (now : Nat) (x y : ReadyStep) : Bool :=
  let wx := now - x.since
  let wy := now - y.since
  if 512 ≤ wx ∨ 512 ≤ wy then
    decide (512 ≤ wx) && (!decide (512 ≤ wy) || decide (wy < wx) || (wy == wx && decide (x.cmd.core < y.cmd.core)))
  else decide (x.charge < y.charge) || (x.charge == y.charge && decide (x.cmd.core < y.cmd.core))

/-- A step runs: tags are compared, the accumulator is updated, or the command fails; a step that meets an uncorrectable error
leaves every element that it would update undefined (R245, R250, R253). -/
def runStep (s : State) (x : ReadyStep) : State :=
  let k := x.cmd
  match k.body with
  | .mxSteps n raw bs a b sc _ da db dsc =>
    let r := stepAddrs a b sc da db dsc k.steps
    let ta := scrRegion s k.gang r.1 8192
    let tb := scrRegion s k.gang r.2.1 8192
    let ts := if bs then scrRegion s k.gang r.2.2 512 else []
    let bad := !raw && (slotTag s k.gang r.1 != fmtTag (afmt k.mode) || slotTag s k.gang r.2.1 != fmtTag (bfmt k.mode) ||
      (bs && slotTag s k.gang r.2.2 != 0x40))
    let s1 := if k.started then s else mxStart s k.core x.id k
    let k1 : Cmd := { k with started := true, pops := [], since := none }
    let m := mxAt s1 k.core
    let s2 := setMx s1 k.core { m with prev := toggleRows ta tb,
                                       busy := s.c.cycle + stepTime (mxClass k.mode) (dieOfCore k.core) }
    let lost := lostTiles s k.core (mxTiles k) || lostRegion s k.gang r.1 8192 || lostRegion s k.gang r.2.1 8192 ||
      (bs && lostRegion s k.gang r.2.2 512)
    if bad then setCmd s2 x.id { k1 with stepFail := true, cause := 5 }
    else if lost then setCmd (undefTiles s2 k.core (mxTiles k)) x.id { k1 with stepFail := true, cause := 7 }
    else setCmd (stepAll s2 k n bs ta tb ts) x.id { k1 with steps := k.steps + 1 }
  | _ => s

/-- R255: of the steps ready in a cluster the next one is served, when the pool holds its charge; otherwise they wait for budget.
One such event is due for each core with steps, so that every ready step whose charge the pool holds starts in its cycle (R10). -/
def execMxStepStart (cluster : Nat) (s : State) : Out :=
  let ready := (List.range 96).filterMap (fun i => readyStep s (cluster * 96 + i))
  let s1 := ready.foldl (fun s x => updCmd s x.id (fun k => { k with since := some x.since })) s
  match ready with
  | [] => .next s
  | x :: xs =>
    let w := xs.foldl (fun b y => if servedBefore s.c.cycle y b then y else b) x
    let cl := clusterAt s1 cluster
    if cl.pool < w.charge then .next s1
    else .next (runStep (countCluster (setCluster s1 cluster { cl with pool := cl.pool - w.charge }) cluster 39 w.charge) w)

/-- The refill of every pool under the package limit (R255, R399). -/
def refillRate (s : State) : Nat := 48 * s.c.pkgLimit / 4500

/-- R255. A cycle that finds the pool empty is counted (R385). -/
def execBudgetRefill (cluster : Nat) (s : State) : Out :=
  let cl := clusterAt s cluster
  let s1 := if cl.pool = 0 then countCluster s cluster 40 1 else s
  .next (setCluster s1 cluster { cl with pool := min 4096 (cl.pool + refillRate s) })

/-- Whether a started command of a core still works on a tile. -/
def tileInUse (s : State) (core t : Nat) : Bool := (mxCmdsOf s core).any (fun k => k.2.started && (mxTiles k.2).contains t)

/-- R242: the tile in backing changes places with its physical partner, once no command works on that. -/
def execAccExchange (core tile : Nat) (s : State) : Out :=
  if 8 ≤ tile ∨ Config.dieKind (dieOfCore core) ≠ 1 then .fault .noSuchAgent
  else if tilePresent s core tile || tileInUse s core ((tile + 4) % 8) then .next s
  else
    let m := mxAt s core
    .next (setMx s core { m with swapped := setNth m.swapped (tile % 4) (decide (4 ≤ tile)) })

/-! ### Completion (R250, R258, R260) -/

/-- A command leaves and fills its entries. -/
def mxFinish (s : State) (i : Nat) (k : Cmd) (status : BitVec 32) : State :=
  fillTokens (dropLocks { s with e := { s.e with cmds := s.e.cmds.del i } } i) k.fills
    { statusEntry status with wrote := coreFrames s k.core i }

/-- Loads a tile or a pair from scratch (R258). -/
def mxLoad (s : State) (k : Cmd) (n : Nat) (f64 : Bool) (src : BitVec 32) : State :=
  let words := if f64 then 8192 else 4096
  let bytes := scrRegion s k.gang src (4 * words)
  (List.range words).foldl (fun t w =>
    setAccWord t k.core (n + w / 4096) (w % 4096) (leNat ((bytes.drop (4 * w)).take 4)))
    (renewTiles (clearTileFlags s k.core (mxTiles k)) k.core (mxTiles k))

/-- The rounding of `mx.store` for an element (R252). -/
def storeRnd (k : Cmd) (e : Nat) : Rnd :=
  if srnd k.mode = 6 then
    { mode := 6, u := (srHash k.seed (BitVec.ofNat 64 (srBase k.mode * 4096 + e))).toNat / 2 ^ 32 }
  else { mode := srnd k.mode, u := 0 }

/-- The chunks of a destination that hold an element of the accumulator with an uncorrectable error (R250). -/
def storeLost (s : State) (k : Cmd) (n : Nat) (f64 : Bool) : List Nat :=
  if s.e.lostAcc.isEmpty then [] else
  sortDistinct (((List.range 4096).filter (lostElem s k.core n f64)).map (fun e => e * tyBytes (sfmtTy k.mode) / 512))

/-- Converts and writes every element that holds no error; chunks become full, or failed where one does, and the slots written take
the format's tag (R250, R252, R253, R260). -/
def mxStoreAll (s : State) (k : Cmd) (n : Nat) (f64 : Bool) (dst : BitVec 32) : State :=
  let t := sfmtTy k.mode
  let size := tyBytes t
  match scrHome s k.gang dst (4096 * size) with
  | none => s
  | some (core, pa) =>
    let from_ := if f64 then fmtF64 else fmtF32
    let r := (List.range 4096).foldl (fun (acc : State × Flags) e =>
      if lostElem s k.core n f64 e then acc else
      let v := (fmtOf t).convert from_ (storeRnd k e) (k.mode.getLsbD 23) (accElem s k.core n f64 e)
      (engineWrite acc.1 k.core (.scr core (pa + e * size)) size (BitVec.ofNat 64 v.1), acc.2 ||| v.2)) (s, fNone)
    let s1 := orTileFlags r.1 k.core (mxTiles k) r.2
    let s2 := setChunks s1 core (pa / 512) .full (4096 * size / 512)
    let s3 := (storeLost s k n f64).foldl (fun s c => setChunk s core (pa / 512 + c) .failed) s2
    setTags s3 core (pa / 8192) (BitVec.ofNat 8 (sfmt k.mode)) ((pa + 4096 * size - 1) / 8192 - pa / 8192 + 1)

/-- The status of an `mx.store` (R102, R250). -/
def storeStatus (s : State) (k : Cmd) (n : Nat) (f64 : Bool) : BitVec 32 :=
  match storeLost s k n f64 with
  | [] => statusWord false 0 0
  | c :: _ => statusWord true 7 c

/-- R250: a step command completes with its last update; any other starts and completes when R247 lets it. -/
def execMxCommandComplete (core i : Nat) (s : State) : Out :=
  match s.e.cmds.find? i with
  | none => .fault .noSuchAgent
  | some k =>
    if k.engine ≠ 3 ∨ k.core ≠ core then .fault .noSuchAgent else
    let ok := statusWord false 0 0
    let bad := statusWord true 5 0xFFFFFF
    match k.body with
    | .mxSteps _ _ _ _ _ _ cnt _ _ _ =>
      if !k.stepFail && decide (k.steps < cnt) || decide (s.c.cycle < (mxAt s core).busy) || frozenCore s core then .next s
      else .next (mxFinish ((mxTiles k).foldl (fun s t => setStepCount s core t k.steps) s) i k
        (if k.stepFail then statusWord true k.cause 0xFFFFFF else ok))
    | body =>
      if !mxMayStart s i k then .next s else
      let s1 := mxStart s core i k
      match body with
      | .mxZero n =>
        .next (mxFinish (clearTileFlags ((List.range 4096).foldl (fun t e => setAccWord t core n e 0) (renewTiles s1 core [n])) core [n]) i k ok)
      | .mxLd n f64 raw src =>
        let want : Byte := if f64 then 0x13 else 0x12
        let slots := (List.range (if f64 then 4 else 2)).map (fun j => src + BitVec.ofNat 32 (8192 * j))
        if !raw && slots.any (fun a => slotTag s k.gang a != want) then .next (mxFinish s1 i k bad)
        else if lostRegion s k.gang src (if f64 then 32768 else 16384) then
          .next (mxFinish (undefTiles s1 core (mxTiles k)) i k (statusWord true 7 0xFFFFFF))
        else .next (mxFinish (mxLoad s1 k n f64 src) i k ok)
      | .mxStore n f64 dst => .next (mxFinish (mxStoreAll s1 k n f64 dst) i k (storeStatus s k n f64))
      | .mxMode w seed => .next (mxFinish (setMx s1 core { mxAt s1 core with mode := w, seed := seed }) i k ok)
      | _ => .next s

/-! ### Issue (R256, R257, R259) -/

/-- N of C or AUX. -/
def mxN (f : Form) : Nat := match f with | .p w => immNat w.c % 16 | .n w => (w.aux.extractLsb' 9 3).toNat

/-- The input tokens follow `j` extra operands. -/
def mxTokens (f : Form) (j : Nat) : List Operand :=
  match f with | .p w => (w.ext.drop j).take (immNat w.c / 16) | .n _ => []

/-- Regions that a command names, each with its bytes and alignment (R244, R256, R260). -/
def mxRegions (mode : Word) (body : CmdBody) : List (BitVec 32 × Nat × Nat) :=
  match body with
  | .mxLd _ f64 _ a => [(a, if f64 then 32768 else 16384, 8192)]
  | .mxStore _ _ a => [(a, 4096 * tyBytes (sfmtTy mode), 512)]
  | .mxSteps _ _ bs a b sc cnt da db dsc =>
    (List.range (max 1 (min cnt 65535))).flatMap (fun x =>
      let r := stepAddrs a b sc da db dsc x
      [(r.1, 8192, 8192), (r.2.1, 8192, 8192)] ++ (if bs then [(r.2.2, 512, 512)] else []))
  | _ => []

/-- The first region of a command that breaks R121 or R244. -/
def mxScrBad (s : State) (gang : Nat) (mode : Word) (body : CmdBody) : Option (BitVec 32) :=
  ((mxRegions mode body).find? (fun r => r.1.toNat % r.2.2 != 0 || (scrHome s gang r.1 r.2.1).isNone)).map (·.1)

/-- The operand ranges of R251, R257 and R259. -/
def mxRangeBad (mode : Word) (loop : Bool) (body : CmdBody) : Bool :=
  match body with
  | .mxZero n => mxClass mode == .f64 && n % 2 == 1
  | .mxLd n f64 _ _ => (f64 || mxClass mode == .f64) && n % 2 == 1
  | .mxStore n f64 _ => (f64 || mxClass mode == .f64) && n % 2 == 1
  | .mxSteps n _ bs _ _ _ cnt da db dsc =>
    (mxClass mode == .f64 && n % 2 == 1) || (bs && !isB8 (mxClass mode)) ||
      (loop && (cnt == 0 || decide (65535 < cnt) || da.toNat % 8192 != 0 || db.toNat % 8192 != 0 || (bs && dsc.toNat % 512 != 0)))
  | .mxMode w _ => !mxModeOk w
  | _ => false

/-- At issue an `mx.store` empties and locks its destination (R260). -/
def lockStore (c : Ctx) (f : Form) (s : State) (k : Cmd) : State :=
  match k.body with
  | .mxStore _ _ dst =>
    (match scrHome s k.gang dst (4096 * tyBytes (sfmtTy k.mode)) with
     | none => s
     | some (core, pa) =>
       let n := 4096 * tyBytes (sfmtTy k.mode) / 512
       let id := (reserveOut s c f 3 k.lane).1.c.nextId
       let s1 := setChunks s core (pa / 512) .empty n
       { s1 with e := { s1.e with locks := s1.e.locks ++ [{ core := core, lo := pa / 512, n := n, cmd := id }] } })
  | _ => s

/-- An MX command issues (R91, R105, R256, R423): `mk` gives a lane's body, `extra` counts its extension operands. -/
def mxIssue (f : Form) (s : State) (loop : Bool) (extra : Nat) (mk : Ctx → Nat → CmdBody) : Out :=
  issuing f s fun c =>
    let core := coreOfWarp c.warp
    let ls := (pathMask s c.pid).lanes
    let mode := tailMode s core
    let scr := ls.filterMap (fun l => (mxScrBad s c.gang mode.1 (mk c l)).map (fun a => (l, a.setWidth 64)))
    let range := ls.filter (fun l => mxRangeBad mode.1 loop (mk c l))
    .next (match firstFault [(0x0D, 0xFF, plainLanes (outsideSpan s c)), (0x0C, 2, scr), (0x10, 0xFF, plainLanes range)] with
      | some t => raise s c f t
      | none =>
        let t := carryToks s c f (mxTokens f extra) 3
        issueCmds s t c f (fun l =>
          { cmdOf t c 3 l (mk c l) (inputPops t c f (mxTokens f extra) 3 l) with mode := mode.1, seed := mode.2 }) (lockStore c f))

def ptrVal (s : State) (c : Ctx) (f : Form) (k lane : Nat) : BitVec 32 := (src s c f k .ptrS false lane).setWidth 32
/-- Extra operand `j`: an extension field, natively the `j`-th register from SC. -/
def mxExtra (s : State) (c : Ctx) (f : Form) (j lane : Nat) : BitVec 32 := (extraVal s c f j .i32 lane).setWidth 32

/-- R258. -/
def execMxZero (f : Form) (s : State) : Out := mxIssue f s false 0 (fun _ _ => .mxZero (mxN f))
/-- R258. -/
def execMxLd (f : Form) (s : State) : Out :=
  mxIssue f s false 0 (fun c l => .mxLd (mxN f) (modOf f % 2 == 1) (modOf f / 2 == 1) (ptrVal s c f 0 l))
/-- R259. -/
def execMxStep (f : Form) (s : State) : Out :=
  let bs := modOf f / 2 == 1
  mxIssue f s false (if bs then 1 else 0) (fun c l =>
    .mxSteps (mxN f) (modOf f % 2 == 1) bs (ptrVal s c f 0 l) (ptrVal s c f 1 l) (if bs then mxExtra s c f 0 l else 0) 1 0 0 0)
/-- R259. -/
def execMxLoop (f : Form) (s : State) : Out :=
  let bs := modOf f / 2 == 1
  mxIssue f s true (if bs then 5 else 3) (fun c l =>
    .mxSteps (mxN f) (modOf f % 2 == 1) bs (ptrVal s c f 0 l) (ptrVal s c f 1 l) (if bs then mxExtra s c f 3 l else 0)
      (mxExtra s c f 0 l).toNat (mxExtra s c f 1 l) (mxExtra s c f 2 l) (if bs then mxExtra s c f 4 l else 0))
/-- R260. -/
def execMxStore (f : Form) (s : State) : Out :=
  mxIssue f s false 0 (fun c l => .mxStore (mxN f) (modOf f % 2 == 1) (ptrVal s c f 0 l))

/-- SRND 5 is replaced by the issuing thread's dynamic rounding mode (R251). -/
def bindRnd (th : Thread) (w : Word) : Word :=
  if srnd w = 5 then (w &&& ~~~(7#64 <<< 20)) ||| (BitVec.ofNat 64 (dynRound th.mode) <<< 20) else w

/-- R251: the thread's seed is taken at issue. -/
def execMxMode (f : Form) (s : State) : Out :=
  mxIssue f s false 0 (fun c l =>
    let th := modeThread s c l
    .mxMode (bindRnd th (src s c f 0 .i64 false l)) th.seed)

/-! ### mx.read (R261) -/

/-- The tile or pair that an `mx.read` names. -/
def mxReadTiles (c : Ctx) (f : Form) : List Nat :=
  let n := match f with | .p w => immNat w.a % 8 | .n w => (w.aux.extractLsb' 9 3).toNat
  if modOf f = 2 ∨ (modOf f = 0 ∧ formTy c f = .f64) then [n, n + 1] else [n]

/-- The row and column of an `mx.read`: B and C, natively SA and SB. -/
def mxRowCol (s : State) (c : Ctx) (f : Form) (lane : Nat) : Nat × Nat :=
  match f with
  | .p _ => (zx 32 (src s c f 1 .i32 false lane), zx 32 (src s c f 2 .i32 false lane))
  | .n _ => (zx 32 (src s c f 0 .i32 false lane), zx 32 (src s c f 1 .i32 false lane))

/-- The flag word of a tile, or the OR of a pair's flags with the even tile's count. -/
def flagWord (s : State) (core : Nat) (ts : List Nat) : Word :=
  let ws := (mxAt s core).flagw
  BitVec.ofNat 64 ((nth ws 0 (ts.headD 0)).toNat / 65536 * 65536 +
    (ts.foldl (fun a t => a ||| (nth ws 0 t).extractLsb' 0 16) 0#16).toNat)

/-- An element that a lane reads holds an uncorrectable error: the gang fails (R364, R365). -/
def lostRead (s : State) (c : Ctx) (f : Form) (core : Nat) (ts : List Nat) (t : Ty) : Bool :=
  modOf f == 0 && (pathMask s c.pid).lanes.any (fun l =>
    lostElem s core (ts.headD 0) (t == .f64) (64 * (mxRowCol s c f l).1 + (mxRowCol s c f l).2))

/-- R261. -/
def execMxRead (f : Form) (s : State) : Out :=
  issuing f s fun c =>
    let core := coreOfWarp c.warp
    let ls := (pathMask s c.pid).lanes
    let ts := mxReadTiles c f
    let t := if modOf f = 0 then formTy c f else .i32
    let bad := if modOf f = 0 then ls.filter (fun l => decide (64 ≤ (mxRowCol s c f l).1) || decide (64 ≤ (mxRowCol s c f l).2)) else []
    let ids : List Nat := match (pathAt s c.pid).mxIds with
      | some p => p.2
      | none => ((mxCmdsOf s core).filter (fun k => (mxTiles k.2).any (fun x => ts.contains x))).map (·.1)
    .next (if !bad.isEmpty then raise s c f (plainTrap 0x10 bad)
      else if ids.any (fun i => (s.e.cmds.find? i).isSome) then
        hold (updPath s c.pid (fun p => { p with mxIds := some (ts, ids) })) c.pid f (.mxCmds ids)
      else match ts.find? (fun x => !tilePresent s core x) with
        | some x => enqueue (hold (updPath s c.pid (fun p => { p with mxIds := some (ts, ids) })) c.pid f (.mxCmds ids))
            (.accExchange core x)
        | none =>
          if lostRead s c f core ts t then failGang (endIssue s) c.gang 7 0 else
          let s1 := updPath s c.pid (fun p => { p with mxIds := none })
          finish (putLanes s1 c.pid (dstOf c f t) (ls.map (fun l =>
            (l, if modOf f = 0 then
                let r := mxRowCol s c f l
                BitVec.ofNat 64 (accElem s core (ts.headD 0) (t == Ty.f64) (64 * r.1 + r.2))
              else flagWord s core ts)))) c f)

end Sys2Proof.Machine
end

