-- ==== Sys2Proof/Machine/Dispatch.lean ====
section
/-! DEFINITION. The dispatch: one arm for each row of the table of operations and events. -/

namespace Sys2Proof.Machine

def exec (i : Instr) (s : State) : Host.Outcome State Fault Refusal :=
  match i with
  | .br f => Sys2Proof.Machine.execBr f s
  | .brc f => Sys2Proof.Machine.execBrc f s
  | .switch f => Sys2Proof.Machine.execSwitch f s
  | .call f => Sys2Proof.Machine.execCall f s
  | .callx f => Sys2Proof.Machine.execCallx f s
  | .ret f => Sys2Proof.Machine.execRet f s
  | .exit f => Sys2Proof.Machine.execExit f s
  | .trap f => Sys2Proof.Machine.execTrap f s
  | .unreach f => Sys2Proof.Machine.execUnreach f s
  | .const f => Sys2Proof.Machine.execConst f s
  | .sreg f => Sys2Proof.Machine.execSreg f s
  | .select f => Sys2Proof.Machine.execSelect f s
  | .trapInfo f => Sys2Proof.Machine.execTrapInfo f s
  | .trapRet f => Sys2Proof.Machine.execTrapRet f s
  | .add f => Sys2Proof.Machine.execAdd f s
  | .sub f => Sys2Proof.Machine.execSub f s
  | .mul f => Sys2Proof.Machine.execMul f s
  | .mulhi f => Sys2Proof.Machine.execMulhi f s
  | .mad f => Sys2Proof.Machine.execMad f s
  | .div f => Sys2Proof.Machine.execDiv f s
  | .rem f => Sys2Proof.Machine.execRem f s
  | .neg f => Sys2Proof.Machine.execNeg f s
  | .abs f => Sys2Proof.Machine.execAbs f s
  | .min f => Sys2Proof.Machine.execMin f s
  | .max f => Sys2Proof.Machine.execMax f s
  | .and f => Sys2Proof.Machine.execAnd f s
  | .or f => Sys2Proof.Machine.execOr f s
  | .xor f => Sys2Proof.Machine.execXor f s
  | .andn f => Sys2Proof.Machine.execAndn f s
  | .not f => Sys2Proof.Machine.execNot f s
  | .shl f => Sys2Proof.Machine.execShl f s
  | .shr f => Sys2Proof.Machine.execShr f s
  | .rotl f => Sys2Proof.Machine.execRotl f s
  | .rotr f => Sys2Proof.Machine.execRotr f s
  | .popc f => Sys2Proof.Machine.execPopc f s
  | .clz f => Sys2Proof.Machine.execClz f s
  | .ctz f => Sys2Proof.Machine.execCtz f s
  | .brev f => Sys2Proof.Machine.execBrev f s
  | .bfx f => Sys2Proof.Machine.execBfx f s
  | .bfi f => Sys2Proof.Machine.execBfi f s
  | .ext f => Sys2Proof.Machine.execExt f s
  | .trunc f => Sys2Proof.Machine.execTrunc f s
  | .icmp f => Sys2Proof.Machine.execIcmp f s
  | .adr f => Sys2Proof.Machine.execAdr f s
  | .bsel f => Sys2Proof.Machine.execBsel f s
  | .fadd f => Sys2Proof.Machine.execFadd f s
  | .fsub f => Sys2Proof.Machine.execFsub f s
  | .fmul f => Sys2Proof.Machine.execFmul f s
  | .fdiv f => Sys2Proof.Machine.execFdiv f s
  | .fsqrt f => Sys2Proof.Machine.execFsqrt f s
  | .fma f => Sys2Proof.Machine.execFma f s
  | .fmin f => Sys2Proof.Machine.execFmin f s
  | .fmax f => Sys2Proof.Machine.execFmax f s
  | .fneg f => Sys2Proof.Machine.execFneg f s
  | .fabs f => Sys2Proof.Machine.execFabs f s
  | .fcopysign f => Sys2Proof.Machine.execFcopysign f s
  | .fcmp f => Sys2Proof.Machine.execFcmp f s
  | .fclass f => Sys2Proof.Machine.execFclass f s
  | .frint f => Sys2Proof.Machine.execFrint f s
  | .fcvt f => Sys2Proof.Machine.execFcvt f s
  | .fcvti f => Sys2Proof.Machine.execFcvti f s
  | .icvtf f => Sys2Proof.Machine.execIcvtf f s
  | .fscaleb f => Sys2Proof.Machine.execFscaleb f s
  | .flogb f => Sys2Proof.Machine.execFlogb f s
  | .fexcRd f => Sys2Proof.Machine.execFexcRd f s
  | .fexcClr f => Sys2Proof.Machine.execFexcClr f s
  | .fmodeSet f => Sys2Proof.Machine.execFmodeSet f s
  | .fmodeRd f => Sys2Proof.Machine.execFmodeRd f s
  | .pk8 f => Sys2Proof.Machine.execPk8 f s
  | .upk8 f => Sys2Proof.Machine.execUpk8 f s
  | .bscale f => Sys2Proof.Machine.execBscale f s
  | .lanex f => Sys2Proof.Machine.execLanex f s
  | .vote f => Sys2Proof.Machine.execVote f s
  | .lgred f => Sys2Proof.Machine.execLgred f s
  | .lgscan f => Sys2Proof.Machine.execLgscan f s
  | .matchLanes f => Sys2Proof.Machine.execMatchLanes f s
  | .sfEval f => Sys2Proof.Machine.execSfEval f s
  | .sfLoad f => Sys2Proof.Machine.execSfLoad f s
  | .ld f => Sys2Proof.Machine.execLd f s
  | .st f => Sys2Proof.Machine.execSt f s
  | .prefetch f => Sys2Proof.Machine.execPrefetch f s
  | .amo f => Sys2Proof.Machine.execAmo f s
  | .cas f => Sys2Proof.Machine.execCas f s
  | .red f => Sys2Proof.Machine.execRed f s
  | .fence f => Sys2Proof.Machine.execFence f s
  | .bxShape f => Sys2Proof.Machine.execBxShape f s
  | .bxCopy f => Sys2Proof.Machine.execBxCopy f s
  | .bxConv f => Sys2Proof.Machine.execBxConv f s
  | .bxFill f => Sys2Proof.Machine.execBxFill f s
  | .bxGather f => Sys2Proof.Machine.execBxGather f s
  | .bxScatter f => Sys2Proof.Machine.execBxScatter f s
  | .bxRed f => Sys2Proof.Machine.execBxRed f s
  | .waitTok f => Sys2Proof.Machine.execWaitTok f s
  | .tokAll f => Sys2Proof.Machine.execTokAll f s
  | .tokStatus f => Sys2Proof.Machine.execTokStatus f s
  | .waitChunks f => Sys2Proof.Machine.execWaitChunks f s
  | .testChunks f => Sys2Proof.Machine.execTestChunks f s
  | .clrChunks f => Sys2Proof.Machine.execClrChunks f s
  | .mxZero f => Sys2Proof.Machine.execMxZero f s
  | .mxLd f => Sys2Proof.Machine.execMxLd f s
  | .mxStep f => Sys2Proof.Machine.execMxStep f s
  | .mxLoop f => Sys2Proof.Machine.execMxLoop f s
  | .mxStore f => Sys2Proof.Machine.execMxStore f s
  | .mxMode f => Sys2Proof.Machine.execMxMode f s
  | .mxRead f => Sys2Proof.Machine.execMxRead f s
  | .xcSwap f => Sys2Proof.Machine.execXcSwap f s
  | .barJoin f => Sys2Proof.Machine.execBarJoin f s
  | .barLeave f => Sys2Proof.Machine.execBarLeave f s
  | .barArrive f => Sys2Proof.Machine.execBarArrive f s
  | .barWait f => Sys2Proof.Machine.execBarWait f s
  | .barSync f => Sys2Proof.Machine.execBarSync f s
  | .yield f => Sys2Proof.Machine.execYield f s
  | .cpKey f => Sys2Proof.Machine.execCpKey f s
  | .cpBid f => Sys2Proof.Machine.execCpBid f s
  | .cpGate f => Sys2Proof.Machine.execCpGate f s
  | .cpWon f => Sys2Proof.Machine.execCpWon f s
  | .cpMax f => Sys2Proof.Machine.execCpMax f s
  | .cpDie f => Sys2Proof.Machine.execCpDie f s
  | .cpRound f => Sys2Proof.Machine.execCpRound f s
  | .cpLast f => Sys2Proof.Machine.execCpLast f s
  | .cvTurn f => Sys2Proof.Machine.execCvTurn f s
  | .cvSplit f => Sys2Proof.Machine.execCvSplit f s
  | .brk f => Sys2Proof.Machine.execBrk f s
  | .dbgMark f => Sys2Proof.Machine.execDbgMark f s
  | .rdclk f => Sys2Proof.Machine.execRdclk f s
  | .rdcnt f => Sys2Proof.Machine.execRdcnt f s
  | .sys f => Sys2Proof.Machine.execSys f s
  | .spill f => Sys2Proof.Machine.execSpill f s
  | .fill f => Sys2Proof.Machine.execFill f s
  | .vmov f => Sys2Proof.Machine.execVmov f s
  | .smov f => Sys2Proof.Machine.execSmov f s
  | .v2s f => Sys2Proof.Machine.execV2s f s
  | .s2v f => Sys2Proof.Machine.execS2v f s
  | .pset f => Sys2Proof.Machine.execPset f s
  | .pclr f => Sys2Proof.Machine.execPclr f s
  | .pathSplit f => Sys2Proof.Machine.execPathSplit f s
  | .pathJoin f => Sys2Proof.Machine.execPathJoin f s
  | .waitCnt f => Sys2Proof.Machine.execWaitCnt f s
  | .tqPop f => Sys2Proof.Machine.execTqPop f s
  | .tqPush f => Sys2Proof.Machine.execTqPush f s
  | .jmp f => Sys2Proof.Machine.execJmp f s
  | .ncall f => Sys2Proof.Machine.execNcall f s
  | .nret f => Sys2Proof.Machine.execNret f s
  | .frameEnter f => Sys2Proof.Machine.execFrameEnter f s
  | .frameLeave f => Sys2Proof.Machine.execFrameLeave f s
  | .entry f => Sys2Proof.Machine.execEntry f s
  | .bnop f => Sys2Proof.Machine.execBnop f s
  | .issueSelect core => Sys2Proof.Machine.execIssueSelect core s
  | .illegalBundleRepair cluster key => Sys2Proof.Machine.execIllegalBundleRepair cluster key s
  | .translationMiss pid key => Sys2Proof.Machine.execTranslationMiss pid key s
  | .translationReady cluster key => Sys2Proof.Machine.execTranslationReady cluster key s
  | .faultResolved die fid => Sys2Proof.Machine.execFaultResolved die fid s
  | .faultFailed die fid => Sys2Proof.Machine.execFaultFailed die fid s
  | .federatedFaultService die fid => Sys2Proof.Machine.execFederatedFaultService die fid s
  | .walkComplete die wid => Sys2Proof.Machine.execWalkComplete die wid s
  | .bxCommandStart core => Sys2Proof.Machine.execBxCommandStart core s
  | .bxCommandPark core cmd => Sys2Proof.Machine.execBxCommandPark core cmd s
  | .chunkFull core cmd chunk => Sys2Proof.Machine.execChunkFull core cmd chunk s
  | .bxCommandComplete core cmd => Sys2Proof.Machine.execBxCommandComplete core cmd s
  | .queueOverflow core queue => Sys2Proof.Machine.execQueueOverflow core queue s
  | .mxStepStart cluster => Sys2Proof.Machine.execMxStepStart cluster s
  | .budgetRefill cluster => Sys2Proof.Machine.execBudgetRefill cluster s
  | .mxCommandComplete core cmd => Sys2Proof.Machine.execMxCommandComplete core cmd s
  | .accExchange core tile => Sys2Proof.Machine.execAccExchange core tile s
  | .swapPaired die => Sys2Proof.Machine.execSwapPaired die s
  | .barrierRelease core word => Sys2Proof.Machine.execBarrierRelease core word s
  | .pathExchange warp => Sys2Proof.Machine.execPathExchange warp s
  | .redMerge die queue => Sys2Proof.Machine.execRedMerge die queue s
  | .flowRouteChoice die src dst => Sys2Proof.Machine.execFlowRouteChoice die src dst s
  | .frameBoundary => Sys2Proof.Machine.execFrameBoundary s
  | .resultDelivery die => Sys2Proof.Machine.execResultDelivery die s
  | .beacon => Sys2Proof.Machine.execBeacon s
  | .identifierRevocation die ident => Sys2Proof.Machine.execIdentifierRevocation die ident s
  | .pUnitReady die => Sys2Proof.Machine.execPUnitReady die s
  | .turnSelect hop => Sys2Proof.Machine.execTurnSelect hop s
  | .turnComplete hop failed => Sys2Proof.Machine.execTurnComplete hop failed s
  | .packetHop hop dir source => Sys2Proof.Machine.execPacketHop hop dir source s
  | .sourceRoundRobin hop dir => Sys2Proof.Machine.execSourceRoundRobin hop dir s
  | .packetAccept die dir escape => Sys2Proof.Machine.execPacketAccept die dir escape s
  | .writeAcknowledgement die place => Sys2Proof.Machine.execWriteAcknowledgement die place s
  | .peerRequest die dir escape => Sys2Proof.Machine.execPeerRequest die dir escape s
  | .peerReply die dir escape => Sys2Proof.Machine.execPeerReply die dir escape s
  | .flitRetry link strand failures spare => Sys2Proof.Machine.execFlitRetry link strand failures spare s
  | .corruptedHeader hop dir escape => Sys2Proof.Machine.execCorruptedHeader hop dir escape s
  | .trackerTimeout die trk => Sys2Proof.Machine.execTrackerTimeout die trk s
  | .creditReturn hop dir => Sys2Proof.Machine.execCreditReturn hop dir s
  | .gangDispatch die => Sys2Proof.Machine.execGangDispatch die s
  | .preemption die => Sys2Proof.Machine.execPreemption die s
  | .halt gang why => Sys2Proof.Machine.execHalt gang why s
  | .capture gang => Sys2Proof.Machine.execCapture gang s
  | .restore die gang => Sys2Proof.Machine.execRestore die gang s
  | .migration die fid => Sys2Proof.Machine.execMigration die fid s
  | .gangRetire gang => Sys2Proof.Machine.execGangRetire gang s
  | .launchRetire launch => Sys2Proof.Machine.execLaunchRetire launch s
  | .itemFailed gang cause addr => Sys2Proof.Machine.execItemFailed gang cause addr s
  | .dumpWrite gang => Sys2Proof.Machine.execDumpWrite gang s
  | .stallTimeout gang core => Sys2Proof.Machine.execStallTimeout gang core s
  | .patrolScrub die pa found => Sys2Proof.Machine.execPatrolScrub die pa found s
  | .manifestLatch => Sys2Proof.Machine.execManifestLatch s
  | .eventFold die => Sys2Proof.Machine.execEventFold die s
  | .clusterReset cluster => Sys2Proof.Machine.execClusterReset cluster s
  | .dieReset die => Sys2Proof.Machine.execDieReset die s
  | .romBoot die => Sys2Proof.Machine.execRomBoot die s
  | .unitReady die kind index ready => Sys2Proof.Machine.execUnitReady die kind index ready s
  | .powerSample readings => Sys2Proof.Machine.execPowerSample readings s
  | .thermalReset die => Sys2Proof.Machine.execThermalReset die s
  | .breakpointHit pid => Sys2Proof.Machine.execBreakpointHit pid s
  | .watchHit cluster => Sys2Proof.Machine.execWatchHit cluster s
  | .launchSubmit h queue rec => Sys2Proof.Machine.execLaunchSubmit h queue rec s
  | .launchCancel h launchId => Sys2Proof.Machine.execLaunchCancel h launchId s
  | .queuePriority h queue prio => Sys2Proof.Machine.execQueuePriority h queue prio s
  | .eventSet h index => Sys2Proof.Machine.execEventSet h index s
  | .eventReset h index => Sys2Proof.Machine.execEventReset h index s
  | .deviceSettings h stallK det => Sys2Proof.Machine.execDeviceSettings h stallK det s
  | .memMap h base length leaf => Sys2Proof.Machine.execMemMap h base length leaf s
  | .memUnmap h base length waiting => Sys2Proof.Machine.execMemUnmap h base length waiting s
  | .memInvalidate h base length => Sys2Proof.Machine.execMemInvalidate h base length s
  | .saveRegion h base size => Sys2Proof.Machine.execSaveRegion h base size s
  | .cxlUnitAssign h unit assign => Sys2Proof.Machine.execCxlUnitAssign h unit assign s
  | .moduleCopy h base remote handle length toLocal => Sys2Proof.Machine.execModuleCopy h base remote handle length toLocal s
  | .contextTenant h tenant => Sys2Proof.Machine.execContextTenant h tenant s
  | .contextOpen h => Sys2Proof.Machine.execContextOpen h s
  | .contextClose h => Sys2Proof.Machine.execContextClose h s
  | .handleExport h base length rights => Sys2Proof.Machine.execHandleExport h base length rights s
  | .handleImport h handle window rights route => Sys2Proof.Machine.execHandleImport h handle window rights route s
  | .handleRevoke h handle => Sys2Proof.Machine.execHandleRevoke h handle s
  | .moduleLoad h image length dataBase => Sys2Proof.Machine.execModuleLoad h image length dataBase s
  | .moduleUnload h handle => Sys2Proof.Machine.execModuleUnload h handle s
  | .identifierAllocate h ident gate allocate => Sys2Proof.Machine.execIdentifierAllocate h ident gate allocate s
  | .turnRightGrant h grant => Sys2Proof.Machine.execTurnRightGrant h grant s
  | .eventRing h base size => Sys2Proof.Machine.execEventRing h base size s
  | .eventReadIndex h index => Sys2Proof.Machine.execEventReadIndex h index s
  | .tracing h on => Sys2Proof.Machine.execTracing h on s
  | .debugAttach h => Sys2Proof.Machine.execDebugAttach h s
  | .debugDetach h => Sys2Proof.Machine.execDebugDetach h s
  | .debugBreakpoint h index vpc scope => Sys2Proof.Machine.execDebugBreakpoint h index vpc scope s
  | .debugWatchpoint h index addr kinds scope => Sys2Proof.Machine.execDebugWatchpoint h index addr kinds scope s
  | .debugStop h launchId scope freeze => Sys2Proof.Machine.execDebugStop h launchId scope freeze s
  | .debugRelease h launchId scope freeze => Sys2Proof.Machine.execDebugRelease h launchId scope freeze s
  | .debugStep h path => Sys2Proof.Machine.execDebugStep h path s
  | .stepSync h path => Sys2Proof.Machine.execStepSync h path s
  | .debugFocus h path => Sys2Proof.Machine.execDebugFocus h path s
  | .readValues h path values => Sys2Proof.Machine.execReadValues h path values s
  | .manifestPeriod h k => Sys2Proof.Machine.execManifestPeriod h k s
  | .manifestRing h base size => Sys2Proof.Machine.execManifestRing h base size s
  | .manifestReadIndex h index => Sys2Proof.Machine.execManifestReadIndex h index s
  | .fwIdentity h => Sys2Proof.Machine.execFwIdentity h s
  | .fwAttest h nonce => Sys2Proof.Machine.execFwAttest h nonce s
  | .fwProvision h image length => Sys2Proof.Machine.execFwProvision h image length s
  | .fwActivate h => Sys2Proof.Machine.execFwActivate h s
  | .powerSensors h => Sys2Proof.Machine.execPowerSensors h s
  | .packageLimit h watts => Sys2Proof.Machine.execPackageLimit h watts s
  | .railLimit h rail amps => Sys2Proof.Machine.execRailLimit h rail amps s
  | .retrainHop h hop => Sys2Proof.Machine.execRetrainHop h hop s
  | .accessPerformed warp => Sys2Proof.Machine.execAccessPerformed warp s
  | .transitRouterLost die => Sys2Proof.Machine.execTransitRouterLost die s
  | .packageReset => Sys2Proof.Machine.execPackageReset s

end Sys2Proof.Machine
end

