-- ==== Sys2Proof/Machine/Issue.lean ====
section
/-!
DEFINITION. What the path that has been chosen issues: a word of the portable form, or a bundle (R47, R48, R57, R58, R62,
R140, R157, R163, R353).
-/
namespace Sys2Proof.Machine

/-! ### Bundles -/

/-- Whether a guard is true, on the registers as they stood before the bundle (R46, R48). -/
def guardOn (s : State) (pid : Nat) (g : Guard) : Bool := (readSreg s pid g.reg.toNat).getLsbD g.bit.toNat != g.pol

/-- Whether a slot executes under its guard select (R48). -/
def slotRuns (s : State) (pid : Nat) (b : Bundle) (i : Instr) : Bool :=
  match i.opForm with
  | some (_, .n f) => (!f.gs.getLsbD 0 || guardOn s pid b.g0) && (!f.gs.getLsbD 1 || guardOn s pid b.g1)
  | _ => true

def slotInstr (b : Bundle) (k : Nat) : Instr := match k with | 0 => b.s0 | 1 => b.s1 | _ => b.s2

/-- One slot acts; a slot whose guard is false has no effect (R48). -/
def runSlot (b : Bundle) (pid k : Nat) (s : State) : Out :=
  if slotRuns s pid b (slotInstr b k) then exec (slotInstr b k) s else .next s

def holdOf (s : State) : Option WaitOn := s.c.issue.bind (·.hold)

/-- The slots in order, up to one that holds the bundle: the state, and that slot with its wait. -/
def runSlots (b : Bundle) (pid : Nat) : List Nat → State → Host.Outcome (State × Option (Nat × WaitOn)) Fault Refusal
  | [], s => .next (s, none)
  | k :: ks, s =>
    match runSlot b pid k s with
    | .next t => match holdOf t with
      | some w => .next (t, some (k, w))
      | none => runSlots b pid ks t
    | .fault r => .fault r
    | .refused r => .refused r

/-- The registers of the path's warp as the slots of a bundle read them (R57). -/
def latchNow (s : State) (pid : Nat) : Latch :=
  let p := pathAt s pid
  { vregs := s.x.vregs, sregs := s.x.sregs, s124 := p.s124, s125 := p.s125, s126 := p.s126, s127 := p.s127 }

def withLatch (s : State) (pid : Nat) : State :=
  { s with c := { s.c with issue := s.c.issue.map (fun i => { i with latch := some (latchNow s pid) }) } }

/-- The bundle is held whole: the path waits before it (R57); at a join it arrives there (R155). -/
def holdBundle (s : State) (pid : Nat) (w : WaitOn) : State :=
  let t := endIssue (updPath s pid (fun p => { p with wait := some w }))
  if w = .join then arrive t pid else t

/-- The path moves to a place when its bundle ends. -/
def moveTo (s : State) (pid : Nat) (pc : Pc) : State := endIssue (updPath s pid (fun p => { p with pc := pc, readyAt := s.c.cycle }))

/-- A path meets an illegal bundle, where it stands or where it has come to: it holds, and the cluster repairs the image (R62). -/
def callRepair (s : State) (pid : Nat) (key : TKey) : State :=
  let ix := match (pathAt s pid).pc with | .bundle _ ix => ix | .word _ => 0
  enqueue (endIssue (updPath s pid (fun p => { p with wait := some (.repair ix (s.c.cycle + 1)) })))
    (.illegalBundleRepair (clusterOf (coreOfPath pid)) key)

/-- A bundle's call of a function whose image runs at the portable level: the caller is rebuilt at its call point, and the
callee's parameters are the argument words. `before` is the state in which the bundle began. -/
def callPortable (before s : State) (pid : Nat) (key : TKey) (t : TImage) : State :=
  let q0 := pathAt before pid
  let qn := pathAt s pid
  let w := warpOfPath pid
  let fr := qn.frames.headD { fn := key.fidx, callVpc := 0, wants := none, trap := none }
  let s1 := setPath s pid { qn with frames := q0.frames, s124 := q0.s124, s125 := q0.s125, s126 := q0.s126, s127 := q0.s127 }
  let s2 := rebuild s1 pid 1
  let sp := q0.s127 + q0.s124
  let f := funcAt (ctxOf s pid).module key.fidx
  if sp.toNat + 16 + 4 * t.frameW > stackSize s w
  then takeTrap (endDivCall (endIssue s2) pid q0.frames.length) pid { plainTrap 0x13 qn.mask.lanes with vpc := fr.callVpc }
  else
    let ws := argWords (funcParams f) 0
    let vals := qn.mask.lanes.flatMap (fun l => ((List.range ws.length).zip ws).map (fun a =>
      (l, a.1, argValue s w l sp.toNat a.2.1 a.2.2)))
    let s3 := vals.foldl (fun u a => setVal u (threadKey pid a.1) qn.frames.length a.2.1 a.2.2) s2
    let s4 := putHeader s3 w sp.toNat qn.s125 q0.s127 q0.s124 qn.mask.lanes
    endIssue (updPath s4 pid (fun p => { p with
      pc := .word (VPC.of key.fidx (blockEntry f.code 0))
      frames := qn.frames
      s125 := qn.s125
      s127 := sp
      s124 := BitVec.ofNat 64 (16 + 4 * t.frameW)
      s126 := BitVec.ofNat 64 (physStack s4 w (sp.toNat + 16))
      readyAt := s.c.cycle }))

/-- A bundle's return to a function whose image runs at the portable level: the result comes from v0 (R150), and the path
goes on at the word after the call. -/
def returnPortable (before s : State) (pid : Nat) : State :=
  match (pathAt before pid).frames with
  | [] => endIssue s
  | fr :: rest =>
    let m := (ctxOf s pid).module
    let t := funcResult (funcAt m fr.fn)
    let s1 := match fr.wants with
      | some v => (pathMask s pid).lanes.foldl (fun u l =>
          setVal u (threadKey pid l) rest.length v (argValue s (warpOfPath pid) l 0 t 0)) s
      | none => s
    let code := (funcAt m fr.callVpc.fn).code
    arrive (moveTo s1 pid (.word (VPC.of fr.callVpc.fn (nextIx code fr.callVpc.ix)))) pid

/-- A transfer of control when the bundle has ended (R47, R157). -/
def transfer (before s : State) (pid : Nat) (op : Option Op) (pc : Pc) : State :=
  match pc with
  | .word _ => moveTo s pid pc
  | .bundle key ix =>
    match imageAt s (clusterOf (coreOfPath pid)) key with
    | none => moveTo s pid pc
    | some t =>
      if t.bundled then (if landable t ix then moveTo s pid pc else callRepair (moveTo s pid pc) pid key)
      else match op with
        | some .ncall => callPortable before s pid key t
        | some .nret => returnPortable before s pid
        | _ => endIssue (rebuild s pid 0)

/-- The kind of the point at which a trap of a bundle is rebuilt: the record of the bundle that has the trap's virtual PC
(R58, R159). -/
def trapKind (t : TImage) (ix : Nat) (v : VPC) : Nat :=
  ((t.points.find? (fun r => r.bidx == ix && r.kind != 0 && r.vpc == v)).map (·.kind)).getD 0

/-- The end of a bundle whose slots have acted: a trap (R58), the end of the path, a split (R155), a transfer, or the next
bundle. The trap of a `frame.enter` is rebuilt at the caller's call point (R157). -/
def endBundle (before s : State) (pid : Nat) (t : TImage) (ix : Nat) (b : Bundle) : State :=
  match s.c.issue with
  | none => s
  | some i =>
    let op := (b.s0.opForm).map (·.1)
    match i.trap, i.target with
    | some r, some back =>
      if r.kind = 0x13 then takeTrap (endIssue (rebuild (updPath s pid (fun p => { p with pc := back })) pid 1)) pid r
      else takeTrap (endIssue (rebuild s pid (trapKind t ix r.vpc))) pid r
    | some r, none => takeTrap (endIssue (rebuild s pid (trapKind t ix r.vpc))) pid r
    | none, target =>
      if i.ended then
        match b.s0 with
        | .trapRet f => endIssue (leaveHandler s (ctxOf s pid) f)
        | _ => endIssue (exitLanes s pid)
      else match i.fork, target with
        | some (m, tgt, j), _ =>
          if m = pathMask s pid then moveTo s pid tgt
          else endIssue (splitPath (updPath s pid (fun p => { p with readyAt := s.c.cycle })) pid m tgt (.bundle t.key (ix + 1)) j)
        | none, some pc => transfer before s pid op pc
        | none, none =>
          if b.stop = 2 then callRepair (moveTo s pid (.bundle t.key (ix + 1))) pid t.key
          else moveTo s pid (.bundle t.key (ix + 1))

/-- After a bundle with STOP = 1 the path counts as the youngest (R47). -/
def afterStop (s : State) (pid : Nat) (b : Bundle) : State :=
  if b.stop = 1 then updPath s pid (fun p => { p with youngest := true }) else s

/-- The bx commands: their pointers are of 32 or 64 bits as the portable word behind the slot says (R107, R115). -/
def pointerOp (op : Op) : Bool := [Op.bxShape, .bxCopy, .bxConv, .bxFill, .bxGather, .bxScatter, .bxRed].contains op

/-- A 64-bit pointer of a bx command that stands neither in a scalar register nor in an even vector pair (R52, R108). -/
def pairBad (s : State) (pid cap : Nat) (i : Instr) : Bool :=
  match slotParts i with
  | none => false
  | some (op, f) =>
    let c := ctxOf s pid
    pointerOp op && (wordBehind s c (.n f)).isSome && (List.range 2).any (fun k =>
      tyWidth (sideTy s c (.n f) k) == 64 && srcCodeOf f k != 2047 && !srcOk cap clsVS 12 (srcCodeOf f k))

/-- A path issues the bundle it stands at. A bundle that is illegal does not issue (R62); one that a slot holds leaves the
path before it (R57). -/
def issueBundle (s : State) (pid : Nat) (t : TImage) (ix : Nat) : Out :=
  match bundleAt t ix with
  | none => .next (callRepair s pid t.key)
  | some b =>
    let w := warpAt s (warpOfPath pid)
    let sfBad := match b.s2 with | .sfLoad _ => !(wgAt s (w.gang * 128 + w.wg)).usesSf | _ => false
    if !bundleLegal t ix || sfBad || [b.s0, b.s1, b.s2].any (pairBad s pid t.key.cap) then .next (callRepair s pid t.key) else
    let s1 := withLatch s pid
    match runSlots b pid [0, 1, 2] s1 with
    | .fault r => .fault r
    | .refused r => .refused r
    | .next (u, none) => .next (afterStop (endBundle s u pid t ix b) pid b)
    | .next (_, some (k, wait)) => match runSlot b pid k s1 with
      | .next a => .next (match holdOf a with | some x => holdBundle a pid x | none => holdBundle s pid wait)
      | .fault r => .fault r
      | .refused r => .refused r

/-! ### Words -/

/-- A launched kernel's own frame, made before its first instruction (R151, R157). -/
def kernelFrame (s : State) (pid : Nat) (t : TImage) : State :=
  let w := warpOfPath pid
  let s1 := putHeader s w 0 rootLink 0 0 (pathMask s pid).lanes
  updPath s1 pid (fun p => { p with s124 := BitVec.ofNat 64 (16 + 4 * t.frameW), s126 := BitVec.ofNat 64 (physStack s1 w 16) })

/-- A path issues the word it stands at. -/
def issueWord (s : State) (pid : Nat) (t : TImage) (v : VPC) : Out :=
  let p := pathAt s pid
  let fresh := p.frames.isEmpty && p.s124 == 0
  if fresh && decide (stackSize s (warpOfPath pid) < 16 + 4 * t.frameW) then
    .next (takeTrap (endIssue s) pid { plainTrap 0x13 p.mask.lanes with vpc := v })
  else match instrAt (ctxOf s pid).func.code v.ix with
    | .error _ => .fault .notAnInstruction
    | .ok i => exec i (if fresh then kernelFrame s pid t else s)

/-! ### The issue -/

/-- Whether the path issued: it has gone on, ended, or waits at a join; a path held before its instruction has not. -/
def hasIssued (before s : State) (pid : Nat) : Bool :=
  match s.x.paths.find? pid with
  | none => true
  | some q => q.wait.isNone || q.wait == some .join || q.pc != (pathAt before pid).pc || q.frames != (pathAt before pid).frames

/-- An issue counts for its core, its warp and its gang, and is progress (R364, R366, R386). -/
def countIssue (s : State) (pid : Nat) : State :=
  let w := warpOfPath pid
  let g := (warpAt s w).gang
  let s1 := count s (coreOfPath pid) 0 1
  updGang (updWarp s1 w (fun k => { k with issued := k.issued + 1 })) g (fun k => { k with issued := k.issued + 1, progressAt := s.c.cycle })

/-- A path that was chosen has not issued: it was not ready, and its core chooses again in the same cycle (R339, R340). -/
def chooseAgain (s : State) (pid : Nat) : State :=
  { s with c := { s.c with tried := pid :: s.c.tried, rot := coreOfPath pid :: s.c.rot } }

/-- After an issue no other path of the core counts as the youngest any more (R47, R349). -/
def spendYoungest (before s : State) (pid : Nat) : State :=
  (corePaths before (coreOfPath pid)).foldl (fun t p =>
    if p.2.youngest && p.1 != pid then updPath t p.1 (fun q => { q with youngest := false }) else t) s

/-- What follows an issue: counting, steps and breakpoints (R375, R376), and the use of the key that the path is in (R162). -/
def settleIssue (before s : State) (pid : Nat) : State :=
  let s1 := if hasIssued before s pid then spendYoungest before (countIssue s pid) pid
    else chooseAgain (updPath s pid (fun p => { p with youngest := (pathAt before pid).youngest })) pid
  let s2 := afterIssue before s1 pid
  if (s2.x.paths.find? pid).isSome && (pathKey s2 pid != pathKey before pid || (pathAt s2 pid).frames != (pathAt before pid).frames)
  then touchImage s2 (clusterOf (coreOfPath pid)) (pathKey s2 pid) else s2

/-- The chosen path meets a breakpoint, misses its translation, or issues (R163, R340, R375). One that stands at a bundle of an
image that runs at the portable level is rebuilt, and its core chooses again. -/
def issueStep (s : State) (pid : Nat) : Out :=
  if (s.x.paths.find? pid).isNone then .next (endIssue s) else
  if (atBreakpoint s pid).isSome then (match execBreakpointHit pid s with | .next t => .next (chooseAgain t pid) | r => r) else
  let key := pathKey s pid
  let s0 := updPath s pid (fun p => { p with youngest := false })
  let ran : Option Out := match imageAt s0 (clusterOf (coreOfPath pid)) key with
    | none => some (.next (enqueue (endIssue (updPath s0 pid (fun p => { p with wait := some (.miss key) }))) (.translationMiss pid key)))
    | some t => match (pathAt s0 pid).pc with
      | .word v => some (issueWord s0 pid t v)
      | .bundle _ ix => if t.bundled then some (issueBundle s0 pid t ix) else none
  match ran with
  | some (.next t) => .next (settleIssue s t pid)
  | some (.fault r) => .fault r
  | some (.refused r) => .refused r
  | none =>
    let t := endIssue (rebuild s pid 0)
    .next { t with c := { t.c with rot := coreOfPath pid :: t.c.rot } }

end Sys2Proof.Machine
end

