-- ==== Sys2Proof/Machine/Clock.lean ====
section
/-!
DEFINITION. The clock: the events of the package that are due in a cycle, what each cycle counts, and the next cycle
(R2, R255, R307, R317, R330, R342, R366, R383, R387).
-/
namespace Sys2Proof.Machine

/-! ### The contention plane (R307, R309, R312, R317, R321, R383) -/

/-- A frame boundary, every 300 cycles, with the P units that have then read 256 frames and the latch that it brings; the hold,
20 cycles into the frame, when the bidders freeze; the results, 296 cycles into the frame. -/
def planeEvents (s : State) : List Instr :=
  let t := s.c.cycle - s.c.frameAt
  let next : State := { s with pl := { s.pl with fc := s.pl.fc + 1 } }
  let p := (List.range 8).filter (fun d => !(dieAt s d).pReady && !(dieAt s d).inReset && decide ((dieAt s d).bornAt + 76800 ≤ s.c.cycle))
  (if 300 ≤ t then p.map .pUnitReady else []) ++
  (if 300 ≤ t then .frameBoundary :: (if latchFrame next then [.manifestLatch] else []) else []) ++
  (if s.pl.selecting && decide (20 ≤ t) then [.frameBoundary] else []) ++
  (if 296 ≤ t then (sortDistinct (s.pl.deliveries.map (·.die))).map .resultDelivery else [])

/-! ### The ring and its hops (R297, R298, R303, R411, R412) -/

/-- A turn takes 260 cycles (R302) and a retraining 1000 (R306); a hop with neither selects an entry. -/
def hopEvents (s : State) : List Instr :=
  (List.range 8).flatMap (fun k =>
    let h := hopAt s k
    match h.turning with
    | some _ => if h.turnAt + 260 ≤ s.c.cycle then [.turnComplete k 0] else []
    | none =>
      if h.retrain.isSome then (if h.turnAt + 1000 ≤ s.c.cycle then [.turnComplete k 0] else [])
      else if h.down || (h.q0.isEmpty && h.q1.isEmpty && (turnsWaiting s k 0 ++ turnsWaiting s k 1).isEmpty) then []
      else [.turnSelect k])

/-- Whether a direction of a hop can carry a packet now. -/
def hopMoves (s : State) (hop : Nat) (d : Dir) : Bool :=
  !(hopAt s hop).down && decide (0 < workingIn (hopAt s hop) d) && (List.range 6).any (headFits s hop d)

def owesCredits (b : HopBuf) : Bool := decide (0 < b.r0 + b.r1 + b.rsh + b.resc)

/-- What a die's network interface can take from a buffer. -/
def arrivalEvents (s : State) (die : Nat) (d : Dir) (esc : Bool) : List Instr :=
  (if (arrived s die d esc [2]).isSome then [.packetAccept die d esc] else []) ++
  (if (arrived s die d esc [0, 4, 6]).isSome then [.peerRequest die d esc] else []) ++
  (if (arrived s die d esc [1, 3, 5, 7]).isSome then [.peerReply die d esc] else [])

def ringEvents (s : State) : List Instr :=
  (List.range 8).flatMap (fun k => bothDirs.flatMap (fun d =>
    (if hopMoves s k d then [.sourceRoundRobin k d] else []) ++
    (if owesCredits (bufAt s (bufKey k d)) then [.creditReturn k d] else []) ++
    ([false, true].filter (fun e => (if e then (bufAt s (bufKey k d)).escape else (bufAt s (bufKey k d)).pool).any corrupted)).map
      (.corruptedHeader k d) ++
    arrivalEvents s k d false ++ arrivalEvents s k d true)) ++
  s.r.places.flatMap (fun p => if p.2.isEmpty then [] else [.writeAcknowledgement p.1 0]) ++
  (s.r.trackers.filter (fun t => t.2.reply.isNone && decide (t.2.sent + 64000 ≤ s.c.cycle))).map (fun t => .trackerTimeout t.2.die t.1)

/-! ### Memory, faults and barriers (R78, R88, R89, R131, R278, R346) -/

/-- Whether an address of a context lies in a range that is being unmapped or invalidated: its faults are served afterwards (R89).
-/
def rangePending (s : State) (ctx : Nat) (va : Word) : Bool :=
  s.m.leaving.any (fun l => l.ctx == ctx && decide (l.lo ≤ va.toNat) && decide (va.toNat < l.hi)) ||
  s.h.deferred.any (fun i => match i with
    | .memInvalidate h base length => ctxKey h == ctx && decide (base.toNat ≤ va.toNat) &&
        (decide (va.toNat < base.toNat + length.toNat) || length == 0)
    | _ => false)

/-- What the kernel does with a queued fault: one of a page that is not mapped goes on once it is mapped, and is given up after a
time that the spec leaves open (log 49); an address, rights, format or peer fault is never resolved (R87). -/
def faultEvent (s : State) (f : Nat × QFault) : List Instr :=
  if rangePending s f.2.ctx f.2.va then []
  else if f.2.kind = 3 then [.federatedFaultService f.2.die f.1]
  else if f.2.kind ≠ 2 then [.faultFailed f.2.die f.1]
  else match walkVa s f.2.ctx f.2.va with
    | .leaf _ _ => [.faultResolved f.2.die f.1]
    | .fault _ _ => if f.2.since + Config.faultPatience f.1 ≤ s.c.cycle then [.faultFailed f.2.die f.1] else []

/-- The first word of a barrier wait that is over. -/
def barrierEvent (s : State) (p : Path) : List Instr :=
  match p.wait with
  | some (.barrier ws) => if ws.all (barOver s) then (ws.take 1).map (fun w => .barrierRelease w.1 w.2.1) else []
  | _ => []

def memoryEvents (s : State) : List Instr :=
  s.m.walks.map (fun w => .walkComplete w.2.die w.1) ++
  s.m.faults.flatMap (faultEvent s) ++
  ((performable s [] s.m.arrived).filterMap pktWarp).map .accessPerformed ++
  s.x.paths.flatMap (fun p => barrierEvent s p.2) ++
  (sortDistinct (s.e.swaps.map (·.die))).filterMap (fun d => if (firstPair d [] s.e.swaps).isSome then some (.swapPaired d) else none)

/-! ### Engines (R90, R99, R103, R105, R242, R250, R255) -/

/-- A started command of the copy family that is not parked. -/
def copying (k : Cmd) : Option CopyOp := if k.engine = 2 ∧ k.started = true ∧ k.parked = none then copyOf k else none

/-- The units that a copy command moves now, and its completion. -/
def copyEvents (s : State) (i : Nat) (k : Cmd) : List Instr :=
  match copying k with
  | none => []
  | some o =>
    if frozenCore s k.core then []
    else if o.toNear && !(unitsLeft k o).isEmpty then (unitsLeft k o).map (.chunkFull k.core i)
    else [.bxCommandComplete k.core i]

/-- Whether a command of the MX completes now. -/
def mxDue (s : State) (i : Nat) (k : Cmd) : Bool :=
  match k.body with
  | .mxSteps _ _ _ _ _ _ cnt _ _ _ =>
    (k.stepFail || decide (cnt ≤ k.steps)) && decide ((mxAt s k.core).busy ≤ s.c.cycle) && !frozenCore s k.core
  | _ => mxMayStart s i k

/-- The tile in backing that the first command of a core's queue needs (R242). -/
def exchangeEvents (s : State) (core : Nat) : List Instr :=
  match (qIds (s.e.mxq.getD queueZero core)).head?.bind (s.e.cmds.find? ·) with
  | some k => (((mxTiles k).filter (fun t => !tilePresent s core t)).take 1).map (.accExchange core)
  | none => []

/-- A queue that has room for entries of its ring. -/
def refillable (cap : Nat) (q : OvQueue) : Bool := !q.ring.isEmpty && decide (q.hw.length < cap)

def overflowEvents (s : State) : List Instr :=
  (s.e.pairs.filter (fun q => refillable 32 q.2)).map (fun q => .queueOverflow (q.1 / 36) (q.1 % 36)) ++
  (s.e.bxq.filter (fun q => refillable 64 q.2)).map (fun q => .queueOverflow q.1 36) ++
  (s.e.mxq.filter (fun q => refillable 64 q.2)).map (fun q => .queueOverflow q.1 37)

def engineEvents (s : State) : List Instr :=
  let mx := s.e.cmds.filter (fun k => k.2.engine == 3)
  (s.e.bxq.filter (fun q => !q.2.hw.isEmpty)).map (fun q => .bxCommandStart q.1) ++
  s.e.cmds.flatMap (fun k => copyEvents s k.1 k.2) ++
  (sortDistinct (mx.map (fun k => k.2.core))).flatMap (exchangeEvents s) ++
  (sortDistinct ((mx.filter (fun k => isSteps k.2)).map (fun k => k.2.core))).map (fun c => .mxStepStart (clusterOf c)) ++
  (mx.filter (fun k => mxDue s k.1 k.2)).map (fun k => .mxCommandComplete k.2.core k.1) ++
  overflowEvents s ++
  ((List.range 32).filter (fun c => !(dieAt s (c / 4)).inReset)).map .budgetRefill

/-! ### Gangs (R163, R330 to R342, R356, R366, R371) -/

/-- The cores of a gang on which a thread has not finished. -/
def gangCores (s : State) (g : Nat) : List Nat :=
  sortDistinct ((s.x.paths.filter (fun p => (warpAt s (p.1 / 64)).gang == g)).map (fun p => p.1 / 1024))

/-- Whether a gang has made no progress for the stall timeout of its die. -/
def stalled (s : State) (g : Gang) : Bool :=
  isResident g && decide (g.progressAt + 2 ^ (dieAt s g.die).stallK ≤ s.c.cycle)

/-- What a gang's state makes due: its record of no progress, its capture, its dump and its retirement. -/
def gangEvents (s : State) (i : Nat) (g : Gang) : List Instr :=
  let record := (launchAt s g.launch).record
  (if stalled s g then (gangCores s i).map (.stallTimeout i) else []) ++
  (match g.state with
   | .halted .preempt => if captureReady s i then [.capture i] else []
   | .halted .migrate => if captureReady s i then [.capture i] else []
   | .failing => if gangOver s i then (if lrDump record = 0 then [] else [.dumpWrite i]) ++ [.gangRetire i] else []
   | _ => if gangOver s i then [.gangRetire i] else [])

/-- Whether a die has a gang to place, or a launch to drop. -/
def hasWork (s : State) (die : Nat) : Bool :=
  !(dieAt s die).noDispatch && ((failedHead s die).isSome || (topHead s die).isSome)

def schedEvents (s : State) : List Instr :=
  s.h.clusters.flatMap (fun c => (c.2.misses.filter (missReady s)).map (fun m => .translationReady c.1 m.key)) ++
  s.x.gangs.flatMap (fun g => gangEvents s g.1 g.2) ++
  ((List.range 8).filter (hasWork s)).map .gangDispatch ++
  (if s.c.cycle % 1024 = 0 then (s.x.warps.filter (fun w => (pendingOldest s w.1).isSome)).map (fun w => .pathExchange w.1) else [])

/-- Records that wait at the F-die and fit a ring now (R368). -/
def foldEvents (s : State) : List Instr :=
  ((List.range 9).filter (fun d =>
    let r := dieAt s d
    match r.evRing with
    | none => false
    | some g => !(r.held.isEmpty && r.folds.isEmpty) && decide (0 < ringFree g))).map .eventFold

/-- Everything due in the cycle of a state, in order. -/
def dueEvents (s : State) : List Instr :=
  planeEvents s ++ memoryEvents s ++ ringEvents s ++ hopEvents s ++ engineEvents s ++ schedEvents s ++ foldEvents s

/-! ### What a cycle counts (R366, R386, R387) -/

/-- Whether a command waits for a walk. -/
def walkWaits (s : State) (i : Nat) : Bool :=
  s.m.walks.any (fun w => w.2.waiters.contains (.cmd i)) || s.m.walkq.any (fun q => q.2.any (fun r => r.who == .cmd i))

/-- Whether a copy command moves data in this cycle: it is not parked, and waits for no walk, store or reply. -/
def movesData (s : State) (i : Nat) (k : Cmd) : Bool :=
  (copying k).isSome && !walkWaits s i && storesDone s k && !s.r.trackers.any (fun t => t.2.who == .cmd i && t.2.reply.isNone)

/-- Whether a command waits for a walk, or for an entry of the in-flight table (R78, R80). -/
def walkStalled (s : State) (i : Nat) (k : Cmd) : Bool :=
  walkWaits s i || !useRoom s (dieOfCore k.core) 1

/-- The BX counter of a core with started commands: busy, else the cause of the oldest. -/
def bxCounter (s : State) (ks : List (Nat × Cmd)) : Option Nat :=
  if ks.any (fun k => movesData s k.1 k.2) then some 10
  else (ks.head?).map (fun k => match k.2.body with
    | .turn _ _ _ _ => 14
    | _ => if k.2.parked.isSome || walkStalled s k.1 k.2 then 11 else if !storesDone s k.2 then 13 else 12)

/-- The MX counter of a core: busy, else what the first queued command waits for beside a token. -/
def mxCounter (s : State) (core : Nat) : Option Nat :=
  if s.c.cycle < (mxAt s core).busy then some 15
  else match (mxCmdsOf s core).head? with
    | none => none
    | some (i, k) =>
      if !k.started && !mxPopsReady s core i k then none
      else if k.since.isSome then some 17
      else if (mxTiles k).all (tilePresent s core) && !readAhead s core i k then some 16 else some 18

/-- The P counter of a core with bids: busy while a result is delivered to it. -/
def planeCounter (s : State) (core : Nat) : Option Nat :=
  let bs := s.pl.bids.filter (fun b => b.core == core)
  if bs.isEmpty then none
  else if bs.any (fun b => b.frozen) && decide (295 ≤ s.c.cycle - s.c.frameAt) then some 19 else some 20

/-- The X counter of a core with swaps: busy while a paired one transfers. -/
def swapCounter (s : State) (core : Nat) : Option Nat :=
  let xs := s.e.swaps.filter (fun x => coreOfPath x.pid == core)
  if xs.isEmpty then none else if xs.any (fun x => x.got.isSome) then some 21 else some 22

def countOpt (s : State) (core : Nat) (i : Option Nat) : State := match i with | some n => count s core n 1 | none => s

/-- Cores whose engines hold work. -/
def busyCores (s : State) : List Nat :=
  sortDistinct (s.e.cmds.map (fun k => k.2.core) ++ s.pl.bids.map (·.core) ++ s.e.swaps.map (fun x => coreOfPath x.pid))

/-- One cycle of a core's engines is counted. -/
def countCore (s : State) (core : Nat) : State :=
  let started := s.e.cmds.filter (fun k => k.2.engine == 2 && k.2.core == core && k.2.started)
  countOpt (countOpt (countOpt (countOpt s core (bxCounter s started)) core (mxCounter s core)) core (planeCounter s core)) core
    (swapCounter s core)

/-- Gangs whose engines made progress in a cycle: a busy engine, or a command that completes. -/
def engineProgress (s : State) : List Nat :=
  (s.e.cmds.filter (fun k => movesData s k.1 k.2 || (k.2.engine == 3 && (mxDue s k.1 k.2 || decide (s.c.cycle < (mxAt s k.2.core).busy))))).map
    (fun k => k.2.gang) ++
  (s.e.swaps.filter (fun x => x.got.isSome)).map (fun x => (warpAt s (warpOfPath x.pid)).gang) ++
  (s.pl.bids.filter (fun b => b.frozen && decide (295 ≤ s.c.cycle - s.c.frameAt))).map (·.gang)

/-- Gangs with a path that a debugger holds: the cycle does not count towards their stall timeout (R366). -/
def debugHeld (s : State) : List Nat := (s.x.paths.filter (fun p => p.2.held)).map (fun p => (warpAt s (p.1 / 64)).gang)

def noteProgress (s : State) : State :=
  let s1 := (sortDistinct (debugHeld s)).foldl (fun t g => updGang t g (fun q => { q with progressAt := q.progressAt + 1 })) s
  (sortDistinct (engineProgress s)).foldl (fun t g => updGang t g (fun q => { q with progressAt := s.c.cycle })) s1

/-- Cores that hold a warp. -/
def residentCores (s : State) : List Nat := sortDistinct (s.x.warps.map (fun w => w.1 / 16))

/-- The errors that arise in a cycle in the package, once a die of it is ready: uncorrectable ones in scratchpads and
accumulators, and corrected ones that the accesses of a die meet (R64, R250, R365; logs 74, 80). -/
def cycleErrors (s : State) : State :=
  let up := (List.range 8).filter (fun d => (dieAt s d).dieReady)
  if up.isEmpty then s else
  let s1 : State := { s with e := { s.e with
    lostScr := s.e.lostScr ++ Config.lostScratch s.c.cycle, lostAcc := s.e.lostAcc ++ Config.lostAccumulators s.c.cycle } }
  up.foldl (fun t d => countDie t d 0 (Config.correctedErrors s.c.cycle d)) s1

/-- THE NEXT CYCLE: packets of the die networks move, requests that wait at a kernel run again, then everything due, and then each
core with a warp issues. -/
def nextCycle (s : State) : State :=
  let s1 := noteProgress ((busyCores s).foldl countCore s)
  let s2 := moveNetwork (cycleErrors (freeWarpSlots (settleStops (syncReplies { s1 with c := { s1.c with cycle := s.c.cycle + 1 } }))))
  { s2 with c := { s2.c with agenda := s2.c.agenda ++ s2.h.deferred ++ dueEvents s2, rot := residentCores s2, tried := [] }, h := { s2.h with deferred := [] } }

/-- An event of the agenda happens; one that names an agent that is gone is passed over. -/
def runEvent (i : Instr) (s : State) : Out :=
  match exec i s with
  | .fault .noSuchAgent => .next s
  | r => r

/-! ### The program that a word is placed in -/

/-- A function of one block that holds some words; its type table holds most of the types of R22. -/
def oneFunc (ws : List Word) : Func :=
  { code := BitVec.ofNat 64 (2 ^ 55) :: ws, consts := [],
    types := [0, 0x01, 0x02, 0x03, 0x04, 0x05, 0x10, 0x11, 0x12, 0x13, 0x50, 0x60, 0x61, 0x62, 0x40],
    result := none, nparam := 0, fflags := 1 }

/-- The key under which that function runs. -/
def oneKey : TKey := { mhash := 0, fidx := 0, dkind := 0, mode := 0, cap := 32, rpc := 0 }

/-- A warp of one thread resident on core 0 at the first word of that function, and the choice of its path to issue. -/
def placeWords (s : State) (ws : List Word) : State :=
  let m : Module := { moduleZero with funcs := [oneFunc ws], copies := [0] }
  let la : Launch := { launchZero with
    record := 0xffff000000000000000000000000001000010100000100010001000000000000000000000000000000000000#1024
    next := 1
    live := 1
    retired := false }
  let g : Gang := { gangZero with key := oneKey, state := .resident }
  let w : Warp := { warpZero with cap := 32, pathBase := 512 * 32 }
  let k : Wg := { wgZero with warps := [0], shapes := List.replicate 8 none }
  let p : Path := { pathZero with mask := 1, pc := .word (VPC.of 0 1), s124 := 16, s125 := rootLink, slotIx := some 0 }
  let t : TImage := { key := oneKey, bundled := false, bundles := [], literals := [], frameW := 0, points := [], check := 0, line := 0 }
  let i : Issue := { pid := 0, latch := none, hold := none, trap := none, target := none, fork := none, ended := false }
  { s with
    c := { s.c with agenda := [], issue := some i, tried := [] }
    x := { s.x with
      gangs := s.x.gangs.ins 0 g, wgs := s.x.wgs.ins 0 k, warps := s.x.warps.ins 0 w, paths := s.x.paths.ins 0 p
      threads := s.x.threads.ins 0 threadZero }
    h := { s.h with
      modules := s.h.modules.ins 0 m, launches := s.h.launches.ins 0 la
      clusters := s.h.clusters.ins 0 { clusterAt s 0 with cache := [t] } } }

end Sys2Proof.Machine
end

