-- ==== Sys2Proof/Machine/Step.lean ====
section
/-!
DEFINITION. THE STEP: the event at the head of the agenda, or what the chosen path issues, or the choice of the next core's
path, or the next cycle.
-/
namespace Sys2Proof.Machine

/-- One step of the package. -/
def step (s : State) : Host.Outcome State Fault Refusal :=
  match s.c.agenda with
  | i :: is => runEvent i { s with c := { s.c with agenda := is } }
  | [] => match s.c.issue with
    | some i => issueStep s i.pid
    | none => match s.c.rot with
      | k :: ks => exec (.issueSelect k) { s with c := { s.c with rot := ks } }
      | [] => .next (nextCycle s)

/-- The state with an instruction placed where the next step issues: a launch of one thread whose function holds it. -/
def State.withFetchWord (s : State) (nbits w : Nat) : State :=
  placeWords s ((List.range ((nbits + 63) / 64)).map (fun i => BitVec.ofNat 64 (w / 2 ^ (64 * i))))

end Sys2Proof.Machine
end

