-- ==== Sys2Proof/Safety.lean ====
section
/-!
DEFINITION. What the claims speak of: runs, the canonical form of the maps, the issuing of an operation, what an operation
leaves in a destination, and what it leaves alone.
-/
namespace Sys2Proof.Machine

/-! ### Runs -/

/-- A state that some number of steps leads to. -/
inductive Reaches (s : State) : State → Prop where
  | here : Reaches s s
  | step (t u : State) : Reaches s t → step t = .next u → Reaches s u

/-- A safe run never stops: every state that it reaches has a next state. -/
def SafeFrom (s : State) : Prop := ∀ t, Reaches s t → ∃ u, step t = .next u

/-! ### Canonical form -/

/-- The maps with a default list rising keys and nothing that holds the default; paths and trap blocks have rising keys. -/
abbrev Canonical (s : State) : Prop :=
  Memory.wf s.m.mem = true ∧ SMap.wf 0 s.x.vals = true ∧ SMap.wf 0 s.x.vregs = true ∧ SMap.wf 0 s.x.sregs = true ∧
    SMap.wf 0 s.e.scr = true ∧ SMap.wf .empty s.e.chunks = true ∧ SMap.wf 0 s.e.tags = true ∧
    s.x.paths.risingFrom 0 = true ∧ s.x.blocks.risingFrom 0 = true

/-! ### Issuing -/

/-- The path that `c` describes issues form `f`: it has been chosen, and no load in flight is named by an operand. -/
abbrev Issues (s : State) (f : Form) (c : Ctx) : Prop :=
  s.c.issue.map (fun i => ctxOf s i.pid) = some c ∧ (s.x.paths.find? c.pid).isSome = true ∧ landedHold s c f = none

/-! ### Destinations -/

/-- Lane `l` of destination `d` holds result `v`; a scalar bit takes bit 0. -/
def Holds (t : State) (pid l : Nat) (d : Dst) (v : Word) : Prop :=
  match d with
  | .none => True
  | .val depth n => getVal t (threadKey pid l) depth n = v
  | .vreg r wide =>
    getVreg t (warpOfPath pid) r l = v.setWidth 32 ∧
      (wide = true → getVreg t (warpOfPath pid) (r + 1) l = (v >>> 32).setWidth 32)
  | .sreg r => getSreg t pid r = v
  | .sbit r b => b < 64 → (getSreg t pid r).getLsbD b = v.getLsbD 0

/-- The lanes of `ls` that a destination takes results from: a scalar register takes the first alone. -/
def takers (d : Dst) (ls : List Nat) : List Nat :=
  match d with
  | .sreg _ | .sbit _ _ => ls.take 1
  | _ => ls

/-- Every lane's result stands in its destination. -/
def Results (t : State) (pid : Nat) (d : Dst) (ls : List Nat) (g : Nat → Word) : Prop :=
  ∀ l ∈ takers d ls, Holds t pid l d (g l)

/-! ### Frames -/

/-- Keys of the values that destination `d` names in lanes `ls`. -/
def valKeys (pid : Nat) (d : Dst) (ls : List Nat) : List Nat :=
  match d with
  | .val depth n => ls.map (fun l => valKey (threadKey pid l) depth n)
  | _ => []

/-- Keys of the vector registers that destination `d` names in lanes `ls`. -/
def vregKeys (pid : Nat) (d : Dst) (ls : List Nat) : List Nat :=
  match d with
  | .vreg r wide => ls.map (fun l => vregKey (warpOfPath pid) r l) ++
      (if wide then ls.map (fun l => vregKey (warpOfPath pid) (r + 1) l) else [])
  | _ => []

/-- The scalar register that destination `d` names. -/
def sregOf (d : Dst) : Option Nat :=
  match d with
  | .sreg r | .sbit r _ => some r
  | _ => none

/-- Every virtual value, vector register and scalar register but those of the destination holds what it held. -/
structure RegistersKept (s t : State) (pid : Nat) (d : Dst) (ls : List Nat) : Prop where
  vals : ∀ k, k ∉ valKeys pid d ls → t.x.vals.getD 0 k = s.x.vals.getD 0 k
  vregs : ∀ k, k ∉ vregKeys pid d ls → t.x.vregs.getD 0 k = s.x.vregs.getD 0 k
  sregs : ∀ k, (∀ r, sregOf d = some r → k ≠ sregKey (warpOfPath pid) r) → t.x.sregs.getD 0 k = s.x.sregs.getD 0 k
  own : ∀ r, sregOf d ≠ some r → getSreg t pid r = getSreg s pid r

/-- All of memory and of the engines, the plane, the ring, the host side, the debugging state, the agenda and the clock
hold what they held. -/
structure RestKept (s t : State) : Prop where
  mem : t.m = s.m
  engines : t.e = s.e
  plane : t.pl = s.pl
  ring : t.r = s.r
  host : t.h = s.h
  debug : t.d = s.d
  control : t.c = { s.c with issue := t.c.issue }

/-- Gangs, workgroups, warps, split records, trap blocks and every other path hold what they held. -/
structure PathsKept (s t : State) (pid : Nat) : Prop where
  gangs : t.x.gangs = s.x.gangs
  wgs : t.x.wgs = s.x.wgs
  warps : t.x.warps = s.x.warps
  splits : t.x.splits = s.x.splits
  blocks : t.x.blocks = s.x.blocks
  others : ∀ p, p ≠ pid → t.x.paths.find? p = s.x.paths.find? p

/-- A path without its place in the code and its four registers, which the other clauses speak of. -/
def unplaced (p : Path) : Path := { p with pc := .word 0, readyAt := 0, s124 := 0, s125 := 0, s126 := 0, s127 := 0 }

/-- The path goes on: a portable word ends the issue and the path stands at the next word; a slot leaves it where it
is, since its bundle goes on. -/
def GoesOn (s t : State) (c : Ctx) (f : Form) : Prop :=
  unplaced (pathAt t c.pid) = unplaced (pathAt s c.pid) ∧
    (match f with
     | .p _ => t.c.issue = none ∧ (pathAt t c.pid).pc = .word (VPC.of c.fn (nextIx c.func.code c.ix))
     | .n _ => t.c.issue = s.c.issue ∧ (pathAt t c.pid).pc = (pathAt s c.pid).pc)

/-- THE SHAPE OF AN OPERATION WITH RESULTS: `o` is a next state in which the lanes `ls` hold `g` in destination `d`, the
path goes on, and nothing else has changed, but what `threads` says of the threads. -/
structure Gives (s t : State) (c : Ctx) (f : Form) (d : Dst) (ls : List Nat) (g : Nat → Word) : Prop where
  results : Results t c.pid d ls g
  goesOn : GoesOn s t c f
  registers : RegistersKept s t c.pid d ls
  rest : RestKept s t
  paths : PathsKept s t c.pid

/-- `Gives`, with every thread's flags, modes, seed and memberships as they were. -/
def Computes (s : State) (c : Ctx) (f : Form) (d : Dst) (g : Nat → Word) (o : Out) : Prop :=
  ∃ t, o = .next t ∧ Gives s t c f d (actLanes s c.pid f) g ∧ t.x.threads = s.x.threads

/-! ### Flags -/

/-- The flags that an operation raises, by lane: `g` gives each lane's result and flags. -/
def flagsOf (s : State) (c : Ctx) (f : Form) (g : Nat → Word × Flags) : List (Nat × Flags) :=
  flagLanes s c f ((actLanes s c.pid f).map (fun l => (l, (g l).1, (g l).2)))

/-- No flag raised is an enabled exception of its thread (R204, R205). -/
def Untrapped (s : State) (c : Ctx) (fls : List (Nat × Flags)) : Prop :=
  ∀ r ∈ fls, r.2 &&& trapEnables (modeThread s c r.1).mode = 0

/-- Each thread of `fls` has its flags raised, and every other thread is as it was. -/
structure FlagsRaised (s t : State) (pid : Nat) (fls : List (Nat × Flags)) : Prop where
  raised : ∀ r ∈ fls, threadAt t (threadKey pid r.1) =
    { threadAt s (threadKey pid r.1) with flags := (threadAt s (threadKey pid r.1)).flags ||| r.2 }
  others : ∀ k, k ∉ fls.map (fun r => threadKey pid r.1) → threadAt t k = threadAt s k

/-- THE SHAPE OF AN OPERATION WITH FLAGS: every lane's result is in its destination and its flags are raised. -/
def ComputesFlags (s : State) (c : Ctx) (f : Form) (d : Dst) (g : Nat → Word × Flags) (o : Out) : Prop :=
  ∃ t, o = .next t ∧ Gives s t c f d (actLanes s c.pid f) (fun l => (g l).1) ∧ FlagsRaised s t c.pid (flagsOf s c f g)

/-- The lanes of `fls` with an exception that their thread has enabled, with their flags (R205). -/
def trapping (s : State) (c : Ctx) (fls : List (Nat × Flags)) : List (Nat × Flags) :=
  fls.filter (fun r => r.2 &&& trapEnables (modeThread s c r.1).mode != 0)

/-- The operation sets the flags of every lane, writes no result, and raises a trap of `kind` that names the lanes with
an enabled exception and carries the union of their flags (R205). -/
def TrapsWithFlags (s : State) (c : Ctx) (f : Form) (kind : Nat) (fls : List (Nat × Flags)) (o : Out) : Prop :=
  ∃ u, FlagsRaised s u c.pid fls ∧ u = { s with x := { s.x with threads := u.x.threads } } ∧
    o = .next (raise u c f { plainTrap kind ((trapping s c fls).map (·.1)) with
      flags := (trapping s c fls).foldl (fun a r => a ||| r.2) 0 })

/-- An operation with flags, under either outcome. -/
def Flagged (s : State) (c : Ctx) (f : Form) (d : Dst) (kind : Nat) (g : Nat → Word × Flags) (o : Out) : Prop :=
  (Untrapped s c (flagsOf s c f g) → ComputesFlags s c f d g o) ∧
    (¬Untrapped s c (flagsOf s c f g) → TrapsWithFlags s c f kind (flagsOf s c f g) o)

/-! ### Results in the spec's own terms -/

/-- `d` is the exact integer `t` fitted to `w` bits (R169): MOD 0 its low bits, 2 clamped to 0 .. 2^w - 1, else clamped to
-2^(w-1) .. 2^(w-1) - 1. -/
def Fits (md w : Nat) (t : Int) (d : Word) : Prop :=
  d.toNat < 2 ^ w ∧
    (if md = 0 then ((2 : Int) ^ w) ∣ (d.toNat : Int) - t
     else if md = 2 then (d.toNat : Int) = max 0 (min (2 ^ w - 1) t)
     else sx w d = max (-2 ^ (w - 1)) (min (2 ^ (w - 1) - 1) t))

/-- The bits of `d` are `p 0` to `p (w - 1)`, and zero above. -/
def BitsAre (w : Nat) (d : Word) (p : Nat → Bool) : Prop := ∀ i, d.getLsbD i = (decide (i < w) && p i)

/-- An operation whose result in each lane it acts on satisfies `ok`. -/
def ComputesSome (s : State) (c : Ctx) (f : Form) (d : Dst) (ok : Nat → Word → Prop) (o : Out) : Prop :=
  ∃ g, (∀ l, ok l (g l)) ∧ Computes s c f d g o

/-- `v` is the reduction of the patterns `vs` under the integer operation of MOD `md` (R228): the wrapping sum, the lesser
or greater under either reading, or AND, OR and XOR of every bit. -/
def IsReduction (md w : Nat) (vs : List Word) (v : Word) : Prop :=
  match md with
  | 0 => zx w v = (vs.map (zx w)).sum % 2 ^ w
  | 1 => (∃ x ∈ vs, sx w v = sx w x) ∧ ∀ x ∈ vs, sx w v ≤ sx w x
  | 2 => (∃ x ∈ vs, zx w v = zx w x) ∧ ∀ x ∈ vs, zx w v ≤ zx w x
  | 3 => (∃ x ∈ vs, sx w v = sx w x) ∧ ∀ x ∈ vs, sx w x ≤ sx w v
  | 4 => (∃ x ∈ vs, zx w v = zx w x) ∧ ∀ x ∈ vs, zx w x ≤ zx w v
  | 5 => ∀ i, i < w → v.getLsbD i = vs.all (fun x => x.getLsbD i)
  | 6 => ∀ i, i < w → v.getLsbD i = vs.any (fun x => x.getLsbD i)
  | _ => ∀ i, i < w → v.getLsbD i = (vs.map (fun x => x.getLsbD i)).foldl (fun a b => a != b) false

/-- The identity of an exclusive integer scan, as a number in `w` bits (R228). -/
def reductionIdentity (md w : Nat) : Nat :=
  match md with
  | 1 => 2 ^ (w - 1) - 1
  | 2 | 5 => 2 ^ w - 1
  | 3 => 2 ^ (w - 1)
  | _ => 0

/-- The participants of the lane group of lane `l`, ascending (R223). -/
def participants (s : State) (pid l : Nat) : List Nat := (pathMask s pid).lanes.filter (fun j => j / 32 == l / 32)

/-- A form that stands in no slot 0, as the lane instructions' (R59, R224). -/
def offSlotZero (f : Form) : Prop := ∀ w, f = .n w → w.slot ≠ 0

/-! ### Operations without results -/

/-- Registers, threads and the other paths hold what they held, and the path goes on. -/
structure Quiet (s t : State) (c : Ctx) (f : Form) : Prop where
  goesOn : GoesOn s t c f
  registers : RegistersKept s t c.pid .none []
  paths : PathsKept s t c.pid
  threads : t.x.threads = s.x.threads

/-! ### Memory -/

/-- What the checks of R136 find in a lane of an access of operation `op` on type `t`. -/
def checked (s : State) (c : Ctx) (f : Form) (op : AccOp) (t : Ty) (l : Nat) : Chk :=
  chkLane s c (pathAt s c.pid).noFix (spaceOf c f (addrOf s c f l)) (addrOf s c f l) (tyBytes t) (rightOf op)

/-- The path has gone past the operation: at the portable level it stands at the next word and the issue is over; a slot
leaves both as they are. -/
def Past (s t : State) (c : Ctx) (f : Form) : Prop :=
  match f with
  | .p _ => t.c.issue = none ∧ (pathAt t c.pid).pc = .word (VPC.of c.fn (nextIx c.func.code c.ix))
  | .n _ => t.c.issue = s.c.issue ∧ (pathAt t c.pid).pc = (pathAt s c.pid).pc

/-- Keys of the scratchpad bytes, in order, that a lane's access of `n` bytes names in a scratchpad or in its stack. -/
def scratchKeys (s : State) (c : Ctx) (n l : Nat) (x : Chk) : List Nat :=
  match x with
  | .loc (.scr core pa) => (List.range n).map (fun i => core * 2 ^ 18 + pa + i)
  | .stk o => (List.range n).map (fun i => coreOfWarp c.warp * 2 ^ 18 + stackPa s c.warp l (o + i))
  | _ => []

/-- Registers, threads and the other paths hold what they held, and the path has gone past the operation. -/
structure Silent (s t : State) (c : Ctx) (f : Form) : Prop where
  past : Past s t c f
  registers : RegistersKept s t c.pid .none []
  threads : t.x.threads = s.x.threads
  others : ∀ p, p ≠ c.pid → t.x.paths.find? p = s.x.paths.find? p

/-- `Silent`, but for the results that the lanes `ls` take in destination `d`. -/
structure Delivers (s t : State) (c : Ctx) (f : Form) (d : Dst) (ls : List Nat) (g : Nat → Word) : Prop where
  past : Past s t c f
  results : Results t c.pid d ls g
  registers : RegistersKept s t c.pid d ls
  threads : t.x.threads = s.x.threads
  others : ∀ p, p ≠ c.pid → t.x.paths.find? p = s.x.paths.find? p

/-! ### Special functions -/

/-- The results and flags of R232 in the codes of a format, for the operands whose result it states exactly. -/
def sfSpecial (m : Fmt) (fn : Nat) (x : FVal) : Option (Nat × Flags) :=
  let inf := m.infCode
  match fn, x with
  | _, .nan sg => some (m.nan, if sg then fInvalid else fNone)
  | 0, .inf n => some (if n then m.zero false else inf false, fNone)
  | 0, .zero _ => some (m.ofImm 1, fNone)
  | 1, .inf n => some (if n then (m.nan, fInvalid) else (inf false, fNone))
  | 1, .zero _ => some (inf true, fDivZero)
  | 1, .fin true _ _ => some (m.nan, fInvalid)
  | 2, .inf n => some (m.zero n, fNone)
  | 2, .zero n => some (inf n, fDivZero)
  | 3, .inf n => some (if n then (m.nan, fInvalid) else (m.zero false, fNone))
  | 3, .zero n => some (inf n, fDivZero)
  | 3, .fin true _ _ => some (m.nan, fInvalid)
  | 4, .inf _ => some (m.nan, fInvalid)
  | 4, .zero n => some (m.zero n, fNone)
  | 5, .inf _ => some (m.nan, fInvalid)
  | 5, .zero _ => some (m.ofImm 1, fNone)
  | _, _ => none

/-! ### Engine commands -/

/-- The result that each lane's instruction of an engine leaves: at the portable level a token value. -/
def tokenDst (c : Ctx) (f : Form) : Dst := match f with | .p _ => .val c.depth c.n | .n _ => .none

/-- Each active lane, in ascending order, has entered its command `mk l` at the tail of its engine's queue. The entries that the
command is to fill are reserved and not filled, and the lane's token value names the first (R91, R100, R101, R421). -/
structure Queued (s u : State) (c : Ctx) (f : Form) (queue : State → OvQueue) (mk : Nat → Cmd) : Prop where
  past : Past s u c f
  commands : ∃ ids, qIds (queue u) = qIds (queue s) ++ ids ∧ ids.length = (pathMask s c.pid).lanes.length ∧
    ∀ (j l i : Nat), (pathMask s c.pid).lanes[j]? = some l → ids[j]? = some i → ∃ k, u.e.cmds.find? i = some k ∧
      k = { mk l with fills := k.fills } ∧ (∀ e ∈ k.fills, isFilled u e = false) ∧
      ∀ w, f = .p w → ∃ e r, k.fills = e :: r ∧ getVal u (threadKey c.pid l) c.depth c.n = BitVec.ofNat 64 e
  registers : RegistersKept s u c.pid (tokenDst c f) (pathMask s c.pid).lanes
  threads : u.x.threads = s.x.threads
  memory : u.m.mem = s.m.mem

/-- An engine command may issue on a core whose overflow rings hold at most 3072 entries: natively the 64 lanes of a path reserve
and enter at most 1024 (R105). -/
abbrev quotaOk (s : State) (core : Nat) : Prop := spilled s core ≤ 3072 ∧ s.e.pairs.risingFrom 0 = true

/-- Every active lane queues the command with body `body l` and the input tokens that `toks` name, or, where the quota of R105 does
not take what they reserve, the instruction faults (kind 0x0F) and nothing is queued. `setup` completes a command. -/
def QueuesAll (s : State) (c : Ctx) (f : Form) (engine : Nat) (queue : State → OvQueue) (toks : List Operand)
    (body : Nat → CmdBody) (setup : Cmd → Cmd) (before : State → Cmd → State) (o : Out) (ok : State → Prop) : Prop :=
  let t := carryToks s c f toks engine
  let mk := fun l => setup (cmdOf t c engine l (body l) (inputPops t c f toks engine l))
  let all := issueAll t c f mk before
  let core := coreOfWarp c.warp
  (4096 < spilled all core → o = .next (raise s c f (plainTrap 0x0F (pathMask s c.pid).lanes))) ∧
    (spilled all core ≤ 4096 → ∃ u, o = .next u ∧ Queued s u c f queue mk ∧ ok u) ∧
    (∀ w, f = .n w → quotaOk s core → spilled all core ≤ 4096)

/-! ### Chunks -/

/-- The count of chunks that a lane of a chunk instruction names, and its range's core and first chunk (R118). -/
def chunkCount (s : State) (c : Ctx) (f : Form) (l : Nat) : Nat := ((src s c f 1 .i32 true l).setWidth 32).toNat
def chunkHome (s : State) (c : Ctx) (f : Form) (l : Nat) : Option (Nat × Nat) :=
  let a : BitVec 32 := (src s c f 0 .ptrS false l).setWidth 32
  (scrHome s c.gang (a - BitVec.ofNat 32 (a.toNat % 512)) (512 * chunkCount s c f l)).map (fun h => (h.1, h.2 / 512))

/-! ### Requests of the host -/

/-- A request is turned away with its STATUS, refused with the first failure code, or carried out, with `ok` of the state
after (R392). -/
def Answers (s : State) (h : Hdr) (v : Serve) (check : Option Nat) (o : Out) (ok : State → Prop) : Prop :=
  (∀ st, turnedAway s h v = some st → o = .next (reply s h st 0 0 [])) ∧
    (∀ c, turnedAway s h v = none → check = some c → o = .next (refuse s h c)) ∧
    (turnedAway s h v = none → check = none → ∃ u, o = .next u ∧ ok u)

/-- The reply of a request that has been carried out: STATUS 0 and its data. -/
def Replied (s u : State) (h : Hdr) (data : List Byte) : Prop := u.h.out = s.h.out ++ [.reply h 0 0 0 data]

/-- Memory, gangs and threads, engines, plane, ring and debugging hold what they held. -/
structure Aside (s u : State) : Prop where
  mem : u.m = s.m
  exec : u.x = s.x
  engines : u.e = s.e
  plane : u.pl = s.pl
  ring : u.r = s.r
  debug : u.d = s.d

/-! ### Control flow -/

/-- No thread of the path has an entry for T left to consume (R189). -/
abbrev noneLeft (s : State) (c : Ctx) : Prop := leftEntries s c none = []

/-- `o` is a next state in which the path stands at block `b` of its function with its mask and frames as they were, the
block's arguments hold `args` as the operands stood before, in every active lane, and nothing else has changed (R34,
R182). -/
def BranchesTo (s : State) (c : Ctx) (b : Nat) (args : List Operand) (o : Out) : Prop :=
  let bw := nth (blockWords c.func.code) 0 b
  let v0 := defsBefore c.module c.func.code bw
  ∃ t, o = .next t ∧ t.c.issue = none ∧ RestKept s t ∧ PathsKept s t c.pid ∧ t.x.threads = s.x.threads ∧
    t.x.vregs = s.x.vregs ∧ t.x.sregs = s.x.sregs ∧
    pathAt t c.pid = { pathAt s c.pid with
      pc := .word (VPC.of c.fn (blockStart c.func.code b)), resumed := none, readyAt := s.c.cycle } ∧
    (∀ l ∈ (pathMask s c.pid).lanes, ∀ i a, args[i]? = some a →
      getVal t (threadKey c.pid l) c.depth (v0 + i) = operandVal s c l a (argTy c bw i) false) ∧
    ∀ k, (∀ l ∈ (pathMask s c.pid).lanes, ∀ i, i < args.length → k ≠ valKey (threadKey c.pid l) c.depth (v0 + i)) →
      t.x.vals.getD 0 k = s.x.vals.getD 0 k

/-- How a lane leaves a handler by a `trap.ret` of form `f` (R355). -/
def leavesBy (s : State) (c : Ctx) (f : Form) (l : Nat) : LaneExit :=
  match modOf f with
  | 0 => .resume
  | 1 => .skip (src s c f 0 (match f with | .p w => opndTy c f 0 (typeAt c w.ty.toNat) | .n _ => formTy c f) false l)
  | _ => .kill

/-- The lanes of trap block `k` that have left, with those of the path, which leave by form `f`. -/
def haveLeft (s : State) (c : Ctx) (f : Form) (k : TrapBlock) : List (Nat × LaneExit) :=
  k.left ++ (pathMask s c.pid).lanes.map (fun l => (l, leavesBy s c f l))

/-- A path of warp `w` with the lanes that `p` names stands at `v` as the trap of `k` found it, and waits for its resume
translation. -/
def ResumesAt (s t : State) (k : TrapBlock) (v : VPC) (p : Nat → Prop) : Prop :=
  ∃ pid q, t.x.paths.find? pid = some q ∧ warpOfPath pid = k.warp ∧ (∀ l, q.mask.getLsbD l = true ↔ l < 64 ∧ p l) ∧
    q.pc = .word v ∧ q.frames = k.frames ∧ q.split = k.split ∧ q.s124 = k.s124 ∧ q.s125 = k.s125 ∧ q.s126 = k.s126 ∧
    q.s127 = k.s127 ∧ q.wait = some (.miss (resumeKey s (warpAt s k.warp).gang v))

/-- THE RETURN FROM A TRAP (R355). While a lane that the trap took in is still in the handler, its block notes those that have left.
With the last one it is freed: the resumed lanes stand at the trapping instruction, the skipped at the next with their value,
and the killed have finished. After `trap` resuming is skipping (R190), after `unreach` both kill (R191). -/
structure HandlerLeft (s t : State) (c : Ctx) (f : Form) (b : Nat) (k : TrapBlock) : Prop where
  memory : t.m = s.m
  partly : (∃ l ∈ k.mask.lanes, ∀ e, (l, e) ∉ haveLeft s c f k) →
    t.x.blocks.find? b = some { k with left := haveLeft s c f k } ∧ t.x.threads = s.x.threads ∧ t.x.vals = s.x.vals
  freed : (∀ l ∈ k.mask.lanes, ∃ e, (l, e) ∈ haveLeft s c f k) → t.x.blocks.find? b = none
  resumed : (∀ l ∈ k.mask.lanes, ∃ e, (l, e) ∈ haveLeft s c f k) → k.record.kind ≠ 1 → k.record.kind ≠ 2 →
    (∃ l, l < 64 ∧ (l, LaneExit.resume) ∈ haveLeft s c f k) →
    ResumesAt s t k k.record.vpc (fun l => (l, LaneExit.resume) ∈ haveLeft s c f k)
  skipped : (∀ l ∈ k.mask.lanes, ∃ e, (l, e) ∈ haveLeft s c f k) → k.record.kind ≠ 2 →
    let m := moduleAt s (gangAt s (warpAt s k.warp).gang).module
    let code := (funcAt m (VPC.fn k.record.vpc)).code
    let ix := VPC.ix k.record.vpc
    let goes := fun l => (∃ v, (l, LaneExit.skip v) ∈ haveLeft s c f k) ∨
      k.record.kind = 1 ∧ (l, LaneExit.resume) ∈ haveLeft s c f k
    ((∃ l, l < 64 ∧ goes l) → ResumesAt s t k (VPC.of (VPC.fn k.record.vpc) (nextIx code ix)) goes) ∧
      (definesValue m (nth code 0 ix) = true → ∀ l ∈ (pathMask s c.pid).lanes, ∀ v, leavesBy s c f l = .skip v →
        getVal t (threadKey c.pid l) k.frames.length (defsBefore m code ix) = v)
  killed : (∀ l ∈ k.mask.lanes, ∃ e, (l, e) ∈ haveLeft s c f k) → ∀ l,
    (l, LaneExit.kill) ∈ haveLeft s c f k ∨ k.record.kind = 2 ∧ (∃ e, (l, e) ∈ haveLeft s c f k ∧ e ≠ .gone) →
    (threadAt t (k.warp * 64 + l)).exited = true ∧ (threadAt t (k.warp * 64 + l)).bars = []

end Sys2Proof.Machine
end

