-- ==== Sys2Proof/WellFormed.lean ====
section
/-!
DEFINITION. Well-formed instructions: those that an encoding of the spec stands for (R27, R28, R31, R32, R49, R59). The
bounds of single operations, which need a function or a translation, are checked by validation (R40) and by the bundle
check (R62).
-/
namespace Sys2Proof

/-- A back-reference reaches 1 to 2^28 - 1 values back (R28, R32). -/
def Operand.wf (o : Operand) : Bool :=
  match o with
  | .back d => decide (0 < d) && decide (d < 2 ^ 28)
  | _ => true

/-- Every operand of a word has an encoding. -/
def PForm.wf (f : PForm) : Bool := f.a.wf && f.b.wf && f.c.wf && f.ext.all Operand.wf

/-- A slot in which the operation runs; the two operations of code 0x190 differ in MOD (R59, R157). -/
def NForm.wf (op : Op) (f : NForm) : Bool :=
  (opSlots op).contains f.slot.toNat &&
    (match op with
     | .frameEnter => f.md == 0
     | .frameLeave => f.md == 1
     | _ => true)

/-- WELL-FORMED: a word of a portable operation, or a slot of an operation that runs in it; events have no encoding. -/
def Instr.wf (i : Instr) : Bool :=
  match i.opForm with
  | none => true
  | some (op, .p f) => !nativeOnly op && f.wf
  | some (op, .n f) => f.wf op

end Sys2Proof
end

