-- ==== Sys2Proof/Certificates/Slice0/Obligations.lean ====
section
/-!
DEFINITION. The statements for the provers, drawn from the numbered rules of spec/ and from what the model takes from them.
A statement about an instruction says, for every form and every state in which it issues, that it answers a next state,
what that state's destination holds and that nothing else has changed (Safety.lean: Computes, ComputesFlags).
-/

open Sys2Proof Sys2Proof.Machine

/-! ### Integers, bits, addresses, comparison (R166 to R181) -/

/-- R169: `add`, `sub`, `mad`, `neg` and `abs` compute exactly and fit the result to the width; MOD 2 reads unsigned. -/
def Obligations.IntegerResultsFitTheirWidth : Prop :=
  ∀ (f : Form) (s : State) (c : Ctx), Issues s f c → Canonical s → isInt (formTy c f) = true →
    let w := tyWidth (formTy c f)
    let x := fun k l => if modOf f = 2 then (zx w (src s c f k (formTy c f) (modOf f == 1) l) : Int)
      else sx w (src s c f k (formTy c f) (modOf f == 1) l)
    let d := dstOf c f (formTy c f)
    ComputesSome s c f d (fun l => Fits (modOf f) w (x 0 l + x 1 l)) (exec (.add f) s) ∧
    ComputesSome s c f d (fun l => Fits (modOf f) w (x 0 l - x 1 l)) (exec (.sub f) s) ∧
    ComputesSome s c f d (fun l => Fits (modOf f) w (x 0 l * x 1 l + x 2 l)) (exec (.mad f) s) ∧
    (modOf f < 2 → ComputesSome s c f d (fun l => Fits (modOf f) w (-x 0 l)) (exec (.neg f) s) ∧
      ComputesSome s c f d (fun l => Fits (modOf f) w ((x 0 l).natAbs : Int)) (exec (.abs f) s))

/-- R168: `mul` gives the low W bits of the product, `mulhi` bits 2W-1:W of the exact product, `min` and `max` the lesser and
the greater; MOD 0 reads signed and MOD 1 unsigned. -/
def Obligations.IntegerProductsAndExtremes : Prop :=
  ∀ (f : Form) (s : State) (c : Ctx), Issues s f c → Canonical s → isInt (formTy c f) = true →
    let w := tyWidth (formTy c f)
    let a := fun sg k l => src s c f k (formTy c f) sg l
    let m := fun l k => if modOf f = 0 then sx w (a true k l) else (zx w (a false k l) : Int)
    let d := dstOf c f (formTy c f)
    ComputesSome s c f d (fun l v => BitsAre w v (fun i => (zx w (a false 0 l) * zx w (a false 1 l)).testBit i)) (exec (.mul f) s) ∧
    (modOf f < 2 →
      ComputesSome s c f d (fun l => Fits 0 w ((m l 0 * m l 1) >>> w)) (exec (.mulhi f) s) ∧
      ComputesSome s c f d (fun l => Fits 0 w (min (m l 0) (m l 1))) (exec (.min f) s) ∧
      ComputesSome s c f d (fun l => Fits 0 w (max (m l 0) (m l 1))) (exec (.max f) s))

/-- R168: the logical instructions act on each bit of TYPE, an integer or `i1`. R171: shifts and rotations by n = zx(b) mod W;
`shr` with MOD 0 fills with the sign. -/
def Obligations.BitwiseInstructionsAndShiftsActOnBits : Prop :=
  (∀ (f : Form) (s : State) (c : Ctx), Issues s f c → Canonical s → (isInt (formTy c f) || formTy c f == .i1) = true →
      let w := tyWidth (formTy c f)
      let a := fun l i => (src s c f 0 (formTy c f) false l).getLsbD i
      let b := fun l i => (src s c f 1 (formTy c f) false l).getLsbD i
      let d := dstOf c f (formTy c f)
      ComputesSome s c f d (fun l v => BitsAre w v (fun i => a l i && b l i)) (exec (.and f) s) ∧
      ComputesSome s c f d (fun l v => BitsAre w v (fun i => a l i || b l i)) (exec (.or f) s) ∧
      ComputesSome s c f d (fun l v => BitsAre w v (fun i => a l i != b l i)) (exec (.xor f) s) ∧
      ComputesSome s c f d (fun l v => BitsAre w v (fun i => a l i && !b l i)) (exec (.andn f) s) ∧
      ComputesSome s c f d (fun l v => BitsAre w v (fun i => !a l i)) (exec (.not f) s)) ∧
  (∀ (f : Form) (s : State) (c : Ctx), Issues s f c → Canonical s → isInt (formTy c f) = true →
      let w := tyWidth (formTy c f)
      let a := fun sg l i => (src s c f 0 (formTy c f) sg l).getLsbD i
      let n := fun sg l => zx w (src s c f 1 (formTy c f) sg l) % w
      let d := dstOf c f (formTy c f)
      ComputesSome s c f d (fun l v => BitsAre w v (fun i => decide (n false l ≤ i) && a false l (i - n false l))) (exec (.shl f) s) ∧
      (modOf f = 0 → ComputesSome s c f d (fun l v => BitsAre w v (fun i =>
        if i + n true l < w then a true l (i + n true l) else a true l (w - 1))) (exec (.shr f) s)) ∧
      (modOf f = 1 → ComputesSome s c f d (fun l v => BitsAre w v (fun i =>
        decide (i + n false l < w) && a false l (i + n false l))) (exec (.shr f) s)) ∧
      ComputesSome s c f d (fun l v => BitsAre w v (fun i => a false l ((i + (w - n false l)) % w))) (exec (.rotl f) s) ∧
      ComputesSome s c f d (fun l v => BitsAre w v (fun i => a false l ((i + n false l) % w))) (exec (.rotr f) s))

/-- R171: `popc` counts the 1 bits, `clz` the zero bits above the highest 1 bit and `ctz` those below the lowest, W when the
operand is zero; `brev` moves bit i to bit W-1-i. R172: a field at position p = zx(pos) mod W of length n = min(len, W - p);
`bfx` under MOD 0 extends its top bit, and `bfi` puts the low bits of the second operand into the first. -/
def Obligations.BitCountsAndFieldsFollowTheBits : Prop :=
  (∀ (f : Form) (s : State) (c : Ctx), Issues s f c → Canonical s → isInt (formTy c f) = true →
      let w := tyWidth (formTy c f)
      let a := fun l i => (src s c f 0 (formTy c f) false l).getLsbD i
      let d := dstOf c f (formTy c f)
      ComputesSome s c f d (fun l v => v.toNat = ((List.range w).filter (fun i => a l i)).length) (exec (.popc f) s) ∧
      ComputesSome s c f d (fun l v => v.toNat ≤ w ∧ (∀ i, w - v.toNat ≤ i → i < w → a l i = false) ∧
        (v.toNat < w → a l (w - 1 - v.toNat) = true)) (exec (.clz f) s) ∧
      ComputesSome s c f d (fun l v => v.toNat ≤ w ∧ (∀ i, i < v.toNat → a l i = false) ∧
        (v.toNat < w → a l v.toNat = true)) (exec (.ctz f) s) ∧
      ComputesSome s c f d (fun l v => BitsAre w v (fun i => a l (w - 1 - i))) (exec (.brev f) s)) ∧
  (∀ (f : Form) (s : State) (c : Ctx), Issues s f c → Canonical s → isInt (formTy c f) = true →
      let w := tyWidth (formTy c f)
      let x := fun k sg l => src s c f k (formTy c f) sg l
      let d := dstOf c f (formTy c f)
      (fieldLenOf f 2 ≤ w → modOf f < 2 → ComputesSome s c f d (fun l v =>
        let p := zx w (x 1 (modOf f == 0) l) % w
        let n := min (fieldLenOf f 2) (w - p)
        BitsAre w v (fun i => decide (0 < n) && (if i < n then (x 0 (modOf f == 0) l).getLsbD (p + i)
          else modOf f == 0 && (x 0 (modOf f == 0) l).getLsbD (p + n - 1)))) (exec (.bfx f) s)) ∧
      (fieldLenOf f 3 ≤ w → ComputesSome s c f d (fun l v =>
        let p := zx w (x 2 false l) % w
        let n := min (fieldLenOf f 3) (w - p)
        BitsAre w v (fun i => if p ≤ i ∧ i < p + n then (x 1 false l).getLsbD (i - p) else (x 0 false l).getLsbD i))
        (exec (.bfi f) s)))

/-- R173, R174: `ext` extends the source by its sign or by zeros, `trunc` keeps the low bits, and `bsel` takes byte k from the
bytes that field k of its control names. R175: `adr` adds a scaled index to a pointer, or takes a difference, modulo 2^P, or
keeps the bits; it never faults. -/
def Obligations.WidthsBytesAndPointersAreComputed : Prop :=
  (∀ (f : Form) (s : State) (c : Ctx), Issues s f c → Canonical s →
      let w := tyWidth (formTy c f)
      let v := tyWidth (sourceTy c f)
      let a := fun l i => (src s c f 0 (sourceTy c f) false l).getLsbD i
      let d := dstOf c f (formTy c f)
      (isInt (formTy c f) = true → 0 < v → v < w → ComputesSome s c f d (fun l r => BitsAre w r (fun i =>
        if i < v then a l i else modOf f == 0 && a l (v - 1))) (exec (.ext f) s)) ∧
      ((isInt (formTy c f) || formTy c f == .i1) = true → ComputesSome s c f d (fun l r => BitsAre w r (a l)) (exec (.trunc f) s)) ∧
      (formTy c f = .i32 ∨ formTy c f = .i64 → ComputesSome s c f d (fun l r => BitsAre w r (fun i =>
        let k := (src s c f 2 .i32 false l).toNat / 2 ^ (4 * (i / 8)) % 16
        if 8 ≤ k then (src s c f 1 (formTy c f) false l).getLsbD i
        else (src s c f 0 (formTy c f) false l).getLsbD (8 * (k % (w / 8)) + i % 8))) (exec (.bsel f) s))) ∧
  (∀ (f : Form) (s : State) (c : Ctx), Issues s f c → Canonical s → modOf f < 5 → 0 < tyWidth (formTy c f) →
      let t := formTy c f
      let p := fun l => (zx (tyWidth t) (src s c f 0 t false l) : Int)
      let i := fun l => src s c f 1 (indexTy c f) (modOf f == 0) l
      ComputesSome s c f (dstOf c f t) (fun l v =>
        match modOf f with
        | 0 => Fits 0 (tyWidth t) (p l + sx (tyWidth (indexTy c f)) (i l) * scaleOf f) v
        | 1 => Fits 0 (tyWidth t) (p l + zx (tyWidth (indexTy c f)) (i l) * scaleOf f) v
        | 4 => Fits 0 (tyWidth t) (p l - zx (tyWidth t) (src s c f 1 t false l)) v
        | _ => v = src s c f 0 t false l) (exec (.adr f) s))

/-- R176, R177: `icmp` gives 1 where its predicate holds and 0 elsewhere; in the bit form one bit of a scalar is written. R178
to R180: `select` gives a where its condition is 1 and b where it is 0; `const` gives its operand; `sreg` gives the placement
that its code names. -/
def Obligations.ComparisonsSelectionsAndConstantsGiveValues : Prop :=
  (∀ (f : Form) (s : State) (c : Ctx), Issues s f c → Canonical s → modOf f < 8 →
      let t := compareTy c f
      let a := fun k l => src s c f k t (modOf f == 2 || modOf f == 3 || modOf f == 6) l
      let u := fun k l => zx (tyWidth t) (a k l)
      let i := fun k l => sx (tyWidth t) (a k l)
      let holds : Nat → Prop := fun l => match modOf f with
        | 0 => u 0 l = u 1 l | 1 => u 0 l ≠ u 1 l | 2 => i 0 l < i 1 l | 3 => i 0 l ≤ i 1 l
        | 4 => u 0 l < u 1 l | 5 => u 0 l ≤ u 1 l | 6 => i 1 l < i 0 l | _ => u 1 l < u 0 l
      ComputesSome s c f (predDst c f) (fun l v => holds l ∧ v = 1 ∨ ¬holds l ∧ v = 0) (exec (.icmp f) s)) ∧
  (∀ (s : State) (c : Ctx), Canonical s →
      (∀ f, Issues s f c → Computes s c f (dstOf c f (formTy c f)) (fun l =>
        if condOf s c f l = true then src s c f 1 (formTy c f) false l else src s c f 2 (formTy c f) false l) (exec (.select f) s)) ∧
      (∀ w, Issues s (.p w) c →
        (∀ v, w.a = .imm v → Computes s c (.p w) (.val c.depth c.n) (fun _ => immVal (formTy c (.p w)) v.toInt) (exec (.const w) s)) ∧
        (∀ i, w.a = .konst i → Computes s c (.p w) (.val c.depth c.n)
          (fun _ => lowBits (tyWidth (formTy c (.p w))) (nth c.func.consts 0 i.toNat)) (exec (.const w) s)) ∧
        (∀ v, w.a = .special v → Computes s c (.p w) (.val c.depth c.n)
          (fun _ => specialVal (formTy c (.p w)) false v.toNat) (exec (.const w) s))) ∧
      (∀ f, Issues s f c →
        let code := match f with | .p w => immNat w.a | .n w => (w.aux.extractLsb' 0 8).toNat
        let g := gangAt s c.gang
        let r := (launchAt s g.launch).record
        let tid := fun l => (warpAt s c.warp).num * Config.lanes (dieOfCore (coreOfWarp c.warp)) + l
        code < 16 → Computes s c f (dstOf c f .i32) (fun l => BitVec.ofNat 64 (nth [tid l, lrThreads r, (warpAt s c.warp).wg, lrWgs r,
          g.x, g.y, g.z, lrGridX r, lrGridY r, lrGridZ r, tid l % 32, g.die, Config.dieKind g.die, g.ctx % 64,
          coreOfWarp c.warp % 96, c.warp % 16] 0 code)) (exec (.sreg f) s)))

/-- R170: `div` and `rem`. A zero divisor sets integer-divide-by-zero and, where a thread enables it, traps with kind 0x04 and
no result; otherwise the quotient is truncated towards zero and the remainder takes the dividend's sign. -/
def Obligations.DivisionTruncatesAndFlagsZeroDivisors : Prop :=
  ∀ (f : Form) (s : State) (c : Ctx), Issues s f c → Canonical s → isInt (formTy c f) = true → modOf f < 2 →
    let w := tyWidth (formTy c f)
    let v := fun k l => if modOf f = 1 then (zx w (src s c f k (formTy c f) (modOf f == 0) l) : Int)
      else sx w (src s c f k (formTy c f) (modOf f == 0) l)
    let fl : Nat → Flags := fun l => if v 1 l = 0 then fIntDiv else fNone
    let q := fun l => if v 1 l = 0 then (if modOf f = 1 then 0 else if 0 ≤ v 0 l then 2 ^ (w - 1) - 1 else -2 ^ (w - 1))
      else Int.tdiv (v 0 l) (v 1 l)
    let r := fun l => v 0 l - (if v 1 l = 0 then 0 else q l * v 1 l)
    let d := dstOf c f (formTy c f)
    (∃ g, (∀ l, Fits 0 w (q l) (g l).1 ∧ (g l).2 = fl l) ∧ Flagged s c f d 0x04 g (exec (.div f) s)) ∧
    (∃ g, (∀ l, Fits 0 w (r l) (g l).1 ∧ (g l).2 = fl l) ∧ Flagged s c f d 0x04 g (exec (.rem f) s))

/-! ### Floating point (R195 to R221) -/

/-- R208, R210: the arithmetic instructions deliver the exact result of their operands' values rounded under MOD and raise its
flags; an enabled exception traps with kind 0x03. -/
def Obligations.FloatArithmeticDeliversResultsAndFlags : Prop :=
  ∀ (f : Form) (s : State) (c : Ctx), Issues s f c → Canonical s → isFloat (formTy c f) = true →
    let m := fmtOf (formTy c f)
    let x := fun k l => (src s c f k (formTy c f) false l).toNat
    let v := fun l => delivery (modeThread s c l) (modOf f)
    let d := dstOf c f (formTy c f)
    Flagged s c f d 3 (fun l => wordOf (m.add (v l) (x 0 l) (x 1 l))) (exec (.fadd f) s) ∧
    Flagged s c f d 3 (fun l => wordOf (m.sub (v l) (x 0 l) (x 1 l))) (exec (.fsub f) s) ∧
    Flagged s c f d 3 (fun l => wordOf (m.mul (v l) (x 0 l) (x 1 l))) (exec (.fmul f) s) ∧
    Flagged s c f d 3 (fun l => wordOf (m.div (v l) (x 0 l) (x 1 l))) (exec (.fdiv f) s) ∧
    Flagged s c f d 3 (fun l => wordOf (m.sqrt (v l) (x 0 l))) (exec (.fsqrt f) s) ∧
    Flagged s c f d 3 (fun l => wordOf (m.fma (v l) (x 0 l) (x 1 l) (x 2 l))) (exec (.fma f) s) ∧
    Flagged s c f d 3 (fun l => wordOf (m.minMax false (modOf f == 1) (x 0 l) (x 1 l))) (exec (.fmin f) s) ∧
    Flagged s c f d 3 (fun l => wordOf (m.minMax true (modOf f == 1) (x 0 l) (x 1 l))) (exec (.fmax f) s)

/-- R196, R210: an arithmetic instruction with a NaN operand delivers the default NaN of its type; invalid is raised where an
operand is a signalling NaN, and nothing else. `fmin` and `fmax` do so under MOD 1, and under MOD 0 for two NaNs. R200: a
value that the format represents is delivered as it is, under every rounding attribute, and raises nothing. -/
def Obligations.FormatsDeliverNansAndExactValues : Prop :=
  (∀ (t : Ty) (v : Deliver) (a b : Nat), isFloat t = true →
      let m := fmtOf t
      let x := m.decode a
      let y := m.decode b
      let fl : Flags := if x.isSnan = true ∨ y.isSnan = true then fInvalid else fNone
      (x.isNan = true ∨ y.isNan = true →
        m.add v a b = (m.nan, fl) ∧ m.sub v a b = (m.nan, fl) ∧ m.mul v a b = (m.nan, fl) ∧ m.div v a b = (m.nan, fl) ∧
        m.minMax false true a b = (m.nan, fl) ∧ m.minMax true true a b = (m.nan, fl)) ∧
      (x.isNan = true → m.sqrt v a = (m.nan, if x.isSnan = true then fInvalid else fNone)) ∧
      (x.isNan = true → y.isNan = true →
        m.minMax false false a b = (m.nan, fl) ∧ m.minMax true false a b = (m.nan, fl))) ∧
  (∀ (t : Ty) (r : Rnd) (sat : Bool) (a : Nat) (neg : Bool) (m : Nat) (e : Int), isFloat t = true → a < 2 ^ tyWidth t →
      (fmtOf t).decode a = .fin neg m e → (fmtOf t).finish r sat neg m e false = (a, fNone))

/-- R208, R196: `fneg` inverts bit W-1, `fabs` clears it, `fcopysign` takes it from its second operand; every other bit is
unchanged, for NaNs too. R212, R213: `fcmp` compares under its predicate, raising invalid for any NaN under a signalling
predicate and for a signalling NaN under a quiet one; `fclass` sets exactly one bit among bits 0 to 9 and raises nothing. -/
def Obligations.SignsComparisonsAndClassesReadBits : Prop :=
  (∀ (f : Form) (s : State) (c : Ctx), Issues s f c → Canonical s → isFloat (formTy c f) = true →
      let w := tyWidth (formTy c f)
      let a := fun k l i => (src s c f k (formTy c f) false l).getLsbD i
      let d := dstOf c f (formTy c f)
      ComputesSome s c f d (fun l v => BitsAre w v (fun i => a 0 l i != (i == w - 1))) (exec (.fneg f) s) ∧
      ComputesSome s c f d (fun l v => BitsAre w v (fun i => a 0 l i && i != w - 1)) (exec (.fabs f) s) ∧
      ComputesSome s c f d (fun l v => BitsAre w v (fun i => if i = w - 1 then a 1 l i else a 0 l i)) (exec (.fcopysign f) s)) ∧
  (∀ (f : Form) (s : State) (c : Ctx), Issues s f c → Canonical s →
      (let m := fmtOf (compareTy c f)
       let x := fun k l => m.decode (src s c f k (compareTy c f) false l).toNat
       let nan := fun l => (x 0 l).isNan || (x 1 l).isNan
       let snan := fun l => (x 0 l).isSnan || (x 1 l).isSnan
       let o := fun l => fcompare (x 0 l) (x 1 l)
       let holds : Nat → Bool := fun l => match modOf f with
         | 0 => !nan l && o l == .eq | 1 => nan l || o l != .eq | 2 => !nan l && o l == .lt | 3 => !nan l && o l != .gt
         | 4 => !nan l && o l == .gt | 5 => !nan l && o l != .lt | 6 => nan l | _ => !nan l
       let signals := 2 ≤ modOf f ∧ modOf f ≤ 5
       modOf f < 8 → Flagged s c f (predDst c f) 3 (fun l => (if holds l = true then 1 else 0,
         if snan l = true ∨ (signals ∧ nan l = true) then fInvalid else fNone)) (exec (.fcmp f) s)) ∧
      ComputesSome s c f (dstOf c f .i32) (fun _ v => ∃ k, k < 10 ∧ v = BitVec.ofNat 64 (2 ^ k)) (exec (.fclass f) s))

/-- R214 to R220: the conversions and scalings deliver their results and flags, an enabled exception trapping with kind 0x03;
`upk8` raises nothing. -/
def Obligations.ConversionsDeliverResultsAndFlags : Prop :=
  ∀ (f : Form) (s : State) (c : Ctx), Issues s f c → Canonical s →
    let t := formTy c f
    let m := fmtOf t
    let th := modeThread s c
    let r := fun l => rndOf (th l) (modOf f) 0
    let n := narrowSourceTy c f 5 0
    let x := fun k t l => src s c f k t false l
    let k := fun j l => if modOf f = 6 then x j .i64 l else 0
    let d := dstOf c f t
    Flagged s c f d 3 (fun l => wordOf (m.convert (fmtOf n) (rndOf (th l) (modOf f) (k 1 l)) (satOf f 9) (x 0 n l).toNat))
      (exec (.fcvt f) s) ∧
    Flagged s c f d 3 (fun l => wordOf (m.rint (r l) (satOf f 0) (x 0 t l).toNat)) (exec (.frint f) s) ∧
    Flagged s c f d 3 (fun l => (fmtOf (sourceTy c f)).toInt (r l) (!satOf f 4) (tyWidth t) (x 0 (sourceTy c f) l).toNat)
      (exec (.fcvti f) s) ∧
    Flagged s c f d 3 (fun l => wordOf (m.ofInt (r l)
      (if satOf f 4 then (zx (tyWidth (sourceTy c f)) (x 0 (sourceTy c f) l) : Int)
        else sx (tyWidth (sourceTy c f)) (x 0 (sourceTy c f) l)))) (exec (.icvtf f) s) ∧
    Flagged s c f d 3 (fun l => wordOf (m.scale (r l) (x 0 t l).toNat (sx 32 (x 1 .i32 l)))) (exec (.fscaleb f) s) ∧
    Flagged s c f (dstOf c f .i32) 3 (fun l => (fmtOf (sourceTy c f)).logb (x 0 (sourceTy c f) l).toNat) (exec (.flogb f) s) ∧
    Flagged s c f (dstOf c f .i32) 3 (fun l =>
      let y := fun j u => (fmtOf (b8TyOf c f 3)).convert fmtF32 (rndOf (th l) (modOf f) u)
        (match f with | .p w => (immNat (opndOf w 3)).testBit 4 | .n w => w.aux.getLsbD 5) (x j .f32 l).toNat
      (BitVec.ofNat 64 ((y 0 (k 2 l)).1 + 256 * (y 1 (k 2 l + 1)).1), (y 0 (k 2 l)).2 ||| (y 1 (k 2 l + 1)).2)) (exec (.pk8 f) s) ∧
    Flagged s c f d 3 (fun l =>
      let e := (x 1 .sc8 l).toNat % 256
      if e = 255 then (BitVec.ofNat 64 m.nan, fNone)
      else wordOf (m.scale (r l) (x 0 t l).toNat (if satOf f 0 then 127 - (e : Int) else (e : Int) - 127))) (exec (.bscale f) s) ∧
    Computes s c f (dstOf c f .f32) (fun l =>
      let i := match f with | .p w => immNat w.b | .n w => (w.aux.extractLsb' 5 2).toNat
      BitVec.ofNat 64 (fmtF32.convert (fmtOf (b8TyOf c f 2)) rne false ((x 0 .i32 l).toNat / 2 ^ (8 * i) % 256)).1)
      (exec (.upk8 f) s)

/-- R221: `fexc.rd` returns the flags and `fmode.rd` the mode word or the seed; `fexc.clr` clears the named flags in each
active lane; `fmode.set` writes mode and seed in each active lane, or, where a lane's mode word breaks R204, changes nothing
and raises an operand-range fault (kind 0x10) that names those lanes. -/
def Obligations.FloatStateIsReadAndWritten : Prop :=
  ∀ (f : Form) (s : State) (c : Ctx), Issues s f c → Canonical s →
    let th := fun (u : State) l => threadAt u (threadKey c.pid l)
    let ls := (pathMask s c.pid).lanes
    let md : Nat → BitVec 32 := fun l => (src s c f 0 .i32 false l).setWidth 32
    let okMode := fun (m : BitVec 32) => (m.extractLsb' 0 3).toNat ≤ 4 ∧ m &&& 0xFFFFC0F8#32 = 0
    ComputesSome s c f (dstOf c f .i32) (fun l v => BitsAre 6 v (fun i => (th s l).flags.getLsbD i)) (exec (.fexcRd f) s) ∧
    Computes s c f (dstOf c f (if modOf f = 1 then .i64 else .i32))
      (fun l => if modOf f = 1 then (th s l).seed else (th s l).mode.setWidth 64) (exec (.fmodeRd f) s) ∧
    (∃ t, exec (.fexcClr f) s = .next t ∧ GoesOn s t c f ∧ RegistersKept s t c.pid .none [] ∧ RestKept s t ∧ PathsKept s t c.pid ∧
      (∀ l ∈ ls, th t l = { th s l with flags := (th s l).flags &&&
        ~~~(match f with | .p w => BitVec.ofNat 6 (immNat w.a) | .n w => w.aux.extractLsb' 0 6) }) ∧
      ∀ k, k ∉ ls.map (threadKey c.pid) → threadAt t k = threadAt s k) ∧
    ((∀ l ∈ ls, okMode (md l)) →
      ∃ t, exec (.fmodeSet f) s = .next t ∧ GoesOn s t c f ∧ RegistersKept s t c.pid .none [] ∧ RestKept s t ∧ PathsKept s t c.pid ∧
      (∀ l ∈ ls, th t l = { th s l with mode := md l, seed := if hasOpnd f 1 then src s c f 1 .i64 false l else (th s l).seed }) ∧
      ∀ k, k ∉ ls.map (threadKey c.pid) → threadAt t k = threadAt s k) ∧
    ((∃ l ∈ ls, ¬okMode (md l)) →
      ∃ bad, (∀ l, l ∈ bad ↔ l ∈ ls ∧ ¬okMode (md l)) ∧ exec (.fmodeSet f) s = .next (raise s c f (plainTrap 0x10 bad)))

/-! ### Lanes and special functions (R222 to R237) -/

/-- R223, R225 to R227: `lanex` takes the value of the lane that MOD and the count choose within the lane group, or the
fallback where that lane is no participant; `vote` and `match` see the participants of their lane group alone. -/
def Obligations.LaneInstructionsStayInTheirGroup : Prop :=
  ∀ (f : Form) (s : State) (c : Ctx), Issues s f c → Canonical s → offSlotZero f →
    let x := fun k t l => src s c f k t false l
    let t := formTy c f
    let mask := pathMask s c.pid
    let pg := participants s c.pid
    let bit0 := fun j => (x 0 (voteTy c f) j).getLsbD 0
    let mt := match f with | .p _ => opndTy c f 0 .i32 | .n _ => formTy c f
    (modOf f < 4 → ComputesSome s c f (dstOf c f t) (fun l v =>
      let k := l % 32
      let n := zx 32 (x 1 .i32 l)
      let m := 2 ^ min n 5 - 1
      let j := 32 * (l / 32) + (match modOf f with
        | 0 => n % 32
        | 1 => (k + 32 - n % 32) % 32
        | 2 => k ^^^ m
        | _ => k - (k &&& m))
      v = if mask.getLsbD j = true then x 0 t j else x 2 t l) (exec (.lanex f) s)) ∧
    (modOf f < 4 → ComputesSome s c f (dstOf c f (if modOf f = 2 then .i32 else .i1)) (fun l v =>
      match modOf f with
      | 0 => (v = 1 ∧ ∀ j ∈ pg l, bit0 j = true) ∨ (v = 0 ∧ ∃ j ∈ pg l, bit0 j = false)
      | 1 => (v = 1 ∧ ∃ j ∈ pg l, bit0 j = true) ∨ (v = 0 ∧ ∀ j ∈ pg l, bit0 j = false)
      | 2 => BitsAre 32 v (fun k => mask.getLsbD (32 * (l / 32) + k) && bit0 (32 * (l / 32) + k))
      | _ => (v = 1 ∧ ∀ j ∈ pg l, ∀ k ∈ pg l, x 0 (voteTy c f) j = x 0 (voteTy c f) k) ∨
          (v = 0 ∧ ∃ j ∈ pg l, ∃ k ∈ pg l, x 0 (voteTy c f) j ≠ x 0 (voteTy c f) k)) (exec (.vote f) s)) ∧
    ComputesSome s c f (dstOf c f .i32) (fun l v => BitsAre 32 v (fun k =>
      mask.getLsbD (32 * (l / 32) + k) && x 0 mt (32 * (l / 32) + k) == x 0 mt l)) (exec (.matchLanes f) s)

/-- R228, R229: `lgred` on an integer type gives every participant the reduction of its lane group; `lgscan` gives each the
reduction of the participants up to it, or below it when exclusive, the identity where there are none. Neither raises
anything. -/
def Obligations.IntegerReductionsAndScans : Prop :=
  ∀ (f : Form) (s : State) (c : Ctx), Issues s f c → Canonical s → offSlotZero f → isInt (formTy c f) = true → modOf f < 8 →
    let t := formTy c f
    let x := fun l => src s c f 0 t (modOf f == 1 || modOf f == 3) l
    let pg := participants s c.pid
    let upTo := fun l => (pg l).filter (fun j => decide (j < l) || (j == l && controlOf f % 2 == 0))
    (∃ g, (∀ l ∈ (pathMask s c.pid).lanes, IsReduction (modOf f) (tyWidth t) ((pg l).map x) (g l)) ∧
      Computes s c f (dstOf c f t) g (exec (.lgred f) s)) ∧
    (∃ g, (∀ l ∈ (pathMask s c.pid).lanes, if upTo l = [] then zx (tyWidth t) (g l) = reductionIdentity (modOf f) (tyWidth t)
        else IsReduction (modOf f) (tyWidth t) ((upTo l).map x) (g l)) ∧
      Computes s c f (dstOf c f t) g (exec (.lgscan f) s))

/-- R229, R205: on a floating type `lgred` combines its lane group by the pairwise tree and `lgscan` folds it in ascending
lanes; the flags of every combination are raised in every lane, and an enabled exception traps with kind 0x03. -/
def Obligations.FloatReductionsFollowTheTree : Prop :=
  ∀ (f : Form) (s : State) (c : Ctx), Issues s f c → Canonical s → offSlotZero f → isFloat (formTy c f) = true →
    let t := formTy c f
    let x := fun l => src s c f 0 t (groupSigned (modOf f)) l
    let pg := participants s c.pid
    let tree := fun g => treeReduce t (modOf f) (controlOf f) ((List.range 32).map (fun k =>
      if (pathMask s c.pid).getLsbD (32 * g + k) = true then some (x (32 * g + k), fNone) else none))
    let scan := fun l => scanFrom t (modOf f) (controlOf f) none 0 ((pg l).map (fun j => (j, x j)))
    Flagged s c f (dstOf c f t) 3 (fun l => tree (l / 32)) (exec (.lgred f) s) ∧
    Flagged s c f (dstOf c f t) 3 (fun l => ((((scan l).1.find? (fun e => e.1 == l)).map (·.2)).getD 0, (scan l).2))
      (exec (.lgscan f) s)

/-! ### Control flow (R182 to R193) -/

/-- R183 to R185: a branch that every active lane takes to one block passes the edge's arguments, all read before any is
written, and the path stands at the block. `brc` takes B where its condition is 1 and C where it is 0; `switch` takes case
zx(k) when that is below the case count and the default otherwise. -/
def Obligations.UniformBranchesPassArguments : Prop :=
  ∀ (w : PForm) (s : State) (c : Ctx), Issues s (.p w) c → Canonical s → noneLeft s c → (pathAt s c.pid).split = none →
    (pathMask s c.pid).lanes ≠ [] → w.ext.length < 2 ^ 30 →
    let ls := (pathMask s c.pid).lanes
    let cnt := fun b => blockArgs c.func.code (nth (blockWords c.func.code) 0 b)
    let t := opndTy c (.p w) 0 .i32
    let k := fun l => zx (tyWidth t) (operandVal s c l w.a t false)
    let n := immNat w.c
    let args := w.ext.drop n
    let at_ := fun i => cnt (indexOf w.b) + (((w.ext.take n).take i).map (fun o => cnt (indexOf o))).sum
    BranchesTo s c (indexOf w.a) w.ext (exec (.br w) s) ∧
    ((∀ l ∈ ls, (operandVal s c l w.a .i1 false).getLsbD 0 = true) →
      BranchesTo s c (indexOf w.b) (w.ext.take (cnt (indexOf w.b))) (exec (.brc w) s)) ∧
    ((∀ l ∈ ls, (operandVal s c l w.a .i1 false).getLsbD 0 = false) →
      BranchesTo s c (indexOf w.c) (w.ext.drop (cnt (indexOf w.b))) (exec (.brc w) s)) ∧
    (∀ i o, i < n → (w.ext.take n)[i]? = some o → (∀ l ∈ ls, k l = i) →
      BranchesTo s c (indexOf o) ((args.drop (at_ i)).take (cnt (indexOf o))) (exec (.switch w) s)) ∧
    ((∀ l ∈ ls, n ≤ k l) → BranchesTo s c (indexOf w.b) (args.take (cnt (indexOf w.b))) (exec (.switch w) s))

/-- R155, R192, R193: a `brc` whose condition differs among the active lanes splits its path in two under a new split record,
which names the join of the branch, the path's depth and the record it had: the lanes that choose as the first lane does stay
in the path, the others form a new one, each at its own target. -/
def Obligations.DivergentBranchSplitsThePath : Prop :=
  ∀ (w : PForm) (s : State) (c : Ctx), Issues s (.p w) c → noneLeft s c → (pathAt s c.pid).atExit = false → w.ext.length < 2 ^ 30 →
    (s.x.paths.find? (freePath s c.warp)).isNone = true →
    let start := fun b => VPC.of c.fn (blockStart c.func.code b)
    let cond := fun l => (operandVal s c l w.a .i1 false).getLsbD 0
    let ls := (pathMask s c.pid).lanes
    let target := fun l => if cond l = true then indexOf w.b else indexOf w.c
    indexOf w.b ≠ indexOf w.c → joinOf c ≠ .block (start (indexOf w.b)) → joinOf c ≠ .block (start (indexOf w.c)) →
    ∀ l0 ∈ ls.head?, ∀ l1 ∈ ls, cond l1 ≠ cond l0 →
    ∃ t, exec (.brc w) s = .next t ∧ t.c.issue = none ∧
      (pathAt t c.pid).pc = .word (start (target l0)) ∧ (pathAt t (freePath s c.warp)).pc = .word (start (target l1)) ∧
      (∀ l, (pathMask t c.pid).getLsbD l = true ↔ l ∈ ls ∧ cond l = cond l0) ∧
      (∀ l, (pathMask t (freePath s c.warp)).getLsbD l = true ↔ l ∈ ls ∧ cond l = cond l1) ∧
      (pathAt t c.pid).split = some s.c.nextId ∧ (pathAt t (freePath s c.warp)).split = some s.c.nextId ∧
      t.x.splits.find? s.c.nextId =
        some { warp := c.warp, parent := (pathAt s c.pid).split, depth := c.depth, join := joinOf c } ∧
      t.m = s.m ∧ t.e = s.e

/-- R151, R152, R157, R186, R187: a call that may be made (its key has a translation in the cluster's cache, the warp's divergent
call is not in the way and the frame fits the stack) links to its return point, takes its frame above the caller's, passes its
arguments, and enters the callee's entry block; the caller's values are unchanged; a callee that has no translation and
cannot have one within 1 MiB (R158) raises a translation limit (kind 0x14). A `callx` of one index by every lane does the same,
and one with failing lanes raises a call fault (kind 0x12) that names them. -/
def Obligations.CallsEnterTheirCallee : Prop :=
  ∀ (w : PForm) (s : State) (c : Ctx), Issues s (.p w) c → Canonical s → (pathMask s c.pid).lanes ≠ [] → w.ext.length < 2 ^ 20 →
    let q := pathAt s c.pid
    let ls := q.mask.lanes
    let cl := clusterOf (coreOfWarp c.warp)
    let own := calleeKey s c.gang c.fn
    let base := (imageAt s cl own).getD (translateImage c.module own)
    let mayCall := fun fn (i : TImage) => callHeld s c.pid = false ∧ imageAt s cl (calleeKey s c.gang fn) = some i ∧
      (q.s127 + q.s124).toNat + 16 + 4 * i.frameW ≤ stackSize s c.warp
    let enters := fun fn (i : TImage) (wants : Option Nat) (o : Out) =>
      ∃ t, o = .next t ∧ t.c.issue = none ∧ t.m = s.m ∧
      (pathAt t c.pid).pc = .word (VPC.of fn (blockEntry (funcAt c.module fn).code 0)) ∧
      (pathAt t c.pid).frames = { fn := fn, callVpc := VPC.of c.fn c.ix, wants := wants, trap := none } :: q.frames ∧
      (pathAt t c.pid).s125 = linkOf c.fn (returnPoint base (VPC.of c.fn c.ix) (callPlace c.module own c.ix fn)) ∧
      (pathAt t c.pid).s127 = q.s127 + q.s124 ∧
      (pathAt t c.pid).s124 = BitVec.ofNat 64 (16 + 4 * i.frameW) ∧ (pathAt t c.pid).mask = q.mask ∧
      (∀ l ∈ ls, ∀ j a, w.ext[j]? = some a → getVal t (threadKey c.pid l) (c.depth + 1) j =
        operandVal s c l a (nth (funcParams (funcAt c.module fn)) .none j) false) ∧
      (∀ l n, l < 64 → n < 2 ^ 20 → getVal t (threadKey c.pid l) c.depth n = getVal s (threadKey c.pid l) c.depth n)
    let cannot := fun fn => imageAt s cl (calleeKey s c.gang fn) = none ∧ tooLong c.module (calleeKey s c.gang fn) = true
    (∀ i, mayCall (indexOf w.a) i → enters (indexOf w.a) i
      (if (funcAt c.module (indexOf w.a)).result.isSome = true then some c.n else none) (exec (.call w) s)) ∧
    (cannot (indexOf w.a) → exec (.call w) s = .next (raise s c (.p w) (plainTrap 0x14 ls))) ∧
    (∀ fn, (∀ l ∈ ls, zx 32 (operandVal s c l w.a .i32 false) = fn) → callxOk c w fn = true → callxAhead s c w fn = [] →
      (∀ i, mayCall fn i → enters fn i (if w.md = 1 then some c.n else none) (exec (.callx w) s)) ∧
      (cannot fn → exec (.callx w) s = .next (raise s c (.p w) (plainTrap 0x14 ls)))) ∧
    (∀ bad, bad = ls.filter (fun l => !callxOk c w (zx 32 (operandVal s c l w.a .i32 false))) → bad ≠ [] →
      exec (.callx w) s = .next (raise s c (.p w) (plainTrap 0x12 bad)))

/-- R157, R186, R188, R189: `ret` goes on after the call with the caller's frame and stack pointer, and the call's value holds
the operand in each lane; a kernel's `ret` acts as `exit`. After `exit` the path is gone and its threads have finished, in no
barrier set; while entries for T are left unconsumed, the path waits for them first. In a bundle `exit` ends the path when
the other slots have acted. -/
def Obligations.ReturnsAndExitsLeave : Prop :=
  ∀ (s : State) (c : Ctx), Canonical s →
    let q := pathAt s c.pid
    let ls := q.mask.lanes
    let sp := (getHeader s c.warp (firstLane s c.pid) q.s127.toNat).2.1
    let leaves := fun (t : State) => t.c.issue = none ∧ t.x.paths.find? c.pid = none ∧ t.m = s.m ∧
      ∀ l ∈ ls, (threadAt t (threadKey c.pid l)).exited = true ∧ (threadAt t (threadKey c.pid l)).bars = []
    q.split = none → q.atExit = false →
    (∀ w fr rest, Issues s (.p w) c → leftEntries s c (some c.depth) = [] → q.frames = fr :: rest →
      ∃ t, exec (.ret w) s = .next t ∧ t.c.issue = none ∧ t.m = s.m ∧
      (pathAt t c.pid).pc = .word (VPC.of (VPC.fn fr.callVpc)
        (nextIx (funcAt c.module (VPC.fn fr.callVpc)).code (VPC.ix fr.callVpc))) ∧
      (pathAt t c.pid).frames = rest ∧ (pathAt t c.pid).s127 = sp ∧ (pathAt t c.pid).mask = q.mask ∧
      (pathAt t c.pid).s124 = (getHeader s c.warp (firstLane s c.pid) q.s127.toNat).2.2 ∧
      (∀ v, fr.wants = some v → ∀ l ∈ ls, getVal t (threadKey c.pid l) rest.length v =
        operandVal s c l w.a (typeAt c w.ty.toNat) false)) ∧
    (∀ w o, Issues s (.p w) c → (o = exec (.exit (.p w)) s ∨ q.frames = [] ∧ o = exec (.ret w) s) →
      (noneLeft s c → handlerOf q = none → ∃ t, o = .next t ∧ leaves t) ∧
      (¬noneLeft s c → o = .next (hold s c.pid (.p w) (.dying (leftEntries s c none))))) ∧
    (∀ w i, Issues s (.n w) c → s.c.issue = some i → i.trap = none →
      ∃ u, exec (.exit (.n w)) s = .next u ∧ u.c.issue = some { i with ended := true } ∧ u.x = s.x ∧ u.m = s.m ∧
        ∀ before t ix (b : Bundle), b.s0 = .exit (.n w) → handlerOf q = none → leaves (endBundle before u c.pid t ix b))

/-! ### Traps and their handlers (R350 to R355) -/

/-- R353: taking a trap with a handler. A trap block records the trap and what the path was; the whole path, with every active
lane, stands at the handler's entry in a frame above its own, s0 to s7 hold the PARAM words, and the path's virtual values are
as they were. -/
def Obligations.TakingATrapEntersTheHandler : Prop :=
  ∀ (s : State) (p : Nat) (t : TrapRec), Canonical s → (s.x.paths.find? p).isSome = true →
    let q := pathAt s p
    let gi := (warpAt s (warpOfPath p)).gang
    let g := gangAt s gi
    let r := (launchAt s g.launch).record
    let h := lrHandler r
    let n := (trapVals s p t.vpc).length
    let size := roundUp (blockBytes (Config.lanes g.die) n) 64
    let u := takeTrap s p t
    handlerOf q = none → h ≠ 0xFFFF → ∀ s1 o, takeSave s g.ctx size = some (s1, o) →
    (q.s127 + q.s124).toNat + 16 + 4 * handlerWords s gi h ≤ stackSize s (warpOfPath p) →
    u.x.blocks.find? s.c.nextId = some
      { warp := warpOfPath p, record := t, pc := .word t.vpc, frames := q.frames, split := q.split, s124 := q.s124,
        s125 := q.s125, s126 := q.s126, s127 := q.s127, mask := q.mask, left := [], ctx := g.ctx, off := o, len := size } ∧
    (pathAt u p).mask = q.mask ∧ (pathAt u p).wait = none ∧
    (pathAt u p).pc = .word (VPC.of h (blockEntry (funcAt (moduleAt s g.module) h).code 0)) ∧
    (pathAt u p).frames = { fn := h, callVpc := pcVpc s q, wants := none, trap := some s.c.nextId } :: q.frames ∧
    (pathAt u p).s127 = q.s127 + q.s124 ∧
    (pathAt u p).s124 = BitVec.ofNat 64 (16 + 4 * handlerWords s gi h) ∧
    (∀ i, i < 8 → getSreg u p i = lrParam r i) ∧
    (∀ l v, l < 64 → v < 2 ^ 20 → (funcAt (moduleAt s g.module) h).nparam ≤ 2 ^ 20 →
      getVal u (threadKey p l) q.frames.length v = getVal s (threadKey p l) q.frames.length v) ∧
    (∃ bs, u.m.mem = (saveWrite s1 g.ctx o (trapBytes t ++ leBytes 8 q.s124.toNat ++ leBytes 8 q.s125.toNat ++
      leBytes 8 q.s126.toNat ++ leBytes 8 q.s127.toNat ++ bs)).m.mem)

/-- R88, R353: without a handler a trap fails the gang with CAUSE 0x100 plus its kind; without room in the save region it
fails with 0x3E; within a handler the named lanes are killed. A failing gang issues nothing more. -/
def Obligations.TrapsWithoutAHandlerFailTheGang : Prop :=
  ∀ (s : State) (p : Nat) (t : TrapRec),
    let q := pathAt s p
    let gi := (warpAt s (warpOfPath p)).gang
    let g := gangAt s gi
    let h := lrHandler (launchAt s g.launch).record
    let n := (trapVals s p t.vpc).length
    let fails := fun cause => (gangAt (takeTrap s p t) gi).state = .failing ∧ (gangAt (takeTrap s p t) gi).cause = cause ∧
      (gangAt (takeTrap s p t) gi).failAddr = t.addr ∧ (launchAt (takeTrap s p t) g.launch).bad = true ∧
      ∀ k, (s.x.paths.find? k).isSome = true → (warpAt s (k / 64)).gang = gi → (pathAt (takeTrap s p t) k).halted = true
    s.x.paths.risingFrom 0 = true → g.state ≠ .failing → g.state ≠ .retired → handlerOf q = none →
    (h = 0xFFFF → fails (0x100 + t.kind)) ∧
    (h ≠ 0xFFFF → takeSave s g.ctx (roundUp (blockBytes (Config.lanes g.die) n) 64) = none → fails 0x3E)

/-- R190, R191, R353: `trap` raises a user trap (kind 1) with its code and `unreach` an unreachable trap (kind 2); each names
every active lane and the virtual PC of the word, and is taken at once. In a bundle the trap first in virtual order is the one
noted (that of a `frame.enter`, kind 0x13, before the others). R354: `trap.info` reads the fields of the handler's trap record:
kind, code, VPC, flags, the lane's own address, whether the lane is named, and the space. -/
def Obligations.TrapInstructionsAndTheirRecords : Prop :=
  (∀ (s : State) (c : Ctx),
      let all := (pathMask s c.pid).lanes
      let rec_ := fun kind code v => { trapZero with kind := kind, code := code, vpc := v, lanes := Mask.of all }
      (∀ w, Issues s (.p w) c →
        exec (.trap (.p w)) s = .next (takeTrap (endIssue s) c.pid (rec_ 1 (immNat w.a) (VPC.of c.fn c.ix))) ∧
        exec (.unreach w) s = .next (takeTrap (endIssue s) c.pid (rec_ 2 0 (VPC.of c.fn c.ix)))) ∧
      (∀ w i, Issues s (.n w) c → s.c.issue = some i → ∃ t j, exec (.trap (.n w)) s = .next t ∧ t.c.issue = some j ∧ t.x = s.x ∧ t.m = s.m ∧
        let here := rec_ (if w.md = 1 then 2 else 1) w.aux.toNat (trapVpc s c (.n w))
        j.trap = (match i.trap with
          | none => some here
          | some u => if u.kind = 0x13 ∨ u.vpc.toNat ≤ (trapVpc s c (.n w)).toNat then some u else some here))) ∧
  (∀ (f : Form) (s : State) (c : Ctx), Issues s f c → Canonical s → modOf f < 7 →
      ∀ b k, handlerOf (pathAt s c.pid) = some b → s.x.blocks.find? b = some k →
        ComputesSome s c f (dstOf c f (if modOf f = 4 then .i64 else .i32)) (fun l v =>
          match modOf f with
          | 0 => v = BitVec.ofNat 64 k.record.kind
          | 1 => v = BitVec.ofNat 64 k.record.code
          | 2 => v = k.record.vpc.setWidth 64
          | 3 => v = k.record.flags.setWidth 64
          | 4 => (∀ a, k.record.addrs.find? (fun x => x.1 == l) = some (l, a) → v = a) ∧
              (k.record.addrs.find? (fun x => x.1 == l) = none → v = 0)
          | 5 => v = if k.record.lanes.getLsbD l = true then 1 else 0
          | _ => v = BitVec.ofNat 64 k.record.space) (exec (.trapInfo f) s))

/-- R355: a `trap.ret` takes its path's lanes out of the handler, each with the action of its MOD. While others are still in it, the
trap block notes them. When the last has left, the block is freed: resumed lanes form a path that stands at the trapping
instruction, skipped lanes one at the next, where they hold the value given, each with the frames and registers that the trap
found, waiting for its resume translation; killed threads are in no barrier set. In a bundle the lanes leave when the other
slots have acted. -/
def Obligations.TrapReturnResumesSkipsOrKills : Prop :=
  ∀ (f : Form) (s : State) (c : Ctx) (b : Nat) (k : TrapBlock), Issues s f c → Canonical s →
    handlerOf (pathAt s c.pid) = some b → s.x.blocks.find? b = some k → k.warp = c.warp → (pathsOf s c.warp).length ≤ 62 →
    (∀ w, f = .p w →
      (leftEntries s c (some c.depth) = [] → ∃ t, exec (.trapRet f) s = .next t ∧ t.c.issue = none ∧ HandlerLeft s t c f b k) ∧
      (leftEntries s c (some c.depth) ≠ [] →
        exec (.trapRet f) s = .next (hold s c.pid f (.dying (leftEntries s c (some c.depth)))))) ∧
    (∀ w i, f = .n w → s.c.issue = some i → i.trap = none →
      ∃ u, exec (.trapRet f) s = .next u ∧ u.c.issue = some { i with ended := true } ∧ u.x = s.x ∧ u.m = s.m ∧
        ∀ before t ix (d : Bundle), d.s0 = .trapRet f → HandlerLeft s (endBundle before u c.pid t ix d) c f b k)

/-! ### Memory (R128 to R137, R262 to R276, R286 to R288) -/

/-- R131, R136, R265, R270: once every lane has passed its checks and one of them names memory or another core's scratchpad, an
access is counted and sent with each lane's home and value; nothing is read or written yet. An acquire waits for it. The lanes of
a `red` that name one word are folded into one value (R271). -/
def Obligations.AccessesAreSentAfterEveryCheck : Prop :=
  ∀ (f : Form) (s : State) (c : Ctx), Issues s f c → Canonical s → peerReplies s c.pid = [] →
    (s.x.warps.find? c.warp).isSome = true →
    let ls := (accessLanes s c f).1
    let t := formTy c f
    let w := warpAt s c.warp
    let found := fun op l => checked s c f op t l
    let global := fun op => ls.any (fun l => match found op l with | .loc (.mem _ _) => true | _ => false)
    let far := fun op => ls.any (fun l => match found op l with | .loc (.scr core _) => core != coreOfWarp c.warp | _ => false)
    let cls := fun op (n : Nat) => if global op = true then n else 2
    let ready := fun op n (rel : Bool) => (∀ l ∈ ls, ∃ x, found op l = .loc x) ∧ (global op || far op) = true ∧
      counterFull w (cls op n) = false ∧ (rel = true → w.inflight = [])
    let nothing := fun (u : State) => u.m.mem = s.m.mem ∧ u.m.lines = s.m.lines ∧ u.m.arrived = s.m.arrived ∧ u.e = s.e
    let sent := fun op n (acq : Bool) (v v2 : Nat → Word) (d : Dst) (o : Out) => ∃ u a, o = .next u ∧ Silent s u c f ∧
      warpAt u c.warp = bump { w with inflight := w.inflight ++ [a] } (cls op n) ∧ a.pid = c.pid ∧ a.op = op ∧ a.ty = t ∧ a.dst = d ∧
      a.lanes.map (fun x => (x.lane, Chk.loc x.loc, x.v, x.v2)) = ls.map (fun l => (l, found op l, v l, v2 l)) ∧
      (acq = true → (pathAt u c.pid).wait = some (.landed a.id)) ∧ nothing u
    let b := fun k sg l => src s c f k t sg l
    let md := modOf f
    let n := controlOp f
    let sg := n == 1 || n == 3
    (ready .load 0 (md == 3) → sent .load 0 (md == 1 || md == 3) (fun _ => 0) (fun _ => 0) (dstOf c f t) (exec (.ld f) s)) ∧
    (ready .store 1 (md == 1 || md == 3) → sent .store 1 (md == 3) (b 1 false) (fun _ => 0) .none (exec (.st f) s)) ∧
    (ready (.amo n) 0 (relOf md) → sent (.amo n) 0 (acqOf md) (b 1 sg) (fun _ => 0) (dstOf c f t) (exec (.amo f) s)) ∧
    (ready .cas 0 (relOf md) → sent .cas 0 (acqOf md) (b 1 false) (b 2 false) (dstOf c f t) (exec (.cas f) s)) ∧
    (ready (.red n) 1 (md == 2) → ∃ u a, exec (.red f) s = .next u ∧ Silent s u c f ∧
      warpAt u c.warp = bump { w with inflight := w.inflight ++ [a] } (cls (.red n) 1) ∧ a.pid = c.pid ∧ a.op = .red n ∧ a.ty = t ∧
      (a.lanes.map (·.loc)).Nodup ∧ (∀ x, x ∈ a.lanes.map (·.loc) ↔ ∃ l ∈ ls, found (.red n) l = .loc x) ∧
      (∀ l ∈ ls, ∀ x, found (.red n) l = .loc x → (∀ k ∈ ls, k ≠ l → found (.red n) k ≠ .loc x) →
        ∃ e ∈ a.lanes, e.loc = x ∧ e.v = b 1 sg l) ∧ nothing u)

/-- R128, R136: an access to the scratchpad of the own core or to the stack performs at once, with no earlier access of its threads
to that scratchpad in flight: a load gives the bytes that its
lane names, lowest address first; a store leaves its lane's bytes, the highest lane's where lanes meet, and every other byte
as it was; `amo` and `cas` return the word before and write its successor (one lane; R263, R267). -/
def Obligations.ScratchAccessesPerformAtOnce : Prop :=
  ∀ (f : Form) (s : State) (c : Ctx), Issues s f c → Canonical s → peerReplies s c.pid = [] → s.d.watches = [] →
    let ls := (accessLanes s c f).1
    let all := (pathMask s c.pid).lanes
    let t := formTy c f
    let n := tyBytes t
    let core := coreOfWarp c.warp
    let found := fun op l => checked s c f op t l
    let keys := fun op l => scratchKeys s c n l (found op l)
    let here := fun op => ∀ l ∈ ls, (∃ o, found op l = .stk o) ∨
      ∃ pa, found op l = .loc (.scr core pa) ∧ waitOver s c.pid (lockHold op core pa n) = true ∧
        ∀ a ∈ (warpAt s c.warp).inflight, ∀ x ∈ a.lanes, x.lane = l → ∀ pa, x.loc ≠ .scr core pa
    let b := fun k sg l => src s c f k t sg l
    let md := modOf f
    let byte := fun (u : State) k => u.e.scr.getD 0 k
    let word := fun (u : State) ks => BitVec.ofNat 64 (leNat (ks.map (byte u)))
    (here .load → (md = 3 → (warpAt s c.warp).inflight = []) → ∃ u, exec (.ld f) s = .next u ∧ u.m.mem = s.m.mem ∧ u.e = s.e ∧
      Delivers s u c f (dstOf c f t) all (fun l => word s (keys .load (if l ∈ ls then l else firstLane s c.pid)))) ∧
    (here .store → (md = 1 ∨ md = 3 → (warpAt s c.warp).inflight = []) → ∃ u, exec (.st f) s = .next u ∧ u.m.mem = s.m.mem ∧
      Silent s u c f ∧ (∀ k, (∀ l ∈ ls, k ∉ keys .store l) → byte u k = byte s k) ∧
      (∀ l ∈ ls, ∀ i k, (keys .store l)[i]? = some k → (∀ j ∈ ls, l < j → k ∉ keys .store j) →
        byte u k = (b 1 false l).extractLsb' (8 * i) 8)) ∧
    (∀ l pa, ls = [l] → (relOf md = true → (warpAt s c.warp).inflight = []) →
      let ks := (List.range n).map (fun i => core * 2 ^ 18 + pa + i)
      let old := word s ks
      let does := fun op (new : Word) (o : Out) => found op l = .loc (.scr core pa) → here op → ∃ u, o = .next u ∧
        u.m.mem = s.m.mem ∧ Delivers s u c f (dstOf c f t) all (fun _ => old) ∧ word u ks = lowBits (8 * n) new ∧
        ∀ k, k ∉ ks → byte u k = byte s k
      does (.amo (controlOp f)) (applyOp t (controlOp f) old (b 1 (controlOp f == 1 || controlOp f == 3) l)) (exec (.amo f) s) ∧
      does .cas (if old = lowBits (tyWidth t) (b 1 false l) then b 2 false l else old) (exec (.cas f) s))

/-- R136: a misaligned lane makes an access raise an alignment fault (kind 5) that names the misaligned lanes with their
addresses, before any other fault, and nothing performs (a release waits for the earlier accesses first). R137, R288: `prefetch`
changes no register and no byte of memory and always goes on; `fence` waits until every earlier access of its path's warp has
performed, and then goes on, an acquire of scope `.die` or wider with no release-consistent line left in its cluster's cache. -/
def Obligations.MisalignedAccessesTrapAndFencesOrder : Prop :=
  (∀ (f : Form) (s : State) (c : Ctx), Issues s f c →
      let n := tyBytes (formTy c f)
      let bad := ((accessLanes s c f).1.filter (fun l => (addrOf s c f l).toNat % n != 0)).map (fun l => (l, addrOf s c f l))
      let sp := spaceOf c f ((((accessLanes s c f).1.head?).map (addrOf s c f)).getD 0)
      let t := Host.Outcome.next (raise s c f (addrTrap 5 sp bad))
      let free := (warpAt s c.warp).inflight = []
      bad ≠ [] →
      ((modOf f = 3 → free) → exec (.ld f) s = t) ∧ ((modOf f = 1 ∨ modOf f = 3 → free) → exec (.st f) s = t) ∧
      ((relOf (modOf f) = true → free) → exec (.amo f) s = t ∧ exec (.cas f) s = t) ∧ ((modOf f = 2 → free) → exec (.red f) s = t)) ∧
  (∀ (f : Form) (s : State) (c : Ctx), Issues s f c → Canonical s →
      let cl := clusterOf (coreOfWarp c.warp)
      let keeps := fun (u : State) => Silent s u c f ∧ u.m = { s.m with lines := u.m.lines } ∧ u.e = s.e ∧ u.h = s.h ∧ u.x.warps = s.x.warps
      (∃ u, exec (.prefetch f) s = .next u ∧ keeps u) ∧
      ((warpAt s c.warp).inflight = [] → ∃ u, exec (.fence f) s = .next u ∧ keeps u ∧
        (modOf f ≠ 1 → 4 ≤ scopeOf f 0 → ∀ k l, (k, l) ∈ u.m.lines → k / 2 ^ 52 = cl →
          l.ord ≠ 1 ∧ (modOf f = 4 → l.ord ≠ 2))) ∧
      ((warpAt s c.warp).inflight ≠ [] → exec (.fence f) s = .next (hold s c.pid f .drained)))

/-- R131, R147, R263, R267, R273: the next packet of a warp that has come to its home performs there and is gone. A load gives the
bytes that its core reads there; a store writes them; `amo`, `cas` and `red` write the successor of the word found there, and the
first two return that word. The lane leaves its access; with its last lane an access leaves those in flight, its counter falls and
its results are written. A packet that waits at its home stays. -/
def Obligations.AccessesPerformAtTheirHome : Prop :=
  ∀ (s : State) (w : Nat), Canonical s → s.d.watches = [] → s.m.arrived.any (fun p => pktWarp p == some w) = true →
    (nextPacket s w = none → exec (.accessPerformed w) s = .next s) ∧
    ∀ (p : NetPkt) (a : Access) (x : LaneAcc) (more : List (Nat × Nat × Nat)), nextPacket s w = some p →
      p.accs = (w, a.id, x.lane) :: more → (warpAt s w).inflight.find? (fun y => y.id == a.id) = some a →
      a.lanes.find? (fun y => y.lane == x.lane) = some x → warpOfPath a.pid = w →
      (a.op ≠ .store → badData s x.loc (tyBytes a.ty) = false) →
      let n := tyBytes a.ty
      let core := coreOfPath a.pid
      let s1 := if a.drop = true then dropLines s (clusterOf core) false else s
      let s0 := match x.loc with
        | .mem h _ => if a.sc = true then dropOwnLine s1 core h else s1
        | .scr _ _ => s1
      let old := homeRead s x.loc n
      let v := match a.op with
        | .load => BitVec.ofNat 64 (leNat (locRead s0 core x.loc n))
        | .amo _ => old
        | .cas => old
        | _ => 0
      let rest := a.lanes.filter (fun y => y.lane != x.lane)
      let got := a.got ++ [(x.lane, v)]
      let rs := spreadResults a.spread got
      ∃ u, exec (.accessPerformed w) s = .next u ∧ u.m.arrived = s.m.arrived.erase p ∧ u.x.threads = s.x.threads ∧
        u.x.paths.map (·.1) = s.x.paths.map (·.1) ∧
        (let put := fun v => homeRead u x.loc n = lowBits (8 * n) v
         match a.op with
         | .load => u.m.mem = s.m.mem ∧ u.e.scr = s.e.scr
         | .store => put x.v
         | .amo k => put (applyOp a.ty k old x.v)
         | .cas => put (if old = lowBits (tyWidth a.ty) x.v then x.v2 else old)
         | .red k => put (applyOp a.ty k old p.v)) ∧
        (more = [] → rest ≠ [] → RegistersKept s u a.pid .none [] ∧
          warpAt u w = { warpAt s w with
            inflight := (warpAt s w).inflight.map (fun y => if y.id = a.id then { a with lanes := rest, got := got } else y) }) ∧
        (more = [] → rest = [] →
          warpAt u w = unbump { warpAt s w with inflight := (warpAt s w).inflight.eraseP (fun y => y.id == a.id) } a.cls ∧
          RegistersKept s u a.pid a.dst (rs.map (·.1)) ∧
          ((s.x.paths.find? a.pid).isSome = true → (rs.map (·.1)).Nodup → (∀ r ∈ rs, r.1 < 64) →
            ∀ r ∈ rs, r.1 ∈ takers a.dst (rs.map (·.1)) → Holds u a.pid r.1 a.dst r.2))

/-! ### Special functions (R230 to R238) -/

/-- R230, R232, R235: a fixed function of a special operand gives the result and flags of R232 in its TYPE, and a NaN gives
the default NaN; `.tab` raises invalid alone, for a signalling NaN alone, in `f32`, and with an invalid bank it is an SF table
fault (kind 0x15) that names every active lane. R237: `sf.load` of a record that can be read writes it into the bank that is
not current, which becomes valid and current, and adds 1 to the version, which every active lane receives; a header that
breaks R234 is an SF table fault (kind 0x15), and bank, index and version keep their values. -/
def Obligations.SpecialFunctionsAndTheirTables : Prop :=
  (∀ (f : Form) (s : State) (c : Ctx), Issues s f c → Canonical s → offSlotZero f →
      let t := formTy c f
      let x := fun l => (fmtOf t).decode (src s c f 0 t false l).toNat
      let sf := sfAt s (coreOfWarp c.warp)
      let valid := if sf.cur = true then sf.valid1 else sf.valid0
      (t = .f32 ∨ t = .f16 ∨ t = .bf16) →
      (modOf f < 6 → ∃ g, Flagged s c f (dstOf c f t) 3 g (exec (.sfEval f) s) ∧
        ∀ l r, sfSpecial (fmtOf t) (modOf f) (x l) = some r → g l = (BitVec.ofNat 64 r.1, r.2)) ∧
      (modOf f = 6 → valid = true → ∃ g, Flagged s c f (dstOf c f t) 3 g (exec (.sfEval f) s) ∧ ∀ l,
        (∀ sg, x l = .nan sg → g l = (BitVec.ofNat 64 (fmtOf t).nan, if sg then fInvalid else fNone)) ∧
        (t = .f32 → (x l).isNan = false → (g l).2 = fNone)) ∧
      (modOf f = 6 → valid = false →
        exec (.sfEval f) s = .next (raise s c f (plainTrap 0x15 (pathMask s c.pid).lanes)))) ∧
  (∀ (f : Form) (s : State) (c : Ctx) (bs : List Byte), Issues s f c → Canonical s → SMap.wf 0 s.e.bank = true →
      let core := coreOfWarp c.warp
      let ls := (pathMask s c.pid).lanes
      let l := firstLane s c.pid
      let sf := sfAt s core
      let s0 := setSf s core { sf with loads := [c.pid] }
      let b := !sf.cur
      sf.loads = [] → bs.length = 4160 → readRecords s0 c f (spaceOf c f (addrOf s c f l)) [l] 4160 64 = .ok [(l, bs)] →
      (tableOk (bs.take 64) = true → ∃ u, exec (.sfLoad f) s = .next u ∧
        Delivers s u c f (dstOf c f .i32) ls (fun _ => (sf.ver + 1).setWidth 64) ∧ u.m = s.m ∧
        sfAt u core = { valid0 := sf.valid0 || sf.cur, valid1 := sf.valid1 || b, cur := b, ver := sf.ver + 1, loads := [] } ∧
        (∀ i, i < 4160 → u.e.bank.getD 0 (bankKey core (bankNat b) i) = nth bs 0 i) ∧
        ∀ k, (∀ i, i < 4160 → k ≠ bankKey core (bankNat b) i) → u.e.bank.getD 0 k = s.e.bank.getD 0 k) ∧
      (tableOk (bs.take 64) = false → exec (.sfLoad f) s = .next (leaveLoads (raise s0 c f (plainTrap 0x15 ls)) core c.pid)))

/-! ### Engine commands and tokens (R90 to R118, R156, R240 to R261, R302) -/

/-- R91, R98, R99, R105, R107: a command of the copy family that breaks no rule of issue is queued by every active lane, in lane
order, with the shape register, sides, coordinates, value and tokens of its operands; a near destination is empty and locked
from then on. Beyond the quota it faults. -/
def Obligations.CopyCommandsAreQueuedInLaneOrder : Prop :=
  ∀ (kind : CopyKind) (f : Form) (s : State) (c : Ctx), Issues s f c → Canonical s →
    let core := coreOfWarp c.warp
    let shape := nth (wgAt s (wgKeyOf s c)).shapes none (shapeIx f)
    let o := fun l => copyBody s c f kind l
    let home := fun l => nearHome s { cmdZero with gang := c.gang } (o l)
    shape.isSome = true → outsideSpan s c = [] →
    (∀ l ∈ (pathMask s c.pid).lanes, (sideWord (o l).far).toNat % shSize (shape.getD 0) = 0 ∧ nearBad s c (o l) true = false ∧
      listBad s c (o l) true = false ∧ shapeFits (o l) true (modOf f) = true) →
    QueuesAll s c f 2 (fun t => t.e.bxq.getD queueZero core) (copyTokens f kind)
      (fun l => .copy kind (shape.getD 0) (o l).near (o l).far (o l).toNear (o l).coords (o l).value (o l).list) id (lockNear c f)
      (match kind with
        | .copy => exec (.bxCopy f) s | .conv => exec (.bxConv f) s | .fill => exec (.bxFill f) s
        | .gather => exec (.bxGather f) s | .scatter => exec (.bxScatter f) s | .red => exec (.bxRed f) s)
      (fun u => ∀ l ∈ (pathMask s c.pid).lanes, ∀ hc pa, (o l).toNear = true → home l = some (hc, pa) →
        (∀ i, i < boxBytes (o l) / 512 → chunkAt u hc (pa / 512 + i) = .empty) ∧
        ∃ k ∈ u.e.locks, k.core = hc ∧ k.lo = pa / 512 ∧ k.n = boxBytes (o l) / 512 ∧ (u.e.cmds.find? k.cmd).isSome = true)

/-- R105, R251, R256 to R260, R302: an MX command or a `cv.turn` that breaks no rule of issue is queued by every active lane with
its operands. An MX command carries the mode and seed in force at the queue's tail; an `mx.mode` that asks for the dynamic
rounding carries the thread's. Beyond the quota it faults. -/
def Obligations.MatrixCommandsAndTurnsAreQueued : Prop :=
  ∀ (f : Form) (s : State) (c : Ctx), Issues s f c → Canonical s →
    let core := coreOfWarp c.warp
    let ls := (pathMask s c.pid).lanes
    let n := mxN f
    let odd := modOf f % 2 == 1
    let bs := modOf f / 2 == 1
    let p := fun k l => ptrVal s c f k l
    let x := fun j l => mxExtra s c f j l
    let mode := tailMode s core
    let h := hopOf c.die (modOf f % 2)
    let queues := fun (loop : Bool) extra (body : Nat → CmdBody) (o : Out) =>
      (∀ l ∈ ls, mxScrBad s c.gang mode.1 (body l) = none ∧ mxRangeBad mode.1 loop (body l) = false) →
      QueuesAll s c f 3 (fun t => t.e.mxq.getD queueZero core) (mxTokens f extra) body
        (fun k => { k with mode := mode.1, seed := mode.2 }) (lockStore c f) o (fun _ => True)
    outsideSpan s c = [] →
    queues false 0 (fun _ => .mxZero n) (exec (.mxZero f) s) ∧
    queues false 0 (fun l => .mxLd n odd bs (p 0 l)) (exec (.mxLd f) s) ∧
    queues false (if bs = true then 1 else 0) (fun l => .mxSteps n odd bs (p 0 l) (p 1 l) (if bs = true then x 0 l else 0) 1 0 0 0)
      (exec (.mxStep f) s) ∧
    queues true (if bs = true then 5 else 3) (fun l => .mxSteps n odd bs (p 0 l) (p 1 l) (if bs = true then x 3 l else 0)
      (x 0 l).toNat (x 1 l) (x 2 l) (if bs = true then x 4 l else 0)) (exec (.mxLoop f) s) ∧
    queues false 0 (fun l => .mxStore n odd (p 0 l)) (exec (.mxStore f) s) ∧
    queues false 0 (fun l => .mxMode (bindRnd (modeThread s c l) (src s c f 0 .i64 false l)) (modeThread s c l).seed) (exec (.mxMode f) s) ∧
    (lrTurn (launchRec s c.gang) = true → (∀ l ∈ ls, 1 ≤ strandMask s c f l ∧ strandMask s c f l < 65536) →
      QueuesAll s c f 2 (fun t => t.e.bxq.getD queueZero core) (match f with | .p w => w.ext.take (immNat w.c / 16) | .n _ => [])
        (fun l => .turn h.1 h.2 (if modOf f / 2 % 2 = 0 then .cw else .ccw) (BitVec.ofNat 16 (strandMask s c f l))) id (fun s _ => s)
        (exec (.cvTurn f) s) (fun _ => True))

/-- R115: a `bx.shape` with tokens queues a command for each lane and waits for its turn and its tokens; it pops them, and reads its
record. Records that obey R95 write the shape register, with the last lane's, and every lane's token is done; one that breaks R95
is a shape fault (kind 0x0E). R118: with a count of 1 to 32 and a range in one core's scratchpad in every lane, `test.chunks` gives
each chunk's states, `wait.chunks` waits until no chunk is empty and says whether one is failed, and `clr.chunks`, once no lock
covers a range, empties every chunk of it. -/
def Obligations.ShapeRecordsAndChunksFollowTheirRules : Prop :=
  (∀ (f : Form) (s : State) (c : Ctx), Issues s f c → Canonical s →
      let core := coreOfWarp c.warp
      let ls := (pathMask s c.pid).lanes
      let sp := if sideTy s c f 0 = .ptrS then 2 else 0
      let tokens := match f with | .p w => w.ext ≠ [] | .n _ => popCodes f ≠ []
      let ids := shapeCmds s c.pid
      let popped := shapePopped s c.pid
      let s1 := if popped = true then s else popShapes s c ids
      let s2 := queueShapes s c f
      let rec_ := fun (r : Nat × List Byte) => BitVec.ofNat 1024 (leNat r.2)
      outsideSpan s c = [] →
      (∀ l ∈ ls, (addrOf s c f l).toNat % 16 = 0 ∧
        (sp = 2 → (scrHome s c.gang ((addrOf s c f l).setWidth 32) 128).isSome = true)) →
      (ids = [] → tokens → spilled s2 core ≤ 4096 →
        exec (.bxShape f) s = .next (hold s2 c.pid f (.bxTurn core (shapeCmds s2 c.pid)))) ∧
      (ids ≠ [] → popped = false → waitOver s c.pid (.bxTurn core ids) = false →
        exec (.bxShape f) s = .next (hold s c.pid f (.bxTurn core ids))) ∧
      ((ids = [] ∧ ¬tokens) ∨ (ids ≠ [] ∧ (popped = true ∨ waitOver s c.pid (.bxTurn core ids) = true)) →
        ∀ recs, readRecords s1 c f sp ls 128 16 = .ok recs →
        (∀ r ∈ recs.getLast?, (∀ x ∈ recs, shapeOk (rec_ x) = true) → shapeK f < (wgAt s (wgKeyOf s c)).shapes.length →
          spilled (shapeWritten (withdrawShapes s1 c.pid) c f recs) core ≤ 4096 →
          ∃ u, exec (.bxShape f) s = .next u ∧ Past s u c f ∧
            nth (wgAt u (wgKeyOf s c)).shapes none (shapeK f) = some (rec_ r) ∧ u.m.mem = s.m.mem ∧ u.x.threads = s.x.threads ∧
            RegistersKept s u c.pid (tokenDst c f) ls ∧
            ∀ w, f = .p w → ∀ l ∈ ls, ∃ e, getVal u (threadKey c.pid l) c.depth c.n = BitVec.ofNat 64 e ∧ isFilled u e = true) ∧
        (∀ bad, bad = (recs.filter (fun r => !shapeOk (rec_ r))).map (·.1) → bad ≠ [] →
          exec (.bxShape f) s = .next (raise (withdrawShapes s1 c.pid) c f (plainTrap 0x0E bad))))) ∧
  (∀ (f : Form) (s : State) (c : Ctx) (core lo : Nat → Nat), Issues s f c → Canonical s →
      let ls := (pathMask s c.pid).lanes
      let n := fun l => chunkCount s c f l
      let st := fun l i => chunkAt s (core l) (lo l + i)
      (∀ l ∈ ls, 1 ≤ n l ∧ n l ≤ 32 ∧ chunkHome s c f l = some (core l, lo l)) →
      let full := ∀ l ∈ ls, ∀ i, i < n l → st l i ≠ .empty
      (full → ∃ u, exec (.waitChunks f) s = .next u ∧ u.m = s.m ∧ u.e = s.e ∧ Delivers s u c f (dstOf c f .i1) ls
        (fun l => if (List.range (n l)).any (fun i => st l i == .failed) = true then 1 else 0)) ∧
      (¬full → ∃ l ∈ ls, exec (.waitChunks f) s = .next (hold s c.pid f (.chunks (core l) (lo l) (n l)))) ∧
      (∃ u g, exec (.testChunks f) s = .next u ∧ u.m = s.m ∧ u.e = s.e ∧ Delivers s u c f (dstOf c f .i64) ls g ∧
        ∀ l ∈ ls, ∀ i, i < 32 → (g l).getLsbD i = (decide (i < n l) && st l i != .empty) ∧
          (g l).getLsbD (32 + i) = (decide (i < n l) && st l i == .failed)) ∧
      ((∀ l ∈ ls, lockedBy s (core l) (lo l) (n l) = false) → ∃ u, exec (.clrChunks f) s = .next u ∧ u.m = s.m ∧ Silent s u c f ∧
        (∀ l ∈ ls, ∀ i, i < n l → chunkAt u (core l) (lo l + i) = .empty) ∧
        ∀ k, (∀ l ∈ ls, ∀ i, i < n l → k ≠ core l * 512 + (lo l + i)) → u.e.chunks.getD .empty k = s.e.chunks.getD .empty k))

/-- R116, R156, R326, R421: an instruction that pops its lanes' entries waits, with nothing popped, until all of them are filled;
then each lane receives its entry's failure bit, status word or won bit, or every lane the first entry's key, die or round,
and the entries have left their queue. An entry of a carried token is provided first.
R117, R156: `tok.all` does not hold its path: each lane's token names an entry that is filled at once if every input is,
done if every input is done and with the first failed input's status otherwise, and is not filled while an input is not.
Natively `tok.all` and `tq.push` take entries from the heads of their queues, filled or not, and reserve those of DST. -/
def Obligations.TokensAreReadPoppedAndJoined : Prop :=
  (∀ (f : Form) (s : State) (c : Ctx) (xs : List (Nat × Nat)), Issues s f c → Canonical s →
      let t := carryToks s c f (popOperand f) 1
      popEntries t c f = some xs →
      let ls := (pathMask s c.pid).lanes
      let core := coreOfWarp c.warp
      let q := fun (t : State) x => qIds (pairAt t core x 1)
      let e := fun l => entryAt t (((xs.find? (fun x => x.1 == l)).map (·.2)).getD 0)
      let first := e (firstLane s c.pid)
      let all := (∀ x ∈ xs, isFilled t x.2 = true)
      let reads := fun ty (g : Nat → Word) (o : Out) =>
        (all → ∃ u, o = .next u ∧ Delivers s u c f (dstOf c f ty) ls g ∧ u.m.mem = s.m.mem ∧ u.e.entries = t.e.entries ∧
          (match f with
           | .p _ => ∀ x ∈ xs, (entryAt t x.2).cons = 1 → (q t (entryAt t x.2).prod).Nodup → x.2 ∉ q u (entryAt t x.2).prod
           | .n _ => q u (auxProducer f) = (q s (auxProducer f)).drop ls.length)) ∧
        (¬all → o = .next (hold t c.pid f (popWait c f t)))
      reads .i1 (fun l => if statusFailed (e l).status = true then 1 else 0) (exec (.waitTok f) s) ∧
      reads .i32 (fun l => (e l).status.setWidth 64) (exec (.tokStatus f) s) ∧
      (∀ w, f = .n w → reads .i32 (fun l => (e l).status.setWidth 64) (exec (.tqPop w) s)) ∧
      reads .i1 (fun l => if (e l).won = true then 1 else 0) (exec (.cpWon f) s) ∧
      reads .i64 (fun _ => first.key) (exec (.cpMax f) s) ∧
      reads .i32 (fun _ => BitVec.ofNat 64 first.die) (exec (.cpDie f) s) ∧
      reads .i32 (fun _ => first.round.setWidth 64) (exec (.cpRound f) s)) ∧
  (∀ (s : State) (c : Ctx), Canonical s → s.e.cmds.risingFrom 0 = true →
      let core := coreOfWarp c.warp
      let ls := (pathMask s c.pid).lanes
      (∀ w, Issues s (.p w) c → outsideSpan s c = [] →
        let toks := tokInputs (.p w)
        let t := carryToks s c (.p w) toks 1
        let all := takeAll t c (.p w) .tokAll [] toks
        let ids := fun l => laneEntries t c toks 1 l
        (∀ l ∈ ls, ∀ i ∈ tokVals s c toks l, i < s.c.nextId ∧ ∀ j ∈ ls, j ≠ l → i ∉ tokVals s c toks j) →
        (4096 < spilled all core → exec (.tokAll (.p w)) s = .next (raise s c (.p w) (plainTrap 0x0F ls))) ∧
        (spilled all core ≤ 4096 → ∃ u, exec (.tokAll (.p w)) s = .next u ∧ Past s u c (.p w) ∧ u.m.mem = s.m.mem ∧
          u.x.threads = s.x.threads ∧ RegistersKept s u c.pid (tokenDst c (.p w)) ls ∧
          ∀ l ∈ ls, ∃ e, getVal u (threadKey c.pid l) c.depth c.n = BitVec.ofNat 64 e ∧
            ((∀ i ∈ ids l, isFilled t i = true) → isFilled u e = true ∧ (entryAt u e).status =
              (((ids l).map (fun i => (entryAt t i).status)).find? statusFailed).getD (statusWord false 0 0)) ∧
            ((∃ i ∈ ids l, isFilled t i = false) → isFilled u e = false))) ∧
      (∀ w, Issues s (.n w) c → quotaOk s core →
        let q := fun (t : State) x y => qIds (pairAt t core x y)
        let grows := fun (u : State) => Past s u c (.n w) ∧ u.m.mem = s.m.mem ∧ u.x = s.x ∧
          ∀ y n, (y, n) ∈ pushCounts w.dst → y ≠ 1 → (q u 1 y).length = (q s 1 y).length + n * ls.length
        (outsideSpan s c = [] → ∃ u, exec (.tokAll (.n w)) s = .next u ∧ grows u) ∧
        ∃ u, exec (.tqPush w) s = .next u ∧ grows u ∧
          (auxProducer (.n w) ≠ 1 → q u (auxProducer (.n w)) 1 = (q s (auxProducer (.n w)) 1).drop ls.length)))

/-- R261: with no earlier command of its tiles in the queue and the tiles in the accumulators, `mx.read` gives each lane its
own element, or the flag word: the flags of both tiles of a pair and the step count of the first. A row or column beyond 63 is
an operand-range fault (kind 0x10) that names its lanes; an element with an uncorrectable error fails the gang (R364). -/
def Obligations.MatrixReadsDeliverElementsAndFlags : Prop :=
  ∀ (f : Form) (s : State) (c : Ctx), Issues s f c → Canonical s → modOf f < 3 →
    let core := coreOfWarp c.warp
    let ls := (pathMask s c.pid).lanes
    let n := match f with | .p w => immNat w.a % 8 | .n w => (w.aux.extractLsb' 9 3).toNat
    let wide := formTy c f == .f64
    let pair := modOf f == 2 || (modOf f == 0 && wide)
    let ts := if pair = true then [n, n + 1] else [n]
    let k := match f with | .p _ => 1 | .n _ => 0
    let row := fun l => zx 32 (src s c f k .i32 false l)
    let col := fun l => zx 32 (src s c f (k + 1) .i32 false l)
    let far := ls.filter (fun l => decide (64 ≤ row l) || decide (64 ≤ col l))
    let flag := fun t => nth (mxAt s core).flagw 0 t
    let reads := fun (t : Ty) (g : Nat → Word → Prop) => ∃ u v, exec (.mxRead f) s = .next u ∧
      Delivers s u c f (dstOf c f t) ls v ∧ u.m = s.m ∧ u.e = s.e ∧ ∀ l ∈ ls, g l (v l)
    (pathAt s c.pid).mxIds = none → (∀ i k, (i, k) ∈ s.e.cmds → k.engine = 3 → k.core = core → ∀ t ∈ mxTiles k, t ∉ ts) →
    (∀ t ∈ ts, tilePresent s core t = true) →
    (modOf f = 0 → far ≠ [] → exec (.mxRead f) s = .next (raise s c f (plainTrap 0x10 far))) ∧
    let lost := fun l => lostElem s core n wide (64 * row l + col l)
    (modOf f = 0 → far = [] → (∃ l ∈ ls, lost l = true) → exec (.mxRead f) s = .next (failGang (endIssue s) c.gang 7 0)) ∧
    (modOf f = 0 → far = [] → (∀ l ∈ ls, lost l = false) → reads (formTy c f) (fun l v => v = BitVec.ofNat 64 (accElem s core n wide (64 * row l + col l)))) ∧
    (modOf f ≠ 0 → reads .i32 (fun _ v => v.extractLsb' 32 32 = 0 ∧ v.extractLsb' 16 16 = (flag n).extractLsb' 16 16 ∧
      v.extractLsb' 0 16 = (if pair = true then (flag n ||| flag (n + 1)).extractLsb' 0 16 else (flag n).extractLsb' 0 16)))

/-! ### The plane, the ring and exchanges at issue (R277 to R280, R305, R323 to R327) -/

/-- R323: `cp.key` of an integer is its value, signed ones raised by 2^63; of a floating value it rises with the value, and a
NaN's is 0; `.min` complements every key but a NaN's. R305: bit k of `cv.split` tells whether strand k of the link's hop
carries or is retraining towards clockwise, and bit 16 + k whether it carries nothing; a retired strand reads 0 in the low
half. -/
def Obligations.KeysKeepOrderAndSplitWordsTellStrands : Prop :=
  (∀ (f : Form) (s : State) (c : Ctx), Issues s f c → Canonical s → modOf f % 4 < 3 → modOf f < 8 →
      let t := keyTy c f
      let a := fun l => src s c f 0 t (modOf f % 4 == 0) l
      let x := fun l => (fmtOf t).decode (a l).toNat
      let flip := fun (v : Word) => if modOf f / 4 = 1 then ~~~v else v
      (if modOf f % 4 = 2 then isFloat t = true else isInt t = true) →
      ∃ g, Computes s c f (dstOf c f .i64) g (exec (.cpKey f) s) ∧ ∀ l,
        (modOf f % 4 = 0 → ((flip (g l)).toNat : Int) = sx (tyWidth t) (a l) + 2 ^ 63) ∧
        (modOf f % 4 = 1 → (flip (g l)).toNat = zx (tyWidth t) (a l)) ∧
        (modOf f % 4 = 2 → ((x l).isNan = true → g l = 0) ∧ ∀ k, (x l).isNan = false → (x k).isNan = false →
          fcompare (x l) (x k) = .lt → (flip (g l)).toNat < (flip (g k)).toNat)) ∧
  (∀ (f : Form) (s : State) (c : Ctx), Issues s f c → Canonical s →
      let h := hopAt s (if modOf f % 2 = 0 then c.die else (c.die + 7) % 8)
      let dir := fun k => nth h.dirs .cw k
      let st := fun k => nth h.st .working k
      ComputesSome s c f (dstOf c f .i32) (fun _ v => v.toNat < 2 ^ 32 ∧ ∀ k, k < 16 →
        v.getLsbD k = (dir k == .cw && st k != .retired) ∧ v.getLsbD (16 + k) = (st k != .working)) (exec (.cvSplit f) s))

/-- R324, R325, R327: `cp.bid` leaves one pending bid for every active lane, with its own key and the first active lane's
identifier, or faults with kind 0x0F beyond the quota of R105; `cp.gate` sets GATE; `cp.last` gives LAST's key, die or round; each
faults with kind 0x10 on an identifier above 255 and with kind 0x16 when the context does not hold it. -/
def Obligations.PlaneInstructionsActForTheHolder : Prop :=
  ∀ (f : Form) (s : State) (c : Ctx), Issues s f c → Canonical s →
    let ls := (pathMask s c.pid).lanes
    let id := zx 32 (src s c f 0 .i32 false (firstLane s c.pid))
    let n := zx 32 (src s c f 1 .i32 false (firstLane s c.pid))
    let e := planeAt s c.die id
    let traps := fun kind o => o = Host.Outcome.next (raise s c f (addrTrap kind 0xFF (ls.map (fun l => (l, 0)))))
    let toks := match f with | .p w => w.ext.take (immNat w.c / 16) | .n _ => []
    let t := carryToks s c f toks 4
    let all := ls.foldl (fun u l => issueBid f c id t.c.nextId u l (src s c f 1 .i64 false l) (inputPops t c f toks 4 l)) (takeId t)
    let used := spilled all (coreOfWarp c.warp)
    let bids := fun (u : State) => ∃ bs, u.pl.bids = s.pl.bids ++ bs ∧ bs.length = ls.length ∧
      ∀ (j l : Nat) (b : Bid), ls[j]? = some l → bs[j]? = some b → b.ident = id ∧ b.die = c.die ∧ b.lane = l ∧ b.warp = c.warp ∧
        b.key = src s c f 1 .i64 false l ∧ b.gidx = globalIndex c l ∧ b.rel = (modOf f == 1) ∧ b.arrived = false ∧ b.frozen = false ∧
        b.group = t.c.nextId ∧ b.pops = inputPops t c f toks 4 l ∧ ∀ i ∈ b.fills, isFilled u i = false
    ls ≠ [] →
    (id ≤ 255 → e.holder = some c.ctx → outsideSpan s c = [] →
      (used ≤ 4096 → ∃ u, exec (.cpBid f) s = .next u ∧ Past s u c f ∧ bids u ∧ u.m = s.m ∧ u.x.threads = s.x.threads ∧
        RegistersKept s u c.pid (tokenDst c f) ls) ∧
      (4096 < used → exec (.cpBid f) s = .next (raise s c f (plainTrap 0x0F ls))) ∧
      (∀ w, f = .n w → quotaOk s (coreOfWarp c.warp) → used ≤ 4096)) ∧
    (id ≤ 255 → e.holder = some c.ctx → n ≤ 65535 → ∃ u, exec (.cpGate f) s = .next u ∧ Silent s u c f ∧ u.m = s.m ∧ u.e = s.e ∧
      planeAt u c.die id = { e with gate := BitVec.ofNat 16 n } ∧
      ∀ k, k ≠ c.die * 256 + id → u.pl.table.getD planeZero k = s.pl.table.getD planeZero k) ∧
    (id ≤ 255 → e.holder = some c.ctx → ∃ u, exec (.cpLast f) s = .next u ∧ RestKept s u ∧
      Delivers s u c f (dstOf c f (if modOf f = 0 then .i64 else .i32)) ls (fun _ =>
        if modOf f = 0 then e.lastKey else if modOf f = 1 then BitVec.ofNat 64 e.lastDie else e.lastRound.setWidth 64)) ∧
    (255 < id → traps 0x10 (exec (.cpLast f) s) ∧ traps 0x10 (exec (.cpGate f) s) ∧ (outsideSpan s c = [] → traps 0x10 (exec (.cpBid f) s))) ∧
    (id ≤ 255 → e.holder ≠ some c.ctx → traps 0x16 (exec (.cpLast f) s) ∧
      (n ≤ 65535 → traps 0x16 (exec (.cpGate f) s)) ∧ (outsideSpan s c = [] → traps 0x16 (exec (.cpBid f) s)))

/-- R277 to R279: a swap waits in its die's exchange; the first swap that an older one of its die, context, identifier and warp
number from another cluster meets pairs with the oldest such one, and each takes the other's values; a paired swap goes on with
the partner lane's value and bit 32 set, or its own value where the partner had no such lane. R342, R349: `yield` changes nothing
but the path's age for the next selection; an exchange gives the table entry of the path that has held one longest, of the waiting
ones where there are any, to the oldest pending path, which counts as ready from then on. -/
def Obligations.SwapsExchangeAndYieldsReorder : Prop :=
  (∀ (s : State), Canonical s →
      (∀ f c, Issues s f c →
        let ls := (pathMask s c.pid).lanes
        let id := zx 32 (src s c f 1 .i32 false (firstLane s c.pid))
        (∀ x, s.e.swaps.find? (fun y => y.pid == c.pid) = some x → ∀ got, x.got = some got → ∃ u, exec (.xcSwap f) s = .next u ∧
          u.m = s.m ∧ (∀ y ∈ u.e.swaps, y.pid ≠ c.pid) ∧ Delivers s u c f (dstOf c f .i64) ls (fun l =>
            match got.find? (fun p => p.1 == l) with
            | some p => lowBits 32 p.2 + 0x100000000#64
            | none => lowBits 32 (((x.vals.find? (fun p => p.1 == l)).map (·.2)).getD 0))) ∧
        (s.e.swaps.find? (fun y => y.pid == c.pid) = none → id ≤ 255 → ∃ u x, exec (.xcSwap f) s = .next (enqueue (hold u c.pid f .partner)
            (.swapPaired c.die)) ∧ u = { s with e := { s.e with swaps := s.e.swaps ++ [x] } } ∧ x.pid = c.pid ∧ x.ident = id ∧ x.got = none ∧
            x.vals = ls.map (fun l => (l, src s c f 0 (opndTy c f 0 .i32) false l))) ∧
        (s.e.swaps.find? (fun y => y.pid == c.pid) = none → 255 < id → exec (.xcSwap f) s = .next (raise s c f (plainTrap 0x10 ls)))) ∧
      ∀ (die : Nat) (a b : Swap) (pre mid post : List Swap), s.e.swaps = pre ++ a :: (mid ++ b :: post) →
        (s.e.swaps.map (·.pid)).Nodup → b.die = die → swapsMeet a b = true → (∀ y ∈ pre, swapsMeet y b = false) →
        (pre ++ a :: mid).Pairwise (fun y x => x.die = die → swapsMeet y x = false) →
        exec (.swapPaired die) s = .next { s with e := { s.e with
          swaps := pre ++ { a with got := some b.vals } :: (mid ++ { b with got := some a.vals } :: post) } }) ∧
  ((∀ (f : Form) (s : State) (c : Ctx), Issues s f c → Canonical s → ∃ u, exec (.yield f) s = .next u ∧ Silent s u c f ∧ RestKept s u ∧
      (pathAt u c.pid).youngest = true ∧ (pathAt u c.pid).mask = (pathAt s c.pid).mask) ∧
    ∀ (s : State) (w o p : Nat) (q r : Path), Canonical s → (o, q) ∈ pathsOf s w → (p, r) ∈ pathsOf s w →
      let held := fun (x : Path) => x.slotIx.isSome = true ∧ x.focus = false
      let idle := fun (x : Nat × Path) => isReady s x.1 x.2 = false
      held q → (∀ x ∈ pathsOf s w, held x.2 → (idle x ↔ idle (o, q)) → x.1 ≠ o → q.seq < x.2.seq) →
      (idle (o, q) ∨ ∀ x ∈ pathsOf s w, held x.2 → ¬idle x) →
      r.slotIx = none → r.parked = false →
      (∀ x ∈ pathsOf s w, x.2.slotIx = none → x.2.parked = false → x.1 ≠ p → r.seq < x.2.seq) →
      ∃ u, exec (.pathExchange w) s = .next u ∧ u.m = s.m ∧ u.e = s.e ∧ u.x.threads = s.x.threads ∧
        pathAt u o = { q with slotIx := none, seq := (pathAt u o).seq } ∧
        pathAt u p = { r with slotIx := q.slotIx, seq := (pathAt u p).seq, readyAt := s.c.cycle } ∧ (pathAt u o).seq < (pathAt u p).seq ∧
        ∀ k, k ≠ o → k ≠ p → u.x.paths.find? k = s.x.paths.find? k)

/-! ### Barriers and paths (R339 to R349) -/

/-- R343 to R347: when every active lane names one unlocked word, `bar.join`, `bar.leave` and `bar.arrive` change its member
and arrival counts by the number of lanes in one operation at its bank; an arrival that completes the membership empties the
arrivals and advances the phase; each lane of `bar.arrive` receives the phase before. -/
def Obligations.BarrierWordsCountTheirMembers : Prop :=
  ∀ (f : Form) (s : State) (c : Ctx) (a : BitVec 32) (core pa : Nat), Issues s f c → Canonical s →
    let ls := (pathMask s c.pid).lanes
    let k := ls.length
    let w := scrRead s core pa 8
    let word := fun (u : State) => scrRead u core pa 8
    let bars := fun (u : State) l => (threadAt u (threadKey c.pid l)).bars
    let mine := fun l => (bars s l).find? (fun b => b.word == a)
    let fieldsOf := fun (u : State) d ph mem arr => barDef (word u) = d ∧ barPh (word u) = ph ∧ barMem (word u) = mem ∧ barArr (word u) = arr
    let kept := fun (u : State) => Past s u c f ∧ u.m = s.m ∧ RegistersKept s u c.pid .none [] ∧
      ∀ q, (q < core * 2 ^ 18 + pa ∨ core * 2 ^ 18 + pa + 8 ≤ q) → u.e.scr.getD 0 q = s.e.scr.getD 0 q
    let ph1 := (barPh w + 1) % 65536
    k ≠ 0 → (∀ l ∈ ls, (src s c f 0 .ptrS false l).setWidth 32 = a) → a.toNat % 8 = 0 → scrHome s c.gang a 8 = some (core, pa) →
    lockedBy s core (pa / 512) 1 = false → barMem w + k < 65536 → barArr w + k < 65536 →
    ((∀ l ∈ ls, mine l = none ∧ (bars s l).length < 8) → ∃ u, exec (.barJoin f) s = .next u ∧ kept u ∧
      fieldsOf u (barDef w) (barPh w) (barMem w + k) (barArr w) ∧ ∀ l ∈ ls, bars u l = bars s l ++ [{ word := a, arr := none }]) ∧
    ((∀ l ∈ ls, ∃ b, mine l = some b ∧ b.arr = none) → k ≤ barMem w → barArr w < barMem w - k → ∃ u, exec (.barLeave f) s = .next u ∧ kept u ∧
      fieldsOf u (barDef w) (barPh w) (barMem w - k) (barArr w) ∧ ∀ l ∈ ls, ∀ b ∈ bars u l, b.word ≠ a) ∧
    ((∀ l ∈ ls, ∃ b, mine l = some b ∧ b.arr ≠ some (BitVec.ofNat 16 (barPh w))) → (warpAt s c.warp).inflight = [] →
      ∃ u, exec (.barArrive f) s = .next u ∧ Past s u c f ∧ u.m = s.m ∧
        RegistersKept s u c.pid (dstOf c f .i32) ls ∧ Results u c.pid (dstOf c f .i32) ls (fun _ => BitVec.ofNat 64 (barPh w)) ∧
        (if 0 < barMem w ∧ barMem w ≤ barArr w + k then fieldsOf u (barDef w) ph1 (barMem w) 0
         else fieldsOf u (barDef w) (barPh w) (barMem w) (barArr w + k)) ∧
        ∀ l ∈ ls, ∃ b ∈ bars u l, b.word = a ∧ b.arr = some (BitVec.ofNat 16 (barPh w)))

/-- R346, R347: each lane waits at its own word. `bar.wait` goes on when every lane's word has left the phase in B or has DEF set,
with DEF as the lane's result, and waits otherwise; `bar.sync` arrives and goes on at once when its own lanes complete the phase
of their word, and later when every word has left the phase of the arrival or has DEF set; lanes at a misaligned word take an
alignment fault. A path that waits becomes ready, and no other changes, when every word it names has left its phase. -/
def Obligations.BarrierWaitsEndWithThePhase : Prop :=
  (∀ (f : Form) (s : State) (c : Ctx) (core pa : Nat → Nat), Issues s f c → Canonical s →
    let ls := (pathMask s c.pid).lanes
    let a := fun l => (src s c f 0 .ptrS false l).setWidth 32
    let w := fun l => scrRead s (core l) (pa l) 8
    let d := fun l => if barDef (w l) = true then (1 : Word) else 0
    let ph := fun l => (src s c f 1 .i32 false l).setWidth 16
    let slot := fun l => (threadAt s (threadKey c.pid l)).bars.find? (fun b => b.word == a l)
    let fresh := (pathAt s c.pid).syncWait = false ∧ (warpAt s c.warp).inflight = []
    let off := ls.filter (fun l => (a l).toNat % 8 != 0)
    let faults := fun o => o = Host.Outcome.next (raise s c f (addrTrap 5 2 (off.map (fun l => (l, (a l).setWidth 64)))))
    let goesOn := fun (o : Out) => ∃ u, o = .next u ∧ u.m = s.m ∧ u.e = s.e ∧ Delivers s u c f (dstOf c f .i1) ls d ∧
      (pathAt u c.pid).syncWait = false
    (off ≠ [] → faults (exec (.barWait f) s) ∧ (fresh → faults (exec (.barSync f) s))) ∧
    (off = [] → (∀ l ∈ ls, scrHome s c.gang (a l) 8 = some (core l, pa l) ∧ lockedBy s (core l) (pa l / 512) 1 = false) →
      ((∀ l ∈ ls, barDef (w l) = true ∨ barPh (w l) ≠ (ph l).toNat) → goesOn (exec (.barWait f) s)) ∧
      ((∃ l ∈ ls, barDef (w l) = false ∧ barPh (w l) = (ph l).toNat) →
        exec (.barWait f) s = .next (hold s c.pid f (.barrier (ls.map (fun l => (core l, pa l, ph l)))))) ∧
      ((pathAt s c.pid).syncWait = true → (∀ l ∈ ls, ∃ b p, slot l = some b ∧ b.arr = some p ∧
        (barDef (w l) = true ∨ barPh (w l) ≠ p.toNat)) → goesOn (exec (.barSync f) s)) ∧
      (fresh → ∀ l0 ∈ ls, (∀ l ∈ ls, core l = core l0 ∧ pa l = pa l0) →
        (∀ l ∈ ls, ∃ b, slot l = some b ∧ b.arr ≠ some (BitVec.ofNat 16 (barPh (w l)))) →
        0 < barMem (w l0) → barMem (w l0) ≤ barArr (w l0) + ls.length → barArr (w l0) + ls.length < 65536 →
        ∃ u, exec (.barSync f) s = .next u ∧ u.m = s.m ∧ Past s u c f ∧ Results u c.pid (dstOf c f .i1) ls d ∧
          RegistersKept s u c.pid (dstOf c f .i1) ls ∧ ∀ v, v = scrRead u (core l0) (pa l0) 8 →
            barPh v = (barPh (w l0) + 1) % 65536 ∧ barArr v = 0 ∧ barMem v = barMem (w l0) ∧ barDef v = barDef (w l0)))) ∧
  ∀ (s : State) (core pa : Nat), Canonical s →
    let done_ := fun (q : Path) => ∃ ws, q.wait = some (.barrier ws) ∧ (core, pa) ∈ ws.map (fun x => (x.1, x.2.1)) ∧
      ∀ x ∈ ws, barPh (scrRead s x.1 x.2.1 8) ≠ x.2.2.toNat ∨ barDef (scrRead s x.1 x.2.1 8) = true
    ∃ u, exec (.barrierRelease core pa) s = .next u ∧ u.m = s.m ∧ u.e = s.e ∧ u.x.threads = s.x.threads ∧
      (∀ p q, s.x.paths.find? p = some q → done_ q → u.x.paths.find? p = some { q with wait := none, readyAt := s.c.cycle }) ∧
      ∀ p, (∀ q, s.x.paths.find? p = some q → ¬done_ q) → u.x.paths.find? p = s.x.paths.find? p

/-! ### Debugger instructions and native operations (R60, R149 to R157, R381 to R389, R401) -/

/-- R381, R382, R388, R389, R401: `brk` passes on, but in a gang that a debugger acts on it stops the gang behind it and reports
it, once its paths have completed what they had begun; `dbg.mark` changes nothing that a program reads, and a die without a ring
counts it as dropped; `rdclk` and `rdcnt` give the die's cycles, the package time and the counters; `sys` waits for earlier
accesses and gives the descriptor, the power or its report's fate, and its codes from 3 on are operand-range faults (kind 0x10).
-/
def Obligations.DebuggerInstructionsObserveAndReport : Prop :=
  ∀ (f : Form) (s : State) (c : Ctx), Issues s f c → Canonical s →
    let ls := (pathMask s c.pid).lanes
    let core := coreOfWarp c.warp
    let code := match f with | .p w => immNat w.a | .n w => w.aux.toNat % 2048
    let cnt := match f with | .p w => immNat w.a | .n w => w.aux.toNat % 64
    let mine := fun p => (s.x.paths.find? p).isSome = true ∧ (warpAt s (p / 64)).gang = c.gang
    let fc := match s.pl.dieFc.find? c.die with | some v => v.toNat | none => s.pl.fc.toNat
    let gives := fun (v : Word) (o : Out) => ∃ u, o = .next u ∧ Delivers s u c f (dstOf c f .i64) ls (fun _ => v)
    (debugged s c.gang = false → ∃ u, exec (.brk f) s = .next u ∧ Silent s u c f ∧ RestKept s u) ∧
    (debugged s c.gang = true → ∃ u, exec (.brk f) s = .next u ∧ Past s u c f ∧ u.m = s.m ∧ u.x.vals = s.x.vals ∧
      (∀ p, mine p → (pathAt u p).held = true) ∧
      ((∀ p, mine p → midBundle u p = false) → ∃ rs, u.h.out = s.h.out ++ [.stop c.ctx rs []] ∧ u.d.stops = s.d.stops) ∧
      ((∃ p, mine p ∧ midBundle u p = true) → u.h.out = s.h.out ∧ ∃ r, u.d.stops = s.d.stops ++ [r] ∧ r.ctx = c.ctx ∧ r.hits = [] ∧
        ∀ p, mine p → p ∈ r.pids)) ∧
    (∃ u, exec (.dbgMark f) s = .next u ∧ Silent s u c f ∧ u.e = s.e ∧
      ((dieAt s c.die).mfRing = none → (dieAt u c.die).mfDrop = (dieAt s c.die).mfDrop + 1 ∧ u.m = s.m)) ∧
    (modOf f = 0 → gives (BitVec.ofNat 64 (s.c.cycle - (dieAt s c.die).bornAt)) (exec (.rdclk f) s)) ∧
    (modOf f ≠ 0 → ∃ v, gives v (exec (.rdclk f) s) ∧ v.toNat / 128 = fc % 2 ^ 57 ∧ v.toNat % 128 ≤ 74) ∧
    gives (BitVec.ofNat 64 (if cnt < 32 then s.d.cnt.getD 0 (core * 64 + cnt) else s.d.ccnt.getD 0 (clusterOf core * 64 + cnt)))
      (exec (.rdcnt f) s) ∧
    (3 ≤ code → exec (.sys f) s = .next (raise s c f (plainTrap 0x10 ls))) ∧
    (code < 3 → (warpAt s c.warp).inflight ≠ [] → exec (.sys f) s = .next (hold s c.pid f .drained)) ∧
    ((warpAt s c.warp).inflight = [] →
      (code = 0 → ∃ v, gives v (exec (.sys f) s) ∧ (v.extractLsb' 56 4).toNat = c.die % 16 ∧
        (v.extractLsb' 52 4).toNat = Config.dieKind c.die ∧ (v.extractLsb' 40 8).toNat = Config.lanes c.die) ∧
      (code = 1 → gives (BitVec.ofNat 64 (dieAt s c.die).sensors.watts) (exec (.sys f) s)) ∧
      (code = 2 → ∃ v, gives v (exec (.sys f) s) ∧ (v = 0 ∨ v = 1)))

/-- R60, R154, R361: the native movers. `vmov`, `smov`, `v2s` and `s2v` move lanes, literals and bits; `pset` and `pclr` write one
bit of a scalar register; `spill` and `fill` store and load a lane's words in its slots, a slot outside the stack area
being a scratch address fault (kind 0x0C, space 3); `entry` takes a lane's words from a record; `bnop` does nothing. -/
def Obligations.NativeMoversMoveLanesAndBits : Prop :=
  ∀ (w : NForm) (s : State) (c : Ctx), Issues s (.n w) c → Canonical s →
    let ls := (pathMask s c.pid).lanes
    let t := formTy c (.n w)
    let d := dstOf c (.n w) t
    let l0 := firstLane s c.pid
    let core := coreOfWarp c.warp
    let v := fun l => nativeVal s c l w.sa.toNat t
    let gives := fun d ls (g : Nat → Word) (o : Out) => ∃ u, o = .next u ∧ RestKept s u ∧ Delivers s u c (.n w) d ls g
    let r := w.dst.toNat - 1536
    let b := w.aux.toNat % 64
    let bit := fun (x : Word) (o : Out) => ∃ u, o = .next u ∧ RestKept s u ∧ Delivers s u c (.n w) (.sbit r b) [l0] (fun _ => x) ∧
      ∀ i, i ≠ b → (getSreg u c.pid r).getLsbD i = (getSreg s c.pid r).getLsbD i
    let n := if w.ntype = 4 then 2 else 1
    let pa := fun j l => spillPa s c w (w.aux.toNat + j) l
    let inArea := ∀ l ∈ ls, ∀ j, j < n → inStackArea s c.warp (pa j l) 4 = true
    let word := fun (u : State) j l => scrRead u core (pa j l) 4
    gives d ls v (exec (.vmov w) s) ∧
    gives d [l0] (fun _ => if w.md = 0 then v l0 else literalAt s c.pid w.aux.toNat) (exec (.smov w) s) ∧
    (w.md = 0 → gives d [l0] (fun _ => v l0) (exec (.v2s w) s)) ∧
    (w.md ≠ 0 → ∃ x, gives d [l0] (fun _ => x) (exec (.v2s w) s) ∧
      BitsAre 64 x (fun l => (pathMask s c.pid).getLsbD l && (nativeVal s c l w.sa.toNat .i1).getLsbD 0)) ∧
    gives (dstOf c (.n w) .i32) ls (fun l => if (nativeVal s c l0 w.sa.toNat .i64).getLsbD l = true then 1 else 0) (exec (.s2v w) s) ∧
    bit (if w.sa = 2047 then 1 else nativeVal s c l0 w.sa.toNat .i1) (exec (.pset w) s) ∧ bit 0 (exec (.pclr w) s) ∧
    exec (.bnop w) s = .next s ∧
    (inArea → (∀ l ∈ ls, l < Config.lanes c.die) → ∃ u, exec (.spill w) s = .next u ∧ Silent s u c (.n w) ∧ u.m = s.m ∧
      (∀ l ∈ ls, ∀ j, j < n → word u j l = (v l).toNat / 2 ^ (32 * j) % 2 ^ 32) ∧
      ∀ k, (∀ l ∈ ls, ∀ j, j < n → ∀ i, i < 4 → k ≠ core * 2 ^ 18 + (pa j l + i)) → u.e.scr.getD 0 k = s.e.scr.getD 0 k) ∧
    (inArea → gives d ls (fun l => BitVec.ofNat 64 (word s 0 l + if n = 2 then 2 ^ 32 * word s 1 l else 0)) (exec (.fill w) s)) ∧
    (∀ bad, bad = ls.filter (fun l => !(List.range n).all (fun j => inStackArea s c.warp (pa j l) 4)) → bad ≠ [] →
      let tr := Host.Outcome.next (raise s c (.n w) (addrTrap 0x0C 3 (bad.map (fun l => (l, BitVec.ofNat 64 (pa 0 l))))))
      exec (.spill w) s = tr ∧ exec (.fill w) s = tr) ∧
    (∀ home : Nat → Nat → Nat, (∀ l ∈ ls, ∀ j, j < n → ∃ o, entryChk s c (nativeVal s c l0 w.sa.toNat .i64 +
        BitVec.ofNat 64 ((w.aux.toNat + j) * (Config.lanes c.die * 4) + l * 4)) 4 = .loc (.mem (home j l) o) ∧
          s.m.lines.find? (lineKey (clusterOf core) (home j l)) = none) →
      gives d ls (fun l => BitVec.ofNat 64 (readMem s (home 0 l) 4 + if n = 2 then 2 ^ 32 * readMem s (home 1 l) 4 else 0)) (exec (.entry w) s))

/-- R155 to R158: native control. `path.split` has its bundle split, move whole or fall through; `path.join` waits at its join and
passes elsewhere; `wait.cnt` passes once its counters have fallen; `jmp`, `call` and `ret` move the path to the named bundle of
a translation that its cluster holds, calls pushing a frame and a link once their turn has come (R149), or faulting: a translation
limit (kind 0x14) where the callee's translation is too long, a call fault (kind 0x12) where it may not be called; returns drop
them with the return mask in s0; `frame.enter` writes a header in every lane and takes its frame, and `frame.leave` restores the
caller's registers. -/
def Obligations.NativeControlMovesThePath : Prop :=
  ∀ (w : NForm) (s : State) (c : Ctx) (i : Issue) (key : TKey) (ix : Nat), Issues s (.n w) c → Canonical s →
    s.c.issue = some i → (pathAt s c.pid).pc = .bundle key ix →
    let q := pathAt s c.pid
    let ls := q.mask.lanes
    let l0 := firstLane s c.pid
    let t := w.dst.toNat * 2048 + w.sc.toNat
    let j := w.sb.toNat * 2048 + w.aux.toNat % 2048
    let taken := fun l => q.mask.getLsbD l && (nativeVal s c l w.sa.toNat .i1).getLsbD 0
    let held := fun k => (imageAt s (clusterOf (coreOfWarp c.warp)) k).isSome = true
    let s124 := readSreg s c.pid 124
    let s125 := readSreg s c.pid 125
    let s127 := readSreg s c.pid 127
    let goes := fun (o : Out) (pc : Pc) => ∃ u, o = .next u ∧ u.c.issue = some { i with target := some pc } ∧ u.m = s.m ∧ u.e = s.e
    let hdr := getHeader s c.warp l0 s127.toNat
    ((∃ l, taken l = true) → ∃ m, exec (.pathSplit w) s =
        .next { s with c := { s.c with issue := some { i with fork := some (m, .bundle key t, .bundle key j) } } } ∧
      ∀ l, m.getLsbD l = taken l) ∧
    ((∀ l, taken l = false) → exec (.pathSplit w) s = .next s) ∧
    (∀ m tgt jn before im b, i.trap = none → i.ended = false → i.fork = some (m, tgt, jn) →
      let u := endBundle before s c.pid im ix b
      let p := freePath s c.warp
      u.c.issue = none ∧ u.m = s.m ∧ (pathAt u c.pid).pc = tgt ∧ (pathAt u c.pid).mask = m ∧
        (m = q.mask → (pathAt u c.pid).split = q.split ∧ u.x.splits = s.x.splits) ∧
        (m ≠ q.mask → s.x.paths.find? p = none → (pathAt u c.pid).split = some s.c.nextId ∧
          (pathAt u p).pc = .bundle im.key (ix + 1) ∧ (pathAt u p).mask = q.mask &&& ~~~m ∧ (pathAt u p).split = some s.c.nextId ∧
          u.x.splits.find? s.c.nextId = some { warp := c.warp, parent := q.split, depth := c.depth, join := jn })) ∧
    (atJoin s q = true → exec (.pathJoin w) s = .next (hold s c.pid (.n w) .join)) ∧
    (atJoin s q = false → exec (.pathJoin w) s = .next s) ∧
    (countersAt (warpAt s c.warp) w.md w.aux.toNat = true → exec (.waitCnt w) s = .next s) ∧
    (countersAt (warpAt s c.warp) w.md w.aux.toNat = false → exec (.waitCnt w) s = .next (hold s c.pid (.n w) (.counters w.md w.aux.toNat))) ∧
    (w.md = 0 → goes (exec (.jmp w) s) (.bundle key t)) ∧
    (w.md = 1 → goes (exec (.jmp w) s) (.bundle key (t + min (zx 32 (nativeVal s c l0 w.sa.toNat .i32)) w.aux.toNat))) ∧
    (w.md = 2 → held (baseKey key) → goes (exec (.jmp w) s) (.bundle (baseKey key) t)) ∧
    (∀ fn, fn = (if w.md = 0 then w.aux.toNat else zx 32 (nativeVal s c l0 w.sa.toNat .i32)) →
      (fn < c.module.funcs.length → (funcAt c.module fn).fflags.getLsbD 2 = false →
        (¬held (calleeKey s c.gang fn) → tooLong c.module (calleeKey s c.gang fn) = true →
          exec (.ncall w) s = .next (raise s c (.n w) (plainTrap 0x14 ls))) ∧
        (held (calleeKey s c.gang fn) → callHeld s c.pid = true → exec (.ncall w) s = .next (hold s c.pid (.n w) .callTurn)) ∧
        (held (calleeKey s c.gang fn) → callHeld s c.pid = false → goes (exec (.ncall w) s) (.bundle (calleeKey s c.gang fn) 0) ∧
          ∀ u, exec (.ncall w) s = .next u → (pathAt u c.pid).s127 = s127 + s124 ∧ (pathAt u c.pid).frames.tail = q.frames ∧
            (pathAt u c.pid).s125 = linkOf (VPC.fn (trapVpc s c (.n w))) (ix + 1) ∧
            (pathAt u c.pid).frames.head?.map (fun x => (x.fn, x.callVpc)) = some (fn, trapVpc s c (.n w)))) ∧
      (c.module.funcs.length ≤ fn ∨ (funcAt c.module fn).fflags.getLsbD 2 = true →
        exec (.ncall w) s = .next (raise s c (.n w) (plainTrap 0x12 ls)))) ∧
    (s125 = rootLink → exec (.nret w) s = .next { s with c := { s.c with issue := some { i with ended := true } } }) ∧
    (s125 ≠ rootLink → held (calleeKey s c.gang (linkFn s125)) →
      goes (exec (.nret w) s) (.bundle (calleeKey s c.gang (linkFn s125)) (linkBx s125)) ∧
      ∀ u, exec (.nret w) s = .next u → (pathAt u c.pid).frames = q.frames.tail ∧ (pathAt u c.pid).s125 = hdr.1 ∧
        getSreg u c.pid 0 = q.mask) ∧
    (∃ u, exec (.frameLeave w) s = .next u ∧ (pathAt u c.pid).s127 = hdr.2.1 ∧ (pathAt u c.pid).s124 = hdr.2.2 ∧
      (pathAt u c.pid).s125 = q.s125 ∧ u.x.vregs = s.x.vregs ∧ u.m = s.m ∧ u.e = s.e ∧ u.c = s.c) ∧
    (s127.toNat + (16 + 4 * w.aux.toNat) ≤ stackSize s c.warp → s127.toNat % 4 = 0 → (∀ l ∈ ls, l < Config.lanes (dieOfCore (coreOfWarp c.warp))) →
      ∃ u, exec (.frameEnter w) s = .next u ∧ u.c = s.c ∧ u.m = s.m ∧ (pathAt u c.pid).s124 = BitVec.ofNat 64 (16 + 4 * w.aux.toNat) ∧
        (pathAt u c.pid).s127 = q.s127 ∧
        (pathAt u c.pid).s126 = BitVec.ofNat 64 (physStack s c.warp (s127.toNat + 16)) ∧
        ∀ l ∈ ls, (getHeader u c.warp l s127.toNat).1 = s125 ∧
          (getHeader u c.warp l s127.toNat).2.1.toNat = (s127 - s124).toNat % 2 ^ 32 ∧
          (getHeader u c.warp l s127.toNat).2.2.toNat = s124.toNat % 2 ^ 32) ∧
    (stackSize s c.warp < s127.toNat + (16 + 4 * w.aux.toNat) → ∃ u, exec (.frameEnter w) s = .next u ∧ u.m = s.m ∧ u.e = s.e ∧
      (u.c.issue.bind (·.trap)).map (·.kind) = some 0x13)

/-! ### Issue and translation (R62, R162 to R164, R339, R340) -/

/-- R339, R340: of a core's ready paths that it has not tried in this cycle the oldest issues that has waited 256 cycles, else the
oldest of the highest class; its wait is over, and nothing that a program reads has changed; a core without a ready path, or
throttled (R399), issues nothing. R62, R158, R163: a path that enters a key without a translation waits for it, joining the miss
for that key if there is one; when the translation is ready it stands in a free run of the cluster's cache and the paths that
wait for it go on, but where it is too long their gangs fail; the image of an illegal bundle is replaced once, by the store's
copy if that differs there, and its user stands at its virtual PC until it is. -/
def Obligations.PathsIssueByAgeAndWaitForTranslations : Prop :=
  (∀ (s : State) (core : Nat), Canonical s → s.c.issue = none →
     let s1 := settleWaits s core
     let ready := fun p => p ∉ s.c.tried ∧ ∃ q, s1.x.paths.find? p = some q ∧ p / 1024 = core ∧ isReady s1 p q = true
     let age := fun p => pathAge s1 (pathAt s1 p)
     let kept := fun (u : State) => u.m.mem = s.m.mem ∧ u.e.scr = s.e.scr ∧ u.x.vals = s.x.vals ∧ u.x.threads = s.x.threads
     (throttled s core = false → ∀ p, ready p → ∃ u o, exec (.issueSelect core) s = .next u ∧ u.c.issue.map (·.pid) = some o ∧
       ready o ∧ (pathAt u o).wait = none ∧ kept u ∧
       (257 ≤ age p → age p ≤ age o) ∧
       (age o < 257 → pathClass s1 p ≤ pathClass s1 o ∧ (pathClass s1 p = pathClass s1 o → age p ≤ age o))) ∧
     ((throttled s core = true ∨ ∀ p, ¬ready p) → ∃ u, exec (.issueSelect core) s = .next u ∧ u.c.issue = none ∧ kept u)) ∧
  ∀ (s : State) (key : TKey), Canonical s → s.h.clusters.risingFrom 0 = true →
    (∀ pid q, s.x.paths.find? pid = some q →
      let cl := clusterOf (coreOfPath pid)
      let misses := fun (u : State) => (clusterAt u cl).misses.filter (fun m => m.key == key)
      (imageAt s cl key = none → ∃ u, exec (.translationMiss pid key) s = .next u ∧ (pathAt u pid).wait = some (.miss key) ∧ u.m = s.m ∧
        (misses s = [] → (misses u).map (·.waiters) = [[pid]]) ∧
        (misses s ≠ [] → (misses u).map (·.waiters) = (misses s).map (fun m => m.waiters ++ [pid]))) ∧
      ((imageAt s cl key).isSome = true → ∃ u, exec (.translationMiss pid key) s = .next u ∧ (pathAt u pid).wait = none ∧ u.m = s.m)) ∧
    (∀ cl m, (clusterAt s cl).misses.find? (fun x => x.key == key) = some m →
      let copy := storeImage s (cl / 4) key
      let made := copy.getD (translateImage (keyModule s (cl / 4) key) key)
      let done_ := fun (u : State) => (clusterAt u cl).misses.find? (fun x => x.key == key) = none ∧ u.m = s.m ∧ u.x.vals = s.x.vals
      (copy = none → tooLong (keyModule s (cl / 4) key) key = true → ∃ u, exec (.translationReady cl key) s = .next u ∧ done_ u ∧
        ∀ p ∈ m.waiters, (gangAt u (warpAt s (warpOfPath p)).gang).state = .failing ∨
          (gangAt u (warpAt s (warpOfPath p)).gang).state = .retired) ∧
      (∀ a, copy.isSome = true ∨ tooLong (keyModule s (cl / 4) key) key = false →
        findLines (clusterAt s cl).cache (imgLines made) = some a →
        ∃ u, exec (.translationReady cl key) s = .next u ∧ done_ u ∧ imageAt u cl key = some { made with line := a } ∧
          ∀ p ∈ m.waiters, (pathAt s p).wait = some (.miss key) → (pathAt u p).wait = none)) ∧
    ∀ cl t pid ix due a r, imageAt s cl key = some t → key ∉ (clusterAt s cl).failedKeys →
      s.x.paths.filter (fun p => clusterOf (p.1 / 1024) == cl && pathKey s p.1 == key) = [(pid, pathAt s pid)] →
      (pathAt s pid).pc = .bundle key ix → (pathAt s pid).wait = some (.repair ix due) → (pathAt s pid).frames = [] →
      t.points.find? (fun x => x.bidx == ix && x.kind == 0) = some r → r.locs = [] →
      let copy := (storeImage s (cl / 4) key).filter (fun x =>
        bundleLegal x ix && (!bundleLegal t ix || x.bundles[ix]? != t.bundles[ix]?))
      let made := copy.getD (translateImage (keyModule s (cl / 4) key) key)
      findLines ((clusterAt s cl).cache.filter (fun x => x.key != key)) (imgLines made) = some a →
      ∃ u d, exec (.illegalBundleRepair cl key) s = .next u ∧ imageAt u cl key = some { made with line := a } ∧
        key ∈ (clusterAt u cl).failedKeys ∧ (pathAt u pid).pc = .word r.vpc ∧ (pathAt u pid).wait = some (.repair ix d) ∧
        s.c.cycle + 180 ≤ d ∧ u.m = s.m ∧ u.x.vals = s.x.vals

/-! ### Faults and moves (R78, R86 to R89, R104, R362) -/

/-- R78, R86, R88, R89, R104, R362: a walk that ends in a leaf fills the TLB; its paths replay, and its commands hold the page.
One that ends in a fault queues it, or joins the entry for its page, and the paths wait for that entry; the commands note it and
park. The free walker takes the oldest miss of the next cluster in turn. A translation fault whose page is mapped now leaves the
queue and its waiters replay; of a failed one the threads will trap and the commands go on with the page failed. A federated fault
waits for the spine links, then first moves the gangs that can move, each halted with the owner as its target; otherwise a peer
leaf serves the waiters, or, without an export, they fail. -/
def Obligations.QueuedFaultsAreResolvedOrFailed : Prop :=
  ∀ (die n : Nat) (s : State), s.m.faults.risingFrom 0 = true → s.m.walks.risingFrom 0 = true →
    let paths := fun (ws : List Waiter) (ok : Nat → Path → Prop) => ∀ p q, Waiter.path p ∈ ws → s.x.paths.find? p = some q → ok p q
    let cmds := fun (ws : List Waiter) (ok : Nat → Cmd → Prop) => ∀ i k, Waiter.cmd i ∈ ws → s.e.cmds.find? i = some k → ok i k
    let kept := fun (u : State) (ws : List Waiter) => u.x.vals = s.x.vals ∧ u.x.threads = s.x.threads ∧ u.x.gangs = s.x.gangs ∧
      (∀ p, Waiter.path p ∉ ws → u.x.paths.find? p = s.x.paths.find? p) ∧
      ∀ i, Waiter.cmd i ∉ ws → u.e.cmds.find? i = s.e.cmds.find? i
    let served := fun (u : State) (ws : List Waiter) => u.m.faults.find? n = none ∧ kept u ws ∧
      paths ws (fun p q => (pathAt u p).wait = none ∧ (pathAt u p).noFix = q.noFix ∧ (pathAt u p).pc = q.pc) ∧
      cmds ws (fun i k => u.e.cmds.find? i = some { k with parked := none })
    let failed := fun (u : State) (f : QFault) => u.m.faults.find? n = none ∧ kept u f.waiters ∧
      paths f.waiters (fun p q => (pathAt u p).wait = none ∧ (pathAt u p).noFix = true ∧ (pathAt u p).pc = q.pc) ∧
      cmds f.waiters (fun i _ => ∃ k, u.e.cmds.find? i = some k ∧ k.parked = none ∧ pageOf f.va ∈ k.dead)
    (∀ w, s.m.walks.find? n = some w → w.die = die →
      (w.stale = true → exec (.walkComplete die n) s = .next (setWalks s (s.m.walks.ins n { w with stale := false }))) ∧
      (∀ e lg, w.stale = false → cachedWalk s w.ctx w.va = .leaf e lg → ∃ t, exec (.walkComplete die n) s = .next (serveWalk t die) ∧
        t.m.walks.find? n = none ∧ t.m.mem = s.m.mem ∧ kept t w.waiters ∧
        tlbFind t w.core w.ctx w.va = some { ctx := w.ctx, va := w.va.toNat / 2 ^ lg * 2 ^ lg, lg := lg, leaf := e } ∧
        paths w.waiters (fun p q => (pathAt t p).wait = none ∧ (pathAt t p).pc = q.pc) ∧
        cmds w.waiters (fun i _ => ∃ k, t.e.cmds.find? i = some k ∧
          ({ page := w.va.toNat / 2 ^ lg * 2 ^ lg / 65536, lg := lg, leaf := e } : BxPage) ∈ k.pages)) ∧
      (∀ kind owner, w.stale = false → cachedWalk s w.ctx w.va = .fault kind owner →
        (faultFits s w.ctx w.va = false → exec (.walkComplete die n) s = .next s) ∧
        (faultFits s w.ctx w.va = true → ∃ t, exec (.walkComplete die n) s = .next (serveWalk t die) ∧
          t.m.walks.find? n = none ∧ t.m.mem = s.m.mem ∧ kept t w.waiters ∧
          ((∃ p, Waiter.path p ∈ w.waiters) → ∃ fid f, t.m.faults.find? fid = some f ∧ f.ctx = w.ctx ∧ pageOf f.va = pageOf w.va ∧
            (faultFor s w.ctx w.va = none → f.kind = kind ∧ f.owner = owner ∧ f.die = w.ctx / 64) ∧
            (∀ p, Waiter.path p ∈ w.waiters → Waiter.path p ∈ f.waiters) ∧
            paths w.waiters (fun p _ => (pathAt t p).wait = some (.fault fid))) ∧
          cmds w.waiters (fun i k => ∃ x, t.e.cmds.find? i = some x ∧ (w.va, kind, owner) ∈ x.faults ∧
            Instr.bxCommandPark k.core i ∈ t.c.agenda)))) ∧
    (let live := fun cl => (s.m.walkq.getD [] cl).filter (stillWaits s)
     let cl := fun i => die * 4 + (s.m.walkRr.getD 3 die + 1 + i) % 4
     ((∀ i, i < 4 → live (cl i) = []) → serveWalk s die = s) ∧
     ∀ i r rest, i < 4 → (∀ j, j < i → live (cl j) = []) → live (cl i) = r :: rest →
       let u := serveWalk s die
       u.m.walkq.getD [] (cl i) = rest ∧ u.m.walkRr.getD 3 die = cl i % 4 ∧ u.m.mem = s.m.mem ∧ u.x.vals = s.x.vals ∧
         ∃ k w, u.m.walks.find? k = some w ∧ w.ctx = r.ctx ∧ pageOf w.va = pageOf r.va ∧ r.who ∈ w.waiters ∧
           ∀ p, r.who = Waiter.path p → (pathAt u p).wait = some (.walk k)) ∧
    ∀ f, faultAt s die n = some f →
      (f.kind ≠ 2 → exec (.faultResolved die n) s = .next s) ∧
      (∀ e lg, f.kind = 2 → walkVa s f.ctx f.va = .leaf e lg → ∃ u, exec (.faultResolved die n) s = .next u ∧ u.m.mem = s.m.mem ∧
        u.h = s.h ∧ served u f.waiters) ∧
      (∃ u, exec (.faultFailed die n) s = .next u ∧ u.m.mem = s.m.mem ∧ u.h = s.h ∧ failed u f) ∧
      (f.kind = 3 → linked s die f.owner = false → exec (.federatedFaultService die n) s = .next s) ∧
      (f.kind = 3 → linked s die f.owner = true → (∃ g ∈ faultGangs s f, moves s f g = true) →
        exec (.federatedFaultService die n) s = .next (enqueue s (.migration die n))) ∧
      (f.kind = 3 → linked s die f.owner = true → (∀ g ∈ faultGangs s f, moves s f g = false) →
        ∃ u, exec (.federatedFaultService die n) s = .next u ∧
          (∀ t, installPeer (runsRemotely s f) f = some t → u.m.mem = t.m.mem ∧ served u f.waiters) ∧
          (installPeer (runsRemotely s f) f = none → u.m.mem = s.m.mem ∧ failed u f)) ∧
      ∃ u, exec (.migration die n) s = .next u ∧ u.m.mem = s.m.mem ∧ u.x.vals = s.x.vals ∧
        ∀ g ∈ faultGangs s f, moves s f g = true → (gangAt u g).target = some (f.owner, f.va) ∧
          Instr.halt g .migrate ∈ u.c.agenda ∧
          paths f.waiters (fun p q => (warpAt s (warpOfPath p)).gang = g → (pathAt u p).wait = none ∧ (pathAt u p).pc = q.pc)

/-! ### The block-transfer engine and the die network (R90, R99, R103 to R105, R109, R272, R275) -/

/-- R90, R99, R103 to R105, R109: the head command whose tokens are filled starts and pops them while fewer than 16 run; a unit
of 512 bytes that waits for nothing (R106, R113, R125) writes its elements, pad outside the extents, and its chunk becomes full, or
failed where an element has; an undecided fault parks the command at a queue entry; a command that has moved everything sets its
tags, releases its locks and fills its tokens; and a refilled queue keeps its order. -/
def Obligations.BlockCommandsStartMoveAndComplete : Prop :=
  ∀ (core i : Nat) (s : State), Canonical s → s.e.cmds.risingFrom 0 = true →
    (∀ k, (qIds (s.e.bxq.getD queueZero core)).head? = some i → s.e.cmds.find? i = some k → isShape k = false →
      (s.e.cmds.filter (fun c => c.2.engine == 2 && c.2.core == core && c.2.started && !isShape c.2)).length < 16 →
      core ∉ s.d.frozen → popsReady s core 2 k.pops = true → ∃ u, exec (.bxCommandStart core) s = .next u ∧
        u.e.cmds.find? i = some { k with started := true, pops := [] } ∧
        qIds (u.e.bxq.getD queueZero core) = (qIds (s.e.bxq.getD queueZero core)).tail ∧
        ((∀ e, Pop.entry e ∉ k.pops) →
          ∀ x, qIds (pairAt u core x 2) = (qIds (pairAt s core x 2)).drop (k.pops.filter (· == .queue x)).length) ∧
        (∀ e, Pop.entry e ∈ k.pops → (entryAt s e).cons ≠ 0 →
          (qIds (pairAt s core (entryAt s e).prod (entryAt s e).cons)).Nodup →
          e ∉ qIds (pairAt u core (entryAt s e).prod (entryAt s e).cons)) ∧
        u.m = s.m ∧ u.x = s.x ∧ u.e.scr = s.e.scr) ∧
    (∀ k o, runningCmd s core i = some k → copyOf k = some o →
      (∀ va kind owner, k.faults.head? = some (va, kind, owner) ∨ k.faults = [] ∧ (∃ x,
          (unitsLeft k o).findSome? (unitFault s k o) = some x ∧ x.va = va ∧ x.chk = .bad (kind + 5) owner) →
        k.parked = none → faultFits s (gangAt s k.gang).ctx va = true →
        ∃ u fid f, exec (.bxCommandPark core i) s = .next u ∧
          u.e.cmds.find? i = some { k with parked := some fid, faults := k.faults.drop 1 } ∧
          u.m.faults.find? fid = some f ∧ Waiter.cmd i ∈ f.waiters ∧ f.ctx = (gangAt s k.gang).ctx ∧ pageOf f.va = pageOf va ∧
          (faultFor s (gangAt s k.gang).ctx va = none → f.kind = kind ∧ f.owner = owner) ∧ u.m.mem = s.m.mem ∧ u.x = s.x) ∧
      (∀ u hc pa, o.toNear = true → nearHome s k o = some (hc, pa) → u < unitCount o → u ∉ k.doneChunks → core ∉ s.d.frozen →
        storesDone s k = true → readsLocked s i k o u = false → (inOrder o = true → (unitsLeft k o).head? = some u) →
        k.faults = [] → unitReplies s i u = [] →
        let es := unitOf s k o u
        let n := shSize o.shape
        let near := fun (x : Elem) => hc * 2 ^ 18 + (pa + x.near)
        (∀ x ∈ es, x.dead = true ∨ x.skip = true ∨ ∃ a ord, x.chk = .loc (.mem a ord) ∧ badData s (.mem a ord) n = false) →
        es.Pairwise (fun x y => near x + n ≤ near y ∨ near y + n ≤ near x) →
        ∃ t k1, exec (.chunkFull core i u) s = .next t ∧ t.e.cmds.find? i = some k1 ∧ k1.doneChunks = k.doneChunks ++ [u] ∧
          t.m.mem = s.m.mem ∧ chunkAt t hc (pa / 512 + u) = (if es.any (·.dead) = true then .failed else .full) ∧
          (∀ c, c ≠ hc * 512 + (pa / 512 + u) → t.e.chunks.getD .empty c = s.e.chunks.getD .empty c) ∧
          (o.kind ≠ .red → ∀ x ∈ es, x.dead = false → scrRead t hc (pa + x.near) n =
            (if x.skip = true then (if o.kind = .fill then o.value else shPad o.shape).toNat
             else match x.chk with | .loc (.mem a _) => readMem s a n | _ => 0) % 256 ^ n) ∧
          ∀ b, (∀ x ∈ es, x.dead = false → ∀ j, j < n → b ≠ near x + j) → t.e.scr.getD 0 b = s.e.scr.getD 0 b) ∧
      (unitsLeft k o = [] → core ∉ s.d.frozen → ∃ u, exec (.bxCommandComplete core i) s = .next u ∧ u.m.mem = s.m.mem ∧ u.e.scr = s.e.scr ∧
        u.e.cmds.find? i = none ∧ (∀ l ∈ u.e.locks, l.cmd ≠ i) ∧ (∀ l ∈ s.e.locks, l.cmd ≠ i → l ∈ u.e.locks) ∧
        (∀ hc pa j, o.toNear = true → nearHome s k o = some (hc, pa) → pa / 8192 ≤ j → j ≤ (pa + boxBytes o - 1) / 8192 →
          tagAt u hc j = BitVec.ofNat 8 (shFtag o.shape)) ∧
        ∀ e ∈ k.fills, isFilled u e = true ∧
          ((∀ j c, s.e.cmds.find? j = some c → j ≠ i → e ∉ c.fills) → (entryAt u e).status = copyStatus k o ∧
            statusFailed (entryAt u e).status = !(k.badChunks.isEmpty && k.cause == 0)))) ∧
    ∀ q, q ≤ 37 → ∃ u, exec (.queueOverflow core q) s = .next u ∧ u.m = s.m ∧ u.x = s.x ∧
      (let old := fun (v : State) => if q < 36 then v.e.pairs.getD queueZero (core * 36 + q)
        else if q = 36 then v.e.bxq.getD queueZero core else v.e.mxq.getD queueZero core
       qIds (old u) = qIds (old s) ∧ ((old u).hw.length < (if q < 36 then 32 else 64) → (old u).ring = []))

/-- R272, R275, R276: a packet that enters a router queue merges with the one directly ahead when both may and name one word,
operation and type; it then has the place of that one, the combined value and the accesses of both, and otherwise the queue is as it
was. A flow without another packet in flight takes the minimal route while its long link has a quarter free, else the lowest
quadrant whose two links have the most free. -/
def Obligations.PacketsMergeAndFlowsChooseRoutes : Prop :=
  ∀ (die q : Nat) (s : State), q < 144 →
    (∃ u, exec (.redMerge die q) s = .next u ∧ u.m.mem = s.m.mem ∧ u.x = s.x ∧ u.e = s.e ∧
      (∀ k, k ≠ die * 144 + q → u.m.routers.getD [] k = s.m.routers.getD [] k) ∧
      (∀ p ∈ u.m.routers.getD [] (die * 144 + q), p.entering = false) ∧
      (∀ ps a b, s.m.routers.getD [] (die * 144 + q) = ps ++ [a, b] → (∀ p ∈ ps ++ [a], p.entering = false) → b.entering = true →
        let meets := a.merge = true ∧ b.merge = true ∧ a.addr = b.addr ∧ a.op = b.op ∧ a.ty = b.ty
        (∀ k, a.op = .red k → meets → u.m.routers.getD [] (die * 144 + q) =
          ps ++ [{ a with accs := a.accs ++ b.accs, v := applyOp a.ty k a.v b.v }]) ∧
        (¬meets → u.m.routers.getD [] (die * 144 + q) = ps ++ [a, { b with entering := false }]))) ∧
    ∀ src d fl, src < 48 → d < 48 → s.m.flows.find? (flowOf die src d false) = some fl →
      let a := src / 12
      let b := d / 12
      let free := fun x y => Config.linkQuarters s.c.fresh (die * 4 + x) y
      let both := fun x => free a x + free x b
      (fl.fixed = true → exec (.flowRouteChoice die src d) s = .next s) ∧
      (fl.fixed = false → ∃ u g, exec (.flowRouteChoice die src d) s = .next u ∧ u.m.flows.find? (flowOf die src d false) = some g ∧
        g = { fl with fixed := true, via := g.via } ∧ u.m.mem = s.m.mem ∧ u.x = s.x ∧ u.e = s.e ∧
        (if a = b ∨ (dieAt s die).det = true ∨ 1 ≤ free a b then g.via = none
         else ∃ x, g.via = some x ∧ x < 4 ∧ x ≠ a ∧ x ≠ b ∧
          ∀ y, y < 4 → y ≠ a → y ≠ b → both y ≤ both x ∧ (both y = both x → x ≤ y)))

/-! ### The matrix engine's commands (R242, R245, R247, R250 to R255, R258, R260) -/

/-- R242, R245, R250, R253, R255, R258, R260, R261: of a cluster's ready steps the one that no other is served before runs when the
pool holds its charge, and updates every element of its accumulator, or fails at a tag that differs, or at data that cannot be
corrected; a refill adds the package's rate up to 4096; a command that may start completes: zeros, a loaded tile, a stored tile
with its chunks full, or failed where an element is lost, and its slots tagged, a mode; a step command completes with its last
step and leaves its count in the flag words; and an exchange brings a tile of an N-die core in once no command works on its
partner. -/
def Obligations.MatrixCommandsRunAndComplete : Prop :=
  ∀ (cluster core i : Nat) (s : State), Canonical s → s.e.cmds.risingFrom 0 = true → s.e.acc.risingFrom 0 = true →
    let ready := (List.range 96).filterMap (fun j => readyStep s (cluster * 96 + j))
    let kept := fun (u : State) => u.m = s.m ∧ u.x = s.x
    let filled := fun (u : State) (k : Cmd) (st : BitVec 32) => u.e.cmds.find? i = none ∧ (∀ l ∈ u.e.locks, l.cmd ≠ i) ∧
      ∀ e ∈ k.fills, isFilled u e = true ∧
        ((∀ j c, s.e.cmds.find? j = some c → j ≠ i → e ∉ c.fills) → (entryAt u e).status = st)
    (ready ≠ [] → ∃ w u, w ∈ ready ∧ (∀ y ∈ ready, servedBefore s.c.cycle y w = false) ∧ exec (.mxStepStart cluster) s = .next u ∧ kept u ∧
      u.e.scr = s.e.scr ∧
      ((clusterAt s cluster).pool < w.charge → (clusterAt u cluster).pool = (clusterAt s cluster).pool ∧ u.e.acc = s.e.acc) ∧
      (w.charge ≤ (clusterAt s cluster).pool → (clusterAt u cluster).pool = (clusterAt s cluster).pool - w.charge ∧
        ∀ n raw bs a b sc cnt da db dsc, w.cmd.body = .mxSteps n raw bs a b sc cnt da db dsc →
          let k := w.cmd
          let f64 := mxClass k.mode == .f64
          let r := stepAddrs a b sc da db dsc k.steps
          let t := mxClass k.mode
          let size := 128 / stepK t
          let scale := if bs = true then scrRegion s k.gang r.2.2 512 else []
          let tagsFit := slotTag s k.gang r.1 = fmtTag (afmt k.mode) ∧ slotTag s k.gang r.2.1 = fmtTag (bfmt k.mode) ∧
            (bs = true → slotTag s k.gang r.2.2 = 0x40)
          let lost := lostTiles s k.core (mxTiles k) = true ∨ lostRegion s k.gang r.1 8192 = true ∨
            lostRegion s k.gang r.2.1 8192 = true ∨ bs = true ∧ lostRegion s k.gang r.2.2 512 = true
          let fails := fun (cause : Nat) => ∃ k1, u.e.cmds.find? w.id = some k1 ∧ k1.stepFail = true ∧ k1.cause = cause ∧ k1.steps = k.steps
          ((raw = true ∨ tagsFit) → ¬lost → (∃ k1, u.e.cmds.find? w.id = some k1 ∧ k1.steps = k.steps + 1) ∧
            ∀ e, e < 4096 → accElem u k.core n f64 e = (stepElem t ((mxFmt (afmt k.mode)).getD .bf16) ((mxFmt (bfmt k.mode)).getD .bf16)
              (if bs = true then scaleAt scale 0 (e / 64) else unitScale) (if bs = true then scaleAt scale 256 (e % 64) else unitScale)
              (rowElems (scrRegion s k.gang r.1 8192) (e / 64) size) (rowElems (scrRegion s k.gang r.2.1 8192) (e % 64) size)
              (accElem s k.core n f64 e)).1 % 2 ^ (if f64 = true then 64 else 32)) ∧
          ((raw = true ∨ tagsFit) → lost → fails 7) ∧
          (raw = false → ¬tagsFit → u.e.acc = s.e.acc ∧ fails 5))) ∧
    (∃ u, exec (.budgetRefill cluster) s = .next u ∧ kept u ∧ u.e = s.e ∧
      (clusterAt u cluster).pool = min 4096 ((clusterAt s cluster).pool + 48 * s.c.pkgLimit / 4500) ∧
      ∀ c, c ≠ cluster → clusterAt u c = clusterAt s c) ∧
    (∀ tile, tile < 8 → Config.dieKind (dieOfCore core) = 1 → (mxAt s core).swapped.length = 4 →
      (tileInUse s core ((tile + 4) % 8) = true → exec (.accExchange core tile) s = .next s) ∧
      (tileInUse s core ((tile + 4) % 8) = false →
        ∃ u, exec (.accExchange core tile) s = .next u ∧ kept u ∧ u.e.acc = s.e.acc ∧ u.e.scr = s.e.scr ∧ tilePresent u core tile = true ∧
          ∀ t, t < 8 → t % 4 ≠ tile % 4 → tilePresent u core t = tilePresent s core t)) ∧
    ∀ k, s.e.cmds.find? i = some k → k.engine = 3 → k.core = core →
      let done := fun (st : BitVec 32) (ok : State → Prop) => ∃ u, exec (.mxCommandComplete core i) s = .next u ∧
        u.m.mem = s.m.mem ∧ u.x = s.x ∧ filled u k st ∧ ok u
      let good := statusWord false 0 0
      let failed := fun (cause : Nat) => statusWord true cause 0xFFFFFF
      let tagged := fun f64 src => ∀ j, j < (if f64 = true then 4 else 2) →
        slotTag s k.gang (src + BitVec.ofNat 32 (8192 * j)) = if f64 = true then 0x13 else 0x12
      (∀ n raw bs a b sc cnt da db dsc, k.body = .mxSteps n raw bs a b sc cnt da db dsc → (mxAt s core).busy ≤ s.c.cycle →
        core ∉ s.d.frozen → k.stepFail = true ∨ cnt ≤ k.steps →
        done (if k.stepFail = true then failed k.cause else good) (fun u => u.e.scr = s.e.scr ∧ u.e.acc = s.e.acc ∧
          ∀ t ∈ mxTiles k, t < (mxAt s core).flagw.length → (nth (mxAt u core).flagw 0 t).toNat / 65536 = k.steps % 65536)) ∧
      (mxMayStart s i k = true →
        (∀ n, k.body = .mxZero n → done good (fun u => ∀ e, e < 4096 → accWord u core n e = 0)) ∧
        (∀ n f64 raw src, k.body = .mxLd n f64 raw src →
          let lost := lostRegion s k.gang src (if f64 = true then 32768 else 16384)
          ((raw = true ∨ tagged f64 src) → lost = false → done good (fun u => ∀ x, x < (if f64 = true then 8192 else 4096) →
            accWord u core (n + x / 4096) (x % 4096) =
              leNat (((scrRegion s k.gang src (if f64 = true then 32768 else 16384)).drop (4 * x)).take 4))) ∧
          ((raw = true ∨ tagged f64 src) → lost = true → done (failed 7) (fun u => u.e.scr = s.e.scr)) ∧
          (raw = false → ¬tagged f64 src → done (failed 5) (fun u => u.e.acc = s.e.acc))) ∧
        (∀ n f64 dst hc pa, k.body = .mxStore n f64 dst → scrHome s k.gang dst (4096 * tyBytes (sfmtTy k.mode)) = some (hc, pa) →
          let size := tyBytes (sfmtTy k.mode)
          let lost := storeLost s k n f64
          done (if lost = [] then good else statusWord true 7 (lost.headD 0)) (fun u => u.e.acc = s.e.acc ∧
            (∀ e, e < 4096 → lostElem s k.core n f64 e = false → scrRead u hc (pa + e * size) size =
              ((fmtOf (sfmtTy k.mode)).convert (if f64 = true then fmtF64 else fmtF32)
                (storeRnd k e) (k.mode.getLsbD 23) (accElem s core n f64 e)).1 % 2 ^ 64 % 256 ^ size) ∧
            (∀ c, c < 4096 * size / 512 → chunkAt u hc (pa / 512 + c) = if c ∈ lost then .failed else .full) ∧
            ∀ j, pa / 8192 ≤ j → j ≤ (pa + 4096 * size - 1) / 8192 → tagAt u hc j = BitVec.ofNat 8 (sfmt k.mode))) ∧
        ∀ w seed, k.body = .mxMode w seed → done good (fun u => (mxAt u core).mode = w ∧ (mxAt u core).seed = seed))


/-! ### The contention plane's frames (R307 to R317, R320, R321) -/

/-- R307, R309 to R317, R320, R321: a boundary raises the frame count, starts the revocations, drives the beacon and each line's
priority, of the bids that have arrived; within the frame a gate not met by its die's bids holds the line back, and otherwise the
bids on the selection freeze and the greatest key wins, then the highest die, then the highest thread; the delivery sets LAST,
ROUND and the pointer and fills the bids' entries; the beacon brings every die's count, round and pointer in line; a revocation
empties HOLDER and GATE and fails the pending bids; and a P unit that has read 256 frames is ready with the package's rounds and
pointers. -/
def Obligations.ContestsSelectHoldAndDeliver : Prop :=
  ∀ (die ident : Nat) (s : State), SMap.wf 0 s.pl.ptrs = true → s.e.cmds.risingFrom 0 = true →
    let alone := fun (b : Bid) e => (∀ b2 ∈ s.pl.bids, b2 ≠ b → e ∉ b2.fills) ∧ ∀ j c, s.e.cmds.find? j = some c → e ∉ c.fills
    (s.pl.selecting = false → ∃ u, exec .frameBoundary s = .next u ∧ u.pl.fc = s.pl.fc + 1 ∧ u.pl.selecting = true ∧
      u.c.frameAt = s.c.cycle ∧ Instr.beacon ∈ u.c.agenda ∧
      (∀ line, line < 8 → nth u.pl.prios 0 line = (planeDies u).foldl (fun m d => max m (selPriority u d line)) 0) ∧
      (∀ r ∈ s.pl.revoking, Instr.identifierRevocation r.1.die r.2 ∈ u.c.agenda) ∧ u.m = s.m ∧ u.x = s.x ∧ u.e.scr = s.e.scr) ∧
    (s.pl.selecting = true → ∃ u, exec .frameBoundary s = .next u ∧ u.pl.selecting = false ∧ u.pl.fc = s.pl.fc ∧ u.m = s.m ∧ u.x = s.x ∧
      ∀ line, line < 8 →
        let s1 := arriveBids s
        let sel := fun d => selected s1 d line (nth s.pl.prios 0 line)
        let taking := fun (b : Bid) => b ∈ planeBids s1 ∧ b.arrived = true ∧ b.die ∈ planeDies s1 ∧ b.ident = sel b.die
        let held := ∃ d ∈ planeDies s1, holdsBack s1 d (sel d) = true
        let fresh := fun (x : Delivery) => x ∈ u.pl.deliveries ∧ x ∉ s1.pl.deliveries ∧ x.ident % 8 = line
        (held → (∀ x, ¬fresh x) ∧ ∀ d ∈ planeDies s1, ptrAt u d line = (sel d / 8 + 1) % 32) ∧
        (¬held → (∃ b, taking b) → ∃ w, taking w ∧
          (∀ b, taking b → b.key.toNat < w.key.toNat ∨ (b.key = w.key ∧ (b.die < w.die ∨ (b.die = w.die ∧ b.gidx ≤ w.gidx)))) ∧
          (∀ b, taking b → ∃ y ∈ planeBids u, y.id = b.id ∧ y.frozen = true) ∧
          ∀ d ∈ planeDies s1, ({ die := d, ident := sel d, key := w.key, wdie := w.die,
                                     round := (planeAt s1 d (sel d)).round,
                                     winner := if d = w.die then some w.id else none } : Delivery) ∈ u.pl.deliveries)) ∧
    (∀ d, s.pl.deliveries.filter (fun x => x.die == die) = [d] → ∃ u, exec (.resultDelivery die) s = .next u ∧
      (∀ x ∈ u.pl.deliveries, x.die ≠ die) ∧ u.m.mem = s.m.mem ∧ u.x = s.x ∧
      planeAt u die d.ident = { planeAt s die d.ident with
        lastKey := d.key, lastDie := d.wdie, lastRound := d.round, round := d.round + 1 } ∧
      ptrAt u die (d.ident % 8) = (d.ident / 8 + 1) % 32 ∧
      ∀ b ∈ s.pl.bids, b.frozen = true → b.die = die → b.ident = d.ident → b ∉ u.pl.bids ∧ ∀ e ∈ b.fills, isFilled u e = true ∧
        (alone b e → let n := entryAt u e
          n.key = d.key ∧ n.die = d.wdie ∧ n.round = d.round ∧ n.won = (d.winner == some b.id) ∧ n.status = statusWord false 0 0)) ∧
    (∃ u, exec .beacon s = .next u ∧ u.m = s.m ∧ u.x = s.x ∧ u.e = s.e ∧ u.pl.bids = s.pl.bids ∧
      ∀ d, d < 8 → (dieAt s d).inReset = false →
        let b := s.pl.fc.toNat % 256
        (u.pl.dieFc.find? d).map (fun (f : Word) => f.toNat % 2 ^ 44) = some (s.pl.fc.toNat % 2 ^ 44) ∧
        (planeAt u d b).round = (planeAt s 8 b).round ∧ (ptrAt s 8 (b % 8) < 32 → ptrAt u d (b % 8) = ptrAt s 8 (b % 8))) ∧
    (∃ u, exec (.identifierRevocation die ident) s = .next u ∧ u.m.mem = s.m.mem ∧ u.x = s.x ∧
      planeAt u die ident = { planeAt s die ident with holder := none, gate := 0 } ∧
      (∀ b ∈ u.pl.bids, b.die = die → b.ident = ident → b.frozen = true) ∧
      u.h.out = s.h.out ++ (s.pl.revoking.filter (fun r => r.1.die == die && r.2 == ident)).map (fun r => .reply r.1 0 0 0 []) ∧
      ∀ b ∈ s.pl.bids, b.die = die → b.ident = ident → b.frozen = false → ∀ e ∈ b.fills, isFilled u e = true ∧
        (alone b e → (entryAt u e).status = statusWord true 9 0 ∧ (entryAt u e).won = false)) ∧
    (die < 8 → (dieAt s die).inReset = false → (dieAt s die).pReady = false →
      (s.c.cycle < (dieAt s die).bornAt + 76800 → exec (.pUnitReady die) s = .next s) ∧
      ((dieAt s die).bornAt + 76800 ≤ s.c.cycle → ∃ u, exec (.pUnitReady die) s = .next u ∧ (dieAt u die).pReady = true ∧
        (∀ i, i < 256 → (planeAt u die i).round = (planeAt s 8 i).round) ∧ (∀ l, l < 8 → ptrAt u die l = ptrAt s 8 l % 32) ∧
        u.m = s.m ∧ u.x = s.x ∧ u.e = s.e))


/-! ### Turns and links of the convoy ring (R297, R298, R302, R303, R306, R365, R369, R370, R412) -/

/-- R302, R303, R306: a hop takes its next turn entry and moves, in ascending order, the working strands of the mask that run the
other way while two others stay; they drain, and with the completion they carry, or are retired where they fail, and the
command is done or fails; a turn that moves none is done at once, and a retraining ends with every strand but the failed. -/
def Obligations.TurnsMoveStrandsAndComplete : Prop :=
  ∀ (hop : Nat) (s : State), hop < 8 → s.e.cmds.risingFrom 0 = true →
    let ended := fun (t u : State) i (st : BitVec 32) => ∀ k, t.e.cmds.find? i = some k → u.e.cmds.find? i = none ∧
      ∀ e ∈ k.fills, isFilled u e = true ∧
        ((∀ j c, t.e.cmds.find? j = some c → j ≠ i → e ∉ c.fills) → (entryAt u e).status = st)
    let s0 := refillTurns s hop
    let h := hopAt s0 hop
    (∀ e i c rest hp en d mask, h.turning = none → h.retrain = none → h.down = false → h.st.length = 16 → h.dirs.length = 16 →
      selectEnd s0 hop = some e → (if e = 0 then h.q0 else h.q1) = (i, c) :: rest → bodyOf s0 i = some (.turn hp en d mask) →
      ∃ u es, exec (.turnSelect hop) s = .next u ∧ u.m.mem = s.m.mem ∧ u.x = s.x ∧
        (if e = 0 then (hopAt u hop).q0 else (hopAt u hop).q1) = rest ∧
        (es = [] → (hopAt u hop).turning = none ∧ ended s0 u i (statusWord false 0 0)) ∧
        (es ≠ [] → (hopAt u hop).turning = some (i, e, es) ∧ (hopAt u hop).turnAt = s.c.cycle ∧
          es.length + 2 ≤ workingIn h (dirFlip d) ∧ u.e.cmds.find? i = s0.e.cmds.find? i) ∧
        es.Pairwise (· < ·) ∧
        ∀ x, x < 16 →
          let may := mask.getLsbD x = true ∧ strandOf h x = .working ∧ strandDir h x ≠ d
          (x ∈ es → may ∧ strandDir (hopAt u hop) x = d ∧ strandOf (hopAt u hop) x = .draining) ∧
          (x ∉ es → strandDir (hopAt u hop) x = strandDir h x ∧ strandOf (hopAt u hop) x = strandOf h x) ∧
          (may → x ∉ es → workingIn h (dirFlip d) ≤ es.length + 2)) ∧
    (∀ i e es failed, (hopAt s hop).turning = some (i, e, es) → (hopAt s hop).retrain = none → (hopAt s hop).st.length = 16 →
      ∃ u, exec (.turnComplete hop failed) s = .next u ∧ u.m.mem = s.m.mem ∧ u.x = s.x ∧ (hopAt u hop).turning = none ∧
        (hopAt u hop).lastEnd = some e ∧ (if e = 0 then (hopAt u hop).t0 else (hopAt u hop).t1) = some s.c.cycle ∧
        (hopAt u hop).dirs = (hopAt s hop).dirs ∧
        ended s u i (if es.any (fun x => failed.getLsbD x) = true then statusWord true 8 0xFFFFFF else statusWord false 0 0) ∧
        ∀ x, x < 16 → strandOf (hopAt u hop) x =
          (if x ∈ es then (if failed.getLsbD x = true then .retired else .working) else strandOf (hopAt s hop) x)) ∧
    ∀ rs failed, (hopAt s hop).turning = none → (hopAt s hop).retrain = some rs →
      ∃ u, exec (.turnComplete hop failed) s = .next u ∧ u.m = s.m ∧ u.x = s.x ∧ u.e = s.e ∧ (hopAt u hop).retrain = none ∧
        u.h.out = s.h.out ++ rs.map (fun r => .reply r 0 0 0 []) ∧
        ∀ x, x < 16 → strandOf (hopAt u hop) x = if failed.getLsbD x = true then .retired else .working

/-- R297, R298, R365, R369, R370, R412: the next source in turn whose head fits sends it one hop on, with its content as it was,
into pool slots or the escape channel, where it keeps its VC bit; their allowances fall and return later; a flit that fails beyond
its retries spares a lane or retires the strand; a corrupted header is discarded; and a lost transit router takes down both hops,
fails what stood on the way, returns its slots, and turns what has not been sent. -/
def Obligations.PacketsCrossHopsOrAreLost : Prop :=
  ∀ (hop : Nat) (d : Dir) (s : State), hop < 8 →
    let key := bufKey hop d
    let b := bufAt s key
    let last := match d with | .cw => (hopAt s hop).rr | .ccw => (hopAt s hop).rrc
    let after := fun x => (x + 5 * (last + 1)) % 6
    (∀ n p, n < 6 → sourceHead s hop d n = some p → (hopAt s hop).down = false → workingIn (hopAt s hop) d ≠ 0 → headFits s hop d n = true →
      ∃ u q, exec (.packetHop hop d n) s = .next u ∧ u.m = s.m ∧ u.x = s.x ∧ u.e = s.e ∧
        q.body = p.body ∧ q.kind = p.kind ∧ q.dst = p.dst ∧ q.src = p.src ∧ q.trk = p.trk ∧ q.hops = p.hops + 1 ∧
        ((q.esc = false ∧ q.vc1 = (p.vc1 || hop == 7) ∧ (bufAt u key).pool = b.pool ++ [q] ∧ (bufAt u key).escape = b.escape ∧
            (bufAt u key).a0 + (bufAt u key).a1 + (bufAt u key).ash + p.flits = b.a0 + b.a1 + b.ash) ∨
          (q.esc = true ∧ q.vc1 = p.vc1 ∧ (bufAt u key).escape = b.escape ++ [q] ∧ (bufAt u key).pool = b.pool ∧ (bufAt u key).aesc + 1 = b.aesc)) ∧
        (2 ≤ n → u.r.inject.getD [] (injectKey (sendDie hop d) d (n - 2)) = (s.r.inject.getD [] (injectKey (sendDie hop d) d (n - 2))).tail) ∧
        (n < 2 → p.esc = (n == 0) →
          let from_ := bufKey (arriveHop (sendDie hop d) d) d
          (bufAt u from_).pool ++ (bufAt u from_).escape = (bufAt s from_).pool.erase p ++ (bufAt s from_).escape ∨
            (bufAt u from_).pool ++ (bufAt u from_).escape = (bufAt s from_).pool ++ (bufAt s from_).escape.erase p)) ∧
    ((∀ n, n < 6 → headFits s hop d n = false) → exec (.sourceRoundRobin hop d) s = .next s) ∧
    ((∃ n, n < 6 ∧ headFits s hop d n = true) → ∃ x u, exec (.sourceRoundRobin hop d) s = .next u ∧ x < 6 ∧ headFits s hop d x = true ∧
      (∀ y, y < 6 → headFits s hop d y = true → after x ≤ after y) ∧ Instr.packetHop hop d x ∈ u.c.agenda ∧
      (match d with | .cw => (hopAt u hop).rr | .ccw => (hopAt u hop).rrc) = x ∧ u.m = s.m ∧ u.x = s.x) ∧
    (∃ u, exec (.creditReturn hop d) s = .next u ∧ u.m = s.m ∧ u.x = s.x ∧
      bufAt u key = { b with
        a0 := b.a0 + b.r0, a1 := b.a1 + b.r1, ash := b.ash + b.rsh, aesc := b.aesc + b.resc, r0 := 0, r1 := 0, rsh := 0, resc := 0 }) ∧
    (∀ strand failures spare, strand < 16 → (hopAt s hop).st.length = 16 →
      ∃ u, exec (.flitRetry hop strand failures spare) s = .next u ∧ u.m = s.m ∧ u.x = s.x ∧
        u.d.dcnt.getD 0 (hop * 16 + 6) = s.d.dcnt.getD 0 (hop * 16 + 6) + 1 ∧
        (failures ≤ 8 ∨ spare = true → (hopAt u hop).st = (hopAt s hop).st) ∧
        (8 < failures → spare = false → strandOf (hopAt u hop) strand = .retired ∧
          ∀ x, x ≠ strand → strandOf (hopAt u hop) x = strandOf (hopAt s hop) x)) ∧
    (∀ esc p, let ps := if esc = true then b.escape else b.pool
      (ps.find? corrupted = some p ∨ ps.find? corrupted = none ∧ ps.head? = some p) → p.esc = esc →
      ∃ u, exec (.corruptedHeader hop d esc) s = .next u ∧ u.m = s.m ∧ u.x = s.x ∧ u.r.trackers = s.r.trackers ∧
        (if esc = true then (bufAt u key).escape else (bufAt u key).pool) = ps.erase p) ∧
    (s.r.trackers.risingFrom 0 = true → ∃ u, exec (.transitRouterLost hop) s = .next u ∧ u.m = s.m ∧ u.x.vals = s.x.vals ∧
      (hopAt u hop).down = true ∧ (hopAt u ((hop + 7) % 8)).down = true ∧
      (∀ x ∈ u.r.bufs, ∀ p ∈ x.2.pool ++ x.2.escape, throughRouter hop x.1 p = false) ∧
      (∀ k, (bufAt u k).resc = (bufAt s k).resc + ((bufAt s k).escape.filter (throughRouter hop k)).length) ∧
      (∀ x ∈ s.r.bufs, ∀ p ∈ x.2.pool ++ x.2.escape, throughRouter hop x.1 p = true → ∀ t pid, s.r.trackers.find? p.trk = some t →
        t.who = .path pid → u.r.trackers.find? p.trk = none ∧
          ((gangAt u (warpAt s (warpOfPath pid)).gang).state = .failing ∨ (gangAt u (warpAt s (warpOfPath pid)).gang).state = .retired)) ∧
      ∀ x ∈ s.r.inject, ∀ p ∈ x.2, ∃ y ∈ u.r.inject, { p with dir := aroundDown u (x.1 / 8) p.dst p.dir } ∈ y.2)


/-! ### Peer accesses (R84, R296, R370, R410, R411) -/

/-- R84, R130, R370, R411: the owner performs a request whose export is live, of the generation, within its pages and rights,
and mapped with the right there, and replies over the requester's tracker; any other request is refused and changes nothing. A
write packet takes one of 64 places, performs its bytes, and frees its place with the acknowledgement. A reply reaches its
tracker, and a tracker without one after 64 microseconds fails its item. -/
def Obligations.OwnersCheckPerformAndReply : Prop :=
  ∀ (die : Nat) (d : Dir) (esc : Bool) (s : State), Canonical s →
    let sent := fun (u : State) (p : Pkt) kind body => ∃ q, (u.r.inject.getD [] (injectKey die q.dir 0)).getLast? = some q ∧ q.dst = p.src ∧
      q.src = die ∧ q.trk = p.trk ∧ q.kind = kind ∧ q.body = body
    let unfit := fun (p : Pkt) => ∀ x, s.h.exports.find? (die * 16384 + p.exp) = some x →
      x.live = false ∨ x.gen ≠ p.gen ∨ x.pages ≤ p.off / 65536 ∨ maxrtHas x.maxrt (requestRight p) = false ∨
        ∀ e lg, walkVa s x.ctx (x.base + BitVec.ofNat 64 p.off) = .leaf e lg → pteKind e = 2 ∨ hasRight (requestRight p) e = false
    let homed := fun (p : Pkt) a => ∃ x e lg, s.h.exports.find? (die * 16384 + p.exp) = some x ∧ x.live = true ∧ x.gen = p.gen ∧
      p.off / 65536 < x.pages ∧ maxrtHas x.maxrt (requestRight p) = true ∧
      walkVa s x.ctx (x.base + BitVec.ofNat 64 p.off) = .leaf e lg ∧ pteKind e ≠ 2 ∧ hasRight (requestRight p) e = true ∧
      a = leafKey die (x.base + BitVec.ofNat 64 p.off) lg e
    let word := fun (v : State) a t => BitVec.ofNat 64 (readMem v a (tyBytes t))
    let fits := fun t (v : Word) => lowBits (8 * tyBytes t) v
    let others := fun (u : State) a n => ∀ k, (k < a ∨ a + n ≤ k) → memByte u k = memByte s k
    (∀ p, arrived s die d esc [0, 4, 6] = some p →
      let performs := fun (ok : State → PktBody → Prop) => ∃ u body, exec (.peerRequest die d esc) s = .next u ∧
        sent u p (replyKind p.kind) body ∧ ok u body ∧ u.x = s.x
      (unfit p → ∃ u, exec (.peerRequest die d esc) s = .next u ∧ sent u p 7 .refuse ∧ u.m = s.m ∧ u.x = s.x ∧ u.e = s.e) ∧
      ∀ a, homed p a →
        (∀ n, p.body = .read n → performs (fun u body => body = .data (readBytes s a n) ∧ u.m.mem = s.m.mem)) ∧
        (∀ op t v, p.body = .amo op t v → performs (fun u body => body = .data (leBytes (tyBytes t) (word s a t).toNat) ∧
          word u a t = fits t (applyOp t op (word s a t) v) ∧ others u a (tyBytes t))) ∧
        (∀ t e n, p.body = .cas t e n → performs (fun u body => body = .data (leBytes (tyBytes t) (word s a t).toNat) ∧
          word u a t = fits t (if word s a t = lowBits (tyWidth t) e then n else word s a t) ∧ others u a (tyBytes t))) ∧
        ∀ op t v, p.body = .red op t v → performs (fun u body => body = .ack ∧
          word u a t = fits t (applyOp t op (word s a t) v) ∧ others u a (tyBytes t))) ∧
    (∀ p, arrived s die d esc [2] = some p → (s.r.places.getD [] die).length < 64 →
      let places := fun (u : State) ok => u.r.places.getD [] die = s.r.places.getD [] die ++ [{ pkt := p, ok := ok }]
      (unfit p → ∃ u, exec (.packetAccept die d esc) s = .next u ∧ places u false ∧ u.m = s.m ∧ u.x = s.x) ∧
      ∀ a (cells : SMap Byte), homed p a → p.body = .write cells → cells.risingFrom 0 = true →
        ∃ u, exec (.packetAccept die d esc) s = .next u ∧ places u true ∧ u.x = s.x ∧
          (∀ i, memByte u (a + i) = (cells.find? i).getD (memByte s (a + i))) ∧ ∀ k, k < a → memByte u k = memByte s k) ∧
    (∀ i x, (s.r.places.getD [] die)[i]? = some x → ∃ u, exec (.writeAcknowledgement die i) s = .next u ∧ u.m = s.m ∧ u.x = s.x ∧
      u.r.places.getD [] die = (s.r.places.getD [] die).eraseIdx i ∧
      (x.ok = true → sent u x.pkt 3 .ack) ∧ (x.ok = false → sent u x.pkt 7 .refuse)) ∧
    (∀ p, arrived s die d esc [1, 3, 5, 7] = some p → ∃ u, exec (.peerReply die d esc) s = .next u ∧ u.m = s.m ∧ u.x = s.x ∧
      (∀ t, s.r.trackers.find? p.trk = some t → u.r.trackers.find? p.trk = some { t with reply := some p.body }) ∧
      ∀ k, k ≠ p.trk → u.r.trackers.find? k = s.r.trackers.find? k) ∧
    ∀ trk t, s.r.trackers.find? trk = some t → t.die = die → t.reply = none →
      (s.c.cycle < t.sent + 64000 → exec (.trackerTimeout die trk) s = .next s) ∧
      (t.sent + 64000 ≤ s.c.cycle → ∃ u, exec (.trackerTimeout die trk) s = .next u ∧ u.m = s.m ∧
        (∀ g, waiterGang s t.who = some g → (gangAt u g).state = .failing ∨ (gangAt u g).state = .retired) ∧
        ∀ i, t.who = .cmd i → u.r.trackers.find? trk = some { t with reply := some .refuse })


/-! ### Gangs (R331 to R338, R356, R357, R361, R364, R366, R371) -/

/-- R331 to R337, R356, R364: the first queued gang of the highest priority is placed whole and starts at its entry with PARAM in
s0 to s7; one that fits in no cluster now keeps its place at its priority, and where it fits nowhere the lowest and latest gangs are
halted; a halt stands every path of a gang; a gang that is over
leaves its cores, with its report where it failed; a launch that is over signals SIGEV; and an item's loss fails its gang. -/
def Obligations.GangsArePlacedHaltedAndRetired : Prop :=
  ∀ (die l g : Nat) (s : State), Canonical s → s.x.warps.risingFrom 0 = true → s.x.gangs.risingFrom 0 = true →
    (∀ w k, s.x.warps.find? w = some k → k.gang < s.c.nextId) →
    (∀ p q, s.x.paths.find? p = some q → (s.x.warps.find? (warpOfPath p)).isSome = true) →
    let la := launchAt s l
    let r := la.record
    let ofG := fun (u : State) (x : Nat) (ok : Nat → Path → Prop) => ∀ p q, u.x.paths.find? p = some q → (warpAt u (warpOfPath p)).gang = x → ok p q
    (∀ prio n c ps, (dieAt s die).noDispatch = false → failedHead s die = none → topHead s die = some (prio, .queued n l) →
      findPlace s (gangNeed s l) = some (c, ps) → ∃ u, exec (.gangDispatch die) s = .next u ∧ u.m = s.m ∧
        let x := gangAt u s.c.nextId
        x.launch = l ∧ x.state = .resident ∧ x.cluster = c ∧ x.die = la.die ∧ x.ctx = la.ctx ∧
        x.x = la.next % lrGridX r ∧ x.y = la.next / lrGridX r % lrGridY r ∧ x.z = la.next / lrGridX r / lrGridY r ∧
        (launchAt u l).next = la.next + 1 ∧ (launchAt u l).live = la.live + 1 ∧
        (∀ k y, ps[k]? = some y → (wgAt u (s.c.nextId * 128 + k)).core = y.core) ∧
        (∀ p q, s.x.paths.find? p = some q → u.x.paths.find? p = some q) ∧
        ofG u s.c.nextId (fun p q => q.pc = entryPc u c (moduleAt s la.module) x.key ∧ q.s125 = rootLink ∧ q.s124 = 0 ∧ q.s127 = 0 ∧
          q.frames = [] ∧ q.wait = none ∧ ∀ i, i < 8 → getSreg u p i = lrParam r i)) ∧
    (∀ prio n, (dieAt s die).noDispatch = false → failedHead s die = none → topHead s die = some (prio, .queued n l) →
      findPlace s (gangNeed s l) = none → ∃ u, exec (.gangDispatch die) s = .next u ∧ u.x = s.x ∧ u.m = s.m ∧
        (dieAt u die).heads.find? (fun x => x.1 == prio) = some (prio, n, l) ∧
        (fitsSomewhere s (gangNeed s l) = false → Instr.preemption die ∈ u.c.agenda)) ∧
    (∀ prio h, topHead s die = some (prio, h) → ∃ vs : List Nat, exec (.preemption die) s =
        .next { s with c := { s.c with agenda := s.c.agenda ++ vs.map (fun v => Instr.halt v .preempt) } } ∧
      let may := fun v => ∃ q, (v, q) ∈ s.x.gangs ∧ q.die = die ∧ q.state = .resident ∧ launchPrio s q.launch < prio
      (∀ v ∈ vs, may v) ∧
      ∀ v w, v ∈ vs → may w → w ∉ vs → launchPrio s (gangAt s v).launch ≤ launchPrio s (gangAt s w).launch) ∧
    (∀ q why, s.x.gangs.find? g = some q → q.state = .resident → ∃ u, exec (.halt g why) s = .next u ∧ u.m = s.m ∧
      (gangAt u g).state = (match why with | .cancel => .aborting | .fail => .failing | w => .halted w) ∧
      ((∀ x ∈ s.x.warps, ∀ a ∈ x.2.inflight, a.got = []) → u.x.vals = s.x.vals) ∧ u.x.threads = s.x.threads ∧
      ofG u g (fun _ p => p.halted = true) ∧
      (why = .cancel → (launchAt u q.launch).bad = true)) ∧
    (∀ q, s.x.gangs.find? g = some q → gangOver s g = true → ∃ u, exec (.gangRetire g) s = .next u ∧ u.m.mem = s.m.mem ∧
      (gangAt u g).state = .retired ∧ (launchAt u q.launch).live = (launchAt s q.launch).live - 1 ∧
      (∀ w k, u.x.warps.find? w = some k → s.x.warps.find? w = some k) ∧
      (∀ w, (warpAt s w).gang = g → u.x.warps.find? w = none) ∧ (∀ x ∈ u.x.gone, x.2.gang ≠ g) ∧
      (launchOver u q.launch = true → Instr.launchRetire q.launch ∈ u.c.agenda) ∧
      (q.state = .failing → (dieAt s q.die).held.length < 256 →
        (dieAt u q.die).held = (dieAt s q.die).held ++ [evRecord (tick s) { gangFields s g 0x01 q.cause with addr := q.failAddr }])) ∧
    (launchOver s l = true → ∃ u, exec (.launchRetire l) s = .next u ∧ u.m = s.m ∧ u.x = s.x ∧ u.e = s.e ∧
      (launchAt u l).retired = true ∧ (lrSigEv r ≠ 0xFFFF → evAt u la.die (lrSigEv r) = if la.bad = true then .failed else .signalled) ∧
      ∀ d i, (d * 4096 + i ≠ la.die * 4096 + lrSigEv r ∨ lrSigEv r = 0xFFFF) → evAt u d i = evAt s d i) ∧
    ∀ q cause addr, s.x.gangs.find? g = some q → ∃ u, exec (.itemFailed g cause addr) s = .next u ∧ u.m = s.m ∧ u.e = s.e ∧
      u.x.vals = s.x.vals ∧ (q.state = .failing ∨ q.state = .retired → u = s) ∧
      (q.state ≠ .failing → q.state ≠ .retired → (gangAt u g).state = .failing ∧ (gangAt u g).cause = cause ∧
        (gangAt u g).failAddr = addr ∧ (launchAt u q.launch).bad = true ∧ ofG u g (fun _ p => p.halted = true))

/-- R357, R361, R366, R371: a gang whose commands, bids and accesses have completed is captured into its context's save region,
leaves its cores and waits; it is placed again where it fits, or fails when its record is not intact; a failing gang's dump goes
to its buffer; and a stalled gang's record to its save region, with the timer anew. -/
def Obligations.GangsAreCapturedRestoredAndDumped : Prop :=
  ∀ (die g : Nat) (s : State) (q : Gang), s.x.gangs.find? g = some q → s.x.warps.risingFrom 0 = true →
    let gone := fun (u : State) => ∀ w, (warpAt s w).gang = g → (s.x.warps.find? w).isSome = true → u.x.warps.find? w = none
    (q.state = .halted .preempt ∨ q.state = .halted .migrate → captureReady s g = true →
      let s0 := atCapture s g
      let bytes := recBytesAll s0 g (gather s0 g)
      (takeSave s0 q.ctx (roundUp bytes.length 64) = none → exec (.capture g) s = .next s) ∧
      ∀ s1 o, takeSave s0 q.ctx (roundUp bytes.length 64) = some (s1, o) → ∃ u, exec (.capture g) s = .next u ∧
        (gangAt u g).state = .captured ∧ gone u ∧ (∀ b ∈ u.pl.bids, b.gang ≠ g) ∧ u.m.mem = (saveWrite s1 q.ctx o bytes).m.mem ∧
        (u.h.captures.find? g).map (fun x => (x.off, x.len)) = some (o, bytes.length) ∧
        u.h.waiting.getD [] (captureDest q) = s.h.waiting.getD [] (captureDest q) ++ [g]) ∧
    (∀ r c ps, q.state = .captured → s.h.captures.find? g = some r → findPlace s (capNeed s die g) = some (c, ps) →
      (recordIntact s r = false → ∃ u, exec (.restore die g) s = .next u ∧ (gangAt u g).state = .failing ∧ (gangAt u g).cause = 7 ∧ u.m = s.m) ∧
      (recordIntact s r = true → r.blocks = [] → r.replays = [] → ∃ u, exec (.restore die g) s = .next u ∧
        (gangAt u g).state = .resident ∧ (gangAt u g).cluster = c ∧ (gangAt u g).die = die ∧ (gangAt u g).target = none ∧
        (gangAt u g).x = q.x ∧ (gangAt u g).y = q.y ∧ (gangAt u g).z = q.z ∧ u.m.mem = s.m.mem ∧
        u.h.waiting.getD [] die = (s.h.waiting.getD [] die).filter (· != g))) ∧
    (let r := (launchAt s q.launch).record
     let buf := dumpBuffer r
     let sections := recSections s g (gather s g)
     let all := placed 32 (sections (if 32 + (sections 2).flatten.length ≤ buf.2 then 3 else 6))
     let lost := fun (u : State) => u.m = s.m ∧ ((dieAt s q.die).held.length < 256 → (dieAt u q.die).held =
       (dieAt s q.die).held ++ [evRecord (tick s) { evZero with kind := 0x17, die := q.die, tag := lrId r, addr := buf.1 }])
     q.state = .failing → lrDump r ≠ 0 → ∃ u, exec (.dumpWrite g) s = .next u ∧ u.x = s.x ∧ u.e = s.e ∧ u.c = s.c ∧
      (buf.2 < 32 → lost u) ∧
      ((∀ t, kernelWrite s q.ctx buf.1 (dumpHead (32 + (all.map (fun x => x.2.length)).sum) 32 0 0) ≠ .ok t) → lost u)) ∧
    (∀ core, let bytes := hangBytes s g core
      ∃ u, exec (.stallTimeout g core) s = .next u ∧ (gangAt u g).hung = true ∧ (gangAt u g).progressAt = s.c.cycle ∧ u.x.paths = s.x.paths ∧
        u.e = s.e ∧ (takeSave s q.ctx (roundUp bytes.length 64) = none → u.m = s.m) ∧
        ∀ s1 o, takeSave s q.ctx (roundUp bytes.length 64) = some (s1, o) → u.m = (saveWrite s1 q.ctx o bytes).m)


/-! ### Resets, bring-up, telemetry and stops (R19, R20, R65, R321, R368, R369, R375, R379, R383, R394, R397, R399) -/

/-- R19, R20, R65, R368, R369, R375, R379, R383, R394, R397, R399: a die or cluster reset retires the gangs there and leaves
memory as it was; a die boots the image that its ROM accepts, and units report ready; a scrub counts, reports and notes what it
could not correct; the latch takes every counter; held records go to the host's ring; a sample sets sensors and throttles and
resets a die at 115 degrees; a package reset leaves the reset state but for the expanders and the flash, with every die to boot;
and breakpoints and hits hold the paths of their scopes, with a report as soon as those have completed what they had begun. -/
def Obligations.ResetsReadinessAndStopsTakeEffect : Prop :=
  ∀ (s : State) (die cluster : Nat), s.x.gangs.risingFrom 0 = true → s.x.paths.risingFrom 0 = true →
    let retires := fun (u : State) (p : Gang → Prop) => ∀ g q, s.x.gangs.find? g = some q → isResident q = true → p q →
      (q.state = .resident → gangWarps s g ≠ []) → (∀ k ∈ s.e.cmds, k.2.gang = g → queuedTurn s k.1 = false) →
      (gangAt u g).state = .retired
    let down := fun (u : State) => (dieAt u die).inReset = true ∧ (dieAt u die).clrdy = 0 ∧ (dieAt u die).dieReady = false ∧
      (∀ k, k / 64 = die → ctxAt u k = ctxZero) ∧ retires u (fun q => q.die = die) ∧ u.m.mem = s.m.mem ∧
      (∀ i, hopAt u i = { hopAt s i with retrain := (hopAt u i).retrain })
    let heldOnly := fun (u : State) => u.m = s.m ∧ u.x = s.x ∧ u.e = s.e
    (∃ u, exec .packageReset s = .next u ∧ u.x = State.reset.x ∧ u.e = State.reset.e ∧ u.pl = State.reset.pl ∧ u.r = State.reset.r ∧
      u.d = State.reset.d ∧ u.m = { State.reset.m with cxlUnits := s.m.cxlUnits } ∧ u.h = { State.reset.h with dies := u.h.dies } ∧
      u.c = { State.reset.c with agenda := u.c.agenda } ∧ (∀ k, dieAt u k = { dieZero k with fw := (dieAt s k).fw }) ∧
      ∀ k, k < 9 → Instr.romBoot k ∈ u.c.agenda) ∧
    (die < 8 → (∃ u, exec (.dieReset die) s = .next u ∧ down u) ∧
      ∃ u, exec (.thermalReset die) s = .next u ∧ down u ∧ Instr.romBoot die ∈ u.c.agenda) ∧
    (cluster < 32 → ∃ u, exec (.clusterReset cluster) s = .next u ∧ u.m.mem = s.m.mem ∧ retires u (fun q => q.cluster = cluster) ∧
      (dieAt u (cluster / 4)).clrdy.getLsbD (cluster % 4) = false ∧
      ∀ k, u.e.scr.getD 0 k = if k / 2 ^ 18 / 96 = cluster then 0 else s.e.scr.getD 0 k) ∧
    (die < 9 → (dieAt s die).dieReady = false →
      let fw := (dieAt s die).fw
      let image := fw.provisioned.getD fw.running
      let good := firmwareGood s die image
      ∃ u, exec (.romBoot die) s = .next u ∧ heldOnly u ∧ (dieAt u die).inReset = false ∧ (dieAt u die).bornAt = s.c.cycle ∧
        (dieAt u die).fw.recovery = !good ∧ (dieAt u die).fw.fused = fw.fused ∧
        (dieAt u die).fw.running = (if good = true then image else fw.running)) ∧
    (∀ kind i ready, unitThere s die kind i = true → (kind = .pUnit → ready = false) →
      ∃ u, exec (.unitReady die kind i ready) s = .next u ∧ heldOnly u ∧
        (match kind with
         | .die => (dieAt u die).dieReady = ready
         | .cluster => ∀ j, j < 4 → (dieAt u die).clrdy.getLsbD j = if j = i then ready else (dieAt s die).clrdy.getLsbD j
         | .channelGroup => ∀ j, j < 8 → (dieAt u die).mchGroups.getLsbD j = ((dieAt s die).mchGroups.getLsbD j || ready && j == i)
         | .hop => (hopAt u i).down = !ready
         | .spine => u.r = s.r ∧ (dieAt u die).spineReady = ready
         | .pUnit => (dieAt u die).pReady = false)) ∧
    (∀ pa found, ∃ u, exec (.patrolScrub die pa found) s = .next u ∧ u.m.mem = s.m.mem ∧ u.x = s.x ∧ u.e = s.e ∧
      (∀ b, b ∈ u.m.badBursts ↔ b = lpKey die (pa / 32 * 32) ∧ found = .uncorrectable ∨
        b ≠ lpKey die (pa / 32 * 32) ∧ b ∈ s.m.badBursts) ∧
      u.d.dcnt.getD 0 (die * 16) = s.d.dcnt.getD 0 (die * 16) + (if found = .corrected then 1 else 0) ∧
      u.d.dcnt.getD 0 (die * 16 + 1) = s.d.dcnt.getD 0 (die * 16 + 1) + (if found = .uncorrectable then 1 else 0) ∧
      (found = .uncorrectable → (dieAt s die).held.length < 256 → (dieAt u die).held = (dieAt s die).held ++
        [evRecord (tick s) { evZero with kind := 0x11, die := die, addr := BitVec.ofNat 64 pa }])) ∧
    (∃ u, exec .manifestLatch s = .next u ∧ u.x = s.x ∧ u.e = s.e ∧ u.d.cnt = s.d.cnt ∧ u.d.ccnt = s.d.ccnt ∧ u.d.dcnt = s.d.dcnt ∧
      ∀ k, k < 2 ^ 32 → u.d.latched.getD 0 k = s.d.cnt.getD 0 k ∧
        (s.d.ccnt.risingFrom 0 = true → k ∈ s.d.ccnt.map (·.1) → u.d.latched.getD 0 (k + 2 ^ 32) = s.d.ccnt.getD 0 k)) ∧
    (let d := dieAt s die
     (d.evRing = none → exec (.eventFold die) s = .next s) ∧
      ∀ r, d.evRing = some r → ∃ u, exec (.eventFold die) s = .next u ∧ u.x = s.x ∧ u.e = s.e ∧
        (dieAt u die).held = d.held.drop (ringFree r) ∧
        (dieAt u die).noDispatch = (d.noDispatch && decide (128 ≤ (d.held.drop (ringFree r)).length)) ∧
        ∃ fs, u.h.out = s.h.out ++ (d.held.take (ringFree r) ++ fs).map (HostMsg.event die) ∧
          (dieAt u die).folds = d.folds.drop fs.length ∧ fs = (d.folds.take fs.length).map foldBits ∧
          (ringFree r < d.held.length → fs = [])) ∧
    (∀ rs : List Reading, ∃ u, exec (.powerSample rs) s = .next u ∧ heldOnly u ∧
      u.c.pkgThrottle = (let sum := ((rs.take 9).map (·.watts)).sum
        decide (s.c.pkgLimit < sum) || (s.c.pkgThrottle && sum == s.c.pkgLimit)) ∧
      ∀ i x, i < 9 → rs[i]? = some x → (dieAt u i).sensors = x ∧ (dieAt u i).throttle = throttleOf (dieAt s i) x ∧
        (115 ≤ x.temp → i < 8 → Instr.thermalReset i ∈ u.c.agenda)) ∧
    (∀ pid i b, atBreakpoint s pid = some (i, b) → ∃ u rs, exec (.breakpointHit pid) s = .next u ∧ u.m = s.m ∧
      let gang := (warpAt s (warpOfPath pid)).gang
      let ctx := (gangAt s gang).ctx
      let pids := scopePaths s b.scope ctx (clusterOf (coreOfPath pid)) [gang] [pid]
      (pids.any (midBundle u) = false → u.h.out = s.h.out ++ [.stop ctx rs []]) ∧
      (pids.any (midBundle u) = true → u.h.out = s.h.out ∧ ∃ r ∈ u.d.stops, r.ctx = ctx ∧ r.pids = pids) ∧
      ∀ p ∈ pids, (pathAt u p).held = true ∧ (pathAt u p).dbgCause.getLsbD 0 = true ∧ (pathAt u p).pc = (pathAt s p).pc) ∧
    ∃ u, exec (.watchHit cluster) s = .next u ∧ u.m = s.m ∧ (∀ x ∈ u.d.hits, x.cluster = cluster → x.sent = true) ∧
      ∀ x ∈ s.d.hits, x.cluster = cluster → x.widx < 8 → x.sent = false → ∀ p ∈ hitPaths s cluster x,
        (pathAt u p).held = true ∧ (pathAt u p).dbgCause.getLsbD 2 = true ∧ (pathAt u p).pc = (pathAt s p).pc


/-! ### Requests of the host (R42, R68, R69, R79, R81 to R85, R320, R329 to R331, R337, R357, R391 to R396, R400, R422) -/

/-- R391, R392, R395: each request on launches, queues, events, memory, contexts, handles, modules and identifiers is turned away
with its STATUS, refused with the first failing code and its field, or carried out, with STATUS 0 once it is complete. -/
def Obligations.LaunchMemoryAndHandleRequestsAreAnswered : Prop :=
  ∀ (s : State) (h : Hdr), s.x.gangs.risingFrom 0 = true → s.h.events.risingFrom 0 = true → s.m.cxlOwner.risingFrom 0 = true →
    s.h.handles.risingFrom 0 = true → s.h.launches.risingFrom 0 = true →
    let ctx := ctxKey h
    let no := notLive s h
    let ans := fun checks o ok => Answers s h shaderOnly (firstFail checks) o (fun u => Replied s u h [] ∧ ok u)
    let ctxIs := fun (u : State) x => ctxAt u ctx = x ∧ (∀ c, c ≠ ctx → ctxAt u c = ctxAt s c) ∧ Aside s u
    (∀ q r, Answers s h shaderOnly (launchCheck s h q r) (exec (.launchSubmit h q r) s) (fun u => Replied s u h [] ∧ Aside s u ∧
      (queueAt u h.die q).launches = (queueAt s h.die q).launches ++ [s.c.nextId] ∧ (queueAt u h.die q).prio = (queueAt s h.die q).prio ∧
      let l := launchAt u s.c.nextId
      l.die = h.die ∧ l.ctx = ctx ∧ l.record = r ∧ l.next = 0 ∧ l.live = 0 ∧ l.retired = false)) ∧
    (∀ id, (∀ i ∈ s.c.agenda, i ≠ .gangDispatch h.die) → ans [((launchesNamed s h id).isEmpty, 0x3B)] (exec (.launchCancel h id) s)
      (fun u => u.m = s.m ∧ u.e = s.e ∧ ∀ l ∈ launchesNamed s h id, (launchAt u l.1).next = gangTotal l.2.record ∧
        (∀ q, l.1 ∉ (queueAt u h.die q).launches ∨ q ≠ l.2.queue) ∧
        ∀ g x, (g, x) ∈ s.x.gangs → x.launch = l.1 → isResident x = true → Instr.halt g .cancel ∈ u.c.agenda)) ∧
    (∀ q p, ans [(decide (63 < q), 0x3A), (decide (7 < p), offCode 0x3A 1), (!(queueAt s h.die q).launches.isEmpty, 0x3A)]
      (exec (.queuePriority h q p) s) (fun u => Aside s u ∧ (queueAt u h.die q).prio = p)) ∧
    (∀ i, ans [(decide (4095 < i), 0x3B)] (exec (.eventSet h i) s) (fun u => Aside s u ∧ evAt u h.die i = .signalled) ∧
      ans [(decide (4095 < i), 0x3B)] (exec (.eventReset h i) s) (fun u => Aside s u ∧ evAt u h.die i = .reset)) ∧
    (∀ k det, ans [(decide (k < 16) || decide (34 < k), 0x3B), (decide (1 < det), offCode 0x3B 1)] (exec (.deviceSettings h k det) s)
      (fun u => Aside s u ∧ (dieAt u h.die).stallK = k ∧ (dieAt u h.die).det = (det == 1))) ∧
    (∀ base len leaf, ans [(rangeBad base len, rangeCode base), (templateBad s h.die leaf len, offCode 0x31 16), (no, 0x38),
        ((ctxEntries s ctx base.toNat (base.toNat + len.toNat)).any (fun e => pteV e.2.2), 0x32),
        ((mapRange s ctx base.toNat len.toNat leaf).isNone, 0x33)] (exec (.memMap h base len leaf) s)
      (fun u => u.x = s.x ∧ u.e = s.e ∧ ∀ t, mapRange s ctx base.toNat len.toNat leaf = some t → u.m = t.m)) ∧
    (∀ base len, let hi := base.toNat + len.toNat
      let after := unmapRange s ctx base.toNat hi
      Answers s h shaderOnly (firstFail [(rangeBad base len, rangeCode base), (no, 0x38),
        ((ctxEntries s ctx base.toNat hi).isEmpty, 0x32), (after.isNone, 0x33)]) (exec (.memUnmap h base len false) s) (fun u =>
        u.x = s.x ∧ u.e = s.e ∧ ∀ t, after = some t →
          let busy := accessesIn t ctx base.toNat hi || countsIn t ctx base.toNat hi
          (busy = true → u.m = t.m ∧ u.h.out = s.h.out ∧ Instr.memUnmap h base len true ∈ u.h.deferred) ∧
          (busy = false → u.m = (finishUnmap t ctx base.toNat hi).m ∧ Replied s u h []))) ∧
    (∀ base len, base ≠ 0 ∨ len ≠ 0 → Answers s h shaderOnly (firstFail [(rangeBad base len, rangeCode base), (no, 0x38)])
      (exec (.memInvalidate h base len) s) (fun u => u.m.mem = s.m.mem ∧ u.x = s.x ∧ u.e = s.e ∧
        (∀ core va, base.toNat ≤ va.toNat → va.toNat < base.toNat + len.toNat → tlbFind u core ctx va = none) ∧
        (accessesIn s ctx base.toNat (base.toNat + len.toNat) = false → Replied s u h []))) ∧
    (∀ base size, ans [(base.toNat % 65536 != 0, 0x34), (decide (size.toNat < 2 ^ 20), offCode 0x34 8),
        (!rangeLocal s ctx [.rd, .wr] base size.toNat, 0x34), (no, 0x38)] (exec (.saveRegion h base size) s)
      (fun u => ctxIs u { ctxAt s ctx with save := some { base := base, size := size.toNat, used := [] } })) ∧
    (∀ n, ans [(!unitExists s n || (match s.m.cxlOwner.find? n with | none => false | some d => d != h.die), 0x35), (no, 0x38)]
        (exec (.cxlUnitAssign h n true) s) (fun u => u.m.cxlOwner.find? n = some h.die ∧ u.m.mem = s.m.mem ∧ u.x = s.x) ∧
      ans [(!unitExists s n || s.m.cxlOwner.find? n != some h.die, 0x35), (no, 0x38)] (exec (.cxlUnitAssign h n false) s)
        (fun u => u.m.cxlOwner.find? n = none ∧ u.m.mem = s.m.mem ∧ u.x = s.x)) ∧
    (∀ base remote handle (len : BitVec 64) toLocal, ans [(!rangeRight s ctx (if toLocal = true then .wr else .rd) base.toNat len.toNat, 0x36),
        ((s.h.remote.find? (remoteKey remote handle)).isNone, offCode 0x36 8), (len.toNat % 64 != 0, offCode 0x36 18), (no, 0x38)]
      (exec (.moduleCopy h base remote handle len toLocal) s) (fun u => u.x = s.x ∧ u.e = s.e ∧
        (toLocal = false → u.m = s.m) ∧ (toLocal = true → ∀ far t, s.h.remote.find? (remoteKey remote handle) = some far →
          kernelWrite s ctx base (far.getsD 0 0 len.toNat) = .ok t → u.m = t.m))) ∧
    (∀ tenant, ans [((ctxAt s ctx).tenant != tenant && (ctxImports s ctx || ctxExports s ctx || ctxGangs s ctx), 0x37), (no, 0x38)]
      (exec (.contextTenant h tenant) s) (fun u => ctxIs u { ctxAt s ctx with tenant := tenant })) ∧
    ans [((takeBlock s h.die).isNone, 0x33), ((ctxAt s ctx).state != .free, 0x39)] (exec (.contextOpen h) s)
      (fun u => u.x = s.x ∧ u.e = s.e ∧ ∃ root, ctxAt u ctx = { ctxZero with state := .live, root := root }) ∧
    ans [((ctxAt s ctx).state != .live || ctxHolds s ctx, 0x39)] (exec (.contextClose h) s)
      (fun u => u.x = s.x ∧ u.e = s.e ∧ ctxAt u ctx = ctxZero ∧ ∀ b ∈ u.d.bps, b.1 / 64 ≠ ctx) ∧
    (∀ base len (rights : BitVec 8), Answers s h shaderOnly (firstFail [(no, 0x38), (base.toNat % 65536 != 0, 0x40),
        (len.toNat % 65536 != 0 || len == 0 || decide (2 ^ 38 < len.toNat), offCode 0x40 8), (decide (8 ≤ rights.toNat), offCode 0x40 16),
        (!rangeOwn s ctx base.toNat len.toNat, 0x40), ((freeExport s h.die).isNone, 0x41)]) (exec (.handleExport h base len rights) s)
      (fun u => Aside s u ∧ ∃ ix x, freeExport s h.die = some ix ∧ u.h.exports.find? (h.die * 16384 + ix) = some x ∧
        x.live = true ∧ x.ctx = ctx ∧ x.base = base ∧ x.pages = len.toNat / 65536 ∧ x.maxrt = rights.setWidth 4 ∧ x.imports = [] ∧
        x.gen = (match s.h.exports.find? (h.die * 16384 + ix) with | none => 1 | some y => y.gen) ∧
        Replied s u h (leBytes 8 (handleWord h.die ix x.gen x.pages x.maxrt).toNat))) ∧
    (∀ v window rights route, turnedAway s h shaderOnly = none → linked s h.die (hdDie v) = false →
      exec (.handleImport h v window rights route) s = .next (reply s h 2 0 0 [])) ∧
    (∀ v x window (rights route : BitVec 8), exportAt s v = some x → turnedAway s h shaderOnly = none → no = false → handleGood s v = true →
      linked s h.die (hdDie v) = true →
      window.toNat % 65536 = 0 → 2 ^ 56 ≤ window.toNat → window.toNat + x.pages * 65536 ≤ 2 ^ 57 →
      rights.setWidth 4 &&& ~~~(hdMaxrt v) = 0 → rights.toNat / 16 < 3 → route.toNat < 3 →
      (ctxEntries s ctx window.toNat (window.toNat + x.pages * 65536)).any (fun e => pteV e.2.2) = false →
      ∀ t, importPages h.die ctx v x (rights.setWidth 4) (rights.toNat / 16) window.toNat x.pages s = some t →
        ∃ u, exec (.handleImport h v window rights route) s = .next u ∧ Replied s u h [] ∧ u.m = t.m ∧ u.x = s.x ∧
          (u.h.exports.find? (hdDie v * 16384 + hdExp v)).map (·.imports) = some (x.imports ++ [(h.die, h.ctx)])) ∧
    (∀ v, ans [(no, 0x38), (!(handleGood s v && (match exportAt s v with | some x => x.ctx == ctx && hdDie v == h.die | none => false)), 0x44)]
      (exec (.handleRevoke h v) s) (fun u => Aside s u ∧ ∀ x, exportAt s v = some x →
        exportAt u v = some { x with live := false, gen := x.gen % 15 + 1 })) ∧
    (∀ image len base img, turnedAway s h shaderOnly = none → no = false → kernelRead s ctx len.toNat image = some img →
      (∀ f, loadCheck s h img base = some f → exec (.moduleLoad h image len base) s = .next (refuse s h (offCode f.1 f.2))) ∧
      (∀ t, loadCheck s h img base = none → loadModule s h img base = some t → exec (.moduleLoad h image len base) s = .next t)) ∧
    (∀ k : BitVec 64, (∀ r, s.h.handles.find? k.toNat = some r → r.leaving = none) →
      (turnedAway s h shaderOnly = none → (∀ r, s.h.handles.find? k.toNat = some r → r.ctx ≠ ctx) → no = false →
        exec (.moduleUnload h k) s = .next (refuse s h 0x45)) ∧
      ∀ r, turnedAway s h shaderOnly = none → no = false → s.h.handles.find? k.toNat = some r → r.ctx = ctx →
        ∃ u, exec (.moduleUnload h k) s = .next u ∧ u.x = s.x ∧ u.e = s.e ∧
          let rg := dataRange (moduleAt s r.module)
          let others := otherHandles s k.toNat ctx r.module
          let busy := handleBusy s k.toNat || (!others && rangeBusy s ctx rg.1 rg.2)
          (busy = true → u.h.out = s.h.out ∧ u.m = s.m ∧ Instr.moduleUnload h k ∈ u.h.deferred ∧
            (u.h.handles.find? k.toNat).bind (·.leaving) = some h) ∧
          (busy = false → Replied s u h [] ∧ u.h.handles.find? k.toNat = none ∧ (others = true → u.m = s.m))) ∧
    (∀ i gate (al : Bool), let e := planeAt s h.die i
      let freeing := s.pl.revoking.any (fun r => r.1.die == h.die && r.2 == i)
      let bad := decide (223 < i) || (if al = true then e.holder.isSome && e.holder != some ctx else e.holder != some ctx)
      (freeing = true → turnedAway s h shaderOnly = none → ∃ u, exec (.identifierAllocate h i gate al) s = .next u ∧
        u.pl = s.pl ∧ u.h.out = s.h.out ∧ Instr.identifierAllocate h i gate al ∈ u.h.deferred) ∧
      (freeing = false → Answers s h shaderOnly (firstFail [(no, 0x38), (bad, 0x46)]) (exec (.identifierAllocate h i gate al) s) (fun u =>
        u.x = s.x ∧ u.m = s.m ∧ (al = true → Replied s u h [] ∧ planeAt u h.die i = { e with holder := some ctx, gate := gate }) ∧
        (al = false → u.pl.revoking = s.pl.revoking ++ [(h, i)] ∧ u.h = s.h)))) ∧
    ∀ grant, ans [(no, 0x38)] (exec (.turnRightGrant h grant) s) (fun u => ctxIs u { ctxAt s ctx with turnRight := grant })

/-- R372 to R379, R393, R416, R419: a debugger attaches and detaches, sets breakpoints and watchpoints, stops, steps, focuses and
releases the paths of the launches it may act on, and reads their values. R165, R306, R383, R384, R393, R397 to R399: rings, read
indices, tracing, the manifest period, firmware, power limits and retraining are set or answered. Each request is turned away,
refused with the first failing code and its field, or carried out. -/
def Obligations.DebuggerAndDeviceRequestsAreAnswered : Prop :=
  ∀ (s : State) (h : Hdr), Canonical s →
    let ctx := ctxKey h
    let no := notAttached s h
    let ans := fun checks o ok => Answers s h shaderOnly (firstFail checks) o ok
    let every := fun check o ok => Answers s h everyDie check o (fun u => Replied s u h [] ∧ u.m = s.m ∧ u.x = s.x ∧ u.e = s.e ∧ ok u)
    let d := dieAt s h.die
    let dieIs := fun (u : State) x => dieAt u h.die = x ∧ ∀ k, k ≠ h.die → dieAt u k = dieAt s k
    let on := fun (u : State) b => (ctxAt u ctx).debugger = b ∧ Replied s u h [] ∧ Aside s u
    let steps := fun (p : PathName) sync o => ans [(no, 0x55), ((heldPath s h p).isNone, 0x57)] o (fun u => u.m = s.m ∧ u.e = s.e ∧ u.h = s.h ∧
      ∀ pid, heldPath s h p = some pid → u.d.steps = s.d.steps ++ [{ h := h, pid := pid, sync := sync, from_ := s.c.nextId, toks := none }] ∧
        (pathAt u pid).held = false ∧ (pathAt u pid).stepping = true ∧ (pathAt u pid).pc = (pathAt s pid).pc ∧
        ∀ q, q ≠ pid → u.x.paths.find? q = s.x.paths.find? q)
    let noLaunch := fun id => no || (debugLaunch s h id).isEmpty
    Answers s h shaderOnly none (exec (.debugAttach h) s) (fun u => on u true) ∧
    ans [(no, 0x55)] (exec (.debugDetach h) s) (fun u => on u false) ∧
    (∀ i v scope, ans [(no, 0x55), (decide (63 < i), 0x56), (decide (2 < scope), offCode 0x56 5)] (exec (.debugBreakpoint h i v scope) s)
      (fun u => Replied s u h [] ∧ u.d.bps.find? (ctx * 64 + i) = some { vpc := v, scope := scope } ∧ u.x = s.x ∧ u.m = s.m)) ∧
    (∀ i a kinds scope, ans [(watchBad a kinds, offCode 0x53 1), (a.extractLsb' 0 3 != 0, offCode 0x54 1), (no, 0x55), (decide (7 < i), 0x56),
        (decide (2 < scope), offCode 0x56 10)] (exec (.debugWatchpoint h i a kinds scope) s) (fun u => Replied s u h [] ∧ u.x = s.x ∧
          u.m.mem = s.m.mem ∧ ∀ cl ∈ watchClusters h.die a,
            u.d.watches.find? (cl * 8 + i) = some { ctx := ctx, addr := a, kinds := kinds, scope := scope })) ∧
    (∀ id scope freeze, ans [(noLaunch id, 0x55), (decide (2 < scope), offCode 0x56 8)] (exec (.debugStop h id scope freeze) s)
        (fun u => u.m = s.m ∧ (∀ p ∈ launchPaths s h id scope, (pathAt u p).held = true ∧ (pathAt u p).pc = (pathAt s p).pc) ∧
          (freeze = true → ∀ p ∈ launchPaths s h id scope, coreOfPath p ∈ u.d.frozen) ∧
          ((∀ p ∈ launchPaths s h id scope, midBundle u p = false) → ∃ rs, u.h.out = s.h.out ++ [.stop ctx rs [], .reply h 0 0 0 []]) ∧
          ((∃ p ∈ launchPaths s h id scope, midBundle u p = true) → Replied s u h [] ∧
            u.d.stops = s.d.stops ++ [{ ctx := ctx, pids := launchPaths s h id scope, hits := [] }])) ∧
      ans [(noLaunch id, 0x55), (decide (2 < scope), offCode 0x56 8)] (exec (.debugRelease h id scope freeze) s)
        (fun u => u.m = s.m ∧ Replied s u h [] ∧ ∀ p ∈ launchPaths s h id scope, (pathAt u p).held = false ∧
          (pathAt u p).pc = (pathAt s p).pc ∧ coreOfPath p ∉ u.d.frozen)) ∧
    (∀ p, steps p false (exec (.debugStep h p) s) ∧ steps p true (exec (.stepSync h p) s)) ∧
    (∀ (p : PathName) pid, p.mask ≠ 0 → turnedAway s h shaderOnly = none →
      namedPath s { p with mask := (pathAt s ((namedPath s p).getD 0)).mask } = some pid →
      let q := pathAt s pid
      q.held = true → oneLane q p.mask = true → (pathsOf s (warpOfPath pid)).any (fun x => x.2.focus) = false → no = false →
      (gangAt s (warpAt s (warpOfPath pid)).gang).ctx = ctx → ∃ u, exec (.debugFocus h p) s = .next u ∧ u.m = s.m ∧ u.e = s.e ∧
        (freePath s (warpOfPath pid) ≠ pid → (pathAt u pid).mask = p.mask ∧ (pathAt u pid).focus = true ∧
          (q.mask &&& ~~~p.mask ≠ 0 → (pathAt u (freePath s (warpOfPath pid))).mask = q.mask &&& ~~~p.mask ∧
            (pathAt u (freePath s (warpOfPath pid))).parked = true))) ∧
    (∀ p values pid, turnedAway s h shaderOnly = none → no = false → heldPath s h p = some pid →
      let t := if imageOf s pid = none then s else rebuild s pid 0
      exec (.readValues h p values) s = .next (done s h (values.flatMap (fun v => (pathAt s pid).mask.lanes.map (fun l =>
        getVal t (threadKey pid l) (pathAt s pid).frames.length v))))) ∧
    (∀ base size, let r : RecRing := { ctx := ctx, base := base, size := size.toNat, wr := 0, rd := 0 }
      every (ringCheck s ctx base size) (exec (.eventRing h base size) s) (fun u => dieIs u { d with evRing := some r }) ∧
      every (ringCheck s ctx base size) (exec (.manifestRing h base size) s) (fun u => dieIs u { d with mfRing := some r })) ∧
    (∀ ix : BitVec 64, let past := fun (r : Option RecRing) => match r with | none => true | some r => decide (r.wr < ix.toNat)
      let read := fun (r : Option RecRing) => r.map (fun r => { r with rd := ix.toNat })
      every (firstFail [(past d.evRing, 0x61)]) (exec (.eventReadIndex h ix) s) (fun u => dieIs u { d with evRing := read d.evRing }) ∧
      every (firstFail [(past d.mfRing, 0x61)]) (exec (.manifestReadIndex h ix) s) (fun u => dieIs u { d with mfRing := read d.mfRing })) ∧
    (∀ b, every none (exec (.tracing h b) s) (fun u => dieIs u { d with traceOn := b })) ∧
    (∀ k, every (firstFail [(decide (k < 10) || decide (24 < k) || h.die != 8, 0x62)]) (exec (.manifestPeriod h k) s) (fun u => u.c.mfK = k)) ∧
    Answers s h fwServe none (exec (.fwIdentity h) s) (fun u => Aside s u ∧
      Replied s u h (leBytes 8 (descriptor s h.die).toNat ++ Config.identityKey h.die)) ∧
    (∀ nonce, Answers s h fwServe (firstFail [(d.fw.recovery, 0x73)]) (exec (.fwAttest h nonce) s) (fun u => Aside s u ∧
      ∃ body, Replied s u h (body ++ Config.attestSign h.die body) ∧ body.take nonce.length = nonce)) ∧
    (∀ a len bs, turnedAway s h fwServe = none → fwImage s h a len.toNat = some bs → ∃ u, exec (.fwProvision h a len) s = .next u ∧
      Aside s u ∧ (let good := Config.fwKeyOk h.die bs && Config.fwSigOk bs
        if good = false then u.h.out = s.h.out ++ [.reply h 1 0x70 0 []]
        else if Config.fwVersion bs < d.fw.fused then u.h.out = s.h.out ++ [.reply h 1 0x71 0 []]
        else Replied s u h [] ∧ dieIs u { d with fw := { d.fw with provisioned := some bs } })) ∧
    Answers s h fwServe (firstFail [(d.fw.provisioned.isNone, 0x72)]) (exec (.fwActivate h) s) (fun u => Replied s u h [] ∧ Aside s u ∧
      u.c.agenda = s.c.agenda ++ if h.die = 8 then [.packageReset] else [.dieReset h.die, .romBoot h.die]) ∧
    Answers s h everyDie none (exec (.powerSensors h) s) (fun u => Aside s u ∧ ∃ amps, amps.length = 8 ∧
      Replied s u h (leBytes 2 d.sensors.watts ++ leBytes 1 d.sensors.temp ++ leBytes 1 0 ++ amps)) ∧
    (∀ w, every (firstFail [(h.die != 8 || decide (w < 1000) || decide (4500 < w), 0x78)]) (exec (.packageLimit h w) s)
      (fun u => u.c.pkgLimit = w)) ∧
    (∀ r a, every (firstFail [(decide (rails h.die ≤ r), 0x79), (decide (a < 20) || decide (400 < a), offCode 0x79 1)]) (exec (.railLimit h r a) s)
      (fun u => dieIs u { d with railLimit := d.railLimit.set r a })) ∧
    ∀ hop, Answers s h everyDie (firstFail [(decide (7 < hop) || (dieAt s (endDie hop 0)).inReset || (dieAt s (endDie hop 1)).inReset, 0x7A)])
      (exec (.retrainHop h hop) s) (fun u => u.h = s.h ∧ u.m = s.m ∧ u.x = s.x ∧
        (hopAt u hop).retrain = some ((hopAt s hop).retrain.getD [] ++ [h]) ∧
        ((hopAt s hop).turning = none → (hopAt s hop).retrain = none → (hopAt u hop).dirs = hopZero.dirs ∧
          ∀ x, x < 16 → strandOf (hopAt u hop) x = .draining))

/-! ### Reset, decoding and the step (R27 to R32, R45 to R49, R59, R163, R240, R255, R295, R297, R298, R307, R308, R383) -/

/-- What reset leaves, where the rules give it: every context free (R69), no unit ready (R19), every cluster's budget pool at 4096
(R255), strands 0 to 7 clockwise and 8 to 15 counter-clockwise on every hop (R295), every allowance at the slots it covers (R297,
R298), every ROUND, LAST key and line pointer zero and every LAST die 15 (R308), 2^16 cycles of manifest period (R383), the mode
word of R240 and the table state of R233 wherever a workgroup starts. A token entry is reserved empty (R101). The cycle and the
frame count begin at 0 and every map is in canonical form. That memory lists nothing is the model's choice (log 3). -/
def Obligations.ResetLeavesTheValuesOfTheRules : Prop :=
  let s := State.reset
  Canonical s ∧ s.c.cycle = 0 ∧ s.pl.fc = 0 ∧ s.c.mfK = 16 ∧ s.c.pkgLimit = 4500 ∧ s.c.agenda = [] ∧ s.c.issue = none ∧
    (∀ k, (ctxAt s k).state = .free) ∧
    (∀ die, (dieAt s die).dieReady = false ∧ (dieAt s die).clrdy = 0 ∧ (dieAt s die).mchGroups = 0 ∧
      (dieAt s die).spineReady = false ∧ (dieAt s die).pReady = false ∧ (dieAt s die).stallK = 26) ∧
    (∀ k, (clusterAt s k).pool = 4096 ∧ (clusterAt s k).cache = []) ∧
    (∀ hop i, i < 16 → (hopAt s hop).dirs[i]? = some (if i < 8 then Dir.cw else Dir.ccw) ∧ (hopAt s hop).down = true) ∧
    (∀ k, (bufAt s k).a0 = 10 ∧ (bufAt s k).a1 = 10 ∧ (bufAt s k).ash = 460 ∧ (bufAt s k).aesc = 16) ∧
    (∀ die i, let e := planeAt s die i
      e.holder = none ∧ e.gate = 0 ∧ e.round = 0 ∧ e.lastKey = 0 ∧ e.lastDie = 15 ∧ e.lastRound = 0) ∧
    (∀ die line, s.pl.ptrs.getD 0 (die * 8 + line) = 0) ∧
    (∀ core, (mxAt s core).mode = 0x12861 ∧ (mxAt s core).flagw = List.replicate 8 0 ∧
      (sfAt s core).valid0 = false ∧ (sfAt s core).valid1 = false ∧ (sfAt s core).cur = false ∧ (sfAt s core).ver = 0) ∧
    (∀ core k, s.e.acc.getD 0 (core * 8 * 4096 + k) = 0 ∧ s.e.chunks.getD .empty k = .empty) ∧
    (∀ t, (threadAt s t).flags = 0 ∧ (threadAt s t).mode = 0 ∧ (threadAt s t).seed = 0) ∧
    ∀ i, (entryAt s i).filled = false ∧ (entryAt s i).status = 0 ∧ ∀ a, memByte s a = Config.emptyByte

/-- R27, R28, R31, R45, R46, R49: words, extension words, slots and a bundle header that the rules write out decode to the
instructions they stand for. -/
def Obligations.WrittenOutWordsDecode : Prop :=
  decodePlimet [0x100800028001B000] = .ok (.add (.p { ty := 1, md := 0, a := .back 2, b := .imm 1, c := .none, ext := [] })) ∧
    decodePlimet [0x0180D001B000B000, 0xFF0200038000B000] =
      .ok (.br { ty := 0, md := 0, a := .index 1, b := .none, c := .none, ext := [.back 3, .imm 0] }) ∧
    decodePlimet [0x3285000300020001] = .ok (.fma (.p { ty := 0, md := 5, a := .back 3, b := .back 2, c := .back 1, ext := [] })) ∧
    decodePlimet [0x580100018002B000] = .ok (.ld (.p { ty := 0, md := 1, a := .back 1, b := .imm 2, c := .none, ext := [] })) ∧
    decodeSlot 0 0x160E402801BFFFFF012 =
      .ok (.ld (.n { slot := 0, ntype := 7, md := 1, gs := 0, dst := 20, sa := 6, sb := 2047, sc := 2047, aux := 0x012 })) ∧
    decodeBundle 0x32400FFFFFFFFFFF00032B80060030080300004061C0B81740FFF0000C220000 = .ok {
      kind := 0
      stop := 0
      g0 := { reg := 97, bit := 4, pol := false }
      g1 := { reg := 0, bit := 0, pol := false }
      s0 := .add (.n { slot := 0, ntype := 3, md := 0, gs := 1, dst := 1541, sa := 1541, sb := 1665, sc := 2047, aux := 0 })
      s1 := .fma (.n { slot := 1, ntype := 7, md := 0, gs := 0, dst := 12, sa := 3, sb := 4, sc := 12, aux := 0 })
      s2 := .bnop { slot := 2, ntype := 0, md := 0, gs := 0, dst := 2047, sa := 2047, sb := 2047, sc := 2047, aux := 0 } }

/-- The instruction that a step issues is the one the bytes decode to: `step` takes the first event of the agenda; else, for a
chosen path that no breakpoint holds and whose translation is in the cluster's cache, it is `exec` of the decoded word with
`settleIssue` after it, or the three slots of the bundle in order, and then `endBundle`. The chosen path no longer counts as the
youngest. A kernel's own frame is made before its first word. -/
def Obligations.AStepRunsTheDecodedInstruction : Prop :=
  ∀ (s : State),
    let after := fun (pid : Nat) (o : Out) => match o with
      | .next u => Host.Outcome.next (settleIssue s u pid)
      | r => r
    (∀ i is, s.c.agenda = i :: is → step s = match exec i { s with c := { s.c with agenda := is } } with
      | .fault .noSuchAgent => .next { s with c := { s.c with agenda := is } }
      | r => r) ∧
    ∀ i t, s.c.agenda = [] → s.c.issue = some i → (s.x.paths.find? i.pid).isSome = true → atBreakpoint s i.pid = none →
      imageAt s (clusterOf (coreOfPath i.pid)) (pathKey s i.pid) = some t →
      let p := pathAt s i.pid
      let s0 := updPath s i.pid (fun q => { q with youngest := false })
      (∀ v ins, p.pc = .word v → instrAt (ctxOf s i.pid).func.code v.ix = .ok ins →
        (p.frames ≠ [] ∨ p.s124 ≠ 0 → step s = after i.pid (exec ins s0)) ∧
        (p.frames = [] → p.s124 = 0 → 16 + 4 * t.frameW ≤ stackSize s (warpOfPath i.pid) →
          step s = after i.pid (exec ins (kernelFrame s0 i.pid t)))) ∧
      (∀ key ix b, p.pc = .bundle key ix → t.bundled = true → bundleAt t ix = some b → bundleLegal t ix = true →
        (∀ f, b.s2 = .sfLoad f → (wgAt s ((warpAt s (warpOfPath i.pid)).gang * 128 + (warpAt s (warpOfPath i.pid)).wg)).usesSf = true) →
        (∀ x ∈ [b.s0, b.s1, b.s2], pairBad s0 i.pid t.key.cap x = false) →
        ∀ u, runSlots b i.pid [0, 1, 2] (withLatch s0 i.pid) = .next (u, none) →
          step s = .next (settleIssue s (afterStop (endBundle s0 u i.pid t ix b) i.pid b) i.pid))

/-- Every operand of every field at every value survives: decoding what `encode` writes for a well-formed word of the portable
level gives the instruction back, and so for a slot and for a bundle of three well-formed slots (R27 to R32, R45 to R49, R59). -/
def Obligations.DecodingUndoesEncoding : Prop :=
  (∀ (i : Instr) (op : Op) (f : PForm), i.opForm = some (op, .p f) → i.wf = true → decodePlimet (encode i) = .ok i) ∧
    (∀ (i : Instr) (op : Op) (f : NForm), i.opForm = some (op, .n f) → i.wf = true →
      ∃ w, encodeNative i = some w ∧ decodeSlot f.slot.toNat w = .ok i) ∧
    ∀ (b : Bundle) (f0 f1 f2 : NForm) (o0 o1 o2 : Op), b.s0.opForm = some (o0, .n f0) → b.s1.opForm = some (o1, .n f1) →
      b.s2.opForm = some (o2, .n f2) → b.s0.wf = true → b.s1.wf = true → b.s2.wf = true → f0.slot = 0 → f1.slot = 1 → f2.slot = 2 →
      b.kind ≠ 3 → b.stop ≠ 3 → ∃ w, encodeBundle b = some w ∧ decodeBundle w = .ok b

/-- From every state whose memory is in canonical form (addresses strictly rising, no byte listed that an unlisted address reads
as), a step answers a state whose memory is. -/
def Obligations.EveryStepKeepsMemoryCanonical : Prop :=
  ∀ s u : State, Memory.wf s.m.mem = true → step s = .next u → Memory.wf u.m.mem = true
end

