-- ==== Sys2Proof/Laws/Dispatch.lean ====
section
/-!
SUPPORT. One equation for each arm of `exec`: the meaning that an instruction runs.
-/
namespace Sys2Proof.Machine

section
variable (s : State)

theorem exec_br (f : PForm) : exec (.br f) s = execBr f s := rfl
theorem exec_brc (f : PForm) : exec (.brc f) s = execBrc f s := rfl
theorem exec_switch (f : PForm) : exec (.switch f) s = execSwitch f s := rfl
theorem exec_call (f : PForm) : exec (.call f) s = execCall f s := rfl
theorem exec_callx (f : PForm) : exec (.callx f) s = execCallx f s := rfl
theorem exec_ret (f : PForm) : exec (.ret f) s = execRet f s := rfl
theorem exec_exit (f : Form) : exec (.exit f) s = execExit f s := rfl
theorem exec_trap (f : Form) : exec (.trap f) s = execTrap f s := rfl
theorem exec_unreach (f : PForm) : exec (.unreach f) s = execUnreach f s := rfl
theorem exec_const (f : PForm) : exec (.const f) s = execConst f s := rfl
theorem exec_sreg (f : Form) : exec (.sreg f) s = execSreg f s := rfl
theorem exec_select (f : Form) : exec (.select f) s = execSelect f s := rfl
theorem exec_trapInfo (f : Form) : exec (.trapInfo f) s = execTrapInfo f s := rfl
theorem exec_trapRet (f : Form) : exec (.trapRet f) s = execTrapRet f s := rfl
theorem exec_add (f : Form) : exec (.add f) s = execAdd f s := rfl
theorem exec_sub (f : Form) : exec (.sub f) s = execSub f s := rfl
theorem exec_mul (f : Form) : exec (.mul f) s = execMul f s := rfl
theorem exec_mulhi (f : Form) : exec (.mulhi f) s = execMulhi f s := rfl
theorem exec_mad (f : Form) : exec (.mad f) s = execMad f s := rfl
theorem exec_div (f : Form) : exec (.div f) s = execDiv f s := rfl
theorem exec_rem (f : Form) : exec (.rem f) s = execRem f s := rfl
theorem exec_neg (f : Form) : exec (.neg f) s = execNeg f s := rfl
theorem exec_abs (f : Form) : exec (.abs f) s = execAbs f s := rfl
theorem exec_min (f : Form) : exec (.min f) s = execMin f s := rfl
theorem exec_max (f : Form) : exec (.max f) s = execMax f s := rfl
theorem exec_and (f : Form) : exec (.and f) s = execAnd f s := rfl
theorem exec_or (f : Form) : exec (.or f) s = execOr f s := rfl
theorem exec_xor (f : Form) : exec (.xor f) s = execXor f s := rfl
theorem exec_andn (f : Form) : exec (.andn f) s = execAndn f s := rfl
theorem exec_not (f : Form) : exec (.not f) s = execNot f s := rfl
theorem exec_shl (f : Form) : exec (.shl f) s = execShl f s := rfl
theorem exec_shr (f : Form) : exec (.shr f) s = execShr f s := rfl
theorem exec_rotl (f : Form) : exec (.rotl f) s = execRotl f s := rfl
theorem exec_rotr (f : Form) : exec (.rotr f) s = execRotr f s := rfl
theorem exec_popc (f : Form) : exec (.popc f) s = execPopc f s := rfl
theorem exec_clz (f : Form) : exec (.clz f) s = execClz f s := rfl
theorem exec_ctz (f : Form) : exec (.ctz f) s = execCtz f s := rfl
theorem exec_brev (f : Form) : exec (.brev f) s = execBrev f s := rfl
theorem exec_bfx (f : Form) : exec (.bfx f) s = execBfx f s := rfl
theorem exec_bfi (f : Form) : exec (.bfi f) s = execBfi f s := rfl
theorem exec_ext (f : Form) : exec (.ext f) s = execExt f s := rfl
theorem exec_trunc (f : Form) : exec (.trunc f) s = execTrunc f s := rfl
theorem exec_icmp (f : Form) : exec (.icmp f) s = execIcmp f s := rfl
theorem exec_adr (f : Form) : exec (.adr f) s = execAdr f s := rfl
theorem exec_bsel (f : Form) : exec (.bsel f) s = execBsel f s := rfl
theorem exec_fadd (f : Form) : exec (.fadd f) s = execFadd f s := rfl
theorem exec_fsub (f : Form) : exec (.fsub f) s = execFsub f s := rfl
theorem exec_fmul (f : Form) : exec (.fmul f) s = execFmul f s := rfl
theorem exec_fdiv (f : Form) : exec (.fdiv f) s = execFdiv f s := rfl
theorem exec_fsqrt (f : Form) : exec (.fsqrt f) s = execFsqrt f s := rfl
theorem exec_fma (f : Form) : exec (.fma f) s = execFma f s := rfl
theorem exec_fmin (f : Form) : exec (.fmin f) s = execFmin f s := rfl
theorem exec_fmax (f : Form) : exec (.fmax f) s = execFmax f s := rfl
theorem exec_fneg (f : Form) : exec (.fneg f) s = execFneg f s := rfl
theorem exec_fabs (f : Form) : exec (.fabs f) s = execFabs f s := rfl
theorem exec_fcopysign (f : Form) : exec (.fcopysign f) s = execFcopysign f s := rfl
theorem exec_fcmp (f : Form) : exec (.fcmp f) s = execFcmp f s := rfl
theorem exec_fclass (f : Form) : exec (.fclass f) s = execFclass f s := rfl
theorem exec_frint (f : Form) : exec (.frint f) s = execFrint f s := rfl
theorem exec_fcvt (f : Form) : exec (.fcvt f) s = execFcvt f s := rfl
theorem exec_fcvti (f : Form) : exec (.fcvti f) s = execFcvti f s := rfl
theorem exec_icvtf (f : Form) : exec (.icvtf f) s = execIcvtf f s := rfl
theorem exec_fscaleb (f : Form) : exec (.fscaleb f) s = execFscaleb f s := rfl
theorem exec_flogb (f : Form) : exec (.flogb f) s = execFlogb f s := rfl
theorem exec_fexcRd (f : Form) : exec (.fexcRd f) s = execFexcRd f s := rfl
theorem exec_fexcClr (f : Form) : exec (.fexcClr f) s = execFexcClr f s := rfl
theorem exec_fmodeSet (f : Form) : exec (.fmodeSet f) s = execFmodeSet f s := rfl
theorem exec_fmodeRd (f : Form) : exec (.fmodeRd f) s = execFmodeRd f s := rfl
theorem exec_pk8 (f : Form) : exec (.pk8 f) s = execPk8 f s := rfl
theorem exec_upk8 (f : Form) : exec (.upk8 f) s = execUpk8 f s := rfl
theorem exec_bscale (f : Form) : exec (.bscale f) s = execBscale f s := rfl
theorem exec_lanex (f : Form) : exec (.lanex f) s = execLanex f s := rfl
theorem exec_vote (f : Form) : exec (.vote f) s = execVote f s := rfl
theorem exec_lgred (f : Form) : exec (.lgred f) s = execLgred f s := rfl
theorem exec_lgscan (f : Form) : exec (.lgscan f) s = execLgscan f s := rfl
theorem exec_matchLanes (f : Form) : exec (.matchLanes f) s = execMatchLanes f s := rfl
theorem exec_sfEval (f : Form) : exec (.sfEval f) s = execSfEval f s := rfl
theorem exec_sfLoad (f : Form) : exec (.sfLoad f) s = execSfLoad f s := rfl
theorem exec_ld (f : Form) : exec (.ld f) s = execLd f s := rfl
theorem exec_st (f : Form) : exec (.st f) s = execSt f s := rfl
theorem exec_prefetch (f : Form) : exec (.prefetch f) s = execPrefetch f s := rfl
theorem exec_amo (f : Form) : exec (.amo f) s = execAmo f s := rfl
theorem exec_cas (f : Form) : exec (.cas f) s = execCas f s := rfl
theorem exec_red (f : Form) : exec (.red f) s = execRed f s := rfl
theorem exec_fence (f : Form) : exec (.fence f) s = execFence f s := rfl
theorem exec_bxShape (f : Form) : exec (.bxShape f) s = execBxShape f s := rfl
theorem exec_bxCopy (f : Form) : exec (.bxCopy f) s = execBxCopy f s := rfl
theorem exec_bxConv (f : Form) : exec (.bxConv f) s = execBxConv f s := rfl
theorem exec_bxFill (f : Form) : exec (.bxFill f) s = execBxFill f s := rfl
theorem exec_bxGather (f : Form) : exec (.bxGather f) s = execBxGather f s := rfl
theorem exec_bxScatter (f : Form) : exec (.bxScatter f) s = execBxScatter f s := rfl
theorem exec_bxRed (f : Form) : exec (.bxRed f) s = execBxRed f s := rfl
theorem exec_waitTok (f : Form) : exec (.waitTok f) s = execWaitTok f s := rfl
theorem exec_tokAll (f : Form) : exec (.tokAll f) s = execTokAll f s := rfl
theorem exec_tokStatus (f : Form) : exec (.tokStatus f) s = execTokStatus f s := rfl
theorem exec_waitChunks (f : Form) : exec (.waitChunks f) s = execWaitChunks f s := rfl
theorem exec_testChunks (f : Form) : exec (.testChunks f) s = execTestChunks f s := rfl
theorem exec_clrChunks (f : Form) : exec (.clrChunks f) s = execClrChunks f s := rfl
theorem exec_mxZero (f : Form) : exec (.mxZero f) s = execMxZero f s := rfl
theorem exec_mxLd (f : Form) : exec (.mxLd f) s = execMxLd f s := rfl
theorem exec_mxStep (f : Form) : exec (.mxStep f) s = execMxStep f s := rfl
theorem exec_mxLoop (f : Form) : exec (.mxLoop f) s = execMxLoop f s := rfl
theorem exec_mxStore (f : Form) : exec (.mxStore f) s = execMxStore f s := rfl
theorem exec_mxMode (f : Form) : exec (.mxMode f) s = execMxMode f s := rfl
theorem exec_mxRead (f : Form) : exec (.mxRead f) s = execMxRead f s := rfl
theorem exec_xcSwap (f : Form) : exec (.xcSwap f) s = execXcSwap f s := rfl
theorem exec_barJoin (f : Form) : exec (.barJoin f) s = execBarJoin f s := rfl
theorem exec_barLeave (f : Form) : exec (.barLeave f) s = execBarLeave f s := rfl
theorem exec_barArrive (f : Form) : exec (.barArrive f) s = execBarArrive f s := rfl
theorem exec_barWait (f : Form) : exec (.barWait f) s = execBarWait f s := rfl
theorem exec_barSync (f : Form) : exec (.barSync f) s = execBarSync f s := rfl
theorem exec_yield (f : Form) : exec (.yield f) s = execYield f s := rfl
theorem exec_cpKey (f : Form) : exec (.cpKey f) s = execCpKey f s := rfl
theorem exec_cpBid (f : Form) : exec (.cpBid f) s = execCpBid f s := rfl
theorem exec_cpGate (f : Form) : exec (.cpGate f) s = execCpGate f s := rfl
theorem exec_cpWon (f : Form) : exec (.cpWon f) s = execCpWon f s := rfl
theorem exec_cpMax (f : Form) : exec (.cpMax f) s = execCpMax f s := rfl
theorem exec_cpDie (f : Form) : exec (.cpDie f) s = execCpDie f s := rfl
theorem exec_cpRound (f : Form) : exec (.cpRound f) s = execCpRound f s := rfl
theorem exec_cpLast (f : Form) : exec (.cpLast f) s = execCpLast f s := rfl
theorem exec_cvTurn (f : Form) : exec (.cvTurn f) s = execCvTurn f s := rfl
theorem exec_cvSplit (f : Form) : exec (.cvSplit f) s = execCvSplit f s := rfl
theorem exec_brk (f : Form) : exec (.brk f) s = execBrk f s := rfl
theorem exec_dbgMark (f : Form) : exec (.dbgMark f) s = execDbgMark f s := rfl
theorem exec_rdclk (f : Form) : exec (.rdclk f) s = execRdclk f s := rfl
theorem exec_rdcnt (f : Form) : exec (.rdcnt f) s = execRdcnt f s := rfl
theorem exec_sys (f : Form) : exec (.sys f) s = execSys f s := rfl
theorem exec_spill (f : NForm) : exec (.spill f) s = execSpill f s := rfl
theorem exec_fill (f : NForm) : exec (.fill f) s = execFill f s := rfl
theorem exec_vmov (f : NForm) : exec (.vmov f) s = execVmov f s := rfl
theorem exec_smov (f : NForm) : exec (.smov f) s = execSmov f s := rfl
theorem exec_v2s (f : NForm) : exec (.v2s f) s = execV2s f s := rfl
theorem exec_s2v (f : NForm) : exec (.s2v f) s = execS2v f s := rfl
theorem exec_pset (f : NForm) : exec (.pset f) s = execPset f s := rfl
theorem exec_pclr (f : NForm) : exec (.pclr f) s = execPclr f s := rfl
theorem exec_pathSplit (f : NForm) : exec (.pathSplit f) s = execPathSplit f s := rfl
theorem exec_pathJoin (f : NForm) : exec (.pathJoin f) s = execPathJoin f s := rfl
theorem exec_waitCnt (f : NForm) : exec (.waitCnt f) s = execWaitCnt f s := rfl
theorem exec_tqPop (f : NForm) : exec (.tqPop f) s = execTqPop f s := rfl
theorem exec_tqPush (f : NForm) : exec (.tqPush f) s = execTqPush f s := rfl
theorem exec_jmp (f : NForm) : exec (.jmp f) s = execJmp f s := rfl
theorem exec_ncall (f : NForm) : exec (.ncall f) s = execNcall f s := rfl
theorem exec_nret (f : NForm) : exec (.nret f) s = execNret f s := rfl
theorem exec_frameEnter (f : NForm) : exec (.frameEnter f) s = execFrameEnter f s := rfl
theorem exec_frameLeave (f : NForm) : exec (.frameLeave f) s = execFrameLeave f s := rfl
theorem exec_entry (f : NForm) : exec (.entry f) s = execEntry f s := rfl
theorem exec_bnop (f : NForm) : exec (.bnop f) s = execBnop f s := rfl
theorem exec_issueSelect (core : Nat) : exec (.issueSelect core) s = execIssueSelect core s := rfl
theorem exec_illegalBundleRepair (cluster : Nat) (key : TKey) : exec (.illegalBundleRepair cluster key) s = execIllegalBundleRepair cluster key s := rfl
theorem exec_translationMiss (pid : Nat) (key : TKey) : exec (.translationMiss pid key) s = execTranslationMiss pid key s := rfl
theorem exec_translationReady (cluster : Nat) (key : TKey) : exec (.translationReady cluster key) s = execTranslationReady cluster key s := rfl
theorem exec_faultResolved (die : Nat) (fid : Nat) : exec (.faultResolved die fid) s = execFaultResolved die fid s := rfl
theorem exec_faultFailed (die : Nat) (fid : Nat) : exec (.faultFailed die fid) s = execFaultFailed die fid s := rfl
theorem exec_federatedFaultService (die : Nat) (fid : Nat) : exec (.federatedFaultService die fid) s = execFederatedFaultService die fid s := rfl
theorem exec_walkComplete (die : Nat) (wid : Nat) : exec (.walkComplete die wid) s = execWalkComplete die wid s := rfl
theorem exec_bxCommandStart (core : Nat) : exec (.bxCommandStart core) s = execBxCommandStart core s := rfl
theorem exec_bxCommandPark (core : Nat) (cmd : Nat) : exec (.bxCommandPark core cmd) s = execBxCommandPark core cmd s := rfl
theorem exec_chunkFull (core : Nat) (cmd : Nat) (chunk : Nat) : exec (.chunkFull core cmd chunk) s = execChunkFull core cmd chunk s := rfl
theorem exec_bxCommandComplete (core : Nat) (cmd : Nat) : exec (.bxCommandComplete core cmd) s = execBxCommandComplete core cmd s := rfl
theorem exec_queueOverflow (core : Nat) (queue : Nat) : exec (.queueOverflow core queue) s = execQueueOverflow core queue s := rfl
theorem exec_mxStepStart (cluster : Nat) : exec (.mxStepStart cluster) s = execMxStepStart cluster s := rfl
theorem exec_budgetRefill (cluster : Nat) : exec (.budgetRefill cluster) s = execBudgetRefill cluster s := rfl
theorem exec_mxCommandComplete (core : Nat) (cmd : Nat) : exec (.mxCommandComplete core cmd) s = execMxCommandComplete core cmd s := rfl
theorem exec_accExchange (core : Nat) (tile : Nat) : exec (.accExchange core tile) s = execAccExchange core tile s := rfl
theorem exec_swapPaired (die : Nat) : exec (.swapPaired die) s = execSwapPaired die s := rfl
theorem exec_barrierRelease (core : Nat) (word : Nat) : exec (.barrierRelease core word) s = execBarrierRelease core word s := rfl
theorem exec_pathExchange (warp : Nat) : exec (.pathExchange warp) s = execPathExchange warp s := rfl
theorem exec_redMerge (die : Nat) (queue : Nat) : exec (.redMerge die queue) s = execRedMerge die queue s := rfl
theorem exec_flowRouteChoice (die : Nat) (src : Nat) (dst : Nat) : exec (.flowRouteChoice die src dst) s = execFlowRouteChoice die src dst s := rfl
theorem exec_frameBoundary  : exec (.frameBoundary) s = execFrameBoundary s := rfl
theorem exec_resultDelivery (die : Nat) : exec (.resultDelivery die) s = execResultDelivery die s := rfl
theorem exec_beacon  : exec (.beacon) s = execBeacon s := rfl
theorem exec_identifierRevocation (die : Nat) (ident : Nat) : exec (.identifierRevocation die ident) s = execIdentifierRevocation die ident s := rfl
theorem exec_pUnitReady (die : Nat) : exec (.pUnitReady die) s = execPUnitReady die s := rfl
theorem exec_turnSelect (hop : Nat) : exec (.turnSelect hop) s = execTurnSelect hop s := rfl
theorem exec_turnComplete (hop : Nat) (failed : BitVec 16) : exec (.turnComplete hop failed) s = execTurnComplete hop failed s := rfl
theorem exec_packetHop (hop : Nat) (dir : Dir) (source : Nat) : exec (.packetHop hop dir source) s = execPacketHop hop dir source s := rfl
theorem exec_sourceRoundRobin (hop : Nat) (dir : Dir) : exec (.sourceRoundRobin hop dir) s = execSourceRoundRobin hop dir s := rfl
theorem exec_packetAccept (die : Nat) (dir : Dir) (escape : Bool) : exec (.packetAccept die dir escape) s = execPacketAccept die dir escape s := rfl
theorem exec_writeAcknowledgement (die : Nat) (place : Nat) : exec (.writeAcknowledgement die place) s = execWriteAcknowledgement die place s := rfl
theorem exec_peerRequest (die : Nat) (dir : Dir) (escape : Bool) : exec (.peerRequest die dir escape) s = execPeerRequest die dir escape s := rfl
theorem exec_peerReply (die : Nat) (dir : Dir) (escape : Bool) : exec (.peerReply die dir escape) s = execPeerReply die dir escape s := rfl
theorem exec_flitRetry (link : Nat) (strand : Nat) (failures : Nat) (spare : Bool) : exec (.flitRetry link strand failures spare) s = execFlitRetry link strand failures spare s := rfl
theorem exec_corruptedHeader (hop : Nat) (dir : Dir) (escape : Bool) : exec (.corruptedHeader hop dir escape) s = execCorruptedHeader hop dir escape s := rfl
theorem exec_trackerTimeout (die : Nat) (trk : Nat) : exec (.trackerTimeout die trk) s = execTrackerTimeout die trk s := rfl
theorem exec_creditReturn (hop : Nat) (dir : Dir) : exec (.creditReturn hop dir) s = execCreditReturn hop dir s := rfl
theorem exec_gangDispatch (die : Nat) : exec (.gangDispatch die) s = execGangDispatch die s := rfl
theorem exec_preemption (die : Nat) : exec (.preemption die) s = execPreemption die s := rfl
theorem exec_halt (gang : Nat) (why : HaltWhy) : exec (.halt gang why) s = execHalt gang why s := rfl
theorem exec_capture (gang : Nat) : exec (.capture gang) s = execCapture gang s := rfl
theorem exec_restore (die : Nat) (gang : Nat) : exec (.restore die gang) s = execRestore die gang s := rfl
theorem exec_migration (die : Nat) (fid : Nat) : exec (.migration die fid) s = execMigration die fid s := rfl
theorem exec_gangRetire (gang : Nat) : exec (.gangRetire gang) s = execGangRetire gang s := rfl
theorem exec_launchRetire (launch : Nat) : exec (.launchRetire launch) s = execLaunchRetire launch s := rfl
theorem exec_itemFailed (gang : Nat) (cause : Nat) (addr : BitVec 64) : exec (.itemFailed gang cause addr) s = execItemFailed gang cause addr s := rfl
theorem exec_dumpWrite (gang : Nat) : exec (.dumpWrite gang) s = execDumpWrite gang s := rfl
theorem exec_stallTimeout (gang : Nat) (core : Nat) : exec (.stallTimeout gang core) s = execStallTimeout gang core s := rfl
theorem exec_patrolScrub (die : Nat) (pa : Nat) (found : BurstState) : exec (.patrolScrub die pa found) s = execPatrolScrub die pa found s := rfl
theorem exec_manifestLatch  : exec (.manifestLatch) s = execManifestLatch s := rfl
theorem exec_eventFold (die : Nat) : exec (.eventFold die) s = execEventFold die s := rfl
theorem exec_clusterReset (cluster : Nat) : exec (.clusterReset cluster) s = execClusterReset cluster s := rfl
theorem exec_dieReset (die : Nat) : exec (.dieReset die) s = execDieReset die s := rfl
theorem exec_romBoot (die : Nat) : exec (.romBoot die) s = execRomBoot die s := rfl
theorem exec_unitReady (die : Nat) (kind : UnitKind) (index : Nat) (ready : Bool) : exec (.unitReady die kind index ready) s = execUnitReady die kind index ready s := rfl
theorem exec_powerSample (readings : List Reading) : exec (.powerSample readings) s = execPowerSample readings s := rfl
theorem exec_thermalReset (die : Nat) : exec (.thermalReset die) s = execThermalReset die s := rfl
theorem exec_breakpointHit (pid : Nat) : exec (.breakpointHit pid) s = execBreakpointHit pid s := rfl
theorem exec_watchHit (cluster : Nat) : exec (.watchHit cluster) s = execWatchHit cluster s := rfl
theorem exec_launchSubmit (h : Hdr) (queue : Nat) (rec : BitVec 1024) : exec (.launchSubmit h queue rec) s = execLaunchSubmit h queue rec s := rfl
theorem exec_launchCancel (h : Hdr) (launchId : BitVec 64) : exec (.launchCancel h launchId) s = execLaunchCancel h launchId s := rfl
theorem exec_queuePriority (h : Hdr) (queue : Nat) (prio : Nat) : exec (.queuePriority h queue prio) s = execQueuePriority h queue prio s := rfl
theorem exec_eventSet (h : Hdr) (index : Nat) : exec (.eventSet h index) s = execEventSet h index s := rfl
theorem exec_eventReset (h : Hdr) (index : Nat) : exec (.eventReset h index) s = execEventReset h index s := rfl
theorem exec_deviceSettings (h : Hdr) (stallK : Nat) (det : Nat) : exec (.deviceSettings h stallK det) s = execDeviceSettings h stallK det s := rfl
theorem exec_memMap (h : Hdr) (base : BitVec 64) (length : BitVec 64) (leaf : BitVec 64) : exec (.memMap h base length leaf) s = execMemMap h base length leaf s := rfl
theorem exec_memUnmap (h : Hdr) (base : BitVec 64) (length : BitVec 64) (waiting : Bool) : exec (.memUnmap h base length waiting) s = execMemUnmap h base length waiting s := rfl
theorem exec_memInvalidate (h : Hdr) (base : BitVec 64) (length : BitVec 64) : exec (.memInvalidate h base length) s = execMemInvalidate h base length s := rfl
theorem exec_saveRegion (h : Hdr) (base : BitVec 64) (size : BitVec 64) : exec (.saveRegion h base size) s = execSaveRegion h base size s := rfl
theorem exec_cxlUnitAssign (h : Hdr) (unit : Nat) (assign : Bool) : exec (.cxlUnitAssign h unit assign) s = execCxlUnitAssign h unit assign s := rfl
theorem exec_moduleCopy (h : Hdr) (base : BitVec 64) (remote : Nat) (handle : BitVec 64) (length : BitVec 64) (toLocal : Bool) : exec (.moduleCopy h base remote handle length toLocal) s = execModuleCopy h base remote handle length toLocal s := rfl
theorem exec_contextTenant (h : Hdr) (tenant : BitVec 8) : exec (.contextTenant h tenant) s = execContextTenant h tenant s := rfl
theorem exec_contextOpen (h : Hdr) : exec (.contextOpen h) s = execContextOpen h s := rfl
theorem exec_contextClose (h : Hdr) : exec (.contextClose h) s = execContextClose h s := rfl
theorem exec_handleExport (h : Hdr) (base : BitVec 64) (length : BitVec 64) (rights : BitVec 8) : exec (.handleExport h base length rights) s = execHandleExport h base length rights s := rfl
theorem exec_handleImport (h : Hdr) (handle : BitVec 64) (window : BitVec 64) (rights : BitVec 8) (route : BitVec 8) : exec (.handleImport h handle window rights route) s = execHandleImport h handle window rights route s := rfl
theorem exec_handleRevoke (h : Hdr) (handle : BitVec 64) : exec (.handleRevoke h handle) s = execHandleRevoke h handle s := rfl
theorem exec_moduleLoad (h : Hdr) (image : BitVec 64) (length : BitVec 64) (dataBase : BitVec 64) : exec (.moduleLoad h image length dataBase) s = execModuleLoad h image length dataBase s := rfl
theorem exec_moduleUnload (h : Hdr) (handle : BitVec 64) : exec (.moduleUnload h handle) s = execModuleUnload h handle s := rfl
theorem exec_identifierAllocate (h : Hdr) (ident : Nat) (gate : BitVec 16) (allocate : Bool) : exec (.identifierAllocate h ident gate allocate) s = execIdentifierAllocate h ident gate allocate s := rfl
theorem exec_turnRightGrant (h : Hdr) (grant : Bool) : exec (.turnRightGrant h grant) s = execTurnRightGrant h grant s := rfl
theorem exec_eventRing (h : Hdr) (base : BitVec 64) (size : BitVec 64) : exec (.eventRing h base size) s = execEventRing h base size s := rfl
theorem exec_eventReadIndex (h : Hdr) (index : BitVec 64) : exec (.eventReadIndex h index) s = execEventReadIndex h index s := rfl
theorem exec_tracing (h : Hdr) (on : Bool) : exec (.tracing h on) s = execTracing h on s := rfl
theorem exec_debugAttach (h : Hdr) : exec (.debugAttach h) s = execDebugAttach h s := rfl
theorem exec_debugDetach (h : Hdr) : exec (.debugDetach h) s = execDebugDetach h s := rfl
theorem exec_debugBreakpoint (h : Hdr) (index : Nat) (vpc : BitVec 32) (scope : Nat) : exec (.debugBreakpoint h index vpc scope) s = execDebugBreakpoint h index vpc scope s := rfl
theorem exec_debugWatchpoint (h : Hdr) (index : Nat) (addr : BitVec 64) (kinds : BitVec 8) (scope : Nat) : exec (.debugWatchpoint h index addr kinds scope) s = execDebugWatchpoint h index addr kinds scope s := rfl
theorem exec_debugStop (h : Hdr) (launchId : BitVec 64) (scope : Nat) (freeze : Bool) : exec (.debugStop h launchId scope freeze) s = execDebugStop h launchId scope freeze s := rfl
theorem exec_debugRelease (h : Hdr) (launchId : BitVec 64) (scope : Nat) (freeze : Bool) : exec (.debugRelease h launchId scope freeze) s = execDebugRelease h launchId scope freeze s := rfl
theorem exec_debugStep (h : Hdr) (path : PathName) : exec (.debugStep h path) s = execDebugStep h path s := rfl
theorem exec_stepSync (h : Hdr) (path : PathName) : exec (.stepSync h path) s = execStepSync h path s := rfl
theorem exec_debugFocus (h : Hdr) (path : PathName) : exec (.debugFocus h path) s = execDebugFocus h path s := rfl
theorem exec_readValues (h : Hdr) (path : PathName) (values : List Nat) : exec (.readValues h path values) s = execReadValues h path values s := rfl
theorem exec_manifestPeriod (h : Hdr) (k : Nat) : exec (.manifestPeriod h k) s = execManifestPeriod h k s := rfl
theorem exec_manifestRing (h : Hdr) (base : BitVec 64) (size : BitVec 64) : exec (.manifestRing h base size) s = execManifestRing h base size s := rfl
theorem exec_manifestReadIndex (h : Hdr) (index : BitVec 64) : exec (.manifestReadIndex h index) s = execManifestReadIndex h index s := rfl
theorem exec_fwIdentity (h : Hdr) : exec (.fwIdentity h) s = execFwIdentity h s := rfl
theorem exec_fwAttest (h : Hdr) (nonce : List (BitVec 8)) : exec (.fwAttest h nonce) s = execFwAttest h nonce s := rfl
theorem exec_fwProvision (h : Hdr) (image : BitVec 64) (length : BitVec 64) : exec (.fwProvision h image length) s = execFwProvision h image length s := rfl
theorem exec_fwActivate (h : Hdr) : exec (.fwActivate h) s = execFwActivate h s := rfl
theorem exec_powerSensors (h : Hdr) : exec (.powerSensors h) s = execPowerSensors h s := rfl
theorem exec_packageLimit (h : Hdr) (watts : Nat) : exec (.packageLimit h watts) s = execPackageLimit h watts s := rfl
theorem exec_railLimit (h : Hdr) (rail : Nat) (amps : Nat) : exec (.railLimit h rail amps) s = execRailLimit h rail amps s := rfl
theorem exec_retrainHop (h : Hdr) (hop : Nat) : exec (.retrainHop h hop) s = execRetrainHop h hop s := rfl
theorem exec_accessPerformed (warp : Nat) : exec (.accessPerformed warp) s = execAccessPerformed warp s := rfl
theorem exec_transitRouterLost (die : Nat) : exec (.transitRouterLost die) s = execTransitRouterLost die s := rfl
theorem exec_packageReset  : exec (.packageReset) s = execPackageReset s := rfl

end

end Sys2Proof.Machine
end

