-- ==== Sys2Proof/Laws/Map.lean ====
section
/-!
SUPPORT. Sparse maps: reading what was written, and that every operation keeps the canonical form; the same for memory.
-/
namespace Sys2Proof.SMap

variable {α : Type}

/-! ### Lookup -/

theorem find?_ins_self (m : SMap α) (k : Nat) (v : α) : (m.ins k v).find? k = some v := by
  induction m with
  | nil => simp [ins, find?]
  | cons p m ih =>
    obtain ⟨i, a⟩ := p
    simp only [ins]
    split
    · simp [find?]
    · split
      · simp [find?]
      · simp [find?, *]

theorem find?_ins_ne (m : SMap α) {k j : Nat} (v : α) (h : j ≠ k) : (m.ins k v).find? j = m.find? j := by
  induction m with
  | nil => simp [ins, find?, Ne.symm h]
  | cons p m ih =>
    obtain ⟨i, a⟩ := p
    simp only [ins]
    split
    · simp [find?, Ne.symm h]
    · split
      · next hi => subst hi; simp [find?, Ne.symm h]
      · simp [find?, ih]

theorem find?_del_ne (m : SMap α) {k j : Nat} (h : j ≠ k) : (m.del k).find? j = m.find? j := by
  induction m with
  | nil => rfl
  | cons p m ih =>
    obtain ⟨i, a⟩ := p
    simp only [del]
    split
    · next hi => subst hi; simp [find?, Ne.symm h]
    · simp [find?, ih]

theorem find?_of_rising (m : SMap α) {lo j : Nat} (h : m.risingFrom lo = true) (hj : j < lo) : m.find? j = none := by
  induction m generalizing lo with
  | nil => rfl
  | cons p m ih =>
    obtain ⟨i, a⟩ := p
    simp only [risingFrom, Bool.and_eq_true, decide_eq_true_eq] at h
    simp only [find?]
    rw [if_neg (by omega)]
    exact ih h.2 (by omega)

theorem find?_del_self (m : SMap α) {lo k : Nat} (h : m.risingFrom lo = true) : (m.del k).find? k = none := by
  induction m generalizing lo with
  | nil => rfl
  | cons p m ih =>
    obtain ⟨i, a⟩ := p
    simp only [risingFrom, Bool.and_eq_true, decide_eq_true_eq] at h
    simp only [del]
    split
    · next hi => subst hi; exact find?_of_rising m h.2 (by omega)
    · next hi => simp only [find?, if_neg hi]; exact ih h.2

theorem find?_upd_ne (m : SMap α) {k j : Nat} (f : α → α) (h : j ≠ k) : (m.upd k f).find? j = m.find? j := by
  unfold upd; split
  · exact find?_ins_ne m _ h
  · rfl

theorem find?_upd_self (m : SMap α) (k : Nat) (f : α → α) : (m.upd k f).find? k = (m.find? k).map f := by
  unfold upd; split <;> simp_all [find?_ins_self]

/-! ### Canonical form -/

theorem risingFrom_mono {m : SMap α} {lo lo' : Nat} (h : m.risingFrom lo = true) (hl : lo' ≤ lo) :
    m.risingFrom lo' = true := by
  cases m with
  | nil => rfl
  | cons p m => simp_all [risingFrom]; omega

theorem risingFrom_ins (m : SMap α) {lo k : Nat} (v : α) (h : m.risingFrom lo = true) (hk : lo ≤ k) :
    (m.ins k v).risingFrom lo = true := by
  induction m generalizing lo with
  | nil => simp [ins, risingFrom, hk]
  | cons p m ih =>
    obtain ⟨i, a⟩ := p
    simp only [risingFrom, Bool.and_eq_true, decide_eq_true_eq] at h
    simp only [ins]
    split
    · simp only [risingFrom, Bool.and_eq_true, decide_eq_true_eq]
      exact ⟨hk, by omega, h.2⟩
    · split
      · next hi => subst hi; simp [risingFrom, h.1, h.2]
      · simp only [risingFrom, Bool.and_eq_true, decide_eq_true_eq]
        exact ⟨h.1, ih h.2 (by omega)⟩

theorem risingFrom_del (m : SMap α) {lo : Nat} (k : Nat) (h : m.risingFrom lo = true) :
    (m.del k).risingFrom lo = true := by
  induction m generalizing lo with
  | nil => rfl
  | cons p m ih =>
    obtain ⟨i, a⟩ := p
    simp only [risingFrom, Bool.and_eq_true, decide_eq_true_eq] at h
    simp only [del]
    split
    · exact risingFrom_mono h.2 (by omega)
    · simp only [risingFrom, Bool.and_eq_true, decide_eq_true_eq]
      exact ⟨h.1, ih h.2⟩

theorem mem_ins {m : SMap α} {k : Nat} {v : α} {p : Nat × α} (h : p ∈ m.ins k v) : p = (k, v) ∨ p ∈ m := by
  induction m with
  | nil => simp_all [ins]
  | cons q m ih =>
    obtain ⟨i, a⟩ := q
    simp only [ins] at h
    split at h
    · simpa using h
    · split at h
      · simp only [List.mem_cons] at h ⊢; tauto
      · simp only [List.mem_cons] at h ⊢
        rcases h with h | h
        · tauto
        · rcases ih h with h | h <;> tauto

theorem mem_del {m : SMap α} {k : Nat} {p : Nat × α} (h : p ∈ m.del k) : p ∈ m := by
  induction m with
  | nil => exact h
  | cons q m ih =>
    obtain ⟨i, a⟩ := q
    simp only [del] at h
    split at h
    · exact List.mem_cons_of_mem _ h
    · simp only [List.mem_cons] at h ⊢
      exact h.imp_right ih

variable [DecidableEq α]

theorem wf_iff (d : α) (m : SMap α) : wf d m = true ↔ m.risingFrom 0 = true ∧ ∀ p ∈ m, p.2 ≠ d := by
  simp [wf, List.all_eq_true]

theorem wf_ins {d : α} {m : SMap α} (k : Nat) {v : α} (h : wf d m = true) (hv : v ≠ d) : wf d (m.ins k v) = true := by
  rw [wf_iff] at h ⊢
  refine ⟨risingFrom_ins m v h.1 (Nat.zero_le k), fun p hp => ?_⟩
  rcases mem_ins hp with rfl | hp
  · exact hv
  · exact h.2 p hp

theorem wf_del {d : α} {m : SMap α} (k : Nat) (h : wf d m = true) : wf d (m.del k) = true := by
  rw [wf_iff] at h ⊢
  exact ⟨risingFrom_del m k h.1, fun p hp => h.2 p (mem_del hp)⟩

/-- A write keeps the canonical form. -/
theorem wf_putD {d : α} {m : SMap α} (k : Nat) (v : α) (h : wf d m = true) : wf d (m.putD d k v) = true := by
  unfold putD; split
  · exact wf_del k h
  · next hv => exact wf_ins k h hv

theorem wf_putsD {d : α} (vs : List α) {m : SMap α} (k : Nat) (h : wf d m = true) : wf d (m.putsD d k vs) = true := by
  induction vs generalizing m k with
  | nil => exact h
  | cons v vs ih => exact ih (k + 1) (wf_putD k v h)

theorem wf_upd {d : α} {m : SMap α} (k : Nat) (f : α → α) (h : wf d m = true) (hf : ∀ a, f a ≠ d) :
    wf d (m.upd k f) = true := by
  unfold upd; split
  · exact wf_ins k h (hf _)
  · exact h

/-! ### Reading after writing -/

theorem getD_putD_ne (d : α) (m : SMap α) {k j : Nat} (v : α) (h : j ≠ k) : (m.putD d k v).getD d j = m.getD d j := by
  unfold putD getD; split
  · rw [find?_del_ne m h]
  · rw [find?_ins_ne m v h]

/-- A read after a write to the same key gives the value written. -/
theorem getD_putD_self {d : α} {m : SMap α} (k : Nat) (v : α) (h : wf d m = true) : (m.putD d k v).getD d k = v := by
  unfold putD getD; split
  · next hv => rw [find?_del_self m (lo := 0) ((wf_iff d m).1 h).1]; simp [hv]
  · rw [find?_ins_self]; rfl

theorem getD_putsD_lt (d : α) (vs : List α) (m : SMap α) {k j : Nat} (h : j < k) :
    (m.putsD d k vs).getD d j = m.getD d j := by
  induction vs generalizing m k with
  | nil => rfl
  | cons v vs ih => rw [putsD, ih _ (by omega), getD_putD_ne d m v (by omega)]

theorem getD_putsD_ge (d : α) (vs : List α) (m : SMap α) {k j : Nat} (h : k + vs.length ≤ j) :
    (m.putsD d k vs).getD d j = m.getD d j := by
  induction vs generalizing m k with
  | nil => rfl
  | cons v vs ih =>
    simp only [List.length_cons] at h
    rw [putsD, ih _ (by omega), getD_putD_ne d m v (by omega)]

/-- The `i`-th value written stands at the `i`-th key. -/
theorem getD_putsD {d : α} (vs : List α) {m : SMap α} (k i : Nat) (h : wf d m = true) (hi : i < vs.length) :
    (m.putsD d k vs).getD d (k + i) = vs[i] := by
  induction vs generalizing m k i with
  | nil => simp at hi
  | cons v vs ih =>
    cases i with
    | zero => simp only [Nat.add_zero, putsD, getD_putsD_lt d vs _ (Nat.lt_succ_self k), getD_putD_self k v h]; rfl
    | succ i =>
      have := ih (k + 1) i (wf_putD k v h) (by simpa using hi)
      rw [putsD, show k + (i + 1) = k + 1 + i by omega, this]; rfl

end Sys2Proof.SMap

namespace Sys2Proof.Machine

/-! ### Memory -/

/-- Reset memory is canonical. -/
theorem memory_wf_reset : Memory.wf State.reset.m.mem = true := rfl

theorem memory_wf_writeByte {s : State} (a : Nat) (b : Byte) (h : Memory.wf s.m.mem = true) :
    Memory.wf (writeByte s a b).m.mem = true := SMap.wf_putD a b h

theorem memory_wf_writeBytes {s : State} (a : Nat) (bs : List Byte) (h : Memory.wf s.m.mem = true) :
    Memory.wf (writeBytes s a bs).m.mem = true := SMap.wf_putsD bs a h

theorem memory_wf_writeMem {s : State} (a n v : Nat) (h : Memory.wf s.m.mem = true) :
    Memory.wf (writeMem s a n v).m.mem = true := memory_wf_writeBytes a _ h

/-- A byte reads as the last value written. -/
theorem memByte_writeByte {s : State} (a : Nat) (b : Byte) (h : Memory.wf s.m.mem = true) :
    memByte (writeByte s a b) a = b := SMap.getD_putD_self a b h

theorem memByte_writeByte_ne {s : State} {a j : Nat} (b : Byte) (h : j ≠ a) :
    memByte (writeByte s a b) j = memByte s j := SMap.getD_putD_ne Config.emptyByte s.m.mem b h

theorem memByte_writeBytes {s : State} (a i : Nat) (bs : List Byte) (h : Memory.wf s.m.mem = true) (hi : i < bs.length) :
    memByte (writeBytes s a bs) (a + i) = bs[i] := SMap.getD_putsD bs a i h hi

theorem memByte_writeBytes_lt {s : State} {a j : Nat} (bs : List Byte) (h : j < a) :
    memByte (writeBytes s a bs) j = memByte s j := SMap.getD_putsD_lt Config.emptyByte bs s.m.mem h

theorem memByte_writeBytes_ge {s : State} {a j : Nat} (bs : List Byte) (h : a + bs.length ≤ j) :
    memByte (writeBytes s a bs) j = memByte s j := SMap.getD_putsD_ge Config.emptyByte bs s.m.mem h

end Sys2Proof.Machine
end

