-- ==== Sys2Proof/Laws/Operands.lean ====
section
/-!
SUPPORT. What the shared operations of Operands.lean do: writing results, finishing, and the two shapes `laneOp` and `flagOp`.
-/
namespace Sys2Proof.Machine

/-! ### Lanes -/

theorem mem_lanes_lt {m : Mask} {l : Nat} (h : l ∈ m.lanes) : l < 64 := by
  simp only [Mask.lanes, List.mem_filter, List.mem_range] at h; exact h.1

theorem lanes_nodup (m : Mask) : m.lanes.Nodup := List.Nodup.filter _ List.nodup_range

theorem firstLane_lt (s : State) (pid : Nat) : firstLane s pid < 64 := by
  unfold firstLane
  cases h : (pathMask s pid).lanes with
  | nil => simp
  | cons a l => simpa using mem_lanes_lt (m := pathMask s pid) (by rw [h]; simp)

theorem actLanes_lt {s : State} {pid : Nat} {f : Form} {l : Nat} (h : l ∈ actLanes s pid f) : l < 64 := by
  unfold actLanes at h
  split at h
  · exact mem_lanes_lt h
  · split at h
    · simp only [List.mem_singleton] at h; subst h; exact firstLane_lt s pid
    · exact mem_lanes_lt h

theorem actLanes_nodup (s : State) (pid : Nat) (f : Form) : (actLanes s pid f).Nodup := by
  unfold actLanes; split
  · exact lanes_nodup _
  · split
    · simp
    · exact lanes_nodup _

/-! ### One result -/

theorem pathAt_updPath_ne (s : State) {p q : Nat} (f : Path → Path) (h : q ≠ p) : pathAt (updPath s p f) q = pathAt s q := by
  simp [pathAt, updPath, SMap.getD, SMap.find?_upd_ne _ _ h]

theorem pathAt_updPath_self {s : State} {p : Nat} (f : Path → Path) (h : (s.x.paths.find? p).isSome = true) :
    pathAt (updPath s p f) p = f (pathAt s p) := by
  obtain ⟨a, ha⟩ := Option.isSome_iff_exists.1 h
  simp [pathAt, updPath, SMap.getD, SMap.find?_upd_self, ha]

theorem isSome_updPath {s : State} {p : Nat} (q : Nat) (f : Path → Path) (h : (s.x.paths.find? p).isSome = true) :
    ((updPath s q f).x.paths.find? p).isSome = true := by
  by_cases hq : p = q
  · subst hq; simpa [updPath, SMap.find?_upd_self] using h
  · simpa [updPath, SMap.find?_upd_ne _ _ hq] using h

/-- Writing a scalar register changes scalar registers and the path's own four, nothing else. -/
theorem setSreg_cases (s : State) (pid r : Nat) (v : Word) :
    (∃ g : Path → Path, setSreg s pid r v = updPath s pid g ∧ (∀ p, unplaced (g p) = unplaced p ∧ (g p).pc = p.pc) ∧ 124 ≤ r ∧ r ≤ 127) ∨
    (setSreg s pid r v = { s with x := { s.x with sregs := s.x.sregs.putD 0 (sregKey (warpOfPath pid) r) v } } ∧
      (r < 124 ∨ 127 < r)) := by
  unfold setSreg
  split
  · exact .inl ⟨_, rfl, fun p => ⟨rfl, rfl⟩, by omega, by omega⟩
  split
  · exact .inl ⟨_, rfl, fun p => ⟨rfl, rfl⟩, by omega, by omega⟩
  split
  · exact .inl ⟨_, rfl, fun p => ⟨rfl, rfl⟩, by omega, by omega⟩
  split
  · exact .inl ⟨_, rfl, fun p => ⟨rfl, rfl⟩, by omega, by omega⟩
  · exact .inr ⟨rfl, by omega⟩

theorem getSreg_setSreg_ne {s : State} {pid r j : Nat} (v : Word) (h : j ≠ r)
    (hp : (s.x.paths.find? pid).isSome = true) : getSreg (setSreg s pid r v) pid j = getSreg s pid j := by
  unfold setSreg
  repeat' split
  · next hr => subst hr; unfold getSreg; rw [pathAt_updPath_self _ hp]; simp only [if_neg h]; rfl
  · next hr => subst hr; unfold getSreg; rw [pathAt_updPath_self _ hp]; simp only [if_neg h]; rfl
  · next hr => subst hr; unfold getSreg; rw [pathAt_updPath_self _ hp]; simp only [if_neg h]; rfl
  · next hr => subst hr; unfold getSreg; rw [pathAt_updPath_self _ hp]; simp only [if_neg h]; rfl
  · unfold getSreg
    have : sregKey (warpOfPath pid) j ≠ sregKey (warpOfPath pid) r := by unfold sregKey; omega
    simp only [SMap.getD_putD_ne 0 _ v this]; rfl

theorem getSreg_setSreg_self {s : State} {pid r : Nat} (v : Word) (hp : (s.x.paths.find? pid).isSome = true)
    (hw : SMap.wf 0 s.x.sregs = true) : getSreg (setSreg s pid r v) pid r = v := by
  unfold setSreg
  repeat' split
  · next hr => subst hr; unfold getSreg; rw [pathAt_updPath_self _ hp]; simp
  · next hr => subst hr; unfold getSreg; rw [pathAt_updPath_self _ hp]; simp
  · next hr => subst hr; unfold getSreg; rw [pathAt_updPath_self _ hp]; simp
  · next hr => subst hr; unfold getSreg; rw [pathAt_updPath_self _ hp]; simp
  · next h1 h2 h3 h4 => unfold getSreg; simp only [h1, h2, h3, h4, if_false]; exact SMap.getD_putD_self _ v hw

/-! ### What writing a result leaves alone -/

theorem RestKept.refl (s : State) : RestKept s s := ⟨rfl, rfl, rfl, rfl, rfl, rfl, rfl⟩

theorem RestKept.trans {s t u : State} (h : RestKept s t) (k : RestKept t u) : RestKept s u :=
  ⟨k.mem.trans h.mem, k.engines.trans h.engines, k.plane.trans h.plane, k.ring.trans h.ring, k.host.trans h.host,
    Eq.trans k.debug h.debug, by rw [k.control, h.control]⟩

theorem PathsKept.refl (s : State) (pid : Nat) : PathsKept s s pid := ⟨rfl, rfl, rfl, rfl, rfl, fun _ _ => rfl⟩

theorem PathsKept.trans {s t u : State} {pid : Nat} (h : PathsKept s t pid) (k : PathsKept t u pid) : PathsKept s u pid :=
  ⟨k.gangs.trans h.gangs, k.wgs.trans h.wgs, k.warps.trans h.warps, k.splits.trans h.splits, k.blocks.trans h.blocks,
    fun p hp => (k.others p hp).trans (h.others p hp)⟩

theorem RegistersKept.refl (s : State) (pid : Nat) (d : Dst) (ls : List Nat) : RegistersKept s s pid d ls :=
  ⟨fun _ _ => rfl, fun _ _ => rfl, fun _ _ => rfl, fun _ _ => rfl⟩

theorem RegistersKept.trans {s t u : State} {pid : Nat} {d : Dst} {ls : List Nat} (h : RegistersKept s t pid d ls)
    (k : RegistersKept t u pid d ls) : RegistersKept s u pid d ls :=
  ⟨fun j hj => (k.vals j hj).trans (h.vals j hj), fun j hj => (k.vregs j hj).trans (h.vregs j hj),
    fun j hj => (k.sregs j hj).trans (h.sregs j hj), fun j hj => (k.own j hj).trans (h.own j hj)⟩

theorem setSreg_rest (s : State) (pid r : Nat) (v : Word) :
    RestKept s (setSreg s pid r v) ∧ PathsKept s (setSreg s pid r v) pid ∧ (setSreg s pid r v).x.threads = s.x.threads ∧
      (setSreg s pid r v).x.vals = s.x.vals ∧ (setSreg s pid r v).x.vregs = s.x.vregs := by
  rcases setSreg_cases s pid r v with ⟨g, h, -, -, -⟩ | ⟨h, -⟩ <;> rw [h]
  · exact ⟨⟨rfl, rfl, rfl, rfl, rfl, rfl, rfl⟩, ⟨rfl, rfl, rfl, rfl, rfl, fun p hp => SMap.find?_upd_ne _ _ hp⟩, rfl, rfl, rfl⟩
  · exact ⟨⟨rfl, rfl, rfl, rfl, rfl, rfl, rfl⟩, ⟨rfl, rfl, rfl, rfl, rfl, fun _ _ => rfl⟩, rfl, rfl, rfl⟩

/-- A write of one result: the rest, the other paths and the threads keep what they hold. -/
theorem putDst_kept (s : State) (pid l : Nat) (d : Dst) (v : Word) :
    RestKept s (putDst s pid l d v) ∧ PathsKept s (putDst s pid l d v) pid ∧ (putDst s pid l d v).x.threads = s.x.threads := by
  cases d with
  | none => exact ⟨.refl s, .refl s pid, rfl⟩
  | val depth n => exact ⟨⟨rfl, rfl, rfl, rfl, rfl, rfl, rfl⟩, ⟨rfl, rfl, rfl, rfl, rfl, fun _ _ => rfl⟩, rfl⟩
  | vreg r wide =>
    cases wide <;>
      exact ⟨⟨rfl, rfl, rfl, rfl, rfl, rfl, rfl⟩, ⟨rfl, rfl, rfl, rfl, rfl, fun _ _ => rfl⟩, rfl⟩
  | sreg r => exact ⟨(setSreg_rest ..).1, (setSreg_rest ..).2.1, (setSreg_rest ..).2.2.1⟩
  | sbit r b => exact ⟨(setSreg_rest ..).1, (setSreg_rest ..).2.1, (setSreg_rest ..).2.2.1⟩

theorem setSreg_path {s : State} {pid : Nat} (r : Nat) (v : Word) (hp : (s.x.paths.find? pid).isSome = true) :
    ((setSreg s pid r v).x.paths.find? pid).isSome = true ∧
      unplaced (pathAt (setSreg s pid r v) pid) = unplaced (pathAt s pid) ∧
      (pathAt (setSreg s pid r v) pid).pc = (pathAt s pid).pc := by
  rcases setSreg_cases s pid r v with ⟨g, h, hg, -, -⟩ | ⟨h, -⟩ <;> rw [h]
  · exact ⟨isSome_updPath _ _ hp, by rw [pathAt_updPath_self _ hp]; exact (hg _).1, by rw [pathAt_updPath_self _ hp]; exact (hg _).2⟩
  · exact ⟨hp, rfl, rfl⟩

theorem putDst_path {s : State} {pid : Nat} (l : Nat) (d : Dst) (v : Word) (hp : (s.x.paths.find? pid).isSome = true) :
    ((putDst s pid l d v).x.paths.find? pid).isSome = true ∧
      unplaced (pathAt (putDst s pid l d v) pid) = unplaced (pathAt s pid) ∧
      (pathAt (putDst s pid l d v) pid).pc = (pathAt s pid).pc := by
  cases d with
  | none => exact ⟨hp, rfl, rfl⟩
  | val depth n => exact ⟨hp, rfl, rfl⟩
  | vreg r wide => cases wide <;> exact ⟨hp, rfl, rfl⟩
  | sreg r => exact setSreg_path _ _ hp
  | sbit r b => exact setSreg_path _ _ hp

theorem setSreg_registers {s : State} {pid r : Nat} (v : Word) (d : Dst) (ls : List Nat) (hd : sregOf d = some r)
    (hp : (s.x.paths.find? pid).isSome = true) : RegistersKept s (setSreg s pid r v) pid d ls := by
  refine ⟨fun k _ => by rw [(setSreg_rest s pid r v).2.2.2.1], fun k _ => by rw [(setSreg_rest s pid r v).2.2.2.2],
    fun k hk => ?_, fun j hj => getSreg_setSreg_ne v (by rintro rfl; exact hj hd) hp⟩
  rcases setSreg_cases s pid r v with ⟨g, h, -, -, -⟩ | ⟨h, -⟩ <;> rw [h]
  · rfl
  · exact SMap.getD_putD_ne 0 _ v (hk r hd)

theorem putDst_registers {s : State} {pid l : Nat} (d : Dst) (v : Word) {ls : List Nat} (hl : l ∈ ls)
    (hp : (s.x.paths.find? pid).isSome = true) : RegistersKept s (putDst s pid l d v) pid d ls := by
  cases d with
  | none => exact .refl ..
  | val depth n =>
    refine ⟨fun k hk => SMap.getD_putD_ne 0 _ v ?_, fun _ _ => rfl, fun _ _ => rfl, fun _ _ => rfl⟩
    rintro rfl
    exact hk (List.mem_map.2 ⟨l, hl, rfl⟩)
  | vreg r wide =>
    refine ⟨fun k _ => by cases wide <;> rfl, fun k hk => ?_, fun k _ => by cases wide <;> rfl,
      fun k _ => by cases wide <;> rfl⟩
    cases wide
    · refine SMap.getD_putD_ne 0 _ _ ?_
      rintro rfl
      exact hk (List.mem_append.2 (.inl (List.mem_map.2 ⟨l, hl, rfl⟩)))
    · have h1 : k ≠ vregKey (warpOfPath pid) r l := by
        rintro rfl; exact hk (List.mem_append.2 (.inl (List.mem_map.2 ⟨l, hl, rfl⟩)))
      have h2 : k ≠ vregKey (warpOfPath pid) (r + 1) l := by
        rintro rfl; exact hk (List.mem_append.2 (.inr (List.mem_map.2 ⟨l, hl, rfl⟩)))
      exact (SMap.getD_putD_ne 0 _ _ h2).trans (SMap.getD_putD_ne 0 _ _ h1)
  | sreg r => exact setSreg_registers _ _ _ rfl hp
  | sbit r b => exact setSreg_registers _ _ _ rfl hp

/-! ### The results of several lanes -/

/-- What each write keeps, writing the results of several lanes keeps. -/
theorem putLanes_induct {P : State → Prop} (s : State) (pid : Nat) (d : Dst) (rs : List (Nat × Word)) (h0 : P s)
    (hs : ∀ t r, r ∈ rs → P t → P (putDst t pid r.1 d r.2)) : P (putLanes s pid d rs) := by
  have go : ∀ (xs : List (Nat × Word)), (∀ x ∈ xs, x ∈ rs) → ∀ t, P t → P (xs.foldl (fun s r => putDst s pid r.1 d r.2) t) := by
    intro xs
    induction xs with
    | nil => intro _ t ht; exact ht
    | cons x xs ih =>
      intro hx t ht
      exact ih (fun y hy => hx y (List.mem_cons_of_mem _ hy)) _ (hs t x (hx x (List.mem_cons_self ..)) ht)
  unfold putLanes
  split
  · exact go _ (fun x hx => List.mem_of_mem_take hx) s h0
  · exact go _ (fun x hx => List.mem_of_mem_take hx) s h0
  · exact go _ (fun x hx => hx) s h0

theorem putLanes_kept (s : State) (pid : Nat) (d : Dst) (rs : List (Nat × Word)) :
    RestKept s (putLanes s pid d rs) ∧ PathsKept s (putLanes s pid d rs) pid ∧ (putLanes s pid d rs).x.threads = s.x.threads :=
  putLanes_induct (P := fun t => RestKept s t ∧ PathsKept s t pid ∧ t.x.threads = s.x.threads) s pid d rs
    ⟨.refl s, .refl s pid, rfl⟩ (fun t r _ ht =>
      have k := putDst_kept t pid r.1 d r.2
      ⟨ht.1.trans k.1, ht.2.1.trans k.2.1, k.2.2.trans ht.2.2⟩)

theorem putLanes_path {s : State} {pid : Nat} (d : Dst) (rs : List (Nat × Word)) (hp : (s.x.paths.find? pid).isSome = true) :
    ((putLanes s pid d rs).x.paths.find? pid).isSome = true ∧
      unplaced (pathAt (putLanes s pid d rs) pid) = unplaced (pathAt s pid) ∧
      (pathAt (putLanes s pid d rs) pid).pc = (pathAt s pid).pc :=
  putLanes_induct (P := fun t => (t.x.paths.find? pid).isSome = true ∧
      unplaced (pathAt t pid) = unplaced (pathAt s pid) ∧ (pathAt t pid).pc = (pathAt s pid).pc) s pid d rs
    ⟨hp, rfl, rfl⟩ (fun t r _ ht =>
      have k := putDst_path r.1 d r.2 ht.1
      ⟨k.1, k.2.1.trans ht.2.1, k.2.2.trans ht.2.2⟩)

theorem putLanes_registers {s : State} {pid : Nat} (d : Dst) {rs : List (Nat × Word)} {ls : List Nat}
    (hl : ∀ r ∈ rs, r.1 ∈ ls) (hp : (s.x.paths.find? pid).isSome = true) : RegistersKept s (putLanes s pid d rs) pid d ls :=
  (putLanes_induct (P := fun t => RegistersKept s t pid d ls ∧ (t.x.paths.find? pid).isSome = true) s pid d rs
    ⟨.refl .., hp⟩ (fun t r hr ht =>
      ⟨ht.1.trans (putDst_registers d r.2 (hl r hr) ht.2), (putDst_path r.1 d r.2 ht.2).1⟩)).1

/-- The registers' maps are canonical. -/
def RegsWf (s : State) : Prop := SMap.wf 0 s.x.vals = true ∧ SMap.wf 0 s.x.vregs = true ∧ SMap.wf 0 s.x.sregs = true

theorem Canonical.regs {s : State} (h : Canonical s) : RegsWf s := ⟨h.2.1, h.2.2.1, h.2.2.2.1⟩

theorem setSreg_wf {s : State} (pid r : Nat) (v : Word) (h : RegsWf s) : RegsWf (setSreg s pid r v) := by
  rcases setSreg_cases s pid r v with ⟨g, e, -, -, -⟩ | ⟨e, -⟩ <;> rw [e]
  · exact h
  · exact ⟨h.1, h.2.1, SMap.wf_putD _ _ h.2.2⟩

theorem putDst_wf {s : State} (pid l : Nat) (d : Dst) (v : Word) (h : RegsWf s) : RegsWf (putDst s pid l d v) := by
  cases d with
  | none => exact h
  | val depth n => exact ⟨SMap.wf_putD _ _ h.1, h.2.1, h.2.2⟩
  | vreg r wide =>
    cases wide
    · exact ⟨h.1, SMap.wf_putD _ _ h.2.1, h.2.2⟩
    · exact ⟨h.1, SMap.wf_putD _ _ (SMap.wf_putD _ _ h.2.1), h.2.2⟩
  | sreg r => exact setSreg_wf _ _ _ h
  | sbit r b => exact setSreg_wf _ _ _ h

theorem putLanes_wf {s : State} (pid : Nat) (d : Dst) (rs : List (Nat × Word)) (h : RegsWf s) : RegsWf (putLanes s pid d rs) :=
  putLanes_induct (P := RegsWf) s pid d rs h (fun t r _ ht => putDst_wf pid r.1 d r.2 ht)

/-- A result just written stands in its destination. -/
theorem holds_putDst {s : State} {pid : Nat} (l : Nat) (d : Dst) (v : Word) (h : RegsWf s)
    (hp : (s.x.paths.find? pid).isSome = true) : Holds (putDst s pid l d v) pid l d v := by
  cases d with
  | none => trivial
  | val depth n => exact SMap.getD_putD_self _ v h.1
  | vreg r wide =>
    cases wide
    · exact ⟨SMap.getD_putD_self _ _ h.2.1, by simp⟩
    · refine ⟨?_, fun _ => SMap.getD_putD_self _ _ (SMap.wf_putD _ _ h.2.1)⟩
      have : vregKey (warpOfPath pid) r l ≠ vregKey (warpOfPath pid) (r + 1) l := by unfold vregKey; omega
      exact (SMap.getD_putD_ne 0 _ _ this).trans (SMap.getD_putD_self _ _ h.2.1)
  | sreg r => exact getSreg_setSreg_self v hp h.2.2
  | sbit r b =>
    intro hb
    show (getSreg (setSreg _ _ _ _) _ _).getLsbD b = _
    rw [getSreg_setSreg_self _ hp h.2.2]
    simp [hb]

/-- Writing another lane leaves a lane's result of a vector or of values. -/
theorem holds_putDst_ne {s : State} {pid l j : Nat} (d : Dst) (v u : Word) (hd : sregOf d = none) (hl : l < 64) (hj : j < 64)
    (hne : l ≠ j) (h : Holds s pid l d u) : Holds (putDst s pid j d v) pid l d u := by
  cases d with
  | none => trivial
  | val depth n =>
    have : valKey (threadKey pid l) depth n ≠ valKey (threadKey pid j) depth n := by unfold valKey threadKey; omega
    exact (SMap.getD_putD_ne 0 _ v this).trans h
  | vreg r wide =>
    have h1 : vregKey (warpOfPath pid) r l ≠ vregKey (warpOfPath pid) r j := by unfold vregKey; omega
    have h2 : vregKey (warpOfPath pid) r l ≠ vregKey (warpOfPath pid) (r + 1) j := by unfold vregKey; omega
    have h3 : vregKey (warpOfPath pid) (r + 1) l ≠ vregKey (warpOfPath pid) r j := by unfold vregKey; omega
    have h4 : vregKey (warpOfPath pid) (r + 1) l ≠ vregKey (warpOfPath pid) (r + 1) j := by unfold vregKey; omega
    cases wide
    · exact ⟨(SMap.getD_putD_ne 0 _ _ h1).trans h.1, by simp⟩
    · exact ⟨(SMap.getD_putD_ne 0 _ _ h2).trans ((SMap.getD_putD_ne 0 _ _ h1).trans h.1),
        fun _ => (SMap.getD_putD_ne 0 _ _ h4).trans ((SMap.getD_putD_ne 0 _ _ h3).trans (h.2 rfl))⟩
  | sreg r => simp [sregOf] at hd
  | sbit r b => simp [sregOf] at hd

/-- Every lane's result stands where it was written. -/
theorem results_putLanes {s : State} {pid : Nat} (d : Dst) (ls : List Nat) (g : Nat → Word) (hn : ls.Nodup)
    (hl : ∀ l ∈ ls, l < 64) (h : RegsWf s) (hp : (s.x.paths.find? pid).isSome = true) :
    Results (putLanes s pid d (ls.map (fun l => (l, g l)))) pid d ls g := by
  have one : ∀ d, sregOf d ≠ none → ∀ l ∈ takers d ls, Holds ((((ls.map (fun l => (l, g l))).take 1)).foldl
      (fun s r => putDst s pid r.1 d r.2) s) pid l d (g l) := by
    intro d hd l hm
    cases ls with
    | nil => cases d <;> simp [takers, sregOf] at hm hd
    | cons a as =>
      have : l = a := by cases d <;> simp [takers, sregOf] at hm hd <;> exact hm
      subst this
      exact holds_putDst l d (g l) h hp
  have all : ∀ d, sregOf d = none → ∀ l ∈ ls, Holds ((ls.map (fun l => (l, g l))).foldl
      (fun s r => putDst s pid r.1 d r.2) s) pid l d (g l) := by
    intro d hd
    have go : ∀ (ls : List Nat), ls.Nodup → (∀ l ∈ ls, l < 64) → ∀ t, RegsWf t → (t.x.paths.find? pid).isSome = true →
        (∀ l ∈ ls, Holds ((ls.map (fun l => (l, g l))).foldl (fun s r => putDst s pid r.1 d r.2) t) pid l d (g l)) ∧
        (∀ l u, l < 64 → l ∉ ls → Holds t pid l d u →
          Holds ((ls.map (fun l => (l, g l))).foldl (fun s r => putDst s pid r.1 d r.2) t) pid l d u) := by
      intro ls
      induction ls with
      | nil => intro _ _ t _ _; exact ⟨fun l hl => by simp at hl, fun l u _ _ hu => hu⟩
      | cons a as ih =>
        intro hn hl t ht hp
        have ha := hl a (List.mem_cons_self ..)
        have k := ih (List.nodup_cons.1 hn).2 (fun l h => hl l (List.mem_cons_of_mem _ h)) (putDst t pid a d (g a))
          (putDst_wf pid a d (g a) ht) (putDst_path a d (g a) hp).1
        refine ⟨fun l hm => ?_, fun l u h64 hm hu => ?_⟩
        · rcases List.mem_cons.1 hm with rfl | hm
          · exact k.2 l (g l) ha (List.nodup_cons.1 hn).1 (holds_putDst l d (g l) ht hp)
          · exact k.1 l hm
        · have hne : l ≠ a := fun e => hm (by simp [e])
          exact k.2 l u h64 (fun h => hm (List.mem_cons_of_mem _ h)) (holds_putDst_ne d (g a) u hd h64 ha hne hu)
    exact (go ls hn hl s h hp).1
  cases d with
  | none => intro l _; trivial
  | val depth n => exact all (.val depth n) rfl
  | vreg r wide => exact all (.vreg r wide) rfl
  | sreg r => exact one (.sreg r) (by simp [sregOf])
  | sbit r b => exact one (.sbit r b) (by simp [sregOf])

theorem setSreg_c (s : State) (pid r : Nat) (v : Word) : (setSreg s pid r v).c = s.c := by
  rcases setSreg_cases s pid r v with ⟨g, h, -⟩ | ⟨h, -⟩ <;> rw [h] <;> rfl

theorem putDst_c (s : State) (pid l : Nat) (d : Dst) (v : Word) : (putDst s pid l d v).c = s.c := by
  cases d with
  | none => rfl
  | val depth n => rfl
  | vreg r wide => cases wide <;> rfl
  | sreg r => exact setSreg_c ..
  | sbit r b => exact setSreg_c ..

theorem putLanes_c (s : State) (pid : Nat) (d : Dst) (rs : List (Nat × Word)) : (putLanes s pid d rs).c = s.c :=
  putLanes_induct (P := fun t => t.c = s.c) s pid d rs rfl (fun t r _ ht => (putDst_c ..).trans ht)

/-! ### Finishing -/

/-- An operation that has completed: a word ends the issue and the path stands at the next one; a slot does nothing. -/
theorem finish_p (s : State) (c : Ctx) (w : PForm) : finish s c (.p w) = endIssue (nextWord s c) := rfl
theorem finish_n (s : State) (c : Ctx) (w : NForm) : finish s c (.n w) = s := rfl

theorem finish_kept (s : State) (c : Ctx) (f : Form) :
    RestKept s (finish s c f) ∧ PathsKept s (finish s c f) c.pid ∧ (finish s c f).x = { s.x with paths := (finish s c f).x.paths } := by
  cases f with
  | n w => exact ⟨.refl s, .refl s c.pid, rfl⟩
  | p w =>
    exact ⟨⟨rfl, rfl, rfl, rfl, rfl, rfl, rfl⟩, ⟨rfl, rfl, rfl, rfl, rfl, fun p hp => SMap.find?_upd_ne _ _ hp⟩, rfl⟩

theorem finish_goesOn {s : State} {c : Ctx} (f : Form) (hp : (s.x.paths.find? c.pid).isSome = true) :
    GoesOn s (finish s c f) c f := by
  cases f with
  | n w => exact ⟨rfl, rfl, rfl⟩
  | p w =>
    have e : pathAt (finish s c (.p w)) c.pid =
        { pathAt s c.pid with pc := .word (VPC.of c.fn (nextIx c.func.code c.ix)), readyAt := s.c.cycle } :=
      pathAt_updPath_self _ hp
    exact ⟨by rw [e]; rfl, rfl, by rw [e]⟩

theorem getSreg_finish {s : State} {c : Ctx} (f : Form) (r : Nat) (hp : (s.x.paths.find? c.pid).isSome = true) :
    getSreg (finish s c f) c.pid r = getSreg s c.pid r := by
  cases f with
  | n w => rfl
  | p w =>
    have e : pathAt (finish s c (.p w)) c.pid =
        { pathAt s c.pid with pc := .word (VPC.of c.fn (nextIx c.func.code c.ix)), readyAt := s.c.cycle } :=
      pathAt_updPath_self _ hp
    unfold getSreg; rw [e]; rfl

theorem holds_finish {s : State} {c : Ctx} (f : Form) {l : Nat} {d : Dst} {v : Word}
    (hp : (s.x.paths.find? c.pid).isSome = true) (h : Holds s c.pid l d v) : Holds (finish s c f) c.pid l d v := by
  have hx := (finish_kept s c f).2.2
  cases d with
  | none => trivial
  | val depth n => unfold Holds getVal; rw [hx]; exact h
  | vreg r wide => unfold Holds getVreg; rw [hx]; exact h
  | sreg r => exact (getSreg_finish f r hp).trans h
  | sbit r b =>
    intro hb
    show (getSreg (finish s c f) c.pid r).getLsbD b = _
    rw [getSreg_finish f r hp]; exact h hb

theorem finish_registers {s : State} {c : Ctx} (f : Form) (d : Dst) (ls : List Nat)
    (hp : (s.x.paths.find? c.pid).isSome = true) : RegistersKept s (finish s c f) c.pid d ls := by
  have hx := (finish_kept s c f).2.2
  exact ⟨fun k _ => by rw [hx], fun k _ => by rw [hx], fun k _ => by rw [hx], fun r _ => getSreg_finish f r hp⟩

/-- WRITING RESULTS AND FINISHING has the shape `Gives`. -/
theorem gives_finish_putLanes {s : State} {c : Ctx} (f : Form) (d : Dst) (ls : List Nat) (g : Nat → Word) (hn : ls.Nodup)
    (hl : ∀ l ∈ ls, l < 64) (h : RegsWf s) (hp : (s.x.paths.find? c.pid).isSome = true) :
    Gives s (finish (putLanes s c.pid d (ls.map (fun l => (l, g l)))) c f) c f d ls g ∧
      (finish (putLanes s c.pid d (ls.map (fun l => (l, g l)))) c f).x.threads = s.x.threads := by
  have k := putLanes_kept s c.pid d (ls.map (fun l => (l, g l)))
  have q := putLanes_path d (ls.map (fun l => (l, g l))) hp
  have e := finish_kept (putLanes s c.pid d (ls.map (fun l => (l, g l)))) c f
  have go := finish_goesOn f q.1
  refine ⟨⟨fun l hm => holds_finish f q.1 (results_putLanes d ls g hn hl h hp l hm), ⟨go.1.trans q.2.1, ?_⟩,
    (putLanes_registers d (fun r hr => ?_) hp).trans (finish_registers f d ls q.1), k.1.trans e.1, k.2.1.trans e.2.1⟩, ?_⟩
  · cases f with
    | p w => exact go.2
    | n w => exact ⟨by rw [go.2.1, putLanes_c], go.2.2.trans q.2.2⟩
  · obtain ⟨l, hl, rfl⟩ := List.mem_map.1 hr; exact hl
  · rw [e.2.2]; exact k.2.2

/-! ### Issuing -/

/-- An operation that issues runs its meaning. -/
theorem issuing_eq {f : Form} {s : State} {c : Ctx} (h : Issues s f c) (k : Ctx → Out) : issuing f s k = k c := by
  obtain ⟨h1, -, h3⟩ := h
  obtain ⟨i, hi, rfl⟩ := Option.map_eq_some_iff.1 h1
  simp [issuing, hi, h3]

/-- Without a path chosen to issue an operation stops. -/
theorem issuing_none {f : Form} {s : State} (h : s.c.issue = none) (k : Ctx → Out) : issuing f s k = .fault .noIssuingPath := by
  simp [issuing, h]

/-- THE SHAPE `laneOp`. -/
theorem laneOp_computes {f : Form} {s : State} {c : Ctx} (h : Issues s f c) (hc : Canonical s) (t : Ctx → Ty)
    (g : Ctx → Nat → Word) : Computes s c f (dstOf c f (t c)) (g c) (laneOp f s t g) := by
  refine ⟨_, ?_, gives_finish_putLanes f (dstOf c f (t c)) (actLanes s c.pid f) (g c) (actLanes_nodup ..)
    (fun l hl => actLanes_lt hl) hc.regs h.2.1⟩
  rw [laneOp, issuing_eq h]

/-! ### Flags -/

theorem orFlags_cases (s : State) (k : Nat) (fl : Flags) :
    (∃ m, orFlags s k fl = { s with x := { s.x with threads := m } }) ∧
      threadAt (orFlags s k fl) k = { threadAt s k with flags := (threadAt s k).flags ||| fl } ∧
      ∀ j, j ≠ k → threadAt (orFlags s k fl) j = threadAt s j := by
  unfold orFlags
  split
  · next h => subst h; exact ⟨⟨_, rfl⟩, by simp, fun _ _ => rfl⟩
  · refine ⟨⟨_, rfl⟩, ?_, fun j hj => ?_⟩
    · simp [setThread, threadAt, SMap.getD, SMap.find?_ins_self]
    · simp [setThread, threadAt, SMap.getD, SMap.find?_ins_ne _ _ hj]

/-- Raising flags lane by lane: threads alone change, each by its own flags. -/
theorem orFlags_foldl (pid : Nat) (fls : List (Nat × Flags)) (s : State) (hn : (fls.map (·.1)).Nodup)
    (hl : ∀ r ∈ fls, r.1 < 64) :
    (∃ m, fls.foldl (fun s r => orFlags s (threadKey pid r.1) r.2) s = { s with x := { s.x with threads := m } }) ∧
      FlagsRaised s (fls.foldl (fun s r => orFlags s (threadKey pid r.1) r.2) s) pid fls := by
  induction fls generalizing s with
  | nil => exact ⟨⟨_, rfl⟩, fun r hr => by simp at hr, fun _ _ => rfl⟩
  | cons a as ih =>
    simp only [List.map_cons, List.nodup_cons] at hn
    have ho := orFlags_cases s (threadKey pid a.1) a.2
    obtain ⟨⟨m, hm⟩, hr⟩ := ih (orFlags s (threadKey pid a.1) a.2) hn.2 (fun r h => hl r (List.mem_cons_of_mem _ h))
    have key : ∀ r ∈ as, threadKey pid r.1 ≠ threadKey pid a.1 := by
      intro r h e
      have h1 := hl r (List.mem_cons_of_mem _ h)
      have h2 := hl a (List.mem_cons_self ..)
      have : r.1 = a.1 := by unfold threadKey at e; omega
      exact hn.1 (this ▸ List.mem_map.2 ⟨r, h, rfl⟩)
    refine ⟨?_, fun r h => ?_, fun k hk => ?_⟩
    · obtain ⟨m1, h1⟩ := ho.1
      refine ⟨m, ?_⟩
      rw [List.foldl_cons, hm, h1]
    · rw [List.foldl_cons]
      rcases List.mem_cons.1 h with rfl | h
      · rw [hr.others _ (fun hk => ?_), ho.2.1]
        obtain ⟨q, hq, e⟩ := List.mem_map.1 hk
        exact key q hq e
      · rw [hr.raised r h, ho.2.2 _ (key r h)]
    · simp only [List.map_cons, List.mem_cons, not_or] at hk
      rw [List.foldl_cons, hr.others k hk.2, ho.2.2 k hk.1]

theorem flagsOf_lanes (s : State) (c : Ctx) (f : Form) (g : Nat → Word × Flags) :
    ((flagsOf s c f g).map (·.1)).Nodup ∧ ∀ r ∈ flagsOf s c f g, r.1 < 64 := by
  have plain : ∀ ls : List Nat, ls.Nodup → (∀ l ∈ ls, l < 64) →
      (((ls.map (fun l => (l, (g l).1, (g l).2))).map (fun r => (r.1, r.2.2))).map (·.1)).Nodup ∧
      ∀ r ∈ (ls.map (fun l => (l, (g l).1, (g l).2))).map (fun r => (r.1, r.2.2)), r.1 < 64 := by
    intro ls hn hl
    refine ⟨by simpa [Function.comp_def] using hn, fun r hr => ?_⟩
    simp only [List.map_map, List.mem_map, Function.comp] at hr
    obtain ⟨l, h, rfl⟩ := hr
    exact hl l h
  unfold flagsOf flagLanes
  cases f with
  | p w => exact plain _ (actLanes_nodup ..) (fun l h => actLanes_lt h)
  | n w =>
    simp only
    split
    · refine ⟨by simpa [Function.comp_def] using lanes_nodup _, fun r hr => ?_⟩
      obtain ⟨l, h, rfl⟩ := List.mem_map.1 hr
      exact mem_lanes_lt h
    · exact plain _ (actLanes_nodup ..) (fun l h => actLanes_lt h)

/-- Results with flags, none of them trapping. -/
theorem withFlags_computes {f : Form} {s : State} {c : Ctx} (h : Issues s f c) (hc : Canonical s) (t : Ty) (kind : Nat)
    (g : Nat → Word × Flags) (hu : Untrapped s c (flagsOf s c f g)) :
    ComputesFlags s c f (dstOf c f t) g
      (.next (withFlags s c f t kind ((actLanes s c.pid f).map (fun l => (l, (g l).1, (g l).2))))) := by
  have hl := flagsOf_lanes s c f g
  obtain ⟨⟨m, hm⟩, hr⟩ := orFlags_foldl c.pid (flagsOf s c f g) s hl.1 hl.2
  have hf : ((flagsOf s c f g).filter (fun r => r.2 &&& trapEnables (modeThread s c r.1).mode != 0)).isEmpty = true := by
    rw [List.isEmpty_iff, List.filter_eq_nil_iff]
    intro r h; simp [hu r h]
  refine ⟨_, rfl, ?_⟩
  have e : withFlags s c f t kind ((actLanes s c.pid f).map (fun l => (l, (g l).1, (g l).2))) =
      finish (putLanes { s with x := { s.x with threads := m } } c.pid (dstOf c f t)
        ((actLanes s c.pid f).map (fun l => (l, (g l).1)))) c f := by
    unfold withFlags
    show (if ((flagsOf s c f g).filter _).isEmpty = true then _ else _) = _
    rw [if_pos hf, List.map_map]
    show finish (putLanes ((flagsOf s c f g).foldl _ s) _ _ _) c f = _
    rw [hm]; rfl
  rw [e]
  have k := gives_finish_putLanes (s := { s with x := { s.x with threads := m } }) f (dstOf c f t) (actLanes s c.pid f)
    (fun l => (g l).1) (actLanes_nodup ..) (fun l hl => actLanes_lt hl) hc.regs h.2.1
  have kr := k.1.registers
  have ke := k.1.rest
  have kp := k.1.paths
  refine ⟨⟨k.1.results, k.1.goesOn, ⟨kr.vals, kr.vregs, kr.sregs, kr.own⟩, ⟨ke.mem, ke.engines, ke.plane, ke.ring, ke.host, ke.debug, ke.control⟩,
    ⟨kp.gangs, kp.wgs, kp.warps, kp.splits, kp.blocks, kp.others⟩⟩, fun r h => ?_, fun j hj => ?_⟩
  · rw [threadAt, k.2, ← hr.raised r h, threadAt, hm]
  · rw [threadAt, k.2, ← hr.others j hj, threadAt, hm]

/-- THE SHAPE `flagOp`. -/
theorem flagOp_computes {f : Form} {s : State} {c : Ctx} (h : Issues s f c) (hc : Canonical s) (t : Ctx → Ty) (kind : Nat)
    (g : Ctx → Nat → Word × Flags) (hu : Untrapped s c (flagsOf s c f (g c))) :
    ComputesFlags s c f (dstOf c f (t c)) (g c) (flagOp f s t kind g) := by
  rw [flagOp, issuing_eq h]
  exact withFlags_computes h hc (t c) kind (g c) hu

end Sys2Proof.Machine
end

