-- ==== Sys2Proof/Laws/State.lean ====
section
/-!
SUPPORT. What each update of the state leaves alone, field by field, and what it writes.
-/
namespace Sys2Proof.Machine

section
variable (s : State)

/-! ### setDie -/

@[simp] theorem setDie_c (d : Nat) (v : Die) : (setDie s d v).c = s.c := rfl
@[simp] theorem setDie_m (d : Nat) (v : Die) : (setDie s d v).m = s.m := rfl
@[simp] theorem setDie_x (d : Nat) (v : Die) : (setDie s d v).x = s.x := rfl
@[simp] theorem setDie_e (d : Nat) (v : Die) : (setDie s d v).e = s.e := rfl
@[simp] theorem setDie_pl (d : Nat) (v : Die) : (setDie s d v).pl = s.pl := rfl
@[simp] theorem setDie_r (d : Nat) (v : Die) : (setDie s d v).r = s.r := rfl
@[simp] theorem setDie_d (d : Nat) (v : Die) : (setDie s d v).d = s.d := rfl
@[simp] theorem setDie_h_out (d : Nat) (v : Die) : (setDie s d v).h.out = s.h.out := rfl
@[simp] theorem setDie_h_dies (d : Nat) (v : Die) : (setDie s d v).h.dies = s.h.dies.ins d v := rfl
@[simp] theorem setDie_h_clusters (d : Nat) (v : Die) : (setDie s d v).h.clusters = s.h.clusters := rfl
@[simp] theorem setDie_h_ctxs (d : Nat) (v : Die) : (setDie s d v).h.ctxs = s.h.ctxs := rfl
@[simp] theorem setDie_h_exports (d : Nat) (v : Die) : (setDie s d v).h.exports = s.h.exports := rfl
@[simp] theorem setDie_h_imports (d : Nat) (v : Die) : (setDie s d v).h.imports = s.h.imports := rfl
@[simp] theorem setDie_h_modules (d : Nat) (v : Die) : (setDie s d v).h.modules = s.h.modules := rfl
@[simp] theorem setDie_h_handles (d : Nat) (v : Die) : (setDie s d v).h.handles = s.h.handles := rfl
@[simp] theorem setDie_h_launches (d : Nat) (v : Die) : (setDie s d v).h.launches = s.h.launches := rfl
@[simp] theorem setDie_h_queues (d : Nat) (v : Die) : (setDie s d v).h.queues = s.h.queues := rfl
@[simp] theorem setDie_h_events (d : Nat) (v : Die) : (setDie s d v).h.events = s.h.events := rfl
@[simp] theorem setDie_h_captures (d : Nat) (v : Die) : (setDie s d v).h.captures = s.h.captures := rfl
@[simp] theorem setDie_h_waiting (d : Nat) (v : Die) : (setDie s d v).h.waiting = s.h.waiting := rfl
@[simp] theorem setDie_h_deferred (d : Nat) (v : Die) : (setDie s d v).h.deferred = s.h.deferred := rfl
@[simp] theorem setDie_h_remote (d : Nat) (v : Die) : (setDie s d v).h.remote = s.h.remote := rfl

/-! ### setCluster -/

@[simp] theorem setCluster_c (c : Nat) (v : Cluster) : (setCluster s c v).c = s.c := rfl
@[simp] theorem setCluster_m (c : Nat) (v : Cluster) : (setCluster s c v).m = s.m := rfl
@[simp] theorem setCluster_x (c : Nat) (v : Cluster) : (setCluster s c v).x = s.x := rfl
@[simp] theorem setCluster_e (c : Nat) (v : Cluster) : (setCluster s c v).e = s.e := rfl
@[simp] theorem setCluster_pl (c : Nat) (v : Cluster) : (setCluster s c v).pl = s.pl := rfl
@[simp] theorem setCluster_r (c : Nat) (v : Cluster) : (setCluster s c v).r = s.r := rfl
@[simp] theorem setCluster_d (c : Nat) (v : Cluster) : (setCluster s c v).d = s.d := rfl
@[simp] theorem setCluster_h_out (c : Nat) (v : Cluster) : (setCluster s c v).h.out = s.h.out := rfl
@[simp] theorem setCluster_h_dies (c : Nat) (v : Cluster) : (setCluster s c v).h.dies = s.h.dies := rfl
@[simp] theorem setCluster_h_clusters (c : Nat) (v : Cluster) : (setCluster s c v).h.clusters = s.h.clusters.ins c v := rfl
@[simp] theorem setCluster_h_ctxs (c : Nat) (v : Cluster) : (setCluster s c v).h.ctxs = s.h.ctxs := rfl
@[simp] theorem setCluster_h_exports (c : Nat) (v : Cluster) : (setCluster s c v).h.exports = s.h.exports := rfl
@[simp] theorem setCluster_h_imports (c : Nat) (v : Cluster) : (setCluster s c v).h.imports = s.h.imports := rfl
@[simp] theorem setCluster_h_modules (c : Nat) (v : Cluster) : (setCluster s c v).h.modules = s.h.modules := rfl
@[simp] theorem setCluster_h_handles (c : Nat) (v : Cluster) : (setCluster s c v).h.handles = s.h.handles := rfl
@[simp] theorem setCluster_h_launches (c : Nat) (v : Cluster) : (setCluster s c v).h.launches = s.h.launches := rfl
@[simp] theorem setCluster_h_queues (c : Nat) (v : Cluster) : (setCluster s c v).h.queues = s.h.queues := rfl
@[simp] theorem setCluster_h_events (c : Nat) (v : Cluster) : (setCluster s c v).h.events = s.h.events := rfl
@[simp] theorem setCluster_h_captures (c : Nat) (v : Cluster) : (setCluster s c v).h.captures = s.h.captures := rfl
@[simp] theorem setCluster_h_waiting (c : Nat) (v : Cluster) : (setCluster s c v).h.waiting = s.h.waiting := rfl
@[simp] theorem setCluster_h_deferred (c : Nat) (v : Cluster) : (setCluster s c v).h.deferred = s.h.deferred := rfl
@[simp] theorem setCluster_h_remote (c : Nat) (v : Cluster) : (setCluster s c v).h.remote = s.h.remote := rfl

/-! ### setCtx -/

@[simp] theorem setCtx_c (k : Nat) (v : Context) : (setCtx s k v).c = s.c := rfl
@[simp] theorem setCtx_m (k : Nat) (v : Context) : (setCtx s k v).m = s.m := rfl
@[simp] theorem setCtx_x (k : Nat) (v : Context) : (setCtx s k v).x = s.x := rfl
@[simp] theorem setCtx_e (k : Nat) (v : Context) : (setCtx s k v).e = s.e := rfl
@[simp] theorem setCtx_pl (k : Nat) (v : Context) : (setCtx s k v).pl = s.pl := rfl
@[simp] theorem setCtx_r (k : Nat) (v : Context) : (setCtx s k v).r = s.r := rfl
@[simp] theorem setCtx_d (k : Nat) (v : Context) : (setCtx s k v).d = s.d := rfl
@[simp] theorem setCtx_h_out (k : Nat) (v : Context) : (setCtx s k v).h.out = s.h.out := rfl
@[simp] theorem setCtx_h_dies (k : Nat) (v : Context) : (setCtx s k v).h.dies = s.h.dies := rfl
@[simp] theorem setCtx_h_clusters (k : Nat) (v : Context) : (setCtx s k v).h.clusters = s.h.clusters := rfl
@[simp] theorem setCtx_h_ctxs (k : Nat) (v : Context) : (setCtx s k v).h.ctxs = s.h.ctxs.ins k v := rfl
@[simp] theorem setCtx_h_exports (k : Nat) (v : Context) : (setCtx s k v).h.exports = s.h.exports := rfl
@[simp] theorem setCtx_h_imports (k : Nat) (v : Context) : (setCtx s k v).h.imports = s.h.imports := rfl
@[simp] theorem setCtx_h_modules (k : Nat) (v : Context) : (setCtx s k v).h.modules = s.h.modules := rfl
@[simp] theorem setCtx_h_handles (k : Nat) (v : Context) : (setCtx s k v).h.handles = s.h.handles := rfl
@[simp] theorem setCtx_h_launches (k : Nat) (v : Context) : (setCtx s k v).h.launches = s.h.launches := rfl
@[simp] theorem setCtx_h_queues (k : Nat) (v : Context) : (setCtx s k v).h.queues = s.h.queues := rfl
@[simp] theorem setCtx_h_events (k : Nat) (v : Context) : (setCtx s k v).h.events = s.h.events := rfl
@[simp] theorem setCtx_h_captures (k : Nat) (v : Context) : (setCtx s k v).h.captures = s.h.captures := rfl
@[simp] theorem setCtx_h_waiting (k : Nat) (v : Context) : (setCtx s k v).h.waiting = s.h.waiting := rfl
@[simp] theorem setCtx_h_deferred (k : Nat) (v : Context) : (setCtx s k v).h.deferred = s.h.deferred := rfl
@[simp] theorem setCtx_h_remote (k : Nat) (v : Context) : (setCtx s k v).h.remote = s.h.remote := rfl

/-! ### setLaunch -/

@[simp] theorem setLaunch_c (l : Nat) (v : Launch) : (setLaunch s l v).c = s.c := rfl
@[simp] theorem setLaunch_m (l : Nat) (v : Launch) : (setLaunch s l v).m = s.m := rfl
@[simp] theorem setLaunch_x (l : Nat) (v : Launch) : (setLaunch s l v).x = s.x := rfl
@[simp] theorem setLaunch_e (l : Nat) (v : Launch) : (setLaunch s l v).e = s.e := rfl
@[simp] theorem setLaunch_pl (l : Nat) (v : Launch) : (setLaunch s l v).pl = s.pl := rfl
@[simp] theorem setLaunch_r (l : Nat) (v : Launch) : (setLaunch s l v).r = s.r := rfl
@[simp] theorem setLaunch_d (l : Nat) (v : Launch) : (setLaunch s l v).d = s.d := rfl
@[simp] theorem setLaunch_h_out (l : Nat) (v : Launch) : (setLaunch s l v).h.out = s.h.out := rfl
@[simp] theorem setLaunch_h_dies (l : Nat) (v : Launch) : (setLaunch s l v).h.dies = s.h.dies := rfl
@[simp] theorem setLaunch_h_clusters (l : Nat) (v : Launch) : (setLaunch s l v).h.clusters = s.h.clusters := rfl
@[simp] theorem setLaunch_h_ctxs (l : Nat) (v : Launch) : (setLaunch s l v).h.ctxs = s.h.ctxs := rfl
@[simp] theorem setLaunch_h_exports (l : Nat) (v : Launch) : (setLaunch s l v).h.exports = s.h.exports := rfl
@[simp] theorem setLaunch_h_imports (l : Nat) (v : Launch) : (setLaunch s l v).h.imports = s.h.imports := rfl
@[simp] theorem setLaunch_h_modules (l : Nat) (v : Launch) : (setLaunch s l v).h.modules = s.h.modules := rfl
@[simp] theorem setLaunch_h_handles (l : Nat) (v : Launch) : (setLaunch s l v).h.handles = s.h.handles := rfl
@[simp] theorem setLaunch_h_launches (l : Nat) (v : Launch) : (setLaunch s l v).h.launches = s.h.launches.ins l v := rfl
@[simp] theorem setLaunch_h_queues (l : Nat) (v : Launch) : (setLaunch s l v).h.queues = s.h.queues := rfl
@[simp] theorem setLaunch_h_events (l : Nat) (v : Launch) : (setLaunch s l v).h.events = s.h.events := rfl
@[simp] theorem setLaunch_h_captures (l : Nat) (v : Launch) : (setLaunch s l v).h.captures = s.h.captures := rfl
@[simp] theorem setLaunch_h_waiting (l : Nat) (v : Launch) : (setLaunch s l v).h.waiting = s.h.waiting := rfl
@[simp] theorem setLaunch_h_deferred (l : Nat) (v : Launch) : (setLaunch s l v).h.deferred = s.h.deferred := rfl
@[simp] theorem setLaunch_h_remote (l : Nat) (v : Launch) : (setLaunch s l v).h.remote = s.h.remote := rfl

/-! ### setPath -/

@[simp] theorem setPath_c (p : Nat) (v : Path) : (setPath s p v).c = s.c := rfl
@[simp] theorem setPath_m (p : Nat) (v : Path) : (setPath s p v).m = s.m := rfl
@[simp] theorem setPath_e (p : Nat) (v : Path) : (setPath s p v).e = s.e := rfl
@[simp] theorem setPath_pl (p : Nat) (v : Path) : (setPath s p v).pl = s.pl := rfl
@[simp] theorem setPath_r (p : Nat) (v : Path) : (setPath s p v).r = s.r := rfl
@[simp] theorem setPath_h (p : Nat) (v : Path) : (setPath s p v).h = s.h := rfl
@[simp] theorem setPath_d (p : Nat) (v : Path) : (setPath s p v).d = s.d := rfl
@[simp] theorem setPath_x_gangs (p : Nat) (v : Path) : (setPath s p v).x.gangs = s.x.gangs := rfl
@[simp] theorem setPath_x_wgs (p : Nat) (v : Path) : (setPath s p v).x.wgs = s.x.wgs := rfl
@[simp] theorem setPath_x_warps (p : Nat) (v : Path) : (setPath s p v).x.warps = s.x.warps := rfl
@[simp] theorem setPath_x_gone (p : Nat) (v : Path) : (setPath s p v).x.gone = s.x.gone := rfl
@[simp] theorem setPath_x_paths (p : Nat) (v : Path) : (setPath s p v).x.paths = s.x.paths.ins p v := rfl
@[simp] theorem setPath_x_splits (p : Nat) (v : Path) : (setPath s p v).x.splits = s.x.splits := rfl
@[simp] theorem setPath_x_threads (p : Nat) (v : Path) : (setPath s p v).x.threads = s.x.threads := rfl
@[simp] theorem setPath_x_vals (p : Nat) (v : Path) : (setPath s p v).x.vals = s.x.vals := rfl
@[simp] theorem setPath_x_vregs (p : Nat) (v : Path) : (setPath s p v).x.vregs = s.x.vregs := rfl
@[simp] theorem setPath_x_sregs (p : Nat) (v : Path) : (setPath s p v).x.sregs = s.x.sregs := rfl
@[simp] theorem setPath_x_blocks (p : Nat) (v : Path) : (setPath s p v).x.blocks = s.x.blocks := rfl

/-! ### updPath -/

@[simp] theorem updPath_c (p : Nat) (f : Path → Path) : (updPath s p f).c = s.c := rfl
@[simp] theorem updPath_m (p : Nat) (f : Path → Path) : (updPath s p f).m = s.m := rfl
@[simp] theorem updPath_e (p : Nat) (f : Path → Path) : (updPath s p f).e = s.e := rfl
@[simp] theorem updPath_pl (p : Nat) (f : Path → Path) : (updPath s p f).pl = s.pl := rfl
@[simp] theorem updPath_r (p : Nat) (f : Path → Path) : (updPath s p f).r = s.r := rfl
@[simp] theorem updPath_h (p : Nat) (f : Path → Path) : (updPath s p f).h = s.h := rfl
@[simp] theorem updPath_d (p : Nat) (f : Path → Path) : (updPath s p f).d = s.d := rfl
@[simp] theorem updPath_x_gangs (p : Nat) (f : Path → Path) : (updPath s p f).x.gangs = s.x.gangs := rfl
@[simp] theorem updPath_x_wgs (p : Nat) (f : Path → Path) : (updPath s p f).x.wgs = s.x.wgs := rfl
@[simp] theorem updPath_x_warps (p : Nat) (f : Path → Path) : (updPath s p f).x.warps = s.x.warps := rfl
@[simp] theorem updPath_x_gone (p : Nat) (f : Path → Path) : (updPath s p f).x.gone = s.x.gone := rfl
@[simp] theorem updPath_x_paths (p : Nat) (f : Path → Path) : (updPath s p f).x.paths = s.x.paths.upd p f := rfl
@[simp] theorem updPath_x_splits (p : Nat) (f : Path → Path) : (updPath s p f).x.splits = s.x.splits := rfl
@[simp] theorem updPath_x_threads (p : Nat) (f : Path → Path) : (updPath s p f).x.threads = s.x.threads := rfl
@[simp] theorem updPath_x_vals (p : Nat) (f : Path → Path) : (updPath s p f).x.vals = s.x.vals := rfl
@[simp] theorem updPath_x_vregs (p : Nat) (f : Path → Path) : (updPath s p f).x.vregs = s.x.vregs := rfl
@[simp] theorem updPath_x_sregs (p : Nat) (f : Path → Path) : (updPath s p f).x.sregs = s.x.sregs := rfl
@[simp] theorem updPath_x_blocks (p : Nat) (f : Path → Path) : (updPath s p f).x.blocks = s.x.blocks := rfl

/-! ### setWarp -/

@[simp] theorem setWarp_c (w : Nat) (v : Warp) : (setWarp s w v).c = s.c := rfl
@[simp] theorem setWarp_m (w : Nat) (v : Warp) : (setWarp s w v).m = s.m := rfl
@[simp] theorem setWarp_e (w : Nat) (v : Warp) : (setWarp s w v).e = s.e := rfl
@[simp] theorem setWarp_pl (w : Nat) (v : Warp) : (setWarp s w v).pl = s.pl := rfl
@[simp] theorem setWarp_r (w : Nat) (v : Warp) : (setWarp s w v).r = s.r := rfl
@[simp] theorem setWarp_h (w : Nat) (v : Warp) : (setWarp s w v).h = s.h := rfl
@[simp] theorem setWarp_d (w : Nat) (v : Warp) : (setWarp s w v).d = s.d := rfl
@[simp] theorem setWarp_x_gangs (w : Nat) (v : Warp) : (setWarp s w v).x.gangs = s.x.gangs := rfl
@[simp] theorem setWarp_x_wgs (w : Nat) (v : Warp) : (setWarp s w v).x.wgs = s.x.wgs := rfl
@[simp] theorem setWarp_x_warps (w : Nat) (v : Warp) : (setWarp s w v).x.warps = s.x.warps.ins w v := rfl
@[simp] theorem setWarp_x_gone (w : Nat) (v : Warp) : (setWarp s w v).x.gone = s.x.gone := rfl
@[simp] theorem setWarp_x_paths (w : Nat) (v : Warp) : (setWarp s w v).x.paths = s.x.paths := rfl
@[simp] theorem setWarp_x_splits (w : Nat) (v : Warp) : (setWarp s w v).x.splits = s.x.splits := rfl
@[simp] theorem setWarp_x_threads (w : Nat) (v : Warp) : (setWarp s w v).x.threads = s.x.threads := rfl
@[simp] theorem setWarp_x_vals (w : Nat) (v : Warp) : (setWarp s w v).x.vals = s.x.vals := rfl
@[simp] theorem setWarp_x_vregs (w : Nat) (v : Warp) : (setWarp s w v).x.vregs = s.x.vregs := rfl
@[simp] theorem setWarp_x_sregs (w : Nat) (v : Warp) : (setWarp s w v).x.sregs = s.x.sregs := rfl
@[simp] theorem setWarp_x_blocks (w : Nat) (v : Warp) : (setWarp s w v).x.blocks = s.x.blocks := rfl

/-! ### updWarp -/

@[simp] theorem updWarp_c (w : Nat) (f : Warp → Warp) : (updWarp s w f).c = s.c := rfl
@[simp] theorem updWarp_m (w : Nat) (f : Warp → Warp) : (updWarp s w f).m = s.m := rfl
@[simp] theorem updWarp_e (w : Nat) (f : Warp → Warp) : (updWarp s w f).e = s.e := rfl
@[simp] theorem updWarp_pl (w : Nat) (f : Warp → Warp) : (updWarp s w f).pl = s.pl := rfl
@[simp] theorem updWarp_r (w : Nat) (f : Warp → Warp) : (updWarp s w f).r = s.r := rfl
@[simp] theorem updWarp_h (w : Nat) (f : Warp → Warp) : (updWarp s w f).h = s.h := rfl
@[simp] theorem updWarp_d (w : Nat) (f : Warp → Warp) : (updWarp s w f).d = s.d := rfl
@[simp] theorem updWarp_x_gangs (w : Nat) (f : Warp → Warp) : (updWarp s w f).x.gangs = s.x.gangs := rfl
@[simp] theorem updWarp_x_wgs (w : Nat) (f : Warp → Warp) : (updWarp s w f).x.wgs = s.x.wgs := rfl
@[simp] theorem updWarp_x_warps (w : Nat) (f : Warp → Warp) : (updWarp s w f).x.warps = s.x.warps.upd w f := rfl
@[simp] theorem updWarp_x_gone (w : Nat) (f : Warp → Warp) : (updWarp s w f).x.gone = s.x.gone := rfl
@[simp] theorem updWarp_x_paths (w : Nat) (f : Warp → Warp) : (updWarp s w f).x.paths = s.x.paths := rfl
@[simp] theorem updWarp_x_splits (w : Nat) (f : Warp → Warp) : (updWarp s w f).x.splits = s.x.splits := rfl
@[simp] theorem updWarp_x_threads (w : Nat) (f : Warp → Warp) : (updWarp s w f).x.threads = s.x.threads := rfl
@[simp] theorem updWarp_x_vals (w : Nat) (f : Warp → Warp) : (updWarp s w f).x.vals = s.x.vals := rfl
@[simp] theorem updWarp_x_vregs (w : Nat) (f : Warp → Warp) : (updWarp s w f).x.vregs = s.x.vregs := rfl
@[simp] theorem updWarp_x_sregs (w : Nat) (f : Warp → Warp) : (updWarp s w f).x.sregs = s.x.sregs := rfl
@[simp] theorem updWarp_x_blocks (w : Nat) (f : Warp → Warp) : (updWarp s w f).x.blocks = s.x.blocks := rfl

/-! ### setGang -/

@[simp] theorem setGang_c (g : Nat) (v : Gang) : (setGang s g v).c = s.c := rfl
@[simp] theorem setGang_m (g : Nat) (v : Gang) : (setGang s g v).m = s.m := rfl
@[simp] theorem setGang_e (g : Nat) (v : Gang) : (setGang s g v).e = s.e := rfl
@[simp] theorem setGang_pl (g : Nat) (v : Gang) : (setGang s g v).pl = s.pl := rfl
@[simp] theorem setGang_r (g : Nat) (v : Gang) : (setGang s g v).r = s.r := rfl
@[simp] theorem setGang_h (g : Nat) (v : Gang) : (setGang s g v).h = s.h := rfl
@[simp] theorem setGang_d (g : Nat) (v : Gang) : (setGang s g v).d = s.d := rfl
@[simp] theorem setGang_x_gangs (g : Nat) (v : Gang) : (setGang s g v).x.gangs = s.x.gangs.ins g v := rfl
@[simp] theorem setGang_x_wgs (g : Nat) (v : Gang) : (setGang s g v).x.wgs = s.x.wgs := rfl
@[simp] theorem setGang_x_warps (g : Nat) (v : Gang) : (setGang s g v).x.warps = s.x.warps := rfl
@[simp] theorem setGang_x_gone (g : Nat) (v : Gang) : (setGang s g v).x.gone = s.x.gone := rfl
@[simp] theorem setGang_x_paths (g : Nat) (v : Gang) : (setGang s g v).x.paths = s.x.paths := rfl
@[simp] theorem setGang_x_splits (g : Nat) (v : Gang) : (setGang s g v).x.splits = s.x.splits := rfl
@[simp] theorem setGang_x_threads (g : Nat) (v : Gang) : (setGang s g v).x.threads = s.x.threads := rfl
@[simp] theorem setGang_x_vals (g : Nat) (v : Gang) : (setGang s g v).x.vals = s.x.vals := rfl
@[simp] theorem setGang_x_vregs (g : Nat) (v : Gang) : (setGang s g v).x.vregs = s.x.vregs := rfl
@[simp] theorem setGang_x_sregs (g : Nat) (v : Gang) : (setGang s g v).x.sregs = s.x.sregs := rfl
@[simp] theorem setGang_x_blocks (g : Nat) (v : Gang) : (setGang s g v).x.blocks = s.x.blocks := rfl

/-! ### updGang -/

@[simp] theorem updGang_c (g : Nat) (f : Gang → Gang) : (updGang s g f).c = s.c := rfl
@[simp] theorem updGang_m (g : Nat) (f : Gang → Gang) : (updGang s g f).m = s.m := rfl
@[simp] theorem updGang_e (g : Nat) (f : Gang → Gang) : (updGang s g f).e = s.e := rfl
@[simp] theorem updGang_pl (g : Nat) (f : Gang → Gang) : (updGang s g f).pl = s.pl := rfl
@[simp] theorem updGang_r (g : Nat) (f : Gang → Gang) : (updGang s g f).r = s.r := rfl
@[simp] theorem updGang_h (g : Nat) (f : Gang → Gang) : (updGang s g f).h = s.h := rfl
@[simp] theorem updGang_d (g : Nat) (f : Gang → Gang) : (updGang s g f).d = s.d := rfl
@[simp] theorem updGang_x_gangs (g : Nat) (f : Gang → Gang) : (updGang s g f).x.gangs = s.x.gangs.upd g f := rfl
@[simp] theorem updGang_x_wgs (g : Nat) (f : Gang → Gang) : (updGang s g f).x.wgs = s.x.wgs := rfl
@[simp] theorem updGang_x_warps (g : Nat) (f : Gang → Gang) : (updGang s g f).x.warps = s.x.warps := rfl
@[simp] theorem updGang_x_gone (g : Nat) (f : Gang → Gang) : (updGang s g f).x.gone = s.x.gone := rfl
@[simp] theorem updGang_x_paths (g : Nat) (f : Gang → Gang) : (updGang s g f).x.paths = s.x.paths := rfl
@[simp] theorem updGang_x_splits (g : Nat) (f : Gang → Gang) : (updGang s g f).x.splits = s.x.splits := rfl
@[simp] theorem updGang_x_threads (g : Nat) (f : Gang → Gang) : (updGang s g f).x.threads = s.x.threads := rfl
@[simp] theorem updGang_x_vals (g : Nat) (f : Gang → Gang) : (updGang s g f).x.vals = s.x.vals := rfl
@[simp] theorem updGang_x_vregs (g : Nat) (f : Gang → Gang) : (updGang s g f).x.vregs = s.x.vregs := rfl
@[simp] theorem updGang_x_sregs (g : Nat) (f : Gang → Gang) : (updGang s g f).x.sregs = s.x.sregs := rfl
@[simp] theorem updGang_x_blocks (g : Nat) (f : Gang → Gang) : (updGang s g f).x.blocks = s.x.blocks := rfl

/-! ### setWg -/

@[simp] theorem setWg_c (k : Nat) (v : Wg) : (setWg s k v).c = s.c := rfl
@[simp] theorem setWg_m (k : Nat) (v : Wg) : (setWg s k v).m = s.m := rfl
@[simp] theorem setWg_e (k : Nat) (v : Wg) : (setWg s k v).e = s.e := rfl
@[simp] theorem setWg_pl (k : Nat) (v : Wg) : (setWg s k v).pl = s.pl := rfl
@[simp] theorem setWg_r (k : Nat) (v : Wg) : (setWg s k v).r = s.r := rfl
@[simp] theorem setWg_h (k : Nat) (v : Wg) : (setWg s k v).h = s.h := rfl
@[simp] theorem setWg_d (k : Nat) (v : Wg) : (setWg s k v).d = s.d := rfl
@[simp] theorem setWg_x_gangs (k : Nat) (v : Wg) : (setWg s k v).x.gangs = s.x.gangs := rfl
@[simp] theorem setWg_x_wgs (k : Nat) (v : Wg) : (setWg s k v).x.wgs = s.x.wgs.ins k v := rfl
@[simp] theorem setWg_x_warps (k : Nat) (v : Wg) : (setWg s k v).x.warps = s.x.warps := rfl
@[simp] theorem setWg_x_gone (k : Nat) (v : Wg) : (setWg s k v).x.gone = s.x.gone := rfl
@[simp] theorem setWg_x_paths (k : Nat) (v : Wg) : (setWg s k v).x.paths = s.x.paths := rfl
@[simp] theorem setWg_x_splits (k : Nat) (v : Wg) : (setWg s k v).x.splits = s.x.splits := rfl
@[simp] theorem setWg_x_threads (k : Nat) (v : Wg) : (setWg s k v).x.threads = s.x.threads := rfl
@[simp] theorem setWg_x_vals (k : Nat) (v : Wg) : (setWg s k v).x.vals = s.x.vals := rfl
@[simp] theorem setWg_x_vregs (k : Nat) (v : Wg) : (setWg s k v).x.vregs = s.x.vregs := rfl
@[simp] theorem setWg_x_sregs (k : Nat) (v : Wg) : (setWg s k v).x.sregs = s.x.sregs := rfl
@[simp] theorem setWg_x_blocks (k : Nat) (v : Wg) : (setWg s k v).x.blocks = s.x.blocks := rfl

/-! ### setThread -/

@[simp] theorem setThread_c (t : Nat) (v : Thread) : (setThread s t v).c = s.c := rfl
@[simp] theorem setThread_m (t : Nat) (v : Thread) : (setThread s t v).m = s.m := rfl
@[simp] theorem setThread_e (t : Nat) (v : Thread) : (setThread s t v).e = s.e := rfl
@[simp] theorem setThread_pl (t : Nat) (v : Thread) : (setThread s t v).pl = s.pl := rfl
@[simp] theorem setThread_r (t : Nat) (v : Thread) : (setThread s t v).r = s.r := rfl
@[simp] theorem setThread_h (t : Nat) (v : Thread) : (setThread s t v).h = s.h := rfl
@[simp] theorem setThread_d (t : Nat) (v : Thread) : (setThread s t v).d = s.d := rfl
@[simp] theorem setThread_x_gangs (t : Nat) (v : Thread) : (setThread s t v).x.gangs = s.x.gangs := rfl
@[simp] theorem setThread_x_wgs (t : Nat) (v : Thread) : (setThread s t v).x.wgs = s.x.wgs := rfl
@[simp] theorem setThread_x_warps (t : Nat) (v : Thread) : (setThread s t v).x.warps = s.x.warps := rfl
@[simp] theorem setThread_x_gone (t : Nat) (v : Thread) : (setThread s t v).x.gone = s.x.gone := rfl
@[simp] theorem setThread_x_paths (t : Nat) (v : Thread) : (setThread s t v).x.paths = s.x.paths := rfl
@[simp] theorem setThread_x_splits (t : Nat) (v : Thread) : (setThread s t v).x.splits = s.x.splits := rfl
@[simp] theorem setThread_x_threads (t : Nat) (v : Thread) : (setThread s t v).x.threads = s.x.threads.ins t v := rfl
@[simp] theorem setThread_x_vals (t : Nat) (v : Thread) : (setThread s t v).x.vals = s.x.vals := rfl
@[simp] theorem setThread_x_vregs (t : Nat) (v : Thread) : (setThread s t v).x.vregs = s.x.vregs := rfl
@[simp] theorem setThread_x_sregs (t : Nat) (v : Thread) : (setThread s t v).x.sregs = s.x.sregs := rfl
@[simp] theorem setThread_x_blocks (t : Nat) (v : Thread) : (setThread s t v).x.blocks = s.x.blocks := rfl

/-! ### setVal -/

@[simp] theorem setVal_c (t d n : Nat) (v : Word) : (setVal s t d n v).c = s.c := rfl
@[simp] theorem setVal_m (t d n : Nat) (v : Word) : (setVal s t d n v).m = s.m := rfl
@[simp] theorem setVal_e (t d n : Nat) (v : Word) : (setVal s t d n v).e = s.e := rfl
@[simp] theorem setVal_pl (t d n : Nat) (v : Word) : (setVal s t d n v).pl = s.pl := rfl
@[simp] theorem setVal_r (t d n : Nat) (v : Word) : (setVal s t d n v).r = s.r := rfl
@[simp] theorem setVal_h (t d n : Nat) (v : Word) : (setVal s t d n v).h = s.h := rfl
@[simp] theorem setVal_d (t d n : Nat) (v : Word) : (setVal s t d n v).d = s.d := rfl
@[simp] theorem setVal_x_gangs (t d n : Nat) (v : Word) : (setVal s t d n v).x.gangs = s.x.gangs := rfl
@[simp] theorem setVal_x_wgs (t d n : Nat) (v : Word) : (setVal s t d n v).x.wgs = s.x.wgs := rfl
@[simp] theorem setVal_x_warps (t d n : Nat) (v : Word) : (setVal s t d n v).x.warps = s.x.warps := rfl
@[simp] theorem setVal_x_gone (t d n : Nat) (v : Word) : (setVal s t d n v).x.gone = s.x.gone := rfl
@[simp] theorem setVal_x_paths (t d n : Nat) (v : Word) : (setVal s t d n v).x.paths = s.x.paths := rfl
@[simp] theorem setVal_x_splits (t d n : Nat) (v : Word) : (setVal s t d n v).x.splits = s.x.splits := rfl
@[simp] theorem setVal_x_threads (t d n : Nat) (v : Word) : (setVal s t d n v).x.threads = s.x.threads := rfl
@[simp] theorem setVal_x_vals (t d n : Nat) (v : Word) : (setVal s t d n v).x.vals = s.x.vals.putD 0 (valKey t d n) v := rfl
@[simp] theorem setVal_x_vregs (t d n : Nat) (v : Word) : (setVal s t d n v).x.vregs = s.x.vregs := rfl
@[simp] theorem setVal_x_sregs (t d n : Nat) (v : Word) : (setVal s t d n v).x.sregs = s.x.sregs := rfl
@[simp] theorem setVal_x_blocks (t d n : Nat) (v : Word) : (setVal s t d n v).x.blocks = s.x.blocks := rfl

/-! ### setVreg -/

@[simp] theorem setVreg_c (w r l : Nat) (v : Lane32) : (setVreg s w r l v).c = s.c := rfl
@[simp] theorem setVreg_m (w r l : Nat) (v : Lane32) : (setVreg s w r l v).m = s.m := rfl
@[simp] theorem setVreg_e (w r l : Nat) (v : Lane32) : (setVreg s w r l v).e = s.e := rfl
@[simp] theorem setVreg_pl (w r l : Nat) (v : Lane32) : (setVreg s w r l v).pl = s.pl := rfl
@[simp] theorem setVreg_r (w r l : Nat) (v : Lane32) : (setVreg s w r l v).r = s.r := rfl
@[simp] theorem setVreg_h (w r l : Nat) (v : Lane32) : (setVreg s w r l v).h = s.h := rfl
@[simp] theorem setVreg_d (w r l : Nat) (v : Lane32) : (setVreg s w r l v).d = s.d := rfl
@[simp] theorem setVreg_x_gangs (w r l : Nat) (v : Lane32) : (setVreg s w r l v).x.gangs = s.x.gangs := rfl
@[simp] theorem setVreg_x_wgs (w r l : Nat) (v : Lane32) : (setVreg s w r l v).x.wgs = s.x.wgs := rfl
@[simp] theorem setVreg_x_warps (w r l : Nat) (v : Lane32) : (setVreg s w r l v).x.warps = s.x.warps := rfl
@[simp] theorem setVreg_x_gone (w r l : Nat) (v : Lane32) : (setVreg s w r l v).x.gone = s.x.gone := rfl
@[simp] theorem setVreg_x_paths (w r l : Nat) (v : Lane32) : (setVreg s w r l v).x.paths = s.x.paths := rfl
@[simp] theorem setVreg_x_splits (w r l : Nat) (v : Lane32) : (setVreg s w r l v).x.splits = s.x.splits := rfl
@[simp] theorem setVreg_x_threads (w r l : Nat) (v : Lane32) : (setVreg s w r l v).x.threads = s.x.threads := rfl
@[simp] theorem setVreg_x_vals (w r l : Nat) (v : Lane32) : (setVreg s w r l v).x.vals = s.x.vals := rfl
@[simp] theorem setVreg_x_vregs (w r l : Nat) (v : Lane32) : (setVreg s w r l v).x.vregs = s.x.vregs.putD 0 (vregKey w r l) v := rfl
@[simp] theorem setVreg_x_sregs (w r l : Nat) (v : Lane32) : (setVreg s w r l v).x.sregs = s.x.sregs := rfl
@[simp] theorem setVreg_x_blocks (w r l : Nat) (v : Lane32) : (setVreg s w r l v).x.blocks = s.x.blocks := rfl

/-! ### setEntry -/

@[simp] theorem setEntry_c (i : Nat) (v : Entry) : (setEntry s i v).c = s.c := rfl
@[simp] theorem setEntry_m (i : Nat) (v : Entry) : (setEntry s i v).m = s.m := rfl
@[simp] theorem setEntry_x (i : Nat) (v : Entry) : (setEntry s i v).x = s.x := rfl
@[simp] theorem setEntry_pl (i : Nat) (v : Entry) : (setEntry s i v).pl = s.pl := rfl
@[simp] theorem setEntry_r (i : Nat) (v : Entry) : (setEntry s i v).r = s.r := rfl
@[simp] theorem setEntry_h (i : Nat) (v : Entry) : (setEntry s i v).h = s.h := rfl
@[simp] theorem setEntry_d (i : Nat) (v : Entry) : (setEntry s i v).d = s.d := rfl
@[simp] theorem setEntry_e_scr (i : Nat) (v : Entry) : (setEntry s i v).e.scr = s.e.scr := rfl
@[simp] theorem setEntry_e_chunks (i : Nat) (v : Entry) : (setEntry s i v).e.chunks = s.e.chunks := rfl
@[simp] theorem setEntry_e_tags (i : Nat) (v : Entry) : (setEntry s i v).e.tags = s.e.tags := rfl
@[simp] theorem setEntry_e_locks (i : Nat) (v : Entry) : (setEntry s i v).e.locks = s.e.locks := rfl
@[simp] theorem setEntry_e_lostScr (i : Nat) (v : Entry) : (setEntry s i v).e.lostScr = s.e.lostScr := rfl
@[simp] theorem setEntry_e_coreWrote (i : Nat) (v : Entry) : (setEntry s i v).e.coreWrote = s.e.coreWrote := rfl
@[simp] theorem setEntry_e_entries (i : Nat) (v : Entry) : (setEntry s i v).e.entries = s.e.entries.ins i v := rfl
@[simp] theorem setEntry_e_pairs (i : Nat) (v : Entry) : (setEntry s i v).e.pairs = s.e.pairs := rfl
@[simp] theorem setEntry_e_bxq (i : Nat) (v : Entry) : (setEntry s i v).e.bxq = s.e.bxq := rfl
@[simp] theorem setEntry_e_mxq (i : Nat) (v : Entry) : (setEntry s i v).e.mxq = s.e.mxq := rfl
@[simp] theorem setEntry_e_cmds (i : Nat) (v : Entry) : (setEntry s i v).e.cmds = s.e.cmds := rfl
@[simp] theorem setEntry_e_mx (i : Nat) (v : Entry) : (setEntry s i v).e.mx = s.e.mx := rfl
@[simp] theorem setEntry_e_acc (i : Nat) (v : Entry) : (setEntry s i v).e.acc = s.e.acc := rfl
@[simp] theorem setEntry_e_lostAcc (i : Nat) (v : Entry) : (setEntry s i v).e.lostAcc = s.e.lostAcc := rfl
@[simp] theorem setEntry_e_sf (i : Nat) (v : Entry) : (setEntry s i v).e.sf = s.e.sf := rfl
@[simp] theorem setEntry_e_bank (i : Nat) (v : Entry) : (setEntry s i v).e.bank = s.e.bank := rfl
@[simp] theorem setEntry_e_swaps (i : Nat) (v : Entry) : (setEntry s i v).e.swaps = s.e.swaps := rfl

/-! ### setMx -/

@[simp] theorem setMx_c (k : Nat) (v : MxState) : (setMx s k v).c = s.c := rfl
@[simp] theorem setMx_m (k : Nat) (v : MxState) : (setMx s k v).m = s.m := rfl
@[simp] theorem setMx_x (k : Nat) (v : MxState) : (setMx s k v).x = s.x := rfl
@[simp] theorem setMx_pl (k : Nat) (v : MxState) : (setMx s k v).pl = s.pl := rfl
@[simp] theorem setMx_r (k : Nat) (v : MxState) : (setMx s k v).r = s.r := rfl
@[simp] theorem setMx_h (k : Nat) (v : MxState) : (setMx s k v).h = s.h := rfl
@[simp] theorem setMx_d (k : Nat) (v : MxState) : (setMx s k v).d = s.d := rfl
@[simp] theorem setMx_e_scr (k : Nat) (v : MxState) : (setMx s k v).e.scr = s.e.scr := rfl
@[simp] theorem setMx_e_chunks (k : Nat) (v : MxState) : (setMx s k v).e.chunks = s.e.chunks := rfl
@[simp] theorem setMx_e_tags (k : Nat) (v : MxState) : (setMx s k v).e.tags = s.e.tags := rfl
@[simp] theorem setMx_e_locks (k : Nat) (v : MxState) : (setMx s k v).e.locks = s.e.locks := rfl
@[simp] theorem setMx_e_lostScr (k : Nat) (v : MxState) : (setMx s k v).e.lostScr = s.e.lostScr := rfl
@[simp] theorem setMx_e_coreWrote (k : Nat) (v : MxState) : (setMx s k v).e.coreWrote = s.e.coreWrote := rfl
@[simp] theorem setMx_e_entries (k : Nat) (v : MxState) : (setMx s k v).e.entries = s.e.entries := rfl
@[simp] theorem setMx_e_pairs (k : Nat) (v : MxState) : (setMx s k v).e.pairs = s.e.pairs := rfl
@[simp] theorem setMx_e_bxq (k : Nat) (v : MxState) : (setMx s k v).e.bxq = s.e.bxq := rfl
@[simp] theorem setMx_e_mxq (k : Nat) (v : MxState) : (setMx s k v).e.mxq = s.e.mxq := rfl
@[simp] theorem setMx_e_cmds (k : Nat) (v : MxState) : (setMx s k v).e.cmds = s.e.cmds := rfl
@[simp] theorem setMx_e_mx (k : Nat) (v : MxState) : (setMx s k v).e.mx = s.e.mx.ins k v := rfl
@[simp] theorem setMx_e_acc (k : Nat) (v : MxState) : (setMx s k v).e.acc = s.e.acc := rfl
@[simp] theorem setMx_e_lostAcc (k : Nat) (v : MxState) : (setMx s k v).e.lostAcc = s.e.lostAcc := rfl
@[simp] theorem setMx_e_sf (k : Nat) (v : MxState) : (setMx s k v).e.sf = s.e.sf := rfl
@[simp] theorem setMx_e_bank (k : Nat) (v : MxState) : (setMx s k v).e.bank = s.e.bank := rfl
@[simp] theorem setMx_e_swaps (k : Nat) (v : MxState) : (setMx s k v).e.swaps = s.e.swaps := rfl

/-! ### setSf -/

@[simp] theorem setSf_c (k : Nat) (v : SfState) : (setSf s k v).c = s.c := rfl
@[simp] theorem setSf_m (k : Nat) (v : SfState) : (setSf s k v).m = s.m := rfl
@[simp] theorem setSf_x (k : Nat) (v : SfState) : (setSf s k v).x = s.x := rfl
@[simp] theorem setSf_pl (k : Nat) (v : SfState) : (setSf s k v).pl = s.pl := rfl
@[simp] theorem setSf_r (k : Nat) (v : SfState) : (setSf s k v).r = s.r := rfl
@[simp] theorem setSf_h (k : Nat) (v : SfState) : (setSf s k v).h = s.h := rfl
@[simp] theorem setSf_d (k : Nat) (v : SfState) : (setSf s k v).d = s.d := rfl
@[simp] theorem setSf_e_scr (k : Nat) (v : SfState) : (setSf s k v).e.scr = s.e.scr := rfl
@[simp] theorem setSf_e_chunks (k : Nat) (v : SfState) : (setSf s k v).e.chunks = s.e.chunks := rfl
@[simp] theorem setSf_e_tags (k : Nat) (v : SfState) : (setSf s k v).e.tags = s.e.tags := rfl
@[simp] theorem setSf_e_locks (k : Nat) (v : SfState) : (setSf s k v).e.locks = s.e.locks := rfl
@[simp] theorem setSf_e_lostScr (k : Nat) (v : SfState) : (setSf s k v).e.lostScr = s.e.lostScr := rfl
@[simp] theorem setSf_e_coreWrote (k : Nat) (v : SfState) : (setSf s k v).e.coreWrote = s.e.coreWrote := rfl
@[simp] theorem setSf_e_entries (k : Nat) (v : SfState) : (setSf s k v).e.entries = s.e.entries := rfl
@[simp] theorem setSf_e_pairs (k : Nat) (v : SfState) : (setSf s k v).e.pairs = s.e.pairs := rfl
@[simp] theorem setSf_e_bxq (k : Nat) (v : SfState) : (setSf s k v).e.bxq = s.e.bxq := rfl
@[simp] theorem setSf_e_mxq (k : Nat) (v : SfState) : (setSf s k v).e.mxq = s.e.mxq := rfl
@[simp] theorem setSf_e_cmds (k : Nat) (v : SfState) : (setSf s k v).e.cmds = s.e.cmds := rfl
@[simp] theorem setSf_e_mx (k : Nat) (v : SfState) : (setSf s k v).e.mx = s.e.mx := rfl
@[simp] theorem setSf_e_acc (k : Nat) (v : SfState) : (setSf s k v).e.acc = s.e.acc := rfl
@[simp] theorem setSf_e_lostAcc (k : Nat) (v : SfState) : (setSf s k v).e.lostAcc = s.e.lostAcc := rfl
@[simp] theorem setSf_e_sf (k : Nat) (v : SfState) : (setSf s k v).e.sf = s.e.sf.ins k v := rfl
@[simp] theorem setSf_e_bank (k : Nat) (v : SfState) : (setSf s k v).e.bank = s.e.bank := rfl
@[simp] theorem setSf_e_swaps (k : Nat) (v : SfState) : (setSf s k v).e.swaps = s.e.swaps := rfl

/-! ### setCmd -/

@[simp] theorem setCmd_c (i : Nat) (v : Cmd) : (setCmd s i v).c = s.c := rfl
@[simp] theorem setCmd_m (i : Nat) (v : Cmd) : (setCmd s i v).m = s.m := rfl
@[simp] theorem setCmd_x (i : Nat) (v : Cmd) : (setCmd s i v).x = s.x := rfl
@[simp] theorem setCmd_pl (i : Nat) (v : Cmd) : (setCmd s i v).pl = s.pl := rfl
@[simp] theorem setCmd_r (i : Nat) (v : Cmd) : (setCmd s i v).r = s.r := rfl
@[simp] theorem setCmd_h (i : Nat) (v : Cmd) : (setCmd s i v).h = s.h := rfl
@[simp] theorem setCmd_d (i : Nat) (v : Cmd) : (setCmd s i v).d = s.d := rfl
@[simp] theorem setCmd_e_scr (i : Nat) (v : Cmd) : (setCmd s i v).e.scr = s.e.scr := rfl
@[simp] theorem setCmd_e_chunks (i : Nat) (v : Cmd) : (setCmd s i v).e.chunks = s.e.chunks := rfl
@[simp] theorem setCmd_e_tags (i : Nat) (v : Cmd) : (setCmd s i v).e.tags = s.e.tags := rfl
@[simp] theorem setCmd_e_locks (i : Nat) (v : Cmd) : (setCmd s i v).e.locks = s.e.locks := rfl
@[simp] theorem setCmd_e_lostScr (i : Nat) (v : Cmd) : (setCmd s i v).e.lostScr = s.e.lostScr := rfl
@[simp] theorem setCmd_e_coreWrote (i : Nat) (v : Cmd) : (setCmd s i v).e.coreWrote = s.e.coreWrote := rfl
@[simp] theorem setCmd_e_entries (i : Nat) (v : Cmd) : (setCmd s i v).e.entries = s.e.entries := rfl
@[simp] theorem setCmd_e_pairs (i : Nat) (v : Cmd) : (setCmd s i v).e.pairs = s.e.pairs := rfl
@[simp] theorem setCmd_e_bxq (i : Nat) (v : Cmd) : (setCmd s i v).e.bxq = s.e.bxq := rfl
@[simp] theorem setCmd_e_mxq (i : Nat) (v : Cmd) : (setCmd s i v).e.mxq = s.e.mxq := rfl
@[simp] theorem setCmd_e_cmds (i : Nat) (v : Cmd) : (setCmd s i v).e.cmds = s.e.cmds.ins i v := rfl
@[simp] theorem setCmd_e_mx (i : Nat) (v : Cmd) : (setCmd s i v).e.mx = s.e.mx := rfl
@[simp] theorem setCmd_e_acc (i : Nat) (v : Cmd) : (setCmd s i v).e.acc = s.e.acc := rfl
@[simp] theorem setCmd_e_lostAcc (i : Nat) (v : Cmd) : (setCmd s i v).e.lostAcc = s.e.lostAcc := rfl
@[simp] theorem setCmd_e_sf (i : Nat) (v : Cmd) : (setCmd s i v).e.sf = s.e.sf := rfl
@[simp] theorem setCmd_e_bank (i : Nat) (v : Cmd) : (setCmd s i v).e.bank = s.e.bank := rfl
@[simp] theorem setCmd_e_swaps (i : Nat) (v : Cmd) : (setCmd s i v).e.swaps = s.e.swaps := rfl

/-! ### updCmd -/

@[simp] theorem updCmd_c (i : Nat) (f : Cmd → Cmd) : (updCmd s i f).c = s.c := rfl
@[simp] theorem updCmd_m (i : Nat) (f : Cmd → Cmd) : (updCmd s i f).m = s.m := rfl
@[simp] theorem updCmd_x (i : Nat) (f : Cmd → Cmd) : (updCmd s i f).x = s.x := rfl
@[simp] theorem updCmd_pl (i : Nat) (f : Cmd → Cmd) : (updCmd s i f).pl = s.pl := rfl
@[simp] theorem updCmd_r (i : Nat) (f : Cmd → Cmd) : (updCmd s i f).r = s.r := rfl
@[simp] theorem updCmd_h (i : Nat) (f : Cmd → Cmd) : (updCmd s i f).h = s.h := rfl
@[simp] theorem updCmd_d (i : Nat) (f : Cmd → Cmd) : (updCmd s i f).d = s.d := rfl
@[simp] theorem updCmd_e_scr (i : Nat) (f : Cmd → Cmd) : (updCmd s i f).e.scr = s.e.scr := rfl
@[simp] theorem updCmd_e_chunks (i : Nat) (f : Cmd → Cmd) : (updCmd s i f).e.chunks = s.e.chunks := rfl
@[simp] theorem updCmd_e_tags (i : Nat) (f : Cmd → Cmd) : (updCmd s i f).e.tags = s.e.tags := rfl
@[simp] theorem updCmd_e_locks (i : Nat) (f : Cmd → Cmd) : (updCmd s i f).e.locks = s.e.locks := rfl
@[simp] theorem updCmd_e_lostScr (i : Nat) (f : Cmd → Cmd) : (updCmd s i f).e.lostScr = s.e.lostScr := rfl
@[simp] theorem updCmd_e_coreWrote (i : Nat) (f : Cmd → Cmd) : (updCmd s i f).e.coreWrote = s.e.coreWrote := rfl
@[simp] theorem updCmd_e_entries (i : Nat) (f : Cmd → Cmd) : (updCmd s i f).e.entries = s.e.entries := rfl
@[simp] theorem updCmd_e_pairs (i : Nat) (f : Cmd → Cmd) : (updCmd s i f).e.pairs = s.e.pairs := rfl
@[simp] theorem updCmd_e_bxq (i : Nat) (f : Cmd → Cmd) : (updCmd s i f).e.bxq = s.e.bxq := rfl
@[simp] theorem updCmd_e_mxq (i : Nat) (f : Cmd → Cmd) : (updCmd s i f).e.mxq = s.e.mxq := rfl
@[simp] theorem updCmd_e_cmds (i : Nat) (f : Cmd → Cmd) : (updCmd s i f).e.cmds = s.e.cmds.upd i f := rfl
@[simp] theorem updCmd_e_mx (i : Nat) (f : Cmd → Cmd) : (updCmd s i f).e.mx = s.e.mx := rfl
@[simp] theorem updCmd_e_acc (i : Nat) (f : Cmd → Cmd) : (updCmd s i f).e.acc = s.e.acc := rfl
@[simp] theorem updCmd_e_lostAcc (i : Nat) (f : Cmd → Cmd) : (updCmd s i f).e.lostAcc = s.e.lostAcc := rfl
@[simp] theorem updCmd_e_sf (i : Nat) (f : Cmd → Cmd) : (updCmd s i f).e.sf = s.e.sf := rfl
@[simp] theorem updCmd_e_bank (i : Nat) (f : Cmd → Cmd) : (updCmd s i f).e.bank = s.e.bank := rfl
@[simp] theorem updCmd_e_swaps (i : Nat) (f : Cmd → Cmd) : (updCmd s i f).e.swaps = s.e.swaps := rfl

/-! ### setChunk -/

@[simp] theorem setChunk_c (k n : Nat) (v : ChunkState) : (setChunk s k n v).c = s.c := rfl
@[simp] theorem setChunk_m (k n : Nat) (v : ChunkState) : (setChunk s k n v).m = s.m := rfl
@[simp] theorem setChunk_x (k n : Nat) (v : ChunkState) : (setChunk s k n v).x = s.x := rfl
@[simp] theorem setChunk_pl (k n : Nat) (v : ChunkState) : (setChunk s k n v).pl = s.pl := rfl
@[simp] theorem setChunk_r (k n : Nat) (v : ChunkState) : (setChunk s k n v).r = s.r := rfl
@[simp] theorem setChunk_h (k n : Nat) (v : ChunkState) : (setChunk s k n v).h = s.h := rfl
@[simp] theorem setChunk_d (k n : Nat) (v : ChunkState) : (setChunk s k n v).d = s.d := rfl
@[simp] theorem setChunk_e_scr (k n : Nat) (v : ChunkState) : (setChunk s k n v).e.scr = s.e.scr := rfl
@[simp] theorem setChunk_e_chunks (k n : Nat) (v : ChunkState) : (setChunk s k n v).e.chunks = s.e.chunks.putD .empty (k * 512 + n) v := rfl
@[simp] theorem setChunk_e_tags (k n : Nat) (v : ChunkState) : (setChunk s k n v).e.tags = s.e.tags := rfl
@[simp] theorem setChunk_e_locks (k n : Nat) (v : ChunkState) : (setChunk s k n v).e.locks = s.e.locks := rfl
@[simp] theorem setChunk_e_lostScr (k n : Nat) (v : ChunkState) : (setChunk s k n v).e.lostScr = s.e.lostScr := rfl
@[simp] theorem setChunk_e_coreWrote (k n : Nat) (v : ChunkState) : (setChunk s k n v).e.coreWrote = s.e.coreWrote := rfl
@[simp] theorem setChunk_e_entries (k n : Nat) (v : ChunkState) : (setChunk s k n v).e.entries = s.e.entries := rfl
@[simp] theorem setChunk_e_pairs (k n : Nat) (v : ChunkState) : (setChunk s k n v).e.pairs = s.e.pairs := rfl
@[simp] theorem setChunk_e_bxq (k n : Nat) (v : ChunkState) : (setChunk s k n v).e.bxq = s.e.bxq := rfl
@[simp] theorem setChunk_e_mxq (k n : Nat) (v : ChunkState) : (setChunk s k n v).e.mxq = s.e.mxq := rfl
@[simp] theorem setChunk_e_cmds (k n : Nat) (v : ChunkState) : (setChunk s k n v).e.cmds = s.e.cmds := rfl
@[simp] theorem setChunk_e_mx (k n : Nat) (v : ChunkState) : (setChunk s k n v).e.mx = s.e.mx := rfl
@[simp] theorem setChunk_e_acc (k n : Nat) (v : ChunkState) : (setChunk s k n v).e.acc = s.e.acc := rfl
@[simp] theorem setChunk_e_lostAcc (k n : Nat) (v : ChunkState) : (setChunk s k n v).e.lostAcc = s.e.lostAcc := rfl
@[simp] theorem setChunk_e_sf (k n : Nat) (v : ChunkState) : (setChunk s k n v).e.sf = s.e.sf := rfl
@[simp] theorem setChunk_e_bank (k n : Nat) (v : ChunkState) : (setChunk s k n v).e.bank = s.e.bank := rfl
@[simp] theorem setChunk_e_swaps (k n : Nat) (v : ChunkState) : (setChunk s k n v).e.swaps = s.e.swaps := rfl

/-! ### scrPut -/

@[simp] theorem scrPut_c (k pa : Nat) (bs : List Byte) : (scrPut s k pa bs).c = s.c := rfl
@[simp] theorem scrPut_m (k pa : Nat) (bs : List Byte) : (scrPut s k pa bs).m = s.m := rfl
@[simp] theorem scrPut_x (k pa : Nat) (bs : List Byte) : (scrPut s k pa bs).x = s.x := rfl
@[simp] theorem scrPut_pl (k pa : Nat) (bs : List Byte) : (scrPut s k pa bs).pl = s.pl := rfl
@[simp] theorem scrPut_r (k pa : Nat) (bs : List Byte) : (scrPut s k pa bs).r = s.r := rfl
@[simp] theorem scrPut_h (k pa : Nat) (bs : List Byte) : (scrPut s k pa bs).h = s.h := rfl
@[simp] theorem scrPut_d (k pa : Nat) (bs : List Byte) : (scrPut s k pa bs).d = s.d := rfl
@[simp] theorem scrPut_e_scr (k pa : Nat) (bs : List Byte) : (scrPut s k pa bs).e.scr = s.e.scr.putsD 0 (k * 2 ^ 18 + pa) bs := rfl
@[simp] theorem scrPut_e_chunks (k pa : Nat) (bs : List Byte) : (scrPut s k pa bs).e.chunks = s.e.chunks := rfl
@[simp] theorem scrPut_e_tags (k pa : Nat) (bs : List Byte) : (scrPut s k pa bs).e.tags = s.e.tags := rfl
@[simp] theorem scrPut_e_locks (k pa : Nat) (bs : List Byte) : (scrPut s k pa bs).e.locks = s.e.locks := rfl
@[simp] theorem scrPut_e_lostScr (k pa : Nat) (bs : List Byte) : (scrPut s k pa bs).e.lostScr = s.e.lostScr.filter
    (fun w => !(decide (k * 2 ^ 18 + pa ≤ 8 * w) && decide (8 * w + 8 ≤ k * 2 ^ 18 + pa + bs.length))) := rfl
@[simp] theorem scrPut_e_coreWrote (k pa : Nat) (bs : List Byte) : (scrPut s k pa bs).e.coreWrote = s.e.coreWrote := rfl
@[simp] theorem scrPut_e_entries (k pa : Nat) (bs : List Byte) : (scrPut s k pa bs).e.entries = s.e.entries := rfl
@[simp] theorem scrPut_e_pairs (k pa : Nat) (bs : List Byte) : (scrPut s k pa bs).e.pairs = s.e.pairs := rfl
@[simp] theorem scrPut_e_bxq (k pa : Nat) (bs : List Byte) : (scrPut s k pa bs).e.bxq = s.e.bxq := rfl
@[simp] theorem scrPut_e_mxq (k pa : Nat) (bs : List Byte) : (scrPut s k pa bs).e.mxq = s.e.mxq := rfl
@[simp] theorem scrPut_e_cmds (k pa : Nat) (bs : List Byte) : (scrPut s k pa bs).e.cmds = s.e.cmds := rfl
@[simp] theorem scrPut_e_mx (k pa : Nat) (bs : List Byte) : (scrPut s k pa bs).e.mx = s.e.mx := rfl
@[simp] theorem scrPut_e_acc (k pa : Nat) (bs : List Byte) : (scrPut s k pa bs).e.acc = s.e.acc := rfl
@[simp] theorem scrPut_e_lostAcc (k pa : Nat) (bs : List Byte) : (scrPut s k pa bs).e.lostAcc = s.e.lostAcc := rfl
@[simp] theorem scrPut_e_sf (k pa : Nat) (bs : List Byte) : (scrPut s k pa bs).e.sf = s.e.sf := rfl
@[simp] theorem scrPut_e_bank (k pa : Nat) (bs : List Byte) : (scrPut s k pa bs).e.bank = s.e.bank := rfl
@[simp] theorem scrPut_e_swaps (k pa : Nat) (bs : List Byte) : (scrPut s k pa bs).e.swaps = s.e.swaps := rfl

/-! ### setHop -/

@[simp] theorem setHop_c (n : Nat) (v : Hop) : (setHop s n v).c = s.c := rfl
@[simp] theorem setHop_m (n : Nat) (v : Hop) : (setHop s n v).m = s.m := rfl
@[simp] theorem setHop_x (n : Nat) (v : Hop) : (setHop s n v).x = s.x := rfl
@[simp] theorem setHop_e (n : Nat) (v : Hop) : (setHop s n v).e = s.e := rfl
@[simp] theorem setHop_pl (n : Nat) (v : Hop) : (setHop s n v).pl = s.pl := rfl
@[simp] theorem setHop_h (n : Nat) (v : Hop) : (setHop s n v).h = s.h := rfl
@[simp] theorem setHop_d (n : Nat) (v : Hop) : (setHop s n v).d = s.d := rfl
@[simp] theorem setHop_r_hops (n : Nat) (v : Hop) : (setHop s n v).r.hops = s.r.hops.ins n v := rfl
@[simp] theorem setHop_r_bufs (n : Nat) (v : Hop) : (setHop s n v).r.bufs = s.r.bufs := rfl
@[simp] theorem setHop_r_inject (n : Nat) (v : Hop) : (setHop s n v).r.inject = s.r.inject := rfl
@[simp] theorem setHop_r_trackers (n : Nat) (v : Hop) : (setHop s n v).r.trackers = s.r.trackers := rfl
@[simp] theorem setHop_r_places (n : Nat) (v : Hop) : (setHop s n v).r.places = s.r.places := rfl

/-! ### setBuf -/

@[simp] theorem setBuf_c (k : Nat) (v : HopBuf) : (setBuf s k v).c = s.c := rfl
@[simp] theorem setBuf_m (k : Nat) (v : HopBuf) : (setBuf s k v).m = s.m := rfl
@[simp] theorem setBuf_x (k : Nat) (v : HopBuf) : (setBuf s k v).x = s.x := rfl
@[simp] theorem setBuf_e (k : Nat) (v : HopBuf) : (setBuf s k v).e = s.e := rfl
@[simp] theorem setBuf_pl (k : Nat) (v : HopBuf) : (setBuf s k v).pl = s.pl := rfl
@[simp] theorem setBuf_h (k : Nat) (v : HopBuf) : (setBuf s k v).h = s.h := rfl
@[simp] theorem setBuf_d (k : Nat) (v : HopBuf) : (setBuf s k v).d = s.d := rfl
@[simp] theorem setBuf_r_hops (k : Nat) (v : HopBuf) : (setBuf s k v).r.hops = s.r.hops := rfl
@[simp] theorem setBuf_r_bufs (k : Nat) (v : HopBuf) : (setBuf s k v).r.bufs = s.r.bufs.ins k v := rfl
@[simp] theorem setBuf_r_inject (k : Nat) (v : HopBuf) : (setBuf s k v).r.inject = s.r.inject := rfl
@[simp] theorem setBuf_r_trackers (k : Nat) (v : HopBuf) : (setBuf s k v).r.trackers = s.r.trackers := rfl
@[simp] theorem setBuf_r_places (k : Nat) (v : HopBuf) : (setBuf s k v).r.places = s.r.places := rfl

/-! ### setPlane -/

@[simp] theorem setPlane_c (d i : Nat) (v : PlaneEnt) : (setPlane s d i v).c = s.c := rfl
@[simp] theorem setPlane_m (d i : Nat) (v : PlaneEnt) : (setPlane s d i v).m = s.m := rfl
@[simp] theorem setPlane_x (d i : Nat) (v : PlaneEnt) : (setPlane s d i v).x = s.x := rfl
@[simp] theorem setPlane_e (d i : Nat) (v : PlaneEnt) : (setPlane s d i v).e = s.e := rfl
@[simp] theorem setPlane_r (d i : Nat) (v : PlaneEnt) : (setPlane s d i v).r = s.r := rfl
@[simp] theorem setPlane_h (d i : Nat) (v : PlaneEnt) : (setPlane s d i v).h = s.h := rfl
@[simp] theorem setPlane_d (d i : Nat) (v : PlaneEnt) : (setPlane s d i v).d = s.d := rfl
@[simp] theorem setPlane_pl_selecting (d i : Nat) (v : PlaneEnt) : (setPlane s d i v).pl.selecting = s.pl.selecting := rfl
@[simp] theorem setPlane_pl_prios (d i : Nat) (v : PlaneEnt) : (setPlane s d i v).pl.prios = s.pl.prios := rfl
@[simp] theorem setPlane_pl_fc (d i : Nat) (v : PlaneEnt) : (setPlane s d i v).pl.fc = s.pl.fc := rfl
@[simp] theorem setPlane_pl_dieFc (d i : Nat) (v : PlaneEnt) : (setPlane s d i v).pl.dieFc = s.pl.dieFc := rfl
@[simp] theorem setPlane_pl_table (d i : Nat) (v : PlaneEnt) : (setPlane s d i v).pl.table = s.pl.table.ins (d * 256 + i) v := rfl
@[simp] theorem setPlane_pl_ptrs (d i : Nat) (v : PlaneEnt) : (setPlane s d i v).pl.ptrs = s.pl.ptrs := rfl
@[simp] theorem setPlane_pl_bids (d i : Nat) (v : PlaneEnt) : (setPlane s d i v).pl.bids = s.pl.bids := rfl
@[simp] theorem setPlane_pl_sysBids (d i : Nat) (v : PlaneEnt) : (setPlane s d i v).pl.sysBids = s.pl.sysBids := rfl
@[simp] theorem setPlane_pl_deliveries (d i : Nat) (v : PlaneEnt) : (setPlane s d i v).pl.deliveries = s.pl.deliveries := rfl
@[simp] theorem setPlane_pl_revoking (d i : Nat) (v : PlaneEnt) : (setPlane s d i v).pl.revoking = s.pl.revoking := rfl

/-! ### setMem -/

@[simp] theorem setMem_c (b : List Host.Cell) : (setMem s b).c = s.c := rfl
@[simp] theorem setMem_x (b : List Host.Cell) : (setMem s b).x = s.x := rfl
@[simp] theorem setMem_e (b : List Host.Cell) : (setMem s b).e = s.e := rfl
@[simp] theorem setMem_pl (b : List Host.Cell) : (setMem s b).pl = s.pl := rfl
@[simp] theorem setMem_r (b : List Host.Cell) : (setMem s b).r = s.r := rfl
@[simp] theorem setMem_h (b : List Host.Cell) : (setMem s b).h = s.h := rfl
@[simp] theorem setMem_d (b : List Host.Cell) : (setMem s b).d = s.d := rfl
@[simp] theorem setMem_m_mem (b : List Host.Cell) : (setMem s b).m.mem = b := rfl
@[simp] theorem setMem_m_cxlOwner (b : List Host.Cell) : (setMem s b).m.cxlOwner = s.m.cxlOwner := rfl
@[simp] theorem setMem_m_cxlUnits (b : List Host.Cell) : (setMem s b).m.cxlUnits = s.m.cxlUnits := rfl
@[simp] theorem setMem_m_tlb0 (b : List Host.Cell) : (setMem s b).m.tlb0 = s.m.tlb0 := rfl
@[simp] theorem setMem_m_tlb1 (b : List Host.Cell) : (setMem s b).m.tlb1 = s.m.tlb1 := rfl
@[simp] theorem setMem_m_wcache (b : List Host.Cell) : (setMem s b).m.wcache = s.m.wcache := rfl
@[simp] theorem setMem_m_walks (b : List Host.Cell) : (setMem s b).m.walks = s.m.walks := rfl
@[simp] theorem setMem_m_walkq (b : List Host.Cell) : (setMem s b).m.walkq = s.m.walkq := rfl
@[simp] theorem setMem_m_walkRr (b : List Host.Cell) : (setMem s b).m.walkRr = s.m.walkRr := rfl
@[simp] theorem setMem_m_leaving (b : List Host.Cell) : (setMem s b).m.leaving = s.m.leaving := rfl
@[simp] theorem setMem_m_badBursts (b : List Host.Cell) : (setMem s b).m.badBursts = s.m.badBursts := rfl
@[simp] theorem setMem_m_faults (b : List Host.Cell) : (setMem s b).m.faults = s.m.faults := rfl
@[simp] theorem setMem_m_lines (b : List Host.Cell) : (setMem s b).m.lines = s.m.lines := rfl
@[simp] theorem setMem_m_pageUse (b : List Host.Cell) : (setMem s b).m.pageUse = s.m.pageUse := rfl
@[simp] theorem setMem_m_routers (b : List Host.Cell) : (setMem s b).m.routers = s.m.routers := rfl
@[simp] theorem setMem_m_arrived (b : List Host.Cell) : (setMem s b).m.arrived = s.m.arrived := rfl
@[simp] theorem setMem_m_flows (b : List Host.Cell) : (setMem s b).m.flows = s.m.flows := rfl

/-! ### writeBytes -/

@[simp] theorem writeBytes_c (a : Nat) (bs : List Byte) : (writeBytes s a bs).c = s.c := rfl
@[simp] theorem writeBytes_x (a : Nat) (bs : List Byte) : (writeBytes s a bs).x = s.x := rfl
@[simp] theorem writeBytes_e (a : Nat) (bs : List Byte) : (writeBytes s a bs).e = s.e := rfl
@[simp] theorem writeBytes_pl (a : Nat) (bs : List Byte) : (writeBytes s a bs).pl = s.pl := rfl
@[simp] theorem writeBytes_r (a : Nat) (bs : List Byte) : (writeBytes s a bs).r = s.r := rfl
@[simp] theorem writeBytes_h (a : Nat) (bs : List Byte) : (writeBytes s a bs).h = s.h := rfl
@[simp] theorem writeBytes_d (a : Nat) (bs : List Byte) : (writeBytes s a bs).d = s.d := rfl
@[simp] theorem writeBytes_m_mem (a : Nat) (bs : List Byte) : (writeBytes s a bs).m.mem = s.m.mem.putsD Config.emptyByte a bs := rfl
@[simp] theorem writeBytes_m_cxlOwner (a : Nat) (bs : List Byte) : (writeBytes s a bs).m.cxlOwner = s.m.cxlOwner := rfl
@[simp] theorem writeBytes_m_cxlUnits (a : Nat) (bs : List Byte) : (writeBytes s a bs).m.cxlUnits = s.m.cxlUnits := rfl
@[simp] theorem writeBytes_m_tlb0 (a : Nat) (bs : List Byte) : (writeBytes s a bs).m.tlb0 = s.m.tlb0 := rfl
@[simp] theorem writeBytes_m_tlb1 (a : Nat) (bs : List Byte) : (writeBytes s a bs).m.tlb1 = s.m.tlb1 := rfl
@[simp] theorem writeBytes_m_wcache (a : Nat) (bs : List Byte) : (writeBytes s a bs).m.wcache = s.m.wcache := rfl
@[simp] theorem writeBytes_m_walks (a : Nat) (bs : List Byte) : (writeBytes s a bs).m.walks = s.m.walks := rfl
@[simp] theorem writeBytes_m_walkq (a : Nat) (bs : List Byte) : (writeBytes s a bs).m.walkq = s.m.walkq := rfl
@[simp] theorem writeBytes_m_walkRr (a : Nat) (bs : List Byte) : (writeBytes s a bs).m.walkRr = s.m.walkRr := rfl
@[simp] theorem writeBytes_m_leaving (a : Nat) (bs : List Byte) : (writeBytes s a bs).m.leaving = s.m.leaving := rfl
@[simp] theorem writeBytes_m_badBursts (a : Nat) (bs : List Byte) : (writeBytes s a bs).m.badBursts = s.m.badBursts := rfl
@[simp] theorem writeBytes_m_faults (a : Nat) (bs : List Byte) : (writeBytes s a bs).m.faults = s.m.faults := rfl
@[simp] theorem writeBytes_m_lines (a : Nat) (bs : List Byte) : (writeBytes s a bs).m.lines = s.m.lines := rfl
@[simp] theorem writeBytes_m_pageUse (a : Nat) (bs : List Byte) : (writeBytes s a bs).m.pageUse = s.m.pageUse := rfl
@[simp] theorem writeBytes_m_routers (a : Nat) (bs : List Byte) : (writeBytes s a bs).m.routers = s.m.routers := rfl
@[simp] theorem writeBytes_m_arrived (a : Nat) (bs : List Byte) : (writeBytes s a bs).m.arrived = s.m.arrived := rfl
@[simp] theorem writeBytes_m_flows (a : Nat) (bs : List Byte) : (writeBytes s a bs).m.flows = s.m.flows := rfl

/-! ### setLines -/

@[simp] theorem setLines_c (l : SMap CacheLine) : (setLines s l).c = s.c := rfl
@[simp] theorem setLines_x (l : SMap CacheLine) : (setLines s l).x = s.x := rfl
@[simp] theorem setLines_e (l : SMap CacheLine) : (setLines s l).e = s.e := rfl
@[simp] theorem setLines_pl (l : SMap CacheLine) : (setLines s l).pl = s.pl := rfl
@[simp] theorem setLines_r (l : SMap CacheLine) : (setLines s l).r = s.r := rfl
@[simp] theorem setLines_h (l : SMap CacheLine) : (setLines s l).h = s.h := rfl
@[simp] theorem setLines_d (l : SMap CacheLine) : (setLines s l).d = s.d := rfl
@[simp] theorem setLines_m_mem (l : SMap CacheLine) : (setLines s l).m.mem = s.m.mem := rfl
@[simp] theorem setLines_m_cxlOwner (l : SMap CacheLine) : (setLines s l).m.cxlOwner = s.m.cxlOwner := rfl
@[simp] theorem setLines_m_cxlUnits (l : SMap CacheLine) : (setLines s l).m.cxlUnits = s.m.cxlUnits := rfl
@[simp] theorem setLines_m_tlb0 (l : SMap CacheLine) : (setLines s l).m.tlb0 = s.m.tlb0 := rfl
@[simp] theorem setLines_m_tlb1 (l : SMap CacheLine) : (setLines s l).m.tlb1 = s.m.tlb1 := rfl
@[simp] theorem setLines_m_wcache (l : SMap CacheLine) : (setLines s l).m.wcache = s.m.wcache := rfl
@[simp] theorem setLines_m_walks (l : SMap CacheLine) : (setLines s l).m.walks = s.m.walks := rfl
@[simp] theorem setLines_m_walkq (l : SMap CacheLine) : (setLines s l).m.walkq = s.m.walkq := rfl
@[simp] theorem setLines_m_walkRr (l : SMap CacheLine) : (setLines s l).m.walkRr = s.m.walkRr := rfl
@[simp] theorem setLines_m_leaving (l : SMap CacheLine) : (setLines s l).m.leaving = s.m.leaving := rfl
@[simp] theorem setLines_m_badBursts (l : SMap CacheLine) : (setLines s l).m.badBursts = s.m.badBursts := rfl
@[simp] theorem setLines_m_faults (l : SMap CacheLine) : (setLines s l).m.faults = s.m.faults := rfl
@[simp] theorem setLines_m_lines (l : SMap CacheLine) : (setLines s l).m.lines = l := rfl
@[simp] theorem setLines_m_pageUse (l : SMap CacheLine) : (setLines s l).m.pageUse = s.m.pageUse := rfl
@[simp] theorem setLines_m_routers (l : SMap CacheLine) : (setLines s l).m.routers = s.m.routers := rfl
@[simp] theorem setLines_m_arrived (l : SMap CacheLine) : (setLines s l).m.arrived = s.m.arrived := rfl
@[simp] theorem setLines_m_flows (l : SMap CacheLine) : (setLines s l).m.flows = s.m.flows := rfl

/-! ### enqueue -/

@[simp] theorem enqueue_m (i : Instr) : (enqueue s i).m = s.m := rfl
@[simp] theorem enqueue_x (i : Instr) : (enqueue s i).x = s.x := rfl
@[simp] theorem enqueue_e (i : Instr) : (enqueue s i).e = s.e := rfl
@[simp] theorem enqueue_pl (i : Instr) : (enqueue s i).pl = s.pl := rfl
@[simp] theorem enqueue_r (i : Instr) : (enqueue s i).r = s.r := rfl
@[simp] theorem enqueue_h (i : Instr) : (enqueue s i).h = s.h := rfl
@[simp] theorem enqueue_d (i : Instr) : (enqueue s i).d = s.d := rfl
@[simp] theorem enqueue_c_agenda (i : Instr) : (enqueue s i).c.agenda = s.c.agenda ++ [i] := rfl
@[simp] theorem enqueue_c_issue (i : Instr) : (enqueue s i).c.issue = s.c.issue := rfl
@[simp] theorem enqueue_c_rot (i : Instr) : (enqueue s i).c.rot = s.c.rot := rfl
@[simp] theorem enqueue_c_tried (i : Instr) : (enqueue s i).c.tried = s.c.tried := rfl
@[simp] theorem enqueue_c_fresh (i : Instr) : (enqueue s i).c.fresh = s.c.fresh := rfl
@[simp] theorem enqueue_c_nextId (i : Instr) : (enqueue s i).c.nextId = s.c.nextId := rfl
@[simp] theorem enqueue_c_cycle (i : Instr) : (enqueue s i).c.cycle = s.c.cycle := rfl
@[simp] theorem enqueue_c_frameAt (i : Instr) : (enqueue s i).c.frameAt = s.c.frameAt := rfl
@[simp] theorem enqueue_c_mfK (i : Instr) : (enqueue s i).c.mfK = s.c.mfK := rfl
@[simp] theorem enqueue_c_pkgLimit (i : Instr) : (enqueue s i).c.pkgLimit = s.c.pkgLimit := rfl
@[simp] theorem enqueue_c_pkgThrottle (i : Instr) : (enqueue s i).c.pkgThrottle = s.c.pkgThrottle := rfl

/-! ### takeId -/

@[simp] theorem takeId_m : (takeId s).m = s.m := rfl
@[simp] theorem takeId_x : (takeId s).x = s.x := rfl
@[simp] theorem takeId_e : (takeId s).e = s.e := rfl
@[simp] theorem takeId_pl : (takeId s).pl = s.pl := rfl
@[simp] theorem takeId_r : (takeId s).r = s.r := rfl
@[simp] theorem takeId_h : (takeId s).h = s.h := rfl
@[simp] theorem takeId_d : (takeId s).d = s.d := rfl
@[simp] theorem takeId_c_agenda : (takeId s).c.agenda = s.c.agenda := rfl
@[simp] theorem takeId_c_issue : (takeId s).c.issue = s.c.issue := rfl
@[simp] theorem takeId_c_rot : (takeId s).c.rot = s.c.rot := rfl
@[simp] theorem takeId_c_tried : (takeId s).c.tried = s.c.tried := rfl
@[simp] theorem takeId_c_fresh : (takeId s).c.fresh = s.c.fresh := rfl
@[simp] theorem takeId_c_nextId : (takeId s).c.nextId = s.c.nextId + 1 := rfl
@[simp] theorem takeId_c_cycle : (takeId s).c.cycle = s.c.cycle := rfl
@[simp] theorem takeId_c_frameAt : (takeId s).c.frameAt = s.c.frameAt := rfl
@[simp] theorem takeId_c_mfK : (takeId s).c.mfK = s.c.mfK := rfl
@[simp] theorem takeId_c_pkgLimit : (takeId s).c.pkgLimit = s.c.pkgLimit := rfl
@[simp] theorem takeId_c_pkgThrottle : (takeId s).c.pkgThrottle = s.c.pkgThrottle := rfl

/-! ### takeFree -/

@[simp] theorem takeFree_m : (takeFree s).m = s.m := rfl
@[simp] theorem takeFree_x : (takeFree s).x = s.x := rfl
@[simp] theorem takeFree_e : (takeFree s).e = s.e := rfl
@[simp] theorem takeFree_pl : (takeFree s).pl = s.pl := rfl
@[simp] theorem takeFree_r : (takeFree s).r = s.r := rfl
@[simp] theorem takeFree_h : (takeFree s).h = s.h := rfl
@[simp] theorem takeFree_d : (takeFree s).d = s.d := rfl
@[simp] theorem takeFree_c_agenda : (takeFree s).c.agenda = s.c.agenda := rfl
@[simp] theorem takeFree_c_issue : (takeFree s).c.issue = s.c.issue := rfl
@[simp] theorem takeFree_c_rot : (takeFree s).c.rot = s.c.rot := rfl
@[simp] theorem takeFree_c_tried : (takeFree s).c.tried = s.c.tried := rfl
@[simp] theorem takeFree_c_fresh : (takeFree s).c.fresh = s.c.fresh + 1 := rfl
@[simp] theorem takeFree_c_nextId : (takeFree s).c.nextId = s.c.nextId := rfl
@[simp] theorem takeFree_c_cycle : (takeFree s).c.cycle = s.c.cycle := rfl
@[simp] theorem takeFree_c_frameAt : (takeFree s).c.frameAt = s.c.frameAt := rfl
@[simp] theorem takeFree_c_mfK : (takeFree s).c.mfK = s.c.mfK := rfl
@[simp] theorem takeFree_c_pkgLimit : (takeFree s).c.pkgLimit = s.c.pkgLimit := rfl
@[simp] theorem takeFree_c_pkgThrottle : (takeFree s).c.pkgThrottle = s.c.pkgThrottle := rfl

/-! ### endIssue -/

@[simp] theorem endIssue_m : (endIssue s).m = s.m := rfl
@[simp] theorem endIssue_x : (endIssue s).x = s.x := rfl
@[simp] theorem endIssue_e : (endIssue s).e = s.e := rfl
@[simp] theorem endIssue_pl : (endIssue s).pl = s.pl := rfl
@[simp] theorem endIssue_r : (endIssue s).r = s.r := rfl
@[simp] theorem endIssue_h : (endIssue s).h = s.h := rfl
@[simp] theorem endIssue_d : (endIssue s).d = s.d := rfl
@[simp] theorem endIssue_c_agenda : (endIssue s).c.agenda = s.c.agenda := rfl
@[simp] theorem endIssue_c_issue : (endIssue s).c.issue = none := rfl
@[simp] theorem endIssue_c_rot : (endIssue s).c.rot = s.c.rot := rfl
@[simp] theorem endIssue_c_tried : (endIssue s).c.tried = s.c.tried := rfl
@[simp] theorem endIssue_c_fresh : (endIssue s).c.fresh = s.c.fresh := rfl
@[simp] theorem endIssue_c_nextId : (endIssue s).c.nextId = s.c.nextId := rfl
@[simp] theorem endIssue_c_cycle : (endIssue s).c.cycle = s.c.cycle := rfl
@[simp] theorem endIssue_c_frameAt : (endIssue s).c.frameAt = s.c.frameAt := rfl
@[simp] theorem endIssue_c_mfK : (endIssue s).c.mfK = s.c.mfK := rfl
@[simp] theorem endIssue_c_pkgLimit : (endIssue s).c.pkgLimit = s.c.pkgLimit := rfl
@[simp] theorem endIssue_c_pkgThrottle : (endIssue s).c.pkgThrottle = s.c.pkgThrottle := rfl

/-! ### count -/

@[simp] theorem count_c (k i n : Nat) : (count s k i n).c = s.c := rfl
@[simp] theorem count_m (k i n : Nat) : (count s k i n).m = s.m := rfl
@[simp] theorem count_x (k i n : Nat) : (count s k i n).x = s.x := rfl
@[simp] theorem count_e (k i n : Nat) : (count s k i n).e = s.e := rfl
@[simp] theorem count_pl (k i n : Nat) : (count s k i n).pl = s.pl := rfl
@[simp] theorem count_r (k i n : Nat) : (count s k i n).r = s.r := rfl
@[simp] theorem count_h (k i n : Nat) : (count s k i n).h = s.h := rfl
@[simp] theorem count_d_cnt (k i n : Nat) : (count s k i n).d.cnt = s.d.cnt.putD 0 (k * 64 + i) (s.d.cnt.getD 0 (k * 64 + i) + n) := rfl
@[simp] theorem count_d_ccnt (k i n : Nat) : (count s k i n).d.ccnt = s.d.ccnt := rfl
@[simp] theorem count_d_dcnt (k i n : Nat) : (count s k i n).d.dcnt = s.d.dcnt := rfl
@[simp] theorem count_d_latched (k i n : Nat) : (count s k i n).d.latched = s.d.latched := rfl
@[simp] theorem count_d_bps (k i n : Nat) : (count s k i n).d.bps = s.d.bps := rfl
@[simp] theorem count_d_watches (k i n : Nat) : (count s k i n).d.watches = s.d.watches := rfl
@[simp] theorem count_d_hits (k i n : Nat) : (count s k i n).d.hits = s.d.hits := rfl
@[simp] theorem count_d_frozen (k i n : Nat) : (count s k i n).d.frozen = s.d.frozen := rfl
@[simp] theorem count_d_steps (k i n : Nat) : (count s k i n).d.steps = s.d.steps := rfl
@[simp] theorem count_d_stops (k i n : Nat) : (count s k i n).d.stops = s.d.stops := rfl

/-! ### countCluster -/

@[simp] theorem countCluster_c (k i n : Nat) : (countCluster s k i n).c = s.c := rfl
@[simp] theorem countCluster_m (k i n : Nat) : (countCluster s k i n).m = s.m := rfl
@[simp] theorem countCluster_x (k i n : Nat) : (countCluster s k i n).x = s.x := rfl
@[simp] theorem countCluster_e (k i n : Nat) : (countCluster s k i n).e = s.e := rfl
@[simp] theorem countCluster_pl (k i n : Nat) : (countCluster s k i n).pl = s.pl := rfl
@[simp] theorem countCluster_r (k i n : Nat) : (countCluster s k i n).r = s.r := rfl
@[simp] theorem countCluster_h (k i n : Nat) : (countCluster s k i n).h = s.h := rfl
@[simp] theorem countCluster_d_cnt (k i n : Nat) : (countCluster s k i n).d.cnt = s.d.cnt := rfl
@[simp] theorem countCluster_d_ccnt (k i n : Nat) : (countCluster s k i n).d.ccnt = s.d.ccnt.putD 0 (k * 64 + i) (s.d.ccnt.getD 0 (k * 64 + i) + n) := rfl
@[simp] theorem countCluster_d_dcnt (k i n : Nat) : (countCluster s k i n).d.dcnt = s.d.dcnt := rfl
@[simp] theorem countCluster_d_latched (k i n : Nat) : (countCluster s k i n).d.latched = s.d.latched := rfl
@[simp] theorem countCluster_d_bps (k i n : Nat) : (countCluster s k i n).d.bps = s.d.bps := rfl
@[simp] theorem countCluster_d_watches (k i n : Nat) : (countCluster s k i n).d.watches = s.d.watches := rfl
@[simp] theorem countCluster_d_hits (k i n : Nat) : (countCluster s k i n).d.hits = s.d.hits := rfl
@[simp] theorem countCluster_d_frozen (k i n : Nat) : (countCluster s k i n).d.frozen = s.d.frozen := rfl
@[simp] theorem countCluster_d_steps (k i n : Nat) : (countCluster s k i n).d.steps = s.d.steps := rfl
@[simp] theorem countCluster_d_stops (k i n : Nat) : (countCluster s k i n).d.stops = s.d.stops := rfl

/-! ### countDie -/

@[simp] theorem countDie_c (k i n : Nat) : (countDie s k i n).c = s.c := rfl
@[simp] theorem countDie_m (k i n : Nat) : (countDie s k i n).m = s.m := rfl
@[simp] theorem countDie_x (k i n : Nat) : (countDie s k i n).x = s.x := rfl
@[simp] theorem countDie_e (k i n : Nat) : (countDie s k i n).e = s.e := rfl
@[simp] theorem countDie_pl (k i n : Nat) : (countDie s k i n).pl = s.pl := rfl
@[simp] theorem countDie_r (k i n : Nat) : (countDie s k i n).r = s.r := rfl
@[simp] theorem countDie_h (k i n : Nat) : (countDie s k i n).h = s.h := rfl
@[simp] theorem countDie_d_cnt (k i n : Nat) : (countDie s k i n).d.cnt = s.d.cnt := rfl
@[simp] theorem countDie_d_ccnt (k i n : Nat) : (countDie s k i n).d.ccnt = s.d.ccnt := rfl
@[simp] theorem countDie_d_dcnt (k i n : Nat) : (countDie s k i n).d.dcnt = s.d.dcnt.putD 0 (k * 16 + i) (s.d.dcnt.getD 0 (k * 16 + i) + n) := rfl
@[simp] theorem countDie_d_latched (k i n : Nat) : (countDie s k i n).d.latched = s.d.latched := rfl
@[simp] theorem countDie_d_bps (k i n : Nat) : (countDie s k i n).d.bps = s.d.bps := rfl
@[simp] theorem countDie_d_watches (k i n : Nat) : (countDie s k i n).d.watches = s.d.watches := rfl
@[simp] theorem countDie_d_hits (k i n : Nat) : (countDie s k i n).d.hits = s.d.hits := rfl
@[simp] theorem countDie_d_frozen (k i n : Nat) : (countDie s k i n).d.frozen = s.d.frozen := rfl
@[simp] theorem countDie_d_steps (k i n : Nat) : (countDie s k i n).d.steps = s.d.steps := rfl
@[simp] theorem countDie_d_stops (k i n : Nat) : (countDie s k i n).d.stops = s.d.stops := rfl

/-! ### reply -/

@[simp] theorem reply_c (q : Hdr) (a b o : Nat) (bs : List Byte) : (reply s q a b o bs).c = s.c := rfl
@[simp] theorem reply_m (q : Hdr) (a b o : Nat) (bs : List Byte) : (reply s q a b o bs).m = s.m := rfl
@[simp] theorem reply_x (q : Hdr) (a b o : Nat) (bs : List Byte) : (reply s q a b o bs).x = s.x := rfl
@[simp] theorem reply_e (q : Hdr) (a b o : Nat) (bs : List Byte) : (reply s q a b o bs).e = s.e := rfl
@[simp] theorem reply_pl (q : Hdr) (a b o : Nat) (bs : List Byte) : (reply s q a b o bs).pl = s.pl := rfl
@[simp] theorem reply_r (q : Hdr) (a b o : Nat) (bs : List Byte) : (reply s q a b o bs).r = s.r := rfl
@[simp] theorem reply_d (q : Hdr) (a b o : Nat) (bs : List Byte) : (reply s q a b o bs).d = s.d := rfl
@[simp] theorem reply_h_out (q : Hdr) (a b o : Nat) (bs : List Byte) : (reply s q a b o bs).h.out = s.h.out ++ [.reply q a b o bs] := rfl
@[simp] theorem reply_h_dies (q : Hdr) (a b o : Nat) (bs : List Byte) : (reply s q a b o bs).h.dies = s.h.dies := rfl
@[simp] theorem reply_h_clusters (q : Hdr) (a b o : Nat) (bs : List Byte) : (reply s q a b o bs).h.clusters = s.h.clusters := rfl
@[simp] theorem reply_h_ctxs (q : Hdr) (a b o : Nat) (bs : List Byte) : (reply s q a b o bs).h.ctxs = s.h.ctxs := rfl
@[simp] theorem reply_h_exports (q : Hdr) (a b o : Nat) (bs : List Byte) : (reply s q a b o bs).h.exports = s.h.exports := rfl
@[simp] theorem reply_h_imports (q : Hdr) (a b o : Nat) (bs : List Byte) : (reply s q a b o bs).h.imports = s.h.imports := rfl
@[simp] theorem reply_h_modules (q : Hdr) (a b o : Nat) (bs : List Byte) : (reply s q a b o bs).h.modules = s.h.modules := rfl
@[simp] theorem reply_h_handles (q : Hdr) (a b o : Nat) (bs : List Byte) : (reply s q a b o bs).h.handles = s.h.handles := rfl
@[simp] theorem reply_h_launches (q : Hdr) (a b o : Nat) (bs : List Byte) : (reply s q a b o bs).h.launches = s.h.launches := rfl
@[simp] theorem reply_h_queues (q : Hdr) (a b o : Nat) (bs : List Byte) : (reply s q a b o bs).h.queues = s.h.queues := rfl
@[simp] theorem reply_h_events (q : Hdr) (a b o : Nat) (bs : List Byte) : (reply s q a b o bs).h.events = s.h.events := rfl
@[simp] theorem reply_h_captures (q : Hdr) (a b o : Nat) (bs : List Byte) : (reply s q a b o bs).h.captures = s.h.captures := rfl
@[simp] theorem reply_h_waiting (q : Hdr) (a b o : Nat) (bs : List Byte) : (reply s q a b o bs).h.waiting = s.h.waiting := rfl
@[simp] theorem reply_h_deferred (q : Hdr) (a b o : Nat) (bs : List Byte) : (reply s q a b o bs).h.deferred = s.h.deferred := rfl
@[simp] theorem reply_h_remote (q : Hdr) (a b o : Nat) (bs : List Byte) : (reply s q a b o bs).h.remote = s.h.remote := rfl

end

end Sys2Proof.Machine
end

