-- ==== Sys2Proof/Laws/Ops.lean ====
section
/-!
SUPPORT. What the shared operations of Ops.lean do to memory, and what a request, a hold and a failed gang come to.
-/
namespace Sys2Proof.Machine

/-! ### Folds -/

/-- A projection that every step of a fold leaves alone, the fold leaves alone. -/
theorem foldl_keeps {α β : Type} (g : State → α) (f : State → β → State) (h : ∀ s b, g (f s b) = g s) (s : State) (l : List β) :
    g (l.foldl f s) = g s := by
  induction l generalizing s with
  | nil => rfl
  | cons b l ih => simp only [List.foldl_cons]; rw [ih, h]

/-- A property that every step of a fold keeps, the fold keeps. -/
theorem foldl_inv {β : Type} (P : State → Prop) (f : State → β → State) (h : ∀ s b, P s → P (f s b)) (s : State) (l : List β)
    (hs : P s) : P (l.foldl f s) := by
  induction l generalizing s with
  | nil => exact hs
  | cons b l ih => exact ih _ (h s b hs)

/-! ### Operations that leave memory, the caches and the TLBs alone -/

theorem postRecord_m (s : State) (die : Nat) (r : BitVec 256) : (postRecord s die r).m = s.m := rfl
theorem postEvent_m (s : State) (f : EvFields) : (postEvent s f).m = s.m := rfl
theorem refuse_m (s : State) (h : Hdr) (code : Nat) : (refuse s h code).m = s.m := rfl
theorem done_m (s : State) (h : Hdr) (ws : List Word) : (done s h ws).m = s.m := rfl
theorem setTag_m (s : State) (core slot : Nat) (t : Byte) : (setTag s core slot t).m = s.m := rfl
theorem scrStore_m (s : State) (core pa n v : Nat) : (scrStore s core pa n v).m = s.m := rfl
theorem setPair_m (s : State) (core x y : Nat) (q : OvQueue) : (setPair s core x y q).m = s.m := rfl
theorem reserve_m (s : State) (core x y : Nat) : (reserve s core x y).1.m = s.m := rfl

theorem setChunks_m (n : Nat) (s : State) (core lo : Nat) (v : ChunkState) : (setChunks s core lo v n).m = s.m := by
  induction n generalizing s lo with
  | zero => rfl
  | succ n ih => exact (ih _ _).trans (setChunk_m s core lo v)

theorem setTags_m (n : Nat) (s : State) (core slot : Nat) (t : Byte) : (setTags s core slot t n).m = s.m := by
  induction n generalizing s slot with
  | zero => rfl
  | succ n ih => exact ih _ _

theorem reserveN_m (core x y n : Nat) (s : State) (acc : List Nat) : (reserveN core x y n s acc).1.m = s.m := by
  induction n generalizing s acc with
  | zero => rfl
  | succ n ih => exact ih _ _

theorem fillEntries_m (s : State) (ids : List Nat) (w : BitVec 32) : (fillEntries s ids w).m = s.m := by
  unfold fillEntries; exact foldl_keeps (·.m) _ (by intros; rfl) s ids

theorem eraseEntry_m (s : State) (core i : Nat) : (eraseEntry s core i).m = s.m := by unfold eraseEntry; dsimp only; split <;> rfl

theorem doPops_m (ps : List Pop) (s : State) (core y : Nat) : (doPops s core y ps).m = s.m := by
  induction ps generalizing s with
  | nil => rfl
  | cons p ps ih =>
    cases p with
    | entry i => exact (ih _).trans (eraseEntry_m s core i)
    | queue x => exact ih _

theorem setSreg_m (s : State) (pid r : Nat) (v : Word) : (setSreg s pid r v).m = s.m := by
  unfold setSreg; split_ifs <;> rfl

theorem setStackWord_m (s : State) (w lane o v : Nat) : (setStackWord s w lane o v).m = s.m := rfl

theorem putHeader_m (s : State) (w o : Nat) (link sp fb : Word) (ls : List Nat) : (putHeader s w o link sp fb ls).m = s.m := by
  unfold putHeader; exact foldl_keeps (·.m) _ (by intros; rfl) s ls

theorem addPath_m (s : State) (w : Nat) (p : Path) : (addPath s w p).m = s.m := rfl
theorem addResumed_m (s : State) (w : Nat) (p : Path) (v : VPC) (a : Word) : (addResumed s w p v a).m = s.m :=
  (setSreg_m _ _ _ _).trans (addPath_m _ _ _)

theorem fillTable_m (s : State) (w : Nat) : (fillTable s w).m = s.m := by unfold fillTable; split <;> rfl
theorem removePath_m (s : State) (p : Nat) : (removePath s p).m = s.m := fillTable_m _ _

theorem joinCheck_m (n : Nat) (s : State) (r : Nat) : (joinCheck n s r).m = s.m := by
  induction n generalizing s r with
  | zero => rfl
  | succ n ih =>
    unfold joinCheck
    have hr : ∀ (t : State) (l : List (Nat × Path)), (l.foldl (fun s p => removePath s p.1) t).m = t.m :=
      fun t l => foldl_keeps (·.m) _ (fun a b => removePath_m a b.1) t l
    split
    · rfl
    · dsimp only
      split
      · rfl
      · split
        · split
          · rfl
          · rw [ih]
        · split
          · split
            · split
              · rw [ih, setPath_m, hr]
              · rw [setPath_m, hr]
            · rw [setPath_m, hr]
          · rfl

theorem arrive_m (s : State) (p : Nat) : (arrive s p).m = s.m := by
  unfold arrive; split
  · split
    · exact joinCheck_m _ _ _
    · rfl
  · rfl

theorem dropLanes_m (s : State) (p : Nat) (m : Mask) : (dropLanes s p m).m = s.m := by
  unfold dropLanes; simp only; split
  · split
    · exact (joinCheck_m _ _ _).trans (removePath_m s p)
    · exact removePath_m s p
  · rfl

theorem splitPath_m (s : State) (p : Nat) (t : Mask) (a b : Pc) (j : JoinPt) : (splitPath s p t a b j).m = s.m := rfl

theorem leaveBars_m (s : State) (gang thread : Nat) (kill : Bool) : (leaveBars s gang thread kill).m = s.m := by
  unfold leaveBars
  simp only [setThread_m]
  refine foldl_keeps (·.m) _ (fun t b => ?_) s _
  split <;> rfl

theorem failGang_m (s : State) (g cause : Nat) (addr : Word) : (failGang s g cause addr).m = s.m := by
  unfold failGang; simp only; split
  · rfl
  · simp only [setLaunch_m]; refine (foldl_keeps (·.m) _ ?_ _ _).trans rfl; intros; rfl

theorem freeSave_m (s : State) (ctx o : Nat) : (freeSave s ctx o).m = s.m := by unfold freeSave; split <;> rfl

theorem takeSave_m {s t : State} {ctx n o : Nat} (h : takeSave s ctx n = some (t, o)) : t.m = s.m := by
  unfold takeSave at h
  split at h
  · simp at h
  · split at h
    · simp at h
    · simp only [Option.some.injEq, Prod.mk.injEq] at h; rw [← h.1]; rfl

theorem noteLeft_m (s : State) (b : Nat) (ls : List Nat) (e : LaneExit) : (noteLeft s b ls e).m = s.m := rfl

theorem killLanes_m (s : State) (p : Nat) (m : Mask) : (killLanes s p m).m = s.m :=
  (dropLanes_m _ _ _).trans (foldl_keeps (·.m) _ (fun t l => leaveBars_m t _ _ true) s _)

theorem ite_m {c : Prop} [Decidable c] {a b t : State} (ha : a.m = t.m) (hb : b.m = t.m) : (if c then a else b).m = t.m := by
  split <;> assumption

theorem finishHandler_m (s : State) (b : Nat) : (finishHandler s b).m = s.m := by
  unfold finishHandler
  split
  · rfl
  · rename_i k hk
    refine ite_m rfl ?_
    extract_lets g m code ix n defines depth x0 s0 s1 isSkip back skip p0 base area s2 s3
    have h0 : s0.m = s.m := freeSave_m _ _ _
    have h1 : s1.m = s.m := by
      refine (foldl_keeps (·.m) _ (fun u e => ?_) s0 k.left).trans h0
      rcases e with ⟨l, e⟩
      cases e
      · exact ite_m (leaveBars_m _ _ _ _) rfl
      · exact ite_m (leaveBars_m _ _ _ _) (ite_m rfl rfl)
      · exact leaveBars_m _ _ _ _
      · rfl
    have h2 : s2.m = s.m := ite_m h1 ((addResumed_m _ _ _ _ _).trans h1)
    have h3 : s3.m = s.m := ite_m h2 ((addResumed_m _ _ _ _ _).trans h2)
    refine ite_m ?_ h3
    split
    · exact (joinCheck_m _ _ _).trans h3
    · exact h3

theorem secondTrap_m (s : State) (p b kind : Nat) (addr : Word) (m : Mask) : (secondTrap s p b kind addr m).m = s.m :=
  (finishHandler_m _ _).trans ((killLanes_m _ _ _).trans rfl)

theorem enterHandler_m (s : State) (p h b : Nat) : (enterHandler s p h b).m = s.m := by
  unfold enterHandler
  extract_lets q w g r m f regs x0 s1 depth s2 sp size s3
  have h2 : s2.m = s.m := by
    refine (foldl_keeps (·.m) _ (fun u l => ?_) s1 _).trans rfl
    exact foldl_keeps (·.m) _ (fun v i => setVal_m v _ _ _ _) u _
  exact (setPath_m _ _ _).trans (ite_m ((putHeader_m _ _ _ _ _ _ _).trans h2) h2)

/-! ### Memory written through page tables -/

theorem memory_wf_kernelWrite {ctx : Nat} (bs : List Byte) {s : State} {va : Word} (h : Memory.wf s.m.mem = true) :
    (∀ t, kernelWrite s ctx va bs = .ok t → Memory.wf t.m.mem = true) ∧
      (∀ t w, kernelWrite s ctx va bs = .error (t, w) → Memory.wf t.m.mem = true) := by
  induction bs generalizing s va with
  | nil =>
    refine ⟨fun t ht => ?_, fun t w ht => ?_⟩
    · simp only [kernelWrite, Except.ok.injEq] at ht; rw [← ht]; exact h
    · simp [kernelWrite] at ht
  | cons b bs ih =>
    unfold kernelWrite
    split
    · refine ⟨fun t ht => ?_, fun t w ht => ?_⟩
      · simp at ht
      · simp only [Except.error.injEq, Prod.mk.injEq] at ht; rw [← ht.1]; exact h
    · exact ih (memory_wf_writeByte _ b h)

theorem memory_wf_saveWrite {s : State} (ctx o : Nat) (bs : List Byte) (h : Memory.wf s.m.mem = true) :
    Memory.wf (saveWrite s ctx o bs).m.mem = true := by
  unfold saveWrite
  split
  · rename_i t ht; exact (memory_wf_kernelWrite bs h).1 t ht
  · rename_i t w ht; exact (memory_wf_kernelWrite bs h).2 t w ht

/-- Taking a trap writes its record through the page tables, and nothing else of memory. -/
theorem memory_wf_takeTrap {s : State} (p : Nat) (t : TrapRec) (h : Memory.wf s.m.mem = true) :
    Memory.wf (takeTrap s p t).m.mem = true := by
  unfold takeTrap
  extract_lets q w gi g r
  split
  · rw [secondTrap_m]; exact h
  · split
    · rw [failGang_m]; exact h
    · split
      · rw [failGang_m]; exact h
      · rename_i s1 o hs
        extract_lets b s2 k x0 s3 s4
        have h2 : Memory.wf s2.m.mem = true := memory_wf_saveWrite _ _ _ (by rw [takeId_m, takeSave_m hs]; exact h)
        have h4 : s4.m = s2.m := (enterHandler_m _ _ _ _).trans rfl
        split
        · rw [secondTrap_m, h4]; exact h2
        · rw [h4]; exact h2

/-! ### Requests -/

/-- A request is turned away, refused, or carried out (R392). -/
theorem request_answers {s : State} {h : Hdr} {v : Serve} {check : Option Nat} {effect : State} {ok : State → Prop}
    (hk : turnedAway s h v = none → check = none → ok effect) : Answers s h v check (request s h v check effect) ok := by
  refine ⟨fun st hs => ?_, fun c hs hc => ?_, fun hs hc => ⟨effect, ?_, hk hs hc⟩⟩
  · simp only [request, hs]
  · simp only [request, hs, hc]
  · simp only [request, hs, hc]

theorem memory_wf_request {s u : State} {h : Hdr} {v : Serve} {check : Option Nat} {effect : State}
    (hs : Memory.wf s.m.mem = true) (he : Memory.wf effect.m.mem = true) (hu : request s h v check effect = .next u) :
    Memory.wf u.m.mem = true := by
  unfold request at hu
  simp only [Host.Outcome.next.injEq] at hu
  rw [← hu]
  split
  · exact hs
  · split
    · exact hs
    · exact he

/-! ### The shared shapes -/

theorem putDst_m (s : State) (pid lane : Nat) (d : Dst) (v : Word) : (putDst s pid lane d v).m = s.m := by
  unfold putDst; split
  · rfl
  · rfl
  · dsimp only; split <;> rfl
  · exact setSreg_m _ _ _ _
  · exact setSreg_m _ _ _ _

theorem putLanes_m (s : State) (pid : Nat) (d : Dst) (rs : List (Nat × Word)) : (putLanes s pid d rs).m = s.m := by
  unfold putLanes; split
  all_goals
    refine foldl_keeps (·.m) _ (fun t r => ?_) s _
    exact putDst_m _ _ _ _ _

theorem finish_m (s : State) (c : Ctx) (f : Form) : (finish s c f).m = s.m := by unfold finish; split <;> rfl
theorem hold_m (s : State) (pid : Nat) (f : Form) (w : WaitOn) : (hold s pid f w).m = s.m := by unfold hold; split <;> rfl
theorem orFlags_m (s : State) (k : Nat) (fl : Flags) : (orFlags s k fl).m = s.m := by unfold orFlags; split <;> rfl

theorem memory_wf_raise {s : State} (c : Ctx) (f : Form) (t : TrapRec) (h : Memory.wf s.m.mem = true) :
    Memory.wf (raise s c f t).m.mem = true := by
  unfold raise; dsimp only; split
  · exact memory_wf_takeTrap _ _ h
  · exact h

/-- What issues keeps memory canonical when its effect does: the hold of an operand in flight changes no memory. -/
theorem memory_wf_issuing {f : Form} {s u : State} {k : Ctx → Out} (h : Memory.wf s.m.mem = true)
    (hk : ∀ c t, k c = .next t → Memory.wf t.m.mem = true) (hu : issuing f s k = .next u) : Memory.wf u.m.mem = true := by
  unfold issuing at hu
  split at hu
  · simp at hu
  · dsimp only at hu; split at hu
    · simp only [Host.Outcome.next.injEq] at hu; rw [← hu, hold_m]; exact h
    · exact hk _ _ hu

theorem memory_wf_laneOp {f : Form} {s u : State} {t : Ctx → Ty} {g : Ctx → Nat → Word} (h : Memory.wf s.m.mem = true)
    (hu : laneOp f s t g = .next u) : Memory.wf u.m.mem = true :=
  memory_wf_issuing h (fun c v hv => by
    simp only [Host.Outcome.next.injEq] at hv; rw [← hv, finish_m, putLanes_m]; exact h) hu

theorem memory_wf_withFlags {s : State} (c : Ctx) (f : Form) (t : Ty) (kind : Nat) (rs : List (Nat × Word × Flags))
    (h : Memory.wf s.m.mem = true) : Memory.wf (withFlags s c f t kind rs).m.mem = true := by
  unfold withFlags
  have hf : ∀ l : List (Nat × Flags), (l.foldl (fun s r => orFlags s (threadKey c.pid r.1) r.2) s).m = s.m :=
    fun l => foldl_keeps (·.m) _ (fun u r => orFlags_m u _ _) s l
  dsimp only; split
  · rw [finish_m, putLanes_m, hf]; exact h
  · exact memory_wf_raise _ _ _ (by rw [hf]; exact h)

theorem memory_wf_flagOp {f : Form} {s u : State} {t : Ctx → Ty} {kind : Nat} {g : Ctx → Nat → Word × Flags}
    (h : Memory.wf s.m.mem = true) (hu : flagOp f s t kind g = .next u) : Memory.wf u.m.mem = true :=
  memory_wf_issuing h (fun c v hv => by
    simp only [Host.Outcome.next.injEq] at hv; rw [← hv]; exact memory_wf_withFlags _ _ _ _ _ h) hu

end Sys2Proof.Machine
end

