-- ==== Sys2Proof/Tests/Slice0.lean ====
section
/-!
SUPPORT. Tests: an ill-formed term for each check of WellFormed, words written out from the spec's encodings, the spec's worked
examples run one operation at a time, and for each obligation a state that meets its hypotheses.
-/
set_option Elab.async false

namespace Sys2Proof.Tests
open Sys2Proof Sys2Proof.Machine

/-! ### Helpers -/

/-- The fields of a word; types by the index of `oneFunc`'s table: 1 `i1`, 2 `i8`, 3 `i16`, 4 `i32`, 5 `i64`, 6 `f16`, 7 `bf16`,
8 `f32`, 9 `f64`, 10 `tok`, 11 `ptr.g`, 12 `ptr.p`, 13 `ptr.s`, 14 `sc8`. -/
def pf (ty md : Nat) (a b c : Operand) (ext : List Operand) : PForm :=
  { ty := BitVec.ofNat 4 ty, md := BitVec.ofNat 3 md, a := a, b := b, c := c, ext := ext }

/-- The fields of a slot. -/
def nf (slot nt md dst sa sb sc aux : Nat) : NForm :=
  { slot := BitVec.ofNat 2 slot, ntype := BitVec.ofNat 4 nt, md := BitVec.ofNat 3 md, gs := 0, dst := BitVec.ofNat 11 dst,
    sa := BitVec.ofNat 11 sa, sb := BitVec.ofNat 11 sb, sc := BitVec.ofNat 11 sc, aux := BitVec.ofNat 12 aux }

/-- A path of lanes `m` at a word after three values, which hold `x`, `y` and `z` in lanes 0 and 1: operands `back 3`, `back 2`,
`back 1`, and value 3 for the result. -/
def at3 (m : Mask) (x y z : Word) : State :=
  let k : Word := 0x06009000B000B000
  let s := placeWords State.reset [k, k, k, 0]
  let s1 := updPath s 0 (fun p => { p with mask := m, pc := .word (VPC.of 0 4) })
  [0, 1].foldl (fun s l => setVal (setVal (setVal s l 0 0 x) l 0 1 y) l 0 2 z) s1

/-- The three operands of `at3` in order. -/
def abc (ty md : Nat) : Form := .p (pf ty md (.back 3) (.back 2) (.back 1) [])

/-- What lane 0 of a result holds after an operation. -/
def result (o : Out) : Option Nat := match o with | .next t => some (getVal t 0 0 3).toNat | _ => none

/-- The flags of lane 0 after an operation. -/
def flags (o : Out) : Option (BitVec 6) := match o with | .next t => some (threadAt t 0).flags | _ => none

/-- What a scratchpad byte of core 0 holds after an operation. -/
def after {α : Type} (o : Out) (g : State → α) : Option α := match o with | .next t => some (g t) | _ => none

/-! ### Well-formedness -/

theorem test_wf_back_zero : PForm.wf (pf 1 0 (.back 0) .none .none []) = false := by decide
theorem test_wf_back_far : PForm.wf (pf 1 0 .none .none .none [.back (2 ^ 28)]) = false := by decide
theorem test_wf_back_edge : PForm.wf (pf 1 0 (.back (2 ^ 28 - 1)) .none .none []) = true := by decide
theorem test_wf_slot : Instr.wf (.ld (.n (nf 1 7 0 0 6 2047 2047 0x012))) = false := by decide
theorem test_wf_slot_three : Instr.wf (.add (.n (nf 3 3 0 0 6 6 2047 0))) = false := by decide
theorem test_wf_frame_enter : Instr.wf (.frameEnter (nf 0 0 1 2047 2047 2047 2047 0)) = false := by decide
theorem test_wf_frame_leave : Instr.wf (.frameLeave (nf 0 0 0 2047 2047 2047 2047 0)) = false := by decide
theorem test_wf_frame_pair : (Instr.wf (.frameEnter (nf 0 0 0 2047 2047 2047 2047 0)) &&
    Instr.wf (.frameLeave (nf 0 0 1 2047 2047 2047 2047 0))) = true := by decide

/-! ### Decoding: words of the spec's worked encodings -/

/-- R31, R32: `%i2 = add.i32 %i, 1`. -/
theorem test_decode_add : decodePlimet [0x100800028001B000] = .ok (.add (.p (pf 1 0 (.back 2) (.imm 1) .none []))) := by
  decide +kernel
theorem test_decode_const : decodePlimet [0x06009000B000B000] = .ok (.const (pf 0 0 (.konst 0) .none .none [])) := by
  decide +kernel
theorem test_decode_br : decodePlimet [0x0180D001B000B000, 0xFF0200038000B000] =
    .ok (.br (pf 0 0 (.index 1) .none .none [.back 3, .imm 0])) := by decide +kernel
theorem test_decode_brc : decodePlimet [0x02000001D001D002, 0xFF03000300020003] =
    .ok (.brc (pf 0 0 (.back 1) (.index 1) (.index 2) [.back 3, .back 2, .back 3])) := by decide +kernel
theorem test_decode_call : decodePlimet [0x0300D000B000B000, 0xFF0200018003B000] =
    .ok (.call (pf 0 0 (.index 0) .none .none [.back 1, .imm 3])) := by decide +kernel
theorem test_decode_ret : decodePlimet [0x04000001B000B000] = .ok (.ret (pf 0 0 (.back 1) .none .none [])) := by decide +kernel
theorem test_decode_sreg : decodePlimet [0x06808002B000B000] = .ok (.sreg (.p (pf 0 0 (.imm 2) .none .none []))) := by
  decide +kernel
theorem test_decode_switch : decodePlimet [0x02800001D0038002, 0xFF03D001D0020003, 0xFF03000300020003, 0xFF010002B000B000] =
    .ok (.switch (pf 0 0 (.back 1) (.index 3) (.imm 2) [.index 1, .index 2, .back 3, .back 3, .back 2, .back 3, .back 2])) := by
  decide +kernel
theorem test_decode_icmp : decodePlimet [0x1E1200010006B000] = .ok (.icmp (.p (pf 2 2 (.back 1) (.back 6) .none []))) := by
  decide +kernel
theorem test_decode_fma : decodePlimet [0x3285000300020001] = .ok (.fma (.p (pf 0 5 (.back 3) (.back 2) (.back 1) []))) := by
  decide +kernel
theorem test_decode_lgred : decodePlimet [0x510000018004B000] = .ok (.lgred (.p (pf 0 0 (.back 1) (.imm 4) .none []))) := by
  decide +kernel
theorem test_decode_sfEval : decodePlimet [0x54060001B000B000] = .ok (.sfEval (.p (pf 0 6 (.back 1) .none .none []))) := by
  decide +kernel
theorem test_decode_ld : decodePlimet [0x580100018002B000] = .ok (.ld (.p (pf 0 1 (.back 1) (.imm 2) .none []))) := by
  decide +kernel
theorem test_decode_st : decodePlimet [0x5889000300018005] = .ok (.st (.p (pf 1 1 (.back 3) (.back 1) (.imm 5) []))) := by
  decide +kernel
theorem test_decode_amo : decodePlimet [0x5983000200018020] = .ok (.amo (.p (pf 0 3 (.back 2) (.back 1) (.imm 32) []))) := by
  decide +kernel
theorem test_decode_fence : decodePlimet [0x5B018005B000B000] = .ok (.fence (.p (pf 0 1 (.imm 5) .none .none []))) := by
  decide +kernel
theorem test_decode_bxCopy : decodePlimet [0x609A0008000A8012, 0xFF03000200010005] =
    .ok (.bxCopy (.p (pf 3 2 (.back 8) (.back 10) (.imm 18) [.back 2, .back 1, .back 5]))) := by decide +kernel
theorem test_decode_mxStep : decodePlimet [0x691A000500048012, 0xFF020003000AB000] =
    .ok (.mxStep (.p (pf 3 2 (.back 5) (.back 4) (.imm 18) [.back 3, .back 10]))) := by decide +kernel
theorem test_decode_xcSwap : decodePlimet [0x701000018007B000] = .ok (.xcSwap (.p (pf 2 0 (.back 1) (.imm 7) .none []))) := by
  decide +kernel
theorem test_decode_barWait : decodePlimet [0x758800020001B000] = .ok (.barWait (.p (pf 1 0 (.back 2) (.back 1) .none []))) := by
  decide +kernel
theorem test_decode_cpBid : decodePlimet [0x7891000200018000] = .ok (.cpBid (.p (pf 2 1 (.back 2) (.back 1) (.imm 0) []))) := by
  decide +kernel
theorem test_decode_cvTurn : decodePlimet [0x801B0001B0008000] = .ok (.cvTurn (.p (pf 3 3 (.back 1) .none (.imm 0) []))) := by
  decide +kernel
theorem test_decode_brk : decodePlimet [0x84008007B000B000] = .ok (.brk (.p (pf 0 0 (.imm 7) .none .none []))) := by
  decide +kernel
theorem test_decode_trapInfo : decodePlimet [0x0794B000B000B000] = .ok (.trapInfo (.p (pf 2 4 .none .none .none []))) := by
  decide +kernel

/-- R49, R59: slots of the worked encodings. -/
theorem test_decode_slot_jmp : decodeSlot 0 0x31A04001823FF803002 = .ok (.jmp (nf 0 0 1 0 1544 2047 3 2)) := by decide +kernel
theorem test_decode_slot_split : decodeSlot 0 0x3116000000C00003007 = .ok (.pathSplit (nf 0 11 0 0 3 0 3 7)) := by decide +kernel
theorem test_decode_slot_fence : decodeSlot 0 0x16C04FFFFFFFFFFF005 = .ok (.fence (.n (nf 0 0 1 2047 2047 2047 2047 5))) := by
  decide +kernel
theorem test_decode_slot_fma : decodeSlot 1 0x0CB140280280600E000 = .ok (.fma (.n (nf 1 8 5 20 10 12 14 0))) := by
  decide +kernel
theorem test_decode_slot_frame : decodeSlot 0 0x32000FFFFFFFFFFF05E = .ok (.frameEnter (nf 0 0 0 2047 2047 2047 2047 94)) := by
  decide +kernel

/-- R59, R61: a code without an operation, a native-only code in a word, a reserved code, a slot that the operation does not
run in. -/
theorem test_reject_unassigned : decodePlimet [0x1F80000000000000] = .error .unassigned := by decide +kernel
theorem test_reject_native : decodePlimet [0xC080000000000000] = .error .nativeOnly := by decide +kernel
theorem test_reject_reserved : decodePlimet [0xF080000000000000] = .error .reserved := by decide +kernel
theorem test_reject_slot : decodeSlot 1 0x16C04FFFFFFFFFFF005 = .error .slotCode := by decide +kernel
theorem test_reject_zero_field : decodePlimet [0x100800008001B000] = .error .fieldZero := by decide +kernel

/-! ### Worked examples of the integer and control rules -/

/-- R169: `add.sat.sx.i32`, `sub.sat.zx.i8`, `neg.i16`, `abs.sat.i16`. -/
theorem test_add_saturates : result (exec (.add (abc 4 1)) (at3 1 0x7FFFFFF0 0x20 0)) = some 0x7FFFFFFF := by decide +kernel
theorem test_sub_saturates : result (exec (.sub (abc 2 2)) (at3 1 3 5 0)) = some 0 := by decide +kernel
theorem test_neg_wraps : result (exec (.neg (abc 3 0)) (at3 1 0x8000 0 0)) = some 0x8000 := by decide +kernel
theorem test_abs_saturates : result (exec (.abs (abc 3 1)) (at3 1 0x8000 0 0)) = some 0x7FFF := by decide +kernel

/-- R170: 7 by -2, -9 by 0, and `rem.zx.i8` of 0xF0 by 0; the zero divisor sets flag 5. -/
theorem test_div_truncates : result (exec (.div (abc 4 0)) (at3 1 7 0xFFFFFFFE 0)) = some 0xFFFFFFFD := by decide +kernel
theorem test_div_zero : result (exec (.div (abc 4 0)) (at3 1 0xFFFFFFF7 0 0)) = some 0x80000000 := by decide +kernel
theorem test_rem_sign : result (exec (.rem (abc 4 0)) (at3 1 0xFFFFFFF9 2 0)) = some 0xFFFFFFFF := by decide +kernel
theorem test_rem_zero_flags : flags (exec (.rem (abc 2 1)) (at3 1 0xF0 0 0)) = some 32 := by decide +kernel

/-- R171: an `i8` shift by 9 moves one place; an arithmetic shift; the counts of zero. -/
theorem test_shl_modulo : result (exec (.shl (abc 2 0)) (at3 1 0x81 9 0)) = some 0x02 := by decide +kernel
theorem test_shr_sign : result (exec (.shr (abc 2 0)) (at3 1 0x81 1 0)) = some 0xC0 := by decide +kernel
theorem test_rotr_low : result (exec (.rotr (abc 2 0)) (at3 1 0x81 1 0)) = some 0xC0 := by decide +kernel
theorem test_clz_zero : result (exec (.clz (abc 2 0)) (at3 1 0 0 0)) = some 8 := by decide +kernel
theorem test_brev_bit : result (exec (.brev (abc 2 0)) (at3 1 2 0 0)) = some 0x40 := by decide +kernel

/-- R172: fields of 0xDEADBEEF at positions 8 and 28. -/
theorem test_bfx_zx : result (exec (.bfx (.p (pf 4 1 (.back 3) (.back 2) (.imm 12) []))) (at3 1 0xDEADBEEF 8 0)) = some 0xDBE := by
  decide +kernel
theorem test_bfx_clipped : result (exec (.bfx (.p (pf 4 0 (.back 3) (.back 2) (.imm 12) []))) (at3 1 0xDEADBEEF 28 0)) =
    some 0xFFFFFFFD := by decide +kernel

/-- R174: `bsel` with ctl 0x8310 and 0x0123. -/
theorem test_bsel_fields : result (exec (.bsel (abc 4 0)) (at3 1 0x44332211 0x88776655 0x8310)) = some 0x88442211 := by
  decide +kernel
theorem test_bsel_reverse : result (exec (.bsel (abc 4 0)) (at3 1 0x44332211 0x88776655 0x0123)) = some 0x11223344 := by
  decide +kernel

/-- R168: `mulhi` takes the upper half of the exact product; R178: `select` reads bit 0. -/
theorem test_mulhi_signed : result (exec (.mulhi (abc 4 0)) (at3 1 0xFFFFFFFF 2 0)) = some 0xFFFFFFFF := by decide +kernel
theorem test_mulhi_unsigned : result (exec (.mulhi (abc 4 1)) (at3 1 0xFFFFFFFF 2 0)) = some 1 := by decide +kernel
theorem test_select_false : result (exec (.select (abc 4 0)) (at3 1 2 7 9)) = some 9 := by decide +kernel

/-- R195, R202, R208 in `f32`: 1 + 1, the overflow to infinity, 1 / 0 and its flag, the square root of -1. -/
theorem test_fadd_exact : result (exec (.fadd (abc 8 0)) (at3 1 0x3F800000 0x3F800000 0)) = some 0x40000000 := by decide +kernel
theorem test_fmul_overflows : result (exec (.fmul (abc 8 0)) (at3 1 0x7F7FFFFF 0x40000000 0)) = some 0x7F800000 := by
  decide +kernel
theorem test_fdiv_zero_flag : flags (exec (.fdiv (abc 8 0)) (at3 1 0x3F800000 0 0)) = some 2 := by decide +kernel
theorem test_fsqrt_negative : result (exec (.fsqrt (abc 8 0)) (at3 1 0xBF800000 0 0)) = some 0x7FC00000 := by decide +kernel
/-- R210: the number under `.num`, the default NaN under `.nan`; R213: -0 is bit 3. -/
theorem test_fmin_num : result (exec (.fmin (abc 8 0)) (at3 1 0x7FC00000 0x40000000 0)) = some 0x40000000 := by decide +kernel
theorem test_fmax_nan : result (exec (.fmax (abc 8 1)) (at3 1 0x7FC00000 0x40000000 0)) = some 0x7FC00000 := by decide +kernel

/-- R353: `trap` without a handler fails the gang with CAUSE 0x100 plus kind 1. -/
theorem test_trap_fails_gang : after (exec (.trap (.p (pf 0 0 (.imm 5) .none .none []))) (at3 1 0 0 0))
    (fun t => ((gangAt t 0).state, (gangAt t 0).cause)) = some (.failing, 0x101) := by decide +kernel

/-- R346: a join of two lanes that name one word makes its member count 2. -/
def atBar (w : Nat) : State :=
  let s := at3 3 0x40 0 0
  let s1 : State := { s with x := { s.x with wgs := s.x.wgs.ins 0 { wgAt s 0 with size := 4096 } } }
  scrWrite s1 0 0x40 8 w
theorem test_barJoin_counts : after (exec (.barJoin (.p (pf 0 0 (.back 3) .none .none []))) (atBar 0))
    (fun t => barMem (scrRead t 0 0x40 8)) = some 2 := by decide +kernel
theorem test_barArrive_before_join : after (exec (.barArrive (.p (pf 4 0 (.back 3) .none .none []))) (atBar 0x20000))
    (fun t => (gangAt t 0).state) = some .failing := by decide +kernel

/-! ### The rig of the witnesses -/

/-- A launch record of one workgroup of 32 threads with a stack of 1024 bytes, a producer span of all its threads and no event:
its handler and its flags. -/
def launchRecord (handler fl : Nat) : BitVec 1024 :=
  BitVec.ofNat 1024 (2 ^ (8 * 18) + 2 ^ (8 * 20) + 2 ^ (8 * 22) + 2 ^ (8 * 25) + 32 * 2 ^ (8 * 26) + 1024 * 2 ^ (8 * 28) +
    32 * 2 ^ (8 * 40) + handler * 2 ^ (8 * 42) + fl * 2 ^ (8 * 44) + (2 ^ 80 - 1) * 2 ^ (8 * 46))

/-- Tables that map the 64 KiB at virtual 0x10000 of a die's context 0 to physical 0 with every right, and a save region there. -/
def mapIn (die : Nat) (s : State) : State :=
  let s1 : State := setCtx s (die * 64) { ctxZero with
    state := .live, root := 0x10000, save := some { base := 0x10000, size := 2 ^ 16, used := [] } }
  [(0x10000, 0x20001), (0x20000, 0x30001), (0x30000, 0x40001), (0x40000, 0x50001), (0x50008, 0x5F)].foldl
    (fun s p => writeMem s (lpKey die p.1) 8 p.2) s1

/-- Words in place on a workgroup of 64 KiB, with a stack and the translation of the mapped page in its core. -/
def rigged (handler : Nat) (ws : List Word) : State :=
  let s := placeWords (mapIn 0 State.reset) ws
  let s1 := setWg s 0 { wgAt s 0 with size := 0x10000, usesMx := true, usesSf := true }
  let s2 := updWarp s1 0 (fun k => { k with stackBase := 0x20000 })
  let s3 := setLaunch s2 0 { launchAt s2 0 with record := launchRecord handler 8 }
  { s3 with m := { s3.m with tlb0 := [(0, [{ ctx := 0, va := 0x10000, lg := 16, leaf := 0x5F }])] } }

/-- Values of the types `ts` that hold `vs` in lanes 0 and 1, before a word at index `ts.length + 1`; lanes `m` are active. -/
def rig (ts : List Nat) (m : Mask) (vs : List Word) : State :=
  let s := rigged 0xFFFF (ts.map (fun t => 0x06009000B000B000 + BitVec.ofNat 64 (t * 2 ^ 51)) ++ [0])
  let s1 := updPath s 0 (fun p => { p with mask := m, pc := .word (VPC.of 0 (ts.length + 1)) })
  [0, 1].foldl (fun s l => ((List.range vs.length).zip vs).foldl (fun s v => setVal s l 0 v.1 v.2) s) s1

/-- Path 0 issues `f`, in a state whose maps are in canonical form. -/
def Ready (s : State) (f : Form) : Bool := decide (Issues s f (ctxOf s 0) ∧ Canonical s)
/-- The maps are in canonical form. -/
def Sound (s : State) : Bool := decide (Canonical s)

/-! ### Witnesses: states and operands that meet the hypotheses of each obligation -/

theorem witness_IntegerResultsFitTheirWidth :
    let s := at3 3 1 2 3
    let c := ctxOf s 0
    let n := Form.n (nf 1 1 1 0 1 2 3 0)
    Ready s (abc 4 0) ∧ Ready s (abc 5 2) ∧ Ready s n ∧ isInt (formTy c (abc 4 0)) = true ∧ isInt (formTy c (abc 5 2)) = true ∧
      modOf (abc 4 0) < 2 ∧ isInt (formTy c n) = true ∧ modOf n < 2 := by decide +kernel

theorem witness_IntegerProductsAndExtremes :
    let s := at3 3 1 2 3
    Ready s (abc 2 1) ∧ isInt (formTy (ctxOf s 0) (abc 2 1)) = true ∧ modOf (abc 2 1) < 2 := by decide +kernel

theorem witness_BitwiseInstructionsAndShiftsActOnBits :
    let s := at3 3 1 2 3
    let c := ctxOf s 0
    Ready s (abc 1 0) ∧ formTy c (abc 1 0) = .i1 ∧ Ready s (abc 3 0) ∧ isInt (formTy c (abc 3 0)) = true ∧
      modOf (abc 3 0) = 0 ∧ Ready s (abc 3 1) ∧ isInt (formTy c (abc 3 1)) = true ∧ modOf (abc 3 1) = 1 := by decide +kernel

theorem witness_BitCountsAndFieldsFollowTheBits :
    let s := at3 3 1 2 3
    let c := ctxOf s 0
    let x := Form.p (pf 4 0 (.back 3) (.back 2) (.imm 32) [])
    let i := Form.p (pf 4 0 (.back 3) (.back 2) (.back 1) [.imm 32])
    Ready s x ∧ Ready s i ∧ isInt (formTy c x) = true ∧ isInt (formTy c i) = true ∧
      fieldLenOf x 2 = 32 ∧ modOf x < 2 ∧ fieldLenOf i 3 = 32 := by decide +kernel

theorem witness_WidthsBytesAndPointersAreComputed :
    let s := rig [2, 11, 4] 3 [0x80, 0x10000, 3]
    let c := ctxOf s 0
    let e := Form.p (pf 4 0 (.back 3) .none .none [])
    let a := Form.p (pf 11 0 (.back 2) (.back 1) (.imm 8) [])
    Ready s e ∧ isInt (formTy c e) = true ∧ 0 < tyWidth (sourceTy c e) ∧ tyWidth (sourceTy c e) < tyWidth (formTy c e) ∧
      formTy c e = .i32 ∧ Ready s a ∧ modOf a < 5 ∧ 0 < tyWidth (formTy c a) := by decide +kernel

theorem witness_ComparisonsSelectionsAndConstantsGiveValues :
    let s := at3 3 1 2 3
    let i := Form.p (pf 0 7 (.back 3) (.back 2) .none [])
    let k := Form.p (pf 4 0 (.konst 0) .none .none [])
    let v := Form.p (pf 4 0 (.imm 5) .none .none [])
    let x := Form.p (pf 8 0 (.special 1) .none .none [])
    let r := Form.p (pf 0 0 (.imm 15) .none .none [])
    Ready s i ∧ modOf i < 8 ∧ Ready s (abc 4 0) ∧ Ready s k ∧ Ready s v ∧ Ready s x ∧ Ready s r := by decide +kernel

theorem witness_DivisionTruncatesAndFlagsZeroDivisors :
    let s := at3 3 1 0 0
    Ready s (abc 4 1) ∧ isInt (formTy (ctxOf s 0) (abc 4 1)) = true ∧ modOf (abc 4 1) < 2 := by decide +kernel

theorem witness_FloatArithmeticDeliversResultsAndFlags :
    let s := at3 3 1 2 3
    Ready s (abc 8 0) ∧ isFloat (formTy (ctxOf s 0) (abc 8 0)) = true := by decide +kernel

theorem witness_FormatsDeliverNansAndExactValues :
    isFloat .f32 = true ∧ (fmtF32.decode 0x7F800001).isNan = true ∧ (fmtF32.decode 0x7FC00000).isNan = true ∧
      (0x7F7FFFFF : Nat) < 2 ^ tyWidth .f32 ∧ fmtF32.decode 0x7F7FFFFF = .fin false 0xFFFFFF 104 := by decide +kernel

theorem witness_SignsComparisonsAndClassesReadBits :
    let s := rig [8, 8, 8] 3 [0x7F800001, 0, 0]
    let c := ctxOf s 0
    let p := Form.p (pf 0 7 (.back 3) (.back 2) .none [])
    Ready s (abc 8 0) ∧ isFloat (formTy c (abc 8 0)) = true ∧ Ready s p ∧ modOf p < 8 := by decide +kernel

theorem witness_ConversionsDeliverResultsAndFlags : Ready (at3 3 1 2 3) (abc 8 6) := by decide +kernel

theorem witness_FloatStateIsReadAndWritten :
    let okMode := fun (m : BitVec 32) => (m.extractLsb' 0 3).toNat ≤ 4 ∧ m &&& 0xFFFFC0F8#32 = 0
    let md := fun s l => (src s (ctxOf s 0) (abc 4 0) 0 .i32 false l).setWidth 32
    let s := at3 3 0x3F04 2 3
    let t := at3 3 5 2 3
    Ready s (abc 4 0) ∧ (∀ l ∈ (pathMask s 0).lanes, okMode (md s l)) ∧ Ready t (abc 4 0) ∧
      ∃ l ∈ (pathMask t 0).lanes, ¬okMode (md t l) := by decide +kernel

theorem witness_LaneInstructionsStayInTheirGroup :
    (let s := at3 3 1 2 3
     Ready s (abc 4 3) ∧ modOf (abc 4 3) < 4) ∧ offSlotZero (abc 4 3) :=
  ⟨by decide +kernel, by intro w h; cases h⟩

theorem witness_IntegerReductionsAndScans :
    (let s := at3 3 1 2 3
     Ready s (abc 4 7) ∧ isInt (formTy (ctxOf s 0) (abc 4 7)) = true ∧ modOf (abc 4 7) < 8) ∧ offSlotZero (abc 4 7) :=
  ⟨by decide +kernel, by intro w h; cases h⟩

theorem witness_FloatReductionsFollowTheTree :
    (let s := at3 3 1 2 3
     Ready s (abc 8 0) ∧ isFloat (formTy (ctxOf s 0) (abc 8 0)) = true) ∧ offSlotZero (abc 8 0) :=
  ⟨by decide +kernel, by intro w h; cases h⟩

/-- A function of four blocks whose `brc`, word 2 after a constant, goes to block 1 or 2; both lead to block 3. -/
def forked (m : Mask) (v0 v1 : Word) : State :=
  let b : Word := BitVec.ofNat 64 (2 ^ 55)
  let s := rigged 0xFFFF [0x06209000B000B000, 0x02000001D001D002, b, 0x0180D003B000B000, b, 0x0180D003B000B000, b, 0x0480B000B000B000]
  setVal (setVal (updPath s 0 (fun p => { p with mask := m, pc := .word (VPC.of 0 2) })) 0 0 0 v0) 1 0 0 v1

/-- The words of the branches of R183 to R185 that stand in `forked`. -/
def brcForm : PForm := pf 0 0 (.back 1) (.index 1) (.index 2) []

theorem witness_UniformBranchesPassArguments :
    let s := forked 3 1 1
    let t := forked 3 0 0
    let u := forked 3 2 9
    let c := ctxOf s 0
    let br := pf 0 0 (.index 3) .none .none []
    let sw := pf 0 0 (.back 1) (.index 1) (.imm 2) [.index 2, .index 3]
    let fits := fun s w => Ready s (.p w) ∧ noneLeft s (ctxOf s 0) ∧ (pathAt s 0).split = none ∧ (pathMask s 0).lanes ≠ [] ∧ w.ext.length < 2 ^ 30
    let k := fun s l => zx (tyWidth (opndTy c (.p sw) 0 .i32)) (operandVal s (ctxOf s 0) l sw.a (opndTy c (.p sw) 0 .i32) false)
    fits s br ∧ fits s brcForm ∧ fits t brcForm ∧ fits s sw ∧ fits u sw ∧
      (∀ l ∈ (pathMask s 0).lanes, (operandVal s c l brcForm.a .i1 false).getLsbD 0 = true) ∧
      (∀ l ∈ (pathMask t 0).lanes, (operandVal t (ctxOf t 0) l brcForm.a .i1 false).getLsbD 0 = false) ∧
      (∀ l ∈ (pathMask s 0).lanes, k s l = 1) ∧ ∀ l ∈ (pathMask u 0).lanes, 2 ≤ k u l := by decide +kernel

theorem witness_DivergentBranchSplitsThePath :
    let s := forked 3 1 0
    let c := ctxOf s 0
    let start := fun b => VPC.of c.fn (blockStart c.func.code b)
    Ready s (.p brcForm) = true ∧ noneLeft s c ∧ (pathAt s 0).atExit = false ∧ brcForm.ext.length < 2 ^ 30 ∧
      (s.x.paths.find? (freePath s c.warp)).isNone = true ∧ indexOf brcForm.b ≠ indexOf brcForm.c ∧
      joinOf c ≠ .block (start 1) ∧ joinOf c ≠ .block (start 2) ∧ (pathMask s 0).lanes = [0, 1] ∧
      (operandVal s c 0 brcForm.a .i1 false).getLsbD 0 = true ∧ (operandVal s c 1 brcForm.a .i1 false).getLsbD 0 = false := by
  decide +kernel

/-- The state after an operation, or the state before it where it is no next state. -/
def next (s : State) (o : Out) : State := match o with | .next t => t | _ => s

/-- A callee too long to translate has no witness of its own: the kernel would have to run the translation of a MiB. -/
theorem witness_CallsEnterTheirCallee :
    let s := rig [4] 3 [0]
    let t := rig [4] 3 [9]
    let c := ctxOf s 0
    let call := pf 0 0 (.index 0) .none .none []
    let callx := pf 0 0 (.back 1) (.imm 0) .none []
    let fits := fun s w => Ready s (.p w) = true ∧ (pathMask s 0).lanes ≠ [] ∧ w.ext.length < 2 ^ 20
    fits s call ∧ fits s callx ∧ fits t callx ∧ callHeld s 0 = false ∧
      (imageAt s 0 (calleeKey s c.gang 0)).map (·.frameW) = some 0 ∧ ((pathAt s 0).s127 + (pathAt s 0).s124).toNat + 16 ≤ stackSize s 0 ∧
      (∀ l ∈ (pathMask s 0).lanes, zx 32 (operandVal s c l callx.a .i32 false) = 0) ∧ callxOk c callx 0 = true ∧
      callxAhead s c callx 0 = [] ∧
      ((pathMask t 0).lanes.filter (fun l => !callxOk (ctxOf t 0) callx (zx 32 (operandVal t (ctxOf t 0) l callx.a .i32 false)))) ≠ [] := by
  decide +kernel

/-- The path of `rig` within a call that function 0 made at its first word. -/
def called (ts : List Nat) (m : Mask) (vs : List Word) (trap : Option Nat) : State :=
  updPath (rig ts m vs) 0 (fun p => { p with frames := [{ fn := 0, callVpc := VPC.of 0 1, wants := some 0, trap := trap }] })

theorem witness_ReturnsAndExitsLeave :
    let s := called [4] 3 [5] none
    let t := rig [4] 3 [5]
    let w := pf 0 0 (.back 1) .none .none []
    let u := setPair (setEntry t 7 { entryZero with cons := 1, prod := 2 }) 0 2 1 { hw := [7], ring := [] }
    let fits := fun s => Ready s (.p w) = true ∧ handlerOf (pathAt s 0) = none ∧ (pathAt s 0).split = none ∧ (pathAt s 0).atExit = false
    fits s ∧ (pathAt s 0).frames ≠ [] ∧ leftEntries s (ctxOf s 0) (some (ctxOf s 0).depth) = [] ∧
      fits t ∧ (pathAt t 0).frames = [] ∧ noneLeft t (ctxOf t 0) ∧ fits u ∧ (pathAt u 0).frames = [] ∧ ¬noneLeft u (ctxOf u 0) ∧
      Ready t (.n (nf 0 0 0 0 0 0 0 0)) = true ∧ t.c.issue.map (·.trap) = some none := by decide +kernel

/-- A trap of kind 5 at the first word. -/
def aTrap : TrapRec := { trapZero with kind := 5, vpc := VPC.of 0 1, lanes := 3, addr := 0x10001 }

theorem witness_TakingATrapEntersTheHandler :
    let s := rigged 0 [0x06009000B000B000]
    let g := gangAt s 0
    let h := lrHandler (launchAt s 0).record
    let n := (trapVals s 0 aTrap.vpc).length
    Sound s = true ∧ (s.x.paths.find? 0).isSome = true ∧ handlerOf (pathAt s 0) = none ∧ h = 0 ∧
      (takeSave s g.ctx (roundUp (blockBytes (Config.lanes g.die) n) 64)).isSome = true ∧
      ((pathAt s 0).s127 + (pathAt s 0).s124).toNat + 16 + 4 * handlerWords s 0 h ≤ stackSize s 0 := by decide +kernel

theorem witness_TrapsWithoutAHandlerFailTheGang :
    let s := rigged 0xFFFF [0x06009000B000B000]
    let t := setCtx (rigged 0 [0x06009000B000B000]) 0 { ctxZero with state := .live }
    let n := (trapVals t 0 aTrap.vpc).length
    let fits := fun s => SMap.risingFrom 0 s.x.paths = true ∧ (gangAt s 0).state = .resident ∧ handlerOf (pathAt s 0) = none
    fits s ∧ lrHandler (launchAt s 0).record = 0xFFFF ∧ fits t ∧ lrHandler (launchAt t 0).record = 0 ∧
      (takeSave t 0 (roundUp (blockBytes 64 n) 64)).isNone = true := by decide +kernel

/-- The path of `rig` within the handler of a trap of kind 5 that both lanes took. -/
def handling (ts : List Nat) (vs : List Word) : State :=
  let s := called ts 3 vs (some 90)
  let k : TrapBlock := { warp := 0, record := { aTrap with addrs := [(0, 0x10001)] }, pc := .word (VPC.of 0 1), frames := [], split := none,
                         s124 := 16, s125 := rootLink, s126 := 0, s127 := 0, mask := 3, left := [], ctx := 0, off := 0, len := 64 }
  { s with x := { s.x with blocks := [(90, k)] } }

theorem witness_TrapInstructionsAndTheirRecords :
    let s := rig [4] 3 [5]
    let t := handling [4] [5]
    let f := Form.p (pf 4 6 .none .none .none [])
    let i : Issue := { pid := 0, latch := none, hold := none, trap := some { trapZero with kind := 0x13 }, target := none, fork := none, ended := false }
    let u : State := { s with c := { s.c with issue := some i } }
    Ready s (.p (pf 0 0 (.imm 5) .none .none [])) = true ∧ Ready s (.n (nf 0 0 1 0 0 0 0 5)) = true ∧ s.c.issue.map (·.trap) = some none ∧
      Ready u (.n (nf 0 0 1 0 0 0 0 5)) = true ∧ u.c.issue = some i ∧
      Ready t f = true ∧ modOf f < 7 ∧ handlerOf (pathAt t 0) = some 90 ∧ (t.x.blocks.find? 90).isSome = true := by decide +kernel

theorem witness_TrapReturnResumesSkipsOrKills :
    let s := handling [4] [5]
    let w := fun md => pf 4 md (.back 1) .none .none []
    let u := setPair (setEntry s 7 { entryZero with cons := 1, prod := 2, depth := 1 }) 0 2 1 { hw := [7], ring := [] }
    let part := updPath s 0 (fun p => { p with mask := 1 })
    let fits := fun s => handlerOf (pathAt s 0) = some 90 ∧ (s.x.blocks.find? 90).map (·.warp) = some (ctxOf s 0).warp ∧
      (pathsOf s (ctxOf s 0).warp).length ≤ 62
    let left := fun s => leftEntries s (ctxOf s 0) (some (ctxOf s 0).depth)
    let k := (s.x.blocks.find? 90).map (fun k => (k.mask.lanes, k.left, decide (k.record.kind ≠ 1 ∧ k.record.kind ≠ 2)))
    Ready s (.p (w 0)) = true ∧ Ready s (.p (w 1)) = true ∧ Ready s (.p (w 2)) = true ∧ fits s ∧ left s = [] ∧ k = some ([0, 1], [], true) ∧
      (pathMask s 0).lanes = [0, 1] ∧ Ready part (.p (w 0)) = true ∧ fits part ∧ left part = [] ∧ (pathMask part 0).lanes = [0] ∧
      Ready u (.p (w 0)) = true ∧ fits u ∧ left u ≠ [] ∧ Ready s (.n (nf 0 0 0 0 0 0 0 0)) = true ∧ s.c.issue.map (·.trap) = some none ∧
      definesValue (moduleAt s 0) (nth (funcAt (moduleAt s 0) 0).code 0 1) = true := by decide +kernel

/-- An access of `i32` at the first value with the others as its operands. -/
def access (md ctl : Nat) : Form := .p (pf 4 md (.back 3) (.back 2) (.imm (BitVec.ofNat 12 ctl)) [])

theorem witness_AccessesAreSentAfterEveryCheck :
    let s := rig [11, 4, 4] 3 [0x10004, 5, 6]
    let c := ctxOf s 0
    let ld := Form.p (pf 4 3 (.back 3) (.imm 2) .none [])
    let cas := Form.p (pf 4 3 (.back 3) (.back 2) (.back 1) [.imm 2])
    let ready := fun f op => Ready s f = true ∧
      (∀ l ∈ (accessLanes s c f).1, (match checked s c f op (formTy c f) l with | .loc _ => true | _ => false) = true) ∧
      (∃ l ∈ (accessLanes s c f).1, (match checked s c f op (formTy c f) l with | .loc (.mem _ _) => true | _ => false) = true)
    peerReplies s 0 = [] ∧ (s.x.warps.find? 0).isSome = true ∧ counterFull (warpAt s 0) 0 = false ∧ counterFull (warpAt s 0) 1 = false ∧
      (warpAt s 0).inflight = [] ∧ ready ld .load ∧ ready (access 3 2) .store ∧ ready (access 3 32) (.amo (controlOp (access 3 32))) ∧
      ready cas .cas ∧ ready (access 2 32) (.red (controlOp (access 2 32))) := by decide +kernel

theorem witness_ScratchAccessesPerformAtOnce :
    let s := rig [13, 4, 4] 3 [0x40, 5, 6]
    let f := access 3 32
    let k := Form.n (nf 0 3 0 7 6 8 0 0x20)
    let found := fun s op l => checked s (ctxOf s 0) f op .i32 l
    Ready s f = true ∧ Ready s k = true ∧ peerReplies s 0 = [] ∧ s.d.watches = [] ∧ (warpAt s 0).inflight = [] ∧
      found s .load 0 = .loc (.scr 0 0x40) ∧ found s .store 1 = .loc (.scr 0 0x40) ∧ found s (.amo 0) 0 = .loc (.scr 0 0x40) ∧
      found s .cas 0 = .loc (.scr 0 0x40) ∧ waitOver s 0 (lockHold .cas 0 0x40 4) = true ∧
      waitOver s 0 (lockHold .load 0 0x40 4) = true ∧ waitOver s 0 (lockHold .store 0 0x40 4) = true ∧
      waitOver s 0 (lockHold (.amo 0) 0 0x40 4) = true ∧ checked s (ctxOf s 0) k .load .i32 1 = .stk 0 := by
  decide +kernel

theorem witness_MisalignedAccessesTrapAndFencesOrder :
    let s := rig [11, 4, 4] 3 [0x10001, 5, 6]
    let t := next s (exec (access 0 2 |> Instr.st) (rig [11, 4, 4] 3 [0x10004, 5, 6]))
    let f := access 0 2
    Ready s f = true ∧ (warpAt s 0).inflight = [] ∧ (accessLanes s (ctxOf s 0) f).1.filter (fun l => (addrOf s (ctxOf s 0) f l).toNat % 4 != 0) ≠ [] ∧
      Ready s (.p (pf 0 2 (.imm 5) .none .none [])) = true ∧ scopeOf (.p (pf 0 2 (.imm 5) .none .none [])) 0 = 5 ∧
      (warpAt t 0).inflight ≠ [] ∧ Ready { t with c := { t.c with issue := s.c.issue } } (.p (pf 0 2 (.imm 5) .none .none [])) = true := by
  decide +kernel

/-- An access of one lane whose packet has come to its home, where the channel groups `ready` have reported. -/
def atHome (ready : BitVec 8) (i : Instr) : State :=
  let s := next State.reset (exec i (rig [11, 4, 4] 1 [0x10004, 5, 6]))
  let t := setDie s 0 { dieAt s 0 with mchGroups := ready }
  { t with m := { t.m with routers := [], arrived := t.m.routers.flatMap (·.2) } }

theorem witness_AccessesPerformAtTheirHome :
    let sound := fun s => Sound s = true ∧ s.d.watches = [] ∧ s.m.arrived.any (fun p => pktWarp p == some 0) = true
    let fits := fun i => let s := atHome 0xFF i
      decide (sound s) && (match (warpAt s 0).inflight with
        | [a] => a.lanes.length == 1 && a.pid / 64 == 0 && decide ((nextPacket s 0).map (·.accs) = some [(0, a.id, 0)]) &&
            a.lanes.all (fun x => x.lane == 0 && !badData s x.loc (tyBytes a.ty))
        | _ => false)
    sound (atHome 0 (.st (access 0 2))) ∧ nextPacket (atHome 0 (.st (access 0 2))) 0 = none ∧
      fits (.ld (.p (pf 4 1 (.back 3) (.imm 2) .none []))) = true ∧ fits (.st (access 0 2)) = true ∧ fits (.amo (access 0 32)) = true ∧
      fits (.cas (.p (pf 4 0 (.back 3) (.back 2) (.back 1) [.imm 2]))) = true ∧ fits (.red (access 0 32)) = true := by decide +kernel

/-- A table header that obeys R234 stands at physical 0. -/
def withTable : State :=
  let s := rig [11] 3 [0x10000]
  writeMem (writeMem s 0 4 0x42544653) 12 4 0x3F800000

theorem witness_SpecialFunctionsAndTheirTables :
    (let s := rig [8, 6, 7] 3 [0x7F800001, 0, 0]
     let c := ctxOf s 0
     let t := setSf s 0 { sfZero with valid0 := true }
     let e := fun ty md k => Form.p (pf ty md (.back k) .none .none [])
     let ld := Form.p (pf 0 0 (.back 1) .none .none [])
     let reads := fun s => match readRecords (setSf s 0 { sfZero with loads := [0] }) (ctxOf s 0) ld (spaceOf (ctxOf s 0) ld
         (addrOf s (ctxOf s 0) ld 0)) [0] 4160 64 with
       | .ok [(0, bs)] => decide (bs.length = 4160) && tableOk (bs.take 64)
       | _ => false
     let u := rig [11] 3 [0x10000]
     Ready s (e 8 5 3) = true ∧ formTy c (e 8 5 3) = .f32 ∧ formTy c (e 6 0 2) = .f16 ∧ formTy c (e 7 0 1) = .bf16 ∧
       modOf (e 8 5 3) < 6 ∧ (sfSpecial fmtF32 5 (fmtF32.decode (src s c (e 8 5 3) 0 .f32 false 0).toNat)).isSome = true ∧
       Ready t (e 8 6 3) = true ∧ modOf (e 8 6 3) = 6 ∧ (sfAt t 0).valid0 = true ∧ (sfAt t 0).cur = false ∧ (sfAt s 0).valid0 = false ∧
       Ready withTable ld = true ∧ (sfAt withTable 0).loads = [] ∧ SMap.wf 0 withTable.e.bank = true ∧ reads withTable = true ∧
       Ready u ld = true ∧ reads u = false) ∧
      offSlotZero (.p (pf 8 5 (.back 3) .none .none [])) := ⟨by decide +kernel, by intro w h; cases h⟩

/-- A shape of three dimensions: a box of 128 words of 4 bytes, one wide in the others, the middle one a window of a filter. -/
def boxShape : BitVec 1024 :=
  BitVec.ofNat 1024 (3 + 2 * 2 ^ 8 + 0x12 * 2 ^ 16 + (4 + 128 * 2 ^ 48 + 128 * 2 ^ 64) * 2 ^ 128 +
    (512 + 2 ^ 48 + 2 ^ 64 + 0x10101 * 2 ^ 96) * 2 ^ 256 + (512 + 2 ^ 48 + 2 ^ 64) * 2 ^ 384)

/-- `rig` with that shape in its first register. -/
def shaped (ts : List Nat) (m : Mask) (vs : List Word) : State :=
  let s := rig ts m vs
  setWg s 0 { wgAt s 0 with shapes := some boxShape :: List.replicate 7 none }

theorem witness_CopyCommandsAreQueuedInLaneOrder :
    let s := shaped [13, 11, 4] 3 [0x200, 0x10000, 0]
    let c := ctxOf s 0
    let copy := Form.p (pf 0 3 (.back 3) (.back 2) (.imm 0) [.back 1, .back 1, .back 1])
    let list := Form.p (pf 0 2 (.back 3) (.back 2) (.imm 0) [.back 3, .back 1, .back 1])
    let away := Form.p (pf 0 2 (.back 2) (.back 3) (.imm 0) [.back 3, .back 1, .back 1])
    let fill := Form.p (pf 0 3 (.back 3) (.back 1) (.imm 0) [.back 1, .back 1, .back 1])
    let fits := fun kind f => Ready s f = true ∧ (∀ l ∈ (pathMask s c.pid).lanes, let o := copyBody s c f kind l
      (sideWord o.far).toNat % shSize boxShape = 0 ∧ nearBad s c o true = false ∧ listBad s c o true = false ∧
        shapeFits o true (modOf f) = true ∧ o.shape = boxShape)
    shapeOk boxShape = true ∧ outsideSpan s c = [] ∧ quotaOk s 0 ∧ fits .copy copy ∧ fits .conv copy ∧ fits .fill fill ∧
      fits .gather list ∧ fits .scatter away ∧ fits .red copy ∧
      (copyBody s c copy .copy 0).toNear = true ∧
      nearHome s { cmdZero with gang := c.gang } (copyBody s c copy .copy 0) = some (0, 0x200) := by decide +kernel

theorem witness_MatrixCommandsAndTurnsAreQueued :
    let s := rig [13, 13, 4] 3 [0x2000, 0x4000, 0x2000]
    let t := rig [5, 4, 4] 3 [0x12861, 0xFFFF, 1]
    let c := ctxOf s 0
    let f := Form.p (pf 0 0 (.back 3) (.back 2) (.imm 0) [.back 1, .back 1, .back 1])
    let fits := fun s loop (body : Nat → CmdBody) => ∀ l ∈ (pathMask s 0).lanes,
      mxScrBad s 0 (tailMode s 0).1 (body l) = none ∧ mxRangeBad (tailMode s 0).1 loop (body l) = false
    let p := fun k l => ptrVal s c f k l
    let x := fun j l => mxExtra s c f j l
    Ready s f = true ∧ outsideSpan s c = [] ∧ quotaOk s 0 ∧ fits s false (fun _ => .mxZero 0) ∧ fits s false (fun l => .mxLd 0 false false (p 0 l)) ∧
      fits s false (fun l => .mxSteps 0 false false (p 0 l) (p 1 l) 0 1 0 0 0) ∧
      fits s true (fun l => .mxSteps 0 false false (p 0 l) (p 1 l) 0 1 (x 1 l) (x 2 l) 0) ∧
      fits s false (fun l => .mxStore 0 false (p 0 l)) ∧ Ready t f = true ∧
      fits t false (fun l => .mxMode (bindRnd (modeThread t (ctxOf t 0) l) (src t (ctxOf t 0) f 0 .i64 false l)) 0) ∧
      lrTurn (launchRec s c.gang) = true ∧
      (let m := rig [4] 3 [0xFFFF]
       let g := Form.p (pf 0 0 (.back 1) .none (.imm 0) [])
       Ready m g = true ∧ ∀ l ∈ (pathMask m 0).lanes, strandMask m (ctxOf m 0) g l = 0xFFFF) := by decide +kernel

/-- The state after an operation, where path 0 issues again. -/
def again (s : State) (o : Out) : State :=
  let t := next s o
  { t with c := { t.c with issue := s.c.issue } }

/-- A token entry 7, as filled as said, which each lane names, and which heads the native queue of an engine to the threads. -/
def tokened (ts : List Nat) (m : Mask) (vs : List Word) (full : Bool) : State :=
  let s := setEntry (rig ts m vs) 7 { entryZero with filled := full, cons := 1, prod := 2 }
  let t := setPair (setPair s 0 2 1 { hw := [7, 7], ring := [] }) 0 4 1 { hw := [7, 7], ring := [] }
  { t with c := { t.c with nextId := 8 } }

theorem witness_ShapeRecordsAndChunksFollowTheirRules :
    let s0 := rig [13, 4] 3 [0x200, 2]
    let put := fun s => scrPut s 0 0x200 (leBytes 128 boxShape.toNat)
    let s := put s0
    let w := pf 0 0 (.back 2) (.imm 7) .none []
    let v := pf 0 0 (.back 3) (.imm 7) .none [.back 1]
    let reads := fun s w ok => match readRecords s (ctxOf s 0) (.p w) 2 (pathMask s 0).lanes 128 16 with
      | .ok rs => rs.map (fun r => (r.1, shapeOk (BitVec.ofNat 1024 (leNat r.2)))) == (pathMask s 0).lanes.map (fun l => (l, ok))
      | _ => false
    let fits := fun s (w : PForm) => decide (Ready s (.p w) = true ∧ outsideSpan s (ctxOf s 0) = [] ∧
      shapeK (.p w) < (wgAt s (wgKeyOf s (ctxOf s 0))).shapes.length ∧ sideTy s (ctxOf s 0) (.p w) 0 = .ptrS ∧
      (∀ l ∈ (pathMask s 0).lanes, (addrOf s (ctxOf s 0) (.p w) l).toNat % 16 = 0 ∧
        (scrHome s 0 ((addrOf s (ctxOf s 0) (.p w) l).setWidth 32) 128).isSome = true))
    let tok := fun full => put (tokened [13, 4, 10] 1 [0x200, 2, 7] full)
    let held := fun full => again (tok full) (exec (.bxShape (.p v)) (tok full))
    let ends := fun s => decide (shapeCmds s 0 ≠ []) && !shapePopped s 0 && waitOver s 0 (.bxTurn 0 (shapeCmds s 0))
    let waits := fun s => decide (shapeCmds s 0 ≠ []) && !shapePopped s 0 && !waitOver s 0 (.bxTurn 0 (shapeCmds s 0))
    let p := popShapes (held true) (ctxOf (held true) 0) (shapeCmds (held true) 0)
    let less := fun s f => decide (spilled (shapeWritten (withdrawShapes s 0) (ctxOf s 0) f [(0, [])]) 0 ≤ 4096)
    fits s w = true ∧ shapeCmds s 0 = [] ∧ reads s w true = true ∧ less s (.p w) = true ∧ fits s0 w = true ∧ reads s0 w false = true ∧
      fits (tok true) v = true ∧ shapeCmds (tok true) 0 = [] ∧ spilled (queueShapes (tok true) (ctxOf (tok true) 0) (.p v)) 0 ≤ 4096 ∧
      fits (held true) v = true ∧ ends (held true) = true ∧ fits (held false) v = true ∧ waits (held false) = true ∧
      fits p v = true ∧ shapePopped p 0 = true ∧ reads p v true = true ∧ less p (.p v) = true := by decide +kernel

theorem witness_chunksAreRead :
    let s := rig [13, 4] 3 [0x200, 2]
    let c := ctxOf s 0
    let f := Form.p (pf 0 0 (.back 2) (.back 1) .none [])
    let u := setChunk (setChunk s 0 1 .full) 0 2 .failed
    Ready s f = true ∧ Ready u f = true ∧
      (∀ l ∈ (pathMask s 0).lanes, chunkCount s c f l = 2 ∧ chunkHome s c f l = some (0, 1) ∧ chunkCount u c f l = 2 ∧
        chunkHome u c f l = some (0, 1)) ∧
      chunkAt s 0 1 = .empty ∧ chunkAt u 0 1 ≠ .empty ∧ chunkAt u 0 2 ≠ .empty ∧ lockedBy s 0 1 2 = false := by decide +kernel

theorem witness_TokensAreReadPoppedAndJoined :
    let s := tokened [10] 3 [7] true
    let t := tokened [10] 3 [7] false
    let f := Form.p (pf 0 0 (.back 1) .none .none [])
    let n := nf 0 0 0 0x40 2047 2047 2047 128
    let c := ctxOf s 0
    let u := fun full => tokened [10] 1 [7] full
    let w := pf 0 0 (.back 1) .none .none []
    let k := fun full => carryToks (u full) (ctxOf (u full) 0) (.p w) (tokInputs (.p w)) 1
    let joins := fun full => Ready (u full) (.p w) = true ∧ outsideSpan (u full) (ctxOf (u full) 0) = [] ∧
      (∀ l ∈ (pathMask (u full) 0).lanes, tokVals (u full) (ctxOf (u full) 0) (tokInputs (.p w)) l = [7] ∧
        (laneEntries (k full) (ctxOf (u full) 0) (tokInputs (.p w)) 1 l).map (isFilled (k full)) = [full]) ∧
      spilled (takeAll (k full) (ctxOf (u full) 0) (.p w) .tokAll [] (tokInputs (.p w))) 0 ≤ 4096
    Ready s f = true ∧ popEntries s c f = some [(0, 7), (1, 7)] ∧ isFilled s 7 = true ∧ Ready t f = true ∧
      popEntries t c f = some [(0, 7), (1, 7)] ∧ isFilled t 7 = false ∧ Ready s (.n n) = true ∧
      (popEntries s c (.n n)).map (·.map (·.2)) = some [7, 7] ∧ outsideSpan s c = [] ∧ quotaOk s 0 ∧ s.e.cmds = [] ∧ 7 < s.c.nextId ∧
      auxProducer (.n n) ≠ 1 ∧ (pathMask (u true) 0).lanes = [0] ∧ joins true ∧ joins false := by decide +kernel

theorem witness_MatrixReadsDeliverElementsAndFlags :
    let s := rig [4, 4] 3 [1, 63]
    let t := rig [4, 4] 3 [1, 64]
    let u : State := { s with e := { s.e with lostAcc := [accKey 0 2 (64 + 63) / 2] } }
    let f := fun md => Form.p (pf 8 md (.imm 2) (.back 2) (.back 1) [])
    let col := fun s l => zx 32 (src s (ctxOf s 0) (f 0) 2 .i32 false l)
    let fits := fun s => Ready s (f 0) = true ∧ (pathAt s 0).mxIds = none ∧ s.e.cmds = [] ∧ tilePresent s 0 2 = true ∧ tilePresent s 0 3 = true
    fits s ∧ Ready s (f 1) = true ∧ fits t ∧ modOf (f 1) < 3 ∧ formTy (ctxOf s 0) (f 0) ≠ .f64 ∧
      (∀ l ∈ (pathMask s 0).lanes, col s l = 63 ∧ lostElem s 0 2 false (64 + 63) = false) ∧ (∃ l ∈ (pathMask t 0).lanes, col t l = 64) ∧
      fits u ∧ (∀ l ∈ (pathMask u 0).lanes, col u l = 63) ∧ lostElem u 0 2 false (64 + 63) = true := by decide +kernel

theorem witness_KeysKeepOrderAndSplitWordsTellStrands :
    let s := rig [4, 8] 3 [0x80000000, 0xFF800000]
    let i := Form.p (pf 0 4 (.back 2) .none .none [])
    let f := Form.p (pf 0 6 (.back 1) .none .none [])
    Ready s i = true ∧ modOf i % 4 < 3 ∧ modOf i < 8 ∧ modOf i % 4 = 0 ∧ isInt (keyTy (ctxOf s 0) i) = true ∧
      Ready s f = true ∧ modOf f < 8 ∧ modOf f % 4 = 2 ∧ isFloat (keyTy (ctxOf s 0) f) = true := by decide +kernel

theorem witness_PlaneInstructionsActForTheHolder :
    let s0 := rig [4, 5] 3 [255, 65535]
    let s := setPlane s0 0 255 { planeZero with holder := some 0 }
    let t := rig [4, 5] 3 [256, 1]
    let f := Form.p (pf 0 0 (.back 2) (.back 1) (.imm 0) [])
    let id := fun s => zx 32 (src s (ctxOf s 0) f 0 .i32 false (firstLane s 0))
    let deep : State := { s with e := { s.e with bxq := [(0, { hw := [], ring := List.replicate 4097 0 })] } }
    let used := fun s => spilled ((pathMask s 0).lanes.foldl (fun u l =>
      issueBid f (ctxOf s 0) (id s) s.c.nextId u l (src s (ctxOf s 0) f 1 .i64 false l) []) (takeId s)) 0
    Ready s f = true ∧ (pathMask s 0).lanes ≠ [] ∧ id s = 255 ∧ (planeAt s 0 255).holder = some (ctxOf s 0).ctx ∧
      outsideSpan s (ctxOf s 0) = [] ∧ quotaOk s 0 ∧ zx 32 (src s (ctxOf s 0) f 1 .i32 false (firstLane s 0)) = 65535 ∧
      Ready t f = true ∧ id t = 256 ∧ outsideSpan t (ctxOf t 0) = [] ∧ Ready s0 f = true ∧ (planeAt s0 0 255).holder ≠ some 0 ∧
      used s ≤ 4096 ∧ Ready deep f = true ∧ id deep = 255 ∧ (planeAt deep 0 255).holder = some 0 ∧ outsideSpan deep (ctxOf deep 0) = [] ∧
      4096 < used deep := by decide +kernel

/-- A swap of path `pid` in cluster `cluster` of die 0. -/
def swapOf (pid cluster : Nat) (got : Option (List (Nat × Word))) : Swap :=
  { die := 0, ctx := 0, ident := 5, num := 0, cluster := cluster, pid := pid, vals := [(0, 1), (1, 2)], got := got }

theorem witness_SwapsExchangeAndYieldsReorder :
    let s := rig [4, 4] 3 [1, 255]
    let t : State := { s with e := { s.e with swaps := [swapOf 0 0 (some [(0, 9)])] } }
    let u := rig [4, 4] 3 [1, 256]
    let a := swapOf 0 0 none
    let b := swapOf 98304 1 none
    let x := swapOf 1024 0 none
    let two : State := { s with e := { s.e with swaps := [] ++ a :: ([x] ++ b :: []) } }
    let f := Form.p (pf 0 0 (.back 2) (.back 1) .none [])
    let id := fun s => zx 32 (src s (ctxOf s 0) f 1 .i32 false (firstLane s 0))
    let v := setPath s 1 { pathZero with mask := 4, pc := .word (VPC.of 0 1), slotIx := none }
    let w := updPath v 0 (fun p => { p with wait := some .join })
    let only := fun (s : State) => (pathsOf s 0).map (fun x => (x.1, x.2.slotIx.isSome, x.2.focus, x.2.parked)) = [(0, true, false, false), (1, false, false, false)]
    Ready s f = true ∧ s.e.swaps.find? (fun y => y.pid == 0) = none ∧ id s = 255 ∧ Ready u f = true ∧ id u = 256 ∧
      Ready t f = true ∧ (t.e.swaps.find? (fun y => y.pid == 0)).bind (·.got) = some [(0, 9)] ∧ Sound two = true ∧
      two.e.swaps.map (·.pid) = [0, 1024, 98304] ∧ swapsMeet a b = true ∧ swapsMeet a x = false ∧ Sound v = true ∧ only v ∧
      isReady v 0 (pathAt v 0) = true ∧ Sound w = true ∧ only w ∧ isReady w 0 (pathAt w 0) = false := by decide +kernel

/-- `rig` with a barrier word at 0x40, and both lanes in its set with what they last arrived in. -/
def barred (w : Nat) (arr : Option (Option (BitVec 16))) : State :=
  let s := scrWrite (rig [13, 4] 3 [0x40, 6]) 0 0x40 8 w
  match arr with
  | none => s
  | some a => [0, 1].foldl (fun s l => setThread s l { threadAt s l with bars := [{ word := 0x40, arr := a }] }) s

theorem witness_BarrierWordsCountTheirMembers :
    let f := Form.p (pf 0 0 (.back 2) (.back 1) .none [])
    let w := 5 * 2 ^ 32 + 4 * 2 ^ 16 + 1
    let fits := fun s => Ready s f = true ∧ (∀ l ∈ (pathMask s 0).lanes, (src s (ctxOf s 0) f 0 .ptrS false l).setWidth 32 = (0x40 : BitVec 32)) ∧
      scrHome s 0 0x40 8 = some (0, 0x40) ∧ lockedBy s 0 0 1 = false ∧ barMem (scrRead s 0 0x40 8) = 4 ∧ barArr (scrRead s 0 0x40 8) = 1 ∧
      barPh (scrRead s 0 0x40 8) = 5 ∧ (warpAt s 0).inflight = [] ∧ (pathMask s 0).lanes.length = 2
    let bars := fun s l => (threadAt s (threadKey 0 l)).bars.map (·.arr)
    let s := barred w none
    let t := barred w (some none)
    fits s ∧ (∀ l ∈ (pathMask s 0).lanes, bars s l = []) ∧ fits t ∧ ∀ l ∈ (pathMask t 0).lanes, bars t l = [none] := by decide +kernel

theorem witness_BarrierWaitsEndWithThePhase :
    let f := Form.p (pf 0 0 (.back 2) (.back 1) .none [])
    let fits := fun s => Ready s f = true ∧ (∀ l ∈ (pathMask s 0).lanes, (src s (ctxOf s 0) f 0 .ptrS false l).setWidth 32 = (0x40 : BitVec 32)) ∧
      scrHome s 0 0x40 8 = some (0, 0x40) ∧ lockedBy s 0 0 1 = false ∧ (warpAt s 0).inflight = [] ∧
      (∀ l ∈ (pathMask s 0).lanes, (src s (ctxOf s 0) f 1 .i32 false l).setWidth 16 = (6 : BitVec 16))
    let w := fun s => scrRead s 0 0x40 8
    let bars := fun s l => (threadAt s (threadKey 0 l)).bars
    let wait := fun (s : State) q => updPath s 0 (fun p => { p with wait := some (.barrier [(0, 0x40, 6), q]) })
    let s := barred (7 * 2 ^ 32) none
    let t := barred (6 * 2 ^ 32) none
    let u := barred (6 * 2 ^ 32 + 4 * 2 ^ 16 + 2) (some none)
    let y := updPath (barred (7 * 2 ^ 32) (some (some 6))) 0 (fun p => { p with syncWait := true })
    let m := rig [13, 4] 3 [0x44, 6]
    fits s ∧ barPh (w s) = 7 ∧ fits t ∧ barPh (w t) = 6 ∧ barDef (w t) = false ∧ fits u ∧ (pathAt u 0).syncWait = false ∧ barMem (w u) = 4 ∧
      barArr (w u) = 2 ∧ (∀ l ∈ (pathMask u 0).lanes, bars u l = [{ word := 0x40, arr := none }]) ∧
      fits y ∧ (pathAt y 0).syncWait = true ∧ barPh (w y) = 7 ∧ (∀ l ∈ (pathMask y 0).lanes, bars y l = [{ word := 0x40, arr := some 6 }]) ∧
      Sound (wait s (0, 0x40, 6)) = true ∧ barPh (w (wait s (0, 0x40, 6))) ≠ 6 ∧
      Sound (wait s (0, 0x48, 0)) = true ∧ barPh (scrRead (wait s (0, 0x48, 0)) 0 0x48 8) = 0 ∧
      Ready m f = true ∧ (pathAt m 0).syncWait = false ∧ (warpAt m 0).inflight = [] ∧ (0x44 : BitVec 32).toNat % 8 ≠ 0 := by decide +kernel

theorem witness_DebuggerInstructionsObserveAndReport :
    let s := rig [4] 3 [0]
    let t := setCtx (setLaunch s 0 { launchAt s 0 with record := launchRecord 0xFFFF 4 }) 0 { ctxAt s 0 with debugger := true }
    let mid : State := { setPath t 1 { pathZero with mask := 4, pc := .word (VPC.of 0 1) } with
      e := { t.e with swaps := [{ die := 0, ctx := 0, ident := 5, num := 0, cluster := 0, pid := 1, vals := [(2, 1)], got := some [(2, 9)] }] } }
    let b := next s (exec (.st (access 0 2)) (rig [11, 4, 4] 3 [0x10004, 5, 6]))
    let u : State := { b with c := { b.c with issue := s.c.issue } }
    let f := fun md v => Form.p (pf 0 md (.imm v) .none .none [])
    Ready s (f 0 0) = true ∧ debugged s 0 = false ∧ Ready t (f 0 0) = true ∧ debugged t 0 = true ∧
      (t.x.paths.all (fun p => !midBundle t p.1)) = true ∧ Ready mid (f 0 0) = true ∧ debugged mid 0 = true ∧ midBundle mid 1 = true ∧
      (mid.x.paths.find? 1).isSome = true ∧ (warpAt mid 0).gang = 0 ∧ (dieAt s 0).mfRing = none ∧
      Ready s (f 1 2) = true ∧ Ready s (f 0 3) = true ∧ Ready u (f 0 0) = true ∧ (warpAt u 0).inflight ≠ [] ∧ (warpAt s 0).inflight = [] := by
  decide +kernel

theorem witness_NativeMoversMoveLanesAndBits :
    let s0 := setSreg (rig [4] 3 [0]) 0 5 0x10000
    let s := updPath s0 0 (fun p => { p with s126 := 0x20000 })
    let t := updPath s0 0 (fun p => { p with s126 := 0x70000 })
    let w := nf 0 4 0 6 1541 2047 2047 1
    let c := ctxOf s 0
    let area := fun s j l => inStackArea s 0 (spillPa s c w (1 + j) l) 4
    Ready s (.n w) = true ∧ Ready s (.n { w with md := 1 }) = true ∧ Ready t (.n w) = true ∧
      (∀ l ∈ (pathMask s 0).lanes, l < Config.lanes c.die ∧ area s 0 l = true ∧ area s 1 l = true ∧ area t 0 l = false) ∧
      (∀ l ∈ (pathMask s 0).lanes, ∀ j ∈ [0, 1], (match entryChk s c (nativeVal s c 0 w.sa.toNat .i64 +
          BitVec.ofNat 64 ((1 + j) * (Config.lanes c.die * 4) + l * 4)) 4 with | .loc (.mem _ _) => true | _ => false) = true) ∧
      s.m.lines = [] := by decide +kernel

/-- The path of `rig` at bundle 0 of the translation of its function, with what the first two vector registers of lanes 0 and 1
hold. -/
def bundled (b0 b1 : Lane32) : State :=
  let s := updPath (rig [4] 3 [0]) 0 (fun p => { p with pc := .bundle oneKey 0 })
  setVreg (setVreg s 0 6 0 b0) 0 6 1 b1

/-- The path issues `w` at that bundle, with lanes in its mask. -/
def bundleReady (s : State) (w : NForm) : Bool :=
  Ready s (.n w) && s.c.issue.isSome && (pathAt s 0).pc == .bundle oneKey 0 && (pathAt s 0).mask != 0

/-- `bundled` within a region that diverged in record 9, whose join is this bundle. -/
def inRegion : State :=
  let s := updPath (bundled 1 0) 0 (fun p => { p with split := some 9 })
  { s with x := { s.x with splits := [(9, { warp := 0, parent := none, depth := 0, join := .bundle oneKey 0 })] } }

theorem witness_NativeControlMovesThePath :
    let w := nf 0 3 0 0 6 0 1 0
    let s := bundled 1 0
    let fits := fun s => bundleReady s w = true
    let taken := fun s l => (nativeVal s (ctxOf s 0) l 6 .i1).getLsbD 0
    let b := updWarp s 0 (fun k => { k with ldc := 3 })
    fits s ∧ taken s 0 = true ∧ taken s 1 = false ∧ fits (bundled 1 1) ∧ taken (bundled 1 1) 0 = true ∧ taken (bundled 1 1) 1 = true ∧
      fits (bundled 0 0) ∧ taken (bundled 0 0) 0 = false ∧ taken (bundled 0 0) 1 = false ∧ fits inRegion ∧
      atJoin inRegion (pathAt inRegion 0) = true ∧ atJoin s (pathAt s 0) = false ∧ countersAt (warpAt s 0) 0 0 = true ∧ fits b ∧
      countersAt (warpAt b 0) 1 0 = false ∧ (imageAt s 0 (baseKey oneKey)).isSome = true ∧ (readSreg s 0 127).toNat % 4 = 0 ∧
      (readSreg s 0 127).toNat + 16 ≤ stackSize s 0 ∧ stackSize s 0 < (readSreg s 0 127).toNat + (16 + 4 * 4095) := by decide +kernel

theorem witness_nativeCallsAndReturns :
    let w := nf 0 3 0 0 6 0 1 0
    let s := bundled 1 0
    let d := updWarp inRegion 0 (fun k => { k with divCalls := [(4, 0)] })
    let r := updPath s 0 (fun p => { p with s125 := linkOf 0 1 })
    let fits := fun s => bundleReady s w = true
    fits s ∧ (0 : Nat) < (ctxOf s 0).module.funcs.length ∧ (funcAt (ctxOf s 0).module 0).fflags.getLsbD 2 = false ∧
      callHeld s 0 = false ∧ fits d ∧ callHeld d 0 = true ∧ (imageAt s 0 (calleeKey s 0 0)).isSome = true ∧
      (imageAt d 0 (calleeKey d 0 0)).isSome = true ∧ (ctxOf s 0).module.funcs.length ≤ 1 ∧ readSreg s 0 125 = rootLink ∧ fits r ∧
      readSreg r 0 125 ≠ rootLink ∧ (imageAt r 0 (calleeKey r 0 (linkFn (readSreg r 0 125)))).isSome = true := by decide +kernel

theorem witness_aPathForks :
    let s := bundled 1 0
    let f := fun m => { s with c := { s.c with issue := s.c.issue.map (fun i => { i with fork := some (m, .bundle oneKey 5, .bundle oneKey 9) }) } }
    let forks := fun m => (Ready (f m) (.n (nf 0 3 0 0 6 0 1 0)) = true ∧ (f m).c.issue.map (fun i => i.trap.isNone && !i.ended) = some true ∧
      (f m).c.issue.bind (·.fork) = some (m, .bundle oneKey 5, .bundle oneKey 9))
    (pathAt s 0).mask = 3 ∧ forks 3 ∧ forks 1 ∧ (f 1).x.paths.find? (freePath (f 1) 0) = none := by decide +kernel

/-- A bundle of three slots that do nothing, and the translation that is this bundle, with one record before it. -/
def idle : Bundle :=
  { kind := 0, stop := 0, g0 := { reg := 0, bit := 0, pol := false }, g1 := { reg := 0, bit := 0, pol := false },
    s0 := .bnop (nf 0 0 0 2047 2047 2047 2047 0), s1 := .bnop (nf 1 0 0 2047 2047 2047 2047 0),
    s2 := .bnop (nf 2 0 0 2047 2047 2047 2047 0) }
def idleBare : TImage :=
  { key := oneKey, bundled := true, bundles := [(encodeBundle idle).getD 0, (encodeBundle idle).getD 0], literals := [], frameW := 0,
    points := [{ bidx := 0, kind := 0, vpc := VPC.of 0 1, locs := [] }], check := 0, line := 0 }
def idleImage : TImage := { idleBare with check := crc64 (imageBody idleBare) }

theorem imageBody_check (t : TImage) (c : Word) : imageBody { t with check := c } = imageBody t := rfl

theorem witness_PathsIssueByAge :
    let s0 := rig [4] 3 [0]
    let s : State := { s0 with c := { s0.c with issue := none } }
    let slow : State := { s with c := { s.c with pkgThrottle := true, cycle := 1 } }
    let bare := fun ms => setCluster s 0 { clusterZero with misses := ms }
    let m : MissRec := { key := oneKey, waiters := [0], accepted := some 0, due := 0 }
    Sound s = true ∧ s.c.issue = none ∧ throttled s 0 = false ∧ 0 ∉ s.c.tried ∧ (s.x.paths.find? 0).isSome = true ∧
      isReady (settleWaits s 0) 0 (pathAt (settleWaits s 0) 0) = true ∧ throttled State.reset 0 = false ∧ State.reset.x.paths = [] ∧
      Sound slow = true ∧ slow.c.issue = none ∧ throttled slow 0 = true ∧
      Sound (bare []) = true ∧ (bare []).h.clusters.risingFrom 0 = true ∧ imageAt (bare []) 0 oneKey = none ∧ (clusterAt (bare []) 0).misses = [] ∧
      (clusterAt (bare [m]) 0).misses ≠ [] ∧ imageAt (bare [m]) 0 oneKey = none ∧ (imageAt s 0 oneKey).isSome = true ∧
      s.h.clusters.risingFrom 0 = true := by decide +kernel

/-- An image whose CHECK is the code of its bytes is good. -/
theorem imageGood_check (t : TImage) : imageGood { t with check := crc64 (imageBody t) } = true := by
  rw [imageGood, imageBody_check]
  exact beq_self_eq_true _

theorem idle_stored (s : State) (h : (dieAt s 0).store = [idleImage]) : storeImage s 0 oneKey = some idleImage := by
  unfold storeImage
  rw [h, List.find?_cons_of_pos]
  show (oneKey == oneKey && imageGood { idleBare with check := crc64 (imageBody idleBare) }) = true
  rw [imageGood_check]; decide

/-- Path 0 waits for the translation of function 0, which the die's store holds. -/
def stored : State :=
  let s0 := rig [4] 3 [0]
  let s := updPath { s0 with c := { s0.c with issue := none } } 0 (fun p => { p with wait := some (.miss oneKey) })
  setDie (setCluster s 0 { clusterZero with misses := [{ key := oneKey, waiters := [0], accepted := some 0, due := 0 }] }) 0
    { dieZero 0 with store := [idleImage] }

/-- Path 0 waits for the repair of bundle 0, which is not one. -/
def brokenImage : TImage := { idleImage with bundles := [0, 0], check := 0 }
def broken : State :=
  let s0 := rig [4] 3 [0]
  let s := updPath { s0 with c := { s0.c with issue := none } } 0 (fun p => { p with pc := .bundle oneKey 0, wait := some (.repair 0 500) })
  setDie (setCluster s 0 { clusterZero with cache := [brokenImage] }) 0 { dieZero 0 with store := [idleImage] }

/-- The translation that is too long to have has no witness of its own: the kernel would have to run the translation of a MiB. -/
theorem witness_PathsIssueByAgeAndWaitForTranslations :
    (Sound stored = true ∧ stored.h.clusters.risingFrom 0 = true ∧
      ((clusterAt stored 0).misses.find? (fun x => x.key == oneKey)).map (·.waiters) = some [0] ∧
      findLines (clusterAt stored 0).cache (imgLines idleImage) = some 0 ∧ (pathAt stored 0).wait = some (.miss oneKey)) ∧
    storeImage stored 0 oneKey = some idleImage ∧
    (Sound broken = true ∧ broken.h.clusters.risingFrom 0 = true ∧ imageAt broken 0 oneKey = some brokenImage ∧
      (clusterAt broken 0).failedKeys = [] ∧
      broken.x.paths.filter (fun p => clusterOf (p.1 / 1024) == 0 && pathKey broken p.1 == oneKey) = [(0, pathAt broken 0)] ∧
      (pathAt broken 0).pc = .bundle oneKey 0 ∧ (pathAt broken 0).wait = some (.repair 0 500) ∧ (pathAt broken 0).frames = [] ∧
      brokenImage.points.find? (fun x => x.bidx == 0 && x.kind == 0) = some { bidx := 0, kind := 0, vpc := VPC.of 0 1, locs := [] } ∧
      bundleLegal idleImage 0 = true ∧ bundleLegal brokenImage 0 = false ∧
      findLines ((clusterAt broken 0).cache.filter (fun x => x.key != oneKey)) (imgLines idleImage) = some 0) ∧
    storeImage broken 0 oneKey = some idleImage :=
  ⟨by decide +kernel, idle_stored _ rfl, by decide +kernel, idle_stored _ rfl⟩

/-- `rig` on a launch of some flags, with a federated fault 7 and a translation fault 8 that its path and a command wait for, the
owner's tables, and spine links that have reported or not. -/
def faulted (fl : Nat) (up : Bool) (exports : SMap ExportRec) : State :=
  let s := mapIn 1 (rig [4] 1 [5])
  let s1 := setLaunch s 0 { launchAt s 0 with record := launchRecord 0xFFFF fl }
  let s2 := setDie (setDie s1 0 { dieAt s1 0 with spineReady := up }) 1 { dieAt s1 1 with spineReady := up }
  let f : QFault := { die := 0, ctx := 0, va := 0x10000, kind := 3, owner := 1, space := 0, waiters := [.path 0, .cmd 40], since := 0 }
  let walk : Walk := { die := 0, ctx := 0, va := 0x10000, core := 0, waiters := [.path 0, .cmd 40], stale := false }
  { s2 with
    m := { s2.m with
      faults := [(7, f), (8, { f with kind := 2, owner := 0 })]
      walks := [(4, walk), (5, { walk with va := 0x20000 }), (6, { walk with stale := true })]
      walkq := [(2, [{ ctx := 0, va := 0x30000, core := 192, who := .cmd 40 }])] }
    e := { s2.e with cmds := [(40, { cmdZero with parked := some 7 })] }
    h := { s2.h with modules := s2.h.modules.ins 1 { moduleZero with die := 1, copies := [64] }, exports := exports } }

theorem witness_QueuedFaultsAreResolvedOrFailed :
    let s := faulted 1 true []
    let t := faulted 0 true [(16384, { live := true, ctx := 64, base := 0x10000, pages := 1, maxrt := 7, gen := 1, imports := [] })]
    let sound := fun (s : State) => decide (s.m.faults.risingFrom 0 = true ∧ s.m.walks.risingFrom 0 = true)
    let walk := fun n => (s.m.walks.find? n).map (fun w => (cachedWalk s w.ctx w.va, w.stale))
    let f := fun s => (faultAt s 0 7).map (fun f => (f.kind, (faultGangs s f).map (fun g => moves s f g), (installPeer (runsRemotely s f) f).isSome))
    sound s = true ∧ walk 4 = some (.leaf 0x5F 16, false) ∧ walk 5 = some (.fault 2 0, false) ∧ (walk 6).map (·.2) = some true ∧
      faultFits s 0 0x20000 = true ∧ faultFor s 0 0x20000 = none ∧ ((s.m.walkq.getD [] 2).filter (stillWaits s)).length = 1 ∧
      (∀ cl ∈ [0, 1, 3], (s.m.walkq.getD [] cl).filter (stillWaits s) = []) ∧ s.m.walkRr.getD 3 0 = 3 ∧
      (faultAt s 0 8).map (fun f => (f.kind, walkVa s f.ctx f.va)) = some (2, .leaf 0x5F 16) ∧
      f s = some (3, [true], false) ∧ linked s 0 1 = true ∧ sound t = true ∧ f t = some (3, [false], true) ∧ linked t 0 1 = true ∧
      f (faulted 0 true []) = some (3, [false], false) ∧ linked (faulted 0 false []) 0 1 = false := by decide +kernel

/-- A fault queue that is full. -/
theorem witness_aFullFaultQueue :
    let s := faulted 0 true []
    let f : QFault := { die := 0, ctx := 0, va := 0x10000, kind := 2, owner := 0, space := 0, waiters := [], since := 0 }
    let full : State := { s with m := { s.m with faults := (List.range 4096).map (fun i => (i, f)) } }
    full.m.faults.risingFrom 0 = true ∧ faultFits full 0 0x20000 = false := by decide +kernel

/-- A shape of one dimension: 64 words of 8 bytes. -/
def rowShape : BitVec 1024 := BitVec.ofNat 1024 (1 + 3 * 2 ^ 8 + 5 * 2 ^ 16 + (8 + 64 * 2 ^ 48 + 64 * 2 ^ 64) * 2 ^ 128)

/-- A copy of a row into the scratchpad from virtual address `far`, as command 40 of core 0, that holds the page `leaf`. -/
def copyCmd (far : Word) (leaf : Word) (going : Bool) (units : List Nat) : Cmd :=
  { cmdZero with
    engine := 2, body := .copy .copy rowShape (.scr 0x200) (.virt false far) true [0] 0 0, fills := [50], started := going,
    doneChunks := units, pages := if going then [{ page := 1, lg := 16, leaf := leaf }] else [],
    pops := if going then [] else [.queue 1] }

/-- The rig with a command, queued while it has not started behind a filled entry, and its lock. -/
def copying (k : Cmd) : State :=
  let s := setPair (setEntry (setCmd (rig [4] 1 [5]) 40 k) 45 { entryZero with filled := true }) 0 1 2 { hw := [45], ring := [] }
  { s with
    e := { s.e with
      locks := [{ core := 0, lo := 1, n := 1, cmd := 40 }]
      bxq := if k.started then [] else [(0, { hw := [40], ring := [] })] }
    c := { s.c with nextId := 60 } }

theorem witness_BlockCommandsStartMoveAndComplete :
    let fits := fun s => Sound s = true ∧ s.e.cmds.risingFrom 0 = true ∧ s.d.frozen = []
    let s := copying (copyCmd 0x10000 0 false [])
    let k := copyCmd 0x10000 0x5F true []
    let t := copying k
    let bad := copyCmd 0x10000 0x5B true []
    let p := copying bad
    let noted := copying { k with faults := [(0x30000, 2, 0)] }
    let o : CopyOp := { kind := .copy, shape := rowShape, coords := [0], toNear := true, near := .scr 0x200, far := .virt false 0x10000, value := 0, list := 0 }
    fits s ∧ (qIds (s.e.bxq.getD queueZero 0)).head? = some 40 ∧ (s.e.cmds.find? 40).map isShape = some false ∧
      (s.e.cmds.filter (fun c => c.2.engine == 2 && c.2.core == 0 && c.2.started && !isShape c.2)).length < 16 ∧
      popsReady s 0 2 [.queue 1] = true ∧
      fits p ∧ (runningCmd p 0 40).bind copyOf = some o ∧ faultFits p 0 0x10000 = true ∧ bad.parked = none ∧
      ((unitsLeft bad o).findSome? (unitFault p bad o)).map (fun x => (x.va, x.chk)) = some (0x10000, .bad (4 + 5) 0) ∧
      fits noted ∧ (runningCmd noted 0 40).bind copyOf = some o ∧ faultFits noted 0 0x30000 = true ∧
      fits t ∧ (runningCmd t 0 40) = some k ∧ copyOf k = some o := by decide +kernel

theorem witness_aUnitMoves :
    let fits := fun s => Sound s = true ∧ s.e.cmds.risingFrom 0 = true ∧ s.d.frozen = []
    let k := copyCmd 0x10000 0x5F true []
    let t := copying k
    let e := copying (copyCmd 0x10000 0x5F true [0])
    let o : CopyOp := { kind := .copy, shape := rowShape, coords := [0], toNear := true, near := .scr 0x200, far := .virt false 0x10000, value := 0, list := 0 }
    let near := fun (x : Elem) => 0x200 + x.near
    let es := unitOf t k o 0
    nearHome t k o = some (0, 0x200) ∧ unitCount o = 1 ∧ storesDone t k = true ∧ readsLocked t 40 k o 0 = false ∧ inOrder o = false ∧
      unitReplies t 40 0 = [] ∧ (∀ x ∈ es, (match x.chk with | .loc (.mem a d) => !badData t (.mem a d) 8 | _ => false) = true) ∧
      es.Pairwise (fun x y => near x + 8 ≤ near y ∨ near y + 8 ≤ near x) ∧
      fits e ∧ (runningCmd e 0 40).bind copyOf = some o ∧ unitsLeft (copyCmd 0x10000 0x5F true [0]) o = [] := by decide +kernel

theorem witness_PacketsMergeAndFlowsChooseRoutes :
    let a : NetPkt := { accs := [(0, 1, 0)], addr := 64, op := .red 0, ty := .i32, v := 5, merge := true, entering := false, flow := 0, route := none, vc := 0 }
    let b := { a with entering := true }
    let q := fun (b : NetPkt) => { State.reset with m := { State.reset.m with
      routers := [(143, [a, b])], flows := [(flowOf 0 1 47 false, { busy := 1, fixed := false, via := none }), (flowOf 0 47 47 false, { busy := 1, fixed := true, via := none })] } }
    let fl := fun x => ((q b).m.flows.find? (flowOf 0 x 47 false)).map (·.fixed)
    (q b).m.routers.getD [] (0 * 144 + 143) = [] ++ [a] ++ [b] ∧
      (q { b with op := .red 1 }).m.routers.getD [] (0 * 144 + 143) = [] ++ [a, { b with op := .red 1 }] ∧
      flowOf 0 1 47 false < flowOf 0 47 47 false ∧ fl 1 = some false ∧ fl 47 = some true := by decide +kernel

/-- The rig with MX command 40 of core 0 and what its pool holds. -/
def matrixOf (body : CmdBody) (fail : Bool) (steps pool : Nat) : State :=
  let s := setCmd (rig [4] 1 [5]) 40 { cmdZero with
    engine := 3, body := body, fills := [50], stepFail := fail, steps := steps, mode := 0x12861 }
  let s1 := setCluster s 0 { clusterAt s 0 with pool := pool }
  { s1 with c := { s1.c with nextId := 60 } }

/-- A step command of one step on tile 0, raw or with its tags compared. -/
def oneStep (raw : Bool) : CmdBody := .mxSteps 0 raw false 0x2000 0x4000 0 1 0 0 0

/-- A step's charge is within the pool's 4096 (R254). -/
theorem charge_fits (s : State) (core : Nat) (w : ReadyStep) (h : readyStep s core = some w) : w.charge ≤ 4096 := by
  have time : ∀ c d, stepTime c d ≤ 4096 := by intro c d; cases c <;> simp [stepTime] <;> split <;> omega
  unfold readyStep at h
  split at h
  · cases h
  · split at h
    · split at h
      · cases h
      · cases h
        refine Nat.div_le_of_le_mul ((Nat.mul_le_mul (?_ : _ ≤ 48) (time _ _)).trans ?_)
        · omega
        · decide
    · cases h

theorem witness_MatrixCommandsRunAndComplete :
    let fits := fun s => Sound s = true ∧ s.e.cmds.risingFrom 0 = true ∧ s.e.acc.risingFrom 0 = true ∧ s.d.frozen = []
    let ready := fun s => readyStep s 0
    let starts := fun s => (s.e.cmds.find? 40).map (fun k => mxMayStart s 40 k)
    let raw := matrixOf (oneStep true) false 0 4096
    let dry := matrixOf (oneStep true) false 0 0
    let tag := matrixOf (oneStep false) false 0 4096
    fits raw ∧ (ready raw).isSome = true ∧ fits dry ∧
      (ready dry).map (fun w => decide (0 < w.charge)) = some true ∧ fits tag ∧ (ready tag).isSome = true ∧
      slotTag tag 0 0x2000 ≠ fmtTag (afmt 0x12861) ∧ lostRegion raw 0 0x2000 8192 = false ∧ lostRegion raw 0 0x4000 8192 = false ∧
      (mxAt raw 0).busy ≤ raw.c.cycle ∧ fits (matrixOf (oneStep true) true 0 0) ∧ fits (matrixOf (oneStep true) false 1 0) ∧
      starts (matrixOf (.mxZero 7) false 0 0) = some true ∧ starts (matrixOf (.mxLd 0 false true 0) false 0 0) = some true ∧
      starts (matrixOf (.mxLd 0 false false 0) false 0 0) = some true ∧ slotTag tag 0 0 ≠ 0x12 ∧
      starts (matrixOf (.mxStore 0 false 0) false 0 0) = some true ∧ scrHome raw 0 0 (4096 * tyBytes (sfmtTy 0x12861)) = some (0, 0) ∧
      starts (matrixOf (.mxMode 0x12861 0) false 0 0) = some true := by decide +kernel

/-- What a command meets of data that cannot be corrected, and the tiles of an N-die core. -/
theorem witness_lostDataAndTiles :
    let raw := matrixOf (oneStep true) false 0 4096
    let scr : State := { raw with e := { raw.e with lostScr := [0x2000 / 8] } }
    let acc : State := { raw with e := { raw.e with lostAcc := [0] } }
    let n := setCmd raw 41 { cmdZero with engine := 3, core := 1152, started := true, body := .mxSteps 4 true false 0x2000 0x4000 0 1 0 0 0 }
    lostRegion scr 0 0x2000 8192 = true ∧ (readyStep scr 0).isSome = true ∧ lostTiles acc 0 [0] = true ∧ (readyStep acc 0).isSome = true ∧
      Config.dieKind (dieOfCore 1152) = 1 ∧
      (mxAt n 1152).swapped.length = 4 ∧ tileInUse n 1152 4 = true ∧ tileInUse n 1152 0 = false := by decide +kernel

/-- A bid of lane 0 on identifier 8 that fills entry 50. -/
def bidOf (id : Nat) (key : Word) : Bid :=
  { id := id, group := 1, die := 8, ident := 8, key := key, gidx := 0, warp := 0, lane := 0, gang := 0, core := 0, rel := false,
    after := 0, pops := [], fills := [50 + id], arrived := true, frozen := false }

/-- The reset package in its selection phase, with a gate on identifier 8 of the F-die and two bids there. -/
def contested (sel : Bool) (gate : BitVec 16) : State :=
  let s := setPlane State.reset 8 8 { planeZero with holder := some 0, gate := gate }
  let d : Delivery := { die := 8, ident := 8, key := 9, wdie := 8, round := 0, winner := some 1 }
  { s with pl := { s.pl with
    selecting := sel, prios := List.replicate 8 30, bids := [bidOf 0 3, { bidOf 1 9 with frozen := !sel }], deliveries := if sel then [] else [d], revoking := [({ die := 8, ctx := 0, tag := 1 }, 8)] } }

theorem witness_ContestsSelectHoldAndDeliver :
    let fits := fun s => SMap.wf 0 s.pl.ptrs = true ∧ s.e.cmds.risingFrom 0 = true
    let s := contested true 0
    let s1 := arriveBids s
    let prio := nth s.pl.prios 0 0
    let g := contested true 3
    let g1 := arriveBids g
    let gprio := nth g.pl.prios 0 0
    let late : State := { State.reset with c := { State.reset.c with cycle := 76800 } }
    fits State.reset ∧ State.reset.pl.selecting = false ∧ fits s ∧ s.pl.selecting = true ∧ planeDies s1 = [8] ∧
      selected s1 8 0 prio = 8 ∧ (∃ b ∈ s1.pl.bids, b.arrived = true ∧ b.die ∈ planeDies s1 ∧ b.ident = 8) ∧
      (∀ d ∈ planeDies s1, holdsBack s1 d (selected s1 d 0 prio) = false) ∧ fits g ∧ g.pl.selecting = true ∧
      (∃ d ∈ planeDies g1, holdsBack g1 d (selected g1 d 0 gprio) = true) ∧
      ((contested false 0).pl.deliveries.filter (fun x => x.die == 8)).length = 1 ∧
      (∃ b ∈ (contested false 0).pl.bids, b.frozen = true ∧ b.die = 8 ∧ b.ident = 8) ∧
      (dieAt State.reset 0).inReset = false ∧ ptrAt State.reset 8 0 < 32 ∧ (∃ b ∈ s.pl.bids, b.die = 8 ∧ b.ident = 8 ∧ b.frozen = false) ∧
      (dieAt State.reset 7).pReady = false ∧ State.reset.c.cycle < (dieAt State.reset 7).bornAt + 76800 ∧ fits late ∧
      (dieAt late 7).inReset = false ∧ (dieAt late 7).pReady = false ∧ (dieAt late 7).bornAt + 76800 ≤ late.c.cycle := by decide +kernel

/-- The reset package with a hop's record and the commands it names. -/
def hopped (h : Hop) (cmds : SMap Cmd) : State := { setHop State.reset 7 h with e := { State.reset.e with cmds := cmds } }

theorem witness_TurnsMoveStrandsAndComplete :
    let k : Cmd := { cmdZero with engine := 2, body := .turn 7 0 .ccw 0xFFFF, fills := [50], started := true }
    let s := hopped { hopZero with down := false, q0 := [(40, 0)] } [(40, k)]
    let s0 := refillTurns s 7
    let h := hopAt s0 7
    let t := hopped { hopZero with down := false, turning := some (40, 1, [0, 1]) } [(40, k)]
    let r := hopped { hopZero with down := false, retrain := some [{ die := 0, ctx := 0, tag := 1 }] } []
    s.e.cmds.risingFrom 0 = true ∧ h.turning = none ∧ h.retrain = none ∧ h.down = false ∧ h.st.length = 16 ∧ h.dirs.length = 16 ∧
      selectEnd s0 7 = some 0 ∧ h.q0 = [(40, 0)] ∧ bodyOf s0 40 = some (.turn 7 0 .ccw 0xFFFF) ∧ t.e.cmds.risingFrom 0 = true ∧
      (hopAt t 7).turning = some (40, 1, [0, 1]) ∧ (hopAt t 7).retrain = none ∧ (hopAt t 7).st.length = 16 ∧ (t.e.cmds.find? 40).isSome = true ∧
      (hopAt r 7).turning = none ∧ (hopAt r 7).retrain.isSome = true := by decide +kernel

/-- A read request of die 0 to die 2's export 5, on its way clockwise with tracker 9. -/
def aPacket : Pkt :=
  { kind := 0, dst := 2, src := 0, hops := 0, dir := .cw, vc1 := false, esc := false, flits := 1, trk := 9, ctx := 0, tenant := 0, exp := 5,
    gen := 1, off := 0x40, ord := 0, route := 0, body := .read 64, gtd := 0, errs := 1 }

/-- The rig with buffers, injection queues and a tracker of path 0 that waits for packet 9. -/
def ringed (bufs : SMap HopBuf) (inject : SMap (List Pkt)) : State :=
  let s := setHop (setHop (rig [4] 1 [5]) 0 { hopZero with down := false }) 1 { hopZero with down := false }
  let t : Tracker := { die := 0, who := .path 0, lane := 0, sent := 0, ctx := 0, va := 0x10000, reply := none }
  { s with r := { s.r with bufs := bufs, inject := inject, trackers := [(9, t)] } }

theorem witness_PacketsCrossHopsOrAreLost :
    let esc := { aPacket with esc := true }
    let ill := { aPacket with errs := 2 }
    let c := ringed [(bufKey 0 .cw, { bufZero with pool := [aPacket, ill] })] []
    let s := ringed [(bufKey 0 .cw, { bufZero with pool := [aPacket], escape := [esc] })] [(injectKey 0 .cw 3, [aPacket]), (injectKey 1 .cw 0, [aPacket])]
    sourceHead s 0 .cw 5 = some aPacket ∧ (hopAt s 0).down = false ∧ workingIn (hopAt s 0) .cw ≠ 0 ∧ headFits s 0 .cw 5 = true ∧
      sourceHead s 1 .cw 0 = some esc ∧ sourceHead s 1 .cw 1 = some aPacket ∧ headFits s 1 .cw 0 = true ∧ headFits s 1 .cw 1 = true ∧
      (∀ n, n < 6 → headFits s 4 .ccw n = false) ∧ (hopAt s 0).st.length = 16 ∧
      (bufAt s (bufKey 0 .cw)).pool.find? corrupted = none ∧ (bufAt s (bufKey 0 .cw)).pool.head? = some aPacket ∧
      (bufAt s (bufKey 0 .cw)).escape.find? corrupted = none ∧ (bufAt s (bufKey 0 .cw)).escape.head? = some esc ∧
      (bufAt c (bufKey 0 .cw)).pool.find? corrupted = some ill ∧ s.r.trackers.risingFrom 0 = true ∧
      throughRouter 1 (bufKey 0 .cw) aPacket = true ∧ (s.r.trackers.find? 9).map (·.who) = some (.path 0) := by decide +kernel

/-- The rig with a request that has arrived at die 2 in direction `cw`, and the export it names, on die 2's tables. -/
def served (p : Pkt) (exports : SMap ExportRec) : State :=
  let s := ringed [(bufKey 1 .cw, { bufZero with pool := [p] })] []
  let t := mapIn 2 s
  { t with h := { t.h with exports := exports }, r := { t.r with places := [(2, [{ pkt := aPacket, ok := true }, { pkt := aPacket, ok := false }])] } }

theorem witness_OwnersCheckPerformAndReply :
    let x : ExportRec := { live := true, ctx := 128, base := 0x10000, pages := 1, maxrt := 7, gen := 1, imports := [] }
    let on := [(2 * 16384 + 5, x)]
    let homed := fun s (p : Pkt) => (s.h.exports.find? (2 * 16384 + p.exp)).any (fun x => x.live && x.gen == p.gen && decide (p.off / 65536 < x.pages) &&
      maxrtHas x.maxrt (requestRight p) && (match walkVa s x.ctx (x.base + BitVec.ofNat 64 p.off) with
        | .leaf e _ => pteKind e != 2 && hasRight (requestRight p) e
        | _ => false))
    let takes := fun (p : Pkt) kinds => Sound (served p on) = true ∧ arrived (served p on) 2 .cw false kinds = some p ∧ homed (served p on) p = true
    let op := fun kind body => { aPacket with kind := kind, body := body }
    takes aPacket [0, 4, 6] ∧ takes (op 4 (.amo 0 .i32 1)) [0, 4, 6] ∧ takes (op 4 (.cas .i32 1 2)) [0, 4, 6] ∧
      takes (op 6 (.red 0 .i32 1)) [0, 4, 6] ∧ takes (op 2 (.write [(0, 1), (5, 2)])) [2] ∧ SMap.risingFrom 0 ([(0, 1), (5, 2)] : SMap Byte) = true ∧
      (served aPacket []).h.exports.find? (2 * 16384 + 5) = none ∧ arrived (served aPacket []) 2 .cw false [0, 4, 6] = some aPacket ∧
      ((served aPacket on).r.places.getD [] 2).length < 64 ∧
      ((served aPacket on).r.places.getD [] 2).map (·.ok) = [true, false] ∧
      arrived (served (op 1 (.data [1])) on) 2 .cw false [1, 3, 5, 7] = some (op 1 (.data [1])) ∧
      ((served aPacket on).r.trackers.find? 9).map (fun t => (t.die, t.reply, decide ((served aPacket on).c.cycle < t.sent + 64000))) = some (0, none, true) ∧
      Sound { served aPacket on with c := { (served aPacket on).c with cycle := 64000 } } = true := by
  decide +kernel

/-- The rig with a launch 0 of one gang, dispatched or queued, on a die whose clusters are ready. -/
def hosted (gang : GangState) (next live : Nat) : State :=
  let s := rig [4] 1 [5]
  let s1 := setLaunch (updGang s 0 (fun q => { q with state := gang })) 0 { launchAt s 0 with next := next, live := live }
  let s2 := setDie s1 0 { dieZero 0 with dieReady := true, clrdy := 0xF, pReady := true }
  { s2 with c := { s2.c with nextId := 60 }, h := { s2.h with queues := [(0, { prio := 3, launches := [0] })] } }

theorem witness_GangsArePlacedHaltedAndRetired :
    let fits := fun s => Sound s = true ∧ s.x.warps.risingFrom 0 = true ∧ s.x.gangs.risingFrom 0 = true ∧
      s.x.warps.all (fun w => decide (w.2.gang < s.c.nextId)) = true ∧ s.x.paths.all (fun p => (s.x.warps.find? (warpOfPath p.1)).isSome) = true
    let s := hosted .resident 0 0
    let full := setDie s 0 { dieAt s 0 with clrdy := 0 }
    let f := hosted .failing 1 1
    let o := hosted .retired 1 0
    fits s ∧ (dieAt s 0).noDispatch = false ∧ failedHead s 0 = none ∧ topHead s 0 = some (3, .queued 0 0) ∧ (findPlace s (gangNeed s 0)).isSome = true ∧
      fits full ∧ failedHead full 0 = none ∧ topHead full 0 = some (3, .queued 0 0) ∧ (findPlace full (gangNeed full 0)).isNone = true ∧
      (s.x.gangs.find? 0).map (·.state) = some .resident ∧ fits f ∧ gangOver f 0 = true ∧ (gangAt f 0).state = .failing ∧
      (dieAt f 0).held.length < 256 ∧ fits o ∧ launchOver o 0 = true := by decide +kernel

/-- A capture record of gang 0 in the first 64 bytes of its save region. -/
def aRecord : CapRec :=
  { srcDie := 0, ctx := 0, off := 0, len := 64, wgs := [], threads := [], paths := [], blocks := [], replays := [], bids := [], moved := none }

theorem witness_GangsAreCapturedRestoredAndDumped :
    let h := hosted (.halted .preempt) 1 1
    let c : State := { hosted .captured 1 1 with h := { (hosted .captured 1 1).h with captures := [(0, aRecord)], waiting := [(0, [0])] } }
    let full : State := setCtx h 0 { ctxAt h 0 with save := none }
    let dump := fun v => let s := hosted .failing 1 1
      setLaunch s 0 { launchAt s 0 with record := launchRecord 0xFFFF 0 + BitVec.ofNat 1024 (v * 2 ^ (8 * 56)) }
    (gangAt h 0).state = .halted .preempt ∧ captureReady h 0 = true ∧ h.x.warps.risingFrom 0 = true ∧ (h.x.gangs.find? 0).isSome = true ∧
      (takeSave h 0 64).isSome = true ∧ (takeSave full 0 64).isNone = true ∧ captureReady full 0 = true ∧
      (c.x.gangs.find? 0).map (·.state) = some .captured ∧ c.h.captures.find? 0 = some aRecord ∧ (findPlace c (capNeed c 0 0)).isSome = true ∧
      recordIntact c aRecord = true ∧ aRecord.blocks = [] ∧ aRecord.replays = [] ∧ recordIntact (writeMem c 56 8 1) aRecord = false ∧
      (gangAt (dump 0x10000) 0).state = .failing ∧ lrDump (launchAt (dump 0x10000) 0).record ≠ 0 ∧
      (dumpBuffer (launchAt (dump 0x10000) 0).record).2 < 32 ∧ dumpBuffer (launchAt (dump 0x30001) 0).record = (0x30000, 65536) ∧
      (match kernelXlate (dump 0x30001) 0 0x30000 .wr with | .error _ => true | .ok _ => false) = true := by decide +kernel

/-- The size of a record: `hosted` with neither scratchpad nor values. -/
theorem witness_aRecordHasRoom :
    let h0 := hosted (.halted .preempt) 1 1
    let h : State := { h0 with x := { h0.x with wgs := [], vals := [], threads := [] } }
    let a := atCapture h 0
    let n := roundUp (recBytesAll a 0 (gather a 0)).length 64
    let full : State := setCtx h 0 { ctxAt h 0 with save := none }
    let b := atCapture full 0
    captureReady h 0 = true ∧ (takeSave a 0 n).isSome = true ∧ captureReady full 0 = true ∧ (takeSave b 0 n).isNone = true := by decide +kernel

theorem witness_ResetsReadinessAndStopsTakeEffect :
    let s := hosted .resident 1 1
    let d := setCtx (setLaunch s 0 { launchAt s 0 with record := launchRecord 0xFFFF 4 }) 0 { ctxAt s 0 with debugger := true }
    let b : State := { d with d := { d.d with bps := [(63, { vpc := VPC.of 0 2, scope := 1 })] } }
    let hit : WatchRec := { cluster := 0, widx := 7, kind := 2, die := 0, acore := 0, warp := 0, lane := 0, vpc := 0, addr := 0, before := 0,
                            after := 0, hits := 1, sent := false }
    let w : State := { d with d := { d.d with hits := [hit], watches := [(7, { ctx := 0, addr := 0, kinds := 2, scope := 0 })] } }
    let r := setDie s 0 { dieZero 0 with evRing := some { ctx := 0, base := 0x10000, size := 64, wr := 0, rd := 0 }, held := [5] }
    s.x.gangs.risingFrom 0 = true ∧ s.x.paths.risingFrom 0 = true ∧ (gangAt s 0).die = 0 ∧ isResident (gangAt s 0) = true ∧
      (dieAt State.reset 8).dieReady = false ∧ unitThere State.reset 8 .die 8 = true ∧ unitThere State.reset 7 .cluster 3 = true ∧
      unitThere State.reset 7 .channelGroup 7 = true ∧ unitThere State.reset 7 .hop 7 = true ∧ unitThere State.reset 7 .spine 7 = true ∧
      unitThere State.reset 7 .pUnit 7 = true ∧ (dieAt s 0).evRing = none ∧ (dieAt r 0).evRing.isSome = true ∧ (dieAt s 0).held.length < 256 ∧
      (atBreakpoint b 0).isSome = true ∧ b.x.paths.risingFrom 0 = true ∧ hitPaths w 0 hit = [0] := by decide +kernel

/-- Whether a request is answered with STATUS 0 at once: it has been neither turned away nor refused. -/
def answered (s : State) (o : Out) : Bool :=
  match o with
  | .next t => (t.h.out.drop s.h.out.length).any (fun m => match m with | .reply _ 0 _ _ _ => true | _ => false)
  | _ => false

/-- `hosted` with a handle 5 to its module, room in every table, CXL unit 0 and 2 MiB mapped at 0x200000; headers of contexts 0 to
2. -/
def served0 : State :=
  let s := writeMem (hosted .resident 0 0) 0x40008 8 0x5F
  let s1 := setCtx s 2 { ctxZero with state := .live, root := 0x10000 }
  { s1 with
    m := { s1.m with cxlUnits := [(0, 4)] }
    h := { s1.h with handles := [(5, { ctx := 0, module := 0, leaving := none }), (6, { ctx := 0, module := 0, leaving := none })]
                     queues := [], remote := [(remoteKey 0 1, [])] } }

def hdr0 : Hdr := { die := 0, ctx := 0, tag := 1 }

/-- The bytes of a loadable module of 136 bytes at physical 0 (one launchable function: the head of a block and `exit`), and of
the tables that map them at virtual 0x10000. -/
def imageBytes : List (Nat × Byte) :=
  [(0, 80), (1, 76), (2, 77), (3, 84), (5, 1), (8, 136), (12, 64), (16, 1), (20, 112), (24, 2), (44, 128), (48, 8), (68, 2), (100, 1),
   (113, 176), (115, 176), (117, 128), (118, 128), (121, 176), (123, 176), (125, 176), (126, 128), (127, 4)]
def tableBytes : List (Nat × Byte) :=
  [(65536, 1), (65538, 2), (131072, 1), (131074, 3), (196608, 1), (196610, 4), (262144, 1), (262146, 5), (327688, 95)]

/-- A die with one live context and no module, and those bytes. -/
def loadable : State :=
  let s : State := { State.reset with m := { State.reset.m with mem := imageBytes ++ tableBytes } }
  setDie (setCtx s 0 { ctxZero with state := .live, root := 0x10000 }) 0 { dieZero 0 with dieReady := true }

/-- A read of addresses that lie side by side in one place reads that place. -/
theorem read_side_by_side (s : State) (ctx a o : Nat) (n : Nat) : ∀ (va : Word) (k : Nat),
    (∀ i, i < n → kernelXlate s ctx (va + BitVec.ofNat 64 i) .rd = .ok (a + k + i, o)) →
    kernelRead s ctx n va = some ((List.range n).map (fun i => memByte s (a + k + i))) := by
  induction n with
  | zero => intro va k _; rfl
  | succ n ih =>
    intro va k h
    have h0 := h 0 (by omega)
    have e : va + BitVec.ofNat 64 0 = va := by simp
    rw [e] at h0
    have hs := ih (va + 1) (k + 1) (fun i hi => by
      have := h (i + 1) (by omega)
      have e1 : va + 1 + BitVec.ofNat 64 i = va + BitVec.ofNat 64 (i + 1) := by
        rw [BitVec.add_assoc]; congr 1; rw [Nat.add_comm i 1, BitVec.ofNat_add]; rfl
      rw [e1, this]; congr 2; omega)
    simp only [kernelRead, h0, hs, Option.map_some, List.range_succ_eq_map, List.map_cons, List.map_map, Nat.add_zero]
    congr 3; funext i; simp only [Function.comp]; congr 1; omega

/-- The leaf behind every address of the 64 KiB page at 0x10000. -/
theorem loadable_leaf (va : Word) (h : va.toNat / 65536 = 1) : walkVa loadable 0 va = .leaf 0x5F 16 := by
  have b : bitsOf va.toNat 47 10 = 0 ∧ bitsOf va.toNat 38 9 = 0 ∧ bitsOf va.toNat 29 9 = 0 ∧ bitsOf va.toNat 21 8 = 0 ∧
      bitsOf va.toNat 16 5 = 1 := by
    simp only [bitsOf]; omega
  have r : BitVec.ofNat 64 (readMem loadable (lpKey (0 / 64) (0x10000 + 8 * 0)) 8) = 0x20001#64 ∧
      BitVec.ofNat 64 (readMem loadable (lpKey (0 / 64) (0x20000 + 8 * 0)) 8) = 0x30001#64 ∧
      BitVec.ofNat 64 (readMem loadable (lpKey (0 / 64) (0x30000 + 8 * 0)) 8) = 0x40001#64 ∧
      BitVec.ofNat 64 (readMem loadable (lpKey (0 / 64) (0x40000 + 8 * 0)) 8) = 0x50001#64 ∧
      BitVec.ofNat 64 (readMem loadable (lpKey (0 / 64) (0x50000 + 8 * 1)) 8) = 0x5F#64 := by decide +kernel
  have c : (ctxAt loadable 0).state = .live ∧ (ctxAt loadable 0).root = 0x10000 := by decide +kernel
  have p : pteAddr 0x20001#64 = 0x20000 ∧ pteAddr 0x30001#64 = 0x30000 ∧ pteAddr 0x40001#64 = 0x40000 ∧ pteAddr 0x50001#64 = 0x50000 := by
    decide
  have l : leafOk loadable (0 / 64) va 16 0x5F#64 = true := by
    unfold leafOk
    rw [if_neg (by decide)]; decide +kernel
  obtain ⟨b4, b3, b2, b1, b0⟩ := b
  obtain ⟨r4, r3, r2, r1, r0⟩ := r
  obtain ⟨p4, p3, p2, p1⟩ := p
  unfold walkVa
  rw [c.1, c.2]
  simp only [walkFrom, lvlShift, lvlBits, b4, b3, b2, b1, b0, r4, p4, r3, p3, r2, p2, r1, p1, r0, l]
  generalize leafOk loadable (0 / 64) va 47 0x20001#64 = x4
  generalize leafOk loadable (0 / 64) va 38 0x30001#64 = x3
  generalize leafOk loadable (0 / 64) va 29 0x40001#64 = x2
  generalize leafOk loadable (0 / 64) va 21 0x50001#64 = x1
  revert x4 x3 x2 x1
  decide +kernel

/-- The image that the kernel reads at virtual 0x10000. -/
def readImage : List Byte := (List.range 136).map (memByte loadable)

theorem loadable_reads : kernelRead loadable 0 136 0x10000 = some readImage := by
  have h := read_side_by_side loadable 0 0 1 136 0x10000 0 (fun i hi => by
    have v : ((0x10000 : Word) + BitVec.ofNat 64 i).toNat = 0x10000 + i := by
      show (0x10000#64 + BitVec.ofNat 64 i).toNat = 0x10000 + i
      rw [BitVec.toNat_add, BitVec.toNat_ofNat, BitVec.toNat_ofNat]; omega
    have w := loadable_leaf ((0x10000 : Word) + BitVec.ofNat 64 i) (by omega)
    unfold kernelXlate
    rw [v, if_neg (by omega), w]
    have e : (pteKind 0x5F = 2) = False := by decide
    simp only [e, if_false]
    rw [if_pos (by decide)]
    have k : leafKey (0 / 64) ((0x10000 : Word) + BitVec.ofNat 64 i) 16 0x5F = 0 + 0 + i := by
      unfold leafKey
      rw [v, if_neg (by decide)]
      have p : pteAddr (0x5F : Word) = 0 := by decide
      simp only [lpKey]
      rw [p]; omega
    rw [k]; rfl)
  rw [h]; congr 1

theorem witness_aModuleLoads : turnedAway loadable hdr0 shaderOnly = none ∧ notLive loadable hdr0 = false ∧
    kernelRead loadable 0 136 0x10000 = some readImage ∧ loadCheck loadable hdr0 readImage 0 = none ∧
    (loadModule loadable hdr0 readImage 0).isSome = true ∧ kernelRead loadable 0 0 0x10000 = some [] ∧
    (loadCheck loadable hdr0 [] 0).isSome = true := by
  have h : turnedAway loadable hdr0 shaderOnly = none ∧ notLive loadable hdr0 = false ∧ loadCheck loadable hdr0 readImage 0 = none ∧
      (loadModule loadable hdr0 readImage 0).isSome = true ∧ (loadCheck loadable hdr0 [] 0).isSome = true := by decide +kernel
  exact ⟨h.1, h.2.1, loadable_reads, h.2.2.1, h.2.2.2.1, rfl, h.2.2.2.2⟩

theorem witness_LaunchMemoryAndHandleRequestsAreAnswered :
    let s := served0
    s.x.gangs.risingFrom 0 = true ∧ s.h.events.risingFrom 0 = true ∧ s.m.cxlOwner.risingFrom 0 = true ∧
      s.h.handles.risingFrom 0 = true ∧ s.h.launches.risingFrom 0 = true ∧ turnedAway s hdr0 shaderOnly = none ∧
      turnedAway State.reset hdr0 shaderOnly = some 2 ∧ notLive s hdr0 = false ∧
      (dieAt s 0).pReady = true ∧ s.pl.revoking = [] ∧ (planeAt s 0 223).holder = none ∧
      (s.h.handles.find? 6).map (fun r => (r.ctx, r.leaving)) = some (0, none) ∧ handleBusy s 6 = false ∧ otherHandles s 6 0 0 = true ∧
      handleBusy s 5 = false ∧ (s.h.handles.find? 7).isSome = false ∧ s.c.agenda = [] ∧ linked s 0 1 = false ∧ hdDie 0x1000000000000000 = 1 ∧
      hdr0.die = 0 := by decide +kernel

theorem witness_requestsOfLaunchesAndMemory :
    let s := served0
    let ok := fun i => answered s (exec i s)
    (ok (.launchSubmit hdr0 63 (launchRecord 0xFFFF 0 + BitVec.ofNat 1024 (5 * 2 ^ 16)))) = true ∧ (ok (.launchCancel hdr0 0)) = true ∧ (ok (.queuePriority hdr0 63 7)) = true ∧
      (ok (.eventSet hdr0 4095)) = true ∧ (ok (.eventReset hdr0 4095)) = true ∧ (ok (.deviceSettings hdr0 34 1)) = true ∧
      (ok (.deviceSettings hdr0 16 0)) = true ∧ (ok (.memMap hdr0 0x20000 0x10000 0x1005F)) = true ∧
      (ok (.memUnmap hdr0 0x10000 0x10000 false)) = true ∧ (ok (.memInvalidate hdr0 0x10000 0x10000)) = true ∧
      (ok (.saveRegion hdr0 0x200000 0x100000)) = true ∧ (ok (.cxlUnitAssign hdr0 0 true)) = true := by decide +kernel

/-- A window of the upper half whose tables stand. -/
def aWindow : Nat := 2 ^ 56 + 0x20000

/-- `served0` with blocks of table memory on die 0's free list, an export 5 of the mapped page, and a debugger on context 0. -/
def served1 : State :=
  let s := setDie served0 0 { dieAt served0 0 with tables := [0x60000, 0x62000, 0x64000, 0x66000, 0x68000, 0x6A000] }
  let s := writeMem s (entryAddr 0x10000 4 aWindow) 8 0x20001
  let x : ExportRec := { live := true, ctx := 0, base := 0x10000, pages := 1, maxrt := 7, gen := 1, imports := [] }
  { s with h := { s.h with exports := [(5, x)] } }

/-- The handle of that export, whatever its check code is. -/
def aHandle : Word := handleWord 0 5 1 1 7
/-- The fields of a handle do not depend on its check code (R80). -/
theorem aHandle_fields : hdDie aHandle = 0 ∧ hdExp aHandle = 5 ∧ hdGen aHandle = 1 ∧ hdMaxrt aHandle = 7#4 ∧ aHandle.extractLsb' 16 48 = 0x000144000007#48 ∧
    aHandle.extractLsb' 0 16 = Config.handleCheck 0 0x000144000007#48 := by
  have h : aHandle = 0x000144000007#48 ++ Config.handleCheck 0 0x000144000007#48 := rfl
  rw [h]
  generalize Config.handleCheck 0 0x000144000007#48 = c
  have n : (0x000144000007#48 ++ c).toNat = 0x144000007 * 65536 + c.toNat := by
    rw [BitVec.toNat_append, ← Nat.shiftLeft_add_eq_or_of_lt c.isLt]; rfl
  have lt := c.isLt
  refine ⟨?_, ?_, ?_, ?_, ?_, ?_⟩ <;> (try apply BitVec.eq_of_toNat_eq) <;>
    simp only [hdDie, hdExp, hdGen, hdMaxrt, BitVec.extractLsb'_toNat, n, Nat.shiftRight_eq_div_pow, BitVec.toNat_ofNat] <;> omega

theorem aHandle_good : exportAt served1 aHandle = some { live := true, ctx := 0, base := 0x10000, pages := 1, maxrt := 7, gen := 1, imports := [] } ∧
    handleGood served1 aHandle = true := by
  obtain ⟨hd, he, hg, -, hu, hl⟩ := aHandle_fields
  have hx : exportAt served1 aHandle = some { live := true, ctx := 0, base := 0x10000, pages := 1, maxrt := 7, gen := 1, imports := [] } := by
    unfold exportAt; rw [hd, he]; decide +kernel
  refine ⟨hx, ?_⟩
  unfold handleGood; rw [hx, hd, hg, hu, hl]; simp

theorem served1_ready : (turnedAway served1 hdr0 shaderOnly).isNone = true ∧ notLive served1 hdr0 = false ∧
    (ctxEntries served1 0 aWindow (aWindow + 65536)).any (fun e => pteV e.2.2) = false := by decide +kernel

theorem witness_handlesAreImportedAndRevoked :
    let s := served1
    let x : ExportRec := { live := true, ctx := 0, base := 0x10000, pages := 1, maxrt := 7, gen := 1, imports := [] }
    exportAt s aHandle = some x ∧ (turnedAway s hdr0 shaderOnly).isNone = true ∧ notLive s hdr0 = false ∧ handleGood s aHandle = true ∧
      7#4 &&& ~~~(hdMaxrt aHandle) = 0 ∧ (ctxEntries s 0 aWindow (aWindow + 65536)).any (fun e => pteV e.2.2) = false ∧
      (importPages 0 0 aHandle x 7 0 aWindow 1 s).isSome = true ∧
      (x.ctx == 0 && hdDie aHandle == hdr0.die) = true := by
  obtain ⟨hd, -, -, hm, -, -⟩ := aHandle_fields
  refine ⟨aHandle_good.1, served1_ready.1, served1_ready.2.1, aHandle_good.2, by rw [hm]; decide, served1_ready.2.2, ?_, by rw [hd]; decide⟩
  simp only [importPages, importLeaf, hd]; decide +kernel

theorem witness_requestsOfContexts :
    let ok := fun i => answered served0 (exec i served0)
    (ok (.moduleCopy hdr0 0x10000 0 1 64 true)) = true ∧ (ok (.moduleCopy hdr0 0x10000 0 1 64 false)) = true ∧
      (ok (.contextTenant { hdr0 with ctx := 2 } 7)) = true ∧ (ctxAt served0 2).state = .live ∧ ctxHolds served0 2 = false := by decide +kernel
theorem witness_requestsOfHandles :
    let ok := fun i => answered served0 (exec i served0)
    (ok (.handleExport hdr0 0x10000 0x10000 7)) = true ∧ (ok (.turnRightGrant hdr0 true)) = true ∧
      (ok (.identifierAllocate hdr0 223 1 true)) = true ∧ (ok (.moduleUnload hdr0 6)) = true := by decide +kernel
theorem witness_aContextMayOpen : (takeBlock served1 0).isSome = true ∧ (ctxAt served1 63).state = .free := by decide +kernel

/-- `served1` with a debugger on context 0, path 0 held and named by slot 0, both rings of die 0 set and die 8 ready. -/
def debugged : State :=
  let s := setCtx served1 0 { ctxAt served1 0 with debugger := true }
  let ring : RecRing := { ctx := 0, base := 0x10000, size := 4096, wr := 64, rd := 0 }
  let s1 := setDie s 0 { dieAt s 0 with evRing := some ring, mfRing := some ring }
  let s2 := setLaunch s1 0 { launchAt s1 0 with record := launchRecord 0xFFFF 4 }
  updPath (setDie s2 8 { dieZero 8 with dieReady := true }) 0 (fun p => { p with held := true })

/-- Path 0 of `debugged` as the debugger names it. -/
def aName : PathName := { die := 0, cluster := 0, core := 0, warp := 0, pidx := 0, mask := 1 }

theorem witness_DebuggerAndDeviceRequestsAreAnswered :
    let s := debugged
    Sound s = true ∧ turnedAway s hdr0 shaderOnly = none ∧ turnedAway s hdr0 fwServe = none ∧ notAttached s hdr0 = false ∧
      heldPath s hdr0 aName = some 0 ∧ namedPath s { aName with mask := (pathAt s ((namedPath s aName).getD 0)).mask } = some 0 ∧
      (pathAt s 0).held = true ∧ oneLane (pathAt s 0) 1 = true ∧ (pathsOf s (warpOfPath 0)).any (fun x => x.2.focus) = false ∧
      (gangAt s (warpAt s (warpOfPath 0)).gang).ctx = 0 ∧ (imageOf s 0).isNone = true ∧ (fwImage s hdr0 0x10000 16).isSome = true ∧
      (debugLaunch s hdr0 0).isEmpty = false ∧ launchPaths s hdr0 0 0 ≠ [] ∧ (dieAt s 0).fw.recovery = false := by decide +kernel

theorem witness_requestsOfTheDebugger :
    let ok := fun i => answered debugged (exec i debugged)
    (ok (.debugAttach hdr0)) = true ∧ (ok (.debugDetach hdr0)) = true ∧ (ok (.debugBreakpoint hdr0 63 5 2)) = true ∧
      (ok (.debugWatchpoint hdr0 7 0x10000 1 0)) = true ∧ (ok (.debugStop hdr0 0 1 true)) = true ∧
      (ok (.debugRelease hdr0 0 1 true)) = true ∧ (ok (.readValues hdr0 aName [0])) = true ∧ (ok (.debugFocus hdr0 aName)) = true := by decide +kernel
theorem witness_requestsOfTheDevice :
    let ok := fun i => answered debugged (exec i debugged)
    let f := { hdr0 with die := 8 }
    (ok (.eventRing hdr0 0x10000 0x1000)) = true ∧ (ok (.manifestRing hdr0 0x10000 0x1000)) = true ∧ (ok (.eventReadIndex hdr0 64)) = true ∧
      (ok (.manifestReadIndex hdr0 64)) = true ∧ (ok (.tracing hdr0 true)) = true ∧ (ok (.manifestPeriod f 10)) = true ∧
      (ok (.manifestPeriod f 24)) = true ∧ (ok (.packageLimit f 1000)) = true ∧ (ok (.packageLimit f 4500)) = true ∧
      (ok (.powerSensors hdr0)) = true ∧ (ok (.railLimit hdr0 0 400)) = true ∧ (ok (.fwIdentity hdr0)) = true := by decide +kernel
theorem witness_requestsThatAnswerLater :
    let d := debugged
    (match exec (.debugStep hdr0 aName) d with | .next t => t.d.steps.length | _ => 0) = 1 ∧
      (match exec (.stepSync hdr0 aName) d with | .next t => t.d.steps.length | _ => 0) = 1 ∧
      (match exec (.retrainHop hdr0 7) d with | .next t => (hopAt t 7).retrain | _ => none) = some [hdr0] := by decide +kernel

theorem witness_AStepRunsTheDecodedInstruction :
    let s := State.reset.withFetchWord 64 0x06009000B000B000
    let f := updPath (rig [4] 1 [5]) 0 (fun p => { p with s124 := 0, pc := .word (VPC.of 0 1) })
    let b := setCluster (updPath (rig [4] 1 [5]) 0 (fun p => { p with pc := .bundle oneKey 0 })) 0 { clusterAt s 0 with cache := [idleBare] }
    let b0 := updPath b 0 (fun q => { q with youngest := false })
    let issues := fun (s : State) => s.c.agenda = [] ∧ s.c.issue.map (·.pid) = some 0 ∧ (s.x.paths.find? 0).isSome = true ∧
      (atBreakpoint s 0).isNone = true ∧ (imageAt s 0 (pathKey s 0)).isSome = true
    { s with c := { s.c with agenda := [.tracing hdr0 true] } }.c.agenda = [.tracing hdr0 true] ∧
      issues s ∧ (pathAt s 0).pc = .word (VPC.of 0 1) ∧ instrAt (ctxOf s 0).func.code 1 = .ok (.const (pf 0 0 (.konst 0) .none .none [])) ∧
      (pathAt s 0).s124 ≠ 0 ∧ issues f ∧ (pathAt f 0).pc = .word (VPC.of 0 1) ∧
      instrAt (ctxOf f 0).func.code 1 = .ok (.const (pf 4 0 (.konst 0) .none .none [])) ∧ (pathAt f 0).frames = [] ∧ (pathAt f 0).s124 = 0 ∧
      16 + 4 * ((imageAt f 0 (pathKey f 0)).map (·.frameW)).getD 0 ≤ stackSize f 0 ∧ issues b ∧ imageAt b 0 (pathKey b 0) = some idleBare ∧
      idleBare.bundled = true ∧ bundleAt idleBare 0 = some idle ∧ bundleLegal idleBare 0 = true ∧
      (∀ x ∈ [idle.s0, idle.s1, idle.s2], pairBad b0 0 idleBare.key.cap x = false) ∧
      (match runSlots idle 0 [0, 1, 2] (withLatch b0 0) with | .next r => r.2.isNone | _ => false) = true := by
  decide +kernel

theorem witness_DecodingUndoesEncoding :
    (Instr.add (.p (pf 1 0 (.back (2 ^ 28 - 1)) (.imm 1) .none []))).wf = true ∧
      Instr.opForm (.add (.p (pf 1 0 (.back (2 ^ 28 - 1)) (.imm 1) .none []))) = some (.add, .p (pf 1 0 (.back (2 ^ 28 - 1)) (.imm 1) .none [])) ∧
      (Instr.bnop (nf 2 0 0 2047 2047 2047 2047 0)).wf = true ∧
      Instr.opForm (.bnop (nf 2 0 0 2047 2047 2047 2047 0)) = some (.bnop, .n (nf 2 0 0 2047 2047 2047 2047 0)) ∧
      idle.s0.wf = true ∧ idle.s1.wf = true ∧ idle.s2.wf = true ∧ idle.kind ≠ 3 ∧ idle.stop ≠ 3 := by decide

theorem witness_EveryStepKeepsMemoryCanonical :
    let s := State.reset.withFetchWord 64 0x06009000B000B000
    Memory.wf s.m.mem = true ∧ (match step s with | .next _ => true | _ => false) = true := by decide +kernel

/-- The step that follows `withFetchWord` runs the word: `const` is done and the path stands at the next word. -/
theorem test_fetch_runs : (match step (State.reset.withFetchWord 64 0x06009000B000B000) with
    | .next t => ((pathAt t 0).pc, t.c.issue.isNone) | _ => (.word (VPC.of 0 0), false)) = (.word (VPC.of 0 2), true) := by decide +kernel

end Sys2Proof.Tests
end

section
/-!
SUPPORT. The invariant of O60: memory stays in canonical form (R66 to R68; log 3). Beside the package reset, which lists nothing, memory
is written through `writeByte`, `writeBytes` and `writeMem` alone; so the operations fall in two kinds, and each has its lemma here
in the order of the definitions:
`f_mem` says that `f` leaves memory as it is, `memory_wf_f` that `f` writes it and keeps the canonical form. `nextWf_f` says of an
operation that ends in an outcome that its next state, if it has one, keeps the form.
-/
namespace Sys2Proof.Machine

/-! ### Folds and choices -/

/-- A fold of steps that leave memory alone. Where `simp` is to prove the premise it runs with `-implicitDefEqProofs`: a proof that
rests on definitional unfolding is not recognised as one of the premise. -/
theorem foldl_mem {β : Type} {f : State → β → State} {s : State} {l : List β} (h : ∀ t b, (f t b).m.mem = t.m.mem) :
    (l.foldl f s).m.mem = s.m.mem := foldl_keeps (·.m.mem) f h s l

theorem foldl_fst_mem {γ β : Type} {f : State × γ → β → State × γ} (h : ∀ a b, (f a b).1.m.mem = a.1.m.mem) (a : State × γ)
    (l : List β) : (l.foldl f a).1.m.mem = a.1.m.mem :=
  List.foldlRecOn (motive := fun b => b.1.m.mem = a.1.m.mem) l f rfl fun b hb c _ => (h b c).trans hb

@[simp] theorem ite_mem {c : Prop} [Decidable c] {a b : State} : (if c then a else b).m.mem = if c then a.m.mem else b.m.mem :=
  apply_ite (·.m.mem) c a b

theorem memory_wf_foldl {β : Type} {f : State → β → State} {s : State} {l : List β} (h : Memory.wf s.m.mem = true)
    (hf : ∀ t b, Memory.wf t.m.mem = true → Memory.wf (f t b).m.mem = true) : Memory.wf (l.foldl f s).m.mem = true :=
  foldl_inv (fun t => Memory.wf t.m.mem = true) f hf s l h

/-- A property that every step of a fold that may fail keeps, the fold keeps. -/
theorem foldl_bind_inv {α β : Type} (P : α → Prop) {f : α → β → Option α} (hf : ∀ a b c, P a → f a b = some c → P c) (l : List β)
    {o : Option α} (ho : ∀ a, o = some a → P a) {c : α} (hc : l.foldl (fun o b => o.bind (f · b)) o = some c) : P c := by
  refine List.foldlRecOn (motive := fun o => ∀ a, o = some a → P a) l _ ho (fun o ho b _ a ha => ?_) c hc
  obtain ⟨a', ha', hb⟩ := Option.bind_eq_some_iff.1 ha
  exact hf a' b a (ho a' ha') hb

theorem memory_wf_getD {s : State} {o : Option State} (h : Memory.wf s.m.mem = true)
    (ho : ∀ t, o = some t → Memory.wf t.m.mem = true) : Memory.wf (o.getD s).m.mem = true := by
  cases o with
  | none => exact h
  | some t => exact ho t rfl

theorem memory_wf_foldl_fst {γ β : Type} {f : State × γ → β → State × γ} (l : List β) {a : State × γ}
    (h : Memory.wf a.1.m.mem = true) (hf : ∀ a b, Memory.wf a.1.m.mem = true → Memory.wf (f a b).1.m.mem = true) :
    Memory.wf (l.foldl f a).1.m.mem = true :=
  List.foldlRecOn (motive := fun a => Memory.wf a.1.m.mem = true) l f h fun a ha b _ => hf a b ha

/-! ### Outcomes -/

/-- The next state of an outcome, where there is one, has canonical memory. -/
def NextWf (o : Out) : Prop := ∀ u, o = .next u → Memory.wf u.m.mem = true

@[simp] theorem nextWf_next (t : State) : NextWf (.next t) ↔ Memory.wf t.m.mem = true :=
  ⟨fun h => h t rfl, fun h u hu => by rw [← Host.Outcome.next.inj hu]; exact h⟩

@[simp] theorem nextWf_fault (r : Fault) : NextWf (.fault r) := fun _ hu => by simp at hu

@[simp] theorem nextWf_refused (r : Refusal) : NextWf (.refused r) := fun _ hu => by simp at hu

/-! ### Machine/Ops.lean -/

@[simp] theorem scrWrite_mem (s : State) (core pa n v : Nat) : (scrWrite s core pa n v).m.mem = s.m.mem := rfl
@[simp] theorem doneBytes_mem (s : State) (h : Hdr) (data : List Byte) : (doneBytes s h data).m.mem = s.m.mem := rfl
@[simp] theorem tlbFill_mem (s : State) (core : Nat) (t : TlbEntry) : (tlbFill s core t).m.mem = s.m.mem := rfl

@[simp] theorem cacheFill_mem (s : State) (core addr ord : Nat) (nc : Bool) : (cacheFill s core addr ord nc).m.mem = s.m.mem := by
  unfold cacheFill
  split_ifs
  · rfl
  · split <;> rfl

@[simp] theorem dropOwnLine_mem (s : State) (core addr : Nat) : (dropOwnLine s core addr).m.mem = s.m.mem := rfl

theorem memory_wf_cacheStore {s : State} (core addr : Nat) (bs : List Byte) (h : Memory.wf s.m.mem = true) :
    Memory.wf (cacheStore s core addr bs).m.mem = true := by
  unfold cacheStore
  dsimp only
  split <;> exact memory_wf_writeBytes addr bs h

@[simp] theorem dropLine_mem (s : State) (die addr : Nat) : (dropLine s die addr).m.mem = s.m.mem := rfl

@[simp] theorem dropLines_mem (s : State) (cluster : Nat) (unordered : Bool) :
    (dropLines s cluster unordered).m.mem = s.m.mem := rfl

@[simp] theorem startDivCall_mem (s : State) (pid : Nat) : (startDivCall s pid).m.mem = s.m.mem := by simp [startDivCall]
@[simp] theorem endDivCall_mem (s : State) (pid d : Nat) : (endDivCall s pid d).m.mem = s.m.mem := rfl

/-! ### Machine/Operands.lean -/

section
variable {s : State} (hm : Memory.wf s.m.mem = true)
include hm

theorem nextWf_issuing {f : Form} {k : Ctx → Out} (hk : ∀ c, NextWf (k c)) : NextWf (issuing f s k) :=
  fun _ hu => memory_wf_issuing hm (fun c t ht => hk c t ht) hu

theorem nextWf_laneOp (f : Form) (t : Ctx → Ty) (g : Ctx → Nat → Word) : NextWf (laneOp f s t g) :=
  fun _ hu => memory_wf_laneOp hm hu

theorem nextWf_flagOp (f : Form) (t : Ctx → Ty) (kind : Nat) (g : Ctx → Nat → Word × Flags) : NextWf (flagOp f s t kind g) :=
  fun _ hu => memory_wf_flagOp hm hu

end

/-! ### Machine/Integer.lean -/

section
variable {s : State} (hm : Memory.wf s.m.mem = true)
include hm

theorem nextWf_intOp1 (f : Form) (signed : Bool) (g : Nat → Word → Word) : NextWf (intOp1 f s signed g) := nextWf_laneOp hm _ _ _

theorem nextWf_intOp2 (f : Form) (signed : Bool) (g : Nat → Word → Word → Word) : NextWf (intOp2 f s signed g) :=
  nextWf_laneOp hm _ _ _

theorem nextWf_execAdd (f : Form) : NextWf (execAdd f s) := nextWf_intOp2 hm _ _ _
theorem nextWf_execSub (f : Form) : NextWf (execSub f s) := nextWf_intOp2 hm _ _ _
theorem nextWf_execMul (f : Form) : NextWf (execMul f s) := nextWf_intOp2 hm _ _ _
theorem nextWf_execMulhi (f : Form) : NextWf (execMulhi f s) := nextWf_intOp2 hm _ _ _
theorem nextWf_execMad (f : Form) : NextWf (execMad f s) := nextWf_laneOp hm _ _ _
theorem nextWf_execDiv (f : Form) : NextWf (execDiv f s) := nextWf_flagOp hm _ _ _ _
theorem nextWf_execRem (f : Form) : NextWf (execRem f s) := nextWf_flagOp hm _ _ _ _
theorem nextWf_execNeg (f : Form) : NextWf (execNeg f s) := nextWf_intOp1 hm _ _ _
theorem nextWf_execAbs (f : Form) : NextWf (execAbs f s) := nextWf_intOp1 hm _ _ _
theorem nextWf_execMin (f : Form) : NextWf (execMin f s) := nextWf_intOp2 hm _ _ _
theorem nextWf_execMax (f : Form) : NextWf (execMax f s) := nextWf_intOp2 hm _ _ _
theorem nextWf_execAnd (f : Form) : NextWf (execAnd f s) := nextWf_intOp2 hm _ _ _
theorem nextWf_execOr (f : Form) : NextWf (execOr f s) := nextWf_intOp2 hm _ _ _
theorem nextWf_execXor (f : Form) : NextWf (execXor f s) := nextWf_intOp2 hm _ _ _
theorem nextWf_execAndn (f : Form) : NextWf (execAndn f s) := nextWf_intOp2 hm _ _ _
theorem nextWf_execNot (f : Form) : NextWf (execNot f s) := nextWf_intOp1 hm _ _ _
theorem nextWf_execShl (f : Form) : NextWf (execShl f s) := nextWf_intOp2 hm _ _ _
theorem nextWf_execShr (f : Form) : NextWf (execShr f s) := nextWf_intOp2 hm _ _ _
theorem nextWf_execRotl (f : Form) : NextWf (execRotl f s) := nextWf_intOp2 hm _ _ _
theorem nextWf_execRotr (f : Form) : NextWf (execRotr f s) := nextWf_intOp2 hm _ _ _
theorem nextWf_execPopc (f : Form) : NextWf (execPopc f s) := nextWf_intOp1 hm _ _ _
theorem nextWf_execClz (f : Form) : NextWf (execClz f s) := nextWf_intOp1 hm _ _ _
theorem nextWf_execCtz (f : Form) : NextWf (execCtz f s) := nextWf_intOp1 hm _ _ _
theorem nextWf_execBrev (f : Form) : NextWf (execBrev f s) := nextWf_intOp1 hm _ _ _
theorem nextWf_execBfx (f : Form) : NextWf (execBfx f s) := nextWf_intOp2 hm _ _ _
theorem nextWf_execBfi (f : Form) : NextWf (execBfi f s) := nextWf_laneOp hm _ _ _
theorem nextWf_execExt (f : Form) : NextWf (execExt f s) := nextWf_laneOp hm _ _ _
theorem nextWf_execTrunc (f : Form) : NextWf (execTrunc f s) := nextWf_laneOp hm _ _ _

theorem nextWf_execIcmp (f : Form) : NextWf (execIcmp f s) := by
  unfold execIcmp
  refine nextWf_issuing hm fun c => ?_
  simp [finish_m, putLanes_m, hm]

theorem nextWf_execAdr (f : Form) : NextWf (execAdr f s) := nextWf_laneOp hm _ _ _
theorem nextWf_execBsel (f : Form) : NextWf (execBsel f s) := nextWf_laneOp hm _ _ _
theorem nextWf_execSelect (f : Form) : NextWf (execSelect f s) := nextWf_laneOp hm _ _ _
theorem nextWf_execConst (f : PForm) : NextWf (execConst f s) := nextWf_laneOp hm _ _ _
theorem nextWf_execSreg (f : Form) : NextWf (execSreg f s) := nextWf_laneOp hm _ _ _

end

/-! ### Machine/Float.lean -/

section
variable {s : State} (hm : Memory.wf s.m.mem = true)
include hm

theorem nextWf_fpOp (f : Form) (g : Fmt → Deliver → Nat → Nat → Nat → Nat × Flags) : NextWf (fpOp f s g) :=
  nextWf_flagOp hm _ _ _ _

theorem nextWf_execFadd (f : Form) : NextWf (execFadd f s) := nextWf_fpOp hm _ _
theorem nextWf_execFsub (f : Form) : NextWf (execFsub f s) := nextWf_fpOp hm _ _
theorem nextWf_execFmul (f : Form) : NextWf (execFmul f s) := nextWf_fpOp hm _ _
theorem nextWf_execFdiv (f : Form) : NextWf (execFdiv f s) := nextWf_fpOp hm _ _
theorem nextWf_execFsqrt (f : Form) : NextWf (execFsqrt f s) := nextWf_fpOp hm _ _
theorem nextWf_execFma (f : Form) : NextWf (execFma f s) := nextWf_fpOp hm _ _
theorem nextWf_execFmin (f : Form) : NextWf (execFmin f s) := nextWf_fpOp hm _ _
theorem nextWf_execFmax (f : Form) : NextWf (execFmax f s) := nextWf_fpOp hm _ _
theorem nextWf_execFneg (f : Form) : NextWf (execFneg f s) := nextWf_intOp1 hm _ _ _
theorem nextWf_execFabs (f : Form) : NextWf (execFabs f s) := nextWf_intOp1 hm _ _ _
theorem nextWf_execFcopysign (f : Form) : NextWf (execFcopysign f s) := nextWf_intOp2 hm _ _ _

theorem nextWf_execFcmp (f : Form) : NextWf (execFcmp f s) := by
  unfold execFcmp
  refine nextWf_issuing hm fun c => ?_
  dsimp only
  repeat' split
  all_goals simp -implicitDefEqProofs [foldl_mem, orFlags_m, finish_m, putLanes_m, memory_wf_raise, hm]

theorem nextWf_execFclass (f : Form) : NextWf (execFclass f s) := nextWf_laneOp hm _ _ _
theorem nextWf_execFcvt (f : Form) : NextWf (execFcvt f s) := nextWf_flagOp hm _ _ _ _
theorem nextWf_execFrint (f : Form) : NextWf (execFrint f s) := nextWf_flagOp hm _ _ _ _
theorem nextWf_execFcvti (f : Form) : NextWf (execFcvti f s) := nextWf_flagOp hm _ _ _ _
theorem nextWf_execIcvtf (f : Form) : NextWf (execIcvtf f s) := nextWf_flagOp hm _ _ _ _
theorem nextWf_execFscaleb (f : Form) : NextWf (execFscaleb f s) := nextWf_flagOp hm _ _ _ _
theorem nextWf_execFlogb (f : Form) : NextWf (execFlogb f s) := nextWf_flagOp hm _ _ _ _
theorem nextWf_execPk8 (f : Form) : NextWf (execPk8 f s) := nextWf_flagOp hm _ _ _ _
theorem nextWf_execUpk8 (f : Form) : NextWf (execUpk8 f s) := nextWf_laneOp hm _ _ _
theorem nextWf_execBscale (f : Form) : NextWf (execBscale f s) := nextWf_flagOp hm _ _ _ _
theorem nextWf_execFexcRd (f : Form) : NextWf (execFexcRd f s) := nextWf_laneOp hm _ _ _

theorem nextWf_execFexcClr (f : Form) : NextWf (execFexcClr f s) := by
  unfold execFexcClr
  refine nextWf_issuing hm fun c => ?_
  simp -implicitDefEqProofs [foldl_mem, finish_m, hm]

theorem nextWf_execFmodeSet (f : Form) : NextWf (execFmodeSet f s) := by
  unfold execFmodeSet
  refine nextWf_issuing hm fun c => ?_
  dsimp only
  repeat' split
  all_goals simp -implicitDefEqProofs [foldl_mem, finish_m, memory_wf_raise, hm]

theorem nextWf_execFmodeRd (f : Form) : NextWf (execFmodeRd f s) := nextWf_laneOp hm _ _ _

end

/-! ### Machine/Home.lean -/

@[simp] theorem hitOne_mem (s0 : State) (cluster widx kind : Nat) (w : Watchpoint) (who : Party) (before after : Word) :
    (hitOne s0 cluster widx kind w who before after).m.mem = s0.m.mem := by simp [hitOne]

@[simp] theorem noteWatch_mem (s : State) (who : Party) (kind : Nat) (l : Loc) (before : Word) :
    (noteWatch s who kind l before).m.mem = s.m.mem := by
  unfold noteWatch
  refine foldl_mem fun _ _ => ?_
  simp

theorem memory_wf_locStore {s : State} (core : Nat) (l : Loc) (n : Nat) (v : Word) (h : Memory.wf s.m.mem = true) :
    Memory.wf (locStore s core l n v).m.mem = true := by
  cases l with
  | mem a ord => exact memory_wf_cacheStore _ _ _ h
  | scr c pa => exact h

theorem memory_wf_homeWrite {s : State} (l : Loc) (n : Nat) (v : Word) (h : Memory.wf s.m.mem = true) :
    Memory.wf (homeWrite s l n v).m.mem = true := by
  cases l with
  | mem a ord => exact memory_wf_writeMem _ _ _ h
  | scr c pa => exact h

@[simp] theorem homeDrop_mem (s : State) (die : Nat) (l : Loc) : (homeDrop s die l).m.mem = s.m.mem := by
  unfold homeDrop
  split <;> rfl

/-- An access at its home writes no other memory than through `locStore` and `homeWrite`. -/
theorem memory_wf_performLane {s : State} (core : Nat) (who : Party) (op : AccOp) (t : Ty) (nc : Bool) (l : Loc) (v v2 : Word)
    (h : Memory.wf s.m.mem = true) : Memory.wf (performLane s core who op t nc l v v2).1.m.mem = true := by
  have hd : Memory.wf (homeDrop s (dieOfCore core) l).m.mem = true := by simpa using h
  unfold performLane
  dsimp only
  split
  · cases l <;> simpa using h
  · simpa using memory_wf_locStore core l _ v h
  · simpa using memory_wf_homeWrite l _ _ hd
  · simp only [noteWatch_mem]
    split
    · exact memory_wf_homeWrite l _ _ hd
    · exact hd
  · simpa using memory_wf_homeWrite l _ _ hd

@[simp] theorem wcacheFill_mem (s : State) (die : Nat) (es : List WalkEntry) : (wcacheFill s die es).m.mem = s.m.mem := rfl
@[simp] theorem setWalks_mem (s : State) (w : SMap Walk) : (setWalks s w).m.mem = s.m.mem := rfl
@[simp] theorem setFaults_mem (s : State) (w : SMap QFault) : (setFaults s w).m.mem = s.m.mem := rfl

@[simp] theorem startWalk_mem (s : State) (ctx core : Nat) (va : Word) (who : Waiter) :
    (startWalk s ctx core va who).1.m.mem = s.m.mem := by
  unfold startWalk
  split <;> rfl

@[simp] theorem queueFault_mem (s : State) (ctx : Nat) (va : Word) (kind owner space : Nat) (who : List Waiter) :
    (queueFault s ctx va kind owner space who).1.m.mem = s.m.mem := by
  unfold queueFault
  split <;> rfl

@[simp] theorem queueWalk_mem (s : State) (ctx core : Nat) (va : Word) (who : Waiter) :
    (queueWalk s ctx core va who).m.mem = s.m.mem := rfl

@[simp] theorem serveWalk_mem (s : State) (die : Nat) : (serveWalk s die).m.mem = s.m.mem := by
  unfold serveWalk
  dsimp only
  repeat' split
  all_goals simp

@[simp] theorem addUse_mem (s : State) (ctx : Nat) (p : BxPage) : (addUse s ctx p).m.mem = s.m.mem := rfl
@[simp] theorem dropUse_mem (s : State) (ctx : Nat) (p : BxPage) : (dropUse s ctx p).m.mem = s.m.mem := rfl

@[simp] theorem holdPage_mem (s : State) (i ctx : Nat) (va : Word) (lg : Nat) (e : Word) :
    (holdPage s i ctx va lg e).m.mem = s.m.mem := by
  unfold holdPage
  split <;> simp

@[simp] theorem noteFault_mem (s : State) (i : Nat) (va : Word) (kind owner : Nat) :
    (noteFault s i va kind owner).m.mem = s.m.mem := by
  unfold noteFault
  split <;> rfl

@[simp] theorem inject_mem (s : State) (die cluster : Nat) (p : Pkt) : (inject s die cluster p).m.mem = s.m.mem := rfl

@[simp] theorem sendPeer_mem (s : State) (ctx cluster : Nat) (va e : Word) (kind flits : Nat) (body : PktBody) (who : Waiter)
    (lane : Nat) : (sendPeer s ctx cluster va e kind flits body who lane).m.mem = s.m.mem := rfl

/-! ### Machine/Memory.lean -/

@[simp] theorem clearNoFix_mem (s : State) (pid : Nat) : (clearNoFix s pid).m.mem = s.m.mem := rfl

@[simp] theorem stackWrite_mem (s : State) (w lane o n : Nat) (v : Word) :
    (stackWrite s w lane o n v).m.mem = s.m.mem := by simp [stackWrite, setStackWord_m]

theorem memory_wf_doLane {s : State} (c : Ctx) (m : MemOp) (vpc : VPC) (l : LaneChk) (v v2 : Word)
    (h : Memory.wf s.m.mem = true) : Memory.wf (doLane s c m vpc l v v2).1.m.mem = true := by
  unfold doLane
  split
  · exact memory_wf_performLane _ _ _ _ _ _ _ _ h
  · split <;> simpa using h
  · exact h

theorem memory_wf_doLanes (c : Ctx) (m : MemOp) (vpc : VPC) (xs : List (LaneChk × Word × Word)) {s : State}
    (h : Memory.wf s.m.mem = true) : Memory.wf (doLanes c m vpc s xs).1.m.mem = true := by
  induction xs generalizing s with
  | nil => exact h
  | cons x xs ih => exact ih (memory_wf_doLane c m vpc _ _ _ h)

@[simp] theorem setRouter_mem (s : State) (k : Nat) (q : List NetPkt) : (setRouter s k q).m.mem = s.m.mem := rfl
@[simp] theorem setFlows_mem (s : State) (q : SMap Flow) : (setFlows s q).m.mem = s.m.mem := rfl

@[simp] theorem leaveFlow_mem (s : State) (k : Nat) : (leaveFlow s k).m.mem = s.m.mem := by
  unfold leaveFlow
  split <;> rfl

@[simp] theorem pushRouter_mem (s : State) (die router vc : Nat) (p : NetPkt) :
    (pushRouter s die router vc p).m.mem = s.m.mem := by
  unfold pushRouter
  dsimp only
  split <;> simp

@[simp] theorem enterRouter_mem (s : State) (c : Ctx) (m : MemOp) (acc : Nat) (x : LaneChk × Word × Word) :
    (enterRouter s c m acc x).m.mem = s.m.mem := by
  unfold enterRouter
  split <;> simp

@[simp] theorem movePacket_mem (s : State) (k : Nat) : (movePacket s k).m.mem = s.m.mem := by
  unfold movePacket
  dsimp only
  repeat' split
  all_goals simp

@[simp] theorem moveNetwork_mem (s : State) : (moveNetwork s).m.mem = s.m.mem := by
  unfold moveNetwork
  refine foldl_mem fun _ _ => ?_
  simp

@[simp] theorem sendAccess_mem (s : State) (c : Ctx) (f : Form) (m : MemOp) (cls : Nat) (spread : Mask) (xs : List
    (LaneChk × Word × Word)) : (sendAccess s c f m cls spread xs).m.mem = s.m.mem := by
  simp -implicitDefEqProofs [sendAccess, foldl_mem, finish_m]

@[simp] theorem sendPeers_mem (s : State) (c : Ctx) (f : Form) (m : MemOp) (xs : List (LaneChk × Word × Word)) :
    (sendPeers s c f m xs).m.mem = s.m.mem := by
  unfold sendPeers
  simp only [hold_m]
  exact foldl_mem fun _ _ => by split <;> simp

@[simp] theorem dropTrackers_mem (s : State) (w : Waiter) : (dropTrackers s w).m.mem = s.m.mem := rfl

theorem memory_wf_doAccess {s : State} (c : Ctx) (f : Form) (m : MemOp) (spread : Mask) (xs : List (LaneChk × Word × Word))
    (h : Memory.wf s.m.mem = true) : Memory.wf (doAccess s c f m spread xs).m.mem = true := by
  unfold doAccess
  split
  · simpa using h
  · extract_lets r t
    have ht : Memory.wf t.m.mem = true := by
      have hr : Memory.wf r.1.m.mem = true := memory_wf_doLanes _ _ _ _ h
      dsimp only [t]
      split
      · exact hr
      · exact hr
      · simpa [putLanes_m] using hr
    rw [finish_m]
    split <;> simpa using ht

theorem memory_wf_performAccess {s : State} (c : Ctx) (f : Form) (m : MemOp) (spread : Mask) (xs : List (LaneChk × Word × Word))
    (h : Memory.wf s.m.mem = true) : Memory.wf (performAccess s c f m spread xs).m.mem = true := by
  unfold performAccess
  split
  · rw [hold_m]
    exact h
  · exact memory_wf_doAccess _ _ _ _ _ h

theorem memory_wf_finishPeers {s : State} (c : Ctx) (f : Form) (m : MemOp) (sp : Nat) (spread : Mask)
    (rs : List (Nat × Option PktBody)) (xs : List (LaneChk × Word × Word)) (h : Memory.wf s.m.mem = true) :
    Memory.wf (finishPeers s c f m sp spread rs xs).m.mem = true := by
  unfold finishPeers
  extract_lets refused rest far done t
  have hd : Memory.wf done.m.mem = true := by simpa [done] using h
  have ht : Memory.wf t.m.mem = true := by
    dsimp only [t]
    split
    · exact hd
    · exact hd
    · simpa [putLanes_m] using hd
  split
  · exact memory_wf_raise _ _ _ hd
  · split
    · rw [hold_m]
      exact h
    · split
      · rw [finish_m]
        split <;> simpa using ht
      · exact memory_wf_doAccess _ _ _ _ _ ht

@[simp] theorem missWalk_mem (s : State) (c : Ctx) (f : Form) (ls : List LaneChk) : (missWalk s c f ls).m.mem = s.m.mem := by
  unfold missWalk
  split <;> simp [hold_m]

theorem memory_wf_checkOutcome {s t : State} {c : Ctx} {f : Form} {sp : Nat} {ls : List LaneChk} (h : Memory.wf s.m.mem = true)
    (ht : checkOutcome s c f sp ls = some t) : Memory.wf t.m.mem = true := by
  unfold checkOutcome at ht
  dsimp only at ht
  split at ht
  · split_ifs at ht
    · rw [← Option.some.inj ht]
      exact memory_wf_raise _ _ _ h
    · rw [← Option.some.inj ht]
      exact memory_wf_raise _ _ _ (by simpa using h)
    · rw [← Option.some.inj ht]
      simpa using h
    · obtain ⟨x, -, hx⟩ := Option.map_eq_some_iff.1 ht
      rw [← hx]
      split <;> simpa [hold_m] using h
  · split_ifs at ht
    rw [← Option.some.inj ht]
    simpa using h

@[simp] theorem laneDone_mem (s : State) (q : Nat × Nat × Nat) (v : Word) : (laneDone s q v).m.mem = s.m.mem := by
  unfold laneDone
  split <;> simp [putLanes_m]

theorem memory_wf_lostData {s : State} (a : Access) (l : LaneAcc) (h : Memory.wf s.m.mem = true) :
    Memory.wf (lostData s a l).m.mem = true := by
  unfold lostData
  dsimp only
  split
  · exact memory_wf_takeTrap _ _ h
  · rw [failGang_m]
    exact h

theorem memory_wf_performPkt {s : State} (p : NetPkt) (h : Memory.wf s.m.mem = true) :
    Memory.wf (performPkt s p).m.mem = true := by
  unfold performPkt
  extract_lets m1 s1
  have h1 : Memory.wf s1.m.mem = true := h
  clear_value s1
  split
  · exact h1
  · next a l =>
    extract_lets core reads s2 s3 v r
    have h2 : Memory.wf s2.m.mem = true := by
      dsimp only [s2]
      split <;> simpa using h1
    have h3 : Memory.wf s3.m.mem = true := by
      dsimp only [s3]
      split
      · split <;> simpa using h2
      · exact h2
    split
    · exact memory_wf_foldl (memory_wf_lostData _ _ h1) fun _ _ hb => by simpa using hb
    · exact memory_wf_foldl (memory_wf_performLane _ _ _ _ _ _ _ _ h3) fun _ _ hb => by simpa using hb

@[simp] theorem wake_mem (s : State) (pid : Nat) : (wake s pid).m.mem = s.m.mem := rfl

@[simp] theorem wakePaths_mem (s : State) (ws : List Waiter) : (wakePaths s ws).m.mem = s.m.mem := by
  unfold wakePaths
  refine foldl_mem fun _ _ => ?_
  split <;> rfl

@[simp] theorem giveLeaf_mem (s : State) (ctx : Nat) (va : Word) (lg : Nat) (e : Word) (ws : List Waiter) :
    (giveLeaf s ctx va lg e ws).m.mem = s.m.mem := by
  unfold giveLeaf
  refine foldl_mem fun _ _ => ?_
  split <;> simp

@[simp] theorem giveFault_mem (s : State) (ctx : Nat) (va : Word) (kind owner : Nat) (ws : List Waiter) :
    (giveFault s ctx va kind owner ws).m.mem = s.m.mem := by
  unfold giveFault
  extract_lets isPath ps q s1
  have h1 : s1.m.mem = s.m.mem := by simp [s1, q]
  rw [← h1]
  exact foldl_mem fun _ _ => by split <;> simp

section
variable {s : State} (hm : Memory.wf s.m.mem = true)
include hm

theorem nextWf_memAccess (f : Form) (mo : Ctx → MemOp) (vk v2k : Option Nat) (signed : Bool) :
    NextWf (memAccess f s mo vk v2k signed) := by
  refine nextWf_issuing hm fun c => ?_
  extract_lets m act noFix val ls xs ys sp s1
  rw [nextWf_next]
  have h1 : Memory.wf s1.m.mem = true := by simpa [s1] using hm
  split
  · rw [hold_m]
    exact hm
  · split
    · next ht => exact memory_wf_checkOutcome hm ht
    · split
      · split
        · simpa using h1
        · exact memory_wf_performAccess _ _ _ _ _ h1
      · exact memory_wf_finishPeers _ _ _ _ _ _ _ h1

theorem nextWf_execLd (f : Form) : NextWf (execLd f s) := nextWf_memAccess hm _ _ _ _ _
theorem nextWf_execSt (f : Form) : NextWf (execSt f s) := nextWf_memAccess hm _ _ _ _ _
theorem nextWf_execAmo (f : Form) : NextWf (execAmo f s) := nextWf_memAccess hm _ _ _ _ _
theorem nextWf_execCas (f : Form) : NextWf (execCas f s) := nextWf_memAccess hm _ _ _ _ _
theorem nextWf_execRed (f : Form) : NextWf (execRed f s) := nextWf_memAccess hm _ _ _ _ _

theorem nextWf_execPrefetch (f : Form) : NextWf (execPrefetch f s) := by
  unfold execPrefetch
  refine nextWf_issuing hm fun c => ?_
  simp only [nextWf_next, finish_m]
  refine memory_wf_foldl hm fun t l ht => ?_
  split
  · exact ht
  · split
    · exact ht
    · split <;> simpa using ht

theorem nextWf_execFence (f : Form) : NextWf (execFence f s) := by
  unfold execFence
  refine nextWf_issuing hm fun c => ?_
  simp [hold_m, finish_m, hm]

theorem nextWf_execAccessPerformed (warp : Nat) : NextWf (execAccessPerformed warp s) := by
  unfold execAccessPerformed
  split
  · simp
  · rw [nextWf_next]
    split
    · exact memory_wf_performPkt _ hm
    · exact hm

theorem nextWf_execWalkComplete (die wid : Nat) : NextWf (execWalkComplete die wid s) := by
  unfold execWalkComplete
  dsimp only
  repeat' split
  all_goals simp [hm]

theorem nextWf_execRedMerge (die queue : Nat) : NextWf (execRedMerge die queue s) := by
  unfold execRedMerge
  dsimp only
  repeat' split
  all_goals simp -implicitDefEqProofs [foldl_mem, hm]

theorem nextWf_execFlowRouteChoice (die src dst : Nat) : NextWf (execFlowRouteChoice die src dst s) := by
  unfold execFlowRouteChoice
  dsimp only
  repeat' split
  all_goals simp [hm]

end

/-! ### Machine/Barrier.lean -/

@[simp] theorem setBars_mem (s : State) (thread : Nat) (f : List BarSlot → List BarSlot) :
    (setBars s thread f).m.mem = s.m.mem := rfl

@[simp] theorem atBanks_mem (s : State) (xs : List BarLane) (op : State → Nat → List BarLane → Nat) :
    (atBanks s xs op).m.mem = s.m.mem := by
  unfold atBanks
  refine foldl_mem fun _ _ => ?_
  rfl

@[simp] theorem arriveAll_mem (s : State) (c : Ctx) (xs : List BarLane) : (arriveAll s c xs).m.mem = s.m.mem := by
  simp -implicitDefEqProofs [arriveAll, foldl_mem]

@[simp] theorem barAwait_mem (s : State) (c : Ctx) (f : Form) (ws : List (Nat × Nat × Nat × BitVec 16)) :
    (barAwait s c f ws).m.mem = s.m.mem := by simp [barAwait, finish_m, putLanes_m, hold_m]

@[simp] theorem setSwaps_mem (s : State) (xs : List Swap) : (setSwaps s xs).m.mem = s.m.mem := rfl
@[simp] theorem withdrawSwap_mem (s : State) (pid : Nat) : (withdrawSwap s pid).m.mem = s.m.mem := rfl

section
variable {s : State} (hm : Memory.wf s.m.mem = true)
include hm

theorem nextWf_atBarrier {f : Form} {bad : State → BarLane → Bool} {k : Ctx → List BarLane → State}
    (hk : ∀ c xs, Memory.wf (k c xs).m.mem = true) : NextWf (atBarrier f s bad k) := by
  refine nextWf_issuing hm fun c => ?_
  dsimp only
  rw [nextWf_next]
  split
  · exact memory_wf_raise _ _ _ hm
  · split
    · exact memory_wf_raise _ _ _ hm
    · split
      · rw [hold_m]
        exact hm
      · split
        · exact memory_wf_raise _ _ _ hm
        · exact hk _ _

theorem nextWf_execBarJoin (f : Form) : NextWf (execBarJoin f s) := by
  unfold execBarJoin
  refine nextWf_atBarrier hm fun c xs => ?_
  simp -implicitDefEqProofs [foldl_mem, finish_m, hm]

theorem nextWf_execBarLeave (f : Form) : NextWf (execBarLeave f s) := by
  unfold execBarLeave
  refine nextWf_atBarrier hm fun c xs => ?_
  simp -implicitDefEqProofs [foldl_mem, finish_m, hm]

theorem nextWf_barRelease {f : Form} {k : State → Out} (hk : NextWf (k s)) : NextWf (barRelease f s k) := by
  refine nextWf_issuing hm fun c => ?_
  split
  · exact hk
  · simpa [hold_m] using hm

theorem nextWf_execBarArrive (f : Form) : NextWf (execBarArrive f s) :=
  nextWf_barRelease hm (nextWf_atBarrier hm fun c xs => by simpa [finish_m, putLanes_m] using hm)

theorem nextWf_execBarWait (f : Form) : NextWf (execBarWait f s) := by
  unfold execBarWait
  refine nextWf_atBarrier hm fun c xs => ?_
  simp [hm]

theorem nextWf_execBarSync (f : Form) : NextWf (execBarSync f s) := by
  unfold execBarSync
  refine nextWf_issuing hm fun c => ?_
  dsimp only
  split
  · simpa using hm
  · exact nextWf_barRelease hm (nextWf_atBarrier hm fun c xs => by simpa using hm)

theorem nextWf_execYield (f : Form) : NextWf (execYield f s) := by
  unfold execYield
  refine nextWf_issuing hm fun c => ?_
  simp [finish_m, hm]

theorem nextWf_execBarrierRelease (core word : Nat) : NextWf (execBarrierRelease core word s) := by
  unfold execBarrierRelease
  simp -implicitDefEqProofs [foldl_mem, hm]

theorem nextWf_execXcSwap (f : Form) : NextWf (execXcSwap f s) := by
  unfold execXcSwap
  refine nextWf_issuing hm fun c => ?_
  dsimp only
  repeat' split
  all_goals simp [finish_m, putLanes_m, hold_m, memory_wf_raise, hm]

theorem nextWf_execSwapPaired (die : Nat) : NextWf (execSwapPaired die s) := by
  unfold execSwapPaired
  split <;> simp [hm]

theorem nextWf_execPathExchange (warp : Nat) : NextWf (execPathExchange warp s) := by
  unfold execPathExchange
  split <;> simp [hm]

end

/-! ### Machine/Tokens.lean -/

@[simp] theorem fillWith_mem (s : State) (ids : List Nat) (e : Entry) : (fillWith s ids e).m.mem = s.m.mem := by
  unfold fillWith
  refine foldl_mem fun _ _ => ?_
  rfl

@[simp] theorem dropWritten_mem (s : State) (core : Nat) (ids : List Nat) :
    (dropWritten s core ids).m.mem = s.m.mem := by simp [dropWritten]

@[simp] theorem popAcquire_mem (s : State) (core : Nat) (ids : List Nat) :
    (popAcquire s core ids).m.mem = s.m.mem := by simp [popAcquire]

@[simp] theorem settle_mem (n : Nat) (s : State) : (settle n s).m.mem = s.m.mem := by
  induction n generalizing s with
  | zero => rfl
  | succ n ih =>
    unfold settle
    split
    · rfl
    · dsimp only
      rw [ih]
      split <;> simp

@[simp] theorem settleAll_mem (s : State) : (settleAll s).m.mem = s.m.mem := by simp [settleAll]

@[simp] theorem fillTokens_mem (s : State) (ids : List Nat) (e : Entry) :
    (fillTokens s ids e).m.mem = s.m.mem := by simp [fillTokens]

@[simp] theorem reserveTok_mem (core : Nat) (e : Entry) (n : Nat) (s : State) (ids : List Nat) :
    (reserveTok core e n s ids).1.m.mem = s.m.mem := by
  induction n generalizing s ids with
  | zero => rfl
  | succ n ih => exact (ih _ _).trans (by simp [setPair_m])

@[simp] theorem reserveUses_mem (core : Nat) (e : Entry) (u : Uses) (s : State) :
    (reserveUses core e u s).1.m.mem = s.m.mem := by simp [reserveUses]

@[simp] theorem fanOut_mem (c : Ctx) (lane n : Nat) (s : State) (i : Nat) (u : Uses) (more : Bool) :
    (fanOut c lane n s i u more).m.mem = s.m.mem := by
  induction n generalizing s i u with
  | zero => rfl
  | succ n ih =>
    unfold fanOut
    extract_lets core e all now rest r q core' k t
    have ht : t.m.mem = s.m.mem := by simp [t, q, r, eraseEntry_m]
    split
    · split
      · rw [ih, ht]
      · exact ht
    · exact ht

@[simp] theorem reserveValue_mem (s : State) (c : Ctx) (x lane : Nat) : (reserveValue s c x lane).1.m.mem = s.m.mem := by
  unfold reserveValue
  dsimp only
  repeat' split
  all_goals simp

@[simp] theorem carryOne_mem (c : Ctx) (lane y : Nat) (s : State) (g n : Nat) : (carryOne c lane y s g n).m.mem = s.m.mem := by
  unfold carryOne
  dsimp only
  split <;> simp

@[simp] theorem carryToks_mem (s : State) (c : Ctx) (f : Form) (toks : List Operand) (y : Nat) :
    (carryToks s c f toks y).m.mem = s.m.mem := by
  unfold carryToks
  dsimp only
  repeat' split
  all_goals simp -implicitDefEqProofs [foldl_mem]

@[simp] theorem popDying_mem (s : State) (core : Nat) (ids : List Nat) : (popDying s core ids).m.mem = s.m.mem := by
  simp -implicitDefEqProofs [popDying, foldl_mem, eraseEntry_m]

/-! ### Machine/Control.lean -/

@[simp] theorem passArgs_mem (s : State) (c : Ctx) (es : List Edge) : (passArgs s c es).m.mem = s.m.mem := by
  unfold passArgs
  refine foldl_mem fun _ _ => ?_
  rfl

@[simp] theorem splitChain_mem (j : JoinPt) (gs : List (Mask × Pc)) (s : State) (p : Nat) (ps : List Nat) :
    (splitChain j gs s p ps).1.m.mem = s.m.mem := by
  induction gs generalizing s p ps with
  | nil => rfl
  | cons g gs ih =>
    cases gs with
    | nil => rfl
    | cons g' gs => exact (ih _ _ _).trans (by simp [splitPath_m])

@[simp] theorem comeTo_mem (s : State) (c : Ctx) (pid b : Nat) : (comeTo s c pid b).m.mem = s.m.mem := by
  unfold comeTo
  dsimp only
  split <;> simp [arrive_m]

theorem afterPops_mem {s t : State} (c : Ctx) (f : Form) (depth : Option Nat) (h : t.m.mem = s.m.mem) :
    (afterPops s c f depth t).m.mem = s.m.mem := by
  unfold afterPops
  split
  · exact h
  · simp [hold_m]

@[simp] theorem takeEdges_mem (s : State) (c : Ctx) (es : List Edge) : (takeEdges s c es).m.mem = s.m.mem := by
  simp -implicitDefEqProofs [takeEdges, foldl_mem]

@[simp] theorem putArgWord_mem (s : State) (w lane sp k v : Nat) :
    (putArgWord s w lane sp k v).m.mem = s.m.mem := by simp [putArgWord, setStackWord_m]

@[simp] theorem putArg_mem (s : State) (w lane sp : Nat) (t : Ty) (k : Nat) (v : Word) :
    (putArg s w lane sp t k v).m.mem = s.m.mem := by simp [putArg]

@[simp] theorem enterCallee_mem (s : State) (c : Ctx) (fn w : Nat) (wants : Option Nat) (args : List Operand) :
    (enterCallee s c fn w wants args).m.mem = s.m.mem := by
  simp -implicitDefEqProofs [enterCallee, foldl_mem, putHeader_m]

@[simp] theorem missKey_mem (s : State) (pid : Nat) (f : Form) (key : TKey) :
    (missKey s pid f key).m.mem = s.m.mem := by simp [missKey, hold_m]

theorem memory_wf_callFn {s : State} (c : Ctx) (f : Form) (fn : Nat) (wants : Option Nat) (args : List Operand)
    (h : Memory.wf s.m.mem = true) : Memory.wf (callFn s c f fn wants args).m.mem = true := by
  unfold callFn
  dsimp only
  split
  · exact memory_wf_raise _ _ _ h
  · split
    · rw [hold_m]
      exact h
    · split
      · simpa using h
      · split
        · exact memory_wf_raise _ _ _ h
        · simpa using h

@[simp] theorem exitLanes_mem (s : State) (p : Nat) : (exitLanes s p).m.mem = s.m.mem := by
  unfold exitLanes
  dsimp only
  repeat' split
  all_goals simp -implicitDefEqProofs [foldl_mem, leaveBars_m, dropLanes_m, finishHandler_m, noteLeft_m]

@[simp] theorem endAfter_mem (s : State) : (endAfter s).m.mem = s.m.mem := rfl

@[simp] theorem returnTo_mem (s : State) (c : Ctx) (fr : Frame) (rest : List Frame) (rs : List (Nat × Word)) :
    (returnTo s c fr rest rs).m.mem = s.m.mem := by
  unfold returnTo
  dsimp only
  repeat' split
  all_goals simp -implicitDefEqProofs [foldl_mem, setSreg_m, arrive_m]

@[simp] theorem leaveHandler_mem (s : State) (c : Ctx) (f : Form) : (leaveHandler s c f).m.mem = s.m.mem := by
  unfold leaveHandler
  dsimp only
  repeat' split
  all_goals simp -implicitDefEqProofs [foldl_mem, noteLeft_m, finishHandler_m, dropLanes_m]

section
variable {s : State} (hm : Memory.wf s.m.mem = true)
include hm

theorem nextWf_execBr (f : PForm) : NextWf (execBr f s) := by
  unfold execBr
  refine nextWf_issuing hm fun c => ?_
  simp [hm]

theorem nextWf_execBrc (f : PForm) : NextWf (execBrc f s) := by
  unfold execBrc
  refine nextWf_issuing hm fun c => ?_
  simp [hm]

theorem nextWf_execSwitch (f : PForm) : NextWf (execSwitch f s) := by
  unfold execSwitch
  refine nextWf_issuing hm fun c => ?_
  simp [hm]

theorem nextWf_execCall (f : PForm) : NextWf (execCall f s) := by
  unfold execCall
  refine nextWf_issuing hm fun c => ?_
  simp [memory_wf_callFn, hm]

theorem nextWf_execCallx (f : PForm) : NextWf (execCallx f s) := by
  unfold execCallx
  refine nextWf_issuing hm fun c => ?_
  dsimp only
  repeat' split
  all_goals simp -implicitDefEqProofs [foldl_mem, hold_m, memory_wf_raise, memory_wf_callFn, hm]

theorem nextWf_execExit (f : Form) : NextWf (execExit f s) := by
  unfold execExit
  refine nextWf_issuing hm fun c => ?_
  split <;> simp [afterPops_mem, hm]

theorem nextWf_execRet (f : PForm) : NextWf (execRet f s) := by
  unfold execRet
  refine nextWf_issuing hm fun c => ?_
  dsimp only
  repeat' split
  all_goals simp -implicitDefEqProofs [foldl_mem, arrive_m, afterPops_mem, hm]

theorem nextWf_execTrap (f : Form) : NextWf (execTrap f s) := by
  unfold execTrap
  refine nextWf_issuing hm fun c => ?_
  simp [memory_wf_raise, hm]

theorem nextWf_execUnreach (f : PForm) : NextWf (execUnreach f s) := by
  unfold execUnreach
  refine nextWf_issuing hm fun c => ?_
  simp [memory_wf_raise, hm]

theorem nextWf_execTrapInfo (f : Form) : NextWf (execTrapInfo f s) := nextWf_laneOp hm _ _ _

theorem nextWf_execTrapRet (f : Form) : NextWf (execTrapRet f s) := by
  unfold execTrapRet
  refine nextWf_issuing hm fun c => ?_
  split <;> simp [afterPops_mem, hm]

end

/-! ### Machine/Special.lean -/

theorem memory_wf_readRecords {s t : State} {c : Ctx} {f : Form} {sp n align : Nat} {lanes : List Nat}
    (h : Memory.wf s.m.mem = true) (ht : readRecords s c f sp lanes n align = .error t) : Memory.wf t.m.mem = true := by
  unfold readRecords at ht
  dsimp only at ht
  split at ht
  · next hc =>
    rw [← Except.error.inj ht]
    exact memory_wf_checkOutcome h hc
  · split at ht
    · rw [← Except.error.inj ht, hold_m]
      exact h
    · simp at ht

@[simp] theorem leaveLoads_mem (s : State) (core pid : Nat) : (leaveLoads s core pid).m.mem = s.m.mem := rfl
@[simp] theorem withdrawLoad_mem (s : State) (pid : Nat) : (withdrawLoad s pid).m.mem = s.m.mem := by simp [withdrawLoad]

section
variable {s : State} (hm : Memory.wf s.m.mem = true)
include hm

theorem nextWf_execSfEval (f : Form) : NextWf (execSfEval f s) := by
  unfold execSfEval
  refine nextWf_issuing hm fun c => ?_
  dsimp only
  repeat' split
  all_goals simp [memory_wf_raise, memory_wf_withFlags, hm]

theorem nextWf_execSfLoad (f : Form) : NextWf (execSfLoad f s) := by
  unfold execSfLoad
  refine nextWf_issuing hm fun c => ?_
  extract_lets core sf q s0
  have h0 : Memory.wf s0.m.mem = true := by simpa [s0] using hm
  clear_value s0
  rw [nextWf_next]
  split
  · simpa [hold_m] using h0
  · split
    · next hr =>
      split
      · exact memory_wf_readRecords h0 hr
      · simpa using memory_wf_readRecords h0 hr
    · dsimp only
      split
      · simpa using memory_wf_raise c f _ h0
      · simpa [finish_m, putLanes_m] using h0

end

/-! ### Machine/Block.lean -/

@[simp] theorem reserveOut_mem (s : State) (c : Ctx) (f : Form) (x lane : Nat) : (reserveOut s c f x lane).1.m.mem = s.m.mem := by
  unfold reserveOut
  split
  · simp
  · exact foldl_fst_mem (fun a p => by simp [reserveN_m]) _ _

@[simp] theorem pushCmd_mem (s : State) (core engine i : Nat) : (pushCmd s core engine i).m.mem = s.m.mem := by simp [pushCmd]

@[simp] theorem issueLane_mem (s : State) (c : Ctx) (f : Form) (k : Cmd) : (issueLane s c f k).m.mem = s.m.mem := by
  unfold issueLane
  split <;> simp [putDst_m]

theorem issueAll_mem {s : State} (c : Ctx) (f : Form) (mk : Nat → Cmd) {before : State → Cmd → State}
    (h : ∀ t k, (before t k).m.mem = t.m.mem) : (issueAll s c f mk before).m.mem = s.m.mem := by
  unfold issueAll
  refine foldl_mem fun _ _ => ?_
  rw [issueLane_mem, h]

theorem memory_wf_issueCmds {s0 s : State} (c : Ctx) (f : Form) (mk : Nat → Cmd) {before : State → Cmd → State}
    (h0 : Memory.wf s0.m.mem = true) (h : Memory.wf s.m.mem = true) (hb : ∀ t k, (before t k).m.mem = t.m.mem) :
    Memory.wf (issueCmds s0 s c f mk before).m.mem = true := by
  unfold issueCmds
  dsimp only
  split
  · exact memory_wf_raise _ _ _ h0
  · rw [finish_m, issueAll_mem c f mk hb]
    exact h

@[simp] theorem releasePages_mem (s : State) (i : Nat) (k : Cmd) (o : CopyOp) : (releasePages s i k o).m.mem = s.m.mem := by
  unfold releasePages
  refine foldl_mem fun _ _ => ?_
  rfl

@[simp] theorem startWalks_mem (s : State) (i : Nat) (k : Cmd) (ps : List Nat) : (startWalks s i k ps).m.mem = s.m.mem := by
  unfold startWalks
  refine foldl_mem fun _ _ => ?_
  simp

@[simp] theorem engineRead_mem (s : State) (core : Nat) (l : Loc) (n : Nat) :
    (engineRead s core l n).1.m.mem = s.m.mem := by simp [engineRead]

theorem memory_wf_engineWrite {s : State} (core : Nat) (l : Loc) (n : Nat) (v : Word) (h : Memory.wf s.m.mem = true) :
    Memory.wf (engineWrite s core l n v).m.mem = true := by
  cases l with
  | mem a ord => simpa [engineWrite] using memory_wf_writeMem a n v.toNat h
  | scr c pa => simpa [engineWrite] using h

/-- The near side of a moved element: a store to the scratchpad, or an addition there. -/
theorem memory_wf_moveElem (k : Cmd) (o : CopyOp) (nh : Option (Nat × Nat)) (peer : Elem → Option (Option Word)) {a : Moved}
    (x : Elem) (h : Memory.wf a.s.m.mem = true) : Memory.wf (moveElem k o nh peer a x).s.m.mem = true := by
  unfold moveElem
  extract_lets n toNear
  have hnear : ∀ (t : State) (v : Word), Memory.wf t.m.mem = true → Memory.wf (toNear t v).m.mem = true := by
    intro t v ht
    dsimp only [toNear]
    split
    · exact ht
    · split <;> exact memory_wf_engineWrite _ _ _ _ ht
  clear_value toNear
  split
  · exact h
  · split
    · split
      · exact hnear _ _ h
      · split
        · split
          · exact h
          · exact hnear _ _ (by simpa using h)
        · split
          · exact hnear _ _ h
          · exact h
        · exact h
    · split
      · exact h
      · split
        · split
          · exact h
          · dsimp only
            split
            · exact memory_wf_performLane _ _ _ _ _ _ _ _ h
            · exact memory_wf_engineWrite _ _ _ _ h
        · split <;> exact h
        · exact h

theorem memory_wf_moveElems (k : Cmd) (o : CopyOp) (nh : Option (Nat × Nat)) (peer : Elem → Option (Option Word))
    (es : List Elem) {a : Moved} (h : Memory.wf a.s.m.mem = true) :
    Memory.wf (es.foldl (moveElem k o nh peer) a).s.m.mem = true :=
  List.foldlRecOn (motive := fun a : Moved => Memory.wf a.s.m.mem = true) es _ h fun _ ha e _ => memory_wf_moveElem k o nh peer e ha

theorem memory_wf_moveUnit {s : State} (i : Nat) (k : Cmd) (o : CopyOp) (u : Nat) (h : Memory.wf s.m.mem = true) :
    Memory.wf (moveUnit s i k o u).m.mem = true := by
  unfold moveUnit
  extract_lets nh es peers vs qs rs ix peer a refused scrBad cause k1 s0 r0 t t1
  have ha : Memory.wf a.s.m.mem = true := memory_wf_moveElems _ _ _ _ _ h
  have ht : Memory.wf t.m.mem = true := ha
  have ht1 : Memory.wf t1.m.mem = true := by
    clear_value t nh
    dsimp only [t1]
    split
    · split <;> exact ht
    · exact ht
  split_ifs
  · exact memory_wf_foldl h fun _ _ hb => by simpa using hb
  · exact h
  · simpa using ht1

theorem memory_wf_runUnit {s : State} (i u : Nat) (h : Memory.wf s.m.mem = true) : Memory.wf (runUnit s i u).m.mem = true := by
  unfold runUnit
  split
  · exact h
  · split
    · exact h
    · split_ifs
      · exact h
      · exact h
      · exact h
      · split
        · exact memory_wf_moveUnit _ _ _ _ h
        · simpa using h

@[simp] theorem joinTurnQueue_mem (s : State) (hop end_ i : Nat) :
    (joinTurnQueue s hop end_ i).m.mem = s.m.mem := by simp [joinTurnQueue]

@[simp] theorem dropLocks_mem (s : State) (i : Nat) : (dropLocks s i).m.mem = s.m.mem := rfl

@[simp] theorem noteWrote_mem (s : State) (core : Nat) (fs : List Nat) :
    (noteWrote s core fs).m.mem = s.m.mem := by simp [noteWrote]

@[simp] theorem completeCopy_mem (s : State) (i : Nat) (k : Cmd) (o : CopyOp) : (completeCopy s i k o).m.mem = s.m.mem := by
  unfold completeCopy
  split <;> simp [setTags_m]

@[simp] theorem lockNear_mem (c : Ctx) (f : Form) (s : State) (k : Cmd) : (lockNear c f s k).m.mem = s.m.mem := by
  unfold lockNear
  dsimp only
  repeat' split
  all_goals simp [setChunks_m]

@[simp] theorem withdrawShapes_mem (s : State) (pid : Nat) : (withdrawShapes s pid).m.mem = s.m.mem := by
  unfold withdrawShapes
  refine foldl_mem fun _ _ => ?_
  rfl

@[simp] theorem queueShapes_mem (s : State) (c : Ctx) (f : Form) : (queueShapes s c f).m.mem = s.m.mem := by
  simp -implicitDefEqProofs [queueShapes, foldl_mem]

@[simp] theorem popShapes_mem (s : State) (c : Ctx) (ids : List Nat) : (popShapes s c ids).m.mem = s.m.mem := by
  unfold popShapes
  refine foldl_mem fun _ _ => ?_
  split <;> simp [doPops_m]

@[simp] theorem shapeWritten_mem (s2 : State) (c : Ctx) (f : Form) (recs : List (Nat × List Byte)) :
    (shapeWritten s2 c f recs).m.mem = s2.m.mem := by
  unfold shapeWritten
  refine foldl_mem fun _ _ => ?_
  split <;> simp [putDst_m]

theorem memory_wf_shapeDone {s : State} (c : Ctx) (f : Form) (recs : List (Nat × List Byte)) (h : Memory.wf s.m.mem = true) :
    Memory.wf (shapeDone s c f recs).m.mem = true := by
  unfold shapeDone
  dsimp only
  split
  · exact memory_wf_raise _ _ _ (by simpa using h)
  · simpa [finish_m] using h

theorem memory_wf_shapeRead {s : State} (c : Ctx) (f : Form) (sp : Nat) {k : List (Nat × List Byte) → State}
    (h : Memory.wf s.m.mem = true) (hk : ∀ rs, Memory.wf (k rs).m.mem = true) : Memory.wf (shapeRead s c f sp k).m.mem = true := by
  unfold shapeRead
  split
  · next hr =>
    split
    · exact memory_wf_readRecords h hr
    · simpa using memory_wf_readRecords h hr
  · dsimp only
    split
    · exact memory_wf_raise _ _ _ (by simpa using h)
    · exact hk _

@[simp] theorem takeHeads_mem (core : Nat) (xs : List Nat) (s : State) : (takeHeads core xs s).1.m.mem = s.m.mem := by
  induction xs generalizing s with
  | nil => rfl
  | cons x xs ih =>
    unfold takeHeads
    split
    · exact ih s
    · exact (ih _).trans (by simp [setPair_m])

@[simp] theorem issueT_mem (s0 : State) (c : Ctx) (f : Form) (lane : Nat) (body : CmdBody) (ids : List Nat) :
    (issueT s0 c f lane body ids).m.mem = s0.m.mem := by
  unfold issueT
  dsimp only
  repeat' split
  all_goals simp -implicitDefEqProofs [foldl_mem, eraseEntry_m, putDst_m]

@[simp] theorem takeAll_mem (s : State) (c : Ctx) (f : Form) (body : CmdBody) (codes : List Nat) (toks : List Operand) :
    (takeAll s c f body codes toks).m.mem = s.m.mem := by
  unfold takeAll
  refine foldl_mem fun _ _ => ?_
  split <;> simp

section
variable {s : State} (hm : Memory.wf s.m.mem = true)
include hm

theorem nextWf_execBxCommandStart (core : Nat) : NextWf (execBxCommandStart core s) := by
  unfold execBxCommandStart
  dsimp only
  repeat' split
  all_goals simp [doPops_m, hm]

theorem nextWf_execBxCommandPark (core i : Nat) : NextWf (execBxCommandPark core i s) := by
  unfold execBxCommandPark
  dsimp only
  repeat' split
  all_goals simp [hm]

theorem nextWf_execChunkFull (core i u : Nat) : NextWf (execChunkFull core i u s) := by
  unfold execChunkFull
  split
  · simp
  · split
    · simpa using hm
    · simpa using memory_wf_runUnit i u hm

theorem nextWf_execBxCommandComplete (core i : Nat) : NextWf (execBxCommandComplete core i s) := by
  unfold execBxCommandComplete
  split
  · simp
  · next k hk =>
    split
    · simpa using hm
    · next o ho =>
      split
      · simpa using hm
      · extract_lets s1
        have h1 : Memory.wf s1.m.mem = true := by
          dsimp only [s1]
          split
          · exact hm
          · exact memory_wf_foldl hm fun t u ht => memory_wf_runUnit i u ht
        split
        · exact (nextWf_next _).2 h1
        · split <;> simpa using h1

theorem nextWf_execQueueOverflow (core queue : Nat) : NextWf (execQueueOverflow core queue s) := by
  unfold execQueueOverflow
  split_ifs <;> simp [hm]

theorem nextWf_copyIssue (kind : CopyKind) (f : Form) : NextWf (copyIssue kind f s) := by
  refine nextWf_issuing hm fun c => ?_
  dsimp only
  rw [nextWf_next]
  split
  · exact memory_wf_raise _ _ _ hm
  · exact memory_wf_issueCmds _ _ _ hm (by simpa using hm) (by simp)

theorem nextWf_execBxCopy (f : Form) : NextWf (execBxCopy f s) := nextWf_copyIssue hm _ _
theorem nextWf_execBxConv (f : Form) : NextWf (execBxConv f s) := nextWf_copyIssue hm _ _
theorem nextWf_execBxFill (f : Form) : NextWf (execBxFill f s) := nextWf_copyIssue hm _ _
theorem nextWf_execBxGather (f : Form) : NextWf (execBxGather f s) := nextWf_copyIssue hm _ _
theorem nextWf_execBxScatter (f : Form) : NextWf (execBxScatter f s) := nextWf_copyIssue hm _ _
theorem nextWf_execBxRed (f : Form) : NextWf (execBxRed f s) := nextWf_copyIssue hm _ _

theorem nextWf_execBxShape (f : Form) : NextWf (execBxShape f s) := by
  unfold execBxShape
  refine nextWf_issuing hm fun c => ?_
  dsimp only
  repeat' split
  all_goals simp [hold_m, memory_wf_raise, memory_wf_shapeRead, memory_wf_shapeDone, hm]

theorem nextWf_popping {f : Form} {k : Ctx → List (Nat × Entry) → State → State} (hk : ∀ c es t, (k c es t).m.mem = t.m.mem) :
    NextWf (popping f s k) := by
  refine nextWf_issuing hm fun c => ?_
  dsimp only
  split
  · simpa [hold_m] using hm
  · split
    · simpa [hold_m] using hm
    · rw [nextWf_next, finish_m, hk, popAcquire_mem]
      split
      · rw [foldl_mem fun t i => congrArg (·.mem) (eraseEntry_m t _ i)]
        simpa using hm
      · simpa [setPair_m] using hm

theorem nextWf_execWaitTok (f : Form) : NextWf (execWaitTok f s) := by
  unfold execWaitTok
  refine nextWf_popping hm fun c es t => ?_
  simp [putLanes_m]

theorem nextWf_execTokStatus (f : Form) : NextWf (execTokStatus f s) := by
  unfold execTokStatus
  refine nextWf_popping hm fun c es t => ?_
  simp [putLanes_m]

theorem nextWf_execTqPop (f : NForm) : NextWf (execTqPop f s) := by
  unfold execTqPop
  refine nextWf_popping hm fun c es t => ?_
  simp [putLanes_m]

theorem nextWf_issueTs (f : Form) (body : CmdBody) (codes : List Nat) (toks : List Operand) (span : Bool) :
    NextWf (issueTs f s body codes toks span) := by
  refine nextWf_issuing hm fun c => ?_
  extract_lets out t
  clear_value out
  rw [nextWf_next]
  split
  · exact memory_wf_raise _ _ _ hm
  · split
    · exact memory_wf_raise _ _ _ hm
    · simpa [finish_m, t] using hm

theorem nextWf_execTokAll (f : Form) : NextWf (execTokAll f s) := nextWf_issueTs hm _ _ _ _ _
theorem nextWf_execTqPush (f : NForm) : NextWf (execTqPush f s) := nextWf_issueTs hm _ _ _ _ _

theorem nextWf_onChunks {f : Form} {k : Ctx → List (ChunkRange × Nat × Nat) → State}
    (hk : ∀ c rs, Memory.wf (k c rs).m.mem = true) : NextWf (onChunks f s k) := by
  refine nextWf_issuing hm fun c => ?_
  dsimp only
  split
  · exact (nextWf_next _).2 (memory_wf_raise _ _ _ hm)
  · exact (nextWf_next _).2 (hk _ _)

theorem nextWf_execWaitChunks (f : Form) : NextWf (execWaitChunks f s) := by
  unfold execWaitChunks
  refine nextWf_onChunks hm fun c rs => ?_
  split <;> simp [hold_m, finish_m, putLanes_m, hm]

theorem nextWf_execTestChunks (f : Form) : NextWf (execTestChunks f s) := by
  unfold execTestChunks
  refine nextWf_onChunks hm fun c rs => ?_
  simp [finish_m, putLanes_m, hm]

theorem nextWf_execClrChunks (f : Form) : NextWf (execClrChunks f s) := by
  refine nextWf_onChunks hm fun c rs => ?_
  split
  · simpa [hold_m] using hm
  · rw [finish_m]
    exact memory_wf_foldl hm fun t r ht => by simpa [setChunks_m] using ht

end

/-! ### Machine/Convoy.lean -/

@[simp] theorem refillTurns_mem (s : State) (hop : Nat) : (refillTurns s hop).m.mem = s.m.mem := by
  simp -implicitDefEqProofs [refillTurns, foldl_mem]

@[simp] theorem finishTurn_mem (s : State) (i : Nat) (failed : Bool) : (finishTurn s i failed).m.mem = s.m.mem := by
  unfold finishTurn
  split <;> simp

@[simp] theorem linkEvent_mem (s : State) (die link strand : Nat) : (linkEvent s die link strand).m.mem = s.m.mem := rfl
@[simp] theorem retrainStart_mem (s : State) (hop : Nat) : (retrainStart s hop).m.mem = s.m.mem := rfl

@[simp] theorem retrainEnd_mem (s : State) (hop : Nat) (rs : List Hdr) (failed : BitVec 16) :
    (retrainEnd s hop rs failed).m.mem = s.m.mem := by
  simp -implicitDefEqProofs [retrainEnd, foldl_mem, done_m]

@[simp] theorem enterFar_mem (s : State) (hop : Nat) (d : Dir) (p0 : Pkt) :
    (enterFar s hop d p0).m.mem = s.m.mem := by simp [enterFar]

@[simp] theorem leaveBuf_mem (s : State) (key : Nat) (p : Pkt) : (leaveBuf s key p).m.mem = s.m.mem := by simp [leaveBuf]
@[simp] theorem refusalEvent_mem (s : State) (die : Nat) (p : Pkt) : (refusalEvent s die p).m.mem = s.m.mem := rfl

@[simp] theorem sendReply_mem (s : State) (die : Nat) (p : Pkt) (kind : Nat) (body : PktBody) :
    (sendReply s die p kind body).m.mem = s.m.mem := rfl

theorem memory_wf_performRequest {s : State} (die : Nat) (p : Pkt) (l : Loc) (h : Memory.wf s.m.mem = true) :
    Memory.wf (performRequest s die p l).1.m.mem = true := by
  unfold performRequest
  dsimp only
  split
  · simpa using h
  · refine memory_wf_foldl h fun t b ht => ?_
    split
    · simpa using memory_wf_writeByte _ _ ht
    · exact ht
  · exact memory_wf_performLane _ _ _ _ _ _ _ _ h
  · exact memory_wf_performLane _ _ _ _ _ _ _ _ h
  · exact memory_wf_performLane _ _ _ _ _ _ _ _ h
  · exact h

@[simp] theorem failTracker_mem (s : State) (trk cause : Nat) : (failTracker s trk cause).m.mem = s.m.mem := by
  unfold failTracker
  dsimp only
  repeat' split
  all_goals simp [failGang_m]

section
variable {s : State} (hm : Memory.wf s.m.mem = true)
include hm

theorem nextWf_execCvTurn (f : Form) : NextWf (execCvTurn f s) := by
  unfold execCvTurn
  refine nextWf_issuing hm fun c => ?_
  dsimp only
  split <;> simp [memory_wf_raise, memory_wf_issueCmds, hm]

theorem nextWf_execCvSplit (f : Form) : NextWf (execCvSplit f s) := by
  unfold execCvSplit
  refine nextWf_issuing hm fun c => ?_
  simp [finish_m, putLanes_m, hm]

theorem nextWf_execTurnSelect (hop : Nat) : NextWf (execTurnSelect hop s) := by
  unfold execTurnSelect
  dsimp only
  repeat' split
  all_goals simp [hm]

theorem nextWf_execTurnComplete (hop : Nat) (failed : BitVec 16) : NextWf (execTurnComplete hop failed s) := by
  unfold execTurnComplete
  dsimp only
  repeat' split
  all_goals simp -implicitDefEqProofs [foldl_mem, hm]

theorem nextWf_execPacketHop (hop : Nat) (d : Dir) (source : Nat) : NextWf (execPacketHop hop d source s) := by
  unfold execPacketHop
  dsimp only
  repeat' split
  all_goals simp [hm]

theorem nextWf_execSourceRoundRobin (hop : Nat) (d : Dir) : NextWf (execSourceRoundRobin hop d s) := by
  unfold execSourceRoundRobin
  dsimp only
  repeat' split
  all_goals simp [hm]

theorem nextWf_execCreditReturn (hop : Nat) (d : Dir) : NextWf (execCreditReturn hop d s) := by
  unfold execCreditReturn
  split <;> simp [hm]

theorem nextWf_execPeerRequest (die : Nat) (d : Dir) (esc : Bool) : NextWf (execPeerRequest die d esc s) := by
  unfold execPeerRequest
  dsimp only
  repeat' split
  all_goals simp [memory_wf_performRequest, hm]

theorem nextWf_execPacketAccept (die : Nat) (d : Dir) (esc : Bool) : NextWf (execPacketAccept die d esc s) := by
  unfold execPacketAccept
  dsimp only
  repeat' split
  all_goals simp [memory_wf_performRequest, hm]

theorem nextWf_execWriteAcknowledgement (die place : Nat) : NextWf (execWriteAcknowledgement die place s) := by
  unfold execWriteAcknowledgement
  dsimp only
  split <;> simp [hm]

theorem nextWf_execPeerReply (die : Nat) (d : Dir) (esc : Bool) : NextWf (execPeerReply die d esc s) := by
  unfold execPeerReply
  split <;> simp [hm]

theorem nextWf_execTrackerTimeout (die trk : Nat) : NextWf (execTrackerTimeout die trk s) := by
  unfold execTrackerTimeout
  split
  · simpa using hm
  · split_ifs <;> simp [hm]

theorem nextWf_execCorruptedHeader (hop : Nat) (d : Dir) (esc : Bool) : NextWf (execCorruptedHeader hop d esc s) := by
  unfold execCorruptedHeader
  dsimp only
  repeat' split
  all_goals simp [postEvent_m, hm]

theorem nextWf_execFlitRetry (link strand failures : Nat) (spare : Bool) :
    NextWf (execFlitRetry link strand failures spare s) := by
  unfold execFlitRetry
  split_ifs <;> simp [hm]

theorem nextWf_execTransitRouterLost (die : Nat) : NextWf (execTransitRouterLost die s) := by
  unfold execTransitRouterLost
  dsimp only
  repeat' split
  all_goals simp -implicitDefEqProofs [foldl_mem, postEvent_m, hm]

end

/-! ### Machine/Plane.lean -/

@[simp] theorem issueBid_mem (f : Form) (c : Ctx) (id group : Nat) (s : State) (lane : Nat) (key : Word) (pops : List Pop) :
    (issueBid f c id group s lane key pops).m.mem = s.m.mem := by
  unfold issueBid
  split <;> simp [putDst_m]

@[simp] theorem setBids_mem (s : State) (bs : List Bid) : (setBids s bs).m.mem = s.m.mem := rfl
@[simp] theorem setPtr_mem (s : State) (die line p : Nat) : (setPtr s die line p).m.mem = s.m.mem := rfl

@[simp] theorem sysArrive_mem (s : State) : (sysArrive s).m.mem = s.m.mem := by
  simp -implicitDefEqProofs [sysArrive, foldl_mem]

@[simp] theorem arriveBid.erasePopsOf_mem (s : State) (core : Nat) (ps : List Pop) (ids : List Nat) :
    (arriveBid.erasePopsOf s core ps ids).m.mem = s.m.mem := by
  unfold arriveBid.erasePopsOf
  refine foldl_mem fun _ _ => ?_
  split <;> simp [setPair_m, eraseEntry_m]

@[simp] theorem arriveBid_mem (s : State) (b : Bid) : (arriveBid s b).m.mem = s.m.mem := by simp [arriveBid]

@[simp] theorem arriveBids_mem (s : State) : (arriveBids s).m.mem = s.m.mem := by
  unfold arriveBids
  refine foldl_mem fun t _ => ?_
  split
  · rfl
  · dsimp only
    split_ifs
    · rfl
    · exact foldl_mem arriveBid_mem
    · rfl

@[simp] theorem freezeBids_mem (s : State) (ids : List Nat) : (freezeBids s ids).m.mem = s.m.mem := rfl

@[simp] theorem runLine_mem (s : State) (line : Nat) : (runLine s line).m.mem = s.m.mem := by
  unfold runLine
  dsimp only
  repeat' split
  all_goals simp -implicitDefEqProofs [foldl_mem]

@[simp] theorem deliver1_mem (s : State) (d : Delivery) : (deliver1 s d).m.mem = s.m.mem := by
  unfold deliver1
  refine foldl_mem fun _ _ => ?_
  simp

@[simp] theorem followFc_mem (s : State) (die : Nat) : (followFc s die).m.mem = s.m.mem := rfl

@[simp] theorem checkCopies_mem (s : State) (die b : Nat) :
    (checkCopies s die b).m.mem = s.m.mem := by simp [checkCopies, postEvent_m]

@[simp] theorem answerFrees_mem (s : State) (die ident : Nat) : (answerFrees s die ident).m.mem = s.m.mem := by
  unfold answerFrees
  refine foldl_mem fun _ _ => ?_
  rfl

section
variable {s : State} (hm : Memory.wf s.m.mem = true)
include hm

theorem nextWf_execCpKey (f : Form) : NextWf (execCpKey f s) := nextWf_laneOp hm _ _ _

theorem nextWf_execCpBid (f : Form) : NextWf (execCpBid f s) := by
  unfold execCpBid
  refine nextWf_issuing hm fun c => ?_
  dsimp only
  repeat' split
  all_goals simp -implicitDefEqProofs [foldl_mem, finish_m, memory_wf_raise, hm]

theorem nextWf_execCpGate (f : Form) : NextWf (execCpGate f s) := by
  unfold execCpGate
  refine nextWf_issuing hm fun c => ?_
  dsimp only
  split <;> simp [finish_m, memory_wf_raise, hm]

theorem nextWf_readResult (f : Form) (t : Ty) (g : Entry → Word) : NextWf (readResult f s t g) :=
  nextWf_popping hm fun c es u => by simp [putLanes_m]

theorem nextWf_execCpWon (f : Form) : NextWf (execCpWon f s) := by
  unfold execCpWon
  refine nextWf_popping hm fun c es t => ?_
  simp [putLanes_m]

theorem nextWf_execCpMax (f : Form) : NextWf (execCpMax f s) := nextWf_readResult hm _ _ _
theorem nextWf_execCpDie (f : Form) : NextWf (execCpDie f s) := nextWf_readResult hm _ _ _
theorem nextWf_execCpRound (f : Form) : NextWf (execCpRound f s) := nextWf_readResult hm _ _ _

theorem nextWf_execCpLast (f : Form) : NextWf (execCpLast f s) := by
  unfold execCpLast
  refine nextWf_issuing hm fun c => ?_
  dsimp only
  split <;> simp [finish_m, putLanes_m, memory_wf_raise, hm]

theorem nextWf_execFrameBoundary : NextWf (execFrameBoundary s) := by
  unfold execFrameBoundary
  dsimp only
  repeat' split
  all_goals simp -implicitDefEqProofs [foldl_mem, hm]

theorem nextWf_execResultDelivery (die : Nat) : NextWf (execResultDelivery die s) := by
  unfold execResultDelivery
  simp -implicitDefEqProofs [foldl_mem, hm]

theorem nextWf_execBeacon : NextWf (execBeacon s) := by
  unfold execBeacon
  simp -implicitDefEqProofs [foldl_mem, hm]

theorem nextWf_execIdentifierRevocation (die ident : Nat) : NextWf (execIdentifierRevocation die ident s) := by
  unfold execIdentifierRevocation
  simp -implicitDefEqProofs [foldl_mem, hm]

theorem nextWf_execPUnitReady (die : Nat) : NextWf (execPUnitReady die s) := by
  unfold execPUnitReady
  dsimp only
  repeat' split
  all_goals simp -implicitDefEqProofs [foldl_mem, postEvent_m, hm]

end

/-! ### Machine/Lanes.lean -/

section
variable {s : State} (hm : Memory.wf s.m.mem = true)
include hm

theorem nextWf_execLanex (f : Form) : NextWf (execLanex f s) := nextWf_laneOp hm _ _ _
theorem nextWf_execVote (f : Form) : NextWf (execVote f s) := nextWf_laneOp hm _ _ _
theorem nextWf_execMatchLanes (f : Form) : NextWf (execMatchLanes f s) := nextWf_laneOp hm _ _ _

theorem nextWf_execLgred (f : Form) : NextWf (execLgred f s) := by
  unfold execLgred
  refine nextWf_issuing hm fun c => ?_
  simp [memory_wf_withFlags, hm]

theorem nextWf_execLgscan (f : Form) : NextWf (execLgscan f s) := by
  unfold execLgscan
  refine nextWf_issuing hm fun c => ?_
  simp [memory_wf_withFlags, hm]

end

/-! ### Machine/Native.lean -/

@[simp] theorem setTarget_mem (s : State) (p : Pc) : (setTarget s p).m.mem = s.m.mem := rfl

theorem goKey_mem {s : State} {k : State → State} (c : Ctx) (f : Form) (key : TKey) (ix : Nat) (h : (k s).m.mem = s.m.mem) :
    (goKey s c f key ix k).m.mem = s.m.mem := by
  unfold goKey
  split
  · simp
  · simp [finish_m, h]

@[simp] theorem linkCall_mem (s : State) (c : Ctx) (f : NForm) (fn bx : Nat) :
    (linkCall s c f fn bx).m.mem = s.m.mem := by simp [linkCall]

@[simp] theorem stackLimit_mem (s : State) (c : Ctx) : (stackLimit s c).m.mem = s.m.mem := by
  unfold stackLimit
  dsimp only
  split <;> simp

section
variable {s : State} (hm : Memory.wf s.m.mem = true)
include hm

theorem nextWf_execSpill (f : NForm) : NextWf (execSpill f s) := by
  unfold execSpill
  refine nextWf_issuing hm fun c => ?_
  dsimp only
  repeat' split
  all_goals simp -implicitDefEqProofs [foldl_mem, finish_m, memory_wf_raise, hm]

theorem nextWf_execFill (f : NForm) : NextWf (execFill f s) := by
  unfold execFill
  refine nextWf_issuing hm fun c => ?_
  dsimp only
  split <;> simp [finish_m, putLanes_m, memory_wf_raise, hm]

theorem nextWf_execVmov (f : NForm) : NextWf (execVmov f s) := by
  unfold execVmov
  refine nextWf_issuing hm fun c => ?_
  simp [finish_m, putLanes_m, hm]

theorem nextWf_execSmov (f : NForm) : NextWf (execSmov f s) := by
  unfold execSmov
  refine nextWf_issuing hm fun c => ?_
  simp [finish_m, putLanes_m, hm]

theorem nextWf_execV2s (f : NForm) : NextWf (execV2s f s) := by
  unfold execV2s
  refine nextWf_issuing hm fun c => ?_
  simp [finish_m, putLanes_m, hm]

theorem nextWf_execS2v (f : NForm) : NextWf (execS2v f s) := by
  unfold execS2v
  refine nextWf_issuing hm fun c => ?_
  simp [finish_m, putLanes_m, hm]

theorem nextWf_execPset (f : NForm) : NextWf (execPset f s) := by
  unfold execPset
  refine nextWf_issuing hm fun c => ?_
  simp [finish_m, putLanes_m, hm]

theorem nextWf_execPclr (f : NForm) : NextWf (execPclr f s) := by
  unfold execPclr
  refine nextWf_issuing hm fun c => ?_
  simp [finish_m, putLanes_m, hm]

theorem nextWf_execBnop (f : NForm) : NextWf (execBnop f s) := by
  unfold execBnop
  refine nextWf_issuing hm fun c => ?_
  simp [finish_m, hm]

theorem nextWf_execEntry (f : NForm) : NextWf (execEntry f s) := by
  unfold execEntry
  refine nextWf_issuing hm fun c => ?_
  dsimp only
  split <;> simp [failGang_m, finish_m, putLanes_m, hm]

theorem nextWf_execPathSplit (f : NForm) : NextWf (execPathSplit f s) := by
  unfold execPathSplit
  refine nextWf_issuing hm fun c => ?_
  simp [finish_m, hm]

theorem nextWf_execPathJoin (f : NForm) : NextWf (execPathJoin f s) := by
  unfold execPathJoin
  refine nextWf_issuing hm fun c => ?_
  simp [hold_m, finish_m, hm]

theorem nextWf_execWaitCnt (f : NForm) : NextWf (execWaitCnt f s) := by
  unfold execWaitCnt
  refine nextWf_issuing hm fun c => ?_
  simp [finish_m, hold_m, hm]

theorem nextWf_execJmp (f : NForm) : NextWf (execJmp f s) := by
  unfold execJmp
  refine nextWf_issuing hm fun c => ?_
  split <;> simp [finish_m, goKey_mem, hm]

theorem nextWf_execNcall (f : NForm) : NextWf (execNcall f s) := by
  unfold execNcall
  refine nextWf_issuing hm fun c => ?_
  dsimp only
  repeat' split
  all_goals simp [hold_m, memory_wf_raise, goKey_mem, hm]

theorem nextWf_execNret (f : NForm) : NextWf (execNret f s) := by
  unfold execNret
  refine nextWf_issuing hm fun c => ?_
  simp [setSreg_m, goKey_mem, hm]

theorem nextWf_execFrameEnter (f : NForm) : NextWf (execFrameEnter f s) := by
  unfold execFrameEnter
  refine nextWf_issuing hm fun c => ?_
  simp [putHeader_m, finish_m, hm]

theorem nextWf_execFrameLeave (f : NForm) : NextWf (execFrameLeave f s) := by
  unfold execFrameLeave
  refine nextWf_issuing hm fun c => ?_
  simp [finish_m, hm]

/-- The operations that a value is made again with write no memory. -/
theorem nextWf_evalPure (i : Instr) : NextWf (evalPure i s) := by
  unfold evalPure
  split
  · exact nextWf_execConst hm _
  · exact nextWf_execAdd hm _
  · exact nextWf_execSub hm _
  · exact nextWf_execMul hm _
  · exact nextWf_execMulhi hm _
  · exact nextWf_execMad hm _
  · exact nextWf_execDiv hm _
  · exact nextWf_execRem hm _
  · exact nextWf_execNeg hm _
  · exact nextWf_execAbs hm _
  · exact nextWf_execMin hm _
  · exact nextWf_execMax hm _
  · exact nextWf_execAnd hm _
  · exact nextWf_execOr hm _
  · exact nextWf_execXor hm _
  · exact nextWf_execAndn hm _
  · exact nextWf_execNot hm _
  · exact nextWf_execShl hm _
  · exact nextWf_execShr hm _
  · exact nextWf_execRotl hm _
  · exact nextWf_execRotr hm _
  · exact nextWf_execPopc hm _
  · exact nextWf_execClz hm _
  · exact nextWf_execCtz hm _
  · exact nextWf_execBrev hm _
  · exact nextWf_execBfx hm _
  · exact nextWf_execBfi hm _
  · exact nextWf_execExt hm _
  · exact nextWf_execTrunc hm _
  · exact nextWf_execIcmp hm _
  · exact nextWf_execAdr hm _
  · exact nextWf_execBsel hm _
  · exact nextWf_execSelect hm _
  · exact nextWf_execSreg hm _
  · exact nextWf_execFneg hm _
  · exact nextWf_execFabs hm _
  · exact nextWf_execFcopysign hm _
  · exact nextWf_execFclass hm _
  · exact nextWf_execFadd hm _
  · exact nextWf_execFsub hm _
  · exact nextWf_execFmul hm _
  · exact nextWf_execFdiv hm _
  · exact nextWf_execFsqrt hm _
  · exact nextWf_execFma hm _
  · exact nextWf_execFmin hm _
  · exact nextWf_execFmax hm _
  · exact nextWf_execFcmp hm _
  · exact nextWf_execFcvt hm _
  · exact nextWf_execFrint hm _
  · exact nextWf_execFcvti hm _
  · exact nextWf_execIcvtf hm _
  · exact nextWf_execFscaleb hm _
  · exact nextWf_execFlogb hm _
  · exact nextWf_execPk8 hm _
  · exact nextWf_execUpk8 hm _
  · exact nextWf_execBscale hm _
  · exact (nextWf_next _).2 hm

end

theorem memory_wf_remat {s : State} (pid fn ix : Nat) (frames : List Frame) (hm : Memory.wf s.m.mem = true) :
    Memory.wf (remat s pid fn ix frames).m.mem = true := by
  unfold remat
  dsimp only
  split
  · exact hm
  · split
    · next t ht =>
      have hw : Memory.wf t.m.mem = true := nextWf_evalPure (by exact hm) _ t ht
      exact hw
    · exact hm

theorem memory_wf_rebuildOne {s : State} (pid fn : Nat) (frames : List Frame) (m : RegMap) (sp : Nat) (first : Bool) (e : LocEntry)
    (hm : Memory.wf s.m.mem = true) : Memory.wf (rebuildOne s pid fn frames m sp first e).m.mem = true := by
  unfold rebuildOne
  dsimp only
  split
  · exact memory_wf_foldl hm fun _ _ ht => ht
  · split
    · exact memory_wf_foldl hm fun _ _ ht => ht
    · split
      · exact memory_wf_remat _ _ _ _ hm
      · exact hm

theorem memory_wf_rebuildFrame {s : State} (pid fn : Nat) (frames : List Frame) (m : RegMap) (sp : Nat) (first : Bool)
    (r : PointRec) (hm : Memory.wf s.m.mem = true) : Memory.wf (rebuildFrame s pid fn frames m sp first r).m.mem = true :=
  memory_wf_foldl hm fun _ _ ht => memory_wf_rebuildOne _ _ _ _ _ _ _ ht

theorem memory_wf_rebuildOuter (pid : Nat) (frs : List Frame) {s : State} (sp : Nat) (m : RegMap) (hm : Memory.wf s.m.mem = true) :
    Memory.wf (rebuildOuter s pid frs sp m).m.mem = true := by
  induction frs generalizing s sp m with
  | nil => exact hm
  | cons fr rest ih =>
    unfold rebuildOuter
    dsimp only
    split
    · exact hm
    · exact ih _ _ (memory_wf_rebuildFrame _ _ _ _ _ _ _ hm)

theorem memory_wf_rebuild {s : State} (pid kind : Nat) (hm : Memory.wf s.m.mem = true) :
    Memory.wf (rebuild s pid kind).m.mem = true := by
  unfold rebuild
  split
  · exact hm
  · split
    · exact hm
    · exact memory_wf_rebuildOuter _ _ _ _ (memory_wf_rebuildFrame _ _ _ _ _ _ _ hm)

/-! ### Machine/Endpoint.lean -/

theorem memory_wf_ringPut {s : State} (r : RecRing) (off : Nat) (bs : List Byte) (h : Memory.wf s.m.mem = true) :
    Memory.wf (ringPut s r off bs).m.mem = true := by
  unfold ringPut
  extract_lets put k
  have hput : ∀ (t : State) (o : Nat) (b : List Byte), Memory.wf t.m.mem = true → Memory.wf (put t o b).m.mem = true := by
    intro t o b ht
    dsimp only [put]
    split
    · next hk => exact (memory_wf_kernelWrite _ ht).1 _ hk
    · next hk => exact (memory_wf_kernelWrite _ ht).2 _ _ hk
  exact hput _ _ _ (hput _ _ _ h)

section
variable {s : State} (hm : Memory.wf s.m.mem = true)
include hm

theorem nextWf_request {q : Hdr} {v : Serve} {check : Option Nat} {effect : State} (he : Memory.wf effect.m.mem = true) :
    NextWf (request s q v check effect) := fun _ hu => memory_wf_request hm he hu

end

/-! ### Machine/Debug.lean -/

@[simp] theorem standDown_mem (s : State) (pid : Nat) : (standDown s pid).m.mem = s.m.mem := by simp [standDown]

@[simp] theorem holdPath_mem (s : State) (pid bit : Nat) (info : BitVec 16) :
    (holdPath s pid bit info).m.mem = s.m.mem := by simp [holdPath]

@[simp] theorem stopReport_mem (s : State) (ctx : Nat) (pids : List Nat) (hits : List WatchRec) :
    (stopReport s ctx pids hits).m.mem = s.m.mem := rfl

@[simp] theorem reportStop_mem (s : State) (ctx : Nat) (pids : List Nat) (hits : List WatchRec) :
    (reportStop s ctx pids hits).m.mem = s.m.mem := by simp [reportStop]

@[simp] theorem settleStops_mem (s : State) : (settleStops s).m.mem = s.m.mem := by
  unfold settleStops
  refine foldl_mem fun _ _ => ?_
  simp

@[simp] theorem stopPaths_mem (s : State) (ctx : Nat) (pids : List Nat) (bit : Nat) (info : BitVec 16) (hits : List WatchRec) :
    (stopPaths s ctx pids bit info hits).m.mem = s.m.mem := by
  simp -implicitDefEqProofs [stopPaths, foldl_mem]

@[simp] theorem dropIssue_mem (s : State) (pid : Nat) : (dropIssue s pid).m.mem = s.m.mem := by
  unfold dropIssue
  split <;> simp

@[simp] theorem answerStep_mem (s : State) (pid : Nat) : (answerStep s pid).m.mem = s.m.mem := by
  unfold answerStep
  refine foldl_mem fun _ _ => ?_
  rfl

@[simp] theorem noteTokens_mem (s : State) (pid : Nat) : (noteTokens s pid).m.mem = s.m.mem := rfl

@[simp] theorem syncReplies_mem (s : State) : (syncReplies s).m.mem = s.m.mem := by
  unfold syncReplies
  refine foldl_mem fun _ _ => ?_
  rfl

@[simp] theorem afterIssue_mem (before s : State) (pid : Nat) : (afterIssue before s pid).m.mem = s.m.mem := by
  unfold afterIssue
  dsimp only
  split
  · split_ifs <;> simp
  · split_ifs <;> simp

@[simp] theorem beginStep_mem (s : State) (h : Hdr) (pid : Nat) (sync : Bool) : (beginStep s h pid sync).m.mem = s.m.mem := rfl
@[simp] theorem attachSet_mem (s : State) (h : Hdr) (on : Bool) : (attachSet s h on).m.mem = s.m.mem := rfl

@[simp] theorem armWatch_mem (s : State) (h : Hdr) (index : Nat) (addr : Word) (kinds : Byte) (scope : Nat) :
    (armWatch s h index addr kinds scope).m.mem = s.m.mem := by
  unfold armWatch
  dsimp only
  split <;> simp

@[simp] theorem stopEffect_mem (s : State) (h : Hdr) (id : Word) (scope : Nat) (freeze : Bool) :
    (stopEffect s h id scope freeze).m.mem = s.m.mem := by simp [stopEffect, done_m]

@[simp] theorem endFocus_mem (s : State) (w : Nat) : (endFocus s w).m.mem = s.m.mem := by
  simp -implicitDefEqProofs [endFocus, foldl_mem, fillTable_m]

@[simp] theorem freeMoved_mem (s : State) (g : Nat) : (freeMoved s g).m.mem = s.m.mem := by
  unfold freeMoved
  split <;> simp [freeSave_m]

@[simp] theorem releaseEffect_mem (s : State) (h : Hdr) (id : Word) (scope : Nat) :
    (releaseEffect s h id scope).m.mem = s.m.mem := by
  simp -implicitDefEqProofs [releaseEffect, foldl_mem, done_m]

@[simp] theorem focusEffect_mem (s : State) (h : Hdr) (pid : Nat) (m : Mask) :
    (focusEffect s h pid m).m.mem = s.m.mem := by simp [focusEffect, done_m]

theorem memory_wf_writeManifest {s : State} (die kind len src : Nat) (body : List Byte) (h : Memory.wf s.m.mem = true) :
    Memory.wf (writeManifest s die kind len src body).m.mem = true := by
  unfold writeManifest
  dsimp only
  split
  · exact h
  · split
    · exact h
    · exact memory_wf_ringPut _ _ _ h

theorem memory_wf_latchDie {s : State} (die : Nat) (h : Memory.wf s.m.mem = true) : Memory.wf (latchDie s die).m.mem = true := by
  unfold latchDie
  extract_lets s1 s2
  have h1 : Memory.wf s1.m.mem = true := memory_wf_writeManifest _ _ _ _ _ h
  split
  · exact h1
  · exact memory_wf_foldl (memory_wf_foldl h1 fun _ _ ht => memory_wf_writeManifest _ _ _ _ _ ht)
      fun _ _ ht => memory_wf_writeManifest _ _ _ _ _ ht

section
variable {s : State} (hm : Memory.wf s.m.mem = true)
include hm

theorem nextWf_execBreakpointHit (pid : Nat) : NextWf (execBreakpointHit pid s) := by
  unfold execBreakpointHit
  split <;> simp [hm]

theorem nextWf_execWatchHit (cluster : Nat) : NextWf (execWatchHit cluster s) := by
  unfold execWatchHit
  simp -implicitDefEqProofs [foldl_mem, hm]

theorem nextWf_execDebugStep (h : Hdr) (p : PathName) : NextWf (execDebugStep h p s) := by
  unfold execDebugStep
  refine nextWf_request hm ?_
  simp [hm]

theorem nextWf_execStepSync (h : Hdr) (p : PathName) : NextWf (execStepSync h p s) := by
  unfold execStepSync
  refine nextWf_request hm ?_
  simp [hm]

theorem nextWf_execDebugAttach (h : Hdr) : NextWf (execDebugAttach h s) := by
  unfold execDebugAttach
  refine nextWf_request hm ?_
  simp [hm]

theorem nextWf_execDebugDetach (h : Hdr) : NextWf (execDebugDetach h s) := by
  unfold execDebugDetach
  refine nextWf_request hm ?_
  simp [hm]

theorem nextWf_execDebugBreakpoint (h : Hdr) (index : Nat) (vpc : BitVec 32) (scope : Nat) :
    NextWf (execDebugBreakpoint h index vpc scope s) := by
  unfold execDebugBreakpoint
  refine nextWf_request hm ?_
  simp [done_m, hm]

theorem nextWf_execDebugWatchpoint (h : Hdr) (index : Nat) (addr : BitVec 64) (kinds : BitVec 8) (scope : Nat) :
    NextWf (execDebugWatchpoint h index addr kinds scope s) := by
  unfold execDebugWatchpoint
  refine nextWf_request hm ?_
  simp [done_m, hm]

theorem nextWf_execDebugStop (h : Hdr) (launchId : BitVec 64) (scope : Nat) (freeze : Bool) :
    NextWf (execDebugStop h launchId scope freeze s) := by
  unfold execDebugStop
  refine nextWf_request hm ?_
  simp [hm]

theorem nextWf_execDebugRelease (h : Hdr) (launchId : BitVec 64) (scope : Nat) (freeze : Bool) :
    NextWf (execDebugRelease h launchId scope freeze s) := by
  unfold execDebugRelease
  refine nextWf_request hm ?_
  simp [hm]

theorem nextWf_execDebugFocus (h : Hdr) (p : PathName) : NextWf (execDebugFocus h p s) := by
  unfold execDebugFocus
  dsimp only
  split
  · exact nextWf_request hm (by simpa [done_m] using hm)
  · split
    · exact nextWf_request hm hm
    · exact nextWf_request hm (by simpa using hm)

theorem nextWf_execReadValues (h : Hdr) (p : PathName) (values : List Nat) : NextWf (execReadValues h p values s) := by
  unfold execReadValues
  refine nextWf_request hm ?_
  simp [done_m, hm]

theorem nextWf_execManifestLatch : NextWf (execManifestLatch s) := by
  unfold execManifestLatch
  extract_lets s1 now
  have h1 : Memory.wf s1.m.mem = true := by
    dsimp only [s1]
    refine memory_wf_foldl hm fun t d ht => ?_
    split
    · exact ht
    · exact memory_wf_latchDie d ht
  clear_value s1
  exact (nextWf_next _).2 h1

theorem nextWf_execManifestPeriod (h : Hdr) (k : Nat) : NextWf (execManifestPeriod h k s) := by
  unfold execManifestPeriod
  refine nextWf_request hm ?_
  simp [done_m, hm]

theorem nextWf_execManifestRing (h : Hdr) (base size : BitVec 64) : NextWf (execManifestRing h base size s) := by
  unfold execManifestRing
  refine nextWf_request hm ?_
  simp [done_m, hm]

theorem nextWf_execManifestReadIndex (h : Hdr) (index : BitVec 64) : NextWf (execManifestReadIndex h index s) := by
  unfold execManifestReadIndex
  refine nextWf_request hm ?_
  simp [done_m, hm]

theorem nextWf_execBrk (f : Form) : NextWf (execBrk f s) := by
  unfold execBrk
  refine nextWf_issuing hm fun c => ?_
  simp [finish_m, hm]

theorem nextWf_execDbgMark (f : Form) : NextWf (execDbgMark f s) := by
  unfold execDbgMark
  refine nextWf_issuing hm fun c => ?_
  simp [finish_m, memory_wf_writeManifest, hm]

theorem nextWf_execRdclk (f : Form) : NextWf (execRdclk f s) := by
  unfold execRdclk
  refine nextWf_issuing hm fun c => ?_
  simp [finish_m, putLanes_m, hm]

theorem nextWf_execRdcnt (f : Form) : NextWf (execRdcnt f s) := by
  unfold execRdcnt
  refine nextWf_issuing hm fun c => ?_
  simp [finish_m, putLanes_m, hm]

theorem nextWf_execSys (f : Form) : NextWf (execSys f s) := by
  unfold execSys
  refine nextWf_issuing hm fun c => ?_
  dsimp only
  repeat' split
  all_goals simp [finish_m, putLanes_m, hold_m, postEvent_m, memory_wf_raise, hm]

end

/-! ### Machine/Translate.lean -/

@[simp] theorem postTrace_mem (s : State) (cluster : Nat) (k : TKey) (ev dur lines : Nat) (debug : Bool) :
    (postTrace s cluster k ev dur lines debug).m.mem = s.m.mem := by simp [postTrace, postRecord_m]

@[simp] theorem storePut_mem (s : State) (cluster : Nat) (t : TImage) (debug : Bool) :
    (storePut s cluster t debug).m.mem = s.m.mem := by
  unfold storePut
  refine foldl_mem fun _ _ => ?_
  simp

@[simp] theorem evictFor_mem (cluster n : Nat) (debug : Bool) (ts : List TImage) (s : State) :
    (evictFor cluster n debug ts s).m.mem = s.m.mem := by
  induction ts generalizing s with
  | nil => rfl
  | cons t ts ih =>
    unfold evictFor
    dsimp only
    split_ifs <;> simp [ih]

@[simp] theorem cachePut_mem (s : State) (cluster : Nat) (t : TImage) (debug : Bool) :
    (cachePut s cluster t debug).1.m.mem = s.m.mem := by
  unfold cachePut
  dsimp only
  split <;> simp

theorem cachePut_mem_of_eq {s t : State} {cluster : Nat} {u : TImage} {debug b : Bool} (h : cachePut s cluster u debug = (t, b)) :
    t.m.mem = s.m.mem := by
  have hc := cachePut_mem s cluster u debug
  rwa [h] at hc

@[simp] theorem touchImage_mem (s : State) (cluster : Nat) (k : TKey) : (touchImage s cluster k).m.mem = s.m.mem := by
  unfold touchImage
  dsimp only
  split <;> simp

@[simp] theorem acceptMisses_mem (s : State) (cluster : Nat) : (acceptMisses s cluster).m.mem = s.m.mem := rfl

@[simp] theorem failMiss_mem (s : State) (m : MissRec) : (failMiss s m).m.mem = s.m.mem := by
  unfold failMiss
  refine foldl_mem fun _ _ => ?_
  simp [failGang_m]

@[simp] theorem clusterNotReady_mem (s : State) (cluster : Nat) : (clusterNotReady s cluster).m.mem = s.m.mem := rfl

@[simp] theorem softRecord_mem (s : State) (cluster : Nat) (k : TKey) (ix cause : Nat) :
    (softRecord s cluster k ix cause).m.mem = s.m.mem := rfl

@[simp] theorem endWait_mem (s : State) (pid : Nat) (w : WaitOn) : (endWait s pid w).m.mem = s.m.mem := by
  unfold endWait
  split <;> simp [arrive_m]

@[simp] theorem settleWaits_mem (s : State) (core : Nat) : (settleWaits s core).m.mem = s.m.mem := by
  unfold settleWaits
  refine foldl_mem fun _ _ => ?_
  split <;> simp

@[simp] theorem countStall_mem (s : State) (core : Nat) : (countStall s core).m.mem = s.m.mem := by
  unfold countStall
  split <;> simp

section
variable {s : State} (hm : Memory.wf s.m.mem = true)
include hm

theorem nextWf_execTranslationMiss (pid : Nat) (key : TKey) : NextWf (execTranslationMiss pid key s) := by
  unfold execTranslationMiss
  dsimp only
  repeat' split
  all_goals simp [hm]

theorem nextWf_execTranslationReady (cluster : Nat) (key : TKey) : NextWf (execTranslationReady cluster key s) := by
  unfold execTranslationReady
  dsimp only
  split
  · simp
  · next m hmiss =>
    split
    · simpa using hm
    · split
      · next s1 hc =>
        have h1 : Memory.wf s1.m.mem = true := by rw [cachePut_mem_of_eq hc]; exact hm
        exact (nextWf_next _).2 h1
      · next s1 hc =>
        have h1 : Memory.wf s1.m.mem = true := by rw [cachePut_mem_of_eq hc]; exact hm
        simp only [nextWf_next, acceptMisses_mem, setCluster_m]
        refine memory_wf_foldl (by simpa using h1) fun t p ht => ?_
        split <;> simpa using ht

theorem nextWf_execIllegalBundleRepair (cluster : Nat) (key : TKey) : NextWf (execIllegalBundleRepair cluster key s) := by
  unfold execIllegalBundleRepair
  split
  · simp
  · dsimp only
    split
    · simp only [nextWf_next, clusterNotReady_mem, postTrace_mem, softRecord_mem]
      exact memory_wf_foldl hm fun t g ht => by rw [failGang_m]; exact ht
    · simp only [nextWf_next, postTrace_mem, countCluster_m, softRecord_mem]
      have hr : ∀ ps : List Nat, ∀ w : Path → Path,
          Memory.wf (ps.foldl (fun s p => updPath (rebuild s p 0) p w) s).m.mem = true := fun ps w =>
        memory_wf_foldl hm fun t p ht => memory_wf_rebuild p 0 ht
      split <;> simpa using hr _ _

theorem nextWf_execIssueSelect (core : Nat) : NextWf (execIssueSelect core s) := by
  unfold execIssueSelect
  dsimp only
  repeat' split
  all_goals simp [hm]

end

/-! ### Machine/Launch.lean -/

@[simp] theorem addWarp_mem (s : State) (gang wg : Nat) (q : Need) (p : Place) (i : Nat) :
    (addWarp s gang wg q p i).m.mem = s.m.mem := rfl

@[simp] theorem clearScratch_mem (s : State) (core base size : Nat) :
    (clearScratch s core base size).m.mem = s.m.mem := by simp [clearScratch, setTags_m, setChunks_m]

@[simp] theorem startEngines_mem (s : State) (q : Need) (core : Nat) :
    (startEngines s q core).m.mem = s.m.mem := by simp [startEngines]

@[simp] theorem addWg_mem (s : State) (gang k : Nat) (q : Need) (p : Place) : (addWg s gang k q p).m.mem = s.m.mem := by
  simp -implicitDefEqProofs [addWg, foldl_mem]

@[simp] theorem startPath_mem (s : State) (w : Nat) (mask : Mask) (pc : Pc) (r : BitVec 1024) (f : Func) :
    (startPath s w mask pc r f).m.mem = s.m.mem := by
  simp -implicitDefEqProofs [startPath, foldl_mem, addPath_m]

@[simp] theorem startGang_mem (s : State) (l : Nat) (q : Need) (cluster : Nat) (ps : List Place) :
    (startGang s l q cluster ps).m.mem = s.m.mem := by
  simp -implicitDefEqProofs [startGang, foldl_mem]

@[simp] theorem setEv_mem (s : State) (die i : Nat) (v : EvState) : (setEv s die i v).m.mem = s.m.mem := rfl
@[simp] theorem setQueue_mem (s : State) (die q : Nat) (v : HwQueue) : (setQueue s die q v).m.mem = s.m.mem := rfl
@[simp] theorem endLaunch_mem (s : State) (l : Nat) : (endLaunch s l).m.mem = s.m.mem := by simp [endLaunch, postEvent_m]

@[simp] theorem dropGangs_mem (s : State) (l : Nat) : (dropGangs s l).m.mem = s.m.mem := by
  unfold dropGangs
  refine foldl_mem fun _ _ => ?_
  rfl

@[simp] theorem served_mem (s : State) (die prio q l : Nat) : (served s die prio q l).m.mem = s.m.mem := by simp [served]

@[simp] theorem keepHead_mem (s : State) (die prio : Nat) (h : Head) : (keepHead s die prio h).m.mem = s.m.mem := by
  unfold keepHead
  split <;> rfl

@[simp] theorem unplace_mem (s : State) (g : Nat) : (unplace s g).m.mem = s.m.mem := by
  unfold unplace
  refine foldl_mem fun _ _ => ?_
  simp [freeSave_m]

@[simp] theorem haltPath_mem (s : State) (pid : Nat) : (haltPath s pid).m.mem = s.m.mem := by simp [haltPath]

@[simp] theorem abandonLoads_mem (s : State) (w : Nat) : (abandonLoads s w).m.mem = s.m.mem := by
  unfold abandonLoads
  refine foldl_mem fun _ _ => ?_
  simp [putLanes_m]

@[simp] theorem freeWarpSlots_mem (s : State) : (freeWarpSlots s).m.mem = s.m.mem := by
  simp -implicitDefEqProofs [freeWarpSlots, foldl_mem, freeSave_m]

@[simp] theorem dropCapture_mem (s : State) (g : Nat) : (dropCapture s g).m.mem = s.m.mem := by
  unfold dropCapture
  split <;> simp [freeSave_m]

section
variable {s : State} (hm : Memory.wf s.m.mem = true)
include hm

theorem nextWf_execLaunchRetire (l : Nat) : NextWf (execLaunchRetire l s) := by
  unfold execLaunchRetire
  split <;> simp [hm]

theorem nextWf_execGangDispatch (die : Nat) : NextWf (execGangDispatch die s) := by
  unfold execGangDispatch
  dsimp only
  repeat' split
  all_goals simp [hm]

theorem nextWf_execPreemption (die : Nat) : NextWf (execPreemption die s) := by
  unfold execPreemption
  dsimp only
  repeat' split
  all_goals simp -implicitDefEqProofs [foldl_mem, hm]

theorem nextWf_execHalt (gang : Nat) (why : HaltWhy) : NextWf (execHalt gang why s) := by
  unfold execHalt
  dsimp only
  repeat' split
  all_goals simp -implicitDefEqProofs [foldl_mem, hm]

theorem nextWf_execGangRetire (gang : Nat) : NextWf (execGangRetire gang s) := by
  unfold execGangRetire
  dsimp only
  repeat' split
  all_goals simp [postEvent_m, hm]

theorem nextWf_execItemFailed (gang cause : Nat) (addr : BitVec 64) : NextWf (execItemFailed gang cause addr s) := by
  unfold execItemFailed
  split <;> simp [failGang_m, hm]

end

/-! ### Machine/Kernel.lean -/

theorem takeBlock_mem {s t : State} {die b : Nat} (h : takeBlock s die = some (t, b)) : t.m.mem = s.m.mem := by
  unfold takeBlock at h
  dsimp only at h
  split at h
  · simp only [Option.some.injEq, Prod.mk.injEq] at h
    rw [← h.1, setDie_m]
  · split at h
    · simp at h
    · simp only [Option.some.injEq, Prod.mk.injEq] at h
      rw [← h.1, setDie_m]

theorem takeFrames_mem {s t : State} {die n b : Nat} (h : takeFrames s die n = some (t, b)) : t.m.mem = s.m.mem := by
  unfold takeFrames at h
  dsimp only at h
  split at h
  · simp at h
  · simp only [Option.some.injEq, Prod.mk.injEq] at h
    rw [← h.1, setDie_m]

theorem memory_wf_fillTable8 {s : State} (die table level : Nat) (e : Nat → Word) (h : Memory.wf s.m.mem = true) :
    Memory.wf (fillTable8 s die table level e).m.mem = true :=
  memory_wf_foldl h fun _ _ hb => memory_wf_writeMem _ _ _ hb

/-- Writing a page-table entry writes it, and the tables that are missing above it. -/
theorem memory_wf_putEntry (die va target : Nat) (e : Word) (n : Nat) {table : Nat} {s t : State} (h : Memory.wf s.m.mem = true)
    (ht : putEntry die va target e n table s = some t) : Memory.wf t.m.mem = true := by
  induction n generalizing table s with
  | zero => simp [putEntry] at ht
  | succ n ih =>
    unfold putEntry at ht
    dsimp only at ht
    split_ifs at ht
    · rw [← Option.some.inj ht]
      exact memory_wf_writeMem _ _ _ h
    · exact ih h ht
    · split at ht
      · simp at ht
      · next hb =>
        exact ih (memory_wf_writeMem _ _ _ (memory_wf_fillTable8 _ _ _ _ (by rw [takeBlock_mem hb]; exact h))) ht

theorem memory_wf_clearRange (die lo hi : Nat) (n : Nat) {table base : Nat} {s t : State} (h : Memory.wf s.m.mem = true)
    (ht : clearRange die lo hi n table base s = some t) : Memory.wf t.m.mem = true := by
  induction n generalizing table base s t with
  | zero =>
    rw [← Option.some.inj ht]
    exact h
  | succ n ih =>
    unfold clearRange at ht
    dsimp only at ht
    refine foldl_bind_inv (fun t => Memory.wf t.m.mem = true) (fun s i u hs hu => ?_) _ (fun a ha => ?_) ht
    · split_ifs at hu
      · exact ih hs hu
      · rw [← Option.some.inj hu]
        exact hs
      · rw [← Option.some.inj hu]
        exact memory_wf_writeMem _ _ _ hs
      · split at hu
        · simp at hu
        · next hb =>
          exact ih (memory_wf_writeMem _ _ _ (memory_wf_fillTable8 _ _ _ _ (by rw [takeBlock_mem hb]; exact hs))) hu
    · rw [← Option.some.inj ha]
      exact h

theorem memory_wf_mapPages (ctx hi : Nat) (e : Word) (free : Bool) (n : Nat) {va frame : Nat} {s t : State}
    (h : Memory.wf s.m.mem = true) (ht : mapPages ctx hi e free n va frame s = some t) : Memory.wf t.m.mem = true := by
  induction n generalizing va frame s with
  | zero =>
    rw [← Option.some.inj ht]
    exact h
  | succ n ih =>
    unfold mapPages at ht
    split at ht
    · rw [← Option.some.inj ht]
      exact h
    · dsimp only at ht
      split at ht
      · simp at ht
      · next hp => exact ih (memory_wf_putEntry _ _ _ _ _ h hp) ht

theorem memory_wf_mapRange {s t : State} {ctx base len : Nat} {e : Word} (h : Memory.wf s.m.mem = true)
    (ht : mapRange s ctx base len e = some t) : Memory.wf t.m.mem = true := memory_wf_mapPages _ _ _ _ _ h ht

@[simp] theorem invalidate_mem (s : State) (ctx lo hi : Nat) : (invalidate s ctx lo hi).m.mem = s.m.mem := rfl
@[simp] theorem defer_mem (s : State) (i : Instr) : (defer s i).m.mem = s.m.mem := rfl

@[simp] theorem reportImports_mem (s : State) (ids : List Nat) : (reportImports s ids).m.mem = s.m.mem := by
  unfold reportImports
  refine foldl_mem fun _ _ => ?_
  split <;> rfl

@[simp] theorem dropCxl_mem (s : State) (die : Nat) (fs : List (Nat × Nat)) : (dropCxl s die fs).m.mem = s.m.mem := rfl

theorem memory_wf_unmapRange {s t : State} {ctx lo hi : Nat} (h : Memory.wf s.m.mem = true) (ht : unmapRange s ctx lo hi = some t) :
    Memory.wf t.m.mem = true := by
  obtain ⟨u, hu, rfl⟩ := Option.map_eq_some_iff.1 ht
  have hw : Memory.wf u.m.mem = true := memory_wf_clearRange _ _ _ _ h hu
  simpa using hw

theorem memory_wf_unmapRange_getD {s : State} (ctx lo hi : Nat) (h : Memory.wf s.m.mem = true) :
    Memory.wf ((unmapRange s ctx lo hi).getD s).m.mem = true := memory_wf_getD h fun _ ht => memory_wf_unmapRange h ht

@[simp] theorem finishUnmap_mem (s : State) (ctx lo hi : Nat) : (finishUnmap s ctx lo hi).m.mem = s.m.mem := by
  unfold finishUnmap
  split <;> simp

section
variable {s : State} (hm : Memory.wf s.m.mem = true)
include hm

theorem nextWf_execMemMap (h : Hdr) (base length leaf : BitVec 64) : NextWf (execMemMap h base length leaf s) := by
  unfold execMemMap
  refine nextWf_request hm ?_
  rw [done_m]
  exact memory_wf_getD hm fun t ht => memory_wf_mapRange hm ht

theorem nextWf_execMemUnmap (h : Hdr) (base length : BitVec 64) (waiting : Bool) :
    NextWf (execMemUnmap h base length waiting s) := by
  unfold execMemUnmap
  extract_lets ctx lo hi finishUp after
  have hup : ∀ t : State, Memory.wf t.m.mem = true → Memory.wf (finishUp t).m.mem = true := by
    intro t ht
    dsimp only [finishUp]
    split <;> simpa [done_m] using ht
  split
  · rw [nextWf_next]
    split
    · simpa using hm
    · exact hup _ hm
  · exact nextWf_request hm (hup _ (memory_wf_unmapRange_getD _ _ _ hm))

theorem nextWf_execMemInvalidate (h : Hdr) (base length : BitVec 64) : NextWf (execMemInvalidate h base length s) := by
  unfold execMemInvalidate
  refine nextWf_request hm ?_
  simp [done_m, hm]

theorem nextWf_execSaveRegion (h : Hdr) (base size : BitVec 64) : NextWf (execSaveRegion h base size s) := by
  unfold execSaveRegion
  refine nextWf_request hm ?_
  simp [done_m, hm]

theorem nextWf_execCxlUnitAssign (h : Hdr) (unit : Nat) (assign : Bool) : NextWf (execCxlUnitAssign h unit assign s) := by
  unfold execCxlUnitAssign
  refine nextWf_request hm ?_
  simp [done_m, hm]

theorem nextWf_execModuleCopy (h : Hdr) (base : BitVec 64) (remote : Nat) (handle length : BitVec 64) (toLocal : Bool) :
    NextWf (execModuleCopy h base remote handle length toLocal s) := by
  unfold execModuleCopy
  refine nextWf_request hm ?_
  rw [done_m]
  split
  · split
    · next hk => exact (memory_wf_kernelWrite _ hm).1 _ hk
    · next hk => exact (memory_wf_kernelWrite _ hm).2 _ _ hk
  · exact hm

theorem nextWf_execContextTenant (h : Hdr) (tenant : BitVec 8) : NextWf (execContextTenant h tenant s) := by
  unfold execContextTenant
  refine nextWf_request hm ?_
  simp [done_m, hm]

theorem nextWf_execContextOpen (h : Hdr) : NextWf (execContextOpen h s) := by
  unfold execContextOpen
  refine nextWf_request hm ?_
  rw [done_m]
  split
  · exact hm
  · next hb =>
    rw [setCtx_m]
    exact memory_wf_fillTable8 _ _ _ _ (by rw [takeBlock_mem hb]; exact hm)

theorem nextWf_execContextClose (h : Hdr) : NextWf (execContextClose h s) := by
  unfold execContextClose
  extract_lets ctx gone s1 s2 bps d0 s3
  refine nextWf_request hm ?_
  have hg : Memory.wf gone.m.mem = true := by
    dsimp only [gone]
    exact memory_wf_unmapRange_getD _ _ _ hm
  clear_value gone
  have h2 : Memory.wf s2.m.mem = true := by simpa [s2, s1] using hg
  exact h2

end

/-! ### Machine/Capture.lean -/

theorem memory_wf_atCapture {s : State} (g : Nat) (hm : Memory.wf s.m.mem = true) : Memory.wf (atCapture s g).m.mem = true := by
  refine memory_wf_foldl (memory_wf_foldl hm fun t p ht => ?_) fun _ _ ht => memory_wf_rebuild _ _ ht
  split
  · split <;> simpa using ht
  · exact ht

theorem memory_wf_captureNow {s : State} (g : Nat) (q : Gang) (hm : Memory.wf s.m.mem = true) :
    Memory.wf (captureNow s g q).m.mem = true := by
  unfold captureNow
  dsimp only
  split
  · exact hm
  · next s1 o hs =>
    have h1 : Memory.wf s1.m.mem = true := by rw [takeSave_m hs]; exact memory_wf_atCapture g hm
    have h2 := memory_wf_saveWrite q.ctx o (recBytesAll (atCapture s g) g (gather (atCapture s g) g)) h1
    split <;> simpa [postEvent_m] using h2

@[simp] theorem ensureChain_mem (w : Nat) (js : List (JoinPt × Nat)) (x : State × ChainMap) :
    (ensureChain w js x).1.1.m.mem = x.1.m.mem := by
  induction js with
  | nil => rfl
  | cons j js ih =>
    unfold ensureChain
    split
    · rfl
    · exact ih

@[simp] theorem putHeaders_mem (g kernel w : Nat) (m : Module) (ls : List Nat) (fs : List Frame) (s : State) :
    (putHeaders g kernel w m ls fs s).m.mem = s.m.mem := by
  induction fs with
  | nil => simp [putHeaders, putHeader_m]
  | cons f fs ih => simp [putHeaders, putHeader_m, ih]

theorem memory_wf_placeBlock {g kernel w num : Nat} {m : Module} {old new : Nat} {b : CapBlock}
    {x y : (State × ChainMap) × BlockMap} (h : Memory.wf x.1.1.m.mem = true)
    (hy : placeBlock g kernel w num m old new b x = some y) : Memory.wf y.1.1.m.mem = true := by
  unfold placeBlock at hy
  dsimp only at hy
  split at hy
  · rw [← Option.some.inj hy]
    exact h
  · split at hy
    · simp at hy
    · next hs =>
      rw [← Option.some.inj hy]
      refine memory_wf_saveWrite _ _ _ ?_
      rw [takeId_m, takeSave_m hs, ensureChain_mem]
      exact h

@[simp] theorem placePath_mem (g kernel w num : Nat) (m : Module) (new : Nat) (held : Bool) (area : Word) (p : CapPath)
    (bm : BlockMap) (x : State × ChainMap) : (placePath g kernel w num m new held area p bm x).1.m.mem = x.1.m.mem := by
  unfold placePath
  dsimp only
  split_ifs <;> simp [addPath_m, addResumed_m]

@[simp] theorem placeThread_mem (w lane : Nat) (t : CapThread) (s : State) : (placeThread w lane t s).m.mem = s.m.mem := by
  simp -implicitDefEqProofs [placeThread, foldl_mem, setPair_m]

@[simp] theorem placeWg_mem (s : State) (g : Nat) (c : CapWg) : (placeWg s g c).m.mem = s.m.mem := by
  unfold placeWg
  dsimp only
  repeat' split
  all_goals simp -implicitDefEqProofs [foldl_mem, setTag_m]

theorem doReplay_mem {g new : Nat} {s t : State} {r : Replay} (h : doReplay g new s r = some t) : t.m.mem = s.m.mem := by
  unfold doReplay at h
  dsimp only at h
  split at h
  · simp at h
  · rw [← Option.some.inj h, setVal_m]
    split <;> simp

@[simp] theorem resubmit_mem (g new : Nat) (bids : List (Nat × Nat × Bid)) (s : State) :
    (resubmit g new bids s).m.mem = s.m.mem := rfl

@[simp] theorem restoreCalls_mem (s : State) (w : Nat) : (restoreCalls s w).m.mem = s.m.mem := rfl

theorem memory_wf_placeAll {g kernel : Nat} {m : Module} {old new : Nat} {held : Bool} {r : CapRec} {s t : State}
    (hm : Memory.wf s.m.mem = true) (ht : placeAll g kernel m old new held r s = some t) : Memory.wf t.m.mem = true := by
  unfold placeAll at ht
  dsimp only at ht
  obtain ⟨x, hx, rfl⟩ := Option.map_eq_some_iff.1 ht
  have hx1 : Memory.wf x.1.1.m.mem = true := by
    refine List.foldlRecOn (motive := fun o => ∀ x, o = some x → Memory.wf x.1.1.m.mem = true) _ _ (fun y hy => ?_)
      (fun o ho w _ => ?_) x hx
    · rw [← Option.some.inj hy]
      exact memory_wf_foldl hm fun t y ht => by simpa using ht
    · exact fun y hy => foldl_bind_inv (fun x => Memory.wf x.1.1.m.mem = true)
        (fun _ _ _ ha hb => memory_wf_placeBlock ha hb) _ ho hy
  refine memory_wf_foldl ?_ fun t w ht => by simpa using ht
  refine memory_wf_foldl_fst _ hx1 fun y w hy => ?_
  exact memory_wf_foldl_fst _ hy fun y p hp => by simpa using hp

theorem memory_wf_restoreNow {s : State} (die g : Nat) (r : CapRec) (c : Nat) (ps : List Place) (q : Need)
    (hm : Memory.wf s.m.mem = true) : Memory.wf (restoreNow s die g r c ps q).m.mem = true := by
  unfold restoreNow
  extract_lets old la away ctx mo key0 gang held line t0 h0 s1 cl s2 d0 s3 s4 s5
  have h3 : Memory.wf s3.m.mem = true := hm
  have h4 : Memory.wf s4.m.mem = true := memory_wf_foldl h3 fun t kp ht => by simpa using ht
  have h5 : Memory.wf s5.m.mem = true := memory_wf_foldl (by simpa using h4) fun t w ht => by simpa using ht
  clear_value s5
  split
  · simpa [failGang_m] using h5
  · next s6 h6 =>
    have hw6 : Memory.wf s6.m.mem = true := memory_wf_placeAll h5 h6
    split
    · simpa [failGang_m] using hw6
    · next s7 h7 =>
      have hw7 : Memory.wf s7.m.mem = true :=
        foldl_bind_inv (fun t => Memory.wf t.m.mem = true) (fun _ _ _ ha hb => by rw [doReplay_mem hb]; exact ha) _
          (fun a ha => by rw [← Option.some.inj ha]; exact hw6) h7
      extract_lets s8 ev s9 t
      have h9 : Memory.wf s9.m.mem = true := by
        dsimp only [s9, s8]
        split <;> simpa [postEvent_m] using hw7
      clear_value s9
      split
      · exact h9
      · simpa [freeSave_m, t] using h9

section
variable {s : State} (hm : Memory.wf s.m.mem = true)
include hm

theorem nextWf_execCapture (gang : Nat) : NextWf (execCapture gang s) := by
  unfold execCapture
  split
  · simp
  · split
    · rw [nextWf_next]
      split
      · exact memory_wf_captureNow _ _ hm
      · exact hm
    · rw [nextWf_next]
      split
      · exact memory_wf_captureNow _ _ hm
      · exact hm
    · simp

theorem nextWf_execRestore (die gang : Nat) : NextWf (execRestore die gang s) := by
  unfold execRestore
  split
  · simp
  · split
    · simp
    · dsimp only
      split
      · simpa using hm
      · rw [nextWf_next]
        split
        · exact memory_wf_restoreNow _ _ _ _ _ _ hm
        · rw [failGang_m]
          exact hm

end

/-! ### Machine/Faults.lean -/

@[simp] theorem wakeCmds_mem (s : State) (ws : List Waiter) : (wakeCmds s ws).m.mem = s.m.mem := by
  unfold wakeCmds
  refine foldl_mem fun _ _ => ?_
  split <;> rfl

@[simp] theorem resolveFault_mem (s : State) (fid : Nat) (f : QFault) :
    (resolveFault s fid f).m.mem = s.m.mem := by simp [resolveFault]

@[simp] theorem loseFault_mem (s : State) (fid : Nat) (f : QFault) : (loseFault s fid f).m.mem = s.m.mem := by
  unfold loseFault
  refine foldl_mem fun _ _ => ?_
  split <;> rfl

@[simp] theorem runsRemotely_mem (s : State) (f : QFault) : (runsRemotely s f).m.mem = s.m.mem := by
  unfold runsRemotely
  refine foldl_mem fun _ _ => ?_
  rfl

theorem memory_wf_installPeer {s t : State} {f : QFault} (h : Memory.wf s.m.mem = true) (ht : installPeer s f = some t) :
    Memory.wf t.m.mem = true := by
  unfold installPeer at ht
  split at ht
  · simp at ht
  · exact memory_wf_putEntry _ _ _ _ _ h ht

@[simp] theorem sendAway_mem (f : QFault) (fid : Nat) (s : State) (g : Nat) :
    (sendAway f fid s g).m.mem = s.m.mem := by simp [sendAway]

theorem memory_wf_dumpSections (ctx : Nat) (base : Word) (bs : List (Nat × List Byte)) {n : Nat} {s : State}
    (h : Memory.wf s.m.mem = true) : Memory.wf (dumpSections ctx base bs n s).1.m.mem = true := by
  induction bs generalizing n s with
  | nil => exact h
  | cons b bs ih =>
    unfold dumpSections
    split
    · next hk => exact ih ((memory_wf_kernelWrite _ h).1 _ hk)
    · next hk => exact (memory_wf_kernelWrite _ h).2 _ _ hk

theorem memory_wf_putRecords {s : State} (die : Nat) (rs : List (BitVec 256)) (h : Memory.wf s.m.mem = true) :
    Memory.wf (putRecords s die rs).m.mem = true := by
  refine memory_wf_foldl h fun t b ht => ?_
  split
  · exact ht
  · simpa using memory_wf_ringPut _ _ _ ht

section
variable {s : State} (hm : Memory.wf s.m.mem = true)
include hm

theorem nextWf_execFaultResolved (die fid : Nat) : NextWf (execFaultResolved die fid s) := by
  unfold execFaultResolved
  split
  · simp
  · split <;> simpa using hm

theorem nextWf_execFaultFailed (die fid : Nat) : NextWf (execFaultFailed die fid s) := by
  unfold execFaultFailed
  split <;> simp [hm]

theorem nextWf_execFederatedFaultService (die fid : Nat) : NextWf (execFederatedFaultService die fid s) := by
  unfold execFederatedFaultService
  split
  · simp
  · next f hf =>
    have h1 : Memory.wf (runsRemotely s f).m.mem = true := by simpa using hm
    split_ifs
    · simp
    · simpa using hm
    · simpa using hm
    · dsimp only
      rw [nextWf_next]
      split
      · next hp => simpa using memory_wf_installPeer h1 hp
      · simpa using h1

theorem nextWf_execMigration (die fid : Nat) : NextWf (execMigration die fid s) := by
  unfold execMigration
  dsimp only
  repeat' split
  all_goals simp -implicitDefEqProofs [foldl_mem, hm]

theorem nextWf_execDumpWrite (gang : Nat) : NextWf (execDumpWrite gang s) := by
  unfold execDumpWrite
  split
  · simp
  · next g hg =>
    extract_lets r lost0 c
    split
    · simp
    · dsimp only
      split
      · simpa [postEvent_m] using hm
      · split
        · simpa [postEvent_m] using hm
        · next s1 hk =>
          have h1 : Memory.wf s1.m.mem = true := (memory_wf_kernelWrite _ hm).1 _ hk
          rw [nextWf_next]
          split
          · next hk2 => exact (memory_wf_kernelWrite _ (memory_wf_dumpSections _ _ _ h1)).1 _ hk2
          · next hk2 => exact (memory_wf_kernelWrite _ (memory_wf_dumpSections _ _ _ h1)).2 _ _ hk2

theorem nextWf_execStallTimeout (gang core : Nat) : NextWf (execStallTimeout gang core s) := by
  unfold execStallTimeout
  split
  · simp
  · next g hg =>
    dsimp only
    rw [nextWf_next, postEvent_m, updGang_m]
    split
    · exact hm
    · next hs => exact memory_wf_saveWrite _ _ _ (by rw [takeSave_m hs]; exact hm)

theorem nextWf_execPatrolScrub (die pa : Nat) (found : BurstState) : NextWf (execPatrolScrub die pa found s) := by
  unfold execPatrolScrub
  split <;> simp [postEvent_m, hm]

theorem nextWf_execEventFold (die : Nat) : NextWf (execEventFold die s) := by
  unfold execEventFold
  split <;> simp [memory_wf_putRecords, hm]

end

/-! ### Machine/Requests.lean -/

@[simp] theorem submitLaunch_mem (s : State) (h : Hdr) (queue : Nat) (r : BitVec 1024) :
    (submitLaunch s h queue r).m.mem = s.m.mem := rfl

@[simp] theorem dropCaptured_mem (s : State) (g : Nat) : (dropCaptured s g).m.mem = s.m.mem := by
  unfold dropCaptured
  split <;> simp [freeSave_m, postEvent_m]

@[simp] theorem cancelLaunch_mem (s : State) (l : Nat) : (cancelLaunch s l).m.mem = s.m.mem := by
  unfold cancelLaunch
  extract_lets s1 mine s2 s3
  have h3 : s3.m.mem = s.m.mem := calc
    s3.m.mem = s2.m.mem := foldl_mem fun _ _ => rfl
    _ = s1.m.mem := foldl_mem fun _ _ => dropCaptured_mem _ _
    _ = s.m.mem := dropGangs_mem s l
  split <;> simp [h3]

theorem memory_wf_importPages (die ctx : Nat) (v : Word) (x : ExportRec) (rights : BitVec 4) (ord window n : Nat) {s t : State}
    (h : Memory.wf s.m.mem = true) (ht : importPages die ctx v x rights ord window n s = some t) :
    Memory.wf t.m.mem = true := by
  induction n generalizing t with
  | zero =>
    rw [← Option.some.inj ht]
    exact h
  | succ n ih =>
    unfold importPages at ht
    split at ht
    · simp at ht
    · next hu =>
      split at ht
      · rw [← Option.some.inj ht]
        exact ih hu
      · exact memory_wf_putEntry _ _ _ _ _ (ih hu) ht

@[simp] theorem freeFrames_mem (s : State) (die : Nat) (es : List (Nat × Nat × Word)) :
    (freeFrames s die es).m.mem = s.m.mem := rfl

theorem memory_wf_dropHandle {s : State} (handle : Nat) (r : HandleRec) (h : Memory.wf s.m.mem = true) :
    Memory.wf (dropHandle s handle r).m.mem = true := by
  unfold dropHandle
  extract_lets m last rg es s1 hs used ms
  have hu := memory_wf_unmapRange_getD r.ctx rg.1 rg.2 h
  have h1 : Memory.wf s1.m.mem = true := by
    dsimp only [s1]
    split
    · simpa using hu
    · exact h
  exact h1

section
variable {s : State} (hm : Memory.wf s.m.mem = true)
include hm

theorem nextWf_execLaunchSubmit (h : Hdr) (queue : Nat) (rec : BitVec 1024) : NextWf (execLaunchSubmit h queue rec s) := by
  unfold execLaunchSubmit
  refine nextWf_request hm ?_
  simp [done_m, hm]

theorem nextWf_execLaunchCancel (h : Hdr) (launchId : BitVec 64) : NextWf (execLaunchCancel h launchId s) := by
  unfold execLaunchCancel
  split
  · simpa using hm
  · refine nextWf_request hm ?_
    rw [done_m]
    exact memory_wf_foldl hm fun t l ht => by simpa using ht

theorem nextWf_execQueuePriority (h : Hdr) (queue prio : Nat) : NextWf (execQueuePriority h queue prio s) := by
  unfold execQueuePriority
  refine nextWf_request hm ?_
  simp [done_m, hm]

theorem nextWf_execEventSet (h : Hdr) (index : Nat) : NextWf (execEventSet h index s) := by
  unfold execEventSet
  refine nextWf_request hm ?_
  simp [done_m, hm]

theorem nextWf_execEventReset (h : Hdr) (index : Nat) : NextWf (execEventReset h index s) := by
  unfold execEventReset
  refine nextWf_request hm ?_
  simp [done_m, hm]

theorem nextWf_execDeviceSettings (h : Hdr) (stallK det : Nat) : NextWf (execDeviceSettings h stallK det s) := by
  unfold execDeviceSettings
  refine nextWf_request hm ?_
  simp [done_m, hm]

theorem nextWf_execHandleExport (h : Hdr) (base length : BitVec 64) (rights : BitVec 8) :
    NextWf (execHandleExport h base length rights s) := by
  unfold execHandleExport
  refine nextWf_request hm ?_
  simp [done_m, hm]

theorem nextWf_execHandleImport (h : Hdr) (handle window : BitVec 64) (rights route : BitVec 8) :
    NextWf (execHandleImport h handle window rights route s) := by
  unfold execHandleImport
  dsimp only
  split
  · simpa using hm
  · refine nextWf_request hm ?_
    rw [done_m]
    exact memory_wf_getD hm fun t ht => memory_wf_importPages _ _ _ _ _ _ _ _ hm ht

theorem nextWf_execHandleRevoke (h : Hdr) (handle : BitVec 64) : NextWf (execHandleRevoke h handle s) := by
  unfold execHandleRevoke
  refine nextWf_request hm ?_
  simp [done_m, hm]

theorem nextWf_execModuleUnload (h : Hdr) (handle : BitVec 64) : NextWf (execModuleUnload h handle s) := by
  unfold execModuleUnload
  extract_lets k again finishUp
  have hup : ∀ t : State, Memory.wf t.m.mem = true → Memory.wf (finishUp t).m.mem = true := by
    intro t ht
    dsimp only [finishUp]
    split
    · simpa [refuse_m] using ht
    · split
      · simpa using ht
      · simpa [done_m] using memory_wf_dropHandle k _ ht
  split
  · split
    · exact (nextWf_next _).2 (hup _ hm)
    · exact nextWf_request hm (hup _ hm)
  · exact nextWf_request hm hm

theorem nextWf_execIdentifierAllocate (h : Hdr) (ident : Nat) (gate : BitVec 16) (allocate : Bool) :
    NextWf (execIdentifierAllocate h ident gate allocate s) := by
  unfold execIdentifierAllocate
  extract_lets e ctx bad s1
  split
  · simpa using hm
  · refine nextWf_request hm ?_
    split <;> simpa [done_m] using hm

theorem nextWf_execTurnRightGrant (h : Hdr) (grant : Bool) : NextWf (execTurnRightGrant h grant s) := by
  unfold execTurnRightGrant
  refine nextWf_request hm ?_
  simp [done_m, hm]

theorem nextWf_execEventRing (h : Hdr) (base size : BitVec 64) : NextWf (execEventRing h base size s) := by
  unfold execEventRing
  refine nextWf_request hm ?_
  simp [done_m, hm]

theorem nextWf_execEventReadIndex (h : Hdr) (index : BitVec 64) : NextWf (execEventReadIndex h index s) := by
  unfold execEventReadIndex
  refine nextWf_request hm ?_
  simp [done_m, hm]

theorem nextWf_execTracing (h : Hdr) (on : Bool) : NextWf (execTracing h on s) := by
  unfold execTracing
  refine nextWf_request hm ?_
  simp [done_m, hm]

end

/-! ### Machine/Bringup.lean -/

@[simp] theorem dropCmds_mem (s : State) (p : Cmd → Bool) : (dropCmds s p).m.mem = s.m.mem := by
  simp -implicitDefEqProofs [dropCmds, foldl_mem]

@[simp] theorem killGang_mem (s : State) (g : Nat) : (killGang s g).m.mem = s.m.mem := by
  unfold killGang
  dsimp only
  split_ifs <;> simp [postEvent_m]

@[simp] theorem clearClusters_mem (s : State) (p : Nat → Bool) : (clearClusters s p).m.mem = s.m.mem := by simp [clearClusters]

@[simp] theorem answerReset_mem (s : State) (die : Nat) : (answerReset s die).m.mem = s.m.mem := by
  unfold answerReset
  extract_lets hs mine s1 here pl0 h0 d0 s2
  have h1 : s1.m.mem = s.m.mem := by
    refine foldl_mem fun _ _ => ?_
    split <;> rfl
  clear_value s1
  have h2 : s2.m.mem = s.m.mem := h1
  clear_value s2
  refine (foldl_mem fun _ _ => ?_).trans h2
  rfl

@[simp] theorem clearDie_mem (s : State) (die : Nat) : (clearDie s die).m.mem = s.m.mem := by simp [clearDie]

@[simp] theorem resetDie_mem (s : State) (die : Nat) : (resetDie s die).m.mem = s.m.mem := by
  unfold resetDie
  simp only [postEvent_m, clearDie_mem, answerReset_mem]
  exact foldl_mem killGang_mem

@[simp] theorem forgetImports_mem (s : State) (die : Nat) : (forgetImports s die).m.mem = s.m.mem := rfl

@[simp] theorem unitEvent_mem (s : State) (die : Nat) (k : UnitKind) (index : Nat) (ready : Bool) :
    (unitEvent s die k index ready).m.mem = s.m.mem := rfl

@[simp] theorem sampleDie_mem (s : State) (x : Nat × Reading) : (sampleDie s x).m.mem = s.m.mem := by simp [sampleDie]

section
variable {s : State} (hm : Memory.wf s.m.mem = true)
include hm

theorem nextWf_execClusterReset (cluster : Nat) : NextWf (execClusterReset cluster s) := by
  unfold execClusterReset
  dsimp only
  repeat' split
  all_goals simp -implicitDefEqProofs [foldl_mem, hm]

theorem nextWf_execDieReset (die : Nat) : NextWf (execDieReset die s) := by
  unfold execDieReset
  split <;> simp [hm]

omit hm in
theorem nextWf_execPackageReset : NextWf (execPackageReset s) := (nextWf_next _).2 memory_wf_reset

theorem nextWf_execRomBoot (die : Nat) : NextWf (execRomBoot die s) := by
  unfold execRomBoot
  split <;> simp [hm]

theorem nextWf_execUnitReady (die : Nat) (kind : UnitKind) (index : Nat) (ready : Bool) :
    NextWf (execUnitReady die kind index ready s) := by
  unfold execUnitReady
  split
  · simp
  · cases kind <;> dsimp only
    · simpa using hm
    · split <;> simpa using hm
    · rw [nextWf_next, unitEvent_mem]
      split <;> simpa using hm
    · rw [nextWf_next, unitEvent_mem, setHop_m]
      split <;> exact hm
    · simpa using hm
    · split
      · exact nextWf_execPUnitReady hm die
      · simpa using hm

theorem nextWf_execFwIdentity (h : Hdr) : NextWf (execFwIdentity h s) := by
  unfold execFwIdentity
  refine nextWf_request hm ?_
  simp [hm]

theorem nextWf_execFwAttest (h : Hdr) (nonce : List (BitVec 8)) : NextWf (execFwAttest h nonce s) := by
  unfold execFwAttest
  refine nextWf_request hm ?_
  simp [hm]

theorem nextWf_execFwProvision (h : Hdr) (image length : BitVec 64) : NextWf (execFwProvision h image length s) := by
  unfold execFwProvision
  refine nextWf_request hm ?_
  simp [done_m, hm]

theorem nextWf_execFwActivate (h : Hdr) : NextWf (execFwActivate h s) := by
  unfold execFwActivate
  refine nextWf_request hm ?_
  simp [done_m, hm]

theorem nextWf_execPowerSensors (h : Hdr) : NextWf (execPowerSensors h s) := by
  unfold execPowerSensors
  refine nextWf_request hm ?_
  simp [hm]

theorem nextWf_execPackageLimit (h : Hdr) (watts : Nat) : NextWf (execPackageLimit h watts s) := by
  unfold execPackageLimit
  refine nextWf_request hm ?_
  simp [done_m, hm]

theorem nextWf_execRailLimit (h : Hdr) (rail amps : Nat) : NextWf (execRailLimit h rail amps s) := by
  unfold execRailLimit
  refine nextWf_request hm ?_
  simp [done_m, hm]

theorem nextWf_execRetrainHop (h : Hdr) (hop : Nat) : NextWf (execRetrainHop h hop s) := by
  unfold execRetrainHop
  refine nextWf_request hm ?_
  simp [hm]

theorem nextWf_execPowerSample (readings : List Reading) : NextWf (execPowerSample readings s) := by
  unfold execPowerSample
  simp -implicitDefEqProofs [foldl_mem, hm]

theorem nextWf_execThermalReset (die : Nat) : NextWf (execThermalReset die s) := by
  unfold execThermalReset
  split <;> simp [hm]

end

/-! ### Machine/Load.lean -/

theorem memory_wf_placeData {s t : State} {die ctx : Nat} {img : List Byte} {base : Word} (h : Memory.wf s.m.mem = true)
    (ht : placeData s die ctx img base = some t) : Memory.wf t.m.mem = true := by
  unfold placeData at ht
  dsimp only at ht
  split at ht
  · rw [← Option.some.inj ht]
    exact h
  · split at ht
    · simp at ht
    · next hf => exact memory_wf_mapRange (memory_wf_writeBytes _ _ (by rw [takeFrames_mem hf]; exact h)) ht

theorem memory_wf_loadModule {s t : State} {q : Hdr} {img : List Byte} {base : Word} (h : Memory.wf s.m.mem = true)
    (ht : loadModule s q img base = some t) : Memory.wf t.m.mem = true := by
  obtain ⟨u, hu, rfl⟩ := Option.map_eq_some_iff.1 ht
  have hw : Memory.wf u.m.mem = true := by
    split at hu
    · rw [← Option.some.inj hu]
      exact h
    · exact memory_wf_placeData h hu
  simpa [done_m] using hw

section
variable {s : State} (hm : Memory.wf s.m.mem = true)
include hm

theorem nextWf_execModuleLoad (h : Hdr) (image length dataBase : BitVec 64) :
    NextWf (execModuleLoad h image length dataBase s) := by
  unfold execModuleLoad
  exact nextWf_request hm (memory_wf_getD hm fun t ht => memory_wf_loadModule hm ht)

end

/-! ### Machine/Matrix.lean -/

@[simp] theorem erasePops_mem (s : State) (core y : Nat) (ps : List Pop) (ids : List Nat) :
    (erasePops s core y ps ids).m.mem = s.m.mem := by
  unfold erasePops
  refine foldl_mem fun _ _ => ?_
  split <;> simp [setPair_m, eraseEntry_m]

@[simp] theorem mxStart_mem (s : State) (core i : Nat) (k : Cmd) : (mxStart s core i k).m.mem = s.m.mem := by simp [mxStart]
@[simp] theorem setAccWord_mem (s : State) (core tile e v : Nat) : (setAccWord s core tile e v).m.mem = s.m.mem := rfl

@[simp] theorem setAccElem_mem (s : State) (core n : Nat) (f64 : Bool) (e v : Nat) :
    (setAccElem s core n f64 e v).m.mem = s.m.mem := by simp [setAccElem]

@[simp] theorem renewTiles_mem (s : State) (core : Nat) (ts : List Nat) : (renewTiles s core ts).m.mem = s.m.mem := rfl

@[simp] theorem undefTiles_mem (s : State) (core : Nat) (ts : List Nat) : (undefTiles s core ts).m.mem = s.m.mem := by
  unfold undefTiles
  simp only [renewTiles_mem]
  exact foldl_mem fun _ _ => foldl_mem fun _ _ => by simp

@[simp] theorem orTileFlags_mem (s : State) (core : Nat) (ts : List Nat) (fl : Flags) :
    (orTileFlags s core ts fl).m.mem = s.m.mem := rfl

@[simp] theorem clearTileFlags_mem (s : State) (core : Nat) (ts : List Nat) : (clearTileFlags s core ts).m.mem = s.m.mem := rfl
@[simp] theorem setStepCount_mem (s : State) (core t n : Nat) : (setStepCount s core t n).m.mem = s.m.mem := rfl

@[simp] theorem stepAll_mem (s : State) (k : Cmd) (n : Nat) (bs : Bool) (a b sc : List Byte) :
    (stepAll s k n bs a b sc).m.mem = s.m.mem := by
  unfold stepAll
  simp only [orTileFlags_mem]
  exact foldl_fst_mem (fun _ _ => setAccElem_mem ..) _ _

@[simp] theorem runStep_mem (s : State) (x : ReadyStep) : (runStep s x).m.mem = s.m.mem := by
  unfold runStep
  dsimp only
  split <;> simp

@[simp] theorem mxFinish_mem (s : State) (i : Nat) (k : Cmd) (status : BitVec 32) :
    (mxFinish s i k status).m.mem = s.m.mem := by simp [mxFinish]

@[simp] theorem mxLoad_mem (s : State) (k : Cmd) (n : Nat) (f64 : Bool) (src : BitVec 32) :
    (mxLoad s k n f64 src).m.mem = s.m.mem := by
  unfold mxLoad
  refine foldl_mem fun _ _ => ?_
  rfl

theorem memory_wf_mxStoreAll {s : State} (k : Cmd) (n : Nat) (f64 : Bool) (dst : BitVec 32) (h : Memory.wf s.m.mem = true) :
    Memory.wf (mxStoreAll s k n f64 dst).m.mem = true := by
  unfold mxStoreAll
  dsimp only
  split
  · exact h
  · simp only [setTags_m]
    refine memory_wf_foldl ?_ fun t c ht => ht
    simp only [setChunks_m, orTileFlags_mem]
    refine memory_wf_foldl_fst _ h fun a e ha => ?_
    split
    · exact ha
    · exact memory_wf_engineWrite _ _ _ _ ha

@[simp] theorem lockStore_mem (c : Ctx) (f : Form) (s : State) (k : Cmd) : (lockStore c f s k).m.mem = s.m.mem := by
  unfold lockStore
  dsimp only
  repeat' split
  all_goals simp [setChunks_m]

section
variable {s : State} (hm : Memory.wf s.m.mem = true)
include hm

theorem nextWf_execMxStepStart (cluster : Nat) : NextWf (execMxStepStart cluster s) := by
  unfold execMxStepStart
  dsimp only
  repeat' split
  all_goals simp -implicitDefEqProofs [foldl_mem, hm]

theorem nextWf_execBudgetRefill (cluster : Nat) : NextWf (execBudgetRefill cluster s) := by simp [execBudgetRefill, hm]

theorem nextWf_execAccExchange (core tile : Nat) : NextWf (execAccExchange core tile s) := by
  unfold execAccExchange
  split_ifs <;> simp [hm]

theorem nextWf_execMxCommandComplete (core i : Nat) : NextWf (execMxCommandComplete core i s) := by
  unfold execMxCommandComplete
  dsimp only
  repeat' split
  all_goals simp -implicitDefEqProofs [foldl_mem, memory_wf_mxStoreAll, hm]

theorem nextWf_mxIssue (f : Form) (loop : Bool) (extra : Nat) (mk : Ctx → Nat → CmdBody) :
    NextWf (mxIssue f s loop extra mk) := by
  refine nextWf_issuing hm fun c => ?_
  dsimp only
  rw [nextWf_next]
  split
  · exact memory_wf_raise _ _ _ hm
  · exact memory_wf_issueCmds _ _ _ hm (by simpa using hm) (by simp)

theorem nextWf_execMxZero (f : Form) : NextWf (execMxZero f s) := nextWf_mxIssue hm _ _ _ _
theorem nextWf_execMxLd (f : Form) : NextWf (execMxLd f s) := nextWf_mxIssue hm _ _ _ _
theorem nextWf_execMxStep (f : Form) : NextWf (execMxStep f s) := nextWf_mxIssue hm _ _ _ _
theorem nextWf_execMxLoop (f : Form) : NextWf (execMxLoop f s) := nextWf_mxIssue hm _ _ _ _
theorem nextWf_execMxStore (f : Form) : NextWf (execMxStore f s) := nextWf_mxIssue hm _ _ _ _
theorem nextWf_execMxMode (f : Form) : NextWf (execMxMode f s) := nextWf_mxIssue hm _ _ _ _

theorem nextWf_execMxRead (f : Form) : NextWf (execMxRead f s) := by
  unfold execMxRead
  refine nextWf_issuing hm fun c => ?_
  dsimp only
  repeat' split
  all_goals simp [hold_m, failGang_m, finish_m, putLanes_m, memory_wf_raise, hm]

end

/-! ### Machine/Dispatch.lean -/

section
variable {s : State} (hm : Memory.wf s.m.mem = true)
include hm

/-- Every operation and event keeps memory canonical. -/
theorem nextWf_exec (i : Instr) : NextWf (exec i s) := by
  cases i with
  | br f => exact nextWf_execBr hm f
  | brc f => exact nextWf_execBrc hm f
  | switch f => exact nextWf_execSwitch hm f
  | call f => exact nextWf_execCall hm f
  | callx f => exact nextWf_execCallx hm f
  | ret f => exact nextWf_execRet hm f
  | exit f => exact nextWf_execExit hm f
  | trap f => exact nextWf_execTrap hm f
  | unreach f => exact nextWf_execUnreach hm f
  | const f => exact nextWf_execConst hm f
  | sreg f => exact nextWf_execSreg hm f
  | select f => exact nextWf_execSelect hm f
  | trapInfo f => exact nextWf_execTrapInfo hm f
  | trapRet f => exact nextWf_execTrapRet hm f
  | add f => exact nextWf_execAdd hm f
  | sub f => exact nextWf_execSub hm f
  | mul f => exact nextWf_execMul hm f
  | mulhi f => exact nextWf_execMulhi hm f
  | mad f => exact nextWf_execMad hm f
  | div f => exact nextWf_execDiv hm f
  | rem f => exact nextWf_execRem hm f
  | neg f => exact nextWf_execNeg hm f
  | abs f => exact nextWf_execAbs hm f
  | min f => exact nextWf_execMin hm f
  | max f => exact nextWf_execMax hm f
  | and f => exact nextWf_execAnd hm f
  | or f => exact nextWf_execOr hm f
  | xor f => exact nextWf_execXor hm f
  | andn f => exact nextWf_execAndn hm f
  | not f => exact nextWf_execNot hm f
  | shl f => exact nextWf_execShl hm f
  | shr f => exact nextWf_execShr hm f
  | rotl f => exact nextWf_execRotl hm f
  | rotr f => exact nextWf_execRotr hm f
  | popc f => exact nextWf_execPopc hm f
  | clz f => exact nextWf_execClz hm f
  | ctz f => exact nextWf_execCtz hm f
  | brev f => exact nextWf_execBrev hm f
  | bfx f => exact nextWf_execBfx hm f
  | bfi f => exact nextWf_execBfi hm f
  | ext f => exact nextWf_execExt hm f
  | trunc f => exact nextWf_execTrunc hm f
  | icmp f => exact nextWf_execIcmp hm f
  | adr f => exact nextWf_execAdr hm f
  | bsel f => exact nextWf_execBsel hm f
  | fadd f => exact nextWf_execFadd hm f
  | fsub f => exact nextWf_execFsub hm f
  | fmul f => exact nextWf_execFmul hm f
  | fdiv f => exact nextWf_execFdiv hm f
  | fsqrt f => exact nextWf_execFsqrt hm f
  | fma f => exact nextWf_execFma hm f
  | fmin f => exact nextWf_execFmin hm f
  | fmax f => exact nextWf_execFmax hm f
  | fneg f => exact nextWf_execFneg hm f
  | fabs f => exact nextWf_execFabs hm f
  | fcopysign f => exact nextWf_execFcopysign hm f
  | fcmp f => exact nextWf_execFcmp hm f
  | fclass f => exact nextWf_execFclass hm f
  | frint f => exact nextWf_execFrint hm f
  | fcvt f => exact nextWf_execFcvt hm f
  | fcvti f => exact nextWf_execFcvti hm f
  | icvtf f => exact nextWf_execIcvtf hm f
  | fscaleb f => exact nextWf_execFscaleb hm f
  | flogb f => exact nextWf_execFlogb hm f
  | fexcRd f => exact nextWf_execFexcRd hm f
  | fexcClr f => exact nextWf_execFexcClr hm f
  | fmodeSet f => exact nextWf_execFmodeSet hm f
  | fmodeRd f => exact nextWf_execFmodeRd hm f
  | pk8 f => exact nextWf_execPk8 hm f
  | upk8 f => exact nextWf_execUpk8 hm f
  | bscale f => exact nextWf_execBscale hm f
  | lanex f => exact nextWf_execLanex hm f
  | vote f => exact nextWf_execVote hm f
  | lgred f => exact nextWf_execLgred hm f
  | lgscan f => exact nextWf_execLgscan hm f
  | matchLanes f => exact nextWf_execMatchLanes hm f
  | sfEval f => exact nextWf_execSfEval hm f
  | sfLoad f => exact nextWf_execSfLoad hm f
  | ld f => exact nextWf_execLd hm f
  | st f => exact nextWf_execSt hm f
  | prefetch f => exact nextWf_execPrefetch hm f
  | amo f => exact nextWf_execAmo hm f
  | cas f => exact nextWf_execCas hm f
  | red f => exact nextWf_execRed hm f
  | fence f => exact nextWf_execFence hm f
  | bxShape f => exact nextWf_execBxShape hm f
  | bxCopy f => exact nextWf_execBxCopy hm f
  | bxConv f => exact nextWf_execBxConv hm f
  | bxFill f => exact nextWf_execBxFill hm f
  | bxGather f => exact nextWf_execBxGather hm f
  | bxScatter f => exact nextWf_execBxScatter hm f
  | bxRed f => exact nextWf_execBxRed hm f
  | waitTok f => exact nextWf_execWaitTok hm f
  | tokAll f => exact nextWf_execTokAll hm f
  | tokStatus f => exact nextWf_execTokStatus hm f
  | waitChunks f => exact nextWf_execWaitChunks hm f
  | testChunks f => exact nextWf_execTestChunks hm f
  | clrChunks f => exact nextWf_execClrChunks hm f
  | mxZero f => exact nextWf_execMxZero hm f
  | mxLd f => exact nextWf_execMxLd hm f
  | mxStep f => exact nextWf_execMxStep hm f
  | mxLoop f => exact nextWf_execMxLoop hm f
  | mxStore f => exact nextWf_execMxStore hm f
  | mxMode f => exact nextWf_execMxMode hm f
  | mxRead f => exact nextWf_execMxRead hm f
  | xcSwap f => exact nextWf_execXcSwap hm f
  | barJoin f => exact nextWf_execBarJoin hm f
  | barLeave f => exact nextWf_execBarLeave hm f
  | barArrive f => exact nextWf_execBarArrive hm f
  | barWait f => exact nextWf_execBarWait hm f
  | barSync f => exact nextWf_execBarSync hm f
  | yield f => exact nextWf_execYield hm f
  | cpKey f => exact nextWf_execCpKey hm f
  | cpBid f => exact nextWf_execCpBid hm f
  | cpGate f => exact nextWf_execCpGate hm f
  | cpWon f => exact nextWf_execCpWon hm f
  | cpMax f => exact nextWf_execCpMax hm f
  | cpDie f => exact nextWf_execCpDie hm f
  | cpRound f => exact nextWf_execCpRound hm f
  | cpLast f => exact nextWf_execCpLast hm f
  | cvTurn f => exact nextWf_execCvTurn hm f
  | cvSplit f => exact nextWf_execCvSplit hm f
  | brk f => exact nextWf_execBrk hm f
  | dbgMark f => exact nextWf_execDbgMark hm f
  | rdclk f => exact nextWf_execRdclk hm f
  | rdcnt f => exact nextWf_execRdcnt hm f
  | sys f => exact nextWf_execSys hm f
  | spill f => exact nextWf_execSpill hm f
  | fill f => exact nextWf_execFill hm f
  | vmov f => exact nextWf_execVmov hm f
  | smov f => exact nextWf_execSmov hm f
  | v2s f => exact nextWf_execV2s hm f
  | s2v f => exact nextWf_execS2v hm f
  | pset f => exact nextWf_execPset hm f
  | pclr f => exact nextWf_execPclr hm f
  | pathSplit f => exact nextWf_execPathSplit hm f
  | pathJoin f => exact nextWf_execPathJoin hm f
  | waitCnt f => exact nextWf_execWaitCnt hm f
  | tqPop f => exact nextWf_execTqPop hm f
  | tqPush f => exact nextWf_execTqPush hm f
  | jmp f => exact nextWf_execJmp hm f
  | ncall f => exact nextWf_execNcall hm f
  | nret f => exact nextWf_execNret hm f
  | frameEnter f => exact nextWf_execFrameEnter hm f
  | frameLeave f => exact nextWf_execFrameLeave hm f
  | entry f => exact nextWf_execEntry hm f
  | bnop f => exact nextWf_execBnop hm f
  | issueSelect core => exact nextWf_execIssueSelect hm core
  | illegalBundleRepair cluster key => exact nextWf_execIllegalBundleRepair hm cluster key
  | translationMiss pid key => exact nextWf_execTranslationMiss hm pid key
  | translationReady cluster key => exact nextWf_execTranslationReady hm cluster key
  | faultResolved die fid => exact nextWf_execFaultResolved hm die fid
  | faultFailed die fid => exact nextWf_execFaultFailed hm die fid
  | federatedFaultService die fid => exact nextWf_execFederatedFaultService hm die fid
  | walkComplete die wid => exact nextWf_execWalkComplete hm die wid
  | bxCommandStart core => exact nextWf_execBxCommandStart hm core
  | bxCommandPark core cmd => exact nextWf_execBxCommandPark hm core cmd
  | chunkFull core cmd chunk => exact nextWf_execChunkFull hm core cmd chunk
  | bxCommandComplete core cmd => exact nextWf_execBxCommandComplete hm core cmd
  | queueOverflow core queue => exact nextWf_execQueueOverflow hm core queue
  | mxStepStart cluster => exact nextWf_execMxStepStart hm cluster
  | budgetRefill cluster => exact nextWf_execBudgetRefill hm cluster
  | mxCommandComplete core cmd => exact nextWf_execMxCommandComplete hm core cmd
  | accExchange core tile => exact nextWf_execAccExchange hm core tile
  | swapPaired die => exact nextWf_execSwapPaired hm die
  | barrierRelease core word => exact nextWf_execBarrierRelease hm core word
  | pathExchange warp => exact nextWf_execPathExchange hm warp
  | redMerge die queue => exact nextWf_execRedMerge hm die queue
  | flowRouteChoice die src dst => exact nextWf_execFlowRouteChoice hm die src dst
  | frameBoundary => exact nextWf_execFrameBoundary hm
  | resultDelivery die => exact nextWf_execResultDelivery hm die
  | beacon => exact nextWf_execBeacon hm
  | identifierRevocation die ident => exact nextWf_execIdentifierRevocation hm die ident
  | pUnitReady die => exact nextWf_execPUnitReady hm die
  | turnSelect hop => exact nextWf_execTurnSelect hm hop
  | turnComplete hop failed => exact nextWf_execTurnComplete hm hop failed
  | packetHop hop dir source => exact nextWf_execPacketHop hm hop dir source
  | sourceRoundRobin hop dir => exact nextWf_execSourceRoundRobin hm hop dir
  | packetAccept die dir escape => exact nextWf_execPacketAccept hm die dir escape
  | writeAcknowledgement die place => exact nextWf_execWriteAcknowledgement hm die place
  | peerRequest die dir escape => exact nextWf_execPeerRequest hm die dir escape
  | peerReply die dir escape => exact nextWf_execPeerReply hm die dir escape
  | flitRetry link strand failures spare => exact nextWf_execFlitRetry hm link strand failures spare
  | corruptedHeader hop dir escape => exact nextWf_execCorruptedHeader hm hop dir escape
  | trackerTimeout die trk => exact nextWf_execTrackerTimeout hm die trk
  | creditReturn hop dir => exact nextWf_execCreditReturn hm hop dir
  | gangDispatch die => exact nextWf_execGangDispatch hm die
  | preemption die => exact nextWf_execPreemption hm die
  | halt gang why => exact nextWf_execHalt hm gang why
  | capture gang => exact nextWf_execCapture hm gang
  | restore die gang => exact nextWf_execRestore hm die gang
  | migration die fid => exact nextWf_execMigration hm die fid
  | gangRetire gang => exact nextWf_execGangRetire hm gang
  | launchRetire launch => exact nextWf_execLaunchRetire hm launch
  | itemFailed gang cause addr => exact nextWf_execItemFailed hm gang cause addr
  | dumpWrite gang => exact nextWf_execDumpWrite hm gang
  | stallTimeout gang core => exact nextWf_execStallTimeout hm gang core
  | patrolScrub die pa found => exact nextWf_execPatrolScrub hm die pa found
  | manifestLatch => exact nextWf_execManifestLatch hm
  | eventFold die => exact nextWf_execEventFold hm die
  | clusterReset cluster => exact nextWf_execClusterReset hm cluster
  | dieReset die => exact nextWf_execDieReset hm die
  | romBoot die => exact nextWf_execRomBoot hm die
  | unitReady die kind index ready => exact nextWf_execUnitReady hm die kind index ready
  | powerSample readings => exact nextWf_execPowerSample hm readings
  | thermalReset die => exact nextWf_execThermalReset hm die
  | breakpointHit pid => exact nextWf_execBreakpointHit hm pid
  | watchHit cluster => exact nextWf_execWatchHit hm cluster
  | launchSubmit h queue rec => exact nextWf_execLaunchSubmit hm h queue rec
  | launchCancel h launchId => exact nextWf_execLaunchCancel hm h launchId
  | queuePriority h queue prio => exact nextWf_execQueuePriority hm h queue prio
  | eventSet h index => exact nextWf_execEventSet hm h index
  | eventReset h index => exact nextWf_execEventReset hm h index
  | deviceSettings h stallK det => exact nextWf_execDeviceSettings hm h stallK det
  | memMap h base length leaf => exact nextWf_execMemMap hm h base length leaf
  | memUnmap h base length waiting => exact nextWf_execMemUnmap hm h base length waiting
  | memInvalidate h base length => exact nextWf_execMemInvalidate hm h base length
  | saveRegion h base size => exact nextWf_execSaveRegion hm h base size
  | cxlUnitAssign h unit assign => exact nextWf_execCxlUnitAssign hm h unit assign
  | moduleCopy h base remote handle length toLocal => exact nextWf_execModuleCopy hm h base remote handle length toLocal
  | contextTenant h tenant => exact nextWf_execContextTenant hm h tenant
  | contextOpen h => exact nextWf_execContextOpen hm h
  | contextClose h => exact nextWf_execContextClose hm h
  | handleExport h base length rights => exact nextWf_execHandleExport hm h base length rights
  | handleImport h handle window rights route => exact nextWf_execHandleImport hm h handle window rights route
  | handleRevoke h handle => exact nextWf_execHandleRevoke hm h handle
  | moduleLoad h image length dataBase => exact nextWf_execModuleLoad hm h image length dataBase
  | moduleUnload h handle => exact nextWf_execModuleUnload hm h handle
  | identifierAllocate h ident gate allocate => exact nextWf_execIdentifierAllocate hm h ident gate allocate
  | turnRightGrant h grant => exact nextWf_execTurnRightGrant hm h grant
  | eventRing h base size => exact nextWf_execEventRing hm h base size
  | eventReadIndex h index => exact nextWf_execEventReadIndex hm h index
  | tracing h on => exact nextWf_execTracing hm h on
  | debugAttach h => exact nextWf_execDebugAttach hm h
  | debugDetach h => exact nextWf_execDebugDetach hm h
  | debugBreakpoint h index vpc scope => exact nextWf_execDebugBreakpoint hm h index vpc scope
  | debugWatchpoint h index addr kinds scope => exact nextWf_execDebugWatchpoint hm h index addr kinds scope
  | debugStop h launchId scope freeze => exact nextWf_execDebugStop hm h launchId scope freeze
  | debugRelease h launchId scope freeze => exact nextWf_execDebugRelease hm h launchId scope freeze
  | debugStep h path => exact nextWf_execDebugStep hm h path
  | stepSync h path => exact nextWf_execStepSync hm h path
  | debugFocus h path => exact nextWf_execDebugFocus hm h path
  | readValues h path values => exact nextWf_execReadValues hm h path values
  | manifestPeriod h k => exact nextWf_execManifestPeriod hm h k
  | manifestRing h base size => exact nextWf_execManifestRing hm h base size
  | manifestReadIndex h index => exact nextWf_execManifestReadIndex hm h index
  | fwIdentity h => exact nextWf_execFwIdentity hm h
  | fwAttest h nonce => exact nextWf_execFwAttest hm h nonce
  | fwProvision h image length => exact nextWf_execFwProvision hm h image length
  | fwActivate h => exact nextWf_execFwActivate hm h
  | powerSensors h => exact nextWf_execPowerSensors hm h
  | packageLimit h watts => exact nextWf_execPackageLimit hm h watts
  | railLimit h rail amps => exact nextWf_execRailLimit hm h rail amps
  | retrainHop h hop => exact nextWf_execRetrainHop hm h hop
  | accessPerformed warp => exact nextWf_execAccessPerformed hm warp
  | transitRouterLost die => exact nextWf_execTransitRouterLost hm die
  | packageReset => exact nextWf_execPackageReset

end

/-! ### Machine/Issue.lean -/

@[simp] theorem withLatch_mem (s : State) (pid : Nat) : (withLatch s pid).m.mem = s.m.mem := rfl

@[simp] theorem holdBundle_mem (s : State) (pid : Nat) (w : WaitOn) :
    (holdBundle s pid w).m.mem = s.m.mem := by simp [holdBundle, arrive_m]

@[simp] theorem moveTo_mem (s : State) (pid : Nat) (pc : Pc) : (moveTo s pid pc).m.mem = s.m.mem := rfl
@[simp] theorem callRepair_mem (s : State) (pid : Nat) (key : TKey) : (callRepair s pid key).m.mem = s.m.mem := rfl

@[simp] theorem returnPortable_mem (before s : State) (pid : Nat) : (returnPortable before s pid).m.mem = s.m.mem := by
  unfold returnPortable
  split
  · rfl
  · simp only [arrive_m, moveTo_mem]
    split
    · exact foldl_mem fun _ _ => rfl
    · rfl

@[simp] theorem afterStop_mem (s : State) (pid : Nat) (b : Bundle) : (afterStop s pid b).m.mem = s.m.mem := by simp [afterStop]

@[simp] theorem kernelFrame_mem (s : State) (pid : Nat) (t : TImage) :
    (kernelFrame s pid t).m.mem = s.m.mem := by simp [kernelFrame, putHeader_m]

@[simp] theorem countIssue_mem (s : State) (pid : Nat) : (countIssue s pid).m.mem = s.m.mem := rfl
@[simp] theorem chooseAgain_mem (s : State) (pid : Nat) : (chooseAgain s pid).m.mem = s.m.mem := rfl

@[simp] theorem spendYoungest_mem (before s : State) (pid : Nat) : (spendYoungest before s pid).m.mem = s.m.mem := by
  unfold spendYoungest
  exact foldl_mem fun _ _ => by split <;> rfl

@[simp] theorem settleIssue_mem (before s : State) (pid : Nat) : (settleIssue before s pid).m.mem = s.m.mem := by
  simp [settleIssue]

theorem nextWf_runSlot {s : State} (b : Bundle) (pid k : Nat) (hm : Memory.wf s.m.mem = true) : NextWf (runSlot b pid k s) := by
  unfold runSlot
  split
  · exact nextWf_exec hm _
  · simpa using hm

theorem memory_wf_runSlots (b : Bundle) (pid : Nat) (ks : List Nat) {s : State} {r : State × Option (Nat × WaitOn)}
    (hm : Memory.wf s.m.mem = true) (hr : runSlots b pid ks s = .next r) : Memory.wf r.1.m.mem = true := by
  induction ks generalizing s with
  | nil =>
    rw [← Host.Outcome.next.inj hr]
    exact hm
  | cons k ks ih =>
    unfold runSlots at hr
    split at hr
    · next t ht =>
      have hw : Memory.wf t.m.mem = true := nextWf_runSlot b pid k hm t ht
      split at hr
      · rw [← Host.Outcome.next.inj hr]
        exact hw
      · exact ih hw hr
    · simp at hr
    · simp at hr

theorem memory_wf_callPortable {s : State} (before : State) (pid : Nat) (key : TKey) (t : TImage) (hm : Memory.wf s.m.mem = true) :
    Memory.wf (callPortable before s pid key t).m.mem = true := by
  unfold callPortable
  extract_lets q0 qn w fr s1 s2 sp f t0 ws vals s3 s4
  have h2 : Memory.wf s2.m.mem = true := memory_wf_rebuild _ _ hm
  have h3 : Memory.wf s3.m.mem = true := memory_wf_foldl h2 fun _ _ ht => ht
  clear_value s2 s3
  split
  · exact memory_wf_takeTrap _ _ (by simpa using h2)
  · simpa [putHeader_m, s4] using h3

theorem memory_wf_transfer {s : State} (before : State) (pid : Nat) (op : Option Op) (pc : Pc) (hm : Memory.wf s.m.mem = true) :
    Memory.wf (transfer before s pid op pc).m.mem = true := by
  unfold transfer
  split
  · simpa using hm
  · split
    · simpa using hm
    · split
      · split <;> simpa using hm
      · split
        · exact memory_wf_callPortable _ _ _ _ hm
        · simpa using hm
        · exact memory_wf_rebuild _ _ hm

theorem memory_wf_endBundle {s : State} (before : State) (pid : Nat) (t : TImage) (ix : Nat) (b : Bundle)
    (hm : Memory.wf s.m.mem = true) : Memory.wf (endBundle before s pid t ix b).m.mem = true := by
  have hr : ∀ k, Memory.wf (rebuild s pid k).m.mem = true := fun k => memory_wf_rebuild pid k hm
  unfold endBundle
  split
  · exact hm
  · dsimp only
    split
    · split
      · exact memory_wf_takeTrap _ _ (memory_wf_rebuild _ _ (by exact hm))
      · exact memory_wf_takeTrap _ _ (hr _)
    · exact memory_wf_takeTrap _ _ (hr _)
    · split
      · split
        · simpa using hm
        · simpa using hm
      · split
        · split <;> simpa [splitPath_m] using hm
        · exact memory_wf_transfer _ _ _ _ hm
        · split <;> simpa using hm

theorem nextWf_issueBundle {s : State} (pid : Nat) (t : TImage) (ix : Nat) (hm : Memory.wf s.m.mem = true) :
    NextWf (issueBundle s pid t ix) := by
  unfold issueBundle
  split
  · simpa using hm
  · next b hb =>
    extract_lets w sfBad s1
    have h1 : Memory.wf s1.m.mem = true := by simpa [s1] using hm
    clear_value sfBad s1
    split
    · simpa using hm
    · split
      · simp
      · simp
      · next u hu => simpa using memory_wf_endBundle s pid t ix b (memory_wf_runSlots b pid _ h1 hu)
      · split
        · next a ha =>
          have hw : Memory.wf a.m.mem = true := nextWf_runSlot b pid _ h1 a ha
          rw [nextWf_next]
          split
          · simpa using hw
          · simpa using hm
        · simp
        · simp

theorem nextWf_issueWord {s : State} (pid : Nat) (t : TImage) (v : VPC) (hm : Memory.wf s.m.mem = true) :
    NextWf (issueWord s pid t v) := by
  unfold issueWord
  dsimp only
  split
  · exact (nextWf_next _).2 (memory_wf_takeTrap _ _ hm)
  · split
    · simp
    · split
      · exact nextWf_exec (by simpa using hm) _
      · exact nextWf_exec hm _

/-- What a path's image runs keeps memory canonical, whether a word or a bundle. -/
theorem nextWf_issueStep {s : State} (pid : Nat) (hm : Memory.wf s.m.mem = true) : NextWf (issueStep s pid) := by
  unfold issueStep
  split
  · simpa using hm
  · split
    · split
      · next t ht => simpa using nextWf_execBreakpointHit hm pid t ht
      · exact nextWf_execBreakpointHit hm pid
    · extract_lets key s0 ran
      have h0 : Memory.wf s0.m.mem = true := hm
      have hran : ∀ o, ran = some o → NextWf o := by
        clear_value s0
        intro o ho
        dsimp only [ran] at ho
        split at ho
        · rw [← Option.some.inj ho]
          simpa using h0
        · split at ho
          · rw [← Option.some.inj ho]
            exact nextWf_issueWord _ _ _ h0
          · split at ho
            · rw [← Option.some.inj ho]
              exact nextWf_issueBundle _ _ _ h0
            · simp at ho
      clear_value ran
      split
      · next t => simpa using hran _ rfl
      · simp
      · simp
      · exact (nextWf_next _).2 (memory_wf_rebuild _ _ hm)

/-! ### Machine/Clock.lean -/

@[simp] theorem countOpt_mem (s : State) (core : Nat) (i : Option Nat) : (countOpt s core i).m.mem = s.m.mem := by
  unfold countOpt
  split <;> rfl

@[simp] theorem countCore_mem (s : State) (core : Nat) : (countCore s core).m.mem = s.m.mem := by simp [countCore]

@[simp] theorem noteProgress_mem (s : State) : (noteProgress s).m.mem = s.m.mem := by
  simp -implicitDefEqProofs [noteProgress, foldl_mem]

@[simp] theorem cycleErrors_mem (s : State) : (cycleErrors s).m.mem = s.m.mem := by
  simp -implicitDefEqProofs [cycleErrors, foldl_mem]

@[simp] theorem nextCycle_mem (s : State) : (nextCycle s).m.mem = s.m.mem := by
  unfold nextCycle
  simp only [moveNetwork_mem, cycleErrors_mem, freeWarpSlots_mem, settleStops_mem, syncReplies_mem, noteProgress_mem]
  exact foldl_mem countCore_mem

theorem nextWf_runEvent {s : State} (i : Instr) (hm : Memory.wf s.m.mem = true) : NextWf (runEvent i s) := by
  unfold runEvent
  split
  · simpa using hm
  · exact nextWf_exec hm i

/-! ### Machine/Step.lean -/

theorem nextWf_step {s : State} (hm : Memory.wf s.m.mem = true) : NextWf (step s) := by
  unfold step
  split
  · exact nextWf_runEvent _ hm
  · split
    · exact nextWf_issueStep _ hm
    · split
      · exact nextWf_exec (by exact hm) _
      · simpa using hm

/-- Settles O60: every event of the agenda, every issue, every choice of a path and the next cycle keep memory canonical. -/
theorem everyStepKeepsMemoryCanonical : Obligations.EveryStepKeepsMemoryCanonical :=
  fun _ u hs hu => nextWf_step hs u hu

end Sys2Proof.Machine
end

section
/-!
SUPPORT. O56 and O53: the values that reset leaves (R19, R69, R240, R255, R295, R297, R308), and what the reset of a cluster does to the
gangs there (R20, R369).
-/
namespace Sys2Proof.Machine

/-! ### The state at reset

Reset lists no agent: each reads as its record at rest. -/

@[simp] theorem dieAt_reset (die : Nat) : dieAt State.reset die = dieZero die := rfl
@[simp] theorem clusterAt_reset (cluster : Nat) : clusterAt State.reset cluster = clusterZero := rfl
@[simp] theorem ctxAt_reset (ctx : Nat) : ctxAt State.reset ctx = ctxZero := rfl
@[simp] theorem hopAt_reset (hop : Nat) : hopAt State.reset hop = hopZero := rfl
@[simp] theorem bufAt_reset (key : Nat) : bufAt State.reset key = bufZero := rfl
@[simp] theorem planeAt_reset (die ident : Nat) : planeAt State.reset die ident = planeZero := rfl
@[simp] theorem mxAt_reset (core : Nat) : mxAt State.reset core = mxZero := rfl
@[simp] theorem sfAt_reset (core : Nat) : sfAt State.reset core = sfZero := rfl
@[simp] theorem threadAt_reset (thread : Nat) : threadAt State.reset thread = threadZero := rfl
@[simp] theorem entryAt_reset (i : Nat) : entryAt State.reset i = entryZero := rfl
@[simp] theorem memByte_reset (a : Nat) : memByte State.reset a = Config.emptyByte := rfl

theorem canonical_reset : Canonical State.reset := ⟨memory_wf_reset, rfl, rfl, rfl, rfl, rfl, rfl, rfl, rfl⟩

/-- The directions of the strands at rest (R295). -/
theorem hopZero_dirs {i : Nat} (hi : i < 16) : hopZero.dirs[i]? = some (if i < 8 then Dir.cw else Dir.ccw) := by
  simp only [hopZero, List.getElem?_append, List.getElem?_replicate, List.length_replicate]
  split
  · rfl
  · rw [if_pos (by omega)]

/-- Settles O56: the record at rest of each kind of agent holds the values that the rules give. -/
theorem resetLeavesTheValuesOfTheRules : Obligations.ResetLeavesTheValuesOfTheRules := by
  refine ⟨canonical_reset, rfl, rfl, rfl, rfl, rfl, rfl, ?ctxs, ?dies, ?clusters, ?hops, ?bufs, ?plane, ?pointers, ?engines, ?scratch,
    ?threads, ?entries⟩
  case ctxs => simp [ctxZero]
  case dies => simp [dieZero, Config.stallK]
  case clusters => simp [clusterZero]
  case hops =>
    intro hop i hi
    rw [hopAt_reset]
    exact ⟨hopZero_dirs hi, rfl⟩
  case bufs => simp [bufZero]
  case plane => simp [planeZero]
  case pointers => exact fun _ _ => rfl
  case engines =>
    intro core
    rw [mxAt_reset, sfAt_reset]
    exact ⟨rfl, rfl, rfl, rfl, rfl, rfl⟩
  case scratch => exact fun _ _ => ⟨rfl, rfl⟩
  case threads => simp [threadZero]
  case entries => simp [entryZero]

/-! ### A cluster reset where a warp is listed twice

`unplace` takes a gang's warps out by their keys. Where the list of warps has one key twice, the death of the first gang takes the
second gang's warp too, and `killGang` passes over a resident gang that has none. -/

theorem killGang_eq_self {s : State} {g : Nat} (hr : (gangAt s g).state = .resident) (hw : gangWarps s g = []) :
    killGang s g = s := by
  simp [killGang, hr, hw]

theorem dropUse_x (s : State) (ctx : Nat) (p : BxPage) : (dropUse s ctx p).x = s.x := rfl

theorem dropCmds_x (s : State) (p : Cmd → Bool) : (dropCmds s p).x = s.x := by
  unfold dropCmds
  refine foldl_keeps (·.x) _ (fun t k => ?_) s _
  exact foldl_keeps (·.x) _ (fun v x => dropUse_x v _ x) t _

theorem clearClusters_x_gangs (s : State) (p : Nat → Bool) : (clearClusters s p).x.gangs = s.x.gangs := by
  show (dropCmds s _).x.gangs = s.x.gangs
  rw [dropCmds_x]

theorem clusterNotReady_x (s : State) (cluster : Nat) : (clusterNotReady s cluster).x = s.x := rfl

/-- What a cluster reset does to gangs: it kills those resident on the cluster, in order of their numbers. -/
theorem execClusterReset_gangAt {s u : State} {cluster : Nat} (g : Nat) (hu : exec (.clusterReset cluster) s = .next u) :
    gangAt u g = gangAt (((s.x.gangs.filter (fun q => q.2.cluster == cluster && isResident q.2)).map (·.1)).foldl killGang s) g := by
  rw [exec_clusterReset] at hu
  unfold execClusterReset at hu
  split at hu
  · simp at hu
  · rw [← Host.Outcome.next.inj hu]
    simp only [gangAt, clusterNotReady_x, clearClusters_x_gangs]

/-- Gangs 0 and 1 are resident on cluster 0, and each has a warp; both warps are listed as warp 0, so that the keys of the list do not
rise. -/
def warpListedTwice : State :=
  let gang : Gang := { gangZero with state := .resident }
  { State.reset with x := { State.reset.x with
      gangs := [(0, gang), (1, gang)]
      warps := [(0, { warpZero with gang := 0 }), (0, { warpZero with gang := 1 })] } }

/-- Gang 1 outlives the reset of its cluster: with gang 0 its warp has gone. -/
theorem gangAt_clusterReset_warpListedTwice {u : State} (hu : exec (.clusterReset 0) warpListedTwice = .next u) :
    (gangAt u 1).state = .resident := by
  have left : (gangAt (killGang warpListedTwice 0) 1).state = .resident ∧ gangWarps (killGang warpListedTwice 0) 1 = [] := by
    decide +kernel
  obtain ⟨hr, hw⟩ := left
  have killed : (warpListedTwice.x.gangs.filter (fun q => q.2.cluster == 0 && isResident q.2)).map (·.1) = [0, 1] := by decide +kernel
  rw [execClusterReset_gangAt 1 hu, killed]
  show (gangAt (killGang (killGang warpListedTwice 0) 1) 1).state = .resident
  rw [killGang_eq_self hr hw]
  exact hr

/-- Refutes O53, whose premises leave out `s.x.warps.risingFrom 0`: where the list of warps has one number twice, for two gangs, the
reset of their cluster leaves the second gang resident, which the clause on the cluster's gangs says has retired. -/
theorem not_resetsReadinessAndStopsTakeEffect : ¬ Obligations.ResetsReadinessAndStopsTakeEffect := by
  unfold Obligations.ResetsReadinessAndStopsTakeEffect
  intro h
  obtain ⟨-, -, cluster, -⟩ := h warpListedTwice 0 0 (by decide +kernel) (by decide +kernel)
  obtain ⟨u, hu, -, retires, -⟩ := cluster (by decide)
  have retired : (gangAt u 1).state = .retired :=
    retires 1 { gangZero with state := .resident } (by decide +kernel) rfl rfl (fun _ => by decide +kernel) (fun k hk => by cases hk)
  rw [gangAt_clusterReset_warpListedTwice hu] at retired
  cases retired

end Sys2Proof.Machine
end

section
/-!
SUPPORT. O57 and O59: the decoder and the encoder, in the order of their definitions (R27, R28, R31, R32, R45, R46, R49, R59). The
numbers that the encoder packs are recovered from the sum they stand in, and an operand from its field with the fields behind it.
-/
namespace Sys2Proof

/-! ### The opcode map -/

theorem opOfCode_opCode (op : Op) (md : Nat) (henter : op = .frameEnter → md = 0) (hleave : op = .frameLeave → md = 1) :
    opOfCode (opCode op) md = some op := by
  cases op with
  | frameEnter => rw [henter rfl]; rfl
  | frameLeave => rw [hleave rfl]; rfl
  | _ => rfl

theorem opCode_lt (op : Op) : opCode op < 2 ^ 9 := by
  cases op <;> decide

theorem ofP_of_opForm {i : Instr} {op : Op} {f : PForm} (h : i.opForm = some (op, .p f)) : Instr.ofP op f = some i := by
  cases i <;> cases h <;> rfl

theorem ofN_of_opForm {i : Instr} {op : Op} {f : NForm} (h : i.opForm = some (op, .n f)) : Instr.ofN op f = some i := by
  cases i <;> cases h <;> rfl

/-! ### Fields of a word -/

theorem toNat_packWord {code ty md a b c : Nat} (hcode : code < 2 ^ 9) (hty : ty < 2 ^ 4) (hmd : md < 2 ^ 3) (ha : a < 2 ^ 16)
    (hb : b < 2 ^ 16) (hc : c < 2 ^ 16) : (packWord code ty md a b c).toNat =
      code * 2 ^ 55 + ty * 2 ^ 51 + md * 2 ^ 48 + a * 2 ^ 32 + b * 2 ^ 16 + c := by
  rw [packWord, BitVec.toNat_ofNat, Nat.mod_eq_of_lt (by omega)]

/-- The fields of a word are those it was packed from (R27). -/
theorem fields_packWord {code ty md a b c : Nat} (hcode : code < 2 ^ 9) (hty : ty < 2 ^ 4) (hmd : md < 2 ^ 3) (ha : a < 2 ^ 16)
    (hb : b < 2 ^ 16) (hc : c < 2 ^ 16) :
    let w := packWord code ty md a b c
    field w 55 9 = code ∧ field w 51 4 = ty ∧ field w 48 3 = md ∧ field w 32 16 = a ∧ field w 16 16 = b ∧ field w 0 16 = c := by
  simp only [field, toNat_packWord hcode hty hmd ha hb hc]
  omega

/-! ### Extension words -/

theorem extFields_packWord {last : Bool} {cnt x y z : Nat} (hpos : 0 < cnt) (hcnt : cnt ≤ 3) (hlast : last = true ∨ cnt = 3)
    (hx : x < 2 ^ 16) (hy : y < 2 ^ 16) (hz : z < 2 ^ 16) (hrest : ([x, y, z].drop cnt).all (· == 0xB000) = true) :
    extFields last (packWord 0x1FE 0 cnt x y z) = some ([x, y, z].take cnt) := by
  obtain ⟨hcode, hty, hmd, hx, hy, hz⟩ :=
    fields_packWord (code := 0x1FE) (ty := 0) (md := cnt) (by omega) (by omega) (by omega) hx hy hz
  have valid : (0x1FE != 0x1FE || 0 != 0 || cnt == 0 || decide (3 < cnt) || (!last && cnt != 3)) = false := by
    rcases hlast with rfl | rfl
    · simp [hpos.ne', hcnt]
    · simp
  unfold extFields
  rw [hcode, hty, hmd, hx, hy, hz]
  simp only [valid, hrest]
  rfl

theorem packExt_one (x : Nat) : packExt [x] = [packWord 0x1FE 0 1 x 0xB000 0xB000] := by rw [packExt]
theorem packExt_two (x y : Nat) : packExt [x, y] = [packWord 0x1FE 0 2 x y 0xB000] := by rw [packExt]
theorem packExt_three (x y z : Nat) (r : List Nat) : packExt (x :: y :: z :: r) = packWord 0x1FE 0 3 x y z :: packExt r := by
  rw [packExt]

theorem extAll_cons {w : Word} {ws : List Word} {a b : List Nat} (ha : extFields ws.isEmpty w = some a)
    (hb : extAll ws = some b) : extAll (w :: ws) = some (a ++ b) := by
  simp only [extAll, ha, hb]

/-- Any fields, put into extension words, come back in sequence. -/
theorem extAll_packExt {xs : List Nat} (h : ∀ x ∈ xs, x < 2 ^ 16) : extAll (packExt xs) = some xs := by
  have hnone : 0xB000 < 2 ^ 16 := by omega
  induction xs using packExt.induct with
  | case1 => rfl
  | case2 x =>
    rw [packExt_one]
    exact extAll_cons (extFields_packWord (by omega) (by omega) (.inl rfl) (h x (by simp)) hnone hnone (by simp)) rfl
  | case3 x y =>
    rw [packExt_two]
    exact extAll_cons (extFields_packWord (by omega) (by omega) (.inl rfl) (h x (by simp)) (h y (by simp)) hnone (by simp)) rfl
  | case4 x y z r ih =>
    rw [packExt_three]
    exact extAll_cons (extFields_packWord (by omega) (by omega) (.inr rfl) (h x (by simp)) (h y (by simp)) (h z (by simp)) (by simp))
      (ih (fun w hw => h w (by simp [hw])))

/-! ### Operands -/

theorem encOperand_back_of_lt {d : Nat} (h : d < 32768) : encOperand (.back d) = (d, []) := if_pos h

theorem encOperand_back_of_not_lt {d : Nat} (h : ¬ d < 32768) : encOperand (.back d) = (0xA000 + d / 65536, [d % 65536]) := if_neg h

theorem encOperand_lt {o : Operand} (h : o.wf = true) : ∀ x ∈ (encOperand o).1 :: (encOperand o).2, x < 2 ^ 16 := by
  have tagged : ∀ {tag} (v : BitVec 12), tag ≤ 0xD000 → ∀ x ∈ [tag + v.toNat], x < 2 ^ 16 := by
    intro tag v ht x hx
    have := v.isLt
    rw [List.mem_singleton] at hx
    omega
  cases o with
  | back d =>
    simp only [Operand.wf, Bool.and_eq_true, decide_eq_true_eq] at h
    by_cases hd : d < 32768
    · rw [encOperand_back_of_lt hd]
      simpa using show d < 2 ^ 16 by omega
    · rw [encOperand_back_of_not_lt hd]
      simpa using show 0xA000 + d / 65536 < 2 ^ 16 ∧ d % 65536 < 2 ^ 16 by omega
  | imm v => exact tagged v (by omega)
  | konst v => exact tagged v (by omega)
  | none => simp [encOperand]
  | special v => exact tagged v (by omega)
  | index v => exact tagged v (by omega)

section
variable {x tag : Nat} {v : BitVec 12} (hx : x = tag * 4096 + v.toNat)
include hx

theorem ofNat_of_tagged : BitVec.ofNat 12 x = v := BitVec.eq_of_toNat_eq (by have := v.isLt; rw [BitVec.toNat_ofNat]; omega)
theorem div_of_tagged : x / 4096 = tag := by have := v.isLt; omega
theorem not_lt_of_tagged (htag : 8 ≤ tag) : ¬ x < 0x8000 := by omega
end

theorem operandOf_back_long {d : Nat} (h : ¬ d < 32768) (hd : d < 2 ^ 28) (more : List Nat) :
    operandOf (0xA000 + d / 65536) (d % 65536 :: more) = .ok (.back d, more) := by
  have hhigh : (0xA000 + d / 65536) % 4096 * 65536 + d % 65536 = d := by omega
  simp only [operandOf, show ¬ 0xA000 + d / 65536 < 0x8000 by omega, show (0xA000 + d / 65536) / 4096 = 10 by omega, hhigh, if_false, h]

/-- Decoding a field that was encoded gives the operand and the fields behind its own. -/
theorem operandOf_encOperand {o : Operand} (h : o.wf = true) (more : List Nat) :
    operandOf (encOperand o).1 ((encOperand o).2 ++ more) = .ok (o, more) := by
  cases o with
  | back d =>
    simp only [Operand.wf, Bool.and_eq_true, decide_eq_true_eq] at h
    by_cases hd : d < 32768
    · rw [encOperand_back_of_lt hd]
      simp [operandOf, hd, show d ≠ 0 by omega]
    · rw [encOperand_back_of_not_lt hd]
      exact operandOf_back_long hd h.2 more
  | imm v =>
    have hx : 0x8000 + v.toNat = 8 * 4096 + v.toNat := rfl
    simp only [encOperand, operandOf, if_neg (not_lt_of_tagged hx (by omega)), ofNat_of_tagged hx, div_of_tagged hx, List.nil_append]
  | konst v =>
    have hx : 0x9000 + v.toNat = 9 * 4096 + v.toNat := rfl
    simp only [encOperand, operandOf, if_neg (not_lt_of_tagged hx (by omega)), ofNat_of_tagged hx, div_of_tagged hx, List.nil_append]
  | none => rfl
  | special v =>
    have hx : 0xC000 + v.toNat = 12 * 4096 + v.toNat := rfl
    simp only [encOperand, operandOf, if_neg (not_lt_of_tagged hx (by omega)), ofNat_of_tagged hx, div_of_tagged hx, List.nil_append]
  | index v =>
    have hx : 0xD000 + v.toNat = 13 * 4096 + v.toNat := rfl
    simp only [encOperand, operandOf, if_neg (not_lt_of_tagged hx (by omega)), ofNat_of_tagged hx, div_of_tagged hx, List.nil_append]

theorem extraOperands_extraFields {os : List Operand} (h : ∀ o ∈ os, o.wf = true) {fuel : Nat} (hf : os.length ≤ fuel) :
    extraOperands fuel (extraFields os) = .ok os := by
  induction os generalizing fuel with
  | nil => cases fuel <;> rfl
  | cons o os ih =>
    obtain ⟨fuel, rfl⟩ : ∃ k, fuel = k + 1 := ⟨fuel - 1, by rw [List.length_cons] at hf; omega⟩
    have ho := operandOf_encOperand (h o (by simp)) (extraFields os)
    have ih := ih (fun x hx => h x (by simp [hx])) (by simpa using hf)
    show extraOperands (fuel + 1) ((encOperand o).1 :: ((encOperand o).2 ++ extraFields os)) = _
    simp only [extraOperands, ho, ih]

theorem length_le_extraFields (os : List Operand) : os.length ≤ (extraFields os).length := by
  induction os with
  | nil => rfl
  | cons o os ih =>
    simp only [extraFields, List.flatMap_cons, List.length_append, List.length_cons] at ih ⊢
    omega

theorem extraFields_lt {os : List Operand} (h : ∀ o ∈ os, o.wf = true) : ∀ x ∈ extraFields os, x < 2 ^ 16 := by
  intro x hx
  obtain ⟨o, ho, hx⟩ := List.mem_flatMap.1 hx
  exact encOperand_lt (h o ho) x hx

theorem pform_wf_iff (f : PForm) :
    f.wf = true ↔ f.a.wf = true ∧ f.b.wf = true ∧ f.c.wf = true ∧ ∀ o ∈ f.ext, o.wf = true := by
  simp [PForm.wf, and_assoc]

/-! ### Words -/

/-- The fields of the extension words of an instruction (R32): what its long operands leave, then its extra operands. -/
theorem extAll_encodePlimet {f : PForm} (h : f.wf = true) :
    let fields := (encOperand f.a).2 ++ (encOperand f.b).2 ++ (encOperand f.c).2 ++ extraFields f.ext
    extAll (packExt fields) = some fields := by
  obtain ⟨ha, hb, hc, hext⟩ := (pform_wf_iff f).1 h
  refine extAll_packExt (fun x hx => ?_)
  simp only [List.mem_append, or_assoc] at hx
  rcases hx with hx | hx | hx | hx
  · exact encOperand_lt ha x (List.mem_cons_of_mem _ hx)
  · exact encOperand_lt hb x (List.mem_cons_of_mem _ hx)
  · exact encOperand_lt hc x (List.mem_cons_of_mem _ hx)
  · exact extraFields_lt hext x hx

theorem plimetForm_encodePlimet {f : PForm} (h : f.wf = true) {code : Nat} (hcode : code < 2 ^ 9) :
    plimetForm (packWord code f.ty.toNat f.md.toNat (encOperand f.a).1 (encOperand f.b).1 (encOperand f.c).1)
      (packExt ((encOperand f.a).2 ++ (encOperand f.b).2 ++ (encOperand f.c).2 ++ extraFields f.ext)) = .ok f := by
  have exts : extAll _ = some _ := extAll_encodePlimet h
  obtain ⟨ha, hb, hc, hext⟩ := (pform_wf_iff f).1 h
  have la := encOperand_lt ha _ List.mem_cons_self
  have lb := encOperand_lt hb _ List.mem_cons_self
  have lc := encOperand_lt hc _ List.mem_cons_self
  obtain ⟨-, fty, fmd, fa, fb, fc⟩ := fields_packWord hcode f.ty.isLt f.md.isLt la lb lc
  unfold plimetForm
  rw [exts, fty, fmd, fa, fb, fc]
  simp only [List.append_assoc, operandOf_encOperand ha, operandOf_encOperand hb, operandOf_encOperand hc,
    extraOperands_extraFields hext (length_le_extraFields f.ext), BitVec.ofNat_toNat, BitVec.setWidth_eq]

theorem plimetOp_of_field {op : Op} {w : Word} (h : nativeOnly op = false) (hw : field w 55 9 = opCode op) : plimetOp w = .ok op := by
  have hcode : ¬ 0x180 ≤ opCode op := by simpa [nativeOnly] using h
  have hop := opOfCode_opCode op 0 (fun _ => rfl) (fun e => by subst e; exact absurd h (by decide))
  simp only [plimetOp, hw, hop, if_neg hcode, if_neg (show ¬ 0x1E0 ≤ opCode op by omega)]

theorem wf_of_opForm_p {i : Instr} {op : Op} {f : PForm} (hi : i.opForm = some (op, .p f)) (h : i.wf = true) :
    nativeOnly op = false ∧ f.wf = true := by
  simpa [Instr.wf, hi] using h

theorem decodePlimet_cons {w : Word} {exts : List Word} {op : Op} {f : PForm} {i : Instr} (hop : plimetOp w = .ok op)
    (hf : plimetForm w exts = .ok f) (hi : Instr.ofP op f = some i) : decodePlimet (w :: exts) = .ok i := by
  simp only [decodePlimet, hop, hf, hi]

theorem encode_of_opForm {i : Instr} {op : Op} {f : PForm} (hi : i.opForm = some (op, .p f)) : encode i = encodePlimet op f := by
  rw [encode, hi]

/-- Decoding the words of a well-formed portable instruction gives the instruction back. -/
theorem decodePlimet_encode {i : Instr} {op : Op} {f : PForm} (hi : i.opForm = some (op, .p f)) (hwf : i.wf = true) :
    decodePlimet (encode i) = .ok i := by
  obtain ⟨hop, hf⟩ := wf_of_opForm_p hi hwf
  obtain ⟨ha, hb, hc, -⟩ := (pform_wf_iff f).1 hf
  obtain ⟨code, -⟩ := fields_packWord (opCode_lt op) f.ty.isLt f.md.isLt (encOperand_lt ha _ List.mem_cons_self)
    (encOperand_lt hb _ List.mem_cons_self) (encOperand_lt hc _ List.mem_cons_self)
  rw [encode_of_opForm hi]
  exact decodePlimet_cons (plimetOp_of_field hop code) (plimetForm_encodePlimet hf (opCode_lt op)) (ofP_of_opForm hi)

/-! ### Slots and bundles -/

theorem toNat_append_eq_add {m n : Nat} (x : BitVec m) (y : BitVec n) : (x ++ y).toNat = x.toNat * 2 ^ n + y.toNat := by
  rw [BitVec.toNat_append, ← Nat.shiftLeft_add_eq_or_of_lt y.isLt, Nat.shiftLeft_eq]

theorem extractLsb'_eq_of_toNat {w start len : Nat} {x : BitVec w} {v : BitVec len} (h : x.toNat / 2 ^ start % 2 ^ len = v.toNat) :
    x.extractLsb' start len = v :=
  BitVec.eq_of_toNat_eq (by rw [BitVec.extractLsb'_toNat, Nat.shiftRight_eq_div_pow, h])

theorem toNat_encodeSlot (op : Op) (f : NForm) : (encodeSlot op f).toNat = opCode op * 2 ^ 65 + f.ntype.toNat * 2 ^ 61 +
    f.md.toNat * 2 ^ 58 + f.gs.toNat * 2 ^ 56 + f.dst.toNat * 2 ^ 45 + f.sa.toNat * 2 ^ 34 + f.sb.toNat * 2 ^ 23 +
    f.sc.toNat * 2 ^ 12 + f.aux.toNat := by
  refine (toNat_append_eq_add _ f.aux).trans ?_
  simp only [toNat_append_eq_add, BitVec.toNat_ofNat, Nat.mod_eq_of_lt (opCode_lt op)]
  ring

theorem extractLsb'_encodeSlot_code (op : Op) (f : NForm) : ((encodeSlot op f).extractLsb' 65 9).toNat = opCode op := by
  have := opCode_lt op
  rw [BitVec.extractLsb'_toNat, Nat.shiftRight_eq_div_pow, toNat_encodeSlot]
  omega

theorem slotForm_encodeSlot (op : Op) (f : NForm) : slotForm f.slot.toNat (encodeSlot op f) = f := by
  obtain ⟨slot, ntype, md, gs, dst, sa, sb, sc, aux⟩ := f
  simp only [slotForm, NForm.mk.injEq, BitVec.ofNat_toNat, BitVec.setWidth_eq, true_and]
  refine ⟨?_, ?_, ?_, ?_, ?_, ?_, ?_, ?_⟩ <;>
  · refine extractLsb'_eq_of_toNat ?_
    rw [toNat_encodeSlot]
    dsimp only
    omega

theorem nform_wf_iff (op : Op) (f : NForm) : f.wf op = true ↔ (opSlots op).contains f.slot.toNat = true ∧
    (op = .frameEnter → f.md.toNat = 0) ∧ (op = .frameLeave → f.md.toNat = 1) := by
  cases op with
  | frameEnter => simp [NForm.wf, BitVec.toNat_eq]
  | frameLeave => simp [NForm.wf, BitVec.toNat_eq]
  | _ => simp [NForm.wf]

theorem decodeSlot_encodeSlot {i : Instr} {op : Op} {f : NForm} (hi : i.opForm = some (op, .n f)) (hwf : i.wf = true) :
    decodeSlot f.slot.toNat (encodeSlot op f) = .ok i := by
  have hf : f.wf op = true := by simpa [Instr.wf, hi] using hwf
  obtain ⟨hslot, henter, hleave⟩ := (nform_wf_iff op f).1 hf
  have md : (encodeSlot op f).extractLsb' 58 3 = f.md := congrArg NForm.md (slotForm_encodeSlot op f)
  unfold decodeSlot
  rw [extractLsb'_encodeSlot_code, md, opOfCode_opCode op _ henter hleave, slotForm_encodeSlot]
  simp only [hslot, if_true, ofN_of_opForm hi]

/-- The bits of a bundle whose slots are `x0`, `x1` and `x2` (R45, R46): what `encodeBundle` writes. -/
def bundleBits (b : Bundle) (x0 x1 x2 : BitVec 74) : BitVec 256 :=
  0#2 ++ x2 ++ x1 ++ x0 ++ b.kind ++ b.stop ++ b.g0.reg ++ b.g0.bit ++ BitVec.ofBool b.g0.pol ++ b.g1.reg ++ b.g1.bit ++
    BitVec.ofBool b.g1.pol

theorem encodeNative_of_opForm {i : Instr} {op : Op} {f : NForm} (hi : i.opForm = some (op, .n f)) :
    encodeNative i = some (encodeSlot op f) := by
  rw [encodeNative, hi]

theorem encodeBundle_of_slots {b : Bundle} {x0 x1 x2 : BitVec 74} (h0 : encodeNative b.s0 = some x0)
    (h1 : encodeNative b.s1 = some x1) (h2 : encodeNative b.s2 = some x2) : encodeBundle b = some (bundleBits b x0 x1 x2) := by
  rw [encodeBundle, h0, h1, h2]
  rfl

section
variable (b : Bundle) (x0 x1 x2 : BitVec 74)

theorem toNat_bundleBits : (bundleBits b x0 x1 x2).toNat =
    x2.toNat * 2 ^ 180 + x1.toNat * 2 ^ 106 + x0.toNat * 2 ^ 32 + b.kind.toNat * 2 ^ 30 + b.stop.toNat * 2 ^ 28 +
    b.g0.reg.toNat * 2 ^ 21 + b.g0.bit.toNat * 2 ^ 15 + (BitVec.ofBool b.g0.pol).toNat * 2 ^ 14 +
    b.g1.reg.toNat * 2 ^ 7 + b.g1.bit.toNat * 2 + (BitVec.ofBool b.g1.pol).toNat := by
  refine (toNat_append_eq_add _ (BitVec.ofBool b.g1.pol)).trans ?_
  simp only [toNat_append_eq_add, BitVec.toNat_zero]
  ring

theorem extractLsb'_bundleBits_slots : (bundleBits b x0 x1 x2).extractLsb' 32 74 = x0 ∧
    (bundleBits b x0 x1 x2).extractLsb' 106 74 = x1 ∧ (bundleBits b x0 x1 x2).extractLsb' 180 74 = x2 := by
  refine ⟨?_, ?_, ?_⟩ <;> exact extractLsb'_eq_of_toNat (by rw [toNat_bundleBits]; omega)

theorem extractLsb'_bundleBits_header : (bundleBits b x0 x1 x2).extractLsb' 254 2 = 0#2 ∧
    (bundleBits b x0 x1 x2).extractLsb' 30 2 = b.kind ∧ (bundleBits b x0 x1 x2).extractLsb' 28 2 = b.stop := by
  have zero : (0#2).toNat = 0 := rfl
  refine ⟨?_, ?_, ?_⟩ <;> exact extractLsb'_eq_of_toNat (by rw [toNat_bundleBits]; omega)

theorem getLsbD_of_extractLsb' {w k : Nat} {x : BitVec w} {p : Bool} (h : x.extractLsb' k 1 = BitVec.ofBool p) : x.getLsbD k = p := by
  rw [BitVec.getLsbD_eq_extractLsb', h]
  cases p <;> rfl

/-- The guards of a bundle, read where `decodeBundle` reads them. -/
theorem guards_bundleBits :
    let w := bundleBits b x0 x1 x2
    ({ reg := w.extractLsb' 21 7, bit := w.extractLsb' 15 6, pol := w.getLsbD 14 } : Guard) = b.g0 ∧
      ({ reg := w.extractLsb' 7 7, bit := w.extractLsb' 1 6, pol := w.getLsbD 0 } : Guard) = b.g1 := by
  have bits {start len : Nat} {v : BitVec len} := extractLsb'_eq_of_toNat (start := start) (x := bundleBits b x0 x1 x2) (v := v)
  rw [toNat_bundleBits] at bits
  dsimp only
  rw [bits (v := b.g0.reg) (by omega), bits (v := b.g0.bit) (by omega), bits (v := b.g1.reg) (by omega),
    bits (v := b.g1.bit) (by omega), getLsbD_of_extractLsb' (bits (v := BitVec.ofBool b.g0.pol) (by omega)),
    getLsbD_of_extractLsb' (bits (v := BitVec.ofBool b.g1.pol) (by omega))]
  exact ⟨rfl, rfl⟩
end

/-- Decoding a bundle gives back what its three slots decode to, under its header. -/
theorem decodeBundle_bundleBits {b : Bundle} {x0 x1 x2 : BitVec 74} (hkind : b.kind ≠ 3) (hstop : b.stop ≠ 3)
    (h0 : decodeSlot 0 x0 = .ok b.s0) (h1 : decodeSlot 1 x1 = .ok b.s1) (h2 : decodeSlot 2 x2 = .ok b.s2) :
    decodeBundle (bundleBits b x0 x1 x2) = .ok b := by
  obtain ⟨slot0, slot1, slot2⟩ := extractLsb'_bundleBits_slots b x0 x1 x2
  obtain ⟨zero, kind, stop⟩ := extractLsb'_bundleBits_header b x0 x1 x2
  obtain ⟨guard0, guard1⟩ := guards_bundleBits b x0 x1 x2
  have legal : (0#2 != 0 || b.kind == 3 || b.stop == 3) = false := by
    rw [beq_eq_false_iff_ne.2 hkind, beq_eq_false_iff_ne.2 hstop]
    rfl
  unfold decodeBundle
  rw [slot0, slot1, slot2, h0, h1, h2, zero, kind, stop, guard0, guard1]
  simp only [legal]
  rfl

/-- Settles O59: field by field, what the encoder writes the decoder reads. -/
theorem decodingUndoesEncoding : Obligations.DecodingUndoesEncoding := by
  unfold Obligations.DecodingUndoesEncoding
  refine ⟨fun i op f hi hwf => decodePlimet_encode hi hwf, fun i op f hi hwf => ?_, ?_⟩
  · exact ⟨_, encodeNative_of_opForm hi, decodeSlot_encodeSlot hi hwf⟩
  · intro b f0 f1 f2 o0 o1 o2 h0 h1 h2 w0 w1 w2 e0 e1 e2 hkind hstop
    have d0 := decodeSlot_encodeSlot h0 w0
    have d1 := decodeSlot_encodeSlot h1 w1
    have d2 := decodeSlot_encodeSlot h2 w2
    rw [e0] at d0
    rw [e1] at d1
    rw [e2] at d2
    exact ⟨_, encodeBundle_of_slots (encodeNative_of_opForm h0) (encodeNative_of_opForm h1) (encodeNative_of_opForm h2),
      decodeBundle_bundleBits hkind hstop d0 d1 d2⟩

/-- Settles O57: the decoder is run on each of the written-out words. -/
theorem writtenOutWordsDecode : Obligations.WrittenOutWordsDecode := ⟨rfl, rfl, rfl, rfl, rfl, rfl⟩

end Sys2Proof
end

section
/-!
SUPPORT. O58: what a step does with the head of the agenda, and with the word or the bundle at which the chosen path stands (R31, R48,
R57, R157).
-/
namespace Sys2Proof.Machine

variable {s : State} {pid : Nat} {t : TImage}

/-! ### The step -/

theorem step_of_agenda {i : Instr} {is : List Instr} (h : s.c.agenda = i :: is) :
    step s = runEvent i { s with c := { s.c with agenda := is } } := by
  simp only [step, h]

theorem step_of_issue {i : Issue} (ha : s.c.agenda = []) (hi : s.c.issue = some i) : step s = issueStep s i.pid := by
  simp only [step, ha, hi]

/-! ### The path that issues -/

/-- The state in which the chosen path issues: it no longer counts as the youngest (R47). -/
def spent (s : State) (pid : Nat) : State := updPath s pid (fun q => { q with youngest := false })

/-- What an issue comes to: a next state is settled. -/
def settleOut (s : State) (pid : Nat) (o : Out) : Out := match o with
  | .next u => .next (settleIssue s u pid)
  | r => r

/-- What a path issues where it stands in image `t`; nothing at a bundle of an image that runs at the portable level (log 7). -/
def outAt (s : State) (pid : Nat) (t : TImage) : Option Out := match (pathAt s pid).pc with
  | .word v => some (issueWord s pid t v)
  | .bundle _ ix => if t.bundled then some (issueBundle s pid t ix) else none

theorem pathAt_spent (hp : (s.x.paths.find? pid).isSome = true) :
    pathAt (spent s pid) pid = { pathAt s pid with youngest := false } := pathAt_updPath_self _ hp

theorem ctxOf_spent (hp : (s.x.paths.find? pid).isSome = true) : ctxOf (spent s pid) pid = ctxOf s pid := by
  unfold ctxOf
  rw [pathAt_spent hp]
  rfl

section
variable (hp : (s.x.paths.find? pid).isSome = true) (hb : atBreakpoint s pid = none)
  (ht : imageAt s (clusterOf (coreOfPath pid)) (pathKey s pid) = some t)
include hp hb ht

/-- A path that no breakpoint holds and whose image is in the cache issues, at its place, a word or a bundle (R163). -/
theorem issueStep_of_image {o : Out} (ho : outAt (spent s pid) pid t = some o) : issueStep s pid = settleOut s pid o := by
  have here : (s.x.paths.find? pid).isNone = false := by simpa [Option.isSome_iff_ne_none] using hp
  have image : imageAt (updPath s pid (fun q => { q with youngest := false })) (clusterOf (coreOfPath pid)) (pathKey s pid) = some t := ht
  unfold outAt spent at ho
  simp only [issueStep, here, hb, image]
  cases hpc : (pathAt (updPath s pid (fun q => { q with youngest := false })) pid).pc with
  | word v =>
    simp only [hpc] at ho ⊢
    rw [Option.some.inj ho]
    cases o <;> rfl
  | bundle key ix =>
    simp only [hpc] at ho ⊢
    rw [ho]
    cases o <;> rfl

theorem issueStep_of_word {v : VPC} (hpc : (pathAt s pid).pc = .word v) :
    issueStep s pid = settleOut s pid (issueWord (spent s pid) pid t v) :=
  issueStep_of_image hp hb ht (by simp only [outAt, pathAt_spent hp, hpc])

theorem issueStep_of_bundle {key : TKey} {ix : Nat} (hpc : (pathAt s pid).pc = .bundle key ix) (hbundled : t.bundled = true) :
    issueStep s pid = settleOut s pid (issueBundle (spent s pid) pid t ix) :=
  issueStep_of_image hp hb ht (by simp only [outAt, pathAt_spent hp, hpc, hbundled, if_true])
end

theorem issueWord_of_frame {v : VPC} {i : Instr} (hf : (pathAt s pid).frames ≠ [] ∨ (pathAt s pid).s124 ≠ 0)
    (hi : instrAt (ctxOf s pid).func.code v.ix = .ok i) : issueWord s pid t v = exec i s := by
  have framed : ((pathAt s pid).frames.isEmpty && (pathAt s pid).s124 == 0) = false := by
    simpa [or_iff_not_imp_left] using hf
  unfold issueWord
  simp only [framed, hi]
  rfl

theorem issueWord_of_fresh {v : VPC} {i : Instr} (hf : (pathAt s pid).frames = []) (hs : (pathAt s pid).s124 = 0)
    (room : 16 + 4 * t.frameW ≤ stackSize s (warpOfPath pid))
    (hi : instrAt (ctxOf s pid).func.code v.ix = .ok i) : issueWord s pid t v = exec i (kernelFrame s pid t) := by
  have fresh : ((pathAt s pid).frames.isEmpty && (pathAt s pid).s124 == 0) = true := by simp [hf, hs]
  have fits : decide (stackSize s (warpOfPath pid) < 16 + 4 * t.frameW) = false := by simpa using room
  unfold issueWord
  simp only [fresh, fits, hi]
  rfl

theorem issueBundle_of_legal {ix : Nat} {b : Bundle} (hat : bundleAt t ix = some b) (legal : bundleLegal t ix = true)
    (hsf : ∀ f, b.s2 = .sfLoad f →
      (wgAt s ((warpAt s (warpOfPath pid)).gang * 128 + (warpAt s (warpOfPath pid)).wg)).usesSf = true)
    (pairs : ∀ x ∈ [b.s0, b.s1, b.s2], pairBad s pid t.key.cap x = false) {u : State}
    (hu : runSlots b pid [0, 1, 2] (withLatch s pid) = .next (u, none)) :
    issueBundle s pid t ix = .next (afterStop (endBundle s u pid t ix b) pid b) := by
  have paired : [b.s0, b.s1, b.s2].any (pairBad s pid t.key.cap) = false := by
    rw [List.any_eq_false]; intro x hx; simp [pairs x hx]
  unfold issueBundle
  simp only [hat, legal, paired, hu]
  split
  · next f e => simp [hsf f e]
  · rfl

/-- Settles O58: the path that was chosen stands at a word, with its frame or before it, or at a bundle. -/
theorem aStepRunsTheDecodedInstruction : Obligations.AStepRunsTheDecodedInstruction := by
  unfold Obligations.AStepRunsTheDecodedInstruction
  intro s
  refine ⟨fun i is ha => step_of_agenda ha, fun i t ha hi hp hb ht => ⟨fun v ins hpc hins => ?_, ?_⟩⟩
  · have word := issueStep_of_word hp hb ht hpc
    rw [← ctxOf_spent hp] at hins
    rw [step_of_issue ha hi, word]
    refine ⟨fun framed => ?_, fun hf hs room => ?_⟩
    · rw [issueWord_of_frame (by rwa [pathAt_spent hp]) hins]
      rfl
    · rw [issueWord_of_fresh (s := spent s i.pid) (by rwa [pathAt_spent hp]) (by rwa [pathAt_spent hp]) room hins]
      rfl
  · intro key ix b hpc hbundled hat legal hsf pairs u hu
    rw [step_of_issue ha hi, issueStep_of_bundle hp hb ht hpc hbundled, issueBundle_of_legal (s := spent s i.pid) hat legal hsf pairs hu]
    rfl

end Sys2Proof.Machine
end

section
/-!
SUPPORT. Words of a scratchpad: reading what was written (R122, R128, R154).
-/
namespace Sys2Proof

theorem length_leBytes (n v : Nat) : (leBytes n v).length = n := by
  induction n generalizing v with
  | zero => rfl
  | succ n ih => simp [leBytes, ih]

/-- The little-endian bytes of a number hold what fits of it. -/
theorem leNat_leBytes (n v : Nat) : leNat (leBytes n v) = v % 256 ^ n := by
  induction n generalizing v with
  | zero => simp [leBytes, leNat, Nat.mod_one]
  | succ n ih =>
    have low : (BitVec.ofNat 8 v).toNat = v % 256 := by simp
    rw [leBytes, leNat, ih, low, Nat.pow_succ', Nat.mod_mul]

namespace SMap

variable {α : Type} {d : α}

/-- Consecutive reads see only the keys that they name. -/
theorem getsD_congr {m m' : SMap α} {k n : Nat} (h : ∀ i, i < n → m.getD d (k + i) = m'.getD d (k + i)) :
    m.getsD d k n = m'.getsD d k n := by
  induction n generalizing k with
  | zero => rfl
  | succ n ih =>
    have head : m.getD d k = m'.getD d k := h 0 (Nat.succ_pos n)
    have tail : m.getsD d (k + 1) n = m'.getsD d (k + 1) n := ih fun i hi => by
      rw [Nat.add_assoc, Nat.add_comm 1]
      exact h (i + 1) (Nat.succ_lt_succ hi)
    rw [getsD, getsD, head, tail]

variable [DecidableEq α]

/-- Consecutive reads give back the values written there. -/
theorem getsD_putsD {m : SMap α} (k : Nat) (vs : List α) (h : wf d m = true) : (m.putsD d k vs).getsD d k vs.length = vs := by
  induction vs generalizing m k with
  | nil => rfl
  | cons v vs ih =>
    have head : (m.putsD d k (v :: vs)).getD d k = v := getD_putsD (v :: vs) k 0 h (Nat.succ_pos _)
    rw [List.length_cons, getsD, head]
    exact congrArg (v :: ·) (ih (k + 1) (wf_putD k v h))

end SMap

namespace Machine

/-! ### One word -/

theorem scrWf_scrWrite {s : State} (core pa n v : Nat) (h : SMap.wf 0 s.e.scr = true) :
    SMap.wf 0 (scrWrite s core pa n v).e.scr = true := SMap.wf_putsD _ _ h

/-- A byte outside the word that is written holds what it held. -/
theorem scr_scrWrite_ne (s : State) {core pa n k : Nat} (v : Nat) (h : ∀ i, i < n → k ≠ core * 2 ^ 18 + (pa + i)) :
    (scrWrite s core pa n v).e.scr.getD 0 k = s.e.scr.getD 0 k := by
  by_cases below : k < core * 2 ^ 18 + pa
  · exact SMap.getD_putsD_lt 0 _ _ below
  · refine SMap.getD_putsD_ge 0 _ _ ?_
    rw [length_leBytes]
    by_contra inside
    exact h (k - (core * 2 ^ 18 + pa)) (by omega) (by omega)

theorem scrRead_scrWrite {s : State} (core pa n v : Nat) (h : SMap.wf 0 s.e.scr = true) :
    scrRead (scrWrite s core pa n v) core pa n = v % 256 ^ n := by
  have bytes := SMap.getsD_putsD (core * 2 ^ 18 + pa) (leBytes n v) h
  rw [length_leBytes] at bytes
  rw [← leNat_leBytes]
  exact congrArg leNat bytes

/-- Writing a word leaves every word that does not meet it. -/
theorem scrRead_scrWrite_ne (s : State) {core pa pb n : Nat} (v : Nat) (h : pa + n ≤ pb ∨ pb + n ≤ pa) :
    scrRead (scrWrite s core pb n v) core pa n = scrRead s core pa n := by
  refine congrArg leNat (SMap.getsD_congr fun i hi => scr_scrWrite_ne s v fun j hj => ?_)
  omega

/-! ### Words one after another -/

/-- Words of 32 bits written to a core's scratchpad, each an address with its value. -/
def scrWords (s : State) (core : Nat) (ws : List (Nat × Nat)) : State := ws.foldl (fun t w => scrWrite t core w.1 4 w.2) s

@[simp] theorem scrWords_cons (s : State) (core : Nat) (w : Nat × Nat) (ws : List (Nat × Nat)) :
    scrWords s core (w :: ws) = scrWords (scrWrite s core w.1 4 w.2) core ws := rfl

/-- Writing words changes the scratchpad alone. -/
theorem scrWords_kept (s : State) (core : Nat) (ws : List (Nat × Nat)) :
    (scrWords s core ws).x = s.x ∧ (scrWords s core ws).c = s.c ∧ (scrWords s core ws).m = s.m :=
  foldl_inv (fun t => t.x = s.x ∧ t.c = s.c ∧ t.m = s.m) (fun t (w : Nat × Nat) => scrWrite t core w.1 4 w.2) (fun _ _ h => h)
    s ws ⟨rfl, rfl, rfl⟩

theorem scr_scrWords_ne (s : State) {core k : Nat} {ws : List (Nat × Nat)}
    (h : ∀ w ∈ ws, ∀ i, i < 4 → k ≠ core * 2 ^ 18 + (w.1 + i)) : (scrWords s core ws).e.scr.getD 0 k = s.e.scr.getD 0 k := by
  induction ws generalizing s with
  | nil => rfl
  | cons w ws ih =>
    rw [scrWords_cons, ih _ fun x hx => h x (List.mem_cons_of_mem w hx)]
    exact scr_scrWrite_ne s _ (h w List.mem_cons_self)

theorem scrRead_scrWords_ne (s : State) {core pa : Nat} {ws : List (Nat × Nat)} (h : ∀ w ∈ ws, pa + 4 ≤ w.1 ∨ w.1 + 4 ≤ pa) :
    scrRead (scrWords s core ws) core pa 4 = scrRead s core pa 4 := by
  induction ws generalizing s with
  | nil => rfl
  | cons w ws ih =>
    rw [scrWords_cons, ih _ fun x hx => h x (List.mem_cons_of_mem w hx)]
    exact scrRead_scrWrite_ne s _ (h w List.mem_cons_self)

/-- Of words that do not meet, each stands where it was written. -/
theorem scrRead_scrWords {s : State} {core : Nat} {ws : List (Nat × Nat)} (hs : SMap.wf 0 s.e.scr = true)
    (apart : ws.Pairwise (fun a b => a.1 + 4 ≤ b.1 ∨ b.1 + 4 ≤ a.1)) {w : Nat × Nat} (hw : w ∈ ws) :
    scrRead (scrWords s core ws) core w.1 4 = w.2 % 2 ^ 32 := by
  induction ws generalizing s with
  | nil => exact absurd hw List.not_mem_nil
  | cons x ws ih =>
    obtain ⟨later, apart⟩ := List.pairwise_cons.1 apart
    rw [scrWords_cons]
    rcases List.mem_cons.1 hw with rfl | hw
    · exact (scrRead_scrWords_ne _ later).trans (scrRead_scrWrite core _ 4 _ hs)
    · exact ih (scrWf_scrWrite core _ 4 _ hs) apart hw

end Machine

end Sys2Proof
end

section
/-!
SUPPORT. O40: the native movers (R60, R154, R361).
-/
namespace Sys2Proof.Machine

/-! ### Masks -/

/-- The mask of a list of lanes has their bits. -/
theorem getLsbD_maskOf (ls : List Nat) {i : Nat} (hi : i < 64) : (Mask.of ls).getLsbD i = decide (i ∈ ls) := by
  have go : ∀ m : Mask, (ls.foldl (fun m l => m ||| (1#64 <<< l)) m).getLsbD i = (m.getLsbD i || decide (i ∈ ls)) := by
    induction ls with
    | nil => simp
    | cons l ls ih =>
      intro m
      have bit : (1#64 <<< l).getLsbD i = decide (i = l) := by
        rw [Bool.eq_iff_iff]
        simp [BitVec.getLsbD_shiftLeft, hi, -BitVec.getLsbD_eq_getElem]
        omega
      rw [List.foldl_cons, ih]
      simp only [BitVec.getLsbD_or, bit, List.mem_cons, Bool.decide_or, Bool.or_assoc]
  simpa [Mask.of] using go 0

theorem mem_lanes {m : Mask} {l : Nat} : l ∈ m.lanes ↔ m.getLsbD l = true := by
  simp only [Mask.lanes, List.mem_filter, List.mem_range, and_iff_right_iff_imp]
  exact BitVec.lt_of_getLsbD

/-- A ballot of the lanes of a mask has the bits of those that pass. -/
theorem ballot_bits (m : Mask) (p : Nat → Bool) : BitsAre 64 (Mask.of (m.lanes.filter p)) (fun l => m.getLsbD l && p l) := by
  intro i
  by_cases hi : i < 64
  · rw [getLsbD_maskOf _ hi, Bool.eq_iff_iff, decide_eq_true_iff, List.mem_filter, mem_lanes]
    simp [hi]
  · simp [BitVec.getLsbD_of_ge _ _ (Nat.not_lt.1 hi), hi]

/-! ### Spill slots -/

section
variable {s : State} {c : Ctx} {w : NForm}

/-- No lane is bad when every word that it moves lies in the stack area. -/
theorem spillBad_eq_nil : spillBad s c w = [] ↔
    ∀ l ∈ (pathMask s c.pid).lanes, ∀ j, j < moveWords w → inStackArea s c.warp (spillPa s c w (w.aux.toNat + j) l) 4 = true := by
  simp [spillBad]

/-- Words of different lanes, or different words of a lane, lie apart. -/
theorem spillPa_apart {k k' l l' : Nat} (hl : l < Config.lanes c.die) (hl' : l' < Config.lanes c.die) (hne : (l, k) ≠ (l', k')) :
    spillPa s c w k l + 4 ≤ spillPa s c w k' l' ∨ spillPa s c w k' l' + 4 ≤ spillPa s c w k l := by
  have row : ∀ a b, a < b → a * (Config.lanes c.die * 4) + Config.lanes c.die * 4 ≤ b * (Config.lanes c.die * 4) := fun a b h => by
    rw [← Nat.succ_mul]
    exact Nat.mul_le_mul_right _ h
  dsimp only [spillPa]
  rcases Nat.lt_trichotomy k k' with h | rfl | h
  · have := row _ _ h
    omega
  · have : l ≠ l' := fun e => hne (e ▸ rfl)
    omega
  · have := row _ _ h
    omega

/-- The words that the path's lanes move: each a lane with the number of the word. -/
def movedWords (s : State) (c : Ctx) (w : NForm) : List (Nat × Nat) := (pathMask s c.pid).lanes ×ˢ List.range (moveWords w)

/-- What `spill` writes for a word of a lane: its address and its value. -/
def spillWord (s : State) (c : Ctx) (w : NForm) (x : Nat × Nat) : Nat × Nat :=
  (spillPa s c w (w.aux.toNat + x.2) x.1, (nativeVal s c x.1 w.sa.toNat (formTy c (.n w))).toNat / 2 ^ (32 * x.2))

theorem mem_movedWords {l j : Nat} : (l, j) ∈ movedWords s c w ↔ l ∈ (pathMask s c.pid).lanes ∧ j < moveWords w := by
  simp [movedWords]

/-- The words of a spill slot as one value. -/
theorem spillRead_eq (l : Nat) : spillRead s c w l = BitVec.ofNat 64 (
    scrRead s (coreOfWarp c.warp) (spillPa s c w (w.aux.toNat + 0) l) 4 +
    if moveWords w = 2 then 2 ^ 32 * scrRead s (coreOfWarp c.warp) (spillPa s c w (w.aux.toNat + 1) l) 4 else 0) := by
  unfold spillRead moveWords
  split
  · simp [List.range_succ, Nat.mul_comm]
  · simp [List.range_succ]

end

/-! ### Words of a record -/

/-- The record's word `j` of lane `l` has its home at `home j l`, and the cluster holds no line of it. -/
def RecordAt (s : State) (c : Ctx) (w : NForm) (home : Nat → Nat → Nat) : Prop :=
  ∀ l ∈ (pathMask s c.pid).lanes, ∀ j, j < moveWords w → ∃ o,
    entryChk s c (nativeVal s c (firstLane s c.pid) w.sa.toNat .i64 +
      BitVec.ofNat 64 ((w.aux.toNat + j) * (Config.lanes c.die * 4) + l * 4)) 4 = .loc (.mem (home j l) o) ∧
    s.m.lines.find? (lineKey (clusterOf (coreOfWarp c.warp)) (home j l)) = none

/-- What a core reads of a word of a record whose check found its home. -/
def entryWord (s : State) (c : Ctx) (x : LaneChk) : Nat := match x.chk with
  | .loc (.mem h ord) => leNat (cacheRead s (coreOfWarp c.warp) h 4 ord)
  | _ => 0

/-- Lanes without a fault name no kind. -/
theorem firstKind_eq_none {xs : List LaneChk} (h : ∀ x ∈ xs, badKind x = none) : firstKind xs = none := by
  unfold firstKind
  induction xs with
  | nil => rfl
  | cons x xs ih =>
    rw [List.foldl_cons, h x List.mem_cons_self]
    exact ih fun y hy => h y (List.mem_cons_of_mem x hy)

/-- A core that holds no line of a home reads memory there (R129). -/
theorem cacheRead_of_noLine {s : State} {core a n ord : Nat} (h : s.m.lines.find? (lineKey (clusterOf core) a) = none) :
    cacheRead s core a n ord = readBytes s a n := by
  simp [cacheRead, h]

section
variable {s : State} {c : Ctx} {w : NForm} {home : Nat → Nat → Nat} (record : RecordAt s c w home)
include record

/-- Every word of the record has been found. -/
theorem chk_of_record {x : LaneChk} (hx : x ∈ (pathMask s c.pid).lanes.flatMap (entryWords s c w)) :
    ∃ h o, x.chk = .loc (.mem h o) := by
  obtain ⟨l, hl, hx⟩ := List.mem_flatMap.1 hx
  obtain ⟨j, hj, rfl⟩ := List.mem_map.1 hx
  obtain ⟨o, found, -⟩ := record l hl j (List.mem_range.1 hj)
  exact ⟨home j l, o, found⟩

theorem entryWords_of_record {l : Nat} (hl : l ∈ (pathMask s c.pid).lanes) :
    (entryWords s c w l).map (entryWord s c) = (List.range (moveWords w)).map (fun j => readMem s (home j l) 4) := by
  unfold entryWords
  rw [List.map_map]
  refine List.map_congr_left fun j hj => ?_
  obtain ⟨o, found, noLine⟩ := record l hl j (List.mem_range.1 hj)
  simp only [Function.comp, entryWord, found, cacheRead_of_noLine noLine, readMem]

end

/-! ### The shape of a mover -/

/-- A mover comes to a next state in which the lanes `ls` hold `g` in destination `d`; nothing else has changed. -/
def Moves (s : State) (c : Ctx) (w : NForm) (d : Dst) (ls : List Nat) (g : Nat → Word) (o : Out) : Prop :=
  ∃ u, o = .next u ∧ RestKept s u ∧ Delivers s u c (.n w) d ls g

/-- `Moves` for bit `b` of scalar register `r`, whose other bits hold what they held. -/
def MovesBit (s : State) (c : Ctx) (w : NForm) (r b : Nat) (v : Word) (o : Out) : Prop :=
  ∃ u, o = .next u ∧ RestKept s u ∧ Delivers s u c (.n w) (.sbit r b) [firstLane s c.pid] (fun _ => v) ∧
    ∀ i, i ≠ b → (getSreg u c.pid r).getLsbD i = (getSreg s c.pid r).getLsbD i

section
variable {w : NForm} {s : State} {c : Ctx} (hi : Issues s (.n w) c) (hc : Canonical s)
include hi hc

/-- A slot that writes results moves them. -/
theorem moves_putLanes (d : Dst) {ls : List Nat} (g : Nat → Word) (hn : ls.Nodup) (hl : ∀ l ∈ ls, l < 64) :
    Moves s c w d ls g (.next (finish (putLanes s c.pid d (ls.map (fun l => (l, g l)))) c (.n w))) := by
  obtain ⟨gives, threads⟩ := gives_finish_putLanes (.n w) d ls g hn hl hc.regs hi.2.1
  exact ⟨_, rfl, gives.rest, gives.goesOn.2, gives.results, gives.registers, threads, gives.paths.others⟩

/-- In each lane of the path. -/
theorem moves_lanes (d : Dst) (g : Nat → Word) :
    Moves s c w d (pathMask s c.pid).lanes g
      (.next (finish (putLanes s c.pid d ((pathMask s c.pid).lanes.map (fun l => (l, g l)))) c (.n w))) :=
  moves_putLanes hi hc d g (lanes_nodup _) fun _ hl => mem_lanes_lt hl

/-- In the first lane, which stands for the warp. -/
theorem moves_first (d : Dst) (v : Word) :
    Moves s c w d [firstLane s c.pid] (fun _ => v) (.next (finish (putLanes s c.pid d [(firstLane s c.pid, v)]) c (.n w))) :=
  moves_putLanes hi hc d (fun _ => v) (List.nodup_singleton _) fun _ hl => List.mem_singleton.1 hl ▸ firstLane_lt s c.pid

/-! ### Lanes, literals and bits -/

omit hc in
theorem bnop_eq : exec (.bnop w) s = .next s := by
  rw [exec_bnop, execBnop, issuing_eq hi, finish_n]

theorem vmov_moves : Moves s c w (dstOf c (.n w) (formTy c (.n w))) (pathMask s c.pid).lanes
    (fun l => nativeVal s c l w.sa.toNat (formTy c (.n w))) (exec (.vmov w) s) := by
  rw [exec_vmov, execVmov, issuing_eq hi]
  exact moves_lanes hi hc _ _

theorem smov_moves : Moves s c w (dstOf c (.n w) (formTy c (.n w))) [firstLane s c.pid]
    (fun _ => if w.md = 0 then nativeVal s c (firstLane s c.pid) w.sa.toNat (formTy c (.n w)) else literalAt s c.pid w.aux.toNat)
    (exec (.smov w) s) := by
  rw [exec_smov, execSmov, issuing_eq hi]
  exact moves_first hi hc _ _

theorem v2s_moves_first (hmd : w.md = 0) : Moves s c w (dstOf c (.n w) (formTy c (.n w))) [firstLane s c.pid]
    (fun _ => nativeVal s c (firstLane s c.pid) w.sa.toNat (formTy c (.n w))) (exec (.v2s w) s) := by
  rw [exec_v2s, execV2s, issuing_eq hi]
  simp only [hmd, if_true]
  exact moves_first hi hc _ _

/-- The ballot of `v2s`: a bit for each lane of the path whose operand has bit 0. -/
theorem v2s_moves_ballot (hmd : w.md ≠ 0) : Moves s c w (dstOf c (.n w) (formTy c (.n w))) [firstLane s c.pid]
    (fun _ => Mask.of ((pathMask s c.pid).lanes.filter (fun l => (nativeVal s c l w.sa.toNat .i1).getLsbD 0))) (exec (.v2s w) s) := by
  rw [exec_v2s, execV2s, issuing_eq hi]
  simp only [hmd, if_false]
  exact moves_first hi hc _ _

theorem s2v_moves : Moves s c w (dstOf c (.n w) .i32) (pathMask s c.pid).lanes
    (fun l => if (nativeVal s c (firstLane s c.pid) w.sa.toNat .i64).getLsbD l = true then 1 else 0) (exec (.s2v w) s) := by
  rw [exec_s2v, execS2v, issuing_eq hi]
  exact moves_lanes hi hc _ _

/-- A slot that writes one bit moves it. -/
theorem movesBit_putLanes (r b : Nat) (v : Word) :
    MovesBit s c w r b v (.next (finish (putLanes s c.pid (.sbit r b) [(firstLane s c.pid, v)]) c (.n w))) := by
  obtain ⟨u, hu, rest, delivers⟩ := moves_first hi hc (.sbit r b) v
  refine ⟨u, hu, rest, delivers, fun i hib => ?_⟩
  cases hu
  have written : getSreg (putLanes s c.pid (.sbit r b) [(firstLane s c.pid, v)]) c.pid r =
      ((getSreg s c.pid r &&& ~~~(1#64 <<< b)) ||| ((v &&& 1) <<< b)) := getSreg_setSreg_self _ hi.2.1 hc.regs.2.2
  rw [finish_n, written, Bool.eq_iff_iff]
  by_cases h64 : i < 64
  · by_cases hlt : i < b
    · simp [h64, hlt]
    · have : i - b ≠ 0 := by omega
      simp [h64, hlt, this]
  · simp [BitVec.getLsbD_of_ge _ _ (Nat.not_lt.1 h64)]

theorem pset_moves : MovesBit s c w (w.dst.toNat - 1536) (w.aux.toNat % 64)
    (if w.sa = 2047 then 1 else nativeVal s c (firstLane s c.pid) w.sa.toNat .i1) (exec (.pset w) s) := by
  rw [exec_pset, execPset, issuing_eq hi]
  exact movesBit_putLanes hi hc _ _ _

theorem pclr_moves : MovesBit s c w (w.dst.toNat - 1536) (w.aux.toNat % 64) 0 (exec (.pclr w) s) := by
  rw [exec_pclr, execPclr, issuing_eq hi]
  exact movesBit_putLanes hi hc _ _ _

/-! ### Spilling and filling -/

omit hc in
theorem spill_eq (good : spillBad s c w = []) :
    exec (.spill w) s = .next (scrWords s (coreOfWarp c.warp) ((movedWords s c w).map (spillWord s c w))) := by
  rw [exec_spill, execSpill, issuing_eq hi]
  simp only [good, List.isEmpty_nil, Bool.not_true, Bool.false_eq_true, if_false, finish_n]
  simp only [scrWords, List.foldl_map, movedWords, SProd.sprod, List.product, List.foldl_flatMap]
  rfl

/-- `spill` stores each lane's words in its slots. -/
theorem spill_stores (good : spillBad s c w = []) (inDie : ∀ l ∈ (pathMask s c.pid).lanes, l < Config.lanes c.die) :
    ∃ u, exec (.spill w) s = .next u ∧ Silent s u c (.n w) ∧ u.m = s.m ∧
      (∀ l ∈ (pathMask s c.pid).lanes, ∀ j, j < moveWords w →
        scrRead u (coreOfWarp c.warp) (spillPa s c w (w.aux.toNat + j) l) 4 =
          (nativeVal s c l w.sa.toNat (formTy c (.n w))).toNat / 2 ^ (32 * j) % 2 ^ 32) ∧
      ∀ k, (∀ l ∈ (pathMask s c.pid).lanes, ∀ j, j < moveWords w → ∀ i, i < 4 →
        k ≠ coreOfWarp c.warp * 2 ^ 18 + (spillPa s c w (w.aux.toNat + j) l + i)) → u.e.scr.getD 0 k = s.e.scr.getD 0 k := by
  obtain ⟨hx, hctl, hm⟩ := scrWords_kept s (coreOfWarp c.warp) ((movedWords s c w).map (spillWord s c w))
  obtain ⟨-, -, -, -, scr, -⟩ := hc
  have apart : ((movedWords s c w).map (spillWord s c w)).Pairwise (fun a b => a.1 + 4 ≤ b.1 ∨ b.1 + 4 ≤ a.1) := by
    refine List.pairwise_map.2 (((lanes_nodup _).product List.nodup_range).pairwise_of_forall_ne ?_)
    rintro ⟨l, j⟩ hx ⟨l', j'⟩ hy hne
    exact spillPa_apart (inDie l (mem_movedWords.1 hx).1) (inDie l' (mem_movedWords.1 hy).1) (by simpa using hne)
  refine ⟨_, spill_eq hi good, ⟨⟨by rw [hctl], by rw [pathAt, hx]; rfl⟩, ?registers, by rw [hx], fun p _ => by rw [hx]⟩, hm, ?words,
    ?others⟩
  case registers =>
    exact ⟨fun _ _ => by rw [hx], fun _ _ => by rw [hx], fun _ _ => by rw [hx], fun r _ => by rw [getSreg, pathAt, hx]; rfl⟩
  case words =>
    intro l hl j hj
    exact scrRead_scrWords scr apart (List.mem_map_of_mem (mem_movedWords.2 ⟨hl, hj⟩))
  case others =>
    refine fun k hk => scr_scrWords_ne s fun x hx => ?_
    obtain ⟨⟨l, j⟩, hlj, rfl⟩ := List.mem_map.1 hx
    exact hk l (mem_movedWords.1 hlj).1 j (mem_movedWords.1 hlj).2

theorem fill_moves (good : spillBad s c w = []) : Moves s c w (dstOf c (.n w) (formTy c (.n w))) (pathMask s c.pid).lanes
    (spillRead s c w) (exec (.fill w) s) := by
  rw [exec_fill, execFill, issuing_eq hi]
  simp only [good, List.isEmpty_nil, Bool.not_true, Bool.false_eq_true, if_false]
  exact moves_lanes hi hc _ _

omit hc in
/-- A lane with a word outside the stack area raises a scratch address fault. -/
theorem spill_fill_raise (bad : spillBad s c w ≠ []) :
    exec (.spill w) s = .next (raise s c (.n w) (addrTrap 0x0C 3 (spillBad s c w))) ∧
      exec (.fill w) s = .next (raise s c (.n w) (addrTrap 0x0C 3 (spillBad s c w))) := by
  rw [exec_spill, execSpill, issuing_eq hi, exec_fill, execFill, issuing_eq hi]
  simp [bad]

/-! ### Entering -/

section
variable {home : Nat → Nat → Nat} (record : RecordAt s c w home)
include record

omit hc in
theorem entry_eq : exec (.entry w) s = .next (finish (putLanes s c.pid (dstOf c (.n w) (formTy c (.n w)))
    ((pathMask s c.pid).lanes.map (fun l => (l, BitVec.ofNat 64 (nth ((entryWords s c w l).map (entryWord s c)) 0 0 +
      2 ^ 32 * nth ((entryWords s c w l).map (entryWord s c)) 0 1))))) c (.n w)) := by
  have noFault : firstKind ((pathMask s c.pid).lanes.flatMap (entryWords s c w)) = none := firstKind_eq_none fun x hx => by
    obtain ⟨h, o, found⟩ := chk_of_record record hx
    simp only [badKind, found]
  have noMiss : ((pathMask s c.pid).lanes.flatMap (entryWords s c w)).any (fun x => x.chk == .miss) = false := by
    rw [List.any_eq_false]
    intro x hx
    obtain ⟨h, o, found⟩ := chk_of_record record hx
    simp [found]
  rw [exec_entry, execEntry, issuing_eq hi]
  simp only [noFault, noMiss]
  rfl

/-- `entry` takes each lane's words from the record (R361). -/
theorem entry_moves :
    Moves s c w (dstOf c (.n w) (formTy c (.n w))) (pathMask s c.pid).lanes
      (fun l => BitVec.ofNat 64 (readMem s (home 0 l) 4 + if moveWords w = 2 then 2 ^ 32 * readMem s (home 1 l) 4 else 0))
      (exec (.entry w) s) := by
  have values : (pathMask s c.pid).lanes.map (fun l => (l, BitVec.ofNat 64 (nth ((entryWords s c w l).map (entryWord s c)) 0 0 +
      2 ^ 32 * nth ((entryWords s c w l).map (entryWord s c)) 0 1))) = (pathMask s c.pid).lanes.map (fun l => (l,
      BitVec.ofNat 64 (readMem s (home 0 l) 4 + if moveWords w = 2 then 2 ^ 32 * readMem s (home 1 l) 4 else 0))) := by
    refine List.map_congr_left fun l hl => ?_
    rw [entryWords_of_record record hl]
    unfold moveWords
    split <;> rfl
  rw [entry_eq hi record, values]
  exact moves_lanes hi hc _ _

end

end

/-- Settles O40: each mover by its lemma of the same name. -/
theorem nativeMoversMoveLanesAndBits : Obligations.NativeMoversMoveLanesAndBits := by
  intro w s c hi hc ls t d l0 core v gives r b bit n pa inArea word
  refine ⟨vmov_moves hi hc, smov_moves hi hc, v2s_moves_first hi hc, fun hmd => ⟨_, v2s_moves_ballot hi hc hmd, ballot_bits _ _⟩,
    s2v_moves hi hc, pset_moves hi hc, pclr_moves hi hc, bnop_eq hi, fun area inDie => ?spill, fun area => ?fill, ?fault,
    fun home record => entry_moves hi hc record⟩
  case spill => exact spill_stores hi hc (spillBad_eq_nil.2 area) inDie
  case fill =>
    have moves := fill_moves hi hc (spillBad_eq_nil.2 area)
    rwa [show spillRead s c w = _ from funext spillRead_eq] at moves
  case fault =>
    rintro bad rfl hbad
    exact spill_fill_raise hi (mt List.map_eq_nil_iff.1 hbad)

end Sys2Proof.Machine
end

section
/-!
SUPPORT. O42: a key of MODE 0 whose RPC is not zero. R138 has no such key, but the statement speaks of every key. The translator makes
the normal translation of its function, which carries RPC 0 (R140), so that nothing stands under the key that missed.
-/
namespace Sys2Proof.Machine

/-- MODE 0, a translation of a whole function, with an RPC of 1. -/
def strayKey : TKey := { mhash := 0, fidx := 0, dkind := 0, mode := 0, cap := 0, rpc := 1 }

/-- A miss for that key that the translator has taken. -/
def strayMiss : MissRec := { key := strayKey, waiters := [0], accepted := some 0, due := 0 }

/-- The package at reset but for that miss at cluster 0. -/
def strayState : State := setCluster State.reset 0 { clusterZero with misses := [strayMiss] }

/-- What a cluster holds for a key after an event. -/
def imageAfter (o : Out) (cluster : Nat) (key : TKey) : Option TImage := match o with
  | .next u => imageAt u cluster key
  | _ => none

/-- The translation of the key, in a module without functions, is not too long. -/
theorem strayKey_fits : tooLong moduleZero strayKey = false := by decide +kernel

/-- It fits into the empty cache of the cluster. -/
theorem strayKey_room : findLines (clusterAt strayState 0).cache (imgLines (translateImage moduleZero strayKey)) = some 0 := by
  decide +kernel

/-- The event places a translation under the key with RPC 0, and none under the key that missed. -/
theorem translationReady_strayState :
    (imageAfter (exec (.translationReady 0 strayKey) strayState) 0 { strayKey with rpc := 0 }).isSome = true ∧
      imageAfter (exec (.translationReady 0 strayKey) strayState) 0 strayKey = none := by decide +kernel

/-- Refutes O42: when the translation for `strayKey` is ready in `strayState`, no image stands under that key. -/
theorem not_pathsIssueByAgeAndWaitForTranslations : ¬ Obligations.PathsIssueByAgeAndWaitForTranslations := by
  rintro ⟨-, h⟩
  obtain ⟨-, translated, -⟩ := h strayState strayKey canonical_reset rfl
  obtain ⟨-, placed⟩ := translated 0 strayMiss rfl
  obtain ⟨u, ran, -, image, -⟩ := placed 0 (.inr strayKey_fits) strayKey_room
  have lacks : imageAfter (.next u) 0 strayKey = none := ran ▸ translationReady_strayState.2
  exact absurd (lacks.symm.trans image) (by simp)

end Sys2Proof.Machine
end

section
/-!
SUPPORT. O21: a gang that fails (R88, R353, R364).
-/
namespace Sys2Proof

theorem SMap.mem_of_find? {α : Type} {m : SMap α} {k : Nat} {a : α} (h : m.find? k = some a) : (k, a) ∈ m := by
  induction m with
  | nil => simp [SMap.find?] at h
  | cons p m ih =>
    obtain ⟨i, b⟩ := p
    rw [SMap.find?] at h
    split at h
    · next hi => rw [← hi, ← Option.some.inj h]; exact List.mem_cons_self
    · exact List.mem_cons_of_mem _ (ih h)

namespace Machine

/-! ### Folds

What one element of a fold brings about stays when every step keeps it. -/

/-- A step for `b` leads from `Q` to `P`; the fold over a list with `b` in it does. -/
theorem foldl_reaches {β : Type} {Q P : State → Prop} {f : State → β → State} {b : β} (hQ : ∀ t c, Q t → Q (f t c))
    (hP : ∀ t c, P t → P (f t c)) (gain : ∀ t, Q t → P (f t b)) {l : List β} (hb : b ∈ l) {s : State} (hs : Q s) :
    P (l.foldl f s) := by
  induction l generalizing s with
  | nil => simp at hb
  | cons c l ih =>
    rcases List.mem_cons.1 hb with rfl | hb
    · exact foldl_inv P f hP _ l (gain s hs)
    · exact ih hb (hQ s c hs)

theorem pathAt_of_find? {s : State} {p : Nat} {q : Path} (h : s.x.paths.find? p = some q) : pathAt s p = q := by
  simp [pathAt, SMap.getD, h]

theorem find?_updPath_self {s : State} {p : Nat} {q : Path} (f : Path → Path) (h : s.x.paths.find? p = some q) :
    (updPath s p f).x.paths.find? p = some (f q) := by simp [SMap.find?_upd_self, h]

theorem find?_updPath_ne (s : State) {p k : Nat} (f : Path → Path) (h : k ≠ p) :
    (updPath s p f).x.paths.find? k = s.x.paths.find? k := SMap.find?_upd_ne _ f h

/-! ### Failing -/

/-- The gang is over: it has failed or retired already, and does not fail again. -/
theorem failGang_of_over {s : State} {g : Nat} (cause : Nat) (addr : Word)
    (h : (gangAt s g).state = .failing ∨ (gangAt s g).state = .retired) : failGang s g cause addr = s := by
  simp only [failGang, if_pos h]

/-- The paths of a gang stop issuing. -/
def haltPaths (s : State) (g : Nat) : State :=
  (gangPaths s g).foldl (fun s p => updPath s p.1 (fun q => { q with halted := true })) s

@[simp] theorem haltPaths_r (s : State) (g : Nat) : (haltPaths s g).r = s.r :=
  foldl_keeps (·.r) _ (by intros; rfl) s (gangPaths s g)
@[simp] theorem haltPaths_x_gangs (s : State) (g : Nat) : (haltPaths s g).x.gangs = s.x.gangs :=
  foldl_keeps (·.x.gangs) _ (by intros; rfl) s (gangPaths s g)

/-- A listed path stays listed, and a property of it stays that a halt keeps. -/
theorem find?_halt {s : State} {k : Nat} {P : Path → Prop} (p : Nat) (hP : ∀ q, P q → P { q with halted := true })
    (h : ∃ q, s.x.paths.find? k = some q ∧ P q) :
    ∃ q, (updPath s p (fun q => { q with halted := true })).x.paths.find? k = some q ∧ P q := by
  obtain ⟨q, hq, h⟩ := h
  by_cases hk : k = p
  · subst hk
    exact ⟨_, find?_updPath_self _ hq, hP q h⟩
  · exact ⟨q, (find?_updPath_ne s _ hk).trans hq, h⟩

theorem halted_haltPaths {s : State} {g k : Nat} (hk : (s.x.paths.find? k).isSome = true) (hg : (warpAt s (k / 64)).gang = g) :
    (pathAt (haltPaths s g) k).halted = true := by
  obtain ⟨q, hq⟩ := Option.isSome_iff_exists.1 hk
  have listed : (k, q) ∈ gangPaths s g := List.mem_filter.2 ⟨SMap.mem_of_find? hq, beq_iff_eq.2 hg⟩
  have reached : ∃ q, (haltPaths s g).x.paths.find? k = some q ∧ q.halted = true := by
    unfold haltPaths
    exact foldl_reaches (Q := fun u => ∃ q, u.x.paths.find? k = some q ∧ True)
      (P := fun u => ∃ q, u.x.paths.find? k = some q ∧ q.halted = true)
      (fun _ p => find?_halt p.1 fun _ _ => trivial) (fun _ p => find?_halt p.1 fun _ _ => rfl)
      (fun _ ⟨_, hq, _⟩ => ⟨_, find?_updPath_self _ hq, rfl⟩) listed ⟨q, hq, trivial⟩
  obtain ⟨q', hq', halted⟩ := reached
  rw [pathAt_of_find? hq', halted]

/-- A gang that is not over fails: its record takes the cause, its paths halt, and its launch notes it (R331, R364). -/
theorem failGang_eq {s : State} {g : Nat} (hf : (gangAt s g).state ≠ .failing) (hr : (gangAt s g).state ≠ .retired) (cause : Nat)
    (addr : Word) :
    failGang s g cause addr =
      (let t := haltPaths (setGang s g { gangAt s g with state := .failing, cause := cause, failAddr := addr }) g
       setLaunch t (gangAt s g).launch { launchAt t (gangAt s g).launch with bad := true }) :=
  if_neg (not_or.2 ⟨hf, hr⟩)

/-- A gang fails, or is over. -/
theorem failGang_cases (s : State) (g : Nat) :
    ((gangAt s g).state = .failing ∨ (gangAt s g).state = .retired) ∨
      (gangAt s g).state ≠ .failing ∧ (gangAt s g).state ≠ .retired := by
  rw [← not_or]
  exact Classical.em _

@[simp] theorem failGang_r (s : State) (g cause : Nat) (addr : Word) : (failGang s g cause addr).r = s.r := by
  rcases failGang_cases s g with done | ⟨hf, hr⟩
  · rw [failGang_of_over _ _ done]
  · simp [failGang_eq hf hr]

section
variable {s : State} {g : Nat} (hf : (gangAt s g).state ≠ .failing) (hr : (gangAt s g).state ≠ .retired)
include hf hr

theorem gangAt_failGang (cause : Nat) (addr : Word) :
    gangAt (failGang s g cause addr) g = { gangAt s g with state := .failing, cause := cause, failAddr := addr } := by
  rw [failGang_eq hf hr, gangAt]
  simp [SMap.getD, SMap.find?_ins_self]

theorem launchAt_failGang (cause : Nat) (addr : Word) : (launchAt (failGang s g cause addr) (gangAt s g).launch).bad = true := by
  rw [failGang_eq hf hr, launchAt]
  simp [SMap.getD, SMap.find?_ins_self]

theorem halted_failGang (cause : Nat) (addr : Word) {k : Nat} (hk : (s.x.paths.find? k).isSome = true)
    (hg : (warpAt s (k / 64)).gang = g) : (pathAt (failGang s g cause addr) k).halted = true := by
  rw [failGang_eq hf hr]
  exact halted_haltPaths (s := setGang s g _) hk hg

end

/-- After a failure the gang is over (R364). -/
theorem over_failGang (s : State) (g cause : Nat) (addr : Word) :
    (gangAt (failGang s g cause addr) g).state = .failing ∨ (gangAt (failGang s g cause addr) g).state = .retired := by
  rcases failGang_cases s g with done | ⟨hf, hr⟩
  · rwa [failGang_of_over _ _ done]
  · exact .inl (by rw [gangAt_failGang hf hr])

/-! ### Traps that fail the gang (R353) -/

section
variable {s : State} {p : Nat} (t : TrapRec) (hb : handlerOf (pathAt s p) = none)
include hb

theorem takeTrap_of_no_handler
    (hh : lrHandler (launchAt s (gangAt s (warpAt s (warpOfPath p)).gang).launch).record = 0xFFFF) :
    takeTrap s p t = failGang s (warpAt s (warpOfPath p)).gang (0x100 + t.kind) t.addr := by
  simp only [takeTrap, hb, if_pos hh]

theorem takeTrap_of_no_room
    (hh : lrHandler (launchAt s (gangAt s (warpAt s (warpOfPath p)).gang).launch).record ≠ 0xFFFF)
    (full : takeSave s (gangAt s (warpAt s (warpOfPath p)).gang).ctx
      (roundUp (blockBytes (Config.lanes (gangAt s (warpAt s (warpOfPath p)).gang).die) (trapVals s p t.vpc).length) 64) = none) :
    takeTrap s p t = failGang s (warpAt s (warpOfPath p)).gang 0x3E t.addr := by
  simp only [takeTrap, hb, if_neg hh, full]

end

/-- Settles O21: in both cases the trap fails the gang. -/
theorem trapsWithoutAHandlerFailTheGang : Obligations.TrapsWithoutAHandlerFailTheGang := by
  intro s p t q gi g h n fails _ hf hr hb
  have failed : ∀ cause, takeTrap s p t = failGang s gi cause t.addr → fails cause := by
    intro cause ht
    have record := gangAt_failGang hf hr cause t.addr
    simp only [fails, ht]
    exact ⟨by rw [record], by rw [record], by rw [record], launchAt_failGang hf hr cause t.addr,
      fun k hk hg => halted_failGang hf hr cause t.addr hk hg⟩
  exact ⟨fun hh => failed _ (takeTrap_of_no_handler t hb hh), fun hh full => failed _ (takeTrap_of_no_room t hb hh full)⟩

end Machine

end Sys2Proof
end

section
/-!
SUPPORT. O50: the owner's checks and what it performs at the home (R84, R130, R262, R370, R411).
-/
namespace Sys2Proof

theorem leNat_lt (bs : List Byte) : leNat bs < 256 ^ bs.length := by
  induction bs with
  | nil => simp [leNat]
  | cons b bs ih =>
    have hb := b.isLt
    rw [leNat, List.length_cons, Nat.pow_succ]
    omega

theorem SMap.getsD_eq_map {α : Type} (m : SMap α) (d : α) (k n : Nat) :
    m.getsD d k n = (List.range n).map (fun i => m.getD d (k + i)) := by
  induction n generalizing k with
  | zero => rfl
  | succ n ih =>
    rw [SMap.getsD, ih, List.range_succ_eq_map, List.map_cons, List.map_map]
    simp [Function.comp_def, Nat.add_assoc, Nat.add_comm 1]

namespace Machine

/-! ### Walks see memory and what the kernels keep -/

theorem walkFrom_congr {s t : State} (hm : t.m = s.m) (die : Nat) (va : Word) (fuel table : Nat) :
    walkFrom t die va fuel table = walkFrom s die va fuel table := by
  have reads : readMem t = readMem s := by funext a n; simp only [readMem, readBytes, hm]
  have leaves : leafOk t = leafOk s := by funext die va lg e; simp only [leafOk, cxlOwned, hm]
  induction fuel generalizing table with
  | zero => rfl
  | succ fuel ih => simp only [walkFrom, ih, reads, leaves]

theorem walkVa_congr {s t : State} (hm : t.m = s.m) (hh : t.h = s.h) (ctx : Nat) (va : Word) :
    walkVa t ctx va = walkVa s ctx va := by
  have ctxs : ctxAt t = ctxAt s := by funext k; simp only [ctxAt, hh]
  rw [walkVa, ctxs, walkFrom_congr hm, walkVa]

/-! ### Words of memory -/

/-- The word of a type at a home. -/
def typedWord (s : State) (a : Nat) (t : Ty) : Word := BitVec.ofNat 64 (readMem s a (tyBytes t))

/-- Memory holds `v` in the type's bytes at `a`, and every other byte as before. -/
def Stored (s u : State) (a : Nat) (t : Ty) (v : Word) : Prop :=
  typedWord u a t = lowBits (8 * tyBytes t) v ∧ ∀ k, k < a ∨ a + tyBytes t ≤ k → memByte u k = memByte s k

theorem readMem_lt (s : State) (a n : Nat) : readMem s a n < 2 ^ (8 * n) := by
  have length : (readBytes s a n).length = n := by simp [readBytes, SMap.getsD_eq_map]
  have bound := leNat_lt (readBytes s a n)
  rwa [length, show (256 : Nat) = 2 ^ 8 from rfl, ← Nat.pow_mul] at bound

theorem readMem_writeMem {s : State} (a n v : Nat) (h : Memory.wf s.m.mem = true) :
    readMem (writeMem s a n v) a n = v % 2 ^ (8 * n) := by
  have read : readBytes (writeMem s a n v) a n = leBytes n v := by
    have := SMap.getsD_putsD a (leBytes n v) h
    rwa [length_leBytes] at this
  rw [readMem, read, leNat_leBytes, show (256 : Nat) = 2 ^ 8 from rfl, ← Nat.pow_mul]

theorem stored_writeMem {s u : State} {a : Nat} {t : Ty} {v : Word} (h : Memory.wf s.m.mem = true)
    (hu : u.m.mem = (writeMem s a (tyBytes t) v.toNat).m.mem) : Stored s u a t v := by
  refine ⟨?_, fun k hk => ?_⟩
  · have read : typedWord u a t = typedWord (writeMem s a (tyBytes t) v.toNat) a t := by
      simp only [typedWord, readMem, readBytes, hu]
    rw [read, typedWord, readMem_writeMem a _ _ h, lowBits]
  · have byte : memByte u k = memByte (writeMem s a (tyBytes t) v.toNat) k := by simp only [memByte, hu]
    rw [byte, writeMem]
    rcases hk with hk | hk
    · exact memByte_writeBytes_lt _ hk
    · exact memByte_writeBytes_ge _ (by rwa [length_leBytes])

theorem stored_of_unchanged {s u : State} (a : Nat) (t : Ty) (hu : u.m.mem = s.m.mem) : Stored s u a t (typedWord s a t) := by
  refine ⟨?_, fun k _ => by simp only [memByte, hu]⟩
  have low : readMem s a (tyBytes t) % 2 ^ 64 % 2 ^ (8 * tyBytes t) = readMem s a (tyBytes t) % 2 ^ 64 :=
    Nat.mod_eq_of_lt (Nat.lt_of_le_of_lt (Nat.mod_le _ _) (readMem_lt s a _))
  have read : typedWord u a t = typedWord s a t := by simp only [typedWord, readMem, readBytes, hu]
  rw [read, lowBits, typedWord, BitVec.toNat_ofNat, low, ← BitVec.toNat_ofNat, BitVec.ofNat_toNat, BitVec.setWidth_eq]

/-! ### Watchpoints leave all but the debugger's state and the agenda alone -/

theorem hitOne_x (s : State) (cluster widx kind : Nat) (w : Watchpoint) (who : Party) (before after : Word) :
    (hitOne s cluster widx kind w who before after).x = s.x := by
  unfold hitOne
  dsimp only
  split <;> rfl

theorem hitOne_r (s : State) (cluster widx kind : Nat) (w : Watchpoint) (who : Party) (before after : Word) :
    (hitOne s cluster widx kind w who before after).r = s.r := by
  unfold hitOne
  dsimp only
  split <;> rfl

@[simp] theorem noteWatch_x (s : State) (who : Party) (kind : Nat) (l : Loc) (before : Word) :
    (noteWatch s who kind l before).x = s.x := by
  unfold noteWatch
  refine foldl_keeps (·.x) _ (fun t w => ?_) s _
  split
  · exact hitOne_x _ _ _ _ _ _ _ _
  · rfl

@[simp] theorem noteWatch_r (s : State) (who : Party) (kind : Nat) (l : Loc) (before : Word) :
    (noteWatch s who kind l before).r = s.r := by
  unfold noteWatch
  refine foldl_keeps (·.r) _ (fun t w => ?_) s _
  split
  · exact hitOne_r _ _ _ _ _ _ _ _
  · rfl

/-! ### Packets leave buffers, and replies are sent -/

/-- A packet that leaves changes its buffer alone. -/
theorem leaveBuf_eq (s : State) (key : Nat) (p : Pkt) : ∃ b, leaveBuf s key p = setBuf s key b := by
  unfold leaveBuf
  dsimp only
  split <;> exact ⟨_, rfl⟩

/-- A reply to `p` stands last in the injection queue of its direction. -/
def Sent (die : Nat) (u : State) (p : Pkt) (kind : Nat) (body : PktBody) : Prop :=
  ∃ q, (u.r.inject.getD [] (injectKey die q.dir 0)).getLast? = some q ∧ q.dst = p.src ∧
    q.src = die ∧ q.trk = p.trk ∧ q.kind = kind ∧ q.body = body

theorem sent_sendReply (s : State) (die : Nat) (p : Pkt) (kind : Nat) (body : PktBody) :
    Sent die (sendReply s die p kind body) p kind body := by
  refine ⟨{ p with kind := kind, dst := p.src, src := die, hops := 0, dir := aroundDown s die p.src (dirFlip p.dir),
                   vc1 := false, esc := false, flits := replyFlits body, body := body, gtd := 0, errs := 0,
                   route := dirNat (dirFlip p.dir) + 1 }, ?_, rfl, rfl, rfl, rfl, rfl⟩
  simp [sendReply, inject, SMap.getD, SMap.find?_ins_self]

/-! ### The owner's checks (R84) -/

/-- The request fails one of the checks. -/
def Unfit (s : State) (die : Nat) (p : Pkt) : Prop :=
  ∀ x, s.h.exports.find? (die * 16384 + p.exp) = some x →
    x.live = false ∨ x.gen ≠ p.gen ∨ x.pages ≤ p.off / 65536 ∨ maxrtHas x.maxrt (requestRight p) = false ∨
      ∀ e lg, walkVa s x.ctx (x.base + BitVec.ofNat 64 p.off) = .leaf e lg → pteKind e = 2 ∨ hasRight (requestRight p) e = false

/-- The request passes every check, and its home is `a`. -/
def Homed (s : State) (die : Nat) (p : Pkt) (a : Nat) : Prop :=
  ∃ x e lg, s.h.exports.find? (die * 16384 + p.exp) = some x ∧ x.live = true ∧ x.gen = p.gen ∧
    p.off / 65536 < x.pages ∧ maxrtHas x.maxrt (requestRight p) = true ∧
    walkVa s x.ctx (x.base + BitVec.ofNat 64 p.off) = .leaf e lg ∧ pteKind e ≠ 2 ∧ hasRight (requestRight p) e = true ∧
    a = leafKey die (x.base + BitVec.ofNat 64 p.off) lg e

theorem ownerHome_congr {s t : State} (hm : t.m = s.m) (hh : t.h = s.h) (die : Nat) (p : Pkt) :
    ownerHome t die p = ownerHome s die p := by
  simp only [ownerHome, hh, walkVa_congr hm hh]

theorem ownerHome_of_unfit {s : State} {die : Nat} {p : Pkt} (h : Unfit s die p) : ownerHome s die p = none := by
  unfold ownerHome
  split
  · rfl
  · next x hx =>
    split
    · rfl
    · next sound =>
      simp only [Bool.or_eq_true, Bool.not_eq_true', decide_eq_true_eq, bne_iff_ne, not_or, Bool.not_eq_false,
        ne_eq, not_not, Nat.not_le] at sound
      obtain ⟨⟨⟨live, gen⟩, pages⟩, right⟩ := sound
      have unmapped : ∀ e lg, walkVa s x.ctx (x.base + BitVec.ofNat 64 p.off) = .leaf e lg →
          pteKind e = 2 ∨ hasRight (requestRight p) e = false := by
        rcases h x hx with bad | bad | bad | bad | bad
        · rw [live] at bad; cases bad
        · exact absurd gen bad
        · exact absurd pages (Nat.not_lt.2 bad)
        · rw [right] at bad; cases bad
        · exact bad
      dsimp only
      split
      · rfl
      · next e lg walk => exact if_pos (unmapped e lg walk)

theorem ownerHome_of_homed {s : State} {die a : Nat} {p : Pkt} (h : Homed s die p a) :
    ∃ ord, ownerHome s die p = some (.mem a ord) := by
  obtain ⟨x, e, lg, hx, live, gen, pages, right, walk, kind, has, rfl⟩ := h
  refine ⟨pteOrd e, ?_⟩
  simp [ownerHome, hx, live, gen, Nat.not_le.2 pages, right, walk, kind, has]

/-! ### What the owner performs at the home (R262, R263, R267) -/

section
variable (s : State) (die a ord : Nat)

theorem performRequest_read {p : Pkt} {n : Nat} (hb : p.body = .read n) :
    performRequest s die p (.mem a ord) =
      (noteWatch s (partyOf s p) 1 (.mem a ord) (homeWord s (.mem a ord)), .data (readBytes s a n)) := by
  simp only [performRequest, hb, readBytes, SMap.getsD_eq_map]
  rfl

theorem performRequest_amo {p : Pkt} {op : Nat} {t : Ty} {v : Word} (hb : p.body = .amo op t v) :
    performRequest s die p (.mem a ord) =
      (noteWatch (writeMem (dropLine s (dieOfCore (die * 384)) a) a (tyBytes t) (applyOp t op (typedWord s a t) v).toNat)
        (partyOf s p) 4 (.mem a ord) (homeWord s (.mem a ord)), .data (leBytes (tyBytes t) (typedWord s a t).toNat)) := by
  simp only [performRequest, hb]
  rfl

theorem performRequest_cas {p : Pkt} {t : Ty} {e n : Word} (hb : p.body = .cas t e n) :
    performRequest s die p (.mem a ord) =
      (noteWatch (if typedWord s a t = lowBits (tyWidth t) e
          then writeMem (dropLine s (dieOfCore (die * 384)) a) a (tyBytes t) n.toNat else dropLine s (dieOfCore (die * 384)) a)
        (partyOf s p) 4 (.mem a ord) (homeWord s (.mem a ord)), .data (leBytes (tyBytes t) (typedWord s a t).toNat)) := by
  simp only [performRequest, hb]
  rfl

theorem performRequest_red {p : Pkt} {op : Nat} {t : Ty} {v : Word} (hb : p.body = .red op t v) :
    performRequest s die p (.mem a ord) =
      (noteWatch (writeMem (dropLine s (dieOfCore (die * 384)) a) a (tyBytes t) (applyOp t op (typedWord s a t) v).toNat)
        (partyOf s p) 4 (.mem a ord) (homeWord s (.mem a ord)), .ack) := by
  simp only [performRequest, hb]
  rfl

/-- The bytes of a write packet, each at its place behind the home. -/
def writeCells (who : Party) (cells : SMap Byte) : State :=
  cells.foldl (fun s b => noteWatch (writeByte s (a + b.1) b.2) who 2 (.mem (a + b.1) ord) (homeWord s (.mem (a + b.1) ord))) s

theorem performRequest_write {p : Pkt} {cells : SMap Byte} (hb : p.body = .write cells) :
    performRequest s die p (.mem a ord) = (writeCells s a ord (partyOf s p) cells, .ack) := by
  simp only [performRequest, hb]
  rfl

@[simp] theorem writeCells_x (who : Party) (cells : SMap Byte) : (writeCells s a ord who cells).x = s.x :=
  foldl_keeps (·.x) _ (by intros; simp [writeByte]) s cells

@[simp] theorem writeCells_r (who : Party) (cells : SMap Byte) : (writeCells s a ord who cells).r = s.r :=
  foldl_keeps (·.r) _ (by intros; simp [writeByte]) s cells

theorem memByte_writeCells_lt (who : Party) (cells : SMap Byte) {k : Nat} (hk : k < a) :
    memByte (writeCells s a ord who cells) k = memByte s k := by
  refine foldl_keeps (memByte · k) _ (fun t b => ?_) s cells
  have below : k ≠ a + b.1 := by omega
  simpa only [memByte, noteWatch_mem] using memByte_writeByte_ne (s := t) b.2 below

end

theorem memByte_writeCells {s : State} (a ord : Nat) (who : Party) {cells : SMap Byte} {lo : Nat} (hc : cells.risingFrom lo = true)
    (hs : Memory.wf s.m.mem = true) (i : Nat) :
    memByte (writeCells s a ord who cells) (a + i) = (cells.find? i).getD (memByte s (a + i)) := by
  induction cells generalizing s lo with
  | nil => rfl
  | cons c cells ih =>
    obtain ⟨j, b⟩ := c
    simp only [SMap.risingFrom, Bool.and_eq_true] at hc
    let t := noteWatch (writeByte s (a + j) b) who 2 (.mem (a + j) ord) (homeWord s (.mem (a + j) ord))
    have mem : t.m.mem = (writeByte s (a + j) b).m.mem := noteWatch_mem _ _ _ _ _
    have byte : memByte t (a + i) = memByte (writeByte s (a + j) b) (a + i) := by simp only [memByte, mem]
    have rest := ih (s := t) hc.2 (by rw [mem]; exact memory_wf_writeByte _ _ hs)
    show memByte (writeCells t a ord who cells) (a + i) = _
    rw [rest, byte]
    by_cases hj : j = i
    · subst hj
      rw [SMap.find?_of_rising cells hc.2 (Nat.lt_succ_self j), memByte_writeByte _ _ hs]
      simp [SMap.find?]
    · rw [memByte_writeByte_ne b (by omega)]
      simp [SMap.find?, hj]

/-! ### The owner's events -/

section
variable {die : Nat} {d : Dir} {esc : Bool} {s : State} {p : Pkt}

theorem peerRequest_refuses (ha : arrived s die d esc [0, 4, 6] = some p) (h : Unfit s die p) :
    ∃ u, exec (.peerRequest die d esc) s = .next u ∧ Sent die u p 7 .refuse ∧ u.m = s.m ∧ u.x = s.x ∧ u.e = s.e := by
  obtain ⟨b, left⟩ := leaveBuf_eq s (bufKey (arriveHop die d) d) p
  have refused : ownerHome (setBuf s (bufKey (arriveHop die d) d) b) die p = none :=
    (ownerHome_congr rfl rfl die p).trans (ownerHome_of_unfit h)
  simp only [exec_peerRequest, execPeerRequest, ha, left, refused]
  exact ⟨_, rfl, sent_sendReply _ _ _ _ _, rfl, rfl, rfl⟩

/-- The request is performed: its reply goes back, and `ok` holds of the state and of the reply. -/
def Performs (die : Nat) (d : Dir) (esc : Bool) (s : State) (p : Pkt) (ok : State → PktBody → Prop) : Prop :=
  ∃ u body, exec (.peerRequest die d esc) s = .next u ∧ Sent die u p (replyKind p.kind) body ∧ ok u body ∧ u.x = s.x

/-- A request with a home is performed there, once its packet has left the buffer. -/
theorem performs_of_homed (ha : arrived s die d esc [0, 4, 6] = some p) {a : Nat} (h : Homed s die p a)
    {ok : State → PktBody → Prop}
    (performed : ∀ b ord, let r := performRequest (setBuf s (bufKey (arriveHop die d) d) b) die p (.mem a ord)
      r.1.x = s.x ∧ ∀ u, u.m.mem = r.1.m.mem → ok u r.2) : Performs die d esc s p ok := by
  obtain ⟨b, left⟩ := leaveBuf_eq s (bufKey (arriveHop die d) d) p
  obtain ⟨ord, home⟩ := ownerHome_of_homed h
  have home : ownerHome (setBuf s (bufKey (arriveHop die d) d) b) die p = some (.mem a ord) :=
    (ownerHome_congr rfl rfl die p).trans home
  obtain ⟨x, good⟩ := performed b ord
  exact ⟨_, _, by simp only [exec_peerRequest, execPeerRequest, ha, left, home], sent_sendReply _ _ _ _ _, good _ rfl, x⟩

theorem performs_read (ha : arrived s die d esc [0, 4, 6] = some p) {a n : Nat} (h : Homed s die p a) (hb : p.body = .read n) :
    Performs die d esc s p (fun u body => body = .data (readBytes s a n) ∧ u.m.mem = s.m.mem) := by
  refine performs_of_homed ha h fun b ord => ?_
  rw [performRequest_read _ _ _ _ hb]
  exact ⟨noteWatch_x _ _ _ _ _, fun u hu => ⟨rfl, hu.trans (noteWatch_mem _ _ _ _ _)⟩⟩

theorem performs_amo (hs : Memory.wf s.m.mem = true) (ha : arrived s die d esc [0, 4, 6] = some p) {a op : Nat} {t : Ty} {v : Word}
    (h : Homed s die p a) (hb : p.body = .amo op t v) :
    Performs die d esc s p (fun u body => body = .data (leBytes (tyBytes t) (typedWord s a t).toNat) ∧
      Stored s u a t (applyOp t op (typedWord s a t) v)) := by
  refine performs_of_homed ha h fun b ord => ?_
  rw [performRequest_amo _ _ _ _ hb]
  exact ⟨noteWatch_x _ _ _ _ _, fun u hu => ⟨rfl, stored_writeMem hs (hu.trans (noteWatch_mem _ _ _ _ _))⟩⟩

theorem performs_cas (hs : Memory.wf s.m.mem = true) (ha : arrived s die d esc [0, 4, 6] = some p) {a : Nat} {t : Ty} {e n : Word}
    (h : Homed s die p a) (hb : p.body = .cas t e n) :
    Performs die d esc s p (fun u body => body = .data (leBytes (tyBytes t) (typedWord s a t).toNat) ∧
      Stored s u a t (if typedWord s a t = lowBits (tyWidth t) e then n else typedWord s a t)) := by
  refine performs_of_homed ha h fun b ord => ?_
  rw [performRequest_cas _ _ _ _ hb]
  have word : typedWord (setBuf s (bufKey (arriveHop die d) d) b) a t = typedWord s a t := rfl
  rw [word]
  by_cases equal : typedWord s a t = lowBits (tyWidth t) e
  · simp only [if_pos equal]
    exact ⟨noteWatch_x _ _ _ _ _, fun u hu => ⟨trivial, stored_writeMem hs (hu.trans (noteWatch_mem _ _ _ _ _))⟩⟩
  · simp only [if_neg equal]
    exact ⟨noteWatch_x _ _ _ _ _, fun u hu => ⟨trivial, stored_of_unchanged a t (hu.trans (noteWatch_mem _ _ _ _ _))⟩⟩

theorem performs_red (hs : Memory.wf s.m.mem = true) (ha : arrived s die d esc [0, 4, 6] = some p) {a op : Nat} {t : Ty} {v : Word}
    (h : Homed s die p a) (hb : p.body = .red op t v) :
    Performs die d esc s p (fun u body => body = .ack ∧ Stored s u a t (applyOp t op (typedWord s a t) v)) := by
  refine performs_of_homed ha h fun b ord => ?_
  rw [performRequest_red _ _ _ _ hb]
  exact ⟨noteWatch_x _ _ _ _ _, fun u hu => ⟨rfl, stored_writeMem hs (hu.trans (noteWatch_mem _ _ _ _ _))⟩⟩

/-- A write packet has taken the next place of the interface (R411). -/
def Placed (die : Nat) (s u : State) (p : Pkt) (ok : Bool) : Prop :=
  u.r.places.getD [] die = s.r.places.getD [] die ++ [{ pkt := p, ok := ok }]

theorem packetAccept_refuses (ha : arrived s die d esc [2] = some p) (room : (s.r.places.getD [] die).length < 64)
    (h : Unfit s die p) :
    ∃ u, exec (.packetAccept die d esc) s = .next u ∧ Placed die s u p false ∧ u.m = s.m ∧ u.x = s.x := by
  obtain ⟨b, left⟩ := leaveBuf_eq s (bufKey (arriveHop die d) d) p
  have refused : ownerHome (setBuf s (bufKey (arriveHop die d) d) b) die p = none :=
    (ownerHome_congr rfl rfl die p).trans (ownerHome_of_unfit h)
  simp only [exec_packetAccept, execPacketAccept, ha, if_neg (Nat.not_le.2 room), left, refused]
  exact ⟨_, rfl, by simp [Placed, SMap.getD, SMap.find?_ins_self], rfl, rfl⟩

theorem packetAccept_writes (hs : Memory.wf s.m.mem = true) (ha : arrived s die d esc [2] = some p)
    (room : (s.r.places.getD [] die).length < 64) {a : Nat} {cells : SMap Byte} (h : Homed s die p a) (hb : p.body = .write cells)
    (hc : cells.risingFrom 0 = true) :
    ∃ u, exec (.packetAccept die d esc) s = .next u ∧ Placed die s u p true ∧ u.x = s.x ∧
      (∀ i, memByte u (a + i) = (cells.find? i).getD (memByte s (a + i))) ∧ ∀ k, k < a → memByte u k = memByte s k := by
  obtain ⟨b, left⟩ := leaveBuf_eq s (bufKey (arriveHop die d) d) p
  obtain ⟨ord, home⟩ := ownerHome_of_homed h
  have home : ownerHome (setBuf s (bufKey (arriveHop die d) d) b) die p = some (.mem a ord) :=
    (ownerHome_congr rfl rfl die p).trans home
  simp only [exec_packetAccept, execPacketAccept, ha, if_neg (Nat.not_le.2 room), left, home, performRequest_write _ _ _ _ hb]
  refine ⟨_, rfl, by simp [Placed, SMap.getD, SMap.find?_ins_self], writeCells_x _ _ _ _ _, fun i => ?_, fun k hk => ?_⟩
  · exact memByte_writeCells (s := setBuf s _ b) a ord _ hc hs i
  · exact memByte_writeCells_lt (setBuf s _ b) a ord _ cells hk

theorem writeAcknowledgement_frees {i : Nat} {x : NiPlace} (hx : (s.r.places.getD [] die)[i]? = some x) :
    ∃ u, exec (.writeAcknowledgement die i) s = .next u ∧ u.m = s.m ∧ u.x = s.x ∧
      u.r.places.getD [] die = (s.r.places.getD [] die).eraseIdx i ∧
      (x.ok = true → Sent die u x.pkt 3 .ack) ∧ (x.ok = false → Sent die u x.pkt 7 .refuse) := by
  have erased : ∀ v : State, v.r.places = s.r.places.ins die
      ((s.r.places.getD [] die).take i ++ (s.r.places.getD [] die).drop (i + 1)) →
      v.r.places.getD [] die = (s.r.places.getD [] die).eraseIdx i := fun v hv => by
    rw [hv, List.eraseIdx_eq_take_drop_succ]
    simp only [SMap.getD, SMap.find?_ins_self, Option.getD_some]
  simp only [exec_writeAcknowledgement, execWriteAcknowledgement, hx]
  cases x.ok with
  | false => exact ⟨_, rfl, rfl, rfl, erased _ rfl, fun h => absurd h (by decide), fun _ => sent_sendReply _ _ _ _ _⟩
  | true => exact ⟨_, rfl, rfl, rfl, erased _ rfl, fun _ => sent_sendReply _ _ _ _ _, fun h => absurd h (by decide)⟩

theorem peerReply_reaches (ha : arrived s die d esc [1, 3, 5, 7] = some p) :
    ∃ u, exec (.peerReply die d esc) s = .next u ∧ u.m = s.m ∧ u.x = s.x ∧
      (∀ t, s.r.trackers.find? p.trk = some t → u.r.trackers.find? p.trk = some { t with reply := some p.body }) ∧
      ∀ k, k ≠ p.trk → u.r.trackers.find? k = s.r.trackers.find? k := by
  obtain ⟨b, left⟩ := leaveBuf_eq s (bufKey (arriveHop die d) d) p
  simp only [exec_peerReply, execPeerReply, ha, left]
  refine ⟨_, rfl, rfl, rfl, fun t ht => ?_, fun k hk => SMap.find?_upd_ne _ _ hk⟩
  simp [SMap.find?_upd_self, ht]

end

/-! ### Trackers (R370) -/

section
variable {s : State} {die trk : Nat} {t : Tracker} (ht : s.r.trackers.find? trk = some t) (hd : t.die = die)
include ht

/-- What a failed tracker does to its item: the gang behind it is over. -/
theorem over_failTracker (cause : Nat) {g : Nat} (hg : waiterGang s t.who = some g) :
    (gangAt (failTracker s trk cause) g).state = .failing ∨ (gangAt (failTracker s trk cause) g).state = .retired := by
  have x : (failTracker s trk cause).x = (failGang s g cause 0).x := by
    simp only [failTracker, ht, hg]
    split <;> rfl
  have record : gangAt (failTracker s trk cause) g = gangAt (failGang s g cause 0) g := by simp only [gangAt, x]
  rw [record]
  exact over_failGang s g cause 0

theorem failTracker_m (cause : Nat) : (failTracker s trk cause).m = s.m := by
  simp only [failTracker, ht]
  cases waiterGang s t.who <;> cases t.who <;> simp [failGang_m]

/-- A command's tracker answers it with a refusal. -/
theorem refuses_failTracker (cause : Nat) {i : Nat} (hi : t.who = .cmd i) :
    (failTracker s trk cause).r.trackers.find? trk = some { t with reply := some .refuse } := by
  simp only [failTracker, ht]
  rw [hi]
  cases waiterGang s (.cmd i) <;> simp [SMap.find?_upd_self, ht, hi]

include hd

theorem exec_trackerTimeout_early (early : s.c.cycle < t.sent + 64000) : exec (.trackerTimeout die trk) s = .next s := by
  simp [exec_trackerTimeout, execTrackerTimeout, ht, hd, early]

theorem exec_trackerTimeout_late (hr : t.reply = none) (late : t.sent + 64000 ≤ s.c.cycle) :
    exec (.trackerTimeout die trk) s = .next (failTracker s trk 7) := by
  simp [exec_trackerTimeout, execTrackerTimeout, ht, hd, hr, Nat.not_lt.2 late]

end

/-- Settles O50: the owner's checks decide a request and a write packet; the other events by their lemmas. -/
theorem ownersCheckPerformAndReply : Obligations.OwnersCheckPerformAndReply := by
  intro die d esc s hs sent unfit homed word fits others
  obtain ⟨hm, -⟩ := hs
  refine ⟨?request, ?write, fun i x hx => writeAcknowledgement_frees hx, fun p ha => peerReply_reaches ha, ?timeout⟩
  case request =>
    intro p ha performs
    refine ⟨peerRequest_refuses ha, fun a home => ⟨fun n body => performs_read ha home body, fun op t v body => ?_,
      fun t e n body => ?_, fun op t v body => ?_⟩⟩
    · exact performs_amo hm ha home body
    · exact performs_cas hm ha home body
    · exact performs_red hm ha home body
  case write =>
    intro p ha room places
    exact ⟨packetAccept_refuses ha room, fun a cells home body rising => packetAccept_writes hm ha room home body rising⟩
  case timeout =>
    intro trk t ht hd hr
    exact ⟨exec_trackerTimeout_early ht hd, fun late => ⟨_, exec_trackerTimeout_late ht hd hr late, failTracker_m ht 7,
      fun g hg => over_failTracker ht 7 hg, fun i hi => refuses_failTracker ht 7 hi⟩⟩

end Machine

end Sys2Proof
end

section
/-!
SUPPORT. O43: walks that end, the walker that goes on, and queued faults (R78, R86, R88, R89, R104, R362).
-/
namespace Sys2Proof.Machine

/-! ### Folds over those who wait -/

/-- A listed record that the step of `w` changes by `R` and that every other step leaves alone is changed by `R` in a fold over a list
with `w` in it. -/
theorem find?_foldl {α β : Type} {look : State → Option α} {R : α → α → Prop} (trans : ∀ {a b c}, R a b → R b c → R a c)
    {f : State → β → State} {w : β} (other : ∀ t v, v ≠ w → look (f t v) = look t)
    (self : ∀ t a, look t = some a → ∃ b, look (f t w) = some b ∧ R a b) {l : List β} (hw : w ∈ l) {s : State} {a : α}
    (hs : look s = some a) : ∃ b, look (l.foldl f s) = some b ∧ R a b := by
  refine foldl_reaches (Q := fun t => ∃ b, look t = some b ∧ (b = a ∨ R a b)) (P := fun t => ∃ b, look t = some b ∧ R a b)
    (fun t v ⟨b, hb, h⟩ => ?_) (fun t v ⟨b, hb, h⟩ => ?_) (fun t ⟨b, hb, h⟩ => ?_) hw ⟨a, hs, .inl rfl⟩
  · by_cases hv : v = w
    · subst hv
      obtain ⟨c, hc, r⟩ := self t b hb
      exact ⟨c, hc, .inr (h.elim (fun e => e ▸ r) (fun r' => trans r' r))⟩
    · exact ⟨b, (other t v hv).trans hb, h⟩
  · by_cases hv : v = w
    · subst hv
      obtain ⟨c, hc, r⟩ := self t b hb
      exact ⟨c, hc, trans h r⟩
    · exact ⟨b, (other t v hv).trans hb, h⟩
  · obtain ⟨c, hc, r⟩ := self t b hb
    exact ⟨c, hc, h.elim (fun e => e ▸ r) (fun r' => trans r' r)⟩

/-- Values, threads and gangs are as they were, and so are the paths and commands that are not among `ws`. -/
def KeptBut (s u : State) (ws : List Waiter) : Prop :=
  u.x.vals = s.x.vals ∧ u.x.threads = s.x.threads ∧ u.x.gangs = s.x.gangs ∧
    (∀ p, Waiter.path p ∉ ws → u.x.paths.find? p = s.x.paths.find? p) ∧
    ∀ i, Waiter.cmd i ∉ ws → u.e.cmds.find? i = s.e.cmds.find? i

theorem keptBut_of_eq {s u : State} (hx : u.x = s.x) (hc : u.e.cmds = s.e.cmds) (ws : List Waiter) : KeptBut s u ws := by
  rw [KeptBut, hx, hc]
  exact ⟨rfl, rfl, rfl, fun _ _ => rfl, fun _ _ => rfl⟩

theorem KeptBut.trans {s t u : State} {ws : List Waiter} (h : KeptBut s t ws) (h' : KeptBut t u ws) : KeptBut s u ws := by
  obtain ⟨vals, threads, gangs, paths, cmds⟩ := h
  obtain ⟨vals', threads', gangs', paths', cmds'⟩ := h'
  exact ⟨vals'.trans vals, threads'.trans threads, gangs'.trans gangs, fun p hp => (paths' p hp).trans (paths p hp),
    fun i hi => (cmds' i hi).trans (cmds i hi)⟩

theorem keptBut_foldl {f : State → Waiter → State} {ws : List Waiter} (h : ∀ t w, w ∈ ws → KeptBut t (f t w) ws) (s : State) :
    KeptBut s (ws.foldl f s) ws :=
  List.foldlRecOn (motive := fun u => KeptBut s u ws) ws f (keptBut_of_eq rfl rfl ws) fun u hu w hw => hu.trans (h u w hw)

theorem keptBut_updPath (s : State) {p : Nat} (f : Path → Path) {ws : List Waiter} (hp : .path p ∈ ws) :
    KeptBut s (updPath s p f) ws :=
  ⟨rfl, rfl, rfl, fun _ hk => find?_updPath_ne s f fun e => hk (e ▸ hp), fun _ _ => rfl⟩

theorem keptBut_updCmd (s : State) {i : Nat} (f : Cmd → Cmd) {ws : List Waiter} (hi : .cmd i ∈ ws) : KeptBut s (updCmd s i f) ws :=
  ⟨rfl, rfl, rfl, fun _ _ => rfl, fun _ hj => SMap.find?_upd_ne _ _ fun e => hj (e ▸ hi)⟩

theorem find?_updCmd_self {s : State} {i : Nat} {k : Cmd} (f : Cmd → Cmd) (h : s.e.cmds.find? i = some k) :
    (updCmd s i f).e.cmds.find? i = some (f k) := by simp [SMap.find?_upd_self, h]

theorem find?_updCmd_ne (s : State) {i j : Nat} (f : Cmd → Cmd) (h : j ≠ i) :
    (updCmd s i f).e.cmds.find? j = s.e.cmds.find? j := SMap.find?_upd_ne _ f h

/-! ### Waking -/

/-- The path waits no longer, and stands where it stood. -/
def Woken (q q' : Path) : Prop := q'.wait = none ∧ q'.noFix = q.noFix ∧ q'.pc = q.pc

theorem Woken.trans {a b c : Path} (h : Woken a b) (h' : Woken b c) : Woken a c :=
  ⟨h'.1, h'.2.1.trans h.2.1, h'.2.2.trans h.2.2⟩

theorem find?_wake_self {s : State} {p : Nat} {q : Path} (h : s.x.paths.find? p = some q) :
    ∃ q', (wake s p).x.paths.find? p = some q' ∧ Woken q q' := ⟨_, find?_updPath_self _ h, rfl, rfl, rfl⟩

/-- Only paths change. -/
theorem wakePaths_eq (s : State) (ws : List Waiter) : ∃ ps, wakePaths s ws = { s with x := { s.x with paths := ps } } := by
  refine foldl_inv (fun t => ∃ ps, t = { s with x := { s.x with paths := ps } }) _ ?_ s ws ⟨_, rfl⟩
  rintro _ (p | i) ⟨ps, rfl⟩ <;> exact ⟨_, rfl⟩

theorem keptBut_wakePaths (s : State) (ws : List Waiter) : KeptBut s (wakePaths s ws) ws := by
  refine keptBut_foldl ?_ s
  rintro t (p | i) hw
  · exact keptBut_updPath t _ hw
  · exact keptBut_of_eq rfl rfl ws

theorem find?_wakePaths {s : State} {ws : List Waiter} {p : Nat} {q : Path} (hp : .path p ∈ ws) (hq : s.x.paths.find? p = some q) :
    ∃ q', (wakePaths s ws).x.paths.find? p = some q' ∧ Woken q q' := by
  unfold wakePaths
  refine find?_foldl (look := fun t => t.x.paths.find? p) (R := Woken) (w := .path p) Woken.trans ?other ?self hp hq
  case other =>
    rintro t (k | i) hk
    · exact find?_updPath_ne t _ fun e => hk (e ▸ rfl)
    · rfl
  case self => exact fun t a => find?_wake_self

/-- Only commands change. -/
theorem wakeCmds_eq (s : State) (ws : List Waiter) : ∃ cs, wakeCmds s ws = { s with e := { s.e with cmds := cs } } := by
  refine foldl_inv (fun t => ∃ cs, t = { s with e := { s.e with cmds := cs } }) _ ?_ s ws ⟨_, rfl⟩
  rintro _ (p | i) ⟨cs, rfl⟩ <;> exact ⟨_, rfl⟩

theorem keptBut_wakeCmds (s : State) (ws : List Waiter) : KeptBut s (wakeCmds s ws) ws := by
  refine keptBut_foldl ?_ s
  rintro t (p | i) hw
  · exact keptBut_of_eq rfl rfl ws
  · exact keptBut_updCmd t _ hw

theorem find?_wakeCmds {s : State} {ws : List Waiter} {i : Nat} {k : Cmd} (hi : .cmd i ∈ ws) (hk : s.e.cmds.find? i = some k) :
    (wakeCmds s ws).e.cmds.find? i = some { k with parked := none } := by
  have changed : ∃ k', (wakeCmds s ws).e.cmds.find? i = some k' ∧ k' = { k with parked := none } := by
    unfold wakeCmds
    refine find?_foldl (look := fun t => t.e.cmds.find? i) (R := fun k k' => k' = { k with parked := none }) (w := .cmd i)
      (fun h h' => by rw [h', h]) ?other ?self hi hk
    case other =>
      rintro t (p | j) hj
      · rfl
      · exact find?_updCmd_ne t _ fun e => hj (e ▸ rfl)
    case self => exact fun t a h => ⟨_, find?_updCmd_self _ h, rfl⟩
  obtain ⟨k', hk', rfl⟩ := changed
  exact hk'

/-! ### A fault leaves the queue (R88, R104) -/

/-- Entry `n` is gone, and those who waited for it run again. -/
def Served (s : State) (n : Nat) (u : State) (ws : List Waiter) : Prop :=
  u.m.faults.find? n = none ∧ KeptBut s u ws ∧
    (∀ p q, Waiter.path p ∈ ws → s.x.paths.find? p = some q →
      (pathAt u p).wait = none ∧ (pathAt u p).noFix = q.noFix ∧ (pathAt u p).pc = q.pc) ∧
    ∀ i k, Waiter.cmd i ∈ ws → s.e.cmds.find? i = some k → u.e.cmds.find? i = some { k with parked := none }

/-- Entry `n` is gone; the paths that waited for it will trap, and the commands go on with its page failed. -/
def Failed (s : State) (n : Nat) (u : State) (f : QFault) : Prop :=
  u.m.faults.find? n = none ∧ KeptBut s u f.waiters ∧
    (∀ p q, Waiter.path p ∈ f.waiters → s.x.paths.find? p = some q →
      (pathAt u p).wait = none ∧ (pathAt u p).noFix = true ∧ (pathAt u p).pc = q.pc) ∧
    ∀ i k, Waiter.cmd i ∈ f.waiters → s.e.cmds.find? i = some k →
      ∃ k, u.e.cmds.find? i = some k ∧ k.parked = none ∧ pageOf f.va ∈ k.dead

theorem resolveFault_h (s : State) (n : Nat) (f : QFault) : (resolveFault s n f).h = s.h := by
  obtain ⟨ps, paths⟩ := wakePaths_eq (setFaults s (s.m.faults.del n)) f.waiters
  obtain ⟨cs, cmds⟩ := wakeCmds_eq (wakePaths (setFaults s (s.m.faults.del n)) f.waiters) f.waiters
  rw [resolveFault, cmds, paths]
  rfl

theorem loseFault_h (s : State) (n : Nat) (f : QFault) : (loseFault s n f).h = s.h := by
  refine foldl_keeps (·.h) _ ?_ (setFaults s (s.m.faults.del n)) f.waiters
  rintro t (p | i) <;> rfl

section
variable {s t : State} {n : Nat} (hx : t.x = s.x) (hc : t.e.cmds = s.e.cmds) (hf : t.m.faults.risingFrom 0 = true) (f : QFault)
include hx hc hf

theorem served_resolveFault : Served s n (resolveFault t n f) f.waiters := by
  let a := setFaults t (t.m.faults.del n)
  let b := wakePaths a f.waiters
  have start : KeptBut s a f.waiters := keptBut_of_eq hx hc _
  have woken : KeptBut s b f.waiters := start.trans (keptBut_wakePaths a f.waiters)
  have run : KeptBut s (resolveFault t n f) f.waiters := woken.trans (keptBut_wakeCmds b f.waiters)
  obtain ⟨ps, paths⟩ := wakePaths_eq a f.waiters
  obtain ⟨cs, cmds⟩ := wakeCmds_eq b f.waiters
  have m : (resolveFault t n f).m = a.m := by
    show (wakeCmds b f.waiters).m = a.m
    rw [cmds]
    show b.m = a.m
    rw [show b = _ from paths]
  have x : (resolveFault t n f).x = b.x := by
    show (wakeCmds b f.waiters).x = b.x
    rw [cmds]
  refine ⟨by rw [m]; exact SMap.find?_del_self _ hf, run, fun p q hp hq => ?_, fun i k hi hk => ?_⟩
  · obtain ⟨q', hq', woken⟩ := find?_wakePaths (s := a) hp (show t.x.paths.find? p = some q by rw [hx, hq])
    rw [pathAt_of_find? (q := q') (by rw [x]; exact hq')]
    exact woken
  · refine find?_wakeCmds (s := b) hi ?_
    rw [show b = _ from paths]
    show t.e.cmds.find? i = some k
    rw [hc, hk]

theorem failed_loseFault : Failed s n (loseFault t n f) f := by
  have start : KeptBut s (setFaults t (t.m.faults.del n)) f.waiters := keptBut_of_eq hx hc _
  have faults : (loseFault t n f).m.faults = t.m.faults.del n := by
    refine foldl_keeps (·.m.faults) _ ?_ (setFaults t (t.m.faults.del n)) f.waiters
    rintro u (p | i) <;> rfl
  refine ⟨by rw [faults]; exact SMap.find?_del_self _ hf, start.trans (keptBut_foldl ?kept _), fun p q hp hq => ?_,
    fun i k hi hk => ?_⟩
  case kept =>
    rintro u (p | i) hw
    · exact keptBut_updPath u _ hw
    · exact keptBut_updCmd u _ hw
  · have changed : ∃ q', (loseFault t n f).x.paths.find? p = some q' ∧ q'.wait = none ∧ q'.noFix = true ∧ q'.pc = q.pc := by
      unfold loseFault
      refine find?_foldl (look := fun u => u.x.paths.find? p) (R := fun q q' => q'.wait = none ∧ q'.noFix = true ∧ q'.pc = q.pc)
        (w := .path p) (fun h h' => ⟨h'.1, h'.2.1, h'.2.2.trans h.2.2⟩) ?other ?self hp
        (show t.x.paths.find? p = some q by rw [hx, hq])
      case other =>
        rintro u (k | i) hk
        · exact find?_updPath_ne u _ fun e => hk (e ▸ rfl)
        · rfl
      case self => exact fun u q h => ⟨_, find?_updPath_self _ h, rfl, rfl, rfl⟩
    obtain ⟨q', hq', lost⟩ := changed
    rw [pathAt_of_find? hq']
    exact lost
  · unfold loseFault
    refine find?_foldl (look := fun u => u.e.cmds.find? i) (R := fun _ k' => k'.parked = none ∧ pageOf f.va ∈ k'.dead) (w := .cmd i)
      (fun _ h' => h') ?other ?self hi (show t.e.cmds.find? i = some k by rw [hc, hk])
    case other =>
      rintro u (p | j) hj
      · rfl
      · exact find?_updCmd_ne u _ fun e => hj (e ▸ rfl)
    case self => exact fun u k h => ⟨_, find?_updCmd_self _ h, rfl, List.mem_cons_self⟩

end

end Sys2Proof.Machine
end

section
/-!
SUPPORT. O43: walks that end, and the walker that goes on (R77, R78, R89).
-/
namespace Sys2Proof.Machine

/-! ### A leaf (R77, R78) -/

/-- Only commands and in-flight counts change. -/
theorem holdPage_eq (s : State) (i ctx : Nat) (va : Word) (lg : Nat) (e : Word) :
    ∃ cs us, holdPage s i ctx va lg e = { s with m := { s.m with pageUse := us }, e := { s.e with cmds := cs } } := by
  unfold holdPage
  split
  · exact ⟨_, _, rfl⟩
  · dsimp only
    split <;> exact ⟨_, _, rfl⟩

theorem find?_holdPage_ne (s : State) {i j : Nat} (ctx : Nat) (va : Word) (lg : Nat) (e : Word) (h : j ≠ i) :
    (holdPage s i ctx va lg e).e.cmds.find? j = s.e.cmds.find? j := by
  unfold holdPage
  split
  · rfl
  · dsimp only
    split
    · rfl
    · exact SMap.find?_ins_ne _ _ h

/-- The command holds the page, whether it did before or not. -/
theorem find?_holdPage_self {s : State} {i : Nat} (ctx : Nat) (va : Word) (lg : Nat) (e : Word) {k : Cmd}
    (h : s.e.cmds.find? i = some k) : ∃ k', (holdPage s i ctx va lg e).e.cmds.find? i = some k' ∧
      ({ page := va.toNat / 2 ^ lg * 2 ^ lg / 65536, lg := lg, leaf := e } : BxPage) ∈ k'.pages := by
  simp only [holdPage, h]
  split
  · next held => exact ⟨k, h, List.contains_iff_mem.1 held⟩
  · exact ⟨_, SMap.find?_ins_self _ _ _, List.mem_append_right _ (List.mem_singleton_self _)⟩

theorem keptBut_holdPage (s : State) {i : Nat} (ctx : Nat) (va : Word) (lg : Nat) (e : Word) {ws : List Waiter} (hi : .cmd i ∈ ws) :
    KeptBut s (holdPage s i ctx va lg e) ws := by
  obtain ⟨cs, us, held⟩ := holdPage_eq s i ctx va lg e
  have x : (holdPage s i ctx va lg e).x = s.x := by rw [held]
  exact ⟨by rw [x], by rw [x], by rw [x], fun _ _ => by rw [x], fun _ hj => find?_holdPage_ne s ctx va lg e fun eq => hj (eq ▸ hi)⟩

section
variable (s : State) (ctx : Nat) (va : Word) (lg : Nat) (e : Word)

/-- Only paths, commands and in-flight counts change. -/
theorem giveLeaf_eq (ws : List Waiter) : ∃ ps cs us, giveLeaf s ctx va lg e ws =
    { s with m := { s.m with pageUse := us }, x := { s.x with paths := ps }, e := { s.e with cmds := cs } } := by
  refine foldl_inv (fun t => ∃ ps cs us, t =
    { s with m := { s.m with pageUse := us }, x := { s.x with paths := ps }, e := { s.e with cmds := cs } }) _ ?_ s ws ⟨_, _, _, rfl⟩
  rintro _ (p | i) ⟨ps, cs, us, rfl⟩
  · exact ⟨_, _, _, rfl⟩
  · obtain ⟨cs', us', held⟩ := holdPage_eq
      { s with m := { s.m with pageUse := us }, x := { s.x with paths := ps }, e := { s.e with cmds := cs } } i ctx va lg e
    exact ⟨_, _, _, held⟩

theorem keptBut_giveLeaf (ws : List Waiter) : KeptBut s (giveLeaf s ctx va lg e ws) ws := by
  refine keptBut_foldl ?_ s
  rintro t (p | i) hw
  · exact keptBut_updPath t _ hw
  · exact keptBut_holdPage t ctx va lg e hw

variable {s}

theorem find?_giveLeaf_path {ws : List Waiter} {p : Nat} {q : Path} (hp : .path p ∈ ws) (hq : s.x.paths.find? p = some q) :
    ∃ q', (giveLeaf s ctx va lg e ws).x.paths.find? p = some q' ∧ Woken q q' := by
  unfold giveLeaf
  refine find?_foldl (look := fun t => t.x.paths.find? p) (R := Woken) (w := .path p) Woken.trans ?other ?self hp hq
  case other =>
    rintro t (k | i) hk
    · exact find?_updPath_ne t _ fun eq => hk (eq ▸ rfl)
    · obtain ⟨cs, us, held⟩ := holdPage_eq t i ctx va lg e
      simp only [held]
  case self => exact fun t a => find?_wake_self

theorem find?_giveLeaf_cmd {ws : List Waiter} {i : Nat} {k : Cmd} (hi : .cmd i ∈ ws) (hk : s.e.cmds.find? i = some k) :
    ∃ k', (giveLeaf s ctx va lg e ws).e.cmds.find? i = some k' ∧
      ({ page := va.toNat / 2 ^ lg * 2 ^ lg / 65536, lg := lg, leaf := e } : BxPage) ∈ k'.pages := by
  unfold giveLeaf
  refine find?_foldl (look := fun t => t.e.cmds.find? i)
    (R := fun _ k' => ({ page := va.toNat / 2 ^ lg * 2 ^ lg / 65536, lg := lg, leaf := e } : BxPage) ∈ k'.pages) (w := .cmd i)
    (fun _ h => h) ?other ?self hi hk
  case other =>
    rintro t (p | j) hj
    · rfl
    · exact find?_holdPage_ne t ctx va lg e fun eq => hj (eq ▸ rfl)
  case self => exact fun t a => find?_holdPage_self ctx va lg e

end

/-- What was filled last is found first (R77). -/
theorem tlbFind_tlbFill (s : State) (core ctx : Nat) (va : Word) (lg : Nat) (e : Word) :
    tlbFind (tlbFill s core { ctx := ctx, va := va.toNat / 2 ^ lg * 2 ^ lg, lg := lg, leaf := e }) core ctx va =
      some { ctx := ctx, va := va.toNat / 2 ^ lg * 2 ^ lg, lg := lg, leaf := e } := by
  simp [tlbFind, tlbFill, SMap.getD, SMap.find?_ins_self]

/-! ### A fault (R89, R104) -/

/-- The entry that a fault has joined or made. -/
theorem find?_queueFault (s : State) (ctx : Nat) (va : Word) (kind owner space : Nat) (who : List Waiter) :
    ∃ f, (queueFault s ctx va kind owner space who).1.m.faults.find? (queueFault s ctx va kind owner space who).2 = some f ∧
      f.ctx = ctx ∧ pageOf f.va = pageOf va ∧
      (faultFor s ctx va = none → f.kind = kind ∧ f.owner = owner ∧ f.die = ctx / 64) ∧ ∀ w ∈ who, w ∈ f.waiters := by
  unfold queueFault
  split
  · next i q found =>
    have names := List.find?_some found
    simp only [Bool.and_eq_true, beq_iff_eq] at names
    exact ⟨_, SMap.find?_ins_self _ _ _, names.1, names.2, fun h => absurd (found.symm.trans h) (by simp),
      fun w hw => List.mem_append_right _ hw⟩
  · exact ⟨_, SMap.find?_ins_self _ _ _, rfl, rfl, fun _ => ⟨rfl, rfl, rfl⟩, fun w hw => hw⟩

/-- Only fault entries and the next number change. -/
theorem queueFault_eq (s : State) (ctx : Nat) (va : Word) (kind owner space : Nat) (who : List Waiter) :
    ∃ fs n, (queueFault s ctx va kind owner space who).1 =
      { s with c := { s.c with nextId := n }, m := { s.m with faults := fs } } := by
  unfold queueFault
  split <;> exact ⟨_, _, rfl⟩

theorem noteFault_of_find? {s : State} {i : Nat} (va : Word) (kind owner : Nat) {k : Cmd} (h : s.e.cmds.find? i = some k) :
    noteFault s i va kind owner =
      enqueue (setCmd s i { k with faults := k.faults ++ [(va, kind, owner)] }) (.bxCommandPark k.core i) := by
  simp only [noteFault, h]

/-- Only commands and the agenda change. -/
theorem noteFault_eq (s : State) (i : Nat) (va : Word) (kind owner : Nat) : ∃ cs ag, noteFault s i va kind owner =
    { s with c := { s.c with agenda := ag }, e := { s.e with cmds := cs } } := by
  unfold noteFault
  split <;> exact ⟨_, _, rfl⟩

/-- What a fault of a walk does to one of those who wait. -/
def faultOne (va : Word) (kind owner fid : Nat) (s : State) (w : Waiter) : State :=
  match w with
  | .path p => updPath s p (fun r => { r with wait := some (.fault fid) })
  | .cmd i => noteFault s i va kind owner

theorem giveFault_eq_foldl (s : State) (ctx : Nat) (va : Word) (kind owner : Nat) (ws : List Waiter) :
    ∃ s1 fid, giveFault s ctx va kind owner ws = ws.foldl (faultOne va kind owner fid) s1 ∧
      (∃ fs n, s1 = { s with c := { s.c with nextId := n }, m := { s.m with faults := fs } }) ∧
      ((∃ p, Waiter.path p ∈ ws) → ∃ f, s1.m.faults.find? fid = some f ∧ f.ctx = ctx ∧ pageOf f.va = pageOf va ∧
        (faultFor s ctx va = none → f.kind = kind ∧ f.owner = owner ∧ f.die = ctx / 64) ∧
        ∀ p, Waiter.path p ∈ ws → Waiter.path p ∈ f.waiters) := by
  unfold giveFault
  extract_lets isPath ps q s1
  refine ⟨s1, q.2, rfl, ?_, ?_⟩
  · by_cases nobody : ps.isEmpty = true
    · exact ⟨_, _, if_pos nobody⟩
    · obtain ⟨fs, n, queued⟩ := queueFault_eq s ctx va kind owner (if va.getLsbD 56 then 1 else 0) ps
      exact ⟨fs, n, (if_neg nobody).trans queued⟩
  · rintro ⟨p, hp⟩
    have listed : ∀ p, Waiter.path p ∈ ws → Waiter.path p ∈ ps := fun p hp => List.mem_filter.2 ⟨hp, rfl⟩
    have somebody : ¬ ps.isEmpty = true := fun h => by simpa [List.isEmpty_iff.1 h] using listed p hp
    obtain ⟨f, hf, hctx, page, new, waits⟩ := find?_queueFault s ctx va kind owner (if va.getLsbD 56 then 1 else 0) ps
    exact ⟨f, by rw [show s1 = q.1 from if_neg somebody]; exact hf, hctx, page, new, fun p hp => waits _ (listed p hp)⟩

section
variable (s : State) (va : Word) (kind owner fid : Nat)

/-- Only paths, commands and the agenda change. -/
theorem foldl_faultOne_eq (ws : List Waiter) : ∃ ps cs ag, ws.foldl (faultOne va kind owner fid) s =
    { s with c := { s.c with agenda := ag }, x := { s.x with paths := ps }, e := { s.e with cmds := cs } } := by
  refine foldl_inv (fun t => ∃ ps cs ag, t =
    { s with c := { s.c with agenda := ag }, x := { s.x with paths := ps }, e := { s.e with cmds := cs } }) _ ?_ s ws ⟨_, _, _, rfl⟩
  rintro _ (p | i) ⟨ps, cs, ag, rfl⟩
  · exact ⟨_, _, _, rfl⟩
  · obtain ⟨cs', ag', noted⟩ := noteFault_eq
      { s with c := { s.c with agenda := ag }, x := { s.x with paths := ps }, e := { s.e with cmds := cs } } i va kind owner
    exact ⟨_, _, _, noted⟩

theorem find?_noteFault_ne {i j : Nat} (h : j ≠ i) : (noteFault s i va kind owner).e.cmds.find? j = s.e.cmds.find? j := by
  unfold noteFault
  split
  · rfl
  · exact SMap.find?_ins_ne _ _ h

theorem keptBut_noteFault {i : Nat} {ws : List Waiter} (hi : .cmd i ∈ ws) : KeptBut s (noteFault s i va kind owner) ws := by
  obtain ⟨cs, ag, noted⟩ := noteFault_eq s i va kind owner
  have x : (noteFault s i va kind owner).x = s.x := by rw [noted]
  exact ⟨by rw [x], by rw [x], by rw [x], fun _ _ => by rw [x], fun _ hj => find?_noteFault_ne s va kind owner fun eq => hj (eq ▸ hi)⟩

theorem keptBut_foldl_faultOne (ws : List Waiter) : KeptBut s (ws.foldl (faultOne va kind owner fid) s) ws := by
  refine keptBut_foldl ?_ s
  rintro t (p | i) hw
  · exact keptBut_updPath t _ hw
  · exact keptBut_noteFault t va kind owner hw

variable {s}

/-- A path waits for the entry. -/
theorem find?_foldl_faultOne_path {ws : List Waiter} {p : Nat} {q : Path} (hp : .path p ∈ ws) (hq : s.x.paths.find? p = some q) :
    ∃ q', (ws.foldl (faultOne va kind owner fid) s).x.paths.find? p = some q' ∧ q'.wait = some (.fault fid) := by
  refine find?_foldl (look := fun t => t.x.paths.find? p) (R := fun _ q' => q'.wait = some (.fault fid)) (w := .path p)
    (fun _ h => h) ?other ?self hp hq
  case other =>
    rintro t (k | i) hk
    · exact find?_updPath_ne t _ fun eq => hk (eq ▸ rfl)
    · obtain ⟨cs, ag, noted⟩ := noteFault_eq t i va kind owner
      show (noteFault t i va kind owner).x.paths.find? p = _
      rw [noted]
  case self => exact fun t a h => ⟨_, find?_updPath_self (fun r => { r with wait := some (.fault fid) }) h, rfl⟩

/-- The fault is noted in command `i` of a core, which is due to park. -/
def Noted (va : Word) (kind owner core i : Nat) (t : State) : Prop :=
  ∃ k, t.e.cmds.find? i = some k ∧ k.core = core ∧ (va, kind, owner) ∈ k.faults ∧ Instr.bxCommandPark core i ∈ t.c.agenda

/-- A later waiter adds to commands and to the agenda, and takes nothing away. -/
theorem faultOne_keeps_cmd {i : Nat} (t : State) (w : Waiter) {k : Cmd} (hk : t.e.cmds.find? i = some k) :
    (∃ k', (faultOne va kind owner fid t w).e.cmds.find? i = some k' ∧ k'.core = k.core ∧ ∀ x ∈ k.faults, x ∈ k'.faults) ∧
      ∀ x ∈ t.c.agenda, x ∈ (faultOne va kind owner fid t w).c.agenda := by
  rcases w with p | j
  · exact ⟨⟨k, hk, rfl, fun _ h => h⟩, fun _ h => h⟩
  · show (∃ k', (noteFault t j va kind owner).e.cmds.find? i = some k' ∧ _) ∧
      ∀ x ∈ t.c.agenda, x ∈ (noteFault t j va kind owner).c.agenda
    refine ⟨?_, fun x hx => ?_⟩
    · by_cases h : i = j
      · subst h
        rw [noteFault_of_find? va kind owner hk]
        exact ⟨_, SMap.find?_ins_self _ _ _, rfl, fun _ h => List.mem_append_left _ h⟩
      · exact ⟨k, (find?_noteFault_ne t va kind owner h).trans hk, rfl, fun _ h => h⟩
    · unfold noteFault
      split
      · exact hx
      · exact List.mem_append_left _ hx

theorem noted_foldl_faultOne {ws : List Waiter} {i : Nat} {k : Cmd} (hi : .cmd i ∈ ws) (hk : s.e.cmds.find? i = some k) :
    Noted va kind owner k.core i (ws.foldl (faultOne va kind owner fid) s) := by
  refine foldl_reaches (Q := fun t => ∃ x, t.e.cmds.find? i = some x ∧ x.core = k.core) (P := Noted va kind owner k.core i)
    ?listed ?stays ?gain hi ⟨k, hk, rfl⟩
  case listed =>
    rintro t w ⟨x, hx, core⟩
    obtain ⟨⟨x', hx', core', -⟩, -⟩ := faultOne_keeps_cmd va kind owner fid t w hx
    exact ⟨x', hx', core'.trans core⟩
  case stays =>
    rintro t w ⟨x, hx, core, fault, park⟩
    obtain ⟨⟨x', hx', core', faults⟩, agenda⟩ := faultOne_keeps_cmd va kind owner fid t w hx
    exact ⟨x', hx', core'.trans core, faults _ fault, agenda _ park⟩
  case gain =>
    rintro t ⟨x, hx, core⟩
    show Noted va kind owner k.core i (noteFault t i va kind owner)
    rw [noteFault_of_find? va kind owner hx, core]
    exact ⟨_, SMap.find?_ins_self _ _ _, rfl, List.mem_append_right _ (List.mem_singleton_self _),
      List.mem_append_right _ (List.mem_singleton_self _)⟩

end

/-! ### The free walker (R78) -/

/-- The walk that a miss has started or joined. -/
theorem find?_startWalk (s : State) (ctx core : Nat) (va : Word) (who : Waiter) :
    ∃ w, (startWalk s ctx core va who).1.m.walks.find? (startWalk s ctx core va who).2 = some w ∧ w.ctx = ctx ∧
      pageOf w.va = pageOf va ∧ who ∈ w.waiters := by
  unfold startWalk
  split
  · next i w found =>
    have names := List.find?_some found
    simp only [Bool.and_eq_true, beq_iff_eq] at names
    exact ⟨_, SMap.find?_ins_self _ _ _, names.1, names.2, List.mem_append_right _ (List.mem_singleton_self _)⟩
  · exact ⟨_, SMap.find?_ins_self _ _ _, rfl, rfl, List.mem_singleton_self _⟩

/-- Only walks and the next number change. -/
theorem startWalk_eq (s : State) (ctx core : Nat) (va : Word) (who : Waiter) :
    ∃ ws n, (startWalk s ctx core va who).1 = { s with c := { s.c with nextId := n }, m := { s.m with walks := ws } } := by
  unfold startWalk
  split <;> exact ⟨_, _, rfl⟩

/-- The misses of a cluster that still wait. -/
def liveMisses (s : State) (cl : Nat) : List WalkReq := (s.m.walkq.getD [] cl).filter (stillWaits s)

/-- The `i`-th cluster in turn of a die. -/
def turnCluster (s : State) (die i : Nat) : Nat := die * 4 + (s.m.walkRr.getD 3 die + 1 + i) % 4

theorem serveWalk_of_idle {s : State} {die : Nat} (h : ∀ i, i < 4 → liveMisses s (turnCluster s die i) = []) :
    serveWalk s die = s := by
  have nobody : (walkOrder s die).find? (fun cl => !(liveMisses s cl).isEmpty) = none := by
    rw [List.find?_eq_none]
    intro cl hcl
    obtain ⟨i, hi, rfl⟩ := List.mem_map.1 hcl
    have idle : liveMisses s (die * 4 + (s.m.walkRr.getD 3 die + 1 + i) % 4) = [] := h i (List.mem_range.1 hi)
    simp [idle]
  unfold serveWalk
  dsimp only
  unfold liveMisses at nobody
  rw [nobody]

/-- The miss that a walker takes: its walk starts or is joined, and its path waits for that walk. -/
def takeMiss (s : State) (die cl : Nat) (r : WalkReq) (rest : List WalkReq) : State :=
  let s1 : State := { s with m := { s.m with walkq := s.m.walkq.ins cl rest, walkRr := s.m.walkRr.ins die (cl % 4) } }
  let w := startWalk s1 r.ctx r.core r.va r.who
  match r.who with
  | .path p => updPath w.1 p (fun q => { q with wait := some (.walk w.2) })
  | .cmd _ => w.1

theorem serveWalk_of_live {s : State} {die i : Nat} {r : WalkReq} {rest : List WalkReq} (hi : i < 4)
    (before : ∀ j, j < i → liveMisses s (turnCluster s die j) = []) (h : liveMisses s (turnCluster s die i) = r :: rest) :
    serveWalk s die = takeMiss s die (turnCluster s die i) r rest := by
  have next : (walkOrder s die).find? (fun cl => !(liveMisses s cl).isEmpty) = some (turnCluster s die i) := by
    show ((List.range 4).map (turnCluster s die)).find? _ = _
    rw [List.find?_map, List.find?_range_eq_some.2 ⟨by simp [h], List.mem_range.2 hi, fun j hj => by simp [before j hj]⟩]
    rfl
  unfold serveWalk
  dsimp only
  unfold liveMisses at next h
  rw [next]
  dsimp only
  rw [h]
  rfl

theorem takeMiss_serves (s : State) (die cl : Nat) (r : WalkReq) (rest : List WalkReq) (waits : stillWaits s r = true) :
    let u := takeMiss s die cl r rest
    u.m.walkq.getD [] cl = rest ∧ u.m.walkRr.getD 3 die = cl % 4 ∧ u.m.mem = s.m.mem ∧ u.x.vals = s.x.vals ∧
      ∃ k w, u.m.walks.find? k = some w ∧ w.ctx = r.ctx ∧ pageOf w.va = pageOf r.va ∧ r.who ∈ w.waiters ∧
        ∀ p, r.who = Waiter.path p → (pathAt u p).wait = some (.walk k) := by
  intro u
  let s1 : State := { s with m := { s.m with walkq := s.m.walkq.ins cl rest, walkRr := s.m.walkRr.ins die (cl % 4) } }
  let v := startWalk s1 r.ctx r.core r.va r.who
  obtain ⟨ws, n, started⟩ := startWalk_eq s1 r.ctx r.core r.va r.who
  obtain ⟨w, hw, ctx, page, who⟩ := find?_startWalk s1 r.ctx r.core r.va r.who
  have m : u.m = v.1.m := by
    simp only [u, takeMiss]
    split <;> rfl
  have vals : u.x.vals = v.1.x.vals := by
    simp only [u, takeMiss]
    split <;> rfl
  have vm : v.1.m = { s1.m with walks := ws } := by simp only [v, started]
  have vx : v.1.x = s.x := by simp only [v, started]; rfl
  refine ⟨?_, ?_, ?_, by rw [vals, vx], v.2, w, by rw [m]; exact hw, ctx, page, who, fun p hp => ?_⟩
  · rw [m, vm]
    simp [s1, SMap.getD, SMap.find?_ins_self]
  · rw [m, vm]
    simp [s1, SMap.getD, SMap.find?_ins_self]
  · rw [m, vm]
  · have listed : ∃ q, s.x.paths.find? p = some q := by
      cases found : s.x.paths.find? p with
      | some q => exact ⟨q, rfl⟩
      | none => simp [stillWaits, hp, pathAt, SMap.getD, found, pathZero] at waits
    obtain ⟨q, hq⟩ := listed
    have path : u = updPath v.1 p (fun q => { q with wait := some (.walk v.2) }) := by simp only [u, takeMiss, hp]; simp only [v, hp]; rfl
    rw [path, pathAt_of_find? (find?_updPath_self _ (show v.1.x.paths.find? p = some q by rw [vx]; exact hq))]

end Sys2Proof.Machine
end

section
/-!
SUPPORT. O43: the events of walks and of queued faults, and federated faults (R86, R362, R363).
-/
namespace Sys2Proof.Machine

/-! ### Walks that end (R77, R78, R89) -/

section
variable {s : State} {die n : Nat} {w : Walk} (hw : s.m.walks.find? n = some w) (hd : w.die = die)
include hw hd

theorem walkComplete_of_stale (stale : w.stale = true) :
    exec (.walkComplete die n) s = .next (setWalks s (s.m.walks.ins n { w with stale := false })) := by
  simp [exec_walkComplete, execWalkComplete, hw, hd, stale]

theorem walkComplete_of_full {kind owner : Nat} (fresh : w.stale = false) (fault : cachedWalk s w.ctx w.va = .fault kind owner)
    (full : faultFits s w.ctx w.va = false) : exec (.walkComplete die n) s = .next s := by
  simp [exec_walkComplete, execWalkComplete, hw, hd, fresh, fault, full]

theorem walkComplete_of_leaf {e : Word} {lg : Nat} (rising : s.m.walks.risingFrom 0 = true) (fresh : w.stale = false)
    (leaf : cachedWalk s w.ctx w.va = .leaf e lg) :
    ∃ t, exec (.walkComplete die n) s = .next (serveWalk t die) ∧
      t.m.walks.find? n = none ∧ t.m.mem = s.m.mem ∧ KeptBut s t w.waiters ∧
      tlbFind t w.core w.ctx w.va = some { ctx := w.ctx, va := w.va.toNat / 2 ^ lg * 2 ^ lg, lg := lg, leaf := e } ∧
      (∀ p q, Waiter.path p ∈ w.waiters → s.x.paths.find? p = some q → (pathAt t p).wait = none ∧ (pathAt t p).pc = q.pc) ∧
      ∀ i k, Waiter.cmd i ∈ w.waiters → s.e.cmds.find? i = some k → ∃ k, t.e.cmds.find? i = some k ∧
        ({ page := w.va.toNat / 2 ^ lg * 2 ^ lg / 65536, lg := lg, leaf := e } : BxPage) ∈ k.pages := by
  let b := walkStart s w.ctx w.va
  let s2 := wcacheFill (setWalks s (s.m.walks.del n)) die (walkTables s die w.ctx w.va b.1 b.2)
  let s3 := tlbFill s2 w.core { ctx := w.ctx, va := w.va.toNat / 2 ^ lg * 2 ^ lg, lg := lg, leaf := e }
  obtain ⟨ps, cs, us, leafGiven⟩ := giveLeaf_eq s3 w.ctx w.va lg e w.waiters
  refine ⟨giveLeaf s3 w.ctx w.va lg e w.waiters, ?run, ?gone, ?mem, ?kept, ?tlb, fun p q hp hq => ?_, fun i k hi hk => ?_⟩
  case run => simp [exec_walkComplete, execWalkComplete, hw, hd, fresh, leaf, s3, s2, b]
  case gone =>
    rw [leafGiven]
    exact SMap.find?_del_self _ rising
  case mem => rw [leafGiven]; rfl
  case kept => exact (keptBut_of_eq (s := s) (u := s3) rfl rfl _).trans (keptBut_giveLeaf s3 w.ctx w.va lg e w.waiters)
  case tlb =>
    rw [leafGiven]
    exact tlbFind_tlbFill s2 w.core w.ctx w.va lg e
  · obtain ⟨q', hq', wait, -, pc⟩ := find?_giveLeaf_path (s := s3) w.ctx w.va lg e hp hq
    rw [pathAt_of_find? hq']
    exact ⟨wait, pc⟩
  · exact find?_giveLeaf_cmd (s := s3) w.ctx w.va lg e hi hk

theorem walkComplete_of_fault {kind owner : Nat} (rising : s.m.walks.risingFrom 0 = true) (fresh : w.stale = false)
    (fault : cachedWalk s w.ctx w.va = .fault kind owner) (fits : faultFits s w.ctx w.va = true) :
    ∃ t, exec (.walkComplete die n) s = .next (serveWalk t die) ∧
      t.m.walks.find? n = none ∧ t.m.mem = s.m.mem ∧ KeptBut s t w.waiters ∧
      ((∃ p, Waiter.path p ∈ w.waiters) → ∃ fid f, t.m.faults.find? fid = some f ∧ f.ctx = w.ctx ∧ pageOf f.va = pageOf w.va ∧
        (faultFor s w.ctx w.va = none → f.kind = kind ∧ f.owner = owner ∧ f.die = w.ctx / 64) ∧
        (∀ p, Waiter.path p ∈ w.waiters → Waiter.path p ∈ f.waiters) ∧
        ∀ p q, Waiter.path p ∈ w.waiters → s.x.paths.find? p = some q → (pathAt t p).wait = some (.fault fid)) ∧
      ∀ i k, Waiter.cmd i ∈ w.waiters → s.e.cmds.find? i = some k → ∃ x, t.e.cmds.find? i = some x ∧
        (w.va, kind, owner) ∈ x.faults ∧ Instr.bxCommandPark k.core i ∈ t.c.agenda := by
  let s0 := setWalks s (s.m.walks.del n)
  obtain ⟨s1, fid, folded, ⟨fs, next, queued⟩, entry⟩ := giveFault_eq_foldl s0 w.ctx w.va kind owner w.waiters
  obtain ⟨ps, cs, ag, waiting⟩ := foldl_faultOne_eq s1 w.va kind owner fid w.waiters
  have x : s1.x = s.x := by rw [queued]; rfl
  have cmds : s1.e.cmds = s.e.cmds := by rw [queued]; rfl
  have m : (giveFault s0 w.ctx w.va kind owner w.waiters).m = s1.m := by rw [folded, waiting]
  have walks : s1.m.walks = s.m.walks.del n := by rw [queued]; rfl
  have mem : s1.m.mem = s.m.mem := by rw [queued]; rfl
  refine ⟨giveFault s0 w.ctx w.va kind owner w.waiters, ?run, ?gone, ?mem, ?kept, fun hp => ?_, fun i k hi hk => ?_⟩
  case run => simp [exec_walkComplete, execWalkComplete, hw, hd, fresh, fault, fits, s0]
  case gone =>
    rw [m, walks]
    exact SMap.find?_del_self _ rising
  case mem => rw [m, mem]
  case kept =>
    rw [folded]
    exact (keptBut_of_eq x cmds _).trans (keptBut_foldl_faultOne s1 w.va kind owner fid w.waiters)
  · obtain ⟨f, hf, ctx, page, new, waits⟩ := entry hp
    refine ⟨fid, f, by rw [m]; exact hf, ctx, page, new, waits, fun p q hp hq => ?_⟩
    rw [folded]
    obtain ⟨q', hq', wait⟩ := find?_foldl_faultOne_path (s := s1) w.va kind owner fid hp (by rw [x]; exact hq)
    rw [pathAt_of_find? hq', wait]
  · rw [folded]
    obtain ⟨y, hy, -, noted, park⟩ := noted_foldl_faultOne (s := s1) w.va kind owner fid hi (by rw [cmds]; exact hk)
    exact ⟨y, hy, noted, park⟩

end

/-! ### What the kernel writes for a peer leaf (R86) -/

/-- Only memory and what the dies keep change. -/
def KernelOnly (s t : State) : Prop := ∃ mem dies, t = { s with m := { s.m with mem := mem }, h := { s.h with dies := dies } }

theorem KernelOnly.refl (s : State) : KernelOnly s s := ⟨_, _, rfl⟩

theorem KernelOnly.trans {s t u : State} (h : KernelOnly s t) (h' : KernelOnly t u) : KernelOnly s u := by
  obtain ⟨mem, dies, rfl⟩ := h
  obtain ⟨mem', dies', rfl⟩ := h'
  exact ⟨_, _, rfl⟩

theorem KernelOnly.keeps {s t : State} (h : KernelOnly s t) :
    t.x = s.x ∧ t.e.cmds = s.e.cmds ∧ t.m.faults = s.m.faults := by
  obtain ⟨mem, dies, rfl⟩ := h
  exact ⟨rfl, rfl, rfl⟩

theorem kernelOnly_setDie (s : State) (d : Nat) (v : Die) : KernelOnly s (setDie s d v) := ⟨_, _, rfl⟩
theorem kernelOnly_writeMem (s : State) (a n v : Nat) : KernelOnly s (writeMem s a n v) := ⟨_, _, rfl⟩

theorem kernelOnly_fillTable8 (s : State) (die table level : Nat) (e : Nat → Word) : KernelOnly s (fillTable8 s die table level e) :=
  foldl_inv (KernelOnly s) _ (fun _ _ h => h.trans (kernelOnly_writeMem _ _ _ _)) s _ (.refl s)

theorem kernelOnly_takeBlock {s t : State} {die b : Nat} (h : takeBlock s die = some (t, b)) : KernelOnly s t := by
  unfold takeBlock at h
  dsimp only at h
  split at h
  · simp only [Option.some.injEq, Prod.mk.injEq] at h
    exact h.1 ▸ kernelOnly_setDie _ _ _
  · split at h
    · cases h
    · simp only [Option.some.injEq, Prod.mk.injEq] at h
      exact h.1 ▸ kernelOnly_setDie _ _ _

theorem kernelOnly_putEntry (die va target : Nat) (e : Word) (fuel : Nat) {table : Nat} {s t : State}
    (h : putEntry die va target e fuel table s = some t) : KernelOnly s t := by
  induction fuel generalizing table s with
  | zero => cases h
  | succ fuel ih =>
    unfold putEntry at h
    dsimp only at h
    split at h
    · exact Option.some.inj h ▸ kernelOnly_writeMem _ _ _ _
    · split at h
      · exact ih h
      · split at h
        · cases h
        · next s1 b taken =>
          exact (kernelOnly_takeBlock taken).trans
            ((kernelOnly_fillTable8 _ _ _ _ _).trans ((kernelOnly_writeMem _ _ _ _).trans (ih h)))

theorem kernelOnly_installPeer {s t : State} {f : QFault} (h : installPeer s f = some t) : KernelOnly s t := by
  unfold installPeer at h
  split at h
  · cases h
  · exact kernelOnly_putEntry _ _ _ _ _ h

theorem kernelOnly_runsRemotely (s : State) (f : QFault) : KernelOnly s (runsRemotely s f) :=
  foldl_inv (KernelOnly s) _ (fun _ _ h => h.trans (kernelOnly_setDie _ _ _)) s _ (.refl s)

/-! ### Gangs that move (R362) -/

/-- Beside fault entries and paths, the gang takes its target and its halt is due. -/
theorem sendAway_eq (f : QFault) (n : Nat) (s : State) (g : Nat) : ∃ fs ps, sendAway f n s g =
    { s with c := { s.c with agenda := s.c.agenda ++ [.halt g .migrate] }, m := { s.m with faults := fs },
             x := { s.x with paths := ps, gangs := s.x.gangs.upd g (fun q => { q with target := some (f.owner, f.va) }) } } := by
  unfold sendAway
  extract_lets mine s1
  obtain ⟨ps, woken⟩ := wakePaths_eq (setFaults s (s.m.faults.upd n
    (fun q => { q with waiters := q.waiters.filter (fun w => !mine.contains w) }))) mine
  rw [show s1 = _ from woken]
  exact ⟨_, _, rfl⟩

/-- A path is woken, with those of its gang, or left as it is. -/
theorem find?_sendAway_path (f : QFault) (n : Nat) {s : State} (g : Nat) {p : Nat} {q : Path} (hq : s.x.paths.find? p = some q) :
    ∃ q', (sendAway f n s g).x.paths.find? p = some q' ∧
      (q' = q ∧ ¬ (.path p ∈ f.waiters ∧ (warpAt s (warpOfPath p)).gang = g) ∨ Woken q q') := by
  let mine := f.waiters.filter (ofGang s g)
  let s0 := setFaults s (s.m.faults.upd n (fun q => { q with waiters := q.waiters.filter (fun w => !mine.contains w) }))
  show ∃ q', (wakePaths s0 mine).x.paths.find? p = some q' ∧ _
  by_cases member : .path p ∈ mine
  · obtain ⟨q', hq', woken⟩ := find?_wakePaths (s := s0) member hq
    exact ⟨q', hq', .inr woken⟩
  · obtain ⟨-, -, -, paths, -⟩ := keptBut_wakePaths s0 mine
    refine ⟨q, (paths p member).trans hq, .inl ⟨rfl, fun ⟨waits, gang⟩ => member (List.mem_filter.2 ⟨waits, ?_⟩)⟩⟩
    exact beq_iff_eq.2 gang

theorem isSome_of_moves {s : State} {f : QFault} {g : Nat} (h : moves s f g = true) : ∃ q, s.x.gangs.find? g = some q := by
  cases found : s.x.gangs.find? g with
  | some q => exact ⟨q, rfl⟩
  | none =>
    have rest : gangAt s g = gangZero := by simp [gangAt, SMap.getD, found]
    simp [moves, rest, gangZero] at h

section
variable (f : QFault) (n : Nat) (s : State) {gs : List Nat} {g : Nat} (hg : g ∈ gs)

theorem foldl_sendAway_vals (gs : List Nat) : (gs.foldl (sendAway f n) s).x.vals = s.x.vals :=
  foldl_keeps (·.x.vals) _ (fun t g => by obtain ⟨fs, ps, sent⟩ := sendAway_eq f n t g; rw [sent]) s gs

include hg

/-- A gang that is sent away has the owner as its target. -/
theorem target_foldl_sendAway (listed : ∃ q, s.x.gangs.find? g = some q) :
    (gangAt (gs.foldl (sendAway f n) s) g).target = some (f.owner, f.va) := by
  obtain ⟨q, hq⟩ := listed
  have sent : ∃ q', (gs.foldl (sendAway f n) s).x.gangs.find? g = some q' ∧ q'.target = some (f.owner, f.va) := by
    refine find?_foldl (look := fun t => t.x.gangs.find? g) (R := fun _ q' => q'.target = some (f.owner, f.va)) (fun _ h => h)
      (fun t k hk => ?_) (fun t a ha => ?_) hg hq
    · obtain ⟨fs, ps, sent⟩ := sendAway_eq f n t k
      rw [sent]
      exact SMap.find?_upd_ne _ _ (Ne.symm hk)
    · obtain ⟨fs, ps, sent⟩ := sendAway_eq f n t g
      rw [sent]
      exact ⟨_, (SMap.find?_upd_self _ _ _).trans (congrArg _ ha), rfl⟩
  obtain ⟨q', hq', target⟩ := sent
  simp [gangAt, SMap.getD, hq', target]

/-- Its halt is due. -/
theorem halt_mem_foldl_sendAway : Instr.halt g .migrate ∈ (gs.foldl (sendAway f n) s).c.agenda := by
  have agenda : ∀ t k, (sendAway f n t k).c.agenda = t.c.agenda ++ [.halt k .migrate] := fun t k => by
    obtain ⟨fs, ps, sent⟩ := sendAway_eq f n t k
    rw [sent]
  exact foldl_reaches (Q := fun _ => True) (P := fun t => Instr.halt g .migrate ∈ t.c.agenda) (fun _ _ _ => trivial)
    (fun t k h => by rw [agenda]; exact List.mem_append_left _ h)
    (fun t _ => by rw [agenda]; exact List.mem_append_right _ (List.mem_singleton_self _)) hg trivial

/-- Its paths that waited for the fault do no longer, and stand where they stood. -/
theorem woken_foldl_sendAway {p : Nat} {q : Path} (hp : .path p ∈ f.waiters) (hq : s.x.paths.find? p = some q)
    (gang : (warpAt s (warpOfPath p)).gang = g) :
    (pathAt (gs.foldl (sendAway f n) s) p).wait = none ∧ (pathAt (gs.foldl (sendAway f n) s) p).pc = q.pc := by
  have warps : ∀ t k, (sendAway f n t k).x.warps = t.x.warps := fun t k => by
    obtain ⟨fs, ps, sent⟩ := sendAway_eq f n t k
    rw [sent]
  have woken : ∃ q', (gs.foldl (sendAway f n) s).x.paths.find? p = some q' ∧ q'.wait = none ∧ q'.pc = q.pc := by
    refine foldl_reaches (Q := fun t => t.x.warps = s.x.warps ∧ ∃ q', t.x.paths.find? p = some q' ∧ q'.pc = q.pc)
      (P := fun t => ∃ q', t.x.paths.find? p = some q' ∧ q'.wait = none ∧ q'.pc = q.pc) ?listed ?stays ?gain hg ⟨rfl, q, hq, rfl⟩
    case listed =>
      rintro t k ⟨same, q1, h1, pc1⟩
      obtain ⟨q2, h2, ⟨rfl, -⟩ | ⟨-, -, pc2⟩⟩ := find?_sendAway_path f n k h1
      · exact ⟨(warps t k).trans same, q2, h2, pc1⟩
      · exact ⟨(warps t k).trans same, q2, h2, pc2.trans pc1⟩
    case stays =>
      rintro t k ⟨q1, h1, wait1, pc1⟩
      obtain ⟨q2, h2, ⟨rfl, -⟩ | ⟨wait2, -, pc2⟩⟩ := find?_sendAway_path f n k h1
      · exact ⟨q2, h2, wait1, pc1⟩
      · exact ⟨q2, h2, wait2, pc2.trans pc1⟩
    case gain =>
      rintro t ⟨same, q1, h1, pc1⟩
      obtain ⟨q2, h2, ⟨-, apart⟩ | ⟨wait2, -, pc2⟩⟩ := find?_sendAway_path f n g h1
      · exact absurd ⟨hp, by simpa only [warpAt, same] using gang⟩ apart
      · exact ⟨q2, h2, wait2, pc2.trans pc1⟩
  obtain ⟨q', hq', wait, pc⟩ := woken
  rw [pathAt_of_find? hq']
  exact ⟨wait, pc⟩

end

/-! ### The kernel's events (R86, R88, R362) -/

section
variable {s : State} {die n : Nat} {f : QFault} (hf : faultAt s die n = some f)
include hf

theorem faultResolved_of_other (kind : f.kind ≠ 2) : exec (.faultResolved die n) s = .next s := by
  simp only [exec_faultResolved, execFaultResolved, hf]
  split
  · next h _ => exact absurd h kind
  · rfl

theorem faultResolved_of_mapped {e : Word} {lg : Nat} (kind : f.kind = 2) (leaf : walkVa s f.ctx f.va = .leaf e lg) :
    exec (.faultResolved die n) s = .next (resolveFault s n f) := by
  simp only [exec_faultResolved, execFaultResolved, hf, kind, leaf]

theorem faultFailed_loses : exec (.faultFailed die n) s = .next (loseFault s n f) := by
  simp only [exec_faultFailed, execFaultFailed, hf]

theorem federatedFaultService_of_unlinked (kind : f.kind = 3) (apart : linked s die f.owner = false) :
    exec (.federatedFaultService die n) s = .next s := by
  simp [exec_federatedFaultService, execFederatedFaultService, hf, kind, apart]

theorem federatedFaultService_of_moves (kind : f.kind = 3) (link : linked s die f.owner = true)
    (moving : ∃ g ∈ faultGangs s f, moves s f g = true) :
    exec (.federatedFaultService die n) s = .next (enqueue s (.migration die n)) := by
  have somebody : (faultGangs s f).any (moves s f) = true := List.any_eq_true.2 moving
  simp [exec_federatedFaultService, execFederatedFaultService, hf, kind, link, somebody]

section
variable (kind : f.kind = 3) (link : linked s die f.owner = true) (staying : ∀ g ∈ faultGangs s f, moves s f g = false)
include kind link staying

theorem federatedFaultService_of_peer {t : State} (peer : installPeer (runsRemotely s f) f = some t) :
    exec (.federatedFaultService die n) s = .next (resolveFault t n f) := by
  have nobody : (faultGangs s f).any (moves s f) = false := List.any_eq_false.2 fun g hg => by simp [staying g hg]
  simp [exec_federatedFaultService, execFederatedFaultService, hf, kind, link, nobody, peer]

theorem federatedFaultService_of_no_peer (lost : installPeer (runsRemotely s f) f = none) :
    exec (.federatedFaultService die n) s = .next (loseFault (runsRemotely s f) n f) := by
  have nobody : (faultGangs s f).any (moves s f) = false := List.any_eq_false.2 fun g hg => by simp [staying g hg]
  simp [exec_federatedFaultService, execFederatedFaultService, hf, kind, link, nobody, lost]

end

/-- The gangs that stay are served by a peer leaf, or fail. -/
theorem federatedFaultService_serves (rising : s.m.faults.risingFrom 0 = true) (kind : f.kind = 3)
    (link : linked s die f.owner = true) (staying : ∀ g ∈ faultGangs s f, moves s f g = false) :
    ∃ u, exec (.federatedFaultService die n) s = .next u ∧
      (∀ t, installPeer (runsRemotely s f) f = some t → u.m.mem = t.m.mem ∧ Served s n u f.waiters) ∧
      (installPeer (runsRemotely s f) f = none → u.m.mem = s.m.mem ∧ Failed s n u f) := by
  cases installed : installPeer (runsRemotely s f) f with
  | some t =>
    refine ⟨_, federatedFaultService_of_peer hf kind link staying installed, fun t' ht => ?_, fun h => by cases h⟩
    obtain ⟨x, cmds, faults⟩ := ((kernelOnly_runsRemotely s f).trans (kernelOnly_installPeer installed)).keeps
    rw [← Option.some.inj ht]
    exact ⟨resolveFault_mem _ _ _, served_resolveFault x cmds (by rw [faults]; exact rising) f⟩
  | none =>
    refine ⟨_, federatedFaultService_of_no_peer hf kind link staying installed, fun _ ht => absurd ht (by simp), fun _ => ?_⟩
    obtain ⟨x, cmds, faults⟩ := (kernelOnly_runsRemotely s f).keeps
    exact ⟨(loseFault_mem _ _ _).trans (runsRemotely_mem s f), failed_loseFault x cmds (by rw [faults]; exact rising) f⟩

/-- A migration sends away the gangs that move, and then looks at who else waits. -/
theorem migration_sends : ∃ u, exec (.migration die n) s = .next u ∧
    (let s1 := ((faultGangs s f).filter (moves s f)).foldl (sendAway f n) s
     u.m.mem = s1.m.mem ∧ u.x = s1.x ∧ ∀ i ∈ s1.c.agenda, i ∈ u.c.agenda) := by
  simp only [exec_migration, execMigration, hf]
  refine ⟨_, rfl, ?_⟩
  split
  · exact ⟨rfl, rfl, fun _ h => h⟩
  · split
    · exact ⟨rfl, rfl, fun _ h => h⟩
    · exact ⟨rfl, rfl, fun _ h => List.mem_append_left _ h⟩

theorem migration_halts : ∃ u, exec (.migration die n) s = .next u ∧ u.m.mem = s.m.mem ∧ u.x.vals = s.x.vals ∧
    ∀ g ∈ faultGangs s f, moves s f g = true → (gangAt u g).target = some (f.owner, f.va) ∧ Instr.halt g .migrate ∈ u.c.agenda ∧
      ∀ p q, Waiter.path p ∈ f.waiters → s.x.paths.find? p = some q → (warpAt s (warpOfPath p)).gang = g →
        (pathAt u p).wait = none ∧ (pathAt u p).pc = q.pc := by
  obtain ⟨u, ran, mem, x, agenda⟩ := migration_sends hf
  refine ⟨u, ran, mem.trans (foldl_mem fun t g => sendAway_mem f n t g), by rw [x, foldl_sendAway_vals], fun g hg moving => ?_⟩
  have sent : g ∈ (faultGangs s f).filter (moves s f) := List.mem_filter.2 ⟨hg, moving⟩
  refine ⟨?_, agenda _ (halt_mem_foldl_sendAway f n s sent), fun p q hp hq gang => ?_⟩
  · simp only [gangAt, x]
    exact target_foldl_sendAway f n s sent (isSome_of_moves moving)
  · simp only [pathAt, x]
    exact woken_foldl_sendAway f n s sent hp hq gang

end

/-- Settles O43: a walk that ends, the free walker, and each event of the kernel by its lemma. -/
theorem queuedFaultsAreResolvedOrFailed : Obligations.QueuedFaultsAreResolvedOrFailed := by
  intro die n s faults walks paths cmds kept served failed
  refine ⟨fun w hw hd => ⟨walkComplete_of_stale hw hd, ?leaf, ?fault⟩, ?walker,
    fun f hf => ⟨faultResolved_of_other hf, ?mapped, ?lost, federatedFaultService_of_unlinked hf, federatedFaultService_of_moves hf, federatedFaultService_serves hf faults,
    migration_halts hf⟩⟩
  case leaf => exact fun e lg fresh leaf => walkComplete_of_leaf hw hd walks fresh leaf
  case fault =>
    exact fun kind owner fresh fault => ⟨walkComplete_of_full hw hd fresh fault, walkComplete_of_fault hw hd walks fresh fault⟩
  case mapped =>
    exact fun e lg kind leaf => ⟨_, faultResolved_of_mapped hf kind leaf, resolveFault_mem s n f, resolveFault_h s n f,
      served_resolveFault rfl rfl faults f⟩
  case lost => exact ⟨_, faultFailed_loses hf, loseFault_mem s n f, loseFault_h s n f, failed_loseFault rfl rfl faults f⟩
  case walker =>
    intro live cl
    refine ⟨serveWalk_of_idle, fun i r rest hi before next => ?_⟩
    have waits : stillWaits s r = true := (List.mem_filter.1 (show r ∈ live (cl i) from next ▸ List.mem_cons_self)).2
    rw [serveWalk_of_live hi before next]
    exact takeMiss_serves s die _ r rest waits

end Sys2Proof.Machine
end

section
/-!
SUPPORT. O44: a copy command whose shape record breaks R95. ESIZE code 4 stands for elements of 16 bytes, which no shape register can hold
(R95), but the statement speaks of every command. An element moves as a value of 64 bits, so that its upper 8 bytes come out zero.
-/
namespace Sys2Proof.Machine

/-- A box of no dimension, one element, with ESIZE code 4: 16 bytes. -/
def wideShape : BitVec 1024 := BitVec.ofNat 1024 (4 * 2 ^ 8)

/-- The copy of that element from virtual 0x10000 to scratch address 0. -/
def wideCopy : CopyOp :=
  { kind := .copy, shape := wideShape, near := .scr 0, far := .virt false 0x10000, toNear := true, coords := [], value := 0, list := 0 }

/-- The command of that copy, which has started and holds the page, mapped to physical 0. -/
def wideCmd : Cmd :=
  { cmdZero with
    engine := 2, started := true, body := .copy .copy wideShape (.scr 0) (.virt false 0x10000) true [] 0 0
    pages := [{ page := 1, lg := 16, leaf := 0x7 }] }

/-- The package at reset but for that command, a workgroup of 512 bytes, and a 1 in byte 8 of the element's source. -/
def wideState : State := writeByte (setWg (setCmd State.reset 0 wideCmd) 0 { wgZero with size := 512 }) 8 1

theorem shSize_wideShape : shSize wideShape = 16 := by decide +kernel

/-- The element that is moved. -/
def wideElem : Elem := { near := 0, va := 0x10000, skip := false, dead := false, chk := .loc (.mem 0 0) }

theorem canonical_wideState : Canonical wideState := by decide +kernel

theorem unitOf_wideState : unitOf wideState wideCmd wideCopy 0 = [wideElem] := by decide +kernel

/-- What a scratchpad word of core 0 holds after an event. -/
def scrAfter (o : Out) (pa n : Nat) : Option Nat := match o with
  | .next u => some (scrRead u 0 pa n)
  | _ => none

/-- The source holds 2^64, and the event leaves 0 in the scratchpad. -/
theorem chunkFull_wideState :
    readMem wideState 0 16 = 2 ^ 64 ∧ scrAfter (exec (.chunkFull 0 0 0) wideState) 0 16 = some 0 := by decide +kernel

/-- Refutes O44, whose premises leave out R95: the unit of `wideCmd` moves an element of 16 bytes without its upper half. -/
theorem not_blockCommandsStartMoveAndComplete : ¬ Obligations.BlockCommandsStartMoveAndComplete := by
  unfold Obligations.BlockCommandsStartMoveAndComplete
  intro h
  obtain ⟨-, running, -⟩ := h 0 0 wideState canonical_wideState (by decide +kernel)
  obtain ⟨-, moves, -⟩ := running wideCmd wideCopy (by decide +kernel) (by decide +kernel)
  have units := unitOf_wideState
  obtain ⟨t, k1, ran, -, -, -, -, -, written, -⟩ := moves 0 0 0 rfl (by decide +kernel) (by decide +kernel) (by decide +kernel)
    (by decide +kernel) (by decide +kernel) (by decide +kernel) (by decide +kernel) rfl (by decide +kernel)
    (by
      intro x hx
      rw [unitOf_wideState, List.mem_singleton] at hx
      subst hx
      exact .inr (.inr ⟨0, 0, rfl, by decide +kernel⟩))
    (by rw [unitOf_wideState]; exact List.pairwise_singleton ..)
  have held := written (by decide) wideElem (by rw [unitOf_wideState]; exact List.mem_singleton.2 rfl) rfl
  simp only [wideCopy, shSize_wideShape, wideElem, Bool.false_eq_true, if_false, chunkFull_wideState.1] at held
  have left : scrAfter (.next t) 0 16 = some 0 := ran ▸ chunkFull_wideState.2
  rw [scrAfter, held] at left
  exact absurd left (by decide)

end Sys2Proof.Machine
end

section
/-!
SUPPORT. O32: an entry in a queue whose number has not been given out. Entries take their numbers in order (R101), so that those in the
queues lie below the next number, but the premises bound only the numbers that name the token values. A `tok.all` takes that entry,
and the entry it reserves has its number.
-/
namespace Sys2Proof.Machine

/-- A `tok.all` of one token, that of value 0. -/
def joinOne : PForm := { ty := 10, md := 0, a := .back 0, b := .none, c := .none, ext := [] }

/-- A path of one lane before a word; entry 1, filled, of the token that is named by 0, stands in tq.11, and 1 is the next number. -/
def unnumbered : State :=
  let entry : Entry := { entryZero with prod := 1, cons := 1, filled := true }
  let span := BitVec.ofNat 1024 (2 ^ (8 * 40))
  let s := setLaunch (placeWords State.reset [0]) 0 { launchZero with record := span }
  { setPair (setEntry s 1 entry) 0 1 1 { hw := [1], ring := [] } with c := { s.c with nextId := 1 } }

/-- What the path of `unnumbered` sees. -/
def joinCtx : Ctx := ctxOf unnumbered 0

/-- The state in which the token's entry is taken. -/
def carried : State := carryToks unnumbered joinCtx (.p joinOne) (tokInputs (.p joinOne)) 1

theorem issues_unnumbered : Issues unnumbered (.p joinOne) joinCtx ∧ Canonical unnumbered := by decide +kernel

/-- Its one lane names token 0, whose entry 1 is filled. -/
theorem lanes_unnumbered : (pathMask unnumbered joinCtx.pid).lanes = [0] ∧
    tokVals unnumbered joinCtx (tokInputs (.p joinOne)) 0 = [0] ∧
    laneEntries carried joinCtx (tokInputs (.p joinOne)) 1 0 = [1] ∧ isFilled carried 1 = true := by decide +kernel

theorem spilled_unnumbered :
    spilled (takeAll carried joinCtx (.p joinOne) .tokAll [] (tokInputs (.p joinOne))) (coreOfWarp joinCtx.warp) ≤ 4096 := by
  decide +kernel

/-- The entries after an operation. -/
def entriesAfter (o : Out) : SMap Entry := match o with
  | .next u => u.e.entries
  | _ => []

/-- After the `tok.all` no entry is filled. -/
theorem tokAll_unnumbered : (entriesAfter (exec (.tokAll (.p joinOne)) unnumbered)).all (fun p => !p.2.filled) = true := by
  decide +kernel

theorem isFilled_of_none_filled {s : State} (h : s.e.entries.all (fun p => !p.2.filled) = true) (i : Nat) : isFilled s i = false := by
  unfold isFilled entryAt SMap.getD
  cases hi : s.e.entries.find? i with
  | none => rfl
  | some e => simpa using List.all_eq_true.1 h (i, e) (SMap.mem_of_find? hi)

/-- Refutes O32, whose premises do not say that the numbers of the entries in the queues have been given out: the `tok.all` in
`unnumbered` takes a filled entry, and the entry of its token is not filled. -/
theorem not_tokensAreReadPoppedAndJoined : ¬ Obligations.TokensAreReadPoppedAndJoined := by
  rintro ⟨-, h⟩
  obtain ⟨issues, canonical⟩ := issues_unnumbered
  obtain ⟨lanes, names, takes, filled⟩ := lanes_unnumbered
  obtain ⟨portable, -⟩ := h unnumbered joinCtx canonical (by decide +kernel)
  obtain ⟨-, joined⟩ := portable joinOne issues (by decide +kernel) (by
    intro l hl i hi
    rw [lanes, List.mem_singleton] at hl
    subst hl
    rw [names, List.mem_singleton] at hi
    subst hi
    refine ⟨by decide +kernel, fun j hj ne => absurd ?_ ne⟩
    rw [lanes] at hj
    exact List.mem_singleton.1 hj)
  obtain ⟨u, ran, -, -, -, -, tokens⟩ := joined spilled_unnumbered
  obtain ⟨e, -, done, -⟩ := tokens 0 (by rw [lanes]; exact List.mem_singleton.2 rfl)
  obtain ⟨fills, -⟩ := done (by
    intro i hi
    have : i ∈ laneEntries carried joinCtx (tokInputs (.p joinOne)) 1 0 := hi
    rw [takes, List.mem_singleton] at this
    subst this
    exact filled)
  have none : u.e.entries.all (fun p => !p.2.filled) = true := by
    have := tokAll_unnumbered
    rwa [ran] at this
  rw [isFilled_of_none_filled none e] at fills
  cases fills

end Sys2Proof.Machine
end

section
/-!
SUPPORT. Token entries (R101, R117, R156, R421): what reserving, filling and settling entries leaves alone.
-/
namespace Sys2Proof.Machine

/-! ### The frame of the token operations -/

/-- `t` is `s` but for token entries, pair queues, commands, cached lines and the next number. -/
def TokensOnly (s t : State) : Prop := ∃ n ln en ps cs, t = { s with
  c := { s.c with nextId := n }, m := { s.m with lines := ln }, e := { s.e with entries := en, pairs := ps, cmds := cs } }

theorem TokensOnly.refl (s : State) : TokensOnly s s := ⟨_, _, _, _, _, rfl⟩

theorem TokensOnly.trans {s t u : State} (h : TokensOnly s t) (h' : TokensOnly t u) : TokensOnly s u := by
  obtain ⟨_, _, _, _, _, rfl⟩ := h
  obtain ⟨_, _, _, _, _, rfl⟩ := h'
  exact ⟨_, _, _, _, _, rfl⟩

theorem TokensOnly.x {s t : State} (h : TokensOnly s t) : t.x = s.x := by
  obtain ⟨_, _, _, _, _, rfl⟩ := h
  rfl

theorem tokensOnly_foldl {β : Type} {f : State → β → State} (h : ∀ t b, TokensOnly t (f t b)) (l : List β) (s : State) :
    TokensOnly s (l.foldl f s) :=
  foldl_inv (TokensOnly s) f (fun t b ht => ht.trans (h t b)) s l (.refl s)

theorem tokensOnly_foldl_fst {β γ : Type} {f : State × γ → β → State × γ} (h : ∀ a b, TokensOnly a.1 (f a b).1) (l : List β)
    (a : State × γ) : TokensOnly a.1 (l.foldl f a).1 :=
  List.foldlRecOn (motive := fun b => TokensOnly a.1 b.1) l f (.refl a.1) fun b hb c _ => hb.trans (h b c)

theorem tokensOnly_eraseEntry (s : State) (core i : Nat) : TokensOnly s (eraseEntry s core i) := by
  unfold eraseEntry
  dsimp only
  split
  · exact .refl s
  · exact ⟨_, _, _, _, _, rfl⟩

theorem tokensOnly_reserveTok (core : Nat) (e : Entry) (n : Nat) (s : State) (ids : List Nat) :
    TokensOnly s (reserveTok core e n s ids).1 := by
  induction n generalizing s ids with
  | zero => exact .refl s
  | succ n ih => exact TokensOnly.trans ⟨_, _, _, _, _, rfl⟩ (ih _ _)

theorem tokensOnly_reserveUses (core : Nat) (e : Entry) (u : Uses) (s : State) : TokensOnly s (reserveUses core e u s).1 :=
  tokensOnly_foldl_fst (fun _ _ => tokensOnly_reserveTok ..) _ (s, [])

/-- One `tq.push` of the translator: the state after it, and the entries with which it carries the token on. -/
def pushOne (c : Ctx) (lane : Nat) (s : State) (i : Nat) (u : Uses) (more : Bool) : State × List Nat :=
  let core := coreOfWarp c.warp
  let e := entryAt s i
  let all := !more && u.all (fun n => decide (n ≤ 3))
  let now : Uses := (List.range 6).map (fun y => min (useOf u y) (if y = 1 && !all then 2 else 3))
  let r := reserveUses core { e with prod := 1, carried := false, filled := false } now (eraseEntry s core i)
  let q := reserveTok core { e with prod := 1, cons := 1, carried := true, filled := false } (if all then 0 else 1) r.1 []
  let k : Cmd := { cmdZero with
    engine := 1, core := core, pid := c.pid, lane := lane, gang := c.gang, wg := (warpAt s c.warp).wg, body := .tokPush,
    pops := [.entry i], fills := r.2 ++ q.2, started := true, after := s.c.nextId }
  (setCmd (takeId q.1) q.1.c.nextId k, q.2)

/-- A fan-out is one `tq.push`, or one and a fan-out of an entry that it carries on. -/
theorem fanOut_succ (c : Ctx) (lane n : Nat) (s : State) (i : Nat) (u : Uses) (more : Bool) :
    fanOut c lane (n + 1) s i u more = (pushOne c lane s i u more).1 ∨
      ∃ j rest, fanOut c lane (n + 1) s i u more = fanOut c lane n (pushOne c lane s i u more).1 j rest more := by
  rw [fanOut]
  dsimp only
  split
  · split
    · exact .inr ⟨_, _, rfl⟩
    · exact .inl rfl
  · exact .inl rfl

/-- What every `tq.push` brings about, a fan-out does. -/
theorem fanOut_induct {R : State → State → Prop} (refl : ∀ s, R s s) (trans : ∀ s t u, R s t → R t u → R s u) {c : Ctx} {lane : Nat}
    {more : Bool} (one : ∀ s i u, R s (pushOne c lane s i u more).1) (n : Nat) (s : State) (i : Nat) (u : Uses) :
    R s (fanOut c lane n s i u more) := by
  induction n generalizing s i u with
  | zero => exact refl s
  | succ n ih =>
    rcases fanOut_succ c lane n s i u more with h | ⟨j, rest, h⟩ <;> rw [h]
    · exact one s i u
    · exact trans _ _ _ (one s i u) (ih _ j rest)

theorem tokensOnly_pushOne (c : Ctx) (lane : Nat) (s : State) (i : Nat) (u : Uses) (more : Bool) :
    TokensOnly s (pushOne c lane s i u more).1 :=
  (tokensOnly_eraseEntry ..).trans ((tokensOnly_reserveUses ..).trans ((tokensOnly_reserveTok ..).trans ⟨_, _, _, _, _, rfl⟩))

theorem tokensOnly_fanOut (c : Ctx) (lane n : Nat) (s : State) (i : Nat) (u : Uses) (more : Bool) :
    TokensOnly s (fanOut c lane n s i u more) :=
  fanOut_induct .refl (fun _ _ _ => .trans) (fun s i u => tokensOnly_pushOne c lane s i u more) n s i u

/-! ### Filling and settling -/

/-- What is filled in `s` is filled in `t`. -/
def FilledStays (s t : State) : Prop := ∀ i, isFilled s i = true → isFilled t i = true

theorem FilledStays.trans {s t u : State} (h : FilledStays s t) (h' : FilledStays t u) : FilledStays s u := fun i hi => h' i (h i hi)

theorem entryAt_setEntry (s : State) (i j : Nat) (e : Entry) :
    entryAt (setEntry s i e) j = if j = i then e else entryAt s j := by
  unfold entryAt setEntry SMap.getD
  split
  · next h => subst h; simp [SMap.find?_ins_self]
  · next h => simp [SMap.find?_ins_ne _ _ h]

/-- Filling one entry of `fillWith`. -/
def fillOne (e : Entry) (s : State) (i : Nat) : State :=
  let old := entryAt s i
  setEntry s i { old with filled := true, status := e.status, key := e.key, die := e.die, round := e.round, ident := e.ident,
                          won := e.won, wrote := e.wrote }

theorem fillWith_eq (s : State) (ids : List Nat) (e : Entry) : fillWith s ids e = ids.foldl (fillOne e) s := rfl

theorem isFilled_fillOne (e : Entry) (s : State) (i j : Nat) : isFilled (fillOne e s i) j = (decide (j = i) || isFilled s j) := by
  unfold isFilled fillOne
  simp only [entryAt_setEntry]
  split <;> simp [*]

theorem filledStays_fillOne (e : Entry) (s : State) (i : Nat) : FilledStays s (fillOne e s i) := fun j hj => by
  simp [isFilled_fillOne, hj]

theorem tokensOnly_fillWith (s : State) (ids : List Nat) (e : Entry) : TokensOnly s (fillWith s ids e) :=
  tokensOnly_foldl (fun _ _ => ⟨_, _, _, _, _, rfl⟩) ids s

theorem filledStays_fillWith (s : State) (ids : List Nat) (e : Entry) : FilledStays s (fillWith s ids e) :=
  foldl_inv (FilledStays s) (fillOne e) (fun t i ht => ht.trans (filledStays_fillOne e t i)) s ids fun _ => id

theorem control_fillWith (s : State) (ids : List Nat) (e : Entry) : (fillWith s ids e).c = s.c :=
  foldl_keeps (·.c) (fillOne e) (fun _ _ => rfl) s ids

/-- The entries that are to be filled are filled. -/
theorem isFilled_fillWith {s : State} {ids : List Nat} (e : Entry) {i : Nat} (hi : i ∈ ids) : isFilled (fillWith s ids e) i = true := by
  rw [fillWith_eq]
  exact foldl_reaches (Q := fun _ => True) (P := fun t => isFilled t i = true) (fun _ _ _ => trivial)
    (fun t j ht => filledStays_fillOne e t j i ht) (fun t _ => by simp [isFilled_fillOne]) hi trivial

theorem popAcquire_eq (s : State) (core : Nat) (ids : List Nat) : ∃ ln, popAcquire s core ids = setLines s ln := by
  unfold popAcquire dropWritten dropLines
  dsimp only
  split <;> split <;> exact ⟨_, rfl⟩

/-- What T takes and fills when one command settles. -/
theorem settle_step (P : State → Prop) (lines : ∀ s ln, P s → P (setLines s ln)) (fills : ∀ s ids e, P s → P (fillWith s ids e))
    (drops : ∀ (s : State) (i : Nat), P s → P { s with e := { s.e with cmds := s.e.cmds.del i } }) (n : Nat) {s : State} (hs : P s) :
    P (settle n s) := by
  induction n generalizing s with
  | zero => exact hs
  | succ n ih =>
    unfold settle
    split
    · exact hs
    · next i k _ =>
      refine ih (drops _ i (fills _ _ _ ?_))
      split
      · exact hs
      · obtain ⟨ln, h⟩ := popAcquire_eq s k.core (entryIds k.pops)
        rw [h]
        exact lines s ln hs

theorem tokensOnly_settle (n : Nat) (s : State) : TokensOnly s (settle n s) :=
  settle_step (TokensOnly s) (fun _ _ h => h.trans ⟨_, _, _, _, _, rfl⟩) (fun _ _ _ h => h.trans (tokensOnly_fillWith ..))
    (fun _ _ h => h.trans ⟨_, _, _, _, _, rfl⟩) n (.refl s)

theorem filledStays_settle (n : Nat) (s : State) : FilledStays s (settle n s) :=
  settle_step (FilledStays s) (fun _ _ h => h) (fun t ids e h => h.trans (filledStays_fillWith t ids e)) (fun _ _ h => h) n fun _ => id

theorem control_settle (n : Nat) (s : State) : (settle n s).c = s.c :=
  settle_step (fun t => t.c = s.c) (fun _ _ h => h) (fun _ _ _ h => (control_fillWith ..).trans h) (fun _ _ h => h) n rfl

theorem tokensOnly_fillTokens (s : State) (ids : List Nat) (e : Entry) : TokensOnly s (fillTokens s ids e) :=
  (tokensOnly_fillWith ..).trans (tokensOnly_settle ..)

theorem filledStays_fillTokens (s : State) (ids : List Nat) (e : Entry) : FilledStays s (fillTokens s ids e) :=
  FilledStays.trans (filledStays_fillWith s ids e) (filledStays_settle _ _)

theorem control_fillTokens (s : State) (ids : List Nat) (e : Entry) : (fillTokens s ids e).c = s.c :=
  (control_settle ..).trans (control_fillWith ..)

theorem isFilled_fillTokens {s : State} {ids : List Nat} (e : Entry) {i : Nat} (hi : i ∈ ids) :
    isFilled (fillTokens s ids e) i = true := filledStays_settle _ _ i (isFilled_fillWith e hi)

/-! ### Carried tokens -/

theorem tokensOnly_carryOne (c : Ctx) (lane y : Nat) (s : State) (g n : Nat) : TokensOnly s (carryOne c lane y s g n) := by
  unfold carryOne
  dsimp only
  split
  · exact .refl s
  · split
    · exact .refl s
    · exact tokensOnly_fanOut ..

theorem tokensOnly_carryToks (s : State) (c : Ctx) (f : Form) (toks : List Operand) (y : Nat) :
    TokensOnly s (carryToks s c f toks y) := by
  cases f with
  | n w => exact .refl s
  | p w =>
    exact (tokensOnly_foldl (fun _ _ => tokensOnly_foldl (fun _ _ => tokensOnly_carryOne ..) _ _) _ s).trans (tokensOnly_settle ..)

@[simp] theorem carryToks_x (s : State) (c : Ctx) (f : Form) (toks : List Operand) (y : Nat) : (carryToks s c f toks y).x = s.x :=
  (tokensOnly_carryToks s c f toks y).x

@[simp] theorem pathMask_carryToks (s : State) (c : Ctx) (f : Form) (toks : List Operand) (y pid : Nat) :
    pathMask (carryToks s c f toks y) pid = pathMask s pid := by simp [pathMask, pathAt]

end Sys2Proof.Machine
end

section
/-!
SUPPORT. The entries that a command reserves (R100, R101, R108, R421): they are new, and what has a number keeps it.
-/
namespace Sys2Proof.Machine

/-- From `s` to `t` the entries `ids` have been reserved: they are new and not filled, and every entry and command that had a number in
`s` is as it was. -/
structure Reserves (s t : State) (ids : List Nat) : Prop where
  only : TokensOnly s t
  later : s.c.nextId ≤ t.c.nextId
  entries : ∀ i, i < s.c.nextId → entryAt t i = entryAt s i
  cmds : ∀ i, i < s.c.nextId → t.e.cmds.find? i = s.e.cmds.find? i
  fresh : ∀ i ∈ ids, s.c.nextId ≤ i ∧ i < t.c.nextId ∧ isFilled t i = false

theorem Reserves.refl (s : State) : Reserves s s [] := ⟨.refl s, Nat.le_refl _, fun _ _ => rfl, fun _ _ => rfl, by simp⟩

theorem Reserves.trans {s t u : State} {a b : List Nat} (h : Reserves s t a) (h' : Reserves t u b) : Reserves s u (a ++ b) where
  only := h.only.trans h'.only
  later := Nat.le_trans h.later h'.later
  entries i hi := (h'.entries i (Nat.lt_of_lt_of_le hi h.later)).trans (h.entries i hi)
  cmds i hi := (h'.cmds i (Nat.lt_of_lt_of_le hi h.later)).trans (h.cmds i hi)
  fresh i hi := by
    rcases List.mem_append.1 hi with ha | hb
    · obtain ⟨lo, hi, un⟩ := h.fresh i ha
      exact ⟨lo, Nat.lt_of_lt_of_le hi h'.later, by rw [isFilled, h'.entries i hi]; exact un⟩
    · obtain ⟨lo, hi, un⟩ := h'.fresh i hb
      exact ⟨Nat.le_trans h.later lo, hi, un⟩

/-- Of the entries reserved some may be named. -/
theorem Reserves.subset {s t : State} {a b : List Nat} (h : Reserves s t a) (hb : ∀ i ∈ b, i ∈ a) : Reserves s t b :=
  { h with fresh := fun i hi => h.fresh i (hb i hi) }

/-- An operation that takes no number and changes neither entries nor commands. -/
theorem reserves_of_same {s t : State} (only : TokensOnly s t) (next : t.c = s.c) (entries : t.e.entries = s.e.entries)
    (cmds : t.e.cmds = s.e.cmds) : Reserves s t [] :=
  ⟨only, by rw [next], fun i _ => by rw [entryAt, entries]; rfl, fun i _ => by rw [cmds], by simp⟩

theorem reserves_eraseEntry (s : State) (core i : Nat) : Reserves s (eraseEntry s core i) [] := by
  unfold eraseEntry
  dsimp only
  split
  · exact .refl s
  · exact reserves_of_same ⟨_, _, _, _, _, rfl⟩ rfl rfl rfl

/-- One entry takes the next number. -/
theorem reserves_setEntry (s : State) {e : Entry} (he : e.filled = false) :
    Reserves s (setEntry (takeId s) s.c.nextId e) [s.c.nextId] where
  only := ⟨_, _, _, _, _, rfl⟩
  later := Nat.le_succ _
  entries i hi := by rw [entryAt_setEntry, if_neg (by omega)]; rfl
  cmds _ _ := rfl
  fresh i hi := by
    rw [List.mem_singleton.1 hi, isFilled, entryAt_setEntry, if_pos rfl]
    exact ⟨Nat.le_refl _, Nat.lt_succ_self _, he⟩

theorem reserves_setPair (s : State) (core x y : Nat) (q : OvQueue) : Reserves s (setPair s core x y q) [] :=
  reserves_of_same ⟨_, _, _, _, _, rfl⟩ rfl rfl rfl

/-- A command takes the next number. -/
theorem reserves_setCmd (s : State) (k : Cmd) : Reserves s (setCmd (takeId s) s.c.nextId k) [] where
  only := ⟨_, _, _, _, _, rfl⟩
  later := Nat.le_succ _
  entries _ _ := rfl
  cmds i hi := SMap.find?_ins_ne _ _ (by omega)
  fresh := by simp

theorem reserves_reserveTok (core : Nat) {e : Entry} (he : e.filled = false) (n : Nat) (s : State) (ids : List Nat) :
    ∃ new, (reserveTok core e n s ids).2 = ids ++ new ∧ Reserves s (reserveTok core e n s ids).1 new := by
  induction n generalizing s ids with
  | zero => exact ⟨[], by simp [reserveTok], .refl s⟩
  | succ n ih =>
    obtain ⟨new, hids, hnew⟩ := ih (setPair (setEntry (takeId s) s.c.nextId e) core e.prod e.cons
      (qPush 32 (pairAt s core e.prod e.cons) s.c.nextId)) (ids ++ [s.c.nextId])
    exact ⟨s.c.nextId :: new, by rw [reserveTok, hids, List.append_assoc]; rfl,
      ((reserves_setEntry s he).trans (reserves_setPair ..)).trans hnew⟩

/-- A fold of reservations that collects the numbers. -/
theorem reserves_foldl {β : Type} {f : State × List Nat → β → State × List Nat}
    (h : ∀ a b, ∃ new, (f a b).2 = a.2 ++ new ∧ Reserves a.1 (f a b).1 new) (l : List β) (a : State × List Nat) :
    ∃ new, (l.foldl f a).2 = a.2 ++ new ∧ Reserves a.1 (l.foldl f a).1 new := by
  induction l generalizing a with
  | nil => exact ⟨[], by simp, .refl a.1⟩
  | cons b l ih =>
    obtain ⟨first, hf, rf⟩ := h a b
    obtain ⟨rest, hr, rr⟩ := ih (f a b)
    exact ⟨first ++ rest, by rw [List.foldl_cons, hr, hf, List.append_assoc], rf.trans rr⟩

theorem reserves_reserveUses (core : Nat) {e : Entry} (he : e.filled = false) (u : Uses) (s : State) :
    Reserves s (reserveUses core e u s).1 (reserveUses core e u s).2 := by
  obtain ⟨new, hn, rn⟩ := reserves_foldl (fun a y => reserves_reserveTok core (e := { e with cons := y }) he (useOf u y) a.1 a.2)
    [1, 2, 3, 4, 5] (s, [])
  rw [List.nil_append] at hn
  exact hn ▸ rn

theorem reserves_pushOne (c : Ctx) (lane : Nat) (s : State) (i : Nat) (u : Uses) (more : Bool) :
    Reserves s (pushOne c lane s i u more).1 [] := by
  unfold pushOne
  extract_lets core e all now r q k0 k
  obtain ⟨new, -, hq⟩ : ∃ new, q.2 = [] ++ new ∧ Reserves r.1 q.1 new := reserves_reserveTok core rfl _ r.1 []
  have taken : Reserves s r.1 r.2 := (reserves_eraseEntry s core i).trans (reserves_reserveUses core rfl now _)
  have entered : Reserves s (setCmd (takeId q.1) q.1.c.nextId k) (r.2 ++ new ++ []) := (taken.trans hq).trans (reserves_setCmd q.1 k)
  exact entered.subset (by simp)

theorem reserves_fanOut (c : Ctx) (lane n : Nat) (s : State) (i : Nat) (u : Uses) (more : Bool) :
    Reserves s (fanOut c lane n s i u more) [] :=
  fanOut_induct (R := fun s t => Reserves s t []) .refl (fun _ _ _ => .trans) (fun s i u => reserves_pushOne c lane s i u more) n s i u

/-- A token value is named by the next number, and its entries come behind. -/
theorem reserves_reserveValue (s : State) (c : Ctx) (x lane : Nat) : ∃ rest,
    (reserveValue s c x lane).2 = s.c.nextId :: rest ∧ Reserves s (reserveValue s c x lane).1 (s.c.nextId :: rest) := by
  unfold reserveValue
  extract_lets core g e0 e p s1 r
  have named : Reserves s s1 [g] := reserves_setEntry s rfl
  split
  · exact ⟨_, rfl, named.trans (reserves_reserveUses core rfl p.counts s1)⟩
  · obtain ⟨new, hids, hnew⟩ : ∃ new, r.2 = [g] ++ new ∧ Reserves s1 r.1 new := reserves_reserveTok core rfl 1 s1 [g]
    have one : Reserves s r.1 (g :: new) := named.trans hnew
    split
    · exact ⟨new, hids, one⟩
    · exact ⟨new, hids, by simpa using one.trans (reserves_fanOut c lane 4096 r.1 (r.2.getD 1 g) p.counts false)⟩

theorem reserves_reserveN (core x y n : Nat) (s : State) (acc : List Nat) :
    ∃ new, (reserveN core x y n s acc).2 = acc ++ new ∧ Reserves s (reserveN core x y n s acc).1 new := by
  induction n generalizing s acc with
  | zero => exact ⟨[], by simp [reserveN], .refl s⟩
  | succ n ih =>
    obtain ⟨new, hids, hnew⟩ := ih (reserve s core x y).1 (acc ++ [(reserve s core x y).2])
    exact ⟨s.c.nextId :: new, by rw [reserveN, hids, List.append_assoc]; rfl,
      ((reserves_setEntry s rfl).trans (reserves_setPair ..)).trans hnew⟩

theorem reserves_reserveOut (s : State) (c : Ctx) (f : Form) (x lane : Nat) :
    Reserves s (reserveOut s c f x lane).1 (reserveOut s c f x lane).2 := by
  cases f with
  | p w =>
    obtain ⟨rest, hids, h⟩ := reserves_reserveValue s c x lane
    exact hids ▸ h
  | n w =>
    obtain ⟨new, hn, rn⟩ := reserves_foldl (fun a (p : Nat × Nat) => reserves_reserveN (coreOfWarp c.warp) x p.1 p.2 a.1 a.2)
      (pushCounts w.dst) (s, [])
    rw [List.nil_append] at hn
    exact hn ▸ rn

/-- At the portable level a command reserves an entry that names its token value. -/
theorem reserveOut_p (s : State) (c : Ctx) (w : PForm) (x lane : Nat) : ∃ g rest, (reserveOut s c (.p w) x lane).2 = g :: rest :=
  let ⟨rest, hids, _⟩ := reserves_reserveValue s c x lane
  ⟨s.c.nextId, rest, hids⟩

/-! ### Reservations beside locks and chunks -/

/-- The state with other chunks and locks. -/
def relock (s : State) (ch : SMap ChunkState) (lk : List Lock) : State := { s with e := { s.e with chunks := ch, locks := lk } }

theorem relock_eraseEntry (s : State) (ch : SMap ChunkState) (lk : List Lock) (core i : Nat) :
    eraseEntry (relock s ch lk) core i = relock (eraseEntry s core i) ch lk := by
  unfold eraseEntry
  dsimp only
  split
  · next h => rw [if_pos (show (entryAt s i).cons = 0 from h)]
  · next h => rw [if_neg (show ¬(entryAt s i).cons = 0 from h)]; rfl

/-- Pairs of a state and numbers, the state with other chunks and locks. -/
def relockFst (a : State × List Nat) (ch : SMap ChunkState) (lk : List Lock) : State × List Nat := (relock a.1 ch lk, a.2)

theorem relock_reserveTok (ch : SMap ChunkState) (lk : List Lock) (core : Nat) (e : Entry) (n : Nat) (s : State) (ids : List Nat) :
    reserveTok core e n (relock s ch lk) ids = relockFst (reserveTok core e n s ids) ch lk := by
  induction n generalizing s ids with
  | zero => rfl
  | succ n ih => exact ih (setPair (setEntry (takeId s) s.c.nextId e) core e.prod e.cons _) _

/-- A fold of steps that commute with a change of locks. -/
theorem relockFst_foldl {β : Type} {f : State × List Nat → β → State × List Nat} {ch : SMap ChunkState} {lk : List Lock}
    (h : ∀ a b, f (relockFst a ch lk) b = relockFst (f a b) ch lk) (l : List β) (a : State × List Nat) :
    l.foldl f (relockFst a ch lk) = relockFst (l.foldl f a) ch lk := by
  induction l generalizing a with
  | nil => rfl
  | cons b l ih => rw [List.foldl_cons, List.foldl_cons, h, ih]

theorem relock_reserveUses (ch : SMap ChunkState) (lk : List Lock) (core : Nat) (e : Entry) (u : Uses) (s : State) :
    reserveUses core e u (relock s ch lk) = relockFst (reserveUses core e u s) ch lk :=
  relockFst_foldl (fun _ _ => relock_reserveTok ..) _ (s, [])

theorem relock_pushOne (ch : SMap ChunkState) (lk : List Lock) (c : Ctx) (lane : Nat) (s : State) (i : Nat) (u : Uses) (more : Bool) :
    pushOne c lane (relock s ch lk) i u more = relockFst (pushOne c lane s i u more) ch lk := by
  unfold pushOne
  simp only [relock_eraseEntry, relock_reserveUses]
  simp only [relockFst, relock_reserveTok]
  rfl

/-- How a fan-out goes on after one `tq.push`. -/
theorem fanOut_step (c : Ctx) (lane n : Nat) (i : Nat) (u : Uses) (more : Bool) : ∃ rest : Uses, ∀ s,
    fanOut c lane (n + 1) s i u more = match (pushOne c lane s i u more).2 with
      | j :: _ => if anyUse rest then fanOut c lane n (pushOne c lane s i u more).1 j rest more else (pushOne c lane s i u more).1
      | [] => (pushOne c lane s i u more).1 :=
  ⟨_, fun _ => rfl⟩

theorem relock_fanOut (ch : SMap ChunkState) (lk : List Lock) (c : Ctx) (lane n : Nat) (more : Bool) (s : State) (i : Nat) (u : Uses) :
    fanOut c lane n (relock s ch lk) i u more = relock (fanOut c lane n s i u more) ch lk := by
  induction n generalizing s i u with
  | zero => rfl
  | succ n ih =>
    obtain ⟨rest, step⟩ := fanOut_step c lane n i u more
    rw [step, step, relock_pushOne]
    simp only [relockFst]
    split
    · split
      · exact ih ..
      · rfl
    · rfl

theorem relock_reserveValue (ch : SMap ChunkState) (lk : List Lock) (c : Ctx) (x lane : Nat) (s : State) :
    reserveValue (relock s ch lk) c x lane = relockFst (reserveValue s c x lane) ch lk := by
  have named (g : Nat) (e : Entry) : setEntry (takeId (relock s ch lk)) g e = relock (setEntry (takeId s) g e) ch lk := rfl
  have next : (relock s ch lk).c.nextId = s.c.nextId := rfl
  unfold reserveValue
  simp only [named, next, relock_reserveUses, relock_reserveTok]
  simp only [relockFst, relock_fanOut]
  split
  · rfl
  · split <;> rfl

theorem relock_reserveN (ch : SMap ChunkState) (lk : List Lock) (core x y n : Nat) (s : State) (acc : List Nat) :
    reserveN core x y n (relock s ch lk) acc = relockFst (reserveN core x y n s acc) ch lk := by
  induction n generalizing s acc with
  | zero => rfl
  | succ n ih => exact ih (reserve s core x y).1 _

/-- Reservations do not see locks and chunks. -/
theorem relock_reserveOut (ch : SMap ChunkState) (lk : List Lock) (c : Ctx) (f : Form) (x lane : Nat) (s : State) :
    reserveOut (relock s ch lk) c f x lane = relockFst (reserveOut s c f x lane) ch lk := by
  cases f with
  | p w => exact relock_reserveValue ch lk c x lane s
  | n w => exact relockFst_foldl (fun _ _ => relock_reserveN ..) _ (s, [])

end Sys2Proof.Machine
end

section
/-!
SUPPORT. Lanes that issue engine commands (R91, R100, R101, R105): the frame of one lane's command, its place in the queue, and the
quota.
-/
namespace Sys2Proof.Machine

/-! ### One lane's command -/

/-- The state in which a lane's command stands in its queue. -/
def enterCmd (s : State) (c : Ctx) (f : Form) (k : Cmd) : State :=
  let r := reserveOut s c f k.engine k.lane
  pushCmd (setCmd (takeId r.1) r.1.c.nextId { k with fills := r.2 }) k.core k.engine r.1.c.nextId

/-- A lane's command enters its queue, and at the portable level its token value takes the first entry's number. -/
theorem issueLane_eq (s : State) (c : Ctx) (f : Form) (k : Cmd) : issueLane s c f k =
    putDst (enterCmd s c f k) c.pid k.lane (tokenDst c f) (BitVec.ofNat 64 ((reserveOut s c f k.engine k.lane).2.headD 0)) := by
  cases f <;> rfl

/-- The queue of an engine: the MX's, or the BX's. -/
def issueQueue (engine core : Nat) (s : State) : OvQueue :=
  if engine = 3 then s.e.mxq.getD queueZero core else s.e.bxq.getD queueZero core

theorem qIds_qPush (cap : Nat) (q : OvQueue) (i : Nat) : qIds (qPush cap q i) = qIds q ++ [i] := by
  unfold qPush qIds
  split
  · next h => simp [h.1]
  · simp

theorem qIds_pushCmd (s : State) (core engine i : Nat) :
    qIds (issueQueue engine core (pushCmd s core engine i)) = qIds (issueQueue engine core s) ++ [i] := by
  unfold issueQueue pushCmd
  split <;> simp [SMap.getD, SMap.find?_ins_self, qIds_qPush]

/-! ### The frame of issuing -/

/-- `u` is `s` but for token entries, commands, their queues, chunks, locks, values, cached lines and the next number. -/
def IssueOnly (s u : State) : Prop := ∃ n ln vs en ps cs ch lk bx mx, u = { s with
  c := { s.c with nextId := n }, m := { s.m with lines := ln }, x := { s.x with vals := vs },
  e := { s.e with entries := en, pairs := ps, cmds := cs, chunks := ch, locks := lk, bxq := bx, mxq := mx } }

theorem IssueOnly.trans {s t u : State} (h : IssueOnly s t) (h' : IssueOnly t u) : IssueOnly s u := by
  obtain ⟨_, _, _, _, _, _, _, _, _, _, rfl⟩ := h
  obtain ⟨_, _, _, _, _, _, _, _, _, _, rfl⟩ := h'
  exact ⟨_, _, _, _, _, _, _, _, _, _, rfl⟩

theorem TokensOnly.issueOnly {s t : State} (h : TokensOnly s t) : IssueOnly s t := by
  obtain ⟨_, _, _, _, _, rfl⟩ := h
  exact ⟨_, _, _, _, _, _, _, _, _, _, rfl⟩

/-- Lanes `ls` of path `pid` have issued: of `s` what had a number is as it was, and so is every value but those of destination `d` in
these lanes. -/
structure Issued (s u : State) (pid : Nat) (d : Dst) (ls : List Nat) : Prop where
  only : IssueOnly s u
  later : s.c.nextId ≤ u.c.nextId
  entries : ∀ i, i < s.c.nextId → entryAt u i = entryAt s i
  cmds : ∀ i, i < s.c.nextId → u.e.cmds.find? i = s.e.cmds.find? i
  vals : ∀ k, k ∉ valKeys pid d ls → u.x.vals.getD 0 k = s.x.vals.getD 0 k
  wf : RegsWf s → RegsWf u

theorem Issued.refl (s : State) (pid : Nat) (d : Dst) (ls : List Nat) : Issued s s pid d ls :=
  ⟨(TokensOnly.refl s).issueOnly, Nat.le_refl _, fun _ _ => rfl, fun _ _ => rfl, fun _ _ => rfl, id⟩

theorem Issued.trans {s t u : State} {pid : Nat} {d : Dst} {ls : List Nat} (h : Issued s t pid d ls) (h' : Issued t u pid d ls) :
    Issued s u pid d ls where
  only := h.only.trans h'.only
  later := Nat.le_trans h.later h'.later
  entries i hi := (h'.entries i (Nat.lt_of_lt_of_le hi h.later)).trans (h.entries i hi)
  cmds i hi := (h'.cmds i (Nat.lt_of_lt_of_le hi h.later)).trans (h.cmds i hi)
  vals k hk := (h'.vals k hk).trans (h.vals k hk)
  wf := h'.wf ∘ h.wf

theorem valKeys_mono {pid : Nat} {d : Dst} {ls ms : List Nat} (h : ∀ l ∈ ls, l ∈ ms) : ∀ k ∈ valKeys pid d ls, k ∈ valKeys pid d ms := by
  cases d with
  | val depth n => exact fun k hk => List.map_subset _ h hk
  | _ => exact fun _ => id

theorem Issued.mono {s u : State} {pid : Nat} {d : Dst} {ls ms : List Nat} (h : Issued s u pid d ls) (hm : ∀ l ∈ ls, l ∈ ms) :
    Issued s u pid d ms :=
  { h with vals := fun k hk => h.vals k (mt (valKeys_mono hm k) hk) }

theorem issued_of_reserves {s t : State} {ids : List Nat} (h : Reserves s t ids) (pid : Nat) (d : Dst) (ls : List Nat) :
    Issued s t pid d ls where
  only := h.only.issueOnly
  later := h.later
  entries := h.entries
  cmds := h.cmds
  vals _ _ := by rw [h.only.x]
  wf := by unfold RegsWf; rw [h.only.x]; exact id

theorem issued_relock (s : State) (ch : SMap ChunkState) (lk : List Lock) (pid : Nat) (d : Dst) (ls : List Nat) :
    Issued s (relock s ch lk) pid d ls :=
  ⟨⟨_, _, _, _, _, _, _, _, _, _, rfl⟩, Nat.le_refl _, fun _ _ => rfl, fun _ _ => rfl, fun _ _ => rfl, id⟩

theorem issued_pushCmd (s : State) (core engine i pid : Nat) (d : Dst) (ls : List Nat) :
    Issued s (pushCmd s core engine i) pid d ls := by
  unfold pushCmd
  split <;>
    exact ⟨⟨_, _, _, _, _, _, _, _, _, _, rfl⟩, Nat.le_refl _, fun _ _ => rfl, fun _ _ => rfl, fun _ _ => rfl, id⟩

theorem issued_enterCmd (s : State) (c : Ctx) (f : Form) (k : Cmd) (d : Dst) (ls : List Nat) :
    Issued s (enterCmd s c f k) c.pid d ls :=
  ((issued_of_reserves (reserves_reserveOut s c f k.engine k.lane) c.pid d ls).trans
    (issued_of_reserves (reserves_setCmd _ _) c.pid d ls)).trans (issued_pushCmd ..)

theorem issued_putToken (s : State) (c : Ctx) (f : Form) (l : Nat) (v : Word) :
    Issued s (putDst s c.pid l (tokenDst c f) v) c.pid (tokenDst c f) [l] := by
  cases f with
  | n w => exact .refl ..
  | p w =>
    refine ⟨⟨_, _, _, _, _, _, _, _, _, _, rfl⟩, Nat.le_refl _, fun _ _ => rfl, fun _ _ => rfl, fun k hk => ?_, putDst_wf _ _ _ _⟩
    exact SMap.getD_putD_ne 0 _ v fun h => hk (h ▸ List.mem_singleton_self _)

theorem issued_issueLane (s : State) (c : Ctx) (f : Form) (k : Cmd) :
    Issued s (issueLane s c f k) c.pid (tokenDst c f) [k.lane] := by
  rw [issueLane_eq]
  exact (issued_enterCmd ..).trans (issued_putToken ..)

/-! ### A lane's command stands in its queue -/

/-- The command with number `i` is `k` with the entries that it is to fill: they are not filled, and the lane's token value names the
first. -/
structure LaneQueued (u : State) (c : Ctx) (f : Form) (k : Cmd) (i : Nat) : Prop where
  known : i < u.c.nextId
  command : ∃ fills, u.e.cmds.find? i = some { k with fills := fills } ∧
    (∀ e ∈ fills, e < u.c.nextId ∧ isFilled u e = false) ∧
    ∀ w, f = .p w → ∃ e r, fills = e :: r ∧ getVal u (threadKey c.pid k.lane) c.depth c.n = BitVec.ofNat 64 e

theorem putToken_c (s : State) (c : Ctx) (f : Form) (l : Nat) (v : Word) : (putDst s c.pid l (tokenDst c f) v).c = s.c := by
  cases f <;> rfl

theorem putToken_e (s : State) (c : Ctx) (f : Form) (l : Nat) (v : Word) : (putDst s c.pid l (tokenDst c f) v).e = s.e := by
  cases f <;> rfl

theorem pushCmd_c (s : State) (core engine i : Nat) : (pushCmd s core engine i).c = s.c := by
  unfold pushCmd; split <;> rfl

theorem pushCmd_cmds (s : State) (core engine i : Nat) : (pushCmd s core engine i).e.cmds = s.e.cmds := by
  unfold pushCmd; split <;> rfl

theorem pushCmd_entries (s : State) (core engine i : Nat) : (pushCmd s core engine i).e.entries = s.e.entries := by
  unfold pushCmd; split <;> rfl

/-- The number that a lane's command takes. -/
def cmdNumber (s : State) (c : Ctx) (f : Form) (k : Cmd) : Nat := (reserveOut s c f k.engine k.lane).1.c.nextId

theorem enterCmd_nextId (s : State) (c : Ctx) (f : Form) (k : Cmd) : (enterCmd s c f k).c.nextId = cmdNumber s c f k + 1 := by
  unfold enterCmd; simp only [pushCmd_c]; rfl

theorem enterCmd_find (s : State) (c : Ctx) (f : Form) (k : Cmd) : (enterCmd s c f k).e.cmds.find? (cmdNumber s c f k) =
    some { k with fills := (reserveOut s c f k.engine k.lane).2 } := by
  unfold enterCmd; simp only [pushCmd_cmds]; exact SMap.find?_ins_self ..

theorem enterCmd_isFilled (s : State) (c : Ctx) (f : Form) (k : Cmd) (e : Nat) :
    isFilled (enterCmd s c f k) e = isFilled (reserveOut s c f k.engine k.lane).1 e := by
  unfold enterCmd isFilled entryAt; simp only [pushCmd_entries]; rfl

/-- One lane's command stands in its queue. -/
theorem laneQueued_issueLane {s : State} (c : Ctx) (f : Form) (k : Cmd) (hw : RegsWf s) :
    LaneQueued (issueLane s c f k) c f k (cmdNumber s c f k) := by
  have fresh := (reserves_reserveOut s c f k.engine k.lane).fresh
  rw [issueLane_eq]
  refine ⟨by rw [putToken_c, enterCmd_nextId]; exact Nat.lt_succ_self _, (reserveOut s c f k.engine k.lane).2,
    by rw [putToken_e, enterCmd_find], fun e he => ?_, ?_⟩
  · obtain ⟨-, hi, un⟩ := fresh e he
    refine ⟨?_, ?_⟩
    · rw [putToken_c, enterCmd_nextId]
      exact Nat.lt_succ_of_lt hi
    · rw [isFilled, entryAt, putToken_e]
      exact (enterCmd_isFilled s c f k e).trans un
  · rintro w rfl
    obtain ⟨g, rest, hids⟩ := reserveOut_p s c w k.engine k.lane
    have wf := (issued_enterCmd s c (.p w) k .none []).wf hw
    exact ⟨g, rest, hids, by rw [hids]; exact SMap.getD_putD_self _ _ wf.1⟩

/-- It stands there when other lanes have issued. -/
theorem LaneQueued.after {s u : State} {c : Ctx} {f : Form} {k : Cmd} {i : Nat} (h : LaneQueued s c f k i) {ls : List Nat}
    (hu : Issued s u c.pid (tokenDst c f) ls) (_ : k.lane < 64) (others : ∀ l ∈ ls, l < 64 ∧ l ≠ k.lane) : LaneQueued u c f k i := by
  obtain ⟨known, fills, hk, hf, hv⟩ := h
  refine ⟨Nat.lt_of_lt_of_le known hu.later, fills, by rw [hu.cmds i known]; exact hk, fun e he => ?_, fun w hw => ?_⟩
  · obtain ⟨hi, un⟩ := hf e he
    exact ⟨Nat.lt_of_lt_of_le hi hu.later, by rw [isFilled, hu.entries e hi]; exact un⟩
  · obtain ⟨e, r, hr, hval⟩ := hv w hw
    refine ⟨e, r, hr, (hu.vals _ fun hm => ?_).trans hval⟩
    subst hw
    obtain ⟨l, hl, key⟩ := List.mem_map.1 hm
    obtain ⟨small, ne⟩ := others l hl
    unfold valKey threadKey at key
    omega

/-! ### All lanes -/

/-- What readies a state for a lane's command changes chunks and locks alone. -/
def Relocks (before : State → Cmd → State) : Prop := ∀ t k, ∃ ch lk, before t k = relock t ch lk

theorem issueQueue_reserves {s t : State} {ids : List Nat} (h : Reserves s t ids) (engine core : Nat) :
    issueQueue engine core t = issueQueue engine core s := by
  obtain ⟨_, _, _, _, _, rfl⟩ := h.only
  rfl

theorem qIds_issueLane (s : State) (c : Ctx) (f : Form) (k : Cmd) : qIds (issueQueue k.engine k.core (issueLane s c f k)) =
    qIds (issueQueue k.engine k.core s) ++ [cmdNumber s c f k] := by
  have same (u : State) (v : Word) : issueQueue k.engine k.core (putDst u c.pid k.lane (tokenDst c f) v) =
      issueQueue k.engine k.core u := by unfold issueQueue; rw [putToken_e]
  rw [issueLane_eq, same, enterCmd]
  simp only [qIds_pushCmd]
  rw [← issueQueue_reserves (reserves_reserveOut s c f k.engine k.lane) k.engine k.core]
  rfl

/-- Lanes issue in order: each command stands in the queue behind those of the lanes before it. -/
theorem issueLanes_queued {c : Ctx} {f : Form} {mk : Nat → Cmd} {before : State → Cmd → State} {engine core : Nat}
    (hb : Relocks before) (lane : ∀ l, (mk l).lane = l) (hengine : ∀ l, (mk l).engine = engine) (hcore : ∀ l, (mk l).core = core)
    (ls : List Nat) (nodup : ls.Nodup) (small : ∀ l ∈ ls, l < 64) {t u : State} (hw : RegsWf t)
    (hu : u = ls.foldl (fun t l => issueLane (before t (mk l)) c f (mk l)) t) :
    Issued t u c.pid (tokenDst c f) ls ∧ ∃ ids, qIds (issueQueue engine core u) = qIds (issueQueue engine core t) ++ ids ∧
      List.Forall₂ (fun l i => LaneQueued u c f (mk l) i) ls ids := by
  induction ls generalizing t with
  | nil => subst hu; exact ⟨.refl .., [], by simp, .nil⟩
  | cons l ls ih =>
    obtain ⟨new, nodup⟩ := List.nodup_cons.1 nodup
    obtain ⟨ch, lk, hb'⟩ := hb t (mk l)
    have first : Issued t (issueLane (before t (mk l)) c f (mk l)) c.pid (tokenDst c f) [l] := by
      have step := issued_issueLane (relock t ch lk) c f (mk l)
      rw [lane] at step
      rw [hb']
      exact (issued_relock t ch lk ..).trans step
    obtain ⟨rest, ids, hids, each⟩ := ih nodup (fun m hm => small m (List.mem_cons_of_mem _ hm)) (first.wf hw) hu
    have place := qIds_issueLane (relock t ch lk) c f (mk l)
    have stands := laneQueued_issueLane c f (mk l) ((issued_relock t ch lk c.pid .none []).wf hw)
    rw [hengine, hcore] at place
    rw [← hb'] at place stands
    refine ⟨(first.mono (by simp)).trans (rest.mono fun m hm => List.mem_cons_of_mem _ hm), _ :: ids, ?_, .cons (stands.after rest ?_ ?_) each⟩
    · rw [hids, place, List.append_assoc, hb']
      rfl
    · rw [lane]; exact small l List.mem_cons_self
    · intro m hm
      refine ⟨small m (List.mem_cons_of_mem _ hm), ?_⟩
      rw [lane]
      rintro rfl
      exact new hm

end Sys2Proof.Machine
end

section
/-!
SUPPORT. The quota of a core's overflow rings (R105), and the commands of all lanes.
-/
namespace Sys2Proof

/-- Replacing what a key holds raises a sum over a map by at most what the new value weighs more than the old. -/
theorem SMap.sum_ins_le {α : Type} {d : α} (g : Nat → α → Nat) {m : SMap α} {k lo n : Nat} {v : α} (hm : m.risingFrom lo = true)
    (hv : g k v ≤ g k (m.getD d k) + n) (hd : g k d = 0) :
    ((m.ins k v).map (fun p => g p.1 p.2)).sum ≤ (m.map (fun p => g p.1 p.2)).sum + n := by
  induction m generalizing lo with
  | nil =>
    simp [SMap.getD, SMap.find?, hd] at hv
    simpa [SMap.ins] using hv
  | cons p m ih =>
    obtain ⟨i, a⟩ := p
    simp only [SMap.risingFrom, Bool.and_eq_true, decide_eq_true_eq] at hm
    rw [SMap.ins]
    split
    · next lt =>
      have absent : SMap.getD ((i, a) :: m) d k = d := by
        rw [SMap.getD, SMap.find?, if_neg (by omega), SMap.find?_of_rising m hm.2 (by omega)]; rfl
      rw [absent, hd] at hv
      simp only [List.map_cons, List.sum_cons]
      omega
    · split
      · next eq =>
        subst eq
        have held : SMap.getD ((i, a) :: m) d i = a := by simp [SMap.getD, SMap.find?]
        rw [held] at hv
        simp only [List.map_cons, List.sum_cons]
        omega
      · next ne =>
        have held : SMap.getD ((i, a) :: m) d k = SMap.getD m d k := by
          rw [SMap.getD, SMap.find?, if_neg (by omega)]; rfl
        have rest := ih hm.2 (held ▸ hv)
        simp only [List.map_cons, List.sum_cons]
        omega

namespace Machine

/-- The places of a queue's overflow ring, for a queue of `core`. -/
def ringOf (core key : Nat) (q : OvQueue) : Nat := if key / 36 == core then q.ring.length else 0

theorem spilled_eq (s : State) (core : Nat) : spilled s core = (s.e.pairs.map (fun p => ringOf core p.1 p.2)).sum +
    (s.e.bxq.getD queueZero core).ring.length + (s.e.mxq.getD queueZero core).ring.length := by
  have rings (m : SMap OvQueue) : ((m.filter (fun p => p.1 / 36 == core)).map (fun p => p.2.ring.length)).sum =
      (m.map (fun p => ringOf core p.1 p.2)).sum := by
    induction m with
    | nil => rfl
    | cons p m ih => by_cases h : p.1 / 36 = core <;> simp [ringOf, h] at ih ⊢ <;> omega
  rw [spilled, rings]

theorem ring_qPush (cap : Nat) (q : OvQueue) (i : Nat) : (qPush cap q i).ring.length ≤ q.ring.length + 1 := by
  unfold qPush
  split <;> simp

/-- From `s` to `t` the rings of a core have taken at most `n` entries. -/
structure Spills (core n : Nat) (s t : State) : Prop where
  most : spilled t core ≤ spilled s core + n
  rising : t.e.pairs.risingFrom 0 = true

theorem Spills.trans {core m n : Nat} {s t u : State} (h : Spills core m s t) (h' : Spills core n t u) : Spills core (m + n) s u :=
  ⟨by have := h.most; have := h'.most; omega, h'.rising⟩

/-- An operation that leaves the queues alone. -/
theorem spills_of_same {core : Nat} {s t : State} (hr : s.e.pairs.risingFrom 0 = true) (pairs : t.e.pairs = s.e.pairs)
    (bx : t.e.bxq = s.e.bxq) (mx : t.e.mxq = s.e.mxq) : Spills core 0 s t :=
  ⟨by rw [spilled, spilled, pairs, bx, mx]; exact Nat.le_refl _, by rw [pairs]; exact hr⟩

/-- A reserved entry takes at most one place of the rings. -/
theorem spills_reserve {s : State} (hr : s.e.pairs.risingFrom 0 = true) (core at_ x y : Nat) : Spills core 1 s (reserve s at_ x y).1 := by
  refine ⟨?_, SMap.risingFrom_ins _ _ hr (Nat.zero_le _)⟩
  have longer : ringOf core (pairKey at_ x y) (qPush 32 (pairAt s at_ x y) s.c.nextId) ≤
      ringOf core (pairKey at_ x y) (pairAt s at_ x y) + 1 := by
    unfold ringOf
    split
    · exact ring_qPush ..
    · exact Nat.zero_le _
  have sum := SMap.sum_ins_le (d := queueZero) (ringOf core) hr longer (by simp [ringOf, queueZero])
  rw [spilled_eq, spilled_eq]
  have bx : (reserve s at_ x y).1.e.bxq = s.e.bxq := rfl
  have mx : (reserve s at_ x y).1.e.mxq = s.e.mxq := rfl
  have pairs : (reserve s at_ x y).1.e.pairs = s.e.pairs.ins (pairKey at_ x y) (qPush 32 (pairAt s at_ x y) s.c.nextId) := rfl
  rw [bx, mx, pairs]
  omega

theorem spills_reserveN {s : State} (hr : s.e.pairs.risingFrom 0 = true) (core at_ x y n : Nat) (acc : List Nat) :
    Spills core n s (reserveN at_ x y n s acc).1 := by
  induction n generalizing s acc with
  | zero => exact spills_of_same hr rfl rfl rfl
  | succ n ih =>
    have one := spills_reserve hr core at_ x y
    have both := one.trans (ih one.rising (acc ++ [(reserve s at_ x y).2]))
    rw [Nat.add_comm 1 n] at both
    exact both

/-- Natively a lane reserves at most 15 entries, three for each consumer (R108). -/
theorem spills_reserveOut {s : State} (hr : s.e.pairs.risingFrom 0 = true) (core : Nat) (c : Ctx) (w : NForm) (x lane : Nat) :
    Spills core 15 s (reserveOut s c (.n w) x lane).1 := by
  have fold (ps : List (Nat × Nat)) (most : ∀ p ∈ ps, p.2 ≤ 3) (a : State × List Nat) (ha : a.1.e.pairs.risingFrom 0 = true) :
      Spills core (3 * ps.length) a.1 (ps.foldl (fun a p => reserveN (coreOfWarp c.warp) x p.1 p.2 a.1 a.2) a).1 := by
    induction ps generalizing a with
    | nil => exact spills_of_same ha rfl rfl rfl
    | cons p ps ih =>
      have one := spills_reserveN ha core (coreOfWarp c.warp) x p.1 p.2 a.2
      have rest := ih (fun q hq => most q (List.mem_cons_of_mem _ hq)) _ one.rising
      have := most p List.mem_cons_self
      obtain ⟨sum, rising⟩ := one.trans rest
      refine ⟨Nat.le_trans sum ?_, rising⟩
      rw [List.length_cons]
      omega
  refine fold (pushCounts w.dst) (fun p hp => ?_) (s, []) hr
  simp only [pushCounts, List.mem_cons, List.not_mem_nil, or_false] at hp
  rcases hp with rfl | rfl | rfl | rfl | rfl <;> exact Nat.le_of_lt_succ (BitVec.isLt _)

theorem spills_pushCmd {s : State} (hr : s.e.pairs.risingFrom 0 = true) (core at_ engine i : Nat) :
    Spills core 1 s (pushCmd s at_ engine i) := by
  have longer (m : SMap OvQueue) : ((m.ins at_ (qPush 64 (m.getD queueZero at_) i)).getD queueZero core).ring.length ≤
      (m.getD queueZero core).ring.length + 1 := by
    by_cases h : core = at_
    · subst h
      simpa [SMap.getD, SMap.find?_ins_self] using ring_qPush 64 _ i
    · simp [SMap.getD, SMap.find?_ins_ne _ _ h]
  unfold pushCmd
  split
  · have := longer s.e.mxq
    exact ⟨by unfold spilled; dsimp only; omega, hr⟩
  · have := longer s.e.bxq
    exact ⟨by unfold spilled; dsimp only; omega, hr⟩

/-- Natively a lane's command takes at most 16 places: its entries and its own. -/
theorem spills_issueLane {s : State} (hr : s.e.pairs.risingFrom 0 = true) (core : Nat) (c : Ctx) (w : NForm) (k : Cmd) :
    Spills core 16 s (issueLane s c (.n w) k) := by
  have out := spills_reserveOut hr core c w k.engine k.lane
  have entered (i : Nat) (k' : Cmd) : Spills core 0 (reserveOut s c (.n w) k.engine k.lane).1
      (setCmd (takeId (reserveOut s c (.n w) k.engine k.lane).1) i k') := spills_of_same out.rising rfl rfl rfl
  have named := out.trans (entered (reserveOut s c (.n w) k.engine k.lane).1.c.nextId
    { k with fills := (reserveOut s c (.n w) k.engine k.lane).2 })
  exact named.trans (spills_pushCmd named.rising core k.core k.engine _)

theorem spills_issueLanes {mk : Nat → Cmd} {before : State → Cmd → State} (hb : Relocks before) (core : Nat) (c : Ctx) (w : NForm)
    (ls : List Nat) {t : State} (hr : t.e.pairs.risingFrom 0 = true) :
    Spills core (16 * ls.length) t (ls.foldl (fun t l => issueLane (before t (mk l)) c (.n w) (mk l)) t) := by
  induction ls generalizing t with
  | nil => exact spills_of_same hr rfl rfl rfl
  | cons l ls ih =>
    obtain ⟨ch, lk, hb'⟩ := hb t (mk l)
    have one : Spills core (0 + 16) t (issueLane (before t (mk l)) c (.n w) (mk l)) := by
      rw [hb']
      have same : Spills core 0 t (relock t ch lk) := spills_of_same hr rfl rfl rfl
      exact same.trans (spills_issueLane same.rising core c w (mk l))
    obtain ⟨sum, rising⟩ := one.trans (ih one.rising)
    refine ⟨Nat.le_trans sum ?_, rising⟩
    rw [List.length_cons]
    omega

theorem lanes_length_le (m : Mask) : m.lanes.length ≤ 64 :=
  Nat.le_trans (List.length_filter_le ..) (by simp)

/-- Natively the lanes of a path keep within the quota. -/
theorem issueAll_quota {s : State} {c : Ctx} {f : Form} {w : NForm} (hf : f = .n w) {mk : Nat → Cmd} {before : State → Cmd → State}
    (hb : Relocks before) {core : Nat} (ok : quotaOk s core) : spilled (issueAll s c f mk before) core ≤ 4096 := by
  subst hf
  have sum := (spills_issueLanes (mk := mk) hb core c w (pathMask s c.pid).lanes ok.2).most
  have few := lanes_length_le (pathMask s c.pid)
  have room := ok.1
  rw [issueAll]
  omega

/-! ### The commands of all lanes -/

theorem past_finish {s u : State} {c : Ctx} (f : Form) (issue : u.c.issue = s.c.issue) (paths : u.x.paths = s.x.paths)
    (hp : (s.x.paths.find? c.pid).isSome = true) : Past s (finish u c f) c f := by
  cases f with
  | p w => exact (finish_goesOn (.p w) (paths ▸ hp)).2
  | n w => exact ⟨issue, by show (pathAt u c.pid).pc = _; rw [pathAt, paths]; rfl⟩

/-- Issuing changes no register but the destination's. -/
theorem Issued.registers {s u : State} {c : Ctx} {f : Form} {ls : List Nat} (h : Issued s u c.pid (tokenDst c f) ls) :
    RegistersKept s u c.pid (tokenDst c f) ls := by
  refine ⟨h.vals, fun _ _ => ?_, fun _ _ => ?_, fun r _ => ?_⟩ <;> obtain ⟨_, _, _, _, _, _, _, _, _, _, rfl⟩ := h.only <;> rfl

theorem LaneQueued.finish {u : State} {c : Ctx} {f : Form} {k : Cmd} {i : Nat} (h : LaneQueued u c f k i) :
    ∃ k', (Machine.finish u c f).e.cmds.find? i = some k' ∧ k' = { k with fills := k'.fills } ∧
      (∀ e ∈ k'.fills, isFilled (Machine.finish u c f) e = false) ∧
      ∀ w, f = .p w → ∃ e r, k'.fills = e :: r ∧
        getVal (Machine.finish u c f) (threadKey c.pid k.lane) c.depth c.n = BitVec.ofNat 64 e := by
  obtain ⟨rest, -, x⟩ := finish_kept u c f
  obtain ⟨fills, hk, hf, hv⟩ := h.command
  refine ⟨_, by rw [rest.engines]; exact hk, rfl, fun e he => ?_, fun w hw => ?_⟩
  · rw [isFilled, entryAt, rest.engines]
    exact (hf e he).2
  · obtain ⟨e, r, hr, hval⟩ := hv w hw
    exact ⟨e, r, hr, by rw [getVal, x]; exact hval⟩

/-- The commands of all lanes are queued once the quota takes them. -/
theorem queued_issueAll {s : State} {c : Ctx} {f : Form} (issues : Issues s f c) (canon : Canonical s) {toks : List Operand} {engine : Nat}
    {mk : Nat → Cmd} {before : State → Cmd → State} (hb : Relocks before) (lane : ∀ l, (mk l).lane = l)
    (hengine : ∀ l, (mk l).engine = engine) (hcore : ∀ l, (mk l).core = coreOfWarp c.warp) :
    Queued s (finish (issueAll (carryToks s c f toks engine) c f mk before) c f) c f (issueQueue engine (coreOfWarp c.warp)) mk := by
  have carried := tokensOnly_carryToks s c f toks engine
  have hx : (carryToks s c f toks engine).x = s.x := carried.x
  generalize hu : issueAll (carryToks s c f toks engine) c f mk before = u
  rw [issueAll, pathMask_carryToks] at hu
  obtain ⟨issued, ids, hids, each⟩ := issueLanes_queued hb lane hengine hcore (pathMask s c.pid).lanes (lanes_nodup _)
    (fun _ => mem_lanes_lt) (by unfold RegsWf; rw [hx]; exact canon.regs) hu.symm
  obtain ⟨rest, -, x⟩ := finish_kept u c f
  have queue : issueQueue engine (coreOfWarp c.warp) (carryToks s c f toks engine) = issueQueue engine (coreOfWarp c.warp) s := by
    obtain ⟨_, _, _, _, _, h⟩ := carried
    rw [h]; rfl
  have only : IssueOnly s u := carried.issueOnly.trans issued.only
  have registers : RegistersKept s u c.pid (tokenDst c f) (pathMask s c.pid).lanes := by
    have same : RegistersKept s (carryToks s c f toks engine) c.pid (tokenDst c f) (pathMask s c.pid).lanes := by
      refine ⟨fun k _ => by rw [hx], fun k _ => by rw [hx], fun k _ => by rw [hx], fun r _ => ?_⟩
      unfold getSreg pathAt
      rw [hx]
    exact same.trans issued.registers
  obtain ⟨_, _, _, _, _, _, _, _, _, _, hu⟩ := only
  have issue : u.c.issue = s.c.issue := by rw [hu]
  have paths : u.x.paths = s.x.paths := by rw [hu]
  have hp : (u.x.paths.find? c.pid).isSome = true := by rw [paths]; exact issues.2.1
  refine ⟨past_finish f issue paths issues.2.1, ⟨ids, ?_, each.length_eq.symm, fun j l i hl hi => ?_⟩,
    registers.trans (finish_registers f _ _ hp), by rw [x, hu], by rw [rest.mem, hu]⟩
  · rw [← queue, ← hids, issueQueue, issueQueue, rest.engines]
  · have stands : LaneQueued u c f (mk l) i := by
      obtain ⟨hj, rfl⟩ := List.getElem?_eq_some_iff.1 hl
      obtain ⟨hj', rfl⟩ := List.getElem?_eq_some_iff.1 hi
      exact each.get hj hj'
    obtain ⟨k, hk, body, fills, token⟩ := stands.finish
    exact ⟨k, hk, body, fills, lane l ▸ token⟩

/-- ISSUING ENGINE COMMANDS has the shape `QueuesAll`, where what is said of the state after holds once the quota takes them. -/
theorem queuesAll_issueCmds {s : State} {c : Ctx} {f : Form} (issues : Issues s f c) (canon : Canonical s) {engine : Nat}
    {queue : State → OvQueue} (hq : queue = issueQueue engine (coreOfWarp c.warp)) {toks : List Operand} {body : Nat → CmdBody}
    {setup : Cmd → Cmd} (hs : ∀ k, (setup k).lane = k.lane ∧ (setup k).engine = k.engine ∧ (setup k).core = k.core)
    {before : State → Cmd → State} (hb : Relocks before) {mk : Nat → Cmd}
    (hmk : mk = fun l => setup (cmdOf (carryToks s c f toks engine) c engine l (body l)
      (inputPops (carryToks s c f toks engine) c f toks engine l))) {ok : State → Prop}
    (hok : ok (finish (issueAll (carryToks s c f toks engine) c f mk before) c f)) :
    QueuesAll s c f engine queue toks body setup before (.next (issueCmds s (carryToks s c f toks engine) c f mk before)) ok := by
  subst hq
  have lane (l : Nat) : (mk l).lane = l := by rw [hmk]; exact (hs _).1
  have hengine (l : Nat) : (mk l).engine = engine := by rw [hmk]; exact (hs _).2.1
  have hcore (l : Nat) : (mk l).core = coreOfWarp c.warp := by rw [hmk]; exact (hs _).2.2
  have queued := queued_issueAll issues canon (toks := toks) hb lane hengine hcore
  unfold QueuesAll
  dsimp only
  rw [← hmk]
  refine ⟨fun beyond => ?_, fun fits => ⟨_, ?_, queued, hok⟩, fun w hf quota => ?_⟩
  · rw [issueCmds, if_pos beyond, pathMask_carryToks]
  · rw [issueCmds, if_neg (Nat.not_lt.2 fits)]
  · have native : carryToks s c f toks engine = s := by subst hf; rfl
    rw [native]
    exact issueAll_quota hf hb quota

end Machine
end Sys2Proof
end

section
/-!
SUPPORT. O30: MX commands and turns (R105, R251, R256 to R260, R302).
-/
namespace Sys2Proof.Machine

theorem firstFault_eq_none {fs : List (Nat × Nat × LaneAddrs)} (h : ∀ x ∈ fs, x.2.2 = []) : firstFault fs = none := by
  unfold firstFault
  rw [List.find?_eq_none.2 fun x hx => by simp [h x hx]]
  rfl

theorem issueQueue_mx (core : Nat) : issueQueue 3 core = fun t => t.e.mxq.getD queueZero core := rfl

theorem issueQueue_bx (core : Nat) : issueQueue 2 core = fun t => t.e.bxq.getD queueZero core := rfl

/-- Setting chunks changes chunks alone. -/
theorem setChunks_eq (s : State) (core lo : Nat) (v : ChunkState) (n : Nat) :
    setChunks s core lo v n = relock s (setChunks s core lo v n).e.chunks s.e.locks := by
  induction n generalizing s lo with
  | zero => rfl
  | succ n ih => exact ih (setChunk s core lo v) (lo + 1)

theorem relocks_lockStore (c : Ctx) (f : Form) : Relocks (lockStore c f) := by
  intro t k
  unfold lockStore
  split
  · split
    · exact ⟨_, _, rfl⟩
    · dsimp only
      rw [setChunks_eq]
      exact ⟨_, _, rfl⟩
  · exact ⟨_, _, rfl⟩

/-- An MX command that breaks no rule of issue is queued by every lane. -/
theorem mxIssue_queues {f : Form} {s : State} {c : Ctx} (issues : Issues s f c) (canon : Canonical s) (span : outsideSpan s c = [])
    {loop : Bool} {extra : Nat} {mk : Ctx → Nat → CmdBody} {body : Nat → CmdBody} (hbody : mk c = body)
    (clean : ∀ l ∈ (pathMask s c.pid).lanes, mxScrBad s c.gang (tailMode s (coreOfWarp c.warp)).1 (body l) = none ∧
      mxRangeBad (tailMode s (coreOfWarp c.warp)).1 loop (body l) = false) :
    QueuesAll s c f 3 (fun t => t.e.mxq.getD queueZero (coreOfWarp c.warp)) (mxTokens f extra) body
      (fun k => { k with mode := (tailMode s (coreOfWarp c.warp)).1, seed := (tailMode s (coreOfWarp c.warp)).2 }) (lockStore c f)
      (mxIssue f s loop extra mk) (fun _ => True) := by
  subst hbody
  have placed : (pathMask s c.pid).lanes.filterMap (fun l =>
      (mxScrBad s c.gang (tailMode s (coreOfWarp c.warp)).1 (mk c l)).map (fun a => (l, a.setWidth 64))) = [] :=
    List.filterMap_eq_nil_iff.2 fun l hl => by rw [(clean l hl).1]; rfl
  have inRange : (pathMask s c.pid).lanes.filter (fun l => mxRangeBad (tailMode s (coreOfWarp c.warp)).1 loop (mk c l)) = [] :=
    List.filter_eq_nil_iff.2 fun l hl => by simp [(clean l hl).2]
  have noFault : firstFault [(0x0D, 0xFF, plainLanes (outsideSpan s c)), (0x0C, 2, (pathMask s c.pid).lanes.filterMap (fun l =>
      (mxScrBad s c.gang (tailMode s (coreOfWarp c.warp)).1 (mk c l)).map (fun a => (l, a.setWidth 64)))),
      (0x10, 0xFF, plainLanes ((pathMask s c.pid).lanes.filter (fun l =>
        mxRangeBad (tailMode s (coreOfWarp c.warp)).1 loop (mk c l))))] = none :=
    firstFault_eq_none (by simp [placed, inRange, span, plainLanes])
  rw [mxIssue, issuing_eq issues]
  dsimp only
  rw [noFault]
  dsimp only
  refine queuesAll_issueCmds issues canon (issueQueue_mx _).symm ?_ (relocks_lockStore c f) ?_ trivial
  · exact fun _ => ⟨rfl, rfl, rfl⟩
  · rfl

/-- The input tokens of a `cv.turn`. -/
def turnTokens (f : Form) : List Operand := match f with | .p w => w.ext.take (immNat w.c / 16) | .n _ => []

/-- A `cv.turn` that breaks no rule of issue is queued by every lane. -/
theorem execCvTurn_queues {f : Form} {s : State} {c : Ctx} (issues : Issues s f c) (canon : Canonical s) (span : outsideSpan s c = [])
    (may : lrTurn (launchRec s c.gang) = true)
    (masks : ∀ l ∈ (pathMask s c.pid).lanes, 1 ≤ strandMask s c f l ∧ strandMask s c f l < 65536) :
    QueuesAll s c f 2 (fun t => t.e.bxq.getD queueZero (coreOfWarp c.warp))
      (turnTokens f)
      (fun l => .turn (hopOf c.die (modOf f % 2)).1 (hopOf c.die (modOf f % 2)).2 (if modOf f / 2 % 2 = 0 then .cw else .ccw)
        (BitVec.ofNat 16 (strandMask s c f l))) id (fun s _ => s) (execCvTurn f s) (fun _ => True) := by
  have inRange : (pathMask s c.pid).lanes.filter (fun l => decide (65536 ≤ strandMask s c f l) || strandMask s c f l == 0) = [] :=
    List.filter_eq_nil_iff.2 fun l hl => by have := masks l hl; simp; omega
  have noFault : firstFault [(0x0D, 0xFF, plainLanes (outsideSpan s c)),
      (0x17, 0xFF, plainLanes (if lrTurn (launchRec s c.gang) then [] else (pathMask s c.pid).lanes)),
      (0x10, 0xFF, plainLanes ((pathMask s c.pid).lanes.filter (fun l =>
        decide (65536 ≤ strandMask s c f l) || strandMask s c f l == 0)))] = none :=
    firstFault_eq_none (by rw [inRange, if_pos may, span]; simp [plainLanes])
  unfold execCvTurn
  rw [issuing_eq issues]
  dsimp only
  rw [noFault]
  dsimp only
  refine queuesAll_issueCmds issues canon (issueQueue_bx _).symm ?_ (fun t _ => ⟨t.e.chunks, t.e.locks, rfl⟩) ?_ trivial
  · exact fun _ => ⟨rfl, rfl, rfl⟩
  · rfl

/-- Settles O30: each instruction finds no fault, and its lanes' commands are issued (`queuesAll_issueCmds`). -/
theorem matrixCommandsAndTurnsAreQueued : Obligations.MatrixCommandsAndTurnsAreQueued := by
  intro f s c issues canon core ls n odd bs p x mode h queues span
  refine ⟨?_, ?_, ?_, ?_, ?_, ?_, ?_⟩
  · exact mxIssue_queues (mk := fun _ _ => .mxZero n) issues canon span rfl
  · exact mxIssue_queues (mk := fun c l => .mxLd n odd bs (ptrVal s c f 0 l)) issues canon span rfl
  · exact mxIssue_queues (mk := fun c l => .mxSteps n odd bs (ptrVal s c f 0 l) (ptrVal s c f 1 l)
      (if bs then mxExtra s c f 0 l else 0) 1 0 0 0) issues canon span rfl
  · exact mxIssue_queues (mk := fun c l => .mxSteps n odd bs (ptrVal s c f 0 l) (ptrVal s c f 1 l)
      (if bs then mxExtra s c f 3 l else 0) (mxExtra s c f 0 l).toNat (mxExtra s c f 1 l) (mxExtra s c f 2 l)
      (if bs then mxExtra s c f 4 l else 0)) issues canon span rfl
  · exact mxIssue_queues (mk := fun c l => .mxStore n odd (ptrVal s c f 0 l)) issues canon span rfl
  · exact mxIssue_queues (mk := fun c l => .mxMode (bindRnd (modeThread s c l) (src s c f 0 .i64 false l)) (modeThread s c l).seed)
      issues canon span rfl
  · exact execCvTurn_queues issues canon span

end Sys2Proof.Machine
end

section
/-!
SUPPORT. O29: commands of the copy family (R91, R98, R99, R105, R107), and the chunks and locks of their near regions.
-/
namespace Sys2Proof.Machine

/-! ### Chunks that become empty -/

/-- The chunks' map is canonical. -/
abbrev ChunksWf (s : State) : Prop := SMap.wf .empty s.e.chunks = true

theorem setChunk_wf {s : State} (core i : Nat) (v : ChunkState) (h : ChunksWf s) : ChunksWf (setChunk s core i v) :=
  SMap.wf_putD _ _ h

theorem setChunks_wf {s : State} (core lo : Nat) (v : ChunkState) (n : Nat) (h : ChunksWf s) : ChunksWf (setChunks s core lo v n) := by
  induction n generalizing s lo with
  | zero => exact h
  | succ n ih => exact ih (lo + 1) (setChunk_wf core lo v h)

/-- What a chunk's key holds after chunks have been set. -/
theorem getD_setChunks {s : State} (core lo : Nat) (v : ChunkState) (n k : Nat) (h : ChunksWf s) :
    (setChunks s core lo v n).e.chunks.getD .empty k =
      if core * 512 + lo ≤ k ∧ k < core * 512 + lo + n then v else s.e.chunks.getD .empty k := by
  induction n generalizing s lo with
  | zero => rw [if_neg (by omega)]; rfl
  | succ n ih =>
    rw [setChunks, ih (lo + 1) (setChunk_wf core lo v h), setChunk_e_chunks]
    by_cases first : k = core * 512 + lo
    · subst first
      rw [if_neg (by omega), if_pos (by omega), SMap.getD_putD_self _ _ h]
    · rw [SMap.getD_putD_ne _ _ _ first]
      congr 1
      exact propext (by omega)

/-- Emptying chunks leaves an empty chunk empty. -/
theorem getD_setChunks_empty {s : State} (core lo n k : Nat) (h : ChunksWf s) (hk : s.e.chunks.getD .empty k = .empty) :
    (setChunks s core lo .empty n).e.chunks.getD .empty k = .empty := by
  rw [getD_setChunks core lo .empty n k h]
  split
  · rfl
  · exact hk

/-- Chunks that have been emptied are. -/
theorem chunkAt_setChunks {s : State} (core lo : Nat) (v : ChunkState) {n i : Nat} (h : ChunksWf s) (hi : i < n) :
    chunkAt (setChunks s core lo v n) core (lo + i) = v := by
  rw [chunkAt, getD_setChunks core lo v n _ h, if_pos (by omega)]

/-! ### A lane's lock -/

theorem reserves_engines {s t : State} {ids : List Nat} (h : Reserves s t ids) :
    t.e.chunks = s.e.chunks ∧ t.e.locks = s.e.locks := by
  obtain ⟨_, _, _, _, _, rfl⟩ := h.only
  exact ⟨rfl, rfl⟩

theorem issueLane_chunks (s : State) (c : Ctx) (f : Form) (k : Cmd) : (issueLane s c f k).e.chunks = s.e.chunks := by
  have enter : (enterCmd s c f k).e.chunks = (reserveOut s c f k.engine k.lane).1.e.chunks := by
    unfold enterCmd pushCmd; dsimp only; split <;> rfl
  rw [issueLane_eq, putToken_e, enter, (reserves_engines (reserves_reserveOut ..)).1]

theorem issueLane_locks (s : State) (c : Ctx) (f : Form) (k : Cmd) : (issueLane s c f k).e.locks = s.e.locks := by
  have enter : (enterCmd s c f k).e.locks = (reserveOut s c f k.engine k.lane).1.e.locks := by
    unfold enterCmd pushCmd; dsimp only; split <;> rfl
  rw [issueLane_eq, putToken_e, enter, (reserves_engines (reserves_reserveOut ..)).2]

theorem cmdNumber_relock (s : State) (ch : SMap ChunkState) (lk : List Lock) (c : Ctx) (f : Form) (k : Cmd) :
    cmdNumber (relock s ch lk) c f k = cmdNumber s c f k := by
  rw [cmdNumber, relock_reserveOut]; rfl

/-- `t` is `s` but for chunks that have become empty and locks that have been added. -/
structure Empties (s t : State) : Prop where
  only : ∃ ch lk, t = relock s ch lk
  wf : ChunksWf s → ChunksWf t
  empty : ChunksWf s → ∀ k, s.e.chunks.getD .empty k = .empty → t.e.chunks.getD .empty k = .empty
  locks : ∀ k ∈ s.e.locks, k ∈ t.e.locks

theorem Empties.refl (s : State) : Empties s s := ⟨⟨_, _, rfl⟩, id, fun _ _ => id, fun _ => id⟩

/-- The state in which a region of chunks is empty and locked by a command. -/
def lockRegion (s : State) (core lo n cmd : Nat) : State :=
  relock s (setChunks s core lo .empty n).e.chunks (s.e.locks ++ [{ core := core, lo := lo, n := n, cmd := cmd }])

theorem empties_lockRegion (s : State) (core lo n cmd : Nat) : Empties s (lockRegion s core lo n cmd) where
  only := ⟨_, _, rfl⟩
  wf := setChunks_wf core lo .empty n
  empty h k := getD_setChunks_empty core lo n k h
  locks _ := List.mem_append_left _

/-- A command with a near destination locks its region for the number that it takes. -/
theorem lockNear_eq {c : Ctx} {f : Form} {s : State} {k : Cmd} {o : CopyOp} (hk : copyOf k = some o) {core pa : Nat}
    (near : o.toNear = true) (home : nearHome s k o = some (core, pa)) :
    lockNear c f s k = lockRegion s core (pa / 512) (boxBytes o / 512) (cmdNumber s c f k) := by
  unfold lockNear
  simp only [hk, near, home]
  rw [setChunks_eq]
  rfl

theorem empties_lockNear (c : Ctx) (f : Form) (s : State) (k : Cmd) : Empties s (lockNear c f s k) := by
  cases hk : copyOf k with
  | none => rw [lockNear, hk]; exact .refl s
  | some o =>
    cases near : o.toNear with
    | false => rw [lockNear, hk]; simp only [near]; exact .refl s
    | true =>
      cases home : nearHome s k o with
      | none => rw [lockNear, hk]; simp only [near, home]; exact .refl s
      | some h => rw [lockNear_eq hk near home]; exact empties_lockRegion ..

theorem relocks_lockNear (c : Ctx) (f : Form) : Relocks (lockNear c f) := fun t k => (empties_lockNear c f t k).only

/-- The chunks of a region are empty, and a command that is there holds a lock on it. -/
structure RegionLocked (u : State) (core lo n : Nat) : Prop where
  empty : ∀ i, i < n → chunkAt u core (lo + i) = .empty
  lock : ∃ k ∈ u.e.locks, k.core = core ∧ k.lo = lo ∧ k.n = n ∧ k.cmd < u.c.nextId ∧ (u.e.cmds.find? k.cmd).isSome = true

theorem issueLane_find (s : State) (c : Ctx) (f : Form) (k : Cmd) : cmdNumber s c f k < (issueLane s c f k).c.nextId ∧
    ((issueLane s c f k).e.cmds.find? (cmdNumber s c f k)).isSome = true := by
  rw [issueLane_eq, putToken_c, putToken_e, enterCmd_nextId, enterCmd_find]
  exact ⟨Nat.lt_succ_self _, rfl⟩

/-- The lanes that issue after it leave a region empty and locked. -/
theorem RegionLocked.issue {t : State} {core lo n : Nat} (h : RegionLocked t core lo n) (hw : ChunksWf t) (c : Ctx) (f : Form) (k : Cmd) :
    RegionLocked (issueLane (lockNear c f t k) c f k) core lo n := by
  have ready := empties_lockNear c f t k
  obtain ⟨ch, lk, only⟩ := ready.only
  have issued := issued_issueLane (lockNear c f t k) c f k
  obtain ⟨empty, b, hb, hcore, hlo, hn, known, there⟩ := h
  refine ⟨fun i hi => ?_, b, ?_, hcore, hlo, hn, ?_, ?_⟩
  · rw [chunkAt, issueLane_chunks]
    exact ready.empty hw _ (empty i hi)
  · rw [issueLane_locks]
    exact ready.locks b hb
  · exact Nat.lt_of_lt_of_le known (by rw [only] at issued ⊢; exact issued.later)
  · rw [issued.cmds b.cmd (by rw [only]; exact known), only]
    exact there

/-- A lane with a near destination empties and locks it. -/
theorem regionLocked_issueLane {t : State} (hw : ChunksWf t) {c : Ctx} {f : Form} {k : Cmd} {o : CopyOp} (hk : copyOf k = some o)
    {core pa : Nat} (near : o.toNear = true) (home : nearHome t k o = some (core, pa)) :
    RegionLocked (issueLane (lockNear c f t k) c f k) core (pa / 512) (boxBytes o / 512) := by
  rw [lockNear_eq hk near home]
  obtain ⟨known, there⟩ := issueLane_find (lockRegion t core (pa / 512) (boxBytes o / 512) (cmdNumber t c f k)) c f k
  rw [lockRegion, cmdNumber_relock] at known there
  refine ⟨fun i hi => ?_, { core := core, lo := pa / 512, n := boxBytes o / 512, cmd := cmdNumber t c f k }, ?_, rfl, rfl, rfl, known, there⟩
  · rw [chunkAt, issueLane_chunks]
    exact chunkAt_setChunks core (pa / 512) .empty hw hi
  · rw [issueLane_locks]
    exact List.mem_append_right _ (List.mem_singleton_self _)

/-- When all lanes have issued, the near destination of each is empty and locked. -/
theorem regionLocked_issueAll {s : State} (hw : ChunksWf s) {c : Ctx} {f : Form} {mk : Nat → Cmd} {l : Nat}
    (hl : l ∈ (pathMask s c.pid).lanes) {o : CopyOp} (hk : copyOf (mk l) = some o) {core pa : Nat} (near : o.toNear = true)
    (home : nearHome s (mk l) o = some (core, pa)) :
    RegionLocked (issueAll s c f mk (lockNear c f)) core (pa / 512) (boxBytes o / 512) := by
  have keeps (t : State) (m : Nat) (ht : ChunksWf t ∧ t.x.wgs = s.x.wgs) :
      ChunksWf (issueLane (lockNear c f t (mk m)) c f (mk m)) ∧ (issueLane (lockNear c f t (mk m)) c f (mk m)).x.wgs = s.x.wgs := by
    have ready := empties_lockNear c f t (mk m)
    refine ⟨by rw [ChunksWf, issueLane_chunks]; exact ready.wf ht.1, ?_⟩
    obtain ⟨_, _, _, _, _, _, _, _, _, _, h⟩ := (issued_issueLane (lockNear c f t (mk m)) c f (mk m)).only
    obtain ⟨_, _, only⟩ := ready.only
    rw [h, only]
    exact ht.2
  have both := foldl_reaches (f := fun t m => issueLane (lockNear c f t (mk m)) c f (mk m)) (b := l)
    (Q := fun t => ChunksWf t ∧ t.x.wgs = s.x.wgs)
    (P := fun t => (ChunksWf t ∧ t.x.wgs = s.x.wgs) ∧ RegionLocked t core (pa / 512) (boxBytes o / 512))
    keeps (fun t m ht => ⟨keeps t m ht.1, ht.2.issue ht.1.1 c f (mk m)⟩)
    (fun t ht => ⟨keeps t l ht, regionLocked_issueLane ht.1 hk near (by
      rw [← home]; unfold nearHome scrHome; rw [ht.2])⟩) hl ⟨hw, rfl⟩
  exact both.2

/-! ### Commands of the copy family -/

/-- The body of a lane's command. -/
abbrev copyCmdBody (o : CopyOp) : CmdBody := .copy o.kind o.shape o.near o.far o.toNear o.coords o.value o.list

/-- The command that a lane enters once carried tokens have their entries. -/
def laneCopy (s : State) (c : Ctx) (f : Form) (kind : CopyKind) (l : Nat) : Cmd :=
  cmdOf (carryToks s c f (copyTokens f kind) 2) c 2 l (copyCmdBody (copyBody s c f kind l))
    (inputPops (carryToks s c f (copyTokens f kind) 2) c f (copyTokens f kind) 2 l)

/-- A command of the copy family that breaks no rule of issue has no fault. -/
theorem copyIssue_eq {kind : CopyKind} {f : Form} {s : State} {c : Ctx} (issues : Issues s f c) (span : outsideSpan s c = [])
    (valid : (nth (wgAt s (wgKeyOf s c)).shapes none (shapeIx f)).isSome = true)
    (clean : ∀ l ∈ (pathMask s c.pid).lanes,
      (sideWord (copyBody s c f kind l).far).toNat % shSize ((nth (wgAt s (wgKeyOf s c)).shapes none (shapeIx f)).getD 0) = 0 ∧
        nearBad s c (copyBody s c f kind l) true = false ∧ listBad s c (copyBody s c f kind l) true = false ∧
        shapeFits (copyBody s c f kind l) true (modOf f) = true) :
    copyIssue kind f s = .next (issueCmds s (carryToks s c f (copyTokens f kind) 2) c f (laneCopy s c f kind) (lockNear c f)) := by
  have all (x : Nat × CopyOp) (hx : x ∈ (pathMask s c.pid).lanes.map (fun l => (l, copyBody s c f kind l))) :
      (sideWord x.2.far).toNat % shSize (copyBody s c f kind (firstLane s c.pid)).shape = 0 ∧ nearBad s c x.2 true = false ∧
        listBad s c x.2 true = false ∧ shapeFits x.2 true (modOf f) = true := by
    obtain ⟨l, hl, rfl⟩ := List.mem_map.1 hx
    exact clean l hl
  unfold copyIssue
  rw [issuing_eq issues]
  simp only [valid, if_true]
  rw [firstFault_eq_none]
  · rfl
  simp only [List.mem_cons, List.not_mem_nil, or_false]
  rintro x (rfl | rfl | rfl | rfl)
  · simp [span, plainLanes]
  · exact List.map_eq_nil_iff.2 (List.filter_eq_nil_iff.2 fun x hx => by simp [(all x hx).1])
  · exact List.filterMap_eq_nil_iff.2 fun x hx => by simp [(all x hx).2.1, (all x hx).2.2.1]
  · exact List.map_eq_nil_iff.2 (List.map_eq_nil_iff.2 (List.filter_eq_nil_iff.2 fun x hx => by simp [(all x hx).2.2.2]))

/-- A command of the copy family that breaks no rule of issue is queued by every lane, and locks its near destination. -/
theorem copyIssue_queues {kind : CopyKind} {f : Form} {s : State} {c : Ctx} (issues : Issues s f c) (canon : Canonical s)
    (span : outsideSpan s c = []) (valid : (nth (wgAt s (wgKeyOf s c)).shapes none (shapeIx f)).isSome = true)
    (clean : ∀ l ∈ (pathMask s c.pid).lanes,
      (sideWord (copyBody s c f kind l).far).toNat % shSize ((nth (wgAt s (wgKeyOf s c)).shapes none (shapeIx f)).getD 0) = 0 ∧
        nearBad s c (copyBody s c f kind l) true = false ∧ listBad s c (copyBody s c f kind l) true = false ∧
        shapeFits (copyBody s c f kind l) true (modOf f) = true) :
    QueuesAll s c f 2 (fun t => t.e.bxq.getD queueZero (coreOfWarp c.warp)) (copyTokens f kind)
      (fun l => copyCmdBody (copyBody s c f kind l)) id (lockNear c f) (copyIssue kind f s)
      (fun u => ∀ l ∈ (pathMask s c.pid).lanes, ∀ hc pa, (copyBody s c f kind l).toNear = true →
        nearHome s { cmdZero with gang := c.gang } (copyBody s c f kind l) = some (hc, pa) →
        (∀ i, i < boxBytes (copyBody s c f kind l) / 512 → chunkAt u hc (pa / 512 + i) = .empty) ∧
        ∃ k ∈ u.e.locks, k.core = hc ∧ k.lo = pa / 512 ∧ k.n = boxBytes (copyBody s c f kind l) / 512 ∧
          (u.e.cmds.find? k.cmd).isSome = true) := by
  rw [copyIssue_eq issues span valid clean]
  refine queuesAll_issueCmds issues canon (issueQueue_bx _).symm ?_ (relocks_lockNear c f) ?_ ?_
  · exact fun _ => ⟨rfl, rfl, rfl⟩
  · rfl
  · intro l hl hc pa near home
    obtain ⟨_, _, _, _, _, carried⟩ := tokensOnly_carryToks s c f (copyTokens f kind) 2
    have wf : ChunksWf (carryToks s c f (copyTokens f kind) 2) := by rw [carried]; exact canon.2.2.2.2.2.1
    obtain ⟨empty, k, hk, hcore, hlo, hn, -, there⟩ := regionLocked_issueAll wf (c := c) (f := f) (mk := laneCopy s c f kind)
      (by rw [pathMask_carryToks]; exact hl) (o := copyBody s c f kind l) rfl near (by
        rw [← home]; unfold nearHome scrHome; rw [carryToks_x]; rfl)
    obtain ⟨rest, -, -⟩ := finish_kept (issueAll (carryToks s c f (copyTokens f kind) 2) c f (laneCopy s c f kind) (lockNear c f)) c f
    refine ⟨fun i hi => ?_, k, ?_, hcore, hlo, hn, ?_⟩
    · rw [chunkAt, rest.engines]; exact empty i hi
    · rw [rest.engines]; exact hk
    · rw [rest.engines]; exact there

/-- Settles O29: each instruction of the family is a `copyIssue`. -/
theorem copyCommandsAreQueuedInLaneOrder : Obligations.CopyCommandsAreQueuedInLaneOrder := by
  intro kind f s c issues canon core shape o home valid span clean
  cases kind <;> exact copyIssue_queues issues canon span valid clean

end Sys2Proof.Machine
end

section
/-!
SUPPORT. O31: the shape register (R95, R115).
-/
namespace Sys2Proof.Machine

/-! ### Popping and withdrawing -/

/-- `t` is `s` but for the engines. -/
def EnginesOnly (s t : State) : Prop := ∃ e, t = { s with e := e }

theorem EnginesOnly.refl (s : State) : EnginesOnly s s := ⟨_, rfl⟩

theorem EnginesOnly.trans {s t u : State} (h : EnginesOnly s t) (h' : EnginesOnly t u) : EnginesOnly s u := by
  obtain ⟨_, rfl⟩ := h
  obtain ⟨_, rfl⟩ := h'
  exact ⟨_, rfl⟩

theorem enginesOnly_doPops (core y : Nat) (ps : List Pop) (s : State) : EnginesOnly s (doPops s core y ps) := by
  induction ps generalizing s with
  | nil => exact .refl s
  | cons p ps ih =>
    cases p with
    | queue x => exact EnginesOnly.trans ⟨_, rfl⟩ (ih _)
    | entry i =>
      refine EnginesOnly.trans ?_ (ih (eraseEntry s core i))
      unfold eraseEntry
      dsimp only
      split
      · exact .refl s
      · exact ⟨_, rfl⟩

theorem enginesOnly_popShapes (s : State) (c : Ctx) (ids : List Nat) : EnginesOnly s (popShapes s c ids) := by
  refine foldl_inv (EnginesOnly s) _ (fun t i ht => ?_) s ids (.refl s)
  split
  · exact ht
  · exact (ht.trans (enginesOnly_doPops ..)).trans ⟨_, rfl⟩

theorem enginesOnly_withdrawShapes (s : State) (pid : Nat) : EnginesOnly s (withdrawShapes s pid) :=
  foldl_inv (EnginesOnly s) _ (fun _ _ ht => ht.trans ⟨_, rfl⟩) s _ (.refl s)

/-! ### Each lane's token is done -/

/-- A lane's token is provided and filled. -/
def shapeLane (c : Ctx) (f : Form) (s : State) (l : Nat) : State :=
  let q := reserveOut s c f 2 l
  putDst (fillTokens q.1 q.2 { statusEntry (statusWord false 0 0) with wrote := coreFrames s (coreOfWarp c.warp) s.c.nextId })
    c.pid l (tokenDst c f) (BitVec.ofNat 64 (q.2.headD 0))

/-- The state with the record in the shape register. -/
def shapeSet (s : State) (c : Ctx) (f : Form) (recs : List (Nat × List Byte)) : State :=
  let w := wgAt s (wgKeyOf s c)
  let r := leNat ((recs.getLast?.map (·.2)).getD [])
  setWg s (wgKeyOf s c) { w with shapes := setNth w.shapes (shapeK f) (some (BitVec.ofNat 1024 r)) }

theorem shapeWritten_eq (s : State) (c : Ctx) (f : Form) (recs : List (Nat × List Byte)) :
    shapeWritten s c f recs = (pathMask s c.pid).lanes.foldl (shapeLane c f) (shapeSet s c f recs) := by
  cases f <;> rfl

/-- Lanes `ls` have provided tokens: what was filled is, and every value but those of destination `d` in these lanes is as it was. -/
structure Provided (s u : State) (pid : Nat) (d : Dst) (ls : List Nat) : Prop where
  only : IssueOnly s u
  later : s.c.nextId ≤ u.c.nextId
  filled : ∀ i, i < s.c.nextId → isFilled s i = true → isFilled u i = true
  vals : ∀ k, k ∉ valKeys pid d ls → u.x.vals.getD 0 k = s.x.vals.getD 0 k
  wf : RegsWf s → RegsWf u

theorem Issued.provided {s u : State} {pid : Nat} {d : Dst} {ls : List Nat} (h : Issued s u pid d ls) : Provided s u pid d ls :=
  ⟨h.only, h.later, fun i hi done => by rw [isFilled, h.entries i hi]; exact done, h.vals, h.wf⟩

theorem Provided.trans {s t u : State} {pid : Nat} {d : Dst} {ls : List Nat} (h : Provided s t pid d ls) (h' : Provided t u pid d ls) :
    Provided s u pid d ls where
  only := h.only.trans h'.only
  later := Nat.le_trans h.later h'.later
  filled i hi done := h'.filled i (Nat.lt_of_lt_of_le hi h.later) (h.filled i hi done)
  vals k hk := (h'.vals k hk).trans (h.vals k hk)
  wf := h'.wf ∘ h.wf

theorem Provided.mono {s u : State} {pid : Nat} {d : Dst} {ls ms : List Nat} (h : Provided s u pid d ls) (hm : ∀ l ∈ ls, l ∈ ms) :
    Provided s u pid d ms :=
  { h with vals := fun k hk => h.vals k (mt (valKeys_mono hm k) hk) }

theorem provided_fillTokens (s : State) (ids : List Nat) (e : Entry) (pid : Nat) (d : Dst) (ls : List Nat) :
    Provided s (fillTokens s ids e) pid d ls where
  only := (tokensOnly_fillTokens s ids e).issueOnly
  later := by rw [control_fillTokens]
  filled i _ := filledStays_fillTokens s ids e i
  vals _ _ := by rw [(tokensOnly_fillTokens s ids e).x]
  wf := by unfold RegsWf; rw [(tokensOnly_fillTokens s ids e).x]; exact id

/-- A lane's token value names an entry that is filled. -/
def TokenDone (u : State) (c : Ctx) (l : Nat) : Prop :=
  ∃ e, e < u.c.nextId ∧ getVal u (threadKey c.pid l) c.depth c.n = BitVec.ofNat 64 e ∧ isFilled u e = true

theorem provided_shapeLane (c : Ctx) (f : Form) (s : State) (l : Nat) : Provided s (shapeLane c f s l) c.pid (tokenDst c f) [l] :=
  ((issued_of_reserves (reserves_reserveOut s c f 2 l) ..).provided.trans (provided_fillTokens ..)).trans (issued_putToken ..).provided

theorem tokenDone_shapeLane {s : State} (hw : RegsWf s) (c : Ctx) (w : PForm) (l : Nat) : TokenDone (shapeLane c (.p w) s l) c l := by
  obtain ⟨g, rest, hids⟩ := reserveOut_p s c w 2 l
  have reserved := reserves_reserveOut s c (.p w) 2 l
  have hg : g ∈ (reserveOut s c (.p w) 2 l).2 := hids ▸ List.mem_cons_self
  obtain ⟨-, known, -⟩ := reserved.fresh g hg
  have wf (e : Entry) : RegsWf (fillTokens (reserveOut s c (.p w) 2 l).1 (g :: rest) e) :=
    ((issued_of_reserves reserved c.pid .none []).provided.trans (provided_fillTokens _ _ e ..)).wf hw
  refine ⟨g, ?_, ?_, ?_⟩
  · rw [shapeLane, putToken_c, control_fillTokens]
    exact known
  · rw [shapeLane, hids]
    exact SMap.getD_putD_self _ _ (wf _).1
  · rw [shapeLane, isFilled, entryAt, putToken_e]
    exact isFilled_fillTokens _ hg

theorem TokenDone.after {s u : State} {c : Ctx} {f : Form} {l : Nat} (h : TokenDone s c l) {ls : List Nat}
    (hu : Provided s u c.pid (tokenDst c f) ls) (_ : l < 64) (others : ∀ m ∈ ls, m < 64 ∧ m ≠ l) : TokenDone u c l := by
  obtain ⟨e, known, value, done⟩ := h
  refine ⟨e, Nat.lt_of_lt_of_le known hu.later, (hu.vals _ fun hm => ?_).trans value, hu.filled e known done⟩
  cases f with
  | n w => exact List.not_mem_nil hm
  | p w =>
    obtain ⟨m, hm, key⟩ := List.mem_map.1 hm
    obtain ⟨small, ne⟩ := others m hm
    unfold valKey threadKey at key
    omega

/-- All lanes provide their tokens. -/
theorem provided_shapeLanes (c : Ctx) (f : Form) (ls : List Nat) (nodup : ls.Nodup) (small : ∀ l ∈ ls, l < 64) {s : State} (hw : RegsWf s) :
    Provided s (ls.foldl (shapeLane c f) s) c.pid (tokenDst c f) ls ∧
      ∀ w, f = .p w → ∀ l ∈ ls, TokenDone (ls.foldl (shapeLane c f) s) c l := by
  induction ls generalizing s with
  | nil => exact ⟨(Issued.refl ..).provided, by simp⟩
  | cons l ls ih =>
    obtain ⟨new, nodup⟩ := List.nodup_cons.1 nodup
    have first := provided_shapeLane c f s l
    obtain ⟨rest, done⟩ := ih nodup (fun m hm => small m (List.mem_cons_of_mem _ hm)) (first.wf hw)
    refine ⟨(first.mono (by simp)).trans (rest.mono fun m hm => List.mem_cons_of_mem _ hm), fun w hf m hm => ?_⟩
    rcases List.mem_cons.1 hm with rfl | hm
    · have one : TokenDone (shapeLane c f s m) c m := by subst hf; exact tokenDone_shapeLane hw c w m
      exact one.after rest (small m List.mem_cons_self) fun j hj =>
        ⟨small j (List.mem_cons_of_mem _ hj), by rintro rfl; exact new hj⟩
    · exact done w hf m hm

/-! ### The instruction -/

/-- A `bx.shape` that breaks no rule of issue has no fault. -/
theorem shapeFault_none {f : Form} {s : State} {c : Ctx} (sp : Nat) (span : outsideSpan s c = [])
    (clean : ∀ l ∈ (pathMask s c.pid).lanes, (addrOf s c f l).toNat % 16 = 0 ∧
      (sp = 2 → (scrHome s c.gang ((addrOf s c f l).setWidth 32) 128).isSome = true)) :
    firstFault [(0x0D, 0xFF, plainLanes (outsideSpan s c)),
      (5, sp, ((pathMask s c.pid).lanes.map (fun l => (l, addrOf s c f l))).filter (fun x => x.2.toNat % 16 != 0)),
      (0x0C, 2, ((pathMask s c.pid).lanes.map (fun l => (l, addrOf s c f l))).filter
        (fun x => sp == 2 && (scrHome s c.gang (x.2.setWidth 32) 128).isNone))] = none := by
  refine firstFault_eq_none ?_
  simp only [List.mem_cons, List.not_mem_nil, or_false]
  rintro x (rfl | rfl | rfl)
  · simp [span, plainLanes]
  · refine List.filter_eq_nil_iff.2 fun x hx => ?_
    obtain ⟨l, hl, rfl⟩ := List.mem_map.1 hx
    simp [(clean l hl).1]
  · refine List.filter_eq_nil_iff.2 fun x hx => ?_
    obtain ⟨l, hl, rfl⟩ := List.mem_map.1 hx
    by_cases h : sp = 2
    · have held := Option.isSome_iff_ne_none.1 ((clean l hl).2 h)
      simp [h, held]
    · simp [h]

/-- Without a fault an instruction goes on. -/
theorem unfaulted {fs : List (Nat × Nat × LaneAddrs)} (a : TrapRec → State) (b : State) (h : firstFault fs = none) :
    (match firstFault fs with | some t => a t | none => b) = b := by rw [h]

/-- The space that a `bx.shape` reads its records in. -/
def shapeSpace (s : State) (c : Ctx) (f : Form) : Nat := match sideTy s c f 0 with | .ptrS => 2 | _ => 0

theorem shapeSpace_eq (s : State) (c : Ctx) (f : Form) : shapeSpace s c f = if sideTy s c f 0 = .ptrS then 2 else 0 := by
  unfold shapeSpace
  cases sideTy s c f 0 <;> rfl

/-- What a `bx.shape` that breaks no rule of issue does. -/
theorem execBxShape_eq {f : Form} {s : State} {c : Ctx} (issues : Issues s f c) (span : outsideSpan s c = [])
    (clean : ∀ l ∈ (pathMask s c.pid).lanes, (addrOf s c f l).toNat % 16 = 0 ∧
      (shapeSpace s c f = 2 → (scrHome s c.gang ((addrOf s c f l).setWidth 32) 128).isSome = true)) :
    execBxShape f s = .next (
      if (shapeCmds s c.pid).isEmpty && execBxShape.hasPops f then
        if 4096 < spilled (queueShapes s c f) (coreOfWarp c.warp) then
          shapeRead s c f (shapeSpace s c f) (fun _ => raise s c f (plainTrap 0x0F (pathMask s c.pid).lanes))
        else hold (queueShapes s c f) c.pid f (.bxTurn (coreOfWarp c.warp) (shapeCmds (queueShapes s c f) c.pid))
      else if !(shapeCmds s c.pid).isEmpty && !shapePopped s c.pid &&
          !waitOver s c.pid (.bxTurn (coreOfWarp c.warp) (shapeCmds s c.pid)) then
        hold s c.pid f (.bxTurn (coreOfWarp c.warp) (shapeCmds s c.pid))
      else shapeRead (if shapePopped s c.pid then s else popShapes s c (shapeCmds s c.pid)) c f (shapeSpace s c f)
        (shapeDone (if shapePopped s c.pid then s else popShapes s c (shapeCmds s c.pid)) c f)) := by
  unfold execBxShape
  rw [issuing_eq issues]
  exact congrArg Host.Outcome.next (unfaulted _ _ (shapeFault_none (shapeSpace s c f) span clean))

/-- The record read obeys R95 in every lane. -/
theorem shapeRead_good {s : State} {c : Ctx} {f : Form} {sp : Nat} {k : List (Nat × List Byte) → State} {recs : List (Nat × List Byte)}
    (read : readRecords s c f sp (pathMask s c.pid).lanes 128 16 = .ok recs)
    (good : ∀ x ∈ recs, shapeOk (BitVec.ofNat 1024 (leNat x.2)) = true) : shapeRead s c f sp k = k recs := by
  have none : recs.filter (fun r => !shapeOk (BitVec.ofNat 1024 (leNat r.2))) = [] :=
    List.filter_eq_nil_iff.2 fun x hx => by simp [good x hx]
  rw [shapeRead, read]
  simp [none]

/-- A record that breaks R95 is a shape fault. -/
theorem shapeRead_bad {s : State} {c : Ctx} {f : Form} {sp : Nat} {k : List (Nat × List Byte) → State} {recs : List (Nat × List Byte)}
    {bad : List Nat} (read : readRecords s c f sp (pathMask s c.pid).lanes 128 16 = .ok recs)
    (hbad : bad = (recs.filter (fun r => !shapeOk (BitVec.ofNat 1024 (leNat r.2)))).map (·.1)) (some : bad ≠ []) :
    shapeRead s c f sp k = raise (withdrawShapes s c.pid) c f (plainTrap 0x0E bad) := by
  rw [shapeRead, read]
  dsimp only
  rw [← hbad, if_pos (by simpa using some)]

/-- The path after its note of an unresolved fault is cleared. -/
theorem pathAt_clearNoFix {s : State} {pid : Nat} (hp : (s.x.paths.find? pid).isSome = true) :
    pathAt (clearNoFix s pid) pid = { pathAt s pid with noFix := false } :=
  pathAt_updPath_self _ hp

theorem registers_clearNoFix {s : State} {pid : Nat} (d : Dst) (ls : List Nat) (hp : (s.x.paths.find? pid).isSome = true) :
    RegistersKept s (clearNoFix s pid) pid d ls :=
  ⟨fun _ _ => rfl, fun _ _ => rfl, fun _ _ => rfl, fun r _ => by unfold getSreg; rw [pathAt_clearNoFix hp]; rfl⟩

theorem wgAt_shapeSet (s : State) (c : Ctx) (f : Form) {recs : List (Nat × List Byte)} {r : Nat × List Byte} (last : r ∈ recs.getLast?) :
    wgAt (shapeSet s c f recs) (wgKeyOf s c) = { wgAt s (wgKeyOf s c) with
      shapes := setNth (wgAt s (wgKeyOf s c)).shapes (shapeK f) (some (BitVec.ofNat 1024 (leNat r.2))) } := by
  rw [shapeSet, Option.mem_def.1 last]
  simp [wgAt, setWg, SMap.getD, SMap.find?_ins_self]

/-- `v` is `s` but that shape register `shapeK f` holds record `r`, and every lane's token is done. -/
structure ShapeHeld (s v : State) (c : Ctx) (f : Form) (r : Nat × List Byte) : Prop where
  issue : v.c.issue = s.c.issue
  paths : v.x.paths = s.x.paths
  shape : nth (wgAt v (wgKeyOf s c)).shapes none (shapeK f) = some (BitVec.ofNat 1024 (leNat r.2))
  mem : v.m.mem = s.m.mem
  threads : v.x.threads = s.x.threads
  registers : RegistersKept s v c.pid (tokenDst c f) (pathMask s c.pid).lanes
  done : ∀ w, f = .p w → ∀ l ∈ (pathMask s c.pid).lanes, TokenDone v c l

/-- The records are in: the shape register holds the last lane's. -/
theorem shapeHeld_shapeWritten {s : State} (regs : RegsWf s) (c : Ctx) (f : Form) {recs : List (Nat × List Byte)} {r : Nat × List Byte}
    (last : r ∈ recs.getLast?) (room : shapeK f < (wgAt s (wgKeyOf s c)).shapes.length) :
    ShapeHeld s (shapeWritten s c f recs) c f r := by
  obtain ⟨given, done⟩ := provided_shapeLanes c f (pathMask s c.pid).lanes (lanes_nodup _) (fun _ => mem_lanes_lt)
    (s := shapeSet s c f recs) regs
  rw [← shapeWritten_eq] at given done
  obtain ⟨_, _, _, _, _, _, _, _, _, _, only⟩ := given.only
  refine ⟨by rw [only]; rfl, by rw [only]; rfl, ?_, by rw [only]; rfl, by rw [only]; rfl, ⟨given.vals, ?_, ?_, ?_⟩, done⟩
  · have written : wgAt (shapeWritten s c f recs) (wgKeyOf s c) = wgAt (shapeSet s c f recs) (wgKeyOf s c) := by rw [only]; rfl
    rw [written, wgAt_shapeSet s c f last]
    simp [nth, setNth, room]
  · intro _ _; rw [only]; rfl
  · intro _ _; rw [only]; rfl
  · intro _ _; rw [only]; rfl

/-- What a change of the engines before leaves the same. -/
theorem ShapeHeld.engines {s t v : State} {c : Ctx} {f : Form} {r : Nat × List Byte} (h : EnginesOnly s t) (held : ShapeHeld t v c f r) :
    ShapeHeld s v c f r := by
  obtain ⟨_, rfl⟩ := h
  obtain ⟨issue, paths, shape, mem, threads, ⟨vals, vregs, sregs, own⟩, done⟩ := held
  exact ⟨issue, paths, shape, mem, threads, ⟨vals, vregs, sregs, own⟩, done⟩

/-- The path goes past the instruction. -/
theorem ShapeHeld.finish {s v u : State} {c : Ctx} {f : Form} {r : Nat × List Byte} (held : ShapeHeld s v c f r)
    (hp : (s.x.paths.find? c.pid).isSome = true) (hu : u = Machine.finish (clearNoFix v c.pid) c f) :
    Past s u c f ∧ nth (wgAt u (wgKeyOf s c)).shapes none (shapeK f) = some (BitVec.ofNat 1024 (leNat r.2)) ∧ u.m.mem = s.m.mem ∧
      u.x.threads = s.x.threads ∧ RegistersKept s u c.pid (tokenDst c f) (pathMask s c.pid).lanes ∧
      ∀ w, f = .p w → ∀ l ∈ (pathMask s c.pid).lanes,
        ∃ e, getVal u (threadKey c.pid l) c.depth c.n = BitVec.ofNat 64 e ∧ isFilled u e = true := by
  have there : (v.x.paths.find? c.pid).isSome = true := by rw [held.paths]; exact hp
  have there' : ((clearNoFix v c.pid).x.paths.find? c.pid).isSome = true := isSome_updPath _ _ there
  obtain ⟨rest, -, x⟩ := finish_kept (clearNoFix v c.pid) c f
  rw [← hu] at rest x
  refine ⟨?_, ?_, ?_, ?_, ?_, ?_⟩
  · subst hu
    cases f with
    | p w => exact (finish_goesOn (.p w) there').2
    | n w =>
      have pc : (pathAt (clearNoFix v c.pid) c.pid).pc = (pathAt s c.pid).pc := by
        rw [pathAt_clearNoFix there, pathAt, held.paths]; rfl
      exact ⟨held.issue, pc⟩
  · rw [wgAt, x]; exact held.shape
  · rw [rest.mem]; exact held.mem
  · rw [x]; exact held.threads
  · rw [hu]; exact (held.registers.trans (registers_clearNoFix _ _ there)).trans (finish_registers f _ _ there')
  · intro w hf l hl
    obtain ⟨e, -, value, filled⟩ := held.done w hf l hl
    exact ⟨e, by rw [getVal, x]; exact value, by rw [isFilled, entryAt, rest.engines]; exact filled⟩

end Sys2Proof.Machine
end

section
/-!
SUPPORT. O31: the turn of a `bx.shape` (R115), and the chunk instructions (R118).
-/
namespace Sys2Proof.Machine

/-! ### The turn of a `bx.shape` -/

/-- A form with tokens. -/
abbrev HasTokens (f : Form) : Prop := match f with | .p w => w.ext ≠ [] | .n _ => popCodes f ≠ []

theorem hasPops_iff (f : Form) : execBxShape.hasPops f = true ↔ HasTokens f := by
  cases f <;> simp [execBxShape.hasPops, HasTokens]

section
variable {f : Form} {s : State} {c : Ctx} (issues : Issues s f c) (span : outsideSpan s c = [])
  (clean : ∀ l ∈ (pathMask s c.pid).lanes, (addrOf s c f l).toNat % 16 = 0 ∧
    (shapeSpace s c f = 2 → (scrHome s c.gang ((addrOf s c f l).setWidth 32) 128).isSome = true))
include issues span clean

theorem execBxShape_queues (first : shapeCmds s c.pid = []) (tokens : HasTokens f)
    (fits : spilled (queueShapes s c f) (coreOfWarp c.warp) ≤ 4096) : execBxShape f s =
      .next (hold (queueShapes s c f) c.pid f (.bxTurn (coreOfWarp c.warp) (shapeCmds (queueShapes s c f) c.pid))) := by
  rw [execBxShape_eq issues span clean, first, (hasPops_iff f).2 tokens]
  simp [Nat.not_lt.2 fits]

theorem execBxShape_waits (queued : shapeCmds s c.pid ≠ []) (unpopped : shapePopped s c.pid = false)
    (turn : waitOver s c.pid (.bxTurn (coreOfWarp c.warp) (shapeCmds s c.pid)) = false) :
    execBxShape f s = .next (hold s c.pid f (.bxTurn (coreOfWarp c.warp) (shapeCmds s c.pid))) := by
  rw [execBxShape_eq issues span clean]
  simp [queued, unpopped, turn]

theorem execBxShape_reads (ready : (shapeCmds s c.pid = [] ∧ ¬HasTokens f) ∨ (shapeCmds s c.pid ≠ [] ∧
      (shapePopped s c.pid = true ∨ waitOver s c.pid (.bxTurn (coreOfWarp c.warp) (shapeCmds s c.pid)) = true))) :
    execBxShape f s = .next (shapeRead (if shapePopped s c.pid then s else popShapes s c (shapeCmds s c.pid)) c f (shapeSpace s c f)
      (shapeDone (if shapePopped s c.pid then s else popShapes s c (shapeCmds s c.pid)) c f)) := by
  rw [execBxShape_eq issues span clean]
  rcases ready with ⟨none, untokened⟩ | ⟨queued, popped | turn⟩
  · simp [none, mt (hasPops_iff f).1 untokened]
  · simp [queued, popped]
  · simp [queued, turn]

end

/-- The part of O31 about shape records (R95, R115). -/
theorem shapeRecords_follow {f : Form} {s : State} {c : Ctx} (issues : Issues s f c) (canon : Canonical s) (span : outsideSpan s c = [])
    (clean : ∀ l ∈ (pathMask s c.pid).lanes, (addrOf s c f l).toNat % 16 = 0 ∧
      (shapeSpace s c f = 2 → (scrHome s c.gang ((addrOf s c f l).setWidth 32) 128).isSome = true))
    (ready : (shapeCmds s c.pid = [] ∧ ¬HasTokens f) ∨ (shapeCmds s c.pid ≠ [] ∧
      (shapePopped s c.pid = true ∨ waitOver s c.pid (.bxTurn (coreOfWarp c.warp) (shapeCmds s c.pid)) = true)))
    {t : State} (ht : t = if shapePopped s c.pid then s else popShapes s c (shapeCmds s c.pid)) {recs : List (Nat × List Byte)}
    (read : readRecords t c f (shapeSpace s c f) (pathMask s c.pid).lanes 128 16 = .ok recs) :
    (∀ r ∈ recs.getLast?, (∀ x ∈ recs, shapeOk (BitVec.ofNat 1024 (leNat x.2)) = true) →
      shapeK f < (wgAt s (wgKeyOf s c)).shapes.length →
      spilled (shapeWritten (withdrawShapes t c.pid) c f recs) (coreOfWarp c.warp) ≤ 4096 →
      ∃ u, execBxShape f s = .next u ∧ Past s u c f ∧
        nth (wgAt u (wgKeyOf s c)).shapes none (shapeK f) = some (BitVec.ofNat 1024 (leNat r.2)) ∧ u.m.mem = s.m.mem ∧
        u.x.threads = s.x.threads ∧ RegistersKept s u c.pid (tokenDst c f) (pathMask s c.pid).lanes ∧
        ∀ w, f = .p w → ∀ l ∈ (pathMask s c.pid).lanes,
          ∃ e, getVal u (threadKey c.pid l) c.depth c.n = BitVec.ofNat 64 e ∧ isFilled u e = true) ∧
    (∀ bad, bad = (recs.filter (fun r => !shapeOk (BitVec.ofNat 1024 (leNat r.2)))).map (·.1) → bad ≠ [] →
      execBxShape f s = .next (raise (withdrawShapes t c.pid) c f (plainTrap 0x0E bad))) := by
  have popped : EnginesOnly s t := by
    subst ht
    split
    · exact .refl s
    · exact enginesOnly_popShapes ..
  have mask : pathMask t c.pid = pathMask s c.pid := by obtain ⟨_, rfl⟩ := popped; rfl
  rw [execBxShape_reads issues span clean ready, ← ht]
  rw [← mask] at read
  refine ⟨fun r last good room fits => ?_, fun bad hbad some => ?_⟩
  · have engines : EnginesOnly s (withdrawShapes t c.pid) := popped.trans (enginesOnly_withdrawShapes t c.pid)
    have held : ShapeHeld s (shapeWritten (withdrawShapes t c.pid) c f recs) c f r := by
      refine .engines engines ?_
      obtain ⟨_, h⟩ := engines
      exact shapeHeld_shapeWritten (by rw [h]; exact canon.regs) c f last (by rw [h]; exact room)
    refine ⟨_, ?_, held.finish issues.2.1 rfl⟩
    rw [shapeRead_good read good, shapeDone, if_neg (Nat.not_lt.2 fits)]
  · rw [shapeRead_bad read hbad some]

/-! ### The ranges of a chunk instruction -/

/-- A lane's range, as the chunk instructions see it. -/
def chunkRange (s : State) (c : Ctx) (f : Form) (core lo : Nat → Nat) (l : Nat) : ChunkRange × Nat × Nat :=
  ({ lane := l, addr := src s c f 0 .ptrS false l, cnt := chunkCount s c f l, home := some (core l, lo l) }, core l, lo l)

/-- The chunk that holds an address begins at the multiple of 512 below it. -/
theorem chunkBase_eq (a : BitVec 32) : a / 512#32 * 512#32 = a - BitVec.ofNat 32 (a.toNat % 512) := by
  apply BitVec.eq_of_toNat_eq
  have := a.isLt
  simp only [BitVec.toNat_mul, BitVec.toNat_udiv, BitVec.toNat_sub, BitVec.toNat_ofNat, Nat.reducePow, Nat.reduceMod]
  omega

section
variable {f : Form} {s : State} {c : Ctx} {core lo : Nat → Nat} (issues : Issues s f c)
  (ranges : ∀ l ∈ (pathMask s c.pid).lanes, 1 ≤ chunkCount s c f l ∧ chunkCount s c f l ≤ 32 ∧ chunkHome s c f l = some (core l, lo l))
include ranges

theorem chunkRanges_eq : chunkRanges s c f = (pathMask s c.pid).lanes.map (fun l => (chunkRange s c f core lo l).1) := by
  refine List.map_congr_left fun l hl => ?_
  obtain ⟨least, most, home⟩ := ranges l hl
  unfold chunkHome at home
  unfold chunkRange
  dsimp only at home ⊢
  rw [← home, chunkBase_eq, ← chunkCount, if_neg (by omega)]

include issues

/-- With ranges in order a chunk instruction acts on them. -/
theorem onChunks_eq (k : Ctx → List (ChunkRange × Nat × Nat) → State) :
    onChunks f s k = .next (k c ((pathMask s c.pid).lanes.map (chunkRange s c f core lo))) := by
  have noFault : firstFault [(0x0C, 2, ((chunkRanges s c f).filter (fun r => r.home.isNone)).map (fun r => (r.lane, r.addr))),
      (0x10, 0xFF, plainLanes (((chunkRanges s c f).filter (fun r => r.cnt == 0 || decide (32 < r.cnt))).map (·.lane)))] = none := by
    have all (r : ChunkRange) (hr : r ∈ chunkRanges s c f) : r.home.isNone = false ∧ (r.cnt == 0 || decide (32 < r.cnt)) = false := by
      rw [chunkRanges_eq ranges] at hr
      obtain ⟨l, hl, rfl⟩ := List.mem_map.1 hr
      obtain ⟨least, most, -⟩ := ranges l hl
      exact ⟨rfl, 
        Bool.or_eq_false_iff.2 ⟨beq_eq_false_iff_ne.2 (Nat.ne_of_gt least), decide_eq_false (Nat.not_lt.2 most)⟩⟩
    refine firstFault_eq_none ?_
    simp only [List.mem_cons, List.not_mem_nil, or_false]
    rintro x (rfl | rfl)
    · exact List.map_eq_nil_iff.2 (List.filter_eq_nil_iff.2 fun r hr => by simp [(all r hr).1])
    · exact List.map_eq_nil_iff.2 (List.map_eq_nil_iff.2 (List.filter_eq_nil_iff.2 fun r hr => by simp [(all r hr).2]))
  unfold onChunks
  rw [issuing_eq issues]
  dsimp only
  rw [noFault, chunkRanges_eq ranges, List.filterMap_map]
  dsimp only
  rw [← List.filterMap_eq_map]
  rfl

end

/-! ### The chunk instructions -/

/-- The bits of a predicate on the numbers below `n`. -/
def bitSum (p : Nat → Bool) (n : Nat) : Nat := ((List.range n).map (fun i => if p i then 2 ^ i else 0)).sum

theorem bitSum_succ (p : Nat → Bool) (n : Nat) : bitSum p (n + 1) = bitSum p n + if p n then 2 ^ n else 0 := by
  simp [bitSum, List.range_succ]

theorem bitSum_lt (p : Nat → Bool) (n : Nat) : bitSum p n < 2 ^ n := by
  induction n with
  | zero => simp [bitSum]
  | succ n ih => rw [bitSum_succ, Nat.pow_succ]; split <;> omega

theorem testBit_bitSum (p : Nat → Bool) (n j : Nat) : (bitSum p n).testBit j = (decide (j < n) && p j) := by
  induction n with
  | zero => simp [bitSum]
  | succ n ih =>
    have small := bitSum_lt p n
    rw [bitSum_succ]
    rcases Nat.lt_trichotomy j n with lt | rfl | gt
    · split
      · rw [Nat.add_comm, Nat.testBit_two_pow_add_gt lt, ih]; simp [lt, Nat.lt_succ_of_lt lt]
      · rw [Nat.add_zero, ih]; simp [lt, Nat.lt_succ_of_lt lt]
    · have zero : (bitSum p j).testBit j = false := Nat.testBit_lt_two_pow small
      split
      · next h => rw [Nat.add_comm, Nat.testBit_two_pow_add_eq, zero]; simp [h]
      · next h => rw [Nat.add_zero, zero]; simp [h]
    · have bound : bitSum p (n + 1) < 2 ^ j := Nat.lt_of_lt_of_le (bitSum_lt p (n + 1)) (Nat.pow_le_pow_right (by omega) gt)
      rw [← bitSum_succ, Nat.testBit_lt_two_pow bound]
      simp [Nat.not_lt.2 (Nat.succ_le_of_lt gt)]

/-- The word of a `test.chunks` holds one bit for each chunk that is not empty, and from bit 32 one for each that has failed. -/
theorem chunkWord_eq (s : State) (core lo n : Nat) : chunkWord (chunkList s core lo n) = BitVec.ofNat 64
    (2 ^ 32 * bitSum (fun i => chunkAt s core (lo + i) == .failed) n + bitSum (fun i => chunkAt s core (lo + i) != .empty) n) := by
  have pairs : (List.range (chunkList s core lo n).length).zip (chunkList s core lo n) =
      (List.range n).map (fun i => (i, chunkAt s core (lo + i))) := by
    have both : ((List.range n).map id).zip ((List.range n).map (fun i => chunkAt s core (lo + i))) = _ := List.zip_map'
    rw [List.map_id] at both
    simpa [chunkList] using both
  unfold chunkWord
  dsimp only
  rw [pairs, bitSum, bitSum, ← List.sum_map_mul_left, ← List.sum_map_add, List.map_map]
  congr 3
  funext i
  by_cases failed : chunkAt s core (lo + i) = .failed <;> by_cases empty : chunkAt s core (lo + i) = .empty <;>
    simp [failed, empty, Nat.pow_add, Nat.mul_comm, Nat.add_comm]

theorem getLsbD_chunkWord (s : State) (core lo : Nat) {n i : Nat} (hn : n ≤ 32) (hi : i < 32) :
    (chunkWord (chunkList s core lo n)).getLsbD i = (decide (i < n) && chunkAt s core (lo + i) != .empty) ∧
      (chunkWord (chunkList s core lo n)).getLsbD (32 + i) = (decide (i < n) && chunkAt s core (lo + i) == .failed) := by
  have low : bitSum (fun i => chunkAt s core (lo + i) != .empty) n < 2 ^ 32 :=
    Nat.lt_of_lt_of_le (bitSum_lt _ n) (Nat.pow_le_pow_right (by omega) hn)
  rw [chunkWord_eq, BitVec.getLsbD_ofNat, BitVec.getLsbD_ofNat, Nat.testBit_two_pow_mul_add _ low, Nat.testBit_two_pow_mul_add _ low,
    if_pos hi, if_neg (by omega), Nat.add_sub_cancel_left, testBit_bitSum, testBit_bitSum]
  simp [show i < 64 by omega, show 32 + i < 64 by omega]

theorem Gives.delivers {s t : State} {c : Ctx} {f : Form} {d : Dst} {ls : List Nat} {g : Nat → Word} (h : Gives s t c f d ls g)
    (threads : t.x.threads = s.x.threads) : t.m = s.m ∧ t.e = s.e ∧ Delivers s t c f d ls g :=
  ⟨h.rest.mem, h.rest.engines, h.goesOn.2, h.results, h.registers, threads, h.paths.others⟩

/-- Whether a chunk of a lane's range has failed. -/
theorem contains_failed (s : State) (core lo n : Nat) : boolWord ((chunkList s core lo n).contains .failed) =
    if (List.range n).any (fun i => chunkAt s core (lo + i) == .failed) = true then 1 else 0 := by
  have same : (chunkList s core lo n).contains .failed = (List.range n).any (fun i => chunkAt s core (lo + i) == .failed) := by
    rw [List.contains_eq_any_beq, chunkList, List.any_map]
    congr 1
    funext i
    exact Bool.beq_comm
  rw [same]
  rfl

theorem waitOver_chunks (s : State) (pid core lo n : Nat) :
    waitOver s pid (.chunks core lo n) = true ↔ ∀ i, i < n → chunkAt s core (lo + i) ≠ .empty := by
  simp [waitOver, List.all_eq_true]

section
variable {f : Form} {s : State} {c : Ctx} {core lo : Nat → Nat} (issues : Issues s f c) (canon : Canonical s)
  (ranges : ∀ l ∈ (pathMask s c.pid).lanes, 1 ≤ chunkCount s c f l ∧ chunkCount s c f l ≤ 32 ∧ chunkHome s c f l = some (core l, lo l))
include issues canon ranges

/-- `wait.chunks` gives its result once no chunk is empty (R118). -/
theorem execWaitChunks_full (full : ∀ l ∈ (pathMask s c.pid).lanes, ∀ i, i < chunkCount s c f l → chunkAt s (core l) (lo l + i) ≠ .empty) :
    ∃ u, execWaitChunks f s = .next u ∧ u.m = s.m ∧ u.e = s.e ∧ Delivers s u c f (dstOf c f .i1) (pathMask s c.pid).lanes
      (fun l => if (List.range (chunkCount s c f l)).any (fun i => chunkAt s (core l) (lo l + i) == .failed) = true then 1 else 0) := by
  obtain ⟨gives, threads⟩ := gives_finish_putLanes f (dstOf c f .i1) (pathMask s c.pid).lanes
    (fun l => if (List.range (chunkCount s c f l)).any (fun i => chunkAt s (core l) (lo l + i) == .failed) = true then 1 else 0)
    (lanes_nodup _) (fun _ => mem_lanes_lt) canon.regs issues.2.1
  refine ⟨_, ?_, gives.delivers threads⟩
  have none : ((pathMask s c.pid).lanes.map (chunkRange s c f core lo)).find?
      (fun r => !waitOver s c.pid (.chunks r.2.1 r.2.2 r.1.cnt)) = none := by
    refine List.find?_eq_none.2 fun r hr => ?_
    obtain ⟨l, hl, rfl⟩ := List.mem_map.1 hr
    simpa [chunkRange] using (waitOver_chunks s c.pid (core l) (lo l) (chunkCount s c f l)).2 (full l hl)
  rw [execWaitChunks, onChunks_eq issues ranges, none, List.map_map]
  simp only [← contains_failed]
  rfl

omit canon in
/-- `wait.chunks` waits for a lane with an empty chunk (R118). -/
theorem execWaitChunks_waits
    (short : ¬∀ l ∈ (pathMask s c.pid).lanes, ∀ i, i < chunkCount s c f l → chunkAt s (core l) (lo l + i) ≠ .empty) :
    ∃ l ∈ (pathMask s c.pid).lanes, execWaitChunks f s = .next (hold s c.pid f (.chunks (core l) (lo l) (chunkCount s c f l))) := by
  rw [execWaitChunks, onChunks_eq issues ranges]
  cases found : ((pathMask s c.pid).lanes.map (chunkRange s c f core lo)).find?
      (fun r => !waitOver s c.pid (.chunks r.2.1 r.2.2 r.1.cnt)) with
  | some r =>
    obtain ⟨l, hl, rfl⟩ := List.mem_map.1 (List.mem_of_find?_eq_some found)
    exact ⟨l, hl, rfl⟩
  | none =>
    refine absurd (fun l hl => (waitOver_chunks s c.pid (core l) (lo l) (chunkCount s c f l)).1 ?_) short
    simpa [chunkRange] using List.find?_eq_none.1 found _ (List.mem_map_of_mem hl)

/-- `test.chunks` gives each chunk's states (R118). -/
theorem execTestChunks_gives : ∃ u g, execTestChunks f s = .next u ∧ u.m = s.m ∧ u.e = s.e ∧
    Delivers s u c f (dstOf c f .i64) (pathMask s c.pid).lanes g ∧ ∀ l ∈ (pathMask s c.pid).lanes, ∀ i, i < 32 →
      (g l).getLsbD i = (decide (i < chunkCount s c f l) && chunkAt s (core l) (lo l + i) != .empty) ∧
        (g l).getLsbD (32 + i) = (decide (i < chunkCount s c f l) && chunkAt s (core l) (lo l + i) == .failed) := by
  obtain ⟨gives, threads⟩ := gives_finish_putLanes f (dstOf c f .i64) (pathMask s c.pid).lanes
    (fun l => chunkWord (chunkList s (core l) (lo l) (chunkCount s c f l)))
    (lanes_nodup _) (fun _ => mem_lanes_lt) canon.regs issues.2.1
  obtain ⟨mem, engines, delivers⟩ := gives.delivers threads
  refine ⟨_, _, ?_, mem, engines, delivers, fun l hl i hi => getLsbD_chunkWord s (core l) (lo l) (ranges l hl).2.1 hi⟩
  rw [execTestChunks, onChunks_eq issues ranges, List.map_map]
  rfl

end

/-! ### `clr.chunks` -/

/-- The state with the chunks of a range empty. -/
def emptyRange (s : State) (r : ChunkRange × Nat × Nat) : State := setChunks s r.2.1 r.2.2 .empty r.1.cnt

theorem enginesOnly_emptyRanges (rs : List (ChunkRange × Nat × Nat)) (s : State) : EnginesOnly s (rs.foldl emptyRange s) :=
  foldl_inv (EnginesOnly s) emptyRange (fun _ _ ht => ht.trans ⟨_, setChunks_eq ..⟩) s rs (.refl s)

/-- Every chunk of a range that is cleared is empty. -/
theorem chunkAt_emptyRanges {s : State} (hw : ChunksWf s) {rs : List (ChunkRange × Nat × Nat)} {r : ChunkRange × Nat × Nat} (hr : r ∈ rs)
    {i : Nat} (hi : i < r.1.cnt) : chunkAt (rs.foldl emptyRange s) r.2.1 (r.2.2 + i) = .empty :=
  (foldl_reaches (f := emptyRange) (b := r) (Q := ChunksWf) (P := fun t => ChunksWf t ∧ chunkAt t r.2.1 (r.2.2 + i) = .empty)
    (fun _ _ ht => setChunks_wf _ _ _ _ ht) (fun _ _ ht => ⟨setChunks_wf _ _ _ _ ht.1, getD_setChunks_empty _ _ _ _ ht.1 ht.2⟩)
    (fun _ ht => ⟨setChunks_wf _ _ _ _ ht, chunkAt_setChunks _ _ _ ht hi⟩) hr hw).2

/-- Chunks outside the ranges hold what they held. -/
theorem getD_emptyRanges (rs : List (ChunkRange × Nat × Nat)) {k : Nat} (outside : ∀ r ∈ rs, ∀ i, i < r.1.cnt → k ≠ r.2.1 * 512 + (r.2.2 + i))
    {s : State} (hw : ChunksWf s) : (rs.foldl emptyRange s).e.chunks.getD .empty k = s.e.chunks.getD .empty k := by
  induction rs generalizing s with
  | nil => rfl
  | cons r rs ih =>
    have hw' : ChunksWf (emptyRange s r) := setChunks_wf _ _ _ _ hw
    rw [List.foldl_cons, ih (fun q hq => outside q (List.mem_cons_of_mem _ hq)) hw', emptyRange,
      getD_setChunks _ _ _ _ _ hw, if_neg]
    intro inside
    exact outside r List.mem_cons_self (k - (r.2.1 * 512 + r.2.2)) (by omega) (by omega)

/-- After a change of the engines the path goes past the instruction, and nothing else changes. -/
theorem silent_finish {s t : State} {c : Ctx} {f : Form} (h : EnginesOnly s t) (hp : (s.x.paths.find? c.pid).isSome = true) :
    (finish t c f).m = s.m ∧ (finish t c f).e = t.e ∧ Silent s (finish t c f) c f := by
  obtain ⟨e, rfl⟩ := h
  obtain ⟨rest, paths, x⟩ := finish_kept { s with e := e } c f
  have registers := finish_registers (s := { s with e := e }) (c := c) f .none [] hp
  exact ⟨rest.mem, rest.engines, past_finish f rfl rfl hp, ⟨registers.vals, registers.vregs, registers.sregs, registers.own⟩,
    by rw [x], paths.others⟩

/-- `clr.chunks` empties its ranges once no lock covers one (R118). -/
theorem execClrChunks_empties {f : Form} {s : State} {c : Ctx} {core lo : Nat → Nat} (issues : Issues s f c) (canon : Canonical s)
    (ranges : ∀ l ∈ (pathMask s c.pid).lanes, 1 ≤ chunkCount s c f l ∧ chunkCount s c f l ≤ 32 ∧ chunkHome s c f l = some (core l, lo l))
    (unlocked : ∀ l ∈ (pathMask s c.pid).lanes, lockedBy s (core l) (lo l) (chunkCount s c f l) = false) :
    ∃ u, execClrChunks f s = .next u ∧ u.m = s.m ∧ Silent s u c f ∧
      (∀ l ∈ (pathMask s c.pid).lanes, ∀ i, i < chunkCount s c f l → chunkAt u (core l) (lo l + i) = .empty) ∧
      ∀ k, (∀ l ∈ (pathMask s c.pid).lanes, ∀ i, i < chunkCount s c f l → k ≠ core l * 512 + (lo l + i)) →
        u.e.chunks.getD .empty k = s.e.chunks.getD .empty k := by
  have wf : ChunksWf s := canon.2.2.2.2.2.1
  obtain ⟨mem, engines, silent⟩ := silent_finish (f := f)
    (enginesOnly_emptyRanges ((pathMask s c.pid).lanes.map (chunkRange s c f core lo)) s) issues.2.1
  refine ⟨_, ?_, mem, silent, fun l hl i hi => ?_, fun k outside => ?_⟩
  · have none : ((pathMask s c.pid).lanes.map (chunkRange s c f core lo)).find? (fun r => lockedBy s r.2.1 r.2.2 r.1.cnt) = none := by
      refine List.find?_eq_none.2 fun r hr => ?_
      obtain ⟨l, hl, rfl⟩ := List.mem_map.1 hr
      simpa [chunkRange] using unlocked l hl
    rw [execClrChunks, onChunks_eq issues ranges, none]
    rfl
  · rw [chunkAt, engines]
    exact chunkAt_emptyRanges wf (r := chunkRange s c f core lo l) (List.mem_map_of_mem hl) hi
  · rw [engines]
    refine getD_emptyRanges _ (fun r hr i hi => ?_) wf
    obtain ⟨l, hl, rfl⟩ := List.mem_map.1 hr
    exact outside l hl i hi

/-- Settles O31: a `bx.shape` by its three outcomes, and each chunk instruction by what it does with its ranges. -/
theorem shapeRecordsAndChunksFollowTheirRules : Obligations.ShapeRecordsAndChunksFollowTheirRules := by
  refine ⟨?_, ?_⟩
  · intro f s c issues canon core ls sp tokens ids popped s1 s2 rec_ span clean
    have space : sp = shapeSpace s c f := (shapeSpace_eq s c f).symm
    rw [space] at clean ⊢
    exact ⟨execBxShape_queues issues span clean, execBxShape_waits issues span clean,
      fun ready recs read => shapeRecords_follow issues canon span clean ready rfl read⟩
  · intro f s c core lo issues canon ls n st ranges full
    exact ⟨execWaitChunks_full issues canon ranges, execWaitChunks_waits issues ranges, execTestChunks_gives issues canon ranges,
      execClrChunks_empties issues canon ranges⟩

end Sys2Proof.Machine
end

section
/-!
SUPPORT. Direct accesses of threads (R136): what the checks of their lanes find, and what an access comes to when a lane is misaligned
or when every lane has passed.
-/
namespace Sys2Proof.Machine

/-! ### The kinds that a check can raise -/

/-- No walk faults with kind 0 (R102). -/
theorem walkFrom_fault {s : State} {die : Nat} {va : Word} {fuel table k o : Nat} (h : walkFrom s die va fuel table = .fault k o) : 0 < k := by
  induction fuel generalizing table with
  | zero => rw [walkFrom] at h; injection h; omega
  | succ fuel ih =>
    rw [walkFrom] at h
    dsimp only at h
    split_ifs at h
    any_goals (injection h; omega)
    exact ih h

theorem walkVa_fault {s : State} {ctx : Nat} {va : Word} {k o : Nat} (h : walkVa s ctx va = .fault k o) : 0 < k := by
  rw [walkVa] at h
  split at h
  · injection h; omega
  · exact walkFrom_fault h

theorem chkLeaf_bad {die : Nat} {va : Word} {lg : Nat} {e : Word} {r : Right} {k o : Nat} (h : chkLeaf die va lg e r = .bad k o) : 5 < k := by
  rw [chkLeaf] at h
  split_ifs at h
  injection h
  omega

theorem chkVirt_bad {s : State} {core ctx : Nat} {noFix : Bool} {va : Word} {r : Right} {k o : Nat}
    (h : chkVirt s core ctx noFix va r = .bad k o) : 5 < k := by
  rw [chkVirt] at h
  split at h
  · exact chkLeaf_bad h
  · split at h
    · split at h
      · exact chkLeaf_bad h
      · next walk =>
        have := walkVa_fault walk
        injection h
        split_ifs at * <;> omega
    · cases h

/-- A lane's check raises kind 5 for a misaligned address, and a later kind for an aligned one (R136). -/
theorem chkLane_bad {s : State} {c : Ctx} {noFix : Bool} {sp : Nat} {a : Word} {n : Nat} {r : Right} {k o : Nat}
    (h : chkLane s c noFix sp a n r = .bad k o) : 5 ≤ k ∧ (k = 5 ↔ a.toNat % n ≠ 0) := by
  rw [chkLane] at h
  by_cases aligned : a.toNat % n = 0
  · suffices 5 < k from ⟨by omega, by simp only [aligned]; omega⟩
    rw [if_neg (not_not.2 aligned)] at h
    split_ifs at h
    · split at h
      · cases h
      · injection h; omega
    · injection h; omega
    · injection h; omega
    · exact chkVirt_bad h
  · rw [if_pos aligned] at h
    injection h with hk
    exact ⟨by omega, by simp [hk.symm, aligned]⟩

/-! ### The lanes of an access -/

/-- The lanes of an access with what their checks find. -/
def laneChks (s : State) (c : Ctx) (f : Form) (m : MemOp) : List LaneChk :=
  (accessLanes s c f).1.map (fun l => { lane := l, va := addrOf s c f l, chk := checked s c f m.op m.ty l })

/-- The address space that a trap of an access names: that of its first lane's address. -/
def leadSpace (s : State) (c : Ctx) (f : Form) : Nat := spaceOf c f (((accessLanes s c f).1.head?.map (addrOf s c f)).getD 0)

/-- What operand `k`, where an access has one, gives a lane. -/
def valOf (s : State) (c : Ctx) (f : Form) (t : Ty) (signed : Bool) (k : Option Nat) (l : Nat) : Word :=
  match k with
  | some i => src s c f i t signed l
  | none => 0

/-- One lane of an access, with what its check finds and its values. -/
def laneVal (s : State) (c : Ctx) (f : Form) (m : MemOp) (v v2 : Nat → Word) (l : Nat) : LaneChk × Word × Word :=
  ({ lane := l, va := addrOf s c f l, chk := checked s c f m.op m.ty l }, v l, v2 l)

/-- The lanes of an access with their values. -/
def laneVals (s : State) (c : Ctx) (f : Form) (m : MemOp) (v v2 : Nat → Word) : List (LaneChk × Word × Word) :=
  (accessLanes s c f).1.map (laneVal s c f m v v2)

theorem laneVals_eq (s : State) (c : Ctx) (f : Form) (m : MemOp) (v v2 : Nat → Word) :
    (laneChks s c f m).map (fun x => (x, v x.lane, v2 x.lane)) = laneVals s c f m v v2 := by
  rw [laneChks, List.map_map]
  rfl

/-- The lanes that act: those of a `red` that name one word act as one (R271). -/
def acting (m : MemOp) (xs : List (LaneChk × Word × Word)) : List (LaneChk × Word × Word) :=
  match m.op with
  | .red k => foldRed m.ty k xs
  | _ => xs

/-- A release waits until every earlier access of its warp has performed. -/
abbrev ReleaseFree (s : State) (c : Ctx) (m : MemOp) : Prop := m.rel = true → (warpAt s c.warp).inflight = []

/-- What an access comes to when its checks have led to nothing: its peer lanes are sent or their replies taken, and the others act. -/
def passedOn (s : State) (c : Ctx) (f : Form) (m : MemOp) (ys : List (LaneChk × Word × Word)) : State :=
  match peerReplies s c.pid with
  | [] => if ys.any (fun y => match y.1.chk with | .peer _ => true | _ => false) then sendPeers (clearNoFix s c.pid) c f m ys
          else performAccess (clearNoFix s c.pid) c f m (accessLanes s c f).2 ys
  | rs => finishPeers (clearNoFix s c.pid) c f m (leadSpace s c f) (accessLanes s c f).2 rs ys

section
variable {f : Form} {s : State} {c : Ctx} (issues : Issues s f c) {mo : Ctx → MemOp} (free : ReleaseFree s c (mo c)) (vk v2k : Option Nat)
  (signed : Bool)
include issues free

/-- An access behind the wait of a release: what its checks lead to, or else what its lanes do (R136). -/
theorem memAccess_free : memAccess f s mo vk v2k signed =
    .next (match checkOutcome s c f (leadSpace s c f) (laneChks s c f (mo c)) with
      | some t => t
      | none => passedOn s c f (mo c) (acting (mo c)
          (laneVals s c f (mo c) (valOf s c f (mo c).ty signed vk) (valOf s c f (mo c).ty signed v2k)))) := by
  have goes : ((mo c).rel && !(warpAt s c.warp).inflight.isEmpty) = false := by
    cases hr : (mo c).rel
    · rfl
    · simp [free hr]
  have lead : leadSpace s c f = spaceOf c f ((((laneChks s c f (mo c)).head?).map (·.va)).getD 0) := by
    rw [laneChks, List.head?_map, Option.map_map]
    rfl
  rw [memAccess, issuing_eq issues, passedOn, lead, ← laneVals_eq]
  simp only [goes]
  rfl

end

/-! ### A misaligned lane -/

/-- The lanes whose addresses are misaligned for a type, with those addresses. -/
abbrev misaligned (s : State) (c : Ctx) (f : Form) (t : Ty) : List (Nat × Word) :=
  ((accessLanes s c f).1.filter (fun l => (addrOf s c f l).toNat % tyBytes t != 0)).map (fun l => (l, addrOf s c f l))

theorem badKind_laneChks {s : State} {c : Ctx} {f : Form} {m : MemOp} {x : LaneChk} (hx : x ∈ laneChks s c f m) :
    (∀ k, badKind x = some k → 5 ≤ k) ∧ (badKind x = some 5 ↔ x.va.toNat % tyBytes m.ty ≠ 0) := by
  obtain ⟨l, -, rfl⟩ := List.mem_map.1 hx
  dsimp only [badKind]
  split
  · next k o found =>
    obtain ⟨least, five⟩ := chkLane_bad found
    exact ⟨fun j hj => Option.some.inj hj ▸ least, by simpa using five⟩
  · next other =>
    refine ⟨by simp, by simp, fun odd => absurd (if_pos odd) (other 5 0)⟩

/-- The earlier of the kind so far and a lane's. -/
def earlier (b : Option Nat) (x : LaneChk) : Option Nat :=
  match b, badKind x with
  | none, k => k
  | some j, some k => some (min j k)
  | b, none => b

theorem firstKind_eq_foldl (xs : List LaneChk) : firstKind xs = xs.foldl earlier none := rfl

theorem earlier_spec {b : Option Nat} {x : LaneChk} (hb : ∀ k, b = some k → 5 ≤ k) (hx : ∀ k, badKind x = some k → 5 ≤ k) :
    (∀ k, earlier b x = some k → 5 ≤ k) ∧ (b = some 5 ∨ badKind x = some 5 → earlier b x = some 5) := by
  unfold earlier
  cases kind : badKind x with
  | none =>
    cases b with
    | none => exact ⟨hb, by simp⟩
    | some j => exact ⟨hb, by simp⟩
  | some k =>
    have hk := hx k kind
    cases b with
    | none => exact ⟨kind ▸ hx, by simp⟩
    | some j =>
      have hj := hb j rfl
      simp only [Option.some.injEq]
      exact ⟨fun i hi => by omega, fun five => by omega⟩

/-- The earliest kind is 5 as soon as one lane raises it. -/
theorem firstKind_eq_five {xs : List LaneChk} (least : ∀ x ∈ xs, ∀ k, badKind x = some k → 5 ≤ k)
    (some_five : ∃ x ∈ xs, badKind x = some 5) : firstKind xs = some 5 := by
  have go : ∀ b, (∀ k, b = some k → 5 ≤ k) → (b = some 5 ∨ ∃ x ∈ xs, badKind x = some 5) → xs.foldl earlier b = some 5 := by
    clear some_five
    induction xs with
    | nil => simp
    | cons x xs ih =>
      intro b hb five
      obtain ⟨hb', five'⟩ := earlier_spec hb (least x List.mem_cons_self)
      refine ih (fun y hy => least y (List.mem_cons_of_mem x hy)) _ hb' ?_
      rw [List.exists_mem_cons_iff, ← or_assoc] at five
      exact five.imp_left five'
  exact firstKind_eq_foldl xs ▸ go none (by simp) (.inr some_five)

section
variable {f : Form} {s : State} {c : Ctx} (issues : Issues s f c) {mo : Ctx → MemOp} (free : ReleaseFree s c (mo c)) (vk v2k : Option Nat)
  (signed : Bool)
include issues free

/-- A misaligned lane raises an alignment fault that names the misaligned lanes, before any other (R136). -/
theorem memAccess_misaligned (bad : misaligned s c f (mo c).ty ≠ []) : memAccess f s mo vk v2k signed =
    .next (raise s c f (addrTrap 5 (leadSpace s c f) (misaligned s c f (mo c).ty))) := by
  have first : firstKind (laneChks s c f (mo c)) = some 5 := by
    refine firstKind_eq_five (fun x hx => (badKind_laneChks hx).1) ?_
    obtain ⟨y, hy⟩ := List.exists_mem_of_ne_nil _ bad
    obtain ⟨l, hl, -⟩ := List.mem_map.1 hy
    obtain ⟨hl, odd⟩ := List.mem_filter.1 hl
    exact ⟨_, List.mem_map_of_mem hl, (badKind_laneChks (List.mem_map_of_mem hl)).2.2 (by simpa using odd)⟩
  have named : kindTrap (laneChks s c f (mo c)) 5 (leadSpace s c f) = addrTrap 5 (leadSpace s c f) (misaligned s c f (mo c).ty) := by
    have hit : (laneChks s c f (mo c)).filter (fun x => badKind x == some 5) =
        (laneChks s c f (mo c)).filter (fun x => x.va.toNat % tyBytes (mo c).ty != 0) :=
      List.filter_congr fun x hx => by rw [Bool.eq_iff_iff, beq_iff_eq, bne_iff_ne]; exact (badKind_laneChks hx).2
    rw [kindTrap, hit, laneChks, List.filter_map, List.map_map]
    rfl
  have outcome : checkOutcome s c f (leadSpace s c f) (laneChks s c f (mo c)) =
      some (raise s c f (addrTrap 5 (leadSpace s c f) (misaligned s c f (mo c).ty))) := by
    rw [checkOutcome, first, ← named]
    rfl
  rw [memAccess_free issues free, outcome]

end

end Sys2Proof.Machine
end

section
/-!
SUPPORT. The lanes of an access that name memory or scratchpads: how those of a `red` fold (R271), and an access whose lanes have all
passed their checks (R136).
-/
namespace Sys2Proof.Machine

/-! ### Lanes that fold into one value -/

/-- What the checks of the lanes found. -/
abbrev chksOf (xs : List (LaneChk × Word × Word)) : List Chk := xs.map (·.1.chk)

/-- A lane that names a word of its own stays as it is, and joins the others behind them. -/
theorem foldInto_of_new {t : Ty} {k : Nat} {x : LaneChk × Word × Word} {ys : List (LaneChk × Word × Word)}
    (new : x.1.chk ∉ chksOf ys) : foldInto t k x ys = ys ++ [x] := by
  induction ys with
  | nil => rfl
  | cons y ys ih =>
    rw [chksOf, List.map_cons, List.mem_cons, not_or] at new
    have apart : sameWord y.1 x.1 = false := by simp [sameWord, Ne.symm new.1]
    rw [foldInto, apart, ih new.2]
    rfl

/-- Folding in a lane at a home names the same words as before, or one more. -/
theorem chksOf_foldInto (t : Ty) (k : Nat) {x : LaneChk × Word × Word} (home : ∃ l, x.1.chk = .loc l)
    (ys : List (LaneChk × Word × Word)) :
    chksOf (foldInto t k x ys) = if x.1.chk ∈ chksOf ys then chksOf ys else chksOf ys ++ [x.1.chk] := by
  split
  · next known =>
    induction ys with
    | nil => cases known
    | cons y ys ih =>
      rw [foldInto]
      by_cases same : y.1.chk = x.1.chk
      · obtain ⟨l, hl⟩ := home
        have joins : sameWord y.1 x.1 = true := by simp [sameWord, same, hl]
        rw [joins]
        rfl
      · have apart : sameWord y.1 x.1 = false := by simp [sameWord, same]
        rw [apart]
        simpa using ih ((List.mem_cons.1 known).resolve_left (Ne.symm same))
  · next new => rw [foldInto_of_new new, chksOf, List.map_append, List.map_singleton]

/-- The lanes folded so far, and those that come. -/
theorem foldRed_append_singleton (t : Ty) (k : Nat) (xs : List (LaneChk × Word × Word)) (x : LaneChk × Word × Word) :
    foldRed t k (xs ++ [x]) = foldInto t k x (foldRed t k xs) := by
  rw [foldRed, List.foldl_append]
  rfl

/-- The words of the folded lanes: those of the lanes, each once. -/
theorem chksOf_foldRed (t : Ty) (k : Nat) {xs : List (LaneChk × Word × Word)} (homes : ∀ x ∈ xs, ∃ l, x.1.chk = .loc l) :
    (chksOf (foldRed t k xs)).Nodup ∧ ∀ a, a ∈ chksOf (foldRed t k xs) ↔ a ∈ chksOf xs := by
  induction xs using List.reverseRecOn with
  | nil => exact ⟨List.nodup_nil, fun _ => Iff.rfl⟩
  | append_singleton xs x ih =>
    obtain ⟨nodup, same⟩ := ih fun y hy => homes y (by simp [hy])
    have all : ∀ a, a ∈ chksOf (xs ++ [x]) ↔ a ∈ chksOf xs ∨ a = x.1.chk := fun a => by
      rw [chksOf, List.map_append, List.mem_append, List.map_singleton, List.mem_singleton]
    rw [foldRed_append_singleton, chksOf_foldInto t k (homes x (by simp))]
    split
    · next known =>
      exact ⟨nodup, fun a => by rw [all, same]; exact ⟨.inl, fun h => h.elim id fun h => h ▸ (same _).1 known⟩⟩
    · next new =>
      exact ⟨nodup.append (List.nodup_singleton _) (by simpa using new), fun a => by
        rw [all, List.mem_append, List.mem_singleton, same]⟩

/-- A lane whose word no other lane names keeps its value. -/
theorem mem_foldInto {t : Ty} {k : Nat} {x y : LaneChk × Word × Word} {ys : List (LaneChk × Word × Word)} (hy : y ∈ ys)
    (apart : y.1.chk ≠ x.1.chk) : y ∈ foldInto t k x ys := by
  induction ys with
  | nil => cases hy
  | cons z ys ih =>
    rw [foldInto]
    rcases List.mem_cons.1 hy with rfl | hy
    · have apart : sameWord y.1 x.1 = false := by simp [sameWord, apart]
      rw [apart]
      exact List.mem_cons_self
    · cases sameWord z.1 x.1 with
      | true => exact List.mem_cons_of_mem _ hy
      | false => exact List.mem_cons_of_mem _ (ih hy)

theorem mem_foldRed {t : Ty} {k : Nat} {xs : List (LaneChk × Word × Word)} (homes : ∀ x ∈ xs, ∃ l, x.1.chk = .loc l)
    (nodup : xs.Nodup) {x : LaneChk × Word × Word} (hx : x ∈ xs)
    (alone : ∀ y ∈ xs, y ≠ x → y.1.chk ≠ x.1.chk) : x ∈ foldRed t k xs := by
  induction xs using List.reverseRecOn with
  | nil => cases hx
  | append_singleton xs y ih =>
    rw [foldRed_append_singleton]
    have before : ∀ z ∈ xs, z ≠ y := fun z hz h => (List.nodup_append.1 nodup).2.2 z hz y (by simp) h
    rcases List.mem_append.1 hx with hx | hx
    · refine mem_foldInto (ih (fun z hz => homes z (by simp [hz])) (List.nodup_append.1 nodup).1 hx fun z hz => alone z (by simp [hz])) ?_
      exact (alone y (by simp) (before x hx).symm).symm
    · obtain rfl := List.mem_singleton.1 hx
      rw [foldInto_of_new]
      · simp
      · rw [(chksOf_foldRed t k fun z hz => homes z (by simp [hz])).2]
        intro same
        obtain ⟨z, hz, chk⟩ := List.mem_map.1 same
        exact alone z (by simp [hz]) (before z hz) chk

/-! ### Every lane at a home -/

/-- Every lane of an access has passed its checks, and names memory or a scratchpad. -/
abbrev Located (s : State) (c : Ctx) (f : Form) (m : MemOp) : Prop := ∀ l ∈ (accessLanes s c f).1, ∃ x, checked s c f m.op m.ty l = .loc x

section
variable {s : State} {c : Ctx} {f : Form} {m : MemOp}

/-- What the checks of the lanes find. -/
theorem chksOf_laneVals (v v2 : Nat → Word) :
    chksOf (laneVals s c f m v v2) = (accessLanes s c f).1.map (checked s c f m.op m.ty) := by
  rw [chksOf, laneVals, List.map_map]
  rfl

theorem homes_laneVals (located : Located s c f m) (v v2 : Nat → Word) : ∀ x ∈ laneVals s c f m v v2, ∃ l, x.1.chk = .loc l := by
  intro x hx
  have mem : x.1.chk ∈ chksOf (laneVals s c f m v v2) := List.mem_map_of_mem hx
  rw [chksOf_laneVals] at mem
  obtain ⟨l, hl, chk⟩ := List.mem_map.1 mem
  exact chk ▸ located l hl

/-- The lanes that act name the words that the lanes name. -/
theorem mem_chksOf_acting (located : Located s c f m) (v v2 : Nat → Word) (a : Chk) :
    a ∈ chksOf (acting m (laneVals s c f m v v2)) ↔ ∃ l ∈ (accessLanes s c f).1, checked s c f m.op m.ty l = a := by
  have same : a ∈ chksOf (acting m (laneVals s c f m v v2)) ↔ a ∈ chksOf (laneVals s c f m v v2) := by
    rw [acting]
    split
    · exact (chksOf_foldRed _ _ (homes_laneVals located v v2)).2 a
    · rfl
  rw [same, chksOf_laneVals, List.mem_map]

theorem homes_acting (located : Located s c f m) (v v2 : Nat → Word) :
    ∀ x ∈ acting m (laneVals s c f m v v2), ∃ l, x.1.chk = .loc l := by
  intro x hx
  obtain ⟨l, hl, chk⟩ := (mem_chksOf_acting located v v2 _).1 (List.mem_map_of_mem hx)
  exact chk ▸ located l hl

/-- A test of what the checks find says of the lanes that act what it says of the lanes. -/
theorem any_acting (located : Located s c f m) (v v2 : Nat → Word) (p : Chk → Bool) :
    (acting m (laneVals s c f m v v2)).any (fun x => p x.1.chk) = (accessLanes s c f).1.any (fun l => p (checked s c f m.op m.ty l)) := by
  rw [Bool.eq_iff_iff, List.any_eq_true, List.any_eq_true]
  constructor
  · rintro ⟨x, hx, holds⟩
    obtain ⟨l, hl, chk⟩ := (mem_chksOf_acting located v v2 _).1 (List.mem_map_of_mem hx)
    exact ⟨l, hl, chk ▸ holds⟩
  · rintro ⟨l, hl, holds⟩
    obtain ⟨x, hx, chk⟩ := List.mem_map.1 ((mem_chksOf_acting located v v2 _).2 ⟨l, hl, rfl⟩)
    exact ⟨x, hx, chk ▸ holds⟩

theorem checkOutcome_of_located (located : Located s c f m) (sp : Nat) : checkOutcome s c f sp (laneChks s c f m) = none := by
  have home : ∀ x ∈ laneChks s c f m, ∃ l, x.chk = .loc l := by
    intro x hx
    obtain ⟨l, hl, rfl⟩ := List.mem_map.1 hx
    exact located l hl
  have unfaulted : firstKind (laneChks s c f m) = none :=
    firstKind_eq_none fun x hx => by obtain ⟨l, hl⟩ := home x hx; rw [badKind, hl]
  have translated : (laneChks s c f m).any (fun x => x.chk == .miss) = false :=
    List.any_eq_false.2 fun x hx => by obtain ⟨l, hl⟩ := home x hx; simp [hl]
  rw [checkOutcome]
  simp only [unfaulted, translated, Bool.false_eq_true, if_false]

end

/-- An access whose lanes have all passed, to homes of this die alone, goes on to perform (R136). -/
theorem memAccess_located {f : Form} {s : State} {c : Ctx} (issues : Issues s f c) {mo : Ctx → MemOp} (free : ReleaseFree s c (mo c))
    (unanswered : peerReplies s c.pid = []) (located : Located s c f (mo c)) (vk v2k : Option Nat) (signed : Bool) :
    memAccess f s mo vk v2k signed = .next (performAccess (clearNoFix s c.pid) c f (mo c) (accessLanes s c f).2
      (acting (mo c) (laneVals s c f (mo c) (valOf s c f (mo c).ty signed vk) (valOf s c f (mo c).ty signed v2k)))) := by
  have near := any_acting located (valOf s c f (mo c).ty signed vk) (valOf s c f (mo c).ty signed v2k)
    (fun x => match x with | .peer _ => true | _ => false)
  have home : (accessLanes s c f).1.any (fun l => match checked s c f (mo c).op (mo c).ty l with | .peer _ => true | _ => false) = false :=
    List.any_eq_false.2 fun l hl => by obtain ⟨x, hx⟩ := located l hl; simp [hx]
  rw [memAccess_free issues free, checkOutcome_of_located located, passedOn, unanswered]
  exact congrArg _ (if_neg (by rw [Bool.not_eq_true]; exact near.trans home))

end Sys2Proof.Machine
end

section
/-!
SUPPORT. O24: accesses are sent (R131, R136, R265, R270, R271).
-/
namespace Sys2Proof.Machine

/-! ### A path that has not moved -/

/-- Registers, threads and the other paths hold what they held, and the path stands where it stood. -/
structure Unmoved (s t : State) (pid : Nat) : Prop where
  issue : t.c.issue = s.c.issue
  alive : (t.x.paths.find? pid).isSome = true
  pc : (pathAt t pid).pc = (pathAt s pid).pc
  registers : RegistersKept s t pid .none []
  threads : t.x.threads = s.x.threads
  others : ∀ p, p ≠ pid → t.x.paths.find? p = s.x.paths.find? p

theorem Unmoved.trans {s t u : State} {pid : Nat} (h : Unmoved s t pid) (k : Unmoved t u pid) : Unmoved s u pid :=
  ⟨k.issue.trans h.issue, k.alive, k.pc.trans h.pc, h.registers.trans k.registers, k.threads.trans h.threads,
    fun p hp => (k.others p hp).trans (h.others p hp)⟩

theorem registers_of_warps {s t : State} {warps : SMap Warp} (x : t.x = { s.x with warps := warps }) (pid : Nat) (d : Dst) (ls : List Nat) :
    RegistersKept s t pid d ls :=
  ⟨fun _ _ => by rw [x], fun _ _ => by rw [x], fun _ _ => by rw [x], fun r _ => by rw [getSreg, pathAt, x]; rfl⟩

/-- A change of warps, and of whatever is no part of the execution state, moves no path. -/
theorem unmoved_of_warps {s t : State} {pid : Nat} (hp : (s.x.paths.find? pid).isSome = true) {warps : SMap Warp}
    (x : t.x = { s.x with warps := warps }) (issue : t.c.issue = s.c.issue) : Unmoved s t pid where
  issue := issue
  alive := by rwa [x]
  pc := by rw [pathAt, x]; rfl
  registers := registers_of_warps x ..
  threads := by rw [x]
  others := fun _ _ => by rw [x]

theorem unmoved_clearNoFix {s : State} {pid : Nat} (hp : (s.x.paths.find? pid).isSome = true) : Unmoved s (clearNoFix s pid) pid where
  issue := rfl
  alive := isSome_updPath _ _ hp
  pc := by rw [pathAt_clearNoFix hp]
  registers := registers_clearNoFix _ _ hp
  threads := rfl
  others := fun _ h => find?_updPath_ne s _ h

/-- A path that has not moved goes past its operation. -/
theorem Unmoved.finish {s t : State} {c : Ctx} (h : Unmoved s t c.pid) (f : Form) : Silent s (Machine.finish t c f) c f := by
  obtain ⟨-, paths, x⟩ := finish_kept t c f
  refine ⟨?_, h.registers.trans (finish_registers f .none [] h.alive), by rw [x]; exact h.threads,
    fun p hp => (paths.others p hp).trans (h.others p hp)⟩
  cases f with
  | p w => exact (finish_goesOn (.p w) h.alive).2
  | n w => exact ⟨h.issue, h.pc⟩

theorem isSome_finish {s : State} {c : Ctx} (f : Form) (hp : (s.x.paths.find? c.pid).isSome = true) :
    ((finish s c f).x.paths.find? c.pid).isSome = true := by
  cases f with
  | p w => exact isSome_updPath _ _ hp
  | n w => exact hp

/-- A path that has gone past its operation may wait there. -/
theorem Silent.wait {s t : State} {c : Ctx} {f : Form} (h : Silent s t c f) (alive : (t.x.paths.find? c.pid).isSome = true)
    (w : Option WaitOn) : Silent s (updPath t c.pid (fun p => { p with wait := w })) c f := by
  have path := pathAt_updPath_self (fun p => { p with wait := w }) alive
  refine ⟨?_, h.registers.trans ⟨fun _ _ => rfl, fun _ _ => rfl, fun _ _ => rfl, fun r _ => by unfold getSreg; rw [path]; rfl⟩,
    h.threads, fun p hp => (find?_updPath_ne t _ hp).trans (h.others p hp)⟩
  have past := h.past
  cases f with
  | p g => exact ⟨past.1, (congrArg Path.pc path).trans past.2⟩
  | n g => exact ⟨past.1, (congrArg Path.pc path).trans past.2⟩

/-! ### The network -/

/-- Nothing has been read or written. -/
abbrev Untouched (s u : State) : Prop := u.m.mem = s.m.mem ∧ u.m.lines = s.m.lines ∧ u.m.arrived = s.m.arrived ∧ u.e = s.e

/-- Nothing but router queues, flows and the agenda has changed. -/
def NetOnly (s t : State) : Prop :=
  ∃ ag rt fl, t = { s with c := { s.c with agenda := ag }, m := { s.m with routers := rt, flows := fl } }

theorem NetOnly.refl (s : State) : NetOnly s s := ⟨_, _, _, rfl⟩

theorem NetOnly.trans {s t u : State} (h : NetOnly s t) (k : NetOnly t u) : NetOnly s u := by
  obtain ⟨_, _, _, rfl⟩ := h
  obtain ⟨_, _, _, rfl⟩ := k
  exact ⟨_, _, _, rfl⟩

theorem NetOnly.x {s t : State} (h : NetOnly s t) : t.x = s.x := by
  obtain ⟨_, _, _, rfl⟩ := h
  rfl

theorem NetOnly.issue {s t : State} (h : NetOnly s t) : t.c.issue = s.c.issue := by
  obtain ⟨_, _, _, rfl⟩ := h
  rfl

theorem NetOnly.untouched {s t : State} (h : NetOnly s t) : Untouched s t := by
  obtain ⟨_, _, _, rfl⟩ := h
  exact ⟨rfl, rfl, rfl, rfl⟩

theorem netOnly_setRouter (s : State) (k : Nat) (q : List NetPkt) : NetOnly s (setRouter s k q) := ⟨_, _, _, rfl⟩
theorem netOnly_setFlows (s : State) (q : SMap Flow) : NetOnly s (setFlows s q) := ⟨_, _, _, rfl⟩
theorem netOnly_enqueue (s : State) (i : Instr) : NetOnly s (enqueue s i) := ⟨_, _, _, rfl⟩

theorem netOnly_pushRouter (s : State) (die router vc : Nat) (p : NetPkt) : NetOnly s (pushRouter s die router vc p) := by
  rw [pushRouter]
  split
  · exact netOnly_setRouter ..
  · exact (netOnly_setRouter ..).trans (netOnly_enqueue ..)

theorem netOnly_enterRouter (s : State) (c : Ctx) (m : MemOp) (acc : Nat) (x : LaneChk × Word × Word) :
    NetOnly s (enterRouter s c m acc x) := by
  rw [enterRouter]
  split
  · dsimp only
    split
    · exact ((netOnly_setFlows ..).trans (netOnly_enqueue ..)).trans (netOnly_pushRouter ..)
    · exact (netOnly_setFlows ..).trans (netOnly_pushRouter ..)
  · exact .refl s

theorem netOnly_enterRouters (c : Ctx) (m : MemOp) (acc : Nat) (xs : List (LaneChk × Word × Word)) (s : State) :
    NetOnly s (xs.foldl (fun s x => enterRouter s c m acc x) s) :=
  foldl_inv (NetOnly s) _ (fun t x h => h.trans (netOnly_enterRouter t c m acc x)) s xs (.refl s)

/-! ### The access in flight -/

/-- The lanes of an access in flight, each with its home and its values. -/
def sentLanes (xs : List (LaneChk × Word × Word)) : List LaneAcc :=
  xs.filterMap (fun x => match x.1.chk with
    | .loc l => some { lane := x.1.lane, loc := l, v := x.2.1, v2 := x.2.2, va := x.1.va }
    | _ => none)

theorem sentLanes_map {xs : List (LaneChk × Word × Word)} (homes : ∀ x ∈ xs, ∃ l, x.1.chk = .loc l) :
    (sentLanes xs).map (fun a => (a.lane, Chk.loc a.loc, a.v, a.v2)) = xs.map (fun x => (x.1.lane, x.1.chk, x.2.1, x.2.2)) := by
  induction xs with
  | nil => rfl
  | cons x xs ih =>
    obtain ⟨l, hl⟩ := homes x List.mem_cons_self
    have head : sentLanes (x :: xs) = { lane := x.1.lane, loc := l, v := x.2.1, v2 := x.2.2, va := x.1.va } :: sentLanes xs := by
      simp [sentLanes, hl]
    rw [head, List.map_cons, List.map_cons, ih fun y hy => homes y (List.mem_cons_of_mem x hy), hl]

/-- Where the results of an operation go. -/
def opDst (c : Ctx) (f : Form) (m : MemOp) : Dst :=
  match m.op with
  | .store => .none
  | .red _ => .none
  | _ => dstOf c f m.ty

/-- `a` is the access of operation `m` with lanes `xs` that `c` has sent: it is counted and in flight, its path waits for it if it is an
acquire, and nothing has been read or written. -/
structure SentAs (s u : State) (c : Ctx) (f : Form) (m : MemOp) (cls : Nat) (xs : List (LaneChk × Word × Word)) (a : Access) : Prop where
  silent : Silent s u c f
  inflight : warpAt u c.warp = bump { warpAt s c.warp with inflight := (warpAt s c.warp).inflight ++ [a] } cls
  pid : a.pid = c.pid
  op : a.op = m.op
  ty : a.ty = m.ty
  dst : a.dst = opDst c f m
  lanes : a.lanes = sentLanes xs
  waits : m.acq = true → (pathAt u c.pid).wait = some (.landed a.id)
  untouched : Untouched s u

theorem warpAt_updWarp_self {s : State} {w : Nat} (f : Warp → Warp) (h : (s.x.warps.find? w).isSome = true) :
    warpAt (updWarp s w f) w = f (warpAt s w) := by
  obtain ⟨a, ha⟩ := Option.isSome_iff_exists.1 h
  simp [warpAt, updWarp, SMap.getD, SMap.find?_upd_self, ha]

/-- The access in flight that `sendAccess` makes. -/
def accessOf (s : State) (c : Ctx) (f : Form) (m : MemOp) (cls : Nat) (spread : Mask) (xs : List (LaneChk × Word × Word)) : Access :=
  { id := s.c.nextId, pid := c.pid, cls := cls, op := m.op, ty := m.ty, lanes := sentLanes xs, spread := spread, dst := opDst c f m,
    nc := m.nc, drop := m.acq && decide (4 ≤ m.scope), sc := m.sc, got := [], depth := (pathAt s c.pid).frames.length, vpc := trapVpc s c f }

/-- The access counted, in flight, and its packets in the network. -/
def entered (s : State) (c : Ctx) (m : MemOp) (cls : Nat) (xs : List (LaneChk × Word × Word)) (a : Access) : State :=
  xs.foldl (fun s x => enterRouter s c m a.id x)
    (updWarp (takeId s) c.warp (fun w => bump { w with inflight := w.inflight ++ [a] } cls))

theorem sendAccess_eq (s : State) (c : Ctx) (f : Form) (m : MemOp) (cls : Nat) (spread : Mask) (xs : List (LaneChk × Word × Word)) :
    let a := accessOf s c f m cls spread xs
    let v := finish (entered s c m cls xs a) c f
    sendAccess s c f m cls spread xs =
      if waitsForIt m xs then updPath v c.pid (fun p => { p with wait := some (.landed a.id) }) else v := rfl

theorem sendAccess_sends {s : State} {c : Ctx} (alive : (s.x.paths.find? c.pid).isSome = true)
    (listed : (s.x.warps.find? c.warp).isSome = true) (f : Form) (m : MemOp) (cls : Nat) (spread : Mask)
    (xs : List (LaneChk × Word × Word)) :
    ∃ a, SentAs s (sendAccess (clearNoFix s c.pid) c f m cls spread xs) c f m cls xs a := by
  obtain ⟨a, ha⟩ : ∃ a, accessOf (clearNoFix s c.pid) c f m cls spread xs = a := ⟨_, rfl⟩
  rw [sendAccess_eq, ha]
  have net : NetOnly _ (entered (clearNoFix s c.pid) c m cls xs a) := netOnly_enterRouters ..
  have cleared := unmoved_clearNoFix alive
  have unmoved := cleared.trans (unmoved_of_warps cleared.alive net.x net.issue)
  have standing := isSome_finish f unmoved.alive
  obtain ⟨rest, paths, -⟩ := finish_kept (entered (clearNoFix s c.pid) c m cls xs a) c f
  have inflight : warpAt (finish (entered (clearNoFix s c.pid) c m cls xs a) c f) c.warp =
      bump { warpAt s c.warp with inflight := (warpAt s c.warp).inflight ++ [a] } cls := by
    rw [warpAt, paths.warps, net.x]
    exact warpAt_updWarp_self (s := takeId (clearNoFix s c.pid)) _ listed
  have untouched : Untouched s (finish (entered (clearNoFix s c.pid) c m cls xs a) c f) := by
    rw [Untouched, rest.mem, rest.engines]
    exact net.untouched
  obtain ⟨pid, op, ty, dst, lanes⟩ : a.pid = c.pid ∧ a.op = m.op ∧ a.ty = m.ty ∧ a.dst = opDst c f m ∧ a.lanes = sentLanes xs :=
    ha ▸ ⟨rfl, rfl, rfl, rfl, rfl⟩
  refine ⟨a, ?_⟩
  split
  · exact ⟨(unmoved.finish f).wait standing _, inflight, pid, op, ty, dst, lanes,
      fun _ => by rw [pathAt_updPath_self _ standing], untouched⟩
  · next idle =>
    exact ⟨unmoved.finish f, inflight, pid, op, ty, dst, lanes, fun acq => absurd (by simp [waitsForIt, acq]) idle, untouched⟩

/-! ### Accesses that travel -/

/-- Whether some lane names memory. -/
def namesMemory (s : State) (c : Ctx) (f : Form) (m : MemOp) : Bool :=
  (accessLanes s c f).1.any (fun l => match checked s c f m.op m.ty l with | .loc (.mem _ _) => true | _ => false)

/-- Whether some lane names another core's scratchpad. -/
def namesFar (s : State) (c : Ctx) (f : Form) (m : MemOp) : Bool :=
  (accessLanes s c f).1.any (fun l => match checked s c f m.op m.ty l with | .loc (.scr core _) => core != coreOfWarp c.warp | _ => false)

/-- The counter of an access of memory (R131): 0 LDC, 1 STC. -/
def memoryClass (op : AccOp) : Nat :=
  match op with
  | .store => 1
  | .red _ => 1
  | _ => 0

/-- The counter of an access that travels. -/
def travelClass (s : State) (c : Ctx) (f : Form) (m : MemOp) : Nat := if namesMemory s c f m then memoryClass m.op else 2

/-- An access that travels, and whose counter is not full, is sent once every lane has passed (R131, R136). -/
theorem memAccess_sends {f : Form} {s : State} {c : Ctx} (issues : Issues s f c) {mo : Ctx → MemOp} (free : ReleaseFree s c (mo c))
    (unanswered : peerReplies s c.pid = []) (listed : (s.x.warps.find? c.warp).isSome = true) (located : Located s c f (mo c))
    (leaves : (namesMemory s c f (mo c) || namesFar s c f (mo c)) = true)
    (room : counterFull (warpAt s c.warp) (travelClass s c f (mo c)) = false) (vk v2k : Option Nat) (signed : Bool) :
    ∃ u a, memAccess f s mo vk v2k signed = .next u ∧ SentAs s u c f (mo c) (travelClass s c f (mo c))
      (acting (mo c) (laneVals s c f (mo c) (valOf s c f (mo c).ty signed vk) (valOf s c f (mo c).ty signed v2k))) a := by
  rw [memAccess_located issues free unanswered located]
  generalize hv : valOf s c f (mo c).ty signed vk = v
  generalize hv2 : valOf s c f (mo c).ty signed v2k = v2
  have memory : (acting (mo c) (laneVals s c f (mo c) v v2)).any isGlobal = namesMemory s c f (mo c) :=
    any_acting located v v2 (fun x => match x with | .loc (.mem _ _) => true | _ => false)
  have far : (acting (mo c) (laneVals s c f (mo c) v v2)).any (isRemote (coreOfWarp c.warp)) = namesFar s c f (mo c) :=
    any_acting located v v2 (fun x => match x with | .loc (.scr core _) => core != coreOfWarp c.warp | _ => false)
  have goes : travels c (acting (mo c) (laneVals s c f (mo c) v v2)) = true := by rw [travels, memory, far, leaves]
  have counter : counterOf (mo c) (acting (mo c) (laneVals s c f (mo c) v v2)) = travelClass s c f (mo c) := by
    rw [counterOf, memory]
    rfl
  have passes : accessWait (clearNoFix s c.pid) c (mo c) (acting (mo c) (laneVals s c f (mo c) v v2)) = none := by
    rw [accessWait]
    simp only [goes, counter, if_true]
    exact if_neg (by rw [Bool.not_eq_true]; exact room)
  obtain ⟨a, sent⟩ := sendAccess_sends issues.2.1 listed f (mo c) (travelClass s c f (mo c)) (accessLanes s c f).2
    (acting (mo c) (laneVals s c f (mo c) v v2))
  refine ⟨_, a, rfl, ?_⟩
  rw [performAccess]
  simp only [passes]
  rw [doAccess, if_pos goes, counter]
  exact sent

section
variable {s u : State} {c : Ctx} {f : Form} {m : MemOp} {cls : Nat} {v v2 : Nat → Word} {a : Access}

/-- Each lane's home and values, where no lanes fold. -/
theorem SentAs.lanes_map (located : Located s c f m) (apart : acting m (laneVals s c f m v v2) = laneVals s c f m v v2)
    (sent : SentAs s u c f m cls (acting m (laneVals s c f m v v2)) a) :
    a.lanes.map (fun x => (x.lane, Chk.loc x.loc, x.v, x.v2)) =
      (accessLanes s c f).1.map (fun l => (l, checked s c f m.op m.ty l, v l, v2 l)) := by
  rw [sent.lanes, apart, sentLanes_map (homes_laneVals located v v2), laneVals, List.map_map]
  rfl

theorem accessLanes_nodup (s : State) (c : Ctx) (f : Form) : (accessLanes s c f).1.Nodup := by
  cases f with
  | p w => exact lanes_nodup _
  | n w =>
    rw [accessLanes]
    split
    · exact List.nodup_singleton _
    · exact lanes_nodup _

theorem SentAs.locs (located : Located s c f m) (sent : SentAs s u c f m cls (acting m (laneVals s c f m v v2)) a) :
    a.lanes.map (fun x => Chk.loc x.loc) = chksOf (acting m (laneVals s c f m v v2)) := by
  have all := congrArg (List.map (fun p => p.2.1)) (sentLanes_map (homes_acting located v v2))
  rw [List.map_map, List.map_map] at all
  rw [sent.lanes]
  exact all

theorem nodup_laneVals (s : State) (c : Ctx) (f : Form) (m : MemOp) (v v2 : Nat → Word) : (laneVals s c f m v v2).Nodup :=
  (accessLanes_nodup s c f).map fun _ _ same => congrArg (·.1.lane) same

/-- The words that the lanes of a `red` name, each once, and the value of a lane that shares its word with no other (R271). -/
theorem SentAs.folded {k : Nat} (red : m.op = .red k) (located : Located s c f m)
    (sent : SentAs s u c f m cls (acting m (laneVals s c f m v v2)) a) :
    (a.lanes.map (·.loc)).Nodup ∧ (∀ x, x ∈ a.lanes.map (·.loc) ↔ ∃ l ∈ (accessLanes s c f).1, checked s c f m.op m.ty l = .loc x) ∧
      ∀ l ∈ (accessLanes s c f).1, ∀ x, checked s c f m.op m.ty l = .loc x →
        (∀ j ∈ (accessLanes s c f).1, j ≠ l → checked s c f m.op m.ty j ≠ .loc x) → ∃ e ∈ a.lanes, e.loc = x ∧ e.v = v l := by
  have folds : acting m (laneVals s c f m v v2) = foldRed m.ty k (laneVals s c f m v v2) := by rw [acting, red]
  have homes := homes_laneVals located v v2
  have locs : (a.lanes.map (·.loc)).map Chk.loc = chksOf (acting m (laneVals s c f m v v2)) := by
    rw [List.map_map]
    exact sent.locs located
  refine ⟨?_, fun x => ?_, fun l hl x found alone => ?_⟩
  · exact List.Nodup.of_map Chk.loc (locs ▸ folds ▸ (chksOf_foldRed _ _ homes).1)
  · rw [← mem_chksOf_acting located v v2, ← locs, List.mem_map_of_injective fun _ _ => Chk.loc.inj]
  · have mem : laneVal s c f m v v2 l ∈ foldRed m.ty k (laneVals s c f m v v2) := by
      refine mem_foldRed homes (nodup_laneVals ..) (List.mem_map_of_mem hl) fun y hy other => ?_
      obtain ⟨j, hj, rfl⟩ := List.mem_map.1 hy
      exact fun same => alone j hj (fun h => other (h ▸ rfl)) (same.trans found)
    rw [sent.lanes, folds]
    exact ⟨_, List.mem_filterMap.2 ⟨_, mem, by rw [laneVal, found]⟩, rfl, rfl⟩

end

/-! ### The instructions -/

section
variable (f : Form) (c : Ctx)

/-- What `ld` asks for (R133 to R136). -/
abbrev ldOp : MemOp :=
  { op := .load, ty := formTy c f, acq := modOf f == 1 || modOf f == 3, rel := modOf f == 3, nc := modOf f == 2, sc := modOf f == 3,
    scope := scopeOf f 1, det := false }
/-- What `st` asks for. -/
abbrev stOp : MemOp :=
  { op := .store, ty := formTy c f, acq := modOf f == 3, rel := modOf f == 1 || modOf f == 3, nc := modOf f == 2, sc := false,
    scope := scopeOf f 2, det := false }
/-- What `amo` asks for (R265 to R267). -/
abbrev amoOp : MemOp :=
  { op := .amo (controlOp f), ty := formTy c f, acq := acqOf (modOf f), rel := relOf (modOf f), nc := false, sc := false,
    scope := controlScope f, det := false }
/-- What `cas` asks for. -/
abbrev casOp : MemOp :=
  { op := .cas, ty := formTy c f, acq := acqOf (modOf f), rel := relOf (modOf f), nc := false, sc := false, scope := scopeOf f 3, det := false }
/-- What `red` asks for (R268 to R270). -/
abbrev redOp : MemOp :=
  { op := .red (controlOp f), ty := formTy c f, acq := false, rel := modOf f == 2, nc := false, sc := false, scope := controlScope f,
    det := controlDet f }

end

/-- An access whose lanes do not fold is sent with each lane's home and values. -/
theorem memAccess_sends_lanes {f : Form} {s : State} {c : Ctx} (issues : Issues s f c) {mo : Ctx → MemOp} (free : ReleaseFree s c (mo c))
    (unanswered : peerReplies s c.pid = []) (listed : (s.x.warps.find? c.warp).isSome = true) (located : Located s c f (mo c))
    (leaves : (namesMemory s c f (mo c) || namesFar s c f (mo c)) = true)
    (room : counterFull (warpAt s c.warp) (travelClass s c f (mo c)) = false) (apart : ∀ xs, acting (mo c) xs = xs)
    (vk v2k : Option Nat) (signed : Bool) :
    ∃ u a, memAccess f s mo vk v2k signed = .next u ∧ Silent s u c f ∧
      warpAt u c.warp = bump { warpAt s c.warp with inflight := (warpAt s c.warp).inflight ++ [a] } (travelClass s c f (mo c)) ∧
      a.pid = c.pid ∧ a.op = (mo c).op ∧ a.ty = (mo c).ty ∧ a.dst = opDst c f (mo c) ∧
      a.lanes.map (fun x => (x.lane, Chk.loc x.loc, x.v, x.v2)) = (accessLanes s c f).1.map (fun l =>
        (l, checked s c f (mo c).op (mo c).ty l, valOf s c f (mo c).ty signed vk l, valOf s c f (mo c).ty signed v2k l)) ∧
      ((mo c).acq = true → (pathAt u c.pid).wait = some (.landed a.id)) ∧ Untouched s u := by
  obtain ⟨u, a, ran, sent⟩ := memAccess_sends issues free unanswered listed located leaves room vk v2k signed
  exact ⟨u, a, ran, sent.silent, sent.inflight, sent.pid, sent.op, sent.ty, sent.dst, sent.lanes_map located (apart _), sent.waits,
    sent.untouched⟩

/-- Settles O24: each instruction's access is sent, with each lane's home and values; those of a `red` fold. -/
theorem accessesAreSentAfterEveryCheck : Obligations.AccessesAreSentAfterEveryCheck := by
  intro f s c issues canon unanswered listed ls t w found global far cls ready nothing sent b md n sg
  refine ⟨?ld, ?st, ?amo, ?cas, ?red⟩
  case ld =>
    rintro ⟨located, leaves, room, free⟩
    exact memAccess_sends_lanes issues (mo := ldOp f) free unanswered listed located leaves room (fun _ => rfl) none none false
  case st =>
    rintro ⟨located, leaves, room, free⟩
    exact memAccess_sends_lanes issues (mo := stOp f) free unanswered listed located leaves room (fun _ => rfl) (some 1) none false
  case amo =>
    rintro ⟨located, leaves, room, free⟩
    exact memAccess_sends_lanes issues (mo := amoOp f) free unanswered listed located leaves room (fun _ => rfl) (some 1) none sg
  case cas =>
    rintro ⟨located, leaves, room, free⟩
    exact memAccess_sends_lanes issues (mo := casOp f) free unanswered listed located leaves room (fun _ => rfl) (some 1) (some 2) false
  case red =>
    rintro ⟨located, leaves, room, free⟩
    obtain ⟨u, a, ran, sent⟩ := memAccess_sends issues (mo := redOp f) free unanswered listed located leaves room (some 1) none sg
    obtain ⟨nodup, words, alone⟩ := sent.folded rfl located
    exact ⟨u, a, ran, sent.silent, sent.inflight, sent.pid, sent.op, sent.ty, nodup, words, alone, sent.untouched⟩

end Sys2Proof.Machine
end

section
/-!
SUPPORT. O26: alignment faults, prefetches and fences (R136, R137, R286, R288).
-/
namespace Sys2Proof.Machine

/-! ### Cached lines -/

/-- Nothing but the lines of the cluster caches has changed. -/
def LinesOnly (s t : State) : Prop := ∃ ln, t = setLines s ln

theorem LinesOnly.refl (s : State) : LinesOnly s s := ⟨_, rfl⟩

theorem LinesOnly.trans {s t u : State} (h : LinesOnly s t) (k : LinesOnly t u) : LinesOnly s u := by
  obtain ⟨_, rfl⟩ := h
  obtain ⟨_, rfl⟩ := k
  exact ⟨_, rfl⟩

theorem linesOnly_cacheFill (s : State) (core addr ord : Nat) (nc : Bool) : LinesOnly s (cacheFill s core addr ord nc) := by
  rw [cacheFill]
  split
  · exact .refl s
  · split
    · exact .refl s
    · exact ⟨_, rfl⟩

theorem linesOnly_dropLines (s : State) (cluster : Nat) (unordered : Bool) : LinesOnly s (dropLines s cluster unordered) := ⟨_, rfl⟩

/-- An acquire leaves no release-consistent line in its cluster's cache, `.full` no unordered one either (R286, R288). -/
theorem ord_of_mem_dropLines {s : State} {cluster : Nat} {unordered : Bool} {k : Nat} {l : CacheLine}
    (mem : (k, l) ∈ (dropLines s cluster unordered).m.lines) (own : k / 2 ^ 52 = cluster) :
    l.ord ≠ 1 ∧ (unordered = true → l.ord ≠ 2) := by
  have kept := (List.mem_filter.1 (show (k, l) ∈ s.m.lines.filter _ from mem)).2
  simp only [own, BEq.rfl, Bool.true_and, Bool.not_eq_true', Bool.or_eq_false_iff, beq_eq_false_iff_ne] at kept
  exact ⟨kept.1, fun h => by simpa [h] using kept.2⟩

/-- The path has gone on, and nothing but cached lines has changed with it. -/
abbrev KeepsAllButLines (s u : State) (c : Ctx) (f : Form) : Prop :=
  Silent s u c f ∧ u.m = { s.m with lines := u.m.lines } ∧ u.e = s.e ∧ u.h = s.h ∧ u.x.warps = s.x.warps

theorem keepsAllButLines_finish {s t : State} {c : Ctx} (h : LinesOnly s t) (f : Form) (alive : (s.x.paths.find? c.pid).isSome = true) :
    KeepsAllButLines s (finish t c f) c f ∧ (finish t c f).m.lines = t.m.lines := by
  obtain ⟨ln, rfl⟩ := h
  obtain ⟨rest, paths, -⟩ := finish_kept (setLines s ln) c f
  have unmoved : Unmoved s (setLines s ln) c.pid := unmoved_of_warps alive (warps := s.x.warps) rfl rfl
  exact ⟨⟨unmoved.finish f, by rw [rest.mem]; rfl, rest.engines, rest.host, paths.warps⟩, by rw [rest.mem]⟩

section
variable {f : Form} {s : State} {c : Ctx} (issues : Issues s f c)
include issues

/-! ### Prefetches and fences -/

/-- A prefetch fills lines, or is dropped (R137). -/
theorem execPrefetch_goes : ∃ u, execPrefetch f s = .next u ∧ KeepsAllButLines s u c f := by
  rw [execPrefetch, issuing_eq issues]
  refine ⟨_, rfl, (keepsAllButLines_finish (foldl_inv (LinesOnly s) _ (fun t l h => h.trans ?_) s _ (.refl s)) f issues.2.1).1⟩
  dsimp only
  split
  · exact .refl t
  · split
    · exact .refl t
    · split
      · exact .refl t
      · exact linesOnly_cacheFill ..

theorem execFence_waits (pending : (warpAt s c.warp).inflight ≠ []) : execFence f s = .next (hold s c.pid f .drained) := by
  rw [execFence, issuing_eq issues, if_pos (by simpa using pending)]

theorem execFence_goes (free : (warpAt s c.warp).inflight = []) : ∃ u, execFence f s = .next u ∧ KeepsAllButLines s u c f ∧
    (modOf f ≠ 1 → 4 ≤ scopeOf f 0 → ∀ k l, (k, l) ∈ u.m.lines → k / 2 ^ 52 = clusterOf (coreOfWarp c.warp) →
      l.ord ≠ 1 ∧ (modOf f = 4 → l.ord ≠ 2)) := by
  rw [execFence, issuing_eq issues, if_neg (by simp [free])]
  refine ⟨_, rfl, ?_⟩
  split
  · obtain ⟨keeps, lines⟩ := keepsAllButLines_finish (linesOnly_dropLines s (clusterOf (coreOfWarp c.warp)) (modOf f == 4)) f issues.2.1
    refine ⟨keeps, fun _ _ k l mem own => ?_⟩
    rw [lines] at mem
    simpa using ord_of_mem_dropLines mem own
  · next narrow =>
    exact ⟨(keepsAllButLines_finish (.refl s) f issues.2.1).1, fun acquire wide => absurd (by simp [acquire, wide]) narrow⟩

end

/-- Settles O26: kind 5 comes before every other kind, and prefetches and fences touch cached lines alone. -/
theorem misalignedAccessesTrapAndFencesOrder : Obligations.MisalignedAccessesTrapAndFencesOrder := by
  refine ⟨?_, ?_⟩
  · intro f s c issues n bad sp t free odd
    refine ⟨fun h => ?_, fun h => ?_, fun h => ⟨?_, ?_⟩, fun h => ?_⟩
    · exact memAccess_misaligned issues (mo := ldOp f) (fun rel => h (by simpa using rel)) none none false odd
    · exact memAccess_misaligned issues (mo := stOp f) (fun rel => h (by simpa using rel)) (some 1) none false odd
    · exact memAccess_misaligned issues (mo := amoOp f) h (some 1) none (controlOp f == 1 || controlOp f == 3) odd
    · exact memAccess_misaligned issues (mo := casOp f) h (some 1) (some 2) false odd
    · exact memAccess_misaligned issues (mo := redOp f) (fun rel => h (by simpa using rel)) (some 1) none
        (controlOp f == 1 || controlOp f == 3) odd
  · intro f s c issues _ cl keeps
    exact ⟨execPrefetch_goes issues, execFence_goes issues, execFence_waits issues⟩

end Sys2Proof.Machine
end

section
/-!
SUPPORT. O27: what happens at the home of an access (R262, R263, R267).
-/
namespace Sys2Proof.Machine

/-! ### What an access at its home leaves alone -/

/-- Nothing but memory, cached lines and scratchpads has changed. -/
def HomeOnly (s t : State) : Prop :=
  ∃ mem ln scr lost tags, t = { s with m := { s.m with mem := mem, lines := ln }, e := { s.e with scr := scr, lostScr := lost, tags := tags } }

theorem HomeOnly.refl (s : State) : HomeOnly s s := ⟨_, _, _, _, _, rfl⟩

theorem HomeOnly.trans {s t u : State} (h : HomeOnly s t) (k : HomeOnly t u) : HomeOnly s u := by
  obtain ⟨_, _, _, _, _, rfl⟩ := h
  obtain ⟨_, _, _, _, _, rfl⟩ := k
  exact ⟨_, _, _, _, _, rfl⟩

theorem LinesOnly.homeOnly {s t : State} (h : LinesOnly s t) : HomeOnly s t := by
  obtain ⟨ln, rfl⟩ := h
  exact ⟨_, _, _, _, _, rfl⟩

theorem HomeOnly.keeps {s t : State} (h : HomeOnly s t) : t.x = s.x ∧ t.d = s.d ∧ t.m.arrived = s.m.arrived := by
  obtain ⟨_, _, _, _, _, rfl⟩ := h
  exact ⟨rfl, rfl, rfl⟩

/-- Without watchpoints no access notes a hit. -/
theorem noteWatch_of_none {s : State} (who : Party) (kind : Nat) (l : Loc) (before : Word) (unwatched : s.d.watches = []) :
    noteWatch s who kind l before = s := by
  rw [noteWatch, unwatched]
  rfl

theorem linesOnly_homeDrop (s : State) (die : Nat) (l : Loc) : LinesOnly s (homeDrop s die l) := by
  cases l with
  | mem a ord => exact ⟨_, rfl⟩
  | scr core pa => exact .refl s

theorem homeOnly_homeWrite (s : State) (l : Loc) (n : Nat) (v : Word) : HomeOnly s (homeWrite s l n v) := by
  cases l with
  | mem a ord => exact ⟨_, _, _, _, _, rfl⟩
  | scr core pa => exact ⟨_, _, _, _, _, rfl⟩

/-- A store of a thread writes its home, and the line that its cluster holds (R129). -/
theorem linesOnly_locStore (s : State) (core : Nat) (l : Loc) (n : Nat) (v : Word) : LinesOnly (homeWrite s l n v) (locStore s core l n v) := by
  cases l with
  | mem a ord =>
    rw [locStore, cacheStore]
    split
    · exact ⟨_, rfl⟩
    · exact .refl _
  | scr c pa => exact .refl _

/-! ### Words at a home -/

/-- Memory and scratchpads are in canonical form. -/
abbrev HomesWf (s : State) : Prop := Memory.wf s.m.mem = true ∧ SMap.wf 0 s.e.scr = true

theorem homeRead_congr {s t : State} (mem : t.m.mem = s.m.mem) (scr : t.e.scr = s.e.scr) (l : Loc) (n : Nat) :
    homeRead t l n = homeRead s l n := by
  cases l with
  | mem a ord => simp only [homeRead, readMem, readBytes, mem]
  | scr core pa => simp only [homeRead, scrRead, scrBytes, scr]

/-- A home holds what has been written there. -/
theorem homeRead_homeWrite {s : State} (wf : HomesWf s) (l : Loc) (n : Nat) (v : Word) :
    homeRead (homeWrite s l n v) l n = lowBits (8 * n) v := by
  cases l with
  | mem a ord => rw [homeRead, homeWrite, readMem_writeMem a n _ wf.1, lowBits]
  | scr core pa =>
    have read : scrRead (scrStore s core pa n v.toNat) core pa n = v.toNat % 256 ^ n := scrRead_scrWrite core pa n v.toNat wf.2
    rw [homeRead, homeWrite, read, show (256 : Nat) = 2 ^ 8 from rfl, ← Nat.pow_mul, lowBits]

theorem LinesOnly.homeRead {s t : State} (h : LinesOnly s t) (l : Loc) (n : Nat) : homeRead t l n = homeRead s l n := by
  obtain ⟨ln, rfl⟩ := h
  exact homeRead_congr rfl rfl l n

theorem LinesOnly.bytes {s t : State} (h : LinesOnly s t) : t.m.mem = s.m.mem ∧ t.e.scr = s.e.scr := by
  obtain ⟨ln, rfl⟩ := h
  exact ⟨rfl, rfl⟩

theorem LinesOnly.homesWf {s t : State} (h : LinesOnly s t) (wf : HomesWf s) : HomesWf t := by
  obtain ⟨ln, rfl⟩ := h
  exact wf

/-- A word as it stands fits its bytes. -/
theorem lowBits_homeRead (s : State) (l : Loc) (n : Nat) : lowBits (8 * n) (homeRead s l n) = homeRead s l n := by
  obtain ⟨x, small, read⟩ : ∃ x, x < 2 ^ (8 * n) ∧ homeRead s l n = BitVec.ofNat 64 x := by
    cases l with
    | mem a ord => exact ⟨_, readMem_lt s a n, rfl⟩
    | scr core pa =>
      refine ⟨_, ?_, rfl⟩
      have bound := leNat_lt (scrBytes s core pa n)
      rwa [scrBytes, SMap.getsD_eq_map, List.length_map, List.length_range, show (256 : Nat) = 2 ^ 8 from rfl, ← Nat.pow_mul,
        ← SMap.getsD_eq_map] at bound
  have fits : x % 2 ^ 64 % 2 ^ (8 * n) = x % 2 ^ 64 := Nat.mod_eq_of_lt (Nat.lt_of_le_of_lt (Nat.mod_le ..) small)
  rw [read, lowBits, BitVec.toNat_ofNat, fits]
  exact BitVec.eq_of_toNat_eq (by simp)

/-! ### One lane performs -/

/-- What a lane gets (R263, R267): a load what its core reads in state `s0`, `amo` and `cas` the word as it stood in state `s`. -/
def resultAt (s s0 : State) (core : Nat) (op : AccOp) (l : Loc) (n : Nat) : Word :=
  match op with
  | .load => BitVec.ofNat 64 (leNat (locRead s0 core l n))
  | .amo _ => homeRead s l n
  | .cas => homeRead s l n
  | _ => 0

/-- A home holds a value of `n` bytes. -/
abbrev Put (u : State) (l : Loc) (n : Nat) (v : Word) : Prop := homeRead u l n = lowBits (8 * n) v

/-- What an access leaves at its home in state `u` (R266, R267): a `red` folds in `r`, the others act with `v` and `v2`. -/
def LeavesAt (s u : State) (op : AccOp) (t : Ty) (l : Loc) (v v2 r : Word) : Prop :=
  match op with
  | .load => u.m.mem = s.m.mem ∧ u.e.scr = s.e.scr
  | .store => Put u l (tyBytes t) v
  | .amo k => Put u l (tyBytes t) (applyOp t k (homeRead s l (tyBytes t)) v)
  | .cas => Put u l (tyBytes t) (if homeRead s l (tyBytes t) = lowBits (tyWidth t) v then v2 else homeRead s l (tyBytes t))
  | .red k => Put u l (tyBytes t) (applyOp t k (homeRead s l (tyBytes t)) r)

/-- Only what stood in memory and in the scratchpads before matters. -/
theorem LeavesAt.of_bytes {s t u : State} {op : AccOp} {ty : Ty} {l : Loc} {v v2 r : Word} (same : t.m.mem = s.m.mem ∧ t.e.scr = s.e.scr)
    (h : LeavesAt t u op ty l v v2 r) : LeavesAt s u op ty l v v2 r := by
  have word := homeRead_congr same.1 same.2 l (tyBytes ty)
  cases op with
  | load => exact ⟨h.1.trans same.1, h.2.trans same.2⟩
  | store => exact h
  | amo k => rwa [LeavesAt, word] at h
  | cas => rwa [LeavesAt, word] at h
  | red k => rwa [LeavesAt, word] at h

theorem LeavesAt.after {s t u : State} {op : AccOp} {ty : Ty} {l : Loc} {v v2 r : Word} (same : u.m.mem = t.m.mem ∧ u.e.scr = t.e.scr)
    (h : LeavesAt s t op ty l v v2 r) : LeavesAt s u op ty l v v2 r := by
  have word := homeRead_congr same.1 same.2 l (tyBytes ty)
  cases op with
  | load => exact ⟨same.1.trans h.1, same.2.trans h.2⟩
  | store => exact word.trans h
  | amo k => exact word.trans h
  | cas => exact word.trans h
  | red k => exact word.trans h

/-- The state after a load has allocated the line that it misses (R129). -/
def lineFilled (s : State) (core : Nat) (l : Loc) (nc : Bool) : State :=
  match l with
  | .mem a ord => cacheFill s core a ord nc
  | .scr _ _ => s

theorem linesOnly_lineFilled (s : State) (core : Nat) (l : Loc) (nc : Bool) : LinesOnly s (lineFilled s core l nc) := by
  cases l with
  | mem a ord => exact linesOnly_cacheFill ..
  | scr c pa => exact .refl s

theorem performLane_performs {s : State} (unwatched : s.d.watches = []) (wf : HomesWf s) (core : Nat) (who : Party) (op : AccOp) (t : Ty)
    (nc : Bool) (l : Loc) (v v2 : Word) :
    let r := performLane s core who op t nc l v v2
    HomeOnly s r.1 ∧ r.2 = resultAt s s core op l (tyBytes t) ∧ LeavesAt s r.1 op t l v v2 v := by
  have quiet : ∀ {u : State} (kind : Nat), HomeOnly s u → noteWatch u who kind l (homeWord s l) = u := fun kind h =>
    noteWatch_of_none who kind l _ (by rw [h.keeps.2.1, unwatched])
  have drop := linesOnly_homeDrop s (dieOfCore core) l
  generalize hd : homeDrop s (dieOfCore core) l = d at drop
  have old : homeRead d l (tyBytes t) = homeRead s l (tyBytes t) := drop.homeRead l (tyBytes t)
  have writes : ∀ w, HomeOnly s (homeWrite d l (tyBytes t) w) := fun w => drop.homeOnly.trans (homeOnly_homeWrite d l _ w)
  have holds : ∀ w, homeRead (homeWrite d l (tyBytes t) w) l (tyBytes t) = lowBits (8 * tyBytes t) w :=
    fun w => homeRead_homeWrite (drop.homesWf wf) l _ w
  cases op with
  | load =>
    have fill := linesOnly_lineFilled s core l nc
    have reads : performLane s core who .load t nc l v v2 =
        (noteWatch (lineFilled s core l nc) who 1 l (homeWord s l), resultAt s s core .load l (tyBytes t)) := rfl
    rw [reads, quiet 1 fill.homeOnly]
    exact ⟨fill.homeOnly, rfl, fill.bytes⟩
  | store =>
    have stores := linesOnly_locStore s core l (tyBytes t) v
    have home := (homeOnly_homeWrite s l (tyBytes t) v).trans stores.homeOnly
    simp only [performLane, quiet 2 home]
    exact ⟨home, rfl, (stores.homeRead l _).trans (homeRead_homeWrite wf l _ v)⟩
  | amo k =>
    simp only [performLane, hd, quiet 4 (writes _), old]
    exact ⟨writes _, rfl, holds _⟩
  | cas =>
    simp only [performLane, hd, old]
    split
    · next same =>
      rw [quiet 4 (writes _)]
      exact ⟨writes _, rfl, by simpa only [LeavesAt, if_pos same] using holds v2⟩
    · next other =>
      rw [quiet 4 drop.homeOnly]
      exact ⟨drop.homeOnly, rfl, by simpa only [LeavesAt, Put, if_neg other, old] using (lowBits_homeRead s l (tyBytes t)).symm⟩
  | red k =>
    simp only [performLane, hd, quiet 4 (writes _), old]
    exact ⟨writes _, rfl, holds _⟩

end Sys2Proof.Machine
end

section
/-!
SUPPORT. O27: the lanes of a packet that has come to its home (R131, R147, R269, R273).
-/
namespace Sys2Proof

namespace SMap
variable {α : Type}

/-- Changing a listed value leaves the keys as they are. -/
theorem keys_ins_of_find? {m : SMap α} {k lo : Nat} {a b : α} (rising : m.risingFrom lo = true) (h : m.find? k = some a) :
    (m.ins k b).map (·.1) = m.map (·.1) := by
  induction m generalizing lo with
  | nil => cases h
  | cons p m ih =>
    obtain ⟨i, c⟩ := p
    rw [risingFrom, Bool.and_eq_true] at rising
    rw [find?] at h
    rw [ins]
    split at h
    · next same => simp [same]
    · next other =>
      have behind : ¬k < i := fun before => by
        rw [find?_of_rising m rising.2 (by omega)] at h
        cases h
      rw [if_neg behind, if_neg other, List.map_cons, List.map_cons, ih rising.2 h]

theorem keys_upd {m : SMap α} {lo : Nat} (rising : m.risingFrom lo = true) (k : Nat) (f : α → α) :
    (m.upd k f).map (·.1) = m.map (·.1) := by
  rw [upd]
  split
  · next a h => exact keys_ins_of_find? rising h
  · rfl

/-- Rising is a property of the keys. -/
theorem risingFrom_of_keys {m m' : SMap α} (h : m'.map (·.1) = m.map (·.1)) (lo : Nat) : m'.risingFrom lo = m.risingFrom lo := by
  induction m generalizing m' lo with
  | nil => rw [List.map_eq_nil_iff.1 h]
  | cons p m ih =>
    obtain ⟨p', m', rfl, hp, hm⟩ := List.map_eq_cons_iff.1 h
    obtain ⟨i, a⟩ := p
    obtain ⟨j, b⟩ := p'
    obtain rfl : j = i := hp
    rw [risingFrom, risingFrom, ih hm]

theorem upd_of_none {m : SMap α} {k : Nat} (f : α → α) (h : m.find? k = none) : m.upd k f = m := by
  rw [upd, h]

end SMap

namespace Machine

/-! ### The results of an access -/

/-- The paths that are there are those that were. -/
def SamePaths (s t : State) : Prop := s.x.paths.risingFrom 0 = true → t.x.paths.map (·.1) = s.x.paths.map (·.1)

theorem SamePaths.trans {s t u : State} (h : SamePaths s t) (k : SamePaths t u) : SamePaths s u := fun rising =>
  (k ((SMap.risingFrom_of_keys (h rising) 0).trans rising)).trans (h rising)

theorem samePaths_putDst (s : State) (pid l : Nat) (d : Dst) (v : Word) : SamePaths s (putDst s pid l d v) := by
  have sreg : ∀ r v, SamePaths s (setSreg s pid r v) := fun r v rising => by
    rcases setSreg_cases s pid r v with ⟨g, h, -⟩ | ⟨h, -⟩
    · rw [h]
      exact SMap.keys_upd rising pid g
    · rw [h]
  cases d with
  | none => exact fun _ => rfl
  | val depth n => exact fun _ => rfl
  | vreg r wide => cases wide <;> exact fun _ => rfl
  | sreg r => exact sreg r v
  | sbit r b => exact sreg r _

theorem samePaths_putLanes (s : State) (pid : Nat) (d : Dst) (rs : List (Nat × Word)) : SamePaths s (putLanes s pid d rs) :=
  putLanes_induct (P := SamePaths s) s pid d rs (fun _ => rfl) fun t r _ h => h.trans (samePaths_putDst t pid r.1 d r.2)

theorem setSreg_registers_of_gone {s : State} {pid r : Nat} (v : Word) (d : Dst) (ls : List Nat) (hd : sregOf d = some r)
    (gone : s.x.paths.find? pid = none) : RegistersKept s (setSreg s pid r v) pid d ls := by
  rcases setSreg_cases s pid r v with ⟨g, h, -⟩ | ⟨h, -⟩
  · have same : updPath s pid g = s := by rw [updPath, SMap.upd_of_none g gone]
    rw [h, same]
    exact .refl ..
  · rw [h]
    refine ⟨fun _ _ => rfl, fun _ _ => rfl, fun k hk => SMap.getD_putD_ne 0 _ v (hk r hd), fun j hj => ?_⟩
    have apart : sregKey (warpOfPath pid) j ≠ sregKey (warpOfPath pid) r := by
      have : r ≠ j := fun same => hj (same ▸ hd)
      unfold sregKey
      omega
    unfold getSreg
    simp only [SMap.getD_putD_ne 0 _ v apart]
    rfl

/-- An access whose path is gone writes its results all the same, to registers that are not the path's own. -/
theorem putDst_registers_of_gone {s : State} {pid l : Nat} (d : Dst) (v : Word) {ls : List Nat} (hl : l ∈ ls)
    (gone : s.x.paths.find? pid = none) : RegistersKept s (putDst s pid l d v) pid d ls := by
  have there : ((setPath s pid pathZero).x.paths.find? pid).isSome = true := by rw [setPath, SMap.find?_ins_self]; rfl
  have kept := putDst_registers d v hl there
  cases d with
  | none => exact .refl ..
  | val depth n => exact ⟨kept.vals, kept.vregs, kept.sregs, fun _ _ => rfl⟩
  | vreg r wide => cases wide <;> exact ⟨kept.vals, kept.vregs, kept.sregs, fun _ _ => rfl⟩
  | sreg r => exact setSreg_registers_of_gone _ _ _ rfl gone
  | sbit r b => exact setSreg_registers_of_gone _ _ _ rfl gone

theorem find?_putDst_of_gone {s : State} {pid l : Nat} (d : Dst) (v : Word) (gone : s.x.paths.find? pid = none) :
    (putDst s pid l d v).x.paths.find? pid = none := by
  have sreg : ∀ r v, (setSreg s pid r v).x.paths.find? pid = none := fun r v => by
    rcases setSreg_cases s pid r v with ⟨g, h, -⟩ | ⟨h, -⟩
    · rw [h, updPath, SMap.upd_of_none g gone, gone]
    · rw [h, gone]
  cases d with
  | none => exact gone
  | val depth n => exact gone
  | vreg r wide => cases wide <;> exact gone
  | sreg r => exact sreg r v
  | sbit r b => exact sreg r _

/-- Writing results keeps every register but those of the destination, whether or not the path is still there. -/
theorem putLanes_registers_always (s : State) (pid : Nat) (d : Dst) (rs : List (Nat × Word)) :
    RegistersKept s (putLanes s pid d rs) pid d (rs.map (·.1)) := by
  have named : ∀ r ∈ rs, r.1 ∈ rs.map (·.1) := fun r hr => List.mem_map_of_mem hr
  cases path : s.x.paths.find? pid with
  | some q => exact putLanes_registers d named (by rw [path]; rfl)
  | none =>
    exact (putLanes_induct (P := fun t => RegistersKept s t pid d (rs.map (·.1)) ∧ t.x.paths.find? pid = none) s pid d rs
      ⟨.refl .., path⟩ fun t r hr h =>
        ⟨h.1.trans (putDst_registers_of_gone d r.2 (named r hr) h.2), find?_putDst_of_gone d r.2 h.2⟩).1

/-- A list of results whose lanes differ gives each lane one value. -/
theorem exists_results {rs : List (Nat × Word)} (nodup : (rs.map (·.1)).Nodup) : ∃ g : Nat → Word, ∀ r ∈ rs, g r.1 = r.2 := by
  induction rs with
  | nil => exact ⟨fun _ => 0, by simp⟩
  | cons x xs ih =>
    rw [List.map_cons, List.nodup_cons] at nodup
    obtain ⟨g, hg⟩ := ih nodup.2
    refine ⟨Function.update g x.1 x.2, fun r hr => ?_⟩
    rcases List.mem_cons.1 hr with rfl | hr
    · exact Function.update_self ..
    · rw [Function.update_of_ne fun same => nodup.1 (List.mem_map.2 ⟨r, hr, same⟩), hg r hr]

/-- Every result stands in its destination. -/
theorem holds_putLanes {s : State} {pid : Nat} (d : Dst) {rs : List (Nat × Word)} (nodup : (rs.map (·.1)).Nodup)
    (small : ∀ r ∈ rs, r.1 < 64) (wf : RegsWf s) (alive : (s.x.paths.find? pid).isSome = true) :
    ∀ r ∈ rs, r.1 ∈ takers d (rs.map (·.1)) → Holds (putLanes s pid d rs) pid r.1 d r.2 := by
  obtain ⟨g, hg⟩ := exists_results nodup
  have listed : (rs.map (·.1)).map (fun l => (l, g l)) = rs := by
    conv_rhs => rw [← List.map_id rs]
    rw [List.map_map]
    exact List.map_congr_left fun r hr => Prod.ext rfl (hg r hr)
  intro r hr takes
  have held := results_putLanes d (rs.map (·.1)) g nodup (List.forall_mem_map.2 small) wf alive r.1 takes
  rwa [listed, hg r hr] at held

/-! ### A lane that has performed -/

theorem find?_warp_of_inflight {s : State} {w : Nat} {a : Access} {p : Access → Bool} (found : (warpAt s w).inflight.find? p = some a) :
    (s.x.warps.find? w).isSome = true := by
  cases listed : s.x.warps.find? w with
  | some _ => rfl
  | none =>
    rw [warpAt, SMap.getD, listed] at found
    cases found

/-- Results have been written: memory, engines, threads and the list of paths are as they were. -/
structure Landed (s t : State) : Prop where
  mem : t.m = s.m
  engines : t.e = s.e
  threads : t.x.threads = s.x.threads
  paths : SamePaths s t

theorem Landed.trans {s t u : State} (h : Landed s t) (k : Landed t u) : Landed s u :=
  ⟨k.mem.trans h.mem, k.engines.trans h.engines, k.threads.trans h.threads, h.paths.trans k.paths⟩

theorem landed_updWarp (s : State) (w : Nat) (f : Warp → Warp) : Landed s (updWarp s w f) := ⟨rfl, rfl, rfl, fun _ => rfl⟩

theorem landed_putLanes (s : State) (pid : Nat) (d : Dst) (rs : List (Nat × Word)) : Landed s (putLanes s pid d rs) := by
  obtain ⟨rest, -, threads⟩ := putLanes_kept s pid d rs
  exact ⟨rest.mem, rest.engines, threads, samePaths_putLanes s pid d rs⟩

theorem landed_laneDone (s : State) (q : Nat × Nat × Nat) (v : Word) : Landed s (laneDone s q v) := by
  rw [laneDone]
  split
  · exact ⟨rfl, rfl, rfl, fun _ => rfl⟩
  · dsimp only
    split
    · exact (landed_putLanes ..).trans (landed_updWarp ..)
    · exact landed_updWarp ..

theorem landed_lanesDone (v : Word) (qs : List (Nat × Nat × Nat)) (s : State) :
    Landed s (qs.foldl (fun t q => laneDone t q v) s) :=
  foldl_inv (Landed s) _ (fun t q h => h.trans (landed_laneDone t q v)) s qs ⟨rfl, rfl, rfl, fun _ => rfl⟩

section
variable {s : State} {w : Nat} {a : Access} (found : (warpAt s w).inflight.find? (fun y => y.id == a.id) = some a) (l : Nat) (v : Word)
include found

/-- The lane leaves its access, which stays in flight for the others. -/
theorem laneDone_of_rest {rest : List LaneAcc} (left : a.lanes.filter (fun y => y.lane != l) = rest) (more : rest ≠ []) :
    laneDone s (w, a.id, l) v = updWarp s w (fun x => { x with
      inflight := x.inflight.map (fun y => if y.id = a.id then { a with lanes := rest, got := a.got ++ [(l, v)] } else y) }) := by
  rw [laneDone]
  simp only [found, left]
  rw [if_neg (by simpa using more)]

/-- With its last lane an access leaves those in flight, and its results are written. -/
theorem laneDone_of_last (last : a.lanes.filter (fun y => y.lane != l) = []) :
    laneDone s (w, a.id, l) v = updWarp (putLanes s a.pid a.dst (spreadResults a.spread (a.got ++ [(l, v)]))) w
      (fun x => unbump { x with inflight := x.inflight.eraseP (fun y => y.id == a.id) } a.cls) := by
  rw [laneDone]
  simp only [found, last]
  rfl

end

/-! ### A packet that has come to its home -/

/-- An acquire of scope `.die` or wider drops lines before it performs (R286). -/
def acquired (s : State) (a : Access) : State := if a.drop = true then dropLines s (clusterOf (coreOfPath a.pid)) false else s

/-- The state in which a packet's access performs: a `.sc` load has dropped its own line as well (R287). -/
def preparedFor (s : State) (a : Access) (l : Loc) : State :=
  match l with
  | .mem h _ => if a.sc = true then dropOwnLine (acquired s a) (coreOfPath a.pid) h else acquired s a
  | .scr _ _ => acquired s a

theorem linesOnly_preparedFor (s : State) (a : Access) (l : Loc) : LinesOnly s (preparedFor s a l) := by
  have drops : LinesOnly s (acquired s a) := by
    rw [acquired]
    split
    · exact linesOnly_dropLines ..
    · exact .refl s
  cases l with
  | mem h ord =>
    rw [preparedFor]
    split
    · exact drops.trans ⟨_, rfl⟩
    · exact drops
  | scr c pa => exact drops

/-- The state once a packet has left those at their homes. -/
def taken (s : State) (p : NetPkt) : State := { s with m := { s.m with arrived := s.m.arrived.erase p } }

/-- The value that a lane brings: in a `red` that of its packet, in which others may have merged (R272). -/
def broughtBy (p : NetPkt) (a : Access) (x : LaneAcc) : Word :=
  match a.op with
  | .red _ => p.v
  | _ => x.v

theorem leavesAt_broughtBy {s u : State} {p : NetPkt} {a : Access} {x : LaneAcc} {v2 : Word}
    (h : LeavesAt s u a.op a.ty x.loc (broughtBy p a x) v2 (broughtBy p a x)) : LeavesAt s u a.op a.ty x.loc x.v v2 p.v := by
  rw [broughtBy] at h
  cases op : a.op with
  | load => rwa [op] at h
  | store => rwa [op] at h
  | amo k => rwa [op] at h
  | cas => rwa [op] at h
  | red k => rwa [op] at h

/-- What the packet of lane `x` of access `a` does at its home: the state, and what the lane gets. -/
def performed (s : State) (p : NetPkt) (a : Access) (x : LaneAcc) : State × Word :=
  performLane (preparedFor (taken s p) a x.loc) (coreOfPath a.pid) (.thread a.pid x.lane a.vpc) a.op a.ty a.nc x.loc (broughtBy p a x) x.v2

section
variable {s : State} {w : Nat} {p : NetPkt} {a : Access} {x : LaneAcc} {more : List (Nat × Nat × Nat)}
  (accs : p.accs = (w, a.id, x.lane) :: more) (found : (warpAt s w).inflight.find? (fun y => y.id == a.id) = some a)
  (lane : a.lanes.find? (fun y => y.lane == x.lane) = some x) (sound : a.op ≠ .store → badData s x.loc (tyBytes a.ty) = false)

include accs found lane sound in
/-- A packet performs for its first lane, and every lane that it carries has the result (R272). -/
theorem performPkt_eq : performPkt s p = p.accs.foldl (fun t q => laneDone t q (performed s p a x).2) (performed s p a x).1 := by
  have names : p.accs.head?.bind (accLane s) = some (a, x) := by
    rw [accs, List.head?_cons, Option.bind_some, accLane, found, Option.bind_some, lane]
    rfl
  have kept : ((match a.op with | .store => false | _ => true) && badData s x.loc (tyBytes a.ty)) = false := by
    cases op : a.op with
    | store => rfl
    | _ => simpa using sound (by simp [op])
  rw [performPkt]
  simp only [names]
  exact if_neg (by rw [Bool.not_eq_true]; exact kept)

end

theorem acquired_taken (s : State) (p : NetPkt) (a : Access) : acquired (taken s p) a = taken (acquired s a) p := by
  rw [acquired, acquired]
  split <;> rfl

theorem preparedFor_taken (s : State) (p : NetPkt) (a : Access) (l : Loc) : preparedFor (taken s p) a l = taken (preparedFor s a l) p := by
  cases l with
  | mem h ord =>
    rw [preparedFor, preparedFor, acquired_taken]
    split <;> rfl
  | scr c pa => exact acquired_taken s p a

/-- Taking a packet from those at their homes changes nothing that an access reads. -/
theorem locRead_preparedFor_taken (s : State) (p : NetPkt) (a : Access) (core : Nat) (l : Loc) (n : Nat) :
    locRead (preparedFor (taken s p) a l) core l n = locRead (preparedFor s a l) core l n := by
  rw [preparedFor_taken]
  cases l <;> rfl

theorem performed_performs {s : State} (canon : Canonical s) (unwatched : s.d.watches = []) (p : NetPkt) (a : Access) (x : LaneAcc) :
    HomeOnly (taken s p) (performed s p a x).1 ∧
      (performed s p a x).2 = resultAt s (preparedFor s a x.loc) (coreOfPath a.pid) a.op x.loc (tyBytes a.ty) ∧
      LeavesAt s (performed s p a x).1 a.op a.ty x.loc x.v x.v2 p.v := by
  have lines := linesOnly_preparedFor (taken s p) a x.loc
  have wf : HomesWf (preparedFor (taken s p) a x.loc) := lines.homesWf ⟨canon.1, canon.2.2.2.2.1⟩
  obtain ⟨home, gets, leaves⟩ := performLane_performs ((congrArg (·.watches) lines.homeOnly.keeps.2.1).trans unwatched) wf (coreOfPath a.pid)
    (.thread a.pid x.lane a.vpc) a.op a.ty a.nc x.loc (broughtBy p a x) x.v2
  have old : homeRead (preparedFor (taken s p) a x.loc) x.loc (tyBytes a.ty) = homeRead s x.loc (tyBytes a.ty) :=
    homeRead_congr lines.bytes.1 lines.bytes.2 x.loc _
  have read := locRead_preparedFor_taken s p a (coreOfPath a.pid) x.loc (tyBytes a.ty)
  refine ⟨lines.homeOnly.trans home, gets.trans ?_, leavesAt_broughtBy (LeavesAt.of_bytes lines.bytes leaves)⟩
  cases a.op with
  | load => rw [resultAt, resultAt, read]
  | store => rfl
  | amo k => exact old
  | cas => exact old
  | red k => rfl

theorem registers_updWarp (s : State) (w : Nat) (f : Warp → Warp) (pid : Nat) (d : Dst) (ls : List Nat) :
    RegistersKept s (updWarp s w f) pid d ls := registers_of_warps (t := updWarp s w f) rfl ..

theorem holds_updWarp {t : State} {pid l : Nat} {d : Dst} {v : Word} (h : Holds t pid l d v) (w : Nat) (f : Warp → Warp) :
    Holds (updWarp t w f) pid l d v := by
  cases d with
  | none => exact h
  | val depth n => exact h
  | vreg r wide => exact h
  | sreg r => exact h
  | sbit r b => exact h

/-- Settles O27: the packet performs at its home, and the lanes that it carries leave their accesses. -/
theorem accessesPerformAtTheirHome : Obligations.AccessesPerformAtTheirHome := by
  intro s w canon unwatched arrived
  have goes : execAccessPerformed w s = .next (match nextPacket s w with | some p => performPkt s p | none => s) :=
    if_neg (by simp [arrived])
  refine ⟨fun waits => by rw [exec_accessPerformed, goes, waits], ?_⟩
  intro p a x more next accs found lane ofWarp sound n core s1 s0 old v rest got rs
  obtain ⟨home, gets, leaves⟩ := performed_performs canon unwatched p a x
  rw [exec_accessPerformed, goes, next]
  dsimp only
  rw [performPkt_eq accs found lane sound]
  have value : (performed s p a x).2 = v := gets
  rw [value]
  generalize (performed s p a x).1 = t at home leaves
  obtain ⟨exec, -, stay⟩ := home.keeps
  have exec : t.x = s.x := exec
  have same {d ls} : RegistersKept s t a.pid d ls := registers_of_warps (warps := s.x.warps) exec ..
  have landed := landed_lanesDone v p.accs t
  have found : (warpAt t w).inflight.find? (fun y => y.id == a.id) = some a := by rwa [warpAt, exec]
  have listed := find?_warp_of_inflight found
  refine ⟨_, rfl, (congrArg (·.arrived) landed.mem).trans stay, landed.threads.trans (congrArg (·.threads) exec), ?_, ?_, ?_, ?_⟩
  · exact (landed.paths (exec ▸ canon.2.2.2.2.2.2.2.1)).trans (by rw [exec])
  · exact leaves.after ⟨congrArg (·.mem) landed.mem, congrArg (·.scr) landed.engines⟩
  · intro alone left
    rw [accs, alone, List.foldl_cons, List.foldl_nil, laneDone_of_rest found x.lane v rfl left]
    refine ⟨same.trans (registers_updWarp ..), ?_⟩
    rw [warpAt_updWarp_self _ listed, warpAt, exec]
    rfl
  · intro alone last
    rw [accs, alone, List.foldl_cons, List.foldl_nil, laneDone_of_last found x.lane v last]
    have wf : RegsWf t := by rw [RegsWf, exec]; exact canon.regs
    obtain ⟨-, kept, -⟩ := putLanes_kept t a.pid a.dst rs
    refine ⟨?_, same.trans ((putLanes_registers_always t a.pid a.dst rs).trans (registers_updWarp ..)),
      fun alive nodup small r hr takes => holds_updWarp (holds_putLanes a.dst nodup small wf (exec ▸ alive) r hr takes) _ _⟩
    rw [warpAt_updWarp_self _ (by rwa [kept.warps]), warpAt, kept.warps, exec]
    rfl

end Machine

end Sys2Proof
end

section
/-!
SUPPORT. O25: a path on the F-die, which has no lanes (R5, R7, R18), but the statement speaks of every state. The words of a stack lie
one word of each lane apart (R128), so that without lanes both words of an 8-byte value lie in the same four bytes.
-/
namespace Sys2Proof.Machine

/-- The first path of the first core of die 8. -/
def fDiePath : Nat := 8 * 384 * 16 * 64

/-- The issue of that path. -/
def fDieIssue : Issue := { pid := fDiePath, latch := none, hold := none, trap := none, target := none, fork := none, ended := false }

/-- The package at reset but for that path, which has chosen lane 0 and issues, and a launch record of stacks of 8 bytes. -/
def fDieState : State :=
  let s := setLaunch (setPath State.reset fDiePath { pathZero with mask := 1 }) 0 { launchZero with record := BitVec.ofNat 1024 (8 * 2 ^ 224) }
  { s with c := { s.c with issue := some fDieIssue } }

/-- The slot `st.i64` of the constant 1 to byte 0 of the stack. -/
def fDieStore : Form :=
  .n { slot := 0, ntype := 4, md := 0, gs := 0, dst := 2047, sa := 1664, sb := 1665, sc := 2047, aux := 0x30 }

def fDieCtx : Ctx := ctxOf fDieState fDiePath

theorem issues_fDieState : Issues fDieState fDieStore fDieCtx ∧ Canonical fDieState := by decide +kernel

theorem lanes_fDieState : (accessLanes fDieState fDieCtx fDieStore).1 = [0] ∧ formTy fDieCtx fDieStore = .i64 ∧
    checked fDieState fDieCtx fDieStore .store .i64 0 = .stk 0 := by decide +kernel

theorem src_fDieState : src fDieState fDieCtx fDieStore 1 .i64 false 0 = 1 := by decide +kernel

/-- The key of the first byte of the scratchpad of core 0 of die 8. -/
def fDieByte : Nat := 8 * 384 * 2 ^ 18

/-- Bytes 0 and 4 of the value go to one place. -/
theorem scratchKeys_fDieState : (scratchKeys fDieState fDieCtx 8 0 (.stk 0))[0]? = some fDieByte ∧
    (scratchKeys fDieState fDieCtx 8 0 (.stk 0))[4]? = some fDieByte := by decide +kernel

/-- A scratchpad byte after an instruction. -/
def scrByteAfter (o : Out) (k : Nat) : Option Byte := match o with
  | .next u => some (u.e.scr.getD 0 k)
  | _ => none

/-- The store leaves byte 4 of its value there. -/
theorem st_fDieState : scrByteAfter (exec (.st fDieStore) fDieState) fDieByte = some 0 := by decide +kernel

/-- Refutes O25, whose premises leave out that a thread's die has lanes: byte 0 of the value, a 1, is overwritten by byte 4, a 0. -/
theorem not_scratchAccessesPerformAtOnce : ¬ Obligations.ScratchAccessesPerformAtOnce := by
  unfold Obligations.ScratchAccessesPerformAtOnce
  intro h
  obtain ⟨lanes, ty, found⟩ := lanes_fDieState
  have performs := h fDieStore fDieState fDieCtx issues_fDieState.1 issues_fDieState.2 (by decide +kernel) (by decide +kernel)
  simp only [lanes, ty, List.mem_singleton, forall_eq, found] at performs
  obtain ⟨-, store, -⟩ := performs
  obtain ⟨u, ran, -, -, -, holds⟩ := store (.inl ⟨0, rfl⟩) (fun _ => by decide +kernel)
  have first := holds 0 fDieByte scratchKeys_fDieState.1 (fun later => absurd later (Nat.lt_irrefl 0))
  rw [src_fDieState] at first
  have left : scrByteAfter (.next u) fDieByte = some 0 := ran ▸ st_fDieState
  rw [scrByteAfter, first] at left
  exact absurd left (by decide)

end Sys2Proof.Machine
end

section
/-!
SUPPORT. O41: a warp whose 64 path numbers are all taken. A path of two lanes among them cannot come about, since the paths of a warp
share out its 64 lanes, but the statement speaks of every state. A split finds no free number there, and puts the path of the other
lanes in the place of the one that splits, at the last number.
-/
namespace Sys2Proof.Machine

/-- Where the other lanes go on, where the split lane goes, and where they meet again. -/
def crowdedIssue : Issue :=
  { pid := 63, latch := none, hold := none, trap := none, target := none, fork := some (1, .bundle keyZero 7, .bundle keyZero 9),
    ended := false }

/-- The package at reset but for 64 paths of warp 0, each with lanes 0 and 1 at bundle 0 of a translation. The last has issued a
`path.split` that sends lane 0 to bundle 7. -/
def crowdedState : State :=
  { State.reset with
    c := { State.reset.c with issue := some crowdedIssue }
    x := { State.reset.x with
      paths := (List.range 64).map (fun p => (p, { pathZero with mask := 3, pc := .bundle keyZero 0 })) } }

/-- A slot that does nothing. -/
def idleSlot : NForm := { slot := 0, ntype := 0, md := 0, gs := 0, dst := 2047, sa := 2047, sb := 2047, sc := 2047, aux := 0 }

/-- A bundle whose slots do nothing. -/
def idleBundle : Bundle :=
  { kind := 0, stop := 0, g0 := { reg := 0, bit := 0, pol := false }, g1 := { reg := 0, bit := 0, pol := false },
    s0 := .bnop idleSlot, s1 := .bnop { idleSlot with slot := 1 }, s2 := .bnop { idleSlot with slot := 2 } }

/-- A translation that is this bundle. -/
def idleImage : TImage :=
  { key := keyZero, bundled := true, bundles := (encodeBundle idleBundle).toList, literals := [], frameW := 0, points := [],
    check := 0, line := 0 }

theorem crowdedState_issues : Issues crowdedState (.n idleSlot) (ctxOf crowdedState 63) ∧ Canonical crowdedState ∧
    crowdedState.c.issue = some crowdedIssue ∧ (pathAt crowdedState 63).pc = .bundle keyZero 0 := by decide +kernel

/-- After the split path 63 stands at bundle 1, where the other lanes go on, and not at bundle 7. -/
theorem endBundle_crowdedState :
    (pathAt (endBundle crowdedState crowdedState 63 idleImage 0 idleBundle) 63).pc = .bundle keyZero 1 := by decide +kernel

/-- Refutes O41, whose clause on a split says where its path stands without the premise that the warp has a free path number. -/
theorem not_nativeControlMovesThePath : ¬ Obligations.NativeControlMovesThePath := by
  unfold Obligations.NativeControlMovesThePath
  intro h
  obtain ⟨issues, canonical, issue, pc⟩ := crowdedState_issues
  obtain ⟨-, -, forks, -⟩ := h idleSlot crowdedState _ crowdedIssue keyZero 0 issues canonical issue pc
  obtain ⟨-, -, stands, -⟩ := forks 1 (.bundle keyZero 7) (.bundle keyZero 9) crowdedState idleImage idleBundle rfl rfl rfl
  have moved : Pc.bundle keyZero 1 = .bundle keyZero 7 := endBundle_crowdedState.symm.trans stands
  exact absurd moved (by decide)

end Sys2Proof.Machine
end

section
/-!
SUPPORT. O17: what the steps of a branch do (R155, R182, R192, R193).
-/
namespace Sys2Proof.Machine

/-! ### The path that issues and the paths of its warp -/

/-- The context of a path that issues names its warp and the depth of its frames. -/
theorem Issues.names {s : State} {f : Form} {c : Ctx} (issues : Issues s f c) :
    c.warp = warpOfPath c.pid ∧ c.depth = (pathAt s c.pid).frames.length := by
  obtain ⟨i, -, rfl⟩ := Option.map_eq_some_iff.1 issues.1
  exact ⟨rfl, rfl⟩

theorem pathAt_setPath_self (s : State) (p : Nat) (q : Path) : pathAt (setPath s p q) p = q := by
  simp [pathAt, SMap.getD, SMap.find?_ins_self]

/-- The new path of a warp belongs to that warp. -/
theorem warpOfPath_freePath (s : State) (w : Nat) : warpOfPath (freePath s w) = w := by
  have small : ((List.range 64).find? (fun i => (s.x.paths.find? (w * 64 + i)).isNone)).getD 63 < 64 := by
    cases found : (List.range 64).find? (fun i => (s.x.paths.find? (w * 64 + i)).isNone) with
    | none => decide
    | some i => exact List.mem_range.1 (List.mem_of_find?_eq_some found)
  unfold warpOfPath freePath
  omega

/-- Changing a path that there is takes no number from the free ones. -/
theorem freePath_setPath {s : State} {p : Nat} (alive : (s.x.paths.find? p).isSome = true) (q : Path) (w : Nat) :
    freePath (setPath s p q) w = freePath s w := by
  have same : ∀ k, ((setPath s p q).x.paths.find? k).isNone = (s.x.paths.find? k).isNone := fun k => by
    by_cases h : k = p
    · subst h
      obtain ⟨a, found⟩ := Option.isSome_iff_exists.1 alive
      simp [SMap.find?_ins_self, found]
    · simp [SMap.find?_ins_ne _ _ h]
  simp only [freePath, same]

/-! ### Splitting a path (R155) -/

/-- The split record that a split of path `p` makes. -/
abbrev splitRecord (s : State) (p : Nat) (j : JoinPt) : Split :=
  { warp := warpOfPath p, parent := (pathAt s p).split, depth := (pathAt s p).frames.length, join := j }

/-- What a path becomes that goes on at `pc` with the lanes `m` after a split. -/
abbrev splitOff (s : State) (q : Path) (m : Mask) (pc : Pc) : Path := { q with mask := m, pc := pc, split := some s.c.nextId }

/-- A split changes its path and adds one under the warp's next free number. -/
theorem splitPath_paths {s : State} {p : Nat} (alive : (s.x.paths.find? p).isSome = true) (m : Mask) (pc pc' : Pc) (j : JoinPt) :
    ∃ slot, (splitPath s p m pc pc' j).x.paths =
      (s.x.paths.ins p (splitOff s (pathAt s p) m pc)).ins (freePath s (warpOfPath p))
        { splitOff s (pathAt s p) ((pathAt s p).mask &&& ~~~m) pc' with
          readyAt := s.c.cycle, focus := false, slotIx := slot, seq := s.c.nextId + 1 } :=
  ⟨_, congrArg (fun n => (s.x.paths.ins p (splitOff s (pathAt s p) m pc)).ins n _) (freePath_setPath alive _ (warpOfPath p))⟩

/-- Two groups of lanes: the first stays in the path, the second is a new path. -/
theorem splitChain_pair (j : JoinPt) (m m' : Mask) (pc pc' : Pc) (s : State) (p : Nat) :
    splitChain j [(m, pc), (m', pc')] s p [] =
      (updPath (splitPath s p m pc (.word 0) j) (freePath s (warpOfPath p)) (fun q => { q with pc := pc' }),
        [p, freePath s (warpOfPath p)]) := rfl

/-! ### Coming to a block (R155, R189, R421) -/

theorem outstanding_congr {s t : State} (he : t.e = s.e) (hp : t.pl = s.pl) (core thread : Nat) :
    outstanding t core thread = outstanding s core thread := by
  simp only [outstanding, pairAt, entryAt, claimed, he, hp]

/-- Where no thread of a path has an entry left, none of a path of its warp with some of its lanes has. -/
theorem leftEntries_of_noneLeft {s t : State} {c : Ctx} (none : noneLeft s c) (he : t.e = s.e) (hp : t.pl = s.pl) {p : Nat}
    (warp : warpOfPath p = warpOfPath c.pid) (lanes : ∀ l ∈ (pathMask t p).lanes, l ∈ (pathMask s c.pid).lanes) (d : Option Nat) :
    leftEntries t { c with pid := p } d = [] := by
  simp only [noneLeft, leftEntries, List.flatMap_eq_nil_iff, List.filter_eq_nil_iff, threadKey] at none ⊢
  intro l hl i hi
  rw [outstanding_congr he hp, warp] at hi
  exact absurd rfl (none l (lanes l hl) i hi)

/-- A path at the first word of a block that is not the join of its record does not meet it. -/
theorem atJoin_of_other_block {s : State} {q : Path} {r : Nat} {k : Split} {c : Ctx} {v : VPC} (record : q.split = some r)
    (found : s.x.splits.find? r = some k) (join : k.join = joinOf c) (pc : q.pc = .word v) (running : q.atExit = false)
    (other : joinOf c ≠ .block v) : atJoin s q = false := by
  have away : ∀ u, joinOf c = .block u → v ≠ u := fun u h e => other (e ▸ h)
  cases target : ipdom c.func.code (blockOf c.func.code c.ix) with
  | none => simp [atJoin, record, found, join, joinOf, target, running]
  | some b => simp_all [atJoin, joinOf]

/-- A path that has come to the first word of a block, with nothing left to do before it. -/
abbrev cameTo (s : State) (p : Nat) : State := updPath s p (fun q => { q with resumed := none, readyAt := s.c.cycle })

/-- A path that comes to a block goes on there, when no entry of its threads is left and the block is not its join. -/
theorem comeTo_eq {s : State} {c : Ctx} {p : Nat} {q : Path} (found : s.x.paths.find? p = some q)
    (noEntry : leftEntries s { c with pid := p } (some c.depth) = []) (passes : atJoin s q = false) (b : Nat) :
    comeTo s c p b = cameTo s p := by
  have arrived : pathAt (cameTo s p) p = { q with resumed := none, readyAt := s.c.cycle } := by
    rw [pathAt_updPath_self _ (found ▸ rfl), pathAt_of_find? found]
  have left : leftEntries (cameTo s p) { c with pid := p } (some c.depth) = [] := by
    rw [← noEntry, leftEntries, leftEntries, pathMask, pathMask, arrived, pathAt_of_find? found]
    simp only [outstanding_congr (s := s) (updPath_e ..) (updPath_pl ..)]
    rfl
  have dead : deadEntries (cameTo s p) c p b = [] := by simp [deadEntries, left]
  have still : atJoin (cameTo s p) (pathAt (cameTo s p) p) = false := by rw [arrived]; exact passes
  simp only [comeTo, dead, arrive, still, Bool.false_eq_true, if_false]

/-! ### The targets of a branch (R192) -/

theorem targetsOf_of_seen {es : List Edge} {seen : List Nat} (old : ∀ e ∈ es, e.target ∈ seen) : targetsOf es seen = seen.reverse := by
  induction es with
  | nil => rfl
  | cons e es ih =>
    simp only [targetsOf, List.contains_iff_mem, old e List.mem_cons_self, if_true]
    exact ih fun x hx => old x (List.mem_cons_of_mem e hx)

/-- Edges to two blocks, one of which is known. -/
theorem targetsOf_pair {es : List Edge} {a b : Nat} (apart : a ≠ b) (two : ∀ e ∈ es, e.target = a ∨ e.target = b)
    (taken : ∃ e ∈ es, e.target = b) : targetsOf es [a] = [a, b] := by
  induction es with
  | nil => simp at taken
  | cons e es ih =>
    have later : ∀ x ∈ es, x.target = a ∨ x.target = b := fun x hx => two x (List.mem_cons_of_mem e hx)
    rcases two e List.mem_cons_self with h | h
    · obtain ⟨x, hx, hb⟩ := taken
      have : x ∈ es := (List.mem_cons.1 hx).resolve_left fun e' => apart (by rw [← h, ← e', hb])
      simpa [targetsOf, h] using ih later ⟨x, this, hb⟩
    · simp only [targetsOf, h, List.contains_iff_mem, List.mem_singleton, apart.symm, if_false]
      exact targetsOf_of_seen (seen := [b, a]) fun x hx => by have := later x hx; simp [or_comm, this]

/-! ### Branches to two blocks (R192) -/

/-- Passing arguments writes values alone. -/
theorem passArgs_only (s : State) (c : Ctx) (es : List Edge) : ∃ v, passArgs s c es = { s with x := { s.x with vals := v } } :=
  foldl_inv (fun t => ∃ v, t = { s with x := { s.x with vals := v } }) _
    (by rintro _ a ⟨v, rfl⟩; exact ⟨_, rfl⟩) s (es.flatMap (edgeVals s c)) ⟨_, rfl⟩

/-- Where block `b` of the context's function begins. -/
abbrev startOf (c : Ctx) (b : Nat) : VPC := VPC.of c.fn (blockStart c.func.code b)

/-- The lanes whose edges lead to block `a`. -/
abbrev lanesTo (es : List Edge) (a : Nat) : Mask := Mask.of ((es.filter (fun e => e.target == a)).map (·.lane))

/-- Edges to two blocks that are not the join split their path: the lanes of the first block stay in it. -/
theorem takeEdges_splits {s : State} {f : Form} {c : Ctx} (issues : Issues s f c) (noEntry : noneLeft s c)
    (running : (pathAt s c.pid).atExit = false) (free : s.x.paths.find? (freePath s c.warp) = none) {es : List Edge}
    (own : ∀ e ∈ es, e.lane ∈ (pathMask s c.pid).lanes) {a b : Nat} (targets : targetsOf es [] = [a, b])
    (notA : joinOf c ≠ .block (startOf c a)) (notB : joinOf c ≠ .block (startOf c b)) :
    (takeEdges s c es).c.issue = none ∧ (takeEdges s c es).m = s.m ∧ (takeEdges s c es).e = s.e ∧
    (takeEdges s c es).x.splits.find? s.c.nextId = some (splitRecord s c.pid (joinOf c)) ∧
    pathAt (takeEdges s c es) c.pid = { splitOff s (pathAt s c.pid) (lanesTo es a) (.word (startOf c a)) with
      resumed := none, readyAt := s.c.cycle } ∧
    (∃ slot, pathAt (takeEdges s c es) (freePath s c.warp) =
      { splitOff s (pathAt s c.pid) (pathMask s c.pid &&& ~~~lanesTo es a) (.word (startOf c b)) with
        resumed := none, readyAt := s.c.cycle, focus := false, slotIx := slot, seq := s.c.nextId + 1 }) := by
  obtain ⟨warp, -⟩ := issues.names
  rw [warp] at free ⊢
  obtain ⟨v, passed⟩ := passArgs_only (endIssue s) c es
  have apart : c.pid ≠ freePath s (warpOfPath c.pid) := fun e => by
    have alive := issues.2.1
    rw [e, free] at alive
    cases alive
  let s1 : State := { endIssue s with x := { s.x with vals := v } }
  let s2 := updPath (splitPath s1 c.pid (lanesTo es a) (.word (startOf c a)) (.word 0) (joinOf c)) (freePath s (warpOfPath c.pid))
    (fun q => { q with pc := .word (startOf c b) })
  have steps : takeEdges s c es = comeTo (comeTo s2 c c.pid a) c (freePath s (warpOfPath c.pid)) b := by
    simp only [takeEdges, passed, targets, List.map, splitChain_pair]
    rfl
  obtain ⟨slot, paths⟩ := splitPath_paths (s := s1) issues.2.1 (lanesTo es a) (.word (startOf c a)) (.word 0) (joinOf c)
  have first : s2.x.paths.find? c.pid = some (splitOff s (pathAt s c.pid) (lanesTo es a) (.word (startOf c a))) := by
    rw [find?_updPath_ne _ _ apart, paths]
    exact (SMap.find?_ins_ne _ _ apart).trans (SMap.find?_ins_self ..)
  have second := find?_updPath_self (fun q => { q with pc := .word (startOf c b) })
    ((congrArg (·.find? (freePath s (warpOfPath c.pid))) paths).trans (SMap.find?_ins_self ..))
  have record : s2.x.splits.find? s.c.nextId = some (splitRecord s c.pid (joinOf c)) := SMap.find?_ins_self ..
  have left : ∀ {t : State} {p : Nat}, t.e = s.e → t.pl = s.pl → warpOfPath p = warpOfPath c.pid →
      (∀ l ∈ (pathMask t p).lanes, l ∈ (pathMask s c.pid).lanes) → leftEntries t { c with pid := p } (some c.depth) = [] :=
    fun he hp hw hl => leftEntries_of_noneLeft noEntry he hp hw hl _
  have here : comeTo s2 c c.pid a = cameTo s2 c.pid := by
    refine comeTo_eq first (left rfl rfl rfl fun l hl => ?_) (atJoin_of_other_block rfl record rfl rfl running notA) a
    have small := mem_lanes_lt hl
    rw [pathMask, pathAt_of_find? first, mem_lanes, getLsbD_maskOf _ small, decide_eq_true_iff] at hl
    obtain ⟨e, he, rfl⟩ := List.mem_map.1 hl
    exact own e (List.mem_of_mem_filter he)
  have second' := (find?_updPath_ne s2 (fun q => { q with resumed := none, readyAt := s2.c.cycle }) apart.symm).trans second
  have there : comeTo (cameTo s2 c.pid) c (freePath s (warpOfPath c.pid)) b =
      cameTo (cameTo s2 c.pid) (freePath s (warpOfPath c.pid)) := by
    refine comeTo_eq second' (left rfl rfl (warpOfPath_freePath ..) fun l hl => ?_)
      (atJoin_of_other_block rfl record rfl rfl running notB) b
    rw [pathMask, pathAt_of_find? second', mem_lanes] at hl
    have both : (pathMask s c.pid &&& ~~~lanesTo es a).getLsbD l = true := hl
    rw [BitVec.getLsbD_and, Bool.and_eq_true] at both
    exact mem_lanes.2 both.1
  rw [steps, here, there]
  refine ⟨rfl, rfl, rfl, record, ?_, slot, ?_⟩
  · rw [pathAt_updPath_ne _ _ apart, pathAt_updPath_self _ (first ▸ rfl), pathAt_of_find? first]
    rfl
  · rw [pathAt_updPath_self _ (second' ▸ rfl), pathAt_of_find? second']
    rfl

/-! ### The obligation -/

/-- The condition of a `brc` in a lane. -/
def condAt (s : State) (c : Ctx) (w : PForm) (l : Nat) : Bool := (operandVal s c l w.a .i1 false).getLsbD 0

/-- The block that a `brc` leads a lane to (R184). -/
def blockAt (s : State) (c : Ctx) (w : PForm) (l : Nat) : Nat := if condAt s c w l = true then indexOf w.b else indexOf w.c

/-- The edge that a `brc` takes in a lane (R184). -/
def branchEdge (s : State) (c : Ctx) (w : PForm) (l : Nat) : Edge :=
  let k := blockArgs c.func.code (nth (blockWords c.func.code) 0 (indexOf w.b))
  if condAt s c w l then ⟨l, indexOf w.b, w.ext.take k⟩ else ⟨l, indexOf w.c, w.ext.drop k⟩

@[simp] theorem branchEdge_lane (s : State) (c : Ctx) (w : PForm) (l : Nat) : (branchEdge s c w l).lane = l := by
  unfold branchEdge
  dsimp only
  split <;> rfl

@[simp] theorem branchEdge_target (s : State) (c : Ctx) (w : PForm) (l : Nat) : (branchEdge s c w l).target = blockAt s c w l :=
  apply_ite Edge.target ..

theorem execBrc_eq {w : PForm} {s : State} {c : Ctx} (issues : Issues s (.p w) c) :
    exec (.brc w) s = .next (takeEdges s c ((pathMask s c.pid).lanes.map (branchEdge s c w))) := by
  rw [exec_brc]
  exact issuing_eq issues _

theorem blockAt_eq_iff {s : State} {c : Ctx} {w : PForm} (blocks : indexOf w.b ≠ indexOf w.c) (l k : Nat) :
    blockAt s c w l = blockAt s c w k ↔ condAt s c w l = condAt s c w k := by
  cases hl : condAt s c w l <;> cases hk : condAt s c w k <;> simp [blockAt, hl, hk, blocks, blocks.symm]

/-- The blocks that a `brc` leads to, first that of the first lane. -/
theorem targetsOf_branch {s : State} {c : Ctx} {w : PForm} (blocks : indexOf w.b ≠ indexOf w.c) {ls : List Nat} {l0 l1 : Nat}
    (first : l0 ∈ ls.head?) (other : l1 ∈ ls) (differ : condAt s c w l1 ≠ condAt s c w l0) :
    targetsOf (ls.map (branchEdge s c w)) [] = [blockAt s c w l0, blockAt s c w l1] := by
  obtain ⟨rest, rfl⟩ := List.head?_eq_some_iff.1 first
  have apart : blockAt s c w l0 ≠ blockAt s c w l1 := fun e => differ ((blockAt_eq_iff blocks l0 l1).1 e).symm
  have later : l1 ∈ rest := (List.mem_cons.1 other).resolve_left fun e => differ (e ▸ rfl)
  have pair := targetsOf_pair (es := rest.map (branchEdge s c w)) apart ?_ ⟨branchEdge s c w l1, List.mem_map_of_mem later, branchEdge_target ..⟩
  · simpa [targetsOf] using pair
  · intro e he
    obtain ⟨l, -, rfl⟩ := List.mem_map.1 he
    rw [branchEdge_target, blockAt_eq_iff blocks, blockAt_eq_iff blocks]
    by_cases h : condAt s c w l = condAt s c w l0
    · exact .inl h
    · exact .inr (by rw [Bool.eq_not_of_ne h, Bool.eq_not_of_ne differ])

/-- The lanes that a `brc` leads to the block of lane `k`. -/
theorem lanesTo_branch {s : State} {c : Ctx} {w : PForm} (blocks : indexOf w.b ≠ indexOf w.c) (m : Mask) (l k : Nat) :
    (lanesTo (m.lanes.map (branchEdge s c w)) (blockAt s c w k)).getLsbD l = true ↔ l ∈ m.lanes ∧ condAt s c w l = condAt s c w k := by
  have chosen : ((m.lanes.map (branchEdge s c w)).filter (fun e => e.target == blockAt s c w k)).map (·.lane) =
      m.lanes.filter (fun l => blockAt s c w l == blockAt s c w k) := by
    simp [List.filter_map, Function.comp_def]
  rw [lanesTo, chosen, ballot_bits m _ l]
  simp only [Bool.and_eq_true, decide_eq_true_eq, beq_iff_eq, blockAt_eq_iff blocks, mem_lanes]
  exact ⟨fun h => h.2, fun h => ⟨mem_lanes_lt (mem_lanes.2 h.1), h⟩⟩

/-- Settles O17: a `brc` on a varying condition has edges to two blocks, and its path keeps those of the first lane's. -/
theorem divergentBranchSplitsThePath : Obligations.DivergentBranchSplitsThePath := by
  unfold Obligations.DivergentBranchSplitsThePath
  intro w s c issues noEntry running _ free
  extract_lets start cond ls target
  intro blocks joinB joinC l0 h0 l1 h1 differ
  obtain ⟨warp, depth⟩ := issues.names
  have notJoin : ∀ l, joinOf c ≠ .block (startOf c (blockAt s c w l)) := fun l => by
    unfold blockAt
    split <;> assumption
  have own : ∀ e ∈ ls.map (branchEdge s c w), e.lane ∈ ls := fun e he => by
    obtain ⟨l, hl, rfl⟩ := List.mem_map.1 he
    rwa [branchEdge_lane]
  obtain ⟨issue, mem, engines, record, stays, slot, leaves⟩ := takeEdges_splits issues noEntry running (Option.isNone_iff_eq_none.1 free)
    own (targetsOf_branch blocks h0 h1 differ) (notJoin l0) (notJoin l1)
  refine ⟨_, execBrc_eq issues, issue, congrArg Path.pc stays, congrArg Path.pc leaves, fun l => ?_, fun l => ?_,
    congrArg Path.split stays, congrArg Path.split leaves, ?_, mem, engines⟩
  · rw [pathMask, stays]
    exact lanesTo_branch blocks _ l l0
  · rw [pathMask, leaves]
    show (pathMask s c.pid &&& ~~~lanesTo (ls.map (branchEdge s c w)) (blockAt s c w l0)).getLsbD l = true ↔ l ∈ ls ∧ cond l = cond l1
    rw [BitVec.getLsbD_and, BitVec.getLsbD_not, Bool.and_eq_true, Bool.and_eq_true, decide_eq_true_iff, Bool.not_eq_true',
      ← Bool.not_eq_true, lanesTo_branch blocks, ← mem_lanes]
    constructor
    · rintro ⟨hl, -, h⟩
      exact ⟨hl, (Bool.eq_not_of_ne fun e => h ⟨hl, e⟩).trans (Bool.eq_not_of_ne differ).symm⟩
    · rintro ⟨hl, h⟩
      exact ⟨hl, mem_lanes_lt hl, fun h0 => differ (h.symm.trans h0.2)⟩
  · rw [record, splitRecord, warp, depth]

end Sys2Proof.Machine
end

section
/-!
SUPPORT. O18: what a call writes and where it leads (R149 to R152, R157, R158, R186, R187).
-/
namespace Sys2Proof

/-! ### Writes to a map one after another -/

namespace SMap
variable {α β : Type} [DecidableEq α] {d : α} {key : β → Nat} {val : β → α}

/-- The map after the writes of a list, each of a value to a key. -/
def putAll (m : SMap α) (d : α) (key : β → Nat) (val : β → α) (xs : List β) : SMap α :=
  xs.foldl (fun m x => m.putD d (key x) (val x)) m

theorem getD_putAll_ne {m : SMap α} {xs : List β} {k : Nat} (others : ∀ x ∈ xs, key x ≠ k) :
    (m.putAll d key val xs).getD d k = m.getD d k := by
  induction xs generalizing m with
  | nil => rfl
  | cons x xs ih =>
    exact (ih fun y hy => others y (List.mem_cons_of_mem x hy)).trans (getD_putD_ne d m _ (others x List.mem_cons_self).symm)

/-- A key to which every write of it brings one value holds that value. -/
theorem getD_putAll {m : SMap α} (h : wf d m = true) {xs : List β} {k : Nat} {v : α} (written : ∃ x ∈ xs, key x = k)
    (agree : ∀ x ∈ xs, key x = k → val x = v) : (m.putAll d key val xs).getD d k = v := by
  induction xs generalizing m with
  | nil => simp at written
  | cons x xs ih =>
    have later : ∀ y ∈ xs, key y = k → val y = v := fun y hy => agree y (List.mem_cons_of_mem x hy)
    by_cases again : ∃ y ∈ xs, key y = k
    · exact ih (wf_putD _ _ h) again later
    · have here : key x = k := by
        obtain ⟨y, hy, e⟩ := written
        rcases List.mem_cons.1 hy with rfl | hy
        · exact e
        · exact absurd ⟨y, hy, e⟩ again
      have last : ((m.putD d (key x) (val x)).putAll d key val xs).getD d k = _ :=
        getD_putAll_ne fun y hy e => again ⟨y, hy, e⟩
      exact last.trans (by rw [← here, getD_putD_self _ _ h, agree x List.mem_cons_self here])

end SMap

theorem mem_zip_range {α : Type} {xs : List α} {j : Nat} {a : α} : (j, a) ∈ (List.range xs.length).zip xs ↔ xs[j]? = some a := by
  constructor
  · intro h
    obtain ⟨i, hi⟩ := List.mem_iff_getElem?.1 h
    obtain ⟨hj, ha⟩ := List.getElem?_zip_eq_some.1 hi
    obtain ⟨_, e⟩ := List.getElem?_eq_some_iff.1 hj
    rw [List.getElem_range] at e
    subst e
    exact ha
  · intro h
    refine List.mem_iff_getElem?.2 ⟨j, List.getElem?_zip_eq_some.2 ⟨?_, h⟩⟩
    exact List.getElem?_range (List.getElem?_eq_some_iff.1 h).1

namespace Machine

/-! ### Argument words (R150) -/

theorem nth_argWords (ts : List Ty) (k j : Nat) : (nth (argWords ts k) (.none, 0) j).1 = nth ts .none j := by
  induction ts generalizing k j with
  | nil => rfl
  | cons t ts ih => cases j with
    | zero => rfl
    | succ j => exact ih _ j

/-- Writing an argument changes vector registers and the scratchpad alone. -/
theorem putArg_only (s : State) (w lane sp : Nat) (t : Ty) (k : Nat) (v : Word) :
    ∃ vr e, putArg s w lane sp t k v = { s with x := { s.x with vregs := vr }, e := e } := by
  have word : ∀ (s : State) (k v : Nat), ∃ vr e, putArgWord s w lane sp k v = { s with x := { s.x with vregs := vr }, e := e } :=
    fun s k v => by unfold putArgWord; split <;> exact ⟨_, _, rfl⟩
  obtain ⟨vr, e, first⟩ := word s k (v.toNat % 2 ^ 32)
  obtain ⟨vr', e', second⟩ := word (putArgWord s w lane sp k (v.toNat % 2 ^ 32)) (k + 1) (v.toNat / 2 ^ 32)
  unfold putArg
  dsimp only
  split
  · exact ⟨vr', e', by rw [second, first]⟩
  · exact ⟨vr, e, first⟩

/-- Writing a frame header changes the scratchpad alone. -/
theorem putHeader_only (s : State) (w o : Nat) (link sp fb : Word) (ls : List Nat) :
    ∃ e, putHeader s w o link sp fb ls = { s with e := e } :=
  foldl_inv (fun t => ∃ e, t = { s with e := e }) _ (by rintro _ l ⟨e, rfl⟩; exact ⟨_, rfl⟩) s ls ⟨_, rfl⟩

theorem startDivCall_only (s : State) (pid : Nat) : ∃ k, startDivCall s pid = { s with x := { s.x with warps := k } } := by
  unfold startDivCall
  dsimp only
  split <;> exact ⟨_, rfl⟩

/-- A state with other values, vector registers and warps, and other engines. -/
abbrev withCall (s : State) (vals : SMap Word) (vregs : SMap Lane32) (warps : SMap Warp) (e : Engines) : State :=
  { s with x := { s.x with vals := vals, vregs := vregs, warps := warps }, e := e }

/-- A value with its argument words is written for each of `xs`. -/
theorem foldl_setVal_putArg {β : Type} (xs : List β) (w sp : Nat) (lane word thread depth num : β → Nat) (ty : β → Ty) (val : β → Word)
    (s : State) : ∃ vr e, xs.foldl (fun t x =>
        setVal (putArg t w (lane x) sp (ty x) (word x) (val x)) (thread x) (depth x) (num x) (val x)) s =
      withCall s (s.x.vals.putAll 0 (fun x => valKey (thread x) (depth x) (num x)) val xs) vr s.x.warps e := by
  induction xs generalizing s with
  | nil => exact ⟨_, _, rfl⟩
  | cons x xs ih =>
    obtain ⟨vr, e, first⟩ := putArg_only s w (lane x) sp (ty x) (word x) (val x)
    obtain ⟨vr', e', rest⟩ := ih (setVal (putArg s w (lane x) sp (ty x) (word x) (val x)) (thread x) (depth x) (num x) (val x))
    exact ⟨vr', e', by rw [List.foldl_cons, rest, first]; rfl⟩

/-- The place of a value tells its lane and its number. -/
theorem valKey_inj {pid l l' depth j j' : Nat} (hj : j < 2 ^ 20) (hj' : j' < 2 ^ 20) :
    valKey (threadKey pid l) depth j = valKey (threadKey pid l') depth j' ↔ l = l' ∧ j = j' := by
  unfold valKey threadKey
  omega

/-- Values of one depth do not lie among those of the next. -/
theorem valKey_succ_ne {t t' depth j j' : Nat} (hj : j < 2 ^ 20) (hj' : j' < 2 ^ 20) :
    valKey t (depth + 1) j ≠ valKey t' depth j' := by
  unfold valKey
  omega

/-! ### Entering a callee (R150, R157, R186) -/

/-- The arguments of a call: a lane, the number of the parameter, and its value. -/
def argVals (s : State) (c : Ctx) (fn : Nat) (args : List Operand) : List (Nat × Nat × Word) :=
  (pathMask s c.pid).lanes.flatMap (fun l => ((List.range args.length).zip args).map (fun a =>
    (l, a.1, operandVal s c l a.2 (nth (funcParams (funcAt c.module fn)) .none a.1) false)))

theorem mem_argVals {s : State} {c : Ctx} {fn : Nat} {args : List Operand} {x : Nat × Nat × Word} : x ∈ argVals s c fn args ↔
    x.1 ∈ (pathMask s c.pid).lanes ∧
      ∃ a, args[x.2.1]? = some a ∧ operandVal s c x.1 a (nth (funcParams (funcAt c.module fn)) .none x.2.1) false = x.2.2 := by
  obtain ⟨l, j, v⟩ := x
  simp only [argVals, List.mem_flatMap, List.mem_map, Prod.exists, mem_zip_range, Prod.mk.injEq]
  constructor
  · rintro ⟨_, hl, _, a, found, rfl, rfl, e⟩
    exact ⟨hl, a, found, e⟩
  · rintro ⟨hl, a, found, e⟩
    exact ⟨l, hl, j, a, found, rfl, rfl, e⟩

/-- The place of an argument among the callee's values. -/
abbrev argKey (c : Ctx) (x : Nat × Nat × Word) : Nat := valKey (threadKey c.pid x.1) (c.depth + 1) x.2.1

/-- The link of a call of `fn` (R152). -/
def callLink (s : State) (c : Ctx) (fn : Nat) : Word :=
  let key := calleeKey s c.gang c.fn
  linkOf c.fn (returnPoint ((imageAt s (clusterOf (coreOfWarp c.warp)) key).getD (translateImage c.module key)) (VPC.of c.fn c.ix)
    (callPlace c.module key c.ix fn))

/-- The path within the callee; `base` is the physical address of its frame. -/
def calledPath (s : State) (c : Ctx) (fn w : Nat) (wants : Option Nat) (base : Word) : Path :=
  let q := pathAt s c.pid
  { q with
    pc := .word (VPC.of fn (blockEntry (funcAt c.module fn).code 0)), resumed := none
    frames := { fn := fn, callVpc := VPC.of c.fn c.ix, wants := wants, trap := none } :: q.frames
    s125 := callLink s c fn, s127 := q.s127 + q.s124, s124 := BitVec.ofNat 64 (16 + 4 * w), s126 := base, readyAt := s.c.cycle }

/-- A call writes the arguments, its header and the path; it notes a divergent call with the warp. -/
theorem enterCallee_eq (s : State) (c : Ctx) (fn w : Nat) (wants : Option Nat) (args : List Operand) :
    ∃ vregs warps e base, enterCallee s c fn w wants args =
      setPath (withCall (endIssue s) (s.x.vals.putAll 0 (argKey c) (·.2.2) (argVals s c fn args)) vregs warps e)
        c.pid (calledPath s c fn w wants base) := by
  unfold enterCallee
  extract_lets q callee key base link sp ws vals s1 s2 s3
  have values : vals = argVals s c fn args := by
    simp only [vals, ws, nth_argWords]
    rfl
  obtain ⟨vregs, e, written⟩ := foldl_setVal_putArg vals c.warp sp.toNat (·.1) (fun x => (nth ws (.none, 0) x.2.1).2)
    (fun x => threadKey c.pid x.1) (fun _ => c.depth + 1) (·.2.1) (fun x => (nth ws (.none, 0) x.2.1).1) (·.2.2) (endIssue s)
  obtain ⟨e', headed⟩ := putHeader_only s1 c.warp sp.toNat link q.s127 q.s124 q.mask.lanes
  obtain ⟨warps, noted⟩ := startDivCall_only s2 c.pid
  have all : s3 = withCall (endIssue s) (s.x.vals.putAll 0 (argKey c) (·.2.2) (argVals s c fn args)) vregs warps e' := by
    rw [← values]
    refine noted.trans ?_
    rw [show s2 = _ from headed, show s1 = _ from written]
    rfl
  exact ⟨vregs, warps, e', _, by rw [all]; rfl⟩

/-- What a call leaves: the path stands in the callee, whose parameters hold the arguments, and the caller's values are as they were. -/
theorem enterCallee_enters {s : State} (canonical : Canonical s) (c : Ctx) (fn w : Nat) (wants : Option Nat) {args : List Operand}
    (few : args.length < 2 ^ 20) :
    (enterCallee s c fn w wants args).c.issue = none ∧ (enterCallee s c fn w wants args).m = s.m ∧
    (∃ base, pathAt (enterCallee s c fn w wants args) c.pid = calledPath s c fn w wants base) ∧
    (∀ l ∈ (pathMask s c.pid).lanes, ∀ j a, args[j]? = some a →
      getVal (enterCallee s c fn w wants args) (threadKey c.pid l) (c.depth + 1) j =
        operandVal s c l a (nth (funcParams (funcAt c.module fn)) .none j) false) ∧
    ∀ l n, n < 2 ^ 20 →
      getVal (enterCallee s c fn w wants args) (threadKey c.pid l) c.depth n = getVal s (threadKey c.pid l) c.depth n := by
  have small : ∀ {x a}, args[x]? = some a → x < 2 ^ 20 := fun h => Nat.lt_trans (List.getElem?_eq_some_iff.1 h).1 few
  obtain ⟨vregs, warps, e, base, entered⟩ := enterCallee_eq s c fn w wants args
  rw [entered]
  refine ⟨rfl, rfl, ⟨base, pathAt_setPath_self ..⟩, fun l hl j a found => ?_, fun l n hn => ?_⟩
  · refine SMap.getD_putAll canonical.2.1 ⟨(l, j, operandVal s c l a (nth (funcParams (funcAt c.module fn)) .none j) false),
      mem_argVals.2 ⟨hl, a, found, rfl⟩, rfl⟩ fun x hx same => ?_
    obtain ⟨-, b, found', value⟩ := mem_argVals.1 hx
    obtain ⟨rfl, rfl⟩ := (valKey_inj (small found') (small found)).1 same
    rw [← value, Option.some.inj (found'.symm.trans found)]
  · refine SMap.getD_putAll_ne fun x hx => ?_
    obtain ⟨-, a, found, -⟩ := mem_argVals.1 hx
    exact valKey_succ_ne (small found) hn

/-! ### Calls (R149, R157, R158, R187) -/

section
variable {s : State} {c : Ctx} {fn : Nat}

theorem callFn_of_image {i : TImage} (image : imageAt s (clusterOf (coreOfWarp c.warp)) (calleeKey s c.gang fn) = some i)
    (free : callHeld s c.pid = false)
    (fits : ((pathAt s c.pid).s127 + (pathAt s c.pid).s124).toNat + 16 + 4 * i.frameW ≤ stackSize s c.warp)
    (f : Form) (wants : Option Nat) (args : List Operand) :
    callFn s c f fn wants args = enterCallee s c fn i.frameW wants args := by
  simp only [callFn, image, free, Option.isNone_some, Bool.false_and, Bool.false_eq_true, if_false]
  exact if_neg (Nat.not_lt.2 fits)

theorem callFn_of_tooLong (image : imageAt s (clusterOf (coreOfWarp c.warp)) (calleeKey s c.gang fn) = none)
    (long : tooLong c.module (calleeKey s c.gang fn) = true) (f : Form) (wants : Option Nat) (args : List Operand) :
    callFn s c f fn wants args = raise s c f (plainTrap 0x14 (pathMask s c.pid).lanes) := by
  simp [callFn, image, long]

end

theorem execCall_eq {w : PForm} {s : State} {c : Ctx} (issues : Issues s (.p w) c) : exec (.call w) s =
    .next (callFn s c (.p w) (indexOf w.a)
      (if (funcAt c.module (indexOf w.a)).result.isSome = true then some c.n else none) w.ext) := by
  rw [exec_call]
  exact issuing_eq issues _

/-- The function that a `callx` calls in a lane. -/
abbrev calleeAt (s : State) (c : Ctx) (w : PForm) (l : Nat) : Nat := zx 32 (src s c (.p w) 0 .i32 false l)

/-- The lanes whose function a `callx` may not call (R187). -/
abbrev badCallees (s : State) (c : Ctx) (w : PForm) : List Nat :=
  (pathMask s c.pid).lanes.filter (fun l => !callxOk c w (calleeAt s c w l))

theorem execCallx_of_bad {w : PForm} {s : State} {c : Ctx} (issues : Issues s (.p w) c) (bad : badCallees s c w ≠ []) :
    exec (.callx w) s = .next (raise s c (.p w) (plainTrap 0x12 (badCallees s c w))) := by
  rw [exec_callx]
  refine (issuing_eq issues _).trans (congrArg _ (if_pos ?_))
  rw [List.isEmpty_eq_false_iff.2 bad]
  rfl

/-- One number however often is one number. -/
theorem sortDistinct_of_all_eq {n : Nat} {ns : List Nat} (some : ns ≠ []) (all : ∀ x ∈ ns, x = n) : sortDistinct ns = [n] := by
  obtain ⟨k, rfl⟩ : ∃ k, ns = List.replicate (k + 1) n :=
    ⟨ns.length - 1, List.eq_replicate_iff.2 ⟨by have := List.length_pos_iff.2 some; omega, all⟩⟩
  have fold : ∀ k, (List.replicate k n).foldl (fun m n => SMap.ins m n ()) [(n, ())] = [(n, ())] := fun k => by
    induction k with
    | zero => rfl
    | succ k ih => simpa [List.replicate_succ, SMap.ins] using ih
  simp [sortDistinct, List.replicate_succ, SMap.ins, fold]

theorem execCallx_of_one {w : PForm} {s : State} {c : Ctx} (issues : Issues s (.p w) c) (active : (pathMask s c.pid).lanes ≠ [])
    {fn : Nat} (one : ∀ l ∈ (pathMask s c.pid).lanes, calleeAt s c w l = fn) (ok : callxOk c w fn = true)
    (turn : callxAhead s c w fn = []) :
    exec (.callx w) s = .next (callFn s c (.p w) fn (if w.md = 1 then some c.n else none) w.ext) := by
  have good : badCallees s c w = [] := List.filter_eq_nil_iff.2 fun l hl => by simp [one l hl, ok]
  have distinct : sortDistinct ((pathMask s c.pid).lanes.map (calleeAt s c w)) = [fn] :=
    sortDistinct_of_all_eq (by simpa using active) fun x hx => by obtain ⟨l, hl, rfl⟩ := List.mem_map.1 hx; exact one l hl
  rw [exec_callx]
  refine (issuing_eq issues _).trans (congrArg _ ?_)
  simp only [good, distinct, turn, List.isEmpty_nil, Bool.not_true, Bool.false_eq_true, if_false]

/-- Settles O18: once the checks are passed a `call`, or a `callx` of one function, is the entry of its callee. -/
theorem callsEnterTheirCallee : Obligations.CallsEnterTheirCallee := by
  unfold Obligations.CallsEnterTheirCallee
  intro w s c issues canonical active few
  extract_lets q ls cl own base mayCall enters cannot
  have called : ∀ fn i wants, mayCall fn i → enters fn i wants (.next (callFn s c (.p w) fn wants w.ext)) := by
    rintro fn i wants ⟨free, image, fits⟩
    rw [callFn_of_image image free fits]
    obtain ⟨issue, mem, ⟨_, path⟩, args, vals⟩ := enterCallee_enters canonical c fn i.frameW wants few
    exact ⟨_, rfl, issue, mem, congrArg Path.pc path, congrArg Path.frames path, congrArg Path.s125 path, congrArg Path.s127 path,
      congrArg Path.s124 path, (congrArg Path.mask path).trans rfl, args, fun l n _ => vals l n⟩
  refine ⟨fun i may => ?_, fun long => ?_, fun fn one ok turn => ⟨fun i may => ?_, fun long => ?_⟩, ?_⟩
  · rw [execCall_eq issues]
    exact called _ i _ may
  · rw [execCall_eq issues, callFn_of_tooLong long.1 long.2]
    rfl
  · rw [execCallx_of_one issues active one ok turn]
    exact called _ i _ may
  · rw [execCallx_of_one issues active one ok turn, callFn_of_tooLong long.1 long.2]
    rfl
  · rintro _ rfl bad
    exact execCallx_of_bad issues bad

end Machine

end Sys2Proof
end

section
/-!
SUPPORT. O19: returns, and threads that finish (R157, R186, R188, R189).
-/
namespace Sys2Proof.Machine

/-! ### Going on after a call (R157, R186) -/

/-- A path outside every split record meets no join. -/
theorem arrive_of_no_split {s : State} {p : Nat} (outside : (pathAt s p).split = none) : arrive s p = s := by
  simp [arrive, atJoin, outside]

theorem endDivCall_only (s : State) (pid d : Nat) : ∃ k, endDivCall s pid d = { s with x := { s.x with warps := k } } := ⟨_, rfl⟩

/-- The place of a result among the caller's values. -/
abbrev resultKey (c : Ctx) (depth v : Nat) (r : Nat × Word) : Nat := valKey (threadKey c.pid r.1) depth v

/-- The caller's values after a return: the call's value, if it has one, holds the result in each lane. -/
def returnedVals (s : State) (c : Ctx) (fr : Frame) (depth : Nat) (rs : List (Nat × Word)) : SMap Word :=
  match fr.wants with
  | some v => s.x.vals.putAll 0 (resultKey c depth v) (·.2) rs
  | none => s.x.vals

/-- The path after a return; `base` is the physical address of the caller's frame. -/
def returnedPath (s : State) (c : Ctx) (fr : Frame) (rest : List Frame) (base : Word) : Path :=
  let q := pathAt s c.pid
  let h := getHeader s c.warp (firstLane s c.pid) q.s127.toNat
  { q with
    pc := .word (VPC.of (VPC.fn fr.callVpc) (nextIx (funcAt c.module (VPC.fn fr.callVpc)).code (VPC.ix fr.callVpc))), resumed := none
    frames := rest, s127 := h.2.1, s124 := h.2.2, s126 := base
    s125 := (getHeader s c.warp (firstLane s c.pid) h.2.1.toNat).1, atExit := false, readyAt := s.c.cycle }

/-- A return writes the result, the return mask in s0 and the path; a divergent call is over. -/
theorem returnTo_eq {s : State} {c : Ctx} (outside : (pathAt s c.pid).split = none) (fr : Frame) (rest : List Frame)
    (rs : List (Nat × Word)) : ∃ vregs sregs warps e base, returnTo s c fr rest rs =
      setPath { endIssue s with
        x := { s.x with vals := returnedVals s c fr rest.length rs, vregs := vregs, sregs := sregs, warps := warps }, e := e }
        c.pid (returnedPath s c fr rest base) := by
  unfold returnTo
  extract_lets q l0 h sp caller s1 s2 s3
  have first : ∃ vregs e, s1 = withCall s (returnedVals s c fr rest.length rs) vregs s.x.warps e := by
    rcases wants : fr.wants with _ | v
    · exact ⟨s.x.vregs, s.e, by simp only [s1, returnedVals, wants]⟩
    · simp only [s1, returnedVals, wants]
      exact foldl_setVal_putArg rs c.warp 0 (·.1) (fun _ => 0) (fun r => threadKey c.pid r.1) (fun _ => rest.length) (fun _ => v)
        (fun _ => funcResult c.func) (·.2) s
  obtain ⟨vregs, e, first⟩ := first
  obtain ⟨warps, ended⟩ := endDivCall_only (setSreg s1 c.pid 0 q.mask) c.pid rest.length
  let base := BitVec.ofNat 64 (physStack s2 c.warp (sp.toNat + 16))
  have path : pathAt (endIssue s3) c.pid = returnedPath s c fr rest base := pathAt_setPath_self ..
  have second : s2 = { withCall s (returnedVals s c fr rest.length rs) vregs warps e with
      x := { (withCall s (returnedVals s c fr rest.length rs) vregs warps e).x with
        sregs := s.x.sregs.putD 0 (sregKey (warpOfPath c.pid) 0) q.mask } } := by
    rw [show s2 = _ from ended, first]
    rfl
  rw [arrive_of_no_split ((congrArg Path.split path).trans outside)]
  exact ⟨vregs, _, warps, e, base, congrArg (fun u => endIssue (setPath u c.pid (returnedPath s c fr rest base))) second⟩

/-- What a return leaves: the path stands after the call, and the call's value holds the result of each lane. -/
theorem returnTo_returns {s : State} (canonical : Canonical s) {c : Ctx} (outside : (pathAt s c.pid).split = none) (fr : Frame)
    (rest : List Frame) {ls : List Nat} (g : Nat → Word) :
    let t := returnTo s c fr rest (ls.map (fun l => (l, g l)))
    t.c.issue = none ∧ t.m = s.m ∧ (∃ base, pathAt t c.pid = returnedPath s c fr rest base) ∧
    ∀ v, fr.wants = some v → ∀ l ∈ ls, getVal t (threadKey c.pid l) rest.length v = g l := by
  obtain ⟨vregs, sregs, warps, e, base, returned⟩ := returnTo_eq outside fr rest (ls.map (fun l => (l, g l)))
  intro t
  refine ⟨congrArg (·.c.issue) returned, congrArg (·.m) returned, ⟨base, ?_⟩, fun v wants l hl => ?_⟩
  · rw [show t = _ from returned, pathAt_setPath_self]
  · have vals : t.x.vals = s.x.vals.putAll 0 (resultKey c rest.length v) (·.2) (ls.map (fun l => (l, g l))) := by
      rw [show t = _ from returned, setPath_x_vals]
      simp only [returnedVals, wants]
    rw [getVal, vals]
    refine SMap.getD_putAll canonical.2.1 ⟨(l, g l), List.mem_map_of_mem hl, rfl⟩ fun x hx same => ?_
    obtain ⟨k, -, rfl⟩ := List.mem_map.1 hx
    have : k = l := by
      simp only [resultKey, valKey, threadKey] at same
      omega
    rw [this]

/-! ### Threads that finish (R189) -/

/-- A thread that finishes leaves control, paths and the other threads alone. -/
theorem leaveBars_kept (s : State) (g k : Nat) (kill : Bool) :
    (leaveBars s g k kill).c = s.c ∧ (leaveBars s g k kill).x.paths = s.x.paths ∧
      (leaveBars s g k kill).x.threads = s.x.threads.ins k { threadAt s k with bars := [], exited := true } := by
  unfold leaveBars leaveCalls
  extract_lets t s1
  have left : s1.c = s.c ∧ s1.x = s.x := foldl_inv (fun u => u.c = s.c ∧ u.x = s.x) _
    (fun u b h => by dsimp only; split <;> exact h) s t.bars ⟨rfl, rfl⟩
  have paths : s1.x.paths = s.x.paths := by rw [left.2]
  have threads : s1.x.threads = s.x.threads := by rw [left.2]
  exact ⟨left.1, paths, congrArg (·.ins k { t with bars := [], exited := true }) threads⟩

/-- A thread that has finished, in no barrier set (R189). -/
abbrev Finished (t : State) (k : Nat) : Prop := (threadAt t k).exited = true ∧ (threadAt t k).bars = []

theorem finished_leaveBars {s : State} {j : Nat} (g k : Nat) (kill : Bool) (h : j = k ∨ Finished s j) : Finished (leaveBars s g k kill) j := by
  have threads : threadAt (leaveBars s g k kill) j = (s.x.threads.ins k { threadAt s k with bars := [], exited := true }).getD threadZero j :=
    congrArg (·.getD threadZero j) (leaveBars_kept s g k kill).2.2
  by_cases e : j = k
  · subst e
    simp [Finished, threads, SMap.getD, SMap.find?_ins_self]
  · have kept : threadAt (leaveBars s g k kill) j = threadAt s j := by
      rw [threads, SMap.getD, SMap.find?_ins_ne _ _ e]
      rfl
    rw [Finished, kept]
    exact h.resolve_left e

/-- The threads of `ls` finish one after another. -/
theorem foldl_leaveBars (g pid : Nat) (ls : List Nat) (s : State) :
    let t := ls.foldl (fun s l => leaveBars s g (threadKey pid l) false) s
    t.c = s.c ∧ t.x.paths = s.x.paths ∧ ∀ l ∈ ls, Finished t (threadKey pid l) := by
  intro t
  refine ⟨foldl_keeps (·.c) _ (fun u l => (leaveBars_kept u g _ false).1) s ls,
    foldl_keeps (·.x.paths) _ (fun u l => (leaveBars_kept u g _ false).2.1) s ls, fun l hl => ?_⟩
  exact foldl_reaches (Q := fun _ => True) (P := fun u => Finished u (threadKey pid l)) (fun _ _ _ => trivial)
    (fun _ _ h => finished_leaveBars g _ false (.inr h)) (fun _ _ => finished_leaveBars g _ false (.inl rfl)) hl trivial

/-- Filling a warp's table brings no path back. -/
theorem fillTable_kept {s : State} (w : Nat) {p : Nat} (gone : s.x.paths.find? p = none) :
    (fillTable s w).c = s.c ∧ (fillTable s w).x.threads = s.x.threads ∧ (fillTable s w).x.paths.find? p = none := by
  unfold fillTable
  split
  · next slot k _ _ =>
    refine ⟨rfl, rfl, ?_⟩
    by_cases e : p = k
    · subst e
      rw [updPath_x_paths, SMap.find?_upd_self, gone]
      rfl
    · rw [find?_updPath_ne _ _ e, gone]
  · exact ⟨rfl, rfl, gone⟩

/-- A path outside every split record that loses all its lanes is removed. -/
theorem dropLanes_all {s : State} {p : Nat} (outside : (pathAt s p).split = none) : dropLanes s p (pathAt s p).mask = removePath s p := by
  simp [dropLanes, outside]

/-- What is left of a path whose threads finish: nothing, and the threads have finished. -/
theorem exitLanes_leaves {s : State} {pid : Nat} (rising : s.x.paths.risingFrom 0 = true) (outside : (pathAt s pid).split = none)
    (noHandler : handlerOf (pathAt s pid) = none) :
    (exitLanes s pid).c = s.c ∧ (exitLanes s pid).m = s.m ∧ (exitLanes s pid).x.paths.find? pid = none ∧
      ∀ l ∈ (pathAt s pid).mask.lanes, Finished (exitLanes s pid) (threadKey pid l) := by
  let g := (warpAt s (warpOfPath pid)).gang
  let u := (pathAt s pid).mask.lanes.foldl (fun s l => leaveBars s g (threadKey pid l) false) s
  obtain ⟨control, paths, finished⟩ := foldl_leaveBars g pid (pathAt s pid).mask.lanes s
  have same : pathAt u pid = pathAt s pid := congrArg (·.getD pathZero pid) paths
  have left : exitLanes s pid = removePath u pid := by
    have dropped := dropLanes_all (s := u) (p := pid) (same ▸ outside)
    rw [same] at dropped
    simp only [exitLanes, noHandler]
    exact dropped
  have gone : (u.x.paths.del pid).find? pid = none := SMap.find?_del_self _ (lo := 0) ((congrArg (·.risingFrom 0) paths).trans rising)
  obtain ⟨control', threads, none'⟩ := fillTable_kept (s := { u with x := { u.x with paths := u.x.paths.del pid } }) (warpOfPath pid) gone
  rw [left]
  refine ⟨control'.trans control, ?_, none', fun l hl => ?_⟩
  · rw [removePath_m]
    exact foldl_keeps (·.m) _ (fun t l => leaveBars_m t g _ false) s _
  · have thread : threadAt (removePath u pid) (threadKey pid l) = threadAt u (threadKey pid l) :=
      congrArg (·.getD threadZero (threadKey pid l)) threads
    rw [Finished, thread]
    exact finished l hl

/-! ### The instructions (R186, R188, R189) -/

section
variable {s t : State} {c : Ctx} {f : Form} {depth : Option Nat}

theorem afterPops_of_noEntry (none : leftEntries s c depth = []) : afterPops s c f depth t = t := by
  simp [afterPops, none]

theorem afterPops_of_entries (some : leftEntries s c depth ≠ []) :
    afterPops s c f depth t = hold s c.pid f (.dying (leftEntries s c depth)) := by
  unfold afterPops
  split
  · next h => exact absurd h some
  · rfl

end

section
variable {s : State} {c : Ctx} {w : PForm} (issues : Issues s (.p w) c)
include issues

theorem execExit_eq : exec (.exit (.p w)) s = .next (afterPops s c (.p w) none (exitLanes (endIssue s) c.pid)) := by
  rw [exec_exit]
  exact issuing_eq issues _

theorem execRet_of_kernel (outside : (pathAt s c.pid).split = none) (kernel : (pathAt s c.pid).frames = []) :
    exec (.ret w) s = .next (afterPops s c (.p w) none (exitLanes (endIssue s) c.pid)) := by
  rw [exec_ret]
  refine (issuing_eq issues _).trans ?_
  simp [splitHere, outside, kernel]

theorem execRet_of_call (outside : (pathAt s c.pid).split = none) (running : (pathAt s c.pid).atExit = false) {fr : Frame}
    {rest : List Frame} (call : (pathAt s c.pid).frames = fr :: rest) :
    exec (.ret w) s = .next (afterPops s c (.p w) (some c.depth) (returnTo s c fr rest
      ((pathMask s c.pid).lanes.map (fun l => (l, operandVal s c l w.a (typeAt c w.ty.toNat) false))))) := by
  rw [exec_ret]
  refine (issuing_eq issues _).trans ?_
  have results : retVals s c w = (pathMask s c.pid).lanes.map (fun l => (l, operandVal s c l w.a (typeAt c w.ty.toNat) false)) := by
    simp only [retVals, running, Bool.false_eq_true, if_false]
    rfl
  simp [splitHere, outside, call, results]

end

/-- The end of a bundle whose slot 0 is an `exit` that acted. -/
theorem endBundle_of_exit {u : State} {i : Issue} (issue : u.c.issue = some i) (trap : i.trap = none) (ended : i.ended = true)
    {b : Bundle} {f : Form} (exits : b.s0 = .exit f) (before : State) (pid : Nat) (t : TImage) (ix : Nat) :
    endBundle before u pid t ix b = endIssue (exitLanes u pid) := by
  simp [endBundle, issue, trap, ended, exits]

/-- Settles O19: a `ret` within a call is `returnTo`, and an `exit`, or a kernel's `ret`, is `exitLanes`, once no entry is left. -/
theorem returnsAndExitsLeave : Obligations.ReturnsAndExitsLeave := by
  unfold Obligations.ReturnsAndExitsLeave
  intro s c canonical
  extract_lets q ls sp leaves
  intro outside running
  refine ⟨fun w fr rest issues noEntry call => ?_, fun w o issues run => ?_, fun w i issues issue trap => ?_⟩
  · rw [execRet_of_call issues outside running call, afterPops_of_noEntry noEntry]
    obtain ⟨done, mem, ⟨_, path⟩, results⟩ := returnTo_returns canonical outside fr rest (ls := ls)
      (fun l => operandVal s c l w.a (typeAt c w.ty.toNat) false)
    exact ⟨_, rfl, done, mem, congrArg Path.pc path, congrArg Path.frames path, congrArg Path.s127 path,
      (congrArg Path.mask path).trans rfl, congrArg Path.s124 path, results⟩
  · have ran : o = .next (afterPops s c (.p w) none (exitLanes (endIssue s) c.pid)) := by
      rcases run with rfl | ⟨kernel, rfl⟩
      · exact execExit_eq issues
      · exact execRet_of_kernel issues outside kernel
    rw [ran]
    refine ⟨fun noEntry noHandler => ?_, fun entries => congrArg _ (afterPops_of_entries entries)⟩
    obtain ⟨control, mem, gone, finished⟩ := exitLanes_leaves (s := endIssue s) canonical.2.2.2.2.2.2.2.1 outside noHandler
    rw [afterPops_of_noEntry noEntry]
    exact ⟨_, rfl, congrArg (·.issue) control, gone, mem, finished⟩
  · refine ⟨endAfter s, ?_, ?_, rfl, rfl, fun before t ix b exits noHandler => ?_⟩
    · rw [exec_exit]
      exact issuing_eq issues _
    · simp [endAfter, issue]
    · obtain ⟨control, mem, gone, finished⟩ := exitLanes_leaves (s := endAfter s) canonical.2.2.2.2.2.2.2.1 outside noHandler
      rw [endBundle_of_exit (u := endAfter s) (i := { i with ended := true }) (by simp [endAfter, issue]) trap rfl exits]
      exact ⟨rfl, gone, mem, finished⟩

end Sys2Proof.Machine
end

section
/-!
SUPPORT. Integer results as numbers and as bits: wrapping, saturation, shifts, counts, fields and bytes (R166 to R174).
-/
namespace Sys2Proof.Machine

/-! ### Numbers in a width -/

section
variable {w : Nat} (hw : w ≤ 64)

theorem zx_lt (w : Nat) (v : Word) : zx w v < 2 ^ w := Nat.mod_lt _ (Nat.two_pow_pos w)

theorem testBit_zx (w : Nat) (v : Word) (i : Nat) : (zx w v).testBit i = (decide (i < w) && v.getLsbD i) := by
  rw [zx, Nat.testBit_mod_two_pow, BitVec.testBit_toNat]

theorem sx_eq_toInt (hpos : 0 < w) (v : Word) : sx w v = (v.setWidth w).toInt := by
  obtain ⟨k, rfl⟩ : ∃ k, w = k + 1 := ⟨w - 1, by omega⟩
  rw [sx, BitVec.toInt_eq_toNat_cond, BitVec.toNat_setWidth, Nat.add_sub_cancel]
  refine if_congr ?_ rfl rfl
  rw [pow_succ]
  omega

include hw

theorem toNat_wrap (t : Int) : ((wrap w t).toNat : Int) = t % (2 ^ w : Nat) := by
  have pos : (0 : Int) < (2 ^ w : Nat) := by positivity
  have nonneg := Int.emod_nonneg t pos.ne'
  have lt := Int.emod_lt_of_pos t pos
  have fits : 2 ^ w ≤ 2 ^ 64 := Nat.pow_le_pow_right (by decide) hw
  rw [wrap, BitVec.toNat_ofNat, Nat.mod_eq_of_lt (by omega), Int.toNat_of_nonneg nonneg]

theorem wrap_eq_ofInt (t : Int) : wrap w t = (BitVec.ofInt w t).setWidth 64 := by
  refine BitVec.eq_of_toNat_eq ?_
  rw [BitVec.toNat_setWidth_of_le hw, BitVec.toNat_ofInt, ← toNat_wrap hw, Int.toNat_natCast]

theorem toNat_wrap_natCast (n : Nat) : (wrap w (n : Int)).toNat = n % 2 ^ w := by
  have h := toNat_wrap hw n
  exact_mod_cast h

theorem toNat_wrap_of_lt {n : Nat} (h : n < 2 ^ w) : (wrap w (n : Int)).toNat = n := by
  rw [toNat_wrap_natCast hw, Nat.mod_eq_of_lt h]

end

/-! ### Results fitted to a width (R169) -/

section
variable {w : Nat} (hw : w ≤ 64)
include hw

theorem fits_wrap (t : Int) : Fits 0 w t (wrap w t) := by
  have h := toNat_wrap hw t
  refine ⟨?_, ?_⟩
  · have lt := Int.emod_lt_of_pos t (b := (2 ^ w : Nat)) (by positivity)
    omega
  · rw [if_pos rfl, h]
    exact ⟨-(t / 2 ^ w), by push_cast; rw [Int.emod_def]; ring⟩

/-- A number of the unsigned range keeps its value. -/
theorem toNat_wrap_of_unsigned {t : Int} (lo : 0 ≤ t) (hi : t < 2 ^ w) : ((wrap w t).toNat : Int) = t := by
  rw [toNat_wrap hw, Int.emod_eq_of_lt lo (by exact_mod_cast hi)]

/-- A number of the signed range keeps its value. -/
theorem sx_wrap_of_signed (hpos : 0 < w) {t : Int} (lo : -2 ^ (w - 1) ≤ t) (hi : t < 2 ^ (w - 1)) : sx w (wrap w t) = t := by
  rw [sx_eq_toInt hpos, wrap_eq_ofInt hw, BitVec.setWidth_setWidth_of_le _ hw, BitVec.setWidth_eq, BitVec.toInt_ofInt]
  obtain ⟨k, rfl⟩ : ∃ k, w = k + 1 := ⟨w - 1, by omega⟩
  rw [Nat.add_sub_cancel] at lo hi
  refine Int.bmod_eq_of_le_mul_two ?_ ?_ <;> push_cast <;> rw [pow_succ] <;> omega

theorem fits_fit (hpos : 0 < w) (md : Nat) (t : Int) : Fits md w t (fit md w t) := by
  have one : (1 : Int) ≤ 2 ^ (w - 1) := one_le_pow₀ (by decide)
  by_cases h0 : md = 0
  · subst h0
    exact fits_wrap hw t
  by_cases h2 : md = 2
  · subst h2
    refine ⟨(fits_wrap hw _).1, ?_⟩
    have top : (1 : Int) ≤ 2 ^ w := one_le_pow₀ (by decide)
    show ((wrap w _).toNat : Int) = _
    rw [toNat_wrap_of_unsigned hw] <;> push_cast <;> omega
  · have signed : fit md w t = wrap w (max (-(2 ^ (w - 1) : Nat) : Int) (min t ((2 ^ (w - 1) : Nat) - 1))) := by
      simp [fit, h0, h2, saturate]
    rw [signed]
    refine ⟨(fits_wrap hw _).1, ?_⟩
    rw [if_neg h0, if_neg h2, sx_wrap_of_signed hw hpos] <;> push_cast <;> omega

end

/-! ### Bits of a result -/

theorem bitsAre_lowBits (w : Nat) (v : Word) : BitsAre w (lowBits w v) v.getLsbD := by
  intro i
  have small : v.toNat % 2 ^ w < 2 ^ 64 := (Nat.mod_le ..).trans_lt v.isLt
  rw [lowBits, ← BitVec.testBit_toNat, BitVec.toNat_ofNat, Nat.mod_eq_of_lt small, Nat.testBit_mod_two_pow, BitVec.testBit_toNat]

section
variable {w : Nat} (hw : w ≤ 64)
include hw

theorem bitsAre_wrap_natCast (n : Nat) : BitsAre w (wrap w (n : Int)) n.testBit := by
  intro i
  rw [← BitVec.testBit_toNat, toNat_wrap_natCast hw, Nat.testBit_mod_two_pow]

/-- Bits of the number that the low `v` bits of `a` stand for, shifted down: past the highest bit stand copies of the sign, or zeros. -/
theorem bitsAre_wrap_sz_div (signed : Bool) {v : Nat} (hv : 0 < v) (a : Word) (n : Nat) :
    BitsAre w (wrap w (sz signed v a / (2 ^ n : Nat))) (fun i => if i + n < v then a.getLsbD (i + n) else signed && a.getLsbD (v - 1)) := by
  intro i
  cases signed with
  | false =>
    have h := bitsAre_wrap_natCast hw (zx v a / 2 ^ n) i
    rw [Nat.testBit_div_two_pow, testBit_zx] at h
    have e : sz false v a / (2 ^ n : Nat) = ((zx v a / 2 ^ n : Nat) : Int) := by simp [sz]
    rw [e, h]
    by_cases inside : i + n < v <;> simp [inside]
  | true =>
    let x := a.setWidth v
    have bits : ∀ j, j < v → x.getLsbD j = a.getLsbD j := fun j hj => by simp [x, hj]
    have top : x.msb = a.getLsbD (v - 1) := by rw [BitVec.msb_eq_getLsbD_last, bits _ (by omega)]
    have e : wrap w (sz true v a / (2 ^ n : Nat)) = ((x.sshiftRight n).signExtend w).setWidth 64 := by
      rw [wrap_eq_ofInt hw, BitVec.signExtend, BitVec.toInt_sshiftRight, Int.shiftRight_eq_div_pow, sz, if_pos rfl, sx_eq_toInt hv]
    rw [e, BitVec.getLsbD_setWidth, BitVec.getLsbD_signExtend, BitVec.msb_sshiftRight, BitVec.getLsbD_sshiftRight, top]
    by_cases iw : i < w
    · have i64 : i < 64 := by omega
      by_cases inside : i + n < v
      · have iv : i < v := by omega
        rw [if_pos iv, Nat.add_comm n i, if_pos inside, bits _ inside]
        simp [iw, i64, inside, iv]
      · by_cases iv : i < v <;> simp [iw, i64, iv, inside, Nat.add_comm n i]
    · simp [iw]

/-- Bits of the number that the low `v` bits of `a` stand for (R173). -/
theorem bitsAre_wrap_sz (signed : Bool) {v : Nat} (hv : 0 < v) (a : Word) :
    BitsAre w (wrap w (sz signed v a)) (fun i => if i < v then a.getLsbD i else signed && a.getLsbD (v - 1)) := by
  simpa using bitsAre_wrap_sz_div hw signed hv a 0

end

theorem BitsAre.congr {w : Nat} {d : Word} {p q : Nat → Bool} (h : BitsAre w d p) (same : ∀ i, i < w → p i = q i) : BitsAre w d q := by
  intro i
  rw [h i]
  by_cases hi : i < w
  · rw [same i hi]
  · simp [hi]

/-! ### Shifts and rotations (R171) -/

/-- Low bits of a pattern rotated by `n` places towards the high end. -/
theorem testBit_rotated (a : Word) {n w : Nat} (hn : n ≤ w) {i : Nat} (hi : i < w) :
    (2 ^ n * zx w a + zx w a / 2 ^ (w - n)).testBit i = a.getLsbD ((i + (w - n)) % w) := by
  have low : zx w a / 2 ^ (w - n) < 2 ^ n := by
    rw [Nat.div_lt_iff_lt_mul (Nat.two_pow_pos _), ← pow_add, Nat.add_sub_cancel' hn]
    exact zx_lt w a
  rw [Nat.testBit_two_pow_mul_add _ low]
  split
  · next below =>
    have inside : i + (w - n) < w := by omega
    rw [Nat.testBit_div_two_pow, testBit_zx, Nat.mod_eq_of_lt inside, decide_eq_true inside, Bool.true_and]
  · next above =>
    have inside : i - n < w := by omega
    have around : i + (w - n) = i - n + w := by omega
    rw [testBit_zx, around, Nat.add_mod_right, Nat.mod_eq_of_lt inside, decide_eq_true inside, Bool.true_and]

section
variable {w : Nat} (hw : w ≤ 64)
include hw

theorem bitsAre_shlVal (a b : Word) :
    BitsAre w (shlVal w a b) (fun i => decide (amount w b ≤ i) && a.getLsbD (i - amount w b)) := by
  refine (bitsAre_wrap_natCast hw _).congr fun i hi => ?_
  have inside : i - amount w b < w := by omega
  rw [Nat.testBit_mul_two_pow, testBit_zx, decide_eq_true inside, Bool.true_and]

theorem bitsAre_shrVal (hpos : 0 < w) (md : Nat) (a b : Word) : BitsAre w (shrVal md w a b) (fun i =>
    if i + amount w b < w then a.getLsbD (i + amount w b) else md == 0 && a.getLsbD (w - 1)) :=
  bitsAre_wrap_sz_div hw (md == 0) hpos a (amount w b)

theorem bitsAre_rotlVal (hpos : 0 < w) (a b : Word) : BitsAre w (rotlVal w a b) (fun i => a.getLsbD ((i + (w - amount w b)) % w)) := by
  refine (bitsAre_wrap_natCast hw _).congr fun i hi => ?_
  rw [Nat.mul_comm]
  exact testBit_rotated a (Nat.mod_lt _ hpos).le hi

theorem bitsAre_rotrVal (hpos : 0 < w) (a b : Word) : BitsAre w (rotrVal w a b) (fun i => a.getLsbD ((i + amount w b) % w)) := by
  refine (bitsAre_wrap_natCast hw _).congr fun i hi => ?_
  have le : amount w b ≤ w := (Nat.mod_lt _ hpos).le
  have h := testBit_rotated a (Nat.sub_le w (amount w b)) hi
  rwa [Nat.sub_sub_self le, Nat.mul_comm, Nat.add_comm] at h

end

/-! ### Counts and reversal (R171) -/

/-- From its bit length on a number has no 1 bit; the bit below is 1. -/
theorem bitLen_bits (n : Nat) : n < 2 ^ bitLen n ∧ (0 < bitLen n → n.testBit (bitLen n - 1) = true) := by
  by_cases zero : n = 0
  · simp [bitLen, zero]
  · rw [bitLen, if_neg zero]
    exact ⟨Nat.lt_log2_self, fun _ => Nat.testBit_log2 zero⟩

theorem bitLen_le {n w : Nat} (h : n < 2 ^ w) : bitLen n ≤ w := by
  by_contra longer
  have top := (bitLen_bits n).2 (by omega)
  rw [Nat.testBit_lt_two_pow (h.trans_le (Nat.pow_le_pow_right (by decide) (by omega)))] at top
  cases top

/-- The lowest `k` bits of `n`, in reversed order, as the highest of `w`. -/
theorem reversed_bits (n : Nat) {k w : Nat} (hk : k ≤ w) :
    ∃ m, (List.range k).foldl (fun r i => if n.testBit i then r + 2 ^ (w - 1 - i) else r) 0 = 2 ^ (w - k) * m ∧
      ∀ j, m.testBit j = (decide (j < k) && n.testBit (k - 1 - j)) := by
  induction k with
  | zero => exact ⟨0, rfl, fun j => by simp⟩
  | succ k ih =>
    obtain ⟨m, value, bits⟩ := ih (by omega)
    refine ⟨Nat.bit (n.testBit k) m, ?_, fun j => ?_⟩
    · have place : w - 1 - k = w - (k + 1) := by omega
      have double : 2 ^ (w - k) = 2 * 2 ^ (w - (k + 1)) := by rw [← pow_succ', show w - (k + 1) + 1 = w - k by omega]
      rw [List.range_succ, List.foldl_append, value, List.foldl_cons, List.foldl_nil, double, place, Nat.bit_val]
      cases n.testBit k <;> simp <;> ring
    · cases j with
      | zero => simp
      | succ j => rw [Nat.testBit_bit_succ, bits, Nat.add_sub_cancel, Nat.sub_sub, Nat.add_comm 1 j]; simp

section
variable {w : Nat} (hw : w ≤ 64)
include hw

/-- A count of at most `w` fits `w` bits. -/
theorem toNat_wrap_of_count {n : Nat} (h : n ≤ w) : (wrap w (n : Int)).toNat = n :=
  toNat_wrap_of_lt hw (h.trans_lt Nat.lt_two_pow_self)

theorem toNat_popcVal (a : Word) : (popcVal w a).toNat = ((List.range w).filter (fun i => a.getLsbD i)).length := by
  have same : popCount (zx w a) w = ((List.range w).filter (fun i => a.getLsbD i)).length :=
    congrArg List.length (List.filter_congr fun i hi => by rw [testBit_zx, decide_eq_true (List.mem_range.1 hi), Bool.true_and])
  have le : popCount (zx w a) w ≤ w := (List.length_filter_le ..).trans (List.length_range).le
  rw [popcVal, toNat_wrap_of_count hw le, same]

theorem clzVal_counts (a : Word) : (clzVal w a).toNat ≤ w ∧
    (∀ i, w - (clzVal w a).toNat ≤ i → i < w → a.getLsbD i = false) ∧
    ((clzVal w a).toNat < w → a.getLsbD (w - 1 - (clzVal w a).toNat) = true) := by
  have le := bitLen_le (zx_lt w a)
  obtain ⟨above, top⟩ := bitLen_bits (zx w a)
  rw [clzVal, toNat_wrap_of_count hw (Nat.sub_le ..), Nat.sub_sub_self le]
  refine ⟨Nat.sub_le .., fun i hi iw => ?_, fun some => ?_⟩
  · have zero := Nat.testBit_lt_two_pow (above.trans_le (Nat.pow_le_pow_right (by decide) hi))
    rwa [testBit_zx, decide_eq_true iw, Bool.true_and] at zero
  · have one := top (by omega)
    rw [testBit_zx, Bool.and_eq_true] at one
    rw [show w - 1 - (w - bitLen (zx w a)) = bitLen (zx w a) - 1 by omega]
    exact one.2

theorem ctzVal_counts (a : Word) : (ctzVal w a).toNat ≤ w ∧ (∀ i, i < (ctzVal w a).toNat → a.getLsbD i = false) ∧
    ((ctzVal w a).toNat < w → a.getLsbD (ctzVal w a).toNat = true) := by
  have bit : ∀ i, i < w → (zx w a).testBit i = a.getLsbD i := fun i hi => by rw [testBit_zx, decide_eq_true hi, Bool.true_and]
  cases found : (List.range w).find? (fun i => (zx w a).testBit i) with
  | none =>
    rw [ctzVal, found, Option.getD_none, toNat_wrap_of_count hw le_rfl]
    refine ⟨le_rfl, fun i hi => ?_, fun h => absurd h (lt_irrefl w)⟩
    have zero := List.find?_eq_none.1 found i (List.mem_range.2 hi)
    rwa [bit i hi, Bool.not_eq_true] at zero
  | some k =>
    obtain ⟨one, inside, zeros⟩ := List.find?_range_eq_some.1 found
    have kw := List.mem_range.1 inside
    rw [ctzVal, found, Option.getD_some, toNat_wrap_of_count hw kw.le]
    refine ⟨kw.le, fun i hi => ?_, fun _ => (bit k kw).symm.trans one⟩
    rw [← bit i (hi.trans kw)]
    simpa using zeros i hi

theorem bitsAre_brevVal (a : Word) : BitsAre w (brevVal w a) (fun i => a.getLsbD (w - 1 - i)) := by
  refine (bitsAre_wrap_natCast hw _).congr fun i hi => ?_
  have inside : w - 1 - i < w := by omega
  obtain ⟨m, value, bits⟩ := reversed_bits (zx w a) (le_refl w)
  rw [value, Nat.sub_self, pow_zero, Nat.one_mul, bits, testBit_zx, decide_eq_true hi, decide_eq_true inside, Bool.true_and, Bool.true_and]

end

/-! ### Fields and bytes (R172, R174) -/

theorem getLsbD_ofNat_of_lt {n w : Nat} (hw : w ≤ 64) (h : n < 2 ^ w) (i : Nat) :
    (BitVec.ofNat 64 n).getLsbD i = (decide (i < w) && n.testBit i) := by
  have small : n < 2 ^ 64 := h.trans_le (Nat.pow_le_pow_right (by decide) hw)
  rw [← BitVec.testBit_toNat, BitVec.toNat_ofNat, Nat.mod_eq_of_lt small]
  by_cases hi : i < w
  · simp [hi]
  · simp [hi, Nat.testBit_lt_two_pow (h.trans_le (Nat.pow_le_pow_right (by decide) (Nat.le_of_not_lt hi)))]

theorem two_pow_mul_add_lt {k m a b : Nat} (ha : a < 2 ^ m) (hb : b < 2 ^ k) : 2 ^ k * a + b < 2 ^ (k + m) :=
  calc 2 ^ k * a + b < 2 ^ k * a + 2 ^ k := Nat.add_lt_add_left hb _
    _ = 2 ^ k * (a + 1) := by ring
    _ ≤ 2 ^ k * 2 ^ m := Nat.mul_le_mul_left _ ha
    _ = 2 ^ (k + m) := (pow_add ..).symm

section
variable {w : Nat} (hw : w ≤ 64) (hpos : 0 < w)
include hw hpos

theorem bitsAre_bfxVal (md : Nat) (a pos : Word) {len : Nat} :
    BitsAre w (bfxVal md w a pos len) (fun i => decide (0 < fieldLen w pos len) &&
      (if i < fieldLen w pos len then a.getLsbD (fieldPos w pos + i)
       else md == 0 && a.getLsbD (fieldPos w pos + fieldLen w pos len - 1))) := by
  have pw : fieldPos w pos < w := Nat.mod_lt _ hpos
  have nw : fieldPos w pos + fieldLen w pos len ≤ w := by unfold fieldLen; omega
  have field : ∀ j, j < fieldLen w pos len →
      (BitVec.ofNat 64 (zx w a / 2 ^ fieldPos w pos)).getLsbD j = a.getLsbD (fieldPos w pos + j) := fun j hj => by
    have jw : j < w := by omega
    have inside : j + fieldPos w pos < w := by omega
    rw [getLsbD_ofNat_of_lt hw ((Nat.div_le_self ..).trans_lt (zx_lt w a)), Nat.testBit_div_two_pow, testBit_zx,
      decide_eq_true jw, decide_eq_true inside, Bool.true_and, Bool.true_and, Nat.add_comm]
  rcases Nat.eq_zero_or_pos (fieldLen w pos len) with zero | field_pos
  · intro i
    simp [bfxVal, zero]
  · have value : bfxVal md w a pos len = wrap w (sz (md == 0) (fieldLen w pos len) (BitVec.ofNat 64 (zx w a / 2 ^ fieldPos w pos))) :=
      if_neg field_pos.ne'
    rw [value]
    refine (bitsAre_wrap_sz hw (md == 0) field_pos _).congr fun i hi => ?_
    rw [decide_eq_true field_pos, Bool.true_and, field _ (Nat.sub_lt field_pos Nat.one_pos), ← Nat.add_sub_assoc field_pos]
    exact ite_congr rfl (field i) fun _ => rfl

theorem bitsAre_bfiVal (base ins pos : Word) (len : Nat) : BitsAre w (bfiVal w base ins pos len) (fun i =>
    if fieldPos w pos ≤ i ∧ i < fieldPos w pos + fieldLen w pos len then ins.getLsbD (i - fieldPos w pos) else base.getLsbD i) := by
  have pw : fieldPos w pos < w := Nat.mod_lt _ hpos
  have nw : fieldPos w pos + fieldLen w pos len ≤ w := by unfold fieldLen; omega
  unfold bfiVal
  dsimp only
  generalize fieldPos w pos = p at *
  generalize fieldLen w pos len = n at *
  have lowest : zx w base % 2 ^ p < 2 ^ p := Nat.mod_lt _ (Nat.two_pow_pos p)
  have lower : 2 ^ p * zx n ins + zx w base % 2 ^ p < 2 ^ (p + n) := two_pow_mul_add_lt (zx_lt n ins) lowest
  have highest : zx w base / 2 ^ (p + n) < 2 ^ (w - (p + n)) := by
    rw [Nat.div_lt_iff_lt_mul (Nat.two_pow_pos _), ← pow_add, Nat.sub_add_cancel nw]
    exact zx_lt w base
  have fits := two_pow_mul_add_lt highest lower
  rw [Nat.add_sub_cancel' nw] at fits
  have whole : zx w base % 2 ^ p + zx n ins * 2 ^ p + zx w base / 2 ^ (p + n) * 2 ^ (p + n) =
      2 ^ (p + n) * (zx w base / 2 ^ (p + n)) + (2 ^ p * zx n ins + zx w base % 2 ^ p) := by ring
  intro i
  rw [whole, getLsbD_ofNat_of_lt hw fits]
  by_cases hi : i < w
  · simp only [hi, decide_true, Bool.true_and]
    rw [Nat.testBit_two_pow_mul_add _ lower, Nat.testBit_two_pow_mul_add _ lowest, Nat.testBit_div_two_pow, Nat.testBit_mod_two_pow,
      testBit_zx, testBit_zx, testBit_zx]
    by_cases below : i < p
    · have : i < p + n := by omega
      have : ¬ p ≤ i := by omega
      simp [*]
    · by_cases within : i < p + n
      · have : p ≤ i := by omega
        have : i - p < n := by omega
        simp [*]
      · have : i - (p + n) + (p + n) = i := by omega
        simp [*]
  · simp [hi]

end

/-- Bit `i` of a number in little-endian bytes is bit `i % 8` of byte `i / 8`. -/
theorem testBit_leNat (bs : List Byte) (i : Nat) : (leNat bs).testBit i = (nth bs 0 (i / 8)).getLsbD (i % 8) := by
  induction bs generalizing i with
  | nil => simp [leNat, nth]
  | cons b bs ih =>
    have whole : leNat (b :: bs) = 2 ^ 8 * leNat bs + b.toNat := Nat.add_comm ..
    rw [whole, Nat.testBit_two_pow_mul_add _ b.isLt]
    by_cases first : i < 8
    · rw [if_pos first, BitVec.testBit_toNat, Nat.div_eq_of_lt first, Nat.mod_eq_of_lt first]
      rfl
    · obtain ⟨j, rfl⟩ : ∃ j, i = j + 8 := ⟨i - 8, by omega⟩
      rw [if_neg first, Nat.add_sub_cancel, ih, Nat.add_mod_right, Nat.add_div_right _ (by decide)]
      rfl

theorem bitsAre_bselVal {w n : Nat} (hn : w = 8 * n) (hw : w ≤ 64) (a b ctl : Word) : BitsAre w (bselVal w a b ctl) (fun i =>
    let k := ctl.toNat / 2 ^ (4 * (i / 8)) % 16
    if 8 ≤ k then b.getLsbD i else a.getLsbD (8 * (k % (w / 8)) + i % 8)) := by
  have count : w / 8 = n := by omega
  intro i
  rw [bselVal, ← BitVec.testBit_toNat, BitVec.toNat_ofNat, Nat.testBit_mod_two_pow, testBit_leNat, count]
  by_cases hi : i < w
  · have byte : (List.range n)[i / 8]? = some (i / 8) := List.getElem?_range (by omega)
    have bit : ∀ (x : Word) j, (BitVec.ofNat 8 (bitsOf x.toNat (8 * j) 8)).getLsbD (i % 8) = x.getLsbD (8 * j + i % 8) := fun x j => by
      have small : i % 8 < 8 := Nat.mod_lt _ (by decide)
      rw [← BitVec.testBit_toNat, BitVec.toNat_ofNat, bitsOf, Nat.mod_mod, Nat.testBit_mod_two_pow, Nat.testBit_div_two_pow,
        BitVec.testBit_toNat, decide_eq_true small, Bool.true_and, Nat.add_comm]
    have i64 : i < 64 := by omega
    rw [nth, List.getElem?_map, byte, Option.map_some, Option.getD_some, decide_eq_true i64, decide_eq_true hi, Bool.true_and, Bool.true_and]
    change BitVec.getLsbD (if bitsOf ctl.toNat (4 * (i / 8)) 4 ≥ 8 then _ else _) (i % 8) =
      if 8 ≤ bitsOf ctl.toNat (4 * (i / 8)) 4 then _ else a.getLsbD (8 * (bitsOf ctl.toNat (4 * (i / 8)) 4 % n) + i % 8)
    by_cases high : 8 ≤ bitsOf ctl.toNat (4 * (i / 8)) 4
    · rw [if_pos high, if_pos high, bit, Nat.div_add_mod]
    · rw [if_neg high, if_neg high, bit, Nat.mod_eq_of_lt (Nat.not_le.1 high)]
  · have none : (List.range n)[i / 8]? = none := List.getElem?_eq_none (by rw [List.length_range]; omega)
    rw [nth, List.getElem?_map, none, decide_eq_false hi]
    simp

end Sys2Proof.Machine
end

section
/-!
SUPPORT. O1 to O5: the integer instructions give in each lane what the laws of words say (R166 to R175).
-/
namespace Sys2Proof.Machine

/-! ### Widths of types (R23) -/

theorem tyWidth_le (t : Ty) : tyWidth t ≤ 64 := by
  cases t <;> simp [tyWidth]

theorem tyWidth_pos_of_isInt {t : Ty} (int : isInt t = true) : 0 < tyWidth t := by
  simp only [isInt, Bool.or_eq_true, beq_iff_eq, or_assoc] at int
  rcases int with rfl | rfl | rfl | rfl <;> decide

/-! ### Operations of one result in each lane -/

section
variable {f : Form} {s : State} {c : Ctx} (issues : Issues s f c) (canonical : Canonical s) {ok : Nat → Word → Prop}
include issues canonical

theorem laneOp_computesSome (t : Ctx → Ty) (g : Ctx → Nat → Word) (each : ∀ l, ok l (g c l)) :
    ComputesSome s c f (dstOf c f (t c)) ok (laneOp f s t g) :=
  ⟨g c, each, laneOp_computes issues canonical t g⟩

theorem intOp1_computesSome (signed : Bool) (g : Nat → Word → Word)
    (each : ∀ l, ok l (g (tyWidth (formTy c f)) (src s c f 0 (formTy c f) signed l))) :
    ComputesSome s c f (dstOf c f (formTy c f)) ok (intOp1 f s signed g) :=
  laneOp_computesSome issues canonical _ _ each

theorem intOp2_computesSome (signed : Bool) (g : Nat → Word → Word → Word)
    (each : ∀ l, ok l (g (tyWidth (formTy c f)) (src s c f 0 (formTy c f) signed l) (src s c f 1 (formTy c f) signed l))) :
    ComputesSome s c f (dstOf c f (formTy c f)) ok (intOp2 f s signed g) :=
  laneOp_computesSome issues canonical _ _ each

end

/-! ### Sums, products and extremes (R168, R169) -/

theorem rd169_eq (md w : Nat) (v : Word) : rd169 md w v = if md = 2 then (zx w v : Int) else sx w v := by
  by_cases two : md = 2 <;> simp [rd169, sz, two]

theorem sz_mod_eq (md w : Nat) (v : Word) : sz (md == 0) w v = if md = 0 then sx w v else (zx w v : Int) := by
  by_cases zero : md = 0 <;> simp [sz, zero]

/-- Settles O1: each instruction's exact result is fitted to the width. -/
theorem integerResultsFitTheirWidth : Obligations.IntegerResultsFitTheirWidth := by
  unfold Obligations.IntegerResultsFitTheirWidth
  intro f s c issues canonical int
  dsimp only
  have fits := fits_fit (tyWidth_le (formTy c f)) (tyWidth_pos_of_isInt int) (modOf f)
  simp only [← rd169_eq, exec_add, execAdd, exec_sub, execSub, exec_mad, execMad, exec_neg, execNeg, exec_abs, execAbs]
  refine ⟨?_, ?_, ?_, fun signed => ?_⟩
  · exact intOp2_computesSome issues canonical _ _ fun l => fits _
  · exact intOp2_computesSome issues canonical _ _ fun l => fits _
  · exact laneOp_computesSome issues canonical (fun c => formTy c f) _ fun l => fits _
  · have sx_of (v : Word) : rd169 (modOf f) (tyWidth (formTy c f)) v = sx (tyWidth (formTy c f)) v := by
      rw [rd169_eq, if_neg (by omega)]
    simp only [sx_of]
    exact ⟨intOp1_computesSome issues canonical _ _ fun l => fits _, intOp1_computesSome issues canonical _ _ fun l => fits _⟩

/-- Settles O2: the results are wrapped to the width, of the product, of its high half, or of one of the operands. -/
theorem integerProductsAndExtremes : Obligations.IntegerProductsAndExtremes := by
  unfold Obligations.IntegerProductsAndExtremes
  intro f s c issues canonical int
  simp only [exec_mul, execMul, exec_mulhi, execMulhi, exec_min, execMin, exec_max, execMax]
  have fits := fits_wrap (tyWidth_le (formTy c f))
  refine ⟨intOp2_computesSome issues canonical _ _ fun l => bitsAre_wrap_natCast (tyWidth_le _) _, fun mods => ?_⟩
  have read (k l : Nat) : (if modOf f = 0 then sx (tyWidth (formTy c f)) (src s c f k (formTy c f) true l)
      else (zx (tyWidth (formTy c f)) (src s c f k (formTy c f) false l) : Int)) =
      sz (modOf f == 0) (tyWidth (formTy c f)) (src s c f k (formTy c f) (modOf f == 0) l) := by
    rw [sz_mod_eq]
    obtain m | m : modOf f = 0 ∨ modOf f = 1 := by omega
    all_goals simp [m]
  simp only [read]
  refine ⟨?_, ?_, ?_⟩
  · refine intOp2_computesSome issues canonical _ _ fun l => ?_
    rw [Int.shiftRight_eq_div_pow]
    exact fits _
  · exact intOp2_computesSome issues canonical _ _ fun l => fits _
  · exact intOp2_computesSome issues canonical _ _ fun l => fits _

/-! ### Logic and shifts (R168, R171) -/

/-- Settles O3: by the bits of each result. -/
theorem bitwiseInstructionsAndShiftsActOnBits : Obligations.BitwiseInstructionsAndShiftsActOnBits := by
  unfold Obligations.BitwiseInstructionsAndShiftsActOnBits
  refine ⟨fun f s c issues canonical logical => ?_, fun f s c issues canonical int => ?_⟩
  · have low (v : Word) {p : Nat → Bool} (bits : ∀ i, i < 64 → v.getLsbD i = p i) :
        BitsAre (tyWidth (formTy c f)) (lowBits (tyWidth (formTy c f)) v) p :=
      (bitsAre_lowBits _ v).congr fun i hi => bits i (hi.trans_le (tyWidth_le _))
    simp only [exec_and, execAnd, exec_or, execOr, exec_xor, execXor, exec_andn, execAndn, exec_not, execNot]
    refine ⟨?_, ?_, ?_, ?_, ?_⟩
    · exact intOp2_computesSome issues canonical _ _ fun l => low _ fun i _ => BitVec.getLsbD_and
    · exact intOp2_computesSome issues canonical _ _ fun l => low _ fun i _ => BitVec.getLsbD_or
    · exact intOp2_computesSome issues canonical _ _ fun l => low _ fun i _ => BitVec.getLsbD_xor
    · exact intOp2_computesSome issues canonical _ _ fun l => low _ fun i hi => by simp [hi]
    · exact intOp1_computesSome issues canonical _ _ fun l => low _ fun i hi => by simp [hi]
  · have width := tyWidth_le (formTy c f)
    have pos := tyWidth_pos_of_isInt int
    simp only [exec_shl, execShl, exec_shr, execShr, exec_rotl, execRotl, exec_rotr, execRotr]
    refine ⟨?_, fun signed => ?_, fun unsigned => ?_, ?_, ?_⟩
    · exact intOp2_computesSome issues canonical _ _ fun l => bitsAre_shlVal width _ _
    · refine intOp2_computesSome issues canonical _ _ fun l => ?_
      rw [signed]
      exact bitsAre_shrVal width pos 0 _ _
    · refine intOp2_computesSome issues canonical _ _ fun l => ?_
      rw [unsigned]
      refine (bitsAre_shrVal width pos 1 _ _).congr fun i _ => ?_
      simp [amount]
    · exact intOp2_computesSome issues canonical _ _ fun l => bitsAre_rotlVal width pos _ _
    · exact intOp2_computesSome issues canonical _ _ fun l => bitsAre_rotrVal width pos _ _

/-! ### Counts and fields (R171, R172) -/

/-- Settles O4: by what each count says of the bits, and by the bits of a field. -/
theorem bitCountsAndFieldsFollowTheBits : Obligations.BitCountsAndFieldsFollowTheBits := by
  unfold Obligations.BitCountsAndFieldsFollowTheBits
  refine ⟨fun f s c issues canonical int => ?_, fun f s c issues canonical int => ?_⟩
  · have width := tyWidth_le (formTy c f)
    simp only [exec_popc, execPopc, exec_clz, execClz, exec_ctz, execCtz, exec_brev, execBrev]
    exact ⟨intOp1_computesSome issues canonical _ _ fun l => toNat_popcVal width _,
      intOp1_computesSome issues canonical _ _ fun l => clzVal_counts width _,
      intOp1_computesSome issues canonical _ _ fun l => ctzVal_counts width _,
      intOp1_computesSome issues canonical _ _ fun l => bitsAre_brevVal width _⟩
  · have width := tyWidth_le (formTy c f)
    have pos := tyWidth_pos_of_isInt int
    simp only [exec_bfx, execBfx, exec_bfi, execBfi]
    exact ⟨fun _ _ => intOp2_computesSome issues canonical _ _ fun l => bitsAre_bfxVal width pos _ _ _,
      fun _ => laneOp_computesSome issues canonical (fun c => formTy c f) _ fun l => bitsAre_bfiVal width pos _ _ _ _⟩

/-! ### Widths, bytes and pointers (R173 to R175) -/

/-- Settles O5: by the bits of each result; pointers are wrapped to their width. -/
theorem widthsBytesAndPointersAreComputed : Obligations.WidthsBytesAndPointersAreComputed := by
  unfold Obligations.WidthsBytesAndPointersAreComputed
  refine ⟨fun f s c issues canonical => ⟨fun int pos narrower => ?_, fun logical => ?_, fun wide => ?_⟩,
    fun f s c issues canonical mods _ => ?_⟩
  · rw [exec_ext, execExt]
    exact laneOp_computesSome issues canonical (fun c => formTy c f) _ fun l => bitsAre_wrap_sz (tyWidth_le _) (modOf f == 0) pos _
  · rw [exec_trunc, execTrunc]
    exact laneOp_computesSome issues canonical (fun c => formTy c f) _ fun l => bitsAre_lowBits _ _
  · rw [exec_bsel, execBsel]
    refine laneOp_computesSome issues canonical (fun c => formTy c f) _ fun l => ?_
    rcases wide with t | t
    · exact bitsAre_bselVal (n := 4) (by rw [t]; rfl) (tyWidth_le _) _ _ _
    · exact bitsAre_bselVal (n := 8) (by rw [t]; rfl) (tyWidth_le _) _ _ _
  · rw [exec_adr, execAdr]
    refine laneOp_computesSome issues canonical (fun c => formTy c f) _ fun l => ?_
    have fits := fits_wrap (tyWidth_le (formTy c f))
    obtain m | m | m | m | m : modOf f = 0 ∨ modOf f = 1 ∨ modOf f = 2 ∨ modOf f = 3 ∨ modOf f = 4 := by omega
    · simp only [adrVal, m]
      exact fits _
    · simp only [adrVal, m]
      exact_mod_cast fits _
    · simp only [adrVal, m]
    · simp only [adrVal, m]
    · simp only [adrVal, m]
      exact fits _

end Sys2Proof.Machine
end

section
/-!
SUPPORT. O6, O7: comparison, selection, constants, and division with its flag (R170, R176 to R181, R203 to R205).
-/
namespace Sys2Proof.Machine

/-! ### Comparison, selection and constants (R176 to R181) -/

theorem boolWord_of_iff {b : Bool} {p : Prop} (h : b = true ↔ p) : p ∧ boolWord b = 1 ∨ ¬p ∧ boolWord b = 0 := by
  cases b with
  | false => exact .inr ⟨fun hp => Bool.false_ne_true (h.2 hp), rfl⟩
  | true => exact .inl ⟨h.1 rfl, rfl⟩

/-- The comparison that a predicate code names (R176). -/
def Compares (md w : Nat) (a b : Word) : Prop := match md with
  | 0 => zx w a = zx w b
  | 1 => zx w a ≠ zx w b
  | 2 => sx w a < sx w b
  | 3 => sx w a ≤ sx w b
  | 4 => zx w a < zx w b
  | 5 => zx w a ≤ zx w b
  | 6 => sx w b < sx w a
  | _ => zx w b < zx w a

theorem icmpVal_iff (md w : Nat) (a b : Word) : icmpVal md w a b = true ↔ Compares md w a b := by
  unfold icmpVal Compares
  split <;> simp

/-- What the codes of `sreg` name in a lane, in the order of their codes (R180). -/
def placements (s : State) (c : Ctx) (l : Nat) : List Nat :=
  let g := gangAt s c.gang
  let r := (launchAt s g.launch).record
  [tidOf s c.warp l, lrThreads r, (warpAt s c.warp).wg, lrWgs r, g.x, g.y, g.z, lrGridX r, lrGridY r, lrGridZ r,
    tidOf s c.warp l % 32, g.die, Config.dieKind g.die, g.ctx % 64, coreOfWarp c.warp % 96, c.warp % 16]

theorem sregVal_eq_nth (s : State) (c : Ctx) (l : Nat) {code : Nat} (h : code < 16) :
    sregVal s c l code = BitVec.ofNat 64 (nth (placements s c l) 0 code) := by
  interval_cases code <;> rfl

/-- Writing results to any destination and finishing computes them. -/
theorem computes_finish_putLanes {f : Form} {s : State} {c : Ctx} (issues : Issues s f c) (canonical : Canonical s) (d : Dst)
    (g : Nat → Word) : Computes s c f d g
      (.next (finish (putLanes s c.pid d ((actLanes s c.pid f).map (fun l => (l, g l)))) c f)) :=
  ⟨_, rfl, gives_finish_putLanes f d _ g (actLanes_nodup ..) (fun _ hl => actLanes_lt hl) canonical.regs issues.2.1⟩

theorem execIcmp_computes {f : Form} {s : State} {c : Ctx} (issues : Issues s f c) (canonical : Canonical s) :
    let sg := predSigned (modOf f)
    Computes s c f (predDst c f) (fun l => boolWord (icmpVal (modOf f) (tyWidth (compareTy c f))
      (src s c f 0 (compareTy c f) sg l) (src s c f 1 (compareTy c f) sg l))) (exec (.icmp f) s) := by
  dsimp only
  rw [exec_icmp, execIcmp, issuing_eq issues]
  exact computes_finish_putLanes issues canonical _ _

theorem execConst_computes {w : PForm} {s : State} {c : Ctx} (issues : Issues s (.p w) c) (canonical : Canonical s) {v : Word}
    (value : ∀ l, operandVal s c l w.a (formTy c (.p w)) false = v) :
    Computes s c (.p w) (.val c.depth c.n) (fun _ => v) (exec (.const w) s) := by
  rw [exec_const, execConst]
  have computes := laneOp_computes issues canonical (fun c => formTy c (.p w)) (fun c l => src s c (.p w) 0 (formTy c (.p w)) false l)
  have values : (fun l => src s c (.p w) 0 (formTy c (.p w)) false l) = fun _ => v := funext value
  rwa [values] at computes

/-- Settles O6: a predicate's truth is a word, and the other results are the values that the rules name. -/
theorem comparisonsSelectionsAndConstantsGiveValues : Obligations.ComparisonsSelectionsAndConstantsGiveValues := by
  unfold Obligations.ComparisonsSelectionsAndConstantsGiveValues
  refine ⟨fun f s c issues canonical mods => ?_, fun s c canonical => ⟨fun f issues => ?_, fun w issues => ⟨?_, ?_, ?_⟩, fun f issues => ?_⟩⟩
  · exact ⟨_, fun l => boolWord_of_iff (icmpVal_iff ..), execIcmp_computes issues canonical⟩
  · rw [exec_select, execSelect]
    exact laneOp_computes issues canonical _ _
  · exact fun v a => execConst_computes issues canonical fun l => by rw [a]; rfl
  · exact fun i a => execConst_computes issues canonical fun l => by rw [a]; rfl
  · exact fun v a => execConst_computes issues canonical fun l => by rw [a]; rfl
  · intro code g r tid known
    have values := funext fun l => sregVal_eq_nth s c l known
    have computes := laneOp_computes issues canonical (fun _ => .i32) (fun c l => sregVal s c l code)
    rw [values] at computes
    rw [exec_sreg]
    unfold execSreg
    exact computes

/-! ### Results with flags (R203 to R205) -/

section
variable {f : Form} {s : State} {c : Ctx} (issues : Issues s f c)

/-- Results with flags of which one traps: the flags are raised and the trap names the lanes (R205). -/
theorem withFlags_traps (t : Ty) (kind : Nat) (g : Nat → Word × Flags) (traps : ¬Untrapped s c (flagsOf s c f g)) :
    TrapsWithFlags s c f kind (flagsOf s c f g)
      (.next (withFlags s c f t kind ((actLanes s c.pid f).map (fun l => (l, (g l).1, (g l).2))))) := by
  obtain ⟨nodup, small⟩ := flagsOf_lanes s c f g
  obtain ⟨⟨m, only⟩, raised⟩ := orFlags_foldl c.pid (flagsOf s c f g) s nodup small
  have hit : ¬(trapping s c (flagsOf s c f g)).isEmpty = true := by
    rw [trapping, List.isEmpty_iff, List.filter_eq_nil_iff]
    exact fun none => traps fun r hr => by simpa using none r hr
  exact ⟨_, raised, by rw [only], congrArg Host.Outcome.next (if_neg hit)⟩

include issues

theorem flagOp_flagged (canonical : Canonical s) (t : Ctx → Ty) (kind : Nat) (g : Ctx → Nat → Word × Flags) :
    Flagged s c f (dstOf c f (t c)) kind (g c) (flagOp f s t kind g) := by
  refine ⟨flagOp_computes issues canonical t kind g, fun traps => ?_⟩
  rw [flagOp, issuing_eq issues]
  exact withFlags_traps (t c) kind (g c) traps

end

/-! ### Division (R170) -/

section
variable {md w : Nat} {a b : Word}

theorem divide_of_zero (zero : sz (md == 0) w b = 0) : divide md w a b =
    (if md = 1 then 0 else if 0 ≤ sz (md == 0) w a then ((2 ^ (w - 1) : Nat) : Int) - 1 else -((2 ^ (w - 1) : Nat) : Int),
      sz (md == 0) w a, fIntDiv) :=
  if_pos zero

theorem divide_of_ne_zero (nonzero : sz (md == 0) w b ≠ 0) : divide md w a b =
    ((sz (md == 0) w a).tdiv (sz (md == 0) w b), (sz (md == 0) w a).tmod (sz (md == 0) w b), fNone) :=
  if_neg nonzero

end

/-- Settles O7: `div` and `rem` take quotient, remainder and flag from one division. -/
theorem divisionTruncatesAndFlagsZeroDivisors : Obligations.DivisionTruncatesAndFlagsZeroDivisors := by
  unfold Obligations.DivisionTruncatesAndFlagsZeroDivisors
  intro f s c issues canonical int mods
  have read (v : Word) : (if modOf f = 1 then (zx (tyWidth (formTy c f)) v : Int) else sx (tyWidth (formTy c f)) v) =
      sz (modOf f == 0) (tyWidth (formTy c f)) v := by
    rw [sz_mod_eq]
    obtain m | m : modOf f = 0 ∨ modOf f = 1 := by omega
    all_goals simp [m]
  simp only [read, exec_div, execDiv, exec_rem, execRem]
  have fits := fits_wrap (tyWidth_le (formTy c f))
  refine ⟨⟨_, fun l => ?_, flagOp_flagged issues canonical _ 0x04 _⟩, ⟨_, fun l => ?_, flagOp_flagged issues canonical _ 0x04 _⟩⟩
  · by_cases zero : sz (modOf f == 0) (tyWidth (formTy c f)) (src s c f 1 (formTy c f) (modOf f == 0) l) = 0
    · simp only [divVal, divide_of_zero zero, if_pos zero]
      exact ⟨by exact_mod_cast fits _, trivial⟩
    · simp only [divVal, divide_of_ne_zero zero, if_neg zero]
      exact ⟨fits _, trivial⟩
  · by_cases zero : sz (modOf f == 0) (tyWidth (formTy c f)) (src s c f 1 (formTy c f) (modOf f == 0) l) = 0
    · simp only [remVal, divide_of_zero zero, if_pos zero, sub_zero]
      exact ⟨fits _, trivial⟩
    · simp only [remVal, divide_of_ne_zero zero, if_neg zero]
      rw [Int.mul_comm, ← Int.tmod_def]
      exact ⟨fits _, trivial⟩

end Sys2Proof.Machine
end

section
/-!
SUPPORT. O16: a branch that every active lane takes to one block (R182 to R185).
-/
namespace Sys2Proof.Machine

/-! ### Edges to one block (R182) -/

/-- The place of an argument among the values of its lane. -/
abbrev edgeKey (c : Ctx) (x : Nat × Nat × Word) : Nat := valKey (threadKey c.pid x.1) c.depth x.2.1

/-- The values once every lane of `es` has its arguments, each as its operand stood before. -/
abbrev argumentVals (s : State) (c : Ctx) (es : List Edge) : SMap Word :=
  s.x.vals.putAll 0 (edgeKey c) (·.2.2) (es.flatMap (edgeVals s c))

theorem passArgs_eq (s : State) (c : Ctx) (es : List Edge) :
    passArgs s c es = { s with x := { s.x with vals := argumentVals s c es } } := by
  have go (xs : List (Nat × Nat × Word)) (t : State) : xs.foldl (fun t x => setVal t (threadKey c.pid x.1) c.depth x.2.1 x.2.2) t =
      { t with x := { t.x with vals := t.x.vals.putAll 0 (edgeKey c) (·.2.2) xs } } := by
    induction xs generalizing t with
    | nil => rfl
    | cons x xs ih => exact ih _
  exact go _ s

/-- The word before the arguments of block `b`, and the number of its first argument's value. -/
abbrev blockWord (c : Ctx) (b : Nat) : Nat := nth (blockWords c.func.code) 0 b
abbrev firstArg (c : Ctx) (b : Nat) : Nat := defsBefore c.module c.func.code (blockWord c b)

/-- Edges of every active lane of the path, to block `b` with arguments `args`. -/
abbrev edgesTo (s : State) (c : Ctx) (b : Nat) (args : List Operand) : List Edge := (pathMask s c.pid).lanes.map (fun l => ⟨l, b, args⟩)

/-- An argument of one edge: its lane, the number of its value, and what its operand holds. -/
theorem mem_edgesTo {s : State} {c : Ctx} {b : Nat} {args : List Operand} {x : Nat × Nat × Word} :
    x ∈ (edgesTo s c b args).flatMap (edgeVals s c) ↔ ∃ l ∈ (pathMask s c.pid).lanes, ∃ i a, args[i]? = some a ∧
      x = (l, firstArg c b + i, operandVal s c l a (argTy c (blockWord c b) i) false) := by
  simp only [edgeVals, List.mem_flatMap, List.mem_map, exists_exists_and_eq_and, Prod.exists, mem_zip_range, Nat.add_zero,
    @eq_comm _ x]

/-- The arguments of one block have places of their own. -/
theorem valKey_add_inj {pid l l' depth v i i' : Nat} (hi : i < 2 ^ 30) (hi' : i' < 2 ^ 30) :
    valKey (threadKey pid l) depth (v + i) = valKey (threadKey pid l') depth (v + i') ↔ l = l' ∧ i = i' := by
  unfold valKey threadKey
  omega

section
variable {s : State} {c : Ctx} {b : Nat} {args : List Operand}

theorem argumentVals_self (canonical : Canonical s) (few : args.length < 2 ^ 30) {l i : Nat} {a : Operand}
    (lane : l ∈ (pathMask s c.pid).lanes) (found : args[i]? = some a) :
    (argumentVals s c (edgesTo s c b args)).getD 0 (valKey (threadKey c.pid l) c.depth (firstArg c b + i)) =
      operandVal s c l a (argTy c (blockWord c b) i) false := by
  have small {j : Nat} {o : Operand} (h : args[j]? = some o) : j < 2 ^ 30 := (List.getElem?_eq_some_iff.1 h).1.trans few
  refine SMap.getD_putAll canonical.regs.1 ⟨_, mem_edgesTo.2 ⟨l, lane, i, a, found, rfl⟩, rfl⟩ fun x written same => ?_
  obtain ⟨l', -, i', a', found', rfl⟩ := mem_edgesTo.1 written
  obtain ⟨rfl, rfl⟩ := (valKey_add_inj (small found') (small found)).1 same
  rw [Option.some_inj.1 (found'.symm.trans found)]

theorem argumentVals_ne {k : Nat} (others : ∀ l ∈ (pathMask s c.pid).lanes, ∀ i, i < args.length →
    k ≠ valKey (threadKey c.pid l) c.depth (firstArg c b + i)) :
    (argumentVals s c (edgesTo s c b args)).getD 0 k = s.x.vals.getD 0 k := by
  refine SMap.getD_putAll_ne fun x written same => ?_
  obtain ⟨l, lane, i, a, found, rfl⟩ := mem_edgesTo.1 written
  exact others l lane i (List.getElem?_eq_some_iff.1 found).1 same.symm

theorem targetsOf_edgesTo (active : (pathMask s c.pid).lanes ≠ []) : targetsOf (edgesTo s c b args) [] = [b] := by
  unfold edgesTo
  obtain ⟨l, rest, lanes⟩ := List.exists_cons_of_ne_nil active
  rw [lanes, List.map_cons]
  exact targetsOf_of_seen (seen := [b]) fun e he => by
    obtain ⟨j, -, rfl⟩ := List.mem_map.1 he
    exact List.mem_singleton_self b

/-- A path whose lanes have passed their arguments and which stands at block `b`. -/
abbrev passedTo (s : State) (c : Ctx) (b : Nat) (args : List Operand) : State :=
  updPath { endIssue s with x := { s.x with vals := argumentVals s c (edgesTo s c b args) } } c.pid
    (fun q => { q with pc := .word (startOf c b) })

theorem pathAt_passedTo (alive : (s.x.paths.find? c.pid).isSome = true) :
    pathAt (passedTo s c b args) c.pid = { pathAt s c.pid with pc := .word (startOf c b) } := pathAt_updPath_self _ alive

variable {f : Form} (issues : Issues s f c) (active : (pathMask s c.pid).lanes ≠ [])
include issues active

/-- A path outside every split record whose lanes all take one edge comes to its block. -/
theorem takeEdges_edgesTo (noEntry : noneLeft s c) (outside : (pathAt s c.pid).split = none) :
    takeEdges s c (edgesTo s c b args) = cameTo (passedTo s c b args) c.pid := by
  have steps : takeEdges s c (edgesTo s c b args) = comeTo (passedTo s c b args) c c.pid b := by
    simp only [takeEdges, passArgs_eq, targetsOf_edgesTo active]
    rfl
  obtain ⟨q, found⟩ := Option.isSome_iff_exists.1 issues.2.1
  have here : (passedTo s c b args).x.paths.find? c.pid = some { q with pc := .word (startOf c b) } := find?_updPath_self _ found
  have same : pathMask (passedTo s c b args) c.pid = pathMask s c.pid := by
    rw [pathMask, pathAt_passedTo issues.2.1]
    rfl
  have left : leftEntries (passedTo s c b args) { c with pid := c.pid } (some c.depth) = [] :=
    leftEntries_of_noneLeft (t := passedTo s c b args) noEntry rfl rfl rfl (fun l hl => by rwa [same] at hl) _
  rw [pathAt_of_find? found] at outside
  rw [steps, comeTo_eq here left (by simp [atJoin, outside])]

theorem takeEdges_branches (canonical : Canonical s) (noEntry : noneLeft s c) (outside : (pathAt s c.pid).split = none)
    (few : args.length < 2 ^ 30) : BranchesTo s c b args (.next (takeEdges s c (edgesTo s c b args))) := by
  rw [takeEdges_edgesTo issues active noEntry outside]
  refine ⟨_, rfl, rfl, ⟨rfl, rfl, rfl, rfl, rfl, rfl, rfl⟩, ⟨rfl, rfl, rfl, rfl, rfl, fun p other => ?_⟩, rfl, rfl, rfl, ?_,
    fun l lane i a found => argumentVals_self canonical few lane found, fun k others => argumentVals_ne others⟩
  · exact (find?_updPath_ne _ _ other).trans (find?_updPath_ne _ _ other)
  · have alive : ((passedTo s c b args).x.paths.find? c.pid).isSome = true := isSome_updPath _ _ issues.2.1
    rw [pathAt_updPath_self _ alive, pathAt_passedTo issues.2.1]
    rfl

end

/-! ### The branches (R183 to R185) -/

section
variable {w : PForm} {s : State} {c : Ctx} (issues : Issues s (.p w) c)

/-- How many arguments block `b` has. -/
abbrev argCount (c : Ctx) (b : Nat) : Nat := blockArgs c.func.code (blockWord c b)

/-- The index that a `switch` reads in a lane (R185). -/
def indexAt (s : State) (c : Ctx) (w : PForm) (l : Nat) : Nat :=
  zx (tyWidth (opndTy c (.p w) 0 .i32)) (operandVal s c l w.a (opndTy c (.p w) 0 .i32) false)

/-- The edge that a `switch` takes in a lane (R185). -/
def switchEdge (s : State) (c : Ctx) (w : PForm) (l : Nat) : Edge :=
  let n := immNat w.c
  let cases := (w.ext.take n).map indexOf
  let args := w.ext.drop n
  let k := indexAt s c w l
  if k < n then ⟨l, nth cases 0 k, caseArgs c.func.code (indexOf w.b) cases args k⟩
  else ⟨l, indexOf w.b, args.take (argCount c (indexOf w.b))⟩

theorem branchEdge_of_true {l : Nat} (h : condAt s c w l = true) :
    branchEdge s c w l = ⟨l, indexOf w.b, w.ext.take (argCount c (indexOf w.b))⟩ := if_pos h

theorem branchEdge_of_false {l : Nat} (h : condAt s c w l = false) :
    branchEdge s c w l = ⟨l, indexOf w.c, w.ext.drop (argCount c (indexOf w.b))⟩ := if_neg (Bool.eq_false_iff.1 h)

theorem switchEdge_of_case {l i : Nat} {o : Operand} (h : indexAt s c w l = i) (hi : i < immNat w.c)
    (found : (w.ext.take (immNat w.c))[i]? = some o) : switchEdge s c w l = ⟨l, indexOf o,
      ((w.ext.drop (immNat w.c)).drop (argCount c (indexOf w.b) +
        (((w.ext.take (immNat w.c)).take i).map (fun o => argCount c (indexOf o))).sum)).take (argCount c (indexOf o))⟩ := by
  have block : nth ((w.ext.take (immNat w.c)).map indexOf) 0 i = indexOf o := by rw [nth, List.getElem?_map, found]; rfl
  rw [switchEdge, h, if_pos hi, caseArgs, block, ← List.map_take, List.map_map]
  rfl

theorem switchEdge_of_default {l : Nat} (h : immNat w.c ≤ indexAt s c w l) : switchEdge s c w l =
    ⟨l, indexOf w.b, (w.ext.drop (immNat w.c)).take (argCount c (indexOf w.b))⟩ := if_neg (Nat.not_lt.2 h)

include issues

theorem execBr_eq : exec (.br w) s = .next (takeEdges s c ((pathMask s c.pid).lanes.map (fun l => ⟨l, indexOf w.a, w.ext⟩))) := by
  rw [exec_br]
  exact issuing_eq issues _

theorem execSwitch_eq : exec (.switch w) s = .next (takeEdges s c ((pathMask s c.pid).lanes.map (switchEdge s c w))) := by
  rw [exec_switch]
  exact issuing_eq issues _

end

/-- Settles O16: where every lane takes the same edge, the path takes it whole. -/
theorem uniformBranchesPassArguments : Obligations.UniformBranchesPassArguments := by
  unfold Obligations.UniformBranchesPassArguments
  intro w s c issues canonical noEntry outside active few
  have branches {args : List Operand} (part : args.Sublist w.ext) {mk : Nat → Edge} {b : Nat}
      (same : ∀ l ∈ (pathMask s c.pid).lanes, mk l = ⟨l, b, args⟩) :
      BranchesTo s c b args (.next (takeEdges s c ((pathMask s c.pid).lanes.map mk))) := by
    rw [List.map_congr_left same]
    exact takeEdges_branches issues active canonical noEntry outside (part.length_le.trans_lt few)
  refine ⟨?_, fun cond => ?_, fun cond => ?_, fun i o hi found index => ?_, fun index => ?_⟩
  · rw [execBr_eq issues]
    exact branches (.refl _) fun l _ => rfl
  · rw [execBrc_eq issues]
    exact branches (List.take_sublist ..) fun l hl => branchEdge_of_true (cond l hl)
  · rw [execBrc_eq issues]
    exact branches (List.drop_sublist ..) fun l hl => branchEdge_of_false (cond l hl)
  · rw [execSwitch_eq issues]
    exact branches (((List.take_sublist ..).trans (List.drop_sublist ..)).trans (List.drop_sublist ..)) fun l hl =>
      switchEdge_of_case (index l hl) hi found
  · rw [execSwitch_eq issues]
    exact branches ((List.take_sublist ..).trans (List.drop_sublist ..)) fun l hl => switchEdge_of_default (index l hl)

end Sys2Proof.Machine
end

section
/-!
SUPPORT. O22: what a trap instruction raises and what a handler reads of it (R190, R191, R353, R354).
-/
namespace Sys2Proof.Machine

/-! ### Trap instructions (R190, R191) -/

/-- The trap that a bundle notes when one of its slots raises `t` (R58, R157). -/
def notedTrap (old : Option TrapRec) (t : TrapRec) : Option TrapRec := match old with
  | none => some t
  | some u => if u.kind = 0x13 ∨ u.vpc.toNat ≤ t.vpc.toNat then some u else some t

/-- A trap of a slot changes the noted trap of the issue alone. -/
theorem raise_n {s : State} {i : Issue} (issue : s.c.issue = some i) (c : Ctx) (w : NForm) (t : TrapRec) :
    raise s c (.n w) t =
      { s with c := { s.c with issue := some { i with trap := notedTrap i.trap { t with vpc := trapVpc s c (.n w) } } } } := by
  rw [raise, issue]
  cases trap : i.trap with
  | none => simp [trap, notedTrap]
  | some u => simp [trap, notedTrap]

theorem currentTrap_of_handler {s : State} {pid b : Nat} {k : TrapBlock} (handler : handlerOf (pathAt s pid) = some b)
    (found : s.x.blocks.find? b = some k) : currentTrap s pid = k.record := by
  simp [currentTrap, handler, found]

/-- Settles O22: each instruction raises its trap, and `trap.info` reads the record of the handler's block. -/
theorem trapInstructionsAndTheirRecords : Obligations.TrapInstructionsAndTheirRecords := by
  unfold Obligations.TrapInstructionsAndTheirRecords
  refine ⟨fun s c => ⟨fun w issues => ⟨?_, ?_⟩, fun w i issues issue => ?_⟩, fun f s c issues canonical mods b k handler found => ?_⟩
  · rw [exec_trap, execTrap, issuing_eq issues]
    rfl
  · rw [exec_unreach, execUnreach, issuing_eq issues]
    rfl
  · rw [exec_trap, execTrap, issuing_eq issues]
    dsimp only
    rw [raise_n issue]
    exact ⟨_, _, rfl, rfl, rfl, rfl, rfl⟩
  · rw [exec_trapInfo, execTrapInfo]
    refine laneOp_computesSome issues canonical (fun _ => if modOf f = 4 then .i64 else .i32) _ fun l => ?_
    rw [currentTrap_of_handler handler found]
    obtain m | m | m | m | m | m | m : modOf f = 0 ∨ modOf f = 1 ∨ modOf f = 2 ∨ modOf f = 3 ∨ modOf f = 4 ∨ modOf f = 5 ∨ modOf f = 6 := by
      omega
    all_goals simp only [m, trapField]
    -- What is left are the lane's own address and whether the lane is named.
    · exact ⟨fun a h => by rw [h]; rfl, fun h => by rw [h]; rfl⟩
    · rfl

end Sys2Proof.Machine
end

section
/-!
SUPPORT. O8, O11: results with flags, whatever their destination (R205), and the floating instructions that are one function in each
lane (R208, R210, R214 to R220).
-/
namespace Sys2Proof.Machine

/-! ### Threads -/

/-- The state with other threads. -/
abbrev withThreads (s : State) (m : SMap Thread) : State := { s with x := { s.x with threads := m } }

theorem RegistersKept.of_withThreads {s t : State} {m : SMap Thread} {pid : Nat} {d : Dst} {ls : List Nat}
    (h : RegistersKept (withThreads s m) t pid d ls) : RegistersKept s t pid d ls :=
  ⟨h.vals, h.vregs, h.sregs, h.own⟩

theorem RestKept.of_withThreads {s t : State} {m : SMap Thread} (h : RestKept (withThreads s m) t) : RestKept s t :=
  ⟨h.mem, h.engines, h.plane, h.ring, h.host, h.debug, h.control⟩

theorem PathsKept.of_withThreads {s t : State} {m : SMap Thread} {pid : Nat} (h : PathsKept (withThreads s m) t pid) :
    PathsKept s t pid :=
  ⟨h.gangs, h.wgs, h.warps, h.splits, h.blocks, h.others⟩

theorem Gives.of_withThreads {s t : State} {m : SMap Thread} {c : Ctx} {f : Form} {d : Dst} {ls : List Nat} {g : Nat → Word}
    (h : Gives (withThreads s m) t c f d ls g) : Gives s t c f d ls g :=
  ⟨h.results, h.goesOn, h.registers.of_withThreads, h.rest.of_withThreads, h.paths.of_withThreads⟩

theorem FlagsRaised.congr_threads {s t u : State} {pid : Nat} {fls : List (Nat × Flags)} (h : FlagsRaised s t pid fls)
    (threads : u.x.threads = t.x.threads) : FlagsRaised s u pid fls := by
  have same (k : Nat) : threadAt u k = threadAt t k := by rw [threadAt, threads, threadAt]
  exact ⟨fun r hr => (same _).trans (h.raised r hr), fun k hk => (same _).trans (h.others k hk)⟩

/-! ### Results with flags (R203 to R205) -/

section
variable {f : Form} {s : State} {c : Ctx} (issues : Issues s f c) (canonical : Canonical s)
include issues canonical

/-- Raising the flags of every lane, and then writing the results to any destination unless an exception is enabled. -/
theorem flagged_finish_putLanes (d : Dst) (kind : Nat) (g : Nat → Word × Flags) :
    let u := (flagsOf s c f g).foldl (fun s r => orFlags s (threadKey c.pid r.1) r.2) s
    let hit := trapping s c (flagsOf s c f g)
    Flagged s c f d kind g (.next (if hit.isEmpty then
        finish (putLanes u c.pid d ((actLanes s c.pid f).map (fun l => (l, (g l).1)))) c f
      else raise u c f { plainTrap kind (hit.map (·.1)) with flags := hit.foldl (fun a r => a ||| r.2) 0 })) := by
  obtain ⟨nodup, small⟩ := flagsOf_lanes s c f g
  obtain ⟨⟨m, only⟩, raised⟩ := orFlags_foldl c.pid (flagsOf s c f g) s nodup small
  have none_hit : (trapping s c (flagsOf s c f g)).isEmpty = true ↔ Untrapped s c (flagsOf s c f g) := by
    simp [trapping, Untrapped]
  dsimp only
  rw [only] at raised ⊢
  refine ⟨fun untrapped => ?_, fun traps => ?_⟩
  · rw [if_pos (none_hit.2 untrapped)]
    obtain ⟨t, next, gives, threads⟩ := computes_finish_putLanes (s := withThreads s m) issues canonical d (fun l => (g l).1)
    exact ⟨t, next, gives.of_withThreads, raised.congr_threads threads⟩
  · rw [if_neg (mt none_hit.1 traps)]
    exact ⟨_, raised, rfl, rfl⟩

/-- `flagOp_flagged`, for a destination and results that are written in another way. -/
theorem flagOp_flagged_of_eq {t : Ctx → Ty} {kind : Nat} {g : Ctx → Nat → Word × Flags} {d : Dst} {h : Nat → Word × Flags}
    (dst : dstOf c f (t c) = d) (results : g c = h) : Flagged s c f d kind h (flagOp f s t kind g) := by
  rw [← dst, ← results]
  exact flagOp_flagged issues canonical t kind g

end

/-! ### Arithmetic and conversions (R208 to R220) -/

/-- Settles O8: each instruction is one function of its operands' codes, with flags. -/
theorem floatArithmeticDeliversResultsAndFlags : Obligations.FloatArithmeticDeliversResultsAndFlags := by
  unfold Obligations.FloatArithmeticDeliversResultsAndFlags
  intro f s c issues canonical _
  simp only [exec_fadd, execFadd, exec_fsub, execFsub, exec_fmul, execFmul, exec_fdiv, execFdiv, exec_fsqrt, execFsqrt, exec_fma, execFma,
    exec_fmin, execFmin, exec_fmax, execFmax, fpOp]
  refine ⟨?_, ?_, ?_, ?_, ?_, ?_, ?_, ?_⟩ <;> exact flagOp_flagged_of_eq issues canonical rfl rfl

/-- Settles O11: each conversion or scaling is one function of its operands' codes, with flags; that of `upk8` is without. -/
theorem conversionsDeliverResultsAndFlags : Obligations.ConversionsDeliverResultsAndFlags := by
  unfold Obligations.ConversionsDeliverResultsAndFlags
  intro f s c issues canonical
  have read (v : Word) (w : Nat) : (if satOf f 4 = true then (zx w v : Int) else sx w v) = sz (!satOf f 4) w v := by
    cases satOf f 4 <;> rfl
  simp only [read, exec_fcvt, execFcvt, exec_frint, execFrint, exec_fcvti, execFcvti, exec_icvtf, execIcvtf, exec_fscaleb, execFscaleb,
    exec_flogb, execFlogb, exec_pk8, execPk8, exec_bscale, execBscale, exec_upk8]
  refine ⟨?_, ?_, ?_, ?_, ?_, ?_, ?_, ?_, laneOp_computes issues canonical (fun _ => .f32) _⟩ <;>
    exact flagOp_flagged_of_eq issues canonical rfl rfl

end Sys2Proof.Machine
end

section
/-!
SUPPORT. O12: changes of threads, and the flags, mode and seed of a thread (R204, R221).
-/
namespace Sys2Proof.Machine

/-! ### Changing threads -/

theorem threadAt_setThread_self (s : State) (k : Nat) (v : Thread) : threadAt (setThread s k v) k = v := by
  rw [threadAt, setThread_x_threads, SMap.getD, SMap.find?_ins_self]
  rfl

theorem threadAt_setThread_ne (s : State) {k j : Nat} (v : Thread) (h : j ≠ k) : threadAt (setThread s k v) j = threadAt s j := by
  rw [threadAt, setThread_x_threads, SMap.getD, SMap.find?_ins_ne _ _ h]
  rfl

theorem threadKey_ne (pid : Nat) {a b : Nat} (h : a ≠ b) : threadKey pid a ≠ threadKey pid b := by
  unfold threadKey
  omega

/-- The threads of lanes `ls` have been changed by `g`, and nothing else has. -/
structure ThreadsSet (s t : State) (pid : Nat) (ls : List Nat) (g : Nat → Thread → Thread) : Prop where
  only : ∃ m, t = withThreads s m
  each : ∀ l ∈ ls, threadAt t (threadKey pid l) = g l (threadAt s (threadKey pid l))
  others : ∀ k, k ∉ ls.map (threadKey pid) → threadAt t k = threadAt s k

/-- Changing the threads of different lanes one after another. -/
theorem threadsSet_foldl (pid : Nat) (g : Nat → Thread → Thread) (ls : List Nat) (s : State) (nodup : ls.Nodup) :
    ThreadsSet s (ls.foldl (fun t l => setThread t (threadKey pid l) (g l (threadAt t (threadKey pid l)))) s) pid ls g := by
  induction ls generalizing s with
  | nil => exact ⟨⟨_, rfl⟩, fun l hl => absurd hl List.not_mem_nil, fun _ _ => rfl⟩
  | cons a as ih =>
    obtain ⟨new, nodup⟩ := List.nodup_cons.1 nodup
    obtain ⟨⟨m, only⟩, each, others⟩ := ih (setThread s (threadKey pid a) (g a (threadAt s (threadKey pid a)))) nodup
    refine ⟨⟨m, only⟩, fun l hl => ?_, fun k hk => ?_⟩ <;> rw [List.foldl_cons]
    · rcases List.mem_cons.1 hl with rfl | later
      · have passed : threadKey pid l ∉ as.map (threadKey pid) := fun mem => by
          obtain ⟨b, hb, same⟩ := List.mem_map.1 mem
          exact threadKey_ne pid (fun e : b = l => new (e ▸ hb)) same
        rw [others _ passed, threadAt_setThread_self]
      · have other : l ≠ a := fun e => new (e ▸ later)
        rw [each l later, threadAt_setThread_ne _ _ (threadKey_ne pid other)]
    · rw [List.map_cons, List.mem_cons, not_or] at hk
      rw [others k hk.2, threadAt_setThread_ne _ _ hk.1]

/-- An operation that changed threads alone goes on, and all else is as it was. -/
theorem ThreadsSet.finish {s u : State} {c : Ctx} {ls : List Nat} {g : Nat → Thread → Thread} (h : ThreadsSet s u c.pid ls g) (f : Form)
    (alive : (s.x.paths.find? c.pid).isSome = true) :
    let t := Machine.finish u c f
    GoesOn s t c f ∧ RegistersKept s t c.pid .none [] ∧ RestKept s t ∧ PathsKept s t c.pid ∧
      (∀ l ∈ ls, threadAt t (threadKey c.pid l) = g l (threadAt s (threadKey c.pid l))) ∧
      ∀ k, k ∉ ls.map (threadKey c.pid) → threadAt t k = threadAt s k := by
  obtain ⟨⟨m, rfl⟩, each, others⟩ := h
  obtain ⟨rest, paths, x⟩ := finish_kept (withThreads s m) c f
  have same (k : Nat) : threadAt (Machine.finish (withThreads s m) c f) k = threadAt (withThreads s m) k := by
    rw [threadAt, x]
    rfl
  exact ⟨finish_goesOn (s := withThreads s m) f alive, (finish_registers (s := withThreads s m) f .none [] alive).of_withThreads,
    rest.of_withThreads, paths.of_withThreads, fun l hl => (same _).trans (each l hl), fun k hk => (same _).trans (others k hk)⟩

/-! ### Flags and modes (R204, R221) -/

theorem bitsAre_setWidth {w : Nat} (hw : w ≤ 64) (v : BitVec w) : BitsAre w (v.setWidth 64) v.getLsbD := by
  intro i
  rw [BitVec.getLsbD_setWidth]
  by_cases inside : i < w
  · rw [decide_eq_true inside, decide_eq_true (inside.trans_le hw)]
  · rw [BitVec.getLsbD_of_ge v i (Nat.not_lt.1 inside), Bool.and_false, Bool.and_false]

theorem modeOk_iff (m : BitVec 32) : modeOk m = true ↔ (m.extractLsb' 0 3).toNat ≤ 4 ∧ m &&& 0xFFFFC0F8#32 = 0 := by
  rw [modeOk, Bool.and_eq_true, decide_eq_true_eq, beq_iff_eq, dynRound]

/-- The flags that `fexc.clr` names. -/
def clearArg (f : Form) : Flags := match f with | .p w => BitVec.ofNat 6 (immNat w.a) | .n w => w.aux.extractLsb' 0 6

/-- A thread with the named flags cleared. -/
def withCleared (mask : Flags) (t : Thread) : Thread := { t with flags := t.flags &&& ~~~mask }

/-- The mode word that a lane gives `fmode.set`. -/
def modeArg (s : State) (c : Ctx) (f : Form) (l : Nat) : BitVec 32 := (src s c f 0 .i32 false l).setWidth 32

/-- What `fmode.set` makes of a lane's thread. -/
def withMode (s : State) (c : Ctx) (f : Form) (l : Nat) (t : Thread) : Thread :=
  { t with mode := modeArg s c f l, seed := if hasOpnd f 1 then src s c f 1 .i64 false l else t.seed }

section
variable {f : Form} {s : State} {c : Ctx} (issues : Issues s f c)
include issues

theorem execFexcClr_eq : execFexcClr f s = .next (finish ((pathMask s c.pid).lanes.foldl (fun t l =>
    setThread t (threadKey c.pid l) (withCleared (clearArg f) (threadAt t (threadKey c.pid l)))) s) c f) := by
  unfold execFexcClr
  rw [issuing_eq issues]
  rfl

theorem execFmodeSet_of_allowed (allowed : ∀ l ∈ (pathMask s c.pid).lanes, modeOk (modeArg s c f l) = true) :
    execFmodeSet f s = .next (finish ((pathMask s c.pid).lanes.foldl (fun t l =>
      setThread t (threadKey c.pid l) (withMode s c f l (threadAt t (threadKey c.pid l)))) s) c f) := by
  have good : ((pathMask s c.pid).lanes.filter (fun l => !modeOk (modeArg s c f l))).isEmpty = true := by
    simpa using allowed
  rw [execFmodeSet, issuing_eq issues]
  exact congrArg Host.Outcome.next (if_pos good)

theorem execFmodeSet_of_refused (refused : ∃ l ∈ (pathMask s c.pid).lanes, ¬modeOk (modeArg s c f l) = true) :
    execFmodeSet f s =
      .next (raise s c f (plainTrap 0x10 ((pathMask s c.pid).lanes.filter (fun l => !modeOk (modeArg s c f l))))) := by
  have bad : ¬((pathMask s c.pid).lanes.filter (fun l => !modeOk (modeArg s c f l))).isEmpty = true := by
    simpa using refused
  rw [execFmodeSet, issuing_eq issues]
  exact congrArg Host.Outcome.next (if_neg bad)

end

/-- Settles O12: reads are results of each lane, and writes change the threads of the active lanes, unless a mode word is not allowed. -/
theorem floatStateIsReadAndWritten : Obligations.FloatStateIsReadAndWritten := by
  unfold Obligations.FloatStateIsReadAndWritten
  intro f s c issues canonical
  simp only [← modeOk_iff, exec_fexcRd, execFexcRd, exec_fmodeRd, execFmodeRd, exec_fexcClr, exec_fmodeSet]
  have nodup := lanes_nodup (pathMask s c.pid)
  refine ⟨?_, laneOp_computes issues canonical (fun _ => if modOf f = 1 then .i64 else .i32) _, ?_, fun allowed => ?_, fun refused => ?_⟩
  · exact laneOp_computesSome issues canonical (fun _ => .i32) _ fun l => bitsAre_setWidth (by decide) _
  · have cleared := (threadsSet_foldl c.pid (fun _ => withCleared (clearArg f)) _ s nodup).finish f issues.2.1
    exact ⟨_, execFexcClr_eq issues, cleared⟩
  · have written := (threadsSet_foldl c.pid (withMode s c f) _ s nodup).finish f issues.2.1
    exact ⟨_, execFmodeSet_of_allowed issues allowed, written⟩
  · refine ⟨_, fun l => ?_, execFmodeSet_of_refused issues refused⟩
    rw [List.mem_filter, Bool.not_eq_true', Bool.not_eq_true]
    rfl

end Sys2Proof.Machine
end

section
/-!
SUPPORT. O9: NaN operands, and values that a format represents (R195, R196, R200, R210).
-/
namespace Sys2Proof.Machine

/-! ### NaN operands (R196, R210) -/

@[simp] theorem isNan_flush (f : Fmt) (ftz : Bool) (v : FVal) : (f.flush ftz v).isNan = v.isNan := by
  cases v with
  | fin neg m e => rw [Fmt.flush]; split <;> rfl
  | nan | inf | zero => rfl

@[simp] theorem isSnan_flush (f : Fmt) (ftz : Bool) (v : FVal) : (f.flush ftz v).isSnan = v.isSnan := by
  cases v with
  | fin neg m e => rw [Fmt.flush]; split <;> rfl
  | nan | inf | zero => rfl

theorem snanFlag_pair (x y : FVal) : snanFlag [x, y] = if x.isSnan = true ∨ y.isSnan = true then fInvalid else fNone := by
  simp [snanFlag]

/-- What two operands deliver of which one is a NaN: invalid is raised for a signalling one (R196). -/
abbrev Fmt.nanResult (f : Fmt) (a b : Nat) : Nat × Flags :=
  (f.nan, if (f.decode a).isSnan = true ∨ (f.decode b).isSnan = true then fInvalid else fNone)

/-- The guard that the arithmetic instructions of two operands share. -/
def Fmt.nanGuard (f : Fmt) (d : Deliver) (a b : Nat) (r : Nat × Flags) : Nat × Flags :=
  let x := f.flush d.ftz (f.decode a)
  let y := f.flush d.ftz (f.decode b)
  if x.isNan || y.isNan then (f.nan, snanFlag [x, y]) else r

section
variable {f : Fmt} {a b : Nat} (nan : (f.decode a).isNan = true ∨ (f.decode b).isNan = true)
include nan

theorem nanGuard_of_nan (d : Deliver) (r : Nat × Flags) : f.nanGuard d a b r = f.nanResult a b := by
  rw [Fmt.nanResult, ← snanFlag_pair]
  simp [Fmt.nanGuard, snanFlag, nan]

theorem add_of_nan (d : Deliver) : f.add d a b = f.nanResult a b :=
  nanGuard_of_nan nan d _

theorem sub_of_nan (d : Deliver) : f.sub d a b = f.nanResult a b :=
  nanGuard_of_nan nan d _

theorem mul_of_nan (d : Deliver) : f.mul d a b = f.nanResult a b :=
  nanGuard_of_nan nan d _

theorem div_of_nan (d : Deliver) : f.div d a b = f.nanResult a b :=
  nanGuard_of_nan nan d _

/-- `minimum` and `maximum` deliver the default NaN where an operand is one. -/
theorem minMax_of_nan (wantMax : Bool) : f.minMax wantMax true a b = f.nanResult a b := by
  rw [Fmt.nanResult, ← snanFlag_pair]
  rcases nan with h | h <;> simp [Fmt.minMax, h]

end

/-- `minimumNumber` and `maximumNumber` deliver the default NaN for two NaNs. -/
theorem minMax_of_nans {f : Fmt} {a b : Nat} (x : (f.decode a).isNan = true) (y : (f.decode b).isNan = true) (wantMax : Bool) :
    f.minMax wantMax false a b = f.nanResult a b := by
  rw [Fmt.nanResult, ← snanFlag_pair]
  simp [Fmt.minMax, x, y]

theorem sqrt_of_nan {f : Fmt} {a : Nat} (x : (f.decode a).isNan = true) (d : Deliver) :
    f.sqrt d a = (f.nan, if (f.decode a).isSnan = true then fInvalid else fNone) := by
  rw [Fmt.sqrt]
  cases v : f.decode a with
  | nan sig => rfl
  | inf | zero | fin => rw [v] at x; cases x

/-! ### Rounding of values that a format represents (R195, R200) -/

/-- An IEEE format: its sign is bit W - 1, above the magnitude code. -/
structure Fmt.Ieee (f : Fmt) : Prop where
  kind : f.kind = 0
  signed : f.signed = true
  width : 0 < f.w
  precision : 0 < f.p

theorem ieee_fmtOf {t : Ty} (float : isFloat t = true) : (fmtOf t).Ieee ∧ (fmtOf t).w = tyWidth t := by
  simp only [isFloat, Bool.or_eq_true, beq_iff_eq, or_assoc] at float
  rcases float with rfl | rfl | rfl | rfl <;> exact ⟨⟨rfl, rfl, by decide, by decide⟩, rfl⟩

theorem lt_bitLen {n k : Nat} (h : 2 ^ k ≤ n) : k < bitLen n :=
  (Nat.pow_lt_pow_iff_right (by decide)).1 (h.trans_lt (bitLen_bits n).1)

/-- A multiple of the unit keeps its value. -/
theorem roundAt_of_le {q e : Int} (h : q ≤ e) (r : Rnd) (neg : Bool) (m : Nat) (st : Bool) (base : Nat) :
    roundAt r neg m e st q base = (m * 2 ^ (e - q).toNat, st) := if_pos h

section
variable {f : Fmt} (ieee : f.Ieee)
include ieee

/-- What an IEEE format's finite magnitude codes stand for: below the smallest normal value the code counts units of the subnormals;
above, `k` binades and a significand of full precision. -/
theorem mag_eq_fin {n neg : Bool} {c m : Nat} {e : Int} (value : f.mag n c = .fin neg m e) :
    neg = n ∧ (m < 2 ^ (f.p - 1) ∧ c = m ∧ e = f.qsub ∨
      ∃ k : Nat, 2 ^ (f.p - 1) ≤ m ∧ m < 2 ^ f.p ∧ c = k * 2 ^ (f.p - 1) + m ∧ e = f.qsub + k) := by
  have parts := Nat.div_add_mod c (2 ^ (f.p - 1))
  have low := Nat.mod_lt c (Nat.two_pow_pos (f.p - 1))
  have double : 2 ^ f.p = 2 * 2 ^ (f.p - 1) := by rw [← pow_succ', Nat.sub_add_cancel ieee.precision]
  simp only [Fmt.mag, ieee.kind, OfNat.zero_ne_ofNat, if_false] at value
  split at value
  · cases value
  split at value
  · next subnormal =>
    cases value
    rw [subnormal] at parts
    exact ⟨rfl, .inl ⟨low, by omega, rfl⟩⟩
  · next normal =>
    cases value
    obtain ⟨k, binade⟩ := Nat.exists_eq_succ_of_ne_zero normal
    rw [binade, Nat.succ_eq_add_one, mul_add, mul_one] at parts
    refine ⟨rfl, .inr ⟨k, by omega, by omega, by rw [mul_comm k]; omega, ?_⟩⟩
    rw [binade]
    push_cast
    omega

variable (r : Rnd) (neg : Bool) {m : Nat}

/-- A multiple of the unit of the subnormals below the smallest normal value is its own magnitude code. -/
theorem round_subnormal (small : m < 2 ^ (f.p - 1)) : ∃ tiny, f.round r neg m f.qsub false = (m, false, tiny) := by
  have len := bitLen_le small
  have below : ¬((bitLen m : Int) + f.qsub - 1 - ((f.p : Int) - 1) ≥ f.qsub) := by
    have := ieee.precision
    omega
  rw [Fmt.round]
  simp only [ieee.kind, below, if_false, roundAt_of_le le_rfl, OfNat.zero_ne_ofNat, sub_self, Int.toNat_zero, pow_zero, mul_one]
  exact ⟨_, rfl⟩

/-- A significand of full precision is kept; the code counts the binades above the subnormals. -/
theorem round_normal (k : Nat) (low : 2 ^ (f.p - 1) ≤ m) (high : m < 2 ^ f.p) :
    f.round r neg m (f.qsub + k) false = (k * 2 ^ (f.p - 1) + m, false, false) := by
  have len : bitLen m = f.p := by
    have := bitLen_le high
    have := lt_bitLen low
    omega
  have unit : (bitLen m : Int) + (f.qsub + k) - 1 - ((f.p : Int) - 1) = f.qsub + k := by omega
  have above : f.qsub + k ≥ f.qsub := by omega
  rw [Fmt.round]
  simp only [ieee.kind, unit, above, if_true, roundAt_of_le le_rfl, OfNat.zero_ne_ofNat, if_false, sub_self, Int.toNat_zero,
    pow_zero, mul_one, add_sub_cancel_left, Int.toNat_natCast]

/-- The value of a magnitude code rounds to that code, exactly. -/
theorem round_mag {n : Bool} {c : Nat} {e : Int} (value : f.mag n c = .fin neg m e) :
    ∃ tiny, f.round r neg m e false = (c, false, tiny) := by
  obtain ⟨small, rfl, rfl⟩ | ⟨k, low, high, rfl, rfl⟩ := (mag_eq_fin ieee value).2
  · exact round_subnormal ieee r neg small
  · exact ⟨false, round_normal ieee r neg k low high⟩

/-- What `finish` makes of an exact rounding within the range. -/
theorem finish_of_round {e : Int} {c : Nat} {tiny : Bool} (rounds : f.round r neg m e false = (c, false, tiny)) (range : c ≤ f.cmax)
    (sat : Bool) : f.finish r sat neg m e false = (f.code neg c, fNone) := by
  simp [Fmt.finish, rounds, ieee.signed, range]

end

section
variable {f : Fmt} (ieee : f.Ieee) {a : Nat}
include ieee

/-- A finite value is that of a magnitude code within the range, under the sign bit. -/
theorem mag_of_decode {neg : Bool} {m : Nat} {e : Int} (fits : a < 2 ^ f.w) (value : f.decode a = .fin neg m e) :
    a % 2 ^ (f.w - 1) ≤ f.cmax ∧ f.mag (a.testBit (f.w - 1)) (a % 2 ^ (f.w - 1)) = .fin neg m e := by
  simp only [Fmt.decode, ieee.kind, if_true, Nat.mod_eq_of_lt fits] at value
  split at value
  · cases value
  split at value
  · cases value
  · exact ⟨by omega, value⟩

/-- Sign bit and magnitude code make up the code. -/
theorem code_sign_magnitude (fits : a < 2 ^ f.w) : f.code (a.testBit (f.w - 1)) (a % 2 ^ (f.w - 1)) = a := by
  have parts := Nat.div_add_mod a (2 ^ (f.w - 1))
  have top : a / 2 ^ (f.w - 1) < 2 := by
    rwa [Nat.div_lt_iff_lt_mul (Nat.two_pow_pos _), ← pow_succ', Nat.sub_add_cancel ieee.width]
  have bit : a.testBit (f.w - 1) = decide (a / 2 ^ (f.w - 1) = 1) := by
    rw [Nat.testBit_eq_decide_div_mod_eq, Nat.mod_eq_of_lt top]
  rcases Nat.le_one_iff_eq_zero_or_eq_one.1 (Nat.le_of_lt_succ top) with zero | one
  · rw [zero] at parts
    simpa [Fmt.code, bit, zero] using parts
  · rw [one] at parts
    simpa [Fmt.code, bit, one, ieee.kind, ieee.signed] using parts

end

/-- Settles O9: NaN operands by the guard that the instructions share, and finite values by the code that they are decoded from. -/
theorem formatsDeliverNansAndExactValues : Obligations.FormatsDeliverNansAndExactValues := by
  unfold Obligations.FormatsDeliverNansAndExactValues
  refine ⟨fun t v a b _ => ⟨fun nan => ?_, fun nan => sqrt_of_nan nan v, fun x y => ?_⟩, fun t r sat a neg m e float fits value => ?_⟩
  · exact ⟨add_of_nan nan v, sub_of_nan nan v, mul_of_nan nan v, div_of_nan nan v, minMax_of_nan nan false, minMax_of_nan nan true⟩
  · exact ⟨minMax_of_nans x y false, minMax_of_nans x y true⟩
  · obtain ⟨ieee, width⟩ := ieee_fmtOf float
    rw [← width] at fits
    obtain ⟨range, mag⟩ := mag_of_decode ieee fits value
    obtain ⟨tiny, rounds⟩ := round_mag ieee r neg mag
    rw [finish_of_round ieee r neg rounds range sat, (mag_eq_fin ieee mag).1, code_sign_magnitude ieee fits]

end Sys2Proof.Machine
end

section
/-!
SUPPORT. O10: sign operations, comparison and classes (R196, R208, R212, R213).
-/
namespace Sys2Proof.Machine

/-! ### Sign operations (R208) -/

/-- Within a width, the mask of the sign is bit W - 1 alone. -/
theorem getLsbD_signMask {w i : Nat} (hw : w ≤ 64) (hi : i < w) : (1#64 <<< (w - 1)).getLsbD i = (i == w - 1) := by
  rw [← BitVec.twoPow_eq, BitVec.getLsbD_twoPow]
  have top : w - 1 < 64 := by omega
  simp [top, eq_comm, Bool.beq_eq_decide_eq]

/-! ### Comparison (R212) -/

/-- The flags of a comparison: a signalling predicate raises invalid for every NaN. -/
theorem fcmpVal_flags (m : Fmt) (pred a b : Nat) :
    let x := m.decode a
    let y := m.decode b
    (fcmpVal m pred a b).2 = if (x.isSnan || y.isSnan) = true ∨ ((2 ≤ pred ∧ pred ≤ 5) ∧ (x.isNan || y.isNan) = true) then fInvalid
      else fNone := by
  refine if_congr ?_ rfl rfl
  have signals : (pred == 2 || pred == 3 || pred == 4 || pred == 5) = true ↔ 2 ≤ pred ∧ pred ≤ 5 := by
    simp only [Bool.or_eq_true, beq_iff_eq]
    omega
  rw [Bool.or_eq_true, Bool.or_eq_true, Bool.and_eq_true, signals, Bool.or_eq_true, Bool.or_eq_true]
  tauto

section
variable {f : Form} {s : State} {c : Ctx} (issues : Issues s f c) (canonical : Canonical s)
include issues canonical

theorem execFcmp_flagged :
    let t := compareTy c f
    let r := fun l => fcmpVal (fmtOf t) (modOf f) (src s c f 0 t false l).toNat (src s c f 1 t false l).toNat
    Flagged s c f (predDst c f) 3 (fun l => (boolWord (r l).1, (r l).2)) (exec (.fcmp f) s) := by
  rw [exec_fcmp, execFcmp, issuing_eq issues]
  dsimp only
  rw [List.map_map]
  exact flagged_finish_putLanes issues canonical (predDst c f) 3 _

end

/-! ### Classes (R213) -/

theorem classify_one_bit (f : Fmt) (a : Nat) : ∃ k, k < 10 ∧ f.classify a = 2 ^ k := by
  rw [Fmt.classify]
  cases f.decode a with
  | nan sig => cases sig with
    | true => exact ⟨8, by decide, rfl⟩
    | false => exact ⟨9, by decide, rfl⟩
  | inf neg => cases neg with
    | true => exact ⟨0, by decide, rfl⟩
    | false => exact ⟨7, by decide, rfl⟩
  | zero neg => cases neg with
    | true => exact ⟨3, by decide, rfl⟩
    | false => exact ⟨4, by decide, rfl⟩
  | fin neg m e =>
    dsimp only
    split
    · cases neg with
      | true => exact ⟨2, by decide, rfl⟩
      | false => exact ⟨5, by decide, rfl⟩
    · cases neg with
      | true => exact ⟨1, by decide, rfl⟩
      | false => exact ⟨6, by decide, rfl⟩

/-- Settles O10: sign operations by their bits, a comparison by its predicate and flags, and a class by its bit. -/
theorem signsComparisonsAndClassesReadBits : Obligations.SignsComparisonsAndClassesReadBits := by
  unfold Obligations.SignsComparisonsAndClassesReadBits
  refine ⟨fun f s c issues canonical float => ?_, fun f s c issues canonical => ⟨fun _ => ?_, ?_⟩⟩
  · have width := tyWidth_le (formTy c f)
    have low (v : Word) {p : Nat → Bool} (bits : ∀ i, i < tyWidth (formTy c f) → v.getLsbD i = p i) :
        BitsAre (tyWidth (formTy c f)) (lowBits (tyWidth (formTy c f)) v) p :=
      (bitsAre_lowBits _ v).congr bits
    simp only [exec_fneg, execFneg, exec_fabs, execFabs, exec_fcopysign, execFcopysign]
    refine ⟨intOp1_computesSome issues canonical _ _ fun l => low _ fun i hi => ?_,
      intOp1_computesSome issues canonical _ _ fun l => low _ fun i hi => ?_,
      intOp2_computesSome issues canonical _ _ fun l => low _ fun i hi => ?_⟩
    · rw [BitVec.getLsbD_xor, getLsbD_signMask width hi]
    · rw [BitVec.getLsbD_and, BitVec.getLsbD_not, getLsbD_signMask width hi, decide_eq_true (hi.trans_le width), Bool.true_and, bne]
    · rw [BitVec.getLsbD_or, BitVec.getLsbD_and, BitVec.getLsbD_and, BitVec.getLsbD_not, getLsbD_signMask width hi,
        decide_eq_true (hi.trans_le width), Bool.true_and]
      by_cases top : i = tyWidth (formTy c f) - 1
      · rw [if_pos top, beq_iff_eq.2 top, Bool.not_true, Bool.and_false, Bool.false_or, Bool.and_true]
      · rw [if_neg top, beq_eq_false_iff_ne.2 top, Bool.not_false, Bool.and_true, Bool.and_false, Bool.or_false]
  · have flagged := execFcmp_flagged issues canonical
    simp only [fcmpVal_flags] at flagged
    exact flagged
  · rw [exec_fclass, execFclass]
    refine laneOp_computesSome issues canonical (fun _ => .i32) _ fun l => ?_
    obtain ⟨k, small, bit⟩ := classify_one_bit (fmtOf (narrowSourceTy c f 0 4)) (src s c f 0 (narrowSourceTy c f 0 4) false l).toNat
    exact ⟨k, small, congrArg (BitVec.ofNat 64) bit⟩

end Sys2Proof.Machine
end

section
/-!
SUPPORT. O13: the lanes of a group, and lane exchange, votes and matches within it (R223, R225 to R227).
-/
namespace Sys2Proof.Machine

/-! ### Lane groups (R222, R223) -/

/-- The lanes of group `g` that mask `m` names, ascending. -/
def laneGroup (m : Mask) (g : Nat) : List Nat := ((List.range 32).filter (fun k => m.getLsbD (32 * g + k))).map (32 * g + ·)

theorem mem_laneGroup {m : Mask} {g l : Nat} : l ∈ laneGroup m g ↔ m.getLsbD l = true ∧ l / 32 = g := by
  simp only [laneGroup, List.mem_map, List.mem_filter, List.mem_range]
  constructor
  · rintro ⟨k, ⟨small, named⟩, rfl⟩
    exact ⟨named, by omega⟩
  · rintro ⟨named, rfl⟩
    refine ⟨l % 32, ⟨Nat.mod_lt _ (by decide), ?_⟩, Nat.div_add_mod l 32⟩
    rwa [Nat.div_add_mod]

/-- A warp has two lane groups at most. -/
theorem lanes_eq_groups (m : Mask) : m.lanes = laneGroup m 0 ++ laneGroup m 1 := by
  have whole : List.range 64 = List.range 32 ++ (List.range 32).map (32 + ·) := List.range_add (n := 32) (m := 32)
  rw [Mask.lanes, whole, List.filter_append, List.filter_map]
  simp [laneGroup, Function.comp_def]

theorem filter_laneGroup (m : Mask) (g h : Nat) :
    (laneGroup m h).filter (fun l => l / 32 == g) = if h = g then laneGroup m h else [] := by
  split
  · next same =>
    exact List.filter_eq_self.2 fun l hl => beq_iff_eq.2 ((mem_laneGroup.1 hl).2.trans same)
  · next other =>
    exact List.filter_eq_nil_iff.2 fun l hl in_g => other ((mem_laneGroup.1 hl).2.symm.trans (beq_iff_eq.1 in_g))

/-- The participants that a lane of either group has. -/
theorem groupLanes_eq (s : State) (pid : Nat) {g : Nat} (hg : g < 2) : groupLanes s pid g = laneGroup (pathMask s pid) g := by
  rw [groupLanes, lanes_eq_groups, List.filter_append, filter_laneGroup, filter_laneGroup]
  obtain rfl | rfl : g = 0 ∨ g = 1 := by omega
  · simp
  · simp

theorem participants_eq (s : State) (pid : Nat) {l : Nat} (hl : l < 64) : participants s pid l = laneGroup (pathMask s pid) (l / 32) :=
  groupLanes_eq s pid (by omega)

theorem mem_participants {s : State} {pid l j : Nat} :
    j ∈ participants s pid l ↔ (pathMask s pid).getLsbD j = true ∧ j / 32 = l / 32 := by
  rw [participants, List.mem_filter, mem_lanes, beq_iff_eq]

/-- The mask of the lane indices of the participants that pass. -/
theorem bitsAre_groupMask (s : State) (pid l : Nat) (p : Nat → Bool) :
    BitsAre 32 (Mask.of (((participants s pid l).filter p).map (· % 32)))
      (fun k => (pathMask s pid).getLsbD (32 * (l / 32) + k) && p (32 * (l / 32) + k)) := by
  intro i
  by_cases i64 : i < 64
  · rw [getLsbD_maskOf _ i64, Bool.eq_iff_iff, decide_eq_true_iff]
    simp only [List.mem_map, List.mem_filter, mem_participants, Bool.and_eq_true, decide_eq_true_eq]
    constructor
    · rintro ⟨j, ⟨⟨active, group⟩, pass⟩, rfl⟩
      rw [← group, Nat.div_add_mod]
      exact ⟨Nat.mod_lt _ (by decide), active, pass⟩
    · rintro ⟨small, active, pass⟩
      exact ⟨32 * (l / 32) + i, ⟨⟨active, by omega⟩, pass⟩, by omega⟩
  · have big : ¬ i < 32 := by omega
    rw [BitVec.getLsbD_of_ge _ _ (Nat.not_lt.1 i64), decide_eq_false big, Bool.false_and]

/-! ### Votes (R226) -/

/-- A truth value as a word, with what each value says. -/
theorem boolWord_cases {b : Bool} {p q : Prop} (yes : b = true → p) (no : b = false → q) : (boolWord b = 1 ∧ p) ∨ (boolWord b = 0 ∧ q) := by
  cases b with
  | false => exact .inr ⟨rfl, no rfl⟩
  | true => exact .inl ⟨rfl, yes rfl⟩

section
variable (ls : List Nat) (x : Nat → Word)

theorem voteVal_all : (voteVal 0 (ls.map fun j => (j, x j)) = 1 ∧ ∀ j ∈ ls, (x j).getLsbD 0 = true) ∨
    (voteVal 0 (ls.map fun j => (j, x j)) = 0 ∧ ∃ j ∈ ls, (x j).getLsbD 0 = false) :=
  boolWord_cases (by simp) (by simp)

theorem voteVal_any : (voteVal 1 (ls.map fun j => (j, x j)) = 1 ∧ ∃ j ∈ ls, (x j).getLsbD 0 = true) ∨
    (voteVal 1 (ls.map fun j => (j, x j)) = 0 ∧ ∀ j ∈ ls, (x j).getLsbD 0 = false) :=
  boolWord_cases (by simp) (by simp)

theorem voteVal_ballot : voteVal 2 (ls.map fun j => (j, x j)) = Mask.of ((ls.filter (fun j => (x j).getLsbD 0)).map (· % 32)) := by
  rw [voteVal, List.filter_map, List.map_map]
  rfl

/-- All operands are equal when each equals the first. -/
theorem voteVal_eq : (voteVal 3 (ls.map fun j => (j, x j)) = 1 ∧ ∀ j ∈ ls, ∀ k ∈ ls, x j = x k) ∨
    (voteVal 3 (ls.map fun j => (j, x j)) = 0 ∧ ∃ j ∈ ls, ∃ k ∈ ls, x j ≠ x k) := by
  cases ls with
  | nil => exact .inl ⟨rfl, by simp⟩
  | cons a as =>
    refine boolWord_cases (fun same => ?_) fun differ => ?_
    · have first : ∀ j ∈ a :: as, x j = x a := by simpa using same
      exact fun j hj k hk => (first j hj).trans (first k hk).symm
    · obtain ⟨j, hj, ne⟩ : ∃ j ∈ a :: as, x j ≠ x a := by simpa using differ
      exact ⟨j, hj, a, List.mem_cons_self, ne⟩

end

/-- Settles O13: each instruction's result is a function of the participants of the lane's group. -/
theorem laneInstructionsStayInTheirGroup : Obligations.LaneInstructionsStayInTheirGroup := by
  unfold Obligations.LaneInstructionsStayInTheirGroup
  intro f s c issues canonical _
  refine ⟨fun _ => ?_, fun mods => ?_, ?_⟩
  · rw [exec_lanex, execLanex]
    refine laneOp_computesSome issues canonical (fun c => formTy c f) _ fun l => ?_
    rw [Nat.mul_comm (l / 32)]
    rfl
  · rw [exec_vote, execVote]
    refine laneOp_computesSome issues canonical (fun _ => if modOf f = 2 then .i32 else .i1) _ fun l => ?_
    obtain m | m | m | m : modOf f = 0 ∨ modOf f = 1 ∨ modOf f = 2 ∨ modOf f = 3 := by omega
    all_goals simp only [m]
    · exact voteVal_all (participants s c.pid l) _
    · exact voteVal_any (participants s c.pid l) _
    · rw [voteVal_ballot]
      exact bitsAre_groupMask s c.pid l _
    · exact voteVal_eq (participants s c.pid l) _
  · rw [exec_matchLanes, execMatchLanes]
    exact laneOp_computesSome issues canonical (fun _ => .i32) _ fun l => bitsAre_groupMask s c.pid l _

end Sys2Proof.Machine
end

section
/-!
SUPPORT. O15: the results and flags of `lgred` and `lgscan` (R205, R228, R229).
-/
namespace Sys2Proof.Machine

theorem actLanes_of_offSlotZero {f : Form} (off : offSlotZero f) (s : State) (pid : Nat) : actLanes s pid f = (pathMask s pid).lanes := by
  cases f with
  | p w => rfl
  | n w => exact if_neg (off w rfl)

/-- Results with flags, written to the destination of a type. -/
theorem withFlags_flagged {f : Form} {s : State} {c : Ctx} (issues : Issues s f c) (canonical : Canonical s) (t : Ty) (kind : Nat)
    (g : Nat → Word × Flags) : Flagged s c f (dstOf c f t) kind g
      (.next (withFlags s c f t kind ((actLanes s c.pid f).map (fun l => (l, (g l).1, (g l).2))))) :=
  ⟨withFlags_computes issues canonical t kind g, withFlags_traps t kind g⟩

/-- A list of keyed values, read by its keys. -/
theorem eq_map_find? {α : Type} (d : α) {es : List (Nat × α)} (nodup : (es.map (·.1)).Nodup) :
    es = (es.map (·.1)).map (fun l => (l, ((es.find? (fun e => e.1 == l)).map (·.2)).getD d)) := by
  rw [List.map_map]
  refine (List.map_id es).symm.trans (List.map_congr_left fun e he => ?_)
  have found : es.find? (fun x => x.1 == e.1) = some e := by
    obtain ⟨before, after, rfl⟩ := List.append_of_mem he
    rw [List.map_append, List.map_cons, List.nodup_middle, List.nodup_cons, List.mem_append, not_or] at nodup
    refine List.find?_eq_some_iff_append.2 ⟨beq_self_eq_true _, before, after, rfl, fun x hx => ?_⟩
    rw [Bool.not_eq_true', beq_eq_false_iff_ne]
    exact fun same => nodup.1.1 (same ▸ List.mem_map_of_mem hx)
  simp [found]

/-- A scan gives a result to each of its lanes. -/
theorem scanFrom_lanes (t : Ty) (md ctl : Nat) (vs : List (Nat × Word)) (acc : Option Word) (fl : Flags) :
    (scanFrom t md ctl acc fl vs).1.map (·.1) = vs.map (·.1) := by
  induction vs generalizing acc fl with
  | nil => rfl
  | cons v vs ih => exact congrArg (v.1 :: ·) (ih _ _)

/-- The operand of a reduction or scan in a lane. -/
def reductionArg (s : State) (c : Ctx) (f : Form) (l : Nat) : Word := src s c f 0 (formTy c f) (groupSigned (modOf f)) l

/-- What `lgred` gives a lane of group `g`, with the flags of its tree. -/
def treeResult (s : State) (c : Ctx) (f : Form) (g : Nat) : Word × Flags :=
  treeReduce (formTy c f) (modOf f) (controlOf f) ((List.range 32).map (fun k =>
    if (pathMask s c.pid).getLsbD (32 * g + k) = true then some (reductionArg s c f (32 * g + k), fNone) else none))

/-- The scan of a lane's group: the results by lane, and the flags. -/
def groupScan (s : State) (c : Ctx) (f : Form) (ls : List Nat) : List (Nat × Word) × Flags :=
  scanFrom (formTy c f) (modOf f) (controlOf f) none 0 (ls.map (fun j => (j, reductionArg s c f j)))

/-- What `lgscan` gives a lane, with the flags of its group's scan. -/
def scanResult (s : State) (c : Ctx) (f : Form) (l : Nat) : Word × Flags :=
  let r := groupScan s c f (participants s c.pid l)
  (((r.1.find? (fun e => e.1 == l)).map (·.2)).getD 0, r.2)

/-- The results of a group's scan are those of its lanes. -/
theorem groupScan_results (s : State) (c : Ctx) (f : Form) {g : Nat} (hg : g < 2) :
    let r := groupScan s c f (groupLanes s c.pid g)
    r.1.map (fun e => (e.1, e.2, r.2)) =
      (laneGroup (pathMask s c.pid) g).map (fun l => (l, (scanResult s c f l).1, (scanResult s c f l).2)) := by
  have lanes : (groupScan s c f (groupLanes s c.pid g)).1.map (·.1) = laneGroup (pathMask s c.pid) g := by
    rw [groupScan, scanFrom_lanes, List.map_map, ← groupLanes_eq s c.pid hg]
    exact List.map_id _
  have nodup : ((groupScan s c f (groupLanes s c.pid g)).1.map (·.1)).Nodup := by
    rw [lanes, ← groupLanes_eq s c.pid hg]
    exact (lanes_nodup _).filter _
  dsimp only
  rw [eq_map_find? 0 nodup, lanes, List.map_map]
  refine List.map_congr_left fun l hl => ?_
  have own : groupLanes s c.pid g = participants s c.pid l := by
    rw [← (mem_laneGroup.1 hl).2]
    rfl
  rw [own]
  rfl

section
variable {f : Form} {s : State} {c : Ctx} (issues : Issues s f c) (off : offSlotZero f)
include issues off

theorem execLgred_eq : exec (.lgred f) s = .next (withFlags s c f (formTy c f) 3
    ((actLanes s c.pid f).map (fun l => (l, (treeResult s c f (l / 32)).1, (treeResult s c f (l / 32)).2)))) := by
  rw [exec_lgred, execLgred, issuing_eq issues, actLanes_of_offSlotZero off]
  dsimp only
  refine congrArg (fun rs => Host.Outcome.next (withFlags s c f (formTy c f) 3 rs)) (List.map_congr_left fun l hl => ?_)
  have small := mem_lanes_lt hl
  split
  · next low => rw [Nat.div_eq_of_lt low]; rfl
  · next high => rw [show l / 32 = 1 by omega]; rfl

theorem execLgscan_eq : exec (.lgscan f) s = .next (withFlags s c f (formTy c f) 3
    ((actLanes s c.pid f).map (fun l => (l, (scanResult s c f l).1, (scanResult s c f l).2)))) := by
  rw [exec_lgscan, execLgscan, issuing_eq issues, actLanes_of_offSlotZero off, lanes_eq_groups, List.map_append,
    ← groupScan_results s c f (g := 0) (by decide), ← groupScan_results s c f (g := 1) (by decide)]
  rfl

end

/-- Settles O15: each result is the tree's or the scan's, and its flags are those of its whole group. -/
theorem floatReductionsFollowTheTree : Obligations.FloatReductionsFollowTheTree := by
  unfold Obligations.FloatReductionsFollowTheTree
  intro f s c issues canonical off _
  rw [execLgred_eq issues off, execLgscan_eq issues off]
  exact ⟨withFlags_flagged issues canonical _ 3 _, withFlags_flagged issues canonical _ 3 _⟩

end Sys2Proof.Machine
end

section
/-!
SUPPORT. O14: integer reductions, by the pairwise tree and in ascending lanes (R228, R229).
-/
namespace Sys2Proof.Machine

/-! ### Numbers of wrapped results (R166) -/

theorem zx_wrap {w : Nat} (hw : w ≤ 64) (t : Int) : (zx w (wrap w t) : Int) = t % (2 ^ w : Nat) := by
  have lt := Int.emod_lt_of_pos t (b := (2 ^ w : Nat)) (by positivity)
  have number := toNat_wrap hw t
  rw [zx, Nat.mod_eq_of_lt (by omega), number]

theorem zx_wrap_of_lt {w : Nat} (hw : w ≤ 64) {n : Nat} (h : n < 2 ^ w) : zx w (wrap w (n : Int)) = n := by
  rw [zx, toNat_wrap_of_lt hw h, Nat.mod_eq_of_lt h]

theorem sx_emod (w : Nat) (v : Word) : sx w v % (2 ^ w : Nat) = zx w v := by
  have small := zx_lt w v
  rw [sx]
  split
  · exact Int.emod_eq_of_lt (by omega) (by exact_mod_cast small)
  · rw [Int.sub_emod_right]
    exact Int.emod_eq_of_lt (by omega) (by exact_mod_cast small)

theorem sx_bounds {w : Nat} (hpos : 0 < w) (v : Word) : -2 ^ (w - 1) ≤ sx w v ∧ sx w v < 2 ^ (w - 1) := by
  rw [sx_eq_toInt hpos]
  exact ⟨BitVec.le_toInt _, BitVec.toInt_lt⟩

theorem getLsbD_lowBits {w i : Nat} (hi : i < w) (v : Word) : (lowBits w v).getLsbD i = v.getLsbD i := by
  rw [bitsAre_lowBits, decide_eq_true hi, Bool.true_and]

section
variable {w : Nat} (hw : w ≤ 64) (a b : Word)
include hw

theorem zx_addVal : zx w (addVal 0 w a b) = (zx w a + zx w b) % 2 ^ w := by
  have value : (zx w (wrap w (sx w a + sx w b)) : Int) = ((zx w a + zx w b : Nat) : Int) % (2 ^ w : Nat) := by
    rw [zx_wrap hw, Int.add_emod, sx_emod, sx_emod, Nat.cast_add]
  exact_mod_cast value

theorem zx_minVal : zx w (minVal 1 w a b) = min (zx w a) (zx w b) := by
  have wrapped : minVal 1 w a b = wrap w ((min (zx w a) (zx w b) : Nat) : Int) := congrArg (wrap w) (Nat.cast_min ..).symm
  rw [wrapped]
  exact zx_wrap_of_lt hw ((min_le_left ..).trans_lt (zx_lt w a))

theorem zx_maxVal : zx w (maxVal 1 w a b) = max (zx w a) (zx w b) := by
  have wrapped : maxVal 1 w a b = wrap w ((max (zx w a) (zx w b) : Nat) : Int) := congrArg (wrap w) (Nat.cast_max ..).symm
  rw [wrapped]
  exact zx_wrap_of_lt hw (max_lt (zx_lt w a) (zx_lt w b))

variable (hpos : 0 < w)
include hpos

theorem sx_minVal : sx w (minVal 0 w a b) = min (sx w a) (sx w b) :=
  sx_wrap_of_signed hw hpos (le_min (sx_bounds hpos a).1 (sx_bounds hpos b).1) ((min_le_left ..).trans_lt (sx_bounds hpos a).2)

theorem sx_maxVal : sx w (maxVal 0 w a b) = max (sx w a) (sx w b) :=
  sx_wrap_of_signed hw hpos ((sx_bounds hpos a).1.trans (le_max_left ..)) (max_lt (sx_bounds hpos a).2 (sx_bounds hpos b).2)

end

/-! ### Reductions of lists put together (R228) -/

/-- The least of two lists together is the lesser of their least. -/
theorem least_append {α : Type} [LinearOrder α] (key : Word → α) {xs ys : List Word} {a b v : Word} (value : key v = min (key a) (key b))
    (first : (∃ x ∈ xs, key a = key x) ∧ ∀ x ∈ xs, key a ≤ key x) (second : (∃ y ∈ ys, key b = key y) ∧ ∀ y ∈ ys, key b ≤ key y) :
    (∃ x ∈ xs ++ ys, key v = key x) ∧ ∀ x ∈ xs ++ ys, key v ≤ key x := by
  obtain ⟨⟨x, hx, ax⟩, leftmost⟩ := first
  obtain ⟨⟨y, hy, yb⟩, rightmost⟩ := second
  rw [value]
  refine ⟨?_, fun z hz => ?_⟩
  · rcases min_choice (key a) (key b) with least | least
    · exact ⟨x, List.mem_append_left _ hx, least.trans ax⟩
    · exact ⟨y, List.mem_append_right _ hy, least.trans yb⟩
  · rcases List.mem_append.1 hz with hz | hz
    · exact (min_le_left ..).trans (leftmost z hz)
    · exact (min_le_right ..).trans (rightmost z hz)

/-- The greatest of two lists together is the greater of their greatest. -/
theorem greatest_append {α : Type} [LinearOrder α] (key : Word → α) {xs ys : List Word} {a b v : Word}
    (value : key v = max (key a) (key b)) (first : (∃ x ∈ xs, key a = key x) ∧ ∀ x ∈ xs, key x ≤ key a)
    (second : (∃ y ∈ ys, key b = key y) ∧ ∀ y ∈ ys, key y ≤ key b) :
    (∃ x ∈ xs ++ ys, key v = key x) ∧ ∀ x ∈ xs ++ ys, key x ≤ key v :=
  least_append (α := αᵒᵈ) key value first second

theorem sum_append_mod (w : Nat) {xs ys : List Word} {a b v : Word} (value : zx w v = (zx w a + zx w b) % 2 ^ w)
    (first : zx w a = (xs.map (zx w)).sum % 2 ^ w) (second : zx w b = (ys.map (zx w)).sum % 2 ^ w) :
    zx w v = ((xs ++ ys).map (zx w)).sum % 2 ^ w := by
  rw [value, first, second, List.map_append, List.sum_append, ← Nat.add_mod]

theorem foldl_bne_append (xs ys : List Bool) : (xs ++ ys).foldl (fun a b => a != b) false =
    (xs.foldl (fun a b => a != b) false != ys.foldl (fun a b => a != b) false) := by
  have start (x : Bool) : ys.foldl (fun a b => a != b) x = (x != ys.foldl (fun a b => a != b) false) := by
    rw [← List.foldl_assoc (op := fun a b : Bool => a != b), Bool.bne_false]
  rw [List.foldl_append, start]

/-- What an integer operation makes of two values (R228). -/
def combineInt (md w : Nat) (a b : Word) : Word :=
  match md with
  | 0 => addVal 0 w a b
  | 1 => minVal 0 w a b
  | 2 => minVal 1 w a b
  | 3 => maxVal 0 w a b
  | 4 => maxVal 1 w a b
  | 5 => andVal w a b
  | 6 => orVal w a b
  | _ => xorVal w a b

theorem isReduction_singleton (md w : Nat) (v : Word) : IsReduction md w [v] v := by
  unfold IsReduction
  split
  · simp [Nat.mod_eq_of_lt (zx_lt w v)]
  all_goals simp

section
variable {t : Ty} (int : isInt t = true)
include int

theorem not_isFloat_of_isInt : isFloat t = false := by
  simp only [isInt, Bool.or_eq_true, beq_iff_eq, or_assoc] at int
  rcases int with rfl | rfl | rfl | rfl <;> rfl

theorem combine_of_isInt (md ctl : Nat) (a b : Word) : combine t md ctl a b = (combineInt md (tyWidth t) a b, fNone) :=
  if_neg (by rw [not_isFloat_of_isInt int]; decide)

end

/-- Combining the reductions of two lists reduces the lists put together. -/
theorem isReduction_combineInt {w : Nat} (width : w ≤ 64) (pos : 0 < w) {md : Nat} (mods : md < 8) {xs ys : List Word} {a b : Word}
    (first : IsReduction md w xs a) (second : IsReduction md w ys b) : IsReduction md w (xs ++ ys) (combineInt md w a b) := by
  obtain rfl | rfl | rfl | rfl | rfl | rfl | rfl | rfl :
    md = 0 ∨ md = 1 ∨ md = 2 ∨ md = 3 ∨ md = 4 ∨ md = 5 ∨ md = 6 ∨ md = 7 := by omega
  all_goals simp only [IsReduction, combineInt] at first second ⊢
  · exact sum_append_mod w (zx_addVal width a b) first second
  · exact least_append (sx w) (sx_minVal width a b pos) first second
  · exact least_append (zx w) (zx_minVal width a b) first second
  · exact greatest_append (sx w) (sx_maxVal width a b pos) first second
  · exact greatest_append (zx w) (zx_maxVal width a b) first second
  · intro i hi
    rw [List.all_append, ← first i hi, ← second i hi]
    exact (getLsbD_lowBits hi _).trans BitVec.getLsbD_and
  · intro i hi
    rw [List.any_append, ← first i hi, ← second i hi]
    exact (getLsbD_lowBits hi _).trans BitVec.getLsbD_or
  · intro i hi
    rw [List.map_append, foldl_bne_append, ← first i hi, ← second i hi]
    exact (getLsbD_lowBits hi _).trans BitVec.getLsbD_xor

/-! ### Reductions of the participants seen so far -/

/-- What has been combined of the values `vs`: nothing of none, else their reduction. -/
def Reduced (md w : Nat) (vs : List Word) (o : Option Word) : Prop :=
  match o with
  | none => vs = []
  | some v => vs ≠ [] ∧ IsReduction md w vs v

/-! ### The tree (R229) -/

/-- A place of the tree over the values `vs`, which has raised nothing. -/
def TreePlace (md w : Nat) (vs : List Word) (o : Option (Word × Flags)) : Prop :=
  Reduced md w vs (o.map (·.1)) ∧ ∀ r ∈ o, r.2 = fNone

/-- A level of the tree, whose places stand over the values `vs` in order. -/
def TreeLevel (md w : Nat) : List Word → List (Option (Word × Flags)) → Prop
  | vs, [] => vs = []
  | vs, o :: r => ∃ own rest, vs = own ++ rest ∧ TreePlace md w own o ∧ TreeLevel md w rest r

/-- The lowest level: the participants' operands. -/
theorem level_participants (md w : Nat) (y : Nat → Word) (p : Nat → Bool) (ks : List Nat) :
    TreeLevel md w ((ks.filter p).map y) (ks.map (fun k => if p k = true then some (y k, fNone) else none)) := by
  induction ks with
  | nil => rfl
  | cons k ks ih =>
    by_cases named : p k = true
    · rw [List.filter_cons_of_pos named, List.map_cons, List.map_cons, if_pos named]
      exact ⟨[y k], _, rfl, ⟨⟨by simp, isReduction_singleton ..⟩, by simp⟩, ih⟩
    · rw [List.filter_cons_of_neg named, List.map_cons, if_neg named]
      exact ⟨[], _, rfl, ⟨rfl, by simp⟩, ih⟩

theorem length_treeLevel (t : Ty) (md ctl : Nat) (n : List (Option (Word × Flags))) :
    (treeLevel t md ctl n).length = (n.length + 1) / 2 := by
  induction n using treeLevel.induct with
  | case1 a b r ih =>
    rw [treeLevel, List.length_cons, ih, List.length_cons, List.length_cons]
    omega
  | case2 n short =>
    rw [treeLevel]
    · match n with
      | [] | [_] => simp
      | a :: b :: r => exact (short a b r rfl).elim
    · exact short

section
variable {t : Ty} (int : isInt t = true) {md : Nat} (mods : md < 8)
include int mods

theorem place_combineOpt (ctl : Nat) {xs ys : List Word} {a b : Option (Word × Flags)} (first : TreePlace md (tyWidth t) xs a)
    (second : TreePlace md (tyWidth t) ys b) : TreePlace md (tyWidth t) (xs ++ ys) (combineOpt t md ctl a b) := by
  obtain ⟨reduced_a, unraised_a⟩ := first
  obtain ⟨reduced_b, unraised_b⟩ := second
  cases a with
  | none =>
    rw [show xs = [] from reduced_a]
    exact ⟨reduced_b, unraised_b⟩
  | some a => cases b with
    | none =>
      rw [show ys = [] from reduced_b, List.append_nil]
      exact ⟨reduced_a, unraised_a⟩
    | some b =>
      obtain ⟨some_a, reduction_a⟩ := reduced_a
      obtain ⟨-, reduction_b⟩ := reduced_b
      simp only [TreePlace, combineOpt, combine_of_isInt int, unraised_a a rfl, unraised_b b rfl]
      refine ⟨⟨by simp [some_a], ?_⟩, ?_⟩
      · exact isReduction_combineInt (tyWidth_le t) (tyWidth_pos_of_isInt int) mods reduction_a reduction_b
      · rintro r ⟨⟩
        rfl

/-- Going up a level leaves the values that it stands over. -/
theorem level_treeLevel (ctl : Nat) (n : List (Option (Word × Flags))) {vs : List Word} (level : TreeLevel md (tyWidth t) vs n) :
    TreeLevel md (tyWidth t) vs (treeLevel t md ctl n) := by
  induction n using treeLevel.induct generalizing vs with
  | case1 a b r ih =>
    obtain ⟨xs, _, rfl, first, ys, zs, rfl, second, rest⟩ := level
    exact ⟨xs ++ ys, zs, (List.append_assoc ..).symm, place_combineOpt int mods ctl first second, ih rest⟩
  | case2 n short =>
    rwa [treeLevel]
    exact short

/-- Five levels over 32 places leave one, the reduction of all the values. -/
theorem treeReduce_reduces (ctl : Nat) {n : List (Option (Word × Flags))} {vs : List Word} (level : TreeLevel md (tyWidth t) vs n)
    (places : n.length = 32) :
    (vs ≠ [] → IsReduction md (tyWidth t) vs (treeReduce t md ctl n).1) ∧ (treeReduce t md ctl n).2 = fNone := by
  have up {n : List (Option (Word × Flags))} := level_treeLevel int mods ctl n (vs := vs)
  have top := up (up (up (up (up level))))
  rw [treeReduce]
  obtain ⟨o, one⟩ : ∃ o, treeLevel t md ctl (treeLevel t md ctl (treeLevel t md ctl (treeLevel t md ctl (treeLevel t md ctl n)))) = [o] :=
    List.length_eq_one_iff.1 (by simp only [length_treeLevel, places])
  rw [one] at top ⊢
  obtain ⟨own, _, rfl, ⟨reduced, unraised⟩, rfl⟩ := top
  rw [List.append_nil]
  cases o with
  | none => exact ⟨fun some => absurd reduced some, rfl⟩
  | some r => exact ⟨fun _ => reduced.2, unraised r rfl⟩

end

/-! ### The scan (R229) -/

/-- A value that joins what has been combined before it, with the flags that it raises. -/
def scanJoin (t : Ty) (md ctl : Nat) (acc : Option Word) (v : Word) : Word × Flags :=
  match acc with
  | none => (v, fNone)
  | some a => combine t md ctl a v

/-- What a scan has combined after the values `vs`. -/
def scanAcc (t : Ty) (md ctl : Nat) (acc : Option Word) (vs : List Word) : Option Word :=
  vs.foldl (fun acc v => some (scanJoin t md ctl acc v).1) acc

/-- The result of a lane whose operand is `v`, when `acc` has been combined before it. -/
def scanGives (t : Ty) (md ctl : Nat) (acc : Option Word) (v : Word) : Word :=
  if ctl % 2 = 1 then acc.getD (scanIdentity t md) else (scanJoin t md ctl acc v).1

theorem scanFrom_cons (t : Ty) (md ctl : Nat) (acc : Option Word) (fl : Flags) (l : Nat) (v : Word) (r : List (Nat × Word)) :
    scanFrom t md ctl acc fl ((l, v) :: r) =
      let rest := scanFrom t md ctl (some (scanJoin t md ctl acc v).1) (fl ||| (scanJoin t md ctl acc v).2) r
      ((l, scanGives t md ctl acc v) :: rest.1, rest.2) := by
  cases acc <;> rfl

/-- A lane of a scan finds its result under its own number. -/
theorem scanFrom_find? (t : Ty) (md ctl : Nat) (x : Nat → Word) {before : List Nat} {l : Nat} (new : l ∉ before) (after : List Nat)
    (acc : Option Word) (fl : Flags) :
    (scanFrom t md ctl acc fl ((before ++ l :: after).map (fun j => (j, x j)))).1.find? (fun e => e.1 == l) =
      some (l, scanGives t md ctl (scanAcc t md ctl acc (before.map x)) (x l)) := by
  induction before generalizing acc fl with
  | nil =>
    rw [List.nil_append, List.map_cons, scanFrom_cons]
    exact List.find?_cons_of_pos (beq_self_eq_true l)
  | cons b bs ih =>
    rw [List.mem_cons, not_or] at new
    rw [List.cons_append, List.map_cons, scanFrom_cons]
    exact (List.find?_cons_of_neg (by simp [Ne.symm new.1])).trans (ih new.2 ..)

section
variable {t : Ty} (int : isInt t = true)
include int

theorem scanFrom_flags_of_isInt (md ctl : Nat) (vs : List (Nat × Word)) (acc : Option Word) :
    (scanFrom t md ctl acc fNone vs).2 = fNone := by
  induction vs generalizing acc with
  | nil => rfl
  | cons v vs ih =>
    have unraised : (scanJoin t md ctl acc v.2).2 = fNone := by
      cases acc with
      | none => rfl
      | some a => rw [scanJoin, combine_of_isInt int]
    rw [scanFrom_cons, unraised]
    exact ih _

variable {md : Nat} (mods : md < 8)
include mods

theorem reduced_scanJoin (ctl : Nat) {vs : List Word} {acc : Option Word} (reduced : Reduced md (tyWidth t) vs acc) (v : Word) :
    IsReduction md (tyWidth t) (vs ++ [v]) (scanJoin t md ctl acc v).1 := by
  cases acc with
  | none =>
    rw [show vs = [] from reduced]
    exact isReduction_singleton ..
  | some a =>
    rw [scanJoin, combine_of_isInt int]
    exact isReduction_combineInt (tyWidth_le t) (tyWidth_pos_of_isInt int) mods reduced.2 (isReduction_singleton ..)

theorem reduced_scanAcc (ctl : Nat) (vs : List Word) : Reduced md (tyWidth t) vs (scanAcc t md ctl none vs) := by
  induction vs using List.reverseRecOn with
  | nil => rfl
  | append_singleton vs v ih =>
    rw [scanAcc, List.foldl_concat]
    exact ⟨by simp, reduced_scanJoin int mods ctl ih v⟩

/-- The identity of an exclusive scan, as a number. -/
theorem zx_scanIdentity : zx (tyWidth t) (scanIdentity t md) = reductionIdentity md (tyWidth t) := by
  have each : ∀ t ∈ [Ty.i8, .i16, .i32, .i64], ∀ md < 8, zx (tyWidth t) (scanIdentity t md) = reductionIdentity md (tyWidth t) := by
    decide
  refine each t ?_ md mods
  simpa [isInt, or_assoc] using int

end

/-! ### The instructions -/

/-- Of ascending lanes, those up to one of them, or below it. -/
theorem filter_upTo {before after : List Nat} {l : Nat} (sorted : (before ++ l :: after).Pairwise (· < ·)) (inclusive : Bool) :
    (before ++ l :: after).filter (fun j => decide (j < l) || (j == l && inclusive)) = before ++ if inclusive then [l] else [] := by
  obtain ⟨-, rest, across⟩ := List.pairwise_append.1 sorted
  have above := (List.pairwise_cons.1 rest).1
  have kept : before.filter (fun j => decide (j < l) || (j == l && inclusive)) = before :=
    List.filter_eq_self.2 fun j hj => by simp [across j hj l List.mem_cons_self]
  have dropped : after.filter (fun j => decide (j < l) || (j == l && inclusive)) = [] :=
    List.filter_eq_nil_iff.2 fun j hj => by simp [(above j hj).ne', (above j hj).le]
  rw [List.filter_append, List.filter_cons, kept, dropped]
  cases inclusive <;> simp

theorem participants_sorted (s : State) (pid l : Nat) : (participants s pid l).Pairwise (· < ·) :=
  (List.pairwise_lt_range.filter _).filter _

/-- Where no lane raises a flag, none is raised. -/
theorem flagsOf_unraised (s : State) (c : Ctx) (f : Form) {g : Nat → Word × Flags} (unraised : ∀ l, (g l).2 = 0) :
    ∀ r ∈ flagsOf s c f g, r.2 = 0 := by
  have plain : ∀ r ∈ ((actLanes s c.pid f).map (fun l => (l, (g l).1, (g l).2))).map (fun r => (r.1, r.2.2)), r.2 = 0 := by
    simp [unraised]
  unfold flagsOf flagLanes
  cases f with
  | p w => exact plain
  | n w =>
    dsimp only
    split
    · cases actLanes s c.pid (.n w) <;> simp [unraised]
    · exact plain

theorem orFlags_foldl_unraised (pid : Nat) (fls : List (Nat × Flags)) (s : State) (unraised : ∀ r ∈ fls, r.2 = 0) :
    fls.foldl (fun s r => orFlags s (threadKey pid r.1) r.2) s = s := by
  induction fls with
  | nil => rfl
  | cons a as ih =>
    rw [List.foldl_cons, orFlags, if_pos (unraised a List.mem_cons_self)]
    exact ih fun r hr => unraised r (List.mem_cons_of_mem _ hr)

/-- An operation that raises nothing computes its results, and leaves the threads. -/
theorem withFlags_computes_of_unraised {f : Form} {s : State} {c : Ctx} (issues : Issues s f c) (canonical : Canonical s) (t : Ty)
    (kind : Nat) {g : Nat → Word × Flags} (unraised : ∀ l, (g l).2 = fNone) :
    Computes s c f (dstOf c f t) (fun l => (g l).1)
      (.next (withFlags s c f t kind ((actLanes s c.pid f).map (fun l => (l, (g l).1, (g l).2))))) := by
  have zero := flagsOf_unraised s c f unraised
  have untrapped : (trapping s c (flagsOf s c f g)).isEmpty = true := by
    rw [List.isEmpty_iff, trapping, List.filter_eq_nil_iff]
    exact fun r hr => by simp [zero r hr]
  have written : withFlags s c f t kind ((actLanes s c.pid f).map (fun l => (l, (g l).1, (g l).2))) =
      finish (putLanes ((flagsOf s c f g).foldl (fun s r => orFlags s (threadKey c.pid r.1) r.2) s) c.pid (dstOf c f t)
        (((actLanes s c.pid f).map (fun l => (l, (g l).1, (g l).2))).map (fun r => (r.1, r.2.1)))) c f :=
    if_pos untrapped
  rw [written, orFlags_foldl_unraised _ _ _ zero, List.map_map]
  exact computes_finish_putLanes issues canonical _ _

section
variable {f : Form} {s : State} {c : Ctx} (int : isInt (formTy c f) = true) (mods : modOf f < 8)
include int mods

theorem treeResult_reduces {l : Nat} (hl : l ∈ (pathMask s c.pid).lanes) :
    IsReduction (modOf f) (tyWidth (formTy c f)) ((participants s c.pid l).map (reductionArg s c f)) (treeResult s c f (l / 32)).1 := by
  have own : l ∈ participants s c.pid l := mem_participants.2 ⟨mem_lanes.1 hl, rfl⟩
  have level := level_participants (modOf f) (tyWidth (formTy c f)) (fun k => reductionArg s c f (32 * (l / 32) + k))
    (fun k => (pathMask s c.pid).getLsbD (32 * (l / 32) + k)) (List.range 32)
  have values : (participants s c.pid l).map (reductionArg s c f) =
      ((List.range 32).filter (fun k => (pathMask s c.pid).getLsbD (32 * (l / 32) + k))).map
        (fun k => reductionArg s c f (32 * (l / 32) + k)) := by
    rw [participants_eq s c.pid (mem_lanes_lt hl), laneGroup, List.map_map]
    rfl
  rw [← values] at level
  exact (treeReduce_reduces int mods (controlOf f) level (by simp)).1 (List.ne_nil_of_mem (List.mem_map_of_mem own))

theorem scanResult_reduces {l : Nat} (hl : l ∈ (pathMask s c.pid).lanes) :
    let upTo := (participants s c.pid l).filter (fun j => decide (j < l) || (j == l && controlOf f % 2 == 0))
    if upTo = [] then zx (tyWidth (formTy c f)) (scanResult s c f l).1 = reductionIdentity (modOf f) (tyWidth (formTy c f))
    else IsReduction (modOf f) (tyWidth (formTy c f)) (upTo.map (reductionArg s c f)) (scanResult s c f l).1 := by
  obtain ⟨before, after, whole⟩ := List.append_of_mem (mem_participants.2 ⟨mem_lanes.1 hl, rfl⟩ : l ∈ participants s c.pid l)
  have sorted := participants_sorted s c.pid l
  rw [whole] at sorted
  have new : l ∉ before := fun h => lt_irrefl l ((List.pairwise_append.1 sorted).2.2 l h l List.mem_cons_self)
  have acc := reduced_scanAcc int mods (controlOf f) (before.map (reductionArg s c f))
  have value : (scanResult s c f l).1 = scanGives (formTy c f) (modOf f) (controlOf f)
      (scanAcc (formTy c f) (modOf f) (controlOf f) none (before.map (reductionArg s c f))) (reductionArg s c f l) := by
    rw [scanResult, groupScan, whole, scanFrom_find? _ _ _ _ new]
    rfl
  dsimp only
  rw [whole, filter_upTo sorted, value, scanGives]
  by_cases exclusive : controlOf f % 2 = 1
  · have strict : (controlOf f % 2 == 0) = false := by rw [exclusive]; rfl
    rw [strict, if_neg Bool.false_ne_true, List.append_nil, if_pos exclusive]
    cases combined : scanAcc (formTy c f) (modOf f) (controlOf f) none (before.map (reductionArg s c f)) with
    | none =>
      rw [combined] at acc
      rw [if_pos (List.map_eq_nil_iff.1 acc)]
      exact zx_scanIdentity int mods
    | some v =>
      rw [combined] at acc
      rw [if_neg (mt List.map_eq_nil_iff.2 acc.1)]
      exact acc.2
  · have inclusive : (controlOf f % 2 == 0) = true := by rw [beq_iff_eq]; omega
    rw [inclusive, if_pos rfl, if_neg (by simp), if_neg exclusive, List.map_append]
    exact reduced_scanJoin int mods _ acc _

theorem treeResult_unraised (g : Nat) : (treeResult s c f g).2 = fNone :=
  (treeReduce_reduces int mods _ (level_participants ..) (by simp)).2

omit mods in
theorem scanResult_unraised (l : Nat) : (scanResult s c f l).2 = fNone :=
  scanFrom_flags_of_isInt int ..

end

/-- Settles O14: the tree and the scan reduce what they have combined, and integer operations raise nothing. -/
theorem integerReductionsAndScans : Obligations.IntegerReductionsAndScans := by
  unfold Obligations.IntegerReductionsAndScans
  intro f s c issues canonical off int mods
  rw [execLgred_eq issues off, execLgscan_eq issues off]
  exact ⟨⟨_, fun l hl => treeResult_reduces int mods hl,
      withFlags_computes_of_unraised issues canonical _ 3 fun l => treeResult_unraised int mods (l / 32)⟩,
    ⟨_, fun l hl => scanResult_reduces int mods hl,
      withFlags_computes_of_unraised issues canonical _ 3 fun l => scanResult_unraised int l⟩⟩

end Sys2Proof.Machine
end

section
/-!
SUPPORT. O28: what a fixed function makes of its special operands in each format (R230, R232).
-/
namespace Sys2Proof.Machine

/-! ### Exact widening to `f32` (R214, R230) -/

/-- A value of at most the format's precision, not below its smallest unit, rounds to itself: its code counts the binades above the
subnormals, and then units. -/
theorem round_exact {f : Fmt} (ieee : f.Ieee) (r : Rnd) (neg : Bool) {m : Nat} {e : Int} (precision : bitLen m ≤ f.p) (low : f.qsub ≤ e) :
    let unit := (bitLen m : Int) + e - f.p
    ∃ tiny, f.round r neg m e false =
      ((unit - f.qsub).toNat * 2 ^ (f.p - 1) + m * 2 ^ (e - max unit f.qsub).toNat, false, tiny) := by
  have own : (bitLen m : Int) + e - 1 - ((f.p : Int) - 1) = (bitLen m : Int) + e - f.p := by omega
  have below : (bitLen m : Int) + e - f.p ≤ e := by omega
  dsimp only
  rw [Fmt.round]
  simp only [ieee.kind, own, OfNat.zero_ne_ofNat, if_false, roundAt_of_le below, roundAt_of_le low]
  split
  · next normal =>
    rw [max_eq_left normal]
    exact ⟨_, rfl⟩
  · next subnormal =>
    have least : ((bitLen m : Int) + e - f.p - f.qsub).toNat = 0 := by omega
    rw [max_eq_right (by omega), least, zero_mul, zero_add]
    exact ⟨_, rfl⟩

/-- A value that `f32` has room for is a magnitude code other than zero and infinity. -/
theorem fmtF32_finish {m : Nat} {e : Int} (pos : 0 < m) (precision : bitLen m ≤ 24) (low : -149 ≤ e) (high : bitLen m + e ≤ 128)
    (neg : Bool) :
    ∃ c, 0 < c ∧ c ≤ fmtF32.cmax ∧ (fmtF32.finish rne false neg m e false).1 = fmtF32.code neg c := by
  have ieee : fmtF32.Ieee := (ieee_fmtOf (t := .f32) rfl).1
  have qsub : fmtF32.qsub = -149 := rfl
  have p : fmtF32.p = 24 := rfl
  obtain ⟨tiny, rounds⟩ := round_exact ieee rne neg precision low
  simp only [qsub, p, Nat.cast_ofNat] at rounds
  generalize binades : ((bitLen m : Int) + e - 24 - -149).toNat = n at rounds
  generalize shift : (e - max ((bitLen m : Int) + e - 24) (-149)).toNat = k at rounds
  have units : m * 2 ^ k < 2 ^ 24 := calc
    _ < 2 ^ bitLen m * 2 ^ k := Nat.mul_lt_mul_of_pos_right (bitLen_bits m).1 (Nat.two_pow_pos k)
    _ ≤ 2 ^ 24 := by
      rw [← pow_add]
      exact Nat.pow_le_pow_right (by decide) (by omega)
  have some := Nat.mul_pos pos (Nat.two_pow_pos k)
  have range : n * 2 ^ (24 - 1) + m * 2 ^ k ≤ fmtF32.cmax := by
    rw [show fmtF32.cmax = 2139095039 from rfl]
    omega
  exact ⟨_, Nat.add_pos_right _ some, range, congrArg Prod.fst (finish_of_round ieee rne neg rounds range false)⟩

/-- The code of a finite nonzero magnitude decodes to a value of its sign. -/
theorem decode_fmtF32_code (neg : Bool) {c : Nat} (pos : 0 < c) (range : c ≤ fmtF32.cmax) :
    ∃ m e, fmtF32.decode (fmtF32.code neg c) = .fin neg m e := by
  have kind : fmtF32.kind = 0 := rfl
  have small : c < 2 ^ 31 := range.trans_lt (by decide)
  obtain ⟨fits, magnitude, sign⟩ : fmtF32.code neg c < 2 ^ 32 ∧ fmtF32.code neg c % 2 ^ 31 = c ∧
      (fmtF32.code neg c).testBit 31 = neg := by
    cases neg with
    | false => exact ⟨small.trans (by decide), Nat.mod_eq_of_lt small, Nat.testBit_lt_two_pow small⟩
    | true =>
      rw [show fmtF32.code true c = 2 ^ 31 + c from rfl]
      refine ⟨by omega, by omega, ?_⟩
      rw [Nat.testBit_two_pow_add_eq, Nat.testBit_lt_two_pow small]
      rfl
  have decoded : fmtF32.decode (fmtF32.code neg c) = fmtF32.mag neg c := by
    have width : fmtF32.w = 32 := rfl
    have largest : fmtF32.cmax = 2139095039 := rfl
    simp only [Fmt.decode, kind, width, if_true, Nat.mod_eq_of_lt fits, Nat.reduceSub, magnitude, sign]
    rw [if_neg (by omega), if_neg (by omega)]
  rw [decoded, Fmt.mag]
  simp only [kind, OfNat.zero_ne_ofNat, if_false, pos.ne']
  split <;> exact ⟨_, _, rfl⟩

/-- What the codes of an IEEE format stand for: magnitudes of its precision, `k` binades above the subnormals, up to its largest code. -/
theorem fin_of_ieee {f : Fmt} (ieee : f.Ieee) {a : Nat} {neg : Bool} {m : Nat} {e : Int} (value : f.decode a = .fin neg m e) :
    0 < m ∧ bitLen m ≤ f.p ∧ ∃ k : Nat, e = f.qsub + k ∧ k * 2 ^ (f.p - 1) + m ≤ f.cmax ∧ (k = 0 ∨ 2 ^ (f.p - 1) ≤ m) := by
  have low : f.decode (a % 2 ^ f.w) = f.decode a := by simp only [Fmt.decode, Nat.mod_mod]
  obtain ⟨range, mag⟩ := mag_of_decode ieee (Nat.mod_lt a (Nat.two_pow_pos f.w)) (low.trans value)
  generalize a % 2 ^ f.w % 2 ^ (f.w - 1) = c at range mag
  obtain ⟨-, ⟨small, rfl, rfl⟩ | ⟨k, least, small, rfl, rfl⟩⟩ := mag_eq_fin ieee mag
  · refine ⟨Nat.pos_of_ne_zero fun zero => ?_, bitLen_le (small.trans_le (Nat.pow_le_pow_right (by decide) (Nat.sub_le ..))), 0,
      (add_zero _).symm, by omega, .inl rfl⟩
    rw [zero, Fmt.mag] at mag
    simp [ieee.kind] at mag
  · exact ⟨(Nat.two_pow_pos _).trans_le least, bitLen_le small, k, rfl, range, .inr least⟩

/-- The values of the narrow formats have room in `f32`. -/
theorem fin_of_narrow {t : Ty} (narrow : t = .f16 ∨ t = .bf16) {a : Nat} {neg : Bool} {m : Nat} {e : Int}
    (value : (fmtOf t).decode a = .fin neg m e) : 0 < m ∧ bitLen m ≤ 24 ∧ -149 ≤ e ∧ bitLen m + e ≤ 128 := by
  obtain rfl | rfl := narrow
  · obtain ⟨pos, precision, k, rfl, range, -⟩ := fin_of_ieee (ieee_fmtOf (t := .f16) rfl).1 value
    simp only [fmtOf, fmtF16, Fmt.qsub] at precision range ⊢
    omega
  · obtain ⟨pos, precision, k, rfl, range, least⟩ := fin_of_ieee (ieee_fmtOf (t := .bf16) rfl).1 value
    simp only [fmtOf, fmtBf16, Fmt.qsub] at precision range least ⊢
    omega

/-! ### Special operands (R230, R232) -/

/-- A value without its magnitude: what R232 asks of an operand. -/
def FVal.withoutMagnitude : FVal → FVal
  | .fin neg _ _ => .fin neg 0 0
  | v => v

/-- The `f32` operand that `sf.eval` makes of a code of its TYPE (R230). -/
def sfOperand (t : Ty) (a : Nat) : Nat :=
  if t == .f32 then a else if ((fmtOf t).decode a).isSnan then 0x7FA00000 else (fmtF32.convert (fmtOf t) rne false a).1

/-- The types of `sf.eval`. -/
abbrev SfTy (t : Ty) : Prop := t = .f32 ∨ t = .f16 ∨ t = .bf16

/-- Conversion to `f32` keeps NaNs, infinities, zeros and signs. -/
theorem decode_sfOperand {t : Ty} (ty : SfTy t) (a : Nat) :
    (fmtF32.decode (sfOperand t a)).withoutMagnitude = ((fmtOf t).decode a).withoutMagnitude := by
  rcases ty with rfl | narrow
  · rfl
  have converted : sfOperand t a =
      if ((fmtOf t).decode a).isSnan then 0x7FA00000 else (fmtF32.convert (fmtOf t) rne false a).1 := by
    rcases narrow with rfl | rfl <;> rfl
  have kind : fmtF32.kind = 0 := rfl
  rw [converted, Fmt.convert]
  cases value : (fmtOf t).decode a with
  | nan signals => cases signals <;> decide
  | inf neg => cases neg <;> decide
  | zero neg => cases neg <;> decide
  | fin neg m e =>
    obtain ⟨pos, precision, low, high⟩ := fin_of_narrow narrow value
    obtain ⟨c, some, range, code⟩ := fmtF32_finish pos precision low high neg
    obtain ⟨m', e', decoded⟩ := decode_fmtF32_code neg some range
    simp only [FVal.isSnan, kind, OfNat.zero_ne_ofNat, false_and, if_false, Bool.false_eq_true, code, decoded]
    rfl

/-- The results of R232, in no format. -/
inductive SfResult where
  | nan
  | inf (neg : Bool)
  | zero (neg : Bool)
  | one

/-- The code of a special result in a format. -/
def SfResult.code (m : Fmt) : SfResult → Nat
  | .nan => m.nan
  | .inf neg => m.infCode neg
  | .zero neg => m.zero neg
  | .one => m.ofImm 1

/-- The table of R232, in no format. -/
def sfResult (fn : Nat) (x : FVal) : Option (SfResult × Flags) :=
  match fn, x with
  | _, .nan sg => some (.nan, if sg then fInvalid else fNone)
  | 0, .inf n => some (if n then .zero false else .inf false, fNone)
  | 0, .zero _ => some (.one, fNone)
  | 1, .inf n => some (if n then (.nan, fInvalid) else (.inf false, fNone))
  | 1, .zero _ => some (.inf true, fDivZero)
  | 1, .fin true _ _ => some (.nan, fInvalid)
  | 2, .inf n => some (.zero n, fNone)
  | 2, .zero n => some (.inf n, fDivZero)
  | 3, .inf n => some (if n then (.nan, fInvalid) else (.zero false, fNone))
  | 3, .zero n => some (.inf n, fDivZero)
  | 3, .fin true _ _ => some (.nan, fInvalid)
  | 4, .inf _ => some (.nan, fInvalid)
  | 4, .zero n => some (.zero n, fNone)
  | 5, .inf _ => some (.nan, fInvalid)
  | 5, .zero _ => some (.one, fNone)
  | _, _ => none

/-- The table gives each format its own codes. -/
theorem sfSpecial_eq (m : Fmt) (fn : Nat) (x : FVal) :
    sfSpecial m fn x = (sfResult fn x).map (fun r => (r.1.code m, r.2)) := by
  cases x with
  | nan sg => rfl
  | inf n | zero n | fin n m e => cases n <;> match fn with
    | 0 | 1 | 2 | 3 | 4 | 5 | _ + 6 => rfl

/-- No magnitude enters the table. -/
theorem sfResult_withoutMagnitude (fn : Nat) (x : FVal) : sfResult fn x.withoutMagnitude = sfResult fn x := by
  cases x with
  | nan | inf | zero => rfl
  | fin n m e => cases n <;> match fn with
    | 0 | 1 | 2 | 3 | 4 | 5 | _ + 6 => rfl

/-- The fixed functions obey the table. -/
theorem fixedFn_of_sfResult {fn a : Nat} {r : SfResult × Flags} (special : sfResult fn (fmtF32.decode a) = some r) :
    fixedFn fn a = (r.1.code fmtF32, r.2) := by
  unfold fixedFn
  dsimp only
  cases value : fmtF32.decode a with
  | nan sg =>
    rw [value] at special
    obtain rfl := Option.some.inj special
    rfl
  | inf n | zero n | fin n m e =>
    rw [value] at special
    cases n <;> match fn with
      | 0 | 1 | 2 | 3 | 4 | 5 | _ + 6 => cases special <;> rfl

/-- A special result has its own code in the format that it is rounded to, and rounding raises nothing. -/
theorem roundTo_code {t : Ty} (ty : SfTy t) (v : SfResult) (fl : Flags) :
    roundTo t (v.code fmtF32) fl = (BitVec.ofNat 64 (v.code (fmtOf t)), fl) := by
  rcases ty with rfl | narrow
  · rfl
  have converted : (fmtOf t).convert fmtF32 rne false (v.code fmtF32) = (v.code (fmtOf t), fNone) := by
    rcases narrow with rfl | rfl
    all_goals cases v with
      | nan | one => decide
      | inf neg | zero neg => cases neg <;> decide
  have rounds : (t == .f32) = false := by
    rcases narrow with rfl | rfl <;> rfl
  simp [roundTo, rounds, converted, fNone]

end Sys2Proof.Machine
end

section
/-!
SUPPORT. O28: `sf.eval` in each lane (R230, R235), and `sf.load` of a record that has been read (R237).
-/
namespace Sys2Proof.Machine

/-! ### `sf.eval` (R230, R235) -/

/-- What `sf.eval` gives a lane, before it is rounded to TYPE. -/
def sfValue (s : State) (c : Ctx) (f : Form) (l : Nat) : Nat × Flags :=
  let x := sfOperand (formTy c f) (src s c f 0 (formTy c f) false l).toNat
  let core := coreOfWarp c.warp
  if modOf f = 6 then tabFn s core (bankNat (sfAt s core).cur) x else fixedFn (modOf f) x

/-- The result of `sf.eval` in a lane. -/
def sfLane (s : State) (c : Ctx) (f : Form) (l : Nat) : Word × Flags :=
  roundTo (formTy c f) (sfValue s c f l).1 (sfValue s c f l).2

/-- Whether the bank that is current is valid. -/
def bankValid (s : State) (core : Nat) : Bool := if (sfAt s core).cur = true then (sfAt s core).valid1 else (sfAt s core).valid0

theorem tabFn_of_nan (s : State) (core b : Nat) {x : Nat} {signals : Bool} (nan : fmtF32.decode x = .nan signals) :
    tabFn s core b x = (SfResult.nan.code fmtF32, if signals then fInvalid else fNone) := by
  rw [tabFn, nan]
  cases signals <;> rfl

/-- The table function raises nothing for a number. -/
theorem tabFn_flags_of_number (s : State) (core b : Nat) {x : Nat} (number : (fmtF32.decode x).isNan = false) :
    (tabFn s core b x).2 = fNone := by
  rw [tabFn]
  dsimp only
  rw [number, if_neg Bool.false_ne_true]
  repeat' split
  all_goals rfl

section
variable {f : Form} {s : State} {c : Ctx} (issues : Issues s f c)
include issues

theorem execSfEval_of_valid (off : offSlotZero f) (valid : modOf f = 6 → bankValid s (coreOfWarp c.warp) = true) :
    exec (.sfEval f) s = .next (withFlags s c f (formTy c f) 3
      ((actLanes s c.pid f).map (fun l => (l, (sfLane s c f l).1, (sfLane s c f l).2)))) := by
  have evaluates : ¬(modOf f = 6 ∧ (!bankValid s (coreOfWarp c.warp)) = true) := by
    rintro ⟨table, invalid⟩
    rw [valid table] at invalid
    cases invalid
  rw [exec_sfEval, execSfEval, issuing_eq issues, actLanes_of_offSlotZero off]
  exact congrArg Host.Outcome.next (if_neg evaluates)

theorem execSfEval_of_invalid (table : modOf f = 6) (invalid : bankValid s (coreOfWarp c.warp) = false) :
    exec (.sfEval f) s = .next (raise s c f (plainTrap 0x15 (pathMask s c.pid).lanes)) := by
  have refused : modOf f = 6 ∧ (!bankValid s (coreOfWarp c.warp)) = true := ⟨table, by rw [invalid]; rfl⟩
  rw [exec_sfEval, execSfEval, issuing_eq issues]
  exact congrArg Host.Outcome.next (if_pos refused)

end

section
variable {f : Form} {s : State} {c : Ctx} (ty : SfTy (formTy c f))
include ty

/-- A fixed function of a special operand gives what R232 says. -/
theorem sfLane_of_special (fixed : modOf f < 6) {l : Nat} {r : Nat × Flags}
    (special : sfSpecial (fmtOf (formTy c f)) (modOf f) ((fmtOf (formTy c f)).decode (src s c f 0 (formTy c f) false l).toNat) = some r) :
    sfLane s c f l = (BitVec.ofNat 64 r.1, r.2) := by
  rw [sfSpecial_eq] at special
  obtain ⟨v, result, rfl⟩ := Option.map_eq_some_iff.1 special
  rw [← sfResult_withoutMagnitude, ← decode_sfOperand ty, sfResult_withoutMagnitude] at result
  have value : sfValue s c f l = (v.1.code fmtF32, v.2) :=
    (if_neg fixed.ne).trans (fixedFn_of_sfResult result)
  rw [sfLane, value]
  exact roundTo_code ty v.1 v.2

/-- The table function of a NaN gives the default NaN (R235). -/
theorem sfLane_of_nan (table : modOf f = 6) {l : Nat} {signals : Bool}
    (nan : (fmtOf (formTy c f)).decode (src s c f 0 (formTy c f) false l).toNat = .nan signals) :
    sfLane s c f l = (BitVec.ofNat 64 (fmtOf (formTy c f)).nan, if signals then fInvalid else fNone) := by
  have same := decode_sfOperand ty (src s c f 0 (formTy c f) false l).toNat
  rw [nan] at same
  have widened : fmtF32.decode (sfOperand (formTy c f) (src s c f 0 (formTy c f) false l).toNat) = .nan signals := by
    revert same
    cases fmtF32.decode (sfOperand (formTy c f) (src s c f 0 (formTy c f) false l).toNat) with
    | nan | inf | zero => exact id
    | fin => exact nofun
  have value : sfValue s c f l = (SfResult.nan.code fmtF32, if signals then fInvalid else fNone) :=
    (if_pos table).trans (tabFn_of_nan s _ _ widened)
  rw [sfLane, value]
  exact roundTo_code ty .nan _

end

/-- The table function of an `f32` number raises nothing (R235). -/
theorem sfLane_flags_of_number {f : Form} {s : State} {c : Ctx} (table : modOf f = 6) (single : formTy c f = .f32) {l : Nat}
    (number : ((fmtOf (formTy c f)).decode (src s c f 0 (formTy c f) false l).toNat).isNan = false) : (sfLane s c f l).2 = fNone := by
  rw [single] at number
  rw [sfLane, sfValue, if_pos table, single]
  exact tabFn_flags_of_number s _ _ number

/-! ### `sf.load` (R237) -/

/-- A change of the engines, then results in every active lane. -/
theorem EnginesOnly.delivers {s v : State} {c : Ctx} (engines : EnginesOnly s v) (regs : RegsWf s)
    (alive : (s.x.paths.find? c.pid).isSome = true) (f : Form) (d : Dst) (g : Nat → Word) :
    let u := finish (putLanes (clearNoFix v c.pid) c.pid d ((pathMask s c.pid).lanes.map (fun l => (l, g l)))) c f
    Delivers s u c f d (pathMask s c.pid).lanes g ∧ u.m = s.m ∧ u.e = v.e := by
  obtain ⟨e, rfl⟩ := engines
  obtain ⟨gives, threads⟩ := gives_finish_putLanes (s := clearNoFix { s with e := e } c.pid) f d (pathMask s c.pid).lanes g
    (lanes_nodup _) (fun _ => mem_lanes_lt) regs (isSome_updPath _ _ alive)
  have pc : (pathAt (clearNoFix { s with e := e } c.pid) c.pid).pc = (pathAt s c.pid).pc := by
    rw [pathAt_clearNoFix (s := { s with e := e }) alive]
    rfl
  refine ⟨⟨?_, gives.results, ?_, threads, fun p hp => ?_⟩, gives.rest.mem, gives.rest.engines⟩
  · cases f with
    | p w => exact gives.goesOn.2
    | n w => exact ⟨gives.goesOn.2.1, gives.goesOn.2.2.trans pc⟩
  · obtain ⟨vals, vregs, sregs, own⟩ := (registers_clearNoFix (s := { s with e := e }) d _ alive).trans gives.registers
    exact ⟨vals, vregs, sregs, own⟩
  · exact (gives.paths.others p hp).trans (SMap.find?_upd_ne _ _ hp)

/-- The state in which a path is the first to load a table. -/
def loadEntered (s : State) (c : Ctx) : State :=
  let core := coreOfWarp c.warp
  setSf s core { sfAt s core with loads := [c.pid] }

/-- The other bank holds the image, and is valid and current. -/
def bankFlipped (s : State) (c : Ctx) (bs : List Byte) : State :=
  let core := coreOfWarp c.warp
  let sf := sfAt s core
  let t := loadEntered s c
  setSf { t with e := { t.e with bank := s.e.bank.putsD 0 (bankKey core (bankNat (!sf.cur)) 0) bs } } core
    { valid0 := sf.valid0 || sf.cur, valid1 := sf.valid1 || !sf.cur, cur := !sf.cur, ver := sf.ver + 1, loads := [] }

section
variable {f : Form} {s : State} {c : Ctx} (issues : Issues s f c) (free : (sfAt s (coreOfWarp c.warp)).loads = []) {bs : List Byte}
  (read : readRecords (loadEntered s c) c f (spaceOf c f (addrOf s c f (firstLane s c.pid))) [firstLane s c.pid] 4160 64 =
    .ok [(firstLane s c.pid, bs)])
include issues free read

theorem execSfLoad_eq : exec (.sfLoad f) s = .next (
    if (!tableOk (bs.take 64)) = true then
      leaveLoads (raise (loadEntered s c) c f (plainTrap 0x15 (pathMask s c.pid).lanes)) (coreOfWarp c.warp) c.pid
    else finish (putLanes (clearNoFix (bankFlipped s c bs) c.pid) c.pid (dstOf c f .i32)
      ((pathMask s c.pid).lanes.map (fun l => (l, ((sfAt s (coreOfWarp c.warp)).ver + 1).setWidth 64)))) c f) := by
  rw [exec_sfLoad, execSfLoad, issuing_eq issues]
  unfold loadEntered at read
  unfold bankFlipped loadEntered
  simp [free, read]

theorem execSfLoad_of_broken (broken : tableOk (bs.take 64) = false) : exec (.sfLoad f) s =
    .next (leaveLoads (raise (loadEntered s c) c f (plainTrap 0x15 (pathMask s c.pid).lanes)) (coreOfWarp c.warp) c.pid) := by
  rw [execSfLoad_eq issues free read, broken]
  rfl

theorem execSfLoad_of_sound (sound : tableOk (bs.take 64) = true) : exec (.sfLoad f) s =
    .next (finish (putLanes (clearNoFix (bankFlipped s c bs) c.pid) c.pid (dstOf c f .i32)
      ((pathMask s c.pid).lanes.map (fun l => (l, ((sfAt s (coreOfWarp c.warp)).ver + 1).setWidth 64)))) c f) := by
  rw [execSfLoad_eq issues free read, sound]
  rfl

end

theorem bankKey_eq_add (core b i : Nat) : bankKey core b i = bankKey core b 0 + i := by
  unfold bankKey
  omega

/-- The bytes of the bank that was not current are the image's, and every other byte is as it was. -/
theorem bank_bankFlipped {s : State} (wf : SMap.wf 0 s.e.bank = true) (c : Ctx) {bs : List Byte} (whole : bs.length = 4160) :
    let core := coreOfWarp c.warp
    let b := bankNat (!(sfAt s core).cur)
    (∀ i, i < 4160 → (bankFlipped s c bs).e.bank.getD 0 (bankKey core b i) = nth bs 0 i) ∧
      ∀ k, (∀ i, i < 4160 → k ≠ bankKey core b i) → (bankFlipped s c bs).e.bank.getD 0 k = s.e.bank.getD 0 k := by
  dsimp only [bankFlipped, setSf_e_bank]
  generalize coreOfWarp c.warp = core, bankNat (!(sfAt s (coreOfWarp c.warp)).cur) = b
  rw [← whole]
  refine ⟨fun i hi => ?_, fun k outside => ?_⟩
  · rw [bankKey_eq_add core b i, SMap.getD_putsD bs _ i wf hi, nth, List.getElem?_eq_getElem hi]
    rfl
  · by_cases below : k < bankKey core b 0
    · exact SMap.getD_putsD_lt 0 bs _ below
    · refine SMap.getD_putsD_ge 0 bs _ ?_
      by_contra inside
      exact outside (k - bankKey core b 0) (by omega) (by rw [bankKey_eq_add]; omega)

theorem sfAt_setSf_self (s : State) (core : Nat) (v : SfState) : sfAt (setSf s core v) core = v := by
  rw [sfAt, setSf_e_sf, SMap.getD, SMap.find?_ins_self]
  rfl

/-- Settles O28: by the table of special operands in no format, by what the table function raises, and by the flip of the banks. -/
theorem specialFunctionsAndTheirTables : Obligations.SpecialFunctionsAndTheirTables := by
  unfold Obligations.SpecialFunctionsAndTheirTables
  refine ⟨fun f s c issues canonical off => ?_, fun f s c bs issues canonical wf => ?_⟩
  · intro t x sf valid ty
    refine ⟨fun fixed => ?_, fun table current => ?_, fun table invalid => execSfEval_of_invalid issues table invalid⟩
    · rw [execSfEval_of_valid issues off (fun table => absurd fixed (by omega))]
      exact ⟨_, withFlags_flagged issues canonical _ 3 _, fun l r special => sfLane_of_special ty fixed special⟩
    · rw [execSfEval_of_valid issues off (fun _ => current)]
      exact ⟨_, withFlags_flagged issues canonical _ 3 _, fun l => ⟨fun sg nan => sfLane_of_nan ty table nan,
        fun single number => sfLane_flags_of_number table single number⟩⟩
  · intro core ls l sf s0 b free whole read
    refine ⟨fun sound => ?_, fun broken => execSfLoad_of_broken issues free read broken⟩
    have engines : EnginesOnly s (bankFlipped s c bs) := ⟨_, rfl⟩
    obtain ⟨delivers, memory, rest⟩ := engines.delivers canonical.regs issues.2.1 f (dstOf c f .i32)
      (fun _ => ((sfAt s (coreOfWarp c.warp)).ver + 1).setWidth 64)
    refine ⟨_, execSfLoad_of_sound issues free read sound, delivers, memory, ?_, ?_⟩
    · rw [sfAt, rest]
      exact sfAt_setSf_self ..
    · rw [rest]
      exact bank_bankFlipped wf c whole

end Sys2Proof.Machine
end

section
/-!
SUPPORT. O34: in slot 0 a `cv.split` writes every active lane, where the operations of one result write the first alone (R56).
-/
namespace Sys2Proof.Machine

/-- A path of lanes 0 and 1, of which lane 0 alone stands for the warp in slot 0 (R56). -/
def splitState : State :=
  updPath (placeWords State.reset [0]) 0 (fun p => { p with mask := 3, pc := .word (VPC.of 0 0) })

/-- A `cv.split` of the next hop in slot 0, into vector register 0. -/
def slotZeroSplit : NForm := { slot := 0, ntype := 3, md := 0, gs := 0, dst := 0, sa := 0, sb := 0, sc := 0, aux := 0 }

/-- What vector register 0 holds in lane 1 after an operation of path 0. -/
def lane1After (o : Out) : Option Lane32 := match o with | .next u => some (getVreg u 0 0 1) | _ => none

theorem issues_slotZeroSplit :
    Issues splitState (.n slotZeroSplit) (ctxOf splitState 0) ∧ Canonical splitState := by decide +kernel

theorem lane1After_slotZeroSplit :
    lane1After (exec (.cvSplit (.n slotZeroSplit)) splitState) ≠ some (getVreg splitState 0 0 1) := by
  decide +kernel

/-- An operation of one result in slot 0 leaves lane 1 as it was. -/
theorem lane1After_of_computesSome {s : State} {c : Ctx} {ok : Nat → Word → Prop} {o : Out} {w : NForm} (slot : w.slot = 0)
    (first : firstLane s c.pid = 0) (warp : warpOfPath c.pid = 0) (dst : dstOf c (.n w) .i32 = .vreg 0 false)
    (computes : ComputesSome s c (.n w) (dstOf c (.n w) .i32) ok o) : lane1After o = some (getVreg s 0 0 1) := by
  obtain ⟨g, -, t, rfl, gives, -⟩ := computes
  refine congrArg some (gives.registers.vregs _ ?_)
  simp [dst, vregKeys, actLanes, slot, first, warp, vregKey]

/-- Refutes O34: from slot 0 the word of a `cv.split` goes to lane 1 as well, which stands outside the lanes of its slot. -/
theorem not_keysKeepOrderAndSplitWordsTellStrands : ¬ Obligations.KeysKeepOrderAndSplitWordsTellStrands := by
  unfold Obligations.KeysKeepOrderAndSplitWordsTellStrands
  rintro ⟨-, split⟩
  obtain ⟨issues, canonical⟩ := issues_slotZeroSplit
  exact lane1After_slotZeroSplit (lane1After_of_computesSome rfl (by decide +kernel) (by decide +kernel) (by decide +kernel)
    (split (.n slotZeroSplit) splitState _ issues canonical))

end Sys2Proof.Machine
end

section
/-!
SUPPORT. O45: the statement asks nothing of the router map, and a map that lists a queue twice still lists it when the first, empty
one is taken out.
-/
namespace Sys2Proof.Machine

/-- A reduction packet that has just entered a router queue (R272). -/
def enteringPacket : NetPkt :=
  { accs := [], addr := 0, op := .red 0, ty := .i32, v := 0, merge := true, entering := true, flow := 0, route := none, vc := 0 }

/-- Router queue 0 listed twice: empty, and with an entering packet behind. -/
def queueListedTwice : State :=
  { State.reset with m := { State.reset.m with routers := [(0, []), (0, [enteringPacket])] } }

/-- Whether a packet of router queue 0 still enters after a step. -/
def stillEntering (o : Out) : Bool := match o with | .next u => (u.m.routers.getD [] 0).any (·.entering) | _ => false

theorem stillEntering_queueListedTwice : stillEntering (exec (.redMerge 0 0) queueListedTwice) = true := by decide +kernel

theorem stillEntering_eq_false {u : State} (settled : ∀ p ∈ u.m.routers.getD [] 0, p.entering = false) :
    stillEntering (.next u) = false := by
  simpa [stillEntering] using settled

/-- Refutes O45: the merge at queue 0 reads the first, empty listing and takes it out, and the entering packet of the second is
what the queue then holds. -/
theorem not_packetsMergeAndFlowsChooseRoutes : ¬ Obligations.PacketsMergeAndFlowsChooseRoutes := by
  unfold Obligations.PacketsMergeAndFlowsChooseRoutes
  intro holds
  obtain ⟨⟨u, stepped, -, -, -, -, settled, -⟩, -⟩ := holds 0 0 queueListedTwice (by decide)
  have entering := stillEntering_queueListedTwice
  rw [stepped, stillEntering_eq_false settled] at entering
  contradiction

end Sys2Proof.Machine
end

section
/-!
SUPPORT. O36: swaps that wait, meet and go on (R277 to R279), `yield`, and the exchange of a table entry (R342).
-/
namespace Sys2Proof.Machine

/-! ### A state made ready for results -/

/-- `v` comes of `s` by changes that leave every register and the place of the path that `c` describes. -/
structure Prepared (s v : State) (c : Ctx) : Prop where
  issue : v.c.issue = s.c.issue
  place : (pathAt v c.pid).pc = (pathAt s c.pid).pc
  alive : (v.x.paths.find? c.pid).isSome = true
  wf : RegsWf v
  registers : ∀ d ls, RegistersKept s v c.pid d ls
  others : ∀ p, p ≠ c.pid → v.x.paths.find? p = s.x.paths.find? p

namespace Prepared
variable {s v : State} {c : Ctx}

theorem of_issues {f : Form} (issues : Issues s f c) (canon : Canonical s) : Prepared s s c :=
  ⟨rfl, rfl, issues.2.1, canon.regs, RegistersKept.refl s c.pid, fun _ _ => rfl⟩

/-- A change of engines and threads. -/
theorem withThreads (ready : Prepared s v c) (e : Engines) (th : SMap Thread) :
    Prepared s { v with e := e, x := { v.x with threads := th } } c :=
  ⟨ready.issue, ready.place, ready.alive, ready.wf, fun d ls =>
    let ⟨vals, vregs, sregs, own⟩ := ready.registers d ls
    ⟨vals, vregs, sregs, own⟩, ready.others⟩

/-- A change of the engines. -/
theorem engines (ready : Prepared s v c) {u : State} (h : EnginesOnly v u) : Prepared s u c := by
  obtain ⟨e, rfl⟩ := h
  exact ready.withThreads e v.x.threads

/-- A change of the path that leaves its place and its own four registers. -/
theorem updPath (ready : Prepared s v c) {g : Path → Path} (place : ∀ p, (g p).pc = p.pc)
    (own : ∀ p, ((g p).s124, (g p).s125, (g p).s126, (g p).s127) = (p.s124, p.s125, p.s126, p.s127)) :
    Prepared s (updPath v c.pid g) c := by
  have here : pathAt (Machine.updPath v c.pid g) c.pid = g (pathAt v c.pid) := pathAt_updPath_self g ready.alive
  refine ⟨ready.issue, by rw [here, place, ready.place], isSome_updPath _ _ ready.alive, ready.wf, fun d ls => ?_, fun p hp => ?_⟩
  · obtain ⟨vals, vregs, sregs, kept⟩ := ready.registers d ls
    refine ⟨vals, vregs, sregs, fun r hr => (kept r hr).symm.trans ?_ |>.symm⟩
    have four := own (pathAt v c.pid)
    simp only [Prod.mk.injEq] at four
    obtain ⟨h124, h125, h126, h127⟩ := four
    simp only [getSreg, here, h124, h125, h126, h127]
    rfl
  · exact (SMap.find?_upd_ne _ _ hp).trans (ready.others p hp)

end Prepared

/-- The instruction is over: from `v`, made ready of `s`, the lanes `ls` have taken results, the path has gone past the instruction,
and nothing else has changed. -/
structure Ended (s v u : State) (c : Ctx) (f : Form) (d : Dst) (ls : List Nat) (g : Nat → Word) : Prop where
  past : Past s u c f
  results : Results u c.pid d ls g
  registers : RegistersKept s u c.pid d ls
  threads : u.x.threads = v.x.threads
  others : ∀ p, p ≠ c.pid → u.x.paths.find? p = s.x.paths.find? p
  rest : RestKept v u
  path : unplaced (pathAt u c.pid) = unplaced (pathAt v c.pid)

section
variable {s v u : State} {c : Ctx} {f : Form}

theorem Ended.silent {g : Nat → Word} (ended : Ended s v u c f .none [] g) (threads : v.x.threads = s.x.threads) : Silent s u c f :=
  ⟨ended.past, ended.registers, ended.threads.trans threads, ended.others⟩

theorem Ended.delivers {d : Dst} {ls : List Nat} {g : Nat → Word} (ended : Ended s v u c f d ls g)
    (threads : v.x.threads = s.x.threads) : Delivers s u c f d ls g :=
  ⟨ended.past, ended.results, ended.registers, ended.threads.trans threads, ended.others⟩

theorem Prepared.finish (ready : Prepared s v c) (f : Form) : Ended s v (finish v c f) c f .none [] (fun _ => 0) := by
  obtain ⟨same, past⟩ := finish_goesOn (s := v) (c := c) f ready.alive
  obtain ⟨rest, paths, x⟩ := finish_kept v c f
  refine ⟨?_, by simp [Results, takers], (ready.registers .none []).trans (finish_registers f .none [] ready.alive), by rw [x],
    fun p hp => (paths.others p hp).trans (ready.others p hp), rest, same⟩
  cases f with
  | p w => exact past
  | n w => exact ⟨past.1.trans ready.issue, past.2.trans ready.place⟩

theorem Prepared.deliver (ready : Prepared s v c) (f : Form) (d : Dst) (g : Nat → Word) :
    Ended s v (Machine.finish (putLanes v c.pid d ((pathMask s c.pid).lanes.map (fun l => (l, g l)))) c f) c f d
      (pathMask s c.pid).lanes g := by
  obtain ⟨gives, threads⟩ := gives_finish_putLanes (s := v) f d (pathMask s c.pid).lanes g
    (lanes_nodup _) (fun _ => mem_lanes_lt) ready.wf ready.alive
  obtain ⟨same, past⟩ := gives.goesOn
  refine ⟨?_, gives.results, (ready.registers d (pathMask s c.pid).lanes).trans gives.registers, threads,
    fun p hp => (gives.paths.others p hp).trans (ready.others p hp), gives.rest, same⟩
  cases f with
  | p w => exact past
  | n w => exact ⟨past.1.trans ready.issue, past.2.trans ready.place⟩

end


/-! ### `xc.swap` -/

/-- What a lane receives of a paired swap: the partner lane's value and bit 32, else its own value (R279). -/
def swapLane (x : Swap) (got : List (Nat × Word)) (l : Nat) : Word :=
  match got.find? (fun p => p.1 == l) with
  | some p => lowBits 32 p.2 + 0x100000000#64
  | none => lowBits 32 (((x.vals.find? (fun p => p.1 == l)).map (·.2)).getD 0)

/-- The swap that a path enters into its die's exchange (R277). -/
def swapOfPath (s : State) (c : Ctx) (f : Form) : Swap :=
  { die := c.die, ctx := c.ctx, ident := zx 32 (src s c f 1 .i32 false (firstLane s c.pid)), num := (warpAt s c.warp).num,
    cluster := clusterOf (coreOfWarp c.warp), pid := c.pid,
    vals := (pathMask s c.pid).lanes.map (fun l => (l, src s c f 0 (opndTy c f 0 .i32) false l)), got := none }

theorem swapResult_eq (s : State) (pid : Nat) {x : Swap} {got : List (Nat × Word)} (paired : x.got = some got) :
    swapResult s pid x = (pathMask s pid).lanes.map (fun l => (l, swapLane x got l)) := by
  unfold swapResult
  refine List.map_congr_left fun l _ => ?_
  simp only [paired, Option.getD_some, swapLane]
  cases got.find? (fun p => p.1 == l) <;> rfl

section
variable {f : Form} {s : State} {c : Ctx} (issues : Issues s f c)
include issues

theorem execXcSwap_paired (canon : Canonical s) {x : Swap} {got : List (Nat × Word)}
    (mine : s.e.swaps.find? (fun y => y.pid == c.pid) = some x) (paired : x.got = some got) :
    ∃ u, exec (.xcSwap f) s = .next u ∧ u.m = s.m ∧ (∀ y ∈ u.e.swaps, y.pid ≠ c.pid) ∧
      Delivers s u c f (dstOf c f .i64) (pathMask s c.pid).lanes (swapLane x got) := by
  have ready : Prepared s (setSwaps s (s.e.swaps.filter (fun y => y.pid != c.pid))) c :=
    (Prepared.of_issues issues canon).engines ⟨_, rfl⟩
  have ended := ready.deliver f (dstOf c f .i64) (swapLane x got)
  refine ⟨_, ?_, ended.rest.mem, ?_, ended.delivers rfl⟩
  · rw [exec_xcSwap, execXcSwap, issuing_eq issues]
    simp only [mine, paired, Option.isSome_some, if_true, swapResult_eq s c.pid paired]
  · rw [ended.rest.engines]
    simp [setSwaps]

theorem execXcSwap_waits (new : s.e.swaps.find? (fun y => y.pid == c.pid) = none)
    (known : zx 32 (src s c f 1 .i32 false (firstLane s c.pid)) ≤ 255) :
    ∃ u x, exec (.xcSwap f) s = .next (enqueue (hold u c.pid f .partner) (.swapPaired c.die)) ∧
      u = { s with e := { s.e with swaps := s.e.swaps ++ [x] } } ∧ x.pid = c.pid ∧
      x.ident = zx 32 (src s c f 1 .i32 false (firstLane s c.pid)) ∧ x.got = none ∧
      x.vals = (pathMask s c.pid).lanes.map (fun l => (l, src s c f 0 (opndTy c f 0 .i32) false l)) := by
  refine ⟨_, swapOfPath s c f, ?_, rfl, rfl, rfl, rfl, rfl⟩
  rw [exec_xcSwap, execXcSwap, issuing_eq issues]
  simp only [new, Nat.not_lt.2 known, if_false]
  rfl

theorem execXcSwap_faults (new : s.e.swaps.find? (fun y => y.pid == c.pid) = none)
    (far : 255 < zx 32 (src s c f 1 .i32 false (firstLane s c.pid))) :
    exec (.xcSwap f) s = .next (raise s c f (plainTrap 0x10 (pathMask s c.pid).lanes)) := by
  rw [exec_xcSwap, execXcSwap, issuing_eq issues]
  simp only [new, far, if_true]

end

/-! ### The exchange pairs the oldest two that meet (R278) -/

/-- Swaps of which none meets an older one of its die are passed over. -/
theorem firstPair_append (die : Nat) (older xs ys : List Swap)
    (apart : ∀ (i : Nat) x, xs[i]? = some x → x.die = die → ∀ y ∈ older ++ xs.take i, swapsMeet y x = false) :
    firstPair die older (xs ++ ys) = firstPair die (older ++ xs) ys := by
  induction xs generalizing older with
  | nil => simp
  | cons x xs ih =>
    have none : (if x.die = die then older.find? (fun y => swapsMeet y x) else none) = none := by
      split
      · refine List.find?_eq_none.2 fun y hy => ?_
        simp [apart 0 x rfl ‹_› y (by simpa using hy)]
      · rfl
    rw [List.cons_append, firstPair, none]
    refine (ih (older ++ [x]) fun i z hz mine y hy => apart (i + 1) z (by simpa using hz) mine y ?_).trans (by simp)
    simpa using hy

/-- A swap that an older one meets pairs with the oldest such. -/
theorem firstPair_cons {die : Nat} {a b : Swap} (pre mid post : List Swap) (mine : b.die = die) (meets : swapsMeet a b = true)
    (apart : ∀ y ∈ pre, swapsMeet y b = false) : firstPair die (pre ++ a :: mid) (b :: post) = some (a, b) := by
  have oldest : (pre ++ a :: mid).find? (fun y => swapsMeet y b) = some a := by
    rw [List.find?_append, List.find?_eq_none.2 (fun y hy => by simp [apart y hy]), List.find?_cons_of_pos (by exact meets)]
    rfl
  simp only [firstPair, mine, if_true, oldest]

/-- In a list of earlier and later elements each later one stands behind those before it. -/
theorem pairwise_take {α : Type} {R : α → α → Prop} {l : List α} (h : l.Pairwise R) {i : Nat} {x : α} (hx : l[i]? = some x)
    {y : α} (hy : y ∈ l.take i) : R y x := by
  obtain ⟨hi, rfl⟩ := List.getElem?_eq_some_iff.1 hx
  obtain ⟨j, hj, rfl⟩ := List.mem_iff_getElem.1 hy
  rw [List.getElem_take]
  exact List.pairwise_iff_getElem.1 h j i (by simp at hj; omega) hi (by simp at hj; omega)

/-- A swap of a pair takes the other's values. -/
def pairUp (a b x : Swap) : Swap :=
  if x.pid = a.pid then { x with got := some b.vals } else if x.pid = b.pid then { x with got := some a.vals } else x

theorem map_pairUp_of_apart {a b : Swap} {l : List Swap} (apart : ∀ x ∈ l, x.pid ≠ a.pid ∧ x.pid ≠ b.pid) : l.map (pairUp a b) = l := by
  conv_rhs => rw [← List.map_id l]
  refine List.map_congr_left fun x hx => ?_
  simp [pairUp, apart x hx]

/-- Where every swap is of a path of its own, pairing two changes those two. -/
theorem map_pairUp {a b : Swap} (pre mid post : List Swap) (distinct : ((pre ++ a :: (mid ++ b :: post)).map (·.pid)).Nodup) :
    (pre ++ a :: (mid ++ b :: post)).map (pairUp a b) =
      pre ++ { a with got := some b.vals } :: (mid ++ { b with got := some a.vals } :: post) := by
  simp only [List.map_append, List.map_cons, List.nodup_append, List.nodup_cons, List.mem_append, List.mem_cons, List.mem_map] at distinct
  obtain ⟨-, ⟨ha, -, ⟨hb, -⟩, hmid⟩, hpre⟩ := distinct
  have pre' : pre.map (pairUp a b) = pre := map_pairUp_of_apart fun x hx => by grind
  have mid' : mid.map (pairUp a b) = mid := map_pairUp_of_apart fun x hx => by grind
  have post' : post.map (pairUp a b) = post := map_pairUp_of_apart fun x hx => by grind
  have ne : b.pid ≠ a.pid := by grind
  simp [pre', mid', post', pairUp, ne]

theorem execSwapPaired_eq {die : Nat} {s : State} {a b : Swap} {pre mid post : List Swap}
    (swaps : s.e.swaps = pre ++ a :: (mid ++ b :: post)) (distinct : (s.e.swaps.map (·.pid)).Nodup) (mine : b.die = die)
    (meets : swapsMeet a b = true) (oldest : ∀ y ∈ pre, swapsMeet y b = false)
    (apart : (pre ++ a :: mid).Pairwise (fun y x => x.die = die → swapsMeet y x = false)) :
    exec (.swapPaired die) s = .next { s with e := { s.e with
      swaps := pre ++ { a with got := some b.vals } :: (mid ++ { b with got := some a.vals } :: post) } } := by
  have pair : firstPair die [] s.e.swaps = some (a, b) := by
    have split : s.e.swaps = (pre ++ a :: mid) ++ b :: post := by simp [swaps]
    rw [split, firstPair_append die [] _ _ fun i x hx die y hy => pairwise_take apart hx hy die]
    exact firstPair_cons pre mid post mine meets oldest
  rw [← map_pairUp pre mid post (swaps ▸ distinct), ← swaps, exec_swapPaired, execSwapPaired, pair]
  rfl

/-! ### `yield` (R349) -/

theorem execYield_silent {f : Form} {s : State} {c : Ctx} (issues : Issues s f c) (canon : Canonical s) :
    ∃ u, exec (.yield f) s = .next u ∧ Silent s u c f ∧ RestKept s u ∧ (pathAt u c.pid).youngest = true ∧
      (pathAt u c.pid).mask = (pathAt s c.pid).mask := by
  have ready : Prepared s (updPath s c.pid (fun p => { p with youngest := true })) c :=
    (Prepared.of_issues issues canon).updPath (fun _ => rfl) (fun _ => rfl)
  have ended := ready.finish f
  have path := ended.path
  rw [pathAt_updPath_self _ issues.2.1] at path
  refine ⟨_, by rw [exec_yield, execYield, issuing_eq issues], ended.silent rfl, ?_,
    (congrArg Path.youngest path :), (congrArg Path.mask path :)⟩
  exact RestKept.trans (t := updPath s c.pid (fun p => { p with youngest := true })) ⟨rfl, rfl, rfl, rfl, rfl, rfl, rfl⟩ ended.rest

/-! ### The exchange of a table entry (R342) -/

/-- A fold that keeps the lower of two ages picks the one element of the lowest. -/
theorem foldl_pick {α β : Type} {key : α → β} {age : β → Nat} {step : Option β → α → Option β} {l : List α}
    (start : ∀ p, step none p = some (key p))
    (lower : ∀ q, ∀ p ∈ l, step (some q) p = if age (key p) < age q then some (key p) else some q)
    {x : α} (least : ∀ y ∈ l, key y ≠ key x → age (key x) < age (key y)) {best : Option β}
    (reached : best = some (key x) ∨ x ∈ l ∧ ∀ q, best = some q → age (key x) < age q) : l.foldl step best = some (key x) := by
  induction l generalizing best with
  | nil => simpa using reached
  | cons p l ih =>
    refine ih (fun q y hy => lower q y (List.mem_cons_of_mem _ hy)) (fun y hy => least y (List.mem_cons_of_mem _ hy)) ?_
    have other := least p List.mem_cons_self
    rcases reached with rfl | ⟨mem, above⟩
    · left
      rw [lower _ p List.mem_cons_self, if_neg]
      by_cases same : key p = key x
      · simp [same]
      · exact Nat.not_lt.2 (Nat.le_of_lt (other same))
    by_cases same : key p = key x
    · left
      cases best with
      | none => rw [start, same]
      | some q => rw [lower q p List.mem_cons_self, same, if_pos (above q rfl)]
    · have later : x ∈ l := (List.mem_cons.1 mem).resolve_left fun eq => same (by rw [eq])
      refine .inr ⟨later, fun q hq => ?_⟩
      cases best with
      | none =>
        rw [start, Option.some.injEq] at hq
        exact hq ▸ other same
      | some b =>
        rw [lower b p List.mem_cons_self] at hq
        split at hq <;> cases hq
        · exact other same
        · exact above _ rfl

/-- In a map of rising keys each listed value is the one at its key. -/
theorem SMap.find?_of_mem {α : Type} {m : SMap α} {lo k : Nat} {a : α} (rising : m.risingFrom lo = true) (mem : (k, a) ∈ m) :
    m.find? k = some a := by
  induction m generalizing lo with
  | nil => simp at mem
  | cons p m ih =>
    obtain ⟨i, b⟩ := p
    simp only [SMap.risingFrom, Bool.and_eq_true] at rising
    rcases List.mem_cons.1 mem with eq | mem
    · cases eq
      simp [SMap.find?]
    · have found := ih rising.2 mem
      have ne : i ≠ k := fun eq => by rw [SMap.find?_of_rising m rising.2 (by omega)] at found; cases found
      simpa [SMap.find?, ne] using found

section
variable {s : State} {w : Nat} (canon : Canonical s)
include canon

theorem find?_of_pathsOf {k : Nat} {p : Path} (mem : (k, p) ∈ pathsOf s w) : s.x.paths.find? k = some p :=
  SMap.find?_of_mem canon.2.2.2.2.2.2.2.1 (List.mem_of_mem_filter mem)

theorem pathAt_of_pathsOf {x : Nat × Path} (mem : x ∈ pathsOf s w) : pathAt s x.1 = x.2 := by
  rw [pathAt, SMap.getD, find?_of_pathsOf canon mem]
  rfl

/-- The one pending path of the lowest number is the oldest. -/
theorem pendingOldest_eq {p : Nat} {r : Path} (mem : (p, r) ∈ pathsOf s w) (pending : r.slotIx = none) (free : r.parked = false)
    (oldest : ∀ x ∈ pathsOf s w, x.2.slotIx = none → x.2.parked = false → x.1 ≠ p → r.seq < x.2.seq) :
    pendingOldest s w = some p := by
  have age : ∀ x ∈ pathsOf s w, (pathAt s x.1).seq = x.2.seq := fun x hx => by rw [pathAt_of_pathsOf canon hx]
  refine foldl_pick (key := Prod.fst) (age := fun q => (pathAt s q).seq) (x := (p, r)) (fun _ => rfl) (fun q x hx => ?_)
    (fun x hx ne => ?_) (.inr ⟨by simp [mem, pending, free], by simp⟩)
  · rw [age x (List.mem_of_mem_filter hx)]
  · obtain ⟨here, waits⟩ := List.mem_filter.1 hx
    simp only [Bool.and_eq_true, Option.isNone_iff_eq_none, Bool.not_eq_true'] at waits
    simpa [age x here, age _ mem] using oldest x here waits.1 waits.2 ne

/-- The table path that has held its entry longest, of the waiting ones where there are any. -/
theorem exchangeOut_eq {o : Nat} {q : Path} (mem : (o, q) ∈ pathsOf s w) (held : q.slotIx.isSome = true ∧ q.focus = false)
    (longest : ∀ x ∈ pathsOf s w, (x.2.slotIx.isSome = true ∧ x.2.focus = false) →
      (isReady s x.1 x.2 = false ↔ isReady s o q = false) → x.1 ≠ o → q.seq < x.2.seq)
    (idle : isReady s o q = false ∨
      ∀ x ∈ pathsOf s w, (x.2.slotIx.isSome = true ∧ x.2.focus = false) → ¬isReady s x.1 x.2 = false) :
    exchangeOut s w = some (o, q) := by
  have distinct : ∀ x ∈ pathsOf s w, x ≠ (o, q) → x.1 ≠ o := fun x hx ne eq => ne <| Prod.ext eq <| by
    rw [← pathAt_of_pathsOf canon hx, ← pathAt_of_pathsOf canon mem, eq]
  have picks : ∀ l : List (Nat × Path), (o, q) ∈ l → (∀ x ∈ l, x ∈ pathsOf s w ∧ (x.2.slotIx.isSome = true ∧ x.2.focus = false) ∧
      (isReady s x.1 x.2 = false ↔ isReady s o q = false)) → l.foldl (fun b p => match b with
        | none => some p
        | some q => if p.2.seq < q.2.seq then some p else some q) none = some (o, q) := fun l here all =>
    foldl_pick (key := id) (age := fun x => x.2.seq) (x := (o, q)) (fun _ => rfl) (fun _ _ _ => rfl)
      (fun x hx ne => longest x (all x hx).1 (all x hx).2.1 (all x hx).2.2 (distinct x (all x hx).1 ne)) (.inr ⟨here, by simp⟩)
  unfold exchangeOut
  dsimp only
  split
  · next empty =>
    have busy : ∀ x ∈ pathsOf s w, (x.2.slotIx.isSome = true ∧ x.2.focus = false) → isReady s x.1 x.2 = true := by
      intro x hx ht
      simpa using List.filter_eq_nil_iff.1 (List.isEmpty_iff.1 empty) x (List.mem_filter.2 ⟨hx, by simpa using ht⟩)
    refine picks _ (by simpa [mem] using held) fun x hx => ?_
    obtain ⟨here, ht⟩ := List.mem_filter.1 hx
    have ht : x.2.slotIx.isSome = true ∧ x.2.focus = false := by simpa using ht
    exact ⟨here, ht, by rw [busy x here ht, busy _ mem held]⟩
  · next some =>
    have waits : isReady s o q = false := idle.resolve_right fun none => some (by
      simp only [List.isEmpty_iff, List.filter_eq_nil_iff, List.mem_filter]
      intro x hx
      simpa using none x hx.1 (by simpa using hx.2))
    refine picks _ (by simpa [mem, waits] using held) fun x hx => ?_
    simp only [List.mem_filter, Bool.and_eq_true, Bool.not_eq_true'] at hx
    exact ⟨hx.1.1, hx.1.2, by simp [hx.2, waits]⟩

end

/-- The state in which path `o` has given its table entry to path `p`. -/
def entryGiven (s : State) (o p : Nat) (q : Path) : State :=
  updPath (takeId (setPath (takeId s) o { q with slotIx := none, seq := s.c.nextId })) p
    (fun r => { r with slotIx := q.slotIx, seq := s.c.nextId + 1, readyAt := s.c.cycle })

theorem execPathExchange_eq {s : State} {w o p : Nat} {q : Path} (out : exchangeOut s w = some (o, q)) (oldest : pendingOldest s w = some p) :
    exec (.pathExchange w) s = .next (entryGiven s o p q) := by
  rw [exec_pathExchange, execPathExchange, out, oldest]
  rfl

theorem entryGiven_paths {s : State} {o p : Nat} {q r : Path} (ne : p ≠ o) (here : s.x.paths.find? p = some r) :
    pathAt (entryGiven s o p q) o = { q with slotIx := none, seq := s.c.nextId } ∧
      pathAt (entryGiven s o p q) p = { r with slotIx := q.slotIx, seq := s.c.nextId + 1, readyAt := s.c.cycle } ∧
      ∀ k, k ≠ o → k ≠ p → (entryGiven s o p q).x.paths.find? k = s.x.paths.find? k := by
  refine ⟨?_, ?_, fun k ho hp => ?_⟩
  · rw [entryGiven, pathAt_updPath_ne _ _ ne.symm]
    simp [pathAt, SMap.getD, takeId, setPath, SMap.find?_ins_self]
  · have alive : (s.x.paths.ins o { q with slotIx := none, seq := s.c.nextId }).find? p = some r := by
      rw [SMap.find?_ins_ne _ _ ne, here]
    rw [entryGiven, pathAt, updPath, SMap.getD, SMap.find?_upd_self]
    simp [takeId, setPath, alive]
  · rw [entryGiven, updPath, SMap.find?_upd_ne _ _ hp]
    exact SMap.find?_ins_ne _ _ ho

/-- Settles O36. -/
theorem swapsExchangeAndYieldsReorder : Obligations.SwapsExchangeAndYieldsReorder := by
  unfold Obligations.SwapsExchangeAndYieldsReorder
  refine ⟨fun s canon => ⟨fun f c issues => ⟨fun x mine got paired => ?_, execXcSwap_waits issues, execXcSwap_faults issues⟩, ?_⟩,
    fun f s c issues canon => execYield_silent issues canon, ?_⟩
  · exact execXcSwap_paired issues canon mine paired
  · intro die a b pre mid post swaps distinct mine meets oldest apart
    exact execSwapPaired_eq swaps distinct mine meets oldest apart
  · intro s w o p q r canon ho hp held idle longHeld longest waits pending free oldest
    have ne : p ≠ o := by
      rintro rfl
      have same : q = r := (pathAt_of_pathsOf canon ho).symm.trans (pathAt_of_pathsOf canon hp)
      simp [held, same, pending] at longHeld
    obtain ⟨giver, taker, others⟩ := entryGiven_paths (q := q) ne (find?_of_pathsOf canon hp)
    refine ⟨_, execPathExchange_eq (exchangeOut_eq canon ho longHeld longest waits) (pendingOldest_eq canon hp pending free oldest),
      rfl, rfl, rfl, ?_, ?_, ?_, others⟩
    · rw [giver]
    · rw [taker]
    · rw [giver, taker]
      exact Nat.lt_succ_self _

end Sys2Proof.Machine
end

section
/-!
SUPPORT. O33: `mx.read` once its tiles are in the accumulators and no earlier command is to write them (R261).
-/
namespace Sys2Proof.Machine

/-! ### The flag word -/

/-- A word made of a count's upper half and the union of flags. -/
def countAndFlags (a : BitVec 32) (b : BitVec 16) : Word := BitVec.ofNat 64 (a.toNat / 65536 * 65536 + b.toNat)

theorem extractLsb'_countAndFlags (a : BitVec 32) (b : BitVec 16) :
    (countAndFlags a b).extractLsb' 32 32 = 0 ∧ (countAndFlags a b).extractLsb' 16 16 = a.extractLsb' 16 16 ∧
      (countAndFlags a b).extractLsb' 0 16 = b := by
  have ha := a.isLt
  have hb := b.isLt
  have value : (countAndFlags a b).toNat = a.toNat / 65536 * 65536 + b.toNat := by
    rw [countAndFlags, BitVec.toNat_ofNat, Nat.mod_eq_of_lt (by omega)]
  refine ⟨BitVec.eq_of_toNat_eq ?_, BitVec.eq_of_toNat_eq ?_, BitVec.eq_of_toNat_eq ?_⟩ <;>
    simp only [BitVec.extractLsb'_toNat, value, Nat.shiftRight_eq_div_pow, BitVec.ofNat_eq_ofNat, BitVec.toNat_ofNat] <;> omega

theorem flagWord_eq (s : State) (core n : Nat) (pair : Bool) :
    flagWord s core (if pair = true then [n, n + 1] else [n]) =
      countAndFlags (nth (mxAt s core).flagw 0 n) (if pair = true then
        (nth (mxAt s core).flagw 0 n ||| nth (mxAt s core).flagw 0 (n + 1)).extractLsb' 0 16
        else (nth (mxAt s core).flagw 0 n).extractLsb' 0 16) := by
  cases pair with
  | false => simp [flagWord, countAndFlags]
  | true => simp [flagWord, countAndFlags, BitVec.extractLsb'_or]

theorem flagWord_bits (s : State) (core n : Nat) (pair : Bool) :
    let flag := fun t => nth (mxAt s core).flagw 0 t
    let v := flagWord s core (if pair = true then [n, n + 1] else [n])
    v.extractLsb' 32 32 = 0 ∧ v.extractLsb' 16 16 = (flag n).extractLsb' 16 16 ∧
      v.extractLsb' 0 16 = (if pair = true then (flag n ||| flag (n + 1)).extractLsb' 0 16 else (flag n).extractLsb' 0 16) := by
  dsimp only
  rw [flagWord_eq]
  exact extractLsb'_countAndFlags _ _

/-! ### The read -/

/-- The state in which `mx.read` has given lane `l` the word `v l`, and notes no command any more. -/
def readGiven (s : State) (c : Ctx) (f : Form) (t : Ty) (v : Nat → Word) : State :=
  finish (putLanes (updPath s c.pid (fun p => { p with mxIds := none })) c.pid (dstOf c f t)
    ((pathMask s c.pid).lanes.map (fun l => (l, v l)))) c f

/-- The lanes whose row or column is beyond 63. -/
def farLanes (s : State) (c : Ctx) (f : Form) : List Nat :=
  (pathMask s c.pid).lanes.filter (fun l => decide (64 ≤ (mxRowCol s c f l).1) || decide (64 ≤ (mxRowCol s c f l).2))

section
variable {f : Form} {s : State} {c : Ctx} (issues : Issues s f c) (fresh : (pathAt s c.pid).mxIds = none)
  (idle : ∀ i k, (i, k) ∈ s.e.cmds → k.engine = 3 → k.core = coreOfWarp c.warp → ∀ t ∈ mxTiles k, t ∉ mxReadTiles c f)
  (here : ∀ t ∈ mxReadTiles c f, tilePresent s (coreOfWarp c.warp) t = true)
include issues

theorem execMxRead_far (element : modOf f = 0) (far : farLanes s c f ≠ []) :
    exec (.mxRead f) s = .next (raise s c f (plainTrap 0x10 (farLanes s c f))) := by
  rw [exec_mxRead, execMxRead, issuing_eq issues]
  simp only [element, if_true]
  exact congrArg Host.Outcome.next (if_pos (show (!(farLanes s c f).isEmpty) = true by simpa using far))

include fresh idle here

/-- With nothing to wait for, the read fails its gang at a lost element and else gives each lane its word. -/
theorem execMxRead_reads (near : modOf f = 0 → farLanes s c f = []) :
    exec (.mxRead f) s = .next (
      if lostRead s c f (coreOfWarp c.warp) (mxReadTiles c f) (if modOf f = 0 then formTy c f else .i32) then
        failGang (endIssue s) c.gang 7 0
      else readGiven s c f (if modOf f = 0 then formTy c f else .i32) (fun l => if modOf f = 0 then
        BitVec.ofNat 64 (accElem s (coreOfWarp c.warp) ((mxReadTiles c f).headD 0) ((if modOf f = 0 then formTy c f else .i32) == .f64)
          (64 * (mxRowCol s c f l).1 + (mxRowCol s c f l).2))
        else flagWord s (coreOfWarp c.warp) (mxReadTiles c f))) := by
  have ids : ((mxCmdsOf s (coreOfWarp c.warp)).filter (fun k => (mxTiles k.2).any (fun x => (mxReadTiles c f).contains x))).map (·.1) = [] := by
    simp only [List.map_eq_nil_iff, List.filter_eq_nil_iff, mxCmdsOf, List.mem_filter, Bool.and_eq_true, beq_iff_eq]
    rintro ⟨i, k⟩ ⟨mem, engine, core⟩
    simpa using idle i k mem engine core
  have present : (mxReadTiles c f).find? (fun x => !tilePresent s (coreOfWarp c.warp) x) = none :=
    List.find?_eq_none.2 fun x hx => by simp [here x hx]
  have bad : (if modOf f = 0 then farLanes s c f else []).isEmpty = true := by
    split
    · simp [near ‹_›]
    · rfl
  rw [exec_mxRead, execMxRead, issuing_eq issues]
  simp only [fresh, ids, present]
  exact congrArg Host.Outcome.next (if_neg (show ¬(!(if modOf f = 0 then farLanes s c f else []).isEmpty) = true by simp [bad]))

end

theorem readGiven_delivers {f : Form} {s : State} {c : Ctx} (issues : Issues s f c) (canon : Canonical s) (t : Ty) (v : Nat → Word) :
    Delivers s (readGiven s c f t v) c f (dstOf c f t) (pathMask s c.pid).lanes v ∧ (readGiven s c f t v).m = s.m ∧
      (readGiven s c f t v).e = s.e := by
  have ready : Prepared s (updPath s c.pid (fun p => { p with mxIds := none })) c :=
    (Prepared.of_issues issues canon).updPath (fun _ => rfl) (fun _ => rfl)
  have ended := ready.deliver f (dstOf c f t) v
  exact ⟨ended.delivers rfl, ended.rest.mem, ended.rest.engines⟩

/-- Settles O33: once there is nothing to wait for, the read faults, fails its gang or gives every lane its word. -/
theorem matrixReadsDeliverElementsAndFlags : Obligations.MatrixReadsDeliverElementsAndFlags := by
  unfold Obligations.MatrixReadsDeliverElementsAndFlags
  intro f s c issues canon md core ls n wide pair ts k row col far flag reads fresh idle here
  have tiles : mxReadTiles c f = ts := by
    simp only [mxReadTiles, ts, pair, wide]
    simp only [Bool.or_eq_true, Bool.and_eq_true, beq_iff_eq]
    rfl
  have head : (mxReadTiles c f).headD 0 = n := by
    rw [tiles]
    simp only [ts]
    split <;> rfl
  have rowCol : ∀ l, mxRowCol s c f l = (row l, col l) := fun l => by cases f <;> rfl
  have farEq : farLanes s c f = far := by simp only [farLanes, rowCol, far, ls]
  have performs := execMxRead_reads issues fresh (tiles ▸ idle) (tiles ▸ here)
  have lostEq (element : modOf f = 0) : lostRead s c f core (mxReadTiles c f) (if modOf f = 0 then formTy c f else .i32) =
      ls.any (fun l => lostElem s core n wide (64 * row l + col l)) := by
    simp only [lostRead, element, if_true, head, rowCol, beq_self_eq_true, Bool.true_and]
    rfl
  refine ⟨fun element some => ?_, fun element near lost => ?_, fun element near whole => ?_, fun flags => ?_⟩
  · rw [← farEq] at some ⊢
    exact execMxRead_far issues element some
  · rw [performs fun _ => farEq.trans near, if_pos]
    exact (lostEq element).trans (List.any_eq_true.2 lost)
  · rw [show reads = _ from rfl]
    obtain ⟨delivers, memory, engines⟩ := readGiven_delivers issues canon (formTy c f)
      (fun l => BitVec.ofNat 64 (accElem s core n wide (64 * row l + col l)))
    refine ⟨_, _, ?_, delivers, memory, engines, fun _ _ => rfl⟩
    rw [performs fun _ => farEq.trans near, if_neg]
    · simp only [element, if_true, head, rowCol]
      rfl
    · rw [lostEq element, List.any_eq_true]
      rintro ⟨l, mem, lost⟩
      exact Bool.false_ne_true ((whole l mem).symm.trans lost)
  · obtain ⟨delivers, memory, engines⟩ := readGiven_delivers issues canon .i32 (fun _ => flagWord s core ts)
    refine ⟨_, _, ?_, delivers, memory, engines, fun _ _ => flagWord_bits s core n pair⟩
    rw [performs fun element => absurd element flags, if_neg (by simp [lostRead, flags])]
    simp only [flags, if_false, tiles]
    rfl

end Sys2Proof.Machine
end

section
/-!
SUPPORT. O37, O38: barrier words, the lanes at them, and the operations at their banks (R343 to R347).
-/
namespace Sys2Proof.Machine

/-! ### The fields of a barrier word -/

theorem barWord_fields (old : Nat) (d : Bool) (ph mem arr : Nat) :
    let w := barWord old d ph mem arr
    w < 2 ^ 64 ∧ barDef w = d ∧ barPh w = ph % 65536 ∧ barMem w = mem % 65536 ∧ barArr w = arr % 65536 := by
  have carried : bitsOf old 48 15 < 2 ^ 15 := Nat.mod_lt _ (by decide)
  refine ⟨?_, ?_, ?_, ?_, ?_⟩
  · cases d <;> simp [barWord] <;> omega
  · rw [barDef, Nat.testBit_eq_decide_div_mod_eq]
    cases d <;> simp [barWord] <;> omega
  all_goals cases d <;> simp [barPh, barMem, barArr, barWord] <;> rw [bitsOf] <;> omega

/-- Members join (R346). -/
theorem barJoinOp_fields {w k : Nat} (room : barMem w + k < 65536) :
    let v := barJoinOp w k
    v < 2 ^ 64 ∧ barDef v = barDef w ∧ barPh v = barPh w ∧ barMem v = barMem w + k ∧ barArr v = barArr w := by
  obtain ⟨lt, hd, hp, hm, ha⟩ := barWord_fields w (barDef w) (barPh w) (barMem w + k) (barArr w)
  refine ⟨lt, hd, ?_, ?_, ?_⟩
  · rw [barJoinOp, hp, barPh, bitsOf]; omega
  · rw [barJoinOp, hm]; omega
  · rw [barJoinOp, ha, barArr, bitsOf]; omega

/-- Members that have not arrived leave, and the phase does not complete (R346). -/
theorem barLeaveOp_fields {w k : Nat} (enough : k ≤ barMem w) (short : barArr w < barMem w - k) :
    let v := barLeaveOp w k 0
    v < 2 ^ 64 ∧ barDef v = barDef w ∧ barPh v = barPh w ∧ barMem v = barMem w - k ∧ barArr v = barArr w := by
  have hmem : barMem w < 65536 := Nat.mod_lt _ (by decide)
  have hph : barPh w < 65536 := Nat.mod_lt _ (by decide)
  obtain ⟨lt, hd, hp, hm, ha⟩ := barWord_fields w (barDef w) (barPh w) (barMem w - k) (barArr w)
  have left : barLeaveOp w k 0 = barWord w (barDef w) (barPh w) (barMem w - k) (barArr w) := by
    rw [barLeaveOp, if_neg (by omega), Nat.zero_min, Nat.sub_zero, barComplete, if_neg]
    rw [hm, ha]
    omega
  rw [left]
  exact ⟨lt, hd, by rw [hp]; omega, by rw [hm]; omega, by rw [ha]; omega⟩

/-- Members arrive, and the phase completes with the last (R346). -/
theorem barArriveOp_fields {w k : Nat} (room : barArr w + k < 65536) :
    let v := barArriveOp w k
    v < 2 ^ 64 ∧
      (if 0 < barMem w ∧ barMem w ≤ barArr w + k then
        barDef v = barDef w ∧ barPh v = (barPh w + 1) % 65536 ∧ barMem v = barMem w ∧ barArr v = 0
       else barDef v = barDef w ∧ barPh v = barPh w ∧ barMem v = barMem w ∧ barArr v = barArr w + k) := by
  have hmem : barMem w < 65536 := Nat.mod_lt _ (by decide)
  have hph : barPh w < 65536 := Nat.mod_lt _ (by decide)
  obtain ⟨lt, hd, hp, hm, ha⟩ := barWord_fields w (barDef w) (barPh w) (barMem w) (barArr w + k)
  obtain ⟨lt', hd', hp', hm', ha'⟩ := barWord_fields (barWord w (barDef w) (barPh w) (barMem w) (barArr w + k)) (barDef w)
    (barPh w + 1) (barMem w) 0
  have arrived : barArriveOp w k = if 0 < barMem w ∧ barMem w ≤ barArr w + k then
      barWord (barWord w (barDef w) (barPh w) (barMem w) (barArr w + k)) (barDef w) (barPh w + 1) (barMem w) 0
      else barWord w (barDef w) (barPh w) (barMem w) (barArr w + k) := by
    have fields : barMem (barWord w (barDef w) (barPh w) (barMem w) (barArr w + k)) = barMem w ∧
        barArr (barWord w (barDef w) (barPh w) (barMem w) (barArr w + k)) = barArr w + k ∧
        barPh (barWord w (barDef w) (barPh w) (barMem w) (barArr w + k)) = barPh w := ⟨by rw [hm]; omega, by rw [ha]; omega, by rw [hp]; omega⟩
    rw [barArriveOp, barComplete, hd, fields.1, fields.2.1, fields.2.2]
  rw [arrived]
  split
  · exact ⟨lt', hd', by rw [hp'], by rw [hm']; omega, by rw [ha']⟩
  · exact ⟨lt, hd, by rw [hp]; omega, by rw [hm]; omega, by rw [ha]; omega⟩

/-! ### Operations at a bank -/

/-- A word stored at its bank reads back, and the bytes around it hold what they held. -/
theorem scrStore_word (s : State) (core pa v : Nat) (wf : SMap.wf 0 s.e.scr = true) (lt : v < 2 ^ 64) :
    EnginesOnly s (scrStore s core pa 8 v) ∧ scrRead (scrStore s core pa 8 v) core pa 8 = v ∧
      ∀ q, (q < core * 2 ^ 18 + pa ∨ core * 2 ^ 18 + pa + 8 ≤ q) → (scrStore s core pa 8 v).e.scr.getD 0 q = s.e.scr.getD 0 q := by
  refine ⟨⟨_, rfl⟩, ?_, fun q outside => scr_scrWrite_ne s v fun i hi => by omega⟩
  exact (scrRead_scrWrite core pa 8 v wf).trans (Nat.mod_eq_of_lt lt)

/-- Lanes that name one word form one group. -/
theorem byWord_of_oneHome {x : BarLane} {xs : List BarLane} (same : ∀ y ∈ xs, y.home = x.home) : byWord (x :: xs) = [(x, x :: xs)] := by
  induction xs generalizing x with
  | nil => rfl
  | cons y ys ih =>
    have first : y.home = x.home := same y List.mem_cons_self
    have rest := ih (x := y) fun z hz => (same z (List.mem_cons_of_mem _ hz)).trans first.symm
    rw [byWord, rest]
    simp [first]

theorem atBanks_of_oneHome (s : State) {xs : List BarLane} {home : Nat × Nat} (some : xs ≠ []) (same : ∀ x ∈ xs, x.home = .some home)
    (op : State → Nat → List BarLane → Nat) :
    atBanks s xs op = scrStore s home.1 home.2 8 (op s (scrRead s home.1 home.2 8) xs) := by
  obtain ⟨x, xs, rfl⟩ := List.exists_cons_of_ne_nil some
  have here := same x List.mem_cons_self
  rw [atBanks, byWord_of_oneHome fun y hy => (same y (List.mem_cons_of_mem _ hy)).trans here.symm]
  simp [barHome, barValue, here]

/-! ### The threads' slots -/

/-- Each lane's thread has its slots changed. -/
def slotsSet (s : State) (pid : Nat) (xs : List BarLane) (g : BarLane → List BarSlot → List BarSlot) : State :=
  xs.foldl (fun s x => setBars s (threadKey pid x.lane) (g x)) s

theorem slotsSet_eq (s : State) (pid : Nat) (xs : List BarLane) (g : BarLane → List BarSlot → List BarSlot) :
    ∃ th, slotsSet s pid xs g = { s with x := { s.x with threads := th } } :=
  foldl_inv (fun t => ∃ th, t = { s with x := { s.x with threads := th } }) _
    (fun t x h => by obtain ⟨th, rfl⟩ := h; exact ⟨_, rfl⟩) s xs ⟨_, rfl⟩

theorem bars_setBars (s : State) (t k : Nat) (f : List BarSlot → List BarSlot) :
    (threadAt (setBars s t f) k).bars = if k = t then f (threadAt s k).bars else (threadAt s k).bars := by
  split
  · next h =>
    subst h
    simp [setBars, setThread, threadAt, SMap.getD, SMap.find?_ins_self]
  · next h => simp [setBars, setThread, threadAt, SMap.getD, SMap.find?_ins_ne _ _ h]

/-- A lane's slots are changed once: each lane has a thread of its own. -/
theorem bars_slotsSet {pid : Nat} {xs : List BarLane} (distinct : (xs.map (·.lane)).Nodup) (g : BarLane → List BarSlot → List BarSlot)
    {x : BarLane} (mem : x ∈ xs) (s : State) :
    (threadAt (slotsSet s pid xs g) (threadKey pid x.lane)).bars = g x (threadAt s (threadKey pid x.lane)).bars := by
  have away : ∀ (ys : List BarLane) (t : State), x.lane ∉ ys.map (·.lane) →
      (threadAt (slotsSet t pid ys g) (threadKey pid x.lane)).bars = (threadAt t (threadKey pid x.lane)).bars := by
    intro ys
    induction ys with
    | nil => intro t _; rfl
    | cons y ys ih =>
      intro t out
      simp only [List.map_cons, List.mem_cons, not_or] at out
      refine (ih _ out.2).trans ?_
      rw [bars_setBars, if_neg]
      simpa [threadKey] using out.1
  induction xs generalizing s with
  | nil => simp at mem
  | cons y ys ih =>
    simp only [List.map_cons, List.nodup_cons] at distinct
    rcases List.mem_cons.1 mem with rfl | mem
    · refine (away ys _ distinct.1).trans ?_
      rw [bars_setBars, if_pos rfl]
    · refine (ih distinct.2 mem _).trans ?_
      rw [bars_setBars, if_neg]
      intro same
      have : x.lane = y.lane := by simpa [threadKey] using same
      exact distinct.1 (this ▸ List.mem_map_of_mem mem)

/-! ### The lanes of a barrier instruction -/

/-- The word that a lane names. -/
def barAddr (s : State) (c : Ctx) (f : Form) (l : Nat) : BitVec 32 := (src s c f 0 .ptrS false l).setWidth 32

/-- The thread's slot for the word that its lane names. -/
def barSlot (s : State) (c : Ctx) (f : Form) (l : Nat) : Option BarSlot :=
  (threadAt s (threadKey c.pid l)).bars.find? (fun b => b.word == barAddr s c f l)

def barLaneOf (s : State) (c : Ctx) (f : Form) (l : Nat) : BarLane :=
  { lane := l, word := barAddr s c f l, home := scrHome s c.gang (barAddr s c f l) 8, slot := barSlot s c f l,
    full := decide (8 ≤ (threadAt s (threadKey c.pid l)).bars.length) }

theorem barLanes_eq (s : State) (c : Ctx) (f : Form) : barLanes s c f = (pathMask s c.pid).lanes.map (barLaneOf s c f) := rfl

theorem lanes_barLanes (s : State) (c : Ctx) (f : Form) : (barLanes s c f).map (·.lane) = (pathMask s c.pid).lanes := by
  rw [barLanes_eq, List.map_map]
  exact List.map_id _

/-- Every lane names an aligned word of a bank that no command has locked. -/
structure BarReady (s : State) (c : Ctx) (f : Form) (core pa : Nat → Nat) : Prop where
  aligned : ∀ l ∈ (pathMask s c.pid).lanes, (barAddr s c f l).toNat % 8 = 0
  homes : ∀ l ∈ (pathMask s c.pid).lanes, scrHome s c.gang (barAddr s c f l) 8 = some (core l, pa l)
  unlocked : ∀ l ∈ (pathMask s c.pid).lanes, lockedBy s (core l) (pa l / 512) 1 = false

section
variable {s : State} {c : Ctx} {f : Form} {core pa : Nat → Nat} (ready : BarReady s c f core pa)
include ready

theorem barHome_of_ready {l : Nat} (hl : l ∈ (pathMask s c.pid).lanes) : barHome (barLaneOf s c f l) = (core l, pa l) := by
  simp [barHome, barLaneOf, ready.homes l hl]

theorem barValue_of_ready (t : State) {l : Nat} (hl : l ∈ (pathMask s c.pid).lanes) :
    barValue t (barLaneOf s c f l) = scrRead t (core l) (pa l) 8 := by
  rw [barValue, barHome_of_ready ready hl]

/-- With its words in reach and no lane at fault, an operation on barrier words is carried out. -/
theorem atBarrier_performs (issues : Issues s f c) {bad : State → BarLane → Bool} (k : Ctx → List BarLane → State)
    (good : ∀ l ∈ (pathMask s c.pid).lanes, bad s (barLaneOf s c f l) = false) :
    atBarrier f s bad k = .next (k c (barLanes s c f)) := by
  have at5 : (barLanes s c f).filter (fun x => x.word.toNat % 8 != 0) = [] := by
    simpa [barLanes_eq, List.filter_eq_nil_iff, barLaneOf] using ready.aligned
  have at12 : (barLanes s c f).filter (fun x => x.home.isNone) = [] := by
    simp only [barLanes_eq, List.filter_eq_nil_iff, List.mem_map, forall_exists_index, and_imp, forall_apply_eq_imp_iff₂]
    intro l hl
    simp [barLaneOf, ready.homes l hl]
  have free : (barLanes s c f).find? (fun x => lockedBy s (barHome x).1 ((barHome x).2 / 512) 1) = none := by
    simp only [barLanes_eq, List.find?_eq_none, List.mem_map, forall_exists_index, and_imp, forall_apply_eq_imp_iff₂]
    intro l hl
    simp [barHome_of_ready ready hl, ready.unlocked l hl]
  have hit : (barLanes s c f).filter (bad s) = [] := by
    simpa [barLanes_eq, List.filter_eq_nil_iff] using good
  rw [atBarrier, issuing_eq issues]
  simp only [at5, at12, free, hit, List.isEmpty_nil, Bool.not_true, Bool.false_eq_true, if_false]

end

/-- The lanes at words out of alignment fault first (kind 5). -/
theorem atBarrier_misaligned {s : State} {c : Ctx} {f : Form} (issues : Issues s f c) (bad : State → BarLane → Bool)
    (k : Ctx → List BarLane → State) {off : List Nat} (eq : off = (pathMask s c.pid).lanes.filter (fun l => (barAddr s c f l).toNat % 8 != 0))
    (some : off ≠ []) :
    atBarrier f s bad k = .next (raise s c f (addrTrap 5 2 (off.map (fun l => (l, (barAddr s c f l).setWidth 64))))) := by
  have at5 : (barLanes s c f).filter (fun x => x.word.toNat % 8 != 0) = off.map (barLaneOf s c f) := by
    rw [barLanes_eq, List.filter_map, eq]
    rfl
  rw [atBarrier, issuing_eq issues]
  simp only [at5, List.isEmpty_map, List.map_map]
  exact congrArg Host.Outcome.next (if_pos (by simpa using some))

/-- A state with the same registers gives the same operands. -/
theorem src_congr {s u : State} {c : Ctx} (f : Form) (k : Nat) (t : Ty) (signed : Bool) (l : Nat) (issue : u.c.issue = s.c.issue)
    (warps : u.x.warps = s.x.warps) (vals : u.x.vals = s.x.vals) (vregs : u.x.vregs = s.x.vregs)
    (sregs : ∀ r, getSreg u c.pid r = getSreg s c.pid r) : src u c f k t signed l = src s c f k t signed l := by
  cases f with
  | p w => simp only [src, operandVal, getVal, vals]
  | n w =>
    have vector : ∀ r, readVreg u c.warp r l = readVreg s c.warp r l := fun r => by
      simp only [readVreg, latchOf, issue, getVreg, vregs]
    have scalar : ∀ r, readSreg u c.pid r = readSreg s c.pid r := fun r => by
      simp only [readSreg, latchOf, issue, sregs]
    simp only [src, nativeVal, vector, scalar, specialOperand, tidOf, warpAt, warps]

end Sys2Proof.Machine
end

section
/-!
SUPPORT. O37: `bar.join`, `bar.leave` and `bar.arrive` of lanes that name one word (R346).
-/
namespace Sys2Proof.Machine

/-- The state in which the one word of a barrier instruction holds `v` and each lane's slots are changed by `g`. -/
def barChanged (s : State) (c : Ctx) (f : Form) (core pa v : Nat) (g : BarLane → List BarSlot → List BarSlot) : State :=
  slotsSet (scrStore s core pa 8 v) c.pid (barLanes s c f) g

section
variable {s : State} {c : Ctx} {f : Form} {core pa : Nat}

theorem length_barLanes : (barLanes s c f).length = (pathMask s c.pid).lanes.length := by
  rw [barLanes_eq, List.length_map]

theorem scrRead_congr {t u : State} (h : u.e.scr = t.e.scr) (core pa n : Nat) : scrRead u core pa n = scrRead t core pa n := by
  simp only [scrRead, scrBytes, h]

/-- The change is one of engines and threads. -/
theorem barChanged_shape (s : State) (c : Ctx) (f : Form) (core pa v : Nat) (g : BarLane → List BarSlot → List BarSlot) :
    ∃ e th, barChanged s c f core pa v g = { s with e := e, x := { s.x with threads := th } } := by
  obtain ⟨th, eq⟩ := slotsSet_eq (scrStore s core pa 8 v) c.pid (barLanes s c f) g
  exact ⟨_, th, eq⟩

theorem barChanged_ready (issues : Issues s f c) (canon : Canonical s) (v : Nat) (g : BarLane → List BarSlot → List BarSlot) :
    Prepared s (barChanged s c f core pa v g) c := by
  obtain ⟨e, th, shape⟩ := barChanged_shape s c f core pa v g
  rw [shape]
  exact (Prepared.of_issues issues canon).withThreads e th

/-- What a change of one barrier word and the lanes' slots leads to. -/
theorem barChanged_spec (canon : Canonical s) {v : Nat} (lt : v < 2 ^ 64) (g : BarLane → List BarSlot → List BarSlot) :
    let t := barChanged s c f core pa v g
    t.m = s.m ∧ scrRead t core pa 8 = v ∧
      (∀ q, (q < core * 2 ^ 18 + pa ∨ core * 2 ^ 18 + pa + 8 ≤ q) → t.e.scr.getD 0 q = s.e.scr.getD 0 q) ∧
      ∀ l ∈ (pathMask s c.pid).lanes, (threadAt t (threadKey c.pid l)).bars =
        g (barLaneOf s c f l) (threadAt s (threadKey c.pid l)).bars := by
  obtain ⟨-, word, bytes⟩ := scrStore_word s core pa v canon.2.2.2.2.1 lt
  obtain ⟨th, eq⟩ := slotsSet_eq (scrStore s core pa 8 v) c.pid (barLanes s c f) g
  refine ⟨?_, ?_, fun q outside => ?_, fun l hl => ?_⟩
  · rw [barChanged, eq]
    rfl
  · refine (scrRead_congr ?_ core pa 8).trans word
    rw [barChanged, eq]
  · rw [← bytes q outside, barChanged, eq]
  · have distinct : ((barLanes s c f).map (·.lane)).Nodup := by
      rw [lanes_barLanes]
      exact lanes_nodup _
    exact bars_slotsSet distinct g (x := barLaneOf s c f l) (List.mem_map_of_mem hl) _

/-- An operation on one barrier word without results. -/
theorem finish_barChanged (issues : Issues s f c) (canon : Canonical s) {v : Nat} (lt : v < 2 ^ 64)
    (g : BarLane → List BarSlot → List BarSlot) :
    let u := finish (barChanged s c f core pa v g) c f
    (Past s u c f ∧ u.m = s.m ∧ RegistersKept s u c.pid .none [] ∧
      ∀ q, (q < core * 2 ^ 18 + pa ∨ core * 2 ^ 18 + pa + 8 ≤ q) → u.e.scr.getD 0 q = s.e.scr.getD 0 q) ∧
      scrRead u core pa 8 = v ∧ ∀ l ∈ (pathMask s c.pid).lanes, (threadAt u (threadKey c.pid l)).bars =
        g (barLaneOf s c f l) (threadAt s (threadKey c.pid l)).bars := by
  have ended := (barChanged_ready (core := core) (pa := pa) issues canon v g).finish f
  obtain ⟨memory, word, bytes, slots⟩ := barChanged_spec (c := c) (f := f) (core := core) (pa := pa) canon lt g
  refine ⟨⟨ended.past, ended.rest.mem.trans memory, ended.registers, fun q outside => ?_⟩, ?_, fun l hl => ?_⟩
  · rw [ended.rest.engines, bytes q outside]
  · exact (scrRead_congr (by rw [ended.rest.engines]) core pa 8).trans word
  · rw [← slots l hl, threadAt, ended.threads]
    rfl

end

section
variable {s : State} {c : Ctx} {f : Form} {core pa : Nat} (issues : Issues s f c) (ready : BarReady s c f (fun _ => core) (fun _ => pa))
  (some : (pathMask s c.pid).lanes ≠ [])
include issues ready some

omit issues in
theorem atBanks_barLanes (op : State → Nat → List BarLane → Nat) :
    atBanks s (barLanes s c f) op = scrStore s core pa 8 (op s (scrRead s core pa 8) (barLanes s c f)) := by
  refine atBanks_of_oneHome s (home := (core, pa)) (by simpa [barLanes_eq] using some) ?_ op
  simp only [barLanes_eq, List.mem_map, forall_exists_index, and_imp, forall_apply_eq_imp_iff₂]
  exact ready.homes

theorem execBarJoin_eq (new : ∀ l ∈ (pathMask s c.pid).lanes, barSlot s c f l = none ∧ (threadAt s (threadKey c.pid l)).bars.length < 8) :
    exec (.barJoin f) s = .next (finish (barChanged s c f core pa
      (barJoinOp (scrRead s core pa 8) (pathMask s c.pid).lanes.length) (fun x bs => bs ++ [{ word := x.word, arr := none }])) c f) := by
  rw [exec_barJoin, execBarJoin, atBarrier_performs ready issues _ fun l hl => ?_]
  · rw [atBanks_barLanes ready some, length_barLanes]
    rfl
  · obtain ⟨slot, room⟩ := new l hl
    simp [barLaneOf, slot, room]

theorem execBarLeave_eq (joined : ∀ l ∈ (pathMask s c.pid).lanes, ∃ b, barSlot s c f l = .some b ∧ b.arr = none) :
    exec (.barLeave f) s = .next (finish (barChanged s c f core pa
      (barLeaveOp (scrRead s core pa 8) (pathMask s c.pid).lanes.length 0) (fun x bs => bs.filter (fun b => b.word != x.word))) c f) := by
  have none : (barLanes s c f).filter (arrivedNow s) = [] := by
    simp only [barLanes_eq, List.filter_eq_nil_iff, List.mem_map, forall_exists_index, and_imp, forall_apply_eq_imp_iff₂]
    intro l hl
    obtain ⟨b, slot, idle⟩ := joined l hl
    simp [arrivedNow, barLaneOf, slot, idle]
  rw [exec_barLeave, execBarLeave, atBarrier_performs ready issues _ fun l hl => ?_]
  · rw [atBanks_barLanes ready some, length_barLanes, none]
    rfl
  · obtain ⟨b, slot, -⟩ := joined l hl
    simp [barLaneOf, slot]

/-- The slots of a lane after its arrival: the phase is recorded with its word. -/
def slotsArrived (s : State) (x : BarLane) (bs : List BarSlot) : List BarSlot :=
  bs.map (fun b => if b.word = x.word then { b with arr := .some (BitVec.ofNat 16 (barPh (barValue s x))) } else b)

omit issues in
theorem arriveAll_eq : arriveAll s c (barLanes s c f) = barChanged s c f core pa
    (barArriveOp (scrRead s core pa 8) (pathMask s c.pid).lanes.length) (slotsArrived s) := by
  rw [arriveAll, List.foldl_map, atBanks_barLanes ready some, length_barLanes]
  rfl

omit some in
/-- No lane is at fault that has a slot and has not arrived in the phase. -/
theorem atBarrier_arrives (k : Ctx → List BarLane → State)
    (absent : ∀ l ∈ (pathMask s c.pid).lanes, ∃ b, barSlot s c f l = .some b ∧ b.arr ≠ .some (BitVec.ofNat 16 (barPh (scrRead s core pa 8)))) :
    atBarrier f s (fun s x => x.slot.isNone || arrivedNow s x) k = .next (k c (barLanes s c f)) := by
  refine atBarrier_performs ready issues k fun l hl => ?_
  obtain ⟨b, slot, other⟩ := absent l hl
  have slot : (barLaneOf s c f l).slot = .some b := slot
  have away : arrivedNow s (barLaneOf s c f l) = false := by
    rw [arrivedNow, slot, barValue_of_ready ready s hl]
    exact beq_eq_false_iff_ne.2 other
  rw [away, slot]
  rfl

theorem execBarArrive_eq (performed : (warpAt s c.warp).inflight = [])
    (absent : ∀ l ∈ (pathMask s c.pid).lanes, ∃ b, barSlot s c f l = .some b ∧ b.arr ≠ .some (BitVec.ofNat 16 (barPh (scrRead s core pa 8)))) :
    exec (.barArrive f) s = .next (finish (putLanes (barChanged s c f core pa
      (barArriveOp (scrRead s core pa 8) (pathMask s c.pid).lanes.length) (slotsArrived s)) c.pid (dstOf c f .i32)
      ((pathMask s c.pid).lanes.map (fun l => (l, BitVec.ofNat 64 (barPh (scrRead s core pa 8)))))) c f) := by
  have phases : (barLanes s c f).map (fun x => (x.lane, BitVec.ofNat 64 (barPh (barValue s x)))) =
      (pathMask s c.pid).lanes.map (fun l => (l, BitVec.ofNat 64 (barPh (scrRead s core pa 8)))) := by
    rw [barLanes_eq, List.map_map]
    refine List.map_congr_left fun l hl => ?_
    show (l, BitVec.ofNat 64 (barPh (barValue s (barLaneOf s c f l)))) = _
    rw [barValue_of_ready ready s hl]
  rw [exec_barArrive, execBarArrive, barRelease, issuing_eq issues, performed, ← arriveAll_eq ready some, ← phases]
  exact (if_pos rfl).trans (atBarrier_arrives issues ready _ absent)

end

/-- A thread's slot for its word records the phase in which it arrived. -/
theorem mem_slotsArrived {s : State} {c : Ctx} {f : Form} {l : Nat} {b : BarSlot} {ph : Nat} (slot : barSlot s c f l = some b)
    (value : barPh (barValue s (barLaneOf s c f l)) = ph) :
    ∃ b' ∈ slotsArrived s (barLaneOf s c f l) (threadAt s (threadKey c.pid l)).bars,
      b'.word = barAddr s c f l ∧ b'.arr = some (BitVec.ofNat 16 ph) := by
  have named : b.word = barAddr s c f l := by simpa using List.find?_some slot
  refine ⟨{ b with arr := some (BitVec.ofNat 16 ph) }, List.mem_map.2 ⟨b, List.mem_of_find?_eq_some slot, ?_⟩, named, rfl⟩
  rw [if_pos (show b.word = (barLaneOf s c f l).word from named), value]

/-- Settles O37: one operation at the word's bank, and each thread's slot. -/
theorem barrierWordsCountTheirMembers : Obligations.BarrierWordsCountTheirMembers := by
  unfold Obligations.BarrierWordsCountTheirMembers
  intro f s c a core pa issues canon ls k w word bars mine fieldsOf kept ph1 nonzero named aligned home free room arrivals
  have named : ∀ l ∈ ls, barAddr s c f l = a := named
  have ready : BarReady s c f (fun _ => core) (fun _ => pa) :=
    ⟨fun l hl => by rw [named l hl, aligned], fun l hl => by rw [named l hl, home], fun _ _ => free⟩
  have some : ls ≠ [] := fun none => nonzero (by simp [k, none])
  have slotOf : ∀ l ∈ ls, barSlot s c f l = mine l := fun l hl => by rw [barSlot, named l hl]
  have laneWord : ∀ l ∈ ls, (barLaneOf s c f l).word = a := named
  refine ⟨fun new => ?_, fun joined enough short => ?_, fun absent performed => ?_⟩
  · obtain ⟨lt, fields⟩ := barJoinOp_fields (w := w) room
    obtain ⟨keeps, value, slots⟩ := finish_barChanged (c := c) (f := f) (core := core) (pa := pa) issues canon lt
      (fun x bs => bs ++ [{ word := x.word, arr := none }])
    refine ⟨_, execBarJoin_eq issues ready some fun l hl => by rw [slotOf l hl]; exact new l hl, keeps, ?_, fun l hl => ?_⟩
    · show _ ∧ _
      rw [show word _ = _ from value]
      exact fields
    · rw [← laneWord l hl]
      exact slots l hl
  · obtain ⟨lt, fields⟩ := barLeaveOp_fields (w := w) enough short
    obtain ⟨keeps, value, slots⟩ := finish_barChanged (c := c) (f := f) (core := core) (pa := pa) issues canon lt
      (fun x bs => bs.filter (fun b => b.word != x.word))
    refine ⟨_, execBarLeave_eq issues ready some fun l hl => by rw [slotOf l hl]; exact joined l hl, keeps, ?_, fun l hl b hb => ?_⟩
    · show _ ∧ _
      rw [show word _ = _ from value]
      exact fields
    · rw [show bars _ l = _ from slots l hl, laneWord l hl] at hb
      simpa using (List.mem_filter.1 hb).2
  · obtain ⟨lt, fields⟩ := barArriveOp_fields (w := w) arrivals
    have ended := (barChanged_ready (f := f) (core := core) (pa := pa) issues canon (barArriveOp w k) (slotsArrived s)).deliver f (dstOf c f .i32)
      (fun _ => BitVec.ofNat 64 (barPh w))
    obtain ⟨memory, value, -, slots⟩ := barChanged_spec (c := c) (f := f) (core := core) (pa := pa) canon lt (slotsArrived s)
    have value : word _ = barArriveOp w k := (scrRead_congr (congrArg Engines.scr ended.rest.engines) core pa 8).trans value
    refine ⟨_, execBarArrive_eq issues ready some performed fun l hl => by rw [slotOf l hl]; exact absent l hl, ended.past,
      ended.rest.mem.trans memory, ended.registers, ended.results, ?_, fun l hl => ?_⟩
    · show if _ then _ ∧ _ else _ ∧ _
      rw [value]
      exact fields
    · obtain ⟨b, slot, -⟩ := absent l hl
      obtain ⟨b', mem, at_, arr⟩ := mem_slotsArrived (ph := barPh w) ((slotOf l hl).trans slot)
        (by rw [barValue_of_ready ready s hl])
      rw [show bars _ l = (threadAt _ _).bars from rfl, threadAt, ended.threads, ← threadAt, slots l hl]
      exact ⟨b', mem, at_.trans (named l hl), arr⟩

end Sys2Proof.Machine
end

section
/-!
SUPPORT. O38: waits at barrier words, `bar.sync`, and the release of waiting paths (R346, R347).
-/
namespace Sys2Proof.Machine

/-! ### Waiting at words with phases -/

/-- The words at which lanes wait, with the phases that they wait to end. -/
def barWaits (ls : List Nat) (core pa : Nat → Nat) (ph : Nat → BitVec 16) : List (Nat × Nat × Nat × BitVec 16) :=
  ls.map (fun l => (l, core l, pa l, ph l))

/-- What a lane receives when its wait is over: DEF of its word. -/
def barResult (s : State) (core pa : Nat → Nat) (l : Nat) : Word := if barDef (scrRead s (core l) (pa l) 8) = true then 1 else 0

/-- The state in which the path has waited long enough. -/
def barPassed (v : State) (c : Ctx) : State := updPath v c.pid (fun p => { p with syncWait := false })

theorem barOver_iff (s : State) (core pa : Nat) (ph : BitVec 16) :
    barOver s (core, pa, ph) = true ↔ barDef (scrRead s core pa 8) = true ∨ barPh (scrRead s core pa 8) ≠ ph.toNat := by
  simp [barOver]

section
variable {v : State} {c : Ctx} {f : Form} {ls : List Nat} {core pa : Nat → Nat} {ph : Nat → BitVec 16}

theorem barAwait_of_over
    (ended : ∀ l ∈ ls, barDef (scrRead v (core l) (pa l) 8) = true ∨ barPh (scrRead v (core l) (pa l) 8) ≠ (ph l).toNat) :
    barAwait v c f (barWaits ls core pa ph) =
      finish (putLanes (barPassed v c) c.pid (dstOf c f .i1) (ls.map (fun l => (l, barResult v core pa l)))) c f := by
  have all : ((barWaits ls core pa ph).map (fun w => (w.2.1, w.2.2.1, w.2.2.2))).all (barOver v) = true := by
    simp only [barWaits, List.map_map, List.all_map, List.all_eq_true]
    exact fun l hl => (barOver_iff ..).2 (ended l hl)
  unfold barAwait
  dsimp only
  rw [if_pos all, barWaits, List.map_map]
  rfl

theorem barAwait_of_open
    (open_ : ∃ l ∈ ls, barDef (scrRead v (core l) (pa l) 8) = false ∧ barPh (scrRead v (core l) (pa l) 8) = (ph l).toNat) :
    barAwait v c f (barWaits ls core pa ph) = hold v c.pid f (.barrier (ls.map (fun l => (core l, pa l, ph l)))) := by
  obtain ⟨l, hl, hd, hp⟩ := open_
  have words : (barWaits ls core pa ph).map (fun w => (w.2.1, w.2.2.1, w.2.2.2)) = ls.map (fun l => (core l, pa l, ph l)) := by
    rw [barWaits, List.map_map]
    rfl
  unfold barAwait
  dsimp only
  rw [words, if_neg]
  intro all
  rcases (barOver_iff ..).1 (List.all_eq_true.1 all _ (List.mem_map_of_mem hl)) with h | h
  · rw [hd] at h
    cases h
  · exact h hp

end

/-- Past its wait, the path holds each lane's result and has no arrival pending. -/
theorem barPassed_ended {s v : State} {c : Ctx} (ready : Prepared s v c) (f : Form) (g : Nat → Word) :
    let u := finish (putLanes (barPassed v c) c.pid (dstOf c f .i1) ((pathMask s c.pid).lanes.map (fun l => (l, g l)))) c f
    Ended s (barPassed v c) u c f (dstOf c f .i1) (pathMask s c.pid).lanes g ∧ (pathAt u c.pid).syncWait = false := by
  have ended := (ready.updPath (g := fun p => { p with syncWait := false }) (fun _ => rfl) (fun _ => rfl)).deliver f (dstOf c f .i1) g
  have path := ended.path
  rw [pathAt_updPath_self _ ready.alive] at path
  exact ⟨ended, (congrArg Path.syncWait path :)⟩

section
variable {f : Form} {s : State} {c : Ctx} {core pa : Nat → Nat} (issues : Issues s f c)
include issues

/-- A wait that is over when its instruction issues. -/
theorem barAwait_goesOn (canon : Canonical s) {ph : Nat → BitVec 16} (left : ∀ l ∈ (pathMask s c.pid).lanes,
      barDef (scrRead s (core l) (pa l) 8) = true ∨ barPh (scrRead s (core l) (pa l) 8) ≠ (ph l).toNat) {o : Out}
    (awaits : o = .next (barAwait s c f (barWaits (pathMask s c.pid).lanes core pa ph))) :
    ∃ u, o = .next u ∧ u.m = s.m ∧ u.e = s.e ∧ Delivers s u c f (dstOf c f .i1) (pathMask s c.pid).lanes (barResult s core pa) ∧
      (pathAt u c.pid).syncWait = false := by
  obtain ⟨ended, passed⟩ := barPassed_ended (.of_issues issues canon) f (barResult s core pa)
  exact ⟨_, awaits.trans (congrArg Host.Outcome.next (barAwait_of_over left)), ended.rest.mem, ended.rest.engines,
    ended.delivers rfl, passed⟩

theorem execBarWait_eq (ready : BarReady s c f core pa) : exec (.barWait f) s = .next (barAwait s c f
    (barWaits (pathMask s c.pid).lanes core pa (fun l => (src s c f 1 .i32 false l).setWidth 16))) := by
  rw [exec_barWait, execBarWait, atBarrier_performs ready issues _ fun _ _ => rfl, barLanes_eq, List.map_map]
  congr 2
  refine List.map_congr_left fun l hl => ?_
  simp only [Function.comp_apply, barHome_of_ready ready hl]
  rfl

/-- The phase that a lane's slot has recorded. -/
def slotPhase (s : State) (c : Ctx) (f : Form) (l : Nat) : BitVec 16 := ((barSlot s c f l).bind (·.arr)).getD 0

omit issues in
theorem barAwait_ofSlots (homes : ∀ l ∈ (pathMask s c.pid).lanes, scrHome s c.gang (barAddr s c f l) 8 = some (core l, pa l)) :
    barAwait s c f ((barLanes s c f).map (fun x => (x.lane, (barHome x).1, (barHome x).2, (x.slot.bind (·.arr)).getD 0))) =
      barAwait s c f (barWaits (pathMask s c.pid).lanes core pa (slotPhase s c f)) := by
  rw [barLanes_eq, List.map_map]
  congr 1
  refine List.map_congr_left fun l hl => ?_
  simp only [Function.comp_apply, barHome, barLaneOf, homes l hl]
  rfl

theorem execBarSync_later (homes : ∀ l ∈ (pathMask s c.pid).lanes, scrHome s c.gang (barAddr s c f l) 8 = some (core l, pa l))
    (arrived : (pathAt s c.pid).syncWait = true) :
    exec (.barSync f) s = .next (barAwait s c f (barWaits (pathMask s c.pid).lanes core pa (slotPhase s c f))) := by
  rw [exec_barSync, execBarSync, issuing_eq issues, ← barAwait_ofSlots homes]
  exact if_pos arrived

end

/-! ### An arrival that completes the phase -/

/-- The state in which the lanes of a `bar.sync` have arrived. -/
def syncArrived (s : State) (c : Ctx) (f : Form) (core pa : Nat) : State :=
  updPath (barChanged s c f core pa (barArriveOp (scrRead s core pa 8) (pathMask s c.pid).lanes.length) (slotsArrived s)) c.pid
    (fun p => { p with syncWait := true })

section
variable {f : Form} {s : State} {c : Ctx} {core pa : Nat} (issues : Issues s f c) (canon : Canonical s)
include issues canon

theorem syncArrived_ready : Prepared s (syncArrived s c f core pa) c :=
  (barChanged_ready issues canon _ _).updPath (fun _ => rfl) (fun _ => rfl)

omit issues canon in
/-- An arrival changes engines, threads and paths. -/
theorem syncArrived_shape : ∃ e th ps, syncArrived s c f core pa = { s with e := e, x := { s.x with threads := th, paths := ps } } := by
  rw [syncArrived]
  obtain ⟨e, th, shape⟩ := barChanged_shape s c f core pa (barArriveOp (scrRead s core pa 8) (pathMask s c.pid).lanes.length) (slotsArrived s)
  rw [shape]
  exact ⟨e, th, _, rfl⟩

theorem barAddr_syncArrived (l : Nat) : barAddr (syncArrived s c f core pa) c f l = barAddr s c f l := by
  obtain ⟨-, -, -, own⟩ := (syncArrived_ready (core := core) (pa := pa) issues canon).registers .none []
  obtain ⟨e, th, ps, shape⟩ := syncArrived_shape (s := s) (c := c) (f := f) (core := core) (pa := pa)
  have own : ∀ r, getSreg (syncArrived s c f core pa) c.pid r = getSreg s c.pid r := fun r => own r (by simp [sregOf])
  rw [shape] at own ⊢
  exact congrArg (BitVec.setWidth 32) (src_congr f 0 .ptrS false l rfl rfl rfl rfl own)

theorem pathMask_syncArrived : pathMask (syncArrived s c f core pa) c.pid = pathMask s c.pid := by
  have path := pathAt_updPath_self (fun p => { p with syncWait := true })
    (barChanged_ready (f := f) (core := core) (pa := pa) issues canon (barArriveOp (scrRead s core pa 8) (pathMask s c.pid).lanes.length)
      (slotsArrived s)).alive
  obtain ⟨e, th, shape⟩ := barChanged_shape s c f core pa (barArriveOp (scrRead s core pa 8) (pathMask s c.pid).lanes.length) (slotsArrived s)
  rw [pathMask, syncArrived, path, shape]
  rfl

theorem scrHome_syncArrived (l : Nat) :
    scrHome (syncArrived s c f core pa) c.gang (barAddr (syncArrived s c f core pa) c f l) 8 = scrHome s c.gang (barAddr s c f l) 8 := by
  rw [barAddr_syncArrived issues canon]
  obtain ⟨e, th, ps, shape⟩ := syncArrived_shape (s := s) (c := c) (f := f) (core := core) (pa := pa)
  rw [shape]
  rfl

variable (ready : BarReady s c f (fun _ => core) (fun _ => pa)) (room : barArr (scrRead s core pa 8) + (pathMask s c.pid).lanes.length < 65536)
include ready room

/-- After the arrival a thread's slot records its phase. -/
theorem slotPhase_syncArrived {l : Nat} (hl : l ∈ (pathMask s c.pid).lanes) {b : BarSlot} (slot : barSlot s c f l = some b) :
    slotPhase (syncArrived s c f core pa) c f l = BitVec.ofNat 16 (barPh (scrRead s core pa 8)) := by
  obtain ⟨lt, -⟩ := barArriveOp_fields room
  obtain ⟨-, -, -, slots⟩ := barChanged_spec (c := c) (f := f) (core := core) (pa := pa) canon lt (slotsArrived s)
  have bars : (threadAt (syncArrived s c f core pa) (threadKey c.pid l)).bars =
    slotsArrived s (barLaneOf s c f l) (threadAt s (threadKey c.pid l)).bars := slots l hl
  have named : b.word = barAddr s c f l := by simpa using List.find?_some slot
  have kept : (fun b : BarSlot => b.word == barAddr s c f l) ∘ (fun b : BarSlot => if b.word = (barLaneOf s c f l).word then
      { b with arr := some (BitVec.ofNat 16 (barPh (barValue s (barLaneOf s c f l)))) } else b) = fun b => b.word == barAddr s c f l := by
    funext b
    simp only [Function.comp_apply]
    split <;> rfl
  have found : barSlot (syncArrived s c f core pa) c f l =
      some { b with arr := some (BitVec.ofNat 16 (barPh (scrRead s core pa 8))) } := by
    rw [barSlot, bars, barAddr_syncArrived issues canon, slotsArrived, List.find?_map, kept, ← barSlot, slot]
    rw [Option.map_some, if_pos (show b.word = (barLaneOf s c f l).word from named), barValue_of_ready ready s hl]
  rw [slotPhase, found]
  rfl

theorem execBarSync_now (fresh : (pathAt s c.pid).syncWait = false) (performed : (warpAt s c.warp).inflight = [])
    (some : (pathMask s c.pid).lanes ≠ [])
    (absent : ∀ l ∈ (pathMask s c.pid).lanes, ∃ b, barSlot s c f l = .some b ∧ b.arr ≠ .some (BitVec.ofNat 16 (barPh (scrRead s core pa 8)))) :
    exec (.barSync f) s = .next (barAwait (syncArrived s c f core pa) c f (barWaits (pathMask s c.pid).lanes (fun _ => core) (fun _ => pa)
      (fun _ => BitVec.ofNat 16 (barPh (scrRead s core pa 8))))) := by
  have homes : ∀ l ∈ (pathMask (syncArrived s c f core pa) c.pid).lanes, scrHome (syncArrived s c f core pa) c.gang
      (barAddr (syncArrived s c f core pa) c f l) 8 = .some (core, pa) := fun l hl => by
    rw [scrHome_syncArrived issues canon]
    exact ready.homes l (pathMask_syncArrived issues canon ▸ hl)
  have phases : barWaits (pathMask (syncArrived s c f core pa) c.pid).lanes (fun _ => core) (fun _ => pa)
      (slotPhase (syncArrived s c f core pa) c f) = barWaits (pathMask s c.pid).lanes (fun _ => core) (fun _ => pa)
      (fun _ => BitVec.ofNat 16 (barPh (scrRead s core pa 8))) := by
    rw [pathMask_syncArrived issues canon]
    refine List.map_congr_left fun l hl => ?_
    obtain ⟨b, slot, -⟩ := absent l hl
    rw [slotPhase_syncArrived issues canon ready room hl slot]
  rw [exec_barSync, execBarSync, issuing_eq issues, ← phases, ← barAwait_ofSlots homes]
  dsimp only
  rw [fresh, barRelease, issuing_eq issues, performed]
  refine (if_neg Bool.false_ne_true).trans ((if_pos rfl).trans ((atBarrier_arrives issues ready _ absent).trans ?_))
  rw [arriveAll_eq ready some]
  rfl

end

/-! ### Release (R346) -/

/-- A map whose values at some keys a repeatable change has passed. -/
theorem find?_foldl_upd {α β : Type} (key : β → Nat) {f : α → α} (again : ∀ a, f (f a) = f a) (l : List β) (m : SMap α) (k : Nat) :
    (l.foldl (fun m b => m.upd (key b) f) m).find? k = if k ∈ l.map key then (m.find? k).map f else m.find? k := by
  induction l generalizing m with
  | nil => simp
  | cons b l ih =>
    rw [List.foldl_cons, ih]
    by_cases here : k = key b
    · subst here
      rw [SMap.find?_upd_self]
      simp only [List.map_cons, List.mem_cons, true_or, if_true]
      split
      · cases m.find? (key b) <;> simp [again]
      · rfl
    · simp [SMap.find?_upd_ne _ _ here, here]

/-- The path waits no longer. -/
def awake (cycle : Nat) (p : Path) : Path := { p with wait := none, readyAt := cycle }

theorem foldl_wake_eq (l : List (Nat × Path)) (s : State) :
    l.foldl (fun s p => wake s p.1) s =
      { s with x := { s.x with paths := l.foldl (fun m p => m.upd p.1 (awake s.c.cycle)) s.x.paths } } := by
  induction l generalizing s with
  | nil => rfl
  | cons p l ih => exact ih (wake s p.1)

/-- The paths that a barrier's release wakes. -/
def released (s : State) (core word : Nat) (p : Nat × Path) : Bool :=
  match p.2.wait with
  | some (.barrier ws) => ws.any (fun w => w.1 == core && w.2.1 == word) && ws.all (barOver s)
  | _ => false

theorem execBarrierRelease_eq (s : State) (core word : Nat) :
    exec (.barrierRelease core word) s =
      .next ((s.x.paths.filter (released s core word)).foldl (fun s p => wake s p.1) s) := rfl

theorem released_iff (s : State) (core word p : Nat) (q : Path) : released s core word (p, q) = true ↔
    ∃ ws, q.wait = some (.barrier ws) ∧ (core, word) ∈ ws.map (fun x => (x.1, x.2.1)) ∧
      ∀ x ∈ ws, barPh (scrRead s x.1 x.2.1 8) ≠ x.2.2.toNat ∨ barDef (scrRead s x.1 x.2.1 8) = true := by
  rw [released]
  dsimp only
  split
  · next ws waits =>
    rw [waits]
    simp only [Bool.and_eq_true, List.any_eq_true, List.all_eq_true, Option.some.injEq, WaitOn.barrier.injEq, exists_eq_left',
      List.mem_map, Prod.mk.injEq, beq_iff_eq]
    exact and_congr_right fun _ => forall₂_congr fun x _ => (barOver_iff s x.1 x.2.1 x.2.2).trans or_comm
  · next other =>
    refine ⟨fun h => (Bool.false_ne_true h).elim, fun ⟨ws, waits, _⟩ => (other ws waits).elim⟩

theorem execBarrierRelease_releases {s : State} (canon : Canonical s) (core word : Nat) :
    ∃ u, exec (.barrierRelease core word) s = .next u ∧ u.m = s.m ∧ u.e = s.e ∧ u.x.threads = s.x.threads ∧
      (∀ p q, s.x.paths.find? p = some q → released s core word (p, q) = true → u.x.paths.find? p = some (awake s.c.cycle q)) ∧
      ∀ p, (∀ q, s.x.paths.find? p = some q → released s core word (p, q) = false) → u.x.paths.find? p = s.x.paths.find? p := by
  have chosen : ∀ p, p ∈ (s.x.paths.filter (released s core word)).map Prod.fst ↔
      ∃ q, s.x.paths.find? p = some q ∧ released s core word (p, q) = true := by
    intro p
    simp only [List.mem_map, List.mem_filter, Prod.exists]
    constructor
    · rintro ⟨_, q, ⟨mem, over_⟩, rfl⟩
      exact ⟨q, SMap.find?_of_mem canon.2.2.2.2.2.2.2.1 mem, over_⟩
    · rintro ⟨q, found, over_⟩
      exact ⟨p, q, ⟨SMap.mem_of_find? found, over_⟩, rfl⟩
  refine ⟨_, (execBarrierRelease_eq s core word).trans (congrArg Host.Outcome.next (foldl_wake_eq _ s)), rfl, rfl, rfl,
    fun p q found over_ => ?_, fun p others => ?_⟩ <;>
    simp only [find?_foldl_upd Prod.fst (f := awake s.c.cycle) (fun _ => rfl)]
  · rw [if_pos ((chosen p).2 ⟨q, found, over_⟩), found]
    rfl
  · rw [if_neg]
    intro mem
    obtain ⟨q, found, over_⟩ := (chosen p).1 mem
    exact Bool.false_ne_true ((others q found).symm.trans over_)

/-- Lanes that complete the phase of their word go on at once. -/
theorem execBarSync_completes {f : Form} {s : State} {c : Ctx} {core pa : Nat} (issues : Issues s f c) (canon : Canonical s)
    (ready : BarReady s c f (fun _ => core) (fun _ => pa)) (room : barArr (scrRead s core pa 8) + (pathMask s c.pid).lanes.length < 65536)
    (fresh : (pathAt s c.pid).syncWait = false) (performed : (warpAt s c.warp).inflight = []) (some : (pathMask s c.pid).lanes ≠ [])
    (absent : ∀ l ∈ (pathMask s c.pid).lanes, ∃ b, barSlot s c f l = .some b ∧ b.arr ≠ .some (BitVec.ofNat 16 (barPh (scrRead s core pa 8))))
    (members : 0 < barMem (scrRead s core pa 8)) (full : barMem (scrRead s core pa 8) ≤ barArr (scrRead s core pa 8) + (pathMask s c.pid).lanes.length)
    {d : Nat → Word} (result : ∀ l ∈ (pathMask s c.pid).lanes, d l = barResult s (fun _ => core) (fun _ => pa) l) :
    ∃ u, exec (.barSync f) s = .next u ∧ u.m = s.m ∧ Past s u c f ∧ Results u c.pid (dstOf c f .i1) (pathMask s c.pid).lanes d ∧
      RegistersKept s u c.pid (dstOf c f .i1) (pathMask s c.pid).lanes ∧ ∀ v, v = scrRead u core pa 8 →
        barPh v = (barPh (scrRead s core pa 8) + 1) % 65536 ∧ barArr v = 0 ∧ barMem v = barMem (scrRead s core pa 8) ∧
          barDef v = barDef (scrRead s core pa 8) := by
  obtain ⟨lt, fields⟩ := barArriveOp_fields room
  rw [if_pos ⟨members, full⟩] at fields
  obtain ⟨def_, phase, memb, none⟩ := fields
  obtain ⟨memory, value, -⟩ := barChanged_spec (c := c) (f := f) (core := core) (pa := pa) canon lt (slotsArrived s)
  have value : scrRead (syncArrived s c f core pa) core pa 8 = barArriveOp (scrRead s core pa 8) (pathMask s c.pid).lanes.length := value
  have over_ : ∀ l ∈ (pathMask s c.pid).lanes, barDef (scrRead (syncArrived s c f core pa) core pa 8) = true ∨
      barPh (scrRead (syncArrived s c f core pa) core pa 8) ≠ (BitVec.ofNat 16 (barPh (scrRead s core pa 8))).toNat := fun _ _ => .inr <| by
    have : barPh (scrRead s core pa 8) < 65536 := Nat.mod_lt _ (by decide)
    rw [value, phase, BitVec.toNat_ofNat]
    omega
  have results : (pathMask s c.pid).lanes.map (fun l => (l, barResult (syncArrived s c f core pa) (fun _ => core) (fun _ => pa) l)) =
      (pathMask s c.pid).lanes.map (fun l => (l, d l)) := by
    refine List.map_congr_left fun l hl => ?_
    rw [result l hl, barResult, barResult, value, def_]
  obtain ⟨ended, -⟩ := barPassed_ended (syncArrived_ready (f := f) (core := core) (pa := pa) issues canon) f d
  refine ⟨_, (execBarSync_now issues canon ready room fresh performed some absent).trans ?_, ended.rest.mem.trans memory, ended.past,
    ended.results, ended.registers, fun v hv => ?_⟩
  · rw [barAwait_of_over over_, results]
  · rw [hv, scrRead_congr (t := syncArrived s c f core pa) (by rw [ended.rest.engines]; rfl) core pa 8, value]
    exact ⟨phase, none, memb, def_⟩

/-- Settles O38. -/
theorem barrierWaitsEndWithThePhase : Obligations.BarrierWaitsEndWithThePhase := by
  unfold Obligations.BarrierWaitsEndWithThePhase
  constructor
  · intro f s c core pa issues canon ls a w d ph slot fresh off faults goesOn
    refine ⟨fun some => ⟨?_, ?_⟩, fun none words => ?_⟩
    · show exec (.barWait f) s = _
      rw [exec_barWait, execBarWait]
      exact atBarrier_misaligned issues _ _ rfl some
    · rintro ⟨first, performed⟩
      show exec (.barSync f) s = _
      rw [exec_barSync, execBarSync, issuing_eq issues]
      dsimp only
      rw [first, barRelease, issuing_eq issues, performed]
      exact (if_neg Bool.false_ne_true).trans ((if_pos rfl).trans (atBarrier_misaligned issues _ _ rfl some))
    have ready : BarReady s c f core pa := by
      refine ⟨fun l hl => ?_, fun l hl => (words l hl).1, fun l hl => (words l hl).2⟩
      show (a l).toNat % 8 = 0
      simpa using List.filter_eq_nil_iff.1 none l hl
    refine ⟨fun left => barAwait_goesOn issues canon left (execBarWait_eq issues ready), fun open_ =>
      (execBarWait_eq issues ready).trans (congrArg Host.Outcome.next (barAwait_of_open open_)), fun arrived left => ?_, ?_⟩
    · refine barAwait_goesOn issues canon (fun l hl => ?_) (execBarSync_later issues ready.homes arrived)
      obtain ⟨b, p, found, phase, ended⟩ := left l hl
      have recorded : slotPhase s c f l = p := by
        rw [slotPhase, show barSlot s c f l = _ from found, Option.bind_some, phase]
        rfl
      rwa [recorded]
    · rintro ⟨first, performed⟩ l0 hl0 one absent members full room
      have same : ∀ l ∈ ls, w l = w l0 := fun l hl => by simp only [w, (one l hl).1, (one l hl).2]
      refine execBarSync_completes issues canon
        ⟨ready.aligned, fun l hl => (one l hl).1 ▸ (one l hl).2 ▸ ready.homes l hl, fun _ _ => ready.unlocked l0 hl0⟩
        room first performed (List.ne_nil_of_mem hl0) (fun l hl => ?_) members full fun l hl => ?_
      · obtain ⟨b, found, other⟩ := absent l hl
        rw [same l hl] at other
        exact ⟨b, found, other⟩
      · show (if barDef (w l) = true then (1 : Word) else 0) = _
        rw [same l hl]
        rfl
  · intro s core pa canon done_
    obtain ⟨u, stepped, memory, engines, threads, woken, others⟩ := execBarrierRelease_releases canon core pa
    refine ⟨u, stepped, memory, engines, threads, fun p q found ended => woken p q found ((released_iff ..).2 ended), fun p away => ?_⟩
    exact others p fun q found => Bool.eq_false_iff.2 fun ended => away q found ((released_iff ..).1 ended)

end Sys2Proof.Machine
end

section
/-!
SUPPORT. What the completion of a command leaves: its entries filled with its status, and no command of its number (R103).
-/
namespace Sys2Proof.Machine

/-- One command of T settles: its entries are filled and it leaves. -/
def settleOne (s : State) (i : Nat) (k : Cmd) : State :=
  let s0 := match k.body with | .tokPush => s | _ => popAcquire s k.core (entryIds k.pops)
  let s1 := fillWith s0 k.fills (settled s0 k (entryIds k.pops))
  { s1 with e := { s1.e with cmds := s1.e.cmds.del i } }

/-- What holds and stays when a listed command settles holds when T has settled. -/
theorem settle_induct {P : State → Prop} (one : ∀ s i k, (i, k) ∈ s.e.cmds → P s → P (settleOne s i k)) (n : Nat) {s : State}
    (hs : P s) : P (settle n s) := by
  induction n generalizing s with
  | zero => exact hs
  | succ n ih =>
    unfold settle
    split
    · exact hs
    · next i k found => exact ih (one s i k (List.mem_of_find?_eq_some found) hs)

theorem fillWith_cmds (s : State) (ids : List Nat) (e : Entry) : (fillWith s ids e).e.cmds = s.e.cmds :=
  foldl_keeps (·.e.cmds) (fillOne e) (fun _ _ => rfl) s ids

theorem entryAt_fillWith_ne {s : State} {ids : List Nat} {e : Entry} {i : Nat} (out : i ∉ ids) :
    entryAt (fillWith s ids e) i = entryAt s i := by
  rw [fillWith_eq]
  induction ids generalizing s with
  | nil => rfl
  | cons j ids ih =>
    obtain ⟨ne, out⟩ := not_or.1 (List.mem_cons.not.1 out)
    rw [List.foldl_cons, ih out, fillOne, entryAt_setEntry, if_neg ne]

theorem status_fillWith {s : State} {ids : List Nat} {e : Entry} {i : Nat} (hi : i ∈ ids) :
    (entryAt (fillWith s ids e) i).status = e.status := by
  rw [fillWith_eq]
  refine foldl_reaches (Q := fun _ => True) (P := fun t => (entryAt t i).status = e.status) (fun _ _ _ => trivial)
    (fun t j ht => ?_) (fun t _ => ?_) hi trivial
  · simp only [fillOne, entryAt_setEntry]
    split
    · rfl
    · exact ht
  · simp [fillOne, entryAt_setEntry]

/-- Where one command settles, the others stay and no entry but its own is filled. -/
theorem settleOne_kept (s : State) (i : Nat) (k : Cmd) :
    (settleOne s i k).e.cmds = s.e.cmds.del i ∧ ∀ j, j ∉ k.fills → entryAt (settleOne s i k) j = entryAt s j := by
  obtain ⟨ln, pops⟩ := popAcquire_eq s k.core (entryIds k.pops)
  unfold settleOne
  constructor
  · simp only [fillWith_cmds, pops]
    split <;> rfl
  · intro j out
    refine (entryAt_fillWith_ne out).trans ?_
    rw [pops]
    split <;> rfl

theorem SMap.find?_eq_none_iff {α : Type} {m : SMap α} {k : Nat} : m.find? k = none ↔ ∀ p ∈ m, p.1 ≠ k := by
  induction m with
  | nil => simp [SMap.find?]
  | cons p m ih =>
    obtain ⟨i, a⟩ := p
    by_cases same : i = k <;> simp [SMap.find?, same, ih]

theorem noCmd_settle (n : Nat) {s : State} {i : Nat} (gone : s.e.cmds.find? i = none) : (settle n s).e.cmds.find? i = none := by
  rw [SMap.find?_eq_none_iff] at gone ⊢
  refine settle_induct (P := fun t => ∀ p ∈ t.e.cmds, p.1 ≠ i) (fun t j k _ h p hp => h p ?_) n gone
  rw [(settleOne_kept t j k).1] at hp
  exact SMap.mem_del hp

/-- An entry that no command is to fill stays as it is when T settles. -/
theorem entryAt_settle (n : Nat) {s : State} {i : Nat} (free : ∀ p ∈ s.e.cmds, i ∉ p.2.fills) : entryAt (settle n s) i = entryAt s i := by
  refine (settle_induct (P := fun t => (∀ p ∈ t.e.cmds, i ∉ p.2.fills) ∧ entryAt t i = entryAt s i) (fun t j k mem h => ?_) n
    ⟨free, rfl⟩).2
  obtain ⟨others, entry⟩ := h
  obtain ⟨cmds, entries⟩ := settleOne_kept t j k
  refine ⟨fun p hp => others p ?_, (entries i (others _ mem)).trans entry⟩
  rw [cmds] at hp
  exact SMap.mem_del hp

/-- The state in which command `i`, which was `k`, has left and its entries are filled as `e` is. -/
def cmdDone (s : State) (i : Nat) (k : Cmd) (e : Entry) : State :=
  fillTokens { s with e := { s.e with cmds := s.e.cmds.del i } } k.fills e

/-- A completed command is gone, and what it was to fill is filled, with its status where no other command is to fill it. -/
theorem cmdDone_spec {s : State} {i : Nat} {k : Cmd} (e : Entry) (rising : s.e.cmds.risingFrom 0 = true) :
    (cmdDone s i k e).e.cmds.find? i = none ∧ ∀ n ∈ k.fills, isFilled (cmdDone s i k e) n = true ∧
      ((∀ j c, s.e.cmds.find? j = some c → j ≠ i → n ∉ c.fills) → (entryAt (cmdDone s i k e) n).status = e.status) := by
  have gone : (s.e.cmds.del i).find? i = none := SMap.find?_del_self s.e.cmds rising
  refine ⟨noCmd_settle _ ((congrArg (SMap.find? · i) (fillWith_cmds ..)).trans gone), fun n hn => ⟨isFilled_fillTokens e hn, fun alone => ?_⟩⟩
  refine (congrArg Entry.status (entryAt_settle _ fun p hp => ?_)).trans (status_fillWith hn)
  rw [fillWith_cmds] at hp
  have ne : p.1 ≠ i := SMap.find?_eq_none_iff.1 gone p hp
  obtain ⟨j, c⟩ := p
  refine alone j c ?_ ne
  rw [← SMap.find?_del_ne s.e.cmds ne]
  exact SMap.find?_of_mem (SMap.risingFrom_del _ _ rising) hp

theorem tokensOnly_cmdDone (s : State) (i : Nat) (k : Cmd) (e : Entry) : TokensOnly s (cmdDone s i k e) :=
  TokensOnly.trans ⟨_, _, _, _, _, rfl⟩ (tokensOnly_fillTokens _ k.fills e)

end Sys2Proof.Machine
end

section
/-!
SUPPORT. O48: the strands that a turn moves, its drain and completion, and the end of a retraining (R302, R303, R306).
-/
namespace Sys2Proof.Machine

/-! ### Strands -/

theorem nth_setNth {α : Type} (l : List α) (d v : α) {i x : Nat} (hi : i < l.length) :
    nth (setNth l i v) d x = if x = i then v else nth l d x := by
  unfold nth setNth
  rw [List.getElem?_set]
  by_cases same : i = x
  · subst same
    simp [hi]
  · simp [same, Ne.symm same]

theorem nth_foldl_setNth {α : Type} (d : α) (g : Nat → α) (es : List Nat) {l : List α} {x : Nat} (hx : x < l.length) :
    nth (es.foldl (fun l x => setNth l x (g x)) l) d x = if x ∈ es then g x else nth l d x := by
  induction es generalizing l with
  | nil => simp
  | cons e es ih =>
    have step : nth (setNth l e (g e)) d x = if x = e then g e else nth l d x := by
      unfold nth setNth
      rw [List.getElem?_set]
      by_cases same : e = x
      · subst same
        simp [hx]
      · simp [same, Ne.symm same]
    rw [List.foldl_cons, ih (by simpa [setNth] using hx), step]
    by_cases same : x = e
    · subst same
      simp
    · simp [same]

/-- The strands of a hop that a turn of `mask` to `d` may move. -/
def mayMove (mask : BitVec 16) (d : Dir) (h : Hop) (x : Nat) : Prop :=
  mask.getLsbD x = true ∧ strandOf h x = .working ∧ strandDir h x ≠ d

/-- The hop with strand `x` running in direction `d`. -/
def turned (h : Hop) (x : Nat) (d : Dir) : Hop := { h with dirs := setNth h.dirs x d }

theorem dir_eq_flip {a d : Dir} (ne : a ≠ d) : a = dirFlip d := by
  cases a <;> cases d <;> simp_all [dirFlip]

theorem dirFlip_ne (d : Dir) : dirFlip d ≠ d := by cases d <;> simp [dirFlip]

theorem strandDir_turned {h : Hop} (x : Nat) {i : Nat} (d : Dir) (hi : i < h.dirs.length) :
    strandDir (turned h i d) x = if x = i then d else strandDir h x := nth_setNth _ _ _ hi

/-- Each strand that turns leaves one less running the other way. -/
theorem workingIn_turned {mask : BitVec 16} {d : Dir} {h : Hop} {i : Nat} (may : mayMove mask d h i) (hi : i < 16) (len : h.dirs.length = 16) :
    workingIn (turned h i d) (dirFlip d) + 1 = workingIn h (dirFlip d) := by
  obtain ⟨-, works, other⟩ := may
  have mem : i ∈ (List.range 16).filter (fun x => strandOf h x == .working && strandDir h x == dirFlip d) := by
    simp [hi, works, dir_eq_flip other]
  have rest : (List.range 16).filter (fun x => strandOf (turned h i d) x == .working && strandDir (turned h i d) x == dirFlip d) =
      ((List.range 16).filter (fun x => strandOf h x == .working && strandDir h x == dirFlip d)).erase i := by
    rw [(List.nodup_range.filter _).erase_eq_filter, List.filter_filter]
    refine List.filter_congr fun x _ => ?_
    rw [strandDir_turned x d (by omega)]
    by_cases same : x = i
    · simp [same, (dirFlip_ne d).symm]
    · simp [same, turned, strandOf]
  rw [workingIn, rest, List.length_erase_of_mem mem, workingIn]
  have := List.length_pos_of_mem mem
  omega

/-- What a pass of R302 over some strands, in ascending order, moves. -/
structure Turns (mask : BitVec 16) (d : Dir) (is : List Nat) (h : Hop) (r : Hop) (es : List Nat) : Prop where
  hop : r = { h with dirs := r.dirs }
  order : es.Sublist is
  may : ∀ x ∈ es, mayMove mask d h x
  stay : es ≠ [] → es.length + 2 ≤ workingIn h (dirFlip d)
  all : ∀ x ∈ is, mayMove mask d h x → x ∉ es → workingIn h (dirFlip d) ≤ es.length + 2
  dirs : ∀ x, strandDir r x = if x ∈ es then d else strandDir h x

theorem Turns.cons {mask : BitVec 16} {d : Dir} {i : Nat} {is : List Nat} {h r : Hop} {es : List Nat} (may : mayMove mask d h i) (hi : i < 16)
    (len : h.dirs.length = 16) (three : 3 ≤ workingIn h (dirFlip d)) (new : i ∉ is) (moves : Turns mask d is (turned h i d) r es) :
    Turns mask d (i :: is) h r (i :: es) := by
  have less := workingIn_turned may hi len
  have dirOf := fun x => strandDir_turned (h := h) x (i := i) d (by omega)
  have away : ∀ x ∈ is, (mayMove mask d (turned h i d) x ↔ mayMove mask d h x) := fun x hx => by
    have ne : x ≠ i := fun eq => new (eq ▸ hx)
    simp only [mayMove, dirOf, ne, if_false]
    rfl
  refine ⟨moves.hop, moves.order.cons_cons i, ?_, fun _ => ?_, ?_, fun x => ?_⟩
  · rintro x (_ | ⟨_, hx⟩)
    · exact may
    · exact (away x (moves.order.subset hx)).1 (moves.may x hx)
  · by_cases none : es = []
    · simp [none, three]
    · have := moves.stay none
      simp only [List.length_cons]
      omega
  · rintro x (_ | ⟨_, hx⟩) mayx out
    · exact absurd List.mem_cons_self out
    · have := moves.all x hx ((away x hx).2 mayx) fun h => out (List.mem_cons_of_mem _ h)
      simp only [List.length_cons]
      omega
  · rw [moves.dirs, dirOf]
    by_cases same : x = i <;> simp [same]

/-- A strand that may not move, or would leave fewer than two others, stays. -/
theorem Turns.skip {mask : BitVec 16} {d : Dir} {i : Nat} {is : List Nat} {h r : Hop} {es : List Nat}
    (stays : mayMove mask d h i → workingIn h (dirFlip d) ≤ 2) (moves : Turns mask d is h r es) : Turns mask d (i :: is) h r es := by
  refine ⟨moves.hop, moves.order.cons i, moves.may, moves.stay, ?_, moves.dirs⟩
  rintro x (_ | ⟨_, hx⟩) mayx out
  · exact (stays mayx).trans (by omega)
  · exact moves.all x hx mayx out

theorem turnMoves_moves {mask : BitVec 16} {d : Dir} {is : List Nat} (order : is.Pairwise (· < ·)) (small : ∀ i ∈ is, i < 16) {h : Hop}
    (len : h.dirs.length = 16) (e : List Nat) :
    ∃ es, (turnMoves mask d is h e).2 = e ++ es ∧ Turns mask d is h (turnMoves mask d is h e).1 es := by
  induction is generalizing h e with
  | nil => exact ⟨[], by simp [turnMoves], ⟨rfl, .slnil, by simp, by simp, by simp, by simp [turnMoves]⟩⟩
  | cons i is ih =>
    obtain ⟨above, order⟩ := List.pairwise_cons.1 order
    have hi : i < 16 := small i List.mem_cons_self
    have small := fun j hj => small j (List.mem_cons_of_mem _ hj)
    unfold turnMoves
    split
    · next takes =>
      simp only [Bool.and_eq_true, beq_iff_eq, bne_iff_ne, decide_eq_true_eq] at takes
      obtain ⟨⟨⟨masked, works⟩, other⟩, three⟩ := takes
      obtain ⟨es, list, moves⟩ := ih order small (h := turned h i d) (by simp [turned, setNth, len]) (e ++ [i])
      refine ⟨i :: es, list.trans (List.append_cons ..).symm, moves.cons ⟨masked, works, other⟩ hi len ?_ fun mem => ?_⟩
      · rwa [← dir_eq_flip other]
      · exact Nat.lt_irrefl i (above i mem)
    · next stays =>
      obtain ⟨es, list, moves⟩ := ih order small len e
      refine ⟨es, list, moves.skip fun ⟨masked, works, other⟩ => ?_⟩
      rw [← dir_eq_flip other]
      simp only [masked, works, beq_self_eq_true, Bool.true_and, Bool.and_eq_true, bne_iff_ne, decide_eq_true_eq] at stays
      exact Nat.le_of_lt_succ (Nat.lt_of_not_le fun three => stays ⟨other, three⟩)

/-! ### The turn of a hop -/

theorem hopAt_setHop (s : State) (hop : Nat) (h : Hop) : hopAt (setHop s hop h) hop = h := by
  simp [hopAt, setHop, SMap.getD, SMap.find?_ins_self]

/-- The hops of the ring change, and nothing else. -/
def HopsOnly (s t : State) : Prop := ∃ hops, t = { s with r := { s.r with hops := hops } }

theorem hopsOnly_joinTurnQueue (s : State) (hop e i : Nat) : HopsOnly s (joinTurnQueue s hop e i) := by
  unfold joinTurnQueue
  dsimp only
  split_ifs <;> exact ⟨_, rfl⟩

theorem hopsOnly_refillTurns (s : State) (hop : Nat) : HopsOnly s (refillTurns s hop) := by
  have joins : ∀ (is : List Nat) (e : Nat) (t : State), HopsOnly s t → HopsOnly s (is.foldl (fun t i => joinTurnQueue t hop e i) t) :=
    fun is e t h => foldl_inv (HopsOnly s) _ (fun t i h => by
      obtain ⟨hops, rfl⟩ := h
      exact hopsOnly_joinTurnQueue _ hop e i) t is h
  exact joins _ 1 _ (joins _ 0 s ⟨_, rfl⟩)

/-- A turn's command ends with the status that its strands give it. -/
def turnStatus (failed : Bool) : BitVec 32 := if failed = true then statusWord true 8 0xFFFFFF else statusWord false 0 0

theorem finishTurn_eq {s : State} {i : Nat} {k : Cmd} (found : s.e.cmds.find? i = some k) (failed : Bool) :
    finishTurn s i failed = cmdDone s i k { statusEntry (turnStatus failed) with wrote := coreFrames s k.core i } := by
  rw [finishTurn, found]
  cases failed <;> rfl

theorem tokensOnly_finishTurn (s : State) (i : Nat) (failed : Bool) : TokensOnly s (finishTurn s i failed) := by
  cases found : s.e.cmds.find? i with
  | none =>
    rw [finishTurn, found]
    exact .refl s
  | some k =>
    rw [finishTurn_eq found]
    exact tokensOnly_cmdDone ..

/-- The command is gone and its entries are filled, with its status where no other command is to fill one. -/
def CmdEnded (t u : State) (i : Nat) (st : BitVec 32) : Prop := ∀ k, t.e.cmds.find? i = some k → u.e.cmds.find? i = none ∧
  ∀ e ∈ k.fills, isFilled u e = true ∧
    ((∀ j c, t.e.cmds.find? j = some c → j ≠ i → e ∉ c.fills) → (entryAt u e).status = st)

theorem cmdEnded_finishTurn {s t : State} {i : Nat} {failed : Bool} (rising : s.e.cmds.risingFrom 0 = true) (same : t.e.cmds = s.e.cmds) :
    CmdEnded s (finishTurn t i failed) i (turnStatus failed) := by
  intro k found
  rw [← same] at found rising ⊢
  rw [finishTurn_eq found]
  exact cmdDone_spec _ rising

/-- The hop with the head of an end's queue taken. -/
def dequeued (h : Hop) (e : Nat) (rest : List (Nat × Nat)) : Hop := if e = 0 then { h with q0 := rest } else { h with q1 := rest }

theorem dequeued_eq (h : Hop) (e : Nat) (rest : List (Nat × Nat)) :
    ∃ q0 q1, dequeued h e rest = { h with q0 := q0, q1 := q1 } ∧ (if e = 0 then q0 else q1) = rest := by
  unfold dequeued
  split
  · exact ⟨rest, h.q1, rfl, rfl⟩
  · exact ⟨h.q0, rest, rfl, rfl⟩

/-- The state in which the strands `es` have begun to drain for the turn of command `i`. -/
def draining (s : State) (hop : Nat) (h : Hop) (i e : Nat) (es : List Nat) : State :=
  setHop s hop { h with
    st := es.foldl (fun st x => setNth st x StrandState.draining) h.st
    turning := some (i, e, es)
    turnAt := s.c.cycle }

section
variable {s s0 : State} {hop e i c : Nat} {rest : List (Nat × Nat)} {hp en : Nat} {d : Dir} {mask : BitVec 16}

theorem execTurnSelect_turn (on : hop < 8) (filled : refillTurns s hop = s0) (idle : (hopAt s0 hop).turning = none)
    (carries : (hopAt s0 hop).retrain = none) (up : (hopAt s0 hop).down = false) (selects : selectEnd s0 hop = some e)
    (queue : (if e = 0 then (hopAt s0 hop).q0 else (hopAt s0 hop).q1) = (i, c) :: rest) (body : bodyOf s0 i = some (.turn hp en d mask)) :
    exec (.turnSelect hop) s = .next (
      let r := turnMoves mask d (List.range 16) (dequeued (hopAt s0 hop) e rest) []
      if r.2.isEmpty then finishTurn (setHop s0 hop (dequeued (hopAt s0 hop) e rest)) i false else draining s0 hop r.1 i e r.2) := by
  rw [exec_turnSelect, execTurnSelect, if_neg (by omega)]
  dsimp only
  rw [filled, if_neg (by simp [idle, carries, up]), selects]
  dsimp only
  rw [queue]
  dsimp only
  rw [body]
  exact (apply_ite Host.Outcome.next _ _ _).symm

/-- A turn that moves no strand is done. -/
theorem execTurnSelect_none {h : Hop} {u : State} (same : HopsOnly s s0) (rising : s.e.cmds.risingFrom 0 = true)
    (u_eq : u = finishTurn (setHop s0 hop h) i false) :
    u.m.mem = s.m.mem ∧ u.x = s.x ∧ hopAt u hop = h ∧ CmdEnded s0 u i (statusWord false 0 0) := by
  obtain ⟨hops, rfl⟩ := same
  obtain ⟨n, ln, en, ps, cs, tokens⟩ := tokensOnly_finishTurn (setHop { s with r := { s.r with hops := hops } } hop h) i false
  refine ⟨?_, ?_, ?_, ?_⟩
  · rw [u_eq, tokens]
    rfl
  · rw [u_eq, tokens]
    rfl
  · rw [u_eq, tokens]
    exact hopAt_setHop { s with r := { s.r with hops := hops } } hop h
  · rw [u_eq]
    exact cmdEnded_finishTurn (failed := false) rising rfl

/-- What the selected turn does: strands drain, or the command is done at once. -/
theorem execTurnSelect_spec (on : hop < 8) (rising : s.e.cmds.risingFrom 0 = true) (filled : refillTurns s hop = s0)
    (idle : (hopAt s0 hop).turning = none) (carries : (hopAt s0 hop).retrain = none) (up : (hopAt s0 hop).down = false)
    (strands : (hopAt s0 hop).st.length = 16) (dirs : (hopAt s0 hop).dirs.length = 16) (selects : selectEnd s0 hop = some e)
    (queue : (if e = 0 then (hopAt s0 hop).q0 else (hopAt s0 hop).q1) = (i, c) :: rest) (body : bodyOf s0 i = some (.turn hp en d mask)) :
    ∃ u r es, exec (.turnSelect hop) s = .next u ∧ u.m.mem = s.m.mem ∧ u.x = s.x ∧
      (if e = 0 then (hopAt u hop).q0 else (hopAt u hop).q1) = rest ∧
      (∃ q0 q1, Turns mask d (List.range 16) { hopAt s0 hop with q0 := q0, q1 := q1 } r es) ∧
      (∀ x, strandDir (hopAt u hop) x = strandDir r x) ∧
      (∀ x, x < 16 → strandOf (hopAt u hop) x = if x ∈ es then .draining else strandOf (hopAt s0 hop) x) ∧
      (es = [] → (hopAt u hop).turning = none ∧ CmdEnded s0 u i (statusWord false 0 0)) ∧
      (es ≠ [] → (hopAt u hop).turning = some (i, e, es) ∧ (hopAt u hop).turnAt = s.c.cycle ∧ u.e.cmds.find? i = s0.e.cmds.find? i) := by
  have stepped := execTurnSelect_turn on filled idle carries up selects queue body
  have same : HopsOnly s s0 := filled ▸ hopsOnly_refillTurns s hop
  obtain ⟨q0, q1, shape, tail⟩ := dequeued_eq (hopAt s0 hop) e rest
  obtain ⟨es, list, moves⟩ := turnMoves_moves (mask := mask) (d := d) List.pairwise_lt_range (fun i hi => List.mem_range.1 hi)
    (h := dequeued (hopAt s0 hop) e rest) (by rw [shape]; exact dirs) []
  rw [List.nil_append] at list
  generalize turnMoves mask d (List.range 16) (dequeued (hopAt s0 hop) e rest) [] = r at stepped list moves
  obtain ⟨h, es'⟩ := r
  obtain rfl : es' = es := list
  dsimp only at stepped moves
  rw [shape] at stepped moves
  have fields : h.q0 = q0 ∧ h.q1 = q1 ∧ h.st = (hopAt s0 hop).st := by
    rw [moves.hop]
    exact ⟨rfl, rfl, rfl⟩
  obtain ⟨hq0, hq1, hst⟩ := fields
  by_cases none : es' = []
  · rw [if_pos (by simpa using none)] at stepped
    obtain ⟨memory, exec_, here, ended⟩ := execTurnSelect_none (hop := hop) same rising rfl
    refine ⟨_, h, es', stepped, memory, exec_, ?_, ⟨q0, q1, moves⟩, fun x => ?_, fun x hx => ?_, fun _ => ⟨?_, ended⟩, fun some => absurd none some⟩ <;>
      rw [here]
    · exact tail
    · rw [moves.dirs, none]
      rfl
    · rw [none]
      rfl
    · exact idle
  · rw [if_neg (by simpa using none)] at stepped
    have here : hopAt (draining s0 hop h i e es') hop = _ := hopAt_setHop s0 hop _
    refine ⟨_, h, es', stepped, ?_, ?_, ?_, ⟨q0, q1, moves⟩, fun x => ?_, fun x hx => ?_, fun h => absurd h none, fun _ => ⟨?_, ?_, rfl⟩⟩
    · obtain ⟨hops, rfl⟩ := same
      rfl
    · obtain ⟨hops, rfl⟩ := same
      rfl
    · rw [here]
      show (if e = 0 then h.q0 else h.q1) = rest
      rw [hq0, hq1, tail]
    · rw [here]
      rfl
    · rw [here]
      refine (nth_foldl_setNth StrandState.working (fun _ => .draining) es' (by rw [hst, strands]; exact hx)).trans ?_
      rw [hst]
      rfl
    · rw [here]
    · rw [here]
      obtain ⟨hops, rfl⟩ := same
      rfl

end

/-! ### Completion -/

theorem hopAt_congr {s t : State} (ring : t.r.hops = s.r.hops) (hop : Nat) : hopAt t hop = hopAt s hop := by
  rw [hopAt, hopAt, ring]

/-- Events and counts of a link change the dies' records and the counters alone. -/
theorem linkEvents_eq (es : List Nat) (s : State) (die link : Nat) :
    ∃ dies, es.foldl (fun s x => linkEvent s die link x) s = { s with h := { s.h with dies := dies } } :=
  foldl_inv (fun t => ∃ dies, t = { s with h := { s.h with dies := dies } }) _
    (fun t x h => by obtain ⟨dies, rfl⟩ := h; exact ⟨_, rfl⟩) s es ⟨_, rfl⟩

section
variable {s : State} {hop : Nat} {failed : BitVec 16}

/-- The hop after its turn of `es` by end `e`: the strands carry again or are retired, and the end's last turn is now. -/
def turnedHop (s : State) (h : Hop) (e : Nat) (es : List Nat) (failed : BitVec 16) : Hop :=
  { h with
    st := es.foldl (fun st x => setNth st x (if failed.getLsbD x then StrandState.retired else .working)) h.st
    turning := none
    lastEnd := some e
    t0 := if e = 0 then some s.c.cycle else h.t0
    t1 := if e = 0 then h.t1 else some s.c.cycle }

theorem execTurnComplete_turn {i e : Nat} {es : List Nat} (turning : (hopAt s hop).turning = some (i, e, es))
    (carries : (hopAt s hop).retrain = none) :
    ∃ dies dcnt, exec (.turnComplete hop failed) s = .next (finishTurn
      { setHop s hop (turnedHop s (hopAt s hop) e es failed) with h := { s.h with dies := dies }, d := { s.d with dcnt := dcnt } } i
      (es.any (fun x => failed.getLsbD x))) := by
  obtain ⟨dies, events⟩ := linkEvents_eq (es.filter (fun x => failed.getLsbD x)) (setHop s hop (turnedHop s (hopAt s hop) e es failed))
    (endDie hop e) hop
  have any : (!(es.filter (fun x => failed.getLsbD x)).isEmpty) = es.any (fun x => failed.getLsbD x) := by
    rw [Bool.eq_iff_iff]
    simp [List.filter_eq_nil_iff]
  have retrains : ¬(turnedHop s (hopAt s hop) e es failed).retrain.isSome = true := by simp [turnedHop, carries]
  rw [exec_turnComplete, execTurnComplete]
  dsimp only
  rw [turning, ← any]
  exact ⟨dies, _, congrArg Host.Outcome.next ((if_neg retrains).trans (congrArg (finishTurn · i _) (by rw [turnedHop] at events; rw [events]; rfl)))⟩

theorem execTurnComplete_spec {i e : Nat} {es : List Nat} (rising : s.e.cmds.risingFrom 0 = true)
    (turning : (hopAt s hop).turning = some (i, e, es)) (carries : (hopAt s hop).retrain = none) :
    ∃ u, exec (.turnComplete hop failed) s = .next u ∧ u.m.mem = s.m.mem ∧ u.x = s.x ∧
      hopAt u hop = turnedHop s (hopAt s hop) e es failed ∧ CmdEnded s u i (turnStatus (es.any (fun x => failed.getLsbD x))) := by
  obtain ⟨dies, dcnt, stepped⟩ := execTurnComplete_turn (failed := failed) turning carries
  refine ⟨_, stepped, ?_⟩
  generalize eq : turnedHop s (hopAt s hop) e es failed = h
  obtain ⟨n, ln, en, ps, cs, tokens⟩ := tokensOnly_finishTurn
    { setHop s hop h with h := { s.h with dies := dies }, d := { s.d with dcnt := dcnt } } i (es.any (fun x => failed.getLsbD x))
  refine ⟨by rw [tokens]; rfl, by rw [tokens]; rfl, ?_, cmdEnded_finishTurn rising rfl⟩
  rw [tokens]
  exact hopAt_setHop s hop h

theorem strandOf_turnedHop (s : State) {h : Hop} {e : Nat} (es : List Nat) {x : Nat} (hx : x < h.st.length) :
    strandOf (turnedHop s h e es failed) x =
      if x ∈ es then (if failed.getLsbD x = true then .retired else .working) else strandOf h x :=
  nth_foldl_setNth StrandState.working (fun x => if failed.getLsbD x then .retired else .working) es hx

/-! ### The end of a retraining (R306) -/

theorem done_out (s : State) (h : Hdr) : (done s h []).h.out = s.h.out ++ [.reply h 0 0 0 []] := rfl

/-- Answers to requests change what is sent to the host alone. -/
theorem dones_eq (rs : List Hdr) (s : State) :
    rs.foldl (fun t r => done t r []) s = { s with h := { s.h with out := s.h.out ++ rs.map (fun r => .reply r 0 0 0 []) } } := by
  induction rs generalizing s with
  | nil => simp
  | cons r rs ih =>
    rw [List.foldl_cons, ih]
    simp [done, doneBytes, reply]

theorem execTurnComplete_retrains {rs : List Hdr} (idle : (hopAt s hop).turning = none) (retrain : (hopAt s hop).retrain = some rs) :
    ∃ u, exec (.turnComplete hop failed) s = .next u ∧ u.m = s.m ∧ u.x = s.x ∧ u.e = s.e ∧
      hopAt u hop = { hopAt s hop with
        st := (List.range 16).map (fun x => if failed.getLsbD x then StrandState.retired else .working), retrain := none } ∧
      u.h.out = s.h.out ++ rs.map (fun r => .reply r 0 0 0 []) := by
  refine ⟨retrainEnd s hop rs failed, ?_, ?_⟩
  · rw [exec_turnComplete, execTurnComplete]
    dsimp only
    rw [idle]
    dsimp only
    rw [retrain]
  · unfold retrainEnd
    dsimp only
    obtain ⟨dies, events⟩ := linkEvents_eq ((List.range 16).filter (fun x => failed.getLsbD x)) (setHop s hop { hopAt s hop with
      st := (List.range 16).map (fun x => if failed.getLsbD x then StrandState.retired else .working), retrain := none }) (endDie hop 0) hop
    rw [events, dones_eq]
    exact ⟨rfl, rfl, rfl, hopAt_setHop s hop _, rfl⟩

end

/-- Settles O48. -/
theorem turnsMoveStrandsAndComplete : Obligations.TurnsMoveStrandsAndComplete := by
  unfold Obligations.TurnsMoveStrandsAndComplete
  intro hop s on rising ended s0 h
  refine ⟨fun e i c rest hp en d mask idle carries up strands dirs selects queue body => ?_,
    fun i e es failed turning carries strands => ?_, fun rs failed idle retrain => ?_⟩
  · obtain ⟨u, r, es, stepped, memory, exec_, tail, ⟨q0, q1, moves⟩, dirOf, stOf, none, some⟩ :=
      execTurnSelect_spec on rising rfl idle carries up strands dirs selects queue body
    refine ⟨u, es, stepped, memory, exec_, tail, none, fun ne => ?_, List.pairwise_lt_range.sublist moves.order, fun x hx => ⟨fun mem => ?_,
      fun out => ?_, fun may out => moves.all x (List.mem_range.2 hx) may out⟩⟩
    · obtain ⟨turning, at_, cmd⟩ := some ne
      exact ⟨turning, at_, moves.stay ne, cmd⟩
    · exact ⟨moves.may x mem, by rw [dirOf, moves.dirs, if_pos mem], by rw [stOf x hx, if_pos mem]⟩
    · rw [dirOf, moves.dirs, if_neg out, stOf x hx, if_neg out]
      exact ⟨rfl, rfl⟩
  · obtain ⟨u, stepped, memory, exec_, here, done_⟩ := execTurnComplete_spec (failed := failed) rising turning carries
    refine ⟨u, stepped, memory, exec_, ?_⟩
    rw [here]
    refine ⟨rfl, rfl, ?_, rfl, done_, fun x hx => ?_⟩
    · show (if e = 0 then (if e = 0 then _ else _) else (if e = 0 then _ else _)) = _
      split <;> rfl
    · exact strandOf_turnedHop s es (hx.trans_eq strands.symm)
  · obtain ⟨u, stepped, memory, exec_, engines, here, out⟩ := execTurnComplete_retrains (failed := failed) idle retrain
    refine ⟨u, stepped, memory, exec_, engines, by rw [here], out, fun x hx => ?_⟩
    rw [here]
    simp [strandOf, nth, hx]

end Sys2Proof.Machine
end

section
/-!
SUPPORT. O39: stops by `brk`, markers, clocks, counters and `sys` (R381, R382, R388, R389, R401).
-/
namespace Sys2Proof.Machine

/-! ### Kernel writes -/

/-- The memory side changes, and nothing else. -/
def MemoryOnly (s t : State) : Prop := ∃ m, t = { s with m := m }

theorem MemoryOnly.refl (s : State) : MemoryOnly s s := ⟨_, rfl⟩

theorem MemoryOnly.trans {s t u : State} (h : MemoryOnly s t) (h' : MemoryOnly t u) : MemoryOnly s u := by
  obtain ⟨m, rfl⟩ := h
  obtain ⟨m', rfl⟩ := h'
  exact ⟨m', rfl⟩

/-- A kernel write changes memory alone, whether or not it meets a fault. -/
theorem memoryOnly_kernelWrite (ctx : Nat) (bs : List Byte) (s : State) (va : Word) :
    (∀ t, kernelWrite s ctx va bs = .ok t → MemoryOnly s t) ∧ ∀ t w, kernelWrite s ctx va bs = .error (t, w) → MemoryOnly s t := by
  induction bs generalizing s va with
  | nil =>
    refine ⟨fun t ht => ?_, fun t w ht => by simp [kernelWrite] at ht⟩
    rw [kernelWrite, Except.ok.injEq] at ht
    exact ht ▸ .refl s
  | cons b bs ih =>
    unfold kernelWrite
    split
    · refine ⟨fun t ht => by simp at ht, fun t w ht => ?_⟩
      simp only [Except.error.injEq, Prod.mk.injEq] at ht
      exact ht.1 ▸ .refl s
    · next a leaf _ =>
      obtain ⟨ok, error⟩ := ih (writeByte s a b) (va + 1)
      have first : MemoryOnly s (writeByte s a b) := ⟨_, rfl⟩
      exact ⟨fun t ht => first.trans (ok t ht), fun t w ht => first.trans (error t w ht)⟩

theorem memoryOnly_ringPut (s : State) (r : RecRing) (off : Nat) (bs : List Byte) : MemoryOnly s (ringPut s r off bs) := by
  have put : ∀ (t : State) (o : Nat) (b : List Byte), MemoryOnly t
      (match kernelWrite t r.ctx (r.base + BitVec.ofNat 64 o) b with | .ok u => u | .error (u, _) => u) := fun t o b => by
    split
    · next u h => exact (memoryOnly_kernelWrite r.ctx b t _).1 u h
    · next u w h => exact (memoryOnly_kernelWrite r.ctx b t _).2 u w h
  exact (put s _ _).trans (put _ _ _)

/-! ### Markers (R382, R384) -/

/-- A record of the ring changes memory and the dies alone. -/
theorem writeManifest_eq (s : State) (die kind len src : Nat) (body : List Byte) :
    ∃ m dies, writeManifest s die kind len src body = { s with m := m, h := { s.h with dies := dies } } := by
  unfold writeManifest
  dsimp only
  split
  · exact ⟨_, _, rfl⟩
  · next r _ =>
    split
    · exact ⟨_, _, rfl⟩
    · generalize mfHeader _ _ _ _ _ ++ _ ++ _ = bs
      obtain ⟨m, put⟩ := memoryOnly_ringPut s r r.wr bs
      rw [put]
      exact ⟨m, _, rfl⟩

/-- A die without a ring counts the record as dropped. -/
theorem writeManifest_dropped {s : State} {die : Nat} (kind len src : Nat) (body : List Byte) (none : (dieAt s die).mfRing = none) :
    (writeManifest s die kind len src body).m = s.m ∧
      (dieAt (writeManifest s die kind len src body) die).mfDrop = (dieAt s die).mfDrop + 1 := by
  unfold writeManifest
  dsimp only
  rw [none]
  exact ⟨rfl, by simp [dieAt, setDie, SMap.getD, SMap.find?_ins_self]⟩

/-- A change of what registers, paths and the issue do not show. -/
theorem Prepared.aside {s v u : State} {c : Ctx} (ready : Prepared s v c) (issue : u.c.issue = v.c.issue) (x : u.x = v.x) : Prepared s u c := by
  have path : pathAt u c.pid = pathAt v c.pid := by rw [pathAt, pathAt, x]
  refine ⟨issue.trans ready.issue, by rw [path, ready.place], by rw [x]; exact ready.alive, ?_, fun d ls => ?_, fun p hp => ?_⟩
  · unfold RegsWf
    rw [x]
    exact ready.wf
  · obtain ⟨vals, vregs, sregs, own⟩ := ready.registers d ls
    refine ⟨by rw [x]; exact vals, by rw [x]; exact vregs, by rw [x]; exact sregs, fun r hr => ?_⟩
    rw [← own r hr]
    simp only [getSreg, path, x]
  · rw [x, ready.others p hp]

section
variable {f : Form} {s : State} {c : Ctx} (issues : Issues s f c) (canon : Canonical s)
include issues canon

theorem execDbgMark_spec : ∃ u, exec (.dbgMark f) s = .next u ∧ Silent s u c f ∧ u.e = s.e ∧
    ((dieAt s c.die).mfRing = none → (dieAt u c.die).mfDrop = (dieAt s c.die).mfDrop + 1 ∧ u.m = s.m) := by
  rw [exec_dbgMark]
  unfold execDbgMark
  rw [issuing_eq issues]
  dsimp only
  generalize leBytes 8 _ ++ leBytes 8 _ ++ leBytes 4 _ ++ leBytes 2 _ = body
  generalize mfSrc _ _ _ = src
  obtain ⟨m, dies, shape⟩ := writeManifest_eq s c.die 3 48 src body
  have ended := ((Prepared.of_issues issues canon).aside (u := writeManifest s c.die 3 48 src body) (by rw [shape]) (by rw [shape])).finish f
  refine ⟨_, rfl, ended.silent (by rw [shape]), by rw [ended.rest.engines, shape], fun none => ?_⟩
  obtain ⟨memory, dropped⟩ := writeManifest_dropped 3 48 src body none
  refine ⟨?_, ended.rest.mem.trans memory⟩
  rw [dieAt, ended.rest.host]
  exact dropped

/-! ### Clocks and counters (R388, R389) -/

/-- An operation that gives every active lane one word. -/
theorem gives_word {v : State} (issue : v.c.issue = s.c.issue) (x : v.x = s.x) (w : Word) :
    ∃ u, Host.Outcome.next (finish (putLanes v c.pid (dstOf c f .i64) ((pathMask s c.pid).lanes.map (fun l => (l, w)))) c f) = (.next u : Out) ∧
      Delivers s u c f (dstOf c f .i64) (pathMask s c.pid).lanes (fun _ => w) :=
  ⟨_, rfl, (((Prepared.of_issues issues canon).aside issue x).deliver f (dstOf c f .i64) (fun _ => w)).delivers (by rw [x])⟩

/-- The counter that `rdcnt` reads. -/
def counterRead (f : Form) : Nat := match f with | .p w => immNat w.a | .n w => w.aux.toNat % 64

theorem execRdcnt_gives : ∃ u, exec (.rdcnt f) s = .next u ∧ Delivers s u c f (dstOf c f .i64) (pathMask s c.pid).lanes
    (fun _ => BitVec.ofNat 64 (if counterRead f < 32 then s.d.cnt.getD 0 (coreOfWarp c.warp * 64 + counterRead f)
      else s.d.ccnt.getD 0 (clusterOf (coreOfWarp c.warp) * 64 + counterRead f))) := by
  rw [exec_rdcnt]
  unfold execRdcnt
  rw [issuing_eq issues]
  cases f <;> exact gives_word issues canon rfl rfl _

theorem execRdclk_gives : ∃ u, exec (.rdclk f) s = .next u ∧ Delivers s u c f (dstOf c f .i64) (pathMask s c.pid).lanes
    (fun _ => if modOf f = 0 then BitVec.ofNat 64 (dieCycle s c.die) else packageTime s c.die) := by
  rw [exec_rdclk, execRdclk, issuing_eq issues]
  exact gives_word issues canon rfl rfl _

end

theorem packageTime_fields (s : State) (die : Nat) :
    (packageTime s die).toNat / 128 = (match s.pl.dieFc.find? die with | some v => v.toNat | none => s.pl.fc.toNat) % 2 ^ 57 ∧
      (packageTime s die).toNat % 128 ≤ 74 := by
  cases found : s.pl.dieFc.find? die <;> simp only [packageTime, found, BitVec.toNat_ofNat] <;> omega

/-! ### `sys` (R401) -/

theorem zero_or_one (b : Bool) : (if b = true then (1 : Word) else 0) = 0 ∨ (if b = true then (1 : Word) else 0) = 1 := by
  cases b
  · exact .inl rfl
  · exact .inr rfl

/-- The word that lists a die, its kind, its warp width and, below, its units, each in its place. -/
def placedWord (die kind rest lanes cl low : Nat) : Word :=
  BitVec.ofNat 64 (die * 2 ^ 56 + kind * 2 ^ 52 + rest * 2 ^ 48 + lanes * 2 ^ 40 + cl * 2 ^ 32 + low)

theorem placedWord_fields {die kind rest lanes cl low : Nat} (hd : die < 16) (hk : kind < 16) (hr : rest < 16) (hl : lanes < 256) (hc : cl < 16)
    (hlow : low < 2 ^ 32) : ((placedWord die kind rest lanes cl low).extractLsb' 56 4).toNat = die ∧
      ((placedWord die kind rest lanes cl low).extractLsb' 52 4).toNat = kind ∧
      ((placedWord die kind rest lanes cl low).extractLsb' 40 8).toNat = lanes := by
  have value : (placedWord die kind rest lanes cl low).toNat =
      die * 2 ^ 56 + kind * 2 ^ 52 + rest * 2 ^ 48 + lanes * 2 ^ 40 + cl * 2 ^ 32 + low := by
    rw [placedWord, BitVec.toNat_ofNat, Nat.mod_eq_of_lt (by omega)]
  refine ⟨?_, ?_, ?_⟩ <;> rw [BitVec.extractLsb'_toNat, value, Nat.shiftRight_eq_div_pow] <;> omega

theorem dieKind_cases (die : Nat) : (Config.dieKind die = 0 ∧ Config.lanes die = 64 ∧ Config.vregs die = 1536 ∧ Config.accs die = 8) ∨
    (Config.dieKind die = 1 ∧ Config.lanes die = 32 ∧ Config.vregs die = 1024 ∧ Config.accs die = 4) ∨
    (Config.dieKind die = 2 ∧ Config.lanes die = 0 ∧ Config.vregs die = 0 ∧ Config.accs die = 0) := by
  have kind : Config.dieKind die = 0 ∨ Config.dieKind die = 1 ∨ Config.dieKind die = 2 := by
    unfold Config.dieKind
    split_ifs <;> simp
  rcases kind with kind | kind | kind <;> simp [Config.lanes, Config.vregs, Config.accs, kind]

/-- The units that a descriptor lists below the clusters: vector registers, cores, accumulators and memory groups. -/
def unitsWord (vregs cores accs groups : Nat) : Nat := vregs * 2 ^ 21 + cores * 2 ^ 12 + accs * 2 ^ 8 + groups

theorem unitsWord_lt {vregs cores accs groups : Nat} (hv : vregs ≤ 1536) (hc : cores ≤ 96) (ha : accs ≤ 8) (hg : groups ≤ 64) :
    unitsWord vregs cores accs groups < 2 ^ 32 := by
  unfold unitsWord
  omega

theorem descriptor_eq (s : State) (die : Nat) : ∃ cl low, cl < 16 ∧ low < 2 ^ 32 ∧ descriptor s die =
    placedWord (die % 16) (Config.dieKind die) (3 - Config.dieKind die) (Config.lanes die) cl low := by
  have groups : ((List.range 8).filter (fun i => (dieAt s die).mchGroups.getLsbD i)).length ≤ 8 :=
    (List.length_filter_le _ _).trans (by simp)
  unfold descriptor
  dsimp only
  generalize (List.range 8).filter (fun i => (dieAt s die).mchGroups.getLsbD i) = up at groups
  have clusters := (dieAt s die).clrdy.isLt
  generalize (dieAt s die).clrdy.toNat = cl at clusters
  generalize (dieAt s die).fw.recovery = safe
  refine ⟨if Config.dieKind die = 2 ∨ safe = true then 0 else cl, unitsWord (Config.vregs die) (if Config.dieKind die = 2 then 0 else 96)
    (Config.accs die) (if Config.dieKind die = 2 ∨ safe = true then 0 else 8 * up.length), ?_, unitsWord_lt ?_ ?_ ?_ ?_, ?_⟩
  · split <;> omega
  · rcases dieKind_cases die with ⟨-, -, h, -⟩ | ⟨-, -, h, -⟩ | ⟨-, -, h, -⟩ <;> omega
  · split <;> omega
  · rcases dieKind_cases die with ⟨-, -, -, h⟩ | ⟨-, -, -, h⟩ | ⟨-, -, -, h⟩ <;> omega
  · split <;> omega
  · generalize (if Config.dieKind die = 2 ∨ safe = true then 0 else 8 * up.length) = groups
    generalize (if Config.dieKind die = 2 ∨ safe = true then 0 else cl) = ready
    rw [placedWord, unitsWord]
    simp only [Nat.add_assoc]

theorem descriptor_fields (s : State) (die : Nat) :
    ((descriptor s die).extractLsb' 56 4).toNat = die % 16 ∧ ((descriptor s die).extractLsb' 52 4).toNat = Config.dieKind die ∧
      ((descriptor s die).extractLsb' 40 8).toNat = Config.lanes die := by
  obtain ⟨cl, low, hc, hlow, eq⟩ := descriptor_eq s die
  rw [eq]
  have small : Config.dieKind die < 3 ∧ Config.lanes die < 256 := by
    rcases dieKind_cases die with ⟨k, l, -⟩ | ⟨k, l, -⟩ | ⟨k, l, -⟩ <;> rw [k, l] <;> decide
  exact placedWord_fields (Nat.mod_lt _ (by decide)) (by omega) (by omega) small.2 hc hlow

section
variable {f : Form} {s : State} {c : Ctx} (issues : Issues s f c)
include issues

theorem execSys_undefined (high : 3 ≤ codeOf f) : exec (.sys f) s = .next (raise s c f (plainTrap 0x10 (pathMask s c.pid).lanes)) := by
  rw [exec_sys]
  unfold execSys
  rw [issuing_eq issues]
  exact congrArg Host.Outcome.next (if_pos high)

theorem execSys_waits (low : codeOf f < 3) (flying : (warpAt s c.warp).inflight ≠ []) :
    exec (.sys f) s = .next (hold s c.pid f .drained) := by
  rw [exec_sys]
  unfold execSys
  rw [issuing_eq issues]
  exact congrArg Host.Outcome.next ((if_neg (by omega)).trans (if_pos (by simpa using flying)))

/-- Once earlier accesses have performed, a defined code gives its word. -/
theorem execSys_gives (canon : Canonical s) (low : codeOf f < 3) (drained : (warpAt s c.warp).inflight = []) :
    ∃ v, (codeOf f = 0 → v = descriptor s c.die) ∧ (codeOf f = 1 → v = BitVec.ofNat 64 (dieAt s c.die).sensors.watts) ∧
      (codeOf f = 2 → v = 0 ∨ v = 1) ∧
      ∃ u, exec (.sys f) s = .next u ∧ Delivers s u c f (dstOf c f .i64) (pathMask s c.pid).lanes (fun _ => v) := by
  rw [exec_sys]
  unfold execSys
  rw [issuing_eq issues]
  dsimp only
  rw [if_neg (by omega), drained, if_neg (by simp)]
  split
  · next zero => exact ⟨_, fun _ => rfl, by simp [zero], by simp [zero], gives_word issues canon (by rfl) (by rfl) _⟩
  · next one => exact ⟨_, by simp [one], fun _ => rfl, by simp [one], gives_word issues canon (by rfl) (by rfl) _⟩
  · next h0 h1 =>
    refine ⟨_, fun h => absurd h h0, fun h => absurd h h1, fun _ => ?_, gives_word issues canon (by rfl) (by rfl) _⟩
    exact zero_or_one _

end

/-! ### `brk` (R381) -/

/-- Engines and paths change; each path stays, stands where it stood, and is held if it was. -/
structure Stood (s t : State) : Prop where
  only : ∃ e ps, t = { s with e := e, x := { s.x with paths := ps } }
  listed : ∀ k, (t.x.paths.find? k).isSome = (s.x.paths.find? k).isSome
  place : ∀ k, (pathAt t k).pc = (pathAt s k).pc
  held : ∀ k, (pathAt s k).held = true → (pathAt t k).held = true

namespace Stood
variable {s t u : State}

theorem refl (s : State) : Stood s s := ⟨⟨_, _, rfl⟩, fun _ => rfl, fun _ => rfl, fun _ => id⟩

theorem trans (h : Stood s t) (h' : Stood t u) : Stood s u := by
  refine ⟨?_, fun k => (h'.listed k).trans (h.listed k), fun k => (h'.place k).trans (h.place k), fun k held => h'.held k (h.held k held)⟩
  obtain ⟨e, ps, rfl⟩ := h.only
  obtain ⟨e', ps', rfl⟩ := h'.only
  exact ⟨e', ps', rfl⟩

theorem of_engines (h : EnginesOnly s t) : Stood s t := by
  obtain ⟨e, rfl⟩ := h
  exact ⟨⟨e, s.x.paths, rfl⟩, fun _ => rfl, fun _ => rfl, fun _ => id⟩

theorem of_updPath (s : State) (pid : Nat) {g : Path → Path} (place : ∀ p, (g p).pc = p.pc) (held : ∀ p, p.held = true → (g p).held = true) :
    Stood s (updPath s pid g) := by
  have path : ∀ k, pathAt (updPath s pid g) k = pathAt s k ∨ pathAt (updPath s pid g) k = g (pathAt s k) := by
    intro k
    by_cases same : k = pid
    · subst same
      cases found : (s.x.paths.find? k).isSome
      · left
        have none : s.x.paths.find? k = none := by simpa using found
        rw [updPath, SMap.upd, none]
      · exact .inr (pathAt_updPath_self g found)
    · exact .inl (pathAt_updPath_ne s g same)
  refine ⟨⟨s.e, _, rfl⟩, fun k => ?_, fun k => ?_, fun k h => ?_⟩
  · by_cases same : k = pid
    · subst same
      rw [updPath, SMap.find?_upd_self, Option.isSome_map]
    · rw [updPath, SMap.find?_upd_ne _ _ same]
  · rcases path k with h | h <;> rw [h]
    exact place _
  · rcases path k with e | e <;> rw [e]
    · exact h
    · exact held _ h

end Stood

theorem stood_standDown (s : State) (pid : Nat) : Stood s (standDown s pid) := by
  have load : ∀ t, EnginesOnly t (withdrawLoad t pid) := fun t => by
    unfold withdrawLoad
    dsimp only
    split
    · exact .refl t
    · exact ⟨_, rfl⟩
  unfold standDown
  split
  · exact .refl s
  · have engines : EnginesOnly s (withdrawLoad (withdrawShapes (withdrawSwap s pid) pid) pid) :=
      EnginesOnly.trans ⟨_, rfl⟩ ((enginesOnly_withdrawShapes _ pid).trans (load _))
    refine (Stood.of_engines engines).trans (.of_updPath _ pid (fun p => ?_) fun p h => ?_)
    · split <;> rfl
    · split <;> exact h

theorem stood_holdPath (s : State) (pid bit : Nat) (info : BitVec 16) : Stood s (holdPath s pid bit info) :=
  (stood_standDown s pid).trans (.of_updPath _ pid (fun _ => rfl) fun _ _ => rfl)

theorem held_holdPath {s : State} {pid : Nat} (bit : Nat) (info : BitVec 16) (alive : (s.x.paths.find? pid).isSome = true) :
    (pathAt (holdPath s pid bit info) pid).held = true := by
  have there : ((standDown s pid).x.paths.find? pid).isSome = true := by rw [(stood_standDown s pid).listed, alive]
  unfold holdPath
  dsimp only
  rw [pathAt_updPath_self _ there]

/-- The paths of a stop are held, and every path stands where it stood. -/
theorem holdPaths_spec (s : State) (pids : List Nat) (bit : Nat) (info : BitVec 16) :
    let t := pids.foldl (fun t p => holdPath t p bit info) s
    Stood s t ∧ ∀ p ∈ pids, (s.x.paths.find? p).isSome = true → (pathAt t p).held = true := by
  refine ⟨foldl_inv (Stood s) _ (fun t p h => h.trans (stood_holdPath t p bit info)) s pids (.refl s), fun p hp alive => ?_⟩
  exact foldl_reaches (f := fun t p => holdPath t p bit info) (Q := fun t => (t.x.paths.find? p).isSome = true)
    (P := fun t => (pathAt t p).held = true) (fun t q h => by rw [(stood_holdPath t q bit info).listed, h])
    (fun t q h => (stood_holdPath t q bit info).held p h) (fun t h => held_holdPath bit info h) hp alive

theorem listed_finish (s : State) (c : Ctx) (f : Form) (k : Nat) :
    ((finish s c f).x.paths.find? k).isSome = (s.x.paths.find? k).isSome := by
  cases f with
  | n w => rfl
  | p w =>
    by_cases same : k = c.pid
    · subst same
      rw [finish_p, endIssue, nextWord, updPath, SMap.find?_upd_self, Option.isSome_map]
    · rw [(finish_kept s c (.p w)).2.1.others k same]

theorem debugged_finish (s : State) (c : Ctx) (f : Form) (g : Nat) : debugged (finish s c f) g = debugged s g := by
  obtain ⟨rest, paths, -⟩ := finish_kept s c f
  simp only [debugged, gangAt, paths.gangs, launchAt, ctxAt, rest.host]

/-- The path is one of a gang. -/
def OfGang (s : State) (gang p : Nat) : Prop := (s.x.paths.find? p).isSome = true ∧ (warpAt s (p / 64)).gang = gang

/-- A stop of gang scope holds the paths of the gang. -/
theorem mem_scopePaths {s : State} {c : Ctx} (f : Form) (ctx : Nat) (acts : debugged s c.gang = true) (p : Nat) :
    p ∈ scopePaths (finish s c f) 1 ctx 0 [c.gang] [] ↔ OfGang s c.gang p := by
  obtain ⟨-, paths, -⟩ := finish_kept s c f
  have warp : ∀ w, warpAt (finish s c f) w = warpAt s w := fun w => by rw [warpAt, paths.warps]; rfl
  have listed : ((finish s c f).x.paths.find? p).isSome = true ↔ ∃ q, (p, q) ∈ (finish s c f).x.paths := by
    constructor
    · intro h
      obtain ⟨q, found⟩ := Option.isSome_iff_exists.1 h
      exact ⟨q, SMap.mem_of_find? found⟩
    · rintro ⟨q, mem⟩
      cases found : (finish s c f).x.paths.find? p with
      | none => exact absurd rfl (SMap.find?_eq_none_iff.1 found _ mem)
      | some _ => rfl
  rw [OfGang, ← listed_finish s c f, listed]
  simp only [scopePaths, List.mem_map, List.mem_filter, warp, debugged_finish, Prod.exists, List.contains_cons, List.contains_nil, Bool.or_false, beq_iff_eq]
  constructor
  · rintro ⟨_, q, ⟨⟨mem, -⟩, gang⟩, rfl⟩
    exact ⟨⟨q, mem⟩, gang⟩
  · rintro ⟨⟨q, mem⟩, gang⟩
    exact ⟨p, q, ⟨⟨mem, by rw [gang, acts]⟩, gang⟩, rfl⟩

theorem Past.stood {s t u : State} {c : Ctx} {f : Form} (past : Past s t c f) (stood : Stood t u) : Past s u c f := by
  obtain ⟨e, ps, shape⟩ := stood.only
  have issue : u.c.issue = t.c.issue := by rw [shape]
  have place := stood.place c.pid
  cases f with
  | p w => exact ⟨issue.trans past.1, place.trans past.2⟩
  | n w => exact ⟨issue.trans past.1, place.trans past.2⟩

/-- A stop changes what is sent to the host and what is still to be reported. -/
theorem reportStop_eq (s : State) (ctx : Nat) (pids : List Nat) (hits : List WatchRec) :
    (pids.any (midBundle s) = true ∧ reportStop s ctx pids hits =
      { s with d := { s.d with stops := s.d.stops ++ [{ ctx := ctx, pids := pids, hits := hits }] } }) ∨
    (pids.any (midBundle s) = false ∧ ∃ rs, reportStop s ctx pids hits =
      { s with h := { s.h with out := s.h.out ++ [.stop ctx rs (hits.map hitWords)] } }) := by
  unfold reportStop
  split
  · next mid => exact .inl ⟨mid, rfl⟩
  · next calm => exact .inr ⟨by simpa using calm, _, rfl⟩

section
variable {f : Form} {s : State} {c : Ctx} (issues : Issues s f c)
include issues

theorem execBrk_eq : exec (.brk f) s = .next (if debugged s c.gang = true then
    stopPaths (finish s c f) c.ctx (scopePaths (finish s c f) 1 c.ctx 0 [c.gang] []) 1 (BitVec.ofNat 16 (codeOf f)) []
    else finish s c f) := by
  rw [exec_brk]
  unfold execBrk
  rw [issuing_eq issues]

theorem execBrk_passes (canon : Canonical s) (calm : debugged s c.gang = false) :
    ∃ u, exec (.brk f) s = .next u ∧ Silent s u c f ∧ RestKept s u := by
  have ended := (Prepared.of_issues issues canon).finish f
  refine ⟨finish s c f, ?_, ended.silent rfl, ended.rest⟩
  rw [execBrk_eq issues, calm]
  rfl

theorem execBrk_stops (canon : Canonical s) (acts : debugged s c.gang = true) :
    ∃ u, exec (.brk f) s = .next u ∧ Past s u c f ∧ u.m = s.m ∧ u.x.vals = s.x.vals ∧
      (∀ p, OfGang s c.gang p → (pathAt u p).held = true) ∧
      ((∀ p, OfGang s c.gang p → midBundle u p = false) → ∃ rs, u.h.out = s.h.out ++ [.stop c.ctx rs []] ∧ u.d.stops = s.d.stops) ∧
      ((∃ p, OfGang s c.gang p ∧ midBundle u p = true) → u.h.out = s.h.out ∧ ∃ r, u.d.stops = s.d.stops ++ [r] ∧ r.ctx = c.ctx ∧ r.hits = [] ∧
        ∀ p, OfGang s c.gang p → p ∈ r.pids) := by
  have ended := (Prepared.of_issues issues canon).finish f
  have stepped := execBrk_eq issues
  rw [if_pos acts, stopPaths] at stepped
  have pids := mem_scopePaths f c.ctx acts
  generalize scopePaths (finish s c f) 1 c.ctx 0 [c.gang] [] = ps at stepped pids
  obtain ⟨stood, held⟩ := holdPaths_spec (finish s c f) ps 1 (BitVec.ofNat 16 (codeOf f))
  generalize ps.foldl (fun t p => holdPath t p 1 (BitVec.ofNat 16 (codeOf f))) (finish s c f) = t at stepped stood held
  have past : Past s t c f := ended.past.stood stood
  have kept : t.m = s.m ∧ t.x.vals = s.x.vals ∧ t.h = s.h ∧ t.d = s.d := by
    obtain ⟨e, q, rfl⟩ := stood.only
    obtain ⟨rest, -, x⟩ := finish_kept s c f
    exact ⟨rest.mem, by rw [x], rest.host, rest.debug⟩
  obtain ⟨memory, vals, host, debug⟩ := kept
  have held : ∀ p, OfGang s c.gang p → (pathAt t p).held = true := fun p hp =>
    held p ((pids p).2 hp) (by rw [listed_finish]; exact hp.1)
  rcases reportStop_eq t c.ctx ps [] with ⟨mid, eq⟩ | ⟨calm, rs, eq⟩ <;> rw [eq] at stepped
  · refine ⟨_, stepped, past, memory, vals, held, fun none => ?_, fun _ => ⟨by rw [host], _, by rw [debug], rfl, rfl, fun p hp => (pids p).2 hp⟩⟩
    obtain ⟨p, hp, busy⟩ := List.any_eq_true.1 mid
    exact absurd ((none p ((pids p).1 hp)).symm.trans busy) Bool.false_ne_true
  · refine ⟨_, stepped, past, memory, vals, held, fun _ => ⟨rs, by rw [host]; rfl, by rw [debug]⟩, fun ⟨p, hp, busy⟩ => ?_⟩
    have any : ps.any (midBundle t) = true := List.any_eq_true.2 ⟨p, (pids p).2 hp, busy⟩
    exact absurd (calm.symm.trans any) Bool.false_ne_true

end

/-- Settles O39. -/
theorem debuggerInstructionsObserveAndReport : Obligations.DebuggerInstructionsObserveAndReport := by
  unfold Obligations.DebuggerInstructionsObserveAndReport
  intro f s c issues canon ls core code cnt mine fc gives
  have codes : code = codeOf f := by cases f <;> rfl
  rw [codes]
  refine ⟨execBrk_passes issues canon, execBrk_stops issues canon, execDbgMark_spec issues canon, fun die => ?_, fun pkg => ?_, ?_,
    execSys_undefined issues, execSys_waits issues, fun drained => ⟨fun zero => ?_, fun one => ?_, fun two => ?_⟩⟩
  · have given := execRdclk_gives issues canon
    rwa [if_pos die] at given
  · have given := execRdclk_gives issues canon
    rw [if_neg pkg] at given
    exact ⟨_, given, packageTime_fields s c.die⟩
  · have counter : cnt = counterRead f := by cases f <;> rfl
    rw [counter]
    exact execRdcnt_gives issues canon
  · obtain ⟨v, word, -, -, given⟩ := execSys_gives issues canon (by omega) drained
    exact ⟨v, given, word zero ▸ descriptor_fields s c.die⟩
  · obtain ⟨v, -, word, -, given⟩ := execSys_gives issues canon (by omega) drained
    exact word one ▸ given
  · obtain ⟨v, -, -, word, given⟩ := execSys_gives issues canon (by omega) drained
    exact ⟨v, given, word two⟩

end Sys2Proof.Machine
end

section
/-!
SUPPORT. O20: taking a trap with a handler (R353).
-/
namespace Sys2Proof.Machine

/-! ### Saved bytes -/

theorem memoryOnly_saveWrite (s : State) (ctx o : Nat) (bs : List Byte) : MemoryOnly s (saveWrite s ctx o bs) := by
  unfold saveWrite
  split
  · next t h => exact (memoryOnly_kernelWrite ctx bs s _).1 t h
  · next t w h => exact (memoryOnly_kernelWrite ctx bs s _).2 t w h

theorem kernelXlate_congr {s t : State} (memory : t.m = s.m) (host : t.h = s.h) (ctx : Nat) (va : Word) (r : Right) :
    kernelXlate t ctx va r = kernelXlate s ctx va r := by
  rw [kernelXlate, kernelXlate, walkVa_congr memory host]

/-- Where a kernel write leads, whether or not it meets a fault. -/
def writtenState (r : Except (State × Word) State) : State := match r with | .ok t => t | .error (t, _) => t

theorem kernelWrite_congr (ctx : Nat) (bs : List Byte) {s t : State} (memory : t.m = s.m) (host : t.h = s.h) (va : Word) :
    (writtenState (kernelWrite t ctx va bs)).m = (writtenState (kernelWrite s ctx va bs)).m := by
  induction bs generalizing s t va with
  | nil => exact memory
  | cons b bs ih =>
    rw [kernelWrite, kernelWrite, kernelXlate_congr memory host]
    cases kernelXlate s ctx va .wr with
    | error k => exact memory
    | ok x => exact ih (s := writeByte s x.1 b) (t := writeByte t x.1 b) (by simp only [writeByte, setMem, memory]) host (va + 1)

/-- What the saved bytes leave in memory depends on memory and the context's tables alone. -/
theorem saveWrite_congr {s t : State} (memory : t.m = s.m) (host : t.h = s.h) (ctx o : Nat) (bs : List Byte) :
    (saveWrite t ctx o bs).m = (saveWrite s ctx o bs).m := by
  have base : saveBase t ctx = saveBase s ctx := by rw [saveBase, saveBase, ctxAt, ctxAt, host]
  have written : ∀ u : State, saveWrite u ctx o bs = writtenState (kernelWrite u ctx (saveBase u ctx + BitVec.ofNat 64 o) bs) := fun u => by
    unfold saveWrite writtenState
    cases kernelWrite u ctx (saveBase u ctx + BitVec.ofNat 64 o) bs <;> rfl
  rw [written, written, base]
  exact kernelWrite_congr ctx bs memory host _

theorem takeSave_eq {s s1 : State} {ctx n o : Nat} (taken : takeSave s ctx n = some (s1, o)) :
    ∃ ctxs, s1 = { s with h := { s.h with ctxs := ctxs } } := by
  unfold takeSave at taken
  split at taken
  · cases taken
  · split at taken
    · cases taken
    · simp only [Option.some.injEq, Prod.mk.injEq] at taken
      exact ⟨_, taken.1.symm⟩

/-! ### The handler's frame -/

/-- The scalar registers of a warp with s0 to s7 the PARAM words. -/
def paramRegs (m : SMap Word) (w : Nat) (r : BitVec 1024) : SMap Word := m.putAll 0 (sregKey w) (lrParam r) (List.range 8)

theorem getD_paramRegs {m : SMap Word} (wf : SMap.wf 0 m = true) (w : Nat) (r : BitVec 1024) {i : Nat} (hi : i < 8) :
    (paramRegs m w r).getD 0 (sregKey w i) = lrParam r i := by
  refine SMap.getD_putAll wf ⟨i, List.mem_range.2 hi, rfl⟩ fun j _ same => ?_
  have : j = i := by simpa [sregKey] using same
  rw [this]

/-- Only virtual values change, and only those of `depth` with numbers below `n`. -/
def ParamsOnly (depth n : Nat) (s t : State) : Prop :=
  ∃ vals, t = { s with x := { s.x with vals := vals } } ∧
    ∀ k, (∀ thread i, i < n → k ≠ valKey thread depth i) → vals.getD 0 k = s.x.vals.getD 0 k

theorem paramsOnly_setVal {depth n : Nat} {s t : State} (h : ParamsOnly depth n s t) (thread : Nat) {i : Nat} (hi : i < n) (v : Word) :
    ParamsOnly depth n s (setVal t thread depth i v) := by
  obtain ⟨vals, rfl, kept⟩ := h
  exact ⟨_, rfl, fun k out => (SMap.getD_putD_ne 0 vals v (out thread i hi)).trans (kept k out)⟩

/-- The handler's parameters in some lanes. -/
def paramsSet (s : State) (p depth n : Nat) (r : BitVec 1024) (ls : List Nat) : State :=
  ls.foldl (fun s l => (List.range n).foldl (fun s i => setVal s (threadKey p l) depth i (lrParam r i)) s) s

theorem paramsOnly_paramsSet (s : State) (p depth n : Nat) (r : BitVec 1024) (ls : List Nat) :
    ParamsOnly depth n s (paramsSet s p depth n r ls) := by
  have lane : ∀ (is : List Nat) (l : Nat) (t : State), (∀ i ∈ is, i < n) → ParamsOnly depth n s t →
      ParamsOnly depth n s (is.foldl (fun s i => setVal s (threadKey p l) depth i (lrParam r i)) t) := by
    intro is l
    induction is with
    | nil => exact fun t _ h => h
    | cons i is ih =>
      exact fun t small h => ih _ (fun j hj => small j (List.mem_cons_of_mem _ hj))
        (paramsOnly_setVal h _ (small i List.mem_cons_self) _)
  exact foldl_inv (ParamsOnly depth n s) _ (fun t l h => lane _ l t (fun i hi => List.mem_range.1 hi) h) s ls ⟨_, rfl, fun _ _ => rfl⟩

theorem enginesOnly_putHeader (s : State) (w o : Nat) (link sp fb : Word) (ls : List Nat) : EnginesOnly s (putHeader s w o link sp fb ls) :=
  foldl_inv (EnginesOnly s) _ (fun _ _ h => h.trans ⟨_, rfl⟩) s ls (.refl s)

/-- What entering a handler sets, and what it keeps. -/
structure HandlerEntered (v u : State) (p hfn b : Nat) : Prop where
  mem : u.m = v.m
  blocks : u.x.blocks = v.x.blocks
  path : ∃ phys, pathAt u p = { pathAt v p with
    pc := .word (VPC.of hfn (blockEntry (funcAt (moduleAt v (gangAt v (warpAt v (warpOfPath p)).gang).module) hfn).code 0))
    resumed := none
    frames := { fn := hfn, callVpc := pcVpc v (pathAt v p), wants := none, trap := some b } :: (pathAt v p).frames
    split := none
    wait := none
    s127 := (pathAt v p).s127 + (pathAt v p).s124
    s124 := BitVec.ofNat 64 (16 + 4 * handlerWords v (warpAt v (warpOfPath p)).gang hfn)
    s126 := BitVec.ofNat 64 phys
    readyAt := v.c.cycle
    atExit := false }
  sregs : u.x.sregs = paramRegs v.x.sregs (warpOfPath p) (launchAt v (gangAt v (warpAt v (warpOfPath p)).gang).launch).record
  vals : ∀ k, (∀ thread i, i < (funcAt (moduleAt v (gangAt v (warpAt v (warpOfPath p)).gang).module) hfn).nparam →
    k ≠ valKey thread ((pathAt v p).frames.length + 1) i) → u.x.vals.getD 0 k = v.x.vals.getD 0 k

theorem pathAt_setPath (s : State) (p : Nat) (q : Path) : pathAt (setPath s p q) p = q := by
  simp [pathAt, setPath, SMap.getD, SMap.find?_ins_self]

theorem enterHandler_enters (v : State) (p hfn b : Nat) : HandlerEntered v (enterHandler v p hfn b) p hfn b := by
  obtain ⟨vals, params, kept⟩ := paramsOnly_paramsSet
    { v with x := { v.x with sregs := paramRegs v.x.sregs (warpOfPath p) (launchAt v (gangAt v (warpAt v (warpOfPath p)).gang).launch).record } }
    p ((pathAt v p).frames.length + 1)
    (funcAt (moduleAt v (gangAt v (warpAt v (warpOfPath p)).gang).module) hfn).nparam
    (launchAt v (gangAt v (warpAt v (warpOfPath p)).gang).launch).record (pathAt v p).mask.lanes
  have entered : ∃ e q, enterHandler v p hfn b = setPath { v with
      e := e
      x := { v.x with
        vals := vals
        sregs := paramRegs v.x.sregs (warpOfPath p) (launchAt v (gangAt v (warpAt v (warpOfPath p)).gang).launch).record } } p q ∧
      ∃ phys, q = { pathAt v p with
        pc := .word (VPC.of hfn (blockEntry (funcAt (moduleAt v (gangAt v (warpAt v (warpOfPath p)).gang).module) hfn).code 0))
        resumed := none
        frames := { fn := hfn, callVpc := pcVpc v (pathAt v p), wants := none, trap := some b } :: (pathAt v p).frames
        split := none
        wait := none
        s127 := (pathAt v p).s127 + (pathAt v p).s124
        s124 := BitVec.ofNat 64 (16 + 4 * handlerWords v (warpAt v (warpOfPath p)).gang hfn)
        s126 := BitVec.ofNat 64 phys
        readyAt := v.c.cycle
        atExit := false } := by
    unfold enterHandler
    dsimp only
    rw [paramsSet] at params
    rw [show (List.range 8).foldl (fun x i => SMap.putD x 0 (sregKey (warpOfPath p) i) (lrParam
      (launchAt v (gangAt v (warpAt v (warpOfPath p)).gang).launch).record i)) v.x.sregs = paramRegs v.x.sregs (warpOfPath p)
      (launchAt v (gangAt v (warpAt v (warpOfPath p)).gang).launch).record from rfl, params]
    split
    · obtain ⟨e, header⟩ := enginesOnly_putHeader _ (warpOfPath p) _ _ _ _ _
      rw [header]
      exact ⟨e, _, rfl, _, rfl⟩
    · exact ⟨v.e, _, rfl, _, rfl⟩
  obtain ⟨e, q, eq, phys, path⟩ := entered
  rw [eq]
  exact ⟨rfl, rfl, ⟨phys, by rw [pathAt_setPath, path]⟩, rfl, kept⟩

/-! ### The trap block -/

/-- The bytes of a trap block: the record, the path's registers and the lanes' values. -/
def trapSaved (s : State) (p : Nat) (t : TrapRec) : List Byte :=
  trapBytes t ++ leBytes 8 (pathAt s p).s124.toNat ++ leBytes 8 (pathAt s p).s125.toNat ++ leBytes 8 (pathAt s p).s126.toNat ++
    leBytes 8 (pathAt s p).s127.toNat ++ (trapVals s p t.vpc).flatMap (fun v =>
      (List.range (Config.lanes (gangAt s (warpAt s (warpOfPath p)).gang).die)).flatMap (fun l => leBytes 8 (trapVal s p l v).toNat))

/-- The trap block of a path whose context's save region holds it at `o`. -/
def trapBlockOf (s : State) (p : Nat) (t : TrapRec) (o : Nat) : TrapBlock :=
  let q := pathAt s p
  let g := gangAt s (warpAt s (warpOfPath p)).gang
  { warp := warpOfPath p, record := t, pc := .word t.vpc, frames := q.frames, split := q.split, s124 := q.s124, s125 := q.s125,
    s126 := q.s126, s127 := q.s127, mask := q.mask, left := [], ctx := g.ctx, off := o
    len := roundUp (blockBytes (Config.lanes g.die) (trapVals s p t.vpc).length) 64 }

/-- The state in which the trap is noted: its block taken and written. -/
def trapNoted (s s1 : State) (p : Nat) (t : TrapRec) (o : Nat) : State :=
  let s2 := saveWrite (takeId s1) (gangAt s (warpAt s (warpOfPath p)).gang).ctx o (trapSaved s p t)
  { s2 with x := { s2.x with blocks := s2.x.blocks.ins s1.c.nextId (trapBlockOf s p t o) } }

section
variable {s s1 : State} {p o : Nat} {t : TrapRec}
  (taken : takeSave s (gangAt s (warpAt s (warpOfPath p)).gang).ctx (roundUp
    (blockBytes (Config.lanes (gangAt s (warpAt s (warpOfPath p)).gang).die) (trapVals s p t.vpc).length) 64) = some (s1, o))
include taken

/-- A trap whose handler's frame fits is noted, and its path enters the handler. -/
theorem takeTrap_eq (outside : handlerOf (pathAt s p) = none)
    (handler : lrHandler (launchAt s (gangAt s (warpAt s (warpOfPath p)).gang).launch).record ≠ 0xFFFF)
    (fits : ((pathAt s p).s127 + (pathAt s p).s124).toNat + 16 + 4 * handlerWords s (warpAt s (warpOfPath p)).gang
      (lrHandler (launchAt s (gangAt s (warpAt s (warpOfPath p)).gang).launch).record) ≤ stackSize s (warpOfPath p)) :
    takeTrap s p t = enterHandler (trapNoted s s1 p t o) p
      (lrHandler (launchAt s (gangAt s (warpAt s (warpOfPath p)).gang).launch).record) s1.c.nextId := by
  unfold takeTrap
  dsimp only
  rw [outside]
  dsimp only
  rw [if_neg handler, taken]
  dsimp only
  rw [if_neg (by simpa using fits), trapNoted, trapSaved, trapBlockOf]

/-- Noting a trap changes memory, the context's save region, the next number and the trap blocks. -/
theorem trapNoted_shape : ∃ m ctxs, trapNoted s s1 p t o = { s with
    c := { s.c with nextId := s.c.nextId + 1 }
    m := m
    h := { s.h with ctxs := ctxs }
    x := { s.x with blocks := s.x.blocks.ins s.c.nextId (trapBlockOf s p t o) } } ∧
    m = (saveWrite s1 (gangAt s (warpAt s (warpOfPath p)).gang).ctx o (trapSaved s p t)).m := by
  obtain ⟨ctxs, rfl⟩ := takeSave_eq taken
  unfold trapNoted
  generalize trapSaved s p t = bs
  have memory := saveWrite_congr (s := { s with h := { s.h with ctxs := ctxs } }) (t := takeId { s with h := { s.h with ctxs := ctxs } })
    rfl rfl (gangAt s (warpAt s (warpOfPath p)).gang).ctx o bs
  obtain ⟨m, shape⟩ := memoryOnly_saveWrite (takeId { s with h := { s.h with ctxs := ctxs } }) (gangAt s (warpAt s (warpOfPath p)).gang).ctx o bs
  refine ⟨m, ctxs, ?_, by rw [← memory, shape]⟩
  rw [shape]
  rfl

end

/-- Settles O20: the trap is noted in its block, and the path enters the handler. -/
theorem takingATrapEntersTheHandler : Obligations.TakingATrapEntersTheHandler := by
  unfold Obligations.TakingATrapEntersTheHandler
  intro s p t canon alive q gi g r h n size u outside handler s1 o taken fits
  have eq : u = _ := takeTrap_eq taken outside handler fits
  obtain ⟨m, ctxs, shape, memory⟩ := trapNoted_shape taken
  have next : s1.c.nextId = s.c.nextId := by
    obtain ⟨_, rfl⟩ := takeSave_eq taken
    rfl
  have entered := enterHandler_enters (trapNoted s s1 p t o) p h s1.c.nextId
  rw [← eq, shape, next] at entered
  obtain ⟨mem, blocks, ⟨phys, path⟩, sregs, vals⟩ := entered
  refine ⟨by rw [blocks]; exact SMap.find?_ins_self .., by rw [path]; rfl, by rw [path], by rw [path]; rfl, by rw [path]; rfl,
    by rw [path]; rfl, by rw [path]; rfl, fun i hi => ?_, fun l v _ hv few => vals _ fun thread i hi => ?_, ?_⟩
  · have scalar : getSreg u p i = u.x.sregs.getD 0 (sregKey (warpOfPath p) i) := by
      unfold getSreg
      dsimp only
      rw [if_neg (by omega), if_neg (by omega), if_neg (by omega), if_neg (by omega)]
    rw [scalar, sregs]
    exact getD_paramRegs canon.2.2.2.1 _ r hi
  · exact (valKey_succ_ne (Nat.lt_of_lt_of_le hi few) hv).symm
  · have saved := mem
    rw [memory, trapSaved] at saved
    exact ⟨_, congrArg MemSys.mem saved⟩

end Sys2Proof.Machine
end

section
/-!
SUPPORT. O23: the return from a trap (R355).
-/
namespace Sys2Proof.Machine

/-! ### Lanes that leave a path (R155, R189) -/

/-- Of a state only paths and split records have changed, and no path is new. -/
def PathsFewer (s t : State) : Prop :=
  (∃ ps sp, t = { s with x := { s.x with paths := ps, splits := sp } }) ∧
    ∀ k, s.x.paths.find? k = none → t.x.paths.find? k = none

theorem PathsFewer.refl (s : State) : PathsFewer s s := ⟨⟨s.x.paths, s.x.splits, rfl⟩, fun _ h => h⟩

theorem PathsFewer.trans {s t u : State} (first : PathsFewer s t) (second : PathsFewer t u) : PathsFewer s u := by
  obtain ⟨⟨ps, sp, rfl⟩, fewer⟩ := first
  obtain ⟨⟨ps', sp', rfl⟩, fewer'⟩ := second
  exact ⟨⟨ps', sp', rfl⟩, fun k h => fewer' k (fewer k h)⟩

/-- A path that there was may stand again, changed. -/
theorem PathsFewer.setPath {s t : State} (fewer : PathsFewer s t) {p : Nat} (was : s.x.paths.find? p ≠ none) (q : Path) :
    PathsFewer s (setPath t p q) := by
  obtain ⟨⟨ps, sp, rfl⟩, fewer⟩ := fewer
  refine ⟨⟨ps.ins p q, sp, rfl⟩, fun k h => ?_⟩
  have other : k ≠ p := fun e => was (e ▸ h)
  rw [setPath_x_paths, SMap.find?_ins_ne _ _ other]
  exact fewer k h

theorem pathsFewer_fillTable (s : State) (w : Nat) : PathsFewer s (fillTable s w) := by
  refine ⟨?_, fun k h => (fillTable_kept w h).2.2⟩
  unfold fillTable
  split <;> exact ⟨_, _, rfl⟩

theorem pathsFewer_removePath (s : State) (p : Nat) : PathsFewer s (removePath s p) := by
  have first : PathsFewer s { s with x := { s.x with paths := s.x.paths.del p } } :=
    ⟨⟨_, _, rfl⟩, fun k h => SMap.find?_eq_none_iff.2 fun q hq => SMap.find?_eq_none_iff.1 h q (SMap.mem_del hq)⟩
  exact first.trans (pathsFewer_fillTable _ _)

theorem pathsFewer_noSplit (s : State) (r : Nat) : PathsFewer s { s with x := { s.x with splits := s.x.splits.del r } } :=
  ⟨⟨_, _, rfl⟩, fun _ h => h⟩

/-- Paths that a split record still has are paths of the state. -/
theorem find?_of_splitPaths {s : State} {r : Nat} {x : Nat × Path} (h : x ∈ splitPaths s r) : s.x.paths.find? x.1 ≠ none :=
  fun none => SMap.find?_eq_none_iff.1 none x (List.mem_of_mem_filter h) rfl

theorem pathsFewer_joinCheck (n : Nat) (s : State) (r : Nat) : PathsFewer s (joinCheck n s r) := by
  induction n generalizing s r with
  | zero => exact PathsFewer.refl s
  | succ n ih =>
    unfold joinCheck
    split
    · exact PathsFewer.refl s
    next k _ =>
    extract_lets ps x gone m
    have without : PathsFewer s gone := pathsFewer_noSplit s r
    have all : ∀ y ∈ ps, s.x.paths.find? y.1 ≠ none := fun y => find?_of_splitPaths
    clear_value ps gone
    split
    · exact PathsFewer.refl s
    rcases ps with _ | ⟨⟨p0, q0⟩, rest⟩
    · dsimp only
      split
      · exact without
      · exact without.trans (ih _ _)
    have was : s.x.paths.find? p0 ≠ none := all _ List.mem_cons_self
    dsimp only
    split
    swap
    · exact PathsFewer.refl s
    have removed : PathsFewer s (rest.foldl (fun s p => removePath s p.1) gone) :=
      foldl_inv (PathsFewer s) _ (fun u x h => h.trans (pathsFewer_removePath u x.1)) gone rest without
    split
    · split
      · exact (removed.setPath was _).trans (ih _ _)
      · exact removed.setPath was _
    · exact removed.setPath was _

theorem pathsFewer_dropLanes (s : State) (p : Nat) : PathsFewer s (dropLanes s p (pathAt s p).mask) := by
  have empty : (pathAt s p).mask &&& ~~~(pathAt s p).mask = 0 := by simp
  unfold dropLanes
  simp only [empty, if_true]
  split
  · exact (pathsFewer_removePath s p).trans (pathsFewer_joinCheck _ _ _)
  · exact pathsFewer_removePath s p

/-! ### What names translations, and what a finished thread leaves alone -/

/-- The gangs, each warp's gang and the path that issues are as they were: keys of translations name what they named. -/
def GangsNamed (s t : State) : Prop :=
  t.x.gangs = s.x.gangs ∧ (∀ w, (warpAt t w).gang = (warpAt s w).gang) ∧ t.c.issue = s.c.issue

theorem GangsNamed.trans {s t u : State} (first : GangsNamed s t) (second : GangsNamed t u) : GangsNamed s u :=
  ⟨second.1.trans first.1, fun w => (second.2.1 w).trans (first.2.1 w), second.2.2.trans first.2.2⟩

theorem PathsFewer.named {s t : State} (fewer : PathsFewer s t) : GangsNamed s t := by
  obtain ⟨⟨ps, sp, rfl⟩, -⟩ := fewer
  exact ⟨rfl, fun _ => rfl, rfl⟩

theorem GangsNamed.resumeKey {s t : State} (named : GangsNamed s t) (w : Nat) (v : VPC) :
    resumeKey t (warpAt t w).gang v = resumeKey s (warpAt s w).gang v := by
  simp only [Machine.resumeKey, calleeKey, gangAt, named.1, named.2.1 w]

theorem gang_updWarp (s : State) (w k : Nat) {f : Warp → Warp} (same : ∀ x, (f x).gang = x.gang) :
    (warpAt (updWarp s w f) k).gang = (warpAt s k).gang := by
  unfold warpAt SMap.getD updWarp
  by_cases e : k = w
  · subst e
    rw [SMap.find?_upd_self]
    cases s.x.warps.find? k with
    | none => rfl
    | some x => exact same x
  · rw [SMap.find?_upd_ne _ _ e]

/-- A thread that finishes leaves values, trap blocks and gangs alone. -/
theorem leaveBars_rest (s : State) (g k : Nat) (kill : Bool) :
    (leaveBars s g k kill).x.vals = s.x.vals ∧ (leaveBars s g k kill).x.blocks = s.x.blocks ∧
      GangsNamed s (leaveBars s g k kill) := by
  unfold leaveBars leaveCalls
  extract_lets t s1
  have left : s1.x = s.x := foldl_inv (fun u => u.x = s.x) _ (fun u b h => by dsimp only; split <;> exact h) s t.bars rfl
  refine ⟨congrArg (·.vals) left, congrArg (·.blocks) left, congrArg (·.gangs) left, fun w => ?_,
    congrArg (·.issue) (leaveBars_kept s g k kill).1⟩
  refine (gang_updWarp _ _ _ ?_).trans ?_
  · exact fun _ => rfl
  have warps : s1.x.warps = s.x.warps := congrArg (·.warps) left
  exact congrArg (fun m : SMap Warp => (m.getD warpZero w).gang) warps

/-! ### Paths that resume -/

/-- A warp has two path numbers free. -/
def TwoFree (s : State) (w : Nat) : Prop :=
  ∃ i j, i < 64 ∧ j < 64 ∧ i ≠ j ∧ s.x.paths.find? (w * 64 + i) = none ∧ s.x.paths.find? (w * 64 + j) = none

theorem find?_freePath {s : State} {w i : Nat} (small : i < 64) (free : s.x.paths.find? (w * 64 + i) = none) :
    s.x.paths.find? (freePath s w) = none := by
  unfold freePath
  cases found : (List.range 64).find? (fun i => (s.x.paths.find? (w * 64 + i)).isNone) with
  | none =>
    have := List.find?_eq_none.1 found i (List.mem_range.2 small)
    simp [free] at this
  | some j =>
    have isFree := List.find?_some found
    exact Option.isNone_iff_eq_none.1 isFree

/-- A warp with at most 62 paths has two numbers free. -/
theorem twoFree_of_few {s : State} {w : Nat} (few : (pathsOf s w).length ≤ 62) : TwoFree s w := by
  let taken := ((pathsOf s w).map (fun p => p.1 % 64)).toFinset
  have size : taken.card ≤ 62 := (List.toFinset_card_le _).trans (by simpa using few)
  have more : 1 < (Finset.range 64 \ taken).card := by
    have := Finset.le_card_sdiff taken (Finset.range 64)
    rw [Finset.card_range] at this
    omega
  have free : ∀ i, i ∈ Finset.range 64 \ taken → i < 64 ∧ s.x.paths.find? (w * 64 + i) = none := fun i hi => by
    obtain ⟨small, new⟩ := Finset.mem_sdiff.1 hi
    have small := Finset.mem_range.1 small
    refine ⟨small, SMap.find?_eq_none_iff.2 fun p hp e => new ?_⟩
    refine List.mem_toFinset.2 (List.mem_map.2 ⟨p, List.mem_filter.2 ⟨hp, ?_⟩, ?_⟩)
    · simp only [beq_iff_eq]
      omega
    · omega
  obtain ⟨i, hi, j, hj, ne⟩ := Finset.one_lt_card.1 more
  exact ⟨i, j, (free i hi).1, (free j hj).1, ne, (free i hi).2, (free j hj).2⟩

theorem TwoFree.of_fewer {s t : State} {w : Nat} (two : TwoFree s w)
    (fewer : ∀ k, s.x.paths.find? k = none → t.x.paths.find? k = none) : TwoFree t w := by
  obtain ⟨i, j, hi, hj, ne, freeI, freeJ⟩ := two
  exact ⟨i, j, hi, hj, ne, fewer _ freeI, fewer _ freeJ⟩

/-- A path that resumes: where it goes, what it waits for, and that every other is as it was. -/
theorem addResumed_adds (s : State) (w : Nat) (p : Path) (v : VPC) (a : Word) :
    (∃ slot, (addResumed s w p v a).x.paths = s.x.paths.ins (freePath s w)
      { p with pc := .word v, resumed := some v, wait := some (.miss (resumeKey s (warpAt s w).gang v)), slotIx := slot, seq := s.c.nextId }) ∧
      (addResumed s w p v a).x.vals = s.x.vals ∧ (addResumed s w p v a).x.threads = s.x.threads ∧
      (addResumed s w p v a).x.blocks = s.x.blocks ∧ GangsNamed s (addResumed s w p v a) := by
  have sreg : ∀ (t : State) (p : Nat), setSreg t p 123 a = { t with x := { t.x with
      sregs := t.x.sregs.putD 0 (sregKey (warpOfPath p) 123) a } } := fun t p => by simp [setSreg]
  unfold addResumed
  extract_lets pid key s1
  have placed : s1 = _ := sreg _ _
  rw [placed]
  exact ⟨⟨freeSlot s w, rfl⟩, rfl, rfl, rfl, rfl, fun _ => rfl, rfl⟩

/-- A path of trap block `k`, with the lanes `ls`, that starts at `v`. -/
def resumer (s : State) (k : TrapBlock) (ls : List Nat) : Path :=
  { pathZero with frames := k.frames, split := k.split, s124 := k.s124, s125 := k.s125, s126 := k.s126, s127 := k.s127,
                  readyAt := s.c.cycle, mask := Mask.of ls }

theorem addResumed_resumes {s u : State} (named : GangsNamed s u) (r : State) (k : TrapBlock) (ls : List Nat) (v : VPC) (a : Word) :
    ResumesAt s (addResumed u k.warp (resumer r k ls) v a) k v (· ∈ ls) := by
  obtain ⟨⟨slot, paths⟩, -⟩ := addResumed_adds u k.warp (resumer r k ls) v a
  refine ⟨freePath u k.warp, _, by rw [paths, SMap.find?_ins_self], warpOfPath_freePath u k.warp, fun l => ?_, rfl, rfl, rfl, rfl,
    rfl, rfl, rfl, congrArg (fun key => some (WaitOn.miss key)) (named.resumeKey k.warp v)⟩
  by_cases small : l < 64
  · simp only [resumer, getLsbD_maskOf ls small, decide_eq_true_eq, small, true_and]
  · simp [resumer, small, BitVec.getLsbD_of_ge _ _ (not_lt.1 small)]

theorem ResumesAt.kept {s t u : State} {k : TrapBlock} {v : VPC} {p : Nat → Prop} (resumes : ResumesAt s t k v p)
    (kept : ∀ pid q, t.x.paths.find? pid = some q → u.x.paths.find? pid = some q) : ResumesAt s u k v p := by
  obtain ⟨pid, q, found, rest⟩ := resumes
  exact ⟨pid, q, kept pid q found, rest⟩

theorem ResumesAt.congr {s t : State} {k : TrapBlock} {v : VPC} {p p' : Nat → Prop} (resumes : ResumesAt s t k v p)
    (same : ∀ l, p l ↔ p' l) : ResumesAt s t k v p' := by
  obtain rfl : p = p' := funext fun l => propext (same l)
  exact resumes

/-- A path that resumes takes a free number: the others stay. -/
theorem addResumed_keeps {s : State} {w : Nat} (free : s.x.paths.find? (freePath s w) = none) (p : Path) (v : VPC) (a : Word)
    (pid : Nat) (q : Path) (found : s.x.paths.find? pid = some q) : (addResumed s w p v a).x.paths.find? pid = some q := by
  obtain ⟨⟨slot, paths⟩, -⟩ := addResumed_adds s w p v a
  have other : pid ≠ freePath s w := fun e => by
    rw [e, free] at found
    cases found
  rw [paths, SMap.find?_ins_ne _ _ other]
  exact found

/-- One path may resume and leave a number for another. -/
theorem TwoFree.after_addResumed {s : State} {w : Nat} (two : TwoFree s w) (p : Path) (v : VPC) (a : Word) :
    (addResumed s w p v a).x.paths.find? (freePath (addResumed s w p v a) w) = none := by
  obtain ⟨i, j, hi, hj, ne, freeI, freeJ⟩ := two
  obtain ⟨⟨slot, paths⟩, -⟩ := addResumed_adds s w p v a
  by_cases taken : w * 64 + i = freePath s w
  · refine find?_freePath hj ?_
    rw [paths, SMap.find?_ins_ne _ _ (by omega)]
    exact freeJ
  · refine find?_freePath hi ?_
    rw [paths, SMap.find?_ins_ne _ _ taken]
    exact freeI

/-! ### The last lane leaves -/

/-- What becomes of one lane's thread when the handler is over (R355). -/
def laneLeaves (k : TrapBlock) (defines : Bool) (n : Nat) (s : State) (e : Nat × LaneExit) : State :=
  match e.2 with
  | .skip v =>
    if k.record.kind = 2 then leaveBars s (warpAt s k.warp).gang (k.warp * 64 + e.1) true
    else if defines then setVal s (k.warp * 64 + e.1) k.frames.length n v else s
  | .kill => leaveBars s (warpAt s k.warp).gang (k.warp * 64 + e.1) true
  | .gone => s
  | .resume => if k.record.kind = 2 then leaveBars s (warpAt s k.warp).gang (k.warp * 64 + e.1) true else s

/-- The code of the function that the trap of a block stood in. -/
abbrev trapModule (s : State) (k : TrapBlock) : Module := moduleAt s (gangAt s (warpAt s k.warp).gang).module
abbrev trapCode (s : State) (k : TrapBlock) : List Word := (funcAt (trapModule s k) (VPC.fn k.record.vpc)).code
abbrev trapDefines (s : State) (k : TrapBlock) : Bool :=
  definesValue (trapModule s k) (nth (trapCode s k) 0 (VPC.ix k.record.vpc))
abbrev trapDefs (s : State) (k : TrapBlock) : Nat := defsBefore (trapModule s k) (trapCode s k) (VPC.ix k.record.vpc)

/-- The block is freed, and every lane's thread has what its leaving brings. -/
def lanesLeft (s : State) (b : Nat) (k : TrapBlock) : State :=
  k.left.foldl (laneLeaves k (trapDefines s k) (trapDefs s k))
    (freeSave { s with x := { s.x with blocks := s.x.blocks.del b } } k.ctx k.off)

/-- Whether a lane goes on behind the trapping instruction. -/
def goesOn (k : TrapBlock) (e : LaneExit) : Bool :=
  match e with | .skip _ => true | .resume => k.record.kind == 1 | _ => false

/-- The lanes that stand at the trapping instruction again. -/
def backLanes (k : TrapBlock) : List Nat :=
  (k.left.filter (fun e => e.2 == .resume && k.record.kind != 1 && k.record.kind != 2)).map (·.1)

/-- The lanes that stand behind it. -/
def skipLanes (k : TrapBlock) : List Nat := (k.left.filter (fun e => goesOn k e.2 && k.record.kind != 2)).map (·.1)

/-- Lanes that go on at `v`, if there are any. -/
def resumeSome (r s : State) (k : TrapBlock) (ls : List Nat) (v : VPC) : State :=
  if Mask.of ls = 0 then s else addResumed s k.warp (resumer r k ls) v (saveBase r k.ctx + BitVec.ofNat 64 k.off)

/-- The state in which the lanes that go on have their paths. -/
def lanesResumed (s : State) (b : Nat) (k : TrapBlock) : State :=
  resumeSome s (resumeSome s (lanesLeft s b k) k (backLanes k) k.record.vpc) k (skipLanes k)
    (VPC.of (VPC.fn k.record.vpc) (nextIx (trapCode s k) (VPC.ix k.record.vpc)))

/-- Whether every lane of a trap block has left the handler. -/
abbrev allLeft (k : TrapBlock) : Bool := k.mask.lanes.all (fun l => k.left.any (fun e => e.1 == l))

theorem finishHandler_of_some {s : State} {b : Nat} {k : TrapBlock} (found : s.x.blocks.find? b = some k) (staying : allLeft k = false) :
    finishHandler s b = s := by
  simp only [allLeft] at staying
  simp [finishHandler, found, staying]

theorem finishHandler_of_all {s : State} {b : Nat} {k : TrapBlock} (found : s.x.blocks.find? b = some k) (all : allLeft k = true) :
    finishHandler s b = if Mask.of (backLanes k) = 0 ∧ Mask.of (skipLanes k) = 0 then
      match k.split with
      | some r => joinCheck (splitFuel (lanesResumed s b k)) (lanesResumed s b k) r
      | none => lanesResumed s b k
    else lanesResumed s b k := by
  simp only [allLeft] at all
  unfold finishHandler
  rw [found]
  dsimp only
  rw [all]
  rfl

/-- Paths and trap blocks are as they were, and gangs have the names they had. -/
def PathsStand (s t : State) : Prop := t.x.paths = s.x.paths ∧ t.x.blocks = s.x.blocks ∧ GangsNamed s t

theorem PathsStand.refl (s : State) : PathsStand s s := ⟨rfl, rfl, rfl, fun _ => rfl, rfl⟩

theorem PathsStand.trans {s t u : State} (first : PathsStand s t) (second : PathsStand t u) : PathsStand s u :=
  ⟨second.1.trans first.1, second.2.1.trans first.2.1, first.2.2.trans second.2.2⟩

theorem PathsStand.of_x {s t : State} (same : t.x = s.x) (control : t.c = s.c) : PathsStand s t :=
  ⟨congrArg (·.paths) same, congrArg (·.blocks) same, congrArg (·.gangs) same,
    fun w => congrArg (fun x : Exec => (x.warps.getD warpZero w).gang) same, congrArg (·.issue) control⟩

theorem pathsStand_leaveBars (s : State) (g j : Nat) (kill : Bool) : PathsStand s (leaveBars s g j kill) :=
  ⟨(leaveBars_kept s g j kill).2.1, (leaveBars_rest s g j kill).2⟩

theorem freeSave_x (s : State) (ctx o : Nat) : (freeSave s ctx o).x = s.x ∧ (freeSave s ctx o).c = s.c := by
  unfold freeSave
  split <;> exact ⟨rfl, rfl⟩

section
variable (k : TrapBlock) (defines : Bool) (n : Nat)

theorem pathsStand_laneLeaves (s : State) (e : Nat × LaneExit) : PathsStand s (laneLeaves k defines n s e) := by
  have killed := pathsStand_leaveBars s (warpAt s k.warp).gang (k.warp * 64 + e.1) true
  unfold laneLeaves
  split
  · split
    · exact killed
    · split
      · exact ⟨rfl, rfl, rfl, fun _ => rfl, rfl⟩
      · exact PathsStand.refl s
  · exact killed
  · exact PathsStand.refl s
  · split
    · exact killed
    · exact PathsStand.refl s

/-- A thread that has finished stays finished as further lanes leave. -/
theorem finished_laneLeaves {s : State} {j : Nat} (done : Finished s j) (e : Nat × LaneExit) :
    Finished (laneLeaves k defines n s e) j := by
  have killed := finished_leaveBars (warpAt s k.warp).gang (k.warp * 64 + e.1) true (.inr done)
  unfold laneLeaves
  split
  · split
    · exact killed
    · split
      · exact done
      · exact done
  · exact killed
  · exact done
  · split
    · exact killed
    · exact done

/-- A killed lane's thread has finished; after `unreach` so has every lane's that did not go before. -/
theorem finished_of_laneLeaves (s : State) {e : Nat × LaneExit} (dies : e.2 = .kill ∨ k.record.kind = 2 ∧ e.2 ≠ .gone) :
    Finished (laneLeaves k defines n s e) (k.warp * 64 + e.1) := by
  have killed := finished_leaveBars (s := s) (j := k.warp * 64 + e.1) (warpAt s k.warp).gang (k.warp * 64 + e.1) true (.inl rfl)
  obtain ⟨l, out⟩ := e
  rcases dies with rfl | ⟨unreachable, stays⟩
  · exact killed
  · cases out with
    | skip v =>
      simp only [laneLeaves, unreachable, if_true]
      exact killed
    | kill => exact killed
    | gone => exact absurd rfl stays
    | resume =>
      simp only [laneLeaves, unreachable, if_true]
      exact killed

theorem valsWf_laneLeaves (s : State) (e : Nat × LaneExit) (wf : s.x.vals.wf 0 = true) :
    (laneLeaves k defines n s e).x.vals.wf 0 = true := by
  have killed : (leaveBars s (warpAt s k.warp).gang (k.warp * 64 + e.1) true).x.vals.wf 0 = true := by
    rw [(leaveBars_rest s _ _ true).1]
    exact wf
  unfold laneLeaves
  split
  · split
    · exact killed
    · split
      · exact SMap.wf_putD _ _ wf
      · exact wf
  · exact killed
  · exact wf
  · split
    · exact killed
    · exact wf

/-- A lane that leaves touches no other lane's values. -/
theorem getVal_laneLeaves_ne (s : State) {e : Nat × LaneExit} {l : Nat} (other : e.1 ≠ l) :
    getVal (laneLeaves k defines n s e) (k.warp * 64 + l) k.frames.length n = getVal s (k.warp * 64 + l) k.frames.length n := by
  have killed : getVal (leaveBars s (warpAt s k.warp).gang (k.warp * 64 + e.1) true) (k.warp * 64 + l) k.frames.length n =
      getVal s (k.warp * 64 + l) k.frames.length n := by
    rw [getVal, (leaveBars_rest s _ _ true).1]
    rfl
  unfold laneLeaves
  split
  · split
    · exact killed
    · split
      · refine SMap.getD_putD_ne _ _ _ ?_
        unfold valKey
        omega
      · rfl
  · exact killed
  · rfl
  · split
    · exact killed
    · rfl

theorem getVal_laneLeaves_self {s : State} (wf : s.x.vals.wf 0 = true) (l : Nat) (v : Word) (reachable : k.record.kind ≠ 2) :
    getVal (laneLeaves k true n s (l, .skip v)) (k.warp * 64 + l) k.frames.length n = v := by
  simp only [laneLeaves, reachable, if_false, if_true]
  exact SMap.getD_putD_self _ _ wf

end

section
variable (s : State) (b : Nat) (k : TrapBlock)

theorem lanesLeft_stands : PathsStand { s with x := { s.x with blocks := s.x.blocks.del b } } (lanesLeft s b k) :=
  foldl_inv (PathsStand { s with x := { s.x with blocks := s.x.blocks.del b } }) _
    (fun u e h => h.trans (pathsStand_laneLeaves k _ _ u e)) _ k.left (PathsStand.of_x (freeSave_x _ _ _).1 (freeSave_x _ _ _).2)

theorem lanesLeft_finished {l : Nat} (dies : (l, LaneExit.kill) ∈ k.left ∨ k.record.kind = 2 ∧ ∃ e, (l, e) ∈ k.left ∧ e ≠ .gone) :
    Finished (lanesLeft s b k) (k.warp * 64 + l) := by
  obtain ⟨e, mem, leaves⟩ : ∃ e, (l, e) ∈ k.left ∧ (e = .kill ∨ k.record.kind = 2 ∧ e ≠ .gone) := by
    rcases dies with mem | ⟨unreachable, e, mem, stays⟩
    · exact ⟨_, mem, .inl rfl⟩
    · exact ⟨e, mem, .inr ⟨unreachable, stays⟩⟩
  exact foldl_reaches (Q := fun _ => True) (P := fun u => Finished u (k.warp * 64 + l)) (fun _ _ _ => trivial)
    (fun _ e h => finished_laneLeaves k _ _ h e) (fun u _ => finished_of_laneLeaves k _ _ u leaves) mem trivial

/-- The lanes that left last hold the values their skips gave. -/
theorem lanesLeft_vals {before : List (Nat × LaneExit)} {ls : List Nat} {out : Nat → LaneExit}
    (left : k.left = before ++ ls.map (fun l => (l, out l))) (wf : s.x.vals.wf 0 = true) (reachable : k.record.kind ≠ 2)
    (defines : trapDefines s k = true) {l : Nat} (mem : l ∈ ls) {v : Word} (skips : out l = .skip v) :
    getVal (lanesLeft s b k) (k.warp * 64 + l) k.frames.length (trapDefs s k) = v := by
  unfold lanesLeft
  rw [left, List.foldl_append, List.foldl_map, defines]
  let put := laneLeaves k true (trapDefs s k)
  have start : (before.foldl put (freeSave { s with x := { s.x with blocks := s.x.blocks.del b } } k.ctx k.off)).x.vals.wf 0 = true :=
    foldl_inv (fun u => u.x.vals.wf 0 = true) put (fun u e => valsWf_laneLeaves k true _ u e) _ before
      (by rw [(freeSave_x _ _ _).1]; exact wf)
  have wfKept : ∀ (u : State) (j : Nat), u.x.vals.wf 0 = true → (put u (j, out j)).x.vals.wf 0 = true :=
    fun u j => valsWf_laneLeaves k true _ u _
  refine (foldl_reaches (f := fun u j => put u (j, out j)) (Q := fun u => u.x.vals.wf 0 = true)
    (P := fun u => u.x.vals.wf 0 = true ∧ getVal u (k.warp * 64 + l) k.frames.length (trapDefs s k) = v)
    (fun u j => wfKept u j) (fun u j h => ⟨wfKept u j h.1, ?_⟩) (fun u h => ⟨wfKept u l h, ?_⟩) mem start).2
  · by_cases same : j = l
    · subst same
      rw [skips]
      exact getVal_laneLeaves_self k _ h.1 j v reachable
    · exact (getVal_laneLeaves_ne k true _ u (e := (j, out j)) same).trans h.2
  · rw [skips]
    exact getVal_laneLeaves_self k _ h l v reachable

end

/-! ### The paths of the lanes that go on -/

/-- Values, threads and trap blocks are as they were, and gangs have the names they had. -/
def ThreadsStand (s t : State) : Prop :=
  t.x.vals = s.x.vals ∧ t.x.threads = s.x.threads ∧ t.x.blocks = s.x.blocks ∧ GangsNamed s t

theorem ThreadsStand.refl (s : State) : ThreadsStand s s := ⟨rfl, rfl, rfl, rfl, fun _ => rfl, rfl⟩

theorem ThreadsStand.trans {s t u : State} (first : ThreadsStand s t) (second : ThreadsStand t u) : ThreadsStand s u :=
  ⟨second.1.trans first.1, second.2.1.trans first.2.1, second.2.2.1.trans first.2.2.1, first.2.2.2.trans second.2.2.2⟩

theorem PathsFewer.stand {s t : State} (fewer : PathsFewer s t) : ThreadsStand s t := by
  obtain ⟨⟨ps, sp, rfl⟩, -⟩ := fewer
  exact ⟨rfl, rfl, rfl, rfl, fun _ => rfl, rfl⟩

theorem threadsStand_resumeSome (r s : State) (k : TrapBlock) (ls : List Nat) (v : VPC) :
    ThreadsStand s (resumeSome r s k ls v) := by
  unfold resumeSome
  split
  · exact ThreadsStand.refl s
  · exact (addResumed_adds s k.warp (resumer r k ls) v _).2

theorem threadsStand_lanesResumed (s : State) (b : Nat) (k : TrapBlock) :
    ThreadsStand (lanesLeft s b k) (lanesResumed s b k) :=
  (threadsStand_resumeSome _ _ _ _ _).trans (threadsStand_resumeSome _ _ _ _ _)

theorem maskOf_ne_zero {ls : List Nat} {l : Nat} (mem : l ∈ ls) (small : l < 64) : Mask.of ls ≠ 0 := fun zero => by
  have bit := getLsbD_maskOf ls small
  simp [zero, mem] at bit

/-- Lanes that go on stand at their word. -/
theorem resumeSome_resumes {s u : State} (named : GangsNamed s u) (r : State) (k : TrapBlock) {ls : List Nat} (some : Mask.of ls ≠ 0)
    (v : VPC) : ResumesAt s (resumeSome r u k ls v) k v (· ∈ ls) := by
  simp only [resumeSome, some, if_false]
  exact addResumed_resumes named r k ls v _

/-- With a number free, the paths that stand stay as more lanes go on. -/
theorem resumeSome_keeps {r s : State} {k : TrapBlock} {ls : List Nat} {v : VPC} (free : s.x.paths.find? (freePath s k.warp) = none)
    (pid : Nat) (q : Path) (found : s.x.paths.find? pid = some q) : (resumeSome r s k ls v).x.paths.find? pid = some q := by
  unfold resumeSome
  split
  · exact found
  · exact addResumed_keeps free _ _ _ pid q found

theorem TwoFree.after_resumeSome {r s : State} {k : TrapBlock} {ls : List Nat} {v : VPC} (two : TwoFree s k.warp) :
    (resumeSome r s k ls v).x.paths.find? (freePath (resumeSome r s k ls v) k.warp) = none := by
  unfold resumeSome
  split
  · obtain ⟨i, -, small, -, -, free, -⟩ := two
    exact find?_freePath small free
  · exact two.after_addResumed _ _ _

section
variable {s : State} (b : Nat) {k : TrapBlock}

theorem lanesLeft_named : GangsNamed s (lanesLeft s b k) := (lanesLeft_stands s b k).2.2

theorem lanesResumed_back (two : TwoFree s k.warp) (some : Mask.of (backLanes k) ≠ 0) :
    ResumesAt s (lanesResumed s b k) k k.record.vpc (· ∈ backLanes k) := by
  have two : TwoFree (lanesLeft s b k) k.warp := two.of_fewer fun p none => by
    rw [(lanesLeft_stands s b k).1]
    exact none
  exact (resumeSome_resumes (lanesLeft_named b) s k some k.record.vpc).kept (resumeSome_keeps two.after_resumeSome)

theorem lanesResumed_skip (some : Mask.of (skipLanes k) ≠ 0) :
    ResumesAt s (lanesResumed s b k) k (VPC.of (VPC.fn k.record.vpc) (nextIx (trapCode s k) (VPC.ix k.record.vpc))) (· ∈ skipLanes k) :=
  resumeSome_resumes ((lanesLeft_named b).trans (threadsStand_resumeSome _ _ _ _ _).2.2.2) s k some _

/-- What a finished handler leaves: threads, values and blocks as its lanes left them, and the paths of those that go on. -/
theorem finishHandler_finishes (found : s.x.blocks.find? b = some k) (all : allLeft k = true) :
    ThreadsStand (lanesLeft s b k) (finishHandler s b) ∧
      (Mask.of (backLanes k) ≠ 0 ∨ Mask.of (skipLanes k) ≠ 0 → finishHandler s b = lanesResumed s b k) := by
  have stands := threadsStand_lanesResumed s b k
  rw [finishHandler_of_all found all]
  split
  · next none =>
    refine ⟨?_, fun some => some.elim (fun h => absurd none.1 h) (fun h => absurd none.2 h)⟩
    split
    · exact stands.trans (pathsFewer_joinCheck _ _ _).stand
    · exact stands
  · exact ⟨stands, fun _ => rfl⟩

end

theorem finishHandler_named (s : State) (b : Nat) : GangsNamed s (finishHandler s b) := by
  cases found : s.x.blocks.find? b with
  | none => simp [finishHandler, found, GangsNamed]
  | some k =>
    cases all : allLeft k with
    | false =>
      rw [finishHandler_of_some found all]
      exact ⟨rfl, fun _ => rfl, rfl⟩
    | true => exact (lanesLeft_named b).trans (finishHandler_finishes b found all).1.2.2.2

/-! ### The lanes of a path leave -/

/-- The state with other trap blocks. -/
abbrev withBlocks (s : State) (bs : SMap TrapBlock) : State := { s with x := { s.x with blocks := bs } }

/-- A trap block with lanes noted as left. -/
abbrev TrapBlock.noting (k : TrapBlock) (es : List (Nat × LaneExit)) : TrapBlock := { k with left := k.left ++ es }

/-- Lanes are noted one after another, each with what it does as the operands stood. -/
theorem foldl_noteLeft (s : State) (b : Nat) {out : State → Nat → LaneExit} {g : Nat → LaneExit}
    (same : ∀ bs l, out (withBlocks s bs) l = g l) (ls : List Nat) {bs : SMap TrapBlock} {k : TrapBlock}
    (found : bs.find? b = some k) (rising : bs.risingFrom 0 = true) :
    ∃ bs', ls.foldl (fun u l => noteLeft u b [l] (out u l)) (withBlocks s bs) = withBlocks s bs' ∧
      bs'.find? b = some (k.noting (ls.map (fun l => (l, g l)))) ∧ bs'.risingFrom 0 = true := by
  induction ls generalizing bs k with
  | nil => exact ⟨bs, rfl, by simpa only [TrapBlock.noting, List.map_nil, List.append_nil] using found, rising⟩
  | cons l ls ih =>
    have noted : noteLeft (withBlocks s bs) b [l] (out (withBlocks s bs) l) = withBlocks s (bs.ins b (k.noting [(l, g l)])) := by
      simp [noteLeft, SMap.upd, found, same]
    obtain ⟨bs', notes, found', rising'⟩ := ih (SMap.find?_ins_self bs b (k.noting [(l, g l)]))
      (SMap.risingFrom_ins bs _ rising (Nat.zero_le b))
    refine ⟨bs', by rw [List.foldl_cons, noted, notes], ?_, rising'⟩
    rw [found']
    simp

/-- A `trap.ret` as its path's lanes leave: they are noted, taken off the path, and the handler ends with the last. -/
theorem leaveHandler_notes {s : State} {c : Ctx} {f : Form} {b : Nat} {k : TrapBlock} (handler : handlerOf (pathAt s c.pid) = some b)
    (found : s.x.blocks.find? b = some k) (rising : s.x.blocks.risingFrom 0 = true) :
    ∃ bs u, leaveHandler s c f = finishHandler u b ∧ PathsFewer (withBlocks s bs) u ∧
      bs.find? b = some { k with left := haveLeft s c f k } ∧ bs.risingFrom 0 = true := by
  have same : ∀ bs l, leavesBy (withBlocks s bs) c f l = leavesBy s c f l := fun bs l => by
    have reads : ∀ t, src (withBlocks s bs) c f 0 t false l = src s c f 0 t false l := fun t =>
      src_congr f 0 t false l rfl rfl rfl rfl (fun _ => rfl)
    simp only [leavesBy, reads]
  obtain ⟨bs, notes, found', rising'⟩ := foldl_noteLeft s b (out := fun u l => leavesBy u c f l)
    (g := leavesBy s c f) same (pathMask s c.pid).lanes found rising
  refine ⟨bs, _, ?_, pathsFewer_dropLanes (withBlocks s bs) c.pid, found', rising'⟩
  unfold leaveHandler
  simp only [handler]
  exact congrArg (fun u => finishHandler (dropLanes u c.pid (pathAt s c.pid).mask) b) notes

theorem leaveHandler_issue {s : State} {c : Ctx} {f : Form} {b : Nat} {k : TrapBlock} (handler : handlerOf (pathAt s c.pid) = some b)
    (found : s.x.blocks.find? b = some k) (rising : s.x.blocks.risingFrom 0 = true) :
    (leaveHandler s c f).c.issue = s.c.issue := by
  obtain ⟨bs, u, leaves, fewer, -⟩ := leaveHandler_notes (f := f) handler found rising
  rw [leaves, (finishHandler_named u b).2.2, fewer.named.2.2]

theorem allLeft_iff {k : TrapBlock} : allLeft k = true ↔ ∀ l ∈ k.mask.lanes, ∃ e, (l, e) ∈ k.left := by
  simp [allLeft]

theorem mem_backLanes {k : TrapBlock} (user : k.record.kind ≠ 1) (reachable : k.record.kind ≠ 2) (l : Nat) :
    l ∈ backLanes k ↔ (l, LaneExit.resume) ∈ k.left := by
  simp [backLanes, user, reachable]

theorem mem_skipLanes {k : TrapBlock} (reachable : k.record.kind ≠ 2) (l : Nat) :
    l ∈ skipLanes k ↔ (∃ v, (l, LaneExit.skip v) ∈ k.left) ∨ k.record.kind = 1 ∧ (l, LaneExit.resume) ∈ k.left := by
  simp only [skipLanes, List.mem_map, List.mem_filter, Bool.and_eq_true, bne_iff_ne, ne_eq, reachable, not_false_eq_true, and_true,
    Prod.exists, exists_and_right, exists_eq_right]
  constructor
  · rintro ⟨e, mem, goes⟩
    cases e with
    | skip v => exact .inl ⟨v, mem⟩
    | resume => exact .inr ⟨eq_of_beq goes, mem⟩
    | kill => exact absurd goes Bool.false_ne_true
    | gone => exact absurd goes Bool.false_ne_true
  · rintro (⟨v, mem⟩ | ⟨user, mem⟩)
    · exact ⟨_, mem, rfl⟩
    · exact ⟨_, mem, beq_iff_eq.2 user⟩

/-- What a `trap.ret` leaves behind. -/
theorem leaveHandler_leaves {s : State} {c : Ctx} {f : Form} {b : Nat} {k : TrapBlock} (warp : c.warp = warpOfPath c.pid)
    (vals : s.x.vals.wf 0 = true) (rising : s.x.blocks.risingFrom 0 = true) (handler : handlerOf (pathAt s c.pid) = some b)
    (found : s.x.blocks.find? b = some k) (own : k.warp = c.warp) (few : (pathsOf s c.warp).length ≤ 62) :
    HandlerLeft s (leaveHandler s c f) c f b k := by
  obtain ⟨bs, u, leaves, fewer, found', rising'⟩ := leaveHandler_notes (f := f) handler found rising
  let k' : TrapBlock := { k with left := haveLeft s c f k }
  have memory : (leaveHandler s c f).m = s.m := by
    obtain ⟨⟨ps, sp, rfl⟩, -⟩ := fewer
    rw [leaves, finishHandler_m]
  obtain ⟨uvals, uthreads, ublocks, unamed⟩ := fewer.stand
  have ufound : u.x.blocks.find? b = some k' := by rw [ublocks]; exact found'
  have two : TwoFree u k'.warp := (twoFree_of_few (own ▸ few)).of_fewer fewer.2
  have named : GangsNamed s u := unamed
  have code : trapCode u k' = trapCode s k := by
    obtain ⟨⟨ps, sp, rfl⟩, -⟩ := fewer
    rfl
  have sameDefines : trapDefines u k' = trapDefines s k ∧ trapDefs u k' = trapDefs s k := by
    obtain ⟨⟨ps, sp, rfl⟩, -⟩ := fewer
    exact ⟨rfl, rfl⟩
  have toKey : ∀ {t v p}, ResumesAt u t k' v p → ResumesAt s t k v p := fun {t v p} h => by
    obtain ⟨⟨ps, sp, rfl⟩, -⟩ := fewer
    exact h
  have finishes := fun all => finishHandler_finishes b ufound (allLeft_iff.2 all)
  rw [leaves] at memory ⊢
  refine ⟨memory, fun staying => ?_, fun all => ?_, fun all user reachable some => ?_, fun all reachable => ⟨fun some => ?_, ?_⟩,
    fun all l dies => ?_⟩
  · obtain ⟨l, mem, none⟩ := staying
    have notAll : allLeft k' = false := Bool.eq_false_iff.2 fun all =>
      (allLeft_iff.1 all l mem).elim fun e => none e
    rw [finishHandler_of_some ufound notAll]
    exact ⟨ufound, uthreads, uvals⟩
  · rw [(finishes all).1.2.2.1, (lanesLeft_stands u b k').2.1, ublocks]
    exact SMap.find?_del_self _ rising'
  · obtain ⟨l, small, mem⟩ := some
    have back := maskOf_ne_zero ((mem_backLanes (k := k') user reachable l).2 mem) small
    rw [(finishes all).2 (.inl back)]
    exact toKey ((lanesResumed_back b two back).congr (mem_backLanes (k := k') user reachable))
  · obtain ⟨l, small, mem⟩ := some
    have skip := maskOf_ne_zero ((mem_skipLanes (k := k') reachable l).2 mem) small
    have resumes := lanesResumed_skip (s := u) b skip
    rw [code] at resumes
    rw [(finishes all).2 (.inr skip)]
    exact toKey (resumes.congr (mem_skipLanes (k := k') reachable))
  · intro defines l mem v skips
    have held := lanesLeft_vals u b k' (before := k.left) (out := leavesBy s c f) rfl (by rw [uvals]; exact vals) reachable
      (sameDefines.1.trans defines) mem skips
    rw [getVal, (finishes all).1.1]
    rw [sameDefines.2, own, warp] at held
    exact held
  · have finished := lanesLeft_finished u b k' dies
    have thread : threadAt (finishHandler u b) (k.warp * 64 + l) = threadAt (lanesLeft u b k') (k.warp * 64 + l) :=
      congrArg (fun m : SMap Thread => m.getD threadZero (k.warp * 64 + l)) (finishes all).1.2.1
    rw [thread]
    exact finished

/-! ### The instruction -/

theorem leavesBy_endAfter (s : State) (c : Ctx) (f : Form) (l : Nat) : leavesBy (endAfter s) c f l = leavesBy s c f l := by
  have latch : latchOf (endAfter s) = latchOf s := by
    cases issue : s.c.issue <;> simp [latchOf, endAfter, issue]
  have reads : ∀ t, src (endAfter s) c f 0 t false l = src s c f 0 t false l := fun t => by
    cases f with
    | p w => rfl
    | n w =>
      have vector : ∀ r, readVreg (endAfter s) c.warp r l = readVreg s c.warp r l := fun r => by
        simp only [readVreg, latch]
        rfl
      have scalar : ∀ r, readSreg (endAfter s) c.pid r = readSreg s c.pid r := fun r => by
        simp only [readSreg, latch]
        rfl
      simp only [src, nativeVal, vector, scalar]
      rfl
  simp only [leavesBy, reads]

/-- Where a path's lanes leave to does not depend on the step's own control state. -/
theorem HandlerLeft.of_control {s t : State} {r : Control} {c : Ctx} {f : Form} {b : Nat} {k : TrapBlock}
    (left : HandlerLeft { s with c := r } t c f b k) (same : ∀ l, leavesBy { s with c := r } c f l = leavesBy s c f l) :
    HandlerLeft s t c f b k := by
  have lanes : haveLeft { s with c := r } c f k = haveLeft s c f k := by
    simp only [haveLeft, same]
    rfl
  obtain ⟨memory, partly, freed, resumed, skipped, killed⟩ := left
  rw [lanes] at partly freed resumed skipped killed
  simp only [same] at skipped
  exact ⟨memory, partly, freed, resumed, skipped, killed⟩

/-- The end of a bundle whose slot 0 is a `trap.ret` that acted. -/
theorem endBundle_of_trapRet {u : State} {i : Issue} (issue : u.c.issue = some i) (trap : i.trap = none) (ended : i.ended = true)
    {d : Bundle} {f : Form} (returns : d.s0 = .trapRet f) (before : State) (pid : Nat) (t : TImage) (ix : Nat) :
    endBundle before u pid t ix d = endIssue (leaveHandler u (ctxOf u pid) f) := by
  simp [endBundle, issue, trap, ended, returns]

theorem HandlerLeft.endIssue {s t : State} {c : Ctx} {f : Form} {b : Nat} {k : TrapBlock} (left : HandlerLeft s t c f b k) :
    HandlerLeft s (endIssue t) c f b k := by
  obtain ⟨memory, partly, freed, resumed, skipped, killed⟩ := left
  exact ⟨memory, partly, freed, resumed, skipped, killed⟩

/-- Settles O23: a `trap.ret` is `leaveHandler` once no entry is left, in a bundle when its slots have acted. -/
theorem trapReturnResumesSkipsOrKills : Obligations.TrapReturnResumesSkipsOrKills := by
  unfold Obligations.TrapReturnResumesSkipsOrKills
  intro f s c b k issues canonical handler found own few
  obtain ⟨-, vals, -, -, -, -, -, -, rising⟩ := canonical
  have warp := issues.names.1
  refine ⟨?_, ?_⟩
  · rintro w rfl
    have acts : exec (.trapRet (.p w)) s = .next (afterPops s c (.p w) (some c.depth) (leaveHandler (Machine.endIssue s) c (.p w))) := by
      rw [exec_trapRet]
      exact issuing_eq issues _
    rw [acts]
    refine ⟨fun noEntry => ?_, fun entries => congrArg _ (afterPops_of_entries entries)⟩
    rw [afterPops_of_noEntry noEntry]
    have left := leaveHandler_leaves (s := Machine.endIssue s) (f := .p w) warp vals rising handler found own few
    exact ⟨_, rfl, leaveHandler_issue (s := Machine.endIssue s) handler found rising, left.of_control (fun l => rfl)⟩
  · rintro w i rfl issue trap
    refine ⟨endAfter s, ?_, ?_, rfl, rfl, fun before t ix d returns => ?_⟩
    · rw [exec_trapRet]
      exact issuing_eq issues _
    · simp [endAfter, issue]
    · have mine : ctxOf (endAfter s) c.pid = c := by
        obtain ⟨j, -, same⟩ := Option.map_eq_some_iff.1 issues.1
        subst same
        rfl
      rw [endBundle_of_trapRet (i := { i with ended := true }) (by simp [endAfter, issue]) trap rfl returns, mine]
      have left := leaveHandler_leaves (s := endAfter s) (f := .n w) warp vals rising handler found own few
      exact (left.of_control (leavesBy_endAfter s c _)).endIssue

end Sys2Proof.Machine
end

section
/-!
SUPPORT. O35: before a `cp.bid` takes its entries T settles the joins that it can, and one that takes a contest's result drops cached
lines (R290, R319).
-/
namespace Sys2Proof.Machine

/-- A join of T whose one entry, the result of a contest, is filled. -/
def readyJoin : Cmd := { cmdZero with engine := 1, body := .tokAll, pops := [.entry 0] }

/-- A launch record whose producer span is thread 0 alone (R91). -/
def spanOfOne : BitVec 1024 := 1#1024 <<< 320

/-- A path of lane 0 whose context holds identifier 0, with a cached line of a release-consistent page and a join that T can settle. -/
def joinState : State :=
  let s := updPath (placeWords State.reset [0]) 0 (fun p => { p with pc := .word (VPC.of 0 0) })
  let s1 := setLaunch s 0 { launchAt s 0 with record := spanOfOne }
  let s2 := setPlane s1 0 0 { planeZero with holder := some 0 }
  let s3 := setCmd (setEntry s2 0 { entryZero with filled := true, die := 0 }) 1 readyJoin
  setLines { s3 with c := { s3.c with nextId := 2 } } [(0, { bytes := [], ord := 1 })]

/-- A `cp.bid` on identifier 0 with key 0. -/
def plainBid : PForm := { ty := 0, md := 0, a := .imm 0, b := .imm 0, c := .none, ext := [] }

abbrev bidderCtx : Ctx := ctxOf joinState 0

/-- The cached lines after an operation. -/
def linesAfter (o : Out) : Option (SMap CacheLine) := match o with | .next u => some u.m.lines | _ => none

/-- The state with the bids of the path's lanes, whose overflow R105 bounds. -/
def bidsPlaced : State :=
  let t := carryToks joinState bidderCtx (.p plainBid) [] 4
  issueBid (.p plainBid) bidderCtx 0 t.c.nextId (takeId t) 0 (src joinState bidderCtx (.p plainBid) 1 .i64 false 0)
    (inputPops t bidderCtx (.p plainBid) [] 4 0)

theorem issues_plainBid : Issues joinState (.p plainBid) bidderCtx ∧ Canonical joinState := by decide +kernel

theorem holder_joinState : (planeAt joinState bidderCtx.die 0).holder = some bidderCtx.ctx ∧ outsideSpan joinState bidderCtx = [] := by
  decide +kernel

theorem spilled_bidsPlaced : spilled bidsPlaced (coreOfWarp bidderCtx.warp) = 0 := by decide +kernel

/-- The join settles, and the line is dropped. -/
theorem linesAfter_plainBid : linesAfter (exec (.cpBid (.p plainBid)) joinState) = some [] := by decide +kernel

/-- Refutes O35: with a join that T can settle, a portable `cp.bid` settles it, and the line that it drops is not as it was. -/
theorem not_planeInstructionsActForTheHolder : ¬ Obligations.PlaneInstructionsActForTheHolder := by
  unfold Obligations.PlaneInstructionsActForTheHolder
  intro all
  obtain ⟨issues, canonical⟩ := issues_plainBid
  obtain ⟨holds, inside⟩ := holder_joinState
  have lanes : (pathMask joinState bidderCtx.pid).lanes = [0] := by decide +kernel
  have claim := all (.p plainBid) joinState bidderCtx issues canonical
  extract_lets ls id n e traps toks t every used bids at claim
  have named : id = 0 := by decide +kernel
  have few : used ≤ 4096 := by
    have same : used = spilled bidsPlaced (coreOfWarp bidderCtx.warp) := by
      simp only [used, every, ls, lanes, named, t, toks]
      rfl
    rw [same, spilled_bidsPlaced]
    exact Nat.zero_le _
  obtain ⟨placed, -⟩ := claim (by simp [ls, lanes])
  obtain ⟨fits, -⟩ := placed (by omega) (by simp only [e, named]; exact holds) inside
  obtain ⟨u, ran, -, -, memory, -⟩ := fits few
  have after := linesAfter_plainBid
  rw [ran] at after
  have kept : u.m.lines = [(0, { bytes := [], ord := 1 })] := by rw [memory]; rfl
  rw [linesAfter, kept] at after
  cases after

end Sys2Proof.Machine
end

section
/-!
SUPPORT. O49: packets that cross a hop, and those that are lost (R297, R298, R365, R369, R370, R412).
-/
namespace Sys2Proof.Machine

/-! ### Buffers of a hop -/

@[simp] theorem bufAt_setBuf_self (s : State) (k : Nat) (b : HopBuf) : bufAt (setBuf s k b) k = b := by
  simp [bufAt, setBuf, SMap.getD, SMap.find?_ins_self]

theorem bufAt_setBuf_ne (s : State) {k j : Nat} (b : HopBuf) (other : j ≠ k) : bufAt (setBuf s k b) j = bufAt s j := by
  simp [bufAt, setBuf, SMap.getD, SMap.find?_ins_ne _ _ other]

/-- A packet that a die sends on stands in another buffer than the one it enters. -/
theorem bufKey_arriveHop_ne (hop : Nat) (d : Dir) : bufKey (arriveHop (sendDie hop d) d) d ≠ bufKey hop d := by
  cases d <;> simp only [bufKey, arriveHop, sendDie, dirNat] <;> omega

/-- A packet that leaves a buffer leaves the pool or the escape channel. -/
theorem leaveBuf_erases (s : State) (key : Nat) (p : Pkt) :
    (p.esc = true → (bufAt (leaveBuf s key p) key).escape = (bufAt s key).escape.erase p ∧
      (bufAt (leaveBuf s key p) key).pool = (bufAt s key).pool) ∧
    (p.esc = false → (bufAt (leaveBuf s key p) key).pool = (bufAt s key).pool.erase p ∧
      (bufAt (leaveBuf s key p) key).escape = (bufAt s key).escape) := by
  unfold leaveBuf
  constructor <;> intro channel <;> simp [channel]

/-! ### A hop (R297, R412) -/

/-- The state in which a packet has left its source. -/
def leaveSource (s : State) (hop : Nat) (d : Dir) (n : Nat) (p : Pkt) : State :=
  if n < 2 then leaveBuf s (bufKey (arriveHop (sendDie hop d) d) d) p
  else
    let k := injectKey (sendDie hop d) d (n - 2)
    { s with r := { s.r with inject := s.r.inject.ins k ((s.r.inject.getD [] k).drop 1) } }

theorem exec_packetHop_of_fits {s : State} {hop n : Nat} {d : Dir} {p : Pkt} (ring : hop < 8) (source : n < 6)
    (head : sourceHead s hop d n = some p) (up : (hopAt s hop).down = false) (carries : workingIn (hopAt s hop) d ≠ 0)
    (fits : headFits s hop d n = true) : exec (.packetHop hop d n) s = .next (enterFar (leaveSource s hop d n p) hop d p) := by
  rw [exec_packetHop, execPacketHop, if_neg (by omega), head]
  simp only [up, fits, beq_eq_false_iff_ne.2 carries, Bool.or_false, Bool.not_true, Bool.false_eq_true, if_false]
  rfl

/-- Leaving a source changes the ring's state alone, and not the buffer at the far end. -/
theorem leaveSource_rest (s : State) (hop : Nat) (d : Dir) (n : Nat) (p : Pkt) :
    (leaveSource s hop d n p).m = s.m ∧ (leaveSource s hop d n p).x = s.x ∧ (leaveSource s hop d n p).e = s.e ∧
      bufAt (leaveSource s hop d n p) (bufKey hop d) = bufAt s (bufKey hop d) := by
  unfold leaveSource
  split
  · obtain ⟨b, left⟩ := leaveBuf_eq s (bufKey (arriveHop (sendDie hop d) d) d) p
    rw [left]
    exact ⟨rfl, rfl, rfl, bufAt_setBuf_ne _ _ (bufKey_arriveHop_ne hop d).symm⟩
  · exact ⟨rfl, rfl, rfl, rfl⟩

theorem enterFar_eq (s : State) (hop : Nat) (d : Dir) (p : Pkt) : ∃ b, enterFar s hop d p = setBuf s (bufKey hop d) b := by
  unfold enterFar
  extract_lets b q vc1 free g far
  split <;> exact ⟨_, rfl⟩

/-- Whether the far end takes a packet: it has pool slots for it, or the escape channel takes it. -/
abbrev farTakes (b : HopBuf) (hop : Nat) (p : Pkt) : Prop :=
  (if p.esc then escapeRoom b true else poolRoom b (channelAfter hop p) p.flits || escapeRoom b false) = true

theorem farTakes_of_headFits {s : State} {hop n : Nat} {d : Dir} {p : Pkt} (head : sourceHead s hop d n = some p)
    (fits : headFits s hop d n = true) : farTakes (bufAt s (bufKey hop d)) hop p := by
  simp only [headFits, head] at fits
  split at fits
  · cases fits
  · exact fits

/-- A packet as it stands one hop on. -/
structure Carried (p q : Pkt) : Prop where
  body : q.body = p.body
  kind : q.kind = p.kind
  dst : q.dst = p.dst
  src : q.src = p.src
  trk : q.trk = p.trk
  hops : q.hops = p.hops + 1

/-- The packet enters the pool, or the escape channel. -/
theorem enterFar_enters {s : State} {hop : Nat} {d : Dir} {p : Pkt} (takes : farTakes (bufAt s (bufKey hop d)) hop p) :
    let b := bufAt s (bufKey hop d)
    let b' := bufAt (enterFar s hop d p) (bufKey hop d)
    ∃ q, Carried p q ∧
      ((q.esc = false ∧ q.vc1 = (p.vc1 || hop == 7) ∧ b'.pool = b.pool ++ [q] ∧ b'.escape = b.escape ∧
          b'.a0 + b'.a1 + b'.ash + p.flits = b.a0 + b.a1 + b.ash) ∨
        (q.esc = true ∧ q.vc1 = p.vc1 ∧ b'.escape = b.escape ++ [q] ∧ b'.pool = b.pool ∧ b'.aesc + 1 = b.aesc)) := by
  intro b b'
  by_cases pooled : (!p.esc && poolRoom b (channelAfter hop p) p.flits) = true
  · obtain ⟨own, room⟩ := Bool.and_eq_true_iff.1 pooled
    have own : p.esc = false := by simpa using own
    have room : p.flits ≤ (if channelAfter hop p = true then b.a1 else b.a0) + b.ash := by simpa [poolRoom] using room
    refine ⟨{ p with errs := Config.headerErrors s.c.cycle hop, vc1 := channelAfter hop p, hops := p.hops + 1,
                     gtd := min (if channelAfter hop p = true then b.a1 else b.a0) p.flits }, ⟨rfl, rfl, rfl, rfl, rfl, rfl⟩, .inl ?_⟩
    have entered : enterFar s hop d p = _ := if_pos pooled
    simp only [b', entered, bufAt_setBuf_self]
    refine ⟨own, rfl, rfl, rfl, ?_⟩
    show (if channelAfter hop p = true then b.a0 else b.a0 - min (if channelAfter hop p = true then b.a1 else b.a0) p.flits) +
      (if channelAfter hop p = true then b.a1 - min (if channelAfter hop p = true then b.a1 else b.a0) p.flits else b.a1) +
      (b.ash - (p.flits - min (if channelAfter hop p = true then b.a1 else b.a0) p.flits)) + p.flits = b.a0 + b.a1 + b.ash
    split_ifs at room ⊢ <;> omega
  · have entered : enterFar s hop d p = _ := if_neg pooled
    have slot : 1 ≤ b.aesc := by
      have takes : farTakes b hop p := takes
      simp only [farTakes, escapeRoom] at takes
      cases channel : p.esc with
      | true => simpa [channel] using takes
      | false =>
        simp only [channel, Bool.not_false, Bool.true_and, Bool.not_eq_true] at pooled
        simp only [channel, pooled, Bool.false_or, Bool.false_eq_true, if_false, decide_eq_true_eq] at takes
        omega
    refine ⟨{ p with errs := Config.headerErrors s.c.cycle hop, hops := p.hops + 1, gtd := 0, esc := true },
      ⟨rfl, rfl, rfl, rfl, rfl, rfl⟩, .inr ?_⟩
    simp only [b', entered, bufAt_setBuf_self]
    refine ⟨trivial, trivial, rfl, rfl, ?_⟩
    show b.aesc - 1 + 1 = b.aesc
    omega

theorem leaveSource_inject {n : Nat} (queued : 2 ≤ n) (s : State) (hop : Nat) (d : Dir) (p : Pkt) :
    (leaveSource s hop d n p).r.inject.getD [] (injectKey (sendDie hop d) d (n - 2)) =
      (s.r.inject.getD [] (injectKey (sendDie hop d) d (n - 2))).tail := by
  simp only [leaveSource, if_neg (Nat.not_lt.2 queued), SMap.getD, SMap.find?_ins_self, Option.getD_some, List.drop_one]

/-! ### The next source (R412) -/

/-- The sources in turn after `last`. -/
theorem nextSource_mod {last i : Nat} (small : i < 6) : ((last + 1 + i) % 6 + 5 * (last + 1)) % 6 = i := by omega

theorem sourceAfter_mod {last y : Nat} (small : y < 6) : (last + 1 + (y + 5 * (last + 1)) % 6) % 6 = y := by omega

/-- The first source in turn that fits. -/
theorem find?_sources {fits : Nat → Bool} {last x : Nat}
    (found : ((List.range 6).map (fun i => (last + 1 + i) % 6)).find? fits = some x) :
    x < 6 ∧ fits x = true ∧ ∀ y, y < 6 → fits y = true → (x + 5 * (last + 1)) % 6 ≤ (y + 5 * (last + 1)) % 6 := by
  rw [List.find?_map] at found
  obtain ⟨i, first, rfl⟩ := Option.map_eq_some_iff.1 found
  obtain ⟨fitsI, small, before⟩ := List.find?_range_eq_some.1 first
  refine ⟨Nat.mod_lt _ (by decide), fitsI, fun y hy fitsY => ?_⟩
  rw [nextSource_mod (List.mem_range.1 small)]
  by_contra earlier
  have unfit := before _ (Nat.lt_of_not_le earlier)
  simp [sourceAfter_mod hy, fitsY] at unfit

theorem find?_sources_none {fits : Nat → Bool} {last : Nat} :
    ((List.range 6).map (fun i => (last + 1 + i) % 6)).find? fits = none ↔ ∀ n, n < 6 → fits n = false := by
  simp only [List.find?_eq_none, List.mem_map, List.mem_range, forall_exists_index, and_imp, Bool.not_eq_true]
  constructor
  · intro unfit n small
    exact unfit n _ (Nat.mod_lt _ (by decide)) (sourceAfter_mod small)
  · rintro unfit _ i - rfl
    exact unfit _ (Nat.mod_lt _ (by decide))

/-- The source that a direction of a hop served last. -/
abbrev lastSource (s : State) (hop : Nat) (d : Dir) : Nat := match d with | .cw => (hopAt s hop).rr | .ccw => (hopAt s hop).rrc

/-- A hop that has served source `x` of a direction. -/
def Hop.serving (h : Hop) (d : Dir) (x : Nat) : Hop := match d with | .cw => { h with rr := x } | .ccw => { h with rrc := x }

section
variable {s : State} {hop : Nat} (ring : hop < 8) (d : Dir)
include ring

theorem exec_sourceRoundRobin_eq : exec (.sourceRoundRobin hop d) s =
    match ((List.range 6).map (fun i => (lastSource s hop d + 1 + i) % 6)).find? (headFits s hop d) with
    | none => .next s
    | some x => .next (enqueue (setHop s hop ((hopAt s hop).serving d x)) (.packetHop hop d x)) := by
  rw [exec_sourceRoundRobin, execSourceRoundRobin, if_neg (by omega)]
  cases d <;> rfl

theorem exec_sourceRoundRobin_idle (unfit : ∀ n, n < 6 → headFits s hop d n = false) : exec (.sourceRoundRobin hop d) s = .next s := by
  rw [exec_sourceRoundRobin_eq ring, find?_sources_none.2 unfit]

theorem sourceRoundRobin_chooses (some : ∃ n, n < 6 ∧ headFits s hop d n = true) :
    ∃ x u, exec (.sourceRoundRobin hop d) s = .next u ∧ x < 6 ∧ headFits s hop d x = true ∧
      (∀ y, y < 6 → headFits s hop d y = true →
        (x + 5 * (lastSource s hop d + 1)) % 6 ≤ (y + 5 * (lastSource s hop d + 1)) % 6) ∧
      Instr.packetHop hop d x ∈ u.c.agenda ∧ lastSource u hop d = x ∧ u.m = s.m ∧ u.x = s.x := by
  cases found : ((List.range 6).map (fun i => (lastSource s hop d + 1 + i) % 6)).find? (headFits s hop d) with
  | none =>
    obtain ⟨n, small, fits⟩ := some
    simp [find?_sources_none.1 found n small] at fits
  | some x =>
    obtain ⟨small, fits, first⟩ := find?_sources found
    rw [exec_sourceRoundRobin_eq ring, found]
    refine ⟨x, _, rfl, small, fits, first, by simp [enqueue], ?_, rfl, rfl⟩
    have served := hopAt_setHop s hop ((hopAt s hop).serving d x)
    cases d <;> simp only [lastSource, hopAt] at served ⊢ <;> exact (congrArg _ served).trans rfl

/-! ### Allowances, retries and corrupted headers (R298, R365, R370) -/

theorem exec_creditReturn_eq : exec (.creditReturn hop d) s = .next (setBuf s (bufKey hop d) { bufAt s (bufKey hop d) with
    a0 := (bufAt s (bufKey hop d)).a0 + (bufAt s (bufKey hop d)).r0, a1 := (bufAt s (bufKey hop d)).a1 + (bufAt s (bufKey hop d)).r1,
    ash := (bufAt s (bufKey hop d)).ash + (bufAt s (bufKey hop d)).rsh,
    aesc := (bufAt s (bufKey hop d)).aesc + (bufAt s (bufKey hop d)).resc, r0 := 0, r1 := 0, rsh := 0, resc := 0 }) := by
  rw [exec_creditReturn, execCreditReturn, if_neg (by omega)]

omit d in
theorem flitRetry_retires {strand failures : Nat} {spare : Bool} (known : strand < 16) (strands : (hopAt s hop).st.length = 16) :
    ∃ u, exec (.flitRetry hop strand failures spare) s = .next u ∧ u.m = s.m ∧ u.x = s.x ∧
      u.d.dcnt.getD 0 (hop * 16 + 6) = s.d.dcnt.getD 0 (hop * 16 + 6) + 1 ∧
      (failures ≤ 8 ∨ spare = true → (hopAt u hop).st = (hopAt s hop).st) ∧
      (8 < failures → spare = false → strandOf (hopAt u hop) strand = .retired ∧
        ∀ x, x ≠ strand → strandOf (hopAt u hop) x = strandOf (hopAt s hop) x) := by
  have counted : (countDie s hop 6 1).d.dcnt.getD 0 (hop * 16 + 6) = s.d.dcnt.getD 0 (hop * 16 + 6) + 1 := by
    simp [countDie, SMap.putD, SMap.getD, SMap.find?_ins_self]
  have agent : ¬(17 ≤ hop ∨ 16 ≤ strand) := by omega
  rw [exec_flitRetry, execFlitRetry, if_neg agent]
  simp only [if_pos ring]
  by_cases few : failures ≤ 8
  · rw [if_pos few]
    exact ⟨_, rfl, rfl, rfl, counted, fun _ => rfl, fun many => absurd few (Nat.not_le.2 many)⟩
  · rw [if_neg few]
    cases spare with
    | true => exact ⟨_, if_neg (by simp), rfl, rfl, counted, fun _ => rfl, fun _ h => absurd h (by decide)⟩
    | false =>
      refine ⟨_, if_pos ⟨ring, rfl⟩, rfl, rfl, counted, fun h => h.elim (absurd · few) (fun h => absurd h (by decide)), fun _ _ => ?_⟩
      have retired : ∀ x, strandOf (hopAt (linkEvent (setHop (countDie s hop 6 1) hop { hopAt s hop with
          st := setNth (hopAt s hop).st strand .retired }) hop hop strand) hop) x =
          if x = strand then .retired else strandOf (hopAt s hop) x := fun x => by
        refine Eq.trans ?_ (nth_setNth (hopAt s hop).st .working .retired (strands ▸ known))
        exact congrArg (fun h => strandOf h x) (hopAt_setHop (countDie s hop 6 1) hop _)
      exact ⟨(retired strand).trans (if_pos rfl), fun x other => (retired x).trans (if_neg other)⟩

theorem corruptedHeader_discards {esc : Bool} {p : Pkt} {ps : List Pkt}
    (buffer : ps = if esc = true then (bufAt s (bufKey hop d)).escape else (bufAt s (bufKey hop d)).pool)
    (bad : ps.find? corrupted = some p ∨ ps.find? corrupted = none ∧ ps.head? = some p) (channel : p.esc = esc) :
    ∃ u, exec (.corruptedHeader hop d esc) s = .next u ∧ u.m = s.m ∧ u.x = s.x ∧ u.r.trackers = s.r.trackers ∧
      (if esc = true then (bufAt u (bufKey hop d)).escape else (bufAt u (bufKey hop d)).pool) = ps.erase p := by
  have chosen : (ps.find? corrupted).or ps.head? = some p := by
    rcases bad with found | ⟨none, head⟩
    · rw [found]
      rfl
    · rw [none, head]
      rfl
  obtain ⟨b, left⟩ := leaveBuf_eq s (bufKey hop d) p
  obtain ⟨escapes, pools⟩ := leaveBuf_erases s (bufKey hop d) p
  rw [exec_corruptedHeader, execCorruptedHeader, if_neg (by omega)]
  simp only [← buffer, chosen]
  refine ⟨_, rfl, ?_, ?_, ?_, ?_⟩
  · rw [left]; rfl
  · rw [left]; rfl
  · rw [left]; rfl
  · subst buffer
    cases esc with
    | true => exact (escapes channel).1
    | false => exact (pools channel).1

end

/-! ### A tracker that fails (R364, R370) -/

/-- A gang that fails or has retired. -/
abbrev GangOver (s : State) (g : Nat) : Prop := (gangAt s g).state = .failing ∨ (gangAt s g).state = .retired

/-- From `s` to `t` gangs, paths and launches may have failed; the ring, values and warps are as they were. -/
structure GangsFailed (s t : State) : Prop where
  memory : t.m = s.m
  ring : t.r = s.r
  vals : t.x.vals = s.x.vals
  warps : t.x.warps = s.x.warps
  ended : ∀ g, GangOver s g → GangOver t g

theorem GangsFailed.refl (s : State) : GangsFailed s s := ⟨rfl, rfl, rfl, rfl, fun _ h => h⟩

theorem GangsFailed.trans {s t u : State} (first : GangsFailed s t) (second : GangsFailed t u) : GangsFailed s u :=
  ⟨second.memory.trans first.memory, second.ring.trans first.ring, second.vals.trans first.vals, second.warps.trans first.warps,
    fun g h => second.ended g (first.ended g h)⟩

/-- A halt of a gang's paths changes paths alone. -/
theorem haltPaths_only (s : State) (g : Nat) : ∃ ps, haltPaths s g = { s with x := { s.x with paths := ps } } :=
  foldl_inv (fun u => ∃ ps, u = { s with x := { s.x with paths := ps } }) _
    (fun u p h => by obtain ⟨ps, rfl⟩ := h; exact ⟨_, rfl⟩) s _ ⟨_, rfl⟩

theorem gangsFailed_failGang (s : State) (g cause : Nat) (addr : Word) : GangsFailed s (failGang s g cause addr) := by
  rcases failGang_cases s g with ended | ⟨alive, alive'⟩
  · rw [failGang_of_over cause addr ended]
    exact GangsFailed.refl s
  · obtain ⟨ps, halted⟩ := haltPaths_only (setGang s g { gangAt s g with state := .failing, cause := cause, failAddr := addr }) g
    have failed := failGang_eq alive alive' cause addr
    simp only [halted] at failed
    rw [failed]
    refine ⟨rfl, rfl, rfl, rfl, fun k ended => ?_⟩
    by_cases same : k = g
    · exact absurd ended (not_or.2 ⟨same ▸ alive, same ▸ alive'⟩)
    · have kept : gangAt (setGang s g { gangAt s g with state := .failing, cause := cause, failAddr := addr }) k = gangAt s k := by
        simp [gangAt, SMap.getD, SMap.find?_ins_ne _ _ same]
      show GangOver (setGang s g { gangAt s g with state := .failing, cause := cause, failAddr := addr }) k
      rw [GangOver, kept]
      exact ended

/-- What a failing tracker leaves alone: memory, values, warps, all of the ring but the trackers; gangs that are over stay so. -/
structure TrackersOnly (s t : State) : Prop where
  memory : t.m = s.m
  ring : ∃ ts, t.r = { s.r with trackers := ts }
  vals : t.x.vals = s.x.vals
  warps : t.x.warps = s.x.warps
  ended : ∀ g, GangOver s g → GangOver t g

theorem TrackersOnly.refl (s : State) : TrackersOnly s s := ⟨rfl, ⟨_, rfl⟩, rfl, rfl, fun _ h => h⟩

theorem TrackersOnly.trans {s t u : State} (first : TrackersOnly s t) (second : TrackersOnly t u) : TrackersOnly s u := by
  obtain ⟨memory, ⟨ts, ring⟩, vals, warps, ended⟩ := first
  obtain ⟨memory', ⟨ts', ring'⟩, vals', warps', ended'⟩ := second
  exact ⟨memory'.trans memory, ⟨ts', by rw [ring', ring]⟩, vals'.trans vals, warps'.trans warps, fun g h => ended' g (ended g h)⟩

/-- The gang of a tracker's item fails, if there is one. -/
def failWaiter (s : State) (w : Waiter) (cause : Nat) : State :=
  match waiterGang s w with
  | some g => failGang s g cause 0
  | none => s

theorem gangsFailed_failWaiter (s : State) (w : Waiter) (cause : Nat) : GangsFailed s (failWaiter s w cause) := by
  unfold failWaiter
  split
  · exact gangsFailed_failGang s _ cause 0
  · exact GangsFailed.refl s

/-- A tracker without an item is left; a path's goes; a command's takes a refusal. -/
theorem failTracker_of_none {s : State} {trk : Nat} (none : s.r.trackers.find? trk = none) (cause : Nat) : failTracker s trk cause = s := by
  simp [failTracker, none]

theorem failTracker_of_path {s : State} {trk : Nat} {t : Tracker} (found : s.r.trackers.find? trk = some t) {pid : Nat}
    (item : t.who = .path pid) (cause : Nat) : failTracker s trk cause =
      { failWaiter s (.path pid) cause with r := { s.r with trackers := s.r.trackers.del trk } } := by
  have ring := (gangsFailed_failWaiter s (.path pid) cause).ring
  simp only [failTracker, found, item]
  refine Eq.trans ?_ (congrArg (fun r : RingState => { failWaiter s (.path pid) cause with r := { r with trackers := r.trackers.del trk } }) ring)
  rfl

theorem failTracker_of_cmd {s : State} {trk : Nat} {t : Tracker} (found : s.r.trackers.find? trk = some t) {i : Nat}
    (item : t.who = .cmd i) (cause : Nat) : failTracker s trk cause =
      updCmd { failWaiter s (.cmd i) cause with
        r := { s.r with trackers := s.r.trackers.upd trk (fun t => { t with reply := some .refuse }) } } i
        (fun k => { k with cause := mergeCause k.cause cause }) := by
  have ring := (gangsFailed_failWaiter s (.cmd i) cause).ring
  simp only [failTracker, found, item]
  refine Eq.trans ?_ (congrArg (fun r : RingState => updCmd { failWaiter s (.cmd i) cause with
    r := { r with trackers := r.trackers.upd trk (fun t => { t with reply := some .refuse }) } } i
      (fun k => { k with cause := mergeCause k.cause cause })) ring)
  rfl

theorem trackersOnly_failTracker (s : State) (trk cause : Nat) : TrackersOnly s (failTracker s trk cause) := by
  cases found : s.r.trackers.find? trk with
  | none =>
    rw [failTracker_of_none found]
    exact TrackersOnly.refl s
  | some t =>
    cases item : t.who with
    | path pid =>
      obtain ⟨memory, -, vals, warps, ended⟩ := gangsFailed_failWaiter s (.path pid) cause
      rw [failTracker_of_path found item]
      exact ⟨memory, ⟨_, rfl⟩, vals, warps, ended⟩
    | cmd i =>
      obtain ⟨memory, -, vals, warps, ended⟩ := gangsFailed_failWaiter s (.cmd i) cause
      rw [failTracker_of_cmd found item]
      exact ⟨memory, ⟨_, rfl⟩, vals, warps, ended⟩

/-- Other trackers are as they were, and the trackers' keys rise. -/
theorem failTracker_trackers {s : State} (rising : s.r.trackers.risingFrom 0 = true) (trk cause : Nat) :
    (failTracker s trk cause).r.trackers.risingFrom 0 = true ∧
      ∀ k, k ≠ trk → (failTracker s trk cause).r.trackers.find? k = s.r.trackers.find? k := by
  cases found : s.r.trackers.find? trk with
  | none =>
    rw [failTracker_of_none found]
    exact ⟨rising, fun _ _ => rfl⟩
  | some t =>
    cases item : t.who with
    | path pid =>
      rw [failTracker_of_path found item]
      exact ⟨SMap.risingFrom_del _ trk rising, fun k other => SMap.find?_del_ne _ other⟩
    | cmd i =>
      rw [failTracker_of_cmd found item]
      refine ⟨?_, fun k other => SMap.find?_upd_ne _ _ other⟩
      show (SMap.upd s.r.trackers trk _).risingFrom 0 = true
      rw [SMap.upd, found]
      exact SMap.risingFrom_ins _ _ rising (Nat.zero_le trk)

/-- A path's tracker that fails is gone, and the path's gang is over. -/
theorem failTracker_of_path_fails {s : State} (rising : s.r.trackers.risingFrom 0 = true) {trk : Nat} {t : Tracker}
    (found : s.r.trackers.find? trk = some t) {pid : Nat} (item : t.who = .path pid) (cause : Nat) :
    (failTracker s trk cause).r.trackers.find? trk = none ∧
      GangOver (failTracker s trk cause) (warpAt s (warpOfPath pid)).gang := by
  refine ⟨?_, over_failTracker found cause (by rw [item]; rfl)⟩
  rw [failTracker_of_path found item]
  exact SMap.find?_del_self _ rising

/-- The items of lost packets fail one after another. -/
def failItems (s : State) (ps : List Pkt) : State := ps.foldl (fun s p => failTracker s p.trk 8) s

theorem trackersOnly_failItems (s : State) (ps : List Pkt) : TrackersOnly s (failItems s ps) :=
  foldl_inv (TrackersOnly s) _ (fun u p h => h.trans (trackersOnly_failTracker u p.trk 8)) s ps (TrackersOnly.refl s)

/-- Every path that waited for a lost packet has lost its tracker, and its gang is over. -/
theorem failItems_fails {s : State} (rising : s.r.trackers.risingFrom 0 = true) {ps : List Pkt} {p : Pkt} (lost : p ∈ ps) {t : Tracker}
    (found : s.r.trackers.find? p.trk = some t) {pid : Nat} (item : t.who = .path pid) :
    (failItems s ps).r.trackers.find? p.trk = none ∧ GangOver (failItems s ps) (warpAt s (warpOfPath pid)).gang := by
  let g := (warpAt s (warpOfPath pid)).gang
  let Kept := fun u : State => u.r.trackers.risingFrom 0 = true ∧ u.x.warps = s.x.warps
  let Failed := fun u : State => Kept u ∧ u.r.trackers.find? p.trk = none ∧ GangOver u g
  let Stands := fun u : State => Failed u ∨ Kept u ∧ u.r.trackers.find? p.trk = some t
  have kept : ∀ (u : State) (q : Pkt), Kept u → Kept (failTracker u q.trk 8) := fun u q h =>
    ⟨(failTracker_trackers h.1 q.trk 8).1, (trackersOnly_failTracker u q.trk 8).warps.trans h.2⟩
  have failed : ∀ (u : State) (q : Pkt), Failed u → Failed (failTracker u q.trk 8) := fun u q h => by
    refine ⟨kept u q h.1, ?_, (trackersOnly_failTracker u q.trk 8).ended g h.2.2⟩
    by_cases same : p.trk = q.trk
    · rw [← same, failTracker_of_none h.2.1]
      exact h.2.1
    · exact ((failTracker_trackers h.1.1 q.trk 8).2 _ same).trans h.2.1
  have first : ∀ (u : State) (q : Pkt), q.trk = p.trk → Stands u → Failed (failTracker u q.trk 8) := fun u q same h => by
    rcases h with done | ⟨keeps, found⟩
    · exact failed u q done
    · have fails := failTracker_of_path_fails keeps.1 found item 8
      have warp : warpAt u (warpOfPath pid) = warpAt s (warpOfPath pid) :=
        congrArg (fun m : SMap Warp => m.getD warpZero (warpOfPath pid)) keeps.2
      rw [warp, ← same] at fails
      exact ⟨kept u q keeps, same ▸ fails.1, fails.2⟩
  have stands : ∀ (u : State) (q : Pkt), Stands u → Stands (failTracker u q.trk 8) := fun u q h => by
    by_cases same : q.trk = p.trk
    · exact .inl (first u q same h)
    · rcases h with done | ⟨keeps, found⟩
      · exact .inl (failed u q done)
      · exact .inr ⟨kept u q keeps, ((failTracker_trackers keeps.1 q.trk 8).2 _ (Ne.symm same)).trans found⟩
  exact (foldl_reaches (f := fun u q => failTracker u (Pkt.trk q) 8) (Q := Stands) (P := Failed) stands failed
    (fun u => first u p rfl) lost (.inr ⟨⟨rising, rfl⟩, found⟩)).2

/-! ### A lost transit router (R369) -/

/-- The event of a hop that is down because a die's router is lost. -/
def fallenEvent (die h : Nat) : EvFields :=
  { evZero with kind := 0x09, die := endDie h (if h = die then 1 else 0), cause := 3, addr := BitVec.ofNat 64 h }

/-- The hops on both sides of a die are down and reported. -/
def routerDown (s : State) (die : Nat) : State :=
  [die, (die + 7) % 8].foldl (fun s h => postEvent s (fallenEvent die h))
    ([die, (die + 7) % 8].foldl (fun s h => setHop s h { hopAt s h with down := true }) s)

/-- The packets in buffers whose way leads through a die. -/
def packetsThrough (s : State) (die : Nat) : List Pkt :=
  s.r.bufs.flatMap (fun b => (b.2.pool ++ b.2.escape).filter (throughRouter die b.1))

/-- The buffers without them. -/
def withoutThrough (s : State) (die : Nat) : State :=
  { s with r := { s.r with bufs := s.r.bufs.map (fun b => (b.1, dropThrough die b.1 b.2)) } }

theorem withoutThrough_trackers (s : State) (die : Nat) : (withoutThrough s die).r.trackers = s.r.trackers := rfl

theorem withoutThrough_rest (s : State) (die : Nat) : (withoutThrough s die).m = s.m ∧ (withoutThrough s die).x = s.x ∧
    (withoutThrough s die).r.hops = s.r.hops ∧ (withoutThrough s die).r.inject = s.r.inject := ⟨rfl, rfl, rfl, rfl⟩

/-- A packet that has not been sent enters a queue again, in the direction that no hop bars. -/
def injectAround (s : State) (q : Nat × Pkt) : State :=
  inject s (q.1 / 8) (q.1 % 4) { q.2 with dir := aroundDown s (q.1 / 8) q.2.dst q.2.dir }

/-- The packets that have not been sent, with the queues in which they stand. -/
def unsent (s : State) : List (Nat × Pkt) := s.r.inject.flatMap (fun q => q.2.map (fun p => (q.1, p)))

/-- All of them enter queues again. -/
def turnUnsent (s : State) : State := (unsent s).foldl injectAround { s with r := { s.r with inject := [] } }

theorem exec_transitRouterLost_eq {s : State} {die : Nat} (ring : die < 8) : exec (.transitRouterLost die) s =
    .next (turnUnsent (failItems (withoutThrough (routerDown s die) die) (packetsThrough (routerDown s die) die))) := by
  rw [exec_transitRouterLost, execTransitRouterLost, if_neg (by omega)]
  rfl

/-- A hop that is down. -/
def Hop.fallen (h : Hop) : Hop := { h with down := true }

/-- The hops of the ring, those on both sides of a die down. -/
def fallenHops (s : State) (die : Nat) : SMap Hop :=
  (s.r.hops.ins die (hopAt s die).fallen).ins ((die + 7) % 8) (hopAt (setHop s die (hopAt s die).fallen) ((die + 7) % 8)).fallen

theorem routerDown_eq (s : State) (die : Nat) : ∃ dies, routerDown s die =
    { s with r := { s.r with hops := fallenHops s die }, h := { s.h with dies := dies } } :=
  foldl_inv (fun t => ∃ dies, t = { s with r := { s.r with hops := fallenHops s die }, h := { s.h with dies := dies } })
    (fun s h => postEvent s (fallenEvent die h)) (fun t h posted => by obtain ⟨dies, rfl⟩ := posted; exact ⟨_, rfl⟩)
    _ [die, (die + 7) % 8] ⟨s.h.dies, rfl⟩

theorem hopAt_routerDown (s : State) (die : Nat) :
    (hopAt (routerDown s die) die).down = true ∧ (hopAt (routerDown s die) ((die + 7) % 8)).down = true := by
  obtain ⟨dies, eq⟩ := routerDown_eq s die
  have other : die ≠ (die + 7) % 8 := by omega
  rw [eq]
  simp [hopAt, SMap.getD, SMap.find?_ins_self, SMap.find?_ins_ne _ _ other, Hop.fallen, fallenHops]

/-- Injection changes the queues alone. -/
theorem injectAround_eq (s : State) (q : Nat × Pkt) : ∃ queues, injectAround s q = { s with r := { s.r with inject := queues } } := ⟨_, rfl⟩

/-- A packet stands in some queue. -/
def Queues (s : State) (p : Pkt) : Prop := ∃ k ps, s.r.inject.find? k = some ps ∧ p ∈ ps

theorem queues_inject_self (s : State) (die cluster : Nat) (p : Pkt) : Queues (inject s die cluster p) p :=
  ⟨_, _, SMap.find?_ins_self .., by simp⟩

theorem Queues.inject {s : State} {p : Pkt} (stands : Queues s p) (die cluster : Nat) (q : Pkt) : Queues (inject s die cluster q) p := by
  obtain ⟨k, ps, found, mem⟩ := stands
  by_cases same : k = injectKey die q.dir cluster
  · refine ⟨k, ps ++ [q], ?_, List.mem_append_left _ mem⟩
    have held : s.r.inject.getD [] (injectKey die q.dir cluster) = ps := by rw [SMap.getD, ← same, found]; rfl
    have entered : (Machine.inject s die cluster q).r.inject = s.r.inject.ins (injectKey die q.dir cluster) (ps ++ [q]) :=
      congrArg (fun l => s.r.inject.ins (injectKey die q.dir cluster) (l ++ [q])) held
    rw [entered, same, SMap.find?_ins_self]
  · exact ⟨k, ps, (SMap.find?_ins_ne _ _ same).trans found, mem⟩

/-- From `s` to `t` the injection queues alone have changed. -/
def QueuesOnly (s t : State) : Prop := ∃ queues, t = { s with r := { s.r with inject := queues } }

theorem QueuesOnly.injectAround {s t : State} (only : QueuesOnly s t) (q : Nat × Pkt) : QueuesOnly s (injectAround t q) := by
  obtain ⟨queues, rfl⟩ := only
  exact ⟨_, rfl⟩

theorem QueuesOnly.rest {s t : State} (only : QueuesOnly s t) :
    t.m = s.m ∧ t.x = s.x ∧ t.r.hops = s.r.hops ∧ t.r.bufs = s.r.bufs ∧ t.r.trackers = s.r.trackers := by
  obtain ⟨queues, rfl⟩ := only
  exact ⟨rfl, rfl, rfl, rfl, rfl⟩

theorem QueuesOnly.around {s t : State} (only : QueuesOnly s t) (a b : Nat) (d : Dir) : aroundDown t a b d = aroundDown s a b d := by
  obtain ⟨queues, rfl⟩ := only
  rfl

theorem queuesOnly_turnUnsent (s : State) : QueuesOnly s (turnUnsent s) :=
  foldl_inv (QueuesOnly s) _ (fun _ q h => h.injectAround q) _ (unsent s) ⟨[], rfl⟩

/-- A packet that has not been sent stands in a queue, in the direction that no hop bars. -/
theorem turnUnsent_queues {s : State} {q : Nat × Pkt} (waits : q ∈ unsent s) :
    Queues (turnUnsent s) { q.2 with dir := aroundDown s (q.1 / 8) q.2.dst q.2.dir } :=
  (foldl_reaches (Q := QueuesOnly s)
    (P := fun u => QueuesOnly s u ∧ Queues u { q.2 with dir := aroundDown s (q.1 / 8) q.2.dst q.2.dir })
    (fun _ q h => h.injectAround q) (fun _ q h => ⟨h.1.injectAround q, h.2.inject _ _ _⟩)
    (fun u only => ⟨only.injectAround q, by rw [← only.around]; exact queues_inject_self u _ _ _⟩) waits ⟨[], rfl⟩).2

theorem mem_unsent {s : State} {x : Nat × List Pkt} (queue : x ∈ s.r.inject) {p : Pkt} (waits : p ∈ x.2) : (x.1, p) ∈ unsent s :=
  List.mem_flatMap.2 ⟨x, queue, List.mem_map_of_mem waits⟩

/-- The buffers hold nothing more that leads through the die. -/
theorem bufs_withoutThrough {s : State} {die : Nat} {x : Nat × HopBuf} (buffer : x ∈ (withoutThrough s die).r.bufs) {p : Pkt}
    (stands : p ∈ x.2.pool ++ x.2.escape) : throughRouter die x.1 p = false := by
  obtain ⟨b, -, rfl⟩ := List.mem_map.1 buffer
  rcases List.mem_append.1 stands with pooled | escaped
  · simpa using (List.mem_filter.1 pooled).2
  · simpa using (List.mem_filter.1 escaped).2

theorem find?_mapValues {α : Type} (m : SMap α) (f : Nat → α → α) (k : Nat) :
    SMap.find? (m.map (fun b => (b.1, f b.1 b.2))) k = (m.find? k).map (f k) := by
  induction m with
  | nil => rfl
  | cons b m ih =>
    obtain ⟨i, a⟩ := b
    simp only [List.map_cons, SMap.find?]
    by_cases same : i = k
    · simp [same]
    · simp [same, ih]

theorem resc_withoutThrough (s : State) (die k : Nat) : (bufAt (withoutThrough s die) k).resc =
    (bufAt s k).resc + ((bufAt s k).escape.filter (throughRouter die k)).length := by
  have found := find?_mapValues s.r.bufs (dropThrough die) k
  have buffer : bufAt (withoutThrough s die) k = ((s.r.bufs.find? k).map (dropThrough die k)).getD bufZero := congrArg (·.getD bufZero) found
  rw [buffer, bufAt, SMap.getD]
  cases s.r.bufs.find? k with
  | none => rfl
  | some b => rfl

theorem mem_packetsThrough {s : State} {die : Nat} {x : Nat × HopBuf} (buffer : x ∈ s.r.bufs) {p : Pkt}
    (stands : p ∈ x.2.pool ++ x.2.escape) (through : throughRouter die x.1 p = true) : p ∈ packetsThrough s die :=
  List.mem_flatMap.2 ⟨x, buffer, List.mem_filter.2 ⟨stands, through⟩⟩

theorem transitRouterLost_loses {s : State} {hop : Nat} (ring : hop < 8) (rising : s.r.trackers.risingFrom 0 = true) :
    ∃ u, exec (.transitRouterLost hop) s = .next u ∧ u.m = s.m ∧ u.x.vals = s.x.vals ∧
      (hopAt u hop).down = true ∧ (hopAt u ((hop + 7) % 8)).down = true ∧
      (∀ x ∈ u.r.bufs, ∀ p ∈ x.2.pool ++ x.2.escape, throughRouter hop x.1 p = false) ∧
      (∀ k, (bufAt u k).resc = (bufAt s k).resc + ((bufAt s k).escape.filter (throughRouter hop k)).length) ∧
      (∀ x ∈ s.r.bufs, ∀ p ∈ x.2.pool ++ x.2.escape, throughRouter hop x.1 p = true → ∀ t pid, s.r.trackers.find? p.trk = some t →
        t.who = .path pid → u.r.trackers.find? p.trk = none ∧ GangOver u (warpAt s (warpOfPath pid)).gang) ∧
      ∀ x ∈ s.r.inject, ∀ p ∈ x.2, ∃ y ∈ u.r.inject, { p with dir := aroundDown u (x.1 / 8) p.dst p.dir } ∈ y.2 := by
  rw [exec_transitRouterLost_eq ring]
  obtain ⟨down, down'⟩ := hopAt_routerDown s hop
  obtain ⟨dies, reported⟩ := routerDown_eq s hop
  have was : (routerDown s hop).m = s.m ∧ (routerDown s hop).x = s.x ∧ (routerDown s hop).r.bufs = s.r.bufs ∧
      (routerDown s hop).r.inject = s.r.inject ∧ (routerDown s hop).r.trackers = s.r.trackers := by
    rw [reported]
    exact ⟨rfl, rfl, rfl, rfl, rfl⟩
  generalize routerDown s hop = r at was down down' ⊢
  obtain ⟨memoryR, execR, bufsR, injectR, trackersR⟩ := was
  have failed := trackersOnly_failItems (withoutThrough r hop) (packetsThrough r hop)
  have risingR : (withoutThrough r hop).r.trackers.risingFrom 0 = true := by
    rw [withoutThrough_trackers, trackersR]
    exact rising
  have fails : ∀ p ∈ packetsThrough r hop, ∀ t pid, (withoutThrough r hop).r.trackers.find? p.trk = some t →
      t.who = .path pid →
      (failItems (withoutThrough r hop) (packetsThrough r hop)).r.trackers.find? p.trk = none ∧
        GangOver (failItems (withoutThrough r hop) (packetsThrough r hop)) (warpAt (withoutThrough r hop) (warpOfPath pid)).gang :=
    fun p lost t pid found item => failItems_fails risingR lost found item
  generalize failItems (withoutThrough r hop) (packetsThrough r hop) = v at failed fails ⊢
  obtain ⟨memory, ⟨ts, ringKept⟩, vals, -, -⟩ := failed
  have turned := queuesOnly_turnUnsent v
  have queued : ∀ q ∈ unsent v, Queues (turnUnsent v) { q.2 with dir := aroundDown v (q.1 / 8) q.2.dst q.2.dir } :=
    fun q waits => turnUnsent_queues waits
  generalize turnUnsent v = u at turned queued ⊢
  obtain ⟨memoryW, execW, hopsW, injectW⟩ := withoutThrough_rest r hop
  obtain ⟨memoryU, execU, hopsU, bufsU, trackersU⟩ := turned.rest
  have hops : u.r.hops = r.r.hops := hopsU.trans ((congrArg RingState.hops ringKept).trans hopsW)
  have bufs : u.r.bufs = (withoutThrough r hop).r.bufs := bufsU.trans ((congrArg RingState.bufs ringKept).trans rfl)
  refine ⟨_, rfl, ?_, ?_, ?_, ?_, fun x hx p hp => ?_, fun k => ?_, fun x hx p hp through w pid found item => ?_, fun x hx p hp => ?_⟩
  · exact memoryU.trans (memory.trans (memoryW.trans memoryR))
  · exact (congrArg Exec.vals execU).trans (vals.trans (congrArg Exec.vals (execW.trans execR)))
  · rw [hopAt_congr hops]
    exact down
  · rw [hopAt_congr hops]
    exact down'
  · rw [bufs] at hx
    exact bufs_withoutThrough hx hp
  · have buffer : bufAt u k = bufAt (withoutThrough r hop) k := congrArg (fun m : SMap HopBuf => m.getD bufZero k) bufs
    have before : bufAt r k = bufAt s k := congrArg (fun m : SMap HopBuf => m.getD bufZero k) bufsR
    rw [buffer, resc_withoutThrough, before]
  · rw [← bufsR] at hx
    rw [← trackersR, ← withoutThrough_trackers r hop] at found
    have ended := fails p (mem_packetsThrough hx hp through) w pid found item
    have warp : warpAt (withoutThrough r hop) (warpOfPath pid) = warpAt s (warpOfPath pid) :=
      congrArg (fun x : Exec => x.warps.getD warpZero (warpOfPath pid)) (execW.trans execR)
    rw [warp] at ended
    refine ⟨(congrArg (fun m : SMap Tracker => m.find? p.trk) trackersU).trans ended.1, ?_⟩
    have gang : gangAt u (warpAt s (warpOfPath pid)).gang = gangAt v (warpAt s (warpOfPath pid)).gang :=
      congrArg (fun x : Exec => x.gangs.getD gangZero (warpAt s (warpOfPath pid)).gang) execU
    rw [GangOver, gang]
    exact ended.2
  · have waits : (x.1, p) ∈ unsent v := by
      refine mem_unsent (x := x) ?_ hp
      have inject : v.r.inject = r.r.inject := (congrArg RingState.inject ringKept).trans injectW
      rw [inject, injectR]
      exact hx
    have stands := queued _ waits
    rw [← turned.around] at stands
    obtain ⟨k, ps, found, mem⟩ := stands
    exact ⟨(k, ps), SMap.mem_of_find? found, mem⟩

/-- Settles O49: a hop, the choice of its source and its losses by their lemmas. -/
theorem packetsCrossHopsOrAreLost : Obligations.PacketsCrossHopsOrAreLost := by
  unfold Obligations.PacketsCrossHopsOrAreLost
  intro hop d s ring key b last after
  refine ⟨fun n p small head up carries fits => ?_, exec_sourceRoundRobin_idle ring d, sourceRoundRobin_chooses ring d,
    ⟨_, exec_creditReturn_eq ring d, rfl, rfl, bufAt_setBuf_self s key _⟩, fun strand failures spare => flitRetry_retires ring,
    fun esc p => corruptedHeader_discards ring d rfl, transitRouterLost_loses ring⟩
  rw [exec_packetHop_of_fits ring small head up carries fits]
  let s1 := leaveSource s hop d n p
  obtain ⟨memory, exec, engines, far⟩ := leaveSource_rest s hop d n p
  have takes : farTakes (bufAt s1 key) hop p := by
    rw [far]
    exact farTakes_of_headFits head fits
  obtain ⟨q, ⟨body, kind, dst, src, trk, hops⟩, enters⟩ := enterFar_enters takes
  obtain ⟨b', entered⟩ := enterFar_eq s1 hop d p
  refine ⟨_, q, rfl, ?_, ?_, ?_, body, kind, dst, src, trk, hops, ?_, fun queued => ?_, fun buffered channel => ?_⟩
  · exact (congrArg (·.m) entered).trans memory
  · exact (congrArg (·.x) entered).trans exec
  · exact (congrArg (·.e) entered).trans engines
  · rw [far] at enters
    exact enters
  · exact (congrArg (fun u : State => u.r.inject.getD [] (injectKey (sendDie hop d) d (n - 2))) entered).trans
      (leaveSource_inject queued s hop d p)
  · have from_ : bufAt (enterFar (leaveSource s hop d n p) hop d p) (bufKey (arriveHop (sendDie hop d) d) d) =
        bufAt (leaveBuf s (bufKey (arriveHop (sendDie hop d) d) d) p) (bufKey (arriveHop (sendDie hop d) d) d) := by
      rw [show enterFar (leaveSource s hop d n p) hop d p = _ from entered, bufAt_setBuf_ne _ _ (bufKey_arriveHop_ne hop d)]
      simp only [s1, leaveSource, if_pos buffered]
    obtain ⟨escapes, pools⟩ := leaveBuf_erases s (bufKey (arriveHop (sendDie hop d) d) d) p
    dsimp only
    rw [from_]
    cases own : p.esc with
    | true =>
      rw [(escapes own).1, (escapes own).2]
      exact .inr rfl
    | false =>
      rw [(pools own).1, (pools own).2]
      exact .inl rfl

end Sys2Proof.Machine
end

section
/-!
SUPPORT. O46: the accumulators of the matrix engine, and what its operations leave alone (R241, R245, R250, R258, R260).
-/
namespace Sys2Proof.Machine

/-! ### Accumulator elements (R241) -/

theorem SMap.getD_putD_self_of_rising {α : Type} [DecidableEq α] {d : α} {m : SMap α} (k : Nat) (v : α) (rising : m.risingFrom 0 = true) :
    (m.putD d k v).getD d k = v := by
  unfold SMap.putD
  split
  · next default => rw [SMap.getD, SMap.find?_del_self m rising, default]; rfl
  · rw [SMap.getD, SMap.find?_ins_self]; rfl

theorem SMap.risingFrom_putD {α : Type} [DecidableEq α] {d : α} {m : SMap α} (k : Nat) (v : α) (rising : m.risingFrom 0 = true) :
    (m.putD d k v).risingFrom 0 = true := by
  unfold SMap.putD
  split
  · exact SMap.risingFrom_del m k rising
  · exact SMap.risingFrom_ins m v rising (Nat.zero_le k)

/-- The accumulators' keys rise. -/
abbrev AccRising (s : State) : Prop := s.e.acc.risingFrom 0 = true

theorem accRising_setAccWord {s : State} (core tile e v : Nat) (rising : AccRising s) : AccRising (setAccWord s core tile e v) :=
  SMap.risingFrom_putD _ _ rising

theorem accWord_setAccWord_self {s : State} (core tile e v : Nat) (rising : AccRising s) :
    accWord (setAccWord s core tile e v) core tile e = v % 2 ^ 32 := by
  have held := SMap.getD_putD_self_of_rising (d := (0 : BitVec 32)) (accKey core tile e) (BitVec.ofNat 32 v) rising
  exact (congrArg BitVec.toNat held).trans (BitVec.toNat_ofNat _ _)

theorem accWord_setAccWord_ne (s : State) {core tile e tile' e' : Nat} (v : Nat) (other : accKey core tile' e' ≠ accKey core tile e) :
    accWord (setAccWord s core tile e v) core tile' e' = accWord s core tile' e' :=
  congrArg BitVec.toNat (SMap.getD_putD_ne _ _ _ other)

/-- The words of tiles from `n` on stand one after another. -/
theorem accKey_word (core n x : Nat) : accKey core (n + x / 4096) (x % 4096) = (core * 8 + n) * 4096 + x := by
  unfold accKey
  omega

/-- Bits of an element. -/
abbrev elemBits (f64 : Bool) : Nat := if f64 = true then 64 else 32

theorem accRising_setAccElem {s : State} (core n : Nat) (f64 : Bool) (e v : Nat) (rising : AccRising s) :
    AccRising (setAccElem s core n f64 e v) := by
  unfold setAccElem
  split
  · exact accRising_setAccWord _ _ _ _ (accRising_setAccWord _ _ _ _ rising)
  · exact accRising_setAccWord _ _ _ _ rising

theorem accElem_setAccElem_self {s : State} (core n : Nat) (f64 : Bool) (e v : Nat) (rising : AccRising s) :
    accElem (setAccElem s core n f64 e v) core n f64 e = v % 2 ^ elemBits f64 := by
  unfold accElem setAccElem
  cases f64 with
  | false => exact accWord_setAccWord_self core n e v rising
  | true =>
    have halves : accKey core (n + e / 2048) (2 * e % 4096) ≠ accKey core (n + e / 2048) (2 * e % 4096 + 1) := by
      unfold accKey
      omega
    simp only [if_true, elemBits]
    rw [accWord_setAccWord_ne _ _ halves, accWord_setAccWord_self _ _ _ _ rising,
      accWord_setAccWord_self _ _ _ _ (accRising_setAccWord _ _ _ _ rising)]
    omega

theorem accElem_setAccElem_ne (s : State) (core n : Nat) (f64 : Bool) {e e' : Nat} (v : Nat) (other : e' ≠ e) :
    accElem (setAccElem s core n f64 e v) core n f64 e' = accElem s core n f64 e' := by
  unfold accElem setAccElem
  cases f64 with
  | false => exact accWord_setAccWord_ne s v (by unfold accKey; omega)
  | true =>
    have apart : ∀ i j, i < 2 → j < 2 → accKey core (n + e' / 2048) (2 * e' % 4096 + i) ≠ accKey core (n + e / 2048) (2 * e % 4096 + j) := by
      intro i j hi hj
      unfold accKey
      omega
    simp only [if_true]
    have low : accKey core (n + e' / 2048) (2 * e' % 4096) ≠ accKey core (n + e / 2048) (2 * e % 4096) :=
      apart 0 0 (by decide) (by decide)
    have low' : accKey core (n + e' / 2048) (2 * e' % 4096) ≠ accKey core (n + e / 2048) (2 * e % 4096 + 1) :=
      apart 0 1 (by decide) (by decide)
    have high : accKey core (n + e' / 2048) (2 * e' % 4096 + 1) ≠ accKey core (n + e / 2048) (2 * e % 4096) :=
      apart 1 0 (by decide) (by decide)
    rw [accWord_setAccWord_ne _ _ low', accWord_setAccWord_ne _ _ low,
      accWord_setAccWord_ne _ _ (apart 1 1 (by decide) (by decide)), accWord_setAccWord_ne _ _ high]

/-- Every element of a tile, or of a pair, takes a value. -/
theorem accElem_foldl {s : State} (rising : AccRising s) (core n : Nat) (f64 : Bool) (val : Nat → Nat) {es : List Nat} {e : Nat} (mem : e ∈ es) :
    accElem (es.foldl (fun t e => setAccElem t core n f64 e (val e)) s) core n f64 e = val e % 2 ^ elemBits f64 :=
  (foldl_reaches (Q := AccRising) (P := fun t => AccRising t ∧ accElem t core n f64 e = val e % 2 ^ elemBits f64)
    (fun t x h => accRising_setAccElem core n f64 x _ h)
    (fun t x h => ⟨accRising_setAccElem core n f64 x _ h.1, by
      by_cases same : e = x
      · subst same
        exact accElem_setAccElem_self core n f64 e _ h.1
      · exact (accElem_setAccElem_ne t core n f64 _ same).trans h.2⟩)
    (fun t h => ⟨accRising_setAccElem core n f64 e _ h, accElem_setAccElem_self core n f64 e _ h⟩) mem rising).2

/-- A word of the tiles from `n` on. -/
def tileWord (s : State) (core n x : Nat) : Nat := accWord s core (n + x / 4096) (x % 4096)

/-- A word of the tiles from `n` on takes a value. -/
def setTileWord (s : State) (core n x v : Nat) : State := setAccWord s core (n + x / 4096) (x % 4096) v

theorem tileWord_setTileWord {s : State} (core n x y v : Nat) (rising : AccRising s) :
    tileWord (setTileWord s core n x v) core n y = if y = x then v % 2 ^ 32 else tileWord s core n y := by
  split
  · next same =>
    subst same
    exact accWord_setAccWord_self core _ _ v rising
  · next other =>
    refine accWord_setAccWord_ne s v ?_
    rw [accKey_word, accKey_word]
    omega

/-- Every word of the tiles takes a value. -/
theorem tileWord_foldl {s : State} (rising : AccRising s) (core n : Nat) (val : Nat → Nat) {xs : List Nat} {x : Nat} (mem : x ∈ xs) :
    tileWord (xs.foldl (fun t x => setTileWord t core n x (val x)) s) core n x = val x % 2 ^ 32 := by
  have keeps : ∀ t y, AccRising t → AccRising (setTileWord t core n y (val y)) := fun t y => accRising_setAccWord core _ _ _
  refine (foldl_reaches (Q := AccRising) (P := fun t => AccRising t ∧ tileWord t core n x = val x % 2 ^ 32)
    (fun t y => keeps t y) (fun t y h => ⟨keeps t y h.1, ?_⟩) (fun t h => ⟨keeps t x h, ?_⟩) mem rising).2
  · rw [tileWord_setTileWord core n y x _ h.1]
    split
    · next same => rw [same]
    · exact h.2
  · rw [tileWord_setTileWord core n x x _ h, if_pos rfl]

/-! ### What the operations change -/

/-- Only accumulators change. -/
def AccOnly (s t : State) : Prop := ∃ acc, t = { s with e := { s.e with acc := acc } }

theorem accOnly_setAccElem {s t : State} (only : AccOnly s t) (core n : Nat) (f64 : Bool) (e v : Nat) :
    AccOnly s (setAccElem t core n f64 e v) := by
  obtain ⟨acc, rfl⟩ := only
  unfold setAccElem
  split <;> exact ⟨_, rfl⟩

theorem accOnly_setAccWord {s t : State} (only : AccOnly s t) (core tile e v : Nat) : AccOnly s (setAccWord t core tile e v) := by
  obtain ⟨acc, rfl⟩ := only
  exact ⟨_, rfl⟩

/-- Only the place of popped entries changes. -/
def PairsOnly (s t : State) : Prop := ∃ ps, t = { s with e := { s.e with pairs := ps } }

theorem pairsOnly_eraseEntry {s t : State} (only : PairsOnly s t) (core i : Nat) : PairsOnly s (eraseEntry t core i) := by
  obtain ⟨ps, rfl⟩ := only
  unfold eraseEntry
  dsimp only
  split
  · exact ⟨ps, rfl⟩
  · exact ⟨_, rfl⟩

theorem pairsOnly_erasePops (s : State) (core y : Nat) (ps : List Pop) (ids : List Nat) : PairsOnly s (erasePops s core y ps ids) :=
  foldl_inv (PairsOnly s) _ (fun t p only => by
    split
    · obtain ⟨ps, rfl⟩ := only
      exact ⟨_, rfl⟩
    · exact pairsOnly_eraseEntry only core _) s (ps.zip ids) ⟨s.e.pairs, rfl⟩

/-- A command that starts: its entries leave their queues, it leaves its own, and it is noted. -/
theorem mxStart_eq (s : State) (core i : Nat) (k : Cmd) : ∃ ps q, mxStart s core i k = { s with
    e := { s.e with pairs := ps, mxq := q, cmds := s.e.cmds.ins i { k with started := true, pops := [] } } } := by
  obtain ⟨ps, erased⟩ := pairsOnly_erasePops s core 3 k.pops ((mxPops s core i k).getD [])
  unfold mxStart
  simp only [erased]
  exact ⟨_, _, rfl⟩

/-- Tiles that lose their values: accumulators, their errors and the next free word change. -/
theorem undefTiles_eq (s : State) (core : Nat) (ts : List Nat) : ∃ n acc lost, undefTiles s core ts =
    { s with c := { s.c with fresh := n }, e := { s.e with acc := acc, lostAcc := lost } } := by
  let Shape := fun t : State => ∃ n acc, t = { s with c := { s.c with fresh := n }, e := { s.e with acc := acc } }
  have written : Shape (ts.foldl (fun s t => (List.range 4096).foldl (fun s e =>
      setAccWord (takeFree s) core t e ((Config.freeWord s.c.fresh).toNat % 2 ^ 32)) s) s) :=
    foldl_inv Shape _ (fun u t h => foldl_inv Shape _ (fun v e h => by obtain ⟨n, acc, rfl⟩ := h; exact ⟨_, _, rfl⟩) u _ h)
      s ts ⟨_, _, rfl⟩
  obtain ⟨n, acc, written⟩ := written
  unfold undefTiles
  simp only [written]
  exact ⟨n, acc, _, rfl⟩

/-- The state part of a fold that carries something along. -/
theorem foldl_fst {α β γ : Type} {f : α × γ → β → α × γ} {g : α → β → α} (first : ∀ a b, (f a b).1 = g a.1 b) (l : List β) (a : α × γ) :
    (l.foldl f a).1 = l.foldl g a.1 := by
  induction l generalizing a with
  | nil => rfl
  | cons b l ih => rw [List.foldl_cons, List.foldl_cons, ih, first]

end Sys2Proof.Machine
end

section
/-!
SUPPORT. O46: the steps of a cluster, the refill of its pool, and the exchange of a tile (R242, R245, R250, R253, R255).
-/
namespace Sys2Proof.Machine

/-! ### What a step reads -/

/-- Threads and workgroups, scratchpads, tags, errors and accumulators are as they were. -/
structure SameData (s t : State) : Prop where
  exec : t.x = s.x
  scr : t.e.scr = s.e.scr
  tags : t.e.tags = s.e.tags
  lostScr : t.e.lostScr = s.e.lostScr
  acc : t.e.acc = s.e.acc
  lostAcc : t.e.lostAcc = s.e.lostAcc

section
variable {s t : State} (same : SameData s t)
include same

theorem SameData.scrHome (gang : Nat) (a : BitVec 32) (n : Nat) : scrHome t gang a n = scrHome s gang a n := by
  simp only [Machine.scrHome, same.exec]

theorem SameData.scrRegion (gang : Nat) (a : BitVec 32) (n : Nat) : scrRegion t gang a n = scrRegion s gang a n := by
  simp only [Machine.scrRegion, same.scrHome, scrBytes, same.scr]

theorem SameData.slotTag (gang : Nat) (a : BitVec 32) : slotTag t gang a = slotTag s gang a := by
  simp only [Machine.slotTag, same.scrHome, tagAt, same.tags]

theorem SameData.lostRegion (gang : Nat) (a : BitVec 32) (n : Nat) : lostRegion t gang a n = lostRegion s gang a n := by
  simp only [Machine.lostRegion, same.scrHome, lostBytes, same.lostScr]

theorem SameData.lostTiles (core : Nat) (ts : List Nat) : lostTiles t core ts = lostTiles s core ts := by
  simp only [Machine.lostTiles, same.lostAcc]

theorem SameData.accElem (core n : Nat) (f64 : Bool) (e : Nat) : accElem t core n f64 e = accElem s core n f64 e := by
  simp only [Machine.accElem, accWord, same.acc]

theorem SameData.lostElem (core n : Nat) (f64 : Bool) (e : Nat) : lostElem t core n f64 e = lostElem s core n f64 e := by
  simp only [Machine.lostElem, same.lostAcc]

end

/-! ### One step (R245, R250, R253) -/

/-- The operands of a step: whether tags are ignored and scales are there, and the regions it reads. -/
structure StepArgs where
  n : Nat
  raw : Bool
  bs : Bool
  at_ : BitVec 32 × BitVec 32 × BitVec 32

/-- The step that a step command performs next. -/
def stepArgs (k : Cmd) : StepArgs :=
  match k.body with
  | .mxSteps n raw bs a b sc _ da db dsc => ⟨n, raw, bs, stepAddrs a b sc da db dsc k.steps⟩
  | _ => ⟨0, false, false, 0, 0, 0⟩

section
variable (s : State) (k : Cmd)

abbrev stepA : List Byte := scrRegion s k.gang (stepArgs k).at_.1 8192
abbrev stepB : List Byte := scrRegion s k.gang (stepArgs k).at_.2.1 8192
abbrev stepScale : List Byte := if (stepArgs k).bs then scrRegion s k.gang (stepArgs k).at_.2.2 512 else []

/-- A tag of an operand differs from its format. -/
def stepMistagged : Bool := !(stepArgs k).raw && (slotTag s k.gang (stepArgs k).at_.1 != fmtTag (afmt k.mode) ||
  slotTag s k.gang (stepArgs k).at_.2.1 != fmtTag (bfmt k.mode) || ((stepArgs k).bs && slotTag s k.gang (stepArgs k).at_.2.2 != 0x40))

/-- A step meets an uncorrectable error. -/
def stepSpoilt : Bool := lostTiles s k.core (mxTiles k) || lostRegion s k.gang (stepArgs k).at_.1 8192 ||
  lostRegion s k.gang (stepArgs k).at_.2.1 8192 || ((stepArgs k).bs && lostRegion s k.gang (stepArgs k).at_.2.2 512)

end

/-- The command as it steps: started, its entries popped, and its wait for budget over. -/
abbrev Cmd.stepping (k : Cmd) : Cmd := { k with started := true, pops := [], since := none }

/-- The state in which a step has begun. -/
def stepBegun (s : State) (x : ReadyStep) : State :=
  let s1 := if x.cmd.started then s else mxStart s x.cmd.core x.id x.cmd
  setMx s1 x.cmd.core { mxAt s1 x.cmd.core with
    prev := toggleRows (stepA s x.cmd) (stepB s x.cmd), busy := s.c.cycle + stepTime (mxClass x.cmd.mode) (dieOfCore x.cmd.core) }

theorem runStep_eq (s : State) (x : ReadyStep) (steps : isSteps x.cmd = true) : runStep s x =
    if stepMistagged s x.cmd then setCmd (stepBegun s x) x.id { x.cmd.stepping with stepFail := true, cause := 5 }
    else if stepSpoilt s x.cmd then
      setCmd (undefTiles (stepBegun s x) x.cmd.core (mxTiles x.cmd)) x.id { x.cmd.stepping with stepFail := true, cause := 7 }
    else setCmd (stepAll (stepBegun s x) x.cmd (stepArgs x.cmd).n (stepArgs x.cmd).bs (stepA s x.cmd) (stepB s x.cmd) (stepScale s x.cmd))
      x.id { x.cmd.stepping with steps := x.cmd.steps + 1 } := by
  unfold isSteps at steps
  split at steps
  · next n raw bs a b sc cnt da db dsc body =>
    have args : stepArgs x.cmd = ⟨n, raw, bs, stepAddrs a b sc da db dsc x.cmd.steps⟩ := by simp only [stepArgs, body]
    simp only [runStep, body, stepMistagged, stepSpoilt, stepBegun, stepA, stepB, stepScale, args]
  · cases steps

/-- What a step may change: the next free word, its command and queues, the accumulators, and the core's MX state. -/
def StepOnly (s t : State) : Prop := ∃ n ps q cs mx acc lost, t = { s with
  c := { s.c with fresh := n }, e := { s.e with pairs := ps, mxq := q, cmds := cs, mx := mx, acc := acc, lostAcc := lost } }

theorem stepBegun_eq (s : State) (x : ReadyStep) : ∃ ps q cs mx, stepBegun s x =
    { s with e := { s.e with pairs := ps, mxq := q, cmds := cs, mx := mx } } := by
  obtain ⟨ps, q, started⟩ := mxStart_eq s x.cmd.core x.id x.cmd
  unfold stepBegun
  split
  · exact ⟨_, _, _, _, rfl⟩
  · simp only [started]
    exact ⟨_, _, _, _, rfl⟩

/-- One element of a step. -/
def stepValue (s : State) (k : Cmd) (n : Nat) (bs : Bool) (a b sc : List Byte) (e : Nat) : Nat × Flags :=
  stepElem (mxClass k.mode) ((mxFmt (afmt k.mode)).getD .bf16) ((mxFmt (bfmt k.mode)).getD .bf16)
    (if bs then scaleAt sc 0 (e / 64) else unitScale) (if bs then scaleAt sc 256 (e % 64) else unitScale)
    (rowElems a (e / 64) (128 / stepK (mxClass k.mode))) (rowElems b (e % 64) (128 / stepK (mxClass k.mode)))
    (accElem s k.core n (mxClass k.mode == .f64) e)

/-- The elements `es` are written one after another, as the accumulator stood. -/
def stepElems (s : State) (k : Cmd) (n : Nat) (val : Nat → Nat) (es : List Nat) : State :=
  es.foldl (fun t e => setAccElem t k.core n (mxClass k.mode == .f64) e (val e)) s

/-- With the exceptions that they raise. -/
def stepFold (s : State) (k : Cmd) (n : Nat) (bs : Bool) (a b sc : List Byte) (es : List Nat) : State × Flags :=
  es.foldl (fun (acc : State × Flags) e =>
    (setAccElem acc.1 k.core n (mxClass k.mode == .f64) e (stepValue s k n bs a b sc e).1, acc.2 ||| (stepValue s k n bs a b sc e).2)) (s, fNone)

theorem stepFold_fst (s : State) (k : Cmd) (n : Nat) (bs : Bool) (a b sc : List Byte) (es : List Nat) :
    (stepFold s k n bs a b sc es).1 = stepElems s k n (fun e => (stepValue s k n bs a b sc e).1) es :=
  foldl_fst (g := fun t e => setAccElem t k.core n (mxClass k.mode == .f64) e (stepValue s k n bs a b sc e).1) (fun _ _ => rfl) es _

theorem stepAll_eq (s : State) (k : Cmd) (n : Nat) (bs : Bool) (a b sc : List Byte) : ∃ fl, stepAll s k n bs a b sc =
    orTileFlags (stepElems s k n (fun e => (stepValue s k n bs a b sc e).1) (List.range 4096)) k.core (mxTiles k) fl := by
  rw [← stepFold_fst]
  exact ⟨(stepFold s k n bs a b sc (List.range 4096)).2, rfl⟩

theorem accOnly_stepElems (s : State) (k : Cmd) (n : Nat) (val : Nat → Nat) (es : List Nat) : AccOnly s (stepElems s k n val es) :=
  foldl_inv (AccOnly s) _ (fun _ _ h => accOnly_setAccElem h _ _ _ _ _) s es ⟨s.e.acc, rfl⟩

theorem accElem_orTileFlags (s : State) (core n : Nat) (f64 : Bool) (e : Nat) (ts : List Nat) (fl : Flags) :
    accElem (orTileFlags s core ts fl) core n f64 e = accElem s core n f64 e := rfl

theorem accElem_stepAll {s : State} (rising : AccRising s) (k : Cmd) (n : Nat) (bs : Bool) (a b sc : List Byte) {e : Nat} (small : e < 4096) :
    accElem (stepAll s k n bs a b sc) k.core n (mxClass k.mode == .f64) e =
      (stepValue s k n bs a b sc e).1 % 2 ^ elemBits (mxClass k.mode == .f64) := by
  obtain ⟨fl, all⟩ := stepAll_eq s k n bs a b sc
  have mem : e ∈ List.range 4096 := List.mem_range.2 small
  rw [all, accElem_orTileFlags]
  generalize List.range 4096 = es at mem
  exact accElem_foldl rising k.core n _ _ mem

theorem stepOnly_runStep (s : State) (x : ReadyStep) : StepOnly s (runStep s x) := by
  obtain ⟨ps, q, cs, mx, begun⟩ := stepBegun_eq s x
  cases steps : isSteps x.cmd with
  | false =>
    have idle : runStep s x = s := by
      unfold isSteps at steps
      unfold runStep
      split at steps
      · cases steps
      · next other =>
        dsimp only
        split
        · next body => exact absurd body (other _ _ _ _ _ _ _ _ _ _)
        · rfl
    rw [idle]
    exact ⟨_, _, _, _, _, _, _, rfl⟩
  | true =>
    rw [runStep_eq s x steps]
    split
    · rw [begun]
      exact ⟨_, _, _, _, _, _, _, rfl⟩
    · split
      · obtain ⟨n, acc, lost, undef⟩ := undefTiles_eq (stepBegun s x) x.cmd.core (mxTiles x.cmd)
        rw [undef, begun]
        exact ⟨_, _, _, _, _, _, _, rfl⟩
      · obtain ⟨fl, all⟩ := stepAll_eq (stepBegun s x) x.cmd (stepArgs x.cmd).n (stepArgs x.cmd).bs (stepA s x.cmd) (stepB s x.cmd)
          (stepScale s x.cmd)
        obtain ⟨acc, written⟩ := accOnly_stepElems (stepBegun s x) x.cmd (stepArgs x.cmd).n (fun e => (stepValue (stepBegun s x) x.cmd
          (stepArgs x.cmd).n (stepArgs x.cmd).bs (stepA s x.cmd) (stepB s x.cmd) (stepScale s x.cmd) e).1) (List.range 4096)
        rw [all, written, begun]
        exact ⟨_, _, _, _, _, _, _, rfl⟩

theorem SameData.refl (s : State) : SameData s s := ⟨rfl, rfl, rfl, rfl, rfl, rfl⟩

theorem sameData_stepBegun (s : State) (x : ReadyStep) : SameData s (stepBegun s x) := by
  obtain ⟨ps, q, cs, mx, begun⟩ := stepBegun_eq s x
  rw [begun]
  exact ⟨rfl, rfl, rfl, rfl, rfl, rfl⟩

theorem find?_setCmd (s : State) (i : Nat) (k : Cmd) : (setCmd s i k).e.cmds.find? i = some k := SMap.find?_ins_self ..

theorem accElem_setCmd (s : State) (i : Nat) (k : Cmd) (core n : Nat) (f64 : Bool) (e : Nat) :
    accElem (setCmd s i k) core n f64 e = accElem s core n f64 e := rfl

theorem SameData.stepValue {s t : State} (same : SameData s t) (k : Cmd) (n : Nat) (bs : Bool) (a b sc : List Byte) (e : Nat) :
    stepValue t k n bs a b sc e = stepValue s k n bs a b sc e := by
  simp only [Machine.stepValue, same.accElem]

section
variable {s : State} {x : ReadyStep} (steps : isSteps x.cmd = true)
include steps

theorem runStep_updates (rising : AccRising s) (tagged : stepMistagged s x.cmd = false) (whole : stepSpoilt s x.cmd = false) :
    (∃ k1, (runStep s x).e.cmds.find? x.id = some k1 ∧ k1.steps = x.cmd.steps + 1) ∧
      ∀ e, e < 4096 → accElem (runStep s x) x.cmd.core (stepArgs x.cmd).n (mxClass x.cmd.mode == .f64) e =
        (stepValue s x.cmd (stepArgs x.cmd).n (stepArgs x.cmd).bs (stepA s x.cmd) (stepB s x.cmd) (stepScale s x.cmd) e).1 %
          2 ^ elemBits (mxClass x.cmd.mode == .f64) := by
  rw [runStep_eq s x steps]
  simp only [tagged, whole, Bool.false_eq_true, if_false]
  refine ⟨⟨_, find?_setCmd .., rfl⟩, fun e small => ?_⟩
  have begun := sameData_stepBegun s x
  have rising' : AccRising (stepBegun s x) := (congrArg (·.risingFrom 0) begun.acc).trans rising
  rw [accElem_setCmd, accElem_stepAll rising' _ _ _ _ _ _ small, begun.stepValue]

theorem runStep_spoilt (tagged : stepMistagged s x.cmd = false) (spoilt : stepSpoilt s x.cmd = true) :
    ∃ k1, (runStep s x).e.cmds.find? x.id = some k1 ∧ k1.stepFail = true ∧ k1.cause = 7 ∧ k1.steps = x.cmd.steps := by
  rw [runStep_eq s x steps]
  simp only [tagged, spoilt, Bool.false_eq_true, if_false, if_true]
  exact ⟨_, find?_setCmd .., rfl, rfl, rfl⟩

theorem runStep_mistagged (mistagged : stepMistagged s x.cmd = true) : (runStep s x).e.acc = s.e.acc ∧
    ∃ k1, (runStep s x).e.cmds.find? x.id = some k1 ∧ k1.stepFail = true ∧ k1.cause = 5 ∧ k1.steps = x.cmd.steps := by
  rw [runStep_eq s x steps]
  simp only [mistagged, if_true]
  exact ⟨(sameData_stepBegun s x).acc, _, find?_setCmd .., rfl, rfl, rfl⟩

end

theorem stepMistagged_iff (s : State) (k : Cmd) : stepMistagged s k = true ↔ (stepArgs k).raw = false ∧
    ¬(slotTag s k.gang (stepArgs k).at_.1 = fmtTag (afmt k.mode) ∧ slotTag s k.gang (stepArgs k).at_.2.1 = fmtTag (bfmt k.mode) ∧
      ((stepArgs k).bs = true → slotTag s k.gang (stepArgs k).at_.2.2 = 0x40)) := by
  simp only [stepMistagged, Bool.and_eq_true, Bool.not_eq_true', Bool.or_eq_true, bne_iff_ne]
  tauto

theorem stepSpoilt_iff (s : State) (k : Cmd) : stepSpoilt s k = true ↔ lostTiles s k.core (mxTiles k) = true ∨
    lostRegion s k.gang (stepArgs k).at_.1 8192 = true ∨ lostRegion s k.gang (stepArgs k).at_.2.1 8192 = true ∨
      (stepArgs k).bs = true ∧ lostRegion s k.gang (stepArgs k).at_.2.2 512 = true := by
  simp only [stepSpoilt, Bool.and_eq_true, Bool.or_eq_true, or_assoc]

theorem SameData.stepMistagged {s t : State} (same : SameData s t) (k : Cmd) : stepMistagged t k = stepMistagged s k := by
  simp only [Machine.stepMistagged, same.slotTag]

theorem SameData.stepSpoilt {s t : State} (same : SameData s t) (k : Cmd) : stepSpoilt t k = stepSpoilt s k := by
  simp only [Machine.stepSpoilt, same.lostTiles, same.lostRegion]

/-! ### The step that is served (R255) -/

theorem servedBefore_iff (now : Nat) (x y : ReadyStep) : servedBefore now x y = true ↔
    (512 ≤ now - x.since ∧ (now - y.since < 512 ∨ now - y.since < now - x.since ∨
      now - y.since = now - x.since ∧ x.cmd.core < y.cmd.core)) ∨
    (now - x.since < 512 ∧ now - y.since < 512 ∧ (x.charge < y.charge ∨ x.charge = y.charge ∧ x.cmd.core < y.cmd.core)) := by
  unfold servedBefore
  dsimp only
  split
  · simp only [Bool.and_eq_true, Bool.or_eq_true, Bool.not_eq_true', decide_eq_true_eq, decide_eq_false_iff_not, beq_iff_eq]
    omega
  · simp only [Bool.and_eq_true, Bool.or_eq_true, decide_eq_true_eq, beq_iff_eq]
    omega

theorem servedBefore_irrefl (now : Nat) (x : ReadyStep) : servedBefore now x x = false := by
  rw [← Bool.not_eq_true, servedBefore_iff]
  omega

theorem servedBefore_trans {now : Nat} {x y z : ReadyStep} (first : servedBefore now x y = true) (second : servedBefore now y z = true) :
    servedBefore now x z = true := by
  rw [servedBefore_iff] at *
  omega

/-- What a fold that goes over to what comes before ends with: the start or what comes before it. -/
theorem foldl_start_or_before {α : Type} {before : α → α → Bool}
    (trans : ∀ x y z, before x y = true → before y z = true → before x z = true) (l : List α) (x : α) :
    l.foldl (fun b y => if before y b then y else b) x = x ∨ before (l.foldl (fun b y => if before y b then y else b) x) x = true := by
  induction l generalizing x with
  | nil => exact .inl rfl
  | cons z l ih =>
    rw [List.foldl_cons]
    cases earlier : before z x with
    | true =>
      simp only [if_true]
      rcases ih z with same | ahead
      · rw [same]
        exact .inr earlier
      · exact .inr (trans _ _ _ ahead earlier)
    | false => exact ih x

/-- Such a fold picks one that nothing comes before. -/
theorem foldl_earliest {α : Type} {before : α → α → Bool} (irrefl : ∀ x, before x x = false)
    (trans : ∀ x y z, before x y = true → before y z = true → before x z = true) (l : List α) (x : α) :
    l.foldl (fun b y => if before y b then y else b) x ∈ x :: l ∧
      ∀ y ∈ x :: l, before y (l.foldl (fun b y => if before y b then y else b) x) = false := by
  induction l generalizing x with
  | nil =>
    refine ⟨List.mem_cons_self, fun y hy => ?_⟩
    rw [List.mem_singleton.1 hy]
    exact irrefl x
  | cons z l ih =>
    rw [List.foldl_cons]
    have behind : ∀ b y, before y b = false → ∀ w, (w = b ∨ before w b = true) → before y w = false := by
      intro b y apart w reached
      rw [← Bool.not_eq_true] at apart ⊢
      rcases reached with rfl | ahead
      · exact apart
      · exact fun found => apart (trans _ _ _ found ahead)
    cases earlier : before z x with
    | true =>
      simp only [if_true]
      obtain ⟨mem, least⟩ := ih z
      refine ⟨List.mem_cons_of_mem _ mem, fun y hy => ?_⟩
      rcases List.mem_cons.1 hy with rfl | hy
      · refine behind z y ?_ _ (foldl_start_or_before trans l z)
        rw [← Bool.not_eq_true]
        intro back
        have cycle := trans _ _ _ earlier back
        rw [irrefl] at cycle
        cases cycle
      · exact least y hy
    | false =>
      simp only [Bool.false_eq_true, if_false]
      obtain ⟨mem, least⟩ := ih x
      refine ⟨List.cons_subset_cons x (List.subset_cons_self z l) mem, fun y hy => ?_⟩
      rcases List.mem_cons.1 hy with rfl | hy
      · exact least y List.mem_cons_self
      rcases List.mem_cons.1 hy with rfl | hy
      · exact behind x y earlier _ (foldl_start_or_before trans l x)
      · exact least y (List.mem_cons_of_mem _ hy)

/-- The steps of a cluster that may start. -/
abbrev readySteps (s : State) (cluster : Nat) : List ReadyStep := (List.range 96).filterMap (fun j => readyStep s (cluster * 96 + j))

/-- Each waits from the cycle noted. -/
def waitsNoted (s : State) (ready : List ReadyStep) : State :=
  ready.foldl (fun s x => updCmd s x.id (fun k => { k with since := some x.since })) s

theorem waitsNoted_eq (s : State) (ready : List ReadyStep) : ∃ cs, waitsNoted s ready = { s with e := { s.e with cmds := cs } } :=
  foldl_inv (fun t => ∃ cs, t = { s with e := { s.e with cmds := cs } }) _
    (fun t x h => by obtain ⟨cs, rfl⟩ := h; exact ⟨_, rfl⟩) s ready ⟨s.e.cmds, rfl⟩

/-- A cluster's pool pays a charge, which is counted. -/
def poolPays (s : State) (cluster charge : Nat) : State :=
  countCluster (setCluster s cluster { clusterAt s cluster with pool := (clusterAt s cluster).pool - charge }) cluster 39 charge

/-- Of the ready steps the one that no other is served before. -/
theorem exec_mxStepStart_serves {s : State} {cluster : Nat} (some : readySteps s cluster ≠ []) :
    ∃ w ∈ readySteps s cluster, (∀ y ∈ readySteps s cluster, servedBefore s.c.cycle y w = false) ∧
      exec (.mxStepStart cluster) s = .next (let s1 := waitsNoted s (readySteps s cluster)
        if (clusterAt s1 cluster).pool < w.charge then s1 else runStep (poolPays s1 cluster w.charge) w) := by
  have shape : exec (.mxStepStart cluster) s = execMxStepStart cluster s := rfl
  rw [shape]
  unfold execMxStepStart
  extract_lets ready s1 cl t
  have same : readySteps s cluster = ready := rfl
  have noted : t = s1 := rfl
  rw [same, noted]
  rw [same] at some
  clear_value t s1 ready
  rcases ready with _ | ⟨x, xs⟩
  · exact absurd rfl some
  · obtain ⟨mem, least⟩ := foldl_earliest (before := servedBefore s.c.cycle) (servedBefore_irrefl _) (fun _ _ _ => servedBefore_trans) xs x
    refine ⟨_, mem, least, ?_⟩
    dsimp only
    split
    · rfl
    · rfl

theorem clusterAt_setCluster (s : State) (cluster : Nat) (v : Cluster) : clusterAt (setCluster s cluster v) cluster = v := by
  simp [clusterAt, setCluster, SMap.getD, SMap.find?_ins_self]

theorem clusterAt_setCluster_ne (s : State) {cluster c : Nat} (v : Cluster) (other : c ≠ cluster) :
    clusterAt (setCluster s cluster v) c = clusterAt s c := by
  simp [clusterAt, setCluster, SMap.getD, SMap.find?_ins_ne _ _ other]

/-- What a step brings about: the accumulator as it was, but for every element updated; or the command has failed. -/
structure StepDone (s u : State) (x : ReadyStep) : Prop where
  updates : stepMistagged s x.cmd = false → stepSpoilt s x.cmd = false →
    (∃ k1, u.e.cmds.find? x.id = some k1 ∧ k1.steps = x.cmd.steps + 1) ∧
      ∀ e, e < 4096 → accElem u x.cmd.core (stepArgs x.cmd).n (mxClass x.cmd.mode == .f64) e =
        (stepValue s x.cmd (stepArgs x.cmd).n (stepArgs x.cmd).bs (stepA s x.cmd) (stepB s x.cmd) (stepScale s x.cmd) e).1 %
          2 ^ elemBits (mxClass x.cmd.mode == .f64)
  spoilt : stepMistagged s x.cmd = false → stepSpoilt s x.cmd = true →
    ∃ k1, u.e.cmds.find? x.id = some k1 ∧ k1.stepFail = true ∧ k1.cause = 7 ∧ k1.steps = x.cmd.steps
  mistagged : stepMistagged s x.cmd = true → u.e.acc = s.e.acc ∧
    ∃ k1, u.e.cmds.find? x.id = some k1 ∧ k1.stepFail = true ∧ k1.cause = 5 ∧ k1.steps = x.cmd.steps

theorem stepDone_runStep {s t : State} (same : SameData s t) (rising : AccRising s) {x : ReadyStep} (steps : isSteps x.cmd = true) :
    StepDone s (runStep t x) x where
  updates tagged whole := by
    obtain ⟨command, elems⟩ := runStep_updates (s := t) steps ((congrArg (·.risingFrom 0) same.acc).trans rising)
      ((same.stepMistagged x.cmd).trans tagged) ((same.stepSpoilt x.cmd).trans whole)
    refine ⟨command, fun e small => ?_⟩
    have value := elems e small
    simp only [stepA, stepB, stepScale, same.scrRegion, same.stepValue] at value
    exact value
  spoilt tagged spoilt := runStep_spoilt steps ((same.stepMistagged x.cmd).trans tagged) ((same.stepSpoilt x.cmd).trans spoilt)
  mistagged bad := by
    obtain ⟨acc, command⟩ := runStep_mistagged (s := t) steps ((same.stepMistagged x.cmd).trans bad)
    exact ⟨acc.trans same.acc, command⟩

theorem mxStepStart_steps {s : State} {cluster : Nat} (rising : AccRising s) (some : readySteps s cluster ≠ []) :
    ∃ w u, w ∈ readySteps s cluster ∧ (∀ y ∈ readySteps s cluster, servedBefore s.c.cycle y w = false) ∧
      exec (.mxStepStart cluster) s = .next u ∧ (u.m = s.m ∧ u.x = s.x) ∧ u.e.scr = s.e.scr ∧
      ((clusterAt s cluster).pool < w.charge → (clusterAt u cluster).pool = (clusterAt s cluster).pool ∧ u.e.acc = s.e.acc) ∧
      (w.charge ≤ (clusterAt s cluster).pool → (clusterAt u cluster).pool = (clusterAt s cluster).pool - w.charge ∧
        (isSteps w.cmd = true → StepDone s u w)) := by
  obtain ⟨w, mem, least, ran⟩ := exec_mxStepStart_serves some
  obtain ⟨cs, noted⟩ := waitsNoted_eq s (readySteps s cluster)
  have pool : clusterAt (waitsNoted s (readySteps s cluster)) cluster = clusterAt s cluster := by
    rw [noted]
    rfl
  dsimp only at ran
  rw [pool] at ran
  by_cases short : (clusterAt s cluster).pool < w.charge
  · rw [if_pos short] at ran
    refine ⟨w, _, mem, least, ran, ?_, ?_, fun _ => ⟨by rw [pool], ?_⟩, fun enough => absurd short (Nat.not_lt.2 enough)⟩
    · rw [noted]; exact ⟨rfl, rfl⟩
    · rw [noted]
    · rw [noted]
  · rw [if_neg short] at ran
    let t := poolPays (waitsNoted s (readySteps s cluster)) cluster w.charge
    have same : SameData s t ∧ t.m = s.m := by
      simp only [t, noted]
      exact ⟨⟨rfl, rfl, rfl, rfl, rfl, rfl⟩, rfl⟩
    have paid : (clusterAt t cluster).pool = (clusterAt s cluster).pool - w.charge := by
      have set := clusterAt_setCluster (waitsNoted s (readySteps s cluster)) cluster
        { clusterAt (waitsNoted s (readySteps s cluster)) cluster with
          pool := (clusterAt (waitsNoted s (readySteps s cluster)) cluster).pool - w.charge }
      rw [← pool]
      exact congrArg Cluster.pool set
    obtain ⟨n, ps, q, cs', mx, acc, lost, runs⟩ := stepOnly_runStep t w
    refine ⟨w, _, mem, least, ran, ?_, ?_, fun less => absurd less short, fun _ => ⟨?_, stepDone_runStep same.1 rising⟩⟩
    · exact ⟨(congrArg State.m runs).trans same.2, (congrArg State.x runs).trans same.1.exec⟩
    · exact (congrArg (fun u : State => u.e.scr) runs).trans same.1.scr
    · exact (congrArg (fun u : State => (clusterAt u cluster).pool) runs).trans paid

/-! ### The refill of a pool, and the exchange of a tile (R242, R255) -/

theorem budgetRefill_refills (s : State) (cluster : Nat) : ∃ u, exec (.budgetRefill cluster) s = .next u ∧ (u.m = s.m ∧ u.x = s.x) ∧
    u.e = s.e ∧ (clusterAt u cluster).pool = min 4096 ((clusterAt s cluster).pool + 48 * s.c.pkgLimit / 4500) ∧
      ∀ c, c ≠ cluster → clusterAt u c = clusterAt s c := by
  have shape : exec (.budgetRefill cluster) s = execBudgetRefill cluster s := rfl
  rw [shape]
  unfold execBudgetRefill
  extract_lets cl s1
  have counted : ∃ d, s1 = { s with d := d } := by
    simp only [s1]
    split <;> exact ⟨_, rfl⟩
  obtain ⟨d, counted⟩ := counted
  refine ⟨_, rfl, ⟨?_, ?_⟩, ?_, ?_, fun c other => ?_⟩
  · rw [counted]; rfl
  · rw [counted]; rfl
  · rw [counted]; rfl
  · rw [clusterAt_setCluster]
    rfl
  · rw [clusterAt_setCluster_ne _ _ other, counted]
    rfl

theorem mxAt_setMx (s : State) (core : Nat) (m : MxState) : mxAt (setMx s core m) core = m := by
  simp [mxAt, setMx, SMap.getD, SMap.find?_ins_self]

section
variable {s : State} {core tile : Nat} (small : tile < 8) (nDie : Config.dieKind (dieOfCore core) = 1)
include small nDie

theorem exec_accExchange_busy (busy : tileInUse s core ((tile + 4) % 8) = true) : exec (.accExchange core tile) s = .next s := by
  have shape : exec (.accExchange core tile) s = execAccExchange core tile s := rfl
  rw [shape, execAccExchange, if_neg (by simp [nDie]; omega), busy, Bool.or_true, if_pos rfl]

/-- The tile comes in, and its partner goes. -/
theorem accExchange_exchanges (four : (mxAt s core).swapped.length = 4) (idle : tileInUse s core ((tile + 4) % 8) = false) :
    ∃ u, exec (.accExchange core tile) s = .next u ∧ (u.m = s.m ∧ u.x = s.x) ∧ u.e.acc = s.e.acc ∧ u.e.scr = s.e.scr ∧
      tilePresent u core tile = true ∧ ∀ t, t < 8 → t % 4 ≠ tile % 4 → tilePresent u core t = tilePresent s core t := by
  have shape : exec (.accExchange core tile) s = execAccExchange core tile s := rfl
  rw [shape, execAccExchange, if_neg (by simp [nDie]; omega), idle, Bool.or_false]
  cases present : tilePresent s core tile with
  | true => exact ⟨s, rfl, ⟨rfl, rfl⟩, rfl, rfl, present, fun _ _ _ => rfl⟩
  | false =>
    simp only [Bool.false_eq_true, if_false]
    refine ⟨_, rfl, ⟨rfl, rfl⟩, rfl, rfl, ?_, fun t _ other => ?_⟩
    · simp [tilePresent, mxAt_setMx, nth, setNth, four, Nat.mod_lt]
    · simp [tilePresent, mxAt_setMx, nth, setNth, Ne.symm other]

end

end Sys2Proof.Machine
end

section
/-!
SUPPORT. O46: the completion of the matrix engine's commands (R242, R250, R253, R258, R260, R261).
-/
namespace Sys2Proof.Machine

/-! ### A command leaves -/

/-- Command `i`, which was `k`, has left: it holds no lock, its entries are filled with `st`, and what the matrix engine works on is as it
was. -/
structure MxDone (s u : State) (i : Nat) (k : Cmd) (st : BitVec 32) : Prop where
  gone : u.e.cmds.find? i = none
  unlocked : ∀ l ∈ u.e.locks, l.cmd ≠ i
  filled : ∀ e ∈ k.fills, isFilled u e = true ∧
    ((∀ j c, s.e.cmds.find? j = some c → j ≠ i → e ∉ c.fills) → (entryAt u e).status = st)
  memory : u.m.mem = s.m.mem
  exec : u.x = s.x
  acc : u.e.acc = s.e.acc
  scr : u.e.scr = s.e.scr
  mx : u.e.mx = s.e.mx
  chunks : u.e.chunks = s.e.chunks
  tags : u.e.tags = s.e.tags

theorem mxFinish_eq (s : State) (i : Nat) (k : Cmd) (st : BitVec 32) :
    mxFinish s i k st = cmdDone (dropLocks s i) i k { statusEntry st with wrote := coreFrames s k.core i } := rfl

theorem mxFinish_done {s : State} {i : Nat} {k : Cmd} (st : BitVec 32) (rising : s.e.cmds.risingFrom 0 = true) :
    MxDone s (mxFinish s i k st) i k st := by
  rw [mxFinish_eq]
  obtain ⟨gone, filled⟩ := cmdDone_spec (s := dropLocks s i) (i := i) (k := k) { statusEntry st with wrote := coreFrames s k.core i } rising
  obtain ⟨_, _, _, _, _, only⟩ := tokensOnly_cmdDone (dropLocks s i) i k { statusEntry st with wrote := coreFrames s k.core i }
  rw [only] at gone filled ⊢
  refine ⟨gone, fun l mem => ?_, filled, rfl, rfl, rfl, rfl, rfl, rfl, rfl⟩
  have kept := (List.mem_filter.1 (show l ∈ s.e.locks.filter (fun l => l.cmd != i) from mem)).2
  simpa using kept

/-- From `s` to `t` command `i` has been readied to leave: memory, threads and every other command are as they were. -/
structure Readied (s t : State) (i : Nat) : Prop where
  memory : t.m = s.m
  exec : t.x = s.x
  rising : t.e.cmds.risingFrom 0 = true
  others : ∀ j, j ≠ i → t.e.cmds.find? j = s.e.cmds.find? j

theorem Readied.step {s t u : State} {i : Nat} (readied : Readied s t i) (memory : u.m = t.m) (exec : u.x = t.x)
    (cmds : u.e.cmds = t.e.cmds) : Readied s u i :=
  ⟨memory.trans readied.memory, exec.trans readied.exec, cmds ▸ readied.rising, fun j hj => cmds ▸ readied.others j hj⟩

/-- Only the tiles of the matrix engine change. -/
def TilesOnly (s t : State) : Prop := ∃ mx acc lost, t = { s with e := { s.e with mx := mx, acc := acc, lostAcc := lost } }

theorem Readied.tiles {s t u : State} {i : Nat} (readied : Readied s t i) (only : TilesOnly t u) : Readied s u i := by
  obtain ⟨mx, acc, lost, rfl⟩ := only
  exact readied.step rfl rfl rfl

/-- What is left of `s` when a readied command leaves. -/
theorem Readied.finish {s t : State} {i : Nat} (readied : Readied s t i) (k : Cmd) (st : BitVec 32) :
    MxDone t (mxFinish t i k st) i k st ∧ (mxFinish t i k st).m.mem = s.m.mem ∧ (mxFinish t i k st).x = s.x ∧
      ∀ e ∈ k.fills, isFilled (mxFinish t i k st) e = true ∧
        ((∀ j c, s.e.cmds.find? j = some c → j ≠ i → e ∉ c.fills) → (entryAt (mxFinish t i k st) e).status = st) := by
  have done := mxFinish_done (k := k) (i := i) st readied.rising
  refine ⟨done, done.memory.trans (congrArg MemSys.mem readied.memory), done.exec.trans readied.exec, fun e mem => ?_⟩
  obtain ⟨filled, status⟩ := done.filled e mem
  exact ⟨filled, fun alone => status fun j c found other => alone j c (readied.others j other ▸ found) other⟩

theorem readied_mxStart {s : State} (rising : s.e.cmds.risingFrom 0 = true) (core i : Nat) (k : Cmd) :
    Readied s (mxStart s core i k) i ∧ SameData s (mxStart s core i k) ∧ (mxStart s core i k).e.mx = s.e.mx ∧
      (mxStart s core i k).e.chunks = s.e.chunks := by
  obtain ⟨ps, q, started⟩ := mxStart_eq s core i k
  rw [started]
  exact ⟨⟨rfl, rfl, SMap.risingFrom_ins _ _ rising (Nat.zero_le i), fun j other => SMap.find?_ins_ne _ _ other⟩,
    ⟨rfl, rfl, rfl, rfl, rfl, rfl⟩, rfl, rfl⟩

/-- The completion of a command, in the shape in which it is claimed. -/
def Completes (s : State) (core i : Nat) (k : Cmd) (st : BitVec 32) (ok : State → Prop) : Prop :=
  ∃ u, exec (.mxCommandComplete core i) s = .next u ∧ u.m.mem = s.m.mem ∧ u.x = s.x ∧
    (u.e.cmds.find? i = none ∧ (∀ l ∈ u.e.locks, l.cmd ≠ i) ∧ ∀ e ∈ k.fills, isFilled u e = true ∧
      ((∀ j c, s.e.cmds.find? j = some c → j ≠ i → e ∉ c.fills) → (entryAt u e).status = st)) ∧ ok u

theorem completes_of_finish {s t : State} {core i : Nat} {k : Cmd} {st : BitVec 32} {ok : State → Prop}
    (ran : exec (.mxCommandComplete core i) s = .next (mxFinish t i k st)) (readied : Readied s t i)
    (holds : ∀ u, MxDone t u i k st → ok u) : Completes s core i k st ok := by
  obtain ⟨done, memory, exec, filled⟩ := readied.finish k st
  exact ⟨_, ran, memory, exec, ⟨done.gone, done.unlocked, filled⟩, holds _ done⟩

/-! ### Step counts (R261) -/

/-- Only the MX state of cores changes. -/
def MxOnly (s t : State) : Prop := ∃ mx, t = { s with e := { s.e with mx := mx } }

theorem mxOnly_setStepCounts (s : State) (core n : Nat) (ts : List Nat) : MxOnly s (ts.foldl (fun s t => setStepCount s core t n) s) :=
  foldl_inv (MxOnly s) _ (fun t x h => by obtain ⟨mx, rfl⟩ := h; exact ⟨_, rfl⟩) s ts ⟨s.e.mx, rfl⟩

theorem stepCount_word (n w : Nat) : (BitVec.ofNat 32 (n % 65536 * 65536 + w % 65536)).toNat / 65536 = n % 65536 := by
  rw [BitVec.toNat_ofNat, Nat.mod_eq_of_lt (by omega)]
  omega

/-- A flag word takes the step count. -/
theorem flagw_setStepCount (s : State) (core t n x : Nat) (known : x < (mxAt s core).flagw.length) :
    x < (mxAt (setStepCount s core t n) core).flagw.length ∧
      (x = t → (nth (mxAt (setStepCount s core t n) core).flagw 0 x).toNat / 65536 = n % 65536) ∧
      (x ≠ t → nth (mxAt (setStepCount s core t n) core).flagw 0 x = nth (mxAt s core).flagw 0 x) := by
  unfold setStepCount
  simp only [mxAt_setMx]
  refine ⟨by simpa [setNth] using known, fun same => ?_, fun other => ?_⟩
  · subst same
    have held : nth (setNth (mxAt s core).flagw x (BitVec.ofNat 32 (n % 65536 * 65536 + (nth (mxAt s core).flagw 0 x).toNat % 65536))) 0 x =
        BitVec.ofNat 32 (n % 65536 * 65536 + (nth (mxAt s core).flagw 0 x).toNat % 65536) := by
      simp [nth, setNth, known]
    rw [held]
    exact stepCount_word n _
  · simp [nth, setNth, Ne.symm other]

theorem flagw_setStepCounts (s : State) (core n : Nat) {ts : List Nat} {x : Nat} (mem : x ∈ ts) (known : x < (mxAt s core).flagw.length) :
    (nth (mxAt (ts.foldl (fun s t => setStepCount s core t n) s) core).flagw 0 x).toNat / 65536 = n % 65536 :=
  (foldl_reaches (Q := fun u => x < (mxAt u core).flagw.length)
    (P := fun u => x < (mxAt u core).flagw.length ∧ (nth (mxAt u core).flagw 0 x).toNat / 65536 = n % 65536)
    (fun u t h => (flagw_setStepCount u core t n x h).1)
    (fun u t h => by
      obtain ⟨known, counted, kept⟩ := flagw_setStepCount u core t n x h.1
      refine ⟨known, ?_⟩
      by_cases same : x = t
      · exact counted same
      · rw [kept same]
        exact h.2)
    (fun u h => ⟨(flagw_setStepCount u core x n x h).1, (flagw_setStepCount u core x n x h).2.1 rfl⟩) mem known).2

/-! ### Words that are written whole (R258) -/

/-- Every word of a tile that is written whole takes its value. -/
theorem accWord_writtenWhole {s : State} (rising : AccRising s) (core n : Nat) (val : Nat → Nat) {es : List Nat} {e : Nat} (mem : e ∈ es) :
    accWord (es.foldl (fun t e => setAccWord t core n e (val e)) s) core n e = val e % 2 ^ 32 :=
  accElem_foldl rising core n false val mem

theorem accOnly_foldl {β : Type} (s : State) (core : Nat) (tile word val : β → Nat) (xs : List β) :
    AccOnly s (xs.foldl (fun t x => setAccWord t core (tile x) (word x) (val x)) s) :=
  foldl_inv (AccOnly s) _ (fun _ x only => accOnly_setAccWord only core (tile x) (word x) (val x)) s xs ⟨s.e.acc, rfl⟩

/-- What a load writes: the words of its tiles, over the state whose flags are cleared and errors gone. -/
theorem mxLoad_eq (s : State) (k : Cmd) (n : Nat) (f64 : Bool) (src : BitVec 32) : mxLoad s k n f64 src =
    (List.range (if f64 = true then 8192 else 4096)).foldl (fun t x => setTileWord t k.core n x
      (leNat (((scrRegion s k.gang src (if f64 = true then 32768 else 16384)).drop (4 * x)).take 4)))
      (renewTiles (clearTileFlags s k.core (mxTiles k)) k.core (mxTiles k)) := by
  cases f64 <;> rfl

theorem leNat_word_lt (bs : List Byte) (x : Nat) : leNat ((bs.drop (4 * x)).take 4) < 2 ^ 32 := by
  have bound := leNat_lt ((bs.drop (4 * x)).take 4)
  have short : ((bs.drop (4 * x)).take 4).length ≤ 4 := List.length_take_le _ _
  calc leNat ((bs.drop (4 * x)).take 4) < 256 ^ ((bs.drop (4 * x)).take 4).length := bound
    _ ≤ 256 ^ 4 := Nat.pow_le_pow_right (by decide) short

/-- Every word of a loaded tile is its word of the region. -/
theorem tileWord_mxLoad {s : State} (rising : AccRising s) (k : Cmd) (n : Nat) (f64 : Bool) (src : BitVec 32) {x : Nat}
    (small : x < if f64 = true then 8192 else 4096) : tileWord (mxLoad s k n f64 src) k.core n x =
      leNat (((scrRegion s k.gang src (if f64 = true then 32768 else 16384)).drop (4 * x)).take 4) := by
  rw [mxLoad_eq, tileWord_foldl (s := renewTiles (clearTileFlags s k.core (mxTiles k)) k.core (mxTiles k)) rising k.core n _
    (List.mem_range.2 small), Nat.mod_eq_of_lt (leNat_word_lt _ x)]

/-- A load changes the accumulators, their errors and their flags. -/
theorem mxLoad_only (s : State) (k : Cmd) (n : Nat) (f64 : Bool) (src : BitVec 32) : TilesOnly s (mxLoad s k n f64 src) := by
  rw [mxLoad_eq]
  obtain ⟨acc, only⟩ := accOnly_foldl (renewTiles (clearTileFlags s k.core (mxTiles k)) k.core (mxTiles k)) k.core (fun x => n + x / 4096)
    (· % 4096) (fun x => leNat (((scrRegion s k.gang src (if f64 = true then 32768 else 16384)).drop (4 * x)).take 4))
    (List.range (if f64 = true then 8192 else 4096))
  exact ⟨_, acc, _, only⟩

/-- Clearing a tile changes the accumulators, their errors and their flags. -/
theorem zeroTile_only (s : State) (core n : Nat) (es : List Nat) :
    TilesOnly s (clearTileFlags (es.foldl (fun t e => setAccWord t core n e 0) (renewTiles s core [n])) core [n]) := by
  obtain ⟨acc, only⟩ := accOnly_foldl (renewTiles s core [n]) core (fun _ => n) (fun e => e) (fun _ => 0) es
  rw [only]
  exact ⟨_, acc, _, rfl⟩

theorem accWord_zeroTile {s : State} (rising : AccRising s) (core n : Nat) {es : List Nat} {e : Nat} (mem : e ∈ es) :
    accWord (clearTileFlags (es.foldl (fun t e => setAccWord t core n e 0) (renewTiles s core [n])) core [n]) core n e = 0 :=
  accWord_writtenWhole (s := renewTiles s core [n]) rising core n (fun _ => 0) mem

/-! ### Each command -/

section
variable {s : State} {core i : Nat} {k : Cmd} (found : s.e.cmds.find? i = some k) (engine : k.engine = 3) (own : k.core = core)
include found engine own

/-- The status of a command that has completed, or failed. -/
abbrev goodStatus : BitVec 32 := statusWord false 0 0
abbrev failedStatus (cause : Nat) : BitVec 32 := statusWord true cause 0xFFFFFF

theorem exec_mxComplete_steps (steps : isSteps k = true) {cnt : Nat}
    (count : ∀ n raw bs a b sc c da db dsc, k.body = .mxSteps n raw bs a b sc c da db dsc → c = cnt)
    (idle : (mxAt s core).busy ≤ s.c.cycle) (moves : core ∉ s.d.frozen) (past : k.stepFail = true ∨ cnt ≤ k.steps) :
    exec (.mxCommandComplete core i) s = .next (mxFinish ((mxTiles k).foldl (fun s t => setStepCount s core t k.steps) s) i k
      (if k.stepFail then failedStatus k.cause else goodStatus)) := by
  have shape : exec (.mxCommandComplete core i) s = execMxCommandComplete core i s := rfl
  have agent : ¬(k.engine ≠ 3 ∨ k.core ≠ core) := by simp [engine, own]
  have thawed : frozenCore s core = false := by simpa [frozenCore] using moves
  rw [shape, execMxCommandComplete, found]
  simp only [if_neg agent]
  unfold isSteps at steps
  split at steps
  · next n raw bs a b sc c da db dsc body =>
    obtain rfl := count _ _ _ _ _ _ _ _ _ _ body
    have waits : (!k.stepFail && decide (k.steps < c)) = false := by
      rcases past with failed | counted
      · simp [failed]
      · simp [Nat.not_lt.2 counted]
    simp only [waits, thawed, Nat.not_lt.2 idle, decide_false, Bool.or_false, Bool.false_eq_true, if_false]
  · cases steps

/-- A step command leaves its count in the flag words of its tiles. -/
theorem mxSteps_completes (rising : s.e.cmds.risingFrom 0 = true) (steps : isSteps k = true) {cnt : Nat}
    (count : ∀ n raw bs a b sc c da db dsc, k.body = .mxSteps n raw bs a b sc c da db dsc → c = cnt)
    (idle : (mxAt s core).busy ≤ s.c.cycle) (moves : core ∉ s.d.frozen) (past : k.stepFail = true ∨ cnt ≤ k.steps) :
    Completes s core i k (if k.stepFail = true then failedStatus k.cause else goodStatus) (fun u => u.e.scr = s.e.scr ∧ u.e.acc = s.e.acc ∧
      ∀ t ∈ mxTiles k, t < (mxAt s core).flagw.length → (nth (mxAt u core).flagw 0 t).toNat / 65536 = k.steps % 65536) := by
  obtain ⟨mx, only⟩ := mxOnly_setStepCounts s core k.steps (mxTiles k)
  refine completes_of_finish (exec_mxComplete_steps found engine own steps count idle moves past) ?_ fun u done => ⟨?_, ?_, fun t mem known => ?_⟩
  · rw [only]
    exact ⟨rfl, rfl, rising, fun _ _ => rfl⟩
  · exact done.scr.trans (by rw [only])
  · exact done.acc.trans (by rw [only])
  · have flags : mxAt u core = mxAt ((mxTiles k).foldl (fun s t => setStepCount s core t k.steps) s) core :=
      congrArg (fun m : SMap MxState => m.getD mxZero core) done.mx
    rw [flags]
    exact flagw_setStepCounts s core k.steps mem known

variable (may : mxMayStart s i k = true)
include may

theorem exec_mxComplete_zero {n : Nat} (body : k.body = .mxZero n) : exec (.mxCommandComplete core i) s =
    .next (mxFinish (clearTileFlags ((List.range 4096).foldl (fun t e => setAccWord t core n e 0)
      (renewTiles (mxStart s core i k) core [n])) core [n]) i k goodStatus) := by
  have shape : exec (.mxCommandComplete core i) s = execMxCommandComplete core i s := rfl
  have agent : ¬(k.engine ≠ 3 ∨ k.core ≠ core) := by simp [engine, own]
  rw [shape, execMxCommandComplete, found]
  simp only [if_neg agent, body, may, Bool.not_true, Bool.false_eq_true, if_false]

theorem exec_mxComplete_mode {w seed : Word} (body : k.body = .mxMode w seed) : exec (.mxCommandComplete core i) s =
    .next (mxFinish (setMx (mxStart s core i k) core { mxAt (mxStart s core i k) core with mode := w, seed := seed }) i k goodStatus) := by
  have shape : exec (.mxCommandComplete core i) s = execMxCommandComplete core i s := rfl
  have agent : ¬(k.engine ≠ 3 ∨ k.core ≠ core) := by simp [engine, own]
  rw [shape, execMxCommandComplete, found]
  simp only [if_neg agent, body, may, Bool.not_true, Bool.false_eq_true, if_false]

theorem exec_mxComplete_store {n : Nat} {f64 : Bool} {dst : BitVec 32} (body : k.body = .mxStore n f64 dst) :
    exec (.mxCommandComplete core i) s = .next (mxFinish (mxStoreAll (mxStart s core i k) k n f64 dst) i k (storeStatus s k n f64)) := by
  have shape : exec (.mxCommandComplete core i) s = execMxCommandComplete core i s := rfl
  have agent : ¬(k.engine ≠ 3 ∨ k.core ≠ core) := by simp [engine, own]
  rw [shape, execMxCommandComplete, found]
  simp only [if_neg agent, body, may, Bool.not_true, Bool.false_eq_true, if_false]

/-- A slot that an `mx.ld` reads has another tag than it wants. -/
def loadMistagged (s : State) (gang : Nat) (f64 raw : Bool) (src : BitVec 32) : Bool :=
  !raw && ((List.range (if f64 then 4 else 2)).map (fun j => src + BitVec.ofNat 32 (8192 * j))).any
    (fun a => slotTag s gang a != if f64 then 0x13 else 0x12)

/-- A loaded tile, or what a load that fails leaves. -/
theorem exec_mxComplete_ld {n : Nat} {f64 raw : Bool} {src : BitVec 32} (body : k.body = .mxLd n f64 raw src) :
    (loadMistagged s k.gang f64 raw src = true →
      exec (.mxCommandComplete core i) s = .next (mxFinish (mxStart s core i k) i k (failedStatus 5))) ∧
    (loadMistagged s k.gang f64 raw src = false → lostRegion s k.gang src (if f64 = true then 32768 else 16384) = true →
      exec (.mxCommandComplete core i) s = .next (mxFinish (undefTiles (mxStart s core i k) core (mxTiles k)) i k (failedStatus 7))) ∧
    (loadMistagged s k.gang f64 raw src = false → lostRegion s k.gang src (if f64 = true then 32768 else 16384) = false →
      exec (.mxCommandComplete core i) s = .next (mxFinish (mxLoad (mxStart s core i k) k n f64 src) i k goodStatus)) := by
  have shape : exec (.mxCommandComplete core i) s = execMxCommandComplete core i s := rfl
  have agent : ¬(k.engine ≠ 3 ∨ k.core ≠ core) := by simp [engine, own]
  rw [shape, execMxCommandComplete, found]
  simp only [if_neg agent, body, may, Bool.not_true, Bool.false_eq_true, if_false]
  refine ⟨fun mistagged => if_pos mistagged, fun tagged lost => ?_, fun tagged whole => ?_⟩
  · exact (if_neg (Bool.not_eq_true _ ▸ tagged)).trans (if_pos lost)
  · exact (if_neg (Bool.not_eq_true _ ▸ tagged)).trans (if_neg (Bool.not_eq_true _ ▸ whole))

/-- A zeroed tile. -/
theorem mxZero_completes (rising : s.e.cmds.risingFrom 0 = true) (accRising : AccRising s) {n : Nat} (body : k.body = .mxZero n) :
    Completes s core i k goodStatus (fun u => ∀ e, e < 4096 → accWord u core n e = 0) := by
  obtain ⟨readied, same, -, -⟩ := readied_mxStart rising core i k
  have ran := exec_mxComplete_zero found engine own may body
  have all : ∀ e, e < 4096 → e ∈ List.range 4096 := fun e small => List.mem_range.2 small
  generalize List.range 4096 = es at ran all
  refine completes_of_finish ran (readied.tiles (zeroTile_only _ core n es)) fun u done e small => ?_
  have written := accWord_zeroTile ((congrArg (·.risingFrom 0) same.acc).trans accRising) core n (all e small)
  exact (congrArg (fun m : SMap (BitVec 32) => (m.getD 0 (accKey core n e)).toNat) done.acc).trans written

/-- A mode that is set. -/
theorem mxMode_completes (rising : s.e.cmds.risingFrom 0 = true) {w seed : Word} (body : k.body = .mxMode w seed) :
    Completes s core i k goodStatus (fun u => (mxAt u core).mode = w ∧ (mxAt u core).seed = seed) := by
  obtain ⟨readied, -, -, -⟩ := readied_mxStart rising core i k
  refine completes_of_finish (exec_mxComplete_mode found engine own may body) (readied.step rfl rfl rfl) fun u done => ?_
  have set : mxAt u core = { mxAt (mxStart s core i k) core with mode := w, seed := seed } :=
    (congrArg (fun m : SMap MxState => m.getD mxZero core) done.mx).trans (mxAt_setMx _ core _)
  rw [set]
  exact ⟨rfl, rfl⟩

/-- A loaded tile. -/
theorem mxLd_completes (rising : s.e.cmds.risingFrom 0 = true) (accRising : AccRising s) {n : Nat} {f64 raw : Bool} {src : BitVec 32}
    (body : k.body = .mxLd n f64 raw src) (tagged : loadMistagged s k.gang f64 raw src = false)
    (whole : lostRegion s k.gang src (if f64 = true then 32768 else 16384) = false) :
    Completes s core i k goodStatus (fun u => ∀ x, x < (if f64 = true then 8192 else 4096) → accWord u core (n + x / 4096) (x % 4096) =
      leNat (((scrRegion s k.gang src (if f64 = true then 32768 else 16384)).drop (4 * x)).take 4)) := by
  obtain ⟨readied, same, -, -⟩ := readied_mxStart rising core i k
  refine completes_of_finish ((exec_mxComplete_ld found engine own may body).2.2 tagged whole)
    (readied.tiles (mxLoad_only _ k n f64 src)) fun u done x small => ?_
  have loaded := tileWord_mxLoad (s := mxStart s core i k) ((congrArg (·.risingFrom 0) same.acc).trans accRising) k n f64 src small
  rw [same.scrRegion, own] at loaded
  exact (congrArg (fun m : SMap (BitVec 32) => (m.getD 0 (accKey core (n + x / 4096) (x % 4096))).toNat) done.acc).trans loaded

/-- A load that meets an uncorrectable error. -/
theorem mxLd_spoilt (rising : s.e.cmds.risingFrom 0 = true) {n : Nat} {f64 raw : Bool} {src : BitVec 32}
    (body : k.body = .mxLd n f64 raw src) (tagged : loadMistagged s k.gang f64 raw src = false)
    (lost : lostRegion s k.gang src (if f64 = true then 32768 else 16384) = true) :
    Completes s core i k (failedStatus 7) (fun u => u.e.scr = s.e.scr) := by
  obtain ⟨readied, same, -, -⟩ := readied_mxStart rising core i k
  obtain ⟨fresh, acc, lostAcc, only⟩ := undefTiles_eq (mxStart s core i k) core (mxTiles k)
  refine completes_of_finish ((exec_mxComplete_ld found engine own may body).2.1 tagged lost) ?_ fun u done => done.scr.trans ?_
  · rw [only]
    exact readied.step rfl rfl rfl
  · rw [only]
    exact same.scr

/-- A load from a slot with another tag. -/
theorem mxLd_mistagged (rising : s.e.cmds.risingFrom 0 = true) {n : Nat} {f64 raw : Bool} {src : BitVec 32}
    (body : k.body = .mxLd n f64 raw src) (mistagged : loadMistagged s k.gang f64 raw src = true) :
    Completes s core i k (failedStatus 5) (fun u => u.e.acc = s.e.acc) := by
  obtain ⟨readied, same, -, -⟩ := readied_mxStart rising core i k
  exact completes_of_finish ((exec_mxComplete_ld found engine own may body).1 mistagged) readied fun u done => done.acc.trans same.acc

end

end Sys2Proof.Machine
end

section
/-!
SUPPORT. O46: stored tiles (R250, R252, R253, R260), and the obligation.
-/
namespace Sys2Proof.Machine

/-! ### One element is written -/

/-- A watchpoint's hit is noted in the debug state and on the agenda. -/
def NoticesOnly (s t : State) : Prop := ∃ d agenda, t = { s with d := d, c := { s.c with agenda := agenda } }

theorem noticesOnly_hitOne {s t : State} (only : NoticesOnly s t) (cluster widx kind : Nat) (w : Watchpoint) (who : Party) (before after : Word) :
    NoticesOnly s (hitOne t cluster widx kind w who before after) := by
  obtain ⟨d, agenda, rfl⟩ := only
  unfold hitOne
  dsimp only
  split <;> exact ⟨_, _, rfl⟩

theorem noticesOnly_noteWatch (s : State) (who : Party) (kind : Nat) (l : Loc) (before : Word) :
    NoticesOnly s (noteWatch s who kind l before) :=
  foldl_inv (NoticesOnly s) _ (fun t w only => by
    split
    · exact noticesOnly_hitOne only _ _ _ _ _ _ _
    · exact only) s s.d.watches ⟨_, _, rfl⟩

/-- What a store of elements may change: scratchpads and their errors, and watchpoint hits. -/
def ElementsOnly (s t : State) : Prop := ∃ d agenda scr lost,
  t = { s with d := d, c := { s.c with agenda := agenda }, e := { s.e with scr := scr, lostScr := lost } }

theorem engineWrite_scr (s : State) (core hc pa n : Nat) (v : Word) :
    ElementsOnly s (engineWrite s core (.scr hc pa) n v) ∧ (engineWrite s core (.scr hc pa) n v).e.scr = (scrWrite s hc pa n v.toNat).e.scr := by
  obtain ⟨d, agenda, only⟩ := noticesOnly_noteWatch (scrWrite s hc pa n v.toNat) (.engine core 2) 2 (.scr hc pa) (homeWord s (.scr hc pa))
  have shape : engineWrite s core (.scr hc pa) n v = _ := only
  rw [shape]
  exact ⟨⟨_, _, _, _, rfl⟩, rfl⟩

theorem ElementsOnly.trans {s t u : State} (first : ElementsOnly s t) (second : ElementsOnly t u) : ElementsOnly s u := by
  obtain ⟨_, _, _, _, rfl⟩ := first
  obtain ⟨_, _, _, _, rfl⟩ := second
  exact ⟨_, _, _, _, rfl⟩

/-- Elements that hold no error are written one after another. -/
def storeElems (lost : Nat → Bool) (val : Nat → Word) (core hc pa size : Nat) (es : List Nat) (s : State) : State :=
  es.foldl (fun t e => if lost e then t else engineWrite t core (.scr hc (pa + e * size)) size (val e)) s

section
variable (lost : Nat → Bool) (val : Nat → Word) (core hc pa size : Nat)

theorem elementsOnly_storeElems (es : List Nat) (s : State) : ElementsOnly s (storeElems lost val core hc pa size es s) :=
  foldl_inv (ElementsOnly s) _ (fun t e only => by
    split
    · exact only
    · exact only.trans (engineWrite_scr ..).1) s es ⟨_, _, _, _, rfl⟩

/-- Different elements do not meet. -/
theorem elements_apart {e e' : Nat} (other : e ≠ e') : pa + e * size + size ≤ pa + e' * size ∨ pa + e' * size + size ≤ pa + e * size := by
  rcases Nat.lt_or_gt_of_ne other with less | less
  · have step := Nat.mul_le_mul_right size (Nat.succ_le_of_lt less)
    rw [Nat.succ_mul] at step
    exact .inl (by omega)
  · have step := Nat.mul_le_mul_right size (Nat.succ_le_of_lt less)
    rw [Nat.succ_mul] at step
    exact .inr (by omega)

theorem scrRead_storeElems {es : List Nat} {e : Nat} (mem : e ∈ es) (whole : lost e = false) {s : State} (wf : SMap.wf 0 s.e.scr = true) :
    scrRead (storeElems lost val core hc pa size es s) hc (pa + e * size) size = (val e).toNat % 256 ^ size := by
  have written : ∀ t x, SMap.wf 0 t.e.scr = true → SMap.wf 0 (engineWrite t core (.scr hc (pa + x * size)) size (val x)).e.scr = true := by
    intro t x h
    rw [(engineWrite_scr ..).2]
    exact scrWf_scrWrite _ _ _ _ h
  have reads : ∀ t x, scrRead (engineWrite t core (.scr hc (pa + x * size)) size (val x)) hc (pa + e * size) size =
      scrRead (scrWrite t hc (pa + x * size) size (val x).toNat) hc (pa + e * size) size := by
    intro t x
    simp only [scrRead, scrBytes, (engineWrite_scr ..).2]
  refine (foldl_reaches (Q := fun t => SMap.wf 0 t.e.scr = true)
    (P := fun t => SMap.wf 0 t.e.scr = true ∧ scrRead t hc (pa + e * size) size = (val e).toNat % 256 ^ size)
    (fun t x h => ?_) (fun t x h => ?_) (fun t h => ?_) mem wf).2
  · split
    · exact h
    · exact written t x h
  · split
    · exact h
    · refine ⟨written t x h.1, (reads t x).trans ?_⟩
      by_cases same : e = x
      · subst same
        exact scrRead_scrWrite hc _ size _ h.1
      · exact (scrRead_scrWrite_ne t _ (elements_apart pa size same)).trans h.2
  · rw [whole]
    exact ⟨written t e h, (reads t e).trans (scrRead_scrWrite hc _ size _ h)⟩

end

/-! ### The chunks and slots of a store -/

/-- What a slot's key holds after tags have been set. -/
theorem getD_setTags {s : State} (core slot : Nat) (t : Byte) (n k : Nat) (h : SMap.wf 0 s.e.tags = true) :
    (setTags s core slot t n).e.tags.getD 0 k = if core * 32 + slot ≤ k ∧ k < core * 32 + slot + n then t else s.e.tags.getD 0 k := by
  induction n generalizing s slot with
  | zero => rw [if_neg (by omega)]; rfl
  | succ n ih =>
    have one : (setTag s core slot t).e.tags = s.e.tags.putD 0 (core * 32 + slot) t := rfl
    rw [setTags, ih (slot + 1) (SMap.wf_putD _ _ h), one]
    by_cases first : k = core * 32 + slot
    · subst first
      rw [if_neg (by omega), if_pos (by omega), SMap.getD_putD_self _ _ h]
    · rw [SMap.getD_putD_ne _ _ _ first]
      congr 1
      exact propext (by omega)

theorem setTags_eq (s : State) (core slot : Nat) (t : Byte) (n : Nat) :
    ∃ tags, setTags s core slot t n = { s with e := { s.e with tags := tags } } := by
  induction n generalizing s slot with
  | zero => exact ⟨_, rfl⟩
  | succ n ih =>
    obtain ⟨tags, rest⟩ := ih (setTag s core slot t) (slot + 1)
    exact ⟨tags, rest⟩

/-- Only chunks change. -/
def ChunksOnly (s t : State) : Prop := ∃ chunks, t = { s with e := { s.e with chunks := chunks } }

/-- Chunks of a destination fail. -/
def failChunks (core lo : Nat) (cs : List Nat) (s : State) : State := cs.foldl (fun s c => setChunk s core (lo + c) .failed) s

theorem chunksOnly_failChunks (core lo : Nat) (cs : List Nat) (s : State) : ChunksOnly s (failChunks core lo cs s) :=
  foldl_inv (ChunksOnly s) _ (fun t c only => by obtain ⟨chunks, rfl⟩ := only; exact ⟨_, rfl⟩) s cs ⟨_, rfl⟩

theorem chunkAt_failChunks {s : State} (core lo : Nat) (cs : List Nat) (c : Nat) (wf : ChunksWf s) :
    chunkAt (failChunks core lo cs s) core (lo + c) = if c ∈ cs then .failed else chunkAt s core (lo + c) := by
  unfold failChunks
  induction cs generalizing s with
  | nil => rfl
  | cons x cs ih =>
    rw [List.foldl_cons, ih (setChunk_wf core (lo + x) .failed wf)]
    by_cases same : c = x
    · subst same
      have failed : chunkAt (setChunk s core (lo + c) .failed) core (lo + c) = .failed := by
        rw [chunkAt, setChunk_e_chunks, SMap.getD_putD_self _ _ wf]
      rw [failed, if_pos List.mem_cons_self, ite_self]
    · have kept : chunkAt (setChunk s core (lo + x) .failed) core (lo + c) = chunkAt s core (lo + c) := by
        rw [chunkAt, setChunk_e_chunks, SMap.getD_putD_ne _ _ _ (by omega), chunkAt]
      rw [kept]
      simp [same]

/-! ### A stored tile -/

/-- The value stored for an element. -/
def storedValue (s : State) (k : Cmd) (n : Nat) (f64 : Bool) (e : Nat) : Nat × Flags :=
  (fmtOf (sfmtTy k.mode)).convert (if f64 = true then fmtF64 else fmtF32) (storeRnd k e) (k.mode.getLsbD 23) (accElem s k.core n f64 e)

/-- The elements of a store, one after another. -/
def storeValues (s : State) (k : Cmd) (n : Nat) (f64 : Bool) (hc pa : Nat) (es : List Nat) : State :=
  storeElems (lostElem s k.core n f64) (fun e => BitVec.ofNat 64 (storedValue s k n f64 e).1) k.core hc pa (tyBytes (sfmtTy k.mode)) es s

/-- The chunks and slots of a store's destination. -/
def storeMarks (s t : State) (k : Cmd) (n : Nat) (f64 : Bool) (hc pa : Nat) : State :=
  setTags (failChunks hc (pa / 512) (storeLost s k n f64) (setChunks t hc (pa / 512) .full (4096 * tyBytes (sfmtTy k.mode) / 512)))
    hc (pa / 8192) (BitVec.ofNat 8 (sfmt k.mode)) ((pa + 4096 * tyBytes (sfmtTy k.mode) - 1) / 8192 - pa / 8192 + 1)

section
variable {s : State} {k : Cmd} {n : Nat} {f64 : Bool} {dst : BitVec 32} {hc pa : Nat}

theorem mxStoreAll_eq (home : scrHome s k.gang dst (4096 * tyBytes (sfmtTy k.mode)) = some (hc, pa)) : ∃ fl,
    mxStoreAll s k n f64 dst = storeMarks s (orTileFlags (storeValues s k n f64 hc pa (List.range 4096)) k.core (mxTiles k) fl) k n f64 hc pa := by
  unfold mxStoreAll
  simp only [home]
  generalize List.range 4096 = es
  rw [foldl_fst (g := fun t e => if lostElem s k.core n f64 e then t else
    engineWrite t k.core (.scr hc (pa + e * tyBytes (sfmtTy k.mode))) (tyBytes (sfmtTy k.mode)) (BitVec.ofNat 64 (storedValue s k n f64 e).1))
    (fun a e => by split <;> rfl)]
  exact ⟨_, rfl⟩

/-- Tags and chunks alone are marked. -/
theorem storeMarks_only (t : State) : ∃ tags chunks, storeMarks s t k n f64 hc pa = { t with e := { t.e with tags := tags, chunks := chunks } } := by
  unfold storeMarks
  rw [setChunks_eq]
  obtain ⟨chunks, failed⟩ := chunksOnly_failChunks hc (pa / 512) (storeLost s k n f64)
    (relock t (setChunks t hc (pa / 512) .full (4096 * tyBytes (sfmtTy k.mode) / 512)).e.chunks t.e.locks)
  rw [failed]
  obtain ⟨tags, tagged⟩ := setTags_eq _ hc (pa / 8192) (BitVec.ofNat 8 (sfmt k.mode))
    ((pa + 4096 * tyBytes (sfmtTy k.mode) - 1) / 8192 - pa / 8192 + 1)
  rw [tagged]
  exact ⟨tags, chunks, rfl⟩

/-- Every chunk of the destination is full, or failed where an element is lost. -/
theorem chunkAt_storeMarks {t : State} (wf : ChunksWf t) {c : Nat} (small : c < 4096 * tyBytes (sfmtTy k.mode) / 512) :
    chunkAt (storeMarks s t k n f64 hc pa) hc (pa / 512 + c) = if c ∈ storeLost s k n f64 then .failed else .full := by
  unfold storeMarks
  obtain ⟨tags, tagged⟩ := setTags_eq (failChunks hc (pa / 512) (storeLost s k n f64)
    (setChunks t hc (pa / 512) .full (4096 * tyBytes (sfmtTy k.mode) / 512))) hc (pa / 8192) (BitVec.ofNat 8 (sfmt k.mode))
    ((pa + 4096 * tyBytes (sfmtTy k.mode) - 1) / 8192 - pa / 8192 + 1)
  rw [tagged]
  refine (chunkAt_failChunks hc (pa / 512) _ c (setChunks_wf hc _ .full _ wf)).trans ?_
  rw [chunkAt_setChunks hc (pa / 512) .full wf small]

/-- Every slot of the destination has the format's tag. -/
theorem tagAt_storeMarks {t : State} (wf : SMap.wf 0 t.e.tags = true) {j : Nat} (low : pa / 8192 ≤ j)
    (high : j ≤ (pa + 4096 * tyBytes (sfmtTy k.mode) - 1) / 8192) :
    tagAt (storeMarks s t k n f64 hc pa) hc j = BitVec.ofNat 8 (sfmt k.mode) := by
  have kept : (failChunks hc (pa / 512) (storeLost s k n f64)
      (setChunks t hc (pa / 512) .full (4096 * tyBytes (sfmtTy k.mode) / 512))).e.tags = t.e.tags := by
    obtain ⟨chunks, failed⟩ := chunksOnly_failChunks hc (pa / 512) (storeLost s k n f64)
      (setChunks t hc (pa / 512) .full (4096 * tyBytes (sfmtTy k.mode) / 512))
    rw [failed, setChunks_eq]
    rfl
  unfold storeMarks tagAt
  rw [getD_setTags hc _ _ _ _ (by rw [kept]; exact wf), if_pos (by omega)]

/-- What a store brings about. -/
structure StoreDone (s u : State) (k : Cmd) (n : Nat) (f64 : Bool) (hc pa : Nat) : Prop where
  memory : u.m = s.m
  exec : u.x = s.x
  cmds : u.e.cmds = s.e.cmds
  acc : u.e.acc = s.e.acc
  elems : ∀ e, e < 4096 → lostElem s k.core n f64 e = false → scrRead u hc (pa + e * tyBytes (sfmtTy k.mode)) (tyBytes (sfmtTy k.mode)) =
    (storedValue s k n f64 e).1 % 2 ^ 64 % 256 ^ tyBytes (sfmtTy k.mode)
  chunks : ∀ c, c < 4096 * tyBytes (sfmtTy k.mode) / 512 →
    chunkAt u hc (pa / 512 + c) = if c ∈ storeLost s k n f64 then .failed else .full
  tags : ∀ j, pa / 8192 ≤ j → j ≤ (pa + 4096 * tyBytes (sfmtTy k.mode) - 1) / 8192 → tagAt u hc j = BitVec.ofNat 8 (sfmt k.mode)

theorem storeDone_mxStoreAll (home : scrHome s k.gang dst (4096 * tyBytes (sfmtTy k.mode)) = some (hc, pa)) (scrWf : SMap.wf 0 s.e.scr = true)
    (chunksWf : ChunksWf s) (tagsWf : SMap.wf 0 s.e.tags = true) : StoreDone s (mxStoreAll s k n f64 dst) k n f64 hc pa := by
  obtain ⟨fl, stored⟩ := mxStoreAll_eq (n := n) (f64 := f64) home
  have all : ∀ e, e < 4096 → e ∈ List.range 4096 := fun e small => List.mem_range.2 small
  generalize List.range 4096 = es at stored all
  obtain ⟨d, agenda, scr, lost, values⟩ := elementsOnly_storeElems (lostElem s k.core n f64)
    (fun e => BitVec.ofNat 64 (storedValue s k n f64 e).1) k.core hc pa (tyBytes (sfmtTy k.mode)) es s
  change storeValues s k n f64 hc pa es = _ at values
  obtain ⟨tags, chunks, marked⟩ := storeMarks_only (s := s) (k := k) (n := n) (f64 := f64) (hc := hc) (pa := pa)
    (orTileFlags (storeValues s k n f64 hc pa es) k.core (mxTiles k) fl)
  have scrKept : (mxStoreAll s k n f64 dst).e.scr = (storeValues s k n f64 hc pa es).e.scr := by
    rw [stored, marked]
    rfl
  rw [stored]
  refine ⟨?_, ?_, ?_, ?_, fun e small whole => ?_, fun c small => ?_, fun j low high => ?_⟩
  · rw [marked, values]; rfl
  · rw [marked, values]; rfl
  · rw [marked, values]; rfl
  · rw [marked, values]; rfl
  · have read := scrRead_storeElems (lostElem s k.core n f64) (fun e => BitVec.ofNat 64 (storedValue s k n f64 e).1) k.core hc pa
      (tyBytes (sfmtTy k.mode)) (all e small) whole scrWf
    rw [BitVec.toNat_ofNat] at read
    rw [← read, ← stored]
    simp only [scrRead, scrBytes, scrKept]
    rfl
  · refine chunkAt_storeMarks ?_ small
    rw [values]
    exact chunksWf
  · refine tagAt_storeMarks ?_ low high
    rw [values]
    exact tagsWf

end

theorem SameData.storeLost {s t : State} (same : SameData s t) (k : Cmd) (n : Nat) (f64 : Bool) : storeLost t k n f64 = storeLost s k n f64 := by
  have elems : Machine.lostElem t k.core n f64 = Machine.lostElem s k.core n f64 := funext fun e => same.lostElem _ _ _ e
  simp only [Machine.storeLost, same.lostAcc, elems]

theorem SameData.storedValue {s t : State} (same : SameData s t) (k : Cmd) (n : Nat) (f64 : Bool) (e : Nat) :
    storedValue t k n f64 e = storedValue s k n f64 e := by
  simp only [Machine.storedValue, same.accElem]

theorem storeStatus_eq (s : State) (k : Cmd) (n : Nat) (f64 : Bool) : storeStatus s k n f64 =
    if storeLost s k n f64 = [] then goodStatus else statusWord true 7 ((storeLost s k n f64).headD 0) := by
  unfold storeStatus
  cases storeLost s k n f64 with
  | nil => rfl
  | cons c cs => exact (if_neg (List.cons_ne_nil c cs)).symm

/-- A stored tile. -/
theorem mxStore_completes {s : State} {core i : Nat} {k : Cmd} (found : s.e.cmds.find? i = some k) (engine : k.engine = 3)
    (own : k.core = core) (may : mxMayStart s i k = true) (canon : Canonical s) (rising : s.e.cmds.risingFrom 0 = true)
    {n : Nat} {f64 : Bool} {dst : BitVec 32} {hc pa : Nat} (body : k.body = .mxStore n f64 dst)
    (home : scrHome s k.gang dst (4096 * tyBytes (sfmtTy k.mode)) = some (hc, pa)) :
    Completes s core i k (if storeLost s k n f64 = [] then goodStatus else statusWord true 7 ((storeLost s k n f64).headD 0)) (fun u =>
      u.e.acc = s.e.acc ∧
      (∀ e, e < 4096 → lostElem s k.core n f64 e = false → scrRead u hc (pa + e * tyBytes (sfmtTy k.mode)) (tyBytes (sfmtTy k.mode)) =
        (storedValue s k n f64 e).1 % 2 ^ 64 % 256 ^ tyBytes (sfmtTy k.mode)) ∧
      (∀ c, c < 4096 * tyBytes (sfmtTy k.mode) / 512 → chunkAt u hc (pa / 512 + c) = if c ∈ storeLost s k n f64 then .failed else .full) ∧
      ∀ j, pa / 8192 ≤ j → j ≤ (pa + 4096 * tyBytes (sfmtTy k.mode) - 1) / 8192 → tagAt u hc j = BitVec.ofNat 8 (sfmt k.mode)) := by
  obtain ⟨-, -, -, -, scrWf, chunksWf, tagsWf, -, -⟩ := canon
  obtain ⟨readied, same, -, chunks⟩ := readied_mxStart rising core i k
  have stored := storeDone_mxStoreAll (s := mxStart s core i k) (n := n) (f64 := f64) ((same.scrHome ..).trans home)
    ((congrArg (SMap.wf 0) same.scr).trans scrWf) ((congrArg (SMap.wf .empty) chunks).trans chunksWf)
    ((congrArg (SMap.wf 0) same.tags).trans tagsWf)
  rw [← storeStatus_eq]
  refine completes_of_finish (exec_mxComplete_store found engine own may body) (readied.step stored.memory stored.exec stored.cmds)
    fun u done => ⟨?_, fun e small whole => ?_, fun c small => ?_, fun j low high => ?_⟩
  · exact done.acc.trans (stored.acc.trans same.acc)
  · rw [← same.storedValue, ← stored.elems e small ((same.lostElem ..).trans whole)]
    simp only [scrRead, scrBytes, done.scr]
  · rw [← same.storeLost, ← stored.chunks c small]
    simp only [chunkAt, done.chunks]
  · rw [← stored.tags j low high]
    simp only [tagAt, done.tags]

theorem loadMistagged_iff (s : State) (gang : Nat) (f64 raw : Bool) (src : BitVec 32) : loadMistagged s gang f64 raw src = true ↔
    raw = false ∧ ¬∀ j, j < (if f64 = true then 4 else 2) →
      slotTag s gang (src + BitVec.ofNat 32 (8192 * j)) = if f64 = true then 0x13 else 0x12 := by
  simp [loadMistagged]

/-- Settles O46, by clause: the step that is served (`mxStepStart_steps`), the refill, the exchange, and the completion of each
command, whose own effect stands in the state in which it leaves (`completes_of_finish`). -/
theorem matrixCommandsRunAndComplete : Obligations.MatrixCommandsRunAndComplete := by
  intro cluster core i s canon rising accRising ready kept filled
  refine ⟨fun some => ?_, budgetRefill_refills s cluster, fun tile small nDie four => ⟨?_, ?_⟩,
    fun k found engine own => ?_⟩
  · obtain ⟨w, u, mem, least, ran, keeps, scr, short, enough⟩ := mxStepStart_steps accRising some
    refine ⟨w, u, mem, least, ran, keeps, scr, short, fun pays => ⟨(enough pays).1, ?_⟩⟩
    intro n raw bs a b sc cnt da db dsc body k f64 r t size scale tagsFit lost fails
    obtain ⟨updates, spoilt, mistagged⟩ := (enough pays).2 (by simp only [isSteps, body])
    have args : stepArgs w.cmd = ⟨n, raw, bs, r⟩ := by simp only [stepArgs, body]; rfl
    have tags := stepMistagged_iff s w.cmd
    have errors := stepSpoilt_iff s w.cmd
    simp only [args] at updates tags errors
    have fit : raw = true ∨ tagsFit → stepMistagged s w.cmd = false := fun fit => by
      rw [← Bool.not_eq_true, tags]
      rintro ⟨tagged, misfit⟩
      rcases fit with ignored | fit
      · rw [ignored] at tagged
        cases tagged
      · exact misfit fit
    refine ⟨fun tagged whole => ?_, fun tagged isLost => spoilt (fit tagged) (errors.2 isLost), fun raw misfit => mistagged (tags.2 ⟨raw, misfit⟩)⟩
    obtain ⟨command, elems⟩ := updates (fit tagged) (by rw [← Bool.not_eq_true, errors]; exact whole)
    refine ⟨command, fun e small => (elems e small).trans ?_⟩
    simp only [stepValue, stepA, stepB, stepScale, args]
    rfl
  · exact exec_accExchange_busy small nDie
  · exact accExchange_exchanges small nDie four
  · intro done good failed tagged
    refine ⟨?_, fun may => ⟨?_, ?_, ?_, ?_⟩⟩
    · intro n raw bs a b sc cnt da db dsc body idle moves past
      refine mxSteps_completes found engine own rising (by simp only [isSteps, body]) (cnt := cnt) ?_ idle moves past
      intro _ _ _ _ _ _ _ _ _ _ body'
      rw [body] at body'
      injection body' with _ _ _ _ _ _ same
      exact same.symm
    · exact fun n body => mxZero_completes found engine own may rising accRising body
    · intro n f64 raw src body lost
      have tags := loadMistagged_iff s k.gang f64 raw src
      have fit : raw = true ∨ tagged f64 src → loadMistagged s k.gang f64 raw src = false := fun fit => by
        rw [← Bool.not_eq_true, tags]
        rintro ⟨checked, misfit⟩
        rcases fit with ignored | fit
        · rw [ignored] at checked
          cases checked
        · exact misfit fit
      exact ⟨fun fits whole => mxLd_completes found engine own may rising accRising body (fit fits) whole,
        fun fits isLost => mxLd_spoilt found engine own may rising body (fit fits) isLost,
        fun raw misfit => mxLd_mistagged found engine own may rising body (tags.2 ⟨raw, misfit⟩)⟩
    · intro n f64 dst hc pa body home size lost
      obtain ⟨u, ran, memory, exec, left, acc, elems, rest⟩ := mxStore_completes found engine own may canon rising body home
      simp only [storedValue, own] at elems
      exact ⟨u, ran, memory, exec, left, acc, by rwa [own], rest⟩
    · exact fun w seed body => mxMode_completes found engine own may rising body

end Sys2Proof.Machine
end

section
/-!
SUPPORT. O55: requests to the device (R165, R306, R383, R384, R393, R397 to R399).
-/
namespace Sys2Proof.Machine

/-! ### One die, one context, one hop -/

theorem dieAt_setDie (s : State) (d : Nat) (v : Die) : dieAt (setDie s d v) d = v := by
  simp [dieAt, setDie, SMap.getD, SMap.find?_ins_self]

theorem dieAt_setDie_ne (s : State) {d k : Nat} (v : Die) (other : k ≠ d) : dieAt (setDie s d v) k = dieAt s k := by
  simp [dieAt, setDie, SMap.getD, SMap.find?_ins_ne _ _ other]

theorem ctxAt_setCtx (s : State) (c : Nat) (v : Context) : ctxAt (setCtx s c v) c = v := by
  simp [ctxAt, setCtx, SMap.getD, SMap.find?_ins_self]

theorem ctxAt_setCtx_ne (s : State) {c k : Nat} (v : Context) (other : k ≠ c) : ctxAt (setCtx s c v) k = ctxAt s k := by
  simp [ctxAt, setCtx, SMap.getD, SMap.find?_ins_ne _ _ other]

/-- A die is set, and the other dies are as they were. -/
abbrev DieIs (s u : State) (die : Nat) (d : Die) : Prop := dieAt u die = d ∧ ∀ k, k ≠ die → dieAt u k = dieAt s k

/-- What a reply leaves is what it found, but for the reply. -/
abbrev Answered (s u : State) (h : Hdr) : Prop := Replied s u h [] ∧ u.m = s.m ∧ u.x = s.x ∧ u.e = s.e

theorem dieIs_done (s : State) (h : Hdr) (d : Die) (data : List Word) : DieIs s (done (setDie s h.die d) h data) h.die d :=
  ⟨dieAt_setDie s h.die d, fun _ other => dieAt_setDie_ne s d other⟩

/-- A request that sets its die. -/
theorem request_setDie {s : State} {h : Hdr} {v : Serve} {check : Option Nat} {d : Die} :
    Answers s h v check (request s h v check (done (setDie s h.die d) h [])) (fun u => Replied s u h [] ∧ u.m = s.m ∧ u.x = s.x ∧ u.e = s.e ∧
      DieIs s u h.die d) :=
  request_answers fun _ _ => ⟨rfl, rfl, rfl, rfl, dieIs_done s h d []⟩

/-! ### Records, tracing and the manifest (R165, R383, R384, R393) -/

section
variable (s : State) (h : Hdr)

theorem execEventRing_answers (base size : BitVec 64) : Answers s h everyDie (ringCheck s (ctxKey h) base size) (exec (.eventRing h base size) s)
    (fun u => Replied s u h [] ∧ u.m = s.m ∧ u.x = s.x ∧ u.e = s.e ∧ DieIs s u h.die { dieAt s h.die with
      evRing := some { ctx := ctxKey h, base := base, size := size.toNat, wr := 0, rd := 0 } }) :=
  request_setDie

theorem execManifestRing_answers (base size : BitVec 64) :
    Answers s h everyDie (ringCheck s (ctxKey h) base size) (exec (.manifestRing h base size) s)
      (fun u => Replied s u h [] ∧ u.m = s.m ∧ u.x = s.x ∧ u.e = s.e ∧ DieIs s u h.die { dieAt s h.die with
        mfRing := some { ctx := ctxKey h, base := base, size := size.toNat, wr := 0, rd := 0 } }) :=
  request_setDie

/-- The host reads no further than was written. -/
def readsPast (ix : BitVec 64) (r : Option RecRing) : Bool := match r with | none => true | some r => decide (r.wr < ix.toNat)

/-- A ring that the host has read up to an index. -/
abbrev readUpTo (ix : BitVec 64) (r : Option RecRing) : Option RecRing := r.map (fun r => { r with rd := ix.toNat })

theorem execEventReadIndex_answers (ix : BitVec 64) : Answers s h everyDie (firstFail [(readsPast ix (dieAt s h.die).evRing, 0x61)])
    (exec (.eventReadIndex h ix) s) (fun u => Replied s u h [] ∧ u.m = s.m ∧ u.x = s.x ∧ u.e = s.e ∧
      DieIs s u h.die { dieAt s h.die with evRing := readUpTo ix (dieAt s h.die).evRing }) :=
  request_setDie

theorem execManifestReadIndex_answers (ix : BitVec 64) : Answers s h everyDie (firstFail [(readsPast ix (dieAt s h.die).mfRing, 0x61)])
    (exec (.manifestReadIndex h ix) s) (fun u => Replied s u h [] ∧ u.m = s.m ∧ u.x = s.x ∧ u.e = s.e ∧
      DieIs s u h.die { dieAt s h.die with mfRing := readUpTo ix (dieAt s h.die).mfRing }) :=
  request_setDie

/-! ### Firmware (R393, R397, R398) -/

theorem execFwIdentity_answers : Answers s h fwServe none (exec (.fwIdentity h) s) (fun u => Aside s u ∧
    Replied s u h (leBytes 8 (descriptor s h.die).toNat ++ Config.identityKey h.die)) :=
  request_answers fun _ _ => ⟨⟨rfl, rfl, rfl, rfl, rfl, rfl⟩, rfl⟩

theorem execFwAttest_answers (nonce : List (BitVec 8)) :
    Answers s h fwServe (firstFail [((dieAt s h.die).fw.recovery, 0x73)]) (exec (.fwAttest h nonce) s) (fun u => Aside s u ∧
      ∃ body, Replied s u h (body ++ Config.attestSign h.die body) ∧ body.take nonce.length = nonce) :=
  request_answers fun _ _ => ⟨⟨rfl, rfl, rfl, rfl, rfl, rfl⟩, attestBody s h.die nonce, rfl, by
    simp only [attestBody, List.append_assoc, List.take_left]⟩

theorem execFwProvision_writes {a len : BitVec 64} {bs : List Byte} (turned : turnedAway s h fwServe = none)
    (image : fwImage s h a len.toNat = some bs) : ∃ u, exec (.fwProvision h a len) s = .next u ∧ Aside s u ∧
      (if (Config.fwKeyOk h.die bs && Config.fwSigOk bs) = false then u.h.out = s.h.out ++ [.reply h 1 0x70 0 []]
        else if Config.fwVersion bs < (dieAt s h.die).fw.fused then u.h.out = s.h.out ++ [.reply h 1 0x71 0 []]
        else Replied s u h [] ∧ DieIs s u h.die { dieAt s h.die with fw := { (dieAt s h.die).fw with provisioned := some bs } }) := by
  have shape : exec (.fwProvision h a len) s = execFwProvision h a len s := rfl
  rw [shape, execFwProvision]
  simp only [request, turned, image, Option.isNone_some, Bool.false_or, Option.getD_some, firstFail, ← Bool.not_and]
  cases good : Config.fwKeyOk h.die bs && Config.fwSigOk bs with
  | false => exact ⟨_, rfl, ⟨rfl, rfl, rfl, rfl, rfl, rfl⟩, rfl⟩
  | true =>
    by_cases older : Config.fwVersion bs < (dieAt s h.die).fw.fused
    · simp only [older, decide_true, if_true, Bool.not_true, Bool.false_eq_true, if_false]
      exact ⟨_, rfl, ⟨rfl, rfl, rfl, rfl, rfl, rfl⟩, rfl⟩
    · simp only [older, decide_false, if_false, Bool.not_true, Bool.false_eq_true]
      exact ⟨_, rfl, ⟨rfl, rfl, rfl, rfl, rfl, rfl⟩, rfl, dieIs_done s h _ []⟩

theorem execFwActivate_answers : Answers s h fwServe (firstFail [((dieAt s h.die).fw.provisioned.isNone, 0x72)]) (exec (.fwActivate h) s)
    (fun u => Replied s u h [] ∧ Aside s u ∧
      u.c.agenda = s.c.agenda ++ if h.die = 8 then [.packageReset] else [.dieReset h.die, .romBoot h.die]) :=
  request_answers fun _ _ => by
    split
    · exact ⟨rfl, ⟨rfl, rfl, rfl, rfl, rfl, rfl⟩, rfl⟩
    · refine ⟨rfl, ⟨rfl, rfl, rfl, rfl, rfl, rfl⟩, ?_⟩
      exact List.append_assoc _ [_] [_]

/-! ### Power, and the ring's hops (R306, R399) -/

theorem execPowerSensors_answers : Answers s h everyDie none (exec (.powerSensors h) s) (fun u => Aside s u ∧ ∃ amps, amps.length = 8 ∧
    Replied s u h (leBytes 2 (dieAt s h.die).sensors.watts ++ leBytes 1 (dieAt s h.die).sensors.temp ++ leBytes 1 0 ++ amps)) :=
  request_answers fun _ _ => ⟨⟨rfl, rfl, rfl, rfl, rfl, rfl⟩, _, by simp [List.range_succ, length_leBytes], rfl⟩

theorem execRetrainHop_answers (hop : Nat) : Answers s h everyDie
    (firstFail [(decide (7 < hop) || (dieAt s (endDie hop 0)).inReset || (dieAt s (endDie hop 1)).inReset, 0x7A)]) (exec (.retrainHop h hop) s)
    (fun u => u.h = s.h ∧ u.m = s.m ∧ u.x = s.x ∧ (hopAt u hop).retrain = some ((hopAt s hop).retrain.getD [] ++ [h]) ∧
      ((hopAt s hop).turning = none → (hopAt s hop).retrain = none → (hopAt u hop).dirs = hopZero.dirs ∧
        ∀ x, x < 16 → strandOf (hopAt u hop) x = .draining)) := by
  refine request_answers fun _ _ => ?_
  have joined (k : Hop) : hopAt (setHop s hop k) hop = k := hopAt_setHop s hop k
  cases turning : (hopAt s hop).turning with
  | some t =>
    simp only [Option.isSome_some, Bool.true_or, if_true]
    refine ⟨rfl, rfl, rfl, by rw [joined], nofun⟩
  | none =>
    cases retrain : (hopAt s hop).retrain with
    | some rs =>
      simp only [Option.isSome_some, Bool.or_true, if_true]
      exact ⟨rfl, rfl, rfl, by rw [joined], fun _ => nofun⟩
    | none =>
      simp only [Option.isSome_none, Bool.or_false, Bool.false_eq_true, if_false]
      unfold retrainStart
      refine ⟨rfl, rfl, rfl, by rw [hopAt_setHop, joined], fun _ _ => ⟨by rw [hopAt_setHop], fun x small => ?_⟩⟩
      rw [hopAt_setHop]
      simp only [strandOf, nth, List.getElem?_replicate, small, if_true, Option.getD_some]

end

end Sys2Proof.Machine
end

section
/-!
SUPPORT. O55: requests of a debugger (R372 to R379, R393, R416, R419), and the obligation.
-/
namespace Sys2Proof.Machine

/-! ### Distinct numbers in order -/

theorem SMap.mem_keys_iff {α : Type} {m : SMap α} {k : Nat} : k ∈ m.map (·.1) ↔ (m.find? k).isSome = true := by
  cases found : m.find? k with
  | none => simpa using fun a mem => SMap.find?_eq_none_iff.1 found (k, a) mem rfl
  | some a => simpa using ⟨a, SMap.mem_of_find? found⟩

theorem SMap.mem_keys_ins {α : Type} (m : SMap α) (k j : Nat) (v : α) : j ∈ (m.ins k v).map (·.1) ↔ j = k ∨ j ∈ m.map (·.1) := by
  rw [SMap.mem_keys_iff, SMap.mem_keys_iff]
  by_cases same : j = k
  · subst same
    simp [SMap.find?_ins_self]
  · simp [SMap.find?_ins_ne _ _ same, same]

theorem mem_sortDistinct {ns : List Nat} {x : Nat} : x ∈ sortDistinct ns ↔ x ∈ ns := by
  have keys : ∀ (m : SMap Unit), x ∈ (ns.foldl (fun m n => SMap.ins m n ()) m).map (·.1) ↔ x ∈ ns ∨ x ∈ m.map (·.1) := by
    induction ns with
    | nil => simp
    | cons n ns ih =>
      intro m
      rw [List.foldl_cons, ih, SMap.mem_keys_ins, List.mem_cons]
      tauto
  simpa [sortDistinct] using keys []

theorem mem_coresOf {pids : List Nat} {p : Nat} (mem : p ∈ pids) : coreOfPath p ∈ coresOf pids :=
  mem_sortDistinct.2 (List.mem_map_of_mem mem)

/-! ### The paths of a launch (R374) -/

theorem scopePaths_listed {s : State} {scope ctx cluster : Nat} {gangs pids : List Nat} {p : Nat}
    (mem : p ∈ scopePaths s scope ctx cluster gangs pids) : (s.x.paths.find? p).isSome = true := by
  have sub : p ∈ s.x.paths.map (·.1) := by
    unfold scopePaths at mem
    dsimp only at mem
    split at mem <;>
    · obtain ⟨q, hq, rfl⟩ := List.mem_map.1 mem
      exact List.mem_map_of_mem (List.mem_of_mem_filter (List.mem_of_mem_filter hq))
  exact SMap.mem_keys_iff.1 sub

theorem launchPaths_listed {s : State} {h : Hdr} {id : Word} {scope p : Nat} (mem : p ∈ launchPaths s h id scope) :
    (s.x.paths.find? p).isSome = true := by
  unfold launchPaths at mem
  dsimp only at mem
  split at mem
  · obtain ⟨c, -, hc⟩ := List.mem_flatMap.1 (mem_sortDistinct.1 mem)
    exact scopePaths_listed hc
  · exact scopePaths_listed mem

section
variable (s : State) (h : Hdr)

/-! ### Attaching, breakpoints and watchpoints (R372, R375, R378, R416) -/

theorem attachSet_attaches (on : Bool) : (ctxAt (attachSet s h on) (ctxKey h)).debugger = on ∧ Replied s (attachSet s h on) h [] ∧
    Aside s (attachSet s h on) :=
  ⟨congrArg Context.debugger (ctxAt_setCtx s (ctxKey h) _), rfl, ⟨rfl, rfl, rfl, rfl, rfl, rfl⟩⟩

theorem execDebugBreakpoint_answers (i : Nat) (v : BitVec 32) (scope : Nat) : Answers s h shaderOnly
    (firstFail [(notAttached s h, 0x55), (decide (63 < i), 0x56), (decide (2 < scope), offCode 0x56 5)]) (exec (.debugBreakpoint h i v scope) s)
    (fun u => Replied s u h [] ∧ u.d.bps.find? (ctxKey h * 64 + i) = some { vpc := v, scope := scope } ∧ u.x = s.x ∧ u.m = s.m) :=
  request_answers fun _ _ => ⟨rfl, SMap.find?_ins_self _ _ _, rfl, rfl⟩

/-- The watchpoint set in every cluster of a list. -/
theorem find?_armed {cls : List Nat} {cl : Nat} (mem : cl ∈ cls) (i : Nat) (w : Watchpoint) (m : SMap Watchpoint) :
    (cls.foldl (fun m c => SMap.ins m (c * 8 + i) w) m).find? (cl * 8 + i) = some w := by
  have stays : ∀ (cls : List Nat) (m : SMap Watchpoint), m.find? (cl * 8 + i) = some w →
      (cls.foldl (fun m c => SMap.ins m (c * 8 + i) w) m).find? (cl * 8 + i) = some w := by
    intro cls
    induction cls with
    | nil => exact fun _ held => held
    | cons c cls ih =>
      refine fun m held => ih _ ?_
      by_cases same : cl * 8 + i = c * 8 + i
      · rw [same, SMap.find?_ins_self]
      · rw [SMap.find?_ins_ne _ _ same, held]
  induction cls generalizing m with
  | nil => cases mem
  | cons c cls ih =>
    rcases List.mem_cons.1 mem with rfl | rest
    · exact stays cls _ (SMap.find?_ins_self _ _ _)
    · exact ih rest _

theorem execDebugWatchpoint_answers (i : Nat) (a : BitVec 64) (kinds : BitVec 8) (scope : Nat) : Answers s h shaderOnly
    (firstFail [(watchBad a kinds, offCode 0x53 1), (a.extractLsb' 0 3 != 0, offCode 0x54 1), (notAttached s h, 0x55),
      (decide (7 < i), 0x56), (decide (2 < scope), offCode 0x56 10)]) (exec (.debugWatchpoint h i a kinds scope) s)
    (fun u => Replied s u h [] ∧ u.x = s.x ∧ u.m.mem = s.m.mem ∧ ∀ cl ∈ watchClusters h.die a,
      u.d.watches.find? (cl * 8 + i) = some { ctx := ctxKey h, addr := a, kinds := kinds, scope := scope }) := by
  refine request_answers fun _ _ => ?_
  have armed : ∃ lines, armWatch s h i a kinds scope = { s with m := { s.m with lines := lines }, d := { s.d with
      watches := (watchClusters h.die a).foldl (fun m c => SMap.ins m (c * 8 + i)
        { ctx := ctxKey h, addr := a, kinds := kinds, scope := scope }) s.d.watches } } := by
    unfold armWatch
    dsimp only
    split
    · split <;> exact ⟨_, rfl⟩
    · exact ⟨_, rfl⟩
  obtain ⟨lines, armed⟩ := armed
  rw [armed]
  exact ⟨rfl, rfl, rfl, fun cl mem => find?_armed mem i _ _⟩

/-! ### Stopping (R374) -/

section
variable (id : BitVec 64) (scope : Nat) (freeze : Bool)

theorem stopEffect_stops : let u := stopEffect s h id scope freeze
    u.m = s.m ∧ (∀ p ∈ launchPaths s h id scope, (pathAt u p).held = true ∧ (pathAt u p).pc = (pathAt s p).pc) ∧
      (freeze = true → ∀ p ∈ launchPaths s h id scope, coreOfPath p ∈ u.d.frozen) ∧
      ((∀ p ∈ launchPaths s h id scope, midBundle u p = false) → ∃ rs, u.h.out = s.h.out ++ [.stop (ctxKey h) rs [], .reply h 0 0 0 []]) ∧
      ((∃ p ∈ launchPaths s h id scope, midBundle u p = true) → Replied s u h [] ∧
        u.d.stops = s.d.stops ++ [{ ctx := ctxKey h, pids := launchPaths s h id scope, hits := [] }]) := by
  have listed : ∀ p ∈ launchPaths s h id scope, (s.x.paths.find? p).isSome = true := fun p mem => launchPaths_listed mem
  unfold stopEffect stopPaths
  dsimp only
  generalize launchPaths s h id scope = pids at listed
  obtain ⟨stood, held⟩ := holdPaths_spec s pids 4 0
  generalize pids.foldl (fun t p => holdPath t p 4 0) s = t at stood held
  have place := stood.place
  obtain ⟨e, ps, only⟩ := stood.only
  have frozen : ∀ fr, freeze = true → ∀ p ∈ pids, coreOfPath p ∈ if freeze = true then sortDistinct (fr ++ coresOf pids) else fr := by
    intro fr on p mem
    rw [if_pos on, mem_sortDistinct]
    exact List.mem_append_right _ (mem_coresOf mem)
  rcases reportStop_eq t (ctxKey h) pids [] with ⟨mid, eq⟩ | ⟨calm, rs, eq⟩
  · rw [eq]
    refine ⟨?_, fun p mem => ⟨held p mem (listed p mem), place p⟩, frozen _, fun none => ?_, fun _ => ⟨?_, ?_⟩⟩
    · rw [only]; rfl
    · obtain ⟨p, hp, busy⟩ := List.any_eq_true.1 mid
      exact absurd ((none p hp).symm.trans busy) Bool.false_ne_true
    · rw [only]; rfl
    · rw [only]; rfl
  · rw [eq]
    refine ⟨?_, fun p mem => ⟨held p mem (listed p mem), place p⟩, frozen _, fun _ => ⟨rs, ?_⟩, fun ⟨p, hp, busy⟩ => ?_⟩
    · rw [only]; rfl
    · rw [only]
      exact List.append_assoc _ [_] [_]
    · exact absurd (calm.symm.trans (List.any_eq_true.2 ⟨p, hp, busy⟩)) Bool.false_ne_true

end

end

/-! ### Releasing (R374, R377) -/

/-- Paths change; each path stays, and stands where it stood. -/
structure Places (s t : State) : Prop where
  only : ∃ ps, t = { s with x := { s.x with paths := ps } }
  listed : ∀ k, (t.x.paths.find? k).isSome = (s.x.paths.find? k).isSome
  place : ∀ k, (pathAt t k).pc = (pathAt s k).pc

namespace Places
variable {s t u : State}

theorem refl (s : State) : Places s s := ⟨⟨_, rfl⟩, fun _ => rfl, fun _ => rfl⟩

theorem trans (first : Places s t) (second : Places t u) : Places s u := by
  refine ⟨?_, fun k => (second.listed k).trans (first.listed k), fun k => (second.place k).trans (first.place k)⟩
  obtain ⟨ps, rfl⟩ := first.only
  obtain ⟨ps', rfl⟩ := second.only
  exact ⟨ps', rfl⟩

theorem of_updPath (s : State) (pid : Nat) {g : Path → Path} (place : ∀ p, (g p).pc = p.pc) : Places s (updPath s pid g) := by
  have listed : ∀ k, ((updPath s pid g).x.paths.find? k).isSome = (s.x.paths.find? k).isSome := by
    intro k
    by_cases same : k = pid
    · subst same
      rw [updPath, SMap.find?_upd_self, Option.isSome_map]
    · rw [updPath, SMap.find?_upd_ne _ _ same]
  refine ⟨⟨_, rfl⟩, listed, fun k => ?_⟩
  by_cases same : k = pid
  · subst same
    cases found : (s.x.paths.find? k).isSome with
    | true => rw [pathAt_updPath_self g found, place]
    | false =>
      have none : s.x.paths.find? k = none := by simpa using found
      rw [updPath, SMap.upd, none]
  · rw [pathAt_updPath_ne s g same]

theorem foldl {β : Type} {f : State → β → State} (step : ∀ t b, Places t (f t b)) (s : State) (l : List β) : Places s (l.foldl f s) :=
  foldl_inv (Places s) f (fun t b h => h.trans (step t b)) s l (refl s)

theorem updPaths {β : Type} (k : β → Nat) (g : State → β → Path → Path) (place : ∀ t b p, (g t b p).pc = p.pc) (s : State) (l : List β) :
    Places s (l.foldl (fun t b => updPath t (k b) (g t b)) s) :=
  foldl (fun t b => of_updPath t (k b) (place t b)) s l

end Places

theorem places_fillTable (s : State) (w : Nat) : Places s (fillTable s w) := by
  unfold fillTable
  split
  · exact .of_updPath s _ fun _ => rfl
  · exact .refl s

theorem places_endFocus (s : State) (w : Nat) : Places s (endFocus s w) := by
  unfold endFocus
  split
  · exact (Places.updPaths (β := Nat × Path) (·.1) (fun _ _ q => { q with focus := false, parked := false }) (fun _ _ _ => rfl) s _).trans (places_fillTable _ w)
  · exact .refl s

/-- Paths that are let go. -/
def letGo (s : State) (now : Nat) (pids : List Nat) : State := pids.foldl (fun t p => updPath t p (fun q => { q with
  held := false, stepping := false, dbgCause := 0, dbgInfo := 0, skid := 0, skipBp := some (pcVpc t q), readyAt := now })) s

theorem places_letGo (s : State) (now : Nat) (pids : List Nat) : Places s (letGo s now pids) :=
  Places.updPaths id (fun t _ q => { q with
    held := false, stepping := false, dbgCause := 0, dbgInfo := 0, skid := 0, skipBp := some (pcVpc t q), readyAt := now })
    (fun _ _ _ => rfl) s pids

theorem held_letGo {s : State} (now : Nat) {pids : List Nat} {p : Nat} (mem : p ∈ pids) (listed : (s.x.paths.find? p).isSome = true) :
    (pathAt (letGo s now pids) p).held = false :=
  (foldl_reaches (Q := fun t => (t.x.paths.find? p).isSome = true)
    (P := fun t => (t.x.paths.find? p).isSome = true ∧ (pathAt t p).held = false)
    (fun t q h => isSome_updPath q _ h)
    (fun t q h => ⟨isSome_updPath q _ h.1, by
      by_cases same : p = q
      · subst same
        rw [pathAt_updPath_self _ h.1]
      · rw [pathAt_updPath_ne _ _ same]
        exact h.2⟩)
    (fun t h => ⟨isSome_updPath p _ h, by rw [pathAt_updPath_self _ h]⟩) mem listed).2

/-- Only save regions and captures change. -/
def CapturesOnly (s t : State) : Prop := ∃ ctxs captures, t = { s with h := { s.h with ctxs := ctxs, captures := captures } }

theorem capturesOnly_freeSave (s : State) (ctx o : Nat) : CapturesOnly s (freeSave s ctx o) := by
  unfold freeSave
  split <;> exact ⟨_, _, rfl⟩

theorem capturesOnly_freeMoved {s t : State} (only : CapturesOnly s t) (g : Nat) : CapturesOnly s (freeMoved t g) := by
  obtain ⟨ctxs, captures, rfl⟩ := only
  unfold freeMoved
  dsimp only
  split
  · split
    · exact ⟨_, _, rfl⟩
    · next r _ _ =>
      obtain ⟨ctxs', captures', freed⟩ := capturesOnly_freeSave { s with h := { s.h with ctxs := ctxs, captures := captures } } r.ctx r.off
      rw [freed]
      exact ⟨_, _, rfl⟩
  · exact ⟨_, _, rfl⟩

theorem releaseEffect_releases (s : State) (h : Hdr) (id : BitVec 64) (scope : Nat) : let u := releaseEffect s h id scope
    u.m = s.m ∧ Replied s u h [] ∧ ∀ p ∈ launchPaths s h id scope, (pathAt u p).held = false ∧ (pathAt u p).pc = (pathAt s p).pc ∧
      coreOfPath p ∉ u.d.frozen := by
  have listed : ∀ p ∈ launchPaths s h id scope, (s.x.paths.find? p).isSome = true := fun p mem => launchPaths_listed mem
  unfold releaseEffect
  extract_lets pids cores ws s1 s2 cls hits debug s3 u
  have focus : Places s s1 := .foldl places_endFocus s ws
  have gone : Places s1 s2 := places_letGo s1 s.c.cycle pids
  have places := focus.trans gone
  have held : ∀ p ∈ pids, (pathAt s2 p).held = false := fun p mem =>
    held_letGo s.c.cycle mem (by rw [focus.listed, listed p mem])
  have place := places.place
  have kept : s2.m = s.m ∧ s2.h.out = s.h.out := by
    obtain ⟨ps, only⟩ := places.only
    rw [only]
    exact ⟨rfl, rfl⟩
  obtain ⟨ctxs, captures, moved⟩ : CapturesOnly s3 ((debugLaunch s h id).foldl freeMoved s3) :=
    foldl_inv (CapturesOnly s3) _ (fun t g only => capturesOnly_freeMoved only g) s3 _ ⟨_, _, rfl⟩
  simp only [u, moved]
  refine ⟨?_, ?_, fun p mem => ⟨held p mem, place p, fun frozen => ?_⟩⟩
  · exact kept.1
  · exact congrArg (· ++ [.reply h 0 0 0 []]) kept.2
  · have kept := (List.mem_filter.1 (show coreOfPath p ∈ s2.d.frozen.filter (fun c => !cores.contains c) from frozen)).2
    have core : cores.contains (coreOfPath p) = true := List.contains_iff_mem.2 (mem_coresOf mem)
    rw [core] at kept
    cases kept

/-! ### Steps, focus and values (R161, R376, R377, R393, R419) -/

/-- A path that a record names is one of its warp. -/
theorem namedPath_mem {s : State} {p : PathName} {pid : Nat} (named : namedPath s p = some pid) :
    (s.x.paths.find? pid).isSome = true ∧ warpOfPath pid = ((p.die * 4 + p.cluster) * 96 + p.core) * 16 + p.warp := by
  obtain ⟨q, found, rfl⟩ := Option.map_eq_some_iff.1 named
  obtain ⟨mem, warp⟩ := List.mem_filter.1 (List.mem_of_find?_eq_some found)
  exact ⟨SMap.mem_keys_iff.1 (List.mem_map_of_mem mem), eq_of_beq warp⟩

theorem heldPath_listed {s : State} {h : Hdr} {p : PathName} {pid : Nat} (named : heldPath s h p = some pid) :
    (s.x.paths.find? pid).isSome = true :=
  (namedPath_mem (Option.filter_eq_some_iff.1 named).1).1

/-- A step lets one path go, for one instruction. -/
theorem beginStep_lets (s : State) (h : Hdr) (p : PathName) (sync : Bool) : let u := beginStep s h ((heldPath s h p).getD 0) sync
    u.m = s.m ∧ u.e = s.e ∧ u.h = s.h ∧ ∀ pid, heldPath s h p = some pid →
      u.d.steps = s.d.steps ++ [{ h := h, pid := pid, sync := sync, from_ := s.c.nextId, toks := none }] ∧
      (pathAt u pid).held = false ∧ (pathAt u pid).stepping = true ∧ (pathAt u pid).pc = (pathAt s pid).pc ∧
      ∀ q, q ≠ pid → u.x.paths.find? q = s.x.paths.find? q := by
  refine ⟨rfl, rfl, rfl, fun pid named => ?_⟩
  have listed := heldPath_listed named
  rw [named, Option.getD_some]
  have path : pathAt (beginStep s h pid sync) pid = { pathAt s pid with
      held := false, stepping := true, skipBp := some (pcVpc s (pathAt s pid)), dbgCause := 0, dbgInfo := 0, readyAt := s.c.cycle } :=
    pathAt_updPath_self _ listed
  rw [path]
  exact ⟨rfl, rfl, rfl, rfl, fun q other => find?_updPath_ne s _ other⟩

theorem pathAt_setPath_ne (s : State) {p q : Nat} (v : Path) (other : q ≠ p) : pathAt (setPath s p v) q = pathAt s q := by
  simp [pathAt, setPath, SMap.getD, SMap.find?_ins_ne _ _ other]

/-- A focused lane keeps the path, and its other lanes are parked. -/
theorem focusEffect_focuses {s : State} {pid : Nat} (listed : (s.x.paths.find? pid).isSome = true) (h : Hdr) (m : Mask) :
    let u := focusEffect s h pid m
    u.m = s.m ∧ u.e = s.e ∧ (freePath s (warpOfPath pid) ≠ pid → (pathAt u pid).mask = m ∧ (pathAt u pid).focus = true ∧
      ((pathAt s pid).mask &&& ~~~m ≠ 0 → (pathAt u (freePath s (warpOfPath pid))).mask = (pathAt s pid).mask &&& ~~~m ∧
        (pathAt u (freePath s (warpOfPath pid))).parked = true)) := by
  unfold focusEffect
  extract_lets p w rest s1 s2 u
  have first : pathAt s1 pid = { p with mask := m, focus := true } := pathAt_setPath_self s pid _
  by_cases whole : rest = 0
  · have same : s2 = s1 := if_pos whole
    have path : pathAt s2 pid = pathAt s1 pid := congrArg (pathAt · pid) same
    have kept : s2.m = s.m ∧ s2.e = s.e := by
      rw [same]
      exact ⟨rfl, rfl⟩
    refine ⟨kept.1, kept.2, fun _ => ?_⟩
    change (pathAt s2 pid).mask = m ∧ (pathAt s2 pid).focus = true ∧ _
    rw [path, first]
    exact ⟨rfl, rfl, fun left => absurd whole left⟩
  · have parks : s2 = setPath s1 (freePath s1 w) { p with
        mask := rest, slotIx := none, seq := 0, parked := true, dbgCause := p.dbgCause ||| 64 } := if_neg whole
    have free : freePath s1 w = freePath s w := freePath_setPath listed _ w
    rw [free] at parks
    have kept : s2.m = s.m ∧ s2.e = s.e := by
      rw [parks]
      exact ⟨rfl, rfl⟩
    refine ⟨kept.1, kept.2, fun apart => ?_⟩
    have path : pathAt s2 pid = pathAt s1 pid := (congrArg (pathAt · pid) parks).trans (pathAt_setPath_ne s1 _ apart.symm)
    have parked : pathAt s2 (freePath s w) = { p with
        mask := rest, slotIx := none, seq := 0, parked := true, dbgCause := p.dbgCause ||| 64 } :=
      (congrArg (pathAt · (freePath s w)) parks).trans (pathAt_setPath_self s1 _ _)
    change (pathAt s2 pid).mask = m ∧ (pathAt s2 pid).focus = true ∧
      (_ → (pathAt s2 (freePath s w)).mask = _ ∧ (pathAt s2 (freePath s w)).parked = true)
    rw [path, first, parked]
    exact ⟨rfl, rfl, fun _ => ⟨rfl, rfl⟩⟩

theorem execDebugFocus_focuses {s : State} {h : Hdr} {p : PathName} {pid : Nat} (lane : p.mask ≠ 0) (turned : turnedAway s h shaderOnly = none)
    (named : namedPath s { p with mask := (pathAt s ((namedPath s p).getD 0)).mask } = some pid) (held : (pathAt s pid).held = true)
    (one : oneLane (pathAt s pid) p.mask = true) (unfocused : (pathsOf s (warpOfPath pid)).any (fun x => x.2.focus) = false)
    (attached : notAttached s h = false) (own : (gangAt s (warpAt s (warpOfPath pid)).gang).ctx = ctxKey h) :
    exec (.debugFocus h p) s = .next (focusEffect s h pid p.mask) := by
  have shape : exec (.debugFocus h p) s = execDebugFocus h p s := rfl
  rw [(namedPath_mem named).2] at unfocused
  rw [shape, execDebugFocus, if_neg lane, named]
  simp only [request, turned, firstFail, held, one, unfocused, attached, own, Bool.not_true, bne_self_eq_false, Bool.false_eq_true, if_false]

/-- A path at a word stands there already. -/
theorem rebuild_of_word {s : State} {pid : Nat} (kind : Nat) (word : imageOf s pid = none) : rebuild s pid kind = s := by
  rw [rebuild, word]

theorem execReadValues_reads {s : State} {h : Hdr} {p : PathName} {pid : Nat} (turned : turnedAway s h shaderOnly = none)
    (attached : notAttached s h = false) (named : heldPath s h p = some pid) (values : List Nat) :
    exec (.readValues h p values) s = .next (done s h (values.flatMap (fun v => (pathAt s pid).mask.lanes.map (fun l =>
      getVal (rebuild s pid 0) (threadKey pid l) (pathAt s pid).frames.length v)))) := by
  have shape : exec (.readValues h p values) s = execReadValues h p values s := rfl
  rw [shape, execReadValues]
  simp only [request, turned, stepCheck, firstFail, attached, named, Option.isNone_some, Option.getD_some, Bool.false_eq_true, if_false]

/-- Settles O55: each request is answered (`request_answers`), and its effect is that of the lemma for it. -/
theorem debuggerAndDeviceRequestsAreAnswered : Obligations.DebuggerAndDeviceRequestsAreAnswered := by
  intro s h canon ctx no ans every d dieIs on steps noLaunch
  refine ⟨?_, ?_, execDebugBreakpoint_answers s h, execDebugWatchpoint_answers s h, fun id scope freeze => ⟨?_, ?_⟩, fun p => ⟨?_, ?_⟩,
    ?_, ?_, fun base size => ?_, fun ix => ?_, fun b => request_setDie, fun k => ?_, execFwIdentity_answers s h, execFwAttest_answers s h,
    fun a len bs => execFwProvision_writes s h, execFwActivate_answers s h, execPowerSensors_answers s h, fun w => ?_,
    fun r a => request_setDie, execRetrainHop_answers s h⟩
  · exact request_answers fun _ _ => attachSet_attaches s h true
  · exact request_answers fun _ _ => attachSet_attaches s h false
  · exact request_answers fun _ _ => stopEffect_stops s h id scope freeze
  · exact request_answers fun _ _ => releaseEffect_releases s h id scope
  · exact request_answers fun _ _ => beginStep_lets s h p false
  · exact request_answers fun _ _ => beginStep_lets s h p true
  · intro p pid lane turned named q held one unfocused attached own
    obtain ⟨memory, engines, focuses⟩ := focusEffect_focuses (namedPath_mem named).1 h p.mask
    exact ⟨_, execDebugFocus_focuses lane turned named held one unfocused attached own, memory, engines, focuses⟩
  · intro p values pid turned attached named t
    have rebuilt : t = rebuild s pid 0 := by
      by_cases word : imageOf s pid = none
      · rw [rebuild_of_word 0 word]
        exact if_pos word
      · exact if_neg word
    rw [rebuilt]
    exact execReadValues_reads turned attached named values
  · exact ⟨execEventRing_answers s h base size, execManifestRing_answers s h base size⟩
  · exact ⟨execEventReadIndex_answers s h ix, execManifestReadIndex_answers s h ix⟩
  · exact request_answers fun _ _ => ⟨rfl, rfl, rfl, rfl, rfl⟩
  · exact request_answers fun _ _ => ⟨rfl, rfl, rfl, rfl, rfl⟩

end Sys2Proof.Machine
end

section
/-!
SUPPORT. O54: what the management kernel does to its tables, ranges and imports (R68, R79, R81, R85, R422).
-/
namespace Sys2Proof.Machine

/-! ### Tables (R74, R422) -/

theorem kernelOnly_takeFrames {s t : State} {die n b : Nat} (taken : takeFrames s die n = some (t, b)) : KernelOnly s t := by
  unfold takeFrames at taken
  dsimp only at taken
  split at taken
  · cases taken
  · simp only [Option.some.injEq, Prod.mk.injEq] at taken
    exact taken.1 ▸ kernelOnly_setDie _ _ _

theorem kernelOnly_mapPages {ctx hi : Nat} {e : Word} {free : Bool} (n : Nat) {va frame : Nat} {s t : State}
    (mapped : mapPages ctx hi e free n va frame s = some t) : KernelOnly s t := by
  induction n generalizing va frame s with
  | zero =>
    rw [mapPages, Option.some.injEq] at mapped
    exact mapped ▸ .refl s
  | succ n ih =>
    unfold mapPages at mapped
    dsimp only at mapped
    split at mapped
    · exact Option.some.inj mapped ▸ .refl s
    · split at mapped
      · cases mapped
      · next s1 put => exact (kernelOnly_putEntry _ _ _ _ _ put).trans (ih mapped)

theorem kernelOnly_mapRange {s t : State} {ctx base len : Nat} {e : Word} (mapped : mapRange s ctx base len e = some t) : KernelOnly s t :=
  kernelOnly_mapPages _ mapped

theorem kernelOnly_clearRange (die lo hi fuel : Nat) {table base : Nat} {s t : State}
    (cleared : clearRange die lo hi fuel table base s = some t) : KernelOnly s t := by
  induction fuel generalizing table base s t with
  | zero =>
    rw [clearRange, Option.some.injEq] at cleared
    exact cleared ▸ .refl s
  | succ fuel ih =>
    unfold clearRange at cleared
    dsimp only at cleared
    refine foldl_bind_inv (KernelOnly s) (fun u i v only ran => only.trans ?_) _ (fun u hu => Option.some.inj hu ▸ .refl s) cleared
    split at ran
    · exact ih ran
    · split at ran
      · exact Option.some.inj ran ▸ .refl u
      · split at ran
        · exact Option.some.inj ran ▸ kernelOnly_writeMem ..
        · split at ran
          · cases ran
          · next s1 b taken =>
            exact (kernelOnly_takeBlock taken).trans ((kernelOnly_fillTable8 ..).trans ((kernelOnly_writeMem ..).trans (ih ran)))

theorem kernelOnly_importPages {die ctx : Nat} {v : Word} {x : ExportRec} {rights : BitVec 4} {ord window : Nat} (n : Nat) {s t : State}
    (imported : importPages die ctx v x rights ord window n s = some t) : KernelOnly s t := by
  induction n generalizing t with
  | zero =>
    rw [importPages, Option.some.injEq] at imported
    exact imported ▸ .refl s
  | succ n ih =>
    unfold importPages at imported
    split at imported
    · cases imported
    · next u first =>
      split at imported
      · exact Option.some.inj imported ▸ ih first
      · exact (ih first).trans (kernelOnly_putEntry _ _ _ _ _ imported)

/-! ### Ranges that leave (R79, R81, R85) -/

/-- The memory side changes, and what the dies, the imports and the exports keep. -/
def RangesOnly (s t : State) : Prop := ∃ m dies imports exports,
  t = { s with m := m, h := { s.h with dies := dies, imports := imports, exports := exports } }

theorem RangesOnly.refl (s : State) : RangesOnly s s := ⟨_, _, _, _, rfl⟩

theorem RangesOnly.trans {s t u : State} (first : RangesOnly s t) (second : RangesOnly t u) : RangesOnly s u := by
  obtain ⟨_, _, _, _, rfl⟩ := first
  obtain ⟨_, _, _, _, rfl⟩ := second
  exact ⟨_, _, _, _, rfl⟩

theorem RangesOnly.of_kernel {s t : State} (only : KernelOnly s t) : RangesOnly s t := by
  obtain ⟨_, _, rfl⟩ := only
  exact ⟨_, _, _, _, rfl⟩

theorem RangesOnly.of_memory {s t : State} (only : MemoryOnly s t) : RangesOnly s t := by
  obtain ⟨_, rfl⟩ := only
  exact ⟨_, _, _, _, rfl⟩

/-- What does not change with ranges. -/
structure RangesApart (s t : State) : Prop where
  exec : t.x = s.x
  engines : t.e = s.e
  debug : t.d = s.d
  out : t.h.out = s.h.out
  handles : t.h.handles = s.h.handles
  deferred : t.h.deferred = s.h.deferred

theorem RangesOnly.apart {s t : State} (only : RangesOnly s t) : RangesApart s t := by
  obtain ⟨_, _, _, _, rfl⟩ := only
  exact ⟨rfl, rfl, rfl, rfl, rfl, rfl⟩

theorem rangesOnly_unmapRange {s t : State} {ctx lo hi : Nat} (unmapped : unmapRange s ctx lo hi = some t) : RangesOnly s t := by
  obtain ⟨u, cleared, rfl⟩ := Option.map_eq_some_iff.1 unmapped
  obtain ⟨mem, dies, rfl⟩ := kernelOnly_clearRange _ _ _ _ cleared
  exact ⟨_, _, _, _, rfl⟩

theorem rangesOnly_unmapRange_getD (s : State) (ctx lo hi : Nat) : RangesOnly s ((unmapRange s ctx lo hi).getD s) := by
  cases unmapped : unmapRange s ctx lo hi with
  | none => exact .refl s
  | some t => exact rangesOnly_unmapRange unmapped

theorem rangesOnly_reportImports (s : State) (ids : List Nat) : RangesOnly s (reportImports s ids) :=
  foldl_inv (RangesOnly s) _ (fun t n only => by
    split
    · exact only
    · obtain ⟨_, _, _, _, rfl⟩ := only
      exact ⟨_, _, _, _, rfl⟩) s ids (.refl s)

theorem rangesOnly_finishUnmap (s : State) (ctx lo hi : Nat) : RangesOnly s (finishUnmap s ctx lo hi) := by
  unfold finishUnmap
  split
  · exact .refl s
  · exact RangesOnly.trans ⟨_, _, _, _, rfl⟩ (rangesOnly_reportImports _ _)

theorem rangesOnly_freeBlocks (s : State) (die : Nat) (bs : List Nat) : RangesOnly s (freeBlocks s die bs) := ⟨_, _, _, _, rfl⟩

/-! ### Invalidation (R79) -/

/-- No entry of a TLB that an invalidation has passed translates an address of the range. -/
theorem tlbFind_invalidate (s : State) (core ctx lo hi : Nat) {va : Word} (low : lo ≤ va.toNat) (high : va.toNat < hi) :
    tlbFind (invalidate s ctx lo hi) core ctx va = none := by
  let keep := fun t : TlbEntry => !(t.ctx == ctx && (decide (t.va < hi) && decide (lo < t.va + 2 ^ t.lg)))
  have kept : ∀ (m : SMap (List TlbEntry)) k, SMap.getD (m.map (fun e => (e.1, e.2.filter keep))) [] k = (m.getD [] k).filter keep := by
    intro m k
    rw [SMap.getD, SMap.getD]
    have found : SMap.find? (m.map (fun e => (e.1, e.2.filter keep))) k = (m.find? k).map (List.filter keep) := by
      induction m with
      | nil => rfl
      | cons p m ih =>
        rw [List.map_cons, SMap.find?, SMap.find?, ih]
        split <;> rfl
    rw [found]
    cases m.find? k <;> rfl
  unfold tlbFind
  have lists : (invalidate s ctx lo hi).m.tlb0.getD [] core ++ (invalidate s ctx lo hi).m.tlb1.getD [] (clusterOf core) =
      (s.m.tlb0.getD [] core ++ s.m.tlb1.getD [] (clusterOf core)).filter keep := by
    rw [List.filter_append, ← kept, ← kept]
    rfl
  rw [lists, List.find?_eq_none]
  intro t mem covers
  have stays := (List.mem_filter.1 mem).2
  simp only [Bool.and_eq_true, beq_iff_eq] at covers
  obtain ⟨own, start⟩ := covers
  have from_ : t.va ≤ va.toNat := start ▸ Nat.div_mul_le_self _ _
  have to_ : va.toNat < t.va + 2 ^ t.lg := by
    have rest := Nat.mod_lt va.toNat (Nat.two_pow_pos t.lg)
    have split := Nat.div_add_mod' va.toNat (2 ^ t.lg)
    omega
  simp only [keep, own, Bool.not_eq_true', Bool.and_eq_false_iff, beq_self_eq_true, decide_eq_false_iff_not, reduceCtorEq, false_or] at stays
  omega

end Sys2Proof.Machine
end

section
/-!
SUPPORT. O54: launches that are submitted and cancelled (R329, R337).
-/
namespace Sys2Proof.Machine

theorem launchAt_setLaunch (s : State) (l : Nat) (v : Launch) : launchAt (setLaunch s l v) l = v := by
  simp [launchAt, setLaunch, SMap.getD, SMap.find?_ins_self]

theorem launchAt_setLaunch_ne (s : State) {l k : Nat} (v : Launch) (other : k ≠ l) : launchAt (setLaunch s l v) k = launchAt s k := by
  simp [launchAt, setLaunch, SMap.getD, SMap.find?_ins_ne _ _ other]

theorem queueAt_setQueue (s : State) (die q : Nat) (v : HwQueue) : queueAt (setQueue s die q v) die q = v := by
  simp [queueAt, setQueue, SMap.getD, SMap.find?_ins_self]

/-- A queue that is set holds what it is set to; every other, what it held. -/
theorem queueAt_setQueue_cases (s : State) (die q : Nat) (v : HwQueue) (die' q' : Nat) :
    queueAt (setQueue s die q v) die' q' = v ∧ queueAt s die' q' = queueAt s die q ∨
      queueAt (setQueue s die q v) die' q' = queueAt s die' q' := by
  by_cases same : die' * 64 + q' = die * 64 + q
  · left
    simp [queueAt, setQueue, SMap.getD, same, SMap.find?_ins_self]
  · right
    simp [queueAt, setQueue, SMap.getD, SMap.find?_ins_ne _ _ same]

/-! ### What a cancel changes (R337) -/

/-- Only launches that are dropped, their queues, their captured gangs and the records of events change. -/
structure Cancels (s t : State) : Prop where
  memory : t.m = s.m
  engines : t.e = s.e
  out : t.h.out = s.h.out
  agenda : s.c.agenda ⊆ t.c.agenda
  launch : ∀ k, (launchAt t k).record = (launchAt s k).record ∧ (launchAt t k).die = (launchAt s k).die ∧
    (launchAt t k).queue = (launchAt s k).queue
  dropped : ∀ k, (launchAt s k).next = gangTotal (launchAt s k).record → (launchAt t k).next = gangTotal (launchAt s k).record
  queues : ∀ die q, (queueAt t die q).launches ⊆ (queueAt s die q).launches
  rising : s.x.gangs.risingFrom 0 = true → t.x.gangs.risingFrom 0 = true
  resident : ∀ g x, s.x.gangs.find? g = some x → isResident x = true → t.x.gangs.find? g = some x

namespace Cancels
variable {s t u : State}

theorem refl (s : State) : Cancels s s where
  memory := rfl
  engines := rfl
  out := rfl
  agenda := List.Subset.refl _
  launch _ := ⟨rfl, rfl, rfl⟩
  dropped _ h := h
  queues _ _ := List.Subset.refl _
  rising h := h
  resident _ _ h _ := h

theorem trans (first : Cancels s t) (second : Cancels t u) : Cancels s u where
  memory := second.memory.trans first.memory
  engines := second.engines.trans first.engines
  out := second.out.trans first.out
  agenda := List.Subset.trans first.agenda second.agenda
  launch k := by
    obtain ⟨r, d, q⟩ := first.launch k
    obtain ⟨r', d', q'⟩ := second.launch k
    exact ⟨r'.trans r, d'.trans d, q'.trans q⟩
  dropped k h := by
    have record := (first.launch k).1
    rw [← record]
    exact second.dropped k (by rw [record]; exact first.dropped k h)
  queues die q := List.Subset.trans (second.queues die q) (first.queues die q)
  rising h := second.rising (first.rising h)
  resident g x h r := second.resident g x (first.resident g x h r) r

/-- What is noted of the dies, contexts and captures, and what is due, is no part of a launch. -/
theorem of_host (s : State) (dies : SMap Die) (ctxs : SMap Context) (captures : SMap CapRec) (waiting : SMap (List Nat)) (more : List Instr) :
    Cancels s { s with c := { s.c with agenda := s.c.agenda ++ more }, h := { s.h with
      dies := dies, ctxs := ctxs, captures := captures, waiting := waiting } } :=
  { refl s with agenda := List.subset_append_left _ _ }

theorem of_setLaunch (s : State) (l : Nat) {v : Launch} (record : v.record = (launchAt s l).record) (die : v.die = (launchAt s l).die)
    (queue : v.queue = (launchAt s l).queue) (next : v.next = (launchAt s l).next ∨ v.next = gangTotal (launchAt s l).record) :
    Cancels s (setLaunch s l v) :=
  { refl s with
    launch := fun k => by
      by_cases same : k = l
      · subst same
        rw [launchAt_setLaunch]
        exact ⟨record, die, queue⟩
      · rw [launchAt_setLaunch_ne s v same]
        exact ⟨rfl, rfl, rfl⟩
    dropped := fun k h => by
      by_cases same : k = l
      · subst same
        rw [launchAt_setLaunch]
        rcases next with kept | all
        · exact kept.trans h
        · exact all
      · rw [launchAt_setLaunch_ne s v same]
        exact h }

theorem of_setQueue (s : State) (die q : Nat) {v : HwQueue} (fewer : v.launches ⊆ (queueAt s die q).launches) :
    Cancels s (setQueue s die q v) :=
  { refl s with
    queues := fun die' q' => by
      rcases queueAt_setQueue_cases s die q v die' q' with ⟨set, same⟩ | kept
      · rw [set, same]
        exact fewer
      · rw [kept]
        exact List.Subset.refl _ }

theorem of_setGang (s : State) (g : Nat) (v : Gang) (gone : ∀ x, s.x.gangs.find? g = some x → isResident x = false) :
    Cancels s (setGang s g v) :=
  { refl s with
    rising := fun h => SMap.risingFrom_ins _ v h (Nat.zero_le g)
    resident := fun k x found stays => by
      have other : k ≠ g := fun same => by
        subst same
        rw [gone x found] at stays
        cases stays
      exact (SMap.find?_ins_ne _ v other).trans found }

theorem foldl {β : Type} {f : State → β → State} (step : ∀ t b, Cancels t (f t b)) (s : State) (l : List β) : Cancels s (l.foldl f s) :=
  foldl_inv (Cancels s) f (fun t b h => h.trans (step t b)) s l (refl s)

end Cancels

theorem cancels_postEvent (s : State) (f : EvFields) : Cancels s (postEvent s f) := by
  have shape : ∃ dies, postEvent s f = { s with h := { s.h with dies := dies } } := ⟨_, rfl⟩
  obtain ⟨dies, shape⟩ := shape
  rw [shape]
  exact { Cancels.refl s with }

theorem cancels_enqueue (s : State) (i : Instr) : Cancels s (enqueue s i) :=
  { Cancels.refl s with agenda := List.subset_append_left _ _ }

/-- Gangs not dispatched are dropped, and the launch leaves its queue. -/
theorem dropGangs_drops (s : State) (l : Nat) : Cancels s (dropGangs s l) ∧
    (launchAt (dropGangs s l) l).next = gangTotal (launchAt s l).record ∧
    l ∉ (queueAt (dropGangs s l) (launchAt s l).die (launchAt s l).queue).launches := by
  unfold dropGangs
  extract_lets la r event s1 q s2 dropped
  have events : Cancels s s1 := .foldl (fun t i => cancels_postEvent t _) s _
  have queue : Cancels s1 s2 := .of_setQueue s1 la.die la.queue fun x mem => List.mem_of_mem_filter mem
  have both := events.trans queue
  obtain ⟨record, die, queue'⟩ := both.launch l
  refine ⟨both.trans (.of_setLaunch s2 l record.symm die.symm queue'.symm (.inr (by rw [record]))), ?_, ?_⟩
  · rw [launchAt_setLaunch]
  · have set : queueAt s2 la.die la.queue = { q with launches := q.launches.filter (· != l) } := queueAt_setQueue s1 _ _ _
    have kept : queueAt (setLaunch s2 l { la with next := gangTotal r, bad := la.bad || dropped }) la.die la.queue =
        queueAt s2 la.die la.queue := rfl
    rw [kept, set]
    intro mem
    simpa using (List.mem_filter.1 mem).2

/-- A captured gang that is dropped is no longer, and was not, resident. -/
theorem cancels_dropCaptured {s : State} {g : Nat} (gone : ∀ x, s.x.gangs.find? g = some x → isResident x = false) :
    Cancels s (dropCaptured s g) := by
  unfold dropCaptured
  split
  · exact .refl s
  · next r _ =>
    extract_lets q s1 host s2 event s3 la
    have freed : Cancels s s2 := by
      obtain ⟨ctxs, captures, only⟩ := capturesOnly_freeSave s r.ctx r.off
      have shape : s1 = _ := only
      simp only [s2, host, shape]
      exact { Cancels.refl s with }
    have posted : Cancels s2 s3 := cancels_postEvent s2 _
    have gangs : s3.x.gangs = s.x.gangs := by
      have same : s3.x = s2.x := rfl
      obtain ⟨ctxs, captures, only⟩ := capturesOnly_freeSave s r.ctx r.off
      have shape : s1 = _ := only
      rw [same]
      simp only [s2, shape]
    have retired : Cancels s3 (setGang s3 g { q with state := .retired }) := .of_setGang s3 g _ (by rw [gangs]; exact gone)
    exact (freed.trans posted).trans (retired.trans (.of_setLaunch _ q.launch (v := { la with live := la.live - 1, bad := true }) rfl rfl rfl (.inl rfl)))

/-- A gang that is not resident does not become it when a captured one is dropped. -/
theorem gone_dropCaptured {s : State} {g k : Nat} (gone : ∀ x, s.x.gangs.find? k = some x → isResident x = false) :
    ∀ x, (dropCaptured s g).x.gangs.find? k = some x → isResident x = false := by
  have gangs : (dropCaptured s g).x.gangs = s.x.gangs ∨
      (dropCaptured s g).x.gangs = s.x.gangs.ins g { gangAt s g with state := .retired } := by
    unfold dropCaptured
    split
    · exact .inl rfl
    · next r _ =>
      right
      obtain ⟨ctxs, captures, freed⟩ := capturesOnly_freeSave s r.ctx r.off
      simp only [freed]
      rfl
  rcases gangs with same | set
  · rwa [same]
  · rw [set]
    by_cases it : k = g
    · subst it
      rw [SMap.find?_ins_self]
      intro x found
      obtain rfl := Option.some.inj found
      rfl
    · rwa [SMap.find?_ins_ne _ _ it]

/-- The captured gangs of a launch. -/
theorem cancels_dropAll (s : State) (gs : List (Nat × GangState)) (gone : ∀ g ∈ gs, ∀ x, s.x.gangs.find? g.1 = some x → isResident x = false) :
    Cancels s (gs.foldl (fun t g => dropCaptured t g.1) s) := by
  induction gs generalizing s with
  | nil => exact .refl s
  | cons g gs ih =>
    exact (cancels_dropCaptured (gone g List.mem_cons_self)).trans
      (ih _ fun k mem => gone_dropCaptured (gone k (List.mem_cons_of_mem _ mem)))

/-- What a cancel brings about for a launch of a record, a die and a queue. -/
structure CancelDone (s u : State) (l : Nat) (r : BitVec 1024) (die queue : Nat) : Prop where
  next : (launchAt u l).next = gangTotal r
  queue : l ∉ (queueAt u die queue).launches
  halts : ∀ g x, s.x.gangs.find? g = some x → x.launch = l → isResident x = true → Instr.halt g .cancel ∈ u.c.agenda

theorem CancelDone.later {s u v : State} {l : Nat} {r : BitVec 1024} {die queue : Nat} (done : CancelDone s u l r die queue)
    (record : (launchAt u l).record = r) (later : Cancels u v) : CancelDone s v l r die queue where
  next := by
    rw [← record]
    exact later.dropped l (by rw [record]; exact done.next)
  queue mem := done.queue (later.queues _ _ mem)
  halts g x found mine stays := later.agenda (done.halts g x found mine stays)

theorem cancelLaunch_cancels {s : State} (rising : s.x.gangs.risingFrom 0 = true) (l : Nat) : Cancels s (cancelLaunch s l) ∧
    CancelDone s (cancelLaunch s l) l (launchAt s l).record (launchAt s l).die (launchAt s l).queue := by
  unfold cancelLaunch
  extract_lets s1 mine s2 s3
  obtain ⟨dropped, next, queue⟩ := dropGangs_drops s l
  have captured : Cancels s1 s2 := cancels_dropAll s1 _ fun g mem x found => by
    obtain ⟨listed, state⟩ := List.mem_filter.1 mem
    obtain ⟨q, hq, rfl⟩ := List.mem_map.1 listed
    have own := SMap.find?_of_mem (dropped.rising rising) (List.mem_of_mem_filter hq)
    obtain rfl := Option.some.inj (own.symm.trans found)
    have is : q.2.state = .captured := eq_of_beq state
    simp [isResident, is]
  have halted : Cancels s2 s3 := .foldl (fun t g => cancels_enqueue t _) s2 _
  have cancelled : Cancels s3 (if launchOver s3 l then enqueue s3 (.launchRetire l) else s3) := by
    split
    · exact cancels_enqueue s3 _
    · exact .refl s3
  have first : CancelDone s s3 l (launchAt s l).record (launchAt s l).die (launchAt s l).queue := by
    have both := captured.trans halted
    refine ⟨?_, fun mem => queue (both.queues _ _ mem), fun g x found own stays => ?_⟩
    · have record := (dropped.launch l).1
      rw [← record]
      exact both.dropped l (by rw [record]; exact next)
    · have held := captured.resident g x (dropped.resident g x found stays) stays
      have listed : g ∈ launchGangs s2 l := by
        refine List.mem_map.2 ⟨(g, x), List.mem_filter.2 ⟨SMap.mem_of_find? held, ?_⟩, rfl⟩
        simp [own, stays]
      exact foldl_reaches (f := fun t g => enqueue t (.halt g .cancel)) (Q := fun _ => True) (P := fun t => Instr.halt g .cancel ∈ t.c.agenda)
        (fun _ _ _ => trivial) (fun t k h => List.mem_append_left _ h) (fun t _ => List.mem_append_right _ (List.mem_singleton_self _))
        listed trivial
  have all := (dropped.trans captured).trans halted
  exact ⟨all.trans cancelled, first.later (all.launch l).1 cancelled⟩

/-- Every launch of a list is cancelled. -/
theorem cancelLaunches_cancel {s : State} (rising : s.x.gangs.risingFrom 0 = true) (ls : List (Nat × Launch)) :
    Cancels s (ls.foldl (fun t l => cancelLaunch t l.1) s) ∧ ∀ l ∈ ls,
      CancelDone s (ls.foldl (fun t l => cancelLaunch t l.1) s) l.1 (launchAt s l.1).record (launchAt s l.1).die (launchAt s l.1).queue := by
  refine ⟨(foldl_inv (fun t => Cancels s t) _ (fun t l h => h.trans (cancelLaunch_cancels (h.rising rising) l.1).1) s ls (.refl s)),
    fun l mem => ?_⟩
  refine (foldl_reaches (f := fun t (l : Nat × Launch) => cancelLaunch t l.1) (Q := fun t => Cancels s t)
    (P := fun t => Cancels s t ∧ CancelDone s t l.1 (launchAt s l.1).record (launchAt s l.1).die (launchAt s l.1).queue)
    (fun t k h => h.trans (cancelLaunch_cancels (h.rising rising) k.1).1) (fun t k h => ?_) (fun t h => ?_) mem (.refl s)).2
  · obtain ⟨step, -⟩ := cancelLaunch_cancels (h.1.rising rising) k.1
    exact ⟨h.1.trans step, h.2.later (h.1.launch l.1).1 step⟩
  · obtain ⟨step, done⟩ := cancelLaunch_cancels (h.rising rising) l.1
    obtain ⟨record, die, queue⟩ := h.launch l.1
    rw [record, die, queue] at done
    exact ⟨h.trans step, done.next, done.queue, fun g x found own stays => done.halts g x (h.resident g x found stays) own stays⟩

end Sys2Proof.Machine
end

section
/-!
SUPPORT. O54: the requests of the launch, mem and handle endpoints (R42, R68, R69, R79 to R85, R320, R328 to R331, R357, R391 to R396).
-/
namespace Sys2Proof.Machine

theorem firstFail_cons_none {bad : Bool} {code : Nat} {l : List (Bool × Nat)} :
    firstFail ((bad, code) :: l) = none ↔ bad = false ∧ firstFail l = none := by
  cases bad <;> simp [firstFail]

section
variable (s : State) (h : Hdr)

/-! ### Launches, queues, events and settings (R276, R328 to R331, R337, R366) -/

theorem execLaunchSubmit_answers (q : Nat) (r : BitVec 1024) : Answers s h shaderOnly (launchCheck s h q r) (exec (.launchSubmit h q r) s)
    (fun u => Replied s u h [] ∧ Aside s u ∧ (queueAt u h.die q).launches = (queueAt s h.die q).launches ++ [s.c.nextId] ∧
      (queueAt u h.die q).prio = (queueAt s h.die q).prio ∧
      let l := launchAt u s.c.nextId
      l.die = h.die ∧ l.ctx = ctxKey h ∧ l.record = r ∧ l.next = 0 ∧ l.live = 0 ∧ l.retired = false) := by
  have queue (t : State) (v : HwQueue) : queueAt (done (setQueue t h.die q v) h []) h.die q = v := queueAt_setQueue t h.die q v
  have launch (v : Launch) (w : HwQueue) :
      launchAt (done (setQueue (setLaunch (takeId s) s.c.nextId v) h.die q w) h []) s.c.nextId = v := launchAt_setLaunch _ _ v
  refine request_answers fun _ _ => ⟨rfl, ⟨rfl, rfl, rfl, rfl, rfl, rfl⟩, ?_⟩
  unfold submitLaunch
  dsimp only
  rw [queue, launch]
  exact ⟨rfl, rfl, rfl, rfl, rfl, rfl, rfl, rfl⟩

theorem execLaunchCancel_answers (gangs : s.x.gangs.risingFrom 0 = true) (launches : s.h.launches.risingFrom 0 = true) (id : Word)
    (quiet : ∀ i ∈ s.c.agenda, i ≠ .gangDispatch h.die) :
    Answers s h shaderOnly (firstFail [((launchesNamed s h id).isEmpty, 0x3B)]) (exec (.launchCancel h id) s) (fun u => Replied s u h [] ∧
      u.m = s.m ∧ u.e = s.e ∧ ∀ l ∈ launchesNamed s h id, (launchAt u l.1).next = gangTotal l.2.record ∧
        (∀ q, l.1 ∉ (queueAt u h.die q).launches ∨ q ≠ l.2.queue) ∧
        ∀ g x, (g, x) ∈ s.x.gangs → x.launch = l.1 → isResident x = true → Instr.halt g .cancel ∈ u.c.agenda) := by
  have shape : exec (.launchCancel h id) s = execLaunchCancel h id s := rfl
  rw [shape, execLaunchCancel, if_neg ?quiet]
  case quiet =>
    rw [Bool.not_eq_true, List.any_eq_false]
    intro i mem
    split
    · next d =>
      have other := quiet _ mem
      simpa using fun same => other (congrArg Instr.gangDispatch same)
    · exact Bool.false_ne_true
  obtain ⟨cancels, done⟩ := cancelLaunches_cancel gangs (launchesNamed s h id)
  refine request_answers fun _ _ => ⟨?_, cancels.memory, cancels.engines, fun l mem => ?_⟩
  · exact congrArg (· ++ [.reply h 0 0 0 []]) cancels.out
  · obtain ⟨listed, named⟩ := List.mem_filter.1 mem
    have own : launchAt s l.1 = l.2 := by rw [launchAt, SMap.getD, SMap.find?_of_mem launches listed]; rfl
    have die : l.2.die = h.die := by
      simp only [Bool.and_eq_true, beq_iff_eq] at named
      exact named.1.1.1
    obtain ⟨next, queue, halts⟩ := done l mem
    rw [own] at next queue
    rw [die] at queue
    refine ⟨next, fun q => ?_, fun g x found mine stays => halts g x (SMap.find?_of_mem gangs found) mine stays⟩
    by_cases same : q = l.2.queue
    · subst same
      exact .inl queue
    · exact .inr same

theorem execQueuePriority_answers (q p : Nat) : Answers s h shaderOnly
    (firstFail [(decide (63 < q), 0x3A), (decide (7 < p), offCode 0x3A 1), (!(queueAt s h.die q).launches.isEmpty, 0x3A)])
    (exec (.queuePriority h q p) s) (fun u => Replied s u h [] ∧ Aside s u ∧ (queueAt u h.die q).prio = p) :=
  request_answers fun _ _ => ⟨rfl, ⟨rfl, rfl, rfl, rfl, rfl, rfl⟩, congrArg HwQueue.prio (queueAt_setQueue s h.die q _)⟩

theorem evAt_setEv {s : State} (rising : s.h.events.risingFrom 0 = true) (h : Hdr) (i : Nat) (v : EvState) :
    evAt (done (setEv s h.die i v) h []) h.die i = v :=
  SMap.getD_putD_self_of_rising _ _ rising

theorem execEvent_answers (rising : s.h.events.risingFrom 0 = true) (i : Nat) :
    Answers s h shaderOnly (firstFail [(decide (4095 < i), 0x3B)]) (exec (.eventSet h i) s)
      (fun u => Replied s u h [] ∧ Aside s u ∧ evAt u h.die i = .signalled) ∧
    Answers s h shaderOnly (firstFail [(decide (4095 < i), 0x3B)]) (exec (.eventReset h i) s)
      (fun u => Replied s u h [] ∧ Aside s u ∧ evAt u h.die i = .reset) :=
  ⟨request_answers fun _ _ => ⟨rfl, ⟨rfl, rfl, rfl, rfl, rfl, rfl⟩, evAt_setEv rising h i _⟩,
    request_answers fun _ _ => ⟨rfl, ⟨rfl, rfl, rfl, rfl, rfl, rfl⟩, evAt_setEv rising h i _⟩⟩

theorem execDeviceSettings_answers (k det : Nat) : Answers s h shaderOnly
    (firstFail [(decide (k < 16) || decide (34 < k), 0x3B), (decide (1 < det), offCode 0x3B 1)]) (exec (.deviceSettings h k det) s)
    (fun u => Replied s u h [] ∧ Aside s u ∧ (dieAt u h.die).stallK = k ∧ (dieAt u h.die).det = (det == 1)) :=
  request_answers fun _ _ => ⟨rfl, ⟨rfl, rfl, rfl, rfl, rfl, rfl⟩, congrArg Die.stallK (dieAt_setDie s h.die _),
    congrArg Die.det (dieAt_setDie s h.die _)⟩

/-! ### Ranges (R68, R79, R81, R357, R400, R422) -/

/-- A reply to what changes ranges alone. -/
theorem replied_done {t : State} (only : RangesOnly s t) : Replied s (done t h []) h [] ∧ (done t h []).x = s.x ∧ (done t h []).e = s.e :=
  ⟨congrArg (fun out => out ++ [HostMsg.reply h 0 0 0 []]) only.apart.out, only.apart.exec, only.apart.engines⟩

theorem execMemMap_answers (base len leaf : BitVec 64) : Answers s h shaderOnly (firstFail [(rangeBad base len, rangeCode base),
    (templateBad s h.die leaf len, offCode 0x31 16), (notLive s h, 0x38),
    ((ctxEntries s (ctxKey h) base.toNat (base.toNat + len.toNat)).any (fun e => pteV e.2.2), 0x32),
    ((mapRange s (ctxKey h) base.toNat len.toNat leaf).isNone, 0x33)]) (exec (.memMap h base len leaf) s)
    (fun u => Replied s u h [] ∧ u.x = s.x ∧ u.e = s.e ∧ ∀ t, mapRange s (ctxKey h) base.toNat len.toNat leaf = some t → u.m = t.m) := by
  have shape : exec (.memMap h base len leaf) s = execMemMap h base len leaf s := rfl
  rw [shape, execMemMap]
  refine request_answers fun _ _ => ?_
  have only : ∀ t, mapRange s (ctxKey h) base.toNat len.toNat leaf = some t → RangesOnly s t := fun t mapped =>
    .of_kernel (kernelOnly_mapRange mapped)
  generalize mapRange s (ctxKey h) base.toNat len.toNat leaf = after at only ⊢
  cases after with
  | none => exact ⟨(replied_done s h (.refl s)).1, rfl, rfl, fun t none => by cases none⟩
  | some t =>
    obtain ⟨replied, x, e⟩ := replied_done s h (only t rfl)
    refine ⟨replied, x, e, fun t' same => ?_⟩
    obtain rfl := Option.some.inj same
    rfl

theorem execMemUnmap_answers (base len : BitVec 64) : let ctx := ctxKey h
    let hi := base.toNat + len.toNat
    let after := unmapRange s ctx base.toNat hi
    Answers s h shaderOnly (firstFail [(rangeBad base len, rangeCode base), (notLive s h, 0x38),
      ((ctxEntries s ctx base.toNat hi).isEmpty, 0x32), (after.isNone, 0x33)]) (exec (.memUnmap h base len false) s) (fun u =>
        u.x = s.x ∧ u.e = s.e ∧ ∀ t, after = some t →
          let busy := accessesIn t ctx base.toNat hi || countsIn t ctx base.toNat hi
          (busy = true → u.m = t.m ∧ u.h.out = s.h.out ∧ Instr.memUnmap h base len true ∈ u.h.deferred) ∧
          (busy = false → u.m = (finishUnmap t ctx base.toNat hi).m ∧ Replied s u h [])) := by
  have shape : exec (.memUnmap h base len false) s = execMemUnmap h base len false s := rfl
  rw [shape, execMemUnmap]
  dsimp only
  refine request_answers fun _ _ => ?_
  have only := rangesOnly_unmapRange_getD s (ctxKey h) base.toNat (base.toNat + len.toNat)
  generalize unmapRange s (ctxKey h) base.toNat (base.toNat + len.toNat) = after at only ⊢
  have value : ∀ t, after = some t → t = after.getD s := fun t some => by rw [some, Option.getD_some]
  generalize after.getD s = t at only value ⊢
  by_cases busy : rangeBusy t (ctxKey h) base.toNat (base.toNat + len.toNat) = true
  · rw [if_pos busy]
    refine ⟨only.apart.exec, only.apart.engines, fun t' some => ?_⟩
    rw [value t' some]
    exact ⟨fun _ => ⟨rfl, only.apart.out, List.mem_append_right _ (List.mem_singleton_self _)⟩,
      fun idle => absurd (busy.symm.trans idle) Bool.false_ne_true.symm⟩
  · rw [if_neg busy]
    obtain ⟨replied, x, e⟩ := replied_done s h (only.trans (rangesOnly_finishUnmap t (ctxKey h) base.toNat (base.toNat + len.toNat)))
    refine ⟨x, e, fun t' some => ?_⟩
    rw [value t' some]
    exact ⟨fun kept => absurd kept busy, fun _ => ⟨rfl, replied⟩⟩

theorem execMemInvalidate_answers (base len : BitVec 64) (part : base ≠ 0 ∨ len ≠ 0) : Answers s h shaderOnly
    (firstFail [(rangeBad base len, rangeCode base), (notLive s h, 0x38)]) (exec (.memInvalidate h base len) s) (fun u =>
      u.m.mem = s.m.mem ∧ u.x = s.x ∧ u.e = s.e ∧
        (∀ core va, base.toNat ≤ va.toNat → va.toNat < base.toNat + len.toNat → tlbFind u core (ctxKey h) va = none) ∧
        (accessesIn s (ctxKey h) base.toNat (base.toNat + len.toNat) = false → Replied s u h [])) := by
  have shape : exec (.memInvalidate h base len) s = execMemInvalidate h base len s := rfl
  have all : (base == 0 && len == 0) = false := by
    rw [← Bool.not_eq_true, Bool.and_eq_true, beq_iff_eq, beq_iff_eq]
    exact fun both => part.elim (absurd both.1) (absurd both.2)
  rw [shape, execMemInvalidate]
  simp only [all, Bool.not_false, Bool.true_and, Bool.false_eq_true, if_false]
  refine request_answers fun _ _ => ?_
  by_cases busy : accessesIn (invalidate s (ctxKey h) base.toNat (base.toNat + len.toNat)) (ctxKey h) base.toNat (base.toNat + len.toNat) = true
  · rw [if_pos busy]
    exact ⟨rfl, rfl, rfl, fun core va low high => tlbFind_invalidate s core _ _ _ low high,
      fun idle => absurd (busy.symm.trans idle) Bool.false_ne_true.symm⟩
  · rw [if_neg busy]
    exact ⟨rfl, rfl, rfl, fun core va low high => tlbFind_invalidate s core _ _ _ low high, fun _ => rfl⟩

/-- A request that sets its context. -/
theorem request_setCtx {check : Option Nat} {x : Context} : Answers s h shaderOnly check
    (request s h shaderOnly check (done (setCtx s (ctxKey h) x) h [])) (fun u => Replied s u h [] ∧ ctxAt u (ctxKey h) = x ∧
      (∀ c, c ≠ ctxKey h → ctxAt u c = ctxAt s c) ∧ Aside s u) :=
  request_answers fun _ _ => ⟨rfl, ctxAt_setCtx s _ x, fun _ other => ctxAt_setCtx_ne s x other, ⟨rfl, rfl, rfl, rfl, rfl, rfl⟩⟩

/-! ### CXL units and module copies (R68, R400) -/

theorem execCxlUnitAssign_assigns (n : Nat) : Answers s h shaderOnly (firstFail
    [(!unitExists s n || (match s.m.cxlOwner.find? n with | none => false | some d => d != h.die), 0x35), (notLive s h, 0x38)])
    (exec (.cxlUnitAssign h n true) s) (fun u => Replied s u h [] ∧ u.m.cxlOwner.find? n = some h.die ∧ u.m.mem = s.m.mem ∧ u.x = s.x) :=
  request_answers fun _ _ => ⟨rfl, SMap.find?_ins_self _ _ _, rfl, rfl⟩

theorem execCxlUnitAssign_releases (rising : s.m.cxlOwner.risingFrom 0 = true) (n : Nat) : Answers s h shaderOnly (firstFail
    [(!unitExists s n || s.m.cxlOwner.find? n != some h.die, 0x35), (notLive s h, 0x38)])
    (exec (.cxlUnitAssign h n false) s) (fun u => Replied s u h [] ∧ u.m.cxlOwner.find? n = none ∧ u.m.mem = s.m.mem ∧ u.x = s.x) :=
  request_answers fun _ _ => ⟨rfl, SMap.find?_del_self _ rising, rfl, rfl⟩

theorem execModuleCopy_answers (base : BitVec 64) (remote : Nat) (handle len : BitVec 64) (toLocal : Bool) : Answers s h shaderOnly
    (firstFail [(!rangeRight s (ctxKey h) (if toLocal = true then .wr else .rd) base.toNat len.toNat, 0x36),
      ((s.h.remote.find? (remoteKey remote handle)).isNone, offCode 0x36 8), (len.toNat % 64 != 0, offCode 0x36 18), (notLive s h, 0x38)])
    (exec (.moduleCopy h base remote handle len toLocal) s) (fun u => Replied s u h [] ∧ u.x = s.x ∧ u.e = s.e ∧
      (toLocal = false → u.m = s.m) ∧ (toLocal = true → ∀ far t, s.h.remote.find? (remoteKey remote handle) = some far →
        kernelWrite s (ctxKey h) base (far.getsD 0 0 len.toNat) = .ok t → u.m = t.m)) := by
  have shape : exec (.moduleCopy h base remote handle len toLocal) s = execModuleCopy h base remote handle len toLocal s := rfl
  rw [shape, execModuleCopy]
  refine request_answers fun _ _ => ?_
  cases toLocal with
  | false => exact ⟨rfl, rfl, rfl, fun _ => rfl, nofun⟩
  | true =>
    obtain ⟨ok, error⟩ := memoryOnly_kernelWrite (ctxKey h) (SMap.getsD ((s.h.remote.find? (remoteKey remote handle)).getD []) 0 0 len.toNat) s base
    simp only [if_true]
    cases wrote : kernelWrite s (ctxKey h) base (SMap.getsD ((s.h.remote.find? (remoteKey remote handle)).getD []) 0 0 len.toNat) with
    | ok t =>
      obtain ⟨replied, x, e⟩ := replied_done s h (.of_memory (ok t wrote))
      refine ⟨replied, x, e, nofun, fun _ far t' known ran => ?_⟩
      rw [known, Option.getD_some, ran] at wrote
      cases wrote
      rfl
    | error r =>
      obtain ⟨replied, x, e⟩ := replied_done s h (.of_memory (error r.1 r.2 wrote))
      refine ⟨replied, x, e, nofun, fun _ far t' known ran => ?_⟩
      rw [known, Option.getD_some, ran] at wrote
      cases wrote

/-! ### Contexts (R69) -/

theorem replied_setCtx {t : State} (only : RangesOnly s t) (x : Context) : Replied s (done (setCtx t (ctxKey h) x) h []) h [] ∧
    (done (setCtx t (ctxKey h) x) h []).x = s.x ∧ (done (setCtx t (ctxKey h) x) h []).e = s.e ∧
    ctxAt (done (setCtx t (ctxKey h) x) h []) (ctxKey h) = x :=
  ⟨(replied_done s h only).1, only.apart.exec, only.apart.engines, ctxAt_setCtx t (ctxKey h) x⟩

theorem execContextOpen_answers : Answers s h shaderOnly (firstFail [((takeBlock s h.die).isNone, 0x33), ((ctxAt s (ctxKey h)).state != .free, 0x39)])
    (exec (.contextOpen h) s) (fun u => Replied s u h [] ∧ u.x = s.x ∧ u.e = s.e ∧
      ∃ root, ctxAt u (ctxKey h) = { ctxZero with state := .live, root := root }) := by
  have shape : exec (.contextOpen h) s = execContextOpen h s := rfl
  rw [shape, execContextOpen]
  refine request_answers fun _ pass => ?_
  obtain ⟨some, -⟩ := firstFail_cons_none.1 pass
  split
  · next none => rw [none] at some; cases some
  · next s1 b taken =>
    have only : RangesOnly s (fillTable8 s1 h.die b 4 (fun _ => 0)) :=
      .of_kernel ((kernelOnly_takeBlock taken).trans (kernelOnly_fillTable8 ..))
    obtain ⟨replied, x, e, live⟩ := replied_setCtx s h only { ctxZero with state := .live, root := b }
    exact ⟨replied, x, e, b, live⟩

theorem execContextClose_answers : Answers s h shaderOnly
    (firstFail [((ctxAt s (ctxKey h)).state != .live || ctxHolds s (ctxKey h), 0x39)]) (exec (.contextClose h) s)
    (fun u => Replied s u h [] ∧ u.x = s.x ∧ u.e = s.e ∧ ctxAt u (ctxKey h) = ctxZero ∧ ∀ b ∈ u.d.bps, b.1 / 64 ≠ ctxKey h) := by
  have shape : exec (.contextClose h) s = execContextClose h s := rfl
  rw [shape, execContextClose]
  refine request_answers fun _ _ => ?_
  dsimp only
  have only := (rangesOnly_unmapRange_getD s (ctxKey h) 0 (2 ^ 57)).trans (rangesOnly_finishUnmap _ (ctxKey h) 0 (2 ^ 57))
  generalize finishUnmap ((unmapRange s (ctxKey h) 0 (2 ^ 57)).getD s) (ctxKey h) 0 (2 ^ 57) = t at only ⊢
  generalize tablesUnder _ h.die 5 (ctxAt s (ctxKey h)).root = blocks
  refine ⟨(replied_done s h only).1, only.apart.exec, only.apart.engines, ctxAt_setCtx _ (ctxKey h) ctxZero, fun b mem => ?_⟩
  have other := (List.mem_filter.1 (show b ∈ t.d.bps.filter (fun b => b.1 / 64 != ctxKey h) from mem)).2
  simpa using other

end

end Sys2Proof.Machine
end

section
/-!
SUPPORT. O54: the requests on handles, modules and identifiers (R42, R82 to R85, R299, R320, R329, R393), and the obligation.
-/
namespace Sys2Proof.Machine

section
variable (s : State) (h : Hdr)

/-! ### Exports and imports (R82 to R85, R299) -/

theorem execHandleExport_answers (base len : BitVec 64) (rights : BitVec 8) : Answers s h shaderOnly (firstFail [(notLive s h, 0x38),
    (base.toNat % 65536 != 0, 0x40), (len.toNat % 65536 != 0 || len == 0 || decide (2 ^ 38 < len.toNat), offCode 0x40 8),
    (decide (8 ≤ rights.toNat), offCode 0x40 16), (!rangeOwn s (ctxKey h) base.toNat len.toNat, 0x40), ((freeExport s h.die).isNone, 0x41)])
    (exec (.handleExport h base len rights) s) (fun u => Aside s u ∧ ∃ ix x, freeExport s h.die = some ix ∧
      u.h.exports.find? (h.die * 16384 + ix) = some x ∧ x.live = true ∧ x.ctx = ctxKey h ∧ x.base = base ∧ x.pages = len.toNat / 65536 ∧
      x.maxrt = rights.setWidth 4 ∧ x.imports = [] ∧
      x.gen = (match s.h.exports.find? (h.die * 16384 + ix) with | none => 1 | some y => y.gen) ∧
      Replied s u h (leBytes 8 (handleWord h.die ix x.gen x.pages x.maxrt).toNat)) := by
  have shape : exec (.handleExport h base len rights) s = execHandleExport h base len rights s := rfl
  rw [shape, execHandleExport]
  dsimp only
  refine request_answers fun _ pass => ?_
  simp only [firstFail_cons_none] at pass
  obtain ⟨-, -, -, -, -, free, -⟩ := pass
  generalize freeExport s h.die = found at free ⊢
  cases found with
  | none => cases free
  | some ix =>
    rw [Option.getD_some]
    refine ⟨⟨rfl, rfl, rfl, rfl, rfl, rfl⟩, ix, _, rfl, SMap.find?_ins_self _ _ _, rfl, rfl, rfl, rfl, rfl, rfl, rfl, ?_⟩
    simp [Replied, done, doneBytes, reply]

theorem execHandleImport_unlinked (v window : BitVec 64) (rights route : BitVec 8) (turned : turnedAway s h shaderOnly = none)
    (apart : linked s h.die (hdDie v) = false) : exec (.handleImport h v window rights route) s = .next (reply s h 2 0 0 []) := by
  have shape : exec (.handleImport h v window rights route) s = execHandleImport h v window rights route s := rfl
  rw [shape, execHandleImport]
  simp only [turned, apart, Option.isNone_none, Bool.not_false, Bool.and_self, if_true]

theorem execHandleRevoke_answers (v : BitVec 64) : Answers s h shaderOnly (firstFail [(notLive s h, 0x38),
    (!(handleGood s v && (match exportAt s v with | some x => x.ctx == ctxKey h && hdDie v == h.die | none => false)), 0x44)])
    (exec (.handleRevoke h v) s) (fun u => Replied s u h [] ∧ Aside s u ∧ ∀ x, exportAt s v = some x →
      exportAt u v = some { x with live := false, gen := x.gen % 15 + 1 }) := by
  refine request_answers fun _ pass => ⟨rfl, ⟨rfl, rfl, rfl, rfl, rfl, rfl⟩, fun x found => ?_⟩
  simp only [firstFail_cons_none] at pass
  obtain ⟨-, mine, -⟩ := pass
  have own : hdDie v = h.die := by
    rw [found] at mine
    simp only [Bool.not_eq_false', Bool.and_eq_true, beq_iff_eq] at mine
    exact mine.2.2
  have set := SMap.find?_upd_self s.h.exports (h.die * 16384 + hdExp v) (fun x => { x with live := false, gen := x.gen % 15 + 1 })
  rw [exportAt, own] at found ⊢
  rw [found] at set
  exact set

/-! ### Identifiers and turn rights (R320, R329) -/

theorem execIdentifierAllocate_waits (i : Nat) (gate : BitVec 16) (al : Bool)
    (freeing : s.pl.revoking.any (fun r => r.1.die == h.die && r.2 == i) = true) (turned : turnedAway s h shaderOnly = none) :
    ∃ u, exec (.identifierAllocate h i gate al) s = .next u ∧ u.pl = s.pl ∧ u.h.out = s.h.out ∧
      Instr.identifierAllocate h i gate al ∈ u.h.deferred := by
  have shape : exec (.identifierAllocate h i gate al) s = execIdentifierAllocate h i gate al s := rfl
  rw [shape, execIdentifierAllocate]
  simp only [turned, freeing, Option.isNone_none, Bool.and_self, if_true]
  exact ⟨_, rfl, rfl, rfl, List.mem_append_right _ (List.mem_singleton_self _)⟩

theorem execIdentifierAllocate_answers (i : Nat) (gate : BitVec 16) (al : Bool)
    (settled : s.pl.revoking.any (fun r => r.1.die == h.die && r.2 == i) = false) : Answers s h shaderOnly (firstFail [(notLive s h, 0x38),
      (decide (223 < i) || (if al = true then (planeAt s h.die i).holder.isSome && (planeAt s h.die i).holder != some (ctxKey h)
        else (planeAt s h.die i).holder != some (ctxKey h)), 0x46)]) (exec (.identifierAllocate h i gate al) s) (fun u =>
      u.x = s.x ∧ u.m = s.m ∧
        (al = true → Replied s u h [] ∧ planeAt u h.die i = { planeAt s h.die i with holder := some (ctxKey h), gate := gate }) ∧
        (al = false → u.pl.revoking = s.pl.revoking ++ [(h, i)] ∧ u.h = s.h)) := by
  have shape : exec (.identifierAllocate h i gate al) s = execIdentifierAllocate h i gate al s := rfl
  have holder : (match (planeAt s h.die i).holder with | none => false | some c => c != ctxKey h) =
      ((planeAt s h.die i).holder.isSome && (planeAt s h.die i).holder != some (ctxKey h)) := by
    cases (planeAt s h.die i).holder with
    | none => rfl
    | some c => simp [bne]
  rw [shape, execIdentifierAllocate]
  simp only [settled, Bool.and_false, Bool.false_eq_true, if_false]
  rw [← holder]
  refine request_answers fun _ _ => ?_
  cases al with
  | true =>
    refine ⟨rfl, rfl, fun _ => ⟨rfl, ?_⟩, nofun⟩
    simp [planeAt, done, doneBytes, reply, setPlane, SMap.getD, SMap.find?_ins_self]
  | false => exact ⟨rfl, rfl, nofun, fun _ => ⟨rfl, rfl⟩⟩

end

/-! ### Imports (R83) -/

theorem execHandleImport_maps {s t : State} {h : Hdr} {v window : BitVec 64} {x : ExportRec} {rights route : BitVec 8}
    (found : exportAt s v = some x) (turned : turnedAway s h shaderOnly = none) (live : notLive s h = false) (good : handleGood s v = true)
    (joined : linked s h.die (hdDie v) = true) (aligned : window.toNat % 65536 = 0) (low : 2 ^ 56 ≤ window.toNat)
    (high : window.toNat + x.pages * 65536 ≤ 2 ^ 57) (within : rights.setWidth 4 &&& ~~~(hdMaxrt v) = 0) (ord : rights.toNat / 16 < 3)
    (known : route.toNat < 3)
    (empty : (ctxEntries s (ctxKey h) window.toNat (window.toNat + x.pages * 65536)).any (fun e => pteV e.2.2) = false)
    (mapped : importPages h.die (ctxKey h) v x (rights.setWidth 4) (rights.toNat / 16) window.toNat x.pages s = some t) :
    ∃ u, exec (.handleImport h v window rights route) s = .next u ∧ Replied s u h [] ∧ u.m = t.m ∧ u.x = s.x ∧
      (u.h.exports.find? (hdDie v * 16384 + hdExp v)).map (·.imports) = some (x.imports ++ [(h.die, h.ctx)]) := by
  have shape : exec (.handleImport h v window rights route) s = execHandleImport h v window rights route s := rfl
  have order : (rights.extractLsb' 4 2).toNat = rights.toNat / 16 := by
    rw [BitVec.extractLsb'_toNat, Nat.shiftRight_eq_div_pow]
    omega
  have top : rights.extractLsb' 6 2 = 0 := by
    apply BitVec.eq_of_toNat_eq
    rw [BitVec.extractLsb'_toNat, Nat.shiftRight_eq_div_pow]
    simp only [BitVec.ofNat_eq_ofNat, BitVec.toNat_ofNat]
    omega
  have passes : firstFail [(notLive s h, 0x38), (!handleGood s v, 0x42),
      (window.toNat % 65536 != 0 || decide (window.toNat < 2 ^ 56) || decide (2 ^ 57 < window.toNat + x.pages * 65536), offCode 0x43 8),
      (rights.setWidth 4 &&& ~~~(hdMaxrt v) != 0 || rights.toNat / 16 == 3 || rights.extractLsb' 6 2 != 0, offCode 0x43 16),
      (decide (3 ≤ route.toNat), offCode 0x43 17),
      ((ctxEntries s (ctxKey h) window.toNat (window.toNat + x.pages * 65536)).any (fun e => pteV e.2.2), offCode 0x43 8),
      ((some t).isNone, 0x33)] = none := by
    simp only [firstFail_cons_none]
    refine ⟨live, by rw [good]; rfl, ?_, ?_, decide_eq_false (by omega), empty, rfl, rfl⟩
    · rw [aligned, decide_eq_false (by omega), decide_eq_false (by omega)]
      rfl
    · rw [within, top, beq_false_of_ne (by omega)]
      rfl
  obtain ⟨mem, dies, only⟩ := kernelOnly_importPages _ mapped
  have exports : (t.h.exports.find? (hdDie v * 16384 + hdExp v)) = some x := by
    rw [only]
    exact found
  rw [shape, execHandleImport]
  simp only [joined, Bool.not_true, Bool.and_false, Bool.false_eq_true, if_false, found, Option.getD_some, order, mapped, request, turned, passes]
  refine ⟨_, rfl, ?_, rfl, ?_, ?_⟩
  · exact congrArg (fun out => out ++ [HostMsg.reply h 0 0 0 []]) (by rw [only])
  · rw [only]; rfl
  · have set := SMap.find?_upd_self t.h.exports (hdDie v * 16384 + hdExp v) (fun y => { y with imports := y.imports ++ [(h.die, h.ctx)] })
    rw [exports] at set
    exact congrArg (Option.map ExportRec.imports) set

/-! ### Loading and unloading modules (R39 to R42) -/

section
variable {s : State} {h : Hdr} (turned : turnedAway s h shaderOnly = none) (live : notLive s h = false)
include turned live

theorem execModuleLoad_refuses {image len base : BitVec 64} {img : List Byte} (read : kernelRead s (ctxKey h) len.toNat image = some img)
    {f : Nat × Nat} (bad : loadCheck s h img base = some f) :
    exec (.moduleLoad h image len base) s = .next (refuse s h (offCode f.1 f.2)) := by
  have shape : exec (.moduleLoad h image len base) s = execModuleLoad h image len base s := rfl
  rw [shape, execModuleLoad]
  simp only [request, turned, live, read, Option.getD_some, Option.isNone_some, bad, Bool.false_eq_true, if_false]

theorem execModuleLoad_loads {image len base : BitVec 64} {img : List Byte} (read : kernelRead s (ctxKey h) len.toNat image = some img)
    {t : State} (good : loadCheck s h img base = none) (loaded : loadModule s h img base = some t) :
    exec (.moduleLoad h image len base) s = .next t := by
  have shape : exec (.moduleLoad h image len base) s = execModuleLoad h image len base s := rfl
  rw [shape, execModuleLoad]
  simp only [request, turned, live, read, Option.getD_some, Option.isNone_some, good, loaded, Bool.false_eq_true, if_false]

theorem execModuleUnload_refuses {k : BitVec 64} (calm : ∀ r, s.h.handles.find? k.toNat = some r → r.leaving = none)
    (foreign : ∀ r, s.h.handles.find? k.toNat = some r → r.ctx ≠ ctxKey h) :
    exec (.moduleUnload h k) s = .next (refuse s h 0x45) := by
  have shape : exec (.moduleUnload h k) s = execModuleUnload h k s := rfl
  rw [shape, execModuleUnload]
  cases found : s.h.handles.find? k.toNat with
  | none => simp only [request, turned, live, firstFail, Bool.false_eq_true, if_false, if_true]
  | some r =>
    have other : (r.ctx != ctxKey h) = true := bne_iff_ne.2 (foreign r found)
    simp only [request, turned, live, firstFail, calm r found, reduceCtorEq, other, Bool.true_or, Bool.false_eq_true, if_false, if_true]

end

/-- Setting a key changes nothing that is asked of the others. -/
theorem SMap.any_ins_others {α : Type} (m : SMap α) (k : Nat) (v : α) (p : Nat × α → Bool) :
    (m.ins k v).any (fun x => x.1 != k && p x) = m.any (fun x => x.1 != k && p x) := by
  induction m with
  | nil => simp [SMap.ins]
  | cons b m ih =>
    obtain ⟨i, a⟩ := b
    rw [SMap.ins]
    split
    · simp
    · split
      · next same => simp [same]
      · rw [List.any_cons, List.any_cons, ih]

/-- The handle `k` is leaving. -/
def leavingHandle (s : State) (h : Hdr) (k : Nat) (r : HandleRec) : State :=
  { s with h := { s.h with handles := s.h.handles.ins k { r with leaving := some h } } }

theorem otherHandles_leaving (s : State) (h : Hdr) (k : Nat) (r : HandleRec) (ctx m : Nat) :
    otherHandles (leavingHandle s h k r) k ctx m = otherHandles s k ctx m := by
  simp only [otherHandles, leavingHandle, Bool.and_assoc]
  exact SMap.any_ins_others s.h.handles k _ _

/-- A handle goes; the memory side changes with a context's last alone. -/
theorem dropHandle_drops {s : State} (rising : s.h.handles.risingFrom 0 = true) (k : Nat) (r : HandleRec) :
    (dropHandle s k r).x = s.x ∧ (dropHandle s k r).e = s.e ∧ (dropHandle s k r).h.out = s.h.out ∧
      (dropHandle s k r).h.handles.find? k = none ∧ (otherHandles s k r.ctx r.module = true → (dropHandle s k r).m = s.m) := by
  unfold dropHandle
  extract_lets m last rg es s1 hs used ms
  have only : RangesOnly s s1 := by
    simp only [s1]
    split
    · exact ((rangesOnly_unmapRange_getD s r.ctx rg.1 rg.2).trans (rangesOnly_finishUnmap _ r.ctx rg.1 rg.2)).trans (rangesOnly_freeBlocks _ _ _)
    · exact .refl s
  refine ⟨only.apart.exec, only.apart.engines, only.apart.out, ?_, fun others => ?_⟩
  · exact SMap.find?_del_self _ (by rw [only.apart.handles]; exact rising)
  · have kept : s1 = s := if_neg (by simp [last, others])
    have memory : s1.m = s.m := by rw [kept]
    exact memory

theorem execModuleUnload_unloads {s : State} {h : Hdr} {k : BitVec 64} {r : HandleRec} (rising : s.h.handles.risingFrom 0 = true)
    (turned : turnedAway s h shaderOnly = none) (live : notLive s h = false) (found : s.h.handles.find? k.toNat = some r)
    (calm : r.leaving = none) (own : r.ctx = ctxKey h) : ∃ u, exec (.moduleUnload h k) s = .next u ∧ u.x = s.x ∧ u.e = s.e ∧
      let rg := dataRange (moduleAt s r.module)
      let others := otherHandles s k.toNat (ctxKey h) r.module
      let busy := handleBusy s k.toNat || (!others && rangeBusy s (ctxKey h) rg.1 rg.2)
      (busy = true → u.h.out = s.h.out ∧ u.m = s.m ∧ Instr.moduleUnload h k ∈ u.h.deferred ∧
        (u.h.handles.find? k.toNat).bind (·.leaving) = some h) ∧
      (busy = false → Replied s u h [] ∧ u.h.handles.find? k.toNat = none ∧ (others = true → u.m = s.m)) := by
  have shape : exec (.moduleUnload h k) s = execModuleUnload h k s := rfl
  let t := leavingHandle s h k.toNat r
  have held : t.h.handles.find? k.toNat = some { r with leaving := some h } := SMap.find?_ins_self _ _ _
  have mine : (r.ctx != ctxKey h || (none : Option Hdr).isSome) = false := by simp [own]
  have ran : exec (.moduleUnload h k) s = .next (if (handleBusy s k.toNat || (!otherHandles s k.toNat (ctxKey h) r.module &&
      rangeBusy s (ctxKey h) (dataRange (moduleAt s r.module)).1 (dataRange (moduleAt s r.module)).2)) = true
      then defer t (.moduleUnload h k) else done (dropHandle t k.toNat { r with leaving := some h }) h []) := by
    rw [shape, execModuleUnload]
    simp only [found, calm, reduceCtorEq, if_false, request, turned, live, firstFail, mine, Bool.false_eq_true, SMap.find?_ins_self]
    change Host.Outcome.next (if (handleBusy s k.toNat || (!otherHandles t k.toNat r.ctx r.module &&
      rangeBusy s r.ctx (dataRange (moduleAt s r.module)).1 (dataRange (moduleAt s r.module)).2)) = true then _ else _) = _
    rw [otherHandles_leaving, ← own]
    rfl
  rw [ran]
  have others := otherHandles_leaving s h k.toNat r (ctxKey h) r.module
  by_cases busy : (handleBusy s k.toNat || (!otherHandles s k.toNat (ctxKey h) r.module &&
    rangeBusy s (ctxKey h) (dataRange (moduleAt s r.module)).1 (dataRange (moduleAt s r.module)).2)) = true
  · rw [if_pos busy]
    refine ⟨_, rfl, rfl, rfl, fun _ => ⟨rfl, rfl, List.mem_append_right _ (List.mem_singleton_self _), ?_⟩,
      fun idle => absurd (busy.symm.trans idle) Bool.false_ne_true.symm⟩
    exact congrArg (Option.bind · HandleRec.leaving) held
  · rw [if_neg busy]
    obtain ⟨x, e, out, gone, memory⟩ := dropHandle_drops (s := t) (SMap.risingFrom_ins _ _ rising (Nat.zero_le _)) k.toNat { r with leaving := some h }
    refine ⟨_, rfl, x, e, fun kept => absurd kept busy,
      fun _ => ⟨congrArg (fun out => out ++ [HostMsg.reply h 0 0 0 []]) out, gone, fun some => memory ?_⟩⟩
    rw [← own] at others some
    exact others.trans some

/-- Settles O54: each request is answered (`request_answers`), and its effect is that of the lemma for it. -/
theorem launchMemoryAndHandleRequestsAreAnswered : Obligations.LaunchMemoryAndHandleRequestsAreAnswered := by
  intro s h gangs events owners handles launches ctx no ans ctxIs
  refine ⟨execLaunchSubmit_answers s h, execLaunchCancel_answers s h gangs launches, execQueuePriority_answers s h,
    execEvent_answers s h events, execDeviceSettings_answers s h, execMemMap_answers s h, execMemUnmap_answers s h,
    execMemInvalidate_answers s h, fun base size => request_setCtx s h,
    fun n => ⟨execCxlUnitAssign_assigns s h n, execCxlUnitAssign_releases s h owners n⟩, execModuleCopy_answers s h,
    fun tenant => request_setCtx s h, execContextOpen_answers s h, execContextClose_answers s h, execHandleExport_answers s h,
    fun v window rights route turned apart => execHandleImport_unlinked s h v window rights route turned apart, ?_,
    execHandleRevoke_answers s h, ?_, ?_, ?_, fun grant => request_setCtx s h⟩
  · intro v x window rights route found turned live good joined aligned low high within ord known empty t mapped
    exact execHandleImport_maps found turned live good joined aligned low high within ord known empty mapped
  · intro image len base img turned live read
    exact ⟨fun f bad => execModuleLoad_refuses turned live read bad, fun t good loaded => execModuleLoad_loads turned live read good loaded⟩
  · intro k calm
    refine ⟨fun turned foreign live => execModuleUnload_refuses turned live calm foreign, fun r turned live found own => ?_⟩
    exact execModuleUnload_unloads handles turned live found (calm r found) own
  · intro i gate al e freeing bad
    exact ⟨execIdentifierAllocate_waits s h i gate al, execIdentifierAllocate_answers s h i gate al⟩

end Sys2Proof.Machine
end
